-- ==== Sys2Proof/Word.lean ====
section
/-! DEFINITION. The word widths of the engine and the plainest arithmetic on them (R4, R6 and the identifier paragraphs of 00_scope.md). -/

namespace Sys2Proof

abbrev Byte := BitVec 8
abbrev Word := BitVec 32
abbrev DWord := BitVec 64
/-- Agent port number, AP0 to AP15. -/
abbrev PortNo := BitVec 4
/-- Local agent number on its port. -/
abbrev LocalAgent := BitVec 8
/-- AgentID: port in [11:8], local number in [7:0]. -/
abbrev AgentId := BitVec 12
abbrev NodeId := BitVec 16
abbrev PartId := BitVec 6
abbrev CtxId := BitVec 8
/-- INDEX of an ObjectRef. -/
abbrev Index := BitVec 20
abbrev Prio := BitVec 3
/-- Fabric port FP0 to FP7. -/
abbrev FabPort := BitVec 3
/-- Landing notice channel. -/
abbrev LnChan := BitVec 3
/-- Physical bank 0 to 67. -/
abbrev Bank := BitVec 7
/-- Management sequencer 0 to 3. -/
abbrev SeqNo := BitVec 2
/-- Byte address on the control register port. -/
abbrev CrAddr := BitVec 20
/-- Requester ID. -/
abbrev ReqId := BitVec 16
/-- A command window: `none` is the supervisor window, `some p` the window of partition p. -/
abbrev Win := Option PartId

/-- A sparse store: pairs of a key and an entry, keys strictly rising. -/
abbrev Table (α : Type) := List (Nat × α)

end Sys2Proof
end

