-- ==== Sys2Proof/Syntax.lean ====
section
/-! DEFINITION. The commands of the engine: one constructor per row of spec/opcode_table.json, with the operands of log 4. -/

namespace Sys2Proof

/-- An object of this engine: the partition its context resolves under, ContextID and INDEX (R6, R24). -/
structure OKey where
  part : PartId
  ctx : CtxId
  index : Index
  deriving DecidableEq, Repr

/-- The fields of a request flit besides `OPCODE` (R56). -/
structure Req where
  ordered : Bool
  invHint : Bool
  noReply : Bool
  spare : Bool
  ctx : CtxId
  node : NodeId
  index : Index
  aux : Byte
  payload : DWord
  deriving DecidableEq, Repr

/-- An access on the control register port (R389): write data, `CR_PRIV` and `CR_REQID`. -/
structure CrAcc where
  wdata : Word
  priv : Bool
  reqid : ReqId
  deriving DecidableEq, Repr

/-- The header of an OSF flit without `KIND` (R199). -/
structure Hdr where
  viaEn : Bool
  rsvA : BitVec 3
  dst : NodeId
  src : NodeId
  via : NodeId
  lseq : BitVec 12
  lack : BitVec 12
  credPool : BitVec 3
  credNum : BitVec 5
  hop : BitVec 6
  rsvB : BitVec 2
  crc : BitVec 16
  deriving DecidableEq, Repr

/-- A flit received on a fabric port: header, body and `FP_RX_ERR` (R196, R199). -/
structure Rx where
  port : FabPort
  hdr : Hdr
  body : BitVec 144
  err : Bool
  deriving DecidableEq, Repr

/-- The stores of R19 besides the object banks. -/
inductive Store where
  | waiter | ringDesc | directory | opTable | firmware | held | trace | snapshot
  deriving DecidableEq, Repr

/-- Where an uncorrectable error occurs (R335). -/
inductive ErrSite where
  /-- An object word, met by the operation with this op table entry, if any. -/
  | objectWord (k : OKey) (op : Option Nat)
  /-- The waiter entry at this place of the waiter list. -/
  | waiterEntry (n : Nat)
  /-- The entry of a wait of this instance's agents on an object homed elsewhere, by its place. -/
  | remoteWait (n : Nat)
  /-- A record, accumulator, index, window or tree entry of an object. -/
  | ownedEntry (k : OKey)
  /-- A holdings or fence entry, by its place. -/
  | holdingEntry (n : Nat)
  | fenceEntry (n : Nat)
  | ringDesc (k : OKey)
  | ctxEntry (part : PartId) (ctx : CtxId)
  | opEntry (n : Nat)
  | heldEntry (n : Nat)
  | firmware (q : SeqNo)
  /-- Trace staging, or snapshot staging. -/
  | staging (snap : Bool)
  deriving DecidableEq, Repr

/-- A physical macro: a bank, or a macro of another store (R327, R335). -/
inductive WipeUnit where
  | bank (b : Bank)
  | store (st : Store) (n : Nat)
  deriving DecidableEq, Repr

/-- Corrected single-bit errors of one macro (R16). -/
structure Corrections where
  unit : WipeUnit
  count : Nat
  deriving DecidableEq, Repr

/-- The instructions of the test access port (R387). -/
inductive TapInstr where
  | bypass | idcode | samplePreload | extest | wrapper
  | dbgSeq | dbgReg | dbgSram
  deriving DecidableEq, Repr

/-- What `DBG_SEQ` does with its sequencer (R387). -/
inductive SeqAct where
  | halt | step | read
  deriving DecidableEq, Repr

/-- A word that `DBG_SRAM` names: of an object bank, of a firmware memory, or of another store. -/
inductive SramWord where
  | bank (b : Bank) (n : BitVec 14)
  | firmware (q : SeqNo) (n : BitVec 17)
  | other (st : Store) (n : Nat)
  deriving DecidableEq, Repr

/-- A selection on the test access port with what its data register asks for (R387, log 47). A `w` is the value written; without it the word is read. -/
inductive TapScan where
  | bypass | idcode | samplePreload | extest
  /-- The IEEE 1500 wrapper; `test` runs the memory test. -/
  | wrapper (test : Bool)
  | dbgSeq (q : SeqNo) (act : SeqAct)
  | dbgReg (a : CrAddr) (w : Option Word)
  | dbgSram (m : SramWord) (w : Option (BitVec 256))
  deriving DecidableEq, Repr

/-- One constructor per row of the table. -/
inductive Instr where
  /-- ARRIVE (R86). -/
  | arrive (p : PortNo) (a : LocalAgent) (f : Req)
  /-- ARRIVE_REDUCE (R86). -/
  | arriveReduce (p : PortNo) (a : LocalAgent) (f : Req)
  /-- WAIT (R86). -/
  | wait (p : PortNo) (a : LocalAgent) (f : Req)
  /-- ARRIVE_WAIT (R86). -/
  | arriveWait (p : PortNo) (a : LocalAgent) (f : Req)
  /-- SIGNAL (R118). -/
  | signal (p : PortNo) (a : LocalAgent) (f : Req)
  /-- READ_MISSING (R102). -/
  | readMissing (p : PortNo) (a : LocalAgent) (f : Req)
  /-- DEADLINE_ARM (R96). -/
  | deadlineArm (p : PortNo) (a : LocalAgent) (f : Req)
  /-- TAKE (R115). -/
  | take (p : PortNo) (a : LocalAgent) (f : Req)
  /-- TRY_TAKE (R115). -/
  | tryTake (p : PortNo) (a : LocalAgent) (f : Req)
  /-- GIVE (R116). -/
  | give (p : PortNo) (a : LocalAgent) (f : Req)
  /-- LOCK (R124). -/
  | lock (p : PortNo) (a : LocalAgent) (f : Req)
  /-- TRY_LOCK (R124). -/
  | tryLock (p : PortNo) (a : LocalAgent) (f : Req)
  /-- UNLOCK (R125). -/
  | unlock (p : PortNo) (a : LocalAgent) (f : Req)
  /-- CLAIM_ID (R126). -/
  | claimId (p : PortNo) (a : LocalAgent) (f : Req)
  /-- CLAIM_READ (R127). -/
  | claimRead (p : PortNo) (a : LocalAgent) (f : Req)
  /-- CAS (R121). -/
  | cas (p : PortNo) (a : LocalAgent) (f : Req)
  /-- CAS_CONT (R57). -/
  | casCont (p : PortNo) (a : LocalAgent) (f : Req)
  /-- FETCH_ADD (R122). -/
  | fetchAdd (p : PortNo) (a : LocalAgent) (f : Req)
  /-- READ_OBJ (R40). -/
  | readObj (p : PortNo) (a : LocalAgent) (f : Req)
  /-- RESERVE (R147). -/
  | reserve (p : PortNo) (a : LocalAgent) (f : Req)
  /-- COMMIT (R150). -/
  | commit (p : PortNo) (a : LocalAgent) (f : Req)
  /-- WAIT_AVAIL (R153). -/
  | waitAvail (p : PortNo) (a : LocalAgent) (f : Req)
  /-- RELEASE (R154). -/
  | release (p : PortNo) (a : LocalAgent) (f : Req)
  /-- LAND_EXPECT (R180). -/
  | landExpect (p : PortNo) (a : LocalAgent) (f : Req)
  /-- SIGNAL_AFTER_LANDED (R185). -/
  | signalAfterLanded (p : PortNo) (a : LocalAgent) (f : Req)
  /-- FENCE (R69). -/
  | fence (p : PortNo) (a : LocalAgent) (f : Req)
  /-- FENCE_COMPLETE (R69). -/
  | fenceComplete (agent : AgentId)
  /-- SET_TAG (R352). -/
  | setTag (p : PortNo) (a : LocalAgent) (f : Req)
  /-- SECTION_MARK (R352). -/
  | sectionMark (p : PortNo) (a : LocalAgent) (f : Req)
  /-- MGMT (R61). -/
  | mgmt (p : PortNo) (a : LocalAgent) (f : Req)
  /-- REQUEST_FLIT_WITHOUT_CREDIT (R51). -/
  | requestFlitWithoutCredit (p : PortNo) (a : LocalAgent) (opcode : Byte) (f : Req)
  /-- OP_TABLE_ENTRY_GRANT (R75). -/
  | opTableEntryGrant
  /-- RESPONSE_CREDIT (R51). -/
  | responseCredit (p : PortNo)
  /-- RESPONSE_PRESENT (R70). -/
  | responsePresent (p : PortNo)
  /-- AGENT_RESET_NOTIFICATION (R77). -/
  | agentResetNotification (p : PortNo) (a : LocalAgent)
  /-- AGENT_RESET_PROCESS (R77). -/
  | agentResetProcess (p : PortNo) (a : LocalAgent)
  /-- AP_BIND_WRITE (R401). -/
  | apBindWrite (agent : AgentId) (acc : CrAcc)
  /-- LANDING_NOTICE (R179). -/
  | landingNotice (ch : LnChan) (data : DWord)
  /-- LANDING_DECREMENT (R183). -/
  | landingDecrement
  /-- HELD_SIGNAL_PERFORM (R187). -/
  | heldSignalPerform
  /-- HELD_COMMIT_PERFORM (R160). -/
  | heldCommitPerform
  /-- SN_NOTICE_PRESENT (R188). -/
  | snNoticePresent
  /-- SN_ACK (R190). -/
  | snAck (data : Word)
  /-- DEADLINE_DUE (R99). -/
  | deadlineDue (edges : Nat)
  /-- DEADLINE_EXPIRY (R99). -/
  | deadlineExpiry (edges : Nat)
  /-- LEASE_DUE (R134). -/
  | leaseDue (edges : Nat)
  /-- LEASE_EXPIRY (R135). -/
  | leaseExpiry (edges : Nat)
  /-- WAIT_TIMEOUT (R58). -/
  | waitTimeout (edges : Nat)
  /-- WATCH_RELEASE (R381). -/
  | watchRelease
  /-- CMD_SUBMIT (R267). -/
  | cmdSubmit (w : Win) (acc : CrAcc)
  /-- REPLY_POP (R269). -/
  | replyPop (w : Win) (acc : CrAcc)
  /-- NOP (R279). -/
  | nop (id : Nat)
  /-- CTX_CREATE (R241). -/
  | ctxCreate (id : Nat)
  /-- CTX_EVICT (R244). -/
  | ctxEvict (id : Nat)
  /-- CTX_EVICT_DRAINED (R245). -/
  | ctxEvictDrained (part : PartId) (ctx : CtxId)
  /-- CTX_RESTORE (R250). -/
  | ctxRestore (id : Nat)
  /-- CTX_RESTORE_RECORD_READ (R250). -/
  | ctxRestoreRecordRead (part : PartId) (ctx : CtxId) (crcOk : Bool)
  /-- CTX_DESTROY (R261). -/
  | ctxDestroy (id : Nat)
  /-- CTX_QUERY (R239). -/
  | ctxQuery (id : Nat)
  /-- OBJ_CREATE (R43). -/
  | objCreate (id : Nat)
  /-- OBJ_DESTROY (R45). -/
  | objDestroy (id : Nat)
  /-- OBJ_READ (R281). -/
  | objRead (id : Nat)
  /-- OBJ_READ_DESC (R281). -/
  | objReadDesc (id : Nat)
  /-- BARRIER_ROSTER (R283). -/
  | barrierRoster (id : Nat)
  /-- LOCK_FORCE_RELEASE (R137). -/
  | lockForceRelease (id : Nat)
  /-- RING_RESET (R156). -/
  | ringReset (id : Nat)
  /-- RING_WINDOW_OPEN (R157). -/
  | ringWindowOpen (id : Nat)
  /-- RING_WINDOW_CLOSE (R161). -/
  | ringWindowClose (id : Nat)
  /-- PART_CREATE (R259). -/
  | partCreate (id : Nat)
  /-- PART_ACTIVATE (R298). -/
  | partActivate (id : Nat)
  /-- PARTITION_STARTUP (R297). -/
  | partitionStartup (part : PartId)
  /-- PART_QUIESCE (R295). -/
  | partQuiesce (id : Nat)
  /-- PART_QUIESCE_DRAINED (R295). -/
  | partQuiesceDrained (part : PartId)
  /-- PART_QUIESCE_TIMEOUT (R295). -/
  | partQuiesceTimeout (part : PartId) (edges : Nat)
  /-- PART_DESTROY (R262). -/
  | partDestroy (id : Nat)
  /-- IMAGE_BEGIN (R302). -/
  | imageBegin (id : Nat)
  /-- IMAGE_FRAME (R305). -/
  | imageFrame (id : Nat)
  /-- IMAGE_COMMIT (R307). -/
  | imageCommit (id : Nat)
  /-- SECTION_BEGIN (R194). -/
  | sectionBegin (id : Nat)
  /-- KERNEL_FENCE (R194). -/
  | kernelFence (part : PartId)
  /-- SECTION_BEGIN_TIMEOUT (R194). -/
  | sectionBeginTimeout (part : PartId) (edges : Nat)
  /-- SECTION_END (R282). -/
  | sectionEnd (id : Nat)
  /-- ROUTE_DISCOVER (R213). -/
  | routeDiscover (id : Nat)
  /-- ROUTE_LOAD (R215). -/
  | routeLoad (id : Nat)
  /-- TREE_STITCH (R222). -/
  | treeStitch (id : Nat)
  /-- TREE_UNSTITCH (R222). -/
  | treeUnstitch (id : Nat)
  /-- CENSUS_NOW (R313). -/
  | censusNow (id : Nat)
  /-- HOBBLE (R363). -/
  | hobble (id : Nat)
  /-- UNHOBBLE (R371). -/
  | unhobble (id : Nat)
  /-- SNAPSHOT (R373). -/
  | snapshot (id : Nat)
  /-- WATCH_SET (R377). -/
  | watchSet (id : Nat)
  /-- WATCH_CLEAR (R381). -/
  | watchClear (id : Nat)
  /-- TRACE_CTL (R355). -/
  | traceCtl (id : Nat)
  /-- AWL_SET (R358). -/
  | awlSet (id : Nat)
  /-- AWL_CLEAR (R358). -/
  | awlClear (id : Nat)
  /-- AWL_RESUME (R360). -/
  | awlResume (id : Nat)
  /-- AWL_HIT (R359). -/
  | awlHit (q : SeqNo) (pc : Word)
  /-- FW_STAGE (R289). -/
  | fwStage (id : Nat)
  /-- FW_APPLY (R290). -/
  | fwApply (id : Nat)
  /-- FW_APPLY_SEQUENCER_LOAD (R290). -/
  | fwApplySequencerLoad
  /-- FW_QUERY (R284). -/
  | fwQuery (id : Nat)
  /-- FW_BOOT_LOAD (R288). -/
  | fwBootLoad
  /-- FW_PUSH_DATA (R288). -/
  | fwPushData (acc : CrAcc)
  /-- FW_PUSH_PTR_WRITE (R288). -/
  | fwPushPtrWrite (acc : CrAcc)
  /-- BANK_RETIRE (R340). -/
  | bankRetire (id : Nat)
  /-- BANK_MIGRATION_SWITCH (R341). -/
  | bankMigrationSwitch
  /-- MIGRATION_COMPLETE (R341). -/
  | migrationComplete
  /-- BANK_GATE (R338). -/
  | bankGate (id : Nat)
  /-- BANK_GATE_COMPLETE (R338). -/
  | bankGateComplete
  /-- BANK_UNGATE (R338). -/
  | bankUngate (id : Nat)
  /-- GATED_BANK_REPOWER (R339). -/
  | gatedBankRepower (bank : Bank)
  /-- LC_ADVANCE (R330). -/
  | lcAdvance (id : Nat)
  /-- LC_FLOOR_RAISE (R333). -/
  | lcFloorRaise (id : Nat)
  /-- LC_TRANSITION_RESET (R334). -/
  | lcTransitionReset (edges : Nat)
  /-- UNCORRECTABLE_ERROR (R335). -/
  | uncorrectableError (site : ErrSite) (macroNo : Nat)
  /-- CLEAR_ADVISE (R336). -/
  | clearAdvise (acc : CrAcc)
  /-- ERRLOG_POP (R385). -/
  | errlogPop (acc : CrAcc)
  /-- ERRLOG_CLEAR (R385). -/
  | errlogClear (acc : CrAcc)
  /-- TRACE_WRITE (R356). -/
  | traceWrite
  /-- HOBBLE_MARKER (R363). -/
  | hobbleMarker (r : Rx)
  /-- HOBBLE_DRAIN_END (R364). -/
  | hobbleDrainEnd
  /-- HOBBLE_DONE (R369). -/
  | hobbleDone (r : Rx)
  /-- HOBBLE_REPLY_TIMEOUT (R369). -/
  | hobbleReplyTimeout (edges : Nat)
  /-- HOBBLE_RESUME (R371). -/
  | hobbleResume (r : Rx)
  /-- HOBBLE_RESUMED (R371). -/
  | hobbleResumed (r : Rx)
  /-- COLD_RESET (R323). -/
  | coldReset (straps : BitVec 16)
  /-- WARM_RESET (R324). -/
  | warmReset
  /-- ROOT_LOCK_LOSS (R318). -/
  | rootLockLoss
  /-- ROOT_LOCK_RISE (R316). -/
  | rootLockRise
  /-- SRAM_WIPE_DONE (R326). -/
  | sramWipeDone (failed : List WipeUnit)
  /-- LINK_UP (R212). -/
  | linkUp (fp : FabPort)
  /-- HELLO (R212). -/
  | hello (r : Rx)
  /-- LINK_LOSS (R228). -/
  | linkLoss (fp : FabPort)
  /-- LINK_SILENCE_TIMEOUT (R228). -/
  | linkSilenceTimeout (fp : FabPort) (edges : Nat)
  /-- RECONCILE (R229). -/
  | reconcile (r : Rx)
  /-- RECONCILE_TIMEOUT (R230). -/
  | reconcileTimeout (fp : FabPort) (edges : Nat)
  /-- REMOTE_OP (R216). -/
  | remoteOp (r : Rx)
  /-- OP_EXT (R202). -/
  | opExt (r : Rx)
  /-- CPL (R216). -/
  | cpl (r : Rx)
  /-- COMBINE (R223). -/
  | combine (r : Rx)
  /-- WAKE_NODE (R217). -/
  | wakeNode (r : Rx)
  /-- GRANT (R219). -/
  | grant (r : Rx)
  /-- CANCEL_DONE (R218). -/
  | cancelDone (r : Rx)
  /-- TREE_REL (R225). -/
  | treeRel (r : Rx)
  /-- WAIT_CANCEL (R218). -/
  | waitCancel (r : Rx)
  /-- ABANDON (R218). -/
  | abandon (r : Rx)
  /-- RSV_CANCEL (R218). -/
  | rsvCancel (r : Rx)
  /-- NOTICE_FWD (R219). -/
  | noticeFwd (r : Rx)
  /-- FLIT_FORWARD (R208). -/
  | flitForward (kind : BitVec 4) (r : Rx)
  /-- FLIT_TRANSMIT (R206). -/
  | flitTransmit (fp : FabPort)
  /-- IDLE_SEND (R209). -/
  | idleSend (fp : FabPort) (edges : Nat)
  /-- DISCOVERY_PROBE (R213). -/
  | discoveryProbe (r : Rx)
  /-- DISCOVERY_REPORT (R213). -/
  | discoveryReport (r : Rx)
  /-- NODEID_ASSIGN (R213). -/
  | nodeidAssign (r : Rx)
  /-- PLAN_DIGEST (R213). -/
  | planDigest (r : Rx)
  /-- ROUTE_DV (R213). -/
  | routeDv (r : Rx)
  /-- DISCOVERY_CONVERGED (R213). -/
  | discoveryConverged (edges : Nat)
  /-- DISCOVERY_COMPLETE (R213). -/
  | discoveryComplete (r : Rx)
  /-- RESTITCH_START (R232). -/
  | restitchStart (tree : AgentId)
  /-- STITCH_HOLD_REQUEST (R232). -/
  | stitchHoldRequest (r : Rx)
  /-- STITCH_JOIN (R232). -/
  | stitchJoin (r : Rx)
  /-- STITCH_LEAVE (R232). -/
  | stitchLeave (r : Rx)
  /-- STITCH_DONE (R232). -/
  | stitchDone (r : Rx)
  /-- SYNC_PERIOD (R234). -/
  | syncPeriod (edges : Nat)
  /-- SYNC_REQ (R234). -/
  | syncReq (r : Rx)
  /-- SYNC_RSP (R236). -/
  | syncRsp (r : Rx)
  /-- TIME_PARENT_TIMEOUT (R237). -/
  | timeParentTimeout (edges : Nat)
  /-- REMOTE_CMD_FRAGMENT (R276). -/
  | remoteCmdFragment (r : Rx)
  /-- REMOTE_CMD_TIMEOUT (R277). -/
  | remoteCmdTimeout (id : Nat) (edges : Nat)
  /-- CENSUS_TICK (R313). -/
  | censusTick (edges : Nat)
  /-- CENSUS_START (R313). -/
  | censusStart (r : Rx)
  /-- CENSUS_FOLD (R313). -/
  | censusFold (r : Rx)
  /-- CENSUS_FOLD_TIMEOUT (R313). -/
  | censusFoldTimeout (edges : Nat)
  /-- CENSUS_VERDICT (R313). -/
  | censusVerdict (r : Rx)
  /-- CENSUS_QUERY (R314). -/
  | censusQuery (r : Rx)
  /-- CENSUS_ANSWER (R314). -/
  | censusAnswer (r : Rx)
  /-- WAITER_SPILL (R252). -/
  | waiterSpill
  /-- WAITER_RELOAD (R252). -/
  | waiterReload
  /-- SPILLED_WAITER_WAKE (R253). -/
  | spilledWaiterWake
  /-- MULTIWORD_READ (R394). -/
  | multiwordRead (addr : CrAddr) (acc : CrAcc)
  /-- REGISTER_WRITE (R7). -/
  | registerWrite (addr : CrAddr) (acc : CrAcc)
  /-- TAP_INSTRUCTION (R387). -/
  | tapInstruction (t : TapScan)
  /-- IDLE_FLIT (R209). -/
  | idleFlit (r : Rx)
  /-- BAD_FLIT (R201). -/
  | badFlit (kind : BitVec 4) (r : Rx)
  /-- CORRECTION_THRESHOLD (R16, R336, R340): corrections in a macro. -/
  | correctionThreshold (c : Corrections)
  /-- DISTRIBUTION_COMPLETE (R343). -/
  | distributionComplete
  /-- SPILLED_ENTRY_FETCH (R145). -/
  | spilledEntryFetch (k : OKey)
  /-- CENSUS_QUERY_TIMEOUT (R314). -/
  | censusQueryTimeout (edges : Nat)
  /-- UNHOBBLE_REPLY_TIMEOUT (R371). -/
  | unhobbleReplyTimeout (edges : Nat)
  /-- NOT_A_CHILD (R213). -/
  | notAChild (r : Rx)
  /-- DISCOVERY_COMPLETION_UP (R213). -/
  | discoveryCompletionUp (r : Rx)
  /-- STITCH_REPLY (R232). -/
  | stitchReply (r : Rx)
  deriving DecidableEq, Repr

end Sys2Proof
end

