-- ==== Sys2Proof/Config.lean ====
section
/-! DEFINITION. What one engine fixes (R19, R74, R100, R191) and the values the spec leaves open, as uninterpreted functions. -/

namespace Sys2Proof.Config

/-- The n-th open value of a run (log 6): nothing in the model says what it is. -/
opaque freeValue : Nat → DWord

/-- What a data register of the test access port shifts out where the spec gives no bits: the n-th such value of a run (log 47). -/
opaque freeScan : Nat → BitVec 256

/-- SHA-384 (R287, R302, R311): the standard's function, not given by the spec (log 7). -/
opaque sha384 : List Byte → BitVec 384

/-- ECDSA P-384 with SHA-384: public key, signature, message (R286, R299, R331; log 7). -/
opaque ecdsaVerify : List Byte → List Byte → List Byte → Bool

/-- State code that an `OP` snapshot record gives an entry whose operation is performed and whose reply has not left: R374 names no code (log 27). -/
opaque opDoneState : BitVec 3

/-- R74: op table entries. -/
def opEntries : Nat := 32768
/-- R74: entries kept for fabric operations. -/
def fabricReserve : Nat := 2048
/-- R74: entries kept for each enabled port. -/
def portReserve : Nat := 256
/-- R76: entries of a port's hold store. -/
def holdEntries : Nat := 256
/-- R51: credits each way of an agent port. -/
def portCredits : Nat := 64
/-- R177: credits of a landing channel. -/
def lnCredits : Nat := 16
/-- Entries that a macro of a store other than the waiter store holds: R19 gives its number for the waiter store only (log 24). -/
opaque macroEntries : Store → Nat → Nat

/-- R19: entries of one bank of the waiter store. -/
def waiterBank : Nat := 16384
/-- Waiter store (storage budget, R19). -/
def waiterEntries : Nat := 262144
/-- Ring descriptors (R19). -/
def ringDescs : Nat := 65536
/-- R19: held-signal queue entries. -/
def heldEntries : Nat := 4096
/-- R99, R100: objects of the expiring set. -/
def expiringEntries : Nat := 512
/-- R25: resident contexts. -/
def residentContexts : Nat := 256
/-- R89: arrival records of one engine. -/
def arrivalRecords : Nat := 256
/-- R181: entries of the arming index. -/
def armingEntries : Nat := 65536
/-- R128: holdings entries. -/
def holdingEntries : Nat := 16384
/-- R136: fence entries. -/
def fenceEntries : Nat := 4096
/-- R377: tensor watches. -/
def watchEntries : Nat := 1024
/-- R191: places of the scheduler notice queue for inheritance notices, and for management notices. -/
def snInherit : Nat := 448
def snMgmt : Nat := 64
/-- R356: records of trace staging. -/
def traceStaging : Nat := 12288
/-- Records of snapshot staging (R19). -/
def snapshotStaging : Nat := 16384
/-- R382: entries of the Salt Rake. -/
def saltRake : Nat := 1024
/-- R268: command slots of a window. -/
def cmdSlots : Nat := 8
/-- R339: operations of a gated bank's wake queue. -/
def wakeQueue : Nat := 256
/-- R1: `ID_VERSION`. -/
def idVersion : Word := 0x00030100#32
/-- R388: `IDCODE`. -/
def idCode : Word := 0x30C179CB#32

end Sys2Proof.Config
end

