-- ==== Sys2Proof/Machine/State.lean ====
section
/-! DEFINITION. The state of one SX7 engine, as plain data, and the state right after cold reset. -/

namespace Sys2Proof.Machine

/-- No command stops the engine: every error of the spec is a status, a report, a counter or a service state (log 9). -/
inductive Fault where
  deriving DecidableEq, Repr

/-- Why a command is refused. -/
inductive Refusal where
  /-- Raised by an arm of `exec` that has no meaning yet. Safe: the model stops. -/
  | notModelled (mnemonic : String)
  deriving DecidableEq, Repr

/-! ### Operations, statuses, object words -/

/-- Opcodes of R60 and the fabric opcodes of R218. -/
inductive Op where
  | arrive | arriveReduce | wait | arriveWait | signal | readMissing | deadlineArm
  | take | tryTake | give | lock | tryLock | unlock | claimId | claimRead
  | cas | fetchAdd | readObj | reserve | commit | waitAvail | release
  | landExpect | signalAfterLanded | fence | setTag | sectionMark | mgmt | casCont
  | waitCancel | abandon | rsvCancel
  deriving DecidableEq, Repr

/-- Status codes of R65, R220 and R266. -/
inductive Status where
  | ok | wouldBlock | partialRel | timedOut | abandoned | leaseExpired
  | noObject | typeMismatch | accessDenied | formatError | rangeError | fenced | evictedRetry
  | fabUnreachable | fabNotReady
  | identityError | digestError | signatureError | fwRejected | lcDenied | aborted | remoteTimeout
  deriving DecidableEq, Repr

/-- Header of an object word (R31), without `TYPE`. -/
structure ObjHdr where
  parked : Bool
  spill : Bool
  watch : Bool
  held : Bool
  part : PartId
  tree : Bool
  wprio : Prio
  wq : BitVec 18
  deriving DecidableEq, Repr

/-- R32. -/
structure Barrier where
  target : BitVec 16
  curCount : BitVec 16
  nextCount : BitVec 16
  epoch : BitVec 16
  fmt : BitVec 4
  rop : BitVec 3
  redEn : Bool
  dlArmed : Bool
  lastPartial : Bool
  hold : Bool
  accValid : Bool
  missCount : BitVec 16
  acc : DWord
  result : DWord
  deriving DecidableEq, Repr

/-- R33. -/
structure Group where
  k : BitVec 8
  n : BitVec 8
  epoch : BitVec 12
  nextArrived : DWord
  arrived : DWord
  enrolled : DWord
  deriving DecidableEq, Repr

/-- R34. -/
structure Sem where
  count : DWord
  limit : DWord
  deriving DecidableEq, Repr

/-- R35. -/
structure Event where
  set : Bool
  setterAgent : AgentId
  setterNode : NodeId
  setTime : DWord
  deriving DecidableEq, Repr

/-- R36. -/
structure Lock where
  held : Bool
  policy : BitVec 2
  lastEnd : BitVec 2
  holdPrio : Prio
  effPrio : Prio
  holderNode : NodeId
  holderAgent : AgentId
  leaseUs : BitVec 24
  acqSeq : BitVec 36
  claim : DWord
  deriving DecidableEq, Repr

/-- R37. -/
structure Cell where
  value : DWord
  lastAgent : AgentId
  lastNode : NodeId
  deriving DecidableEq, Repr

/-- R38. -/
structure Ring where
  desc : BitVec 16
  remoteOpen : Bool
  deriving DecidableEq, Repr

/-- R39. -/
structure Landing where
  xferTag : BitVec 16
  countsWrites : Bool
  armed : Bool
  sectn : Bool
  underflow : Bool
  remain : BitVec 48
  heldCount : BitVec 13
  deriving DecidableEq, Repr

/-- Bits [255:36] of an object word, by type (R30). -/
inductive Body where
  | barrier (b : Barrier)
  | semaphore (v : Sem)
  | event (v : Event)
  | lock (v : Lock)
  | ring (v : Ring)
  | landing (v : Landing)
  | group (v : Group)
  | cell (v : Cell)
  deriving DecidableEq, Repr

/-- A bound object word. An unbound slot is no entry of the store (R30: it reads as all zeros). -/
structure Obj where
  hdr : ObjHdr
  body : Body
  deriving DecidableEq, Repr

/-! ### Clocks, reset and startup (CRU, TDU timebase) -/

/-- Where the instance startup stands (R320). S2 to S4 run in one command, `SRAM_WIPE_DONE`. -/
inductive Boot where
  /-- S0: waiting for `ROOT_LOCK` and the divider alignment. -/
  | align
  /-- S1: the SRAM wipe. -/
  | wipe
  /-- S2 to S4 have run. -/
  | run
  /-- `RETIRED`: no step after S1 (R328). -/
  | retired
  deriving DecidableEq, Repr

structure Clk where
  boot : Boot
  /-- S2 has released the outputs (R320). -/
  outputs : Bool
  /-- Level of `ROOT_LOCK`, synchronised. -/
  rootLock : Bool
  divAligned : Bool
  /-- `STRAP_CAPTURE` [16:0] (R319). -/
  straps : BitVec 17
  /-- `STARTUP_SEQ` [5:0], and its value when S0 of the instance startup began (R321). -/
  startupSeq : BitVec 6
  instSeq : BitVec 6
  /-- `TIME_INC` when S0 began (R393). -/
  instInc : BitVec 36
  /-- TIME: nanoseconds in [95:32], fraction in [31:0] (R317). -/
  time : BitVec 96
  /-- `TIME_INC` as it was written: `INT` in [35:32], `FRAC` in [31:0]. -/
  timeInc : BitVec 36
  /-- The tracked value that overrides it while there is a time parent (R236, R317). -/
  estimate : Option (BitVec 36)
  /-- A running slew: the value added per cycle, and the TIME at which the slew ends (R236). -/
  slew : Option (BitVec 36 × Nat)
  /-- `RESET_CAUSE` [4:0]. -/
  cause : BitVec 5
  /-- `RESET_CAUSE` `COUNT`. -/
  warmCount : Byte
  /-- Incarnation of R212. -/
  incarnation : Byte
  timeLocked : Bool
  everLocked : Bool
  /-- Successive exchanges with an offset of at most 16 ns. -/
  goodSyncs : Nat
  grandmaster : Bool
  timeDepth : Byte
  gmNode : NodeId
  parentPort : FabPort
  hasParent : Bool
  /-- The neighbour on `parentPort` is asked and its synced bit is not known yet (R238). -/
  asking : Bool
  syncSeq : Byte
  /-- T1 of the outstanding `SYNC_REQ` and its `SEQ`. -/
  syncOut : Option (Byte × DWord)
  /-- Periods in which a request to the parent stayed without an answer, and whether one is out (R237). -/
  silent : Nat
  waited : Bool
  /-- The grandmaster heard last with the port toward it, the periods since, and those since one with a lower NodeID was heard (R237). -/
  heard : Option (NodeId × FabPort)
  heardFor : Nat
  unheard : Nat
  /-- TIME of the last `SYNC_PERIOD`. -/
  syncAt : Nat
  /-- TIME has been set in one step since the last grandmaster was lost (R236, R238). -/
  stepped : Bool
  deriving DecidableEq, Repr

/-! ### Life-cycle, OTP, firmware staging (SLU) -/

/-- Life-cycle states (R328). -/
inductive Lc where
  | blank | provisioned | debugUnlocked | deployed | retired
  deriving DecidableEq, Repr

/-- OTP (R329). It survives every reset. -/
structure Otp where
  uid : DWord
  mfgKey : BitVec 384
  lc : Lc
  fwKeyP : BitVec 384
  imgKeyP : BitVec 384
  fwKeyD : BitVec 384
  imgKeyD : BitVec 384
  dbgKey : BitVec 384
  bootAddr : BitVec 48
  instClass : BitVec 16
  portScope : Byte
  /-- Programmed thermometer bits, 0 to 64. -/
  svnFloor : Nat
  bankRepair : BitVec 68
  /-- Programming does not verify (R332). -/
  progFails : Bool
  deriving DecidableEq, Repr

/-- R289: a staged firmware image. -/
structure Staged where
  addr : BitVec 48
  len : Nat
  digest : BitVec 384
  version : Word
  svn : Word
  entry : Word
  deriving DecidableEq, Repr

/-- Corrected errors of one macro: all of them, and those of the last second as (TIME, number) (R16, R335, R336). -/
structure Corr where
  unit : WipeUnit
  total : Nat
  recent : List (Nat × Nat)
  deriving DecidableEq, Repr

structure Slu where
  otp : Otp
  /-- `LC_STATE` `STATE` in force. -/
  lc : Lc
  dbgLatch : Bool
  /-- An accepted transition: its target, the window and slot of its reply, and the TIME at which its reset falls due. -/
  lcPending : Option (Lc × Option (Win × Nat) × Nat)
  /-- `SVC_STATE` `STATE`: 0 OK, 1 ADVISE, 2 REPLACE. -/
  svc : BitVec 2
  svcCause : Byte
  engineReqid : ReqId
  staged : Option Staged
  /-- The boot load of R288 has been made since reset. -/
  booted : Bool
  /-- Firmware memory words: sequencer × 131,072 + word offset. -/
  fwMem : Table Word
  pushWord : BitVec 17
  pushEnd : Bool
  /-- `INST_CLASS` as it was read at the last startup (R10, R398). -/
  instClass : BitVec 16
  /-- `SVC_STATE` as the last reset left it (R393). -/
  instSvc : BitVec 2
  /-- TAP instruction selected, and the data register that it shifts out (R387, R388). -/
  tap : TapInstr
  tapData : BitVec 256
  corr : List Corr
  /-- R335: last uncorrectable error of each macro of the other stores, with its TIME. -/
  ueLast : List ((Store × Nat) × Nat)
  /-- Macros removed from service as store faults. -/
  storeFaults : List (Store × Nat)
  deriving DecidableEq, Repr

/-! ### Command packets and sequencers (MSQ) -/

/-- Where a packet came from (R272). -/
inductive CmdSrc where
  | win (w : Win) (slot : Nat)
  /-- A `MGMT` operation: its op table entry and its agent's partition. -/
  | agent (op : Nat) (part : PartId)
  | remote (node : NodeId) (rtag : BitVec 5)
  deriving DecidableEq, Repr

/-- How far a command has run. -/
inductive Phase where
  | queued
  /-- Started; the row that ends it is decided by its opcode. -/
  | waiting
  /-- `SECTION_BEGIN`, waiting for the acknowledgement with this `SEQ`. -/
  | fenceAck (seq : BitVec 16)
  /-- `IMAGE_COMMIT` or `PART_ACTIVATE`, waiting for the startup steps. -/
  | startup
  /-- For `TARGET_NODE`; the TIME at which it times out, once its last request fragment has been sent (R277). -/
  | remote (due : Option Nat)
  /-- Halted with its sequencer at an opcode awl. -/
  | halted (q : SeqNo)
  deriving DecidableEq, Repr

structure Cmd where
  id : Nat
  src : CmdSrc
  /-- SUPERVISOR privilege. -/
  sup : Bool
  /-- Words 0 to 15 (R263). -/
  words : List Word
  phase : Phase
  /-- TIME of acceptance. -/
  at_ : Nat
  deriving DecidableEq, Repr

/-- R284, R358, `MSQ_STATUS`. -/
structure Seq where
  /-- State code of R284. -/
  code : BitVec 4
  awl : BitVec 3
  awlKind : Bool
  misses : BitVec 16
  pc : Word
  part : PartId
  sqn : Byte
  opcode : BitVec 16
  fwVersion : Word
  /-- Awls set: number, kind (true: opcode), value. -/
  awls : List (BitVec 3 × Bool × Word)
  /-- Awl that does not hit at the resume (R360), with the command it held. -/
  skip : Option (BitVec 3)
  /-- Partitions held by the last hit (R359). -/
  held : List PartId
  /-- `DBG_SEQ` has halted it, and lets it take one command (R387, log 47). -/
  dbgHalt : Bool
  dbgStep : Bool
  deriving DecidableEq, Repr

/-- A running `FW_APPLY` (R290): its command, the sequencers left, the updated ones and, in the push case, bytes 0 to 31 and the record of the pushed image. -/
structure FwApply where
  cmd : Nat
  left : List SeqNo
  updated : BitVec 4
  pushed : Option (List Byte × Staged)
  deriving DecidableEq, Repr

structure Msq where
  seqs : Table Seq
  /-- Commands accepted and not completed, in arrival order. -/
  cmds : List Cmd
  nextId : Nat
  /-- Fragments gathered: source, RTAG, direction, words so far. -/
  frags : List (NodeId × BitVec 5 × Bool × List Word)
  fwApply : Option FwApply
  deriving DecidableEq, Repr

/-- A command window (R267 to R269). -/
structure Window where
  words : Table Word
  mask : BitVec 16
  slots : BitVec 8
  /-- Queued replies: slot and 16 words, oldest first. -/
  replies : List (Nat × List Word)
  irqStatus : BitVec 4
  irqEnable : BitVec 4
  deriving DecidableEq, Repr

/-! ### Partitions and bindings -/

/-- R293. -/
inductive PState where
  | free | unloaded | loading | loaded | active | quiescing | quiesced
  deriving DecidableEq, Repr

/-- An open image load session (R304). -/
structure Load where
  header : List Byte
  /-- Context table: CTX, REMOTE_EN, ROW_COUNT. -/
  ctxs : List (CtxId × Bool × Nat)
  /-- Frame table: FKIND, CTX, FIRST, COUNT, BODY_LEN. -/
  frames : List (Nat × CtxId × Nat × Nat × Nat)
  /-- Descriptor index of each ring number. -/
  descs : List (BitVec 16)
  /-- Current frame and the bytes of it received. -/
  frame : Nat
  got : Nat
  /-- Bytes accepted so far, in order: the digest input. -/
  body : List Byte
  /-- Bytes of the current entry not yet written. -/
  rest : List Byte
  /-- Rings named by a RING word: ring number and object. -/
  named : List (Nat × OKey)
  /-- Staged rosters: frame number, object, bitmap. -/
  rosters : List (Nat × OKey × BitVec 4096)
  deriving DecidableEq, Repr

structure Part where
  state : PState
  strict : Bool
  bankSet : BitVec 16
  otRes : BitVec 15
  wsRes : BitVec 18
  hsRes : BitVec 13
  mmSlots : BitVec 7
  fabRes : Byte
  tackQuota : BitVec 16
  sectionOpen : Bool
  sectionNo : Word
  /-- `SEC_OPEN` (R194). -/
  secCount : BitVec 17
  /-- `SEC_OPEN` has been 0 since the last `SECTION_BEGIN` started (R194). -/
  fenceLatch : Bool
  fenceSeq : BitVec 16
  dumpSeq : BitVec 16
  /-- Image digest and `CENSUS` flag (R307). -/
  imgDigest : BitVec 384
  imgCensus : Bool
  load : Option Load
  /-- The partition startup runs from S2 on: bits 0 to 2 say that S2, S3 and S4 have run (R297). -/
  starting : Option (BitVec 3)
  /-- `STARTUP_SEQ` as it stood when S0 of the last partition startup began (R321). -/
  startSeq : BitVec 6
  /-- `PART_REQID` (R254). -/
  reqid : ReqId
  reqIgnore : BitVec 4
  reqValid : Bool
  deriving DecidableEq, Repr

/-- An agent binding entry (R53, R401) and the agent's trace tag (R352). -/
structure Bind where
  valid : Bool
  part : PartId
  maxPrio : Prio
  mgmtEn : Bool
  busy : Bool
  tag : Word
  deriving DecidableEq, Repr

/-! ### Agent ports (APA) -/

/-- What a response grants, for R78. -/
inductive Grant where
  /-- With its `ACQ_SEQ`, zero when the response does not carry it. -/
  | lock (key : OKey) (remote : Option NodeId) (seq : BitVec 36)
  | take (key : OKey) (remote : Option NodeId) (units : DWord)
  | reserve (key : OKey) (remote : Option NodeId) (handle : DWord)
  deriving DecidableEq, Repr

/-- TYPE of a response flit (R62). -/
inductive RKind where
  | reply | wake | wakeVec | notice
  deriving DecidableEq, Repr

/-- A response flit with its sidebands (R48, R62), as it waits in the port's response interface. -/
structure Rsp where
  kind : RKind
  block : BitVec 2
  status : Byte
  ctx : CtxId
  node : NodeId
  index : Index
  opcode : Byte
  payload : DWord
  /-- `AP_RSP_AGENT`. -/
  agent : LocalAgent
  value : DWord
  inv : Bool
  token : BitVec 24
  /-- Op table entry that its presentation frees. -/
  entry : Option Nat
  /-- Partition in which its presentation counts (R345). -/
  part : Option PartId
  /-- It completes an operation that the op table accepted (R77). -/
  accepted : Bool
  /-- Grants by agent, undone if the response is dropped (R78). -/
  grant : Option Grant
  /-- The waits it completes: agent and ingress stamp (R347). -/
  waits : List (LocalAgent × Nat)
  /-- Releaser for the WAKE record of R353: agent, node, cause. -/
  cause : AgentId × NodeId × BitVec 4
  deriving DecidableEq, Repr

/-- A captured request flit: local agent, opcode byte, fields and, for CAS, the CAS_CONT flit that belongs to it (R57). -/
structure Flit where
  agent : LocalAgent
  code : Byte
  req : Req
  cont : Option Req
  deriving DecidableEq, Repr

/-- Reset processing of one agent (R77). -/
structure Arst where
  agent : LocalAgent
  /-- Started by clearing VALID: ends with UNBOUND, not an acknowledgement. -/
  unbind : Bool
  /-- Its turn has come: step 1 has run. -/
  running : Bool
  /-- The agent's VALID was 0 when the notification came: it is only acknowledged (R80). -/
  idle : Bool
  /-- Grants whose response step 2 dropped. -/
  dropped : List Grant
  deriving DecidableEq, Repr

structure ApPort where
  /-- Request credits held by the adapter. -/
  reqCredits : Nat
  /-- Response credits held by the engine. -/
  rspCredits : Nat
  ingress : List Flit
  hold : List Flit
  /-- A CAS first flit whose next flit has not come. -/
  casFirst : Option Flit
  rsp : List Rsp
  /-- Wakes presented in a row while a reply waits (R70). -/
  wakeRun : Nat
  arst : List Arst
  /-- Last response presented: the flit bits and the sidebands. -/
  out : Option Rsp
  /-- Last agent acknowledged on `AP_ARST_ACK`. -/
  ack : Option LocalAgent
  deriving DecidableEq, Repr

/-! ### Op Router (OPR) -/

/-- Where an accepted operation stands. -/
inductive OpSt where
  /-- Not yet at its bank: held by a rule of order, a hold or a wait. -/
  | queued
  /-- Sent to its home; awaiting its CPL. -/
  | remote
  /-- Granted by a GRANT that overtook the CPL of its parking. -/
  | granted
  /-- Translated, and held before its bank ingress (R99, R110, R242, R253, R339). -/
  | bank
  /-- Waiting for a held-signal queue entry (R185). -/
  | heldQueue
  /-- Its packet runs (R61). -/
  | mgmt
  /-- Performed; its REPLY has not been presented. -/
  | replying
  /-- A FENCE that has not completed. -/
  | fence
  deriving DecidableEq, Repr

/-- Pool of an op table entry (R74). -/
inductive Pool where
  | shared | port (p : PortNo) | fabric
  deriving DecidableEq, Repr

/-- An op table entry; `id` is its number, 0 to 32,767, which is its TXID over the fabric. -/
structure OpEntry where
  id : Nat
  agent : AgentId
  node : NodeId
  /-- Partition it resolves under. -/
  part : PartId
  prio : Prio
  op : Op
  req : Req
  expected : DWord
  st : OpSt
  pool : Pool
  /-- `MGMT_EN` of the binding at the bind stage (R54). -/
  mgmtEn : Bool
  /-- Its place among the operations that wait for a held-signal queue entry, once it waits (R185). -/
  waitNo : Nat
  /-- Its bank ingress stamp, once it has passed ingress and waits for a spilled entry (R99, R110). -/
  stamp : Option Nat
  /-- What the checks of R27 up to the translation said, once OPR has made them (R242). -/
  xlat : Option Status
  /-- Fabric operation: TXID at its issuer and the reply's destination. -/
  txid : Option (BitVec 15)
  /-- `SPART` of a fabric operation. -/
  spart : PartId
  tag : Word
  /-- TIME of acceptance. -/
  at_ : Nat
  deriving DecidableEq, Repr

/-- An object whose deadline or lease has fallen due (R99, R100, R134). -/
structure Due where
  key : OKey
  lease : Bool
  /-- Epoch of the deadline or `ACQ_SEQ` of the lease. -/
  seq : Nat
  due : Nat
  /-- TIME at which the drain ends. -/
  drain : Nat
  deriving DecidableEq, Repr

/-- Arrivals that a bank has taken as one operation: of one cycle, for one object and parity (R17). -/
structure Merge where
  key : OKey
  parity : Bool
  at_ : Nat
  /-- TIME at which the bank took them. -/
  done : Nat
  /-- More than one arrival has merged. -/
  many : Bool
  /-- Port of the last one: a port has one flit in a cycle. -/
  last : PortNo
  deriving DecidableEq, Repr

structure Opr where
  /-- Entries in the order in which their operations were accepted. -/
  ops : List OpEntry
  /-- Port after the one granted last (R75). -/
  rr : Nat
  expiring : List Due
  dueq : List Due
  /-- Arrival operations of the current cycle (R17). -/
  merges : List Merge
  /-- Next `waitNo`. -/
  nextWait : Nat
  deriving DecidableEq, Repr

/-! ### Object banks (OBK) -/

inductive MapMode where
  | direct | migrating | distributed
  deriving DecidableEq, Repr

/-- R28. -/
structure MapEntry where
  phys : Bank
  mode : MapMode
  dslot : BitVec 6
  deriving DecidableEq, Repr

/-- A running retirement (R340): logical bank, source, target spare (`none` for a distribution), command. -/
structure Retire where
  lbank : BitVec 6
  src : Bank
  dst : Option Bank
  cmd : Option Nat
  /-- Distribution: rows [`ROW_BASE`, `ROW_COUNT`) reserved for contexts above the new limit, by directory key (R343). -/
  moves : List (Nat × Nat × Nat)
  /-- OPR holds new operations on the logical bank, so that its queues empty (R101, R341). -/
  holding : Bool
  deriving DecidableEq, Repr

structure Obk where
  /-- Bound object words: physical bank × 16,384 + row. -/
  rows : Table Obj
  map : Table MapEntry
  /-- Physical banks gated (`BANK_POWER`). -/
  gated : BitVec 68
  /-- Banks fenced by a running `BANK_GATE` (R338). -/
  fenced : BitVec 68
  /-- Banks re-powering (R339). -/
  waking : BitVec 68
  retired : BitVec 68
  /-- `SPARE_STATUS` `SPARE_USED` and `SPARE_RETIRED`. -/
  spareUsed : BitVec 4
  spareRetired : BitVec 4
  retire : Option Retire
  /-- Retirements that wait for the running one. -/
  retireq : List Bank
  /-- Gate commands in progress: bank, command. -/
  gating : List (Bank × Nat)
  deriving DecidableEq, Repr

/-! ### Waiters, records, rings, locks, deadlines, landing -/

/-- A parked waiter at its object's home (R374 lists the entry's contents). -/
structure Waiter where
  key : OKey
  node : NodeId
  agent : AgentId
  /-- One entry per node and parity (R217); the agent is then zero. -/
  perNode : Bool
  op : Op
  parity : Bool
  prio : Prio
  operand : BitVec 24
  hint : Bool
  token : BitVec 24
  /-- TIME[..] after which it times out. -/
  limit : Option Nat
  stamp : Nat
  spilled : Bool
  /-- Lane wanted (remote RESERVE). -/
  remote : Bool
  deriving DecidableEq, Repr

/-- A wait of a local agent on an object homed elsewhere (R217). -/
structure RWait where
  node : NodeId
  ctx : CtxId
  index : Index
  part : PartId
  agent : AgentId
  perNode : Bool
  op : Op
  parity : Bool
  operand : BitVec 24
  hint : Bool
  token : BitVec 24
  limit : Option Nat
  stamp : Nat
  deriving DecidableEq, Repr

/-- Arrival record (R89). -/
structure Record where
  key : OKey
  roster : BitVec 4096
  cur : BitVec 4096
  next : BitVec 4096
  lastMissing : BitVec 4096
  deriving DecidableEq, Repr

/-- Early accumulator (R110). -/
structure Early where
  key : OKey
  acc : DWord
  spilled : Bool
  deriving DecidableEq, Repr

/-- A spilled waiter whose wake waits for its entry (R253): the waiter, status, payload, grant, lock policy, cause. -/
structure SpillWake where
  w : Waiter
  status : Status
  payload : DWord
  grant : Option Grant
  policy : BitVec 2
  cause : AgentId × NodeId × BitVec 4
  deriving DecidableEq, Repr

structure Wmc where
  waiters : List Waiter
  rwaits : List RWait
  records : List Record
  early : List Early
  spillWakes : List SpillWake
  /-- Releases and ring operations held for a spilled entry (R110, R145). -/
  fetching : List OKey
  /-- The partition after the one whose spilled waiter was woken last, 64 for the non-strict ones (R260). -/
  wakeRr : Nat
  deriving DecidableEq, Repr

/-- Reservation record (R145). -/
structure Rsv where
  slot : BitVec 6
  start : Word
  len : BitVec 24
  agent : AgentId
  node : NodeId
  lane : BitVec 2
  committed : Bool
  void : Bool
  spilled : Bool
  deriving DecidableEq, Repr

/-- Remote window entry (R157). -/
structure RWin where
  node : NodeId
  landIndex : Index
  landed : Bool
  lanes : BitVec 2
  busy : BitVec 4
  closing : Bool
  deriving DecidableEq, Repr

/-- Ring descriptor (R143) with its records and window. -/
structure Desc where
  key : OKey
  base : BitVec 42
  sizeLog2 : BitVec 5
  granLog2 : BitVec 3
  padValid : Bool
  head : Word
  cmt : Word
  rsv : Word
  padPtr : Word
  availWm : BitVec 16
  spaceWm : BitVec 16
  winEntry : BitVec 18
  oldest : BitVec 6
  span : BitVec 7
  recs : List Rsv
  win : Option RWin
  deriving DecidableEq, Repr

structure Trk where
  descs : Table Desc
  deriving DecidableEq, Repr

/-- Holdings entry (R128). -/
structure Holding where
  agent : AgentId
  node : NodeId
  key : OKey
  deriving DecidableEq, Repr

/-- Fence entry (R136, R414). -/
structure Fence where
  key : OKey
  node : NodeId
  agent : AgentId
  deriving DecidableEq, Repr

structure Olu where
  holdings : List Holding
  /-- Oldest first. -/
  fences : List Fence
  deriving DecidableEq, Repr

/-- A barrier deadline held by TDU (R96). -/
structure Deadline where
  key : OKey
  epoch : BitVec 16
  due : Nat
  deriving DecidableEq, Repr

/-- A running lease (R134). -/
structure Lease where
  key : OKey
  seq : BitVec 36
  due : Nat
  deriving DecidableEq, Repr

structure Tdu where
  deadlines : List Deadline
  leases : List Lease
  deriving DecidableEq, Repr

/-- Arming-index entry (R181, R246). -/
structure Arm where
  part : PartId
  tag : BitVec 16
  key : OKey
  deferred : Nat
  deriving DecidableEq, Repr

/-- Held-signal queue entry (R186). -/
structure Held where
  land : OKey
  target : OKey
  agent : AgentId
  node : NodeId
  commit : Bool
  handle : DWord
  order : BitVec 32
  /-- Its LANDING object's count has reached zero: it is on its way to the target. -/
  posted : Bool
  /-- It was posted before the eviction of its target's context began (R245). -/
  preEvict : Bool
  deriving DecidableEq, Repr

/-- A decrement posted by a landing notice (R179). -/
structure Dec where
  key : OKey
  count : BitVec 32
  chan : LnChan
  tag : BitVec 16
  deriving DecidableEq, Repr

structure Lcu where
  index : List Arm
  held : List Held
  decs : List Dec
  /-- The partition after the one whose posted entry was performed last, 64 for the non-strict ones (R260). -/
  postRr : Nat
  /-- Credits the controllers hold, per channel, when not 16. -/
  credits : Table Nat
  /-- Notices held in the ingress buffer by a Hobble: channel, word. -/
  ingress : List (LnChan × DWord)
  deriving DecidableEq, Repr

/-! ### Scheduler notices -/

structure Notice where
  words : List DWord
  /-- Words already moved. -/
  moved : Nat
  /-- Its first word is presented on SN (R188). -/
  shown : Bool
  mgmt : Bool
  part : Option PartId
  /-- Inheritance notice: LOCK_REF and SEQ (R192). -/
  inherit : Option (BitVec 44 × BitVec 20)
  deriving DecidableEq, Repr

structure Sn where
  queue : List Notice
  lost : BitVec 32
  /-- Last word moved and its `SN_LAST`. -/
  out : Option (DWord × Bool)
  /-- Management notices whose producers wait for a place. -/
  backlog : List Notice
  /-- `KERNEL_FENCE`s whose SECTION_BEGIN timed out: part, SEQ (R190). -/
  timedOut : List (PartId × BitVec 16)
  deriving DecidableEq, Repr

/-! ### Contexts (CTM) -/

inductive CState where
  | free | resident | evicting | evicted | restoring
  deriving DecidableEq, Repr

/-- Directory entry (R239). The counts of [184:128] are computed from the stores. -/
structure Ctx where
  state : CState
  remoteEn : Bool
  evictHit : Bool
  rowBase : BitVec 14
  rowCount : BitVec 15
  tackPtr : BitVec 42
  tackBlocks : BitVec 16
  evictTime : DWord
  restoreTime : DWord
  deriving DecidableEq, Repr

/-- Deferral log entry (R414). -/
structure Defer where
  kind : Byte
  key : OKey
  agent : AgentId
  node : NodeId
  value : DWord
  time : DWord
  deriving DecidableEq, Repr

/-- The Tack Room record of an evicted context (R247, R248). -/
structure TackRec where
  part : PartId
  ctx : CtxId
  remoteEn : Bool
  rowCount : BitVec 15
  evictTime : DWord
  incarn : Byte
  /-- The NodeID under which the record was written. -/
  node : NodeId
  block : Nat
  blocks : Nat
  objs : List (Index × Obj)
  rings : List (Index × Desc)
  records : List Record
  fences : List Fence
  defer : List Defer
  deriving DecidableEq, Repr

structure Ctm where
  dir : Table Ctx
  tack : List TackRec
  /-- `TACK_BASE` [47:16], `TACK_SIZE`, `SPILL_BASE` [47:12], `SPILL_SIZE` (R400). -/
  tackBase : BitVec 48
  tackSize : BitVec 24
  spillBase : BitVec 48
  spillSize : BitVec 24
  deriving DecidableEq, Repr

/-! ### Fabric (FAB) -/

/-- Port states (R212). -/
inductive FpState where
  | off | down | lcl | up | standby | failed | isolated
  deriving DecidableEq, Repr

/-- A flit waiting for transmission; `fwd` is the port whose receive buffer it leaves (R205). -/
structure TxFlit where
  kind : BitVec 4
  dst : NodeId
  src : NodeId
  via : Option NodeId
  hop : BitVec 6
  body : BitVec 144
  fwd : Option FabPort
  deriving DecidableEq, Repr

structure FPort where
  state : FpState
  linkUp : Bool
  fault : Bool
  detour : Bool
  isoCause : BitVec 2
  /-- NodeID of the far end, as its `HELLO` or its `ROUTE_DV` flits give it (R229, R234). -/
  farNode : NodeId
  /-- NodeID in the far end's `HELLO`, and whether it was valid (R405). -/
  helloNode : NodeId
  farValid : Bool
  farIncarn : Byte
  farUid : DWord
  farPort : FabPort
  /-- Next `LSEQ` to send, last `LSEQ` received in order. -/
  txSeq : BitVec 12
  rxSeq : BitVec 12
  /-- Credits held, by pool 1 to 5 of R199. -/
  credits : Table Nat
  /-- Whose REQ.OP credits are out, oldest first: a strict partition by `SPART`, or none (R259). -/
  opOut : List (Option PartId)
  /-- Credits to return, by pool. -/
  owed : Table Nat
  txq : List TxFlit
  /-- Replay copies with their LSEQ (R209). -/
  replay : List (BitVec 12 × TxFlit)
  /-- Copies kept at the loss of the link, for `RECONCILE` (R229). -/
  lost : List (BitVec 12 × TxFlit)
  /-- Flits held while the port is lost (R229). -/
  held : List TxFlit
  lastRx : Nat
  lastTx : Nat
  /-- TIME by which RECONCILE must come. -/
  reconDue : Option Nat
  /-- The link has been lost since reset (R212, R233). -/
  everLost : Bool
  /-- TIME of the last loss of the link (R232). -/
  lostAt : Nat
  /-- The link has come up and `HELLO` is awaited. -/
  awaitHello : Bool
  /-- Flits sent in a row while an MGT or REQ.OP flit waits (R206). -/
  lowRun : Nat
  /-- Hobble: this port's marker has come. -/
  marked : Bool
  /-- Flits that stay in their receive buffers: `OP` flits held for an op table entry, and flits held by a Hobble; whether a credit falls due when they leave. -/
  rxHeld : List (BitVec 4 × Rx × Bool)
  /-- Of these, the first ones that the cut found (R363). -/
  preCut : Nat
  /-- Hobble: numbers of the channel records of this port's flits, in link order (R365, R370). -/
  chan : List Nat
  /-- Last flit transmitted. -/
  out : Option (BitVec 256)
  deriving DecidableEq, Repr

/-- Route table entry (R214). -/
structure Route where
  pri : FabPort
  priV : Bool
  alt : FabPort
  altV : Bool
  hops : BitVec 6
  deriving DecidableEq, Repr

/-- `FAB_ADMIT` entry (R256). -/
structure Admit where
  valid : Bool
  node : NodeId
  mask : NodeId
  spart : PartId
  spartAny : Bool
  lpart : PartId
  deriving DecidableEq, Repr

/-- Changes of a tree node from epoch J (R232). -/
inductive TreeChange where
  | join (slot : BitVec 3) (node : NodeId)
  | leave (slot : BitVec 3)
  | parent (node : NodeId) (slot : BitVec 3)
  deriving DecidableEq, Repr

/-- Stitch-tree descriptor (R221). -/
structure Tree where
  parent : NodeId
  pslot : BitVec 3
  root : Bool
  valid : Bool
  sent : Bool
  holdStitch : Bool
  childMask : Byte
  curChild : Byte
  rootNode : NodeId
  altParent : NodeId
  node : OKey
  child : Table NodeId
  /-- Slots absent at the most recent release, and their NodeIDs then (R102, R225). -/
  absent : Byte
  absentIds : List NodeId
  /-- Changes and the epoch J from which they apply. -/
  changes : List (BitVec 16 × TreeChange)
  /-- A completion waits for HOLD_STITCH. -/
  pend : Bool
  /-- TIME at which HOLD_STITCH was set, or the re-stitching began (R232). -/
  stitchAt : Nat
  /-- Re-stitching at the child: steps done and J. -/
  restitch : Option (Nat × BitVec 16 × BitVec 3)
  deriving DecidableEq, Repr

/-- One report of R213 step 2: UID, port, `SCOPE`, the neighbour's UID, and whether the port is the sender's discovery parent. -/
structure TopoRep where
  uid : DWord
  port : FabPort
  scope : Bool
  far : DWord
  toParent : Bool
  deriving DecidableEq, Repr

/-- A distance-vector entry received on a port (R213 step 5). -/
structure DvEntry where
  port : FabPort
  /-- `MEMBER_RT`; otherwise `GROUP_RT`. -/
  member : Bool
  index : Byte
  hops : BitVec 6
  reach : Bool
  desc : Bool
  deriving DecidableEq, Repr

/-- Discovery (R213). -/
structure Disc where
  /-- A probe of the session has been sent or received. -/
  active : Bool
  session : Byte
  origin : Bool
  parent : Option FabPort
  depth : Byte
  /-- Ports on which a probe is unanswered. -/
  waiting : List FabPort
  children : List FabPort
  /-- Own and relayed reports, as collected. -/
  reports : List TopoRep
  /-- A probe arrived at depth 32. -/
  tooDeep : Bool
  reported : Bool
  /-- NodeID of the originator. -/
  rootNode : NodeId
  /-- The plan digest has come: vectors are exchanged. -/
  started : Bool
  dv : List DvEntry
  /-- TIME of the last vector change, and of the last vector sent; one is due. -/
  dvAt : Nat
  dvSent : Nat
  dvDue : Bool
  converged : Bool
  /-- Children that reported completion. -/
  childDone : List FabPort
  /-- The completion flood has passed. -/
  done : Bool
  /-- The `ROUTE_DISCOVER` of an originator, its instances and its groups. -/
  cmd : Option Nat
  found : Nat
  groups : Nat
  deriving DecidableEq, Repr

/-- Census pass at this node (R313, R314). -/
structure Census where
  en : Bool
  mismatchIe : Bool
  incompleteIe : Bool
  bisectIe : Bool
  period : Byte
  pass : BitVec 16
  isMatch : Bool
  complete : Bool
  root : Bool
  bisecting : Bool
  mismatch : Bool
  incomplete : Bool
  bisectDone : Bool
  count : BitVec 17
  expect : BitVec 17
  ranges : List (NodeId × NodeId × BitVec 17)
  /-- Number of the last pass or query begun by the root. -/
  nextPass : BitVec 16
  nextQuery : BitVec 16
  /-- Running pass: number, own digest, TIME of START. -/
  running : Option (BitVec 16 × BitVec 256 × Nat)
  foldMin : BitVec 256
  foldMax : BitVec 256
  foldCnt : BitVec 32
  /-- Fragments of child FOLDs: slot node, fragment, count, data. -/
  frags : List (NodeId × Nat × BitVec 32 × DWord)
  /-- Children whose FOLD, and children whose ANSWER is still missing. -/
  missing : List NodeId
  qMissing : List NodeId
  /-- Query: number, reference, lowest, highest, TIME, answer so far. -/
  query : Option (BitVec 16 × BitVec 256 × NodeId × NodeId × Nat)
  qFrags : List (Nat × DWord)
  ansCnt : BitVec 32
  ansLo : NodeId
  ansHi : NodeId
  /-- Root bisection: the ranges still to query and the result so far. -/
  pending : List (NodeId × NodeId)
  work : List (NodeId × NodeId × BitVec 17)
  refDigest : BitVec 256
  tickAt : Nat
  deriving DecidableEq, Repr

/-- Tree traffic in the internal queue of a node object's bank (R223, R225, R99). -/
structure TreeIn where
  tree : AgentId
  /-- A `TREE_REL`; otherwise a `COMBINE`. -/
  rel : Bool
  src : NodeId
  epoch : BitVec 16
  slot : BitVec 3
  valid : Bool
  status : Byte
  value : DWord
  deriving DecidableEq, Repr

/-- A cancellation or undo operation under way to another home (R77, R140, R218). -/
structure Undo where
  agent : AgentId
  txid : BitVec 15
  /-- Step 6 of R77 waits for it. -/
  waits : Bool
  /-- The cancelled wait: a GRANT that races the cancellation finds it here. -/
  rwait : Option RWait
  deriving DecidableEq, Repr

structure Fab where
  nodeId : NodeId
  nodeValid : Bool
  planDigest : DWord
  ports : Table FPort
  scope : Byte
  cmdEn : Bool
  cmdNode : NodeId
  cmdMask : NodeId
  groupRt : Table Route
  memberRt : Table Route
  admits : Table Admit
  trees : Table Tree
  disc : Disc
  census : Census
  /-- OP flits of CAS waiting for their OP_EXT. -/
  exts : List Rx
  undo : List Undo
  inq : List TreeIn
  /-- Op table entries whose object is gone at its home while their `CPL` is under way (R45, log 53). -/
  gone : List Nat
  deriving DecidableEq, Repr

/-! ### Observation (OBS) -/

/-- Salt Rake entry (R382). -/
structure Rake where
  first : DWord
  last : DWord
  code : Byte
  src : BitVec 4
  part : Option PartId
  count : BitVec 16
  id : BitVec 12
  node : BitVec 16
  ref : BitVec 44
  detail : BitVec 16
  deriving DecidableEq, Repr

/-- Tensor watch (R377). -/
structure Watch where
  key : OKey
  epoch : BitVec 16
  tag : Word
  hold : Bool
  /-- SEQ of the DUMP_REQUEST with HELD that awaits its acknowledgement. -/
  ack : Option (BitVec 16)
  /-- DUMP_ACK or WATCH_CLEAR has come: the release is posted. -/
  posted : Bool
  deriving DecidableEq, Repr

structure Trace where
  en : Bool
  wrap : Bool
  full : Bool
  classMask : BitVec 11
  base : BitVec 48
  size : Word
  pmask : DWord
  wptr : Word
  staging : List (BitVec 256 × Option PartId)
  /-- Records dropped since the last DROP record, and since the last TRACE_CTL. -/
  dropPend : Word
  dropped : Word
  /-- Records taken on this PORT_CLK edge (R356). -/
  front : Nat
  deriving DecidableEq, Repr

/-- Where a hobbled instance has captured a flit or notice that waits for the resume (R363, R371). -/
inductive CapSrc where
  | agent (p : PortNo) (a : LocalAgent)
  | fabric (p : FabPort)
  | landing
  deriving DecidableEq, Repr

structure Hobble where
  /-- `HOBBLE_CTL` `STATE`: 0 running, 1 draining, 2 awaiting markers, 3 hobbled. -/
  state : BitVec 2
  incomplete : Bool
  regionFull : Bool
  init : NodeId
  hseq : Byte
  /-- TIME at the cut edge, and the deadlines and leases pending then (R367). -/
  cutAt : Nat
  cutDeadlines : List Deadline
  cutLeases : List Lease
  /-- Port of the first marker. -/
  firstPort : Option FabPort
  /-- Ports whose marker is awaited. -/
  awaiting : List FabPort
  records : Word
  base : BitVec 48
  size : Word
  /-- Region in use. -/
  regBase : BitVec 48
  regSize : Nat
  /-- This instance began the Hobble: its region has the two bitmaps (R370). -/
  initiator : Bool
  /-- Flits and notices captured since the cut, in order: where each waits (R371). -/
  captured : List CapSrc
  /-- Initiator: command, instances reported, incomplete among them. -/
  cmd : Option Nat
  reached : List NodeId
  badNodes : List NodeId
  /-- Running `UNHOBBLE`: command, instances resumed, TIME of the flood. -/
  ucmd : Option Nat
  resumed : List NodeId
  resumeAt : Nat
  hseqNext : Byte
  deriving DecidableEq, Repr

structure Obs where
  /-- Partition × 64 + index. -/
  live : Table DWord
  start : Table DWord
  end_ : Table DWord
  gctr : Table DWord
  rake : List Rake
  rakeFirst : Option Rake
  rakeLast : Option Rake
  overflow : BitVec 31
  sticky : Bool
  trace : Trace
  hobble : Hobble
  watches : List Watch
  deriving DecidableEq, Repr

/-! ### Control register port -/

structure Cr where
  irqStatus : BitVec 12
  irqEnable : BitVec 12
  /-- R394: held upper words by (word address, requester). -/
  holds : List (CrAddr × ReqId × Word)
  /-- R395: staged words by address. -/
  staged : Table Word
  /-- Last response: `CR_RSP_VALID`, low when the last access got none (R393), `CR_RDATA`, `CR_ERR`. -/
  valid : Bool
  rdata : Word
  err : Bool
  deriving DecidableEq, Repr

/-- A request on the memory master port with its requester ID (R255). -/
structure MmReq where
  write : Bool
  reqid : ReqId
  addr : Nat
  len : Nat
  deriving DecidableEq, Repr

/-- The engine. -/
structure State where
  pending : List Instr
  clk : Clk
  slu : Slu
  msq : Msq
  wins : Table Window
  parts : Table Part
  binds : Table Bind
  aps : Table ApPort
  opr : Opr
  obk : Obk
  wmc : Wmc
  trk : Trk
  olu : Olu
  tdu : Tdu
  lcu : Lcu
  sn : Sn
  ctm : Ctm
  fab : Fab
  obs : Obs
  cr : Cr
  /-- Host memory behind the memory master port, and what it answers with an error: base, length, and the requester refused (`none`: every one). -/
  mem : List Host.Cell
  mmBad : List (Nat × Nat × Option ReqId)
  /-- The last request on the memory master port. -/
  mmOut : Option MmReq
  /-- Open values taken so far (log 6). -/
  free : Nat
  deriving DecidableEq, Repr

/-! ### Reset values -/

def Clk.reset : Clk where
  boot := .align
  outputs := false
  rootLock := false
  divAligned := false
  straps := 0
  startupSeq := 0x39#6
  instSeq := 0x39#6
  instInc := 0x100000000
  time := 0
  timeInc := 0x100000000#36
  estimate := none
  slew := none
  cause := 1
  warmCount := 0
  incarnation := 1
  timeLocked := false
  everLocked := false
  goodSyncs := 0
  grandmaster := false
  timeDepth := 0
  gmNode := 0
  parentPort := 0
  hasParent := false
  asking := false
  syncSeq := 0
  syncOut := none
  silent := 0
  waited := false
  heard := none
  heardFor := 0
  unheard := 0
  syncAt := 0
  stepped := false

def Otp.reset : Otp where
  uid := 0
  mfgKey := 0
  lc := .blank
  fwKeyP := 0
  imgKeyP := 0
  fwKeyD := 0
  imgKeyD := 0
  dbgKey := 0
  bootAddr := 0
  instClass := 0
  portScope := 0
  svnFloor := 0
  bankRepair := 0
  progFails := false

def Slu.reset : Slu where
  otp := Otp.reset
  lc := .blank
  dbgLatch := false
  lcPending := none
  svc := 0
  svcCause := 0
  engineReqid := 0
  staged := none
  booted := false
  fwMem := []
  pushWord := 0
  pushEnd := false
  instClass := 0
  instSvc := 0
  tap := .bypass
  tapData := 0
  corr := []
  ueLast := []
  storeFaults := []

def Seq.reset : Seq where
  code := 0
  awl := 0
  awlKind := false
  misses := 0
  pc := 0
  part := 0
  sqn := 0
  opcode := 0
  fwVersion := 0
  awls := []
  skip := none
  held := []
  dbgHalt := false
  dbgStep := false

def Msq.reset : Msq where
  seqs := []
  cmds := []
  nextId := 0
  frags := []
  fwApply := none

def Window.reset : Window where
  words := []
  mask := 0
  slots := 0
  replies := []
  irqStatus := 0
  irqEnable := 0

def Part.reset : Part where
  state := .free
  strict := false
  bankSet := 0
  otRes := 0
  wsRes := 0
  hsRes := 0
  mmSlots := 0
  fabRes := 0
  tackQuota := 0
  sectionOpen := false
  sectionNo := 0
  secCount := 0
  fenceLatch := false
  fenceSeq := 0
  dumpSeq := 0
  imgDigest := 0
  imgCensus := false
  load := none
  starting := none
  startSeq := 0
  reqid := 0
  reqIgnore := 0
  reqValid := false

def Bind.reset : Bind where
  valid := false
  part := 0
  maxPrio := 0
  mgmtEn := false
  busy := false
  tag := 0

def ApPort.reset : ApPort where
  reqCredits := Config.portCredits
  rspCredits := Config.portCredits
  ingress := []
  hold := []
  casFirst := none
  rsp := []
  wakeRun := 0
  arst := []
  out := none
  ack := none

def Opr.reset : Opr where
  ops := []
  rr := 0
  expiring := []
  dueq := []
  merges := []
  nextWait := 0

def Obk.reset : Obk where
  rows := []
  map := []
  gated := 0
  fenced := 0
  waking := 0
  retired := 0
  spareUsed := 0
  spareRetired := 0
  retire := none
  retireq := []
  gating := []

def Wmc.reset : Wmc where
  waiters := []
  rwaits := []
  records := []
  early := []
  spillWakes := []
  fetching := []
  wakeRr := 0

def Lcu.reset : Lcu where
  index := []
  held := []
  decs := []
  postRr := 0
  credits := []
  ingress := []

def Sn.reset : Sn where
  queue := []
  lost := 0
  out := none
  backlog := []
  timedOut := []

def Ctx.reset : Ctx where
  state := .free
  remoteEn := false
  evictHit := false
  rowBase := 0
  rowCount := 0
  tackPtr := 0
  tackBlocks := 0
  evictTime := 0
  restoreTime := 0

def Ctm.reset : Ctm where
  dir := []
  tack := []
  tackBase := 0
  tackSize := 0
  spillBase := 0
  spillSize := 0

def FPort.reset : FPort where
  state := .off
  linkUp := false
  fault := false
  detour := false
  isoCause := 0
  farNode := 0
  helloNode := 0
  farValid := false
  farIncarn := 0
  farUid := 0
  farPort := 0
  txSeq := 0
  rxSeq := 0xFFF
  credits := []
  opOut := []
  owed := []
  txq := []
  replay := []
  lost := []
  held := []
  lastRx := 0
  lastTx := 0
  reconDue := none
  everLost := false
  lostAt := 0
  awaitHello := false
  lowRun := 0
  marked := false
  rxHeld := []
  preCut := 0
  chan := []
  out := none

def Route.reset : Route where
  pri := 0
  priV := false
  alt := 0
  altV := false
  hops := 0

def Admit.reset : Admit where
  valid := false
  node := 0
  mask := 0
  spart := 0
  spartAny := false
  lpart := 0

def Tree.reset : Tree where
  parent := 0
  pslot := 0
  root := false
  valid := false
  sent := false
  holdStitch := false
  childMask := 0
  curChild := 0
  rootNode := 0
  altParent := 0
  node := ⟨0, 0, 0⟩
  child := []
  absent := 0
  absentIds := []
  changes := []
  pend := false
  stitchAt := 0
  restitch := none

def Disc.reset : Disc where
  active := false
  session := 0
  origin := false
  parent := none
  depth := 0
  waiting := []
  children := []
  reports := []
  tooDeep := false
  reported := false
  rootNode := 0
  started := false
  dv := []
  dvAt := 0
  dvSent := 0
  dvDue := false
  converged := false
  childDone := []
  done := false
  cmd := none
  found := 0
  groups := 0

def Census.reset : Census where
  en := true
  mismatchIe := true
  incompleteIe := true
  bisectIe := false
  period := 0x10
  pass := 0
  isMatch := false
  complete := false
  root := false
  bisecting := false
  mismatch := false
  incomplete := false
  bisectDone := false
  count := 0
  expect := 0
  ranges := []
  nextPass := 0
  nextQuery := 0
  running := none
  foldMin := 0
  foldMax := 0
  foldCnt := 0
  frags := []
  missing := []
  qMissing := []
  query := none
  qFrags := []
  ansCnt := 0
  ansLo := 0
  ansHi := 0
  pending := []
  work := []
  refDigest := 0
  tickAt := 0

def Fab.reset : Fab where
  nodeId := 0
  nodeValid := false
  planDigest := 0
  ports := []
  scope := 0
  cmdEn := false
  cmdNode := 0
  cmdMask := 0
  groupRt := []
  memberRt := []
  admits := []
  trees := []
  disc := Disc.reset
  census := Census.reset
  exts := []
  undo := []
  inq := []
  gone := []

def Trace.reset : Trace where
  en := false
  wrap := false
  full := false
  classMask := 0x7FF
  base := 0
  size := 0
  pmask := 0
  wptr := 0
  staging := []
  dropPend := 0
  dropped := 0
  front := 0

def Hobble.reset : Hobble where
  state := 0
  incomplete := false
  regionFull := false
  init := 0
  hseq := 0
  cutAt := 0
  cutDeadlines := []
  cutLeases := []
  firstPort := none
  awaiting := []
  records := 0
  base := 0
  size := 0
  regBase := 0
  regSize := 0
  initiator := false
  captured := []
  cmd := none
  reached := []
  badNodes := []
  ucmd := none
  resumed := []
  resumeAt := 0
  hseqNext := 0

def Obs.reset : Obs where
  live := []
  start := []
  end_ := []
  gctr := []
  rake := []
  rakeFirst := none
  rakeLast := none
  overflow := 0
  sticky := false
  trace := Trace.reset
  hobble := Hobble.reset
  watches := []

def Cr.reset : Cr where
  irqStatus := 0
  irqEnable := 0x43C#12
  holds := []
  staged := []
  valid := false
  rdata := 0
  err := false

/-- The engine when `POR_N` has just deasserted (R323): registers at their reset values, stores empty, startup at S0. Straps, fuses and host memory are zero (log 8). -/
def State.reset : State where
  pending := []
  clk := Clk.reset
  slu := Slu.reset
  msq := Msq.reset
  wins := []
  parts := []
  binds := []
  aps := []
  opr := Opr.reset
  obk := Obk.reset
  wmc := Wmc.reset
  trk := ⟨[]⟩
  olu := ⟨[], []⟩
  tdu := ⟨[], []⟩
  lcu := Lcu.reset
  sn := Sn.reset
  ctm := Ctm.reset
  fab := Fab.reset
  obs := Obs.reset
  cr := Cr.reset
  mem := []
  mmBad := []
  mmOut := none
  free := 0

end Sys2Proof.Machine
end

