-- ==== Sys2Proof/Machine/Table.lean ====
section
/-! DEFINITION. Sparse tables with strictly rising keys: reading, writing and removing one entry. -/

namespace Sys2Proof.Machine

/-- The entry at key `k`, if listed. -/
def tget {α : Type} : Table α → Nat → Option α
  | [], _ => none
  | (k', v) :: r, k => if k' = k then some v else tget r k

/-- `t` with `v` at key `k`, keys kept rising. -/
def tset {α : Type} : Table α → Nat → α → Table α
  | [], k, v => [(k, v)]
  | (k', v') :: r, k, v =>
    if k < k' then (k, v) :: (k', v') :: r
    else if k' = k then (k, v) :: r
    else (k', v') :: tset r k v

/-- `t` without key `k`. -/
def tdel {α : Type} : Table α → Nat → Table α
  | [], _ => []
  | (k', v') :: r, k => if k' = k then tdel r k else (k', v') :: tdel r k

/-- Reading with the value that an unlisted key has. -/
def tgetD {α : Type} (d : α) (t : Table α) (k : Nat) : α := (tget t k).getD d

/-- Writing where an unlisted key reads as `d`: the canonical form lists no entry equal to `d`. -/
def tput {α : Type} [DecidableEq α] (d : α) (t : Table α) (k : Nat) (v : α) : Table α :=
  if v = d then tdel t k else tset t k v

/-- Keys strictly rising. -/
def keysRising {α : Type} : Table α → Bool
  | [] => true
  | [_] => true
  | (k, _) :: (k', v) :: r => decide (k < k') && keysRising ((k', v) :: r)

/-- The canonical form of a table whose unlisted keys read as `d`. -/
def tableWf {α : Type} [DecidableEq α] (d : α) (t : Table α) : Bool :=
  keysRising t && t.all fun e => decide (e.2 ≠ d)

/-- The list without its first element that satisfies `q`. -/
def dropFirst {α : Type} (q : α → Bool) : List α → List α
  | [] => []
  | x :: r => if q x then r else x :: dropFirst q r

/-- The list with `f` applied to its first element that satisfies `q`. -/
def mapFirst {α : Type} (q : α → Bool) (f : α → α) : List α → List α
  | [] => []
  | x :: r => if q x then f x :: r else x :: mapFirst q f r

/-- The lowest number from `i` on that satisfies `q`, looking at `fuel` numbers. -/
def lowestFrom (q : Nat → Bool) : Nat → Nat → Option Nat
  | 0, _ => none
  | fuel + 1, i => if q i then some i else lowestFrom q fuel (i + 1)

/-- The lowest number below `n` that satisfies `q`. -/
def lowest (q : Nat → Bool) (n : Nat) : Option Nat := lowestFrom q n 0

/-- How many of the bits of `v` are 1. -/
def popcount {w : Nat} (v : BitVec w) : Nat := ((List.range w).filter fun i => v.getLsbD i).length

/-- `v` with bit `i` set. -/
def setBit {w : Nat} (v : BitVec w) (i : Nat) : BitVec w := v ||| BitVec.ofNat w (2 ^ i)

/-- `v` with bit `i` clear. -/
def clearBit {w : Nat} (v : BitVec w) (i : Nat) : BitVec w := v &&& ~~~(BitVec.ofNat w (2 ^ i))

/-- A Bool as one bit. -/
def b1 (b : Bool) : BitVec 1 := if b then 1 else 0

end Sys2Proof.Machine
end

