-- ==== Sys2Proof/Machine/Operands.lean ====
section
/-! DEFINITION. Encodings: opcodes (R60, R218), request and response flits (R56, R62), operand fields (R58, R59), object words (R30 to R39), what each type accepts and what `READ_OBJ` returns (R40), and the conditions of created words (R42). -/

namespace Sys2Proof.Machine

/-! ### Opcodes -/

/-- R60; R218 for the last three. -/
def Op.code : Op → Byte
  | .arrive => 0x10 | .arriveReduce => 0x11 | .wait => 0x12 | .arriveWait => 0x13
  | .signal => 0x14 | .readMissing => 0x15 | .deadlineArm => 0x16
  | .take => 0x20 | .tryTake => 0x21 | .give => 0x22
  | .lock => 0x30 | .tryLock => 0x31 | .unlock => 0x32 | .claimId => 0x33 | .claimRead => 0x34
  | .cas => 0x40 | .fetchAdd => 0x41 | .readObj => 0x42
  | .reserve => 0x50 | .commit => 0x51 | .waitAvail => 0x52 | .release => 0x53
  | .landExpect => 0x60 | .signalAfterLanded => 0x61
  | .fence => 0x70 | .setTag => 0x71 | .sectionMark => 0x72 | .mgmt => 0x80 | .casCont => 0xFF
  | .waitCancel => 0x90 | .abandon => 0x91 | .rsvCancel => 0x92

/-- Every opcode, in the order of the codes. -/
def Op.all : List Op :=
  [.arrive, .arriveReduce, .wait, .arriveWait, .signal, .readMissing, .deadlineArm,
   .take, .tryTake, .give, .lock, .tryLock, .unlock, .claimId, .claimRead,
   .cas, .fetchAdd, .readObj, .reserve, .commit, .waitAvail, .release,
   .landExpect, .signalAfterLanded, .fence, .setTag, .sectionMark, .mgmt, .casCont,
   .waitCancel, .abandon, .rsvCancel]

/-- The opcode of a code, none when the code is reserved. -/
def opOf (c : Byte) : Option Op := Op.all.find? fun o => decide (o.code = c)

/-- Opcodes that travel only over the fabric (R218). -/
def Op.fabricOnly : Op → Bool
  | .waitCancel | .abandon | .rsvCancel => true
  | _ => false

/-- `AUX[7:5]` holds a `PRIO` (R59, R60). -/
def Op.hasPrio : Op → Bool
  | .wait | .arriveWait | .take | .lock | .tryLock | .reserve | .waitAvail => true
  | _ => false

/-- The six waiting opcodes of R58. -/
def Op.waits : Op → Bool
  | .wait | .arriveWait | .take | .lock | .reserve | .waitAvail => true
  | _ => false

/-- R60, last column: `NO_REPLY` is permitted. -/
def Op.noReplyOk : Op → Bool
  | .arrive | .arriveReduce | .signal | .deadlineArm | .give | .unlock | .claimId | .fetchAdd
  | .commit | .release | .landExpect | .signalAfterLanded | .setTag | .sectionMark => true
  | _ => false

/-- Opcodes that name no object (R56). -/
def Op.noObject : Op → Bool
  | .fence | .setTag | .sectionMark | .mgmt => true
  | _ => false

/-! ### Operand fields -/

/-- R59. -/
def reqPrio (f : Req) : Prio := f.aux.extractLsb' 5 3
/-- `AUX[0]`: parity, or no-wait. -/
def reqAux0 (f : Req) : Bool := f.aux.getLsbD 0
/-- R58. -/
def reqToken (f : Req) : BitVec 24 := f.payload.extractLsb' 40 24
def reqTimeout (f : Req) : BitVec 16 := f.payload.extractLsb' 24 16
def reqOperand (f : Req) : BitVec 24 := f.payload.extractLsb' 0 24

/-- R58: the wait limit, from the ingress stamp. -/
def reqLimit (f : Req) (stamp : Nat) : Option Nat :=
  if reqTimeout f = 0 then none else some (stamp + (reqTimeout f).toNat * 1000)

/-- AUX bits that an opcode gives a meaning (R60). -/
def Op.auxMask : Op → Byte
  | .arrive => 0x01 | .arriveReduce => 0xFF | .wait | .arriveWait => 0xE1
  | .readMissing => 0xFF | .deadlineArm => 0x03
  | .take | .lock | .tryLock => 0xE0
  | .reserve | .waitAvail => 0xE1
  | _ => 0x00

/-- PAYLOAD bits that an opcode gives a meaning (R60, R58, R352). -/
def Op.payMask : Op → DWord
  | .arriveReduce | .deadlineArm | .tryTake | .give | .cas | .fetchAdd | .commit | .release
  | .sectionMark | .mgmt => 0xFFFFFFFFFFFFFFFF
  | .setTag => 0x00000000FFFFFFFF
  | .landExpect => 0x0000FFFFFFFFFFFF
  | .signalAfterLanded => 0x00000FFFFFFFFFFF
  | .wait | .arriveWait | .lock => 0xFFFFFFFFFF000000
  | .take | .reserve | .waitAvail => 0xFFFFFFFFFFFFFFFF
  | _ => 0

/-! ### Response flit (R62) -/

def RKind.code : RKind → BitVec 2
  | .reply => 0 | .wake => 1 | .wakeVec => 2 | .notice => 3

def Rsp.word (r : Rsp) : BitVec 128 :=
  r.kind.code ++ r.block ++ r.status ++ r.ctx ++ r.node ++ r.index ++ r.opcode ++ r.payload

/-- `OPCODE` of a request flit (R56). -/
def flitCode (w : BitVec 128) : Byte := w.extractLsb' 120 8

/-- The other fields of a request flit (R56). -/
def flitReq (w : BitVec 128) : Req where
  ordered := w.getLsbD 119
  invHint := w.getLsbD 118
  noReply := w.getLsbD 117
  spare := w.getLsbD 116
  ctx := w.extractLsb' 108 8
  node := w.extractLsb' 92 16
  index := w.extractLsb' 72 20
  aux := w.extractLsb' 64 8
  payload := w.extractLsb' 0 64

/-- Request flit bits (R56). -/
def flitWord (code : Byte) (f : Req) : BitVec 128 :=
  code ++ b1 f.ordered ++ b1 f.invHint ++ b1 f.noReply ++ b1 f.spare ++ f.ctx ++ f.node ++
    f.index ++ f.aux ++ f.payload

/-! ### Object words -/

/-- R30. -/
def Body.typeCode : Body → BitVec 4
  | .barrier _ => 1 | .semaphore _ => 2 | .event _ => 3 | .lock _ => 4
  | .ring _ => 5 | .landing _ => 6 | .group _ => 7 | .cell _ => 8

/-- R31. -/
def hdrBits (t : BitVec 4) (h : ObjHdr) : BitVec 36 :=
  h.wq ++ h.wprio ++ b1 h.tree ++ h.part ++ b1 h.held ++ b1 h.watch ++ b1 h.spill ++
    b1 h.parked ++ t

/-- R32 to R39. -/
def Body.bits : Body → BitVec 220
  | .barrier b =>
    b.result ++ b.acc ++ b.missCount ++ b1 b.accValid ++ b1 b.hold ++ b1 b.lastPartial ++
      b1 b.dlArmed ++ b1 b.redEn ++ b.rop ++ b.fmt ++ b.epoch ++ b.nextCount ++ b.curCount ++
      b.target
  | .group g => g.enrolled ++ g.arrived ++ g.nextArrived ++ g.epoch ++ g.n ++ g.k
  | .semaphore v => 0#92 ++ v.limit ++ v.count
  | .event v => 0#112 ++ v.setTime ++ v.setterNode ++ v.setterAgent ++ 0#15 ++ b1 v.set
  | .lock l =>
    l.claim ++ 0#56 ++ l.acqSeq ++ l.leaseUs ++ l.holderAgent ++ l.holderNode ++ 0#1 ++
      l.effPrio ++ l.holdPrio ++ l.lastEnd ++ l.policy ++ b1 l.held
  | .cell c => 0#100 ++ c.lastNode ++ c.lastAgent ++ c.value ++ 0#28
  | .ring r => 0#203 ++ b1 r.remoteOpen ++ r.desc
  | .landing l =>
    0#139 ++ l.heldCount ++ l.remain ++ b1 l.underflow ++ b1 l.sectn ++ b1 l.armed ++
      b1 l.countsWrites ++ l.xferTag

def Obj.word (o : Obj) : BitVec 256 := o.body.bits ++ hdrBits o.body.typeCode o.hdr

/-- Header of a word. -/
def hdrOf (w : BitVec 256) : ObjHdr where
  parked := w.getLsbD 4
  spill := w.getLsbD 5
  watch := w.getLsbD 6
  held := w.getLsbD 7
  part := w.extractLsb' 8 6
  tree := w.getLsbD 14
  wprio := w.extractLsb' 15 3
  wq := w.extractLsb' 18 18

/-- Fields of a word by its `TYPE`; none for 0x0 and the reserved types. -/
def bodyOf (w : BitVec 256) : Option Body :=
  match (w.extractLsb' 0 4).toNat with
  | 1 => some (.barrier
      { target := w.extractLsb' 36 16, curCount := w.extractLsb' 52 16
        nextCount := w.extractLsb' 68 16, epoch := w.extractLsb' 84 16
        fmt := w.extractLsb' 100 4, rop := w.extractLsb' 104 3, redEn := w.getLsbD 107
        dlArmed := w.getLsbD 108, lastPartial := w.getLsbD 109, hold := w.getLsbD 110
        accValid := w.getLsbD 111, missCount := w.extractLsb' 112 16
        acc := w.extractLsb' 128 64, result := w.extractLsb' 192 64 })
  | 2 => some (.semaphore { count := w.extractLsb' 36 64, limit := w.extractLsb' 100 64 })
  | 3 => some (.event
      { set := w.getLsbD 36, setterAgent := w.extractLsb' 52 12
        setterNode := w.extractLsb' 64 16, setTime := w.extractLsb' 80 64 })
  | 4 => some (.lock
      { held := w.getLsbD 36, policy := w.extractLsb' 37 2, lastEnd := w.extractLsb' 39 2
        holdPrio := w.extractLsb' 41 3, effPrio := w.extractLsb' 44 3
        holderNode := w.extractLsb' 48 16, holderAgent := w.extractLsb' 64 12
        leaseUs := w.extractLsb' 76 24, acqSeq := w.extractLsb' 100 36
        claim := w.extractLsb' 192 64 })
  | 5 => some (.ring { desc := w.extractLsb' 36 16, remoteOpen := w.getLsbD 52 })
  | 6 => some (.landing
      { xferTag := w.extractLsb' 36 16, countsWrites := w.getLsbD 52, armed := w.getLsbD 53
        sectn := w.getLsbD 54, underflow := w.getLsbD 55, remain := w.extractLsb' 56 48
        heldCount := w.extractLsb' 104 13 })
  | 7 => some (.group
      { k := w.extractLsb' 36 8, n := w.extractLsb' 44 8, epoch := w.extractLsb' 52 12
        nextArrived := w.extractLsb' 64 64, arrived := w.extractLsb' 128 64
        enrolled := w.extractLsb' 192 64 })
  | 8 => some (.cell
      { value := w.extractLsb' 64 64, lastAgent := w.extractLsb' 128 12
        lastNode := w.extractLsb' 140 16 })
  | _ => none

def objOf (w : BitVec 256) : Option Obj := (bodyOf w).map fun b => ⟨hdrOf w, b⟩

/-- The header of a new object of partition `p` (R31, R41). -/
def newHdr (p : PartId) : ObjHdr where
  parked := false
  spill := false
  watch := false
  held := false
  part := p
  tree := false
  wprio := 0
  wq := 0

/-- R41: "param" fields kept, every other field at its Init value. -/
def initBody : Body → Body
  | .barrier b => .barrier
      { target := b.target, curCount := 0, nextCount := 0, epoch := 0, fmt := b.fmt, rop := b.rop
        redEn := b.redEn, dlArmed := false, lastPartial := false, hold := false
        accValid := false, missCount := 0, acc := 0, result := 0 }
  | .group g => .group
      { k := g.k, n := BitVec.ofNat 8 (popcount g.enrolled), epoch := 0, nextArrived := 0
        arrived := 0, enrolled := g.enrolled }
  | .semaphore v => .semaphore v
  | .event v => .event { set := v.set, setterAgent := 0, setterNode := 0, setTime := 0 }
  | .lock l => .lock
      { held := false, policy := l.policy, lastEnd := 0, holdPrio := 0, effPrio := 0
        holderNode := 0, holderAgent := 0, leaseUs := l.leaseUs, acqSeq := 0, claim := 0 }
  | .ring _ => .ring { desc := 0, remoteOpen := false }
  | .landing l => .landing
      { xferTag := l.xferTag, countsWrites := l.countsWrites, armed := false, sectn := l.sectn
        underflow := false, remain := 0, heldCount := 0 }
  | .cell c => .cell { value := c.value, lastAgent := 0, lastNode := 0 }

/-! ### What a type accepts (R40) -/

def accepts : Body → Op → Bool
  | _, .readObj => true
  | .barrier _, .arrive | .barrier _, .arriveReduce | .barrier _, .wait
  | .barrier _, .arriveWait | .barrier _, .readMissing | .barrier _, .deadlineArm => true
  | .group _, .arrive | .group _, .wait | .group _, .arriveWait | .group _, .readMissing => true
  | .semaphore _, .take | .semaphore _, .tryTake | .semaphore _, .give => true
  | .event _, .signal | .event _, .wait => true
  | .lock _, .lock | .lock _, .tryLock | .lock _, .unlock | .lock _, .claimId
  | .lock _, .claimRead => true
  | .cell _, .cas | .cell _, .fetchAdd => true
  | .ring _, .reserve | .ring _, .commit | .ring _, .waitAvail | .ring _, .release => true
  | .landing _, .landExpect | .landing _, .signalAfterLanded => true
  | _, _ => false

/-- The `READ_OBJ` value of R40. -/
def readObjValue : Body → DWord
  | .barrier b => b.epoch ++ b.nextCount ++ b.curCount ++ b.target
  | .group g => g.arrived
  | .semaphore v => v.count
  | .event v => b1 v.set ++ 0#35 ++ v.setterNode ++ v.setterAgent
  | .lock l => b1 l.held ++ l.effPrio ++ 0#32 ++ l.holderNode ++ l.holderAgent
  | .cell c => c.value
  | .ring r => 0#47 ++ b1 r.remoteOpen ++ r.desc
  | .landing l => 0#16 ++ l.remain

end Sys2Proof.Machine
end

