-- ==== Sys2Proof/Machine/Reduce.lean ====
section
/-! DEFINITION. The arithmetic lane: formats and operations (R103, R104), width checks (R105), folds (R106, R107), compensated sums (R108), accumulator folds (R224) and finalisation (R83, R109). -/

namespace Sys2Proof.Machine

/-! ### Binary floating point, to nearest even -/

/-- A binary format: exponent width, fraction width. -/
structure FFmt where
  e : Nat
  f : Nat
  deriving DecidableEq, Repr

def f32 : FFmt := ⟨8, 23⟩
def f64 : FFmt := ⟨11, 52⟩
def f16 : FFmt := ⟨5, 10⟩
def bf16 : FFmt := ⟨8, 7⟩
def e5m2 : FFmt := ⟨5, 2⟩

/-- A decoded value: a finite one is `(-1)^neg * m * 2^x`. -/
inductive FVal where
  | nan
  | inf (neg : Bool)
  | fin (neg : Bool) (m : Nat) (x : Int)
  deriving DecidableEq, Repr

/-- Exponent of the last place of subnormal numbers. -/
def FFmt.xmin (t : FFmt) : Int := 2 - (2 : Int) ^ (t.e - 1) - t.f

/-- Decoding an encoding of format `t`. -/
def fdec (t : FFmt) (w : Nat) : FVal :=
  let frac := w % 2 ^ t.f
  let ex := w / 2 ^ t.f % 2 ^ t.e
  let neg := decide (w / 2 ^ (t.f + t.e) % 2 = 1)
  if ex = 2 ^ t.e - 1 then if frac = 0 then .inf neg else .nan
  else if ex = 0 then .fin neg frac t.xmin
  else .fin neg (2 ^ t.f + frac) (t.xmin + (ex - 1 : Nat))

/-- Canonical quiet NaN (R107). -/
def fqnan (t : FFmt) : Nat := (2 ^ t.e - 1) * 2 ^ t.f + 2 ^ (t.f - 1)

/-- `m * 2^x` as an integer multiple of `2^y`, to nearest even. -/
def roundTo (m : Nat) (x y : Int) : Nat :=
  if y ≤ x then m * 2 ^ (x - y).toNat
  else
    let k := (y - x).toNat
    let q := m / 2 ^ k
    let r := m % 2 ^ k
    let h := 2 ^ (k - 1)
    if h < r ∨ (r = h ∧ q % 2 = 1) then q + 1 else q

/-- Encoding with rounding to nearest, ties to even; overflow gives infinity. -/
def fenc (t : FFmt) : FVal → Nat
  | .nan => fqnan t
  | .inf neg => (if neg then 2 ^ (t.f + t.e) else 0) + (2 ^ t.e - 1) * 2 ^ t.f
  | .fin neg m x =>
    let sgn := if neg then 2 ^ (t.f + t.e) else 0
    if m = 0 then sgn
    else
      let top : Int := x + Nat.log2 m
      let y := max t.xmin (top - t.f)
      let q := roundTo m x y
      -- a carry out of the rounding moves one place up
      let (q, y) := if q = 2 ^ (t.f + 1) then (2 ^ t.f, y + 1) else (q, y)
      if q < 2 ^ t.f then sgn + q
      else
        let ex := (y - t.xmin).toNat + 1
        if 2 ^ t.e - 1 ≤ ex then sgn + (2 ^ t.e - 1) * 2 ^ t.f
        else sgn + ex * 2 ^ t.f + (q - 2 ^ t.f)

/-- Signed value of a finite number in units of `2^y`, for `y` at or below its exponent. -/
def fsigned (neg : Bool) (m : Nat) (x y : Int) : Int :=
  let v : Int := (m * 2 ^ (x - y).toNat : Nat)
  if neg then -v else v

/-- Exact sum; `-0` only from two negative zeros (IEEE 754). -/
def fadd : FVal → FVal → FVal
  | .nan, _ | _, .nan => .nan
  | .inf a, .inf b => if a = b then .inf a else .nan
  | .inf a, _ | _, .inf a => .inf a
  | .fin a m x, .fin b n y =>
    let z := min x y
    let v := fsigned a m x z + fsigned b n y z
    if v = 0 then .fin (a && b && decide (m = 0) && decide (n = 0)) 0 z
    else .fin (decide (v < 0)) v.natAbs z

def fneg : FVal → FVal
  | .nan => .nan
  | .inf a => .inf !a
  | .fin a m x => .fin (!a) m x

/-- Order of non-NaN values, with `-0` below `+0` (R107). -/
def flt : FVal → FVal → Bool
  | .nan, _ | _, .nan => false
  | .inf a, .inf b => a && !b
  | .inf a, .fin _ _ _ => a
  | .fin _ _ _, .inf b => !b
  | .fin a m x, .fin b n y =>
    let z := min x y
    let u := fsigned a m x z
    let v := fsigned b n y z
    decide (u < v) || (decide (u = v) && a && !b)

def FVal.isNan : FVal → Bool
  | .nan => true
  | _ => false

def FVal.isFinite : FVal → Bool
  | .fin _ _ _ => true
  | _ => false

/-- Magnitude comparison `|a| ≥ |b|` of finite values. -/
def fmagGe : FVal → FVal → Bool
  | .fin _ m x, .fin _ n y => decide (fsigned false n y (min x y) ≤ fsigned false m x (min x y))
  | .inf _, _ => true
  | _, _ => false

/-- Addition of two encodings of one format. -/
def faddEnc (t : FFmt) (a b : Nat) : Nat := fenc t (fadd (fdec t a) (fdec t b))

/-- The encoding with any NaN made the canonical one (R107). -/
def fcanon (t : FFmt) (a : Nat) : Nat := fenc t (fdec t a)

/-! ### Formats and operations -/

inductive RFmt where
  | int32 | uint32 | int64 | uint64 | fp64 | fp32 | fp32c | bf16 | fp16 | e4m3 | e5m2
  deriving DecidableEq, Repr

/-- R103. -/
def rfmtOf (c : BitVec 4) : Option RFmt :=
  match c.toNat with
  | 1 => some .int32 | 2 => some .uint32 | 3 => some .int64 | 4 => some .uint64
  | 5 => some .fp64 | 6 => some .fp32 | 7 => some .fp32c | 8 => some .bf16
  | 9 => some .fp16 | 10 => some .e4m3 | 11 => some .e5m2
  | _ => none

inductive ROp where
  | sum | max | min | and | or | xor | argmax | argmin
  deriving DecidableEq, Repr

/-- R104. -/
def ropOf (c : BitVec 3) : ROp :=
  match c.toNat with
  | 0 => .sum | 1 => .max | 2 => .min | 3 => .and | 4 => .or | 5 => .xor | 6 => .argmax
  | _ => .argmin

def ROp.arg : ROp → Bool
  | .argmax | .argmin => true
  | _ => false

/-- R104: valid pairs. -/
def validPair (f : RFmt) (o : ROp) : Bool :=
  match o with
  | .sum => true
  | .max | .min => decide (f ≠ .fp32c)
  | .and | .or | .xor => decide (f = .int32 ∨ f = .uint32 ∨ f = .int64 ∨ f = .uint64)
  | .argmax | .argmin =>
    decide (f = .int32 ∨ f = .uint32 ∨ f = .fp32 ∨ f = .bf16 ∨ f = .fp16 ∨ f = .e4m3 ∨ f = .e5m2)

def validCodes (fmt : BitVec 4) (rop : BitVec 3) : Bool :=
  match rfmtOf fmt with
  | some f => validPair f (ropOf rop)
  | none => false

/-- Width of the value in a contribution (R103). -/
def RFmt.width : RFmt → Nat
  | .int32 | .uint32 | .fp32 | .fp32c => 32
  | .int64 | .uint64 | .fp64 => 64
  | .bf16 | .fp16 => 16
  | .e4m3 | .e5m2 => 8

/-- R105: contribution bits above the value's width, apart from the index field, are zero. -/
def widthOk (f : RFmt) (o : ROp) (v : DWord) : Bool :=
  let lo := if o.arg then v.toNat % 2 ^ 32 else v.toNat
  decide (lo < 2 ^ f.width)

/-- Decoding of OCP `FP8_E4M3`: no infinities, S.1111.111 is NaN. -/
def e4m3dec (w : Nat) : FVal :=
  let frac := w % 8
  let ex := w / 8 % 16
  let neg := decide (w / 128 % 2 = 1)
  if ex = 15 ∧ frac = 7 then .nan
  else if ex = 0 then .fin neg frac (-9)
  else .fin neg (8 + frac) ((ex : Int) - 10)

/-- A contribution's value in the accumulator format (R103): binary32 for the narrow formats. -/
def widen (f : RFmt) (v : Nat) : Nat :=
  match f with
  | .fp32 | .fp32c => fcanon f32 v
  | .fp64 => fcanon f64 v
  | .bf16 => fenc f32 (fdec Sys2Proof.Machine.bf16 v)
  | .fp16 => fenc f32 (fdec f16 v)
  | .e4m3 => fenc f32 (e4m3dec v)
  | .e5m2 => fenc f32 (fdec Sys2Proof.Machine.e5m2 v)
  | _ => v

/-- The encoding that the format accumulates in, for the floating formats. -/
def RFmt.acc : RFmt → Option FFmt
  | .fp64 => some f64
  | .fp32 | .fp32c | .bf16 | .fp16 | .e4m3 | .e5m2 => some f32
  | _ => none

/-- A 32-bit or 64-bit value as a signed integer. -/
def sval (w v : Nat) : Int := (BitVec.ofNat w v).toInt

/-- `a` is below `b` in the format's order; NaN is below nothing and above nothing. -/
def rless (f : RFmt) (a b : Nat) : Bool :=
  match f.acc with
  | some t => flt (fdec t a) (fdec t b)
  | none =>
    match f with
    | .int32 => decide (sval 32 a < sval 32 b)
    | .int64 => decide (sval 64 a < sval 64 b)
    | _ => decide (a < b)

def rnan (f : RFmt) (a : Nat) : Bool :=
  match f.acc with
  | some t => (fdec t a).isNan
  | none => false

/-- R107: `MAX` and `MIN` of two values, a NaN losing against a number. -/
def rmaxmin (f : RFmt) (isMax : Bool) (a b : Nat) : Nat :=
  if rnan f a then b else if rnan f b then a
  else if isMax then (if rless f a b then b else a) else if rless f b a then b else a

/-- R105, R107: the winning (index, value); the lower index wins a tie. -/
def rarg (f : RFmt) (isMax : Bool) (ia a ib b : Nat) : Nat × Nat :=
  let bWins :=
    if rnan f a then !rnan f b || decide (ib < ia)
    else if rnan f b then false
    else
      let better := if isMax then rless f a b else rless f b a
      let worse := if isMax then rless f b a else rless f a b
      better || (!worse && decide (ib < ia))
  if bWins then (ib, b) else (ia, a)

def lo32 (v : DWord) : Nat := v.toNat % 2 ^ 32
def hi32 (v : DWord) : Nat := v.toNat / 2 ^ 32
def pack32 (hi lo : Nat) : DWord := BitVec.ofNat 64 (hi % 2 ^ 32 * 2 ^ 32 + lo % 2 ^ 32)

/-- R106: the first contribution of an epoch, in the accumulator format. -/
def foldFirst (f : RFmt) (o : ROp) (v : DWord) : DWord :=
  if o.arg then pack32 (hi32 v) (widen f (lo32 v))
  else
    match f with
    | .int32 =>
      if o = .sum then BitVec.ofInt 64 (sval 32 (lo32 v)) else BitVec.ofNat 64 (lo32 v)
    | .fp32c => BitVec.ofNat 64 (widen .fp32c (lo32 v))
    | _ => BitVec.ofNat 64 (widen f v.toNat)

/-- R108: one compensated fold of `x` into (s, c). -/
def fold32c (acc : DWord) (x : Nat) : DWord :=
  let sE := lo32 acc
  let s := fdec f32 sE
  let xv := fdec f32 x
  let tE := faddEnc f32 sE x
  let t := fdec f32 tE
  if t.isFinite then
    let eE :=
      if fmagGe s xv then faddEnc f32 (fenc f32 (fadd s (fneg t))) x
      else faddEnc f32 (fenc f32 (fadd xv (fneg t))) sE
    pack32 (faddEnc f32 (hi32 acc) eE) tE
  else pack32 (hi32 acc) tE

/-- Whether a 64-bit integer `SUM` wraps (R107). -/
def sumWraps (f : RFmt) (o : ROp) (acc v : DWord) : Bool :=
  match o, f with
  | .sum, .int64 => decide (acc.toInt + v.toInt ≠ (acc + v).toInt)
  | .sum, .uint64 => decide (2 ^ 64 ≤ acc.toNat + v.toNat)
  | _, _ => false

/-- R106: a value already in the accumulator format, folded into `acc`. -/
def foldAcc (f : RFmt) (o : ROp) (acc a : DWord) : DWord :=
  match o with
  | .sum =>
    match f.acc with
    | none => acc + a
    | some t => BitVec.ofNat 64 (faddEnc t acc.toNat a.toNat)
  | .max => BitVec.ofNat 64 (rmaxmin f true acc.toNat a.toNat)
  | .min => BitVec.ofNat 64 (rmaxmin f false acc.toNat a.toNat)
  | .and => acc &&& a
  | .or => acc ||| a
  | .xor => acc ^^^ a
  | .argmax =>
    let r := rarg f true (hi32 acc) (lo32 acc) (hi32 a) (lo32 a)
    pack32 r.1 r.2
  | .argmin =>
    let r := rarg f false (hi32 acc) (lo32 acc) (hi32 a) (lo32 a)
    pack32 r.1 r.2

/-- A contribution folded into an accumulator that may be empty (R106, R108). -/
def foldIn (f : RFmt) (o : ROp) (valid : Bool) (acc v : DWord) : DWord :=
  let a := foldFirst f o v
  if !valid then a
  else if f = .fp32c then fold32c acc (lo32 a)
  else foldAcc f o acc a

/-- R224: `INT32` and `UINT32` fold the low 32 bits, except in a `SUM`. -/
def RFmt.low (f : RFmt) (o : ROp) : Bool :=
  decide ((f = .int32 ∨ f = .uint32) ∧ o ≠ .sum) && !o.arg

/-- R224: a child's accumulator folded into a node's. -/
def combineIn (f : RFmt) (o : ROp) (valid : Bool) (acc a : DWord) : DWord :=
  if !valid then a
  else if f.low o then foldAcc f o (pack32 0 (lo32 acc)) (pack32 0 (lo32 a))
  else if f = .fp32c then
    let r := fold32c acc (lo32 a)
    pack32 (faddEnc f32 (hi32 r) (hi32 a)) (lo32 r)
  else foldAcc f o acc a

/-- R83, R103, R108: the value that a release delivers from `ACC`. -/
def finalise (f : RFmt) (o : ROp) (acc : DWord) : DWord :=
  match f with
  | .fp32c =>
    if (fdec f32 (lo32 acc)).isFinite then
      BitVec.ofNat 64 (faddEnc f32 (lo32 acc) (hi32 acc))
    else BitVec.ofNat 64 (fcanon f32 (lo32 acc))
  | .int32 =>
    match o with
    | .max | .min => BitVec.ofInt 64 (sval 32 (lo32 acc))
    | _ => acc
  | _ => acc

/-- `RESULT` of a release (R83). -/
def resultOf (b : Barrier) : DWord :=
  if b.redEn then
    match rfmtOf b.fmt with
    | some f => if b.accValid then finalise f (ropOf b.rop) b.acc else 0
    | none => 0
  else b.result

end Sys2Proof.Machine
end

