-- ==== Sys2Proof/Machine/Flags.lean ====
section
/-! DEFINITION. Status codes and the numbers of counters, global counters, reports and interrupt bits. -/

namespace Sys2Proof.Machine

/-- R65, R220, R266. -/
def Status.code : Status → Byte
  | .ok => 0x00 | .wouldBlock => 0x01 | .partialRel => 0x02 | .timedOut => 0x03
  | .abandoned => 0x04 | .leaseExpired => 0x05
  | .noObject => 0x08 | .typeMismatch => 0x09 | .accessDenied => 0x0A | .formatError => 0x0B
  | .rangeError => 0x0C | .fenced => 0x0D | .evictedRetry => 0x0E
  | .fabUnreachable => 0x10 | .fabNotReady => 0x11
  | .identityError => 0x20 | .digestError => 0x21 | .signatureError => 0x22
  | .fwRejected => 0x23 | .lcDenied => 0x24 | .aborted => 0x25 | .remoteTimeout => 0x26

/-- R65: statuses 0x08 and above have no effect on any object. -/
def failed (code : Byte) : Bool := decide (8 ≤ code.toNat)

/-- R65: the completion carries zero in `PAYLOAD`. -/
def zeroPayload (code : Byte) : Bool := decide (code = 3#8) || failed code

/-- R346: the counter that a status adds to. -/
def statusCounter (code : Byte) : Option Nat :=
  match code.toNat with
  | 0x01 => some 42 | 0x03 => some 43 | 0x04 => some 44 | 0x05 => some 45
  | 0x08 => some 46 | 0x09 => some 47 | 0x0A => some 48 | 0x0B => some 49
  | 0x0C => some 50 | 0x0D => some 51 | 0x0E => some 52
  | n => if 0x10 ≤ n ∧ n ≤ 0x1F then some 53 else none

/-- R347: the bucket of a wait of `ns` nanoseconds. -/
def waitBucket (ns : Nat) : Nat :=
  if ns < 64 then 34 else if ns < 512 then 35 else if ns < 4000 then 36
  else if ns < 32000 then 37 else if ns < 256000 then 38 else if ns < 2000000 then 39
  else if ns < 16000000 then 40 else 41

/-- R386. -/
inductive Report where
  | crPriv | partMismatch | noCredit | unboundAgent | noreplyFail | resetWindow | holdingsFull
  | fenceDropped | heldDropped | heldFailed | lnFormat | lnUnknownTag | lnUnit | indexFull
  | underflow | ackUnmatched | inheritLoss | badFlit | hopExhausted | portIsolated | noRoute
  | stitchNoSlot | tackBad | spillFull | admitNone | cmdOverrun | mgmtReplyFail | fragOrder
  | fwRejected | wipeFault | uncorrectable | awlSkipped | tapDebug
  deriving DecidableEq, Repr

def Report.code : Report → Byte
  | .crPriv => 0x01 | .partMismatch => 0x02 | .noCredit => 0x03 | .unboundAgent => 0x04
  | .noreplyFail => 0x05 | .resetWindow => 0x06 | .holdingsFull => 0x07 | .fenceDropped => 0x08
  | .heldDropped => 0x09 | .heldFailed => 0x0A | .lnFormat => 0x0B | .lnUnknownTag => 0x0C
  | .lnUnit => 0x0D | .indexFull => 0x0E | .underflow => 0x0F | .ackUnmatched => 0x10
  | .inheritLoss => 0x11 | .badFlit => 0x12 | .hopExhausted => 0x13 | .portIsolated => 0x14
  | .noRoute => 0x15 | .stitchNoSlot => 0x16 | .tackBad => 0x17 | .spillFull => 0x18
  | .admitNone => 0x19 | .cmdOverrun => 0x1A | .mgmtReplyFail => 0x1B | .fragOrder => 0x1C
  | .fwRejected => 0x1D | .wipeFault => 0x1E | .uncorrectable => 0x1F | .awlSkipped => 0x20
  | .tapDebug => 0x21

/-- Reporting units of R382. -/
inductive Unit' where
  | cru | apa | opr | obk | wmc | trk | olu | tdu | fab | lcu | ctm | msq | slu | obs
  deriving DecidableEq, Repr

def Unit'.code : Unit' → BitVec 4
  | .cru => 1 | .apa => 2 | .opr => 3 | .obk => 4 | .wmc => 5 | .trk => 6 | .olu => 7
  | .tdu => 8 | .fab => 9 | .lcu => 10 | .ctm => 11 | .msq => 12 | .slu => 13 | .obs => 14

/-- R205: depth of each pool's receive buffer. -/
def poolDepth (pool : Nat) : Nat :=
  match pool with
  | 1 => 192 | 2 => 128 | 3 => 128 | 4 => 32 | 5 => 8 | _ => 0

end Sys2Proof.Machine
end

