-- ==== Sys2Proof/Machine/Ops.lean ====
section
/-! DEFINITION. Named operations over State: sub-records, TIME, host memory, open values, counters, the Salt Rake and trace records. -/

namespace Sys2Proof.Machine

/-! ### Sub-records -/

def State.ap (s : State) (p : PortNo) : ApPort := tgetD ApPort.reset s.aps p.toNat
def State.setAp (s : State) (p : PortNo) (x : ApPort) : State :=
  { s with aps := tput ApPort.reset s.aps p.toNat x }
def State.modAp (s : State) (p : PortNo) (f : ApPort → ApPort) : State := s.setAp p (f (s.ap p))

def State.bind (s : State) (a : AgentId) : Bind := tgetD Bind.reset s.binds a.toNat
def State.setBind (s : State) (a : AgentId) (x : Bind) : State :=
  { s with binds := tput Bind.reset s.binds a.toNat x }

def State.part (s : State) (p : PartId) : Part := tgetD Part.reset s.parts p.toNat
def State.setPart (s : State) (p : PartId) (x : Part) : State :=
  { s with parts := tput Part.reset s.parts p.toNat x }
def State.modPart (s : State) (p : PartId) (f : Part → Part) : State := s.setPart p (f (s.part p))

/-- Key of a command window: the supervisor window is 64. -/
def winKey : Win → Nat
  | none => 64
  | some p => p.toNat

def State.win (s : State) (w : Win) : Window := tgetD Window.reset s.wins (winKey w)
def State.setWin (s : State) (w : Win) (x : Window) : State :=
  { s with wins := tput Window.reset s.wins (winKey w) x }
def State.modWin (s : State) (w : Win) (f : Window → Window) : State := s.setWin w (f (s.win w))

def State.seq (s : State) (q : SeqNo) : Seq := tgetD Seq.reset s.msq.seqs q.toNat
def State.setSeq (s : State) (q : SeqNo) (x : Seq) : State :=
  { s with msq := { s.msq with seqs := tput Seq.reset s.msq.seqs q.toNat x } }
def State.modSeq (s : State) (q : SeqNo) (f : Seq → Seq) : State := s.setSeq q (f (s.seq q))

/-- The directory is keyed by partition and ContextID (R24). -/
def ctxKey (p : PartId) (c : CtxId) : Nat := p.toNat * 256 + c.toNat

def State.ctx (s : State) (p : PartId) (c : CtxId) : Ctx := tgetD Ctx.reset s.ctm.dir (ctxKey p c)
def State.setCtx (s : State) (p : PartId) (c : CtxId) (x : Ctx) : State :=
  { s with ctm := { s.ctm with dir := tput Ctx.reset s.ctm.dir (ctxKey p c) x } }
def State.modCtx (s : State) (p : PartId) (c : CtxId) (f : Ctx → Ctx) : State :=
  s.setCtx p c (f (s.ctx p c))

def State.fp (s : State) (p : FabPort) : FPort := tgetD FPort.reset s.fab.ports p.toNat
def State.setFp (s : State) (p : FabPort) (x : FPort) : State :=
  { s with fab := { s.fab with ports := tput FPort.reset s.fab.ports p.toNat x } }
def State.modFp (s : State) (p : FabPort) (f : FPort → FPort) : State := s.setFp p (f (s.fp p))

def State.tree (s : State) (t : AgentId) : Tree := tgetD Tree.reset s.fab.trees t.toNat
def State.setTree (s : State) (t : AgentId) (x : Tree) : State :=
  { s with fab := { s.fab with trees := tput Tree.reset s.fab.trees t.toNat x } }

def State.delPart (s : State) (p : PartId) : State := { s with parts := tdel s.parts p.toNat }

def State.modOpr (s : State) (f : Opr → Opr) : State := { s with opr := f s.opr }
def State.modWmc (s : State) (f : Wmc → Wmc) : State := { s with wmc := f s.wmc }
def State.modOlu (s : State) (f : Olu → Olu) : State := { s with olu := f s.olu }
def State.modTdu (s : State) (f : Tdu → Tdu) : State := { s with tdu := f s.tdu }
def State.modLcu (s : State) (f : Lcu → Lcu) : State := { s with lcu := f s.lcu }
def State.modTrk (s : State) (f : Trk → Trk) : State := { s with trk := f s.trk }
def State.modCtm (s : State) (f : Ctm → Ctm) : State := { s with ctm := f s.ctm }
def State.modCr (s : State) (f : Cr → Cr) : State := { s with cr := f s.cr }
def State.modSn (s : State) (f : Sn → Sn) : State := { s with sn := f s.sn }
def State.modObk (s : State) (f : Obk → Obk) : State := { s with obk := f s.obk }
def State.modMsq (s : State) (f : Msq → Msq) : State := { s with msq := f s.msq }
def State.modObs (s : State) (f : Obs → Obs) : State := { s with obs := f s.obs }
def State.modFab (s : State) (f : Fab → Fab) : State := { s with fab := f s.fab }
def State.modSlu (s : State) (f : Slu → Slu) : State := { s with slu := f s.slu }
def State.modClk (s : State) (f : Clk → Clk) : State := { s with clk := f s.clk }
def State.modHob (s : State) (f : Hobble → Hobble) : State :=
  { s with obs := { s.obs with hobble := f s.obs.hobble } }
def State.modDisc (s : State) (f : Disc → Disc) : State :=
  { s with fab := { s.fab with disc := f s.fab.disc } }
def State.modCensus (s : State) (f : Census → Census) : State :=
  { s with fab := { s.fab with census := f s.fab.census } }

/-! ### Straps (R319) and identity -/

def State.bootSrc (s : State) : BitVec 2 := s.clk.straps.extractLsb' 0 2
def State.apCount (s : State) : Nat := (s.clk.straps.extractLsb' 2 4).toNat
def State.fpCount (s : State) : Nat := (s.clk.straps.extractLsb' 6 4).toNat
def State.strictDefault (s : State) : Bool := s.clk.straps.getLsbD 10
def State.timeMaster (s : State) : Bool := s.clk.straps.getLsbD 11
def State.tapEnable (s : State) : Bool := s.clk.straps.getLsbD 15

/-- All startup steps have run. -/
def State.running (s : State) : Bool := decide (s.clk.boot = .run)

/-- R50: ports 0 to `AP_COUNT` are enabled. -/
def State.apEnabled (s : State) (p : PortNo) : Bool := decide (p.toNat ≤ s.apCount)

/-- `AP_READY` of a port. -/
def State.apReady (s : State) (p : PortNo) : Bool := s.running && s.apEnabled p

/-- R197. -/
def State.fpEnabled (s : State) (p : FabPort) : Bool := decide (p.toNat < s.fpCount)

/-- The cut edge has passed and no resume has come (R363). -/
def State.hobbling (s : State) : Bool := decide (s.obs.hobble.state ≠ 0)

/-- From the end of the drain to the resume no object, waiter, queue entry or counter changes (R367). -/
def State.frozen (s : State) : Bool := decide (2 ≤ s.obs.hobble.state.toNat)

/-- The AgentID of a port and a local number. -/
def agentId (p : PortNo) (a : LocalAgent) : AgentId := p ++ a
def agentPort (a : AgentId) : PortNo := a.extractLsb' 8 4
def agentLocal (a : AgentId) : LocalAgent := a.extractLsb' 0 8

/-- Packed ObjectRef (R6). -/
def packRef (n : NodeId) (c : CtxId) (i : Index) : BitVec 44 := n ++ c ++ i
def refNode (r : BitVec 44) : NodeId := r.extractLsb' 28 16
def refCtx (r : BitVec 44) : CtxId := r.extractLsb' 20 8
def refIndex (r : BitVec 44) : Index := r.extractLsb' 0 20

def State.keyRef (s : State) (k : OKey) : BitVec 44 := packRef s.fab.nodeId k.ctx k.index

/-! ### Where a partition's flits stand -/

/-- Startup step S2 (0), S3 (1) or S4 (2) of the partition has run in the startup under way (R297). -/
def State.startBit (s : State) (p : PartId) (i : Nat) : Bool :=
  ((s.part p).starting.map (·.getLsbD i)).getD false

/-- S1 has run and S2 has not: the partition's outputs are closed (R297). -/
def State.outputsShut (s : State) (p : PartId) : Bool :=
  (s.part p).starting.isSome && !s.startBit p 0

/-- A sequencer halted at an awl holds the partition (R359). -/
def State.awlHeld (s : State) (p : PartId) : Bool :=
  s.msq.seqs.any fun q => decide (q.2.code = 5) && q.2.held.any (· = p)

/-- R293: held as draining; so is every partition while a life-cycle transition waits for its reset (R22, R334). -/
def State.draining (s : State) (p : PartId) : Bool :=
  (match (s.part p).state with
    | .unloaded | .loading | .loaded | .quiescing | .quiesced => !s.startBit p 2
    | .free | .active => false) || s.awlHeld p || s.slu.lcPending.isSome

/-- Flits of the partition wait in the port's hold store: its later flits stay behind them (R76). -/
def State.heldBehind (s : State) (p : PortNo) (part : PartId) : Bool :=
  (s.ap p).hold.any fun f => decide ((s.bind (agentId p f.agent)).part = part)

/-- Credits a flit spent, and hold-store entries it takes: two for a `CAS` with its second flit (R51, R57). -/
def Flit.credits (f : Flit) : Nat := if f.cont.isSome then 2 else 1

/-- Hold-store entries in use on a port (R76). -/
def ApPort.holdUse (x : ApPort) : Nat := (x.hold.map Flit.credits).sum

/-- The head flit of a port waits: for the hold store (`true`) or for an op table entry (R75, R76). -/
def State.headWait (s : State) (p : PortNo) : Option Bool :=
  (s.ap p).ingress.head?.map fun f =>
    let b := s.bind (agentId p f.agent)
    b.valid && (s.draining b.part || s.heldBehind p b.part)

/-- Ports whose head flit waits for a full hold store, or for an op table entry. -/
def State.headsWaiting (s : State) (hold : Bool) : Nat :=
  ((List.range 16).filter fun p => decide (s.headWait (BitVec.ofNat 4 p) = some hold)).length

/-! ### TIME (R317, R410) -/

/-- What TIME gains per cycle outside a slew: the tracked value, else `TIME_INC` (R236, R317). -/
def Clk.rate (c : Clk) : BitVec 36 := c.estimate.getD c.timeInc

/-- `n` cycles of TIME: a slew holds until the TIME at which it ends. -/
def Clk.advance (n : Nat) (c : Clk) : Clk :=
  match c.slew with
  | none => { c with time := c.time + BitVec.ofNat 96 (n * c.rate.toNat) }
  | some (r, till) =>
    let left := (till * 2 ^ 32 - c.time.toNat + (r.toNat - 1)) / r.toNat
    if n < left then { c with time := c.time + BitVec.ofNat 96 (n * r.toNat) }
    else
      { c with
        time := c.time + BitVec.ofNat 96 (left * r.toNat + (n - left) * c.rate.toNat), slew := none }

/-- TIME in nanoseconds. -/
def State.now (s : State) : Nat := s.clk.time.toNat / 2 ^ 32

/-- TIME as a 64-bit value. -/
def State.time64 (s : State) : DWord := s.clk.time.extractLsb' 32 64

/-- Adds `n` to a global counter. -/
def bumpGctr (i n : Nat) (o : Obs) : Obs :=
  { o with gctr := tput 0 o.gctr i (tgetD 0 o.gctr i + BitVec.ofNat 64 n) }

/-- `edges` edges of `PORT_CLK`: TIME counts from S3 on, waiting head flits are counted (R351) unless a Hobble holds them, and the trace front end is free again (R356). -/
def elapse (edges : Nat) (s : State) : State :=
  if s.running ∧ 0 < edges then
    (s.modClk (Clk.advance edges)).modObs fun o =>
      let o := if s.hobbling then o
        else bumpGctr 11 (edges * s.headsWaiting true) (bumpGctr 10 (edges * s.headsWaiting false) o)
      { o with trace := { o.trace with front := 0 } }
  else s

/-- One edge with no command waiting (log 2). -/
def idleEdge (s : State) : State := elapse 1 s

/-- The value nearest `TIME` whose low `w` bits are `v` (R217). -/
def rebuildTime (now w v : Nat) : Nat :=
  let m := 2 ^ w
  let c := now - now % m + v
  if now + m / 2 < c then c - m else if c + m / 2 ≤ now then c + m else c

/-! ### Open values (log 6) -/

/-- The next open value. -/
def fresh (s : State) : DWord × State := (Config.freeValue s.free, { s with free := s.free + 1 })

/-! ### Host memory (log 5) -/

/-- What a byte that nothing has written reads as (log 5). -/
def memFill : Byte := 0

def memByte (s : State) (a : Nat) : Byte := tgetD memFill s.mem a

def memSetByte (s : State) (a : Nat) (v : Byte) : State :=
  { s with mem := tput memFill s.mem a v }

/-- R271: the memory master port answers requester `rq` with an error. -/
def memErr (s : State) (rq : ReqId) (a n : Nat) : Bool :=
  decide (2 ^ 48 < a + n) || s.mmBad.any fun r =>
    decide (a < r.1 + r.2.1 ∧ r.1 < a + n) && (r.2.2.all fun q => decide (q = rq))

/-- A request on the memory master port, with its requester ID (R255). -/
def mmRequest (write : Bool) (rq : ReqId) (a n : Nat) (s : State) : State :=
  { s with mmOut := some ⟨write, rq, a, n⟩ }

def memBytes (s : State) (a n : Nat) : List Byte := (List.range n).map fun i => memByte s (a + i)

def memWrite (s : State) (a : Nat) : List Byte → State
  | [] => s
  | v :: vs => memWrite (memSetByte s a v) (a + 1) vs

/-- `n` bytes at `a` written with zeros, which is what an unlisted byte reads as. -/
def memZero (s : State) (a n : Nat) : State :=
  { s with mem := s.mem.filter fun c => decide (¬(a ≤ c.1 ∧ c.1 < a + n)) }

/-- Little-endian bytes of a value, lowest address first. -/
def bytesOf (n : Nat) {w : Nat} (v : BitVec w) : List Byte :=
  (List.range n).map fun i => (v >>> (8 * i)).setWidth 8

/-- The value of little-endian bytes. -/
def natOf : List Byte → Nat
  | [] => 0
  | b :: r => b.toNat + 256 * natOf r

def bvOf (w : Nat) (l : List Byte) : BitVec w := BitVec.ofNat w (natOf l)

/-- The `w`-bit value at `a`. -/
def memBits (s : State) (w a : Nat) : BitVec w := bvOf w (memBytes s a ((w + 7) / 8))

/-- `n` words of 32 bits at `a`. -/
def memWords (s : State) (a n : Nat) : List Word :=
  (List.range n).map fun i => bvOf 32 (memBytes s (a + 4 * i) 4)

def memWriteWords (s : State) (a : Nat) (ws : List Word) : State :=
  memWrite s a (ws.flatMap (bytesOf 4))

/-- Writes bytes over the memory master port (R255). -/
def mmWrite (rq : ReqId) (a : Nat) (bs : List Byte) (s : State) : State :=
  memWrite (mmRequest true rq a bs.length s) a bs

/-! ### Stores (R19) -/

/-- Entries that the macros removed from a store took with them (R19, R335). -/
def State.lostEntries (s : State) (st : Store) : Nat :=
  (s.slu.storeFaults.map fun f =>
    if f.1 ≠ st then 0
    else if st = .waiter then Config.waiterBank else Config.macroEntries st f.2).sum

/-! ### Counters (R345 to R351) -/

def ctrKey (p : PartId) (i : Nat) : Nat := p.toNat * 64 + i

def State.ctr (s : State) (p : PartId) (i : Nat) : DWord := tgetD 0 s.obs.live (ctrKey p i)

/-- Adds `n` to counter `i` of partition `p`, unless the engine is hobbled (R367). -/
def countN (p : PartId) (i n : Nat) (s : State) : State :=
  if s.frozen then s
  else s.modObs fun o => { o with live := tput 0 o.live (ctrKey p i) (s.ctr p i + BitVec.ofNat 64 n) }

/-- Sets bit `i` of the partition's `IRQ_STATUS` (R269). -/
def raisePart (p : PartId) (i : Nat) (s : State) : State :=
  s.modWin (some p) fun w => { w with irqStatus := setBit w.irqStatus i }

/-- Adds one to a counter; an error counter also sets `ERR` of `IRQ_STATUS` (R346). -/
def count (p : PartId) (i : Nat) (s : State) : State :=
  if 46 ≤ i ∧ i ≤ 56 then raisePart p 3 (countN p i 1 s) else countN p i 1 s

def State.gctr (s : State) (i : Nat) : DWord := tgetD 0 s.obs.gctr i

/-- Adds `n` to global counter `i`, unless the engine is hobbled (R367). -/
def gcountN (i n : Nat) (s : State) : State := if s.frozen then s else s.modObs (bumpGctr i n)

def gcount (i : Nat) (s : State) : State := gcountN i 1 s

/-- One operation of a bank's internal queue, of class `cls` of R18 (R351). -/
def inner (cls : Nat) (s : State) : State := gcount cls (gcount 0 s)

/-- Adds one to the counter of a status, if it has one (R346). -/
def countStatus (p : PartId) (code : Byte) (s : State) : State :=
  match statusCounter code with
  | some i => count p i s
  | none => s

/-! ### Interrupts (R399) -/

/-- Sets bit `i` of `IRQ_GLOBAL_STATUS`. -/
def raiseGlobal (i : Nat) (s : State) : State :=
  s.modCr fun c => { c with irqStatus := setBit c.irqStatus i }

/-- `IRQ_GLOBAL`, from S2 onward. -/
def State.irqGlobal (s : State) : Bool :=
  decide (s.clk.outputs = true ∧ s.cr.irqStatus &&& s.cr.irqEnable ≠ 0)

/-- `IRQ[p]` (R269), from S2 of the instance and of a running partition startup onward (R297). -/
def State.irq (s : State) (p : PartId) : Bool :=
  !s.outputsShut p && decide (s.clk.outputs = true ∧ (s.win (some p)).irqStatus &&& (s.win (some p)).irqEnable ≠ 0)

/-! ### The Salt Rake (R382 to R384) -/

/-- R383: the source and code of two entries agree. -/
def Rake.same (a b : Rake) : Bool :=
  decide (a.code = b.code ∧ a.src = b.src ∧ a.part = b.part ∧ a.id = b.id ∧ a.node = b.node)

/-- The most recent entry of the same source and code takes one more report, if R383 lets it. -/
def coalesce (r : Rake) : List Rake → Option (List Rake)
  | [] => none
  | e :: rest =>
    match coalesce r rest with
    | some rest' => some (e :: rest')
    | none =>
      if rest.any (·.same r) then none
      else if e.same r && decide (e.last.toNat ≤ r.last.toNat ∧ r.last.toNat ≤ e.last.toNat + 1000) &&
          decide (e.count ≠ 0xFFFF#16) then
        some ({ e with count := e.count + 1, last := r.last } :: rest)
      else none

/-- One report enters the log: it coalesces, makes an entry, or overflows. -/
def rakeAdd (r : Rake) (s : State) : State :=
  let s := gcount 41 s
  let s := s.modObs fun o => { o with rakeFirst := some (o.rakeFirst.getD r), rakeLast := some r }
  match coalesce r s.obs.rake with
  | some l => s.modObs fun o => { o with rake := l }
  | none =>
    if s.obs.rake.length < Config.saltRake then
      raiseGlobal 6 (s.modObs fun o => { o with rake := o.rake ++ [r] })
    else
      raiseGlobal 7 (s.modObs fun o =>
        { o with
          overflow := if o.overflow = BitVec.allOnes 31 then o.overflow else o.overflow + 1
          sticky := true })

/-- One Salt Rake report (R382, R386). -/
def report (c : Report) (u : Unit') (part : Option PartId) (id : BitVec 12) (node : BitVec 16)
    (ref : BitVec 44) (detail : BitVec 16) (s : State) : State :=
  rakeAdd { first := s.time64, last := s.time64, code := c.code, src := u.code, part,
            count := 1, id, node, ref, detail } s

/-- A fabric port loses a flit: port in `ID`, `SRC` in `NODE`. -/
def reportFab (c : Report) (p : FabPort) (src : NodeId) (s : State) : State :=
  report c .fab none (p.setWidth 12) src 0 0 s

/-! ### Trace records (R353 to R356) -/

def modTrace (f : Trace → Trace) (s : State) : State :=
  s.modObs fun o => { o with trace := f o.trace }

/-- A dropped record is counted three times over: globally, for its partition and for the next `DROP`. -/
def traceDrop (part : Option PartId) (s : State) : State :=
  let s := match part with
    | some p => count p 62 (gcount 40 s)
    | none => gcount 40 s
  modTrace (fun t => { t with dropPend := t.dropPend + 1, dropped := t.dropped + 1 }) s

/-- A record of class bit `cls` enters staging, if trace selects it. -/
def traceRec (cls : Nat) (part : Option PartId) (rec : BitVec 256) (s : State) : State :=
  let t := s.obs.trace
  let sel := t.en && t.classMask.getLsbD cls &&
    match part with
    | some p => t.pmask.getLsbD p.toNat
    | none => true
  if sel then
    if t.front < 2 ∧ t.staging.length + s.lostEntries .trace < Config.traceStaging then
      modTrace (fun t => { t with staging := t.staging ++ [(rec, part)], front := t.front + 1 }) s
    else traceDrop part s
  else s

/-- The layout of R353. -/
def traceWord (time : DWord) (ref : BitVec 44) (op st : Byte) (agent : AgentId) (node : NodeId)
    (relAgent : AgentId) (relNode : NodeId) (cls : BitVec 4) (part : PartId) (kind : BitVec 2)
    (data : DWord) : BitVec 256 :=
  data ++ kind ++ part ++ cls ++ relNode ++ relAgent ++ node ++ agent ++ st ++ op ++ ref ++ time

end Sys2Proof.Machine
end

