-- ==== Sys2Proof/Machine/Objects.lean ====
section
/-! DEFINITION. From an object's name to its word: BANK_MAP translation (R26 to R29), reading and writing object words, and the header bits that describe the queues (R31, R413). -/

namespace Sys2Proof.Machine

/-! ### BANK_MAP -/

/-- After reset logical bank b is physical bank b in `DIRECT` mode. -/
def State.mapEntry (s : State) (b : Nat) : MapEntry :=
  (tget s.obk.map b).getD ⟨BitVec.ofNat 7 b, .direct, 0⟩

def State.isDistributed (s : State) (b : Nat) : Bool := decide ((s.mapEntry b).mode = .distributed)

/-- R29: number of `DISTRIBUTED` entries. -/
def State.distCount (s : State) : Nat := ((List.range 64).filter s.isDistributed).length

/-- R29: `ROW_LIMIT`. -/
def State.rowLimit (s : State) : Nat := 16384 - 256 * s.distCount

/-- Logical banks that are not `DISTRIBUTED`, in ascending order. -/
def State.survivors (s : State) : List Nat := (List.range 64).filter fun b => !s.isDistributed b

/-- R28, R29: physical bank and row of a logical bank and row. -/
def State.bankMap (s : State) (lbank row : Nat) : Nat × Nat :=
  let e := s.mapEntry lbank
  match e.mode with
  | .direct | .migrating => (e.phys.toNat, row)
  | .distributed =>
    let sv := s.survivors
    let b := (sv[row / 256]?).getD 0
    ((s.mapEntry b).phys.toNat, s.rowLimit + 256 * e.dslot.toNat + row % 256)

/-- R342: a migration has not switched yet, so restores and image frames do not write rows of its logical bank. -/
def State.copying (s : State) (l : Nat) : Bool :=
  match s.obk.retire with
  | some r => decide (r.lbank.toNat = l ∧ (s.mapEntry l).mode = .migrating)
  | none => false

/-- The logical bank of an INDEX (R26). -/
def lbankOf (i : Index) : Nat := (i.extractLsb' 0 6).toNat

/-- `INDEX[19:6]`. -/
def rowOff (i : Index) : Nat := (i.extractLsb' 6 14).toNat

/-- Physical bank and row of an object of a context in the banks. -/
def State.place (s : State) (k : OKey) : Nat × Nat :=
  s.bankMap (lbankOf k.index) ((s.ctx k.part k.ctx).rowBase.toNat + rowOff k.index)

def State.slot (s : State) (k : OKey) : Nat := (s.place k).1 * 16384 + (s.place k).2

/-- The context's objects are in the banks. -/
def State.inBanks (s : State) (p : PartId) (c : CtxId) : Bool :=
  decide ((s.ctx p c).state = .resident ∨ (s.ctx p c).state = .evicting)

/-- The object names a slot of a context in the banks (R26). -/
def State.hasSlot (s : State) (k : OKey) : Bool :=
  s.inBanks k.part k.ctx && decide (rowOff k.index < (s.ctx k.part k.ctx).rowCount.toNat)

/-- The object bound in a slot; an unbound slot holds none. -/
def State.obj (s : State) (k : OKey) : Option Obj :=
  if s.hasSlot k then tget s.obk.rows (s.slot k) else none

def State.setObj (s : State) (k : OKey) (o : Obj) : State :=
  if s.hasSlot k then
    s.modObk fun b => { b with rows := tset b.rows (s.slot k) o }
  else s

def State.delObj (s : State) (k : OKey) : State :=
  if s.hasSlot k then
    s.modObk fun b => { b with rows := tdel b.rows (s.slot k) }
  else s

/-- Replaces the type-specific part of a bound object. -/
def State.setBody (s : State) (k : OKey) (b : Body) : State :=
  match s.obj k with
  | some o => s.setObj k { o with body := b }
  | none => s

def State.modHdr (s : State) (k : OKey) (f : ObjHdr → ObjHdr) : State :=
  match s.obj k with
  | some o => s.setObj k { o with hdr := f o.hdr }
  | none => s

/-- Slots of a context in the banks, in ascending INDEX. -/
def State.boundSlots (s : State) (p : PartId) (c : CtxId) : List OKey :=
  ((List.range (64 * (s.ctx p c).rowCount.toNat)).map fun i =>
    (⟨p, c, BitVec.ofNat 20 i⟩ : OKey)).filter fun k => (s.obj k).isSome

/-- The same for every context of a partition. -/
def State.partSlots (s : State) (p : PartId) : List OKey :=
  (s.ctm.dir.filter fun e => decide (e.1 / 256 = p.toNat)).flatMap fun e =>
    s.boundSlots p (BitVec.ofNat 8 (e.1 % 256))

/-! ### Waiters of an object -/

def State.waitersOf (s : State) (k : OKey) : List Waiter :=
  s.wmc.waiters.filter fun w => decide (w.key = k)

/-- R413: the whole queue counts, on the die and spilled. -/
def State.hasWaiters (s : State) (k : OKey) : Bool :=
  s.wmc.waiters.any fun w => decide (w.key = k)

/-- Highest priority in a list of waiters. -/
def maxPrio : List Waiter → Prio
  | [] => 0
  | w :: r => if (maxPrio r).toNat ≤ w.prio.toNat then w.prio else maxPrio r

/-- R111: the head of a queue: highest priority, earliest parked among equals. -/
def headOf : List Waiter → Option Waiter
  | [] => none
  | w :: r =>
    match headOf r with
    | none => some w
    | some h => if w.prio.toNat < h.prio.toNat then some h else some w

def State.head (s : State) (k : OKey) : Option Waiter := headOf (s.waitersOf k)

/-- A held entry names an object as its target, or as the `LANDING` object it still waits on (R187). -/
def State.heldNames (s : State) (k : OKey) : Bool :=
  s.lcu.held.any fun h => decide ((h.land = k ∧ h.posted = false) ∨ h.target = k)

/-- R252: an entry of the object lies in the spill region: a waiter, its early accumulator or a reservation record (log 51). -/
def State.hasSpilled (s : State) (k : OKey) : Bool :=
  s.wmc.waiters.any (fun w => decide (w.key = k) && w.spilled) ||
    s.wmc.early.any (fun e => decide (e.key = k) && e.spilled) ||
    s.trk.descs.any (fun d => decide (d.2.key = k) && d.2.recs.any (·.spilled))

/-- R31, R252, R413: `PARKED`, `SPILL`, `HELD` and `WPRIO` as the queues stand; `WPRIO` keeps its value while no waiter is parked. -/
def syncHdr (k : OKey) (s : State) : State :=
  let ws := s.waitersOf k
  s.modHdr k fun h =>
    { h with
      parked := ws.any (!·.spilled)
      spill := s.hasSpilled k
      held := s.heldNames k
      wprio := if ws.isEmpty then h.wprio else maxPrio ws }

/-- WMC gives an object's queue a descriptor, whose index is open: when the queue forms, and on restore and migration (R47, R413). -/
def freshWq (k : OKey) (s : State) : State :=
  let (v, s) := fresh s
  s.modHdr k fun h => { h with wq := v.setWidth 18 }

/-- Appends a waiter to its object's queue; the first waiter gets a queue descriptor (R413). -/
def park (w : Waiter) (s : State) : State :=
  let first := !s.hasWaiters w.key
  let s := s.modWmc fun m => { m with waiters := m.waiters ++ [w] }
  syncHdr w.key (if first then freshWq w.key s else s)

/-- The same per-node entry: object, node and parity (R217). -/
def Waiter.sameNode (a b : Waiter) : Bool :=
  decide (a.key = b.key ∧ a.node = b.node ∧ a.perNode = b.perNode ∧ a.parity = b.parity)

/-- Removes one waiter. -/
def unpark (w : Waiter) (s : State) : State :=
  syncHdr w.key (s.modWmc fun m => { m with waiters := dropFirst (· = w) m.waiters })

/-- Arrival records that open load sessions have allocated for their `ROSTER` frames (R304). -/
def State.recordsPromised (s : State) : Nat :=
  (s.parts.map fun p =>
    match p.2.load with
    | some l => (l.frames.filter fun f => decide (f.1 = 3)).length
    | none => 0).sum

/-- Waiter-store entries in use: waiters and early accumulators on the die, per-node waits, records at 128 each, windows, index, holdings, fences, watches and trees at two each (R19, R89, R181, R221, R377). -/
def State.waiterUse (s : State) : Nat :=
  (s.wmc.waiters.filter fun w => !w.spilled).length + s.wmc.rwaits.length +
    128 * (s.wmc.records.length + s.recordsPromised) + (s.wmc.early.filter fun e => !e.spilled).length +
    (s.trk.descs.map fun d => (d.2.recs.filter fun r => !r.spilled).length +
      (if d.2.win.isSome then 1 else 0)).sum +
    s.lcu.index.length + s.olu.holdings.length + s.olu.fences.length + s.obs.watches.length +
    2 * (s.fab.trees.filter fun t => t.2.valid).length

/-- R19, R335: entries of the waiter store. -/
def State.waiterCap (s : State) : Nat := Config.waiterEntries - s.lostEntries .waiter

/-- A further waiter-store entry is there. -/
def State.waiterRoom (s : State) : Bool := decide (s.waiterUse < s.waiterCap)

/-! ### Records, early accumulators -/

def State.record (s : State) (k : OKey) : Option Record :=
  s.wmc.records.find? fun r => decide (r.key = k)

def setRecord (k : OKey) (f : Record → Record) (s : State) : State :=
  s.modWmc fun m => { m with records := mapFirst (fun r => decide (r.key = k)) f m.records }

def State.earlyOf (s : State) (k : OKey) : Option Early :=
  s.wmc.early.find? fun r => decide (r.key = k)

def setEarly (k : OKey) (v : DWord) (s : State) : State :=
  match s.earlyOf k with
  | some _ =>
    s.modWmc fun m =>
      { m with early := mapFirst (fun r => decide (r.key = k)) (fun e => { e with acc := v })
                          m.early }
  | none => s.modWmc fun m => { m with early := m.early ++ [⟨k, v, false⟩] }

def dropEarly (k : OKey) (s : State) : State :=
  s.modWmc fun m => { m with early := dropFirst (fun r => decide (r.key = k)) m.early }

/-! ### Ring descriptors -/

/-- The TRK index of an object's descriptor. -/
def State.descOf (s : State) (k : OKey) : Option (Nat × Desc) :=
  s.trk.descs.find? fun d => decide (d.2.key = k)

def State.setDesc (s : State) (i : Nat) (d : Desc) : State :=
  s.modTrk fun t => { t with descs := tset t.descs i d }

def State.delDesc (s : State) (i : Nat) : State :=
  s.modTrk fun t => { t with descs := tdel t.descs i }

/-! ### Watches -/

def State.watchOf (s : State) (k : OKey) : Option Watch :=
  s.obs.watches.find? fun w => decide (w.key = k)

/-- The tree descriptor whose node object is `k`; the census tree has none. -/
def State.treeOf (s : State) (k : OKey) : Option (AgentId × Tree) :=
  (s.fab.trees.find? fun t => t.2.valid && decide (t.2.node = k ∧ t.1 ≠ 0xFFF)).map fun t =>
    (BitVec.ofNat 12 t.1, t.2)

end Sys2Proof.Machine
end

