-- ==== Sys2Proof/Machine/Respond.lean ====
section
/-! DEFINITION. Response interfaces of the agent ports (R62 to R72), the transmit queues of the fabric ports (R206, R214, R229), the scheduler notice queue (R191, R192), and the completion of operations (R71, R216). -/

namespace Sys2Proof.Machine

/-! ### Op table -/

def State.opEntry (s : State) (id : Nat) : Option OpEntry :=
  s.opr.ops.find? fun e => decide (e.id = id)

def freeOp (id : Nat) (s : State) : State :=
  s.modOpr fun o => { o with ops := dropFirst (fun e => decide (e.id = id)) o.ops }

def setOp (id : Nat) (f : OpEntry → OpEntry) (s : State) : State :=
  s.modOpr fun o => { o with ops := mapFirst (fun e => decide (e.id = id)) f o.ops }

def setOpSt (id : Nat) (st : OpSt) (s : State) : State := setOp id (fun e => { e with st }) s

/-! ### Responses of a port -/

/-- R77 step 2 runs for this agent; a notification that is only acknowledged drops nothing (R80). -/
def ApPort.dropping (p : ApPort) (a : LocalAgent) : Bool :=
  p.arst.any fun r => decide (r.agent = a) && r.running && !r.idle

/-- Records a grant whose response is not delivered, for R78. -/
def noteGrant (p : PortNo) (a : LocalAgent) (g : Option Grant) (s : State) : State :=
  match g with
  | none => s
  | some g =>
    s.modAp p fun x =>
      { x with arst := mapFirst (fun r => decide (r.agent = a) && r.running)
                        (fun r => { r with dropped := r.dropped ++ [g] }) x.arst }

/-- A response that step 2 of R77 drops: a completion of an accepted operation, not a bind-stage reply or a notice. -/
def Rsp.droppable (r : Rsp) : Bool :=
  match r.kind with
  | .reply | .wake | .wakeVec => r.accepted
  | .notice => false

def freeOpt (id : Option Nat) (s : State) : State :=
  match id with
  | some i => freeOp i s
  | none => s

/-- A response enters its port's response interface, unless R77 drops it. -/
def pushRsp (p : PortNo) (r : Rsp) (s : State) : State :=
  if !r.droppable then s.modAp p fun x => { x with rsp := x.rsp ++ [r] }
  else
    match r.kind with
    | .wakeVec =>
      let gone := (List.range 64).filter fun i =>
        (s.ap p).dropping (r.block ++ BitVec.ofNat 6 i)
      let m := gone.foldl clearBit r.payload
      let waits := r.waits.filter fun w => !(s.ap p).dropping w.1
      if m = 0 then s
      else s.modAp p fun x => { x with rsp := x.rsp ++ [{ r with payload := m, waits }] }
    | _ =>
      if (s.ap p).dropping r.agent then freeOpt r.entry (noteGrant p r.agent r.grant s)
      else s.modAp p fun x => { x with rsp := x.rsp ++ [r] }

/-- A reply of the bind stage (R55, R72): no token, no entry; `CONTEXT` is zero where the opcode names no object (R62). -/
def bindReply (p : PortNo) (a : LocalAgent) (code : Byte) (f : Req) (part : Option PartId)
    (st : Status) (s : State) : State :=
  pushRsp p
    { kind := .reply, block := 0, status := st.code
      ctx := if ((opOf code).map Op.noObject).getD false then 0 else f.ctx
      node := f.node, index := f.index, opcode := code, payload := 0, agent := a, value := 0,
      inv := false, token := 0, entry := none, accepted := false, part, grant := none, waits := [],
      cause := (0, 0, 0) } s

/-- `DRAIN`, `RESUME` and `UNBOUND` (R64): one notice per block with agents in it. -/
def pushNotice (p : PortNo) (part : PartId) (code : Byte) (agents : List LocalAgent) (s : State) : State :=
  (List.range 4).foldl (fun s b =>
    let as := agents.filter fun a => decide (a.toNat / 64 = b)
    if as.isEmpty then s
    else
      let mask := as.foldl (fun (m : DWord) a => setBit m (a.toNat % 64)) 0
      pushRsp p
        { kind := .notice, block := BitVec.ofNat 2 b, status := 0, ctx := 0, node := 0, index := 0,
          opcode := code, payload := mask, agent := BitVec.ofNat 8 (64 * b), value := 0,
          inv := false, token := 0, entry := none, accepted := false, part := some part,
          grant := none, waits := [],
          cause := (0, 0, 0) } s) s

/-- The bound agents of a partition on a port. -/
def State.boundOn (s : State) (p : PortNo) (part : PartId) : List LocalAgent :=
  (s.binds.filter fun b =>
    b.2.valid && decide (b.2.part = part) && decide (agentPort (BitVec.ofNat 12 b.1) = p)).map
      fun b => BitVec.ofNat 8 b.1

/-- A notice to every bound agent of a partition (R64). -/
def noticePart (part : PartId) (code : Byte) (s : State) : State :=
  (List.range 16).foldl (fun s p =>
    let p := BitVec.ofNat 4 p
    let as := s.boundOn p part
    if as.isEmpty then s else pushNotice p part code as s) s

/-! ### Fabric transmission -/

/-- R214: the table entry of a key. -/
def State.route (s : State) (k : NodeId) : Route :=
  if k.extractLsb' 8 8 ≠ s.fab.nodeId.extractLsb' 8 8 then
    tgetD Route.reset s.fab.groupRt (k.extractLsb' 8 8).toNat
  else tgetD Route.reset s.fab.memberRt (k.extractLsb' 0 8).toNat

def State.fpUp (s : State) (p : FabPort) : Bool := decide ((s.fp p).state = .up)

/-- R229: the traffic of this port is held, or moves on a detour. -/
def State.lostUp (s : State) (p : FabPort) : Bool :=
  (s.fp p).reconDue.isSome || (s.fp p).detour || decide ((s.fp p).state = .failed)

/-- Where a flit for a node goes. -/
inductive Hop where
  | port (p : FabPort) (via : Option NodeId)
  | held (p : FabPort)
  | none
  deriving DecidableEq, Repr

/-- R229: where a flit goes that an entry sends to a port: on it while it is `UP`; held, or through the far end on a detour, while it is lost. -/
def State.hopOn (s : State) (p : FabPort) : Hop :=
  if s.fpUp p then .port p none
  else if s.lostUp p then
    if (s.fp p).detour then
      let q := s.route (s.fp p).farNode
      if q.altV && s.fpUp q.alt then .port q.alt (some (s.fp p).farNode) else .held p
    else .held p
  else .none

/-- R214, R229: the primary port while it is up or lost, else the alternate. -/
def State.nextHop (s : State) (k : NodeId) : Hop :=
  let r := s.route k
  let pri := if r.priV then s.hopOn r.pri else .none
  if pri ≠ .none then pri else if r.altV then s.hopOn r.alt else .none

/-- A flit waits on a port's transmitter. -/
def enqueueTx (p : FabPort) (f : TxFlit) (s : State) : State :=
  s.modFp p fun x => { x with txq := x.txq ++ [f] }

def holdTx (p : FabPort) (f : TxFlit) (s : State) : State :=
  s.modFp p fun x => { x with held := x.held ++ [f] }

/-- Routes a flit; one that finds no usable port is discarded with a report and counted (R214). -/
def routeTx (inPort : Option FabPort) (f : TxFlit) (s : State) : State :=
  match s.nextHop (f.via.getD f.dst) with
  | .port p via => enqueueTx p { f with via := f.via.or via } s
  | .held p => holdTx p f s
  | .none => gcount 24 (reportFab .noRoute (inPort.getD 0) f.src s)

/-- A flit created here, with `HOP` 63 (R201). -/
def fabSend (kind : BitVec 4) (dst : NodeId) (body : BitVec 144) (s : State) : State :=
  routeTx none { kind, dst, src := s.fab.nodeId, via := none, hop := 63, body, fwd := none } s

/-- A link-local flit. -/
def fabSendOn (p : FabPort) (kind : BitVec 4) (body : BitVec 144) (s : State) : State :=
  enqueueTx p { kind, dst := (s.fp p).farNode, src := s.fab.nodeId, via := none, hop := 63, body,
                fwd := none } s

/-- Whether a node can be reached or its flits are held (R214, R230). -/
def State.reachable (s : State) (n : NodeId) : Bool := decide (s.nextHop n ≠ .none)

/-! Bodies of R202 and R203. -/

def opBody (op : Byte) (f : Req) (agent : AgentId) (spart : PartId) (txid : BitVec 15) :
    BitVec 144 :=
  op ++ b1 f.ordered ++ b1 f.invHint ++ b1 f.noReply ++ f.ctx ++ f.index ++ f.aux ++ agent ++
    spart ++ txid ++ f.payload

def opExtBody (txid : BitVec 15) (v : DWord) : BitVec 144 :=
  0xFF#8 ++ 0#57 ++ txid ++ v

def cplBody (op st : Byte) (txid : BitVec 15) (parked : Bool) (stamp : BitVec 48) (v : DWord) :
    BitVec 144 :=
  op ++ st ++ txid ++ b1 parked ++ stamp ++ v

def combineBody (tree : AgentId) (epoch : BitVec 16) (slot : BitVec 3) (valid : Bool)
    (acc : DWord) : BitVec 144 :=
  tree ++ epoch ++ slot ++ b1 valid ++ 0#48 ++ acc

def wakeNodeBody (st : Byte) (c : CtxId) (i : Index) (parity : Bool) (v : DWord) : BitVec 144 :=
  st ++ c ++ i ++ b1 parity ++ 0#43 ++ v

def grantBody (st : Byte) (c : CtxId) (i : Index) (agent : AgentId) (op : Byte) (ended : Bool)
    (policy : BitVec 2) (v : DWord) : BitVec 144 :=
  st ++ c ++ i ++ agent ++ op ++ b1 ended ++ policy ++ 0#21 ++ v

def cancelDoneBody (c : CtxId) (i : Index) (agent : AgentId) (parity found : Bool)
    (txid : BitVec 15) : BitVec 144 :=
  0x90#8 ++ c ++ i ++ agent ++ b1 parity ++ b1 found ++ 0#15 ++ txid ++ 0#64

def treeRelBody (tree : AgentId) (epoch : BitVec 16) (st : Byte) (v : DWord) : BitVec 144 :=
  tree ++ epoch ++ st ++ 0#44 ++ v

/-- A `MGMT` body: `SUB` and 136 further bits (R204). -/
def mgmtBody (sub : Byte) (v : BitVec 136) : BitVec 144 := sub ++ v

/-! ### Scheduler notices (R191 to R193) -/

def Sn.mgmtCount (n : Sn) : Nat := (n.queue.filter (·.mgmt)).length
def Sn.inheritCount (n : Sn) : Nat := (n.queue.filter (!·.mgmt)).length

/-- Counter 61 of the notice's partition. -/
def countNotice (part : Option PartId) (s : State) : State :=
  match part with
  | some p => count p 61 s
  | none => s

/-- R191: outputs of the notice's partition that S2 of R297 has not released. -/
def State.snBlocked (s : State) (n : Notice) : Bool :=
  match n.part with
  | some p =>
    match (s.part p).state with
    | .unloaded | .loading | .loaded => !s.startBit p 0
    | _ => false
  | none => false

/-- The notice whose word stands on SN; it stays there until its last word has moved (R188). -/
def State.snNext (s : State) : Option Notice := s.sn.queue.find? (·.shown)

/-- With no word on SN, the first notice that is not blocked presents its first word (R188, R191). -/
def snShow (s : State) : State :=
  if s.sn.queue.any (·.shown) then s
  else
    let ready := fun n => !s.snBlocked n
    s.modSn fun q => { q with queue := mapFirst ready (fun n => { n with shown := true }) q.queue }

/-- A notice enters the queue. -/
def snEnter (n : Notice) (s : State) : State :=
  countNotice n.part (snShow (s.modSn fun q => { q with queue := q.queue ++ [n] }))

/-- A further management notice finds a place. -/
def State.snRoom (s : State) : Bool := decide (s.sn.mgmtCount < Config.snMgmt ∧ s.sn.backlog = [])

/-- A management notice enters its reserve, or its producer waits for a place. -/
def snManage (part : Option PartId) (ws : List DWord) (s : State) : State :=
  let n : Notice := ⟨ws, 0, false, true, part, none⟩
  if s.snRoom then snEnter n s
  else s.modSn fun q => { q with backlog := q.backlog ++ [n] }

/-- R192: an inheritance notice replaces the queued one of the same holding that is not yet presented, enters, or is lost. -/
def snInherit (part : PartId) (key : BitVec 44 × BitVec 20) (ws : List DWord) (s : State) : State :=
  let n : Notice := ⟨ws, 0, false, false, some part, some key⟩
  let same := fun (m : Notice) => decide (m.inherit = some key) && !m.shown
  if s.sn.queue.any same then
    s.modSn fun q => { q with queue := mapFirst same (fun _ => n) q.queue }
  else if s.sn.inheritCount < Config.snInherit ∧ s.sn.lost = 0 then
    snEnter n s
  else
    let s :=
      if s.sn.lost = 0 then report .inheritLoss .olu (some part) 0 0 key.1 0 s else s
    let s := gcount 34 s
    s.modSn fun q =>
      { q with lost := if q.lost = BitVec.allOnes 32 then q.lost else q.lost + 1 }

/-- R132: the words of an `INHERIT` or `INHERIT_END` notice. -/
def inheritWords (ended : Bool) (level hold : Prio) (part : PartId) (holder : AgentId)
    (wNode : NodeId) (wAgent : AgentId) (seq : BitVec 36) (ref : BitVec 44) : List DWord :=
  [(if ended then 0x21#8 else 0x20#8) ++ level ++ hold ++ part ++ holder ++ wNode ++ wAgent ++ 0#4,
   seq.extractLsb' 0 20 ++ ref]

/-- R131, R219: the notice goes out at the holder's instance. -/
def sendInherit (k : OKey) (l : Lock) (ended : Bool) (level : Prio) (wNode : NodeId)
    (wAgent : AgentId) (s : State) : State :=
  let ref := s.keyRef k
  if l.holderNode = s.fab.nodeId then
    let part := (s.bind l.holderAgent).part
    snInherit part (ref, l.acqSeq.extractLsb' 0 20)
      (inheritWords ended level l.holdPrio part l.holderAgent wNode wAgent l.acqSeq ref) s
  else
    match inheritWords ended level l.holdPrio 0 l.holderAgent wNode wAgent l.acqSeq ref with
    | [a, b] => fabSend 8 l.holderNode (mgmtBody 0x20 (0#8 ++ a ++ b)) s
    | _ => s

/-- `SERVICE` (R336): code, state, cause and two report fields. -/
def snService (w0 w1 : DWord) (s : State) : State := snManage none [w0, w1] s

/-! ### Completion of operations -/

/-- Trace class of an opcode (R354). -/
def Op.cls : Op → Nat
  | .arrive | .arriveReduce | .arriveWait | .wait | .readMissing | .deadlineArm => 0
  | .take | .tryTake | .give | .signal => 1
  | .lock | .tryLock | .unlock | .claimId | .claimRead | .abandon => 2
  | .cas | .fetchAdd | .readObj | .casCont => 3
  | .reserve | .commit | .waitAvail | .release | .rsvCancel => 4
  | .landExpect | .signalAfterLanded => 5
  | .sectionMark => 8
  | .mgmt => 10
  | .fence | .setTag | .waitCancel => 0

/-- Trace class of an object's type (R354). -/
def Body.cls : Body → Nat
  | .barrier _ | .group _ => 0
  | .semaphore _ | .event _ => 1
  | .lock _ => 2
  | .cell _ => 3
  | .ring _ => 4
  | .landing _ => 5

/-- Trace class of an operation of this instance: `WAIT` and `READ_OBJ` act on several types, so that of the object here decides (R354). -/
def State.opCls (s : State) (e : OpEntry) : Nat :=
  if (e.op = .wait ∨ e.op = .readObj) ∧ e.req.node = s.fab.nodeId then
    ((s.obj ⟨e.part, e.req.ctx, e.req.index⟩).map (·.body.cls)).getD e.op.cls
  else e.op.cls

/-- R410: the ingress stamp of an operation at its bank: the TIME that holdHome kept, else the present one. -/
def State.stampOf (s : State) (e : OpEntry) : Nat := e.stamp.getD s.now

/-- The stamp as a value of TIME. -/
def State.stamp64 (s : State) (e : OpEntry) : DWord := (e.stamp.map (BitVec.ofNat 64)).getD s.time64

/-- The `OP` record of a performed operation; a served one has class 7 (R353, R354). -/
def traceOp (e : OpEntry) (code : Byte) (pay : DWord) (s : State) : State :=
  if e.op = .fence ∨ e.op = .setTag ∨ e.op = .sectionMark then s else
  let cls := if e.txid.isSome then 7 else s.opCls e
  let node := if e.txid.isSome then s.fab.nodeId else e.req.node
  let ref := if e.op.noObject then 0 else packRef node e.req.ctx e.req.index
  traceRec cls (some e.part)
    (traceWord (s.stamp64 e) ref e.op.code code e.agent e.node 0 0 (BitVec.ofNat 4 cls) e.part 0
      (pay.extractLsb' 0 32 ++ e.tag)) s

/-- The `REPLY` of an accepted operation (R62, R72). -/
def replyRsp (e : OpEntry) (code : Byte) (pay : DWord) (g : Option Grant) : Rsp where
  kind := .reply
  block := 0
  status := code
  ctx := e.req.ctx
  node := e.req.node
  index := e.req.index
  opcode := e.op.code
  payload := if zeroPayload code then 0 else pay
  agent := agentLocal e.agent
  value := 0
  inv := e.req.invHint
  token := if e.req.invHint then reqToken e.req else 0
  entry := some e.id
  accepted := true
  part := some e.part
  grant := g
  waits := []
  cause := (0, 0, 0)

/-- Answers the issuing agent here: `REPLY`, silence, or the report of R71. -/
def answer (e : OpEntry) (code : Byte) (pay : DWord) (g : Option Grant) (s : State) : State :=
  if e.req.noReply then
    let s :=
      if failed code then
        report .noreplyFail .opr (some e.part) e.agent s.fab.nodeId
          (packRef e.req.node e.req.ctx e.req.index) (e.op.code ++ code) (count e.part 54 s)
      else noteGrant (agentPort e.agent) (agentLocal e.agent) g s
    freeOp e.id s
  else pushRsp (agentPort e.agent) (replyRsp e code pay g) (setOpSt e.id .replying s)

/-- The reply of an operation that another unit has taken over: its entry is free already (R15). -/
def answerFreed (e : OpEntry) (code : Byte) (pay : DWord) (s : State) : State :=
  if e.req.noReply then freeOp e.id s
  else
    pushRsp (agentPort e.agent) { replyRsp e code pay none with entry := none } (freeOp e.id s)

/-- An operation performed at this home completes: an answer here, or a `CPL` to its issuer. -/
def finish (e : OpEntry) (st : Status) (pay : DWord) (g : Option Grant) (s : State) : State :=
  let code := st.code
  let pay := if zeroPayload code then 0 else pay
  let s := traceOp e code pay (countStatus e.part code s)
  match e.txid with
  | none => answer e code pay g s
  | some t =>
    fabSend 2 e.node (cplBody e.op.code code t false ((s.stamp64 e).setWidth 48) pay)
      (freeOp e.id (count e.part 19 s))

/-- An operation parks: its entry is freed; a remote issuer gets `CPL` with `PARKED` (R216). -/
def finishParked (e : OpEntry) (s : State) : State :=
  let s := freeOp e.id (traceOp e 0 0 s)
  match e.txid with
  | none => s
  | some t =>
    fabSend 2 e.node (cplBody e.op.code 0 t true ((s.stamp64 e).setWidth 48) 0) (count e.part 19 s)

/-- An `OP` record of internal work: a held signal or commit (class 5), a deadline or lease expiry (class 9). -/
def traceInner (cls : Nat) (k : OKey) (op : Byte) (agent : AgentId) (node : NodeId) (s : State) :
    State :=
  traceRec cls (some k.part)
    (traceWord s.time64 (s.keyRef k) op 0 agent node 0 0 (BitVec.ofNat 4 cls) k.part 0 0) s

/-! ### Waking -/

/-- Why a wake goes out (R353): releaser's agent, node and cause. -/
abbrev Cause := AgentId × NodeId × BitVec 4

/-- The `WAKE` of one local waiter. -/
def wakeRsp (w : Waiter) (code : Byte) (pay : DWord) (node : NodeId) (g : Option Grant)
    (cause : Cause) : Rsp where
  kind := .wake
  block := 0
  status := code
  ctx := w.key.ctx
  node := node
  index := w.key.index
  opcode := w.op.code
  payload := if zeroPayload code then 0 else pay
  agent := agentLocal w.agent
  value := 0
  inv := w.hint
  token := if w.hint then w.token else 0
  entry := none
  accepted := true
  part := some w.key.part
  grant := g
  waits := [(agentLocal w.agent, w.stamp)]
  cause := cause

def wakeOne (w : Waiter) (code : Byte) (pay : DWord) (node : NodeId) (g : Option Grant)
    (cause : Cause) (s : State) : State :=
  pushRsp (agentPort w.agent) (wakeRsp w code pay node g cause) s

/-- R63: two waiters that one vector can complete; one mask bit completes one operation of one agent. -/
def foldable (a b : Waiter) : Bool :=
  decide (a.key = b.key ∧ agentPort a.agent = agentPort b.agent ∧ a.agent ≠ b.agent ∧
    (agentLocal a.agent).toNat / 64 = (agentLocal b.agent).toNat / 64 ∧
    a.hint = b.hint ∧ (a.hint → a.token = b.token))

/-- `OPCODE` of a vector: the common one, `WAIT` for a mixture with `ARRIVE_WAIT` (R63); of any other mixture it is open (log 52). -/
def vecOpcode (w : Waiter) (ws : List Waiter) (s : State) : Byte × State :=
  if ws.all fun v => decide (v.op = w.op) then (w.op.code, s)
  else if ws.all fun v => decide (v.op = .wait ∨ v.op = .arriveWait) then (Op.wait.code, s)
  else
    let (v, s) := fresh s
    (v.setWidth 8, s)

/-- One response for a set of waiters that fold together. -/
def wakeSet (ws : List Waiter) (code : Byte) (pay : DWord) (node : NodeId) (cause : Cause)
    (s : State) : State :=
  match ws with
  | [] => s
  | [w] => wakeOne w code pay node none cause s
  | w :: _ =>
    let (opcode, s) := vecOpcode w ws s
    let mask := ws.foldl (fun (m : DWord) v => setBit m ((agentLocal v.agent).toNat % 64)) 0
    let blk := (agentLocal w.agent).extractLsb' 6 2
    pushRsp (agentPort w.agent)
      { wakeRsp w code pay node none cause with
        kind := .wakeVec, block := blk, payload := mask, agent := blk ++ 0#6, opcode,
        value := if zeroPayload code then 0 else pay
        waits := ws.map fun v => (agentLocal v.agent, v.stamp) } s

/-- The waiters that join a group, and the rest: each folds with every waiter of the group. -/
def splitGroup (g : List Waiter) : List Waiter → List Waiter × List Waiter
  | [] => (g, [])
  | v :: r =>
    if g.all fun w => foldable w v then splitGroup (g ++ [v]) r
    else
      let (g', rest) := splitGroup g r
      (g', v :: rest)

/-- Groups of waiters that fold together, in order of first appearance; `n` bounds the groups. -/
def foldGroups : Nat → List Waiter → List (List Waiter)
  | 0, _ => []
  | _ + 1, [] => []
  | n + 1, w :: r =>
    let (g, rest) := splitGroup [w] r
    g :: foldGroups n rest

/-- Wakes local waiters of one object with one status and payload (R63). -/
def wakeLocals (ws : List Waiter) (code : Byte) (pay : DWord) (node : NodeId) (cause : Cause)
    (s : State) : State :=
  (foldGroups ws.length ws).foldl (fun s g => wakeSet g code pay node cause s) s

/-- The wake of a waiter removed from its queue: at its port, or one flit to its node (R217). A waiter keeps the NodeID under which it parked (log 69). -/
def sendWake (w : Waiter) (st : Status) (pay : DWord) (g : Option Grant) (policy : BitVec 2)
    (cause : Cause) (s : State) : State :=
  if w.node = s.fab.nodeId then wakeOne w st.code pay s.fab.nodeId g cause s
  else if w.perNode then
    fabSend 4 w.node (wakeNodeBody st.code w.key.ctx w.key.index w.parity pay) s
  else
    fabSend 5 w.node
      (grantBody st.code w.key.ctx w.key.index w.agent w.op.code false policy pay) s

/-- The same, once the waiter's entry is read when it is spilled: by a wake of its own (R253, log 68). -/
def passWake (w : Waiter) (st : Status) (pay : DWord) (g : Option Grant) (policy : BitVec 2)
    (cause : Cause) (s : State) : State :=
  if w.spilled then
    s.modWmc fun m => { m with spillWakes := m.spillWakes ++ [⟨w, st, pay, g, policy, cause⟩] }
  else sendWake w st pay g policy cause s

def wakeWaiter (w : Waiter) (st : Status) (pay : DWord) (g : Option Grant) (policy : BitVec 2)
    (cause : Cause) (s : State) : State :=
  passWake w st pay g policy cause (countStatus w.key.part st.code s)

/-- One waiter for each other node, whose flit is a `WAKE_NODE` (R45 step 1, log 53), and every waiter of this one. -/
def nodeOnce (here : NodeId) : List Waiter → List Waiter
  | [] => []
  | w :: r =>
    if w.node = here then w :: nodeOnce here r
    else { w with perNode := true } :: (nodeOnce here r).filter fun v => decide (v.node ≠ w.node)

/-- Several waiters of one object released together: folded at the ports; one flit for each entry of a remote node (R217), or for each node when the object is gone (R45). -/
def wakeAll (ws : List Waiter) (st : Status) (pay : DWord) (cause : Cause) (s : State) : State :=
  let here := ws.filter fun w => !w.spilled && decide (w.node = s.fab.nodeId)
  let other := ws.filter fun w => w.spilled || decide (w.node ≠ s.fab.nodeId)
  let other := if st = .noObject then nodeOnce s.fab.nodeId other else other
  let s := ws.foldl (fun s w => countStatus w.key.part st.code s) s
  let s := wakeLocals here st.code pay s.fab.nodeId cause s
  other.foldl (fun s w => passWake w st pay none 0 cause s) s

/-- Removes from the queue of `k` the waiters that `q` selects, and answers them. -/
def takeWaiters (k : OKey) (q : Waiter → Bool) (s : State) : List Waiter × State :=
  let sel := fun (w : Waiter) => decide (w.key = k) && q w
  (s.wmc.waiters.filter sel,
   syncHdr k (s.modWmc fun m => { m with waiters := m.waiters.filter fun w => !sel w }))

end Sys2Proof.Machine
end

