-- ==== Sys2Proof/Machine/Locks.lean ====
section
/-! DEFINITION. Locks: grants (R123), waiting and handing over (R124, R125), the claim path (R126, R127), holdings (R128), inheritance (R129), leases (R134, R135), fences (R136) and force release (R137). -/

namespace Sys2Proof.Machine

/-- `RESET_BOUND` or `BOTH`: ended by the holder's reset (R133). -/
def resetBound (policy : BitVec 2) : Bool := policy.getLsbD 0
/-- `LEASE` or `BOTH`. -/
def leased (policy : BitVec 2) : Bool := policy.getLsbD 1

/-- R123: status of a grant. -/
def grantStatus (l : Lock) : Status :=
  match l.lastEnd.toNat with
  | 1 => .abandoned
  | 2 => .leaseExpired
  | _ => .ok

/-- R127: the claim word of a holder. -/
def claimWord (node : NodeId) (agent : AgentId) : DWord := 1#1 ++ 0#35 ++ node ++ agent

/-- R128: a holding of a local agent is listed, or reported when the list is full. -/
def addHolding (agent : AgentId) (home : NodeId) (k : OKey) (s : State) : State :=
  if s.olu.holdings.length < Config.holdingEntries then
    s.modOlu fun o => { o with holdings := o.holdings ++ [⟨agent, home, k⟩] }
  else
    report .holdingsFull .olu (some k.part) agent s.fab.nodeId (packRef home k.ctx k.index) 0 s

def delHolding (agent : AgentId) (home : NodeId) (k : OKey) (s : State) : State :=
  s.modOlu fun o =>
    { o with holdings := dropFirst (fun h => decide (h = ⟨agent, home, k⟩)) o.holdings }

/-- R136: a new fence entry, one per lock; a full store drops the oldest with a report. An expiry does not wait for a waiter-store entry: the entry is added beyond the capacity (log 54). -/
def addFence (k : OKey) (node : NodeId) (agent : AgentId) (s : State) : State :=
  let rest := s.olu.fences.filter fun f => decide (f.key ≠ k)
  if rest.length < Config.fenceEntries then
    s.modOlu fun o => { o with fences := rest ++ [⟨k, node, agent⟩] }
  else
    match rest with
    | [] => s
    | f :: r =>
      report .fenceDropped .olu (some f.key.part) f.agent f.node (s.keyRef f.key) 0
        (s.modOlu fun o => { o with fences := r ++ [⟨k, node, agent⟩] })

def delFence (q : Fence → Bool) (s : State) : State :=
  s.modOlu fun o => { o with fences := o.fences.filter fun f => !q f }

/-- The running lease of a lock, removed from TDU. -/
def delLease (k : OKey) (s : State) : State :=
  s.modTdu fun t => { t with leases := t.leases.filter fun l => decide (l.key ≠ k) }

/-- R123: `l` after a grant to an agent. -/
def grantedLock (l : Lock) (node : NodeId) (agent : AgentId) (prio : Prio) : Lock :=
  { l with
    held := true, holderNode := node, holderAgent := agent, holdPrio := prio, effPrio := prio
    acqSeq := l.acqSeq + 1, claim := claimWord node agent }

/-- R123: the grant's effects besides the word: fence, holdings, counter, and the lease, which runs from the ingress stamp `t` of the operation that grants (R134). -/
def grantEffects (k : OKey) (l : Lock) (t : Nat) (s : State) : State :=
  let s := count k.part 8 s
  let s := delFence
    (fun f => decide (f.key = k ∧ f.node = l.holderNode ∧ f.agent = l.holderAgent)) s
  let s :=
    if resetBound l.policy && decide (l.holderNode = s.fab.nodeId) then
      addHolding l.holderAgent s.fab.nodeId k s
    else s
  if leased l.policy then
    s.modTdu fun u =>
      { u with leases := u.leases ++ [⟨k, l.acqSeq, t + l.leaseUs.toNat * 1000⟩] }
  else s

/-- Grants a free lock: the word and the effects of R123. -/
def grantLock (k : OKey) (l : Lock) (node : NodeId) (agent : AgentId) (prio : Prio) (t : Nat)
    (s : State) : State :=
  let l' := grantedLock l node agent prio
  grantEffects k l' t (s.setBody k (.lock l'))

/-- The payload of a lock grant: `ACQ_SEQ`, and over the fabric `OWNER_POLICY` in [37:36] (R202). -/
def lockPay (l : Lock) (rem : Bool) : DWord :=
  if rem then 0#26 ++ l.policy ++ l.acqSeq else 0#28 ++ l.acqSeq

/-- A grant of this home, as R78 undoes it. -/
def lockGrant (k : OKey) (l : Lock) : Option Grant := some (.lock k none l.acqSeq)

/-- R125, R135, R137, R139: a freed lock goes to the head, or reads free. -/
def handOver (k : OKey) (l : Lock) (cause : Cause) (t : Nat) (s : State) : State :=
  match s.head k with
  | none => s.setBody k (.lock { l with held := false, claim := 0 })
  | some w =>
    let st := grantStatus l
    let s := unpark w (s.setBody k (.lock l))
    let s := grantLock k l w.node w.agent w.prio t s
    let l' := grantedLock l w.node w.agent w.prio
    wakeWaiter w st (0#28 ++ l'.acqSeq) (lockGrant k l') l.policy cause s

/-- A holding ends: `LAST_END`, `INHERIT_END`, the lease, the fence of an expiry, the holdings entry at the holder's instance, then the head (R125, R135, R137, R139, R219). `own` marks the holder's own `UNLOCK`; `t` is the ingress stamp. -/
def endHolding (k : OKey) (l : Lock) (lastEnd : BitVec 2) (own : Bool) (cause : Cause) (t : Nat)
    (s : State) : State :=
  let l' := { l with lastEnd := lastEnd }
  let s :=
    if l.holdPrio.toNat < l.effPrio.toNat then sendInherit k l true l.holdPrio 0 0 s else s
  let s := delLease k s
  let s := if lastEnd = 2 then addFence k l.holderNode l.holderAgent s else s
  let s :=
    if l.holderNode = s.fab.nodeId then delHolding l.holderAgent s.fab.nodeId k s
    else if own then s
    else
      fabSend 5 l.holderNode
        (grantBody 0 k.ctx k.index l.holderAgent (Op.code .lock) true l.policy 0) s
  handOver k l' cause t s

/-- R129: a waiter has left without a grant: the level is lowered, with its notice. -/
def lowerInherit (k : OKey) (s : State) : State :=
  match s.obj k with
  | some ⟨_, .lock l⟩ =>
    if l.held then
      let level :=
        match s.head k with
        | some w => if l.holdPrio.toNat < w.prio.toNat then w.prio else l.holdPrio
        | none => l.holdPrio
      if level.toNat < l.effPrio.toNat then
        let s := s.setBody k (.lock { l with effPrio := level })
        if l.holdPrio.toNat < level.toNat then
          match s.head k with
          | some w => sendInherit k l false level w.node w.agent s
          | none => s
        else sendInherit k l true l.holdPrio 0 0 s
      else s
    else s
  | _ => s

/-- The waiter that an operation enters. -/
def waiterOf (e : OpEntry) (k : OKey) (s : State) : Waiter where
  key := k
  node := e.node
  agent := e.agent
  perNode := false
  op := e.op
  parity := reqAux0 e.req
  prio := e.prio
  operand := reqOperand e.req
  hint := e.req.invHint
  token := reqToken e.req
  limit := reqLimit e.req (s.stampOf e)
  stamp := s.stampOf e
  spilled := false
  remote := decide (e.node ≠ s.fab.nodeId)

/-- R112: the agent already waits on the object. -/
def State.agentWaits (s : State) (k : OKey) (node : NodeId) (agent : AgentId) : Bool :=
  s.wmc.waiters.any fun w =>
    decide (w.key = k ∧ w.node = node ∧ w.agent = agent ∧ w.perNode = false)

/-- R124. -/
def lockOp (e : OpEntry) (k : OKey) (l : Lock) (s : State) : State :=
  if s.agentWaits k e.node e.agent then finish e .rangeError 0 none s
  else if l.held ∧ l.holderNode = e.node ∧ l.holderAgent = e.agent then
    finish e .rangeError 0 none s
  else if !l.held then
    let l' := grantedLock l e.node e.agent e.prio
    finish e (grantStatus l) (lockPay l' e.txid.isSome) (lockGrant k l')
      (grantLock k l e.node e.agent e.prio (s.stampOf e) s)
  else
    let w := waiterOf e k s
    let s := park w s
    let s :=
      if l.effPrio.toNat < w.prio.toNat then
        sendInherit k l false w.prio w.node w.agent (s.setBody k (.lock { l with effPrio := w.prio }))
      else s
    finishParked e s

/-- R124. -/
def tryLockOp (e : OpEntry) (k : OKey) (l : Lock) (s : State) : State :=
  if l.held ∧ l.holderNode = e.node ∧ l.holderAgent = e.agent then
    finish e .rangeError 0 none s
  else if !l.held then
    let l' := grantedLock l e.node e.agent e.prio
    finish e (grantStatus l) (lockPay l' e.txid.isSome) (lockGrant k l')
      (grantLock k l e.node e.agent e.prio (s.stampOf e) s)
  else finish e .wouldBlock (readObjValue (.lock l)) none s

/-- R125. -/
def unlockOp (e : OpEntry) (k : OKey) (l : Lock) (s : State) : State :=
  if l.held ∧ l.holderNode = e.node ∧ l.holderAgent = e.agent then
    finish e .ok 0 none (endHolding k l 0 true (e.agent, e.node, 0) (s.stampOf e) (count k.part 9 s))
  else
    let mine := fun (f : Fence) => decide (f.key = k ∧ f.node = e.node ∧ f.agent = e.agent)
    if s.olu.fences.any mine then finish e .fenced 0 none (delFence mine s)
    else finish e .rangeError 0 none s

/-- R126: a grant at priority 0, or no change. -/
def claimIdOp (e : OpEntry) (k : OKey) (l : Lock) (s : State) : State :=
  if l.held then finish e .ok 0 none s
  else
    let st := grantStatus l
    let s := grantLock k l e.node e.agent 0 (s.stampOf e) s
    let pay : DWord := if e.txid.isSome then 0#26 ++ l.policy ++ 0#36 else 0
    -- the reply carries no `ACQ_SEQ`
    finish e st pay (some (.lock k none 0)) s

/-- R127. -/
def claimReadOp (e : OpEntry) (l : Lock) (s : State) : State := finish e .ok l.claim none s

/-- Abandonment of a holding of an agent, if it still holds (R77 step 4, R139, R218); `seq` is its `ACQ_SEQ`, zero when it is not known (R414). -/
def abandonLock (k : OKey) (node : NodeId) (agent : AgentId) (seq : BitVec 36) (t : Nat) (s : State) : State :=
  match s.obj k with
  | some ⟨_, .lock l⟩ =>
    if l.held ∧ l.holderNode = node ∧ l.holderAgent = agent ∧ (seq = 0 ∨ seq = l.acqSeq) then
      endHolding k l 1 false (agent, node, 4) t s
    else s
  | _ => s

/-- R135: a lease expiry takes effect on the holding it was started for. -/
def expireLease (k : OKey) (seq : Nat) (s : State) : State :=
  match s.obj k with
  | some ⟨_, .lock l⟩ =>
    if l.held ∧ l.acqSeq.toNat = seq then endHolding k l 2 false (0, 0, 2) s.now (traceInner 9 k 0 0 s.fab.nodeId s) else s
  | _ => s

end Sys2Proof.Machine
end

