-- ==== Sys2Proof/Machine/Counts.lean ====
section
/-! DEFINITION. Semaphores (R115 to R117), events (R118 to R120) and cells (R121, R122), and removal of waiters without a grant (R114). -/

namespace Sys2Proof.Machine

/-! ### Semaphores -/

/-- R117: serves heads while `COUNT` covers them; `n` bounds the grants. -/
def grantLoop (k : OKey) (cause : Cause) : Nat → State → State
  | 0, s => s
  | n + 1, s =>
    match s.obj k, s.head k with
    | some ⟨_, .semaphore v⟩, some w =>
      if w.operand.toNat ≤ v.count.toNat then
        let c := v.count - w.operand.setWidth 64
        let s := unpark w (s.setBody k (.semaphore { v with count := c }))
        let s := count k.part 6 s
        let g := some (Grant.take k none (w.operand.setWidth 64))
        grantLoop k cause n (wakeWaiter w .ok c g 0 cause s)
      else s
    | _, _ => s

def runGrants (k : OKey) (cause : Cause) (s : State) : State :=
  grantLoop k cause (s.waitersOf k).length s

/-- R115. -/
def takeOp (e : OpEntry) (k : OKey) (v : Sem) (s : State) : State :=
  let u := reqOperand e.req
  if s.agentWaits k e.node e.agent then finish e .rangeError 0 none s
  else if u = 0 ∨ v.limit.toNat < u.toNat then finish e .rangeError 0 none s
  else if u.toNat ≤ v.count.toNat ∧
      (s.waitersOf k).all (fun w => decide (w.prio.toNat < e.prio.toNat)) then
    let c := v.count - u.setWidth 64
    finish e .ok c (some (.take k none (u.setWidth 64)))
      (count k.part 6 (s.setBody k (.semaphore { v with count := c })))
  else finishParked e (park (waiterOf e k s) s)

/-- R115. -/
def tryTakeOp (e : OpEntry) (k : OKey) (v : Sem) (s : State) : State :=
  let c := e.req.payload
  if c = 0 ∨ v.limit.toNat < c.toNat then finish e .rangeError 0 none s
  else if c.toNat ≤ v.count.toNat ∧ !s.hasWaiters k then
    finish e .ok (v.count - c) (some (.take k none c))
      (count k.part 6 (s.setBody k (.semaphore { v with count := v.count - c })))
  else finish e .wouldBlock v.count none s

/-- R116: whether `c` units fit. -/
def giveOk (v : Sem) (c : DWord) : Bool :=
  decide (c ≠ 0 ∧ v.count.toNat + c.toNat ≤ v.limit.toNat)

/-- R116: the units enter `COUNT` and the grant loop runs. -/
def giveUnits (k : OKey) (v : Sem) (c : DWord) (cause : Cause) (s : State) : State :=
  runGrants k cause (s.setBody k (.semaphore { v with count := v.count + c }))

/-- `COUNT` as it stands. -/
def State.semCount (s : State) (k : OKey) : DWord :=
  match s.obj k with
  | some ⟨_, .semaphore v⟩ => v.count
  | _ => 0

/-- R116. -/
def giveOp (e : OpEntry) (k : OKey) (v : Sem) (s : State) : State :=
  if giveOk v e.req.payload then
    let s := giveUnits k v e.req.payload (e.agent, e.node, 0) (count k.part 7 s)
    finish e .ok (s.semCount k) none s
  else finish e .rangeError 0 none s

/-! ### Events -/

/-- R118, R120: sets the latch for an issuer, with the ingress stamp, and wakes every waiter. -/
def setEvent (k : OKey) (v : Event) (agent : AgentId) (node : NodeId) (cause : Cause) (stamp : DWord)
    (s : State) : State :=
  if v.set then s
  else
    let s := s.setBody k (.event { set := true, setterAgent := agent, setterNode := node,
                                   setTime := stamp })
    let r := takeWaiters k (fun _ => true) s
    wakeAll r.1 .ok 0 cause r.2

/-- R118. -/
def signalOp (e : OpEntry) (k : OKey) (v : Event) (s : State) : State :=
  finish e .ok 0 none (setEvent k v e.agent e.node (e.agent, e.node, 0) (s.stamp64 e) (count k.part 5 s))

/-- A per-node entry for a remote wait (R217). -/
def nodeWaiter (e : OpEntry) (k : OKey) (s : State) : Waiter :=
  { waiterOf e k s with
    agent := 0, perNode := true, prio := 0, operand := 0, hint := false, token := 0,
    limit := none, op := .wait }

/-- Parks a wait on a barrier, group or event: per agent here, per node and parity for a remote issuer (R217). -/
def parkWait (e : OpEntry) (k : OKey) (parity : Bool) (s : State) : State :=
  if e.txid.isSome then
    let w := { nodeWaiter e k s with parity }
    if s.wmc.waiters.any (·.sameNode w) then finishParked e s else finishParked e (park w s)
  else finishParked e (park { waiterOf e k s with parity } s)

/-- R119. A remote `WAIT` finds the entry of its node and parks (R217, log 70). -/
def waitEventOp (e : OpEntry) (k : OKey) (v : Event) (s : State) : State :=
  if reqAux0 e.req then finish e .formatError 0 none s
  else if e.txid.isNone ∧ s.agentWaits k e.node e.agent then finish e .rangeError 0 none s
  else if v.set then finish e .ok 0 none (count k.part 2 s)
  else parkWait e k false (count k.part 2 s)

/-! ### Cells -/

/-- R121. -/
def casOp (e : OpEntry) (k : OKey) (c : Cell) (s : State) : State :=
  let s := count k.part 10 s
  if c.value = e.expected then
    finish e .ok c.value none
      (s.setBody k (.cell { value := e.req.payload, lastAgent := e.agent, lastNode := e.node }))
  else finish e .ok c.value none s

/-- R122. -/
def fetchAddOp (e : OpEntry) (k : OKey) (c : Cell) (s : State) : State :=
  finish e .ok c.value none
    ((count k.part 10 s).setBody k
      (.cell { value := c.value + e.req.payload, lastAgent := e.agent, lastNode := e.node }))

/-! ### Waiters that leave without a grant (R114) -/

/-- The follow-up of a removal: the grant loop of a semaphore, the lowering of a lock. -/
def afterRemoval (k : OKey) (s : State) : State :=
  match s.obj k with
  | some ⟨_, .semaphore _⟩ => runGrants k (0, 0, 7) s
  | some ⟨_, .lock _⟩ => lowerInherit k s
  | _ => s

end Sys2Proof.Machine
end

