-- ==== Sys2Proof/Machine/Rings.lean ====
section
/-! DEFINITION. Token rings: descriptors and their checks (R141 to R144), reservation records (R145), RESERVE (R147, R149), COMMIT (R150), WAIT_AVAIL (R152, R153), RELEASE (R154), cancellation (R155), ring reset (R156) and remote windows (R157 to R161). -/

namespace Sys2Proof.Machine

def Desc.size (d : Desc) : Nat := 2 ^ d.sizeLog2.toNat
def Desc.gran (d : Desc) : Nat := 64 * 2 ^ d.granLog2.toNat
/-- R141: bytes from `HEAD` to `RSV`, and free space. -/
def Desc.used (d : Desc) : Nat := (d.rsv - d.head).toNat
def Desc.free (d : Desc) : Nat := d.size - d.used

/-- R143. -/
def Desc.word (d : Desc) : BitVec 256 :=
  0#1 ++ d.span ++ d.oldest ++ d.winEntry ++ d.spaceWm ++ d.availWm ++ d.padPtr ++ d.rsv ++ d.cmt ++
    d.head ++ 0#12 ++ b1 d.padValid ++ 0#1 ++ d.granLog2 ++ d.sizeLog2 ++ d.base

/-- A descriptor's parameters from its 256 bits, every other field at its Init value. -/
def descOfWord (w : BitVec 256) : Desc where
  key := ⟨0, 0, 0⟩
  base := w.extractLsb' 0 42
  sizeLog2 := w.extractLsb' 42 5
  granLog2 := w.extractLsb' 47 3
  padValid := false
  head := w.extractLsb' 64 32
  cmt := w.extractLsb' 64 32
  rsv := w.extractLsb' 64 32
  padPtr := 0
  availWm := w.extractLsb' 192 16
  spaceWm := w.extractLsb' 208 16
  winEntry := 0
  oldest := 0
  span := 0
  recs := []
  win := none

/-- R144, without the condition on the fields that arrive as zero. -/
def descOk (d : Desc) : Bool :=
  decide (6 ≤ d.sizeLog2.toNat ∧ d.sizeLog2.toNat ≤ 24 ∧ d.gran ≤ d.size ∧
    (d.base.toNat * 64) % d.gran = 0 ∧ d.head.toNat % d.gran = 0 ∧
    d.availWm.toNat * d.gran ≤ d.size ∧ d.spaceWm.toNat * d.gran ≤ d.size)

/-- The parameter bits of a descriptor: every other bit arrives as zero (R144). -/
def descParamBits : BitVec 256 :=
  0#32 ++ BitVec.allOnes 32 ++ 0#96 ++ BitVec.allOnes 32 ++ 0#14 ++ BitVec.allOnes 50

/-- R142: a positive whole number of granules, at most `SIZE`. -/
def Desc.lenOk (d : Desc) (n : Nat) : Bool := decide (n ≠ 0 ∧ n % d.gran = 0 ∧ n ≤ d.size)

/-! ### Records -/

/-- R145: frees the record in a slot; `OLDEST_SLOT` and `SPAN` follow. -/
def freeRec (d : Desc) (slot : BitVec 6) : Desc :=
  let recs := dropFirst (fun r => decide (r.slot = slot)) d.recs
  match recs, recs.getLast? with
  | first :: _, some last =>
    { d with
      recs := recs, oldest := first.slot
      span := BitVec.ofNat 7 ((last.slot - first.slot).toNat + 1) }
  | _, _ => { d with recs := [], oldest := d.oldest + d.span.setWidth 6, span := 0 }

/-- R147: what a grant of `n` bytes does; the record's slot is the one before the new span's end. -/
def grantRec (d : Desc) (n : BitVec 24) (agent : AgentId) (node : NodeId) (lane : BitVec 2) :
    Desc :=
  let r : Rsv := ⟨d.oldest + d.span.setWidth 6, d.rsv, n, agent, node, lane, false, false, false⟩
  { d with rsv := d.rsv + n.setWidth 32, span := d.span + 1, recs := d.recs ++ [r] }

/-- R146: the handle of a record. -/
def Rsv.handle (r : Rsv) : DWord := r.lane ++ r.slot ++ r.len ++ r.start

def Desc.lastHandle (d : Desc) : DWord :=
  match d.recs.getLast? with
  | some r => r.handle
  | none => 0

/-! ### Availability -/

/-- R152: readable bytes before the first pad. -/
def Desc.readable (d : Desc) : Nat :=
  if d.padValid then (d.padPtr - d.head).toNat else (d.cmt - d.head).toNat

/-- Length of the pad at `PAD_PTR`. -/
def Desc.padLen (d : Desc) : Nat :=
  match d.recs.find? fun r => r.void && decide (r.start = d.padPtr) with
  | some r => r.len.toNat
  | none => 0

def Desc.atPad (d : Desc) : Bool := d.padValid && decide (d.readable = 0)

/-- R153: the amount a wait asks for. -/
def Desc.want (d : Desc) (operand : BitVec 24) : Nat :=
  if operand = 0 then d.availWm.toNat * d.gran else operand.toNat

/-- R152, R153: the availability value, when the state satisfies a wait for `n` bytes. -/
def Desc.avail (d : Desc) (n : Nat) : Option DWord :=
  if d.atPad then some (1#1 ++ 0#6 ++ BitVec.ofNat 25 d.padLen ++ d.head)
  else if n ≤ d.readable ∨ (d.padValid ∧ 0 < d.readable) then
    some (0#7 ++ BitVec.ofNat 25 d.readable ++ d.head)
  else none

/-! ### Lanes of a remote window -/

/-- R159: lanes that a remote reservation can take. -/
def Desc.freeLane (d : Desc) : Option (BitVec 2) :=
  match d.win with
  | some w =>
    if w.landed then
      (lowest (fun i => decide (i ≤ w.lanes.toNat) && !w.busy.getLsbD i) 4).map (BitVec.ofNat 2)
    else some 0
  | none => none

def Desc.landed (d : Desc) : Bool :=
  match d.win with
  | some w => w.landed
  | none => false

/-- The lane of a granted remote reservation is busy. -/
def Desc.busyLane (d : Desc) (lane : BitVec 2) : Desc :=
  { d with win := d.win.map fun w =>
      if w.landed then { w with busy := setBit w.busy lane.toNat } else w }

/-- The lane of a remote reservation is free again (R159). -/
def Desc.relLane (d : Desc) (home : NodeId) (r : Rsv) : Desc :=
  if r.node = home then d
  else { d with win := d.win.map fun w => { w with busy := clearBit w.busy r.lane.toNat } }

/-! ### The loops -/

/-- R150: `CMT` passes every committed or void record at it; `n` bounds the records passed. -/
def cmtLoop : Nat → Desc → Desc
  | 0, d => d
  | n + 1, d =>
    match d.recs.find? fun r => decide (r.start = d.cmt) with
    | some r =>
      if r.void then
        let d := if d.padValid then d else { d with padValid := true, padPtr := r.start }
        cmtLoop n { d with cmt := d.cmt + r.len.setWidth 32 }
      else if r.committed then
        cmtLoop n (freeRec { d with cmt := d.cmt + r.len.setWidth 32 } r.slot)
      else d
    | none => d

def runCmt (d : Desc) : Desc := cmtLoop d.recs.length d

/-- The parked producers and consumers of a ring. -/
def State.producers (s : State) (k : OKey) : List Waiter :=
  (s.waitersOf k).filter fun w => decide (w.op = .reserve)
def State.consumers (s : State) (k : OKey) : List Waiter :=
  (s.waitersOf k).filter fun w => decide (w.op = .waitAvail)

/-- R153: wakes every parked consumer that the ring now satisfies. -/
def wakeConsumers (k : OKey) (i : Nat) (cause : Cause) (s : State) : State :=
  match tget s.trk.descs i with
  | none => s
  | some d =>
    let sat := fun (w : Waiter) =>
      decide (w.op = .waitAvail) && (d.avail (d.want w.operand)).isSome
    let r := takeWaiters k sat s
    -- every satisfied waiter gets the same value
    match r.1 with
    | [] => s
    | w :: _ => wakeAll r.1 .ok ((d.avail (d.want w.operand)).getD 0) cause r.2

/-- Whether a producer's `n` bytes can be granted now, its lane included. -/
def Desc.canGrant (d : Desc) (n : Nat) (rem : Bool) : Bool :=
  decide (n ≤ d.free ∧ d.span.toNat < 64) && (!rem || d.freeLane.isSome)

/-- R149: serves producers from the head; `n` bounds the grants. -/
def producerLoop (k : OKey) (i : Nat) (cause : Cause) : Nat → State → State
  | 0, s => s
  | n + 1, s =>
    match tget s.trk.descs i, headOf (s.producers k) with
    | some d, some w =>
      if d.canGrant w.operand.toNat w.remote then
        let lane := if w.remote then d.freeLane.getD 0 else 0
        let d := grantRec d w.operand w.agent w.node lane
        let d := if w.remote then d.busyLane lane else d
        let s := count k.part 12 (unpark w (s.setDesc i d))
        producerLoop k i cause n
          (wakeWaiter w .ok d.lastHandle (some (.reserve k none d.lastHandle)) 0 cause s)
      else s
    | _, _ => s

/-- R149: the loop starts only when the space watermark and the head's bytes are free. -/
def runProducers (k : OKey) (i : Nat) (cause : Cause) (s : State) : State :=
  match tget s.trk.descs i with
  | some d =>
    if d.spaceWm.toNat * d.gran ≤ d.free then
      producerLoop k i cause (s.producers k).length s
    else s
  | none => s

/-- R161: a closing window goes once nothing of its node and no held commit is left. -/
def closeWindow (k : OKey) (i : Nat) (s : State) : State :=
  match tget s.trk.descs i with
  | some d =>
    match d.win with
    | some w =>
      if w.closing && !(d.recs.any fun r => decide (r.node = w.node)) &&
          !(s.lcu.held.any fun h => h.commit && decide (h.target = k)) then
        let s := s.setDesc i { d with win := none }
        match s.obj k with
        | some ⟨_, .ring r⟩ => s.setBody k (.ring { r with remoteOpen := false })
        | _ => s
      else s
    | none => s
  | none => s

/-- The same, for the ring at a key. -/
def closeAt (k : OKey) (s : State) : State :=
  match s.descOf k with
  | some (i, _) => closeWindow k i s
  | none => s

/-! ### Operations -/

/-- R158: checks of a remote request. -/
def remoteRingOk (e : OpEntry) (d : Desc) : Bool :=
  match d.win with
  | some w =>
    decide (e.node = w.node) && decide (e.op = .reserve ∨ e.op = .commit ∨ e.op = .readObj) &&
      !(w.closing && decide (e.op = .reserve))
  | none => false

/-- R147, R148, R159. -/
def reserveOp (e : OpEntry) (k : OKey) (i : Nat) (d : Desc) (s : State) : State :=
  let n := reqOperand e.req
  let noWait := reqAux0 e.req
  let rem := e.txid.isSome
  let dup := (s.producers k).any fun w => decide (w.node = e.node ∧ w.agent = e.agent)
  if !d.lenOk n.toNat then finish e .rangeError 0 none s
  else if !noWait && dup then finish e .rangeError 0 none s
  else if d.canGrant n.toNat rem &&
      (s.producers k).all (fun w => decide (w.prio.toNat < e.prio.toNat)) then
    let lane := if rem then d.freeLane.getD 0 else 0
    let d := grantRec d n e.agent e.node lane
    let d := if rem then d.busyLane lane else d
    finish e .ok d.lastHandle (some (.reserve k none d.lastHandle))
      (count k.part 12 (s.setDesc i d))
  else if noWait then finish e .wouldBlock 0 none s
  else finishParked e (park (waiterOf e k s) s)

/-- R150: the record that a handle names, if its commit is permitted. -/
def Desc.commitRec (d : Desc) (h : DWord) : Option Rsv :=
  d.recs.find? fun r =>
    decide (r.slot = h.extractLsb' 56 6 ∧ r.start = h.extractLsb' 0 32 ∧
      r.len = h.extractLsb' 32 24 ∧ r.committed = false ∧ r.void = false)

def markRec (d : Desc) (slot : BitVec 6) (f : Rsv → Rsv) : Desc :=
  { d with recs := mapFirst (fun r => decide (r.slot = slot)) f d.recs }

/-- R150: commits a record and advances `CMT`; its lane is free and producers and consumers are served. -/
def commitRsv (k : OKey) (i : Nat) (r : Rsv) (cause : Cause) (s : State) : State :=
  match tget s.trk.descs i with
  | none => s
  | some d =>
    let d := runCmt (markRec (d.relLane s.fab.nodeId r) r.slot fun r => { r with committed := true })
    let s := wakeConsumers k i cause (s.setDesc i d)
    -- a lane has freed (R159)
    let s := if r.node ≠ s.fab.nodeId ∧ d.landed then runProducers k i cause s else s
    closeWindow k i (count k.part 13 s)

/-- The lane's `LANDING` object (R157). -/
def laneKey (k : OKey) (w : RWin) (lane : BitVec 2) : OKey :=
  ⟨k.part, k.ctx, w.landIndex + lane.setWidth 20⟩

/-- R186: the next acceptance number on a `LANDING` object, counted over the entries that the queue holds for it (log 57). -/
def State.accNo (s : State) (lk : OKey) : BitVec 32 :=
  match (s.lcu.held.filter fun h => decide (h.land = lk)).getLast? with
  | some h => h.order + 1
  | none => 0

/-- An entry joins the held-signal queue. -/
def addHeld (h : Held) (s : State) : State :=
  syncHdr h.land (syncHdr h.target (s.modLcu fun c => { c with held := c.held ++ [h] }))

/-- R150, R160. A remote commit under `LANDED` enters the held-signal queue; the caller has made sure that an entry is free. A lane object that cannot take it refuses as R27 and R185 do (log 55). -/
def commitOp (e : OpEntry) (k : OKey) (i : Nat) (d : Desc) (s : State) : State :=
  match d.commitRec e.req.payload with
  | none => finish e .rangeError 0 none s
  | some r =>
    match d.win, e.txid.isSome && d.landed with
    | some w, true =>
      let lk := laneKey k w r.lane
      match s.obj lk with
      | some ⟨_, .landing l⟩ =>
        if l.underflow ∨ l.heldCount = 4096 then finish e .rangeError 0 none s
        else
          let s := if l.armed then
              s.setBody lk (.landing { l with heldCount := l.heldCount + 1 }) else s
          finish e .ok 0 none
            (addHeld ⟨lk, k, e.agent, e.node, true, e.req.payload, s.accNo lk, !l.armed, false⟩ s)
      | some _ => finish e .typeMismatch 0 none s
      | none => finish e .noObject 0 none s
    | _, _ => finish e .ok 0 none (commitRsv k i r (e.agent, e.node, 0) s)

/-- R153, R148. -/
def waitAvailOp (e : OpEntry) (k : OKey) (d : Desc) (s : State) : State :=
  let n := d.want (reqOperand e.req)
  let noWait := reqAux0 e.req
  let dup := (s.consumers k).any fun w => decide (w.node = e.node ∧ w.agent = e.agent)
  if !d.lenOk n then finish e .rangeError 0 none s
  else if !noWait && dup then finish e .rangeError 0 none s
  else
    match d.avail n with
    | some v => finish e .ok v none (count k.part 14 s)
    | none =>
      if noWait then finish e .wouldBlock 0 none (count k.part 14 s)
      else finishParked e (park (waiterOf e k s) (count k.part 14 s))

/-- R154: whether `c` bytes can be released. -/
def Desc.releaseOk (d : Desc) (c : Nat) : Bool :=
  decide (c ≠ 0 ∧ c % d.gran = 0) &&
    (if d.atPad then decide (c = d.padLen) else decide (c ≤ d.readable))

/-- R154: `HEAD` advances; a pad passed is freed and the next one named. -/
def Desc.release (d : Desc) (c : Nat) : Desc :=
  let pad := d.atPad
  let slot := (d.recs.find? fun r => r.void && decide (r.start = d.padPtr)).map (·.slot)
  let d := { d with head := d.head + BitVec.ofNat 32 c }
  if pad then
    let d := match slot with
      | some sl => freeRec d sl
      | none => d
    match d.recs.find? fun r =>
        r.void && decide ((r.start - d.head).toNat < (d.cmt - d.head).toNat) with
    | some r => { d with padPtr := r.start }
    | none => { d with padValid := false }
  else d

/-- R154. -/
def releaseOp (e : OpEntry) (k : OKey) (i : Nat) (d : Desc) (s : State) : State :=
  let c := e.req.payload.toNat
  if d.releaseOk c then
    let d := d.release c
    let s := count k.part 14 (s.setDesc i d)
    let s := if d.atPad then wakeConsumers k i (e.agent, e.node, 0) s else s
    finish e .ok 0 none (closeWindow k i (runProducers k i (e.agent, e.node, 0) s))
  else finish e .rangeError 0 none s

/-- R155: cancels the reservation that a handle names, unless it was committed. -/
def cancelRsv (k : OKey) (h : DWord) (cause : Cause) (s : State) : State :=
  match s.descOf k with
  | none => s
  | some (i, d) =>
    match d.commitRec h with
    | none => s
    | some r =>
      let newest := match d.recs.getLast? with
        | some n => decide (n.slot = r.slot)
        | none => false
      let d := d.relLane s.fab.nodeId r
      if newest then
        let d := freeRec { d with rsv := d.rsv - r.len.setWidth 32 } r.slot
        closeWindow k i (runProducers k i cause (s.setDesc i d))
      else
        let d := runCmt (markRec d r.slot fun r => { r with void := true })
        let s := wakeConsumers k i cause (s.setDesc i d)
        closeWindow k i (runProducers k i cause s)

/-- R156: what `RING_RESET` leaves of a descriptor. -/
def Desc.reset (d : Desc) : Desc :=
  { d with
    cmt := d.rsv, head := d.rsv, padValid := false, recs := []
    oldest := d.oldest + d.span.setWidth 6, span := 0
    win := d.win.map fun w => { w with busy := 0 } }

/-- Follow-up of a producer that left without a grant (R149). -/
def ringAfterRemoval (k : OKey) (s : State) : State :=
  match s.descOf k with
  | some (i, _) => runProducers k i (0, 0, 7) s
  | none => s

/-- The follow-up of any removal without a grant (R114, R117, R129, R149); `prod` says that a parked `RESERVE` left. -/
def afterLeaving (k : OKey) (prod : Bool) (s : State) : State :=
  let s := afterRemoval k s
  if prod then ringAfterRemoval k s else s

end Sys2Proof.Machine
end

