-- ==== Sys2Proof/Machine/Barriers.lean ====
section
/-! DEFINITION. Barriers and groups: arrivals and waits (R81 to R95, R411), releases (R83), deadlines (R96 to R99), missing members (R102), early accumulators (R110), tensor watches (R377 to R381) and stitch-tree nodes (R223 to R225, R232). -/

namespace Sys2Proof.Machine

/-! ### Watches -/

/-- The words of `DUMP_REQUEST` (R380). -/
def dumpWords (part : PartId) (held part' : Bool) (epoch : BitVec 16) (seq : BitVec 16)
    (ref : BitVec 44) (tag : Word) (miss cnt : BitVec 16) (value : Option DWord) : List DWord :=
  let w3 := match value with
    | some v => [v]
    | none => []
  [0x30#8 ++ part ++ b1 held ++ b1 part' ++ epoch ++ 0#16 ++ seq, 0#20 ++ ref, tag ++ miss ++ cnt] ++ w3

/-- Enters a `DUMP_REQUEST` with the partition's next dump sequence; answers that sequence. -/
def dumpRequest (k : OKey) (held part' : Bool) (epoch : BitVec 16) (tag : Word)
    (miss cnt : BitVec 16) (value : Option DWord) (s : State) : BitVec 16 × State :=
  let seq := (s.part k.part).dumpSeq + 1
  let s := s.modPart k.part fun p => { p with dumpSeq := seq }
  (seq, snManage (some k.part)
    (dumpWords k.part held part' epoch seq (s.keyRef k) tag miss cnt value) s)

/-- The watch of an object ends. -/
def endWatch (k : OKey) (s : State) : State :=
  let s := s.modObs fun o => { o with watches := o.watches.filter fun w => decide (w.key ≠ k) }
  s.modHdr k fun h => { h with watch := false }

/-! ### Stitch-tree descriptors at a release (R225, R232) -/

/-- One change from epoch J. -/
def applyChange (t : Tree) : TreeChange → Tree
  | .join slot node =>
    { t with childMask := setBit t.childMask slot.toNat, child := tset t.child slot.toNat node }
  | .leave slot =>
    { t with childMask := clearBit t.childMask slot.toNat, child := tdel t.child slot.toNat }
  | .parent node slot => { t with parent := node, pslot := slot }

/-- The release clears the epoch's state, keeps the absent slots and applies the changes that begin with the new epoch. -/
def treeReleased (t : Tree) (epoch : BitVec 16) : Tree :=
  let now := t.changes.filter fun c => decide (c.1 = epoch)
  let absent := t.childMask &&& ~~~t.curChild
  let t :=
    { t with
      sent := false, absent, curChild := 0, pend := false
      absentIds := ((List.range 8).filter fun i => absent.getLsbD i).map fun i => tgetD 0 t.child i
      changes := t.changes.filter fun c => decide (c.1 ≠ epoch) }
  now.foldl (fun t c => applyChange t c.2) t

/-- R225: `TREE_REL` to every child. -/
def sendTreeRel (id : AgentId) (t : Tree) (epoch : BitVec 16) (st : Byte) (v : DWord) (s : State) :
    State :=
  (List.range 8).foldl (fun s i =>
    if t.childMask.getLsbD i then
      fabSend 7 (tgetD 0 t.child i) (treeRelBody id epoch st v) s
    else s) s

/-! ### Releases -/

/-- The deadline of an epoch of a barrier, held by TDU. -/
def State.deadlineOf (s : State) (k : OKey) (epoch : BitVec 16) : Option Deadline :=
  s.tdu.deadlines.find? fun d => decide (d.key = k ∧ d.epoch = epoch)

def delDeadline (k : OKey) (epoch : BitVec 16) (s : State) : State :=
  s.modTdu fun t =>
    { t with deadlines := t.deadlines.filter fun d => decide (¬(d.key = k ∧ d.epoch = epoch)) }

/-- R83: the barrier word after a release with result `res` and missing count `miss`. -/
def releasedBarrier (b : Barrier) (part : Bool) (res : DWord) (miss : BitVec 16)
    (early : Option DWord) (dl : Bool) : Barrier :=
  { b with
    result := res, epoch := b.epoch + 1, curCount := b.nextCount, nextCount := 0
    acc := early.getD 0, accValid := early.isSome, lastPartial := part, missCount := miss
    dlArmed := dl, hold := false }

/-- R83: the arrival record after a release. -/
def releasedRecord (part : Bool) (r : Record) : Record :=
  { r with
    lastMissing := if part then r.roster &&& ~~~r.cur else 0, cur := r.next, next := 0 }

/-- R83: releases the current epoch of a barrier: word, record, early accumulator, deadline, watch notice, tree flits and wakes. -/
def releaseBarrier (k : OKey) (b : Barrier) (part : Bool) (res : DWord) (cause : Cause) (s : State) :
    State :=
  let miss := if part then b.target - b.curCount else 0
  let early := (s.earlyOf k).map (·.acc)
  let dl := (s.deadlineOf k (b.epoch + 1)).isSome
  let b' := releasedBarrier b part res miss early dl
  -- a watch on this epoch that is still armed reports it without holding (R378, R379)
  let s :=
    match s.watchOf k with
    | some w =>
      if w.epoch = b.epoch ∧ w.ack = none then
        endWatch k (dumpRequest k false part b.epoch w.tag miss b.curCount
          (if b.redEn then some res else none) s).2
      else if w.epoch = b.epoch then endWatch k s
      else s
    | none => s
  let s := dropEarly k (delDeadline k b.epoch (s.setBody k (.barrier b')))
  let s := setRecord k (releasedRecord part) s
  let s := count k.part (if part then 4 else 3) s
  let s :=
    match s.treeOf k with
    | some (id, t) =>
      sendTreeRel id t b.epoch (if part then 2 else 0) res (s.setTree id (treeReleased t b'.epoch))
    | none => s
  let r := takeWaiters k (fun w => decide (w.parity = b.epoch.getLsbD 0)) s
  wakeAll r.1 (if part then .partialRel else .ok) res cause r.2

/-- R95: releases the current epoch of a group. -/
def releaseGroup (k : OKey) (g : Group) (cause : Cause) (s : State) : State :=
  let s :=
    match s.watchOf k with
    | some w =>
      if w.epoch.setWidth 12 = g.epoch then
        endWatch k (dumpRequest k false false (g.epoch.setWidth 16) w.tag 0
          (BitVec.ofNat 16 (popcount g.arrived)) none s).2
      else s
    | none => s
  let s := s.setBody k (.group
    { g with epoch := g.epoch + 1, arrived := g.nextArrived, nextArrived := 0 })
  let r := takeWaiters k (fun w => decide (w.parity = g.epoch.getLsbD 0)) (count k.part 3 s)
  wakeAll r.1 .ok g.arrived cause r.2

/-- R225: a node other than the root sends its `COMBINE`. -/
def sendCombine (id : AgentId) (t : Tree) (b : Barrier) (s : State) : State :=
  fabSend 3 t.parent (combineBody id b.epoch t.pslot b.accValid b.acc) s

/-- Releases unless the root's release is held for a re-stitch (R232). -/
def completeOpen (k : OKey) (b : Barrier) (res : DWord) (cause : Cause) (tree : Option (AgentId × Tree))
    (s : State) : Bool × State :=
  match tree with
  | some (id, t) =>
    if t.holdStitch then (false, s.setTree id { t with pend := true })
    else (true, releaseBarrier k b false res cause s)
  | none => (true, releaseBarrier k b false res cause s)

/-- The root's or a plain barrier's part of completion: a watch may hold the release (R85, R378). -/
def completeHold (k : OKey) (b : Barrier) (cause : Cause) (tree : Option (AgentId × Tree)) (s : State) :
    Bool × State :=
  let res := resultOf b
  match s.watchOf k with
  | some w =>
    if w.hold ∧ w.epoch = b.epoch ∧ w.ack = none then
      let (seq, s) := dumpRequest k true false b.epoch w.tag 0 b.curCount
        (if b.redEn then some res else none) s
      let s := s.modObs fun o =>
        { o with watches := mapFirst (fun x => decide (x.key = k))
                              (fun x => { x with ack := some seq }) o.watches }
      (false, s.setBody k (.barrier { b with hold := true }))
    else completeOpen k b res cause tree s
  | none => completeOpen k b res cause tree s

/-- The count has reached `TARGET`: a child node sends `COMBINE`, a watch may hold, a root may wait for a re-stitch, otherwise the epoch is released (R83, R85, R223, R232, R378). -/
def completeBarrier (k : OKey) (b : Barrier) (cause : Cause) (s : State) : Bool × State :=
  match s.treeOf k with
  | some (id, t) =>
    if !t.root then (false, sendCombine id t b (s.setTree id { t with sent := true }))
    else completeHold k b cause (some (id, t)) s
  | none => completeHold k b cause none s

/-! ### Arrivals -/

/-- Classes of R81. -/
inductive Class where
  | current | early | late
  deriving DecidableEq, Repr

/-- R81. -/
def classify (parity epochParity : Bool) (tracked arrived : Bool) : Class :=
  if parity = epochParity then .current else if tracked ∧ !arrived then .late else .early

/-- R87, R105: format checks of an `ARRIVE_REDUCE`. -/
def reduceOk (b : Barrier) (f : Req) : Bool :=
  b.redEn && decide (f.aux.extractLsb' 4 4 = b.fmt ∧ f.aux.extractLsb' 1 3 = b.rop) &&
    match rfmtOf b.fmt with
    | some x => widthOk x (ropOf b.rop) f.payload
    | none => false

/-- R91, R223: membership of an arrival on a barrier. -/
def memberOk (e : OpEntry) (tree : Bool) (rec : Option Record) : Bool :=
  if e.txid.isSome then !(tree || rec.isSome)
  else
    match rec with
    | some r => r.roster.getLsbD e.agent.toNat
    | none => true

/-- The counters of an arrival (R346). -/
def countArrival (e : OpEntry) (s : State) : State :=
  count e.part (if e.op = .arriveReduce then 1 else 0) s

/-- The counters of a folded contribution. -/
def countFold (e : OpEntry) (b : Barrier) (valid : Bool) (acc : DWord) (s : State) : State :=
  let s := count e.part (21 + b.fmt.toNat) s
  match rfmtOf b.fmt with
  | some f =>
    if valid && sumWraps f (ropOf b.rop) acc e.req.payload then count e.part 33 s else s
  | none => s

/-- A contribution folded into an accumulator of a barrier. -/
def barrierFold (b : Barrier) (valid : Bool) (acc v : DWord) : DWord :=
  match rfmtOf b.fmt with
  | some f => foldIn f (ropOf b.rop) valid acc v
  | none => acc

/-- R86: a current arrival. One more on an untracked barrier whose count is complete and not released (`HOLD`, a sent `COMBINE`) counts past `TARGET` (log 56). -/
def arriveCurrent (e : OpEntry) (k : OKey) (b : Barrier) (s : State) : State :=
  let s := countArrival e s
  let red := decide (e.op = .arriveReduce)
  let s := if red then countFold e b b.accValid b.acc s else s
  let acc := if red then barrierFold b b.accValid b.acc e.req.payload else b.acc
  let b' := { b with curCount := b.curCount + 1, acc := acc, accValid := b.accValid || red }
  let s := setRecord k (fun r => { r with cur := setBit r.cur e.agent.toNat })
    (s.setBody k (.barrier b'))
  let cause := (e.agent, e.node, 0)
  let (released, s) :=
    if b'.curCount = b'.target then completeBarrier k b' cause s else (false, s)
  if e.op = .arriveWait then
    if released then finish e .ok (resultOf b') none s
    else parkWait e k (reqAux0 e.req) s
  else finish e .ok (b.epoch.setWidth 64) none s

/-- R84, R86: an early arrival. -/
def arriveEarly (e : OpEntry) (k : OKey) (b : Barrier) (s : State) : State :=
  if b.target.toNat ≤ b.nextCount.toNat + 1 then finish e .rangeError 0 none s
  else
    let s := countArrival e s
    let s :=
      if e.op = .arriveReduce then
        let old := (s.earlyOf k).map (·.acc)
        let s := countFold e b old.isSome (old.getD 0) s
        setEarly k (barrierFold b old.isSome (old.getD 0) e.req.payload) s
      else s
    let s := setRecord k (fun r => { r with next := setBit r.next e.agent.toNat })
      (s.setBody k (.barrier { b with nextCount := b.nextCount + 1 }))
    if e.op = .arriveWait then parkWait e k (reqAux0 e.req) s
    else finish e .ok ((b.epoch + 1).setWidth 64) none s

/-- R86: a late arrival counts toward no epoch. -/
def arriveLate (e : OpEntry) (b : Barrier) (s : State) : State :=
  let s := countArrival e s
  if e.op = .arriveWait then finish e .partialRel b.result none s
  else finish e .partialRel ((b.epoch - 1).setWidth 64) none s

/-- R86, R411: `ARRIVE`, `ARRIVE_REDUCE` and `ARRIVE_WAIT` on a barrier. -/
def arriveBarrier (e : OpEntry) (k : OKey) (h : ObjHdr) (b : Barrier) (s : State) : State :=
  let ar := s.record k
  if e.op = .arriveReduce ∧ !reduceOk b e.req then finish e .formatError 0 none s
  else if !memberOk e h.tree ar then finish e .rangeError 0 none s
  else
    let inCur := (ar.map fun r => r.cur.getLsbD e.agent.toNat).getD false
    let inNext := (ar.map fun r => r.next.getLsbD e.agent.toNat).getD false
    match classify (reqAux0 e.req) (b.epoch.getLsbD 0) ar.isSome inCur with
    | .current => if inCur then finish e .rangeError 0 none s else arriveCurrent e k b s
    | .early => if inNext then finish e .rangeError 0 none s else arriveEarly e k b s
    | .late => arriveLate e b s

/-- R94, R95: `ARRIVE` and `ARRIVE_WAIT` on a group. -/
def arriveGroup (e : OpEntry) (k : OKey) (g : Group) (s : State) : State :=
  let slot := e.agent.toNat % 64
  if !g.enrolled.getLsbD slot then finish e .rangeError 0 none s
  else
    match classify (reqAux0 e.req) (g.epoch.getLsbD 0) true (g.arrived.getLsbD slot) with
    | .current =>
      if g.arrived.getLsbD slot then finish e .rangeError 0 none s
      else
        let g' := { g with arrived := setBit g.arrived slot }
        let s := countArrival e (s.setBody k (.group g'))
        if popcount g'.arrived = g'.k.toNat then
          let s := releaseGroup k g' (e.agent, e.node, 0) s
          if e.op = .arriveWait then finish e .ok g'.arrived none s
          else finish e .ok (g.epoch.setWidth 64) none s
        else if e.op = .arriveWait then parkWait e k (reqAux0 e.req) s
        else finish e .ok (g.epoch.setWidth 64) none s
    | .early =>
      if g.nextArrived.getLsbD slot then finish e .rangeError 0 none s
      else
        let s := countArrival e (s.setBody k (.group
          { g with nextArrived := setBit g.nextArrived slot }))
        if e.op = .arriveWait then parkWait e k (reqAux0 e.req) s
        else finish e .ok ((g.epoch + 1).setWidth 64) none s
    | .late =>
      let s := countArrival e s
      if e.op = .arriveWait then finish e .ok 0 none s
      else finish e .ok ((g.epoch - 1).setWidth 64) none s

/-- R86: `WAIT` on a barrier. -/
def waitBarrierOp (e : OpEntry) (k : OKey) (b : Barrier) (s : State) : State :=
  let s := count k.part 2 s
  if reqAux0 e.req = b.epoch.getLsbD 0 then parkWait e k (reqAux0 e.req) s
  else finish e (if b.lastPartial then .partialRel else .ok) b.result none s

/-- R95: `WAIT` on a group. -/
def waitGroupOp (e : OpEntry) (k : OKey) (g : Group) (s : State) : State :=
  let s := count k.part 2 s
  if reqAux0 e.req = g.epoch.getLsbD 0 then parkWait e k (reqAux0 e.req) s
  else finish e .ok 0 none s

/-! ### Missing members (R102) -/

/-- NodeIDs of four absent children from the `n`-th on. -/
def absentNodes (t : Tree) (n : Nat) : DWord :=
  let at_ := fun i => (t.absentIds[n + i]?).getD 0
  at_ 3 ++ at_ 2 ++ at_ 1 ++ at_ 0

def readMissingOp (e : OpEntry) (k : OKey) (o : Obj) (s : State) : State :=
  let kind := e.req.aux.extractLsb' 6 2
  let chunk := (e.req.aux.extractLsb' 0 6).toNat
  let s := count k.part 11 s
  match o.body, kind.toNat with
  | .barrier _, 0 =>
    match s.record k with
    | some r => finish e .ok (r.lastMissing.extractLsb' (64 * chunk) 64) none s
    | none => finish e .rangeError 0 none s
  | .barrier _, 1 =>
    match s.treeOf k, o.hdr.tree with
    | some (_, t), true =>
      if chunk = 0 then
        finish e .ok (0#48 ++ t.absent ++ 0#4 ++ BitVec.ofNat 4 (popcount t.absent)) none s
      else if chunk = 1 then finish e .ok (absentNodes t 0) none s
      else if chunk = 2 then finish e .ok (absentNodes t 4) none s
      else finish e .rangeError 0 none s
    | _, _ => finish e .rangeError 0 none s
  | .group g, 0 =>
    if chunk = 0 then finish e .ok (g.enrolled &&& ~~~g.arrived) none s
    else finish e .rangeError 0 none s
  | _, _ => finish e .rangeError 0 none s

/-! ### Deadlines (R96, R97) -/

/-- The deadline TIME that a `DEADLINE_ARM` names. -/
def armDue (f : Req) (now : Nat) : Nat :=
  if f.aux.getLsbD 1 then min (now + f.payload.toNat) (2 ^ 64 - 1) else f.payload.toNat

def deadlineArmOp (e : OpEntry) (k : OKey) (h : ObjHdr) (b : Barrier) (s : State) : State :=
  let due := armDue e.req (s.stampOf e)
  let cur := decide (reqAux0 e.req = b.epoch.getLsbD 0)
  let epoch := if cur then b.epoch else b.epoch + 1
  let isRoot := match s.treeOf k with
    | some (_, t) => t.root
    | none => false
  if (s.record k).isNone then finish e .rangeError 0 none s
  else if h.tree ∧ !isRoot then finish e .rangeError 0 none s
  else if 64 ≤ (s.tdu.deadlines.filter fun d => decide (d.due = due)).length then finish e .rangeError 0 none s
  else
    let s := delDeadline k epoch s
    let s := s.modTdu fun t => { t with deadlines := t.deadlines ++ [⟨k, epoch, due⟩] }
    let s := if cur then s.setBody k (.barrier { b with dlArmed := true }) else s
    finish e .ok 0 none s

/-- R99 step 4: an expiry reaches the bank; while `HOLD_STITCH` is set it waits in the expiring set (R232). -/
def expireDeadline (k : OKey) (epoch : Nat) (s : State) : State :=
  match s.obj k with
  | some ⟨_, .barrier b⟩ =>
    if b.epoch.toNat = epoch ∧ b.hold = false ∧ b.curCount ≠ b.target then
      releaseBarrier k b true (resultOf b) (0, 0, 1)
        (traceInner 9 k 0 0 s.fab.nodeId (delDeadline k b.epoch s))
    else s.modTdu fun t =>
      { t with deadlines := t.deadlines.filter fun d =>
          decide (¬(d.key = k ∧ d.epoch.toNat = epoch)) }
  | _ => s

/-! ### Stitch-tree traffic -/

/-- R223: whether a `COMBINE` is taken. -/
def combineOk (t : Tree) (b : Barrier) (src : NodeId) (epoch : BitVec 16) (slot : BitVec 3) :
    Bool :=
  let isChild := match tget t.child slot.toNat with
    | some n => decide (n = src)
    | none => false
  decide (epoch = b.epoch) && t.childMask.getLsbD slot.toNat && isChild &&
    !t.curChild.getLsbD slot.toNat

/-- R224: a child's accumulator folded into a barrier's. -/
def barrierCombine (b : Barrier) (a : DWord) : DWord :=
  match rfmtOf b.fmt with
  | some f => combineIn f (ropOf b.rop) b.accValid b.acc a
  | none => b.acc

/-- The fold of a child's accumulator wraps a 64-bit sum (R107). -/
def barrierWraps (b : Barrier) (a : DWord) : Bool :=
  match rfmtOf b.fmt with
  | some f => sumWraps f (ropOf b.rop) b.acc a
  | none => false

/-- R223, R224: a child's contribution; any other is discarded and counted. -/
def combineFlit (id : AgentId) (src : NodeId) (epoch : BitVec 16) (slot : BitVec 3) (valid : Bool)
    (a : DWord) (s : State) : State :=
  let t := s.tree id
  match if t.valid then s.obj t.node else none with
  | some ⟨_, .barrier b⟩ =>
    if combineOk t b src epoch slot then
      let s := s.setTree id { t with curChild := setBit t.curChild slot.toNat }
      let acc := if valid then barrierCombine b a else b.acc
      let s := if valid && b.accValid && barrierWraps b a then count t.node.part 33 s else s
      let b' := { b with curCount := b.curCount + 1, acc := acc, accValid := b.accValid || valid }
      let s := s.setBody t.node (.barrier b')
      if b'.curCount = b'.target then (completeBarrier t.node b' (0, src, 6) s).2 else s
    else gcount 23 s
  | _ => gcount 23 s

/-- R225: a release from the parent. -/
def treeRelFlit (id : AgentId) (src : NodeId) (epoch : BitVec 16) (st : Byte) (v : DWord)
    (s : State) : State :=
  let t := s.tree id
  match if t.valid && !t.root then s.obj t.node else none with
  | some ⟨_, .barrier b⟩ =>
    if epoch = b.epoch then
      let part := decide (st = 2)
      -- the missing count and the missing members follow the node's own count
      let s := releaseBarrier t.node b part v (0, src, 6) s
      match s.obj t.node with
      | some ⟨_, .barrier b'⟩ =>
        s.setBody t.node (.barrier { b' with missCount := b.target - b.curCount })
      | _ => s
    else gcount 23 s
  | _ => gcount 23 s

/-- R232 step 5: the hold for a re-stitch clears, and a completion that waited for it is performed. -/
def clearHoldStitch (id : AgentId) (s : State) : State :=
  let t := s.tree id
  let s := s.setTree id { t with holdStitch := false, pend := false }
  match t.pend, s.obj t.node with
  | true, some ⟨_, .barrier b⟩ => releaseBarrier t.node b false (resultOf b) (0, 0, 6) s
  | _, _ => s

/-- R381: the release that waited for `DUMP_ACK` or `WATCH_CLEAR`. -/
def releaseWatched (k : OKey) (s : State) : State :=
  match s.obj k with
  | some ⟨_, .barrier b⟩ =>
    if b.hold then
      let s := endWatch k s
      (completeBarrier k { b with hold := false } (0, 0, 5) s).2
    else endWatch k s
  | _ => endWatch k s

end Sys2Proof.Machine
end

