-- ==== Sys2Proof/Machine/Tack.lean ====
section
/-! DEFINITION. Tack Room records in host memory: layout (R247, R248, R414), CRC-32C, and size. -/

namespace Sys2Proof.Machine

/-- One bit of the CRC-32C register. -/
def crcBit (c : Word) : Word :=
  if c.getLsbD 0 then (c >>> 1) ^^^ 0x82F63B78 else c >>> 1

def crcByte (c : Word) (b : Byte) : Word :=
  crcBit (crcBit (crcBit (crcBit (crcBit (crcBit (crcBit (crcBit (c ^^^ b.setWidth 32))))))))

/-- CRC-32C of a list of bytes. -/
def crc32c (l : List Byte) : Word := ~~~(l.foldl crcByte 0xFFFFFFFF)

/-- A section, padded to a 64-byte boundary. -/
def section64 (l : List Byte) : List Byte := l ++ List.replicate ((64 - l.length % 64) % 64) 0

/-- R414. -/
def Fence.word (n : NodeId) (f : Fence) : BitVec 128 :=
  0#56 ++ f.agent ++ f.node ++ packRef n f.key.ctx f.key.index

/-- R414. -/
def Defer.word (n : NodeId) (d : Defer) : BitVec 256 :=
  0#48 ++ d.node ++ d.time ++ d.value ++ d.agent ++ packRef n d.key.ctx d.key.index ++ d.kind

/-- R157. -/
def RWin.word (w : RWin) : BitVec 128 :=
  0#84 ++ b1 w.closing ++ w.busy ++ w.lanes ++ b1 w.landed ++ w.landIndex ++ w.node

/-- Ring section entry: INDEX, then the descriptor with `WIN_ENTRY` zero. -/
def ringEntry (i : Index) (d : Desc) : List Byte :=
  bytesOf 32 (i.setWidth 256) ++ bytesOf 32 { d with winEntry := 0 }.word

/-- Arrival record entry. -/
def rosterEntry (r : Record) : List Byte :=
  bytesOf 64 (r.key.index.setWidth 512) ++ bytesOf 512 r.roster ++ bytesOf 512 r.cur ++
    bytesOf 512 r.next ++ bytesOf 512 r.lastMissing

/-- The word of a slot of the record. -/
def TackRec.slot (r : TackRec) (i : Nat) : BitVec 256 :=
  match r.objs.find? fun o => decide (o.1.toNat = i) with
  | some o => o.2.word
  | none => 0

/-- Header with a given `CRC`. -/
def TackRec.header (r : TackRec) (crc : Word) : List Byte :=
  bytesOf 4 0x54584B31#32 ++ bytesOf 1 (r.part.setWidth 8) ++ bytesOf 1 r.ctx ++
    bytesOf 2 ((b1 r.remoteEn).setWidth 16) ++ bytesOf 2 (r.rowCount.setWidth 16) ++
    bytesOf 3 (BitVec.ofNat 24 r.rings.length) ++ bytesOf 3 (BitVec.ofNat 24 r.records.length) ++
    bytesOf 2 (BitVec.ofNat 16 r.fences.length) ++ bytesOf 3 (BitVec.ofNat 24 r.defer.length) ++
    bytesOf 3 0#24 ++ bytesOf 8 r.evictTime ++ bytesOf 4 (r.incarn.setWidth 32) ++
    bytesOf 24 0#192 ++ bytesOf 4 crc

/-- The sections after the header. -/
def TackRec.body (r : TackRec) : List Byte :=
  section64 ((List.range (64 * r.rowCount.toNat)).flatMap fun i => bytesOf 32 (r.slot i)) ++
  section64 (r.rings.flatMap fun x => ringEntry x.1 x.2) ++
  section64 (r.rings.flatMap fun x =>
    match x.2.win with
    | some w => bytesOf 16 w.word
    | none => []) ++
  section64 (r.records.flatMap rosterEntry) ++
  section64 (r.fences.flatMap fun f => bytesOf 16 (f.word r.node)) ++
  section64 (r.defer.flatMap fun d => bytesOf 32 (d.word r.node))

def TackRec.bytes (r : TackRec) : List Byte :=
  let b := r.body
  r.header (crc32c (r.header 0 ++ b)) ++ b

/-- Length rounded up to 64 bytes. -/
def up64 (n : Nat) : Nat := (n + 63) / 64 * 64

/-- Bytes of a record of these contents, its whole deferral log included (R246, R247). -/
def tackLen (rows objs rings wins rosters fences : Nat) : Nat :=
  64 + 2048 * rows + 64 * rings + up64 (16 * wins) + 2112 * rosters + up64 (16 * fences) +
    32 * (2 * objs + 64 * rings)

def State.tackAddr (s : State) (r : TackRec) : Nat := s.ctm.tackBase.toNat + 65536 * r.block

/-! ### Reading a record (R249, R250) -/

/-- R157. -/
def RWin.ofWord (v : BitVec 128) : RWin where
  node := v.extractLsb' 0 16
  landIndex := v.extractLsb' 16 20
  landed := v.getLsbD 36
  lanes := v.extractLsb' 37 2
  busy := v.extractLsb' 39 4
  closing := v.getLsbD 43

/-- R414. -/
def Fence.ofWord (p : PartId) (v : BitVec 128) : Fence where
  key := ⟨p, v.extractLsb' 20 8, v.extractLsb' 0 20⟩
  node := v.extractLsb' 44 16
  agent := v.extractLsb' 60 12

/-- R414. -/
def Defer.ofWord (p : PartId) (v : BitVec 256) : Defer where
  kind := v.extractLsb' 0 8
  key := ⟨p, v.extractLsb' 28 8, v.extractLsb' 8 20⟩
  agent := v.extractLsb' 52 12
  node := v.extractLsb' 192 16
  value := v.extractLsb' 64 64
  time := v.extractLsb' 128 64

/-- A descriptor with every field of its 256 bits (R143). -/
def descStored (v : BitVec 256) : Desc :=
  { descOfWord v with
    padValid := v.getLsbD 51, cmt := v.extractLsb' 96 32, rsv := v.extractLsb' 128 32
    padPtr := v.extractLsb' 160 32, oldest := v.extractLsb' 242 6, span := v.extractLsb' 248 7 }

/-- Places of the sections and the end, from the counts of a header: rings, windows, records, fences, log, end. -/
def tackPlaces (rows rings wins rosters fences defers : Nat) : List Nat :=
  let a := 64 + 2048 * rows
  let b := a + 64 * rings
  let c := b + up64 (16 * wins)
  let d := c + 2112 * rosters
  let e := d + up64 (16 * fences)
  [a, b, c, d, e, e + up64 (32 * defers)]

/-- The object words of a record at `a`. -/
def State.tackObjs (s : State) (a rows : Nat) : List (Index × Obj) :=
  (List.range (64 * rows)).filterMap fun i =>
    (objOf (memBits s 256 (a + 64 + 32 * i))).map fun o => (BitVec.ofNat 20 i, o)

/-- A word that has a remote window (R38). -/
def Obj.windowed (o : Obj) : Bool :=
  match o.body with
  | .ring r => r.remoteOpen
  | _ => false

/-- A record as it stands in host memory, with its length; its reservation records are spilled entries, which `r` keeps (R245). -/
def State.tackRead (s : State) (r : TackRec) : TackRec × Nat :=
  let a := s.tackAddr r
  let n := fun (w o : Nat) => (memBits s w (a + o)).toNat
  let rows := n 16 8
  let objs := s.tackObjs a rows
  let idx := (List.range (n 24 10)).map fun i => memBits s 20 (a + 64 + 2048 * rows + 64 * i)
  let opens := idx.filter fun i => objs.any fun o => decide (o.1 = i) && o.2.windowed
  let pl := tackPlaces rows (n 24 10) opens.length (n 24 13) (n 16 16) (n 24 18)
  let at_ := fun k => a + (pl[k]?).getD 0
  let ring := fun (i : Nat) (x : Index) =>
    (x, { descStored (memBits s 256 (at_ 0 + 64 * i + 32)) with
          key := (⟨r.part, r.ctx, x⟩ : OKey)
          recs := ((r.rings.find? fun y => decide (y.1 = x)).map (·.2.recs)).getD []
          win := if opens.any (· = x) then
              some (RWin.ofWord (memBits s 128 (at_ 1 + 16 * opens.findIdx (· = x))))
            else none })
  let roster := fun (i : Nat) =>
    let b := at_ 2 + 2112 * i
    (⟨⟨r.part, r.ctx, memBits s 20 b⟩, memBits s 4096 (b + 64), memBits s 4096 (b + 576),
      memBits s 4096 (b + 1088), memBits s 4096 (b + 1600)⟩ : Record)
  ({ r with
      remoteEn := (memBits s 16 (a + 6)).getLsbD 0, rowCount := memBits s 15 (a + 8)
      evictTime := memBits s 64 (a + 24), objs
      rings := (idx.zip (List.range idx.length)).map fun x => ring x.2 x.1
      records := (List.range (n 24 13)).map roster
      fences := (List.range (n 16 16)).map fun i => Fence.ofWord r.part (memBits s 128 (at_ 3 + 16 * i))
      defer := (List.range (n 24 18)).map fun i => Defer.ofWord r.part (memBits s 256 (at_ 4 + 32 * i)) },
   (pl[5]?).getD 0)

/-- R249: `MAGIC`, `PART`, `CTX`, `INCARN` and `CRC` of the record at `a`, of `len` bytes. -/
def State.tackChecks (s : State) (r : TackRec) (len : Nat) : Bool :=
  let a := s.tackAddr r
  let l := memBytes s a len
  decide (memBits s 32 a = 0x54584B31 ∧ memBits s 8 (a + 4) = r.part.setWidth 8 ∧
    memBits s 8 (a + 5) = r.ctx ∧ memBits s 32 (a + 32) = s.clk.incarnation.setWidth 32 ∧
    memBits s 32 (a + 60) = crc32c (l.take 60 ++ [0, 0, 0, 0] ++ l.drop 64))

/-! ### Writing -/

/-- The record is written to its blocks (R255). -/
def writeTack (r : TackRec) (s : State) : State := mmWrite s.slu.engineReqid (s.tackAddr r) r.bytes s

/-- R261: the record's blocks are written with zeros. -/
def zeroTack (r : TackRec) (s : State) : State :=
  memZero (mmRequest true s.slu.engineReqid (s.tackAddr r) (65536 * r.blocks) s) (s.tackAddr r) (65536 * r.blocks)

end Sys2Proof.Machine
end

