-- ==== Sys2Proof/Machine/Defer.lean ====
section
/-! DEFINITION. Contexts out of their banks: what internal work becomes (R246, R414), the shares of strict partitions (R259), and Tack Room records as the engine holds them (R247, R248). -/

namespace Sys2Proof.Machine

/-- A context that internal work finds out: evicting, evicted or restoring (R246). -/
def State.ctxOut (s : State) (p : PartId) (c : CtxId) : Bool :=
  match (s.ctx p c).state with
  | .evicting | .evicted | .restoring => true
  | .free | .resident => false

def State.tackRec (s : State) (p : PartId) (c : CtxId) : Option TackRec :=
  s.ctm.tack.find? fun r => decide (r.part = p ∧ r.ctx = c)

def modTack (p : PartId) (c : CtxId) (f : TackRec → TackRec) (s : State) : State :=
  s.modCtm fun m => { m with tack := mapFirst (fun r => decide (r.part = p ∧ r.ctx = c)) f m.tack }

/-- The `ACQ_SEQ` of the holding that a lease expiry or an abandonment names, where it or the lock word gives it. -/
def Defer.acq (l : Option Lock) (x : Defer) : Option DWord :=
  if x.kind = 2 ∨ x.value ≠ 0 then some x.value
  else
    match l with
    | some l => if l.holderNode = x.node ∧ l.holderAgent = x.agent then some (l.acqSeq.setWidth 64) else none
    | none => none

/-- R246: two entries end one holding: they agree in its `ACQ_SEQ`, or in its holder. -/
def Defer.sameHolding (l : Option Lock) (x y : Defer) : Bool :=
  decide (x.key = y.key ∧ (x.kind = 2 ∨ x.kind = 3) ∧ (y.kind = 2 ∨ y.kind = 3)) &&
    (decide (x.acq l = y.acq l ∧ x.acq l ≠ none) ||
      decide (x.kind = 3 ∧ y.kind = 3 ∧ x.agent = y.agent ∧ x.node = y.node))

/-- R246: a deferral entry joins the log of a context; `l` is the lock it acts on. An entry for a holding that has one already, or a second re-evaluation, does not; undo `GIVE`s add up. -/
def joinLog (l : Option Lock) (d : Defer) (log : List Defer) : List Defer :=
  let same := fun (x : Defer) => decide (x.key = d.key)
  match d.kind.toNat with
  | 2 | 3 => if log.any (d.sameHolding l) then log else log ++ [d]
  | 5 =>
    let g := fun (x : Defer) => same x && decide (x.kind = 5)
    if log.any g then mapFirst g (fun x => { x with value := x.value + d.value }) log
    else log ++ [d]
  | 6 => if log.any fun x => same x && decide (x.kind = 6) then log else log ++ [d]
  | _ => log ++ [d]

/-- An object in its bank, or in the record of its evicted context. -/
def State.objAny (s : State) (k : OKey) : Option Obj :=
  match s.obj k with
  | some o => some o
  | none =>
    match s.tackRec k.part k.ctx with
    | some r => (r.objs.find? fun o => decide (o.1 = k.index)).map (·.2)
    | none => none

/-- The lock fields of such an object. -/
def State.lockAny (s : State) (k : OKey) : Option Lock :=
  match s.objAny k with
  | some ⟨_, .lock l⟩ => some l
  | _ => none

/-- The log entry; once the record stands in host memory, it follows (R248). -/
def deferWork (kind : Byte) (k : OKey) (agent : AgentId) (node : NodeId) (value time : DWord)
    (s : State) : State :=
  let l := s.lockAny k
  let s := modTack k.part k.ctx
    (fun r => { r with defer := joinLog l ⟨kind, k, agent, node, value, time⟩ r.defer }) s
  match s.tackRec k.part k.ctx with
  | some r => if (s.ctx k.part k.ctx).state = .evicting then s else writeTack r s
  | none => s

/-- The queue work after a removal: at once, or as a re-evaluation entry while the context is out (R246); `prod` says that a parked `RESERVE` left, without which a ring has none (R149). -/
def afterLeave (k : OKey) (prod : Bool) (s : State) : State :=
  if s.ctxOut k.part k.ctx then
    match s.objAny k with
    | some ⟨_, .semaphore _⟩ | some ⟨_, .lock _⟩ => deferWork 6 k 0 0 0 s.time64 s
    | some ⟨_, .ring _⟩ => if prod then deferWork 6 k 0 0 0 s.time64 s else s
    | _ => s
  else afterLeaving k prod s

/-- An abandonment, now or deferred, with the holding's `ACQ_SEQ` where it is known (R414). -/
def abandonAt (k : OKey) (node : NodeId) (agent : AgentId) (seq : BitVec 36) (s : State) : State :=
  if s.ctxOut k.part k.ctx then deferWork 3 k agent node (seq.setWidth 64) s.time64 s
  else abandonLock k node agent seq s.now s

/-- A reservation cancellation, now or deferred. -/
def cancelAt (k : OKey) (h : DWord) (cause : Cause) (s : State) : State :=
  if s.ctxOut k.part k.ctx then deferWork 4 k 0 0 h s.time64 s else cancelRsv k h cause s

/-- The `GIVE` that undoes a dropped grant (R78), now or deferred. -/
def undoGive (k : OKey) (units : DWord) (s : State) : State :=
  if s.ctxOut k.part k.ctx then deferWork 5 k 0 0 units s.time64 s
  else
    match s.obj k with
    | some ⟨_, .semaphore v⟩ =>
      if giveOk v units then giveUnits k v units (0, 0, 4) (count k.part 7 s) else s
    | _ => s

/-! ### Shares (R259) -/

/-- Strict partitions that exist. -/
def State.strictParts (s : State) : List PartId :=
  (s.parts.filter fun p => p.2.strict && decide (p.2.state ≠ .free)).map fun p => BitVec.ofNat 6 p.1

def State.isStrict (s : State) (p : PartId) : Bool :=
  (s.part p).strict && decide ((s.part p).state ≠ .free)

/-- R27, R259: a strict partition uses its own bank groups, any other those that no strict one holds (log 59). -/
def State.bankAllowed (s : State) (p : PartId) (i : Index) : Bool :=
  let g := lbankOf i / 4
  if s.isStrict p then (s.part p).bankSet.getLsbD g
  else !s.strictParts.any fun q => (s.part q).bankSet.getLsbD g

/-- The checks of R27 that OPR makes on a name, once its context is not out. -/
def State.nameCheck (s : State) (k : OKey) : Status :=
  if (s.ctx k.part k.ctx).state = .free then .noObject
  else if !s.bankAllowed k.part k.index then .accessDenied
  else if (s.ctx k.part k.ctx).rowCount.toNat ≤ rowOff k.index then .rangeError
  else .ok

/-- The sum of a reservation over the strict partitions. -/
def State.reserved (s : State) (f : Part → Nat) : Nat :=
  (s.strictParts.map fun p => f (s.part p)).sum

/-- R259: a partition's share of `total` entries, of which strict partitions hold their own. -/
def State.share (s : State) (p : PartId) (f : Part → Nat) (total : Nat) : Nat :=
  if s.isStrict p then f (s.part p) else total - s.reserved f

/-- Held-signal queue entries a partition counts against its share. -/
def State.heldUsed (s : State) (p : PartId) : Nat :=
  if s.isStrict p then (s.lcu.held.filter fun h => decide (h.target.part = p)).length
  else (s.lcu.held.filter fun h => !s.isStrict h.target.part).length

/-- Entries of the held-signal queue (R19). -/
def State.heldCap (s : State) : Nat := Config.heldEntries - s.lostEntries .held

/-- R185: an entry of the held-signal queue is free for the partition. -/
def State.heldRoom (s : State) (p : PartId) : Bool :=
  decide (s.lcu.held.length < s.heldCap) &&
    decide (s.heldUsed p < s.share p (·.hsRes.toNat) s.heldCap)

/-- Waiter-store entries of a partition on the die, of every kind that `State.waiterUse` counts and that belongs to an object or agent of it. -/
def State.waitersUsed (s : State) (p : PartId) : Nat :=
  (s.wmc.waiters.filter fun w => !w.spilled && decide (w.key.part = p)).length +
    (s.wmc.rwaits.filter fun w => decide (w.part = p)).length +
    128 * (s.wmc.records.filter fun r => decide (r.key.part = p)).length +
    (s.wmc.early.filter fun e => !e.spilled && decide (e.key.part = p)).length +
    (s.trk.descs.map fun d =>
      if d.2.key.part = p then
        (d.2.recs.filter fun r => !r.spilled).length + (if d.2.win.isSome then 1 else 0)
      else 0).sum +
    (s.lcu.index.filter fun a => decide (a.part = p)).length +
    (s.olu.holdings.filter fun h => decide (h.key.part = p)).length +
    (s.olu.fences.filter fun f => decide (f.key.part = p)).length +
    (s.obs.watches.filter fun w => decide (w.key.part = p)).length +
    2 * (s.fab.trees.filter fun t => t.2.valid && decide (t.2.node.part = p)).length

/-- Waiter-store entries that a non-strict partition can use: those that no strict partition reserves (R259). -/
def State.waiterShare (s : State) (p : PartId) : Nat :=
  if s.isStrict p then (s.part p).wsRes.toNat else s.waiterCap - s.reserved (·.wsRes.toNat)

/-- Waiter-store entries that count against the share of a partition. -/
def State.waiterCount (s : State) (p : PartId) : Nat :=
  if s.isStrict p then s.waitersUsed p
  else s.waiterUse - (s.strictParts.map s.waitersUsed).sum

/-- `n` entries of the waiter store are free for the partition. -/
def State.entriesRoom (s : State) (p : PartId) (n : Nat) : Bool :=
  decide (s.waiterUse + n ≤ s.waiterCap ∧ s.waiterCount p + n ≤ s.waiterShare p)

/-- R253, R259: an entry of the waiter store is free for the partition. -/
def State.entryRoom (s : State) (p : PartId) : Bool :=
  s.waiterRoom && decide (s.waiterCount p < s.waiterShare p)

/-- Spilled entries, of 16 bytes each in the spill region. -/
def State.spilledCount (s : State) : Nat :=
  (s.wmc.waiters.filter (·.spilled)).length + (s.wmc.early.filter (·.spilled)).length +
    (s.trk.descs.map fun d => (d.2.recs.filter (·.spilled)).length).sum +
    (s.ctm.tack.map fun r => (r.rings.map fun d => d.2.recs.length).sum).sum

/-- Waiter-store entries of a context that can spill: waiters, early accumulators, reservation records. -/
def State.ctxEntries (s : State) (p : PartId) (c : CtxId) (spilled : Bool) : Nat :=
  let mine := fun (k : OKey) => decide (k.part = p ∧ k.ctx = c)
  (s.wmc.waiters.filter fun w => mine w.key && decide (w.spilled = spilled)).length +
    (s.wmc.early.filter fun e => mine e.key && decide (e.spilled = spilled)).length +
    (s.trk.descs.map fun d =>
      if mine d.2.key then (d.2.recs.filter fun r => decide (r.spilled = spilled)).length else 0).sum +
    (match s.tackRec p c with
      | some r => (r.rings.map fun d => (d.2.recs.filter fun r => decide (r.spilled = spilled)).length).sum
      | none => 0)

/-- R244: entries of the spill region that are taken, or reserved for contexts being evicted. -/
def State.spillUsed (s : State) : Nat :=
  s.spilledCount + ((s.ctm.dir.filter fun e => decide (e.2.state = .evicting)).map fun e =>
    s.ctxEntries (BitVec.ofNat 6 (e.1 / 256)) (BitVec.ofNat 8 (e.1 % 256)) false).sum

/-- Entries the spill region holds: 16 bytes each; `SPILL_SIZE` counts 4 KiB blocks (R400). -/
def State.spillCap (s : State) : Nat := s.ctm.spillSize.toNat * 256

end Sys2Proof.Machine
end

