-- ==== Sys2Proof/Machine/Posted.lean ====
section
/-! DEFINITION. Work posted to the banks: what holds it (R99 to R101, R110, R253, R339), and the classes of the internal queue (R18). -/

namespace Sys2Proof.Machine

/-! ### Banks that cannot serve (R338, R339) -/

/-- The bank of a slot is gated, fenced by a running gate command, or re-powering. -/
def State.bankDark (s : State) (b : Nat) : Bool :=
  s.obk.gated.getLsbD b || s.obk.fenced.getLsbD b || s.obk.waking.getLsbD b

def State.slotDark (s : State) (k : OKey) : Bool :=
  s.hasSlot k && s.bankDark (s.place k).1

/-- Work for a gated bank starts re-powering it. -/
def wakeBank (b : Nat) (s : State) : State :=
  if s.obk.gated.getLsbD b then s.modObk fun o => { o with waking := setBit o.waking b } else s

def wakeSlot (k : OKey) (s : State) : State :=
  if s.hasSlot k then wakeBank (s.place k).1 s else s

/-! ### Objects whose bank operations wait -/

/-- The object is in the expiring set or its bank is held for the due queue (R99, R100). -/
def State.expiringHeld (s : State) (k : OKey) : Bool :=
  (s.opr.expiring.any fun d => decide (d.key = k)) ||
    s.opr.dueq.any fun d => decide (lbankOf d.key.index = lbankOf k.index)

/-- TIME has passed a deadline or lease end of the object whose expiry is still to come (R99). -/
def State.pastDue (s : State) (k : OKey) : Bool :=
  (s.tdu.leases.any fun l => decide (l.key = k ∧ l.due < s.now)) ||
    s.tdu.deadlines.any fun d =>
      decide (d.key = k ∧ d.due < s.now) &&
        match s.obj k with
        | some ⟨_, .barrier b⟩ => decide (b.epoch = d.epoch)
        | _ => false

def State.tieHeld (s : State) (k : OKey) : Bool := s.expiringHeld k || s.pastDue k

/-- The operation needs an entry that is spilled: an early accumulator, a reservation record, or the record of the pad at `HEAD` (R110, R145). -/
def State.needsFetch (s : State) (op : Op) (k : OKey) : Bool :=
  match op with
  | .arrive | .arriveReduce | .arriveWait => s.wmc.early.any fun e => e.spilled && decide (e.key = k)
  | .commit | .release | .reserve | .rsvCancel =>
    match s.descOf k with
    | some (_, d) => d.recs.any (·.spilled)
    | none => false
  | .waitAvail =>
    match s.descOf k with
    | some (_, d) => d.atPad && d.recs.any fun r => r.spilled && r.void && decide (r.start = d.padPtr)
    | none => false
  | _ => false

/-- A spilled entry holds the object: one that is being fetched, or a waiter whose wake waits for it (R110, R253). -/
def State.fetchHeld (s : State) (k : OKey) : Bool :=
  s.wmc.fetching.any (· = k) || s.wmc.spillWakes.any fun x => decide (x.w.key = k)

/-- A spilled entry holds the object for an operation. -/
def State.spillHeld (s : State) (op : Op) (k : OKey) : Bool := s.fetchHeld k || s.needsFetch op k

/-- WMC is asked for the entries of an object that are spilled. -/
def fetchFor (op : Op) (k : OKey) (s : State) : State :=
  if s.needsFetch op k && !s.wmc.fetching.any (· = k) then
    s.modWmc fun m => { m with fetching := m.fetching ++ [k] }
  else s

/-- What waits for a spilled accumulator asks for it, and a dark bank starts re-powering (R110, R339). -/
def askFor (k : OKey) (s : State) : State := fetchFor .arrive k (wakeSlot k s)

/-- OPR holds new operations on what moves: the logical bank that a migration switches; or, in a distribution, it, the banks distributed earlier, and the contexts relocated (R101, R341, R343). -/
def State.moveHeld (s : State) (k : OKey) : Bool :=
  match s.obk.retire with
  | some r =>
    r.holding && (decide (lbankOf k.index = r.lbank.toNat) ||
      (r.dst.isNone && (s.isDistributed (lbankOf k.index) ||
        r.moves.any fun m => decide (m.1 = ctxKey k.part k.ctx))))
  | none => false

/-- An operation of the object has passed bank ingress and waits for a spilled entry (R99, R110). -/
def State.stamped (s : State) (k : OKey) : Bool :=
  s.opr.ops.any fun e => e.stamp.isSome && decide ((⟨e.part, e.req.ctx, e.req.index⟩ : OKey) = k)

/-- The root of the object's stitch tree holds its release (R232). -/
def State.stitchHeld (s : State) (k : OKey) : Bool :=
  match s.treeOf k with
  | some (_, t) => t.holdStitch
  | none => false

/-- R67: not yet performed. A remote operation is performed when its CPL has come, also when a GRANT came first. -/
def OpSt.open_ : OpSt → Bool
  | .queued | .bank | .remote | .granted | .heldQueue | .mgmt | .fence => true
  | .replying => false

/-- An operation of the object that OPR accepted is not performed yet. -/
def State.opWaits (s : State) (k : OKey) : Bool :=
  s.opr.ops.any fun e =>
    decide (e.xlat = some .ok ∧ (⟨e.part, e.req.ctx, e.req.index⟩ : OKey) = k) && e.st.open_

/-- The expiry was posted before its context's eviction began (R245 step 2). -/
def State.postedFirst (s : State) (d : Due) : Bool :=
  match s.tackRec d.key.part d.key.ctx with
  | some r => decide (d.drain ≤ r.evictTime.toNat)
  | none => false

/-- The expiry joins the deferral log (R246); in `EVICTING` its bank performs one that was posted before, or that an accepted operation of the object waits for (R99, R245, log 71). -/
def State.expiryLogged (s : State) (d : Due) : Bool :=
  match (s.ctx d.key.part d.key.ctx).state with
  | .evicted | .restoring => true
  | .evicting => !(s.postedFirst d || s.opWaits d.key)
  | .free | .resident => false

/-- The drain has ended and the expiry can be performed: by its bank after every operation stamped before it, and not while its bank moves or is dark, a spilled entry is missing or HOLD_STITCH is set (R99, R101, R110, R232, R253, R339); nothing holds one that joins a log. -/
def State.canExpire (s : State) (lease : Bool) (d : Due) : Bool :=
  decide (d.lease = lease ∧ d.drain ≤ s.now) &&
    (s.expiryLogged d ||
      (!s.slotDark d.key && !s.moveHeld d.key && !s.stamped d.key && !s.fetchHeld d.key &&
        (lease || !(s.needsFetch .arrive d.key || s.stitchHeld d.key))))

/-- A deadline expiry, now or deferred with its due TIME. -/
def expireDeadlineAt (d : Due) (s : State) : State :=
  if s.expiryLogged d then
    let s := s.modTdu fun t =>
      { t with deadlines := t.deadlines.filter fun x =>
          decide (¬(x.key = d.key ∧ x.epoch.toNat = d.seq)) }
    deferWork 1 d.key 0 0 (BitVec.ofNat 64 d.seq) (BitVec.ofNat 64 d.due) s
  else expireDeadline d.key d.seq s

/-- A lease expiry, now or deferred. -/
def expireLeaseAt (d : Due) (s : State) : State :=
  let logged := s.expiryLogged d
  let s := s.modTdu fun t =>
    { t with leases := t.leases.filter fun x => decide (¬(x.key = d.key ∧ x.seq.toNat = d.seq)) }
  if logged then
    deferWork 2 d.key 0 0 (BitVec.ofNat 64 d.seq) (BitVec.ofNat 64 d.due) s
  else expireLease d.key d.seq s

/-- The limit has passed: a limit runs out when TIME first exceeds it. -/
def passed (limit : Option Nat) (now : Nat) : Bool :=
  match limit with
  | some t => decide (t < now)
  | none => false

/-- A waiter's limit has passed and its bank can serve it (R58, R253, R339). -/
def State.canTimeOut (s : State) (w : Waiter) : Bool :=
  passed w.limit s.now && !s.moveHeld w.key && !s.slotDark w.key && !s.fetchHeld w.key

/-! ### Work of the other units (R77, R187, R246) -/

/-- A posted entry whose context can be reached: it is not out, or the entry was posted before its eviction began (R187, R245, R246). -/
def State.heldDue (s : State) (h : Held) : Bool :=
  h.posted && (!s.ctxOut h.target.part h.target.ctx ||
    (h.preEvict && decide ((s.ctx h.target.part h.target.ctx).state = .evicting)))

/-- A held commit needs the reservation records of its ring (R145). -/
def State.heldFetch (s : State) (h : Held) : Bool := h.commit && s.needsFetch .commit h.target

/-- A posted decrement whose object's context is in the banks. -/
def State.decDue (s : State) (d : Dec) : Bool :=
  match (s.ctx d.key.part d.key.ctx).state with
  | .evicted | .restoring => false
  | _ => true

/-- The waiters of an agent at this home, under the NodeID with which they parked (log 69). -/
def State.localWaits (s : State) (a : AgentId) : List Waiter :=
  s.wmc.waiters.filter fun w => decide (w.node = s.fab.nodeId ∧ w.agent = a) && !w.perNode

/-- Wakes of the agent that wait for a spilled entry. -/
def State.spilledWakes (s : State) (a : AgentId) : List SpillWake :=
  s.wmc.spillWakes.filter fun x => decide (x.w.node = s.fab.nodeId ∧ x.w.agent = a) && !x.w.perNode

/-- The object of this home on which a grant is undone. -/
def Grant.here : Grant → Option OKey
  | .lock k none _ | .take k none _ | .reserve k none _ => some k
  | _ => none

/-- The ring of this home on which a reservation is cancelled. -/
def Grant.ring : Grant → Option OKey
  | .reserve k none _ => some k
  | _ => none

/-- The grants that a reset of an agent undoes (R78). -/
def State.resetGrants (s : State) (a : AgentId) (r : Arst) : List Grant :=
  r.dropped ++ (s.spilledWakes a).filterMap (·.grant)

/-- The objects of this home that steps 3 to 5 of R77 change. -/
def State.resetKeys (s : State) (a : AgentId) (r : Arst) : List OKey :=
  (s.localWaits a).map (·.key) ++
    (s.olu.holdings.filter fun h => decide (h.agent = a ∧ h.node = s.fab.nodeId)).map (·.key) ++
    (s.resetGrants a r).filterMap Grant.here

/-- A cancellation of the reset needs reservation records that are spilled (R145). -/
def State.resetFetch (s : State) (a : AgentId) (r : Arst) : Bool :=
  ((s.resetGrants a r).filterMap Grant.ring).any (s.needsFetch .rsvCancel)

/-- The agent's operations that OPR accepted and that are not performed. -/
def State.agentBusy (s : State) (a : AgentId) : Bool :=
  s.opr.ops.any fun e => decide (e.agent = a) && e.txid.isNone && e.st.open_

/-- The running resets whose bank work is posted: step 2 of R77 has ended. -/
def State.postedResets (s : State) : List (AgentId × Arst) :=
  (s.aps.flatMap fun x => x.2.arst.map fun r => (agentId (BitVec.ofNat 4 x.1) r.agent, r)).filter fun x =>
    x.2.running && !x.2.idle && !s.agentBusy x.1

/-! ### The classes of the internal queue (R18) -/

/-- Nothing of a class is served on the object: an expiry of it is pending, its bank moves or is dark, or a spilled entry holds it (R99 to R101, R110, R253, R339). -/
def State.bankHeld (s : State) (k : OKey) : Bool :=
  s.tieHeld k || s.moveHeld k || s.slotDark k || s.fetchHeld k

/-- Work of a class, 1 to 4, is posted to a logical bank and could be served; `held` says which objects it does not reach. -/
def State.postedOf (s : State) (cls : Nat) (held : OKey → Bool) (b : Nat) : Bool :=
  let on := fun (k : OKey) => decide (lbankOf k.index = b)
  match cls with
  | 1 =>
    (s.opr.expiring.any fun d =>
      on d.key && !s.expiryLogged d && (s.canExpire true d || s.canExpire false d)) ||
      s.wmc.waiters.any fun w => on w.key && s.inBanks w.key.part w.key.ctx && s.canTimeOut w
  | 2 =>
    (s.lcu.decs.any fun d => on d.key && s.decDue d && !held d.key) ||
      s.lcu.held.any fun h => on h.target && s.heldDue h && !held h.target && !s.heldFetch h
  | 3 =>
    s.postedResets.any fun x =>
      (s.resetKeys x.1 x.2).any (fun k => on k && s.inBanks k.part k.ctx) &&
        !(s.resetKeys x.1 x.2).any held && !s.resetFetch x.1 x.2
  | 4 =>
    s.fab.inq.any fun w =>
      on (s.tree w.tree).node && !held (s.tree w.tree).node &&
        !s.needsFetch .arrive (s.tree w.tree).node
  | _ => false

/-- Work of class `n` on the object waits: it is not served, or work of a class before `n` is posted to its bank. -/
def State.heldAt (s : State) : Nat → OKey → Bool
  | 0, k => s.bankHeld k
  | n + 1, k => s.heldAt n k || s.postedOf n (s.heldAt n) (lbankOf k.index)

/-- Work of a class before `n` is posted to some bank. -/
def State.anyPosted (s : State) (n : Nat) : Bool :=
  (List.range n).any fun c => (List.range 64).any fun b => s.postedOf c (s.heldAt c) b

end Sys2Proof.Machine
end

