-- ==== Sys2Proof/Machine/Landing.lean ====
section
/-! DEFINITION. Landing counters: arming (R180, R181), notices (R178, R179), decrements (R183, R184), held signals and held commits (R185 to R187, R160). -/

namespace Sys2Proof.Machine

/-! ### Arming -/

def State.armOf (s : State) (part : PartId) (tag : BitVec 16) : Option Arm :=
  s.lcu.index.find? fun a => decide (a.part = part ∧ a.tag = tag)

/-- `SEC_OPEN` of a partition rises or falls (R180, R183). -/
def secUp (p : PartId) (s : State) : State := s.modPart p fun x => { x with secCount := x.secCount + 1 }

/-- The edge on which it reaches 0 is the one that a waiting `SECTION_BEGIN` needs (R194). -/
def secDown (p : PartId) (s : State) : State :=
  s.modPart p fun x =>
    { x with secCount := x.secCount - 1, fenceLatch := x.fenceLatch || decide (x.secCount = 1) }

/-- R180. -/
def landExpectOp (e : OpEntry) (k : OKey) (l : Landing) (s : State) : State :=
  let c : BitVec 48 := e.req.payload.setWidth 48
  if c = 0 ∨ l.underflow ∨ l.armed ∨ (s.armOf k.part l.xferTag).isSome then
    finish e .rangeError 0 none s
  else if Config.armingEntries ≤ s.lcu.index.length then
    finish e .rangeError 0 none
      (report .indexFull .lcu (some k.part) 0 0 (s.keyRef k) 0 s)
  else
    let s := s.setBody k (.landing { l with remain := c, armed := true })
    let s := s.modLcu fun x => { x with index := x.index ++ [⟨k.part, l.xferTag, k, 0⟩] }
    let s := if l.sectn then secUp k.part s else s
    finish e .ok 0 none (count k.part 15 s)

/-! ### Held entries -/

/-- R185: the target of a packed ObjectRef, under the partition of the `LANDING` object. -/
def targetKey (k : OKey) (ref : BitVec 44) : OKey := ⟨k.part, refCtx ref, refIndex ref⟩

/-- The operation is accepted: LCU takes it over, and its op table entry is free before its reply leaves (R15, R67). -/
def handToLcu (e : OpEntry) (s : State) : State :=
  match e.txid with
  | none => answerFreed e 0 0 (traceOp e 0 0 s)
  | some _ => finish e .ok 0 none s

/-- R185. -/
def signalAfterOp (e : OpEntry) (k : OKey) (l : Landing) (s : State) : State :=
  let ref : BitVec 44 := e.req.payload.setWidth 44
  if refNode ref ≠ s.fab.nodeId ∨ l.underflow ∨ l.heldCount = 4096 then
    finish e .rangeError 0 none s
  else
    let t := targetKey k ref
    let s :=
      if l.armed then s.setBody k (.landing { l with heldCount := l.heldCount + 1 }) else s
    let s := count k.part 15 (addHeld ⟨k, t, e.agent, e.node, false, 0, s.accNo k, !l.armed, false⟩ s)
    handToLcu e s

/-- The `LANDING` object's count has reached zero: its entries are on their way (R183, R187). -/
def postHeld (k : OKey) (s : State) : State :=
  let s := s.modLcu fun c =>
    { c with held := c.held.map fun h => if h.land = k then { h with posted := true } else h }
  let s :=
    match s.obj k with
    | some ⟨_, .landing l⟩ => s.setBody k (.landing { l with heldCount := 0 })
    | _ => s
  syncHdr k s

/-- An entry leaves the queue. -/
def dropHeld (h : Held) (s : State) : State :=
  syncHdr h.land (syncHdr h.target (s.modLcu fun c => { c with held := dropFirst (· = h) c.held }))

/-- R187: a failed held entry is counted and reported. -/
def heldFailed (h : Held) (st : Status) (s : State) : State :=
  let op := if h.commit then Op.code .commit else Op.code .signalAfterLanded
  let s := countStatus h.target.part st.code (count h.target.part 56 s)
  report .heldFailed .lcu (some h.target.part) h.agent h.node (s.keyRef h.target) (op ++ st.code) s

/-- R27 for an object named inside the engine. -/
def checkKey (k : OKey) (s : State) : Status :=
  match s.nameCheck k with
  | .ok =>
    match s.obj k with
    | none => .noObject
    | some o => if o.hdr.part = k.part then .ok else .accessDenied
  | st => st

/-- R187: a held signal at its target. -/
def performHeldSignal (h : Held) (s : State) : State :=
  let st := checkKey h.target s
  if st ≠ .ok then heldFailed h st s
  else
    match s.obj h.target with
    | some ⟨_, .event v⟩ =>
      let s := setEvent h.target v h.agent h.node (h.agent, h.node, 3) s.time64 s
      traceInner 5 h.target 0x61 h.agent h.node
        (count h.target.part 17 (count h.target.part 5 s))
    | some ⟨_, .semaphore v⟩ =>
      if giveOk v 1 then
        traceInner 5 h.target 0x61 h.agent h.node
          (giveUnits h.target v 1 (h.agent, h.node, 3)
            (count h.target.part 17 (count h.target.part 7 s)))
      else heldFailed h .rangeError s
    | _ => heldFailed h .typeMismatch s

/-- R160, R187: a held commit at its ring; one whose reservation was cancelled fails. -/
def performHeldCommit (h : Held) (s : State) : State :=
  let st := checkKey h.target s
  if st ≠ .ok then closeAt h.target (heldFailed h st s)
  else
    match s.descOf h.target with
    | some (i, d) =>
      match d.commitRec h.handle with
      | some r =>
        traceInner 5 h.target 0x51 h.agent h.node
          (commitRsv h.target i r (h.agent, h.node, 3) (count h.target.part 17 s))
      | none => closeAt h.target (heldFailed h .rangeError s)
    | none => heldFailed h .typeMismatch s

/-- Place of a partition in a round robin: strict ones by number, the others as one (R260). -/
def State.partPlace (s : State) (p : PartId) : Nat := if s.isStrict p then p.toNat else 64

/-- The partition in whose turn LCU posts an entry. -/
def State.postKey (s : State) (h : Held) : Nat := s.partPlace h.target.part

/-- Entries of a kind that LCU can post now, in acceptance order. -/
def State.heldReady (s : State) (commit : Bool) : List Held :=
  s.lcu.held.filter fun h => decide (h.commit = commit) && s.heldDue h && !s.heldAt 2 h.target && !s.heldFetch h

/-- The next entry of a kind: by partition in turn, in acceptance order within one (R187, R260). -/
def State.nextHeld (s : State) (commit : Bool) : Option Held :=
  ((List.range 65).map fun i => (s.lcu.postRr + i) % 65).findSome? fun p =>
    (s.heldReady commit).find? fun h => decide (s.postKey h = p)

/-- Dark banks of waiting entries of a kind start re-powering, and spilled reservation records are asked for (R145, R339). -/
def wakeHeld (commit : Bool) (s : State) : State :=
  (s.lcu.held.filter fun h => decide (h.commit = commit) && s.heldDue h).foldl
    (fun s h => fetchFor (if commit then .commit else .signalAfterLanded) h.target (wakeSlot h.target s)) s

/-! ### Notices and decrements -/

def lnReport (c : Report) (ch : LnChan) (part : PartId) (tag : BitVec 16) (s : State) : State :=
  let known := decide ((s.part part).state ≠ .free)
  let s := if known then count part 55 s else s
  report c .lcu (some part) (ch.setWidth 12) 0 0 tag s

/-- R184: a drop for a frozen object. -/
def lnFrozen (k : OKey) (ch : LnChan) (tag : BitVec 16) (s : State) : State :=
  lnReport .underflow ch k.part tag s

/-- R179: the checks of one notice, and the decrement it posts; a notice for an evicted context joins the deferred sum (R246). A disarmed object has no index entry (R183), so its tag is unknown even when it underflowed (R184, log 72). -/
def landNotice (ch : LnChan) (w : DWord) (s : State) : State :=
  let part : PartId := w.extractLsb' 58 6
  let tag : BitVec 16 := w.extractLsb' 42 16
  let cnt : BitVec 32 := w.setWidth 32
  let s := gcount 36 s
  if cnt = 0 ∨ w.extractLsb' 32 9 ≠ 0 then lnReport .lnFormat ch part tag s
  else
    match s.armOf part tag with
    | none => lnReport .lnUnknownTag ch part tag s
    | some a =>
      match s.objAny a.key with
      | some ⟨_, .landing l⟩ =>
        if l.countsWrites ≠ w.getLsbD 41 then lnReport .lnUnit ch part tag s
        else if l.underflow then lnFrozen a.key ch tag s
        else if s.ctxOut a.key.part a.key.ctx then
          s.modLcu fun c =>
            { c with index := mapFirst (fun x => decide (x.part = part ∧ x.tag = tag))
                                (fun x => { x with deferred := x.deferred + cnt.toNat }) c.index }
        else s.modLcu fun c => { c with decs := c.decs ++ [⟨a.key, cnt, ch, tag⟩] }
      | _ => lnReport .lnUnknownTag ch part tag s

/-- The index entry of an object goes. -/
def delArm (k : OKey) (s : State) : State :=
  s.modLcu fun c => { c with index := c.index.filter fun a => decide (a.key ≠ k) }

/-- R183, R184: a decrement of `c` at the home bank. -/
def decrement (k : OKey) (c : Nat) (ch : LnChan) (tag : BitVec 16) (s : State) : State :=
  match s.obj k with
  | some ⟨_, .landing l⟩ =>
    if l.underflow then lnFrozen k ch tag s
    else if c ≤ l.remain.toNat then
      let s := count k.part 16 s
      let r := l.remain - BitVec.ofNat 48 c
      if r = 0 then
        let s := s.setBody k (.landing { l with remain := 0, armed := false })
        let s := delArm k s
        postHeld k (if l.sectn then secDown k.part s else s)
      else s.setBody k (.landing { l with remain := r })
    else
      -- a frozen object counts in `SEC_OPEN`, also when it had been disarmed (R184)
      let s := if l.sectn ∧ !l.armed then secUp k.part s else s
      report .underflow .lcu (some k.part) (ch.setWidth 12) 0 (s.keyRef k) 0
        (s.setBody k (.landing { l with underflow := true }))
  | _ => s

/-- The first posted decrement whose object can be reached. -/
def State.nextDec (s : State) : Option Dec :=
  s.lcu.decs.find? fun d => s.decDue d && !s.heldAt 2 d.key

/-- Dark banks of waiting decrements start re-powering (R339). -/
def wakeDecs (s : State) : State :=
  (s.lcu.decs.filter s.decDue).foldl (fun s d => wakeSlot d.key s) s

end Sys2Proof.Machine
end

