-- ==== Sys2Proof/Machine/Packets.lean ====
section
/-! DEFINITION. Command packets: fields (R263, R278), the opcode table (R279), formats and refusals (R265), replies (R264, R269, R61, R276), owners (R284) and what a packet meets on arrival (R267, R270, R275, R277, R284, R334). -/

namespace Sys2Proof.Machine

/-! ### Packet fields -/

def Cmd.word (c : Cmd) (n : Nat) : Word := (c.words[n]?).getD 0
def Cmd.field (c : Cmd) (n lo w : Nat) : BitVec w := (c.word n).extractLsb' lo w
def Cmd.opcode (c : Cmd) : BitVec 16 := c.field 0 16 16
def Cmd.part (c : Cmd) : PartId := c.field 0 0 6
/-- `CTX` and `INDEX` of R278; `TREE_STITCH` places them one word later. -/
def Cmd.ctx (c : Cmd) : CtxId := if c.opcode = 0x0303 then c.field 3 0 8 else c.field 2 0 8
def Cmd.index (c : Cmd) : Index := if c.opcode = 0x0303 then c.field 4 0 20 else c.field 3 0 20
def Cmd.key (c : Cmd) : OKey := ⟨c.part, c.ctx, c.index⟩
def Cmd.bit (c : Cmd) (n i : Nat) : Bool := (c.word n).getLsbD i
/-- ADDR(n) of R278. -/
def Cmd.addr (c : Cmd) (n : Nat) : Nat := (c.word n).toNat + 2 ^ 32 * (c.field (n + 1) 0 16 : BitVec 16).toNat
/-- A value of eight words, lowest first. -/
def wordsVal (l : List Word) : BitVec 256 := BitVec.ofNat 256 (l.foldr (fun w n => w.toNat + 2 ^ 32 * n) 0)
def Cmd.val256 (c : Cmd) (n : Nat) : BitVec 256 := wordsVal ((List.range 8).map fun i => c.word (n + i))
/-- The words of a value, lowest first. -/
def toWords (n : Nat) {w : Nat} (v : BitVec w) : List Word :=
  (List.range n).map fun i => (v >>> (32 * i)).setWidth 32

/-! ### The opcode table (R279) -/

inductive Scope where
  | obj | ctx | sect | part | inst | none
  deriving DecidableEq, Repr

/-- A row of R279: code, SUPERVISOR only, scope, `OPFLAGS` with a meaning, bits with a meaning in words 2, 3 and on. -/
structure MRow where
  code : Nat
  sup : Bool
  scope : Scope
  flags : Byte
  params : List Word
  deriving DecidableEq, Repr

def mrowsA : List MRow :=
  [⟨0x0000, false, .none, 0, List.replicate 14 0xFFFFFFFF⟩,
   ⟨0x0101, false, .ctx, 0, [0x1FF, 0x7FFF]⟩,
   ⟨0x0102, false, .ctx, 0, [0xFF]⟩,
   ⟨0x0103, false, .ctx, 0, [0xFF]⟩,
   ⟨0x0104, false, .ctx, 0, [0xFF]⟩,
   ⟨0x0105, false, .none, 0, [0xFF]⟩,
   ⟨0x0110, false, .obj, 0, [0xFFF, 0xFFFFF] ++ List.replicate 8 0xFFFFFFFF⟩,
   ⟨0x0111, false, .obj, 0, [0xFF, 0xFFFFF]⟩,
   ⟨0x0112, false, .obj, 1, [0xFF, 0xFFFFF]⟩,
   ⟨0x0113, false, .obj, 0, [0xFF, 0xFFFFF, 0xFFFFFFFF, 0xFFFF]⟩,
   ⟨0x0114, true, .obj, 0, [0xFF, 0xFFFFF]⟩,
   ⟨0x0115, false, .obj, 0, [0xFF, 0xFFFFF]⟩,
   ⟨0x0116, false, .obj, 0, [0xFF, 0xFFFFF, 0x7FFFF, 0xFFFFF]⟩,
   ⟨0x0117, false, .obj, 0, [0xFF, 0xFFFFF]⟩]

def mrowsB : List MRow :=
  [⟨0x0201, true, .part, 0, [0x3, 0xFFFF, 0x7FFF, 0x3FFFF, 0x1FFF, 0x7F, 0xFF, 0xFFFF]⟩,
   ⟨0x0202, true, .part, 0, []⟩,
   ⟨0x0203, true, .part, 0, [0xFFFF]⟩,
   ⟨0x0204, true, .part, 0, []⟩,
   ⟨0x0210, false, .part, 0, [0xFFFFFFFF, 0xFFFF, 0xFFFFFFFF]⟩,
   ⟨0x0211, false, .part, 0, [0xFFFF, 0xFFFFFFFF, 0xFFFF, 0xFFFFFFFF]⟩,
   ⟨0x0212, false, .part, 0, [0x1]⟩,
   ⟨0x0220, false, .sect, 0, [0xFFFFFFFF, 0xFFFF]⟩,
   ⟨0x0221, false, .sect, 0, [0xFFFFFFFF]⟩,
   ⟨0x0301, true, .inst, 0, [0xFFFFFFFF, 0xFFFF, 0xFFFFFFFF]⟩,
   ⟨0x0302, true, .inst, 0, [0xFFFF, 0xFFFFFFFF, 0xFFFF, 0xFFFFFFFF, 0xFFFFFFFF]⟩,
   ⟨0x0303, false, .obj, 0, [0x3FFF, 0xFF, 0xFFFFF, 0x7FFFF, 0xFFFFFFFF, 0xFFFF00FF] ++
      List.replicate 4 0xFFFFFFFF⟩,
   ⟨0x0310, true, .inst, 0, []⟩]

def mrowsC : List MRow :=
  [⟨0x0401, true, .inst, 0, [0xFFFFFFFF, 0xFFFF, 0xFFFFFFFF]⟩,
   ⟨0x0402, true, .inst, 0, []⟩,
   ⟨0x0403, true, .inst, 0, [0xFFFFFFFF, 0xFFFF, 0xFFFFFFFF, 0xFFFFFFFF, 0xFFFFFFFF]⟩,
   ⟨0x0404, false, .obj, 0, [0xFF, 0xFFFFF, 0xFFFF, 0xFFFFFFFF, 0x1]⟩,
   ⟨0x0405, false, .obj, 0, [0xFF, 0xFFFFF]⟩,
   ⟨0x0406, true, .inst, 0, [0x1, 0xFFFFFFFF, 0xFFFFFFFF, 0x7FF]⟩,
   ⟨0x0410, true, .inst, 0, [0x3F, 0xFFFFFFFF]⟩,
   ⟨0x0411, true, .inst, 0, [0x1F]⟩,
   ⟨0x0412, true, .inst, 0, [0x3]⟩,
   ⟨0x0501, true, .inst, 0, [0xFFFFFFFF, 0xFFFF, 0xFFFFFFFF]⟩,
   ⟨0x0502, true, .inst, 0, [0x7]⟩,
   ⟨0x0503, false, .none, 0, []⟩,
   ⟨0x0510, true, .inst, 0, [0x7F]⟩,
   ⟨0x0511, true, .inst, 0, [0x17F]⟩,
   ⟨0x0520, true, .inst, 0, [0x7, 0xFFFFFFFF, 0xFFFF, 0xFFFFFFFF]⟩]

def mrows : List MRow := mrowsA ++ mrowsB ++ mrowsC

def mrowOf (code : BitVec 16) : Option MRow := mrows.find? fun r => decide (r.code = code.toNat)

def Cmd.scope (c : Cmd) : Scope :=
  match mrowOf c.opcode with
  | some r => r.scope
  | none => .none

/-! ### Refusals (R265) -/

/-- `DETAIL` naming a field by word and lowest bit. -/
def det (word bit : Nat) : Word := BitVec.ofNat 32 (word + 256 * bit)

/-- A refusal by the engine's state, naming the field that selects what was refused. -/
def detState (word bit : Nat) : Word := BitVec.ofNat 32 (word + 256 * bit + 65536)

/-- R294: the command acts for its partition. -/
def Cmd.ofPart (c : Cmd) : Bool :=
  match c.scope with
  | .obj | .ctx | .sect | .part => true
  | .inst => false
  | .none => decide (c.opcode = 0x0105)

/-- R265: the field that selects what a command acts on. -/
def Scope.field : Scope → Nat
  | .obj => 3
  | .ctx | .sect => 2
  | .part | .inst | .none => 0

/-- The refusal by state of a command of a scope; `TREE_STITCH` has its INDEX one word later. -/
def Cmd.byState (c : Cmd) : Word :=
  match c.scope with
  | .inst | .none => BitVec.ofNat 32 65536
  | sc => detState (if c.opcode = 0x0303 then 4 else sc.field) 0

/-- Position of the lowest set bit. -/
def lowBit (v : Word) : Nat := (lowest v.getLsbD 32).getD 0

/-- The lowest of a list of offending fields, each a word and a bit. -/
def firstOffence (l : List (Nat × Nat)) : Option (Nat × Nat) :=
  l.foldl (fun m x =>
    match m with
    | none => some x
    | some y => if x.1 < y.1 ∨ (x.1 = y.1 ∧ x.2 < y.2) then some x else some y) none

/-- One word's reserved bits. -/
def reservedIn (n : Nat) (w mask : Word) : List (Nat × Nat) :=
  if w &&& ~~~mask = 0 then [] else [(n, lowBit (w &&& ~~~mask))]

/-- Reserved fields of a packet, and `TARGET_NODE` without `REMOTE` (R263). A target does not check the latter. -/
def Cmd.reserved (c : Cmd) (r : MRow) : List (Nat × Nat) :=
  reservedIn 0 (c.word 0) 0xFFFFFF3F ++
  reservedIn 1 (c.word 1) (0xFFFF0100 ||| r.flags.setWidth 32) ++
  (match c.src with
    | .remote _ _ => []
    | _ => if !c.bit 1 8 ∧ (c.field 1 16 16 : BitVec 16) ≠ 0 then [(1, 16)] else []) ++
  ((List.range 14).flatMap fun i => reservedIn (i + 2) (c.word (i + 2)) ((r.params[i]?).getD 0))

/-- R278: the address parameter in word `n` is not 64-byte aligned. -/
def Cmd.misaligned (c : Cmd) (n : Nat) : List (Nat × Nat) :=
  if c.addr n % 64 = 0 then [] else [(n, 0)]

/-- Requester ID of the host memory that the packet names (R271). -/
def State.cmdReqid (s : State) (c : Cmd) : ReqId :=
  if c.sup then s.slu.engineReqid else (s.part c.part).reqid

/-! ### Replies -/

/-- R415: the partition in which a command counts. -/
def Cmd.countPart (c : Cmd) : Option PartId :=
  match c.src with
  | .win (some p) _ => some p
  | .agent _ p => some p
  | .win none _ | .remote _ _ => if c.ofPart then some c.part else none

/-- R264: 16 words; results only with `OK`, `PARTIAL` and the statuses that give their own. -/
def replyWords (c : Cmd) (code : Byte) (detail : Word) (res : List Word) : List Word :=
  let w0 : Word := c.opcode ++ (c.field 0 8 8 : BitVec 8) ++ code
  ([w0, detail] ++ res ++ List.replicate 14 0).take 16

/-- A reply enters a window's queue (R269). -/
def pushReply (w : Win) (slot : Nat) (ws : List Word) (s : State) : State :=
  let s := s.modWin w fun x => { x with replies := x.replies ++ [(slot, ws)] }
  match w with
  | some p => raisePart p 0 s
  | none => raiseGlobal 0 s

/-- R276: a packet as four `MGMT` flits. -/
def sendPacket (dst : NodeId) (dir : Bool) (rtag : BitVec 5) (ws : List Word) (s : State) : State :=
  (List.range 4).foldl (fun s i =>
    let d : BitVec 128 := ((ws[4 * i + 3]?).getD 0) ++ ((ws[4 * i + 2]?).getD 0) ++
      ((ws[4 * i + 1]?).getD 0) ++ ((ws[4 * i]?).getD 0)
    fabSend 8 dst (0x30#8 ++ (BitVec.ofNat 2 i ++ b1 dir ++ rtag ++ d)) s) s

/-- R61, R275: the reply packet at offset 64 of the buffer, then the reply to the agent. -/
def replyAgent (op : Nat) (ws : List Word) (s : State) : State :=
  match s.opEntry op with
  | none => s
  | some e =>
    let a := e.req.payload.toNat + 64
    let rq := (s.part e.part).reqid
    let s :=
      if memErr s rq a 64 then
        report .mgmtReplyFail .msq (some e.part) e.agent s.fab.nodeId 0 0 (mmRequest true rq a 64 s)
      else mmWrite rq a (ws.flatMap (bytesOf 4)) s
    let pay : DWord := 0#24 ++ ((ws[0]?).getD 0).extractLsb' 0 8 ++ (ws[1]?).getD 0
    answer e 0 pay none s

/-- The reply goes back the way the packet came. -/
def deliver (src : CmdSrc) (ws : List Word) (s : State) : State :=
  match src with
  | .win w slot => pushReply w slot ws s
  | .agent op _ => replyAgent op ws s
  | .remote node rtag => sendPacket node true rtag ws s

/-- The agent of a `MGMT` operation and the tag it had at the bind stage; zero for any other command. -/
def State.cmdAgent (s : State) (c : Cmd) : AgentId × Word :=
  match c.src with
  | .agent op _ => ((s.opEntry op).map fun e => (e.agent, e.tag)).getD (0, 0)
  | _ => (0, 0)

/-- The record of a completed command (R352 to R354). -/
def traceCmd (c : Cmd) (code : Byte) (detail : Word) (s : State) : State :=
  let a := s.cmdAgent c
  traceRec 10 c.countPart
    (traceWord s.time64 (if c.scope = .obj then s.keyRef c.key else 0) (c.opcode.setWidth 8) code
      a.1 s.fab.nodeId 0 0 10 (c.countPart.getD 0) 0 (detail ++ a.2)) s

def dropCmd (id : Nat) (s : State) : State :=
  s.modMsq fun m => { m with cmds := dropFirst (fun c => decide (c.id = id)) m.cmds }

/-- Counter 21 of a partition (R415). -/
def countCmd (part : Option PartId) (s : State) : State :=
  match part with
  | some p => count p 21 s
  | none => s

/-- A command completes: counted, traced and answered. -/
def completeCode (c : Cmd) (code : Byte) (detail : Word) (res : List Word) (s : State) : State :=
  let s := countCmd c.countPart s
  let s := dropCmd c.id (traceCmd c code detail s)
  deliver c.src (replyWords c code detail res) s

def complete (c : Cmd) (st : Status) (detail : Word) (res : List Word) (s : State) : State :=
  completeCode c st.code detail res s

/-- Completion with `OK` and results. -/
def ok (c : Cmd) (res : List Word) (s : State) : State := complete c .ok 0 res s

/-- A refusal that names a field. -/
def refuse (c : Cmd) (st : Status) (detail : Word) (s : State) : State := complete c st detail [] s

def setPhase (id : Nat) (p : Phase) (s : State) : State :=
  s.modMsq fun m =>
    { m with cmds := mapFirst (fun c => decide (c.id = id)) (fun c => { c with phase := p }) m.cmds }

def State.cmd (s : State) (id : Nat) : Option Cmd := s.msq.cmds.find? fun c => decide (c.id = id)

/-! ### Sequencers (R284) -/

def State.seqRunning (s : State) (q : Nat) : Bool := decide ((s.seq (BitVec.ofNat 2 q)).code = 1)
def State.anyRunning (s : State) : Bool := (List.range 4).any s.seqRunning
def State.lowestRunning (s : State) : Option Nat := lowest s.seqRunning 4

/-- The owner of a partition. -/
def State.owner (s : State) (p : PartId) : Option Nat :=
  ((List.range 4).map fun i => (p.toNat + i) % 4).find? s.seqRunning

/-- The partitions a sequencer owns. -/
def State.owned (s : State) (q : Nat) : List PartId :=
  ((List.range 64).map fun p => (BitVec.ofNat 6 p : PartId)).filter fun p =>
    decide (s.owner p = some q)

/-- The sequencer that runs a command. -/
def State.runner (s : State) (c : Cmd) : Option Nat :=
  match c.src, c.scope with
  | .remote _ _, _ => s.lowestRunning
  | _, .inst => s.lowestRunning
  | _, _ => s.owner c.part

/-- R284: what SLU runs itself from the supervisor window. -/
def sluRuns (code : BitVec 16) : Bool :=
  decide (code = 0x0000 ∨ code = 0x0501 ∨ code = 0x0502 ∨ code = 0x0503)

def Cmd.fromSup (c : Cmd) : Bool :=
  match c.src with
  | .win none _ => true
  | _ => false

/-! ### Arrival -/

/-- R270, R275: privilege, partition and `REMOTE` of a packet. -/
def Cmd.privOk (c : Cmd) (p : Option PartId) : Bool :=
  (match mrowOf c.opcode with
    | some r => c.sup || !r.sup
    | none => true) &&
  match c.src with
  | .win none _ | .remote _ _ => true
  | .win (some q) _ => decide (c.part = q) && !c.bit 1 8
  | .agent _ _ => decide (some c.part = p) && !c.bit 1 8

/-- The command runs at another instance (R276). -/
def Phase.away : Phase → Bool
  | .remote _ => true
  | _ => false

/-- The command has begun its own wait (R194). -/
def Phase.begun : Phase → Bool
  | .waiting | .fenceAck _ => true
  | .queued | .startup | .remote _ | .halted _ => false

/-- R296: a `PART_DESTROY` of the partition has arrived before `c` and not completed. -/
def State.destroying (s : State) (c : Cmd) : Bool :=
  decide ((s.part c.part).state ≠ .free) &&
    s.msq.cmds.any fun d =>
      decide (d.opcode = 0x0204 ∧ d.part = c.part ∧ d.id < c.id) && !d.phase.away &&
        (match mrowOf d.opcode with
          | some r => (d.reserved r).isEmpty
          | none => false)

/-- R294: the command acts for a `FREE` partition, and does not create it. -/
def State.freeRefuses (s : State) (c : Cmd) : Bool :=
  c.ofPart && decide (c.opcode ≠ 0x0201 ∧ (s.part c.part).state = .free)

/-- The same on arrival: no `PART_CREATE` of the partition is ahead of the packet (log 84). -/
def State.freeNow (s : State) (c : Cmd) : Bool :=
  s.freeRefuses c && !s.msq.cmds.any fun d =>
    decide (d.opcode = 0x0201 ∧ d.part = c.part ∧ d.id < c.id) && !d.phase.away

/-- The command is for another instance (R276). -/
def Cmd.isRemote (c : Cmd) (s : State) : Bool :=
  c.fromSup && c.bit 1 8 && decide ((c.field 1 16 16 : BitVec 16) ≠ s.fab.nodeId ∨ s.fab.nodeValid = false)

/-- A command that this instance does not run is answered, and counted nowhere here (R415). -/
def answerUnrun (c : Cmd) (st : Status) (s : State) : State :=
  deliver c.src (replyWords c st.code 0 []) (dropCmd c.id s)

/-- R276, R277: the packet goes to `TARGET_NODE`. -/
def sendRemoteCmd (c : Cmd) (s : State) : State :=
  let dst : NodeId := c.field 1 16 16
  if !s.fab.nodeValid then answerUnrun c .fabNotReady s
  else if !s.reachable dst then answerUnrun c .fabUnreachable s
  else
    let rtag := match c.src with
      | .win _ slot => BitVec.ofNat 5 slot
      | _ => 0
    setPhase c.id (.remote none) (sendPacket dst false rtag c.words s)

/-- R265: an unknown opcode offends at `OPCODE`, a reserved bit of word 0 below it. -/
def Cmd.unknown (c : Cmd) : Word :=
  match reservedIn 0 (c.word 0) 0xFFFFFF3F with
  | (w, b) :: _ => det w b
  | [] => det 0 16

/-- R328: in `RETIRED` these are denied before any other check. -/
def State.retiredDenies (s : State) (c : Cmd) : Bool :=
  decide (s.slu.lc = .retired ∧ (c.opcode = 0x0501 ∨ c.opcode = 0x0502 ∨ c.opcode = 0x0520))

/-- What a packet meets before it waits for its turn; `missing` is the lowest word not written (R267). -/
def arrive (c : Cmd) (p : Option PartId) (missing : Option Nat) (s : State) : State :=
  let s := s.modMsq fun m => { m with cmds := m.cmds ++ [c], nextId := m.nextId + 1 }
  if s.retiredDenies c then refuse c .lcDenied 0 s
  else if !c.privOk p then refuse c .accessDenied 0 s
  else if s.freeNow c ∧ !c.isRemote s then refuse c .rangeError (detState 0 0) s
  else
    match missing with
    | some n => refuse c .formatError (det n 0) s
    | none =>
      if s.slu.lcPending.isSome then refuse c .aborted 0 s
      else if !s.anyRunning ∧ c.fromSup ∧ !sluRuns c.opcode then
        refuse c .rangeError (detState 0 16) s
      else if c.isRemote s then sendRemoteCmd c s
      else if (mrowOf c.opcode).isNone then refuse c .formatError c.unknown s
      else if s.destroying c ∧ c.ofPart then refuse c .aborted 0 s
      else s

/-- R275: agent packets that wait for the sequencer which owns the partition. -/
def State.agentQueue (s : State) (q : Nat) : Nat :=
  (s.msq.cmds.filter fun c =>
    (match c.src with
      | .agent _ _ => true
      | _ => false) && decide (c.phase = .queued ∧ s.owner c.part = some q)).length

def State.agentRoom (s : State) (p : PartId) : Bool :=
  match s.owner p with
  | some q => decide (s.agentQueue q < 32)
  | none => false

end Sys2Proof.Machine
end

