-- ==== Sys2Proof/Machine/Perform.lean ====
section
/-! DEFINITION. Agent operations: capture (R51, R57, R79), the bind stage (R55, R56, R60, R71, R72), op table entries (R74, R75), holds for a draining partition (R76), the order rules (R66 to R69), the checks of R27 and R242, and performance at the home. -/

namespace Sys2Proof.Machine

/-! ### Encoding checks of the bind stage (R5, R55, R56, R58, R60, R71, R72) -/

/-- Reserved opcodes, reserved AUX and PAYLOAD bits, and fields that must be zero. -/
def fieldsOk (op : Op) (f : Req) : Bool :=
  f.aux &&& ~~~op.auxMask = 0 && f.payload &&& ~~~op.payMask = 0 &&
    (!op.noObject || decide (f.ctx = 0 ∧ f.node = 0 ∧ f.index = 0))

/-- `READ_MISSING` kinds 0b10 and 0b11 are reserved (R102). -/
def kindOk (op : Op) (f : Req) : Bool := !(decide (op = .readMissing) && f.aux.getLsbD 7)

/-- `MGMT` buffers are 64-byte aligned 48-bit addresses (R60). -/
def mgmtAddrOk (op : Op) (f : Req) : Bool :=
  !decide (op = .mgmt) || decide (f.payload.toNat % 64 = 0 ∧ f.payload.toNat < 2 ^ 48)

/-- The `CAS_CONT` of a `CAS`: expected value, and zero in every other field (R57). -/
def contOk (f : Req) : Bool :=
  decide (f.ordered = false ∧ f.invHint = false ∧ f.noReply = false ∧ f.spare = false ∧
    f.ctx = 0 ∧ f.node = 0 ∧ f.index = 0 ∧ f.aux = 0)

/-- The flit breaks no encoding rule. -/
def flitOk (op : Op) (f : Req) (cont : Option Req) : Bool :=
  !f.spare && fieldsOk op f && kindOk op f && mgmtAddrOk op f &&
    (!f.noReply || op.noReplyOk) &&
    (!f.invHint || op.waits) &&
    (!op.waits || f.invHint || decide (reqToken f = 0)) &&
    (match op with
      | .cas => match cont with
        | some c => contOk c
        | none => false
      | .casCont => false
      | _ => !op.fabricOnly)

/-! ### Op table entries (R74, R259) -/

def State.portsEnabled (s : State) : Nat := s.apCount + 1

/-- Entries of the shared pool. -/
def State.sharedCap (s : State) : Nat :=
  Config.opEntries - s.lostEntries .opTable - Config.fabricReserve -
    Config.portReserve * s.portsEnabled

/-- Shared entries that count against a partition's share. -/
def State.sharedUsed (s : State) (p : PartId) : Nat :=
  if s.isStrict p then
    (s.opr.ops.filter fun e => decide (e.pool = .shared ∧ e.part = p)).length
  else (s.opr.ops.filter fun e => decide (e.pool = .shared) && !s.isStrict e.part).length

def State.poolUsed (s : State) (q : Pool) : Nat :=
  (s.opr.ops.filter fun e => decide (e.pool = q)).length

/-- The pool that serves a port's next operation; the port reserve only when the shared part is empty. -/
def State.portPool (s : State) (p : PortNo) (part : PartId) : Option Pool :=
  if s.sharedUsed part < s.share part (·.otRes.toNat) s.sharedCap then some .shared
  else if s.poolUsed (.port p) < Config.portReserve then some (.port p)
  else none

/-- The pool that serves an operation from the fabric. -/
def State.fabricPool (s : State) (part : PartId) : Option Pool :=
  if !s.isStrict part ∧ s.sharedUsed part < s.share part (·.otRes.toNat) s.sharedCap then
    some .shared
  else
    let used := (s.opr.ops.filter fun e =>
      decide (e.pool = .fabric) && decide (s.isStrict e.part = s.isStrict part) &&
        (!s.isStrict part || decide (e.part = part))).length
    if used < s.share part (·.fabRes.toNat) Config.fabricReserve then some .fabric else none

/-- The lowest entry that no operation, and no undo operation under way, uses. -/
def State.freeEntry (s : State) : Nat :=
  (lowest (fun i =>
    !(s.opr.ops.any fun e => decide (e.id = i)) &&
      !s.fab.undo.any fun u => decide (u.txid.toNat = i)) Config.opEntries).getD 0

/-! ### Order (R66 to R69) -/

/-- Entries accepted before the entry `id`. -/
def earlier (id : Nat) : List OpEntry → List OpEntry
  | [] => []
  | e :: r => if e.id = id then [] else e :: earlier id r

def OpEntry.sameAgent (a b : OpEntry) : Bool :=
  decide (a.agent = b.agent ∧ a.node = b.node ∧ a.txid.isSome = b.txid.isSome)

def OpEntry.sameObject (a b : OpEntry) : Bool :=
  !a.op.noObject && !b.op.noObject &&
    decide (a.req.node = b.req.node ∧ a.req.ctx = b.req.ctx ∧ a.req.index = b.req.index)

/-- An operation of an agent here on an object of another home. -/
def State.leaves (s : State) (e : OpEntry) : Bool :=
  e.txid.isNone && !e.op.noObject && decide (e.req.node ≠ s.fab.nodeId)

/-- A rule of order keeps the operation from its bank or from the fabric: a pending `FENCE`, `ORDERED`, an earlier operation on the same object, or, since remote operations travel in issue order, an earlier one that has not been sent (R66, R207). -/
def State.orderHeld (s : State) (e : OpEntry) : Bool :=
  (earlier e.id s.opr.ops).any fun d =>
    d.sameAgent e && d.st.open_ &&
      (decide (d.st = .fence) || e.req.ordered ||
        if s.leaves e && s.leaves d then decide (d.st = .queued) else d.sameObject e)

/-! ### Holds at the home -/

def opKey (e : OpEntry) : OKey := ⟨e.part, e.req.ctx, e.req.index⟩

/-- The operation enters the held-signal queue (R160, R185). -/
def entersHeld (e : OpEntry) : Bool :=
  decide (e.op = .signalAfterLanded) || (decide (e.op = .commit) && e.txid.isSome)

/-- `d` waits for an entry of the held-signal queue ahead of `e`, and out of the same part of it (R185, R259). -/
def State.waitsAhead (s : State) (d e : OpEntry) : Bool :=
  decide (d.st = .heldQueue ∧ s.isStrict d.part = s.isStrict e.part) &&
    (!s.isStrict e.part || decide (d.part = e.part)) &&
    (decide (e.st ≠ .heldQueue) || decide (d.waitNo < e.waitNo))

/-- R185: no entry is free, or another operation waits for one ahead of it. -/
def State.heldFull (s : State) (e : OpEntry) : Bool :=
  entersHeld e && (!s.heldRoom e.part || s.opr.ops.any fun d => s.waitsAhead d e)

/-- The operation would take an entry of the queue that is not there: the rows of R185 come first. -/
def State.heldOver (s : State) (e : OpEntry) (t : State) : Bool :=
  s.heldFull e && decide (s.lcu.held.length < t.lcu.held.length)

/-- What keeps an operation at its home from its bank ingress: its context is being restored, an expiry of the object is pending, or its bank moves or is dark (R99, R101, R242, R339). An operation that has its stamp is past the expiry; undo work meets a context in any state (R246). -/
def State.ingressHeld (s : State) (e : OpEntry) : Bool :=
  let k := opKey e
  (!e.op.fabricOnly && decide ((s.ctx k.part k.ctx).state = .restoring)) ||
    (e.stamp.isNone && (s.tieHeld k || s.moveHeld k)) || s.slotDark k

/-- What keeps an operation at its home from its performance. -/
def State.homeHeld (s : State) (e : OpEntry) : Bool :=
  s.ingressHeld e || s.spillHeld e.op (opKey e)

/-! ### Performance -/

/-- R242: an operation met a context that is out. -/
def evictHit (p : PartId) (c : CtxId) (s : State) : State :=
  if (s.ctx p c).evictHit then s
  else raisePart p 2 (s.modCtx p c fun x => { x with evictHit := true })

/-- R27, R242: what the checks up to the translation say of an operation at its home; nothing while its context is being restored. -/
def State.translation (s : State) (k : OKey) : Option Status :=
  match (s.ctx k.part k.ctx).state with
  | .resident | .free => some (s.nameCheck k)
  | .evicting | .evicted => some .evictedRetry
  | .restoring => none

/-- OPR translates the name of an operation at its home once, from S3 of a partition startup on (R27, R242, R298). Undo work is refused by no check; OPR has accepted it for the banks when its context is resident (R245, R246). -/
def translate (e : OpEntry) (s : State) : State :=
  let k := opKey e
  if e.xlat.isSome ∨ e.op.noObject ∨ (e.txid.isNone ∧ e.req.node ≠ s.fab.nodeId) ∨
      ((s.part e.part).starting.isSome ∧ !s.startBit e.part 1) then s
  else if e.op.fabricOnly then
    if (s.ctx k.part k.ctx).state = .resident then setOp e.id (fun x => { x with xlat := some .ok }) s
    else s
  else
    match s.translation k with
    | some st =>
      let s := setOp e.id (fun x => { x with xlat := some st }) s
      if st = .evictedRetry then evictHit k.part k.ctx s else s
    | none => s

/-- R218, R353: removes a remote wait entry; answers on REL. -/
def waitCancelOp (e : OpEntry) (s : State) : State :=
  let k := opKey e
  let parity := reqAux0 e.req
  let sel := fun (w : Waiter) =>
    decide (w.key = k ∧ w.node = e.node) &&
      (if w.perNode then decide (w.parity = parity) else decide (w.agent = e.agent))
  let found := s.wmc.waiters.any sel
  let prod := s.wmc.waiters.any fun w => sel w && decide (w.op = .reserve)
  let s := syncHdr k (s.modWmc fun m => { m with waiters := m.waiters.filter fun w => !sel w })
  let s := if !found then s else if e.xlat = some .ok then afterLeaving k prod s else afterLeave k prod s
  fabSend 6 e.node
    (cancelDoneBody e.req.ctx e.req.index e.agent parity found ((e.txid).getD 0))
    (freeOp e.id (count e.part 19 (traceOp e 0 0 s)))

/-- The operations of each type (R40). -/
def performBody (e : OpEntry) (k : OKey) (o : Obj) (s : State) : State :=
  match o.body with
  | .barrier b =>
    match e.op with
    | .arrive | .arriveReduce | .arriveWait => arriveBarrier e k o.hdr b s
    | .wait => waitBarrierOp e k b s
    | .readMissing => readMissingOp e k o s
    | .deadlineArm => deadlineArmOp e k o.hdr b s
    | _ => finish e .ok (readObjValue o.body) none (count k.part 11 s)
  | .group g =>
    match e.op with
    | .arrive | .arriveWait => arriveGroup e k g s
    | .wait => waitGroupOp e k g s
    | .readMissing => readMissingOp e k o s
    | _ => finish e .ok (readObjValue o.body) none (count k.part 11 s)
  | .semaphore v =>
    match e.op with
    | .take => takeOp e k v s
    | .tryTake => tryTakeOp e k v s
    | .give => giveOp e k v s
    | _ => finish e .ok (readObjValue o.body) none (count k.part 11 s)
  | .event v =>
    match e.op with
    | .signal => signalOp e k v s
    | .wait => waitEventOp e k v s
    | _ => finish e .ok (readObjValue o.body) none (count k.part 11 s)
  | .lock l =>
    match e.op with
    | .lock => lockOp e k l s
    | .tryLock => tryLockOp e k l s
    | .unlock => unlockOp e k l s
    | .claimId => claimIdOp e k l s
    | .claimRead => claimReadOp e l s
    | _ => finish e .ok (readObjValue o.body) none (count k.part 11 s)
  | .cell c =>
    match e.op with
    | .cas => casOp e k c s
    | .fetchAdd => fetchAddOp e k c s
    | _ => finish e .ok (readObjValue o.body) none (count k.part 11 s)
  | .landing l =>
    match e.op with
    | .landExpect => landExpectOp e k l s
    | .signalAfterLanded => signalAfterOp e k l s
    | _ => finish e .ok (readObjValue o.body) none (count k.part 11 s)
  | .ring _ =>
    match s.descOf k with
    | none => finish e .noObject 0 none s
    | some (i, d) =>
      if e.txid.isSome && !remoteRingOk e d then finish e .accessDenied 0 none s
      else
        match e.op with
        | .reserve => reserveOp e k i d s
        | .commit => commitOp e k i d s
        | .waitAvail => waitAvailOp e k d s
        | .release => releaseOp e k i d s
        | _ => finish e .ok (readObjValue o.body) none (count k.part 11 s)

/-! Arrivals that merge into one bank operation (R17, log 60). -/

/-- An `ARRIVE` or `ARRIVE_WAIT` of an agent port. -/
def OpEntry.mergeable (e : OpEntry) : Bool :=
  decide (e.op = .arrive ∨ e.op = .arriveWait) && e.txid.isNone

/-- The merged operation that an arrival joins. A cycle's arrivals come in the order of their ports, which is that of their AgentIDs (R85). -/
def Merge.takes (m : Merge) (e : OpEntry) (now : Nat) : Bool :=
  decide (m.key = opKey e ∧ m.parity = reqAux0 e.req ∧ m.at_ = e.at_ ∧ m.done = now ∧
    m.last.toNat < (agentPort e.agent).toNat)

/-- One bank operation more; an arrival that joins one is none, and the second of a set makes it a merged one (R351). -/
def countBank (e : OpEntry) (s : State) : State :=
  if !e.mergeable then gcount 0 s
  else
    match s.opr.merges.find? fun m => m.takes e s.now with
    | none =>
      -- a new set takes the place of one of an earlier cycle
      gcount 0 (s.modOpr fun o =>
        { o with merges := (o.merges.filter fun m =>
                              decide (m.done = s.now ∧ ¬(m.key = opKey e ∧ m.parity = reqAux0 e.req))) ++
                            [⟨opKey e, reqAux0 e.req, e.at_, s.now, false, agentPort e.agent⟩] })
    | some m =>
      let s := if m.many then s else gcount 7 s
      s.modOpr fun o =>
        { o with merges := mapFirst (fun m => m.takes e s.now)
                            (fun m => { m with many := true, last := agentPort e.agent }) o.merges }

/-- The last checks of R27 on the word, then the operation. -/
def performAtBank (e : OpEntry) (s : State) : State :=
  let k := opKey e
  let s := countBank e s
  match s.obj k with
  | none => finish e .noObject 0 none s
  | some o =>
    if o.hdr.part ≠ k.part then
      finish e .accessDenied 0 none
        (report .partMismatch .obk (some k.part) e.agent e.node (s.keyRef k) 0 s)
    else if !accepts o.body e.op then finish e .typeMismatch 0 none s
    else performBody e k o s

/-- Abandonment and cancellation requests of R218, which no state of the context refuses: at the bank when OPR accepted them before the context went out, else kept (R245, R246). -/
def performFabric (e : OpEntry) (s : State) : State :=
  let k := opKey e
  match e.op with
  | .abandon =>
    finish e .ok 0 none (if e.xlat = some .ok then abandonLock k e.node e.agent 0 (s.stampOf e) s
      else abandonAt k e.node e.agent 0 s)
  | .rsvCancel =>
    finish e .ok 0 none (if e.xlat = some .ok then cancelRsv k e.req.payload (e.agent, e.node, 4) s
      else cancelAt k e.req.payload (e.agent, e.node, 4) s)
  | _ => waitCancelOp e s

/-- The operation reaches its bank; an abandonment or cancellation is translated there (R246). -/
def performHome (e : OpEntry) (s : State) : State :=
  if e.op.fabricOnly then performFabric e s else performAtBank e s

/-- R253: the operation would take a waiter-store entry that is not there. -/
def State.overflows (s : State) (e : OpEntry) (t : State) : Bool :=
  !s.entryRoom e.part && decide (s.waiterUse < t.waiterUse)

/-- An operation that waits for an entry of the held-signal queue takes its place among them (R185). -/
def waitHeld (e : OpEntry) (s : State) : State :=
  if e.st = .heldQueue then s
  else
    let n := s.opr.nextWait
    (setOp e.id (fun x => { x with st := .heldQueue, waitNo := n }) s).modOpr fun o =>
      { o with nextWait := o.nextWait + 1 }

/-- An operation that waits at its home; one that only a spilled entry holds has passed ingress and has its stamp. -/
def holdHome (e : OpEntry) (s : State) : State :=
  let k := opKey e
  if (s.ctx k.part k.ctx).state = .restoring then s
  else
    let stamp := if s.ingressHeld e then e.stamp else some (e.stamp.getD s.now)
    setOp e.id (fun x => { x with st := if e.st = .heldQueue then .heldQueue else .bank, stamp }) s

/-- Performs an operation at this home, or says why it waits. -/
def tryHome (e : OpEntry) (s : State) : State :=
  let k := opKey e
  if s.homeHeld e then holdHome e (fetchFor e.op k (wakeSlot k s))
  else
    let t := performHome e s
    if s.overflows e t then
      if s.spillCap ≤ s.spilledCount then
        finish e .rangeError 0 none
          (report .spillFull .wmc (some e.part) e.agent e.node (s.keyRef k) 0 s)
      else setOpSt e.id .bank s
    else if s.heldOver e t then waitHeld e s
    else t

/-- R216: an operation for another home is sent, unless nothing can be sent (R211, R220). -/
def sendRemote (e : OpEntry) (s : State) : State :=
  if !s.fab.nodeValid then finish e .fabNotReady 0 none s
  else if !s.reachable e.req.node then finish e .fabUnreachable 0 none s
  else
    let txid := BitVec.ofNat 15 e.id
    let s := setOpSt e.id .remote (count e.part 18 s)
    -- the home uses the effective priority, as the issuing side computed it (R59, R113)
    let f := if e.op.hasPrio then { e.req with aux := e.prio ++ e.req.aux.extractLsb' 0 5 } else e.req
    let s := fabSend 0 e.req.node (opBody e.op.code f e.agent e.spart txid) s
    if e.op = .cas then fabSend 1 e.req.node (opExtBody txid e.expected) s else s

/-- The packet of an agent `MGMT`, read from offset 0 of its buffer under the partition's requester ID (R61, R255, R275). -/
def startMgmt (e : OpEntry) (s : State) : State :=
  let a := e.req.payload.toNat
  let rq := (s.part e.part).reqid
  if !e.mgmtEn then finish e .accessDenied 0 none (countCmd (some e.part) s)
  else if !s.agentRoom e.part then s
  else
    let s := mmRequest false rq a 64 s
    if memErr s rq a 64 then finish e .rangeError 0 none (countCmd (some e.part) s)
    else
      let c : Cmd :=
        { id := s.msq.nextId, src := .agent e.id e.part, sup := false
          words := memWords s a 16, phase := .queued, at_ := s.now }
      arrive c (some e.part) none (setOpSt e.id .mgmt s)

/-- A partition startup under way holds the partition's operations until S2, S3 and S4 have run (R298). -/
def State.startHeld (s : State) (p : PartId) : Bool :=
  match (s.part p).starting with
  | some b => decide (b ≠ 7)
  | none => false

/-- An operation that no rule of order holds goes to its home, or is answered with what its translation said. -/
def passOn (e : OpEntry) (s : State) : State :=
  match e.xlat with
  | none | some .ok =>
    if s.startHeld e.part then s
    else if e.op = .mgmt then startMgmt e s
    else if e.txid.isNone ∧ e.req.node ≠ s.fab.nodeId then sendRemote e s
    else tryHome e s
  | some st => finish e st 0 none s

/-- Passes an accepted operation on, unless a rule of order holds it. -/
def tryOp (id : Nat) (s : State) : State :=
  match s.opEntry id with
  | none => s
  | some e =>
    match e.st with
    | .queued | .bank | .heldQueue =>
      let s := translate e s
      if s.orderHeld e then s
      else
        match s.opEntry id with
        | some e => passOn e s
        | none => s
    | _ => s

/-- Tree traffic waiting in the internal queue is performed once its object is free (R99). -/
def treeWork (w : TreeIn) (s : State) : State :=
  if w.rel then treeRelFlit w.tree w.src w.epoch w.status w.value (inner 4 s)
  else combineFlit w.tree w.src w.epoch w.slot w.valid w.value (inner 4 s)

def treePump : List TreeIn → State → State
  | [], s => s
  | w :: r, s =>
    let k := (s.tree w.tree).node
    if s.heldAt 4 k ∨ s.spillHeld .arrive k then treePump r (askFor k s)
    else
      treePump r (treeWork w (s.modFab fun f => { f with inq := dropFirst (· = w) f.inq }))

/-- An entry ahead of the first one that it precedes. -/
def insertOp (before : OpEntry → OpEntry → Bool) (e : OpEntry) : List OpEntry → List OpEntry
  | [] => [e]
  | d :: r => if before e d then e :: d :: r else d :: insertOp before e r

/-- The order in which waiting operations try again: those that wait for a held-signal entry in the order in which they wait, then the others in capture order (R185). -/
def pumpOrder (ops : List OpEntry) : List OpEntry :=
  let waits := fun (e : OpEntry) => decide (e.st = .heldQueue)
  (ops.filter waits).foldl (fun l e => insertOp (fun a b => decide (a.waitNo < b.waitNo)) e l) [] ++
    ops.filter fun e => !waits e

/-- Whatever waits and can now go on, in capture order. -/
def pump (s : State) : State :=
  let s := treePump s.fab.inq s
  ((pumpOrder s.opr.ops).map (·.id)).foldl (fun s id => tryOp id s) s

/-! ### From the port to the op table -/

/-- R352: the mark of `SECTION_MARK`, and the tag of `SET_TAG`, recorded at the bind stage. -/
def recordAtApa (e : OpEntry) (s : State) : State :=
  if e.op = .setTag then
    s.setBind e.agent { s.bind e.agent with tag := e.req.payload.setWidth 32 }
  else
    traceRec 8 (some e.part)
      (traceWord s.time64 0 e.op.code 0 e.agent e.node 0 0 8 e.part 2 e.req.payload) s

/-- The entry of an accepted flit. -/
def newEntry (p : PortNo) (op : Op) (f : Flit) (pool : Pool) (s : State) : OpEntry :=
  let a := agentId p f.agent
  let b := s.bind a
  { id := s.freeEntry, agent := a, node := s.fab.nodeId, part := b.part
    prio := if reqPrio f.req ≤ b.maxPrio then reqPrio f.req else b.maxPrio
    op, req := f.req, expected := (f.cont.map (·.payload)).getD 0
    st := if op = .fence then .fence else .queued
    pool, mgmtEn := b.mgmtEn, waitNo := 0, stamp := none, xlat := none
    txid := none, spart := b.part, tag := b.tag, at_ := s.now }

/-- An accepted operation enters the op table and goes on as far as it can. -/
def acceptOp (p : PortNo) (op : Op) (f : Flit) (pool : Pool) (s : State) : State :=
  let e := newEntry p op f pool s
  let s := s.modOpr fun o => { o with ops := o.ops ++ [e] }
  let s := gcountN 8 (if f.cont.isSome then 2 else 1) s
  if op = .setTag ∨ op = .sectionMark then
    finish e .ok 0 none (count e.part 20 (recordAtApa e s))
  else if op = .fence then s
  else tryOp e.id s

/-- What the bind stage makes of a flit. -/
inductive BindOut where
  /-- No entry: the flit stays. -/
  | stay
  /-- The partition drains. -/
  | hold
  | pass (s : State)

/-- A flit of the port waits for an op table entry: the head of its buffer, or a held one whose drain has ended. -/
def State.entryWaits (s : State) (p : PortNo) : Bool :=
  decide (s.headWait p = some false) ||
    (s.ap p).hold.any fun f => !s.draining (s.bind (agentId p f.agent)).part

/-- Another port waits: a free entry of the shared pool is for it, in its turn (R75). -/
def State.othersWait (s : State) (p : PortNo) : Bool :=
  (List.range 16).any fun q => decide (q ≠ p.toNat) && s.entryWaits (BitVec.ofNat 4 q)

/-- R55: binding, drain, encoding, entry. `held` says that the flit comes from the hold store, `turn` that the round robin has come to the port. -/
def bindFlit (p : PortNo) (f : Flit) (held turn : Bool) (s : State) : BindOut :=
  let a := agentId p f.agent
  let b := s.bind a
  if !b.valid then
    .pass (bindReply p f.agent f.code f.req none .accessDenied
      (report .unboundAgent .apa none a 0 0 0 s))
  else if !held && (s.draining b.part || s.heldBehind p b.part) then .hold
  else
    match (opOf f.code).filter fun op => flitOk op f.req f.cont with
    | none =>
      .pass (bindReply p f.agent f.code f.req (some b.part) .formatError
        (countStatus b.part (Status.code .formatError) s))
    | some op =>
      match s.portPool p b.part with
      | none => .stay
      | some pool =>
        if pool = .shared ∧ !turn ∧ s.othersWait p then .stay else .pass (acceptOp p op f pool s)

/-- The head flit leaves the ingress buffer and its credits return (R51). -/
def popIngress (p : PortNo) (f : Flit) (s : State) : State :=
  s.modAp p fun x =>
    { x with ingress := x.ingress.drop 1, reqCredits := x.reqCredits + f.credits }

/-- The head flit of a port passes, or moves to the hold store while that has room (R76); both flits of a `CAS` move together (log 73). -/
def passHead (p : PortNo) (f : Flit) (turn : Bool) (s : State) : Option State :=
  match bindFlit p f false turn (popIngress p f s) with
  | .pass t => some t
  | .hold =>
    if (s.ap p).holdUse + f.credits ≤ Config.holdEntries then
      some ((popIngress p f s).modAp p fun x => { x with hold := x.hold ++ [f] })
    else none
  | .stay => none

/-- The flits of a port's ingress buffer pass until one must stay (R75, R76). -/
def feedGo (p : PortNo) : List Flit → State → State
  | [], s => s
  | f :: r, s =>
    match passHead p f false s with
    | some t => feedGo p r t
    | none => s

/-- Nothing passes while the engine is hobbled (R363). -/
def feed (p : PortNo) (s : State) : State :=
  if s.hobbling then s else feedGo p (s.ap p).ingress s

/-- Passes one waiting flit of a port: a held one whose drain has ended, else the head of the ingress buffer. -/
def passOne (p : PortNo) (s : State) : Option State :=
  let ready := fun (f : Flit) => !s.draining (s.bind (agentId p f.agent)).part
  match (s.ap p).hold.find? ready with
  | some f =>
    match bindFlit p f true true (s.modAp p fun x => { x with hold := dropFirst ready x.hold }) with
    | .pass t => some t
    | _ => none
  | none =>
    match (s.ap p).ingress with
    | [] => none
    | f :: _ => passHead p f true s

/-- A port's turn in the round robin of R75. -/
def passTurn (i : Nat) (s : State) : State :=
  match passOne (BitVec.ofNat 4 i) s with
  | some t => t.modOpr fun o => { o with rr := (i + 1) % 16 }
  | none => s

/-- The ports in the order of their turns. -/
def State.turns (s : State) : List Nat := (List.range 16).map fun i => (s.opr.rr + i) % 16

/-- One turn of each port, `n` times. -/
def passRounds : Nat → State → State
  | 0, s => s
  | n + 1, s => passRounds n (s.turns.foldl (fun s i => passTurn i s) s)

/-- Whatever waits on the ports passes as far as it can, one flit of each port in turn (R75, R76). -/
def feedAll (s : State) : State :=
  if s.hobbling then s
  else
    passRounds ((List.range 16).foldl (fun n p =>
      max n ((s.ap (BitVec.ofNat 4 p)).ingress.length + (s.ap (BitVec.ofNat 4 p)).hold.length)) 0) s

/-- The drain of a partition ends: `RESUME`, its held flits in capture order, then the rest (R64, R76). -/
def resumePart (part : PartId) (s : State) : State :=
  if s.draining part then s else feedAll (noticePart part 2 s)

/-- The drain of a partition begins: `DRAIN` to its agents. -/
def drainPart (part : PartId) (s : State) : State := noticePart part 1 s

/-! ### Capture -/

/-- What a hobbled instance captures waits in the order of its capture (R363, R371). -/
def noteCapture (c : CapSrc) (s : State) : State :=
  if s.hobbling then s.modHob fun h => { h with captured := h.captured ++ [c] } else s

/-- A complete flit enters the ingress buffer and what can pass passes. -/
def enterIngress (p : PortNo) (f : Flit) (s : State) : State :=
  feed p (noteCapture (.agent p f.agent) (s.modAp p fun x => { x with ingress := x.ingress ++ [f] }))

/-- R79: the agent is between its notification and its acknowledgement. -/
def ApPort.window (x : ApPort) (a : LocalAgent) : Bool :=
  x.arst.any fun r => decide (r.agent = a) && !r.unbind

/-- A flit that follows any `CAS` first flit: a first flit waits for its second (R57). -/
def captureNext (p : PortNo) (a : LocalAgent) (code : Byte) (f : Req) (s : State) : State :=
  if code = 0x40 then s.modAp p fun x => { x with casFirst := some ⟨a, code, f, none⟩ }
  else enterIngress p ⟨a, code, f, none⟩ s

/-- R57: pairs a `CAS` with the flit after it. -/
def captureFlit (p : PortNo) (a : LocalAgent) (code : Byte) (f : Req) (s : State) : State :=
  match (s.ap p).casFirst with
  | some c =>
    let s := s.modAp p fun x => { x with casFirst := none }
    if code = 0xFF ∧ c.agent = a then enterIngress p { c with cont := some f } s
    else captureNext p a code f (enterIngress p c s)
  | none => captureNext p a code f s

/-- A presented request flit (R50, R51, R79), read by its bits (R56). One that is dropped leaves a waiting `CAS` first flit as it stands (log 58). -/
def takeFlit (p : PortNo) (a : LocalAgent) (w : BitVec 128) (s : State) : State :=
  if !s.apReady p then s
  else if (s.ap p).reqCredits = 0 then
    report .noCredit .apa none (agentId p a) 0 0 0 s
  else if (s.ap p).window a then
    report .resetWindow .apa none (agentId p a) 0 0 0 s
  else
    captureFlit p a (flitCode w) (flitReq w) (s.modAp p fun x => { x with reqCredits := x.reqCredits - 1 })

/-- The 128 bits that an agent presents. -/
def issue (p : PortNo) (a : LocalAgent) (code : Byte) (f : Req) (s : State) : State :=
  takeFlit p a (flitWord code f) s

end Sys2Proof.Machine
end

