-- ==== Sys2Proof/Machine/AgentOps.lean ====
section
/-! DEFINITION. The meanings of the request flits: each presents one flit of its opcode on an agent port (R48, R51, R60); what is performed is in the operation's own definition. -/

namespace Sys2Proof.Machine

/-- Every command answers a next state. -/
abbrev Out := Host.Outcome State Fault Refusal

/-- `ARRIVE` (R86). -/
def execArrive (p : PortNo) (a : LocalAgent) (f : Req) (s : State) : Out := .next (issue p a 0x10 f s)

/-- `ARRIVE_REDUCE` (R86, R106). -/
def execArriveReduce (p : PortNo) (a : LocalAgent) (f : Req) (s : State) : Out := .next (issue p a 0x11 f s)

/-- `WAIT` (R86, R119). -/
def execWait (p : PortNo) (a : LocalAgent) (f : Req) (s : State) : Out := .next (issue p a 0x12 f s)

/-- `ARRIVE_WAIT` (R86). -/
def execArriveWait (p : PortNo) (a : LocalAgent) (f : Req) (s : State) : Out := .next (issue p a 0x13 f s)

/-- `SIGNAL` (R118). -/
def execSignal (p : PortNo) (a : LocalAgent) (f : Req) (s : State) : Out := .next (issue p a 0x14 f s)

/-- `READ_MISSING` (R102). -/
def execReadMissing (p : PortNo) (a : LocalAgent) (f : Req) (s : State) : Out := .next (issue p a 0x15 f s)

/-- `DEADLINE_ARM` (R96). -/
def execDeadlineArm (p : PortNo) (a : LocalAgent) (f : Req) (s : State) : Out := .next (issue p a 0x16 f s)

/-- `TAKE` (R115). -/
def execTake (p : PortNo) (a : LocalAgent) (f : Req) (s : State) : Out := .next (issue p a 0x20 f s)

/-- `TRY_TAKE` (R115). -/
def execTryTake (p : PortNo) (a : LocalAgent) (f : Req) (s : State) : Out := .next (issue p a 0x21 f s)

/-- `GIVE` (R116). -/
def execGive (p : PortNo) (a : LocalAgent) (f : Req) (s : State) : Out := .next (issue p a 0x22 f s)

/-- `LOCK` (R124). -/
def execLock (p : PortNo) (a : LocalAgent) (f : Req) (s : State) : Out := .next (issue p a 0x30 f s)

/-- `TRY_LOCK` (R124). -/
def execTryLock (p : PortNo) (a : LocalAgent) (f : Req) (s : State) : Out := .next (issue p a 0x31 f s)

/-- `UNLOCK` (R125). -/
def execUnlock (p : PortNo) (a : LocalAgent) (f : Req) (s : State) : Out := .next (issue p a 0x32 f s)

/-- `CLAIM_ID` (R126). -/
def execClaimId (p : PortNo) (a : LocalAgent) (f : Req) (s : State) : Out := .next (issue p a 0x33 f s)

/-- `CLAIM_READ` (R127). -/
def execClaimRead (p : PortNo) (a : LocalAgent) (f : Req) (s : State) : Out := .next (issue p a 0x34 f s)

/-- `CAS` (R57, R121). -/
def execCas (p : PortNo) (a : LocalAgent) (f : Req) (s : State) : Out := .next (issue p a 0x40 f s)

/-- `CAS_CONT` (R57). -/
def execCasCont (p : PortNo) (a : LocalAgent) (f : Req) (s : State) : Out := .next (issue p a 0xFF f s)

/-- `FETCH_ADD` (R122). -/
def execFetchAdd (p : PortNo) (a : LocalAgent) (f : Req) (s : State) : Out := .next (issue p a 0x41 f s)

/-- `READ_OBJ` (R40). -/
def execReadObj (p : PortNo) (a : LocalAgent) (f : Req) (s : State) : Out := .next (issue p a 0x42 f s)

/-- `RESERVE` (R147). -/
def execReserve (p : PortNo) (a : LocalAgent) (f : Req) (s : State) : Out := .next (issue p a 0x50 f s)

/-- `COMMIT` (R150). -/
def execCommit (p : PortNo) (a : LocalAgent) (f : Req) (s : State) : Out := .next (issue p a 0x51 f s)

/-- `WAIT_AVAIL` (R153). -/
def execWaitAvail (p : PortNo) (a : LocalAgent) (f : Req) (s : State) : Out := .next (issue p a 0x52 f s)

/-- `RELEASE` (R154). -/
def execRelease (p : PortNo) (a : LocalAgent) (f : Req) (s : State) : Out := .next (issue p a 0x53 f s)

/-- `LAND_EXPECT` (R180). -/
def execLandExpect (p : PortNo) (a : LocalAgent) (f : Req) (s : State) : Out := .next (issue p a 0x60 f s)

/-- `SIGNAL_AFTER_LANDED` (R185). -/
def execSignalAfterLanded (p : PortNo) (a : LocalAgent) (f : Req) (s : State) : Out := .next (issue p a 0x61 f s)

/-- `FENCE` (R69). -/
def execFence (p : PortNo) (a : LocalAgent) (f : Req) (s : State) : Out := .next (issue p a 0x70 f s)

/-- `SET_TAG` (R352). -/
def execSetTag (p : PortNo) (a : LocalAgent) (f : Req) (s : State) : Out := .next (issue p a 0x71 f s)

/-- `SECTION_MARK` (R352). -/
def execSectionMark (p : PortNo) (a : LocalAgent) (f : Req) (s : State) : Out := .next (issue p a 0x72 f s)

/-- `MGMT` (R61). -/
def execMgmt (p : PortNo) (a : LocalAgent) (f : Req) (s : State) : Out := .next (issue p a 0x80 f s)

/-- A flit presented without a credit is dropped and reported; with a credit it is a flit of its code, so a reserved code meets R60. -/
def execRequestFlitWithoutCredit (p : PortNo) (a : LocalAgent) (opcode : Byte) (f : Req) (s : State) :
    Out := .next (issue p a opcode f s)

end Sys2Proof.Machine
end

