-- ==== Sys2Proof/Machine/Ports.lean ====
section
/-! DEFINITION. Agent ports beyond request flits: op table grants (R75), response credits and arbitration (R51, R70), agent reset (R77 to R80), bindings (R54, R401) and fence completion (R69). -/

namespace Sys2Proof.Machine

/-! ### Op table grants -/

/-- The first port after `rr`, in turn, that can pass a flit. -/
def grantGo (s : State) : List Nat → State
  | [] => s
  | i :: r => if (passOne (BitVec.ofNat 4 i) s).isSome then passTurn i s else grantGo s r

/-- R75: one entry, round robin over the agent ports. -/
def opTableGrant (s : State) : State :=
  if s.running ∧ !s.hobbling then grantGo s s.turns else s

/-! ### Responses -/

/-- `AP_RSP_CREDIT` (R51). -/
def responseCredit (p : PortNo) (s : State) : State :=
  if s.apReady p then
    s.modAp p fun x =>
      { x with rspCredits := if x.rspCredits < Config.portCredits then x.rspCredits + 1
                             else x.rspCredits }
  else s

def execResponseCredit (p : PortNo) (s : State) : Out := .next (responseCredit p s)

/-- The agents that a response addresses, as a mask over one block. -/
def Rsp.covers (r : Rsp) : BitVec 2 × DWord :=
  match r.kind with
  | .wakeVec | .notice => (r.block, r.payload)
  | _ => (r.agent.extractLsb' 6 2, setBit 0 (r.agent.toNat % 64))

/-- Two completions for one agent on one object (R70). -/
def Rsp.ordered (a b : Rsp) : Bool :=
  decide (a.kind ≠ .notice ∧ b.kind ≠ .notice ∧ a.node = b.node ∧ a.ctx = b.ctx ∧
    a.index = b.index ∧ a.covers.1 = b.covers.1 ∧ a.covers.2 &&& b.covers.2 ≠ 0)

/-- The first response of a class with no earlier one that must leave before it. -/
def firstOf (q : Rsp → Bool) : List Rsp → List Rsp → Option Rsp
  | _, [] => none
  | seen, r :: rest =>
    if q r && !seen.any (·.ordered r) then some r else firstOf q (seen ++ [r]) rest

def Rsp.isWake (r : Rsp) : Bool := decide (r.kind = .wake ∨ r.kind = .wakeVec)

/-- R70: a notice, else a wake, else a reply; after three wakes past a waiting reply, the reply. -/
def pickRsp (x : ApPort) : Option Rsp :=
  let notice := firstOf (fun r => decide (r.kind = .notice)) [] x.rsp
  let wake := firstOf Rsp.isWake [] x.rsp
  let reply := firstOf (fun r => decide (r.kind = .reply)) [] x.rsp
  match notice, wake, reply with
  | some n, _, _ => some n
  | none, some w, some r => if 3 ≤ x.wakeRun then some r else some w
  | none, some w, none => some w
  | none, none, r => r

/-- The `WAKE` record of a presented wake (R353). -/
def traceWake (p : PortNo) (r : Rsp) (s : State) : State :=
  match r.part with
  | some part =>
    let mask := match r.kind with
      | .wakeVec => r.payload
      | _ => setBit 0 (r.agent.toNat % 64)
    traceRec 6 (some part)
      (traceWord s.time64 (packRef r.node r.ctx r.index) r.opcode r.status
        (p ++ (r.agent.extractLsb' 6 2 ++ 0#6)) s.fab.nodeId r.cause.1 r.cause.2.1 r.cause.2.2 part 1
        mask) s
  | none => s

/-- The counters of a presented response (R346, R347, R351). -/
def countRsp (r : Rsp) (s : State) : State :=
  let s := gcount 9 s
  match r.part with
  | none => s
  | some p =>
    let s := count p 58 s
    let s := if r.isWake then countN p 57 r.waits.length s else s
    r.waits.foldl (fun s w => count p (waitBucket (s.now - w.2)) s) s

/-- The response waits for S2 of a partition startup, its own partition's or that of the agent it goes to (R297). -/
def State.rspShut (s : State) (p : PortNo) (r : Rsp) : Bool :=
  (match r.part with
    | some part => s.outputsShut part
    | none => false) ||
  (match r.kind with
    | .reply | .wake => s.outputsShut (s.bind (agentId p r.agent)).part
    | .wakeVec | .notice => false)

/-- A port with the responses that may leave. -/
def State.openRsps (s : State) (p : PortNo) : ApPort :=
  { s.ap p with rsp := (s.ap p).rsp.filter fun r => !s.rspShut p r }

/-- One response flit leaves with a response credit; a reply frees its op table entry. -/
def responsePresent (p : PortNo) (s : State) : State :=
  if !s.apReady p ∨ s.frozen then s
  else
    match pickRsp (s.openRsps p) with
    | none => s
    | some r =>
      if (s.ap p).rspCredits = 0 then s
      else
        let replyWaits := (s.ap p).rsp.any fun x => decide (x.kind = .reply)
        let s := s.modAp p fun x =>
          { x with
            rsp := dropFirst (· = r) x.rsp, rspCredits := x.rspCredits - 1, out := some r
            wakeRun := if r.isWake && replyWaits then x.wakeRun + 1
                       else if r.kind = .reply then 0 else x.wakeRun }
        let s := countRsp r s
        let s := if r.isWake then traceWake p r s else s
        freeOpt r.entry s

def execResponsePresent (p : PortNo) (s : State) : Out := .next (responsePresent p s)

/-! ### Agent reset -/

/-- A place of an agent begins. -/
def runReset (p : PortNo) (a : LocalAgent) (idle : Bool) (s : State) : State :=
  s.modAp p fun x =>
    { x with arst := mapFirst (fun r => decide (r.agent = a)) (fun r => { r with running := true, idle }) x.arst }

/-- R77 steps 1 and 2 begin: flits that have not passed the bind stage go, and queued completions of the agent are dropped. -/
def discardAgent (p : PortNo) (a : LocalAgent) (s : State) : State :=
  let x := s.ap p
  let mine := fun (f : Flit) => decide (f.agent = a)
  let back := ((x.ingress.filter mine).map Flit.credits).sum +
    (if (x.casFirst.filter mine).isSome then 1 else 0)
  let old := x.rsp
  let s := s.modAp p fun x =>
    { x with
      ingress := x.ingress.filter fun f => !mine f
      hold := x.hold.filter fun f => !mine f
      casFirst := x.casFirst.filter fun f => !mine f
      reqCredits := x.reqCredits + back, rsp := [] }
  let s := s.modHob fun h => { h with captured := h.captured.filter fun c => decide (c ≠ .agent p a) }
  -- the queued responses pass the filter of step 2 again
  feed p (old.foldl (fun s r => pushRsp p r s) s)

/-- A notification's turn: of an agent whose `VALID` is 0 it is only acknowledged (R80). -/
def startReset (p : PortNo) (a : LocalAgent) (s : State) : State :=
  let unbind := ((s.ap p).arst.find? fun r => decide (r.agent = a)).map (·.unbind)
  if unbind = some false ∧ !(s.bind (agentId p a)).valid then runReset p a true s
  else discardAgent p a (runReset p a false s)

/-- Adds a place among the notifications; it runs at once unless the agent's processing already runs. -/
def addReset (p : PortNo) (a : LocalAgent) (unbind : Bool) (s : State) : State :=
  let busy := (s.ap p).arst.any fun r => decide (r.agent = a)
  let s := s.modAp p fun x => { x with arst := x.arst ++ [⟨a, unbind, false, false, []⟩] }
  if busy then s else startReset p a s

/-- R77: at most four notifications of a port are in processing. -/
def resetNotify (p : PortNo) (a : LocalAgent) (s : State) : State :=
  if !s.apReady p then s
  else if 4 ≤ ((s.ap p).arst.filter (!·.unbind)).length then
    report .resetWindow .apa none (agentId p a) 0 0 0 s
  else addReset p a false s

def execAgentResetNotification (p : PortNo) (a : LocalAgent) (s : State) : Out :=
  .next (resetNotify p a s)

/-- A TXID that no entry and no outstanding undo uses. -/
def State.freeTxid (s : State) : BitVec 15 := BitVec.ofNat 15 s.freeEntry

/-- A cancellation or undo operation for another home, as an operation of agent `a` of `part` (R140, R218); `u` says who waits for it. -/
def sendUndo (u : AgentId) (waits : Bool) (rw : Option RWait) (part : PartId) (a : AgentId) (op : Byte)
    (node : NodeId) (c : CtxId) (i : Index) (aux : Byte) (pay : DWord) (s : State) : State :=
  let t := s.freeTxid
  let f : Req := ⟨false, false, true, false, c, node, i, aux, pay⟩
  let s := s.modFab fun x => { x with undo := x.undo ++ [⟨u, t, waits, rw⟩] }
  fabSend 0 node (opBody op f a part t) (count part 18 s)

/-- Step 3 of R77 for waits at this home. -/
def removeLocalWaits (a : AgentId) (s : State) : State :=
  (s.localWaits a).foldl (fun s w =>
    afterLeave w.key (decide (w.op = .reserve)) (unpark w (inner 3 s))) s

/-- A remaining wait of this node on the same remote object and parity. -/
def RWait.sameEntry (x y : RWait) : Bool :=
  decide (x.node = y.node ∧ x.ctx = y.ctx ∧ x.index = y.index ∧ x.perNode = y.perNode) &&
    (if x.perNode then decide (x.parity = y.parity) else decide (x.agent = y.agent ∧ x.op = y.op))

/-- Removes a wait on a remote object; once no local agent waits, the entry at the home is cancelled, and a grant that races the cancellation finds the wait there (R77, R218). -/
def removeRWait (u : AgentId) (waits : Bool) (x : RWait) (s : State) : State :=
  let s := s.modWmc fun m => { m with rwaits := dropFirst (· = x) m.rwaits }
  if s.wmc.rwaits.any (·.sameEntry x) then s
  else
    sendUndo u waits (if x.perNode then none else some x) x.part (if x.perNode then 0 else x.agent) 0x90
      x.node x.ctx x.index (if x.parity then 1 else 0) 0 s

/-- Step 3 of R77 for waits on remote objects; step 6 waits for the cancellations. -/
def removeRemoteWaits (a : AgentId) (s : State) : State :=
  (s.wmc.rwaits.filter fun w => decide (w.agent = a)).foldl (fun s x => removeRWait a true x s) s

/-- R77 step 2: they are dropped. -/
def dropSpilledWakes (a : AgentId) (s : State) : State :=
  s.modWmc fun m =>
    { m with spillWakes := m.spillWakes.filter fun x =>
        !(decide (x.w.node = s.fab.nodeId ∧ x.w.agent = a) && !x.w.perNode) }

/-- Step 4 of R77: the agent's `RESET_BOUND` and `BOTH` holdings end, here or at their homes (R140). -/
def endHoldings (a : AgentId) (s : State) : State :=
  (s.olu.holdings.filter fun h => decide (h.agent = a)).foldl (fun s h =>
    if h.node = s.fab.nodeId then
      let s := abandonAt h.key s.fab.nodeId a 0 (inner 3 s)
      delHolding a h.node h.key s
    else
      sendUndo a false none h.key.part a 0x91 h.node h.key.ctx h.key.index 0 0
        (delHolding a h.node h.key s)) s

/-- R78: undoes one dropped grant. -/
def undoGrant (a : AgentId) (g : Grant) (s : State) : State :=
  let undo := fun (op : Byte) (n : NodeId) (k : OKey) (pay : DWord) (s : State) =>
    sendUndo a true none k.part a op n k.ctx k.index 0 pay s
  match g with
  | .lock k none seq => abandonAt k s.fab.nodeId a seq (inner 3 s)
  | .lock k (some n) _ => undo 0x91 n k 0 s
  | .take k none units => undoGive k units (inner 3 s)
  | .take k (some n) units => undo 0x22 n k units s
  | .reserve k none h => cancelAt k h (a, s.fab.nodeId, 4) (inner 3 s)
  | .reserve k (some n) h => undo 0x92 n k h s

/-- The running place of an agent. -/
def ApPort.runningReset (x : ApPort) (a : LocalAgent) : Option Arst :=
  x.arst.find? fun r => decide (r.agent = a) && r.running

/-- Step 6 of R77: the acknowledgement, or `UNBOUND`; then the agent's next place begins. -/
def endReset (p : PortNo) (a : LocalAgent) (r : Arst) (s : State) : State :=
  let s := s.modAp p fun x =>
    { x with
      arst := dropFirst (fun r => decide (r.agent = a) && r.running) x.arst
      ack := if r.unbind then x.ack else some a }
  let s :=
    if r.unbind then
      let s := s.setBind (agentId p a) { s.bind (agentId p a) with busy := false }
      pushNotice p (s.bind (agentId p a)).part 3 [a] s
    else s
  if (s.ap p).arst.any fun r => decide (r.agent = a) then startReset p a s else s

/-- Steps 3 to 5 of R77; the tag returns to zero (R352). -/
def resetSteps (p : PortNo) (a : LocalAgent) (r : Arst) (s : State) : State :=
  let id := agentId p a
  let grants := s.resetGrants id r
  let s := removeRemoteWaits id (removeLocalWaits id (dropSpilledWakes id s))
  let s := endHoldings id s
  let s := s.modAp p fun x =>
    { x with arst := mapFirst (fun r => decide (r.agent = a) && r.running)
                      (fun r => { r with dropped := [] }) x.arst }
  let s := grants.foldl (fun s g => undoGrant id g s) s
  pump (s.setBind id { s.bind id with tag := 0 })

/-- Dark banks of a reset's objects start re-powering, and its rings' spilled records are asked for (R145, R339). -/
def askReset (a : AgentId) (r : Arst) (s : State) : State :=
  let rings := (s.resetGrants a r).filterMap Grant.ring
  rings.foldl (fun s k => fetchFor .rsvCancel k s) ((s.resetKeys a r).foldl (fun s k => wakeSlot k s) s)

/-- R77 steps 3 to 6, once step 2 has ended; the bank work waits its turn (R18). -/
def resetProcess (p : PortNo) (a : LocalAgent) (s : State) : State :=
  let id := agentId p a
  match (s.ap p).runningReset a with
  | none => s
  | some r =>
    if r.idle then endReset p a r s
    else if s.frozen ∨ s.agentBusy id then s
    else if (s.resetKeys id r).any (s.heldAt 3) ∨ s.resetFetch id r then askReset id r s
    else
      let s := resetSteps p a r s
      if s.fab.undo.any fun u => decide (u.agent = id) && u.waits then s
      else if (((s.ap p).runningReset a).map (·.dropped)).getD [] ≠ [] then s
      else endReset p a r s

def execAgentResetProcess (p : PortNo) (a : LocalAgent) (s : State) : Out :=
  .next (resetProcess p a s)

/-! ### Bindings -/

/-- R259: agents of a strict partition and of another would share the port. -/
def State.portConflict (s : State) (agent : AgentId) (part : PartId) : Bool :=
  s.binds.any fun b =>
    b.2.valid && decide (b.1 ≠ agent.toNat ∧ agentPort (BitVec.ofNat 12 b.1) = agentPort agent ∧
      b.2.part ≠ part) && (s.isStrict part || s.isStrict b.2.part)

/-- R54, R401: a write of a binding entry at SUPERVISOR privilege. -/
def bindWrite (agent : AgentId) (w : Word) (s : State) : State :=
  let b := s.bind agent
  let valid := w.getLsbD 31
  let part : PartId := w.extractLsb' 0 6
  if b.busy then s
  else if b.valid ∧ b.part ≠ part then s
  else if valid && (decide ((s.part part).state = .free) || s.portConflict agent part) then s
  else
    let s := s.setBind agent
      { b with
        valid, part, maxPrio := w.extractLsb' 8 3, mgmtEn := w.getLsbD 16
        busy := b.valid && !valid }
    if b.valid && !valid then addReset (agentPort agent) (agentLocal agent) true s
    else if !b.valid && valid && s.draining part then
      pushNotice (agentPort agent) part 1 [agentLocal agent] s
    else s

/-! ### Fences -/

/-- The reply of an operation whose entry is free waits at its port (R15, R69). -/
def State.replyQueued (s : State) (agent : AgentId) : Bool :=
  (s.ap (agentPort agent)).rsp.any fun r =>
    decide (r.kind = .reply ∧ r.accepted = true ∧ r.entry = none ∧ r.agent = agentLocal agent)

/-- R69: the oldest entry of the agent is a `FENCE`, and no earlier reply is left. -/
def fenceDone (agent : AgentId) (s : State) : State :=
  if s.frozen then s
  else
    match s.opr.ops.find? fun e => decide (e.agent = agent) && e.txid.isNone with
    | some e =>
      if e.st = .fence ∧ s.replyQueued agent = false then pump (finish e .ok 0 none (count e.part 20 s)) else s
    | none => s

def execFenceComplete (agent : AgentId) (s : State) : Out := .next (fenceDone agent s)

end Sys2Proof.Machine
end

