-- ==== Sys2Proof/Machine/Timers.lean ====
section
/-! DEFINITION. Work of the units on their own: deadlines and leases falling due and expiring (R97, R99, R100, R134, R135), wait limits (R58), landing notices, decrements and held entries (R177 to R187), the scheduler notice port (R188 to R193), and released watches (R381). -/

namespace Sys2Proof.Machine

/-- The units act: startup has run and no Hobble stops them (R363, R367). -/
def State.acting (s : State) : Bool := s.running && !s.hobbling

/-! ### Falling due (R97, R99, R100, R134) -/

/-- Already in the expiring set or the due queue. -/
def State.isDue (s : State) (k : OKey) (lease : Bool) (seq : Nat) : Bool :=
  (s.opr.expiring ++ s.opr.dueq).any fun d =>
    decide (d.key = k ∧ d.lease = lease ∧ d.seq = seq)

/-- Deadlines of current epochs that TIME exceeds. -/
def State.dueDeadlines (s : State) : List Due :=
  (s.tdu.deadlines.filter fun d =>
    decide (d.due < s.now) && !s.isDue d.key false d.epoch.toNat &&
      match s.objAny d.key with
      | some ⟨_, .barrier b⟩ => decide (b.epoch = d.epoch)
      | _ => false).map fun d => ⟨d.key, false, d.epoch.toNat, d.due, 0⟩

/-- Leases that TIME exceeds. -/
def State.dueLeases (s : State) : List Due :=
  (s.tdu.leases.filter fun d =>
    decide (d.due < s.now) && !s.isDue d.key true d.seq.toNat).map fun d =>
      ⟨d.key, true, d.seq.toNat, d.due, 0⟩

/-- R100: ordered by due TIME and then by ObjectRef. -/
def State.dueBefore (s : State) (a b : Due) : Bool :=
  decide (a.due < b.due ∨ (a.due = b.due ∧ (s.keyRef a.key).toNat < (s.keyRef b.key).toNat))

def State.insertDue (s : State) (d : Due) : List Due → List Due
  | [] => [d]
  | x :: r => if s.dueBefore d x then d :: x :: r else x :: s.insertDue d r

/-- R99 step 1, R100 step 1. -/
def enterDue (d : Due) (s : State) : State :=
  if s.opr.expiring.length < Config.expiringEntries ∧ s.opr.dueq = [] then
    s.modOpr fun o => { o with expiring := o.expiring ++ [{ d with drain := s.now + 8 }] }
  else s.modOpr fun o => { o with dueq := s.insertDue d o.dueq }

def fallDue (l : List Due) (s : State) : State :=
  (l.foldl (fun acc d => s.insertDue d acc) []).foldl (fun s d => enterDue d s) s

/-- Deadlines that fall due after `edges` edges. -/
def deadlineDue (edges : Nat) (s : State) : State :=
  let s := elapse edges s
  if s.acting then fallDue s.dueDeadlines s else s

def execDeadlineDue (edges : Nat) (s : State) : Out := .next (deadlineDue edges s)

def leaseDue (edges : Nat) (s : State) : State :=
  let s := elapse edges s
  if s.acting then fallDue s.dueLeases s else s

def execLeaseDue (edges : Nat) (s : State) : Out := .next (leaseDue edges s)

/-! ### Expiring -/

/-- R100 step 3: the heads of the due queue take at most `n` free places of the set. -/
def fillSet (n : Nat) (s : State) : State :=
  let m := min n (Config.expiringEntries - s.opr.expiring.length)
  s.modOpr fun o =>
    { o with
      expiring := o.expiring ++ (o.dueq.take m).map fun x => { x with drain := s.now + 8 }
      dueq := o.dueq.drop m }

/-- R99 step 5: the place frees. -/
def leaveSet (d : Due) (s : State) : State :=
  fillSet 1 (s.modOpr fun o => { o with expiring := dropFirst (· = d) o.expiring })

/-- R45 step 5: nothing that fell due for a destroyed object is left. -/
def dropDue (k : OKey) (s : State) : State :=
  let other := fun (d : Due) => decide (d.key ≠ k)
  fillSet s.opr.expiring.length (s.modOpr fun o =>
    { o with expiring := o.expiring.filter other, dueq := o.dueq.filter other })

/-- The first expiry of a kind whose drain has ended is performed, and what it held passes. -/
def expireOne (lease : Bool) (s : State) : State :=
  match s.opr.expiring.find? (s.canExpire lease) with
  | some d =>
    let t := inner 1 s
    pump (leaveSet d (if lease then expireLeaseAt d t else expireDeadlineAt d t))
  | none =>
    match s.opr.expiring.find? fun d => decide (d.lease = lease ∧ d.drain ≤ s.now) with
    | some d => askFor d.key s
    | none => s

def deadlineExpiry (edges : Nat) (s : State) : State :=
  let s := elapse edges s
  if s.acting then expireOne false s else s

def execDeadlineExpiry (edges : Nat) (s : State) : Out := .next (deadlineExpiry edges s)

def leaseExpiry (edges : Nat) (s : State) : State :=
  let s := elapse edges s
  if s.acting then expireOne true s else s

def execLeaseExpiry (edges : Nat) (s : State) : Out := .next (leaseExpiry edges s)

/-! ### Wait limits (R58, R217) -/

/-- A waiter parked here times out. -/
def timeoutWaiter (w : Waiter) (s : State) : State :=
  afterLeave w.key (decide (w.op = .reserve))
    (wakeWaiter w .timedOut 0 none 0 (0, 0, 7) (unpark w (inner 1 s)))

/-- A local waiter of a remote object, as a waiter of its node. -/
def RWait.local (x : RWait) : Waiter where
  key := ⟨x.part, x.ctx, x.index⟩
  node := 0
  agent := x.agent
  perNode := false
  op := x.op
  parity := x.parity
  prio := 0
  operand := x.operand
  hint := x.hint
  token := x.token
  limit := x.limit
  stamp := x.stamp
  spilled := false
  remote := false

/-- A per-node remote wait times out at the issuing instance; the last one of its entry cancels it at the home (R218). -/
def endRWait (st : Status) (cause : BitVec 4) (x : RWait) (s : State) : State :=
  wakeOne x.local st.code 0 x.node none (0, 0, cause)
    (countStatus x.part st.code (removeRWait 0 false x s))

/-- Its limit has passed (R58). -/
def timeoutRWait (x : RWait) (s : State) : State := endRWait .timedOut 7 x s

/-- One waiter whose limit TIME exceeds: a parked one whose bank can serve it, else one of this node on a remote object. -/
def timeoutOne (s : State) : State :=
  let due := fun (w : Waiter) => passed w.limit s.now
  match s.wmc.waiters.find? s.canTimeOut with
  | some w => timeoutWaiter w s
  | none =>
    let s := (s.wmc.waiters.filter due).foldl (fun s w => wakeSlot w.key s) s
    match s.wmc.rwaits.find? fun x => x.perNode && passed x.limit s.now with
    | some x => timeoutRWait x s
    | none => s

def waitTimeout (edges : Nat) (s : State) : State :=
  let s := elapse edges s
  if s.acting then timeoutOne s else s

def execWaitTimeout (edges : Nat) (s : State) : Out := .next (waitTimeout edges s)

/-! ### Landing -/

/-- Credits of a channel that the controller holds (R177): those of notices still in the ingress buffer are out. -/
def State.lnFull (s : State) (ch : LnChan) : Bool :=
  decide (Config.lnCredits ≤ (s.lcu.ingress.filter fun x => decide (x.1 = ch)).length)

/-- A notice presented on a channel: dropped without a credit, held from a cut on (R363), else looked up. -/
def landingNotice (ch : LnChan) (w : DWord) (s : State) : State :=
  if !s.running then s
  else if s.hobbling then
    if s.lnFull ch then report .noCredit .lcu none (ch.setWidth 12) 0 0 0 s
    else noteCapture .landing (s.modLcu fun c => { c with ingress := c.ingress ++ [(ch, w)] })
  else landNotice ch w s

def execLandingNotice (ch : LnChan) (data : DWord) (s : State) : Out := .next (landingNotice ch data s)

/-- The next posted decrement reaches its bank (R183). -/
def landingDecrement (s : State) : State :=
  if s.frozen then s
  else
    match s.nextDec with
    | some d =>
      let s := s.modLcu fun c => { c with decs := dropFirst (· = d) c.decs }
      pump (decrement d.key d.count.toNat d.chan d.tag (inner 2 s))
    | none => wakeDecs s

def execLandingDecrement (s : State) : Out := .next (landingDecrement s)

/-- The next posted held entry of a kind is performed and leaves the queue. -/
def heldPerform (commit : Bool) (s : State) : State :=
  if s.frozen then s
  else
    match s.nextHeld commit with
    | some h =>
      let t := (dropHeld h (inner 2 s)).modLcu fun c => { c with postRr := (s.postKey h + 1) % 65 }
      pump (if commit then performHeldCommit h t else performHeldSignal h t)
    | none => wakeHeld commit s

def execHeldSignalPerform (s : State) : Out := .next (heldPerform false s)
def execHeldCommitPerform (s : State) : Out := .next (heldPerform true s)

/-! ### Scheduler notices (R188, R191 to R193) -/

/-- R191, R192: a free place takes a waiting management notice, or `INHERIT_LOST`. -/
def snRefill (s : State) : State :=
  match s.sn.backlog with
  | n :: r =>
    if s.sn.mgmtCount < Config.snMgmt then
      snEnter n (s.modSn fun q => { q with backlog := r })
    else s
  | [] => s

def snLost (s : State) : State :=
  if s.sn.lost ≠ 0 ∧ s.sn.inheritCount < Config.snInherit then
    snEnter ⟨[0x2F#8 ++ 0#24 ++ s.sn.lost], 0, false, false, none, none⟩ (s.modSn fun q => { q with lost := 0 })
  else s

/-- One word moves. -/
def snPresent (s : State) : State :=
  if !s.running ∨ s.frozen then s
  else
    match s.snNext with
    | none => s
    | some n =>
      let last := decide (n.words.length ≤ n.moved + 1)
      let s := s.modSn fun q => { q with out := some ((n.words[n.moved]?).getD 0, last) }
      if last then
        snShow (snLost (snRefill (gcount 35 (s.modSn fun q => { q with queue := dropFirst (· = n) q.queue }))))
      else
        s.modSn fun q =>
          { q with queue := mapFirst (· = n) (fun m => { m with moved := m.moved + 1 }) q.queue }

def execSnNoticePresent (s : State) : Out := .next (snPresent s)

/-! ### Watches (R381) -/

/-- A posted release of a held watch is performed. -/
def watchRelease (s : State) : State :=
  if s.frozen then s
  else
    match s.obs.watches.find? fun w => w.posted && !s.heldAt 5 w.key && !s.spillHeld .arrive w.key with
    | some w => pump (releaseWatched w.key (inner 5 s))
    | none => (s.obs.watches.filter (·.posted)).foldl (fun s w => askFor w.key s) s

def execWatchRelease (s : State) : Out := .next (watchRelease s)

end Sys2Proof.Machine
end

