-- ==== Sys2Proof/Machine/Commands.lean ====
section
/-! DEFINITION. Running commands: scopes and order (R273), awls met on the way (R358 to R361), the state of the partition (R293, R294), formats (R265), and the checks of commands on objects (R412). -/

namespace Sys2Proof.Machine

/-! ### Order (R273) -/

def overlaps (a b : Cmd) : Bool :=
  match a.scope, b.scope with
  | .none, _ | _, .none => false
  | .inst, .inst | .inst, .part | .part, .inst => true
  | .inst, _ | _, .inst => false
  | .part, _ | _, .part => decide (a.part = b.part)
  | .sect, .sect => decide (a.part = b.part)
  | .sect, _ | _, .sect => false
  | .ctx, _ | _, .ctx => decide (a.part = b.part ∧ a.ctx = b.ctx)
  | .obj, .obj => decide (a.key = b.key)

/-- `PART_QUIESCE` and `PART_DESTROY` start without waiting. -/
def startsAtOnce (code : BitVec 16) : Bool := decide (code = 0x0203 ∨ code = 0x0204)

/-- The commands that arrived before one. -/
def cmdsBefore (id : Nat) : List Cmd → List Cmd
  | [] => []
  | c :: r => if c.id = id then [] else c :: cmdsBefore id r

/-- What is refused at once and does not wait behind the running command: a second `SECTION_BEGIN` (R194), `FW_STAGE` and `FW_APPLY` behind an `FW_APPLY` (R289, R291). -/
def refusedAtOnce (d c : Cmd) : Bool :=
  (decide (d.opcode = 0x0220 ∧ c.opcode = 0x0220) && d.phase.begun) ||
    decide (d.opcode = 0x0502 ∧ (c.opcode = 0x0501 ∨ c.opcode = 0x0502) ∧ d.phase = .waiting)

def State.cmdBehind (s : State) (c : Cmd) : Bool :=
  !startsAtOnce c.opcode && (cmdsBefore c.id s.msq.cmds).any fun d =>
    overlaps d c && !refusedAtOnce d c && match d.phase with
      | .remote _ => false
      | _ => true

/-- R368; `FW_APPLY` is refused while the fabric is hobbled (R291). -/
def hobbleRuns (code : BitVec 16) : Bool :=
  [0x0000, 0x0105, 0x0112, 0x0503, 0x0403, 0x0402, 0x0302, 0x0301, 0x0410, 0x0411, 0x0401, 0x0502].any
    fun n => decide (code.toNat = n)

/-- Work of commands on an object waits: its bank is dark, or work of a class ahead of commands is posted to it (R18, R99, R253, R339). Nothing of those classes runs while the engine is hobbled. -/
def State.cmdWaits (s : State) (k : OKey) : Bool := s.slotDark k || (!s.hobbling && s.heldAt 5 k)

/-- The objects in the banks that a command changes: its own, and all of a context or of a loading or replaced image (R261, R304, R309). -/
def State.cmdSlots (s : State) (c : Cmd) : List OKey :=
  if c.scope = .obj then [c.key]
  else if c.opcode = 0x0104 then s.boundSlots c.part c.ctx
  else if c.opcode = 0x0210 ∨ c.opcode = 0x0211 ∨ c.opcode = 0x0212 ∨
      (c.opcode = 0x0203 ∧ (s.part c.part).state = .loading) then s.partSlots c.part
  else []

/-- The bank work of a command waits; a `SNAPSHOT` reads through class 6, behind all posted work (R18). -/
def State.cmdHeld (s : State) (c : Cmd) : Bool :=
  (s.cmdSlots c).any s.cmdWaits ||
    (decide (c.opcode = 0x0403) && !s.hobbling && s.anyPosted 6)

/-- The opcode awl that the running sequencer hits on this command (R358, R360). -/
def State.opAwl (s : State) (q : Nat) (c : Cmd) : Option (BitVec 3) :=
  let x := s.seq (BitVec.ofNat 2 q)
  (x.awls.find? fun a =>
    a.2.1 && decide (a.2.2.setWidth 16 = c.opcode ∧ x.skip ≠ some a.1)).map (·.1)

/-- A sequencer has taken the command: the one that an awl let pass once (R360), or the one that a debug step lets pass. -/
def clearSkip (q : Nat) (c : Cmd) (s : State) : State :=
  s.modSeq (BitVec.ofNat 2 q) fun x =>
    let hit := x.awls.any fun a => a.2.1 && decide (a.2.2.setWidth 16 = c.opcode ∧ x.skip = some a.1)
    { x with skip := if hit then none else x.skip, dbgStep := false }

/-- The sequencer is halted by `DBG_SEQ` and takes no command (R387, log 47). -/
def State.seqHalted (s : State) (q : Nat) : Bool :=
  (s.seq (BitVec.ofNat 2 q)).dbgHalt && !(s.seq (BitVec.ofNat 2 q)).dbgStep

/-- A command can start now, but for an awl. -/
def State.canStart (s : State) (c : Cmd) : Bool :=
  s.running && decide (c.phase = .queued) && (!s.hobbling || hobbleRuns c.opcode) &&
    !s.cmdBehind c && !s.cmdHeld c &&
    ((s.runner c).any (fun q => !s.seqHalted q) || (!s.anyRunning && c.fromSup && sluRuns c.opcode))

/-- R361: a hit would leave no sequencer running. -/
def State.onlyRunning (s : State) (q : Nat) : Bool :=
  s.seqRunning q && !(List.range 4).any fun i => decide (i ≠ q) && s.seqRunning i

/-- R361: a miss. -/
def awlMiss (q : Nat) (s : State) : State :=
  let n : SeqNo := BitVec.ofNat 2 q
  report .awlSkipped .msq none (BitVec.ofNat 12 q) 0 0 0
    (s.modSeq n fun x =>
      { x with misses := if x.misses = 0xFFFF then x.misses else x.misses + 1 })

/-! ### Checks of every command -/

/-- R293, R294: the state of the command's partition forbids it; `IMAGE_BEGIN` in LOADING has its own cause (R302). -/
def State.partRefuses (s : State) (c : Cmd) : Option Word :=
  if !c.ofPart then none
  else
    match (s.part c.part).state with
    | .free => if c.opcode = 0x0201 then none else some (detState 0 0)
    | .loading =>
      if [0x0210, 0x0211, 0x0212, 0x0105, 0x0203, 0x0204].any fun n => decide (c.opcode.toNat = n) then none
      else some c.byState
    | _ => none

/-- A command starts: its partition's state, its format, then its own effect. `fmt` gives the offending fields of the opcode's own format rules. -/
def runCmd (c : Cmd) (fmt : Cmd → List (Nat × Nat)) (f : Cmd → State → State) (s : State) : State :=
  match s.partRefuses c with
  | some d => refuse c .rangeError d s
  | none =>
    match mrowOf c.opcode with
    | none => refuse c .formatError c.unknown s
    | some r =>
      match firstOffence (c.reserved r ++ fmt c) with
      | some (w, b) => refuse c .formatError (det w b) s
      | none => f c s

/-- A queued command starts the re-powering of its objects' gated banks (R339). -/
def askBank (c : Cmd) (s : State) : State :=
  if s.running ∧ c.phase = .queued then (s.cmdSlots c).foldl (fun s k => wakeSlot k s) s else s

/-- The row of an opcode: the queued command with this number starts, if its turn has come and no awl holds it. -/
def startCmd (code : Nat) (id : Nat) (fmt : Cmd → List (Nat × Nat)) (f : Cmd → State → State)
    (s : State) : State :=
  match s.cmd id with
  | none => s
  | some c =>
    if c.opcode.toNat ≠ code then s
    else if !s.canStart c then askBank c s
    else
      match s.runner c with
      | none => pump (runCmd c fmt f s)
      | some q =>
        match s.opAwl q c with
        | some _ =>
          if s.onlyRunning q then pump (runCmd c fmt f (awlMiss q (clearSkip q c s))) else s
        | none =>
          pump (runCmd c fmt f (clearSkip q c s))

/-- A command that waits; its limit counts from its acceptance (R194, R294). -/
def startWait (c : Cmd) (p : Phase) (s : State) : State := setPhase c.id p s

/-- No format rule besides reserved fields. -/
def noFmt : Cmd → List (Nat × Nat) := fun _ => []

/-- R412: checks of a command that names an object, in their order. `types` says on which the command acts. -/
def objCheck (c : Cmd) (types : Body → Bool) (s : State) : Option (Status × Word) :=
  let k := c.key
  let x := s.ctx k.part k.ctx
  match x.state with
  | .free => some (.noObject, 0)
  | .evicting | .evicted | .restoring => some (.evictedRetry, 0)
  | .resident =>
    if x.rowCount.toNat ≤ rowOff k.index ∨ s.bankAllowed k.part k.index = false then
      some (.rangeError, det 3 0)
    else
      match s.obj k with
      | none => some (.noObject, 0)
      | some o => if types o.body then none else some (.typeMismatch, 0)

/-- A memory error names the address parameter (R271). -/
def memFail (c : Cmd) (n : Nat) (s : State) : State := refuse c .rangeError (det n 0) s

end Sys2Proof.Machine
end

