-- ==== Sys2Proof/Machine/Registers.lean ====
section
/-! DEFINITION. The control register port: accesses and privilege (R389 to R393, R9, R254), the register map (R397 to R409), holds of multi-word reads (R394), staged writes (R395), command windows (R267 to R269), and the node digest (R311). -/

namespace Sys2Proof.Machine

/-! ### Node digest (R311) -/

/-- Bytes of a value, most significant first. -/
def beBytes (n : Nat) {w : Nat} (v : BitVec w) : List Byte := (bytesOf n v).reverse

/-- The number whose most significant byte comes first. -/
def beVal (w : Nat) (l : List Byte) : BitVec w := BitVec.ofNat w (natOf l.reverse)

/-- The image digest that counts for a partition: its own while it is `ACTIVE` and its image had `CENSUS`. -/
def Part.censusDigest (p : Part) : BitVec 384 :=
  if p.state = .active ∧ p.imgCensus then p.imgDigest else 0

/-- Running firmware version: zero while `OFF` or `REJECTED`. -/
def Seq.version (q : Seq) : Word := if q.code = 0 ∨ q.code = 4 then 0 else q.fwVersion

/-- The census string: 3,096 bytes. -/
def State.censusBytes (s : State) : List Byte :=
  ((List.range 4).flatMap fun i => bytesOf 4 (s.seq (BitVec.ofNat 2 i)).version) ++
  bytesOf 8 (if s.fab.nodeValid then s.fab.planDigest else 0) ++
  ((List.range 64).flatMap fun i => beBytes 48 (s.part (BitVec.ofNat 6 i)).censusDigest)

def State.nodeDigest (s : State) : BitVec 256 := (Config.sha384 s.censusBytes).extractLsb' 128 256

/-! ### Words of registers -/

/-- R382. -/
def Rake.word (r : Rake) : BitVec 256 :=
  r.detail ++ r.ref ++ r.node ++ r.id ++ r.count ++ 0#1 ++ b1 r.part.isSome ++ r.part.getD 0 ++
    0#4 ++ r.src ++ r.code ++ r.last ++ r.first

def rakeWord (r : Option Rake) (k : Nat) : Word :=
  match r with
  | some r => r.word.extractLsb' (32 * k) 32
  | none => 0

def Route.word (r : Route) : BitVec 16 := 0#2 ++ r.hops ++ b1 r.altV ++ r.alt ++ b1 r.priV ++ r.pri

def FpState.code : FpState → BitVec 3
  | .off => 0 | .down => 1 | .lcl => 2 | .up => 3 | .standby => 4 | .failed => 5 | .isolated => 6

def PState.code : PState → BitVec 3
  | .free => 0 | .unloaded => 1 | .loading => 2 | .loaded => 3 | .active => 4 | .quiescing => 5
  | .quiesced => 6

def Lc.code : Lc → BitVec 3
  | .blank => 0 | .provisioned => 1 | .debugUnlocked => 2 | .deployed => 3 | .retired => 4

def MapMode.code : MapMode → BitVec 2
  | .direct => 0 | .migrating => 1 | .distributed => 2

/-- `FAB_PORT_STATUS`. -/
def FPort.status (p : FPort) : Word :=
  p.farIncarn ++ (if p.farValid then p.helloNode else 0) ++ p.isoCause ++ b1 p.detour ++ b1 p.fault ++
    b1 p.linkUp ++ p.state.code

/-- `MSQ_STATUS` word `k`. -/
def Seq.word (q : Seq) (k : Nat) : Word :=
  match k with
  | 0 => q.misses ++ 0#8 ++ b1 q.awlKind ++ q.awl ++ q.code
  | 1 => q.pc
  | 2 => q.opcode ++ q.sqn ++ 0#2 ++ q.part
  | _ => q.version

/-- Load sessions open (`SLU_STATUS`). -/
def State.sessions (s : State) : Nat := (s.parts.filter fun p => p.2.load.isSome).length

/-- `CMD_CREDITS` (R268): a partition window has none while no sequencer runs. -/
def State.credits (s : State) (w : Win) : Nat :=
  if w.isSome ∧ !s.anyRunning then 0 else 8 - popcount (s.win w).slots

/-- A `SECTION_BEGIN` of the partition is pending. -/
def State.beginPending (s : State) (p : PartId) : Bool :=
  s.msq.cmds.any fun c => decide (c.opcode = 0x0220 ∧ c.part = p) && c.phase.begun

def State.partStatus (s : State) (p : PartId) : Word :=
  let x := s.part p
  0#7 ++ x.secCount ++ 0#1 ++ b1 (s.draining p) ++ b1 (s.beginPending p) ++ b1 x.sectionOpen ++
    b1 (s.isStrict p) ++ x.state.code

/-- A word of a 64-bit counter. -/
def half (v : DWord) (hi : Bool) : Word := if hi then v.extractLsb' 32 32 else v.extractLsb' 0 32

def replyWord (w : Window) (k : Nat) : Word :=
  match w.replies with
  | r :: _ => (r.2[k]?).getD 0
  | [] => 0

/-- Window registers at an offset. -/
def State.readWin (s : State) (p : PartId) (o : Nat) : Word :=
  let w := s.win (some p)
  let x := s.part p
  let i := o / 8 % 64
  let hi := decide (o % 8 = 4)
  if o < 0x40 then tgetD 0 w.words (o / 4)
  else if o = 0x40 then BitVec.ofNat 32 (s.credits (some p))
  else if o = 0x44 then BitVec.ofNat 32 w.replies.length
  else if o = 0x48 then w.irqStatus.setWidth 32
  else if o = 0x4C then w.irqEnable.setWidth 32
  else if o = 0x50 then s.partStatus p
  else if o = 0x54 then x.sectionNo
  else if o = 0x58 then x.dumpSeq ++ x.fenceSeq
  else if o = 0x60 then x.tackQuota ++ x.bankSet
  else if o = 0x64 then 0#2 ++ x.fabRes ++ x.mmSlots ++ x.otRes
  else if o = 0x68 then 0#1 ++ x.hsRes ++ x.wsRes
  else if 0x80 ≤ o ∧ o < 0xC0 then replyWord w ((o - 0x80) / 4)
  else if 0x400 ≤ o ∧ o < 0x600 then half (s.ctr p i) hi
  else if 0x600 ≤ o ∧ o < 0x800 then half (tgetD 0 s.obs.start (ctrKey p i)) hi
  else if 0x800 ≤ o ∧ o < 0xA00 then half (tgetD 0 s.obs.end_ (ctrKey p i)) hi
  else 0

/-- `SPARE_STATUS`. -/
def State.spareStatus (s : State) : Word :=
  let (run, src, dst) : Bool × Bank × Bank := match s.obk.retire with
    | some r => (true, r.src, r.dst.getD 0)
    | none => (false, 0, 0)
  0#2 ++ BitVec.ofNat 6 s.distCount ++ 0#1 ++ dst ++ src ++ b1 run ++ s.obk.spareRetired ++
    s.obk.spareUsed

/-- Global block. -/
def State.readGlobal (s : State) (a : Nat) : Word :=
  let w := s.win none
  let inc := if s.clk.hasParent then s.clk.rate else s.clk.timeInc
  if a = 0x00 then Config.idVersion
  else if a = 0x04 then s.slu.instClass ++ 0#16
  else if a = 0x08 then s.clk.straps.setWidth 32
  else if a = 0x0C then 0#16 ++ s.clk.warmCount ++ 0#3 ++ s.clk.cause
  else if a = 0x10 then
    0#16 ++ s.clk.timeDepth ++ 0#4 ++ b1 s.clk.grandmaster ++ b1 s.clk.timeLocked ++
      b1 s.clk.divAligned ++ b1 s.clk.rootLock
  else if a = 0x14 then s.clk.startupSeq.setWidth 32
  else if a = 0x18 then inc.extractLsb' 0 32
  else if a = 0x1C then (inc.extractLsb' 32 4).setWidth 32
  else if a = 0x20 then 0#16 ++ s.slu.svcCause ++ 0#6 ++ s.slu.svc
  else if a = 0x24 then s.spareStatus
  else if a = 0x28 then half s.time64 false
  else if a = 0x2C then half s.time64 true
  else if a = 0x40 then s.cr.irqStatus.setWidth 32
  else if a = 0x44 then s.cr.irqEnable.setWidth 32
  else if 0x60 ≤ a ∧ a < 0xA0 then (s.seq (BitVec.ofNat 2 ((a - 0x60) / 16))).word (a % 16 / 4)
  else if a = 0xA0 then b1 s.slu.pushEnd ++ 0#12 ++ s.slu.pushWord ++ 0#2
  else if 0x100 ≤ a ∧ a < 0x140 then tgetD 0 w.words ((a - 0x100) / 4)
  else if a = 0x140 then BitVec.ofNat 32 (s.credits none)
  else if a = 0x144 then BitVec.ofNat 32 w.replies.length
  else if 0x180 ≤ a ∧ a < 0x1C0 then replyWord w ((a - 0x180) / 4)
  else if a = 0x200 then s.ctm.tackBase.extractLsb' 0 32
  else if a = 0x204 then (s.ctm.tackBase.extractLsb' 32 16).setWidth 32
  else if a = 0x208 then s.ctm.tackSize.setWidth 32
  else if a = 0x210 then s.ctm.spillBase.extractLsb' 0 32
  else if a = 0x214 then (s.ctm.spillBase.extractLsb' 32 16).setWidth 32
  else if a = 0x218 then s.ctm.spillSize.setWidth 32
  else if 0x400 ≤ a ∧ a < 0x500 then
    let e := s.mapEntry ((a - 0x400) / 4)
    0#10 ++ e.dslot ++ 0#6 ++ e.mode.code ++ 0#1 ++ e.phys
  else if a = 0x500 then s.obk.gated.extractLsb' 0 32
  else if a = 0x504 then s.obk.gated.extractLsb' 32 32
  else if a = 0x508 then (s.obk.gated.extractLsb' 64 4).setWidth 32
  else 0

/-- A census range of the last bisection. -/
def Census.rangeWord (c : Census) (r : Nat) (hi : Bool) : Word :=
  match c.ranges[r]? with
  | some (lo, h, n) => if hi then n.setWidth 32 else h ++ lo
  | none => 0

/-- Observation block. -/
def State.readObs (s : State) (a : Nat) : Word :=
  let t := s.obs.trace
  let h := s.obs.hobble
  let c := s.fab.census
  let o := s.obs
  if a = 0x4000 then t.base.extractLsb' 0 32
  else if a = 0x4004 then (t.base.extractLsb' 32 16).setWidth 32
  else if a = 0x4008 then t.size
  else if a = 0x400C then
    0#5 ++ t.classMask ++ 0#12 ++ b1 (decide (8192 < t.staging.length)) ++ b1 t.full ++ b1 t.wrap ++
      b1 t.en
  else if a = 0x4010 then half t.pmask false
  else if a = 0x4014 then half t.pmask true
  else if a = 0x4018 then t.wptr
  else if a = 0x4040 then h.init ++ 0#12 ++ b1 h.regionFull ++ b1 h.incomplete ++ h.state
  else if a = 0x4044 then h.base.extractLsb' 0 32
  else if a = 0x4048 then (h.base.extractLsb' 32 16).setWidth 32
  else if a = 0x404C then h.size
  else if a = 0x4080 then
    0#16 ++ c.period ++ 0#4 ++ b1 c.bisectIe ++ b1 c.incompleteIe ++ b1 c.mismatchIe ++ b1 c.en
  else if a = 0x4084 then
    0#5 ++ b1 c.bisectDone ++ b1 c.incomplete ++ b1 c.mismatch ++ 0#4 ++ b1 c.bisecting ++
      b1 c.root ++ b1 c.complete ++ b1 c.isMatch ++ c.pass
  else if a = 0x4088 then c.count.setWidth 32
  else if a = 0x408C then c.expect.setWidth 32
  else if a = 0x4090 then BitVec.ofNat 32 c.ranges.length
  else if 0x40A0 ≤ a ∧ a < 0x40C0 then s.nodeDigest.extractLsb' (32 * ((a - 0x40A0) / 4)) 32
  else if 0x40C0 ≤ a ∧ a < 0x4140 then c.rangeWord ((a - 0x40C0) / 8) (decide (a % 8 = 4))
  else if a = 0x4140 then b1 o.sticky ++ o.overflow
  else if a = 0x4144 then BitVec.ofNat 32 o.rake.length
  else if 0x4160 ≤ a ∧ a < 0x4180 then rakeWord o.rakeFirst ((a - 0x4160) / 4)
  else if 0x4180 ≤ a ∧ a < 0x41A0 then rakeWord o.rakeLast ((a - 0x4180) / 4)
  else if 0x41A0 ≤ a ∧ a < 0x41C0 then rakeWord o.rake.head? ((a - 0x41A0) / 4)
  else if 0x4400 ≤ a ∧ a < 0x4600 then half (s.gctr ((a - 0x4400) / 8)) (decide (a % 8 = 4))
  else 0

def State.admitEntry (s : State) (e : Nat) : Admit := tgetD Admit.reset s.fab.admits e

/-- Fabric block. -/
def State.readFab (s : State) (a : Nat) : Word :=
  let f := s.fab
  if a = 0x8000 then 0#15 ++ b1 f.nodeValid ++ f.nodeId
  else if a = 0x8008 then half f.planDigest false
  else if a = 0x800C then half f.planDigest true
  else if a = 0x8010 then 0#12 ++ b1 s.clk.hasParent ++ s.clk.parentPort ++ s.clk.gmNode
  else if 0x8020 ≤ a ∧ a < 0x8040 then (s.fp (BitVec.ofNat 3 ((a - 0x8020) / 4))).status
  else if a = 0x8040 then f.scope.setWidth 32
  else if a = 0x8044 then f.cmdNode ++ 0#15 ++ b1 f.cmdEn
  else if a = 0x8048 then f.cmdMask.setWidth 32
  else if 0x9000 ≤ a ∧ a < 0x9800 then
    let e := s.admitEntry ((a - 0x9000) / 8)
    if a % 8 = 0 then e.mask ++ e.node
    else b1 e.valid ++ 0#17 ++ e.lpart ++ 0#1 ++ b1 e.spartAny ++ e.spart
  else if 0xA000 ≤ a ∧ a < 0xA200 then
    let i := (a - 0xA000) / 4
    (tgetD Route.reset f.groupRt (2 * i + 1)).word ++ (tgetD Route.reset f.groupRt (2 * i)).word
  else if 0xA200 ≤ a ∧ a < 0xA400 then
    let i := (a - 0xA200) / 4
    (tgetD Route.reset f.memberRt (2 * i + 1)).word ++ (tgetD Route.reset f.memberRt (2 * i)).word
  else 0

/-- Security and life-cycle block; `VERIFY_BUSY` reads 1 while a sequencer is being loaded and verified (R284, log 67). -/
def State.readSec (s : State) (a : Nat) : Word :=
  if a = 0xC000 then
    0#17 ++ BitVec.ofNat 7 s.slu.otp.svnFloor ++ 0#4 ++ b1 s.slu.lcPending.isSome ++ s.slu.lc.code
  else if a = 0xC008 then half s.slu.otp.uid false
  else if a = 0xC00C then half s.slu.otp.uid true
  else if a = 0xC010 then s.slu.engineReqid.setWidth 32
  else if a = 0xC014 then
    0#27 ++ b1 ((List.range 4).any fun q => decide ((s.seq (BitVec.ofNat 2 q)).code = 3)) ++ BitVec.ofNat 3 s.sessions ++ b1 s.slu.staged.isSome
  else if 0xC100 ≤ a ∧ a < 0xC200 then
    let x := s.part (BitVec.ofNat 6 ((a - 0xC100) / 4))
    b1 x.reqValid ++ 0#11 ++ x.reqIgnore ++ x.reqid
  else 0

/-- `AP_BIND`. -/
def Bind.word (b : Bind) : Word :=
  b1 b.valid ++ b1 b.busy ++ 0#13 ++ b1 b.mgmtEn ++ 0#5 ++ b.maxPrio ++ 0#2 ++ b.part

/-- The word that an address reads as. -/
def State.readReg (s : State) (a : Nat) : Word :=
  if a < 0x4000 then s.readGlobal a
  else if a < 0x8000 then s.readObs a
  else if a < 0xC000 then s.readFab a
  else if a < 0x10000 then s.readSec a
  else if a < 0x14000 then (s.bind (BitVec.ofNat 12 ((a - 0x10000) / 4))).word
  else if 0x40000 ≤ a ∧ a < 0x80000 then
    s.readWin (BitVec.ofNat 6 ((a - 0x40000) / 0x1000)) (a % 0x1000)
  else 0

/-! ### Access -/

/-- Regions of R397: the window's partition for a window. -/
inductive Region where
  | window (p : PartId)
  | glob | sec | sup
  | none
  deriving DecidableEq, Repr

def regionOf (a : Nat) : Region :=
  if a < 0x4000 then .glob
  else if 0xC000 ≤ a ∧ a < 0x10000 then .sec
  else if a < 0x14000 then .sup
  else if 0x40000 ≤ a ∧ a < 0x80000 then .window (BitVec.ofNat 6 ((a - 0x40000) / 0x1000))
  else .none

/-- R254: PARTITION privilege for a window. -/
def Part.admitsReq (p : Part) (r : ReqId) : Bool :=
  p.reqValid && decide (r.toNat / 2 ^ p.reqIgnore.toNat = p.reqid.toNat / 2 ^ p.reqIgnore.toNat)

/-- Answers of R392. -/
inductive Access where
  | good | err | priv
  deriving DecidableEq, Repr

def State.access (s : State) (write : Bool) (a : CrAddr) (acc : CrAcc) : Access :=
  let r := regionOf a.toNat
  if a.toNat % 4 ≠ 0 ∨ r = .none then .err
  else if s.slu.lc = .retired ∧ (write ∨ (r ≠ .glob ∧ r ≠ .sec)) then .err
  else
    match r with
    | .window p => if acc.priv ∨ (s.part p).admitsReq acc.reqid then .good else .priv
    | _ => if acc.priv then .good else .priv

/-- The port's response. -/
def respond (v : Word) (err : Bool) (s : State) : State :=
  s.modCr fun c => { c with valid := true, rdata := v, err }

/-- An access that the port does not take gets none (R389, R391). -/
def noResponse (s : State) : State := s.modCr fun c => { c with valid := false }

/-- R392, R9: an error response, with its report for a privilege failure. -/
def accessFail (x : Access) (a : CrAddr) (acc : CrAcc) (s : State) : State :=
  let s := respond 0 true s
  if x = .priv then report .crPriv .cru none 0 acc.reqid (a.setWidth 44) 0 s else s

/-- The port takes accesses once S0 has ended (R391). -/
def State.crReady (s : State) : Bool := decide (s.clk.boot ≠ .align)

/-! ### Reads (R394) -/

/-- Registers of several words that are read as one value: address of the lowest word and number of words. -/
def groupOf (a : Nat) : Option (Nat × Nat) :=
  let at_ := fun (base n size : Nat) => some (base + (a - base) / size * size, n)
  let o := a % 0x1000
  if 0x28 ≤ a ∧ a < 0x30 then at_ 0x28 2 8
  else if 0x60 ≤ a ∧ a < 0xA0 then at_ 0x60 4 16
  else if 0x180 ≤ a ∧ a < 0x1C0 then at_ 0x180 16 64
  else if 0x40A0 ≤ a ∧ a < 0x40C0 then at_ 0x40A0 8 32
  else if 0x4160 ≤ a ∧ a < 0x41C0 then at_ 0x4160 8 32
  else if 0x4400 ≤ a ∧ a < 0x4600 then at_ 0x4400 2 8
  else if 0x8008 ≤ a ∧ a < 0x8010 then at_ 0x8008 2 8
  else if 0xC008 ≤ a ∧ a < 0xC010 then at_ 0xC008 2 8
  else if 0x40000 ≤ a ∧ 0x80 ≤ o ∧ o < 0xC0 then at_ (a - o + 0x80) 16 64
  else if 0x40000 ≤ a ∧ 0x400 ≤ o ∧ o < 0xA00 then at_ (a - o + 0x400) 2 8
  else none

def setHold (a : CrAddr) (r : ReqId) (v : Word) (l : List (CrAddr × ReqId × Word)) :
    List (CrAddr × ReqId × Word) :=
  (a, r, v) :: l.filter fun h => !decide (h.1 = a ∧ h.2.1 = r)

/-- R393: before S3 every register reads as it resets: what R325 keeps or takes from the fuses reads as that (R10). -/
def State.crView (s : State) : State :=
  if s.clk.boot = .wipe then
    { State.reset with
      clk := { s.clk with time := 0, startupSeq := s.clk.instSeq, timeInc := s.clk.instInc }
      obk := s.obk
      slu := { Slu.reset with
        otp := s.slu.otp, lc := s.slu.lc, dbgLatch := s.slu.dbgLatch, svc := s.slu.instSvc
        svcCause := s.slu.svcCause, instClass := s.slu.instClass }
      fab := { Fab.reset with scope := s.fab.scope } }
  else s

/-- A good read: the lowest word of a register samples the others, an upper word is taken from its hold. -/
def readGood (a : CrAddr) (acc : CrAcc) (s : State) : State :=
  let v := s.crView
  match groupOf a.toNat with
  | none => respond (v.readReg a.toNat) false s
  | some (base, n) =>
    if a.toNat = base then
      let hs := (List.range (n - 1)).foldl (fun l i =>
        setHold (BitVec.ofNat 20 (base + 4 * (i + 1))) acc.reqid (v.readReg (base + 4 * (i + 1))) l)
        s.cr.holds
      respond (v.readReg base) false (s.modCr fun c => { c with holds := hs })
    else
      let mine := fun (h : CrAddr × ReqId × Word) => decide (h.1 = a ∧ h.2.1 = acc.reqid)
      match s.cr.holds.find? mine with
      | some h =>
        respond h.2.2 false (s.modCr fun c => { c with holds := c.holds.filter fun h => !mine h })
      | none => respond (v.readReg a.toNat) false s

/-- A read access. -/
def crRead (a : CrAddr) (acc : CrAcc) (s : State) : State :=
  if !s.crReady then noResponse s
  else
    match s.access false a acc with
    | .good => readGood a acc s
    | x => accessFail x a acc s

/-- A read at any address of the port. -/
def execMultiwordRead (addr : CrAddr) (acc : CrAcc) (s : State) : Out := .next (crRead addr acc s)

/-! ### Windows (R267 to R269) -/

/-- A staging word other than word 15. -/
def stageWord (w : Win) (k : Nat) (v : Word) (s : State) : State :=
  s.modWin w fun x => { x with words := tput 0 x.words k v, mask := setBit x.mask k }

/-- R268: the write of word 15 found no slot. -/
def overrun (w : Win) (s : State) : State :=
  let s := match w with
    | some p => raisePart p 1 s
    | none => raiseGlobal 1 s
  report .cmdOverrun .msq w 0 0 0 0 s

/-- R267, R268: the write of word 15. -/
def submit (w : Win) (acc : CrAcc) (s : State) : State :=
  let x := s.win w
  match lowest (fun i => !x.slots.getLsbD i) Config.cmdSlots with
  | none => overrun w s
  | some slot =>
    if w.isSome ∧ !s.anyRunning then overrun w s
    else
      let words := ((List.range 15).map fun i => tgetD 0 x.words i) ++ [acc.wdata]
      let missing := lowest (fun i => !x.mask.getLsbD i) 15
      let s := s.modWin w fun x =>
        { x with words := tput 0 x.words 15 acc.wdata, mask := 0, slots := setBit x.slots slot }
      arrive { id := s.msq.nextId, src := .win w slot, sup := acc.priv, words, phase := .queued,
               at_ := s.now } none missing s

/-- R334: popping the reply of the accepted transition makes its reset due. -/
def popLc (w : Win) (slot : Nat) (s : State) : State :=
  match s.slu.lcPending with
  | some (t, src, due) =>
    if src = some (w, slot) then
      s.modSlu fun x => { x with lcPending := some (t, src, min due s.now) }
    else s
  | none => s

/-- R269: the oldest reply goes and its slot is free. -/
def replyPop (w : Win) (s : State) : State :=
  match (s.win w).replies with
  | [] => s
  | r :: rest =>
    popLc w r.1 (s.modWin w fun x => { x with replies := rest, slots := clearBit x.slots r.1 })

/-- W1C of a partition's `IRQ_STATUS`: `CMD_REPLY` stays while a reply is queued. -/
def clearIrq (p : PartId) (v : Word) (s : State) : State :=
  s.modWin (some p) fun x =>
    let m : BitVec 4 := v.setWidth 4
    let m := if x.replies = [] then m else m &&& 0xE
    { x with irqStatus := x.irqStatus &&& ~~~m }

def writeWin (p : PartId) (o : Nat) (acc : CrAcc) (s : State) : State :=
  if o < 0x3C then stageWord (some p) (o / 4) acc.wdata s
  else if o = 0x3C then submit (some p) acc s
  else if o = 0x44 then if acc.wdata.getLsbD 31 then replyPop (some p) s else s
  else if o = 0x48 then clearIrq p acc.wdata s
  else if o = 0x4C then s.modWin (some p) fun x => { x with irqEnable := acc.wdata.setWidth 4 }
  else s

/-! ### Staged writes (R395) -/

def stage (a : Nat) (v : Word) (s : State) : State :=
  s.modCr fun c => { c with staged := tset c.staged a v }

/-- The staged word at an address, or the current one; the stage is empty afterwards. -/
def unstage (a : Nat) (s : State) : Word × State :=
  ((tget s.cr.staged a).getD (s.readReg a), s.modCr fun c => { c with staged := tdel c.staged a })

/-! ### Global block writes -/

/-- R321: three codes in some order. -/
def seqOk (v : BitVec 6) : Bool := [0x39, 0x36, 0x27, 0x2D, 0x1E, 0x1B].any fun n => decide (v.toNat = n)

/-- R317: `TIME_INC`; without a time parent, an instance that has never locked runs at the value written (R238). -/
def writeTimeInc (v : Word) (s : State) : State :=
  let (lo, s) := unstage 0x18 s
  let i : BitVec 4 := v.setWidth 4
  if (i = 1 ∨ i = 2) ∧ !s.clk.hasParent then
    s.modClk fun c => { c with timeInc := i ++ lo }
  else s

/-- R400: no context is out. -/
def State.tackLocked (s : State) : Bool :=
  s.ctm.dir.any fun e => decide (e.2.state = .evicting ∨ e.2.state = .evicted ∨ e.2.state = .restoring)

def State.spillLocked (s : State) : Bool := decide (s.spilledCount ≠ 0)

/-- The push registers are writable (R288). -/
def State.pushOpen (s : State) : Bool :=
  decide (s.bootSrc = 1) && !(List.range 4).any fun i =>
    decide ((s.seq (BitVec.ofNat 2 i)).code = 1 ∨ (s.seq (BitVec.ofNat 2 i)).code = 3)

def writePushPtr (v : Word) (s : State) : State :=
  if s.pushOpen then
    s.modSlu fun x => { x with pushWord := v.extractLsb' 2 17, pushEnd := false }
  else s

/-- R288: a word at `WORD`, which advances; the last word ends the push. -/
def writePushData (v : Word) (s : State) : State :=
  if s.pushOpen ∧ s.slu.pushEnd = false then
    s.modSlu fun x =>
      { x with
        fwMem := tput 0 x.fwMem x.pushWord.toNat v
        pushWord := if x.pushWord = 0x1FFFF then x.pushWord else x.pushWord + 1
        pushEnd := decide (x.pushWord = 0x1FFFF) }
  else s

/-- R336: `ADVISE` returns to `OK`. -/
def clearAdvise (s : State) : State :=
  if s.slu.svc = 1 then s.modSlu fun x => { x with svc := 0 } else s

def writeGlobal (a : Nat) (acc : CrAcc) (s : State) : State :=
  let v := acc.wdata
  if a = 0x14 then
    if seqOk (v.setWidth 6) then s.modClk fun c => { c with startupSeq := v.setWidth 6 } else s
  else if a = 0x18 then stage a v s
  else if a = 0x1C then writeTimeInc v s
  else if a = 0x20 then if v.getLsbD 2 then clearAdvise s else s
  else if a = 0x40 then
    let m : BitVec 12 := v.setWidth 12
    let m := if (s.win none).replies = [] then m else m &&& 0xFFE
    s.modCr fun c => { c with irqStatus := c.irqStatus &&& ~~~m }
  else if a = 0x44 then s.modCr fun c => { c with irqEnable := v.setWidth 12 }
  else if a = 0xA0 then writePushPtr v s
  else if a = 0xA4 then writePushData v s
  else if 0x100 ≤ a ∧ a < 0x13C then stageWord none ((a - 0x100) / 4) v s
  else if a = 0x13C then submit none acc s
  else if a = 0x144 then if v.getLsbD 31 then replyPop none s else s
  else if a = 0x200 ∨ a = 0x210 then stage a v s
  else if a = 0x204 then
    let (lo, s) := unstage 0x200 s
    if s.tackLocked then s
    else s.modCtm fun m => { m with
      tackBase := (v.extractLsb' 0 16 : BitVec 16) ++ (lo.extractLsb' 16 16 : BitVec 16) ++ 0#16 }
  else if a = 0x208 then
    if s.tackLocked then s else s.modCtm fun m => { m with tackSize := v.setWidth 24 }
  else if a = 0x214 then
    let (lo, s) := unstage 0x210 s
    if s.spillLocked then s
    else s.modCtm fun m => { m with
      spillBase := (v.extractLsb' 0 16 : BitVec 16) ++ (lo.extractLsb' 12 20 : BitVec 20) ++ 0#12 }
  else if a = 0x218 then
    if s.spillLocked then s else s.modCtm fun m => { m with spillSize := v.setWidth 24 }
  else s

/-! ### Observation block writes -/

/-- R385. -/
def errlogClear (s : State) : State :=
  s.modObs fun o =>
    { o with rake := [], rakeFirst := none, rakeLast := none, overflow := 0, sticky := false }

def errlogPop (s : State) : State := s.modObs fun o => { o with rake := o.rake.drop 1 }

/-- `TRACE_CTL`: `EN` cannot be set while no region is given. -/
def writeTraceCtl (v : Word) (s : State) : State :=
  modTrace (fun t =>
    { t with
      en := if v.getLsbD 0 ∧ t.size = 0 then t.en else v.getLsbD 0
      wrap := v.getLsbD 1
      full := t.full && !v.getLsbD 2
      classMask := v.extractLsb' 16 11 }) s

/-- `CENSUS_CTL`. -/
def writeCensusCtl (v : Word) (s : State) : State :=
  s.modCensus fun c =>
    { c with
      en := v.getLsbD 0, mismatchIe := v.getLsbD 1, incompleteIe := v.getLsbD 2
      bisectIe := v.getLsbD 3
      period := if v.extractLsb' 8 8 = 0 then c.period else v.extractLsb' 8 8 }

def writeObs (a : Nat) (acc : CrAcc) (s : State) : State :=
  let v := acc.wdata
  let t := s.obs.trace
  let hob := decide (s.obs.hobble.state ≠ 0)
  if a = 0x4000 ∨ a = 0x4010 ∨ a = 0x4044 then stage a v s
  else if a = 0x4004 then
    let (lo, s) := unstage 0x4000 s
    if t.en then s
    else modTrace (fun t =>
      { t with base := (v.extractLsb' 0 16 : BitVec 16) ++ (lo.extractLsb' 6 26 : BitVec 26) ++ 0#6,
               wptr := 0 }) s
  else if a = 0x4008 then
    if t.en then s
    else modTrace (fun t => { t with size := (v.extractLsb' 12 20 : BitVec 20) ++ 0#12, wptr := 0 }) s
  else if a = 0x400C then writeTraceCtl v s
  else if a = 0x4014 then
    let (lo, s) := unstage 0x4010 s
    if t.en then s else modTrace (fun t => { t with pmask := v ++ lo }) s
  else if a = 0x4048 then
    let (lo, s) := unstage 0x4044 s
    if hob then s
    else s.modHob fun h =>
      { h with base := (v.extractLsb' 0 16 : BitVec 16) ++ (lo.extractLsb' 6 26 : BitVec 26) ++ 0#6 }
  else if a = 0x404C then
    if hob then s else s.modHob fun h => { h with size := (v.extractLsb' 12 20 : BitVec 20) ++ 0#12 }
  else if a = 0x4080 then writeCensusCtl v s
  else if a = 0x4084 then
    s.modCensus fun c =>
      { c with
        mismatch := c.mismatch && !v.getLsbD 24, incomplete := c.incomplete && !v.getLsbD 25
        bisectDone := c.bisectDone && !v.getLsbD 26 }
  else if a = 0x4144 then
    if v.getLsbD 17 then errlogClear s else if v.getLsbD 16 then errlogPop s else s
  else s

/-! ### Fabric, security and binding writes -/

/-- `SCOPE` bits of ports that are `OFF` or `DOWN`. -/
def scopeBits (v : Byte) (s : State) : Byte :=
  (List.range 8).foldl (fun (m : Byte) i =>
    let st := (s.fp (BitVec.ofNat 3 i)).state
    if st = .off ∨ st = .down then
      if v.getLsbD i then setBit m i else clearBit m i
    else m) s.fab.scope

/-- R406: a `FAB_ADMIT` entry. -/
def writeAdmit (e : Nat) (v : Word) (s : State) : State :=
  let (lo, s) := unstage (0x9000 + 8 * e) s
  let x : Admit :=
    { valid := v.getLsbD 31, node := lo.extractLsb' 0 16, mask := lo.extractLsb' 16 16
      spart := v.extractLsb' 0 6, spartAny := v.getLsbD 6, lpart := v.extractLsb' 8 6 }
  if x.valid ∧ (s.part x.lpart).state = .free then s
  else s.modFab fun f => { f with admits := tput Admit.reset f.admits e x }

def writeFab (a : Nat) (acc : CrAcc) (s : State) : State :=
  let v := acc.wdata
  if a = 0x8040 then s.modFab fun f => { f with scope := scopeBits (v.setWidth 8) s }
  else if a = 0x8044 then stage a v s
  else if a = 0x8048 then
    let (lo, s) := unstage 0x8044 s
    s.modFab fun f =>
      { f with cmdEn := lo.getLsbD 0, cmdNode := lo.extractLsb' 16 16, cmdMask := v.setWidth 16 }
  else if 0x9000 ≤ a ∧ a < 0x9800 then
    if a % 8 = 0 then stage a v s else writeAdmit ((a - 0x9000) / 8) v s
  else s

def writeSec (a : Nat) (acc : CrAcc) (s : State) : State :=
  let v := acc.wdata
  if a = 0xC010 then s.modSlu fun x => { x with engineReqid := v.setWidth 16 }
  else if 0xC100 ≤ a ∧ a < 0xC200 then
    s.modPart (BitVec.ofNat 6 ((a - 0xC100) / 4)) fun p =>
      { p with reqid := v.setWidth 16, reqIgnore := v.extractLsb' 16 4, reqValid := v.getLsbD 31 }
  else s

def writeReg (a : Nat) (acc : CrAcc) (s : State) : State :=
  if a < 0x4000 then writeGlobal a acc s
  else if a < 0x8000 then writeObs a acc s
  else if a < 0xC000 then writeFab a acc s
  else if a < 0x10000 then writeSec a acc s
  else if a < 0x14000 then bindWrite (BitVec.ofNat 12 ((a - 0x10000) / 4)) acc.wdata s
  else if 0x40000 ≤ a ∧ a < 0x80000 then
    writeWin (BitVec.ofNat 6 ((a - 0x40000) / 0x1000)) (a % 0x1000) acc s
  else s

/-- A write access (R392, R393): before S3 only the global block takes writes. -/
def crWrite (a : CrAddr) (acc : CrAcc) (s : State) : State :=
  if !s.crReady then noResponse s
  else
    match s.access true a acc with
    | .good =>
      let s := respond 0 false s
      if s.running ∨ regionOf a.toNat = .glob then writeReg a.toNat acc s else s
    | x => accessFail x a acc s

def execRegisterWrite (addr : CrAddr) (acc : CrAcc) (s : State) : Out := .next (crWrite addr acc s)

/-- `AP_BIND[a]` is at 0x1_0000 + 4a (R401). -/
def execApBindWrite (agent : AgentId) (acc : CrAcc) (s : State) : Out :=
  .next (crWrite (BitVec.ofNat 20 (0x10000 + 4 * agent.toNat)) acc s)

/-- Address of a window's word 15 and of its `REPLY_COUNT` (R398, R408). -/
def submitAddr : Win → CrAddr
  | none => 0x0013C
  | some p => BitVec.ofNat 20 (0x4003C + 0x1000 * p.toNat)
def popAddr : Win → CrAddr
  | none => 0x00144
  | some p => BitVec.ofNat 20 (0x40044 + 0x1000 * p.toNat)

def execCmdSubmit (w : Win) (acc : CrAcc) (s : State) : Out := .next (crWrite (submitAddr w) acc s)

/-- 1 is written to `REPLY_POP`. -/
def execReplyPop (w : Win) (acc : CrAcc) (s : State) : Out :=
  .next (crWrite (popAddr w) { acc with wdata := 0x80000000 } s)

/-- 1 is written to `CLEAR_ADVISE`. -/
def execClearAdvise (acc : CrAcc) (s : State) : Out :=
  .next (crWrite 0x00020 { acc with wdata := 0x4 } s)

/-- 1 is written to `ERRLOG_POP`. -/
def execErrlogPop (acc : CrAcc) (s : State) : Out :=
  .next (crWrite 0x04144 { acc with wdata := 0x10000 } s)

/-- 1 is written to `ERRLOG_CLEAR`. -/
def execErrlogClear (acc : CrAcc) (s : State) : Out :=
  .next (crWrite 0x04144 { acc with wdata := 0x20000 } s)

def execFwPushData (acc : CrAcc) (s : State) : Out := .next (crWrite 0x000A4 acc s)
def execFwPushPtrWrite (acc : CrAcc) (s : State) : Out := .next (crWrite 0x000A0 acc s)

end Sys2Proof.Machine
end

