-- ==== Sys2Proof/Machine/Destroy.lean ====
section
/-! DEFINITION. Destroying objects (R45, R46), contexts (R261), and what a partition leaves behind. -/

namespace Sys2Proof.Machine

/-- R187: `HELD_COUNT` of the `LANDING` object falls by one; that of an object whose context is out follows at its restore. -/
def lowerHeld (k : OKey) (s : State) : State :=
  match s.obj k with
  | some ⟨_, .landing l⟩ => s.setBody k (.landing { l with heldCount := l.heldCount - 1 })
  | _ => s

/-- R45 step 2: a held entry that names a destroyed object is dropped with a report; a window that closes may have waited for it (R161). -/
def loseHeld (h : Held) (s : State) : State :=
  let s := report .heldDropped .lcu (some h.target.part) h.agent h.node (s.keyRef h.target) 0 s
  let s := dropHeld h (if h.posted then s else lowerHeld h.land s)
  if h.commit then closeAt h.target s else s

/-- Held entries that name an object: as the target, or as the `LANDING` object they still wait on. -/
def State.heldOn (s : State) (k : OKey) : List Held :=
  s.lcu.held.filter fun h => decide ((h.land = k ∧ h.posted = false) ∨ h.target = k)

/-- Destruction ends a holding (R133, R128): inheritance, lease, and the entry at the holder's instance. -/
def loseLock (k : OKey) (l : Lock) (s : State) : State :=
  if l.held then
    let s :=
      if l.holdPrio.toNat < l.effPrio.toNat then sendInherit k l true l.holdPrio 0 0 s else s
    if l.holderNode = s.fab.nodeId then delHolding l.holderAgent s.fab.nodeId k s
    else
      fabSend 5 l.holderNode
        (grantBody 0 k.ctx k.index l.holderAgent (Op.code .lock) true l.policy 0) s
  else s

/-- What a type leaves outside its word. -/
def loseBody (k : OKey) (b : Body) (s : State) : State :=
  match b with
  | .lock l => loseLock k l s
  | .ring _ =>
    match s.descOf k with
    | some (i, _) => s.delDesc i
    | none => s
  | .landing l =>
    let s := if (l.armed || l.underflow) && l.sectn then secDown k.part s else s
    delArm k (s.modLcu fun c => { c with decs := c.decs.filter fun d => decide (d.key ≠ k) })
  | _ => s

/-- R45: the object goes, with everything that names it, in the order of the rule. -/
def destroyObject (k : OKey) (o : Obj) (s : State) : State :=
  let r := takeWaiters k (fun _ => true) s
  let s := wakeAll r.1 .noObject 0 (0, 0, 5) r.2
  let s := (s.heldOn k).foldl (fun s h => loseHeld h s) s
  let s := loseBody k o.body s
  let s := s.modObs fun x => { x with watches := x.watches.filter fun w => decide (w.key ≠ k) }
  let s := s.modTdu fun t =>
    { t with
      deadlines := t.deadlines.filter fun d => decide (d.key ≠ k)
      leases := t.leases.filter fun d => decide (d.key ≠ k) }
  let s := dropDue k s
  let s := s.modWmc fun m =>
    { m with
      records := m.records.filter fun r => decide (r.key ≠ k)
      early := m.early.filter fun r => decide (r.key ≠ k)
      fetching := m.fetching.filter fun x => decide (x ≠ k) }
  let s := delFence (fun f => decide (f.key = k)) s
  s.delObj k

/-- Objects of a context wherever it is. -/
def State.ctxObjs (s : State) (p : PartId) (c : CtxId) : List (OKey × Obj) :=
  if s.inBanks p c then
    (s.boundSlots p c).filterMap fun k => (s.obj k).map fun o => (k, o)
  else
    match s.tackRec p c with
    | some r => r.objs.map fun o => (⟨p, c, o.1⟩, o.2)
    | none => []

/-- An object of the context is a stitch-tree node. -/
def State.ctxHasTree (s : State) (p : PartId) (c : CtxId) : Bool :=
  (s.ctxObjs p c).any fun o => o.2.hdr.tree

/-- The record of a context and its blocks go. -/
def dropTack (p : PartId) (c : CtxId) (zero : Bool) (s : State) : State :=
  match s.tackRec p c with
  | some r =>
    let s := if zero then zeroTack r s else s
    s.modCtm fun m => { m with tack := m.tack.filter fun r => !decide (r.part = p ∧ r.ctx = c) }
  | none => s

/-- Held entries that wait for a context. -/
def State.heldFor (s : State) (p : PartId) (c : CtxId) : List Held :=
  s.lcu.held.filter fun h => decide (h.target.part = p ∧ h.target.ctx = c)

/-- R261: every object of the context is destroyed, then the context is `FREE`; entries that wait for a slot which is not bound go too when the context is out. A Hobble's cut ends a session at once (R308): its dark banks re-power with it (R339, log 75). Answers the slots destroyed. -/
def destroyCtx (p : PartId) (c : CtxId) (s : State) : Nat × State :=
  let l := s.ctxObjs p c
  let out := s.ctxOut p c
  let s := l.foldl (fun s x => wakeSlot x.1 s) s
  let s := l.foldl (fun s x => destroyObject x.1 x.2 (inner 5 s)) s
  let s := if out then (s.heldFor p c).foldl (fun s h => loseHeld h s) s else s
  let s := dropTack p c true s
  (l.length, s.setCtx p c Ctx.reset)

end Sys2Proof.Machine
end

