-- ==== Sys2Proof/Machine/Contexts.lean ====
section
/-! DEFINITION. Context commands (R239 to R251, R261), eviction and restore, and the spill of waiter-store entries (R252, R253). -/

namespace Sys2Proof.Machine

/-! ### Rows -/

/-- Row ranges in use, base and count: those of the contexts, and those that a running distribution has reserved (R343). -/
def State.rowRanges (s : State) : List (Nat × Nat) :=
  ((s.ctm.dir.filter fun e =>
    decide (e.2.state = .resident ∨ e.2.state = .evicting ∨ e.2.state = .restoring)).map fun e =>
      (e.2.rowBase.toNat, e.2.rowCount.toNat)) ++
    match s.obk.retire with
    | some r => r.moves.map (·.2)
    | none => []

/-- The limit below which rows are allocated: `ROW_LIMIT`, already lowered while a distribution runs (R343). -/
def State.allocLimit (s : State) : Nat :=
  match s.obk.retire with
  | some r => if r.dst = none then s.rowLimit - 256 else s.rowLimit
  | none => s.rowLimit

/-- The smaller of two optional numbers. -/
def minOpt : Option Nat → Nat → Option Nat
  | none, n => some n
  | some m, n => some (min m n)

/-- The lowest base at which `n` rows are free below a limit, given the ranges in use: zero, or the end of one of them. -/
def lowestFit (rs : List (Nat × Nat)) (lim n : Nat) : Option Nat :=
  ((0 :: rs.map fun r => r.1 + r.2).filter fun b =>
    decide (b + n ≤ lim) && rs.all fun r => decide (b + n ≤ r.1 ∨ r.1 + r.2 ≤ b)).foldl minOpt none

/-- R241. -/
def State.allocRows (s : State) (n : Nat) : Option Nat := lowestFit s.rowRanges s.allocLimit n

/-- Directory entries that macros removed from service leave (R19). -/
def State.dirFull (s : State) : Bool :=
  decide (16384 - s.lostEntries .directory ≤
    (s.ctm.dir.filter fun e => decide (e.2.state ≠ .free)).length)

/-- Contexts resident or restoring. -/
def State.residents (s : State) : Nat :=
  (s.ctm.dir.filter fun e => decide (e.2.state = .resident ∨ e.2.state = .restoring)).length

/-! ### Counts of the directory entry (R239) -/

def State.heldIn (s : State) (p : PartId) (c : CtxId) : Nat :=
  (s.lcu.held.filter fun h => decide (h.target.part = p ∧ h.target.ctx = c)).length

def isRing : Body → Bool
  | .ring _ => true
  | _ => false

def CState.code : CState → BitVec 3
  | .free => 0 | .resident => 1 | .evicting => 2 | .evicted => 3 | .restoring => 4

/-- Bits [383:0] of a directory entry. -/
def State.dirWord (s : State) (p : PartId) (c : CtxId) : BitVec 384 :=
  let x := s.ctx p c
  let os := s.ctxObjs p c
  let log := ((s.tackRec p c).map fun r => r.defer.length).getD 0
  x.restoreTime ++ x.evictTime ++ 0#12 ++ BitVec.ofNat 22 log ++ BitVec.ofNat 13 (s.heldIn p c) ++
    BitVec.ofNat 24 (s.ctxEntries p c true) ++ BitVec.ofNat 19 (s.ctxEntries p c false) ++
    BitVec.ofNat 17 (os.filter fun o => isRing o.2.body).length ++ BitVec.ofNat 21 os.length ++
    0#6 ++ x.tackBlocks ++ x.tackPtr ++ 0#27 ++ x.rowCount ++ x.rowBase ++ 0#3 ++ b1 x.evictHit ++
    b1 x.remoteEn ++ x.state.code

/-! ### CTX_CREATE, CTX_DESTROY, CTX_QUERY -/

/-- R241. -/
def ctxCreate (c : Cmd) (s : State) : State :=
  let n : BitVec 15 := c.field 3 0 15
  if n = 0 ∨ 16384 < n.toNat then refuse c .rangeError (det 3 0) s
  else if (s.ctx c.part c.ctx).state ≠ .free ∨ Config.residentContexts ≤ s.residents ∨ s.dirFull then
    refuse c .rangeError (detState 2 0) s
  else
    match s.allocRows n.toNat with
    | none => refuse c .rangeError (detState 2 0) s
    | some b =>
      ok c [BitVec.ofNat 32 b] (s.setCtx c.part c.ctx
        { Ctx.reset with
          state := .resident, remoteEn := c.bit 2 8, rowBase := BitVec.ofNat 14 b, rowCount := n })

def execCtxCreate (id : Nat) (s : State) : Out := .next (startCmd 0x0101 id noFmt ctxCreate s)

/-- R261; a destroy that meets a transition waits. -/
def ctxDestroy (c : Cmd) (s : State) : State :=
  match (s.ctx c.part c.ctx).state with
  | .free => refuse c .noObject 0 s
  | .evicting | .restoring => s
  | .resident | .evicted =>
    if s.ctxHasTree c.part c.ctx then refuse c .rangeError (detState 2 0) s
    else
      let r := destroyCtx c.part c.ctx s
      ok c [BitVec.ofNat 32 r.1] r.2

def execCtxDestroy (id : Nat) (s : State) : Out := .next (startCmd 0x0104 id noFmt ctxDestroy s)

/-- R239. -/
def ctxQuery (c : Cmd) (s : State) : State := ok c (toWords 12 (s.dirWord c.part c.ctx)) s

def execCtxQuery (id : Nat) (s : State) : Out := .next (startCmd 0x0105 id noFmt ctxQuery s)

/-! ### Eviction -/

/-- The lowest run of `n` free blocks of the record region. -/
def State.allocTack (s : State) (n : Nat) : Option Nat :=
  lowestFit (s.ctm.tack.map fun r => (r.block, r.blocks)) s.ctm.tackSize.toNat n

def State.tackUsed (s : State) (p : PartId) : Nat :=
  ((s.ctm.tack.filter fun r => decide (r.part = p)).map (·.blocks)).sum

/-- Blocks that a context's record takes, its whole deferral log included. -/
def State.tackNeed (s : State) (p : PartId) (c : CtxId) : Nat :=
  let mine := fun (k : OKey) => decide (k.part = p ∧ k.ctx = c)
  let os := s.ctxObjs p c
  let rings := s.trk.descs.filter fun d => mine d.2.key
  (tackLen (s.ctx p c).rowCount.toNat os.length rings.length
    (rings.filter fun d => d.2.win.isSome).length
    (s.wmc.records.filter fun r => mine r.key).length
    (s.olu.fences.filter fun f => mine f.key).length + 65535) / 65536

/-- An object that keeps its context in: `TREE` or `HOLD`. -/
def holdsIn (o : Obj) : Bool :=
  o.hdr.tree || match o.body with
    | .barrier b => b.hold
    | _ => false

/-- R244. -/
def ctxEvict (c : Cmd) (s : State) : State :=
  let p := c.part
  let x := s.ctx p c.ctx
  let need := s.tackNeed p c.ctx
  let quota := (s.part p).tackQuota.toNat
  if x.state ≠ .resident ∨ (s.ctxObjs p c.ctx).any (fun o => holdsIn o.2) ∨
      (quota ≠ 0 ∧ quota < s.tackUsed p + need) ∨
      s.spillCap < s.spillUsed + s.ctxEntries p c.ctx false then
    refuse c .rangeError (detState 2 0) s
  else
    match s.allocTack need with
    | none => refuse c .rangeError (detState 2 0) s
    | some b =>
      let r : TackRec :=
        { part := p, ctx := c.ctx, remoteEn := x.remoteEn, rowCount := x.rowCount, evictTime := s.time64
          incarn := s.clk.incarnation, node := s.fab.nodeId, block := b, blocks := need, objs := [], rings := []
          records := [], fences := [], defer := [] }
      let s := s.modCtm fun m => { m with tack := m.tack ++ [r] }
      -- work posted before this edge is still performed (R245)
      let s := s.modLcu fun l =>
        { l with held := l.held.map fun h =>
            if h.posted ∧ h.target.part = p ∧ h.target.ctx = c.ctx then { h with preEvict := true } else h }
      setPhase c.id .waiting (s.setCtx p c.ctx
        { x with
          state := .evicting, tackPtr := BitVec.ofNat 42 (s.tackAddr r / 64)
          tackBlocks := BitVec.ofNat 16 need })

def execCtxEvict (id : Nat) (s : State) : Out := .next (startCmd 0x0102 id noFmt ctxEvict s)

/-- The command of an opcode that waits on a context. -/
def State.waitingOn (s : State) (code : Nat) (p : PartId) (c : CtxId) : Option Cmd :=
  s.msq.cmds.find? fun x =>
    decide (x.opcode.toNat = code ∧ x.part = p ∧ x.ctx = c ∧ x.phase = .waiting)

/-- R245 step 2: operations that OPR accepted before the eviction, decrements, or expiries and entries posted before it remain. -/
def State.ctxBusy (s : State) (p : PartId) (c : CtxId) : Bool :=
  (s.opr.ops.any fun e => decide (e.part = p ∧ e.req.ctx = c ∧ e.xlat = some .ok) && e.st.open_) ||
    (s.opr.expiring.any fun d => decide (d.key.part = p ∧ d.key.ctx = c) && !s.expiryLogged d) ||
    (s.lcu.decs.any fun d => decide (d.key.part = p ∧ d.key.ctx = c)) ||
    s.lcu.held.any fun h => h.preEvict && decide (h.target.part = p ∧ h.target.ctx = c)

/-- Counter 59 and `GCTR[29]` for entries spilled. -/
def countSpill (p : PartId) (n : Nat) (s : State) : State := gcountN 29 n (countN p 59 n s)

/-! ### The spill region (log 21) -/

/-- An entry of the spill region is written: its place in the region and its 16 bytes are open. -/
def spillBytes (s : State) : State :=
  let (v, s) := fresh s
  let (w, s) := fresh s
  let (x, s) := fresh s
  let a := s.ctm.spillBase.toNat + 16 * (v.toNat % s.spillCap)
  mmWrite s.slu.engineReqid a (bytesOf 8 w ++ bytesOf 8 x) s

/-- `n` entries. -/
def spillMany : Nat → State → State
  | 0, s => s
  | n + 1, s => spillMany n (spillBytes s)

/-- An entry of the spill region is read. -/
def spillFetch (s : State) : State :=
  let (v, s) := fresh s
  mmRequest false s.slu.engineReqid (s.ctm.spillBase.toNat + 16 * (v.toNat % s.spillCap)) 16 s

/-- R245 steps 3 to 5: the record is written, entries spill, rows and descriptors are freed. Rings, arrival records and fences stand in the record in the order of their stores (log 74). -/
def evictNow (p : PartId) (c : CtxId) (s : State) : State :=
  let mine := fun (k : OKey) => decide (k.part = p ∧ k.ctx = c)
  let n := s.ctxEntries p c false
  let keys := s.boundSlots p c
  let objs := keys.filterMap fun k => (s.obj k).map fun o => (k.index, o)
  let s := s.modWmc fun m =>
    { m with
      waiters := m.waiters.map fun w => if mine w.key then { w with spilled := true } else w
      early := m.early.map fun e => if mine e.key then { e with spilled := true } else e }
  let s := gcountN 5 keys.length (gcountN 0 keys.length s)
  let rings := (s.trk.descs.filter fun d => mine d.2.key).map fun d =>
    (d.2.key.index, { d.2 with recs := d.2.recs.map fun r => { r with spilled := true } })
  let x := s.ctx p c
  let s := modTack p c (fun r =>
    { r with
      remoteEn := x.remoteEn, evictTime := s.time64, node := s.fab.nodeId
      objs
      rings := rings
      records := s.wmc.records.filter fun r => mine r.key
      fences := s.olu.fences.filter fun f => mine f.key }) s
  let s := keys.foldl (fun s k => s.delObj k) s
  let s := s.modTrk fun t => { t with descs := t.descs.filter fun d => !mine d.2.key }
  let s := s.modWmc fun m => { m with records := m.records.filter fun r => !mine r.key }
  let s := delFence (fun f => mine f.key) s
  let s := spillMany n (countSpill p n (gcount 31 s))
  let s := s.modCtx p c fun x => { x with state := .evicted, evictTime := s.time64 }
  match s.tackRec p c with
  | some r => writeTack r s
  | none => s

/-- The physical banks that hold logical banks. -/
def State.mappedBanks (s : State) : List Nat :=
  ((List.range 64).filter fun l => !s.isDistributed l).map fun l => (s.mapEntry l).phys.toNat

/-- A row lies in every logical bank: class 5 does not reach rows while one is dark, or while work of an earlier class is posted (R18, R339). -/
def State.rowsDark (s : State) : Bool := s.mappedBanks.any s.bankDark || s.anyPosted 5

/-- Nor are rows of a context read or written while a bank is held for the due queue, or while moves are being switched (R100, R341, R343). -/
def State.rowsHeld (s : State) : Bool :=
  s.rowsDark || !s.opr.dueq.isEmpty || (s.obk.retire.map (·.holding)).getD false

/-- The dark banks among them start re-powering (R339). -/
def wakeRows (s : State) : State := s.mappedBanks.foldl (fun s b => wakeBank b s) s

/-- R245: once the context's accepted operations are performed. -/
def evictDrained (p : PartId) (c : CtxId) (s : State) : State :=
  match s.waitingOn 0x0102 p c with
  | none => s
  | some cmd =>
    if !s.acting ∨ (s.ctx p c).state ≠ .evicting ∨ s.ctxBusy p c then s
    else if s.rowsHeld then wakeRows s
    else
      let s := evictNow p c s
      let x := s.ctx p c
      let a : BitVec 48 := x.tackPtr ++ 0#6
      pump (ok cmd [a.extractLsb' 0 32, (a.extractLsb' 32 16).setWidth 32, x.tackBlocks.setWidth 32] s)

def execCtxEvictDrained (part : PartId) (ctx : CtxId) (s : State) : Out :=
  .next (evictDrained part ctx s)

/-! ### Restore -/

/-- Descriptors that restoring contexts will take. -/
def State.descsPromised (s : State) : Nat :=
  (s.ctm.tack.map fun r =>
    if (s.ctx r.part r.ctx).state = .restoring then r.rings.length else 0).sum

def State.descsFree (s : State) : Nat :=
  Config.ringDescs - s.lostEntries .ringDesc - s.trk.descs.length - s.descsPromised

/-- R250, before the record is read. -/
def ctxRestore (c : Cmd) (s : State) : State :=
  let x := s.ctx c.part c.ctx
  let rings := ((s.tackRec c.part c.ctx).map fun r => r.rings.length).getD 0
  if x.state ≠ .evicted ∨ Config.residentContexts ≤ s.residents ∨ s.descsFree < rings then
    refuse c .rangeError (detState 2 0) s
  else
    match s.allocRows x.rowCount.toNat with
    | none => refuse c .rangeError (detState 2 0) s
    | some b =>
      setPhase c.id .waiting
        (s.setCtx c.part c.ctx { x with state := .restoring, rowBase := BitVec.ofNat 14 b })

def execCtxRestore (id : Nat) (s : State) : Out := .next (startCmd 0x0103 id noFmt ctxRestore s)

/-- The lowest free descriptor. -/
def State.freeDesc (s : State) : Nat :=
  (lowest (fun i => (tget s.trk.descs i).isNone) Config.ringDescs).getD 0

/-- The object's word names the descriptor (R47). -/
def nameDesc (k : OKey) (i : Nat) (s : State) : State :=
  match s.obj k with
  | some ⟨_, .ring r⟩ => s.setBody k (.ring { r with desc := BitVec.ofNat 16 i })
  | _ => s

/-- A ring's descriptor comes back; the index of its window entry is rewritten (R162). -/
def restoreRing (p : PartId) (c : CtxId) (x : Index × Desc) (s : State) : State :=
  let k : OKey := ⟨p, c, x.1⟩
  let i := s.freeDesc
  let (w, s) := if x.2.win.isSome then fresh s else (0, s)
  nameDesc k i (s.setDesc i { x.2 with key := k, winEntry := w.setWidth 18 })

/-- Free waiter-store entries. -/
def State.waiterFree (s : State) : Nat := s.waiterCap - s.waiterUse

/-- The first spilled waiter of a list in grant order, heads first, whose context is in the banks. -/
def State.reloadNext (s : State) (q : OKey → Bool) : Option Waiter :=
  headOf (s.wmc.waiters.filter fun w => w.spilled && q w.key)

/-- One spilled entry returns to the die: a waiter, an early accumulator or a reservation record. -/
def reloadOne (q : OKey → Bool) (s : State) : Option State :=
  match s.reloadNext q with
  | some w =>
    some (syncHdr w.key (s.modWmc fun m =>
      { m with waiters := mapFirst (· = w) (fun w => { w with spilled := false }) m.waiters }))
  | none =>
    match s.wmc.early.find? fun e => e.spilled && q e.key with
    | some x =>
      some (syncHdr x.key (s.modWmc fun m =>
        { m with early := mapFirst (· = x) (fun e => { e with spilled := false }) m.early }))
    | none =>
      match s.trk.descs.find? fun d => q d.2.key && d.2.recs.any (·.spilled) with
      | some (i, d) =>
        some (syncHdr d.key (s.setDesc i
          { d with recs := mapFirst (·.spilled) (fun r => { r with spilled := false }) d.recs }))
      | none => none

/-- R252, R259: reloads while more than 4,096 entries are free, into the shares of the partitions; `n` bounds them. -/
def reloadLoop (q : OKey → Bool) : Nat → State → State
  | 0, s => s
  | n + 1, s =>
    if s.waiterFree ≤ 4096 then s
    else
      match reloadOne (fun k => q k && s.entryRoom k.part) s with
      | some t => reloadLoop q n (gcount 30 (spillFetch t))
      | none => s

/-- The spilled accumulator or records of an object are read back to the die (R110, R145). -/
def fetchIn (k : OKey) (s : State) : State :=
  let s := spillFetch (s.modWmc fun m =>
    { m with
      fetching := m.fetching.filter fun x => decide (x ≠ k)
      early := m.early.map fun e => if e.key = k then { e with spilled := false } else e })
  syncHdr k (match s.descOf k with
    | some (i, d) =>
      s.setDesc i { d with recs := d.recs.map fun r => { r with spilled := false } }
    | none => s)

/-- The same for an operation that needs them. -/
def fetchAs (op : Op) (k : OKey) (s : State) : State := if s.needsFetch op k then fetchIn k s else s

/-- One deferral log entry (R250 step 5, R414); the entries it needs are back first. -/
def applyDefer (d : Defer) (s : State) : State :=
  let k := d.key
  let s := inner 5 s
  match d.kind.toNat with
  | 1 => expireDeadline k (d.value.toNat % 65536) (fetchAs .arrive k s)
  | 2 => expireLease k (d.value.toNat % 2 ^ 36) s
  | 3 => abandonLock k d.node d.agent (d.value.setWidth 36) s.now s
  | 4 => cancelRsv k d.value (d.agent, d.node, 4) (fetchAs .rsvCancel k s)
  | 5 => undoGive k d.value s
  | 6 => afterLeaving k true s
  | _ => s

/-- R250 step 6: the deferred sum of an index entry is applied as one decrement. -/
def applySum (a : Arm) (s : State) : State :=
  let s := s.modLcu fun c =>
    { c with index := mapFirst (fun x => decide (x.part = a.part ∧ x.tag = a.tag))
                        (fun x => { x with deferred := 0 }) c.index }
  decrement a.key a.deferred 0 a.tag (inner 5 s)

/-- An object as its record holds it; `HELD_COUNT` of a `LANDING` object counts the entries that still wait on it, since some may have been dropped while its context was out (R45, R187). -/
def restoredObj (k : OKey) (o : Obj) (s : State) : Obj :=
  match o.body with
  | .landing l =>
    { o with body := .landing { l with
        heldCount := BitVec.ofNat 13 (s.lcu.held.filter fun h => decide (h.land = k) && !h.posted).length } }
  | _ => o

/-- A queue gets a new descriptor (R47, R413). -/
def renewWq (k : OKey) (s : State) : State := if s.hasWaiters k then freshWq k s else s

/-- R250 step 7: entries that waited for the context are performed in acceptance order. -/
def postWaiting (p : PartId) (c : CtxId) (s : State) : State :=
  ((s.heldFor p c).filter (·.posted)).foldl (fun s h =>
    if s.heldAt 2 h.target ∨ s.heldFetch h then s
    else
      let t := dropHeld h (inner 2 s)
      if h.commit then performHeldCommit h t else performHeldSignal h t) s

/-- R250 steps 2 to 8 on a record that passed its checks: the state and the entries left spilled. A restored fence entry counts as the newest (R136, log 61). -/
def restoreNow (p : PartId) (c : CtxId) (r : TackRec) (s : State) : State :=
  let mine := fun (k : OKey) => decide (k.part = p ∧ k.ctx = c)
  let s := s.modCtx p c fun x =>
    { x with state := .resident, evictHit := false, restoreTime := s.time64, remoteEn := r.remoteEn }
  let s := r.objs.foldl (fun s o => s.setObj ⟨p, c, o.1⟩ (restoredObj ⟨p, c, o.1⟩ o.2 s)) (gcountN 5 r.objs.length (gcountN 0 r.objs.length s))
  let s := r.rings.foldl (fun s x => restoreRing p c x s) s
  let s := s.modWmc fun m => { m with records := m.records ++ r.records }
  let s := r.fences.foldl (fun s f => addFence f.key f.node f.agent s) s
  let s := s.modCtm fun m => { m with tack := m.tack.filter fun r => !decide (r.part = p ∧ r.ctx = c) }
  let s := reloadLoop mine (s.ctxEntries p c true) s
  let s := r.objs.foldl (fun s o => renewWq ⟨p, c, o.1⟩ (syncHdr ⟨p, c, o.1⟩ s)) s
  let s := r.defer.foldl (fun s d => applyDefer d s) s
  let s := (s.lcu.index.filter fun a => mine a.key && decide (a.deferred ≠ 0)).foldl (fun s a => applySum a s) s
  postWaiting p c s

/-- R249: the record in host memory is read without an error, fits its blocks and passes its checks; `crcOk` says whether the bytes arrive as they are in memory. -/
def State.tackGood (s : State) (r : TackRec) (crcOk : Bool) : Bool :=
  let len := (s.tackRead r).2
  crcOk && decide (len ≤ 65536 * r.blocks) && !memErr s s.slu.engineReqid (s.tackAddr r) len &&
    s.tackChecks r len

/-- A restore writes rows: it waits for a bank that is being copied, too (R342). -/
def State.restoreHeld (s : State) : Bool := s.rowsHeld || (List.range 64).any s.copying

/-- R249, R250: the record is read. -/
def restoreRead (p : PartId) (c : CtxId) (crcOk : Bool) (s : State) : State :=
  match s.waitingOn 0x0103 p c, s.tackRec p c with
  | some cmd, some r =>
    if !s.acting then s
    else if s.restoreHeld then wakeRows s
    else
      let good := s.tackGood r crcOk
      let x := s.tackRead r
      let s := mmRequest false s.slu.engineReqid (s.tackAddr r) x.2 s
      if good then
        let s := restoreNow p c x.1 (gcount 32 s)
        pump (ok cmd [(s.ctx p c).rowBase.setWidth 32, BitVec.ofNat 32 (s.ctxEntries p c true),
          BitVec.ofNat 32 x.1.defer.length] s)
      else
        let s := s.modCtx p c fun x => { x with state := .evicted }
        let s := report .tackBad .ctm (some p) 0 0 (packRef s.fab.nodeId c 0) 0 s
        pump (refuse cmd .formatError (detState 2 0) s)
  | _, _ => s

def execCtxRestoreRecordRead (part : PartId) (ctx : CtxId) (crcOk : Bool) (s : State) : Out :=
  .next (restoreRead part ctx crcOk s)

/-! ### Waiter spill (R252, R253) -/

/-- Spillable entries of an object on the die. -/
def State.spillable (s : State) (k : OKey) : Nat :=
  (s.wmc.waiters.filter fun w => decide (w.key = k) && !w.spilled).length +
    (s.wmc.early.filter fun e => decide (e.key = k) && !e.spilled).length +
    (match s.descOf k with
      | some (_, d) => (d.recs.filter fun r => !r.spilled).length
      | none => 0)

/-- The object with the most spillable entries among those that `q` selects. -/
def State.spillVictim (s : State) (q : OKey → Bool) : Option OKey :=
  let ks := ((s.wmc.waiters.map (·.key)) ++ (s.wmc.early.map (·.key)) ++
    (s.trk.descs.map fun d => d.2.key)).filter q
  ks.foldl (fun m k =>
    match m with
    | none => if 0 < s.spillable k then some k else none
    | some b => if s.spillable b < s.spillable k then some k else some b) none

/-- The waiter of a list that is granted last: lowest priority, latest parked among equals. -/
def tailOf : List Waiter → Option Waiter
  | [] => none
  | w :: r =>
    match tailOf r with
    | none => some w
    | some t => if t.prio.toNat ≤ w.prio.toNat then some t else some w

/-- One entry from the tail of an object's queue goes to the spill region. -/
def spillOne (k : OKey) (s : State) : State :=
  match tailOf ((s.waitersOf k).filter fun w => !w.spilled) with
  | some w =>
    syncHdr k (s.modWmc fun m =>
      { m with waiters := mapFirst (· = w) (fun w => { w with spilled := true }) m.waiters })
  | none =>
    if s.wmc.early.any fun e => decide (e.key = k) && !e.spilled then
      syncHdr k (s.modWmc fun m =>
        { m with early := mapFirst (fun e => decide (e.key = k)) (fun e => { e with spilled := true })
                            m.early })
    else
      match s.descOf k with
      | some (i, d) =>
        syncHdr k (s.setDesc i
          { d with recs := (mapFirst (fun r => !r.spilled) (fun r => { r with spilled := true })
                              d.recs.reverse).reverse })
      | none => s

/-- A batch of at most `n` entries of one object, while the region has room. -/
def spillBatch (k : OKey) : Nat → State → State
  | 0, s => s
  | n + 1, s =>
    if s.spillable k = 0 ∨ s.spillCap ≤ s.spillUsed then s
    else spillBatch k n (countSpill k.part 1 (spillBytes (spillOne k s)))

/-- R252: batches of 64 until 2,048 entries are free; `n` bounds the batches. -/
def spillLoop : Nat → State → State
  | 0, s => s
  | n + 1, s =>
    if 2048 ≤ s.waiterFree ∨ s.spillCap ≤ s.spillUsed then s
    else
      match s.spillVictim fun _ => true with
      | some k => spillLoop n (spillBatch k 64 s)
      | none => s

/-- A batch of the objects that `q` selects. -/
def spillFrom (q : OKey → Bool) (s : State) : State :=
  match s.spillVictim q with
  | some k => spillBatch k 64 s
  | none => s

/-- R259: a strict partition at its share spills a batch of its own; so do the others when what no strict partition reserves is used up. -/
def spillStrict (s : State) : State :=
  if s.strictParts.isEmpty then s
  else
    let s := s.strictParts.foldl (fun s p =>
      if s.waitersUsed p < (s.part p).wsRes.toNat then s
      else spillFrom (fun k => decide (k.part = p)) s) s
    let used := s.waiterUse - (s.strictParts.map s.waitersUsed).sum
    if used < s.waiterCap - s.reserved (·.wsRes.toNat) then s
    else spillFrom (fun k => !s.isStrict k.part) s

def waiterSpill (s : State) : State :=
  if !s.acting then s
  else pump (spillStrict (if s.waiterFree < 1024 then spillLoop (s.waiterUse + 1) s else s))

def execWaiterSpill (s : State) : Out := .next (waiterSpill s)

/-- The context of the object is in the banks. -/
def State.keyIn (s : State) (k : OKey) : Bool := s.inBanks k.part k.ctx

def waiterReload (s : State) : State :=
  if !s.acting then s else reloadLoop s.keyIn s.spilledCount s

def execWaiterReload (s : State) : Out := .next (waiterReload s)

/-- The spilled waiter that is woken next: by partition in turn, the oldest within one (R260). -/
def State.nextSpillWake (s : State) : Option SpillWake :=
  ((List.range 65).map fun i => (s.wmc.wakeRr + i) % 65).findSome? fun p =>
    s.wmc.spillWakes.find? fun x => decide (s.partPlace x.w.key.part = p)

/-- R253: the entry of a spilled waiter has been read, and the waiter is woken. -/
def spilledWake (s : State) : State :=
  if s.frozen then s
  else
    match s.nextSpillWake with
    | none => s
    | some x =>
      let s := spillFetch (s.modWmc fun m =>
        { m with
          spillWakes := dropFirst (· = x) m.spillWakes
          wakeRr := (s.partPlace x.w.key.part + 1) % 65 })
      pump (sendWake x.w x.status x.payload x.grant x.policy x.cause (count x.w.key.part 60 s))

def execSpilledWaiterWake (s : State) : Out := .next (spilledWake s)

/-- R110, R145: the spilled accumulator or records of an object are back, and what waited goes on. Those of a context that has gone out stay in the region (R246). -/
def entryFetch (k : OKey) (s : State) : State :=
  if s.frozen ∨ !s.wmc.fetching.any (· = k) then s
  else if !s.keyIn k then
    s.modWmc fun m => { m with fetching := m.fetching.filter fun x => decide (x ≠ k) }
  else pump (fetchIn k s)

def execSpilledEntryFetch (k : OKey) (s : State) : Out := .next (entryFetch k s)

end Sys2Proof.Machine
end

