-- ==== Sys2Proof/Machine/ObjCmds.lean ====
section
/-! DEFINITION. Commands on objects (R43 to R46, R137, R156, R157, R161, R222, R280 to R283, R377, R381), and sections (R190, R194, R195, R348). -/

namespace Sys2Proof.Machine

/-! ### OBJ_CREATE (R41 to R43, R144, R280) -/

/-- Fields of each type whose Init is "param", as first bit and width; then the other named fields. -/
def paramFields : Nat → List (Nat × Nat)
  | 1 => [(36, 16), (100, 4), (104, 3), (107, 1)]
  | 2 => [(36, 64), (100, 64)]
  | 3 => [(36, 1)]
  | 4 => [(37, 2), (76, 24)]
  | 6 => [(36, 16), (52, 1), (54, 1)]
  | 7 => [(36, 8), (192, 64)]
  | 8 => [(64, 64)]
  | _ => []

def hdrFields : List (Nat × Nat) :=
  [(4, 1), (5, 1), (6, 1), (7, 1), (8, 6), (14, 1), (15, 3), (18, 18)]

def otherFields : Nat → List (Nat × Nat)
  | 1 => [(52, 16), (68, 16), (84, 16), (108, 1), (109, 1), (110, 1), (111, 1), (112, 16), (128, 64), (192, 64)]
  | 3 => [(52, 12), (64, 16), (80, 64)]
  | 4 => [(36, 1), (39, 2), (41, 3), (44, 3), (48, 16), (64, 12), (100, 36), (192, 64)]
  | 5 => [(36, 16), (52, 1)]
  | 6 => [(53, 1), (55, 1), (56, 48), (104, 13)]
  | 7 => [(44, 8), (52, 12), (64, 64), (128, 64)]
  | 8 => [(128, 12), (140, 16)]
  | _ => []

/-- The same for a ring descriptor (R143). -/
def descParams : List (Nat × Nat) := [(0, 42), (42, 5), (47, 3), (64, 32), (192, 16), (208, 16)]
def descOthers : List (Nat × Nat) := [(51, 1), (96, 32), (128, 32), (160, 32), (224, 18), (242, 6), (248, 7)]

def maskOf (l : List (Nat × Nat)) : BitVec 256 :=
  l.foldl (fun m f => m ||| BitVec.ofNat 256 ((2 ^ f.2 - 1) * 2 ^ f.1)) 0

/-- The lowest bit of a 256-bit value. -/
def lowBit256 (v : BitVec 256) : Nat := (lowest v.getLsbD 256).getD 0

/-- The field that holds a bit, by its lowest bit; a reserved bit names itself. -/
def fieldAt (l : List (Nat × Nat)) (b : Nat) : Nat :=
  match l.find? fun f => decide (f.1 ≤ b ∧ b < f.1 + f.2) with
  | some f => f.1
  | none => b

/-- A bit of a 256-bit value in words 4 to 11. -/
def wordBit (b : Nat) : Nat × Nat := (4 + b / 32, b % 32)

/-- Bits that must arrive as zero and do not. -/
def zeroFields (v mask : BitVec 256) (others : List (Nat × Nat)) : List (Nat × Nat) :=
  if v &&& ~~~mask = 0 then [] else [wordBit (fieldAt others (lowBit256 (v &&& ~~~mask)))]

/-- R280. -/
def createFmt (c : Cmd) : List (Nat × Nat) :=
  let t : BitVec 4 := c.field 2 8 4
  let v := c.val256 4
  if t = 0 ∨ 8 < t.toNat then [(2, 8)]
  else if t = 5 then zeroFields v (maskOf descParams) descOthers
  else
    (if v.extractLsb' 0 4 = t then [] else [(2, 8)]) ++
      zeroFields v (0xF ||| maskOf (paramFields t.toNat)) (hdrFields ++ otherFields t.toNat)

/-- R42: the first bits of the fields that break a condition. -/
def bodyOffences : Body → List Nat
  | .barrier b =>
    (if b.target = 0 then [36] else []) ++
      (if b.redEn then if validCodes b.fmt b.rop then [] else [100]
       else if b.fmt ≠ 0 then [100] else if b.rop ≠ 0 then [104] else [])
  | .group g =>
    if g.enrolled = 0 ∨ g.k = 0 ∨ popcount g.enrolled < g.k.toNat then [36] else []
  | .semaphore v =>
    if v.limit.toNat < v.count.toNat then [36] else if v.limit = 0 then [100] else []
  | .lock l => if leased l.policy = decide (l.leaseUs ≠ 0) then [] else [37]
  | _ => []

/-- R144: likewise for a descriptor. -/
def descOffences (d : Desc) : List Nat :=
  (if (d.base.toNat * 64) % d.gran = 0 then [] else [0]) ++
    (if 6 ≤ d.sizeLog2.toNat ∧ d.sizeLog2.toNat ≤ 24 ∧ d.gran ≤ d.size ∧
        d.availWm.toNat * d.gran ≤ d.size ∧ d.spaceWm.toNat * d.gran ≤ d.size then [] else [42]) ++
    (if d.head.toNat % d.gran = 0 then [] else [47])

/-- R43 rows 1 to 4; a slot in a bank without power waits for it (R339). -/
def slotCheck (c : Cmd) (s : State) : Option (Status × Word) :=
  let k := c.key
  let x := s.ctx k.part k.ctx
  match x.state with
  | .free => some (.noObject, 0)
  | .evicting | .evicted | .restoring => some (.evictedRetry, 0)
  | .resident =>
    if x.rowCount.toNat ≤ rowOff k.index ∨ s.bankAllowed k.part k.index = false then
      some (.rangeError, det 3 0)
    else if (s.obj k).isSome then some (.rangeError, detState 3 0)
    else none

/-- A new object in a checked slot. -/
def placeObject (k : OKey) (b : Body) (s : State) : State :=
  s.setObj k ⟨newHdr k.part, initBody b⟩

/-- A new ring: its descriptor and its word (R144). -/
def placeRing (k : OKey) (d : Desc) (s : State) : Nat × State :=
  let i := s.freeDesc
  (i, (s.setDesc i { d with key := k }).setObj k
    ⟨newHdr k.part, .ring { desc := BitVec.ofNat 16 i, remoteOpen := false }⟩)

def objCreate (c : Cmd) (s : State) : State :=
  let k := c.key
  let v := c.val256 4
  match slotCheck c s with
  | some (st, d) => refuse c st d s
  | none =>
    if s.slotDark k then wakeSlot k s
    else if (c.field 2 8 4 : BitVec 4) = 5 then
      let d := descOfWord v
      match firstOffence ((descOffences d).map wordBit) with
      | some (w, b) => refuse c .formatError (det w b) s
      | none =>
        if s.descsFree = 0 then refuse c .rangeError (detState 3 0) s
        else
          let r := placeRing k d (inner 5 s)
          ok c [BitVec.ofNat 32 r.1] r.2
    else
      match bodyOf v with
      | none => refuse c .formatError (det 2 8) s
      | some b =>
        match firstOffence ((bodyOffences b).map wordBit) with
        | some (w, i) => refuse c .formatError (det w i) s
        | none => ok c [] (placeObject k b (inner 5 s))

def execObjCreate (id : Nat) (s : State) : Out := .next (startCmd 0x0110 id createFmt objCreate s)

/-! ### OBJ_DESTROY, OBJ_READ -/

def anyType : Body → Bool := fun _ => true

/-- R45, R46. -/
def objDestroy (c : Cmd) (s : State) : State :=
  match objCheck c anyType s, s.obj c.key with
  | some (st, d), _ => refuse c st d s
  | none, some o =>
    if o.hdr.tree then refuse c .rangeError (detState 3 0) s
    else ok c [] (destroyObject c.key o (inner 5 s))
  | none, none => s

def execObjDestroy (id : Nat) (s : State) : Out := .next (startCmd 0x0111 id noFmt objDestroy s)

/-- R281: the word, or with `DESC` the descriptor. -/
def objRead (c : Cmd) (s : State) : State :=
  match objCheck c anyType s, s.obj c.key with
  | some (st, d), _ => refuse c st d s
  | none, some o =>
    if c.bit 1 0 then
      match s.descOf c.key with
      | some (_, d) => ok c (toWords 8 d.word) (inner 5 s)
      | none => refuse c .typeMismatch 0 s
    else ok c (toWords 8 o.word) (inner 5 s)
  | none, none => s

/-- `OBJ_READ` without the flag. -/
def execObjRead (id : Nat) (s : State) : Out :=
  .next (match s.cmd id with
    | some c => if c.bit 1 0 then s else startCmd 0x0112 id noFmt objRead s
    | none => s)

/-- `OBJ_READ` with `OPFLAGS[0]`. -/
def execObjReadDesc (id : Nat) (s : State) : Out :=
  .next (match s.cmd id with
    | some c => if c.bit 1 0 then startCmd 0x0112 id noFmt objRead s else s
    | none => s)

/-! ### BARRIER_ROSTER (R90, R283) -/

def isBarrier : Body → Bool
  | .barrier _ => true
  | _ => false

/-- Members of this instance that `TARGET` leaves for the agents here (R222). -/
def State.localMembers (s : State) (k : OKey) (b : Barrier) : Nat :=
  match s.treeOf k with
  | some (_, t) => b.target.toNat - popcount t.childMask
  | none => b.target.toNat

/-- Arrival records that the instance holds: bound, allocated by a load session, or in the record of an evicted context (R89, R250, R304). -/
def State.recordsHeld (s : State) : Nat :=
  s.wmc.records.length + s.recordsPromised + (s.ctm.tack.map fun r => r.records.length).sum

/-- R259: waiters of the partition's share spill until `n` entries are free in it; `fuel` bounds the batches. -/
def spillShare (p : PartId) (n : Nat) : Nat → State → State
  | 0, s => s
  | fuel + 1, s =>
    if s.entriesRoom p n then s
    else spillShare p n fuel (spillFrom (fun k => decide (s.partPlace k.part = s.partPlace p)) s)

/-- 128 entries for each of `n` records, spilling waiters if need be; `none` when they are not to be had. -/
def roomForRecords (p : PartId) (n : Nat) (s : State) : Option State :=
  let t := spillShare p (128 * n) (s.waiterUse + 1)
    (if s.waiterUse + 128 * n ≤ s.waiterCap then s else spillLoop (s.waiterUse + 1) s)
  if t.entriesRoom p (128 * n) then some t else none

def rosterFmt (c : Cmd) : List (Nat × Nat) := c.misaligned 4

def barrierRoster (c : Cmd) (s : State) : State :=
  let k := c.key
  match objCheck c isBarrier s, s.obj k with
  | some (st, d), _ => refuse c st d s
  | none, some ⟨h, .barrier b⟩ =>
    let rq := s.cmdReqid c
    let s := mmRequest false rq (c.addr 4) 512 s
    if memErr s rq (c.addr 4) 512 then memFail c 4 s
    else
      let r : BitVec 4096 := bvOf 4096 (memBytes s (c.addr 4) 512)
      if b.curCount ≠ 0 ∨ b.nextCount ≠ 0 ∨ b.dlArmed ∨ h.parked ∨ h.spill then
        refuse c .rangeError (detState 3 0) s
      else if popcount r ≠ s.localMembers k b then refuse c .rangeError (det 4 0) s
      else if (s.record k).isSome then
        ok c [BitVec.ofNat 32 (popcount r)] (setRecord k (fun x => ⟨x.key, r, 0, 0, 0⟩) (inner 5 s))
      else if Config.arrivalRecords ≤ s.recordsHeld then
        refuse c .rangeError (detState 3 0) s
      else
        match roomForRecords c.part 1 s with
        | none => refuse c .rangeError (detState 3 0) s
        | some s =>
          ok c [BitVec.ofNat 32 (popcount r)]
            ((inner 5 s).modWmc fun m => { m with records := m.records ++ [⟨k, r, 0, 0, 0⟩] })
  | none, _ => s

def execBarrierRoster (id : Nat) (s : State) : Out := .next (startCmd 0x0113 id rosterFmt barrierRoster s)

/-! ### LOCK_FORCE_RELEASE (R137) -/

def isLock : Body → Bool
  | .lock _ => true
  | _ => false

def lockForce (c : Cmd) (s : State) : State :=
  let k := c.key
  match objCheck c isLock s, s.obj k with
  | some (st, d), _ => refuse c st d s
  | none, some ⟨_, .lock l⟩ =>
    if l.held then
      ok c [1#1 ++ 0#3 ++ l.holderAgent ++ l.holderNode, l.acqSeq.extractLsb' 0 32]
        (endHolding k l 1 false (0, 0, 4) s.now (inner 5 s))
    else ok c [] (inner 5 s)
  | none, _ => s

def execLockForceRelease (id : Nat) (s : State) : Out := .next (startCmd 0x0114 id noFmt lockForce s)

/-! ### Rings (R156, R157, R161) -/

def ringReset (c : Cmd) (s : State) : State :=
  let k := c.key
  match objCheck c isRing s, s.descOf k with
  | some (st, d), _ => refuse c st d s
  | none, some (i, d) =>
    if s.hasWaiters k ∨ (s.lcu.held.any fun h => h.commit && decide (h.target = k)) then
      refuse c .rangeError (detState 3 0) s
    else ok c [d.rsv] (closeWindow k i ((inner 5 s).setDesc i d.reset))
  | none, none => s

def execRingReset (id : Nat) (s : State) : Out := .next (startCmd 0x0115 id noFmt ringReset s)

/-- `LANES` is zero without `LANDED`. -/
def windowFmt (c : Cmd) : List (Nat × Nat) :=
  if !c.bit 4 16 ∧ (c.field 4 17 2 : BitVec 2) ≠ 0 then [(4, 16)] else []

/-- The window that a packet describes. -/
def winOf (c : Cmd) : RWin where
  node := c.field 4 0 16
  landIndex := c.field 5 0 20
  landed := c.bit 4 16
  lanes := c.field 4 17 2
  busy := 0
  closing := false

/-- The window opens; its waiter-store entry is an open value. -/
def openWindow (c : Cmd) (i : Nat) (d : Desc) (r : Ring) (s : State) : State :=
  let x := fresh (inner 5 s)
  let e : BitVec 18 := x.1.setWidth 18
  let s := x.2.setDesc i { d with win := some (winOf c), winEntry := e }
  ok c [e.setWidth 32] (s.setBody c.key (.ring { r with remoteOpen := true }))

/-- A lane's object is a `LANDING` counting bytes. -/
def State.laneOk (s : State) (k : OKey) : Bool :=
  match s.obj k with
  | some ⟨_, .landing l⟩ => !l.countsWrites
  | _ => false

/-- R157; with no waiter-store entry left the command is refused, like any other that needs one (log 62). -/
def windowOpen (c : Cmd) (s : State) : State :=
  let k := c.key
  match objCheck c isRing s, s.descOf k, s.obj k with
  | some (st, d), _, _ => refuse c st d s
  | none, some (i, d), some ⟨_, .ring r⟩ =>
    if d.win.isSome ∨ !s.entryRoom c.part then refuse c .rangeError (detState 3 0) s
    else if (winOf c).landed && !(List.range ((winOf c).lanes.toNat + 1)).all fun j =>
        s.laneOk (laneKey k (winOf c) (BitVec.ofNat 2 j)) then
      refuse c .typeMismatch 0 s
    else openWindow c i d r s
  | none, _, _ => s

def execRingWindowOpen (id : Nat) (s : State) : Out := .next (startCmd 0x0116 id windowFmt windowOpen s)

def windowClose (c : Cmd) (s : State) : State :=
  let k := c.key
  match objCheck c isRing s, s.descOf k with
  | some (st, d), _ => refuse c st d s
  | none, some (i, d) =>
    if d.win.isNone then refuse c .rangeError (detState 3 0) s
    else
      let s := (inner 5 s).setDesc i { d with win := d.win.map fun w => { w with closing := true } }
      let r := takeWaiters k (fun w => w.remote && decide (w.op = .reserve)) s
      let s := wakeAll r.1 .accessDenied 0 (0, 0, 5) r.2
      ok c [] (closeWindow k i (if r.1.isEmpty then s else ringAfterRemoval k s))
  | none, none => s

def execRingWindowClose (id : Nat) (s : State) : Out := .next (startCmd 0x0117 id noFmt windowClose s)

/-! ### TREE_STITCH (R221, R222) -/

/-- A barrier without arrivals, waiters or deadline. -/
def quietBarrier (h : ObjHdr) (b : Barrier) : Bool :=
  decide (b.curCount = 0 ∧ b.nextCount = 0) && !h.parked && !h.spill && !b.dlArmed

/-- The object of a stitch command. -/
def State.stitchObj (s : State) (c : Cmd) : Option (ObjHdr × Barrier) :=
  match (if (s.ctx c.part c.ctx).state = .resident then s.obj c.key else none) with
  | some ⟨h, .barrier b⟩ => if h.part = c.part then some (h, b) else none
  | _ => none

def stitchTree (c : Cmd) : Tree :=
  let root := c.bit 2 13
  { Tree.reset with
    parent := if root then 0 else c.field 5 0 16, pslot := if root then 0 else c.field 5 16 3
    root := root, valid := true, childMask := c.field 7 0 8
    rootNode := c.field 6 0 16, altParent := c.field 6 16 16, node := c.key
    child := (List.range 8).foldl (fun t i =>
      if (c.field 7 0 8 : Byte).getLsbD i then
        tset t i (c.field (8 + i / 2) (16 * (i % 2)) 16)
      else t) [] }

/-- `TARGET` is the local members and the children, which a roster counts (R222). -/
def State.membersOk (s : State) (c : Cmd) (b : Barrier) : Bool :=
  let kids := popcount (stitchTree c).childMask
  match s.record c.key with
  | some r => decide (popcount r.roster + kids = b.target.toNat)
  | none => decide (kids ≤ b.target.toNat)

/-- R265: the fields whose values break a rule: tree 0xFFF, an `INDEX` outside the context or the banks, and a `CHILD_MASK` that does not go with `TARGET`. -/
def State.stitchOffence (s : State) (c : Cmd) : Option (Nat × Nat) :=
  let k := c.key
  let x := s.ctx k.part k.ctx
  firstOffence ((if (c.field 2 0 12 : AgentId) = 0xFFF then [(2, 0)] else []) ++
    (if x.state = .resident ∧
        (x.rowCount.toNat ≤ rowOff k.index ∨ s.bankAllowed k.part k.index = false) then [(4, 0)] else []) ++
    match s.stitchObj c with
    | some (_, b) => if !c.bit 2 12 && !s.membersOk c b then [(7, 0)] else []
    | none => [])

/-- Either form of the command, chosen by the unstitch flag. A barrier that is the node of another tree, and one without room for its descriptor, are refused, too (log 76). -/
def treeCmd (c : Cmd) (s : State) : State :=
  let id : AgentId := c.field 2 0 12
  let t := s.tree id
  let no := refuse c .rangeError (detState 4 0) s
  match s.stitchOffence c, s.stitchObj c with
  | some (w, i), _ => refuse c .rangeError (det w i) s
  | none, none => no
  | none, some (h, b) =>
    if !quietBarrier h b then no
    else if c.bit 2 12 then
      if t.valid ∧ t.node = c.key then
        ok c [] (((inner 5 s).setTree id Tree.reset).modHdr c.key fun h => { h with tree := false })
      else no
    else if t.valid ∨ h.tree ∨ !s.entriesRoom c.part 2 then no
    else
      let s := ((inner 5 s).setTree id (stitchTree c)).setBody c.key
        (.barrier { b with epoch := c.field 7 16 16, lastPartial := false, result := 0 })
      ok c [] (s.modHdr c.key fun h => { h with tree := true })

def execTreeStitch (id : Nat) (s : State) : Out :=
  .next (match s.cmd id with
    | some c => if c.bit 2 12 then s else startCmd 0x0303 id noFmt treeCmd s
    | none => s)

def execTreeUnstitch (id : Nat) (s : State) : Out :=
  .next (match s.cmd id with
    | some c => if c.bit 2 12 then startCmd 0x0303 id noFmt treeCmd s else s
    | none => s)

/-! ### Watches (R377, R381) -/

def isWatchable : Body → Bool
  | .barrier _ | .group _ => true
  | _ => false

/-- The epoch is the current or the next one. -/
def epochNear (b : Body) (e : BitVec 16) : Bool :=
  match b with
  | .barrier b => decide (e = b.epoch ∨ e = b.epoch + 1)
  | .group g => decide (e.setWidth 12 = g.epoch ∨ e.setWidth 12 = g.epoch + 1)
  | _ => false

/-- A hold needs a barrier that releases here. -/
def State.holdable (s : State) (k : OKey) (o : Obj) : Bool :=
  isBarrier o.body && (!o.hdr.tree || match s.treeOf k with
    | some (_, t) => t.root
    | none => false)

/-- A replaced watch whose release is held lets it go first. -/
def dropWatch (k : OKey) (s : State) : State :=
  match s.watchOf k with
  | some w => if w.ack.isSome then releaseWatched k s else endWatch k s
  | none => s

/-- R377; with no waiter-store entry left the command is refused (log 77). -/
def watchSet (c : Cmd) (s : State) : State :=
  let k := c.key
  match objCheck c isWatchable s, s.obj k with
  | some (st, d), _ => refuse c st d s
  | none, some o =>
    if !epochNear o.body (c.field 4 0 16) then refuse c .rangeError (det 4 0) s
    else if c.bit 6 0 && !s.holdable k o then refuse c .rangeError (det 6 0) s
    else if (s.watchOf k).isNone ∧
        (Config.watchEntries ≤ s.obs.watches.length ∨ !s.entryRoom c.part) then
      refuse c .rangeError (detState 3 0) s
    else
      let s := dropWatch k (inner 5 s)
      let s := s.modObs fun x =>
        { x with watches := x.watches ++ [⟨k, c.field 4 0 16, c.word 5, c.bit 6 0, none, false⟩] }
      ok c [] (s.modHdr k fun h => { h with watch := true })
  | none, none => s

def execWatchSet (id : Nat) (s : State) : Out := .next (startCmd 0x0404 id noFmt watchSet s)

/-- A held watch's release is posted; an armed one goes without a notice. -/
def watchClear (c : Cmd) (s : State) : State :=
  let k := c.key
  match objCheck c isWatchable s with
  | some (st, d) => refuse c st d s
  | none =>
    match s.watchOf k with
    | some w =>
      if w.ack.isSome then
        ok c [] (s.modObs fun x =>
          { x with watches := mapFirst (fun w => decide (w.key = k))
                                (fun w => { w with posted := true }) x.watches })
      else ok c [] (endWatch k (inner 5 s))
    | none => ok c [] s

def execWatchClear (id : Nat) (s : State) : Out := .next (startCmd 0x0405 id noFmt watchClear s)

/-! ### Sections (R194, R195, R348) -/

/-- `CTR_END` takes `CTR_LIVE` of a partition. -/
def latchEnd (p : PartId) (s : State) : State :=
  s.modObs fun o =>
    { o with end_ := (List.range 64).foldl (fun t i => tput 0 t (ctrKey p i) (s.ctr p i)) o.end_ }

/-- R348 for `SECTION_BEGIN`. -/
def latchBegin (p : PartId) (s : State) : State :=
  let s := latchEnd p (s.modObs fun o =>
    { o with start := (List.range 64).foldl (fun t i =>
        tput 0 t (ctrKey p i) (tgetD 0 o.end_ (ctrKey p i))) o.start })
  s.modObs fun o =>
    { o with live := (List.range 64).foldl (fun t i => tdel t (ctrKey p i)) o.live }

/-- R194 steps 1 and 2: from here the first edge with `SEC_OPEN` 0 is kept. -/
def sectionBegin (c : Cmd) (s : State) : State :=
  if (s.part c.part).sectionOpen ∨ s.beginPending c.part then
    refuse c .rangeError (detState 2 0) s
  else
    startWait c .waiting (s.modPart c.part fun p => { p with fenceLatch := decide (p.secCount = 0) })

/-- A pending `SECTION_BEGIN` refuses a second one at once: it does not wait behind it. -/
def execSectionBegin (id : Nat) (s : State) : Out := .next (startCmd 0x0220 id noFmt sectionBegin s)

/-- R194: closes the open section. -/
def sectionEnd (c : Cmd) (s : State) : State :=
  let p := s.part c.part
  if !p.sectionOpen then refuse c .rangeError (detState 2 0) s
  else if p.sectionNo ≠ c.word 2 then refuse c .rangeError (detState 2 0) s
  else
    latchEnd c.part (ok c [half s.time64 false, half s.time64 true]
      (s.modPart c.part fun p => { p with sectionOpen := false }))

def execSectionEnd (id : Nat) (s : State) : Out := .next (startCmd 0x0221 id noFmt sectionEnd s)

/-- The started `SECTION_BEGIN` of a partition. -/
def State.begunSection (s : State) (p : PartId) : Option Cmd :=
  s.msq.cmds.find? fun c => decide (c.opcode = 0x0220 ∧ c.part = p) && c.phase.begun

/-- Step 3 of R194: `SEC_OPEN` has been 0 and the notice has no place yet. -/
def State.fenceEnters (s : State) (c : Cmd) : Bool :=
  decide (c.phase = .waiting) && (s.part c.part).fenceLatch

/-- R194 steps 2 and 3: once `SEC_OPEN` has been 0, the notice enters when it has a place, and `FENCE_SEQ` rises with it (R195). -/
def kernelFence (p : PartId) (s : State) : State :=
  if !s.acting then s
  else
    match s.begunSection p with
    | some c =>
      if c.phase = .waiting ∧ (s.part p).fenceLatch ∧ s.snRoom then
        let seq := (s.part p).fenceSeq + 1
        let s := setPhase c.id (.fenceAck seq) (s.modPart p fun x => { x with fenceSeq := seq })
        snManage (some p) [0x10#8 ++ p ++ 0#2 ++ c.word 2 ++ seq] s
      else s
    | none => s

def execKernelFence (part : PartId) (s : State) : Out := .next (kernelFence part s)

/-- R194 step 5. -/
def openSection (c : Cmd) (seq : BitVec 16) (s : State) : State :=
  let s := s.modPart c.part fun p => { p with sectionOpen := true, sectionNo := c.word 2 }
  latchBegin c.part (ok c [seq.setWidth 32, half s.time64 false, half s.time64 true] s)

/-- `WAIT_US` has elapsed during step 2 or 4. -/
def sectionTimeout (p : PartId) (edges : Nat) (s : State) : State :=
  let s := elapse edges s
  if !s.acting then s
  else
    match s.begunSection p with
    | some c =>
      let w : BitVec 16 := c.field 3 0 16
      if w ≠ 0 ∧ c.at_ + w.toNat * 1000 ≤ s.now ∧ s.fenceEnters c = false then
        let s := match c.phase with
          | .fenceAck seq => s.modSn fun n => { n with timedOut := n.timedOut ++ [(p, seq)] }
          | _ => s
        pump (refuse c .timedOut 0 s)
      else s
    | none => s

def execSectionBeginTimeout (part : PartId) (edges : Nat) (s : State) : Out :=
  .next (sectionTimeout part edges s)

/-- R190: an acknowledgement that matches nothing. -/
def unmatched (p : PartId) (s : State) : State := report .ackUnmatched .obs (some p) 0 0 0 0 s

/-- R190: an acknowledgement. -/
def snAck (d : Word) (s : State) : State :=
  let p : PartId := d.extractLsb' 16 6
  let seq : BitVec 16 := d.extractLsb' 0 16
  let code : Byte := d.extractLsb' 24 8
  if !s.acting then s
  else if d.extractLsb' 22 2 ≠ 0 then unmatched p s
  else if code = 0x10 then
    match s.msq.cmds.find? fun c => decide (c.part = p ∧ c.phase = .fenceAck seq) with
    | some c => pump (openSection c seq s)
    | none =>
      if s.sn.timedOut.any (· = (p, seq)) then
        s.modSn fun n => { n with timedOut := dropFirst (· = (p, seq)) n.timedOut }
      else unmatched p s
  else if code = 0x30 then
    let mine := fun (w : Watch) => decide (w.key.part = p ∧ w.ack = some seq ∧ w.posted = false)
    if s.obs.watches.any mine then
      s.modObs fun x => { x with watches := mapFirst mine (fun w => { w with posted := true }) x.watches }
    else unmatched p s
  else unmatched p s

def execSnAck (data : Word) (s : State) : Out := .next (snAck data s)

end Sys2Proof.Machine
end

