-- ==== Sys2Proof/Machine/Images.lean ====
section
/-! DEFINITION. Wenca images: header and tables (R299 to R301), `IMAGE_BEGIN` (R302, R304), `IMAGE_FRAME` (R305, R306), `IMAGE_COMMIT` (R307) and ended loads (R308, R309). -/

namespace Sys2Proof.Machine

/-! ### Reading fields of bytes -/

def bslice (l : List Byte) (off n : Nat) : List Byte := (l.drop off).take n
/-- A little-endian field. -/
def bnat (l : List Byte) (off n : Nat) : Nat := natOf (bslice l off n)
def bzero (l : List Byte) (off n : Nat) : Bool := (bslice l off n).all (· = 0)

/-- R303: `DETAIL` of a failure in the image's content. -/
def imgDet (frame cause : Nat) : Word := BitVec.ofNat 32 (2 ^ 31 + 256 * (frame % 65536) + cause)

/-- R328: the key hash in force for images. -/
def Slu.imgKey (x : Slu) : Option (BitVec 384) :=
  match x.lc with
  | .blank => some x.otp.mfgKey
  | .provisioned | .debugUnlocked => some x.otp.imgKeyP
  | .deployed => some x.otp.imgKeyD
  | .retired => none

/-! ### Tables -/

/-- A context table entry. -/
structure ImgCtx where
  ctx : CtxId
  remoteEn : Bool
  rows : Nat
  deriving DecidableEq, Repr

/-- A frame table entry. -/
structure ImgFrame where
  kind : Nat
  ctx : CtxId
  first : Nat
  count : Nat
  len : Nat
  off : Nat
  clean : Bool
  deriving DecidableEq, Repr

def imgCtxs (h : List Byte) : List ImgCtx :=
  (List.range (bnat h 24 2)).map fun i =>
    let b := 384 + 16 * i
    ⟨BitVec.ofNat 8 (bnat h b 1), decide (bnat h (b + 1) 1 % 2 = 1), bnat h (b + 2) 2⟩

def imgFrames (h : List Byte) : List ImgFrame :=
  (List.range (bnat h 26 2)).map fun i =>
    let b := 384 + 16 * bnat h 24 2 + 32 * i
    { kind := bnat h b 1, ctx := BitVec.ofNat 8 (bnat h (b + 1) 1), first := bnat h (b + 4) 4
      count := bnat h (b + 8) 4, len := bnat h (b + 12) 4, off := bnat h (b + 16) 8
      clean := bzero h (b + 2) 2 && bzero h (b + 24) 8 }

/-- The bytes the signature covers: 0 to 111 and both tables. -/
def imgSigned (h : List Byte) : List Byte := bslice h 0 112 ++ h.drop 384

/-- Check 2: identification, reserved bytes of the header and both tables, ranges, header length. -/
def imgFormOk (h : List Byte) (len : Nat) : Bool :=
  let nc := bnat h 24 2
  let nf := bnat h 26 2
  let ids := (imgCtxs h).map (·.ctx)
  decide (bnat h 0 4 = 0x57454E31 ∧ bnat h 4 2 = 1 ∧ bnat h 6 2 = 1 ∧ bnat h 22 1 < 4) &&
    bzero h 23 1 && bzero h 28 4 && bzero h 40 24 && bzero h 209 15 && bzero h 320 64 &&
    decide (1 ≤ nc ∧ nc ≤ 256 ∧ 1 ≤ nf ∧ len = 384 + 16 * nc + 32 * nf) &&
    ((List.range nc).all fun i =>
      decide (bnat h (384 + 16 * i + 1) 1 < 2) && bzero h (384 + 16 * i + 4) 12) &&
    ((imgFrames h).all fun f => f.clean && decide (f.first < 2 ^ 20)) &&
    ((imgCtxs h).all fun x => decide (1 ≤ x.rows ∧ x.rows ≤ 16384)) && decide ids.Nodup

/-- Two half-open ranges do not meet. -/
def apart (a n b m : Nat) : Bool := decide (n = 0 ∨ m = 0 ∨ a + n ≤ b ∨ b + m ≤ a)

/-- Check 9 for one frame against the earlier ones. -/
def frameOk (cs : List ImgCtx) (rings total hdr : Nat) (before : List ImgFrame) (f : ImgFrame) : Bool :=
  decide (1 ≤ f.kind ∧ f.kind ≤ 3) &&
    (if f.kind = 2 then decide (f.ctx = 0) else cs.any fun c => decide (c.ctx = f.ctx)) &&
    (if f.kind = 3 then decide (f.count = 1 ∧ f.len = 512) else decide (f.len = f.count * 32)) &&
    decide (f.off % 64 = 0 ∧ hdr ≤ f.off ∧ f.off + f.len ≤ total) &&
    (f.kind ≠ 2 || decide (f.first + f.count ≤ rings)) &&
    before.all fun g =>
      apart g.off g.len f.off f.len &&
        (decide (g.kind ≠ f.kind ∨ (f.kind ≠ 2 ∧ g.ctx ≠ f.ctx)) || apart g.first g.count f.first f.count)

def ringTotal (fs : List ImgFrame) : Nat := ((fs.filter fun f => decide (f.kind = 2)).map (·.count)).sum

/-- The first frame that breaks check 9. -/
def badFrame (cs : List ImgCtx) (total hdr : Nat) (fs : List ImgFrame) : Option Nat :=
  (List.range fs.length).find? fun i =>
    match fs[i]? with
    | some f => !frameOk cs (ringTotal fs) total hdr (fs.take i) f
    | none => false

/-- Check 10: the indices of a frame lie in the region; `allowed` says which have a bank of the partition (R259, R300). -/
def inRegion (cs : List ImgCtx) (allowed : Index → Bool) (f : ImgFrame) : Bool :=
  if f.kind = 2 then true
  else
    match cs.find? fun c => decide (c.ctx = f.ctx) with
    | some c =>
      decide (f.count = 0 ∨ f.first + f.count ≤ 64 * c.rows) &&
        (List.range f.count).all fun i => allowed (BitVec.ofNat 20 (f.first + i))
    | none => false

def outsideFrame (cs : List ImgCtx) (allowed : Index → Bool) (fs : List ImgFrame) : Option Nat :=
  (List.range fs.length).find? fun i =>
    match fs[i]? with
    | some f => !inRegion cs allowed f
    | none => false

/-! ### IMAGE_BEGIN -/

/-- Every context of a partition is destroyed. -/
def destroyCtxs (p : PartId) (s : State) : State :=
  (s.ctm.dir.filter fun e => decide (e.1 / 256 = p.toNat ∧ e.2.state ≠ .free)).foldl (fun s e =>
    (destroyCtx p (BitVec.ofNat 8 (e.1 % 256)) s).2) s

/-- Contexts in table order at the lowest free ranges. -/
def createCtxs (p : PartId) : List ImgCtx → State → Option State
  | [], s => some s
  | c :: r, s =>
    if Config.residentContexts ≤ s.residents ∨ s.dirFull then none
    else
      match s.allocRows c.rows with
      | none => none
      | some b =>
        createCtxs p r (s.setCtx p c.ctx
          { Ctx.reset with
            state := .resident, remoteEn := c.remoteEn, rowBase := BitVec.ofNat 14 b
            rowCount := BitVec.ofNat 15 c.rows })

/-- `n` descriptors, the k-th for ring number k. -/
def allocDescs (p : PartId) : Nat → State → List (BitVec 16) × State
  | 0, s => ([], s)
  | n + 1, s =>
    let i := s.freeDesc
    let r := allocDescs p n (s.setDesc i { descOfWord 0 with key := ⟨p, 0, 0⟩ })
    (BitVec.ofNat 16 i :: r.1, r.2)

/-- Check 11 and R304: the engine with the session's contexts and descriptors, if they fit. -/
def placeImage (p : PartId) (cs : List ImgCtx) (fs : List ImgFrame) (s : State) :
    Option (List (BitVec 16) × State) :=
  let rosters := (fs.filter fun f => decide (f.kind = 3)).length
  let s := destroyCtxs p s
  match createCtxs p cs s with
  | none => none
  | some s =>
    if s.descsFree < ringTotal fs ∨ Config.arrivalRecords < s.recordsHeld + rosters then none
    else
      match roomForRecords p rosters s with
      | none => none
      | some s => some (allocDescs p (ringTotal fs) s)

/-- Check 1. -/
def State.loadRefused (s : State) (p : PartId) : Bool :=
  (match (s.part p).state with
    | .unloaded | .loaded | .quiesced => false
    | _ => true) ||
  (s.ctm.dir.any fun e =>
    decide (e.1 / 256 = p.toNat) && s.ctxHasTree p (BitVec.ofNat 8 (e.1 % 256))) ||
  decide (4 ≤ s.sessions)

/-- The first failing check of 2 to 10: status and cause. -/
def imgCheck (p : PartId) (h : List Byte) (len : Nat) (s : State) : Option (Status × Word) :=
  let cs := imgCtxs h
  let fs := imgFrames h
  let ver := (Config.idVersion.setWidth 24).toNat
  if !imgFormOk h len then some (.formatError, imgDet 0 1)
  else if bnat h 8 2 ≠ 0x0C17 then some (.identityError, imgDet 0 2)
  else if ¬(bnat h 12 4 ≤ ver ∧ ver ≤ bnat h 16 4) then some (.identityError, imgDet 0 3)
  else if bnat h 10 2 ≠ 0xFFFF ∧ bnat h 10 2 ≠ s.slu.instClass.toNat then
    some (.identityError, imgDet 0 4)
  else if bnat h 22 1 % 2 = 0 ∧ ¬(s.fab.nodeValid ∧ bnat h 20 2 = s.fab.nodeId.toNat) then
    some (.identityError, imgDet 0 5)
  else if s.slu.imgKey ≠ some (Config.sha384 (bslice h 112 97)) then some (.signatureError, imgDet 0 6)
  else if !Config.ecdsaVerify (bslice h 112 97) (bslice h 224 96) (imgSigned h) then
    some (.signatureError, imgDet 0 7)
  else
    match badFrame cs (bnat h 32 8) len fs with
    | some n => some (.formatError, imgDet n 8)
    | none =>
      match outsideFrame cs (s.bankAllowed p) fs with
      | some n => some (.rangeError, imgDet n 9)
      | none => none

def imgBeginFmt (c : Cmd) : List (Nat × Nat) := c.misaligned 2

/-- R302, R304; the partition has no image until the commit (R311). -/
def imageBegin (c : Cmd) (s : State) : State :=
  let p := c.part
  let len := (c.word 4).toNat
  let s := mmRequest false s.slu.engineReqid (c.addr 2) len s
  if memErr s s.slu.engineReqid (c.addr 2) len then memFail c 2 s
  else
    let h := memBytes s (c.addr 2) len
    if s.loadRefused p then refuse c .rangeError (imgDet 0 0x0B) s
    else
      match imgCheck p h len s with
      | some (st, d) => refuse c st d s
      | none =>
        let cs := imgCtxs h
        let fs := imgFrames h
        match placeImage p cs fs s with
        | none => refuse c .rangeError (imgDet 0 0x0A) s
        | some (ds, s) =>
          let l : Load :=
            { header := imgSigned h, ctxs := cs.map fun x => (x.ctx, x.remoteEn, x.rows)
              frames := fs.map fun f => (f.kind, f.ctx, f.first, f.count, f.len)
              descs := ds, frame := 0, got := 0, body := [], rest := [], named := [], rosters := [] }
          ok c [BitVec.ofNat 32 fs.length, BitVec.ofNat 32 (bnat h 32 8)]
            (s.modPart p fun x =>
              { x with state := .loading, load := some l, imgDigest := 0, imgCensus := false })

def execImageBegin (id : Nat) (s : State) : Out := .next (startCmd 0x0210 id imgBeginFmt imageBegin s)

/-! ### Ended loads -/

/-- R309: the session's contexts, descriptors and records go, and the partition is `UNLOADED`. -/
def endLoad (p : PartId) (s : State) : State :=
  let ds := (((s.part p).load.map (·.descs)).getD [])
  let s := destroyCtxs p s
  let s := ds.foldl (fun s i => s.delDesc i.toNat) s
  s.modPart p fun x =>
    { x with state := .unloaded, load := none, starting := none, imgDigest := 0, imgCensus := false }

/-- A failure of content ends the session. -/
def failLoad (c : Cmd) (st : Status) (d : Word) (s : State) : State :=
  refuse c st d (endLoad c.part s)

/-! ### IMAGE_FRAME -/

/-- Reserved bits of an image word are zero; maintained fields are overwritten (R41, R42). -/
def imgWordOk (v : BitVec 256) (b : Body) : Bool :=
  let t := b.typeCode.toNat
  decide (v &&& ~~~(0xF ||| maskOf hdrFields ||| maskOf (paramFields t) ||| maskOf (otherFields t)) = 0) &&
    (bodyOffences b).isEmpty

/-- One object word of a frame; `none` fails the image. -/
def loadObject (k : OKey) (v : BitVec 256) (l : Load) (s : State) : Option (Load × State) :=
  if v = 0 then some (l, s)
  else
    match bodyOf v with
    | none => none
    | some b =>
      if !imgWordOk v b then none
      else
        match b with
        | .ring r =>
          match l.descs[r.desc.toNat]? with
          | none => none
          | some i =>
            let d := (tget s.trk.descs i.toNat).getD (descOfWord 0)
            let s := (s.setDesc i.toNat { d with key := k }).setObj k
              ⟨newHdr k.part, .ring { desc := i, remoteOpen := false }⟩
            some ({ l with named := l.named ++ [(r.desc.toNat, k)] }, s)
        | _ => some (l, placeObject k b s)

/-- One descriptor of a `RINGS` frame; its bits that are no parameters are overwritten (R144). -/
def loadDesc (n : Nat) (v : BitVec 256) (l : Load) (s : State) : Option (Load × State) :=
  let d := descOfWord v
  if !(descOffences d).isEmpty then none
  else
    match l.descs[n]? with
    | none => none
    | some i =>
      let key := ((tget s.trk.descs i.toNat).getD d).key
      some (l, s.setDesc i.toNat { d with key })

/-- The entry at place `n` of a frame. -/
def loadEntry (p : PartId) (f : Nat × CtxId × Nat × Nat × Nat) (n fno : Nat) (b : List Byte)
    (l : Load) (s : State) : Option (Load × State) :=
  let (kind, ctx, first, _, _) := f
  let k : OKey := ⟨p, ctx, BitVec.ofNat 20 (first + n)⟩
  match kind with
  | 1 => loadObject k (bvOf 256 b) l (inner 5 s)
  | 2 => loadDesc (first + n) (bvOf 256 b) l s
  | _ => some ({ l with rosters := l.rosters ++ [(fno, k, bvOf 4096 b)] }, s)

def entrySize (kind : Nat) : Nat := if kind = 3 then 512 else 32

/-- Whole entries of the received bytes, from entry `n` on; `fuel` bounds them. -/
def loadEntries (p : PartId) (f : Nat × CtxId × Nat × Nat × Nat) (fno : Nat) :
    Nat → Nat → Load → State → Option (Load × State)
  | 0, _, l, s => some (l, s)
  | fuel + 1, n, l, s =>
    let sz := entrySize f.1
    if l.rest.length < sz then some (l, s)
    else
      match loadEntry p f n fno (l.rest.take sz) { l with rest := l.rest.drop sz } s with
      | none => none
      | some (l, s) => loadEntries p f fno fuel (n + 1) l s

/-- The session moved to the frame that a command names, if it may (R305). -/
def frameTurn (l : Load) (n : Nat) : Option Load :=
  match l.frames[l.frame]? with
  | none => none
  | some f =>
    if n = l.frame then some l
    else if n = l.frame + 1 ∧ l.got = f.2.2.2.2 ∧ n < l.frames.length then
      some { l with frame := n, got := 0, rest := [] }
    else none

/-- A slot of the frame in a bank that class 5 does not reach now, or of a logical bank being copied (R18, R100, R339, R342). -/
def State.frameDark (s : State) (p : PartId) (f : Nat × CtxId × Nat × Nat × Nat) : Option OKey :=
  if f.1 ≠ 1 then none
  else
    ((List.range f.2.2.2.1).map fun i => (⟨p, f.2.1, BitVec.ofNat 20 (f.2.2.1 + i)⟩ : OKey)).find?
      fun k => s.cmdWaits k || s.copying (lbankOf k.index)

def imgFrameFmt (c : Cmd) : List (Nat × Nat) := c.misaligned 3

/-- R305, R306. -/
def imageFrame (c : Cmd) (s : State) : State :=
  let p := c.part
  let n := (c.field 2 0 16 : BitVec 16).toNat
  let len := (c.word 5).toNat
  match (s.part p).load with
  | none => refuse c .rangeError (detState 0 0) s
  | some l =>
    match frameTurn l n with
    | none => refuse c .formatError (imgDet n 0x11) s
    | some l =>
      match l.frames[n]? with
      | none => refuse c .formatError (imgDet n 0x11) s
      | some f =>
        let t := mmRequest false s.slu.engineReqid (c.addr 3) len s
        if f.2.2.2.2 < l.got + len then refuse c .formatError (imgDet n 0x11) s
        else if memErr s s.slu.engineReqid (c.addr 3) len then memFail c 3 t
        else
          match s.frameDark p f with
          | some k => wakeSlot k s
          | none =>
            let b := memBytes s (c.addr 3) len
            let at_ := (l.got - l.rest.length) / entrySize f.1
            let l := { l with got := l.got + len, body := l.body ++ b, rest := l.rest ++ b }
            match loadEntries p f n (l.rest.length + 1) at_ l t with
            | none => failLoad c .formatError (imgDet n 0x0D) t
            | some (l, s) =>
              ok c [BitVec.ofNat 32 len] (s.modPart p fun x => { x with load := some l })

def execImageFrame (id : Nat) (s : State) : Out := .next (startCmd 0x0211 id imgFrameFmt imageFrame s)

/-! ### IMAGE_COMMIT -/

/-- The first frame that has not been delivered whole. -/
def Load.incomplete (l : Load) : Option Nat :=
  (List.range l.frames.length).find? fun i =>
    match l.frames[i]? with
    | some f => decide (f.2.2.2.2 ≠ 0 ∧ l.frame < i ∨ (i = l.frame ∧ l.got < f.2.2.2.2))
    | none => false

/-- Check 3: every ring number is named by exactly one word. -/
def Load.ringsNamed (l : Load) : Bool :=
  (List.range l.descs.length).all fun i =>
    decide ((l.named.filter fun x => decide (x.1 = i)).length = 1)

/-- R90 for a staged roster. -/
def State.rosterOk (s : State) (r : Nat × OKey × BitVec 4096) : Bool :=
  match s.obj r.2.1 with
  | some ⟨h, .barrier b⟩ => quietBarrier h b && decide (popcount r.2.2 = b.target.toNat)
  | _ => false

def State.badRoster (s : State) (l : Load) : Option Nat :=
  (l.rosters.find? fun r => !s.rosterOk r).map (·.1)

/-- The first failing check of R307. -/
def commitCheck (l : Load) (s : State) : Option (Status × Word) :=
  match l.incomplete with
  | some n => some (.formatError, imgDet n 0x10)
  | none =>
    if Config.sha384 l.body ≠ beVal 384 (bslice l.header 64 48) then some (.digestError, imgDet 0 0x0C)
    else if !l.ringsNamed then some (.formatError, imgDet 0 0x0E)
    else
      match s.badRoster l with
      | some n => some (.formatError, imgDet n 0x0F)
      | none => none

/-- The digest bytes of a reply, word by word in memory order. -/
def digestWords (d : BitVec 384) : List Word :=
  (List.range 12).map fun i => bvOf 32 (bslice (beBytes 48 d) (4 * i) 4)

/-- Rosters bound, digest and `CENSUS` recorded. -/
def commitImage (p : PartId) (l : Load) (s : State) : State :=
  let s := s.modWmc fun m =>
    { m with records := m.records ++ l.rosters.map fun r => ⟨r.2.1, r.2.2, 0, 0, 0⟩ }
  s.modPart p fun x =>
    { x with
      load := none, imgDigest := Config.sha384 l.header
      imgCensus := decide (bnat l.header 22 1 / 2 % 2 = 1) }

/-- S0 of a partition startup begins: its order of steps is fixed (R321). -/
def beginPartStartup (c : Cmd) (s : State) : State :=
  startWait c .startup (s.modPart c.part fun x => { x with startSeq := s.clk.startupSeq })

/-- R307; with W2[0] the startup steps follow. -/
def imageCommit (c : Cmd) (s : State) : State :=
  let p := c.part
  match (s.part p).load with
  | none => refuse c .rangeError (detState 0 0) s
  | some l =>
    match commitCheck l s with
    | some (st, d) => failLoad c st d s
    | none =>
      let s := commitImage p l s
      if c.bit 2 0 then beginPartStartup c s
      else
        ok c (digestWords (s.part p).imgDigest) (s.modPart p fun x => { x with state := .loaded })

def execImageCommit (id : Nat) (s : State) : Out := .next (startCmd 0x0212 id noFmt imageCommit s)

end Sys2Proof.Machine
end

