-- ==== Sys2Proof/Machine/Partitions.lean ====
section
/-! DEFINITION. Partitions: `PART_CREATE` (R259), `PART_ACTIVATE` and the startup steps (R297, R298), `PART_QUIESCE` (R295, R296), `PART_DESTROY` (R262), and `NOP`. -/

namespace Sys2Proof.Machine

/-! ### NOP -/

/-- W2 to W15 echoed (R279). -/
def nopCmd (c : Cmd) (s : State) : State := ok c (c.words.drop 2) s

def execNop (id : Nat) (s : State) : Out := .next (startCmd 0x0000 id noFmt nopCmd s)

/-! ### PART_CREATE -/

/-- The strict flag that a `PART_CREATE` puts in force. -/
def State.strictMode (s : State) (c : Cmd) : Bool :=
  match (c.field 2 0 2 : BitVec 2).toNat with
  | 3 => true
  | 0 => s.strictDefault
  | _ => false

/-- Widths of the reservations in words 3 to 8 (R279). -/
def reserveWidths : List Nat := [16, 15, 18, 13, 7, 8]

/-- Mode 0b01 is reserved, and the reservations of words 3 to 8 are zero when non-strict. -/
def State.partCreateFmt (s : State) (c : Cmd) : List (Nat × Nat) :=
  (if (c.field 2 0 2 : BitVec 2) = 1 then [(2, 0)] else []) ++
    if s.strictMode c then []
    else ((reserveWidths.zip (List.range 6)).filter fun x =>
      decide ((c.word (3 + x.2)).toNat % 2 ^ x.1 ≠ 0)).map fun x => (3 + x.2, 0)

/-- R205: REQ.OP credits of a fabric port. -/
def opCredits : Nat := 192

/-- The first reservation that what is unreserved cannot meet, by its word. -/
def State.reserveFails (s : State) (c : Cmd) : Option Nat :=
  let fails : List (Nat × Bool) :=
    [(3, s.strictParts.any fun p => decide ((s.part p).bankSet &&& c.field 3 0 16 ≠ 0)),
     (4, decide (s.sharedCap - s.reserved (·.otRes.toNat) < (c.word 4).toNat)),
     (5, decide (s.waiterCap - s.reserved (·.wsRes.toNat) < (c.word 5).toNat)),
     (6, decide (s.heldCap - s.reserved (·.hsRes.toNat) < (c.word 6).toNat)),
     (7, decide (64 - s.reserved (·.mmSlots.toNat) < (c.word 7).toNat)),
     (8, decide (opCredits - s.reserved (·.fabRes.toNat) < (c.word 8).toNat))]
  (fails.find? (·.2)).map (·.1)

/-- The partition that a create makes. -/
def newPart (c : Cmd) (strict : Bool) (p : Part) : Part :=
  { p with
    state := .unloaded, strict
    bankSet := c.field 3 0 16, otRes := c.field 4 0 15, wsRes := c.field 5 0 18
    hsRes := c.field 6 0 13, mmSlots := c.field 7 0 7, fabRes := c.field 8 0 8
    tackQuota := c.field 9 0 16 }

/-- R259, R294. -/
def partCreate (c : Cmd) (s : State) : State :=
  let strict := s.strictMode c
  let go := ok c [if strict then 1 else 0] (s.modPart c.part (newPart c strict))
  if (s.part c.part).state ≠ .free then refuse c .rangeError (detState 0 0) s
  else
    match if strict then s.reserveFails c else none with
    | some w => refuse c .rangeError (det w 0) s
    | none => go

def execPartCreate (id : Nat) (s : State) : Out := .next (startCmd 0x0201 id s.partCreateFmt partCreate s)

/-! ### PART_ACTIVATE and the startup steps -/

/-- Step S4 alone (R298): flits pass the bind stage and `RESUME` goes out. -/
def openPart (p : PartId) (s : State) : State :=
  resumePart p (s.modPart p fun x => { x with state := .active })

/-- R298: from `QUIESCING` and `QUIESCED` step S4 alone; from `UNLOADED` and `LOADED` all steps, which end the command. -/
def partActivate (c : Cmd) (s : State) : State :=
  match (s.part c.part).state with
  | .quiescing | .quiesced => ok c [] (openPart c.part s)
  | .unloaded | .loaded => beginPartStartup c s
  | .free | .loading | .active => refuse c .rangeError (detState 0 0) s

def execPartActivate (id : Nat) (s : State) : Out := .next (startCmd 0x0202 id noFmt partActivate s)

/-- An operation of the partition that OPR accepted and that is not performed. -/
def State.partBusy (s : State) (p : PartId) : Bool :=
  s.opr.ops.any fun e => decide (e.part = p) && e.st.open_

/-- A command of the partition, other than `c`, has started and not completed; a `PART_DESTROY`, which waits for all others, counts for none of them (R296). -/
def State.otherRunning (s : State) (c : Cmd) : Bool :=
  s.msq.cmds.any fun d =>
    decide (d.id ≠ c.id ∧ d.part = c.part ∧ d.opcode ≠ 0x0204) && d.ofPart && match d.phase with
      | .queued | .remote _ => false
      | _ => true

/-- The command whose startup steps run. -/
def State.startupOf (s : State) (p : PartId) : Option Cmd :=
  s.msq.cmds.find? fun c => decide (c.part = p ∧ c.phase = .startup)

/-- S1: the held flits of the partition are answered `EVICTED_RETRY`, uncounted. -/
def failHeld (p : PartId) (s : State) : State :=
  (List.range 16).foldl (fun s i =>
    let n : PortNo := BitVec.ofNat 4 i
    let mine := fun (f : Flit) => decide ((s.bind (agentId n f.agent)).part = p)
    let gone := (s.ap n).hold.filter mine
    let s := s.modAp n fun x => { x with hold := x.hold.filter fun f => !mine f }
    gone.foldl (fun s f => bindReply n f.agent f.code f.req none .evictedRetry s) s) s

/-- The three counter blocks of a partition are zero. -/
def wipeCounters (p : PartId) (s : State) : State :=
  let zero := fun (t : Table DWord) => (List.range 64).foldl (fun t i => tdel t (ctrKey p i)) t
  s.modObs fun o => { o with live := zero o.live, start := zero o.start, end_ := zero o.end_ }

/-- S1: what the partition keeps outside its objects is wiped; the reply queue stays. -/
def wipePart (p : PartId) (s : State) : State :=
  let s := wipeCounters p (failHeld p s)
  let s := s.modWin (some p) fun w =>
    { w with irqStatus := if w.replies = [] then 0 else w.irqStatus &&& 1 }
  s.modPart p fun x =>
    { x with sectionOpen := false, sectionNo := 0, secCount := 0, fenceSeq := 0, dumpSeq := 0 }

/-- S2, S3 or S4, by its code in `STARTUP_SEQ` (R297, R321): outputs are released, references are translated, or flits pass the bind stage and `RESUME` goes out. -/
def startupStep (p : PartId) (code : BitVec 2) (s : State) : State :=
  let i := code.toNat - 1
  let s := s.modPart p fun x => { x with starting := x.starting.map fun b => setBit b i }
  match i with
  | 0 => snShow s
  | 1 => s
  | _ => resumePart p s

/-- How many of S2 to S4 have run. -/
def stepsDone (b : BitVec 3) : Nat := popcount b

/-- The step that is next in an order, after `n` steps. -/
def stepCode (order : BitVec 6) (n : Nat) : BitVec 2 := order.extractLsb' (2 * n) 2

/-- After the last step the partition is `ACTIVE` and the command replies. -/
def endStartup (c : Cmd) (s : State) : State :=
  let s := s.modPart c.part fun x => { x with state := .active, starting := none }
  ok c (if c.opcode = 0x0212 then digestWords (s.part c.part).imgDigest else []) s

/-- The next step of a partition startup: S1 once S0's wait has ended, then S2 to S4 in their order (R297, R298). -/
def partitionStartup (p : PartId) (s : State) : State :=
  match s.startupOf p with
  | none => s
  | some c =>
    if !s.acting then s
    else
      match (s.part p).starting with
      | none =>
        if s.partBusy p ∨ s.otherRunning c then s
        else (wipePart p s).modPart p fun x => { x with starting := some 0 }
      | some b =>
        let s := startupStep p (stepCode (s.part p).startSeq (stepsDone b)) s
        pump (if stepsDone b = 2 then endStartup c s else s)

def execPartitionStartup (part : PartId) (s : State) : Out := .next (partitionStartup part s)

/-! ### Commands ended early (R296) -/

/-- What R296 ends: commands not started, a pending `SECTION_BEGIN`, a running `IMAGE_COMMIT`, and an earlier `PART_QUIESCE`. -/
def endedBy (c d : Cmd) : Bool :=
  decide (d.id ≠ c.id ∧ d.part = c.part) && d.ofPart &&
    match d.phase with
    | .queued => true
    | .halted _ => true
    | .fenceAck _ => true
    | .startup => decide (d.opcode = 0x0212)
    | .waiting => decide (d.opcode = 0x0220 ∨ d.opcode = 0x0203)
    | .remote _ => false

/-- Earlier commands of the partition are ended. -/
def abortEarlier (c : Cmd) (s : State) : State :=
  ((cmdsBefore c.id s.msq.cmds).filter (endedBy c)).foldl (fun s d => complete d .aborted 0 [] s) s

/-! ### PART_QUIESCE -/

/-- R294, R295, R309. -/
def partQuiesce (c : Cmd) (s : State) : State :=
  let p := c.part
  match (s.part p).state with
  | .loading => ok c [] (endLoad p (abortEarlier c s))
  | .active | .quiescing =>
    let s := s.modPart p fun x => { x with state := .quiescing }
    startWait c .waiting (abortEarlier c (drainPart p s))
  | .free | .unloaded | .loaded | .quiesced => ok c [] s

def execPartQuiesce (id : Nat) (s : State) : Out := .next (startCmd 0x0203 id noFmt partQuiesce s)

/-- The waiting `PART_QUIESCE` of a partition. -/
def State.quiesceOf (s : State) (p : PartId) : Option Cmd :=
  s.msq.cmds.find? fun c => decide (c.opcode = 0x0203 ∧ c.part = p ∧ c.phase = .waiting)

/-- R295 step 4. -/
def quiesceDrained (p : PartId) (s : State) : State :=
  match s.quiesceOf p with
  | none => s
  | some c =>
    if !s.acting ∨ s.partBusy p then s
    else pump (ok c [] (s.modPart p fun x => { x with state := .quiesced }))

def execPartQuiesceDrained (part : PartId) (s : State) : Out := .next (quiesceDrained part s)

/-- `WAIT_US` has elapsed during step 3. -/
def quiesceTimeout (p : PartId) (edges : Nat) (s : State) : State :=
  let s := elapse edges s
  match s.quiesceOf p with
  | none => s
  | some c =>
    let w : BitVec 16 := c.field 2 0 16
    if !s.acting then s
    else if w ≠ 0 ∧ c.at_ + w.toNat * 1000 ≤ s.now then pump (refuse c .timedOut 0 s)
    else s

def execPartQuiesceTimeout (part : PartId) (edges : Nat) (s : State) : Out :=
  .next (quiesceTimeout part edges s)

/-! ### PART_DESTROY -/

/-- Agents whose binding names the partition. -/
def State.boundTo (s : State) (p : PartId) : List AgentId :=
  (s.binds.filter fun b => b.2.valid && decide (b.2.part = p)).map fun b => BitVec.ofNat 12 b.1

/-- A binding of a partition with its fields cleared, but for what its processing still needs. -/
def Bind.cleared (b : Bind) : Bind := { b with valid := false, maxPrio := 0, mgmtEn := false }

/-- Changes every binding whose `PART` is `p`. -/
def modBinds (p : PartId) (f : Bind → Bind) (s : State) : State :=
  s.binds.foldl (fun s b =>
    let a : AgentId := BitVec.ofNat 12 b.1
    if (s.bind a).part = p then s.setBind a (f (s.bind a)) else s) s

/-- Step 1 of R262: the bindings are cleared, the valid ones with the processing of R54. -/
def unbindAll (p : PartId) (s : State) : State :=
  modBinds p Bind.cleared ((s.boundTo p).foldl (fun s a =>
    addReset (agentPort a) (agentLocal a) true
      (s.setBind a { (s.bind a).cleared with busy := true })) s)

/-- `PART` of the partition's bindings goes when their processing has ended; the trace tag is no field of the binding. -/
def forgetPart (p : PartId) (s : State) : State :=
  modBinds p (fun b => { Bind.reset with tag := b.tag }) s

/-- An agent of the partition is still being unbound. -/
def State.unbinding (s : State) (p : PartId) : Bool :=
  s.binds.any fun b => b.2.busy && decide (b.2.part = p)

/-- Step 3 of R262: the partition's held entries go, with one report of their number. -/
def dropPartHeld (p : PartId) (s : State) : Nat × State :=
  let mine := s.lcu.held.filter fun h => decide (h.target.part = p ∨ h.land.part = p)
  let n := mine.length
  let s := mine.foldl (fun s h => dropHeld h s) s
  (n, report .heldDropped .lcu (some p) 0 0 0 (BitVec.ofNat 16 n) s)

/-- Step 5 of R262: the window and its queue, but for the slots of commands that still run. -/
def wipeWindow (p : PartId) (s : State) : State :=
  let live := s.msq.cmds.filterMap fun c =>
    match c.src with
    | .win (some q) slot => if q = p then some slot else none
    | _ => none
  s.setWin (some p) { Window.reset with slots := live.foldl setBit 0 }

/-- Steps 2 to 6 of R262. -/
def destroyPart (c : Cmd) (s : State) : State :=
  let p := c.part
  let s := destroyCtxs p s
  let (n, s) := dropPartHeld p s
  let s := s.modFab fun f =>
    { f with admits := f.admits.filter fun e => decide (e.2.lpart ≠ p) }
  let s := wipeCounters p (wipeWindow p (forgetPart p s))
  let s := s.delPart p
  ok c [BitVec.ofNat 32 n] s

/-- Whether step 1 has ended, every started command of the partition has completed, and class 5 reaches its objects (R18, R99, R100, R339). -/
def State.destroyReady (s : State) (c : Cmd) : Bool :=
  (s.boundTo c.part).isEmpty && !s.unbinding c.part && !s.otherRunning c &&
    !(s.partSlots c.part).any s.cmdWaits

/-- An object of the partition is a stitch-tree node. -/
def State.partHasTree (s : State) (p : PartId) : Bool :=
  s.ctm.dir.any fun e => decide (e.1 / 256 = p.toNat) && s.ctxHasTree p (BitVec.ofNat 8 (e.1 % 256))

/-- R262: accepted, it ends earlier commands and unbinds the agents; the rest follows when they are done. -/
def partDestroy (c : Cmd) (s : State) : State :=
  let p := c.part
  if s.partHasTree p then refuse c .rangeError (detState 0 0) s
  else
    let s := abortEarlier c s
    let s := if (s.part p).state = .loading then endLoad p s else s
    let s := unbindAll p (startWait c .waiting s)
    if s.destroyReady c then destroyPart c s else s

/-- A waiting destroy goes on. -/
def destroyOn (id : Nat) (s : State) : State :=
  match s.cmd id with
  | some c =>
    if c.phase = .waiting ∧ c.opcode = 0x0204 ∧ s.acting then
      let s := unbindAll c.part s
      if s.destroyReady c then pump (destroyPart c s)
      else (s.partSlots c.part).foldl (fun s k => wakeSlot k s) s
    else s
  | none => s

/-- The row starts a queued command and ends a waiting one. -/
def execPartDestroy (id : Nat) (s : State) : Out :=
  .next (match s.cmd id with
    | some c =>
      if c.phase = .waiting then destroyOn id s else startCmd 0x0204 id noFmt partDestroy s
    | none => s)

end Sys2Proof.Machine
end

