-- ==== Sys2Proof/Machine/Service.lean ====
section
/-! DEFINITION. The service state and its notices (R336, R337). -/

namespace Sys2Proof.Machine

/-- Spare banks neither in use nor retired. -/
def State.sparesFree (s : State) : Nat :=
  ((List.range 4).filter fun i => !s.obk.spareUsed.getLsbD i && !s.obk.spareRetired.getLsbD i).length

/-- What a `SERVICE` notice names besides its cause: `PBANK`, `LBANK`, `PORT`. -/
structure SvcAt where
  pbank : Bank
  lbank : BitVec 6
  port : FabPort
  deriving DecidableEq, Repr

/-- No bank, no port. -/
def SvcAt.none : SvcAt := ⟨0x7F, 0, 0⟩

/-- The words of a `SERVICE` notice. -/
def State.serviceWords (s : State) (cause : Byte) (x : SvcAt) : DWord × DWord :=
  (0x40#8 ++ s.slu.svc ++ 0#6 ++ cause ++ s.time64.extractLsb' 0 40,
   0#34 ++ BitVec.ofNat 6 s.distCount ++ BitVec.ofNat 4 s.sparesFree ++ 0#1 ++ x.port ++ 0#2 ++
     x.lbank ++ 0#1 ++ x.pbank)

/-- An event of level `lvl` (0 none, 1 `ADVISE`, 2 `REPLACE`): the state rises, an entry sets its interrupt bit, and the notice goes out. -/
def service (lvl : BitVec 2) (cause : Byte) (x : SvcAt) (s : State) : State :=
  let enters := decide (s.slu.svc.toNat < lvl.toNat)
  let s := s.modSlu fun y => { y with svc := if enters then lvl else y.svc, svcCause := cause }
  let s := if enters then raiseGlobal (if lvl = 1 then 2 else 3) s else s
  let w := s.serviceWords cause x
  snService w.1 w.2 s

end Sys2Proof.Machine
end

