-- ==== Sys2Proof/Machine/Firmware.lean ====
section
/-! DEFINITION. Firmware (R284 to R292): the image and its checks, staging, update in service, the push case, the boot load, and `FW_QUERY`. -/

namespace Sys2Proof.Machine

/-! ### The image (R286, R287) -/

/-- R328: the key hash in force for firmware. -/
def Slu.fwKey (x : Slu) : Option (BitVec 384) :=
  match x.lc with
  | .blank => some x.otp.mfgKey
  | .provisioned | .debugUnlocked => some x.otp.fwKeyP
  | .deployed => some x.otp.fwKeyD
  | .retired => none

def fwBodyLen (l : List Byte) : Nat := bnat l 20 4

/-- The bytes that the digest and the signature cover. -/
def fwSigned (l : List Byte) : List Byte := bslice l 0 32 ++ bslice l 384 (fwBodyLen l)

def fwDigest (l : List Byte) : BitVec 384 := beVal 384 (bslice l 32 48)

/-- The first check: identification, reserved fields, `BODY_LEN`, `ENTRY` and the length given. -/
def fwFormOk (l : List Byte) (len : Nat) : Bool :=
  let n := fwBodyLen l
  decide (bnat l 0 4 = 0x53584657 ∧ n % 64 = 0 ∧ 64 ≤ n ∧ n ≤ 393216 ∧ bnat l 24 4 < n ∧
    bnat l 24 4 % 2 = 0 ∧ len = 384 + n) &&
    bzero l 7 1 && bzero l 28 4 && bzero l 177 15 && bzero l 288 96

/-- R287: the first failing check, with its cause. -/
def fwCheck (l : List Byte) (len : Nat) (s : State) : Option (Status × Word) :=
  let ver := (Config.idVersion.setWidth 24).toNat
  let key := bslice l 80 97
  if !fwFormOk l len then some (.formatError, 1)
  else if ¬(bnat l 8 4 ≤ ver ∧ ver ≤ bnat l 12 4) then some (.identityError, 2)
  else if s.slu.fwKey ≠ some (Config.sha384 key) then some (.signatureError, 3)
  else if Config.sha384 (fwSigned l) ≠ fwDigest l then some (.digestError, 4)
  else if !Config.ecdsaVerify key (bslice l 192 96) (fwSigned l) then some (.signatureError, 5)
  else if bnat l 16 4 < s.slu.otp.svnFloor then some (.signatureError, 6)
  else none

/-- What is recorded of a verified image. -/
def stagedOf (addr : BitVec 48) (len : Nat) (l : List Byte) : Staged where
  addr := addr
  len := len
  digest := fwDigest l
  version := bvOf 32 (bslice l 4 4)
  svn := bvOf 32 (bslice l 16 4)
  entry := bvOf 32 (bslice l 24 4)

/-! ### FW_STAGE -/

def fwStageFmt (c : Cmd) : List (Nat × Nat) := c.misaligned 2

/-- R289. -/
def fwStage (c : Cmd) (s : State) : State :=
  let a := c.addr 2
  let len := (c.word 4).toNat
  if s.msq.fwApply.isSome then refuse c .rangeError c.byState s
  else
    let s := mmRequest false s.slu.engineReqid a len s
    if memErr s s.slu.engineReqid a len then memFail c 2 s
    else
      let l := memBytes s a len
      match fwCheck l len s with
      | some (st, d) => refuse c st d s
      | none =>
        let x := stagedOf (BitVec.ofNat 48 a) len l
        ok c ([x.version, x.svn] ++ digestWords x.digest) (s.modSlu fun y => { y with staged := some x })

def execFwStage (id : Nat) (s : State) : Out := .next (startCmd 0x0501 id fwStageFmt fwStage s)

/-! ### Firmware memory -/

/-- Key of a word of a sequencer's memory. -/
def fwKeyOf (q : SeqNo) (w : Nat) : Nat := q.toNat * 131072 + w

/-- Bytes of a sequencer's memory, from a word offset. -/
def State.fwBytes (s : State) (q : SeqNo) (w n : Nat) : List Byte :=
  (List.range n).flatMap fun i => bytesOf 4 (tgetD 0 s.slu.fwMem (fwKeyOf q (w + i)))

/-- Words written from a word offset on. -/
def fwWrite (q : SeqNo) : Nat → List Word → State → State
  | _, [], s => s
  | w, v :: r, s =>
    fwWrite q (w + 1) r (s.modSlu fun x => { x with fwMem := tput 0 x.fwMem (fwKeyOf q w) v })

/-- R19, R335: the one macro of a sequencer's firmware memory is out of service; nothing that is loaded there verifies (log 24). -/
def State.fwLost (s : State) (q : SeqNo) : Bool := s.slu.storeFaults.any (· = (.firmware, q.toNat))

/-- Little-endian words of bytes. -/
def wordsOf (l : List Byte) : List Word :=
  (List.range (l.length / 4)).map fun i => bvOf 32 (bslice l (4 * i) 4)

/-! ### FW_APPLY -/

/-- R288: the push case. -/
def State.pushCase (s : State) : Bool :=
  decide (s.bootSrc = 1 ∧ s.slu.staged = none) && !(List.range 4).any fun i =>
    decide ((s.seq (BitVec.ofNat 2 i)).code = 1 ∨ (s.seq (BitVec.ofNat 2 i)).code = 3)

def Cmd.fwAll (c : Cmd) : Bool := c.bit 2 2
def Cmd.fwSeq (c : Cmd) : SeqNo := c.field 2 0 2

/-- R291: the update would stop the only sequencer running. -/
def State.stopsLast (s : State) (c : Cmd) : Bool :=
  (List.range 4).any fun q => s.onlyRunning q && (c.fwAll || decide (q = c.fwSeq.toNat))

/-- R291: no image, a hobbled fabric, or an update that runs. -/
def State.applyRefused (s : State) : Bool :=
  (s.slu.staged.isNone && !s.pushCase) || s.hobbling || s.msq.fwApply.isSome

/-- Commands that a sequencer held at an awl go back to their queue, and what it held passes. -/
def releaseAwl (q : SeqNo) (s : State) : State :=
  let held := (s.seq q).held
  let s := s.modMsq fun m =>
    { m with cmds := m.cmds.map fun c =>
        if c.phase = .halted q then { c with phase := .queued } else c }
  let s := s.modSeq q fun x => { x with held := [] }
  held.foldl (fun s p => if (s.part p).state = .active then resumePart p s else s) s

/-- R290 step 1: a sequencer takes no new command. -/
def quiesceSeq (q : SeqNo) (s : State) : State :=
  let halted := decide ((s.seq q).code = 5)
  let s := s.modSeq q fun x => { x with code := 2 }
  if halted then releaseAwl q s else s

/-- The update begins with the first sequencer. -/
def beginApply (c : Cmd) (pushed : Option (List Byte × Staged)) (s : State) : State :=
  let qs : List SeqNo := if c.fwAll then [0, 1, 2, 3] else [c.fwSeq]
  let s := startWait c .waiting (s.modMsq fun m => { m with fwApply := some ⟨c.id, qs, 0, pushed⟩ })
  match qs with
  | q :: _ => quiesceSeq q s
  | [] => s

/-- R288: the pushed image, header first, and the length its header gives. -/
def State.pushedImage (s : State) : List Byte :=
  let n := fwBodyLen (s.fwBytes 0 0 96)
  if n ≤ 393216 then s.fwBytes 0 0 (96 + n / 4) else s.fwBytes 0 0 96

/-- R290, R291 and the push case of R288. -/
def fwApply (c : Cmd) (s : State) : State :=
  if s.applyRefused then refuse c .rangeError c.byState s
  else if s.stopsLast c then refuse c .rangeError (detState 2 0) s
  else if s.slu.staged.isSome then beginApply c none s
  else
    let l := s.pushedImage
    match fwCheck l (384 + fwBodyLen l) s with
    | some (st, d) => refuse c st d s
    | none =>
      beginApply c (some (bslice l 0 32, stagedOf 0 l.length l))
        (fwWrite 0 0 (wordsOf (bslice l 384 (fwBodyLen l))) s)

def execFwApply (id : Nat) (s : State) : Out := .next (startCmd 0x0502 id noFmt fwApply s)

/-- The header bytes and the body that a sequencer loads, and the record they must match; none when host memory answers with an error. -/
def State.applySource (s : State) (a : FwApply) : Option (List Byte × List Byte) :=
  match a.pushed with
  | some (h, x) => some (h, s.fwBytes 0 0 ((x.len - 384) / 4))
  | none =>
    match s.slu.staged with
    | some x =>
      if memErr s s.slu.engineReqid x.addr.toNat x.len then none
      else
        let l := memBytes s x.addr.toNat x.len
        some (bslice l 0 32, l.drop 384)
    | none => none

def State.applyImage (s : State) (a : FwApply) : Option Staged :=
  match a.pushed with
  | some (_, x) => some x
  | none => s.slu.staged

/-- A sequencer starts at `ENTRY` (R290 step 4). -/
def startSeq (q : SeqNo) (version : Word) (s : State) : State :=
  s.modSeq q fun x =>
    { x with
      code := 1, awls := [], skip := none, held := [], fwVersion := version, dbgHalt := false, dbgStep := false }

/-- The reply of an update. -/
def applyDone (a : FwApply) (st : Status) (rejected : BitVec 4) (ver : Word) (s : State) : State :=
  let s := s.modMsq fun m => { m with fwApply := none }
  match s.cmd a.cmd with
  | some c =>
    complete c st 0 [a.updated.setWidth 32, rejected.setWidth 32, ver] s
  | none => s

/-- A sequencer enters `REJECTED` and hands over its partitions (R290, R335). -/
def dropSeq (q : SeqNo) (s : State) : State :=
  raiseGlobal 10 (s.modSeq q fun x => { x with code := 4, held := [], skip := none })

/-- R290 step 5. -/
def rejectSeq (q : SeqNo) (s : State) : State :=
  dropSeq q (report .fwRejected .slu none (q.setWidth 12) 0 0 0 s)

/-- The read of the staged image, or of the copy in the push case, which is no request on the memory port (R290 step 3). -/
def readStaged (a : FwApply) (s : State) : State :=
  match a.pushed, s.slu.staged with
  | none, some x => mmRequest false s.slu.engineReqid x.addr.toNat x.len s
  | _, _ => s

/-- R290 steps 3 to 5 for the sequencer whose turn it is. A memory error on the read counts as a digest that differs (log 82). -/
def verifyLoad (a : FwApply) (q : SeqNo) (rest : List SeqNo) (x : Staged) (s : State) : State :=
  let s := readStaged a s
  let (good, s) := match s.applySource a with
    | some (h, b) =>
      (decide (Config.sha384 (h ++ b) = x.digest) && !s.fwLost q, fwWrite q 0 (wordsOf b) s)
    | none => (false, s)
  if good then
    let s := startSeq q x.version s
    let a := { a with left := rest, updated := setBit a.updated q.toNat }
    match rest with
    | [] => pump (applyDone a .ok 0 x.version s)
    | n :: _ => quiesceSeq n (s.modMsq fun m => { m with fwApply := some a })
  else pump (applyDone a .fwRejected (setBit 0 q.toNat) x.version (rejectSeq q s))

/-- One step of the sequencer whose turn it is: from `QUIESCING` to `LOADING` (R290 step 2), then the load. -/
def applyLoad (s : State) : State :=
  match s.msq.fwApply with
  | none => s
  | some a =>
    match a.left, s.applyImage a with
    | q :: rest, some x =>
      if (s.seq q).code = 2 then s.modSeq q fun y => { y with code := 3 } else verifyLoad a q rest x s
    | _, _ => s

/-- From the cut edge of a Hobble on, an update stands at the end of its step (R363, R367). -/
def execFwApplySequencerLoad (s : State) : Out :=
  .next (if s.running && !s.hobbling then applyLoad s else s)

/-! ### FW_QUERY -/

/-- R284. -/
def fwQuery (c : Cmd) (s : State) : State :=
  let q := fun i => s.seq (BitVec.ofNat 2 i)
  ok c [(q 0).version, (q 1).version, (q 2).version, (q 3).version,
    0#16 ++ (q 3).code ++ (q 2).code ++ (q 1).code ++ (q 0).code,
    (s.slu.staged.map (·.version)).getD 0, (s.slu.staged.map (·.svn)).getD 0] s

def execFwQuery (id : Nat) (s : State) : Out := .next (startCmd 0x0503 id noFmt fwQuery s)

/-! ### Boot (R288) -/

/-- The image at the OTP address, or none when host memory answers with an error. -/
def State.bootImage (s : State) : Option (List Byte) :=
  let a := s.slu.otp.bootAddr.toNat
  let rq := s.slu.engineReqid
  if memErr s rq a 384 then none
  else
    let n := fwBodyLen (memBytes s a 384)
    if 393216 < n then some (memBytes s a 384)
    else if memErr s rq a (384 + n) then none
    else some (memBytes s a (384 + n))

/-- All four sequencers load the image and run, or all stay `OFF`; one whose memory is lost stays `OFF` (log 24). -/
def bootLoad (s : State) : State :=
  if !s.running ∨ s.hobbling ∨ s.bootSrc ≠ 0 ∨ s.slu.booted ∨ s.anyRunning then s
  else
    let s := mmRequest false s.slu.engineReqid s.slu.otp.bootAddr.toNat 384
      (s.modSlu fun x => { x with booted := true })
    let good := match s.bootImage with
      | some l => if (fwCheck l (384 + fwBodyLen l) s).isNone then some l else none
      | none => none
    match good with
    | some l =>
      let ws := wordsOf (bslice l 384 (fwBodyLen l))
      pump (([0, 1, 2, 3].filter fun q => !s.fwLost q).foldl (fun s (q : SeqNo) =>
        startSeq q (bvOf 32 (bslice l 4 4)) (fwWrite q 0 ws s)) s)
    | none =>
      service 2 0x08 SvcAt.none (raiseGlobal 10 (report .fwRejected .slu none 0 0 0 0 s))

def execFwBootLoad (s : State) : Out := .next (bootLoad s)

end Sys2Proof.Machine
end

