-- ==== Sys2Proof/Machine/Awls.lean ====
section
/-! DEFINITION. Awls of the management sequencers: setting and clearing (R358), hits (R359, R361) and the resume (R360). -/

namespace Sys2Proof.Machine

/-- Replaces or adds an awl by its number. -/
def putAwl (n : BitVec 3) (kind : Bool) (v : Word) (l : List (BitVec 3 × Bool × Word)) :
    List (BitVec 3 × Bool × Word) :=
  (n, kind, v) :: l.filter fun a => decide (a.1 ≠ n)

/-- An opcode is 16 bits. -/
def awlFmt (c : Cmd) : List (Nat × Nat) :=
  if c.bit 2 5 then reservedIn 3 (c.word 3) 0xFFFF else []

def awlSet (c : Cmd) (s : State) : State :=
  ok c [] (s.modSeq (c.field 2 0 2) fun x =>
    { x with awls := putAwl (c.field 2 2 3) (c.bit 2 5) (c.word 3) x.awls })

def execAwlSet (id : Nat) (s : State) : Out := .next (startCmd 0x0410 id awlFmt awlSet s)

def awlClear (c : Cmd) (s : State) : State :=
  ok c [] (s.modSeq (c.field 2 0 2) fun x =>
    { x with awls := x.awls.filter fun a => decide (a.1 ≠ c.field 2 2 3) })

def execAwlClear (id : Nat) (s : State) : Out := .next (startCmd 0x0411 id noFmt awlClear s)

/-- R360; a sequencer that is not halted refuses by state. -/
def awlResume (c : Cmd) (s : State) : State :=
  let q : SeqNo := c.field 2 0 2
  let x := s.seq q
  if x.code ≠ 5 then refuse c .rangeError (detState 2 0) s
  else ok c [] (releaseAwl q (s.modSeq q fun x => { x with code := 1, skip := some x.awl }))

def execAwlResume (id : Nat) (s : State) : Out := .next (startCmd 0x0412 id noFmt awlResume s)

/-- R358, R359: the sequencer halts, with the command it was about to take, if any. -/
def haltSeq (q : SeqNo) (n : BitVec 3) (kind : Bool) (pc : Word) (c : Option Cmd) (s : State) : State :=
  let named := match kind, c with
    | true, some c => if c.ofPart then [c.part] else []
    | _, _ => []
  let ps := s.owned q.toNat ++ named.filter fun p => !(s.owned q.toNat).any (· = p)
  let s := s.modSeq q fun x =>
    { x with
      code := 5, awl := n, awlKind := kind, pc := pc, held := ps, skip := none
      part := (c.map (·.part)).getD 0, sqn := (c.map (·.field 0 8 8)).getD 0
      opcode := (c.map (·.opcode)).getD 0 }
  let s := match c with
    | some c => setPhase c.id (.halted q) s
    | none => s
  pump (raiseGlobal 9 (ps.foldl (fun s p => drainPart p s) s))

/-- The command that a sequencer runs: the one it takes next (log 31). -/
def State.seqCmd (s : State) (q : SeqNo) : Option Cmd :=
  s.msq.cmds.find? fun c => s.canStart c && decide (s.runner c = some q.toNat)

/-- That command, when one of the sequencer's opcode awls matches it. -/
def State.awlCmd (s : State) (q : SeqNo) : Option (Cmd × BitVec 3) :=
  (s.seqCmd q).bind fun c => (s.opAwl q.toNat c).map fun n => (c, n)

/-- A running sequencer reaches `pc`: a PC awl there hits, unless it is let pass this time; else the opcode awl of the command it takes. A hit that would leave no sequencer running is a miss (R361). -/
def awlHit (q : SeqNo) (pc : Word) (s : State) : State :=
  if !s.running ∨ s.frozen ∨ !s.seqRunning q.toNat ∨ s.seqHalted q.toNat then s
  else
    let x := s.seq q
    match x.awls.find? fun a => !a.2.1 && decide (a.2.2 = pc) with
    | some a =>
      if x.skip = some a.1 then s.modSeq q fun x => { x with skip := none }
      else if s.onlyRunning q.toNat then awlMiss q.toNat s
      else haltSeq q a.1 false pc (s.seqCmd q) s
    | none =>
      match s.awlCmd q with
      | some (c, n) =>
        if s.onlyRunning q.toNat then s else haltSeq q n true pc (some c) s
      | none => s

def execAwlHit (q : SeqNo) (pc : Word) (s : State) : Out := .next (awlHit q pc s)

end Sys2Proof.Machine
end

