-- ==== Sys2Proof/Machine/Banks.lean ====
section
/-! DEFINITION. Banks: power gating (R338, R339), retirement by migration or distribution (R340 to R343), and errors of the stores (R335, R336). -/

namespace Sys2Proof.Machine

/-! ### A physical bank -/

/-- A bound slot lies in the bank. -/
def State.bankBound (s : State) (b : Nat) : Bool := s.obk.rows.any fun e => decide (e.1 / 16384 = b)

/-- Operations on objects that `q` selects are in flight: entries of theirs are being fetched, or they wait for that past bank ingress (log 26). -/
def State.busyOn (s : State) (q : OKey → Bool) : Bool :=
  s.wmc.fetching.any q || s.opr.ops.any fun e => e.stamp.isSome && q (opKey e)

/-- Operations in flight at the bank. -/
def State.bankBusy (s : State) (b : Nat) : Bool := s.busyOn fun k => decide ((s.place k).1 = b)

/-- The bank is the source or the target of the running retirement. -/
def State.inRetire (s : State) (b : Bank) : Bool :=
  match s.obk.retire with
  | some r => decide (r.src = b ∨ r.dst = some b)
  | none => false

/-- Words 2 names a bank that is there. -/
def Cmd.bank (c : Cmd) : Bank := c.field 2 0 7

/-! ### BANK_GATE -/

/-- R338 step 1, R342. -/
def State.gateRefused (s : State) (b : Bank) : Bool :=
  s.bankBound b.toNat || s.inRetire b || s.obk.retired.getLsbD b.toNat

/-- Both forms of the command, chosen by the ungate flag. -/
def gateCmd (c : Cmd) (s : State) : State :=
  let b := c.bank
  if 68 ≤ b.toNat then refuse c .rangeError (det 2 0) s
  else if c.bit 2 8 then
    if s.obk.gated.getLsbD b.toNat then startWait c .waiting (wakeBank b.toNat s) else ok c [] s
  else if s.gateRefused b then refuse c .rangeError (detState 2 0) s
  else
    startWait c .waiting (s.modObk fun o =>
      { o with fenced := setBit o.fenced b.toNat, gating := o.gating ++ [(b, c.id)] })

def execBankGate (id : Nat) (s : State) : Out :=
  .next (match s.cmd id with
    | some c => if c.bit 2 8 then s else startCmd 0x0511 id noFmt gateCmd s
    | none => s)

def execBankUngate (id : Nat) (s : State) : Out :=
  .next (match s.cmd id with
    | some c => if c.bit 2 8 then startCmd 0x0511 id noFmt gateCmd s else s
    | none => s)

/-- A command that waits completes, if it is still there. -/
def endCmd (id : Nat) (st : Status) (detail : Word) (s : State) : State :=
  match s.cmd id with
  | some c => complete c st detail [] s
  | none => s

/-- R338 steps 3 to 5 for the first gate command whose bank is quiet. -/
def gateDone (s : State) : State :=
  match s.obk.gating.find? fun g => !s.bankBusy g.1.toNat with
  | none => s
  | some (b, id) =>
    let s := s.modObk fun o =>
      { o with fenced := clearBit o.fenced b.toNat, gating := dropFirst (· = (b, id)) o.gating }
    if s.bankBound b.toNat then pump (endCmd id .rangeError (detState 2 0) s)
    else
      let s := s.modObk fun o =>
        { o with gated := setBit o.gated b.toNat, waking := clearBit o.waking b.toNat }
      pump (endCmd id .ok 0 s)

def execBankGateComplete (s : State) : Out := .next (if s.acting then gateDone s else s)

/-- A re-powering bank serves: its queue is performed, and ungate commands for it reply (R338, R339). -/
def repower (b : Bank) (s : State) : State :=
  if !s.acting ∨ !s.obk.waking.getLsbD b.toNat then s
  else
    let s := s.modObk fun o =>
      { o with gated := clearBit o.gated b.toNat, waking := clearBit o.waking b.toNat }
    let mine := fun (c : Cmd) =>
      decide (c.opcode = 0x0511 ∧ c.phase = .waiting ∧ c.bank = b) && c.bit 2 8
    let s := (s.msq.cmds.filter mine).foldl (fun s c => ok c [] s) (gcount 33 s)
    pump s

def execGatedBankRepower (bank : Bank) (s : State) : Out := .next (repower bank s)

/-! ### Fuses and spares -/

/-- A bank is retired: its fuse is burnt (R341, R343). -/
def burnBank (b : Bank) (s : State) : State :=
  let i := b.toNat
  let s := s.modSlu fun x => { x with otp := { x.otp with bankRepair := setBit x.otp.bankRepair i } }
  s.modObk fun o =>
    { o with
      retired := setBit o.retired i
      spareUsed := if 64 ≤ i then clearBit o.spareUsed (i - 64) else o.spareUsed
      spareRetired := if 64 ≤ i then setBit o.spareRetired (i - 64) else o.spareRetired }

/-- The lowest free spare. -/
def State.freeSpare (s : State) : Option Bank :=
  (lowest (fun i => !s.obk.spareUsed.getLsbD i && !s.obk.spareRetired.getLsbD i) 4).map fun i =>
    BitVec.ofNat 7 (64 + i)

/-- The logical bank that a physical bank holds. -/
def State.lbankAt (s : State) (b : Bank) : Option Nat :=
  lowest (fun l => decide ((s.mapEntry l).phys = b ∧ (s.mapEntry l).mode ≠ .distributed)) 64

def State.setMap (s : State) (l : Nat) (e : MapEntry) : State :=
  s.modObk fun o => { o with map := tset o.map l e }

/-- The bank of a report or notice. -/
def svcBank (b : Bank) (l : Nat) : SvcAt := ⟨b, BitVec.ofNat 6 l, 0⟩

/-! ### Distribution (R343) -/

/-- Every object in the banks, with its name. -/
def State.bankObjs (s : State) : List (OKey × Obj) :=
  (s.ctm.dir.filter fun e => decide (e.2.state = .resident ∨ e.2.state = .evicting)).flatMap fun e =>
    let p : PartId := BitVec.ofNat 6 (e.1 / 256)
    let c : CtxId := BitVec.ofNat 8 (e.1 % 256)
    (s.boundSlots p c).filterMap fun k => (s.obj k).map fun o => (k, o)

/-- A context of the directory, by its key. -/
def State.ctxAt (s : State) (k : Nat) : Ctx := tgetD Ctx.reset s.ctm.dir k

/-- A context in one of two states whose range ends above `lim`. -/
def Ctx.above (lim : Nat) (a b : CState) (x : Ctx) : Bool :=
  decide (x.state = a ∨ x.state = b) && decide (lim < x.rowBase.toNat + x.rowCount.toNat)

/-- Step 1: resident and restoring contexts whose ranges end above `lim`, in directory order. -/
def State.above (s : State) (lim : Nat) : List Nat :=
  (s.ctm.dir.filter fun e => e.2.above lim .resident .restoring).map (·.1)

/-- A context above `lim` is being evicted: its rows go of themselves. -/
def State.leavingAbove (s : State) (lim : Nat) : Bool :=
  s.ctm.dir.any fun e => e.2.above lim .evicting .evicting

/-- Step 1: a range below `lim` for each context, all beside the ranges in use and beside each other; none if one cannot be placed. -/
def State.planMoves (s : State) (lim : Nat) :
    List Nat → List (Nat × Nat × Nat) → Option (List (Nat × Nat × Nat))
  | [], ms => some ms
  | k :: r, ms =>
    let n := (s.ctxAt k).rowCount.toNat
    match lowestFit (s.rowRanges ++ ms.map (·.2)) lim n with
    | some b => s.planMoves lim r (ms ++ [(k, b, n)])
    | none => none

/-- `ROW_LIMIT` after one loss more (R29). -/
def State.lowerLimit (s : State) : Nat := 16384 - 256 * (s.distCount + 1)

/-- The ranges that a distribution reserves, if every context can be placed. -/
def State.distMoves (s : State) : Option (List (Nat × Nat × Nat)) :=
  s.planMoves s.lowerLimit (s.above s.lowerLimit) []

/-- Step 2: the contexts that are still above the new limit take their ranges. -/
def relocate (lim : Nat) (ms : List (Nat × Nat × Nat)) (s : State) : State :=
  ms.foldl (fun s m =>
    let x := s.ctxAt m.1
    if x.above lim .resident .restoring then
      s.modCtm fun t =>
        { t with dir := tput Ctx.reset t.dir m.1 { x with rowBase := BitVec.ofNat 14 m.2.1 } }
    else s) s

/-- Each key once. -/
def keysOnce : List OKey → List OKey
  | [] => []
  | k :: r => k :: (keysOnce r).filter fun x => decide (x ≠ k)

/-- The queues of the objects that have moved get new descriptors (R413). -/
def renewMoved (old : State) (s : State) : State :=
  (keysOnce (s.wmc.waiters.map (·.key))).foldl (fun s k =>
    if old.hasSlot k && decide (old.slot k ≠ s.slot k) then renewWq k s else s) s

/-- Steps 2 to 4 on the rows: the engine with logical bank `l` distributed, its contexts moved to `ms`. R28 and R29 number losses up to the 63rd; a 64th takes `DSLOT` 63 and leaves no rows (log 63). -/
def distribute (l : Nat) (ms : List (Nat × Nat × Nat)) (s : State) : State :=
  let os := s.bankObjs
  let k := s.distCount
  let t := relocate s.lowerLimit ms s
  let t := t.modObk fun o => { o with rows := [] }
  let t := t.setMap l { t.mapEntry l with mode := .distributed, dslot := BitVec.ofNat 6 k }
  renewMoved s (os.foldl (fun t x => t.setObj x.1 x.2) t)

/-! ### Retirement -/

/-- Why a retirement cannot start or go on. -/
inductive RetireStart where
  | started (s : State)
  /-- Done at once: a spare not in use. -/
  | done (s : State)
  | blocked (s : State)
  | retired
  | busy

/-- R343 step 1 fails. -/
def blockRetire (b : Bank) (l : Nat) (s : State) : State := service 2 0x05 (svcBank b l) s

/-- R340: a retirement of a bank for a command or on the engine's own account. -/
def beginRetire (b : Bank) (cmd : Option Nat) (s : State) : RetireStart :=
  if s.obk.retire.isSome then .busy
  else if s.obk.retired.getLsbD b.toNat then .retired
  else
    match s.lbankAt b with
    | none => .done (burnBank b s)
    | some l =>
      match s.freeSpare with
      | some d =>
        let s := s.modObk fun o =>
          { o with
            retire := some ⟨BitVec.ofNat 6 l, b, some d, cmd, [], false⟩
            gated := clearBit o.gated d.toNat, waking := clearBit o.waking d.toNat }
        let s := s.setMap l { s.mapEntry l with mode := .migrating }
        .started (service 0 0x02 (svcBank b l) s)
      | none =>
        match s.distMoves with
        | none => .blocked (blockRetire b l s)
        | some ms =>
          .started (s.modObk fun o =>
            { o with retire := some ⟨BitVec.ofNat 6 l, b, none, cmd, ms, false⟩ })

/-- R340 for `BANK_RETIRE`; behind a running retirement it waits. -/
def bankRetire (c : Cmd) (s : State) : State :=
  if 68 ≤ c.bank.toNat then refuse c .rangeError (det 2 0) s
  else
    match beginRetire c.bank (some c.id) s with
    | .started t => startWait c .waiting t
    | .done t => ok c [] t
    | .blocked t => refuse c .rangeError (detState 2 0) t
    | .retired => refuse c .rangeError (detState 2 0) s
    | .busy => s

def execBankRetire (id : Nat) (s : State) : Out := .next (startCmd 0x0510 id noFmt bankRetire s)

/-- The retirements that wait start in order; `n` bounds them. -/
def nextRetire : Nat → State → State
  | 0, s => s
  | n + 1, s =>
    match s.obk.retireq with
    | [] => s
    | b :: r =>
      let t := s.modObk fun o => { o with retireq := r }
      match beginRetire b none t with
      | .started u => u
      | .done u => nextRetire n u
      | .blocked u => nextRetire n u
      | .retired => nextRetire n t
      | .busy => s

/-- A failed target of a migration that has not switched: the next spare, or a distribution (R342). -/
def failTarget (r : Retire) (d : Bank) (s : State) : State :=
  let s := burnBank d s
  match s.freeSpare with
  | some n =>
    s.modObk fun o =>
      { o with
        retire := some { r with dst := some n, holding := false }
        gated := clearBit o.gated n.toNat, waking := clearBit o.waking n.toNat }
  | none =>
    let l := r.lbank.toNat
    let s := s.setMap l { s.mapEntry l with mode := .direct }
    match s.distMoves with
    | none =>
      let s := blockRetire r.src l (s.modObk fun o => { o with retire := none })
      let s := match r.cmd with
        | some id => endCmd id .rangeError (detState 2 0) s
        | none => s
      nextRetire (s.obk.retireq.length + 1) s
    | some ms => s.modObk fun o => { o with retire := some { r with dst := none, moves := ms, holding := false } }

/-- The engine retires a bank itself: at once, after the running retirement, or as the failed target of it. -/
def selfRetire (b : Bank) (s : State) : State :=
  match s.obk.retire with
  | some r =>
    if r.dst = some b ∧ (s.mapEntry r.lbank.toNat).mode = .migrating then failTarget r b s
    else if r.src = b ∨ s.obk.retireq.any (· = b) then s
    else s.modObk fun o => { o with retireq := o.retireq ++ [b] }
  | none => nextRetire 1 (s.modObk fun o => { o with retireq := o.retireq ++ [b] })

/-- The rows of a physical bank as they stand in another. -/
def copyRows (b d : Bank) (s : State) : State :=
  let mine := fun (e : Nat × Obj) => decide (e.1 / 16384 = b.toNat)
  let moved := (s.obk.rows.filter mine).map fun e => (d.toNat * 16384 + e.1 % 16384, e.2)
  s.modObk fun o =>
    { o with rows := moved.foldl (fun t e => tset t e.1 e.2) (o.rows.filter fun e => !mine e) }

/-- OPR holds new operations on what moves, until the operations in flight have been performed (R341, R343). -/
def holdMoves (s : State) : State :=
  s.modObk fun o => { o with retire := o.retire.map fun r => { r with holding := true } }

/-- R341 step 3: new operations are held; with none in flight the logical bank moves on one edge. -/
def migrationSwitch (s : State) : State :=
  match s.obk.retire with
  | some r =>
    match r.dst with
    | some d =>
      if (s.mapEntry r.lbank.toNat).mode ≠ .migrating then s
      else if s.bankBusy r.src.toNat then holdMoves s
      else
        let b := r.src.toNat
        let t := (copyRows r.src d s).setMap r.lbank.toNat ⟨d, .direct, 0⟩
        let t := t.modObk fun o =>
          { o with
            retire := some { r with holding := false }
            spareUsed := if 64 ≤ b then clearBit (setBit o.spareUsed (d.toNat - 64)) (b - 64)
              else setBit o.spareUsed (d.toNat - 64) }
        pump (renewMoved s t)
    | none => s
  | none => s

def execBankMigrationSwitch (s : State) : Out := .next (if s.acting then migrationSwitch s else s)

/-- A retirement ends: its command replies and the next one starts. -/
def endRetire (r : Retire) (st : Status) (detail : Word) (s : State) : State :=
  let s := s.modObk fun o => { o with retire := none }
  let s := match r.cmd with
    | some id => endCmd id st detail s
    | none => s
  pump (nextRetire (s.obk.retireq.length + 1) s)

/-- R341 step 4. -/
def migrationComplete (s : State) : State :=
  match s.obk.retire with
  | some r =>
    match r.dst with
    | some d =>
      if (s.mapEntry r.lbank.toNat).phys ≠ d then s
      else
        let s := (burnBank r.src s).modObk fun o => { o with gated := setBit o.gated r.src.toNat }
        endRetire r .ok 0 (service 1 0x03 (svcBank r.src r.lbank.toNat) s)
    | none => s
  | none => s

def execMigrationComplete (s : State) : Out := .next (if s.acting then migrationComplete s else s)

/-- R343 steps 2 to 4, once no operation on what moves is in flight, no context above the new limit is being evicted, and class 5 reaches the rows (R18, R339). -/
def distributionComplete (s : State) : State :=
  match s.obk.retire with
  | some r =>
    if r.dst.isSome then s
    else
      let s := holdMoves s
      if s.busyOn s.moveHeld ∨ s.leavingAbove s.lowerLimit then s
      else if s.rowsDark then wakeRows s
      else
        let l := r.lbank.toNat
        let t := distribute l r.moves s
        endRetire r .ok 0 (service 2 0x04 (svcBank r.src l) (burnBank r.src t))
  | none => s

def execDistributionComplete (s : State) : Out :=
  .next (if s.acting then distributionComplete s else s)

/-! ### Corrections (R16, R335, R336, R340) -/

/-- A macro that there is; the numbers of macros of most stores are not given (log 24). -/
def unitThere : WipeUnit → Bool
  | .bank b => decide (b.toNat < 68)
  | .store .waiter n => decide (n * Config.waiterBank < Config.waiterEntries)
  | .store .firmware n => decide (n < 4)
  | .store _ _ => true

/-- Corrections of the last second. -/
def recentCorr (now : Nat) (l : List (Nat × Nat)) : List (Nat × Nat) :=
  l.filter fun x => decide (now < x.1 + 1000000000)

/-- Their number. -/
def corrSum (l : List (Nat × Nat)) : Nat := (l.map (·.2)).sum

def State.corrOf (s : State) (u : WipeUnit) : Corr :=
  (s.slu.corr.find? fun c => decide (c.unit = u)).getD ⟨u, 0, []⟩

/-- Corrections of one macro, and of the whole engine, within the last second. -/
def State.corrRate (s : State) (u : Option WipeUnit) : Nat :=
  corrSum ((s.slu.corr.filter fun c => u.all fun x => decide (c.unit = x)).flatMap fun c =>
    recentCorr s.now c.recent)

/-- `n` corrections in a macro are counted (R16, R335, R351). -/
def addCorr (u : WipeUnit) (n : Nat) (s : State) : State :=
  let c := s.corrOf u
  let c := { c with total := c.total + n, recent := recentCorr s.now c.recent ++ [(s.now, n)] }
  let s := s.modSlu fun x =>
    { x with corr := x.corr.filter (fun y => decide (y.unit ≠ u)) ++ [c] }
  gcountN 27 n s

/-- Where a `SERVICE` notice says that a macro lies. -/
def State.unitAt (s : State) : WipeUnit → SvcAt
  | .bank b => svcBank b ((s.lbankAt b).getD 0)
  | .store _ n => { SvcAt.none with pbank := BitVec.ofNat 7 n }

/-- A macro that reaches 256 corrections within 1 s, and the engine that reaches 4,096, raise `ADVISE`; a bank is then retired. -/
def correctionThreshold (u : WipeUnit) (n : Nat) (s : State) : State :=
  let t := addCorr u n s
  let t :=
    if s.corrRate (some u) < 256 ∧ 256 ≤ t.corrRate (some u) then
      let v := service 1 0x01 (t.unitAt u) t
      match u with
      | .bank b => selfRetire b v
      | .store _ _ => v
    else t
  if s.corrRate none < 4096 ∧ 4096 ≤ t.corrRate none then service 1 0x01 SvcAt.none t else t

def execCorrectionThreshold (c : Corrections) (s : State) : Out :=
  .next (if s.running && unitThere c.unit then correctionThreshold c.unit c.count s else s)

/-! ### Uncorrectable errors (R335) -/

/-- The reporting unit of a store. -/
def siteUnit : ErrSite → Unit'
  | .objectWord _ _ => .obk
  | .waiterEntry _ | .remoteWait _ | .ownedEntry _ | .holdingEntry _ | .fenceEntry _ => .wmc
  | .ringDesc _ => .trk
  | .ctxEntry _ _ => .ctm
  | .opEntry _ => .opr
  | .heldEntry _ => .lcu
  | .firmware _ => .msq
  | .staging _ => .obs

/-- The store of a site; none for an object bank. -/
def siteStore : ErrSite → Option Store
  | .objectWord _ _ => none
  | .waiterEntry _ | .remoteWait _ | .ownedEntry _ | .holdingEntry _ | .fenceEntry _ => some .waiter
  | .ringDesc _ => some .ringDesc
  | .ctxEntry _ _ => some .directory
  | .opEntry _ => some .opTable
  | .heldEntry _ => some .held
  | .firmware _ => some .firmware
  | .staging snap => some (if snap then .snapshot else .trace)

/-- Removes the element at a place. -/
def dropAt {α : Type} (n : Nat) (l : List α) : List α := l.take n ++ l.drop (n + 1)

/-- An operation that met the error completes with `NO_OBJECT`. -/
def failOp (id : Nat) (s : State) : State :=
  match s.opEntry id with
  | some e => if e.st.open_ then finish e .noObject 0 none s else s
  | none => s

/-- The record of a context that is out loses an object with all that belongs to it. -/
def dropOut (k : OKey) (s : State) : State :=
  let s := modTack k.part k.ctx (fun r =>
    { r with
      objs := r.objs.filter fun o => decide (o.1 ≠ k.index)
      rings := r.rings.filter fun d => decide (d.1 ≠ k.index)
      records := r.records.filter fun x => decide (x.key ≠ k)
      fences := r.fences.filter fun x => decide (x.key ≠ k)
      defer := r.defer.filter fun x => decide (x.key ≠ k) }) s
  match s.tackRec k.part k.ctx with
  | some r => writeTack r s
  | none => s

/-- Destroys an object if it is bound, in its bank or in the record of its context. -/
def loseObject (k : OKey) (s : State) : State :=
  match s.obj k with
  | some o => destroyObject k o (inner 5 s)
  | none =>
    match s.objAny k with
    | some o => dropOut k (destroyObject k o s)
    | none => s

/-- What the store at an error does; none when nothing is stored there. -/
def errEffect (site : ErrSite) (s : State) : Option State :=
  match site with
  | .objectWord k op =>
    if s.hasSlot k then
      let b : Bank := BitVec.ofNat 7 (s.place k).1
      let s := loseObject k s
      let s := match op with
        | some id => if (s.opEntry id).any fun e => decide (opKey e = k) && !e.op.noObject then failOp id s else s
        | none => s
      some (selfRetire b s)
    else none
  | .waiterEntry n =>
    match s.wmc.waiters[n]? with
    | some w =>
      if w.spilled then none
      else some (afterLeave w.key (decide (w.op = .reserve))
        (wakeWaiter w .noObject 0 none 0 (0, 0, 5) (unpark w s)))
    | none => none
  | .remoteWait n =>
    match s.wmc.rwaits[n]? with
    | some x => some (endRWait .noObject 5 x s)
    | none => none
  | .ownedEntry k => if (s.objAny k).isSome then some (loseObject k s) else none
  | .holdingEntry n =>
    if n < s.olu.holdings.length then
      some (s.modOlu fun o => { o with holdings := dropAt n o.holdings })
    else none
  | .fenceEntry n =>
    if n < s.olu.fences.length then some (s.modOlu fun o => { o with fences := dropAt n o.fences })
    else none
  | .ringDesc k => if (s.descOf k).isSome then some (loseObject k s) else none
  | .ctxEntry p c => if (s.ctx p c).state = .free then none else some (destroyCtx p c s).2
  | .opEntry n => if (s.opEntry n).isSome then some (failOp n s) else none
  | .heldEntry n =>
    match s.lcu.held[n]? with
    | some h =>
      let s := dropHeld h (if h.posted then s else lowerHeld h.land s)
      some (if h.commit then closeAt h.target s else s)
    | none => none
  | .firmware q =>
    if s.seqRunning q.toNat then some (dropSeq q s) else none
  | .staging true => if s.hobbling then some (gcount 40 s) else none
  | .staging false =>
    match s.obs.trace.staging with
    | [] => none
    | r :: rest =>
      some (traceDrop r.2 (s.modObs fun o => { o with trace := { o.trace with staging := rest } }))

/-- The object of a report, where it is known. -/
def State.errRef (s : State) : ErrSite → BitVec 44
  | .objectWord k _ | .ownedEntry k | .ringDesc k => s.keyRef k
  | .waiterEntry n => ((s.wmc.waiters[n]?).map fun w => s.keyRef w.key).getD 0
  | .remoteWait n => ((s.wmc.rwaits[n]?).map fun x => packRef x.node x.ctx x.index).getD 0
  | .holdingEntry n =>
    ((s.olu.holdings[n]?).map fun h => packRef h.node h.key.ctx h.key.index).getD 0
  | .fenceEntry n => ((s.olu.fences[n]?).map fun x => s.keyRef x.key).getD 0
  | .opEntry n =>
    ((s.opEntry n).map fun e =>
      if e.op.noObject then 0 else packRef e.req.node e.req.ctx e.req.index).getD 0
  | .heldEntry n => ((s.lcu.held[n]?).map fun h => s.keyRef h.target).getD 0
  | .ctxEntry _ c => packRef s.fab.nodeId c 0
  | .firmware _ | .staging _ => 0

/-- The address of a report: the row of an object word, the number of a descriptor or directory entry, else the place in the model's list (log 13). -/
def State.errAddr (s : State) : ErrSite → Nat
  | .objectWord k _ => (s.place k).2
  | .ringDesc k => ((s.descOf k).map (·.1)).getD 0
  | .ctxEntry p c => ctxKey p c
  | .waiterEntry n | .remoteWait n | .holdingEntry n | .fenceEntry n | .opEntry n | .heldEntry n => n
  | .ownedEntry _ | .firmware _ | .staging _ => 0

/-- A macro of a store other than the banks leaves service and its store shrinks (R19); a waiter bank's contents spill first. -/
def storeFault (m : Store × Nat) (s : State) : State :=
  if s.slu.storeFaults.any (· = m) then s
  else
    let s := s.modSlu fun x => { x with storeFaults := x.storeFaults ++ [m] }
    let s := service 2 0x07 { SvcAt.none with pbank := BitVec.ofNat 7 m.2 } s
    if m.1 = .waiter then spillLoop (s.waiterUse + 1) s else s

/-- A second error in a macro within 1 s is a store fault. -/
def repeatError (m : Store × Nat) (s : State) : State :=
  let again := s.slu.ueLast.any fun e => decide (e.1 = m ∧ s.now ≤ e.2 + 1000000000)
  let s := s.modSlu fun x =>
    { x with ueLast := (m, s.now) :: x.ueLast.filter fun e => decide (e.1 ≠ m) }
  if again then storeFault m s else s

/-- The number of the macro of an error: a firmware memory is one macro, that of its sequencer. -/
def siteMacro (site : ErrSite) (m : Nat) : Nat :=
  match site with
  | .firmware q => q.toNat
  | _ => m

/-- The macro of an error; an object bank's follows from the place of the word. -/
def siteUnitNo (site : ErrSite) (m : Nat) (s : State) : WipeUnit :=
  match site, siteStore site with
  | .objectWord k _, _ => .bank (BitVec.ofNat 7 (s.place k).1)
  | _, some st => .store st (siteMacro site m)
  | _, none => .store .waiter m

/-- The effect of the store, a report with macro, address and object, a `SERVICE` notice, and the count. -/
def uncorrectable (site : ErrSite) (m : Nat) (s : State) : State :=
  match errEffect site s with
  | none => s
  | some t =>
    let m := siteMacro site m
    let at_ : SvcAt := match site with
      | .objectWord k _ => svcBank (BitVec.ofNat 7 (s.place k).1) (lbankOf k.index)
      | _ => { SvcAt.none with pbank := BitVec.ofNat 7 m }
    let t := report .uncorrectable (siteUnit site) none (BitVec.ofNat 12 m) 0 (s.errRef site)
      (BitVec.ofNat 16 (s.errAddr site)) (gcount 28 t)
    let t := service 0 0x06 at_ t
    pump (match siteStore site with
      | some st => repeatError (st, m) t
      | none => t)

def execUncorrectableError (site : ErrSite) (macroNo : Nat) (s : State) : Out :=
  .next (if s.running && unitThere (siteUnitNo site macroNo s) then uncorrectable site macroNo s else s)

end Sys2Proof.Machine
end

