-- ==== Sys2Proof/Machine/Lifecycle.lean ====
section
/-! DEFINITION. Resets and startup (R316 to R327, R344), the life-cycle (R328 to R334), and the test access port (R387). -/

namespace Sys2Proof.Machine

/-! ### Straps (R319) -/

/-- Straps as captured: invalid fields take their substitutes and set `STRAP_ERR`. -/
def captureStraps (v : BitVec 16) : BitVec 17 :=
  let boot : BitVec 2 := v.extractLsb' 0 2
  let fp : BitVec 4 := v.extractLsb' 6 4
  let badBoot := decide (boot = 3)
  let badFp := decide (8 < fp.toNat)
  b1 (badBoot || badFp) ++ (v.extractLsb' 10 6 : BitVec 6) ++ (if badFp then 0 else fp) ++
    (v.extractLsb' 2 4 : BitVec 4) ++ (if badBoot then 2 else boot)

/-- R321: the preset of `STARTUP_SEQ`. -/
def seqPreset (straps : BitVec 17) : BitVec 6 :=
  match (straps.extractLsb' 12 2 : BitVec 2).toNat with
  | 0 => 0x39 | 1 => 0x36 | 2 => 0x27 | _ => 0x2D

/-! ### BANK_MAP from the fuses (R344) -/

/-- One fused logical bank: the lowest free spare, else `DISTRIBUTED` in order. R28 numbers losses up to the 63rd; a 64th takes `DSLOT` 63 and leaves no rows (log 63). -/
def mapFused (l : Nat) (o : Obk) : Obk :=
  match lowest (fun i => !o.spareUsed.getLsbD i && !o.spareRetired.getLsbD i) 4 with
  | some i =>
    { o with map := tset o.map l ⟨BitVec.ofNat 7 (64 + i), .direct, 0⟩, spareUsed := setBit o.spareUsed i }
  | none =>
    let k := (o.map.filter fun e => decide (e.2.mode = .distributed)).length
    { o with map := tset o.map l ⟨BitVec.ofNat 7 l, .distributed, BitVec.ofNat 6 k⟩ }

/-- R344: the map that a set of fuses gives. -/
def mapOfFuses (fuses : BitVec 68) (o : Obk) : Obk :=
  let o := { o with
    map := [], retired := fuses, spareUsed := 0, spareRetired := fuses.extractLsb' 64 4 }
  ((List.range 64).filter fuses.getLsbD).foldl (fun o l => mapFused l o) o

/-- Banks found bad at a wipe leave a kept map as if their fuses were burnt, in ascending order of logical bank (R327, R344). -/
def loseKept (bs : List Bank) (o : Obk) (lost : List Nat) : Obk :=
  let burnt := bs.foldl (fun (f : BitVec 68) b => setBit f b.toNat) o.retired
  let used := bs.foldl (fun (f : BitVec 4) b => if 64 ≤ b.toNat then clearBit f (b.toNat - 64) else f) o.spareUsed
  lost.foldl (fun o l => mapFused l o)
    { o with retired := burnt, spareUsed := used, spareRetired := burnt.extractLsb' 64 4 }

/-- Logical banks that one of some physical banks holds. -/
def State.heldBy (s : State) (bs : List Bank) : List Nat :=
  (List.range 64).filter fun l => bs.any fun b =>
    decide ((s.mapEntry l).phys = b ∧ (s.mapEntry l).mode ≠ .distributed)

/-- S1 sets `REPLACE` while a logical bank is `DISTRIBUTED`; the notice names the lowest (R336, log 32). -/
def fuseService (s : State) : State :=
  match (List.range 64).find? s.isDistributed with
  | some l => if s.slu.svc = 2 then s else service 2 0x04 (svcBank (s.mapEntry l).phys l) s
  | none => s

/-! ### Resets -/

/-- What no reset touches: the command queue, OTP, host memory, open values, and the `ROOT_LOCK` input. -/
def afterReset (s : State) : State :=
  { State.reset with
    pending := s.pending, mem := s.mem, mmBad := s.mmBad, free := s.free
    slu := { Slu.reset with otp := s.slu.otp, lc := s.slu.otp.lc }
    fab := { Fab.reset with scope := s.slu.otp.portScope }
    clk := { Clk.reset with rootLock := s.clk.rootLock } }

/-- S0 ends at once when `ROOT_LOCK` is high (R324). -/
def beginStartup (s : State) : State :=
  if s.clk.rootLock then s.modClk fun c => { c with divAligned := true, boot := .wipe } else s

/-- S0 begins: the order of the steps is taken (R321), and what the reset has left reads until S3 (R10, R393). -/
def enterS0 (s : State) : State :=
  let s := s.modClk fun c => { c with instSeq := c.startupSeq, instInc := c.timeInc }
  beginStartup (s.modSlu fun x => { x with instSvc := x.svc, instClass := x.otp.instClass })

/-- R323, R325. -/
def coldReset (straps : BitVec 16) (s : State) : State :=
  let (v, s) := fresh s
  let inc : Byte := v.setWidth 8
  let t := afterReset s
  let caught := captureStraps straps
  let t := t.modClk fun c =>
    { c with
      straps := caught, startupSeq := seqPreset caught, cause := 1
      incarnation := if inc = 0 then 1 else inc }
  let t := t.modObk (mapOfFuses s.slu.otp.bankRepair)
  enterS0 (fuseService t)

def execColdReset (straps : BitVec 16) (s : State) : Out := .next (coldReset straps s)

/-- R342: a migration that a warm reset meets is completed. -/
def finishMigration (s : State) : State :=
  match s.obk.retire with
  | some r =>
    match r.dst with
    | some d =>
      let l := r.lbank.toNat
      let s := s.modObk fun o =>
        { o with
          map := tset o.map l ⟨d, .direct, 0⟩, spareUsed := setBit o.spareUsed (d.toNat - 64) }
      burnBank r.src s
    | none => s
  | none => s

/-- The notice of a migration that the reset has completed: its bank is retired to a spare (R336). -/
def migrated (r : Option Retire) (s : State) : State :=
  match r with
  | some r => if r.dst.isSome then service 1 0x03 (svcBank r.src r.lbank.toNat) s else s
  | none => s

/-- R324, R325: a warm reset with a cause bit; `latch` is the debug latch it leaves. -/
def warmReset (cause : BitVec 5) (latch : Bool) (s : State) : State :=
  let running := s.obk.retire
  let s := finishMigration s
  let t := afterReset s
  let t := t.modClk fun c =>
    { c with
      straps := s.clk.straps, startupSeq := s.clk.startupSeq, timeInc := s.clk.timeInc
      cause, warmCount := if s.clk.warmCount = 255 then 255 else s.clk.warmCount + 1
      incarnation := if s.clk.incarnation = 255 then 1 else s.clk.incarnation + 1 }
  let t := t.modObk fun o =>
    { o with
      map := s.obk.map, retired := s.obk.retired, spareUsed := s.obk.spareUsed
      spareRetired := s.obk.spareRetired }
  let t := t.modSlu fun x =>
    { x with
      svc := s.slu.svc, svcCause := s.slu.svcCause, dbgLatch := latch, storeFaults := s.slu.storeFaults
      lc := if latch then .debugUnlocked else x.lc }
  enterS0 (migrated running t)

/-- `WRST_N` (R324). -/
def execWarmReset (s : State) : Out := .next (warmReset 2 false s)

/-- R318. -/
def rootLockLoss (s : State) : State :=
  let t := s.modClk fun c => { c with rootLock := false, divAligned := false }
  if s.clk.boot = .align then t else warmReset 8 false t

def execRootLockLoss (s : State) : Out := .next (rootLockLoss s)

/-- R316: S0 ends 96 root cycles after the rise. -/
def rootLockRise (s : State) : State :=
  if s.clk.boot = .align then beginStartup (s.modClk fun c => { c with rootLock := true }) else s

def execRootLockRise (s : State) : Out := .next (rootLockRise s)

/-! ### The end of S1 (R326, R327) -/

/-- The map without the banks that failed their check: rebuilt after a cold reset, changed after a warm one. -/
def loseBanks (bs : List Bank) (s : State) : State :=
  if s.clk.cause.getLsbD 0 then
    s.modObk (mapOfFuses (bs.foldl (fun (f : BitVec 68) b => setBit f b.toNat) s.slu.otp.bankRepair))
  else s.modObk fun o => loseKept bs o (s.heldBy bs)

/-- The banks among failed units, by number. -/
def failedBanks : List WipeUnit → List Bank
  | [] => []
  | .bank b :: r => b :: failedBanks r
  | .store _ _ :: r => failedBanks r

/-- S4: enabled fabric ports leave `OFF`, and spares not in use are gated (R320, R338). -/
def enableWrites (s : State) : State :=
  let s := s.modObk fun o => { o with gated := (~~~o.spareUsed) ++ 0#64 }
  (List.range 8).foldl (fun s i =>
    let p : FabPort := BitVec.ofNat 3 i
    if s.fpEnabled p then s.modFp p fun x => { x with state := .down } else s) s

/-- One of the steps S2 to S4 by its code: outputs, state with TIME from zero, writes (R320). -/
def releaseStep (code : BitVec 2) (s : State) : State :=
  match code.toNat with
  | 1 => s.modClk fun c => { c with outputs := true }
  | 2 => s.modClk fun c => { c with boot := .run, time := 0 }
  | _ => enableWrites s

/-- S2 to S4 in the order that `STARTUP_SEQ` held when S0 began (R321). -/
def releaseAll (s : State) : State :=
  let order := s.clk.instSeq
  [0, 1, 2].foldl (fun s n => releaseStep (stepCode order n) s) s

/-- A logical bank has become `DISTRIBUTED` at the wipe, though no failed bank held it: the fuses' map has lost a spare (R344). -/
def newlyDistributed (old s : State) (failed : List Bank) : Bool :=
  (List.range 64).any fun l =>
    s.isDistributed l && !old.isDistributed l && !(old.heldBy failed).any (· = l)

/-- Level of a failed bank's event: `REPLACE` when its logical bank, by the map before S1, or one that lost its spare through the failures is `DISTRIBUTED`; `ADVISE` when its logical bank has gone to a spare; an unused spare raises nothing else (R336). -/
def wipeLevel (old : State) (failed : List Bank) (b : Bank) (s : State) : BitVec 2 :=
  if newlyDistributed old s failed then 2
  else
    match old.lbankAt b with
    | some l => if s.isDistributed l then 2 else 1
    | none => 0

/-- A failed unit's event: the loss of a bank, or a store fault (R327, R336). `old` is the engine before its map changed. -/
def wipeEvent (old : State) (failed : List Bank) (u : WipeUnit) (s : State) : State :=
  match u with
  | .bank b => service (wipeLevel old failed b s) 0x0A (svcBank b ((old.lbankAt b).getD 0)) s
  | .store st n =>
    let s := s.modSlu fun x =>
      { x with storeFaults := if x.storeFaults.any (· = (st, n)) then x.storeFaults else x.storeFaults ++ [(st, n)] }
    service 2 0x0A { SvcAt.none with pbank := BitVec.ofNat 7 n } s

/-- What a failed unit leaves once S3 has run: a report, its event, and for a bank the burnt fuse. -/
def wipeFault (old : State) (failed : List Bank) (u : WipeUnit) (s : State) : State :=
  match u with
  | .bank b =>
    wipeEvent old failed u (burnBank b (report .wipeFault .cru none 0 0 0 (b.setWidth 16) s))
  | .store _ n => wipeEvent old failed u (report .wipeFault .cru none 0 0 0 (BitVec.ofNat 16 n) s)

/-- The check pass has ended; `RESET_CAUSE` says whether a unit failed. In `RETIRED` no further step runs, so that no fuse is burnt and no report is made (R327, R328). -/
def wipeDone (failed : List WipeUnit) (s : State) : State :=
  let failed := failed.filter unitThere
  if s.clk.boot ≠ .wipe then s
  else
    let old := s
    let bs := failedBanks failed
    let s := if failed.isEmpty then s else s.modClk fun c => { c with cause := setBit c.cause 4 }
    let s := loseBanks bs s
    if s.slu.lc = .retired then
      (failed.foldl (fun s u => wipeEvent old bs u s) s).modClk fun c => { c with boot := .retired }
    else failed.foldl (fun s u => wipeFault old bs u s) (releaseAll s)

def execSramWipeDone (failed : List WipeUnit) (s : State) : Out := .next (wipeDone failed s)

/-! ### LC_ADVANCE -/

def lcOf (n : Nat) : Option Lc :=
  match n with
  | 0 => some .blank | 1 => some .provisioned | 2 => some .debugUnlocked | 3 => some .deployed
  | 4 => some .retired | _ => none

/-- R330, R333: the hash that the record's key must have; none where the pair is not permitted. A pair without a record needs no hash. -/
def Slu.lcKey (x : Slu) (t : Lc) : Option (Option (BitVec 384)) :=
  match x.lc, t with
  | .blank, .provisioned | .blank, .retired | .blank, .blank => some (some x.otp.mfgKey)
  | .provisioned, .debugUnlocked => some (some x.otp.dbgKey)
  | .debugUnlocked, .provisioned => some none
  | .provisioned, .deployed | .provisioned, .retired | .provisioned, .provisioned =>
    some (some x.otp.fwKeyP)
  | .deployed, .retired | .deployed, .deployed => some (some x.otp.fwKeyD)
  | _, _ => none

/-- R331, R332 check 1. -/
def lcFormOk (r : List Byte) (cur : Lc) (target : Nat) : Bool :=
  let raises := decide (target = (Lc.code cur).toNat)
  decide (bnat r 0 4 = 0x4C435231 ∧ bnat r 4 1 = target ∧ bnat r 5 1 = if raises then 2 else 1) &&
    bzero r 6 2 && bzero r 20 44 && bzero r 417 15 &&
    (if raises then decide (bnat r 16 4 ≤ 64) else bzero r 16 4) &&
    (if cur = .blank ∧ target = 1 then bzero r 315 5 else bzero r 64 256)

/-- The command would program OTP: a permanent transition or a floor raise. -/
def otpProgrammed (cur : Lc) (target : Nat) : Bool :=
  decide (target ≠ 2 ∧ ¬(cur = .debugUnlocked ∧ target = 1))

/-- R332: the first failing check of a record. A floor above 64 breaks its field's range, which check 1 is taken to cover (log 64). -/
def lcCheck (r : List Byte) (len target : Nat) (s : State) : Option (Status × Word) :=
  let cur := s.slu.lc
  let raises := decide (target = (Lc.code cur).toNat)
  let key := bslice r 320 97
  let pair := (lcOf target).bind s.slu.lcKey
  if pair = some none then if len = 0 then none else some (.formatError, 1)
  else if len ≠ 528 ∨ !lcFormOk r cur target then some (.formatError, 1)
  else if bvOf 64 (bslice r 8 8) ≠ s.slu.otp.uid then some (.identityError, 2)
  else
    match pair with
    | some (some h) =>
      if Config.sha384 key ≠ h then some (.signatureError, 4)
      else if !Config.ecdsaVerify key (bslice r 432 96) (bslice r 0 320) then some (.signatureError, 5)
      else if raises && decide (bnat r 16 4 ≤ s.slu.otp.svnFloor) then some (.lcDenied, 6)
      else if otpProgrammed cur target && s.slu.otp.progFails then some (.lcDenied, 7)
      else none
    | _ => some (.lcDenied, 3)

/-- R329: what `BLANK` to `PROVISIONED` programs. -/
def programOtp (r : List Byte) (o : Otp) : Otp :=
  { o with
    fwKeyP := beVal 384 (bslice r 64 48), imgKeyP := beVal 384 (bslice r 112 48)
    fwKeyD := beVal 384 (bslice r 160 48), imgKeyD := beVal 384 (bslice r 208 48)
    dbgKey := beVal 384 (bslice r 256 48), bootAddr := bvOf 48 (bslice r 304 8)
    instClass := bvOf 16 (bslice r 312 2), portScope := bvOf 8 (bslice r 314 1) }

/-- `DRAIN` to every bound agent (R64, R334). -/
def drainAll (s : State) : State :=
  (List.range 64).foldl (fun s p => noticePart (BitVec.ofNat 6 p) 1 s) s

/-- `LC_STATE` as W2 of a reply: the state after the command, no transition pending, and the floor (R334, log 64). -/
def lcWord (t : Lc) (floor : Nat) : Word := BitVec.ofNat 32 (floor * 256 + (Lc.code t).toNat)

/-- R334: OTP is programmed, `PENDING` rises, agents get `DRAIN`, and the reply is written. -/
def acceptLc (c : Cmd) (r : List Byte) (t : Lc) (s : State) : State :=
  let cur := s.slu.lc
  let src := match c.src with
    | .win w slot => some (w, slot)
    | _ => none
  let s := s.modSlu fun x =>
    let o := if cur = .blank ∧ t = .provisioned then programOtp r x.otp else x.otp
    { x with
      otp := if t = .debugUnlocked ∨ cur = .debugUnlocked then o else { o with lc := t }
      lcPending := some (t, src, s.now + 10000000) }
  ok c [lcWord t s.slu.otp.svnFloor] (drainAll s)

/-- R333. -/
def raiseFloor (c : Cmd) (r : List Byte) (s : State) : State :=
  let n := bnat r 16 4
  ok c [lcWord s.slu.lc n] (s.modSlu fun x => { x with otp := { x.otp with svnFloor := n } })

def lcFmt (c : Cmd) : List (Nat × Nat) := c.misaligned 3

/-- Both forms: a transition, or with the current state as its target a floor raise. -/
def lcAdvance (c : Cmd) (s : State) : State :=
  let target := (c.field 2 0 3 : BitVec 3).toNat
  let len := (c.word 5).toNat
  let a := c.addr 3
  let rq := s.cmdReqid c
  let s := if len = 528 then mmRequest false rq a len s else s
  if len = 528 ∧ memErr s rq a len then memFail c 3 s
  else
    let r := if len = 528 then memBytes s a len else []
    match lcCheck r len target s, lcOf target with
    | some (st, d), _ => refuse c st d s
    | none, some t => if t = s.slu.lc then raiseFloor c r s else acceptLc c r t s
    | none, none => s

/-- The command names the state that is in force. -/
def State.isRaise (s : State) (c : Cmd) : Bool :=
  decide ((c.field 2 0 3 : BitVec 3) = Lc.code s.slu.lc)

def execLcAdvance (id : Nat) (s : State) : Out :=
  .next (match s.cmd id with
    | some c => if s.isRaise c then s else startCmd 0x0520 id lcFmt lcAdvance s
    | none => s)

def execLcFloorRaise (id : Nat) (s : State) : Out :=
  .next (match s.cmd id with
    | some c => if s.isRaise c then startCmd 0x0520 id lcFmt lcAdvance s else s
    | none => s)

/-- R334 step 4. -/
def lcReset (edges : Nat) (s : State) : State :=
  let s := elapse edges s
  match s.slu.lcPending with
  | some (t, _, due) => if due ≤ s.now then warmReset 4 (decide (t = .debugUnlocked)) s else s
  | none => s

def execLcTransitionReset (edges : Nat) (s : State) : Out := .next (lcReset edges s)

/-! ### Test access port (R387) -/

/-- The instruction of a selection. -/
def scanInstr : TapScan → TapInstr
  | .bypass => .bypass
  | .idcode => .idcode
  | .samplePreload => .samplePreload
  | .extest => .extest
  | .wrapper _ => .wrapper
  | .dbgSeq _ _ => .dbgSeq
  | .dbgReg _ _ => .dbgReg
  | .dbgSram _ _ => .dbgSram

/-- What the life-cycle state makes available. -/
def State.tapOk (s : State) (t : TapScan) : Bool :=
  match s.slu.lc, t with
  | _, .bypass | _, .idcode => true
  | .retired, _ => false
  | .blank, _ => true
  | .debugUnlocked, .wrapper test => !test
  | .debugUnlocked, _ => true
  | _, .samplePreload | _, .extest => true
  | .provisioned, .dbgSeq _ _ | .provisioned, .dbgReg _ _ => s.tapEnable
  | _, _ => false

def isDebug : TapInstr → Bool
  | .dbgSeq | .dbgReg | .dbgSram => true
  | _ => false

/-- The value that the selected data register shifts out. -/
def capture (v : BitVec 256) (s : State) : State := s.modSlu fun x => { x with tapData := v }

/-- A data register whose bits the spec does not give shifts out an open value (log 47). -/
def captureOpen (s : State) : State :=
  capture (Config.freeScan s.free) (fresh s).2

/-- `DBG_SEQ`: the halt, one command let pass, or the status words of the sequencer. -/
def tapSeq (q : SeqNo) (act : SeqAct) (s : State) : State :=
  match act with
  | .halt => capture 0 (s.modSeq q fun x => { x with dbgHalt := true, dbgStep := false })
  | .step => capture 0 (s.modSeq q fun x => { x with dbgStep := x.dbgHalt })
  | .read =>
    let x := s.seq q
    capture (0#128 ++ x.word 3 ++ x.word 2 ++ x.word 1 ++ x.word 0) s

/-- `DBG_REG`: an access at SUPERVISOR privilege, whose response goes to the test access port. -/
def tapReg (a : CrAddr) (w : Option Word) (s : State) : State :=
  let t := match w with
    | some v => crWrite a ⟨v, true, 0⟩ s
    | none => crRead a ⟨0, true, 0⟩ s
  capture (if t.cr.valid then t.cr.rdata.setWidth 256 else 0)
    (t.modCr fun c => { c with valid := s.cr.valid, rdata := s.cr.rdata, err := s.cr.err })

/-- The place of an object word among the rows. -/
def rowKey (b : Bank) (n : BitVec 14) : Nat := b.toNat * 16384 + n.toNat

/-- A bank word as `DBG_SRAM` leaves it; one that is no object leaves the place empty. -/
def putWord (b : Bank) (n : BitVec 14) (v : BitVec 256) (s : State) : State :=
  s.modObk fun o =>
    { o with rows := match objOf v with
        | some x => tset o.rows (rowKey b n) x
        | none => tdel o.rows (rowKey b n) }

/-- `DBG_SRAM`: object words and firmware words; how a word of another store lies is not given (log 47). -/
def tapSram (m : SramWord) (w : Option (BitVec 256)) (s : State) : State :=
  match m, w with
  | .bank b n, none => capture (((tget s.obk.rows (rowKey b n)).map (·.word)).getD 0) s
  | .bank b n, some v => capture v (if b.toNat < 68 then putWord b n v s else s)
  | .firmware q n, none => capture ((tgetD 0 s.slu.fwMem (fwKeyOf q n.toNat)).setWidth 256) s
  | .firmware q n, some v => capture v (fwWrite q n.toNat [v.setWidth 32] s)
  | .other _ _, none => captureOpen s
  | .other _ _, some v => capture v s

/-- What a selected instruction does. A memory test ends in a warm reset, before the S2 of its startup. -/
def tapRun (t : TapScan) (s : State) : State :=
  match t with
  | .bypass => capture 0 s
  | .idcode => capture (Config.idCode.setWidth 256) s
  | .samplePreload | .extest | .wrapper false => captureOpen s
  | .wrapper true => (warmReset 2 false s).modSlu fun x => { x with tap := .wrapper }
  | .dbgSeq q act => tapSeq q act s
  | .dbgReg a w => tapReg a w s
  | .dbgSram m w => tapSram m w s

/-- A selection; an unavailable instruction selects `BYPASS`. -/
def tapSelect (t : TapScan) (s : State) : State :=
  let t := if s.tapOk t then t else .bypass
  let s := s.modSlu fun x => { x with tap := scanInstr t }
  let s := if isDebug (scanInstr t) then report .tapDebug .slu none 0 0 0 0 s else s
  tapRun t s

def execTapInstruction (t : TapScan) (s : State) : Out := .next (tapSelect t s)

end Sys2Proof.Machine
end

