-- ==== Sys2Proof/Machine/Observe.lean ====
section
/-! DEFINITION. The trace command and writer (R355, R356) and snapshots (R373 to R376). -/

namespace Sys2Proof.Machine

/-! ### TRACE_CTL -/

/-- R355: one change of the enable and both masks; enabling without a region is ignored, as for the register. -/
def traceCtl (c : Cmd) (s : State) : State :=
  let t := s.obs.trace
  let en := c.bit 2 0
  ok c [t.dropped] (modTrace (fun t =>
    { t with
      en := if en ∧ t.size = 0 then t.en else en
      pmask := c.word 4 ++ c.word 3, classMask := c.field 5 0 11, dropped := 0 }) s)

def execTraceCtl (id : Nat) (s : State) : Out := .next (startCmd 0x0406 id noFmt traceCtl s)

/-! ### The writer -/

/-- A `DROP` record (R353). -/
def dropRecord (s : State) : BitVec 256 :=
  traceWord s.time64 0 0 0 0 0 0 0 0 0 3 (s.obs.trace.dropPend.setWidth 64)

/-- The region takes no further record. -/
def Trace.stopped (t : Trace) : Bool := !t.wrap && decide (t.size.toNat < t.wptr.toNat + 32)

/-- One record goes to the region; none when it is full or host memory answers with an error. -/
def traceStore (r : BitVec 256) (s : State) : Option State :=
  let t := s.obs.trace
  let off := if t.wrap ∧ t.size.toNat < t.wptr.toNat + 32 then 0 else t.wptr.toNat
  let a := t.base.toNat + off
  if t.stopped ∨ t.size.toNat < off + 32 ∨ memErr s s.slu.engineReqid a 32 then none
  else
    let s := mmWrite s.slu.engineReqid a (bytesOf 32 r) s
    let next := off + 32
    let fills := !t.wrap && decide (t.size.toNat < next + 32)
    let wptr := if t.wrap ∧ t.size.toNat < next + 32 then 0 else next
    let s := gcount 39 (modTrace (fun t =>
      { t with wptr := BitVec.ofNat 32 wptr, full := t.full || fills }) s)
    some (if fills && !t.full then raiseGlobal 8 s else s)

/-- The `DROP` record for what was dropped goes out first, if anything was (R356). -/
def flushDrop (s : State) : Option State :=
  if s.obs.trace.dropPend = 0 then some s
  else
    match traceStore (dropRecord s) s with
    | none => none
    | some t => some (modTrace (fun t => { t with dropPend := 0 }) t)

/-- The oldest staged record, after a `DROP` record for what was dropped before it. -/
def traceWrite (s : State) : State :=
  match s.obs.trace.staging with
  | [] => s
  | (r, part) :: rest =>
    let s := modTrace (fun t => { t with staging := rest }) s
    match flushDrop s with
    | none => traceDrop part s
    | some t =>
      match traceStore r t with
      | none => traceDrop part t
      | some u =>
        match part with
        | some p => count p 63 u
        | none => u

def execTraceWrite (s : State) : Out := .next (if s.running && !s.frozen then traceWrite s else s)

/-! ### Snapshot records (R373 to R375) -/

/-- A record: its header and its body units. -/
abbrev SnapRec := BitVec 256 × List (BitVec 256)

def snapHdr (kind : Byte) (units : Nat) (p : PartId) (ref : BitVec 44) (time : DWord)
    (kf : BitVec 128) : BitVec 256 :=
  kf ++ time ++ 0#2 ++ ref ++ p ++ BitVec.ofNat 4 units ++ kind

def State.snap (s : State) (kind : Byte) (p : PartId) (ref : BitVec 44) (kf : BitVec 128)
    (body : List (BitVec 256)) : SnapRec :=
  (snapHdr kind body.length p ref s.time64 kf, body)

/-- Waiters in queue order (R111). -/
def queueOrder : Nat → List Waiter → List Waiter
  | 0, _ => []
  | n + 1, ws =>
    match headOf ws with
    | some w => w :: queueOrder n (dropFirst (· = w) ws)
    | none => []

/-- A waiter in a `QUEUE` record. -/
def Waiter.snapBits (w : Waiter) : BitVec 128 :=
  (match w.limit with
    | some t => BitVec.ofNat 40 t
    | none => 0) ++ w.token ++ w.operand ++ w.op.code ++ b1 w.parity ++ w.prio ++ w.node ++ w.agent

def snapWaiter : Option Waiter → BitVec 128
  | some w => w.snapBits
  | none => 0

/-- R186. -/
def State.heldBits (s : State) (h : Held) : BitVec 256 :=
  0#36 ++ h.order ++ h.handle ++ 0#1 ++ b1 h.commit ++ h.target.part ++ h.node ++ h.agent ++
    s.keyRef h.target ++ s.keyRef h.land

/-- An `EDGE` record (R375). -/
def State.edge (s : State) (p : PartId) (ref : BitVec 44) (waiter : Option (AgentId × NodeId))
    (bkind : BitVec 3) (agent : AgentId) (node : NodeId) (bref : BitVec 44) : SnapRec :=
  let w := waiter.getD (0, 0)
  s.snap 0x07 p ref
    (0#24 ++ bref ++ node ++ agent ++ bkind ++ b1 waiter.isNone ++ w.2 ++ w.1) []

/-- Edges of an object to its absent members, and, where it has waiters, to what else they wait on (R375). -/
def State.waitEdges (s : State) (k : OKey) (o : Obj) : List SnapRec :=
  let r := s.keyRef k
  let here := s.fab.nodeId
  let waits := !(s.waitersOf k).isEmpty
  let absent := fun (n : Nat) => s.edge k.part r none 1 (BitVec.ofNat 12 n) here 0
  let unowned := if waits then [s.edge k.part r none 5 0 0 0] else []
  match o.body with
  | .lock l => if l.held && waits then [s.edge k.part r none 0 l.holderAgent l.holderNode 0] else []
  | .barrier _ =>
    match s.record k with
    | some a => ((List.range 4096).filter fun i => a.roster.getLsbD i && !a.cur.getLsbD i).map absent
    | none => unowned
  | .group g => ((List.range 64).filter fun i => g.enrolled.getLsbD i && !g.arrived.getLsbD i).map absent
  | .semaphore _ | .event _ | .ring _ => unowned
  | .landing _ | .cell _ => []

/-- Edges of a stitch-tree node to its absent children. -/
def State.treeEdges (s : State) (k : OKey) : List SnapRec :=
  match s.treeOf k with
  | some (_, t) =>
    ((List.range 8).filter fun i => t.childMask.getLsbD i && !t.curChild.getLsbD i).map fun i =>
      s.edge k.part (s.keyRef k) none 2 0 (tgetD 0 t.child i) 0
  | none => []

/-- Records of one bound slot. -/
def State.objRecs (s : State) (k : OKey) (o : Obj) : List SnapRec :=
  let r := s.keyRef k
  let ws := s.waitersOf k
  let q := queueOrder 2 ws
  [s.snap 0x01 k.part r 0 [o.word]] ++
  (if o.hdr.parked || o.hdr.spill then
    [s.snap 0x02 k.part r (0#101 ++ o.hdr.wprio ++ BitVec.ofNat 24 ws.length)
      [snapWaiter q[1]? ++ snapWaiter q[0]?]]
   else []) ++ s.waitEdges k o ++
  (match s.descOf k with
    | some (_, d) => [s.snap 0x03 k.part r 0 [d.word]]
    | none => []) ++
  (if o.hdr.tree then s.treeEdges k else [])

/-- Records of one directory entry, with the objects of a resident context. -/
def State.ctxRecs (s : State) (p : PartId) (c : CtxId) : List SnapRec :=
  let w : BitVec 512 := (s.dirWord p c).setWidth 512
  [s.snap 0x08 p (packRef s.fab.nodeId c 0) 0 [w.extractLsb' 0 256, w.extractLsb' 256 256]] ++
  (if (s.ctx p c).state = .resident then
    (s.boundSlots p c).flatMap fun k =>
      match s.obj k with
      | some o => s.objRecs k o
      | none => []
   else [])

/-- A held entry, and the edge to its `LANDING` object while that counts. -/
def State.heldRecs (s : State) (h : Held) : List SnapRec :=
  [s.snap 0x04 h.target.part (s.keyRef h.target) 0 [s.heldBits h]] ++
  (match s.objAny h.land with
    | some ⟨_, .landing l⟩ =>
      if l.remain ≠ 0 ∧ h.posted = false then
        [s.edge h.target.part (s.keyRef h.target) (some (h.agent, h.node)) 3 0 0 (s.keyRef h.land)]
      else []
    | _ => [])

/-- R374: the state of an op table entry. -/
def OpSt.snapCode : OpSt → BitVec 3
  | .bank => 0
  | .queued | .fence => 1
  | .remote | .granted => 2
  | .heldQueue => 3
  | .mgmt => 4
  | .replying => Config.opDoneState

def State.opRec (s : State) (e : OpEntry) : SnapRec :=
  let r := if e.op.noObject then 0 else packRef e.req.node e.req.ctx e.req.index
  s.snap 0x05 e.part r
    (0#57 ++ BitVec.ofNat 32 (s.now - e.at_) ++ e.st.snapCode ++ e.op.code ++ e.node ++ e.agent) []

/-- Waits on objects of other homes: one edge for each object and node. -/
def remoteObjs : List RWait → List RWait
  | [] => []
  | x :: r => x :: (remoteObjs r).filter fun y =>
      !decide (y.node = x.node ∧ y.ctx = x.ctx ∧ y.index = x.index ∧ y.part = x.part)

def creditKf (port : Byte) (held far hold : Nat) (st : BitVec 3) : BitVec 128 :=
  0#69 ++ st ++ BitVec.ofNat 16 hold ++ BitVec.ofNat 16 far ++ BitVec.ofNat 16 held ++ port

def State.apCredits (s : State) : List SnapRec :=
  ((List.range 16).filter fun i => s.apEnabled (BitVec.ofNat 4 i)).map fun i =>
    let x := s.ap (BitVec.ofNat 4 i)
    s.snap 0x06 0 0 (creditKf (BitVec.ofNat 8 i) x.rspCredits x.reqCredits x.holdUse 0) []

/-- Flits received on a port that still wait in its buffers for their forwarding (R205). -/
def State.forwarding (s : State) (p : FabPort) : Nat :=
  ((List.range 8).map fun i =>
    (((s.fp (BitVec.ofNat 3 i)).txq).filter fun t => decide (t.fwd = some p)).length).sum

/-- One record for each fabric port: what is neither owed nor in a receive buffer is at the far side. -/
def State.fpCredits (s : State) : List SnapRec :=
  ((List.range 8).filter fun i => s.fpEnabled (BitVec.ofNat 3 i)).map fun i =>
    let x := s.fp (BitVec.ofNat 3 i)
    let c := fun n => tgetD 0 x.credits n
    let held := c 1 + c 2 + c 3 + c 4 + c 5
    let owed := ((List.range 5).map fun n => tgetD 0 x.owed (n + 1)).sum
    let far := ((List.range 5).map fun n => poolDepth (n + 1)).sum - owed -
      (x.rxHeld.filter fun h => h.2.2).length - s.forwarding (BitVec.ofNat 3 i)
    let w := fun n => BitVec.ofNat 16 (c n)
    s.snap 0x06 0 0 (creditKf (BitVec.ofNat 8 (128 + i)) held far 0 x.state.code)
      [0#176 ++ w 5 ++ w 4 ++ w 3 ++ w 2 ++ w 1]

/-- Every record of the partitions that a mask selects, in the order of log 28. -/
def State.snapAll (s : State) (mask : DWord) : List SnapRec :=
  let on := fun (p : PartId) => mask.getLsbD p.toNat
  (s.ctm.dir.flatMap fun e =>
    let p : PartId := BitVec.ofNat 6 (e.1 / 256)
    if on p && decide (e.2.state ≠ .free) then s.ctxRecs p (BitVec.ofNat 8 (e.1 % 256)) else []) ++
  ((s.lcu.held.filter fun h => on h.target.part).flatMap s.heldRecs) ++
  ((s.opr.ops.filter fun e => on e.part).map s.opRec) ++
  ((remoteObjs (s.wmc.rwaits.filter fun x => on x.part)).map fun x =>
    s.edge x.part (packRef x.node x.ctx x.index) none 4 0 x.node 0) ++
  s.apCredits ++ s.fpCredits

/-- The records that fit in `n` units, and whether some did not. -/
def takeRecs : Nat → List SnapRec → List SnapRec × Bool
  | _, [] => ([], false)
  | n, r :: rest =>
    if r.2.length + 1 ≤ n then
      let t := takeRecs (n - (r.2.length + 1)) rest
      (r :: t.1, t.2)
    else ([], true)

def SnapRec.bytes (r : SnapRec) : List Byte := (r.1 :: r.2).flatMap (bytesOf 32)

/-- `END` (R374). -/
def State.endRec (s : State) (n : Nat) (cut : Bool) : SnapRec :=
  s.snap 0x0F 0 0 (0#94 ++ b1 (decide (s.obs.hobble.state = 3)) ++ b1 cut ++ BitVec.ofNat 32 n) []

def snapshotFmt (c : Cmd) : List (Nat × Nat) := c.misaligned 2

/-- Records of snapshot staging in service (R19). -/
def State.snapRoom (s : State) : Nat := Config.snapshotStaging - s.lostEntries .snapshot

/-- Records larger than what is left of staging do not get through it; they are dropped and counted (R335, log 24). -/
def State.snapStaged (s : State) (l : List SnapRec) : List SnapRec :=
  l.filter fun r => decide (r.2.length + 1 ≤ s.snapRoom)

/-- R373: the region must hold at least `END` (log 28). -/
def snapshot (c : Cmd) (s : State) : State :=
  let size := (c.word 4).toNat
  let a := c.addr 2
  if size < 32 then refuse c .rangeError (det 4 0) s
  else
    let all := s.snapAll (c.word 6 ++ c.word 5)
    let (rs, cut) := takeRecs (size / 32 - 1) (s.snapStaged all)
    let n := rs.length + 1
    let b := rs.flatMap SnapRec.bytes ++ SnapRec.bytes (s.endRec n cut)
    let rq := s.cmdReqid c
    if memErr s rq a b.length then memFail c 2 (mmRequest true rq a b.length s)
    else
      let reads := (rs.filter fun r => decide (r.1.extractLsb' 0 8 = 0x01#8)).length
      let s := gcountN 40 (all.length - (s.snapStaged all).length) (gcountN 6 reads (gcountN 0 reads s))
      ok c [BitVec.ofNat 32 n] (mmWrite rq a b s)

def execSnapshot (id : Nat) (s : State) : Out := .next (startCmd 0x0403 id snapshotFmt snapshot s)

end Sys2Proof.Machine
end

