-- ==== Sys2Proof/Machine/FabLink.lean ====
section
/-! DEFINITION. The link layer of the fabric ports: flit words and their CRC (R199, R200), what is checked on receipt (R201), credits and replay (R205, R209), the loss of a link (R228, R229), and transmission (R206). -/

namespace Sys2Proof.Machine

/-! ### Kinds (R200, R204) -/

/-- Credit pool of a kind: 1 REQ.OP, 2 REQ.SNK, 3 REL, 4 MGT, 5 TIM, 0 none. -/
def poolOf (kind : BitVec 4) : Nat :=
  match kind.toNat with
  | 0 | 1 => 1
  | 2 | 3 => 2
  | 4 | 5 | 6 | 7 => 3
  | 8 => 4
  | 9 => 5
  | _ => 0

/-- Kinds kept for replay. -/
def keptKind (kind : BitVec 4) : Bool :=
  match kind.toNat with
  | 0 | 1 | 2 | 4 | 5 | 6 | 8 => true
  | _ => false

/-- `SUB` of a `MGMT` or `TIME` body. -/
def bodySub (b : BitVec 144) : Byte := b.extractLsb' 136 8

/-- `HKIND` of a Hobble flit (R369). -/
def bodyHkind (b : BitVec 144) : BitVec 4 := b.extractLsb' 132 4

/-- A `MGMT` flit with this `SUB`. -/
def isSub (kind : BitVec 4) (b : BitVec 144) (sub : Byte) : Bool := decide (kind = 8 ∧ bodySub b = sub)

/-- R366: processed at once, never recorded or held. -/
def exempt (kind : BitVec 4) (b : BitVec 144) : Bool :=
  decide (kind = 15 ∨ kind = 9) ||
    (decide (kind = 8) &&
      (decide (1 ≤ (bodySub b).toNat ∧ (bodySub b).toNat ≤ 8) || decide (bodySub b = 0x10 ∨ bodySub b = 0x40)))

/-- Hobble markers and resumes, discovery, `HELLO`, `ROUTE_DV`, `TIME` and `IDLE` go no further than the far end. -/
def linkLocal (kind : BitVec 4) (b : BitVec 144) : Bool :=
  decide (kind = 15 ∨ kind = 9) ||
    (decide (kind = 8) &&
      (decide (1 ≤ (bodySub b).toNat ∧ (bodySub b).toNat ≤ 8) ||
        decide (bodySub b = 0x40 ∧ (bodyHkind b = 1 ∨ bodyHkind b = 3))))

def isMarker (kind : BitVec 4) (b : BitVec 144) : Bool :=
  isSub kind b 0x40 && decide (bodyHkind b = 1)

/-! ### Words -/

/-- One bit of CRC-16 with polynomial 0x1021. -/
def crc16Bit (c : BitVec 16) (b : Bool) : BitVec 16 :=
  if c.getLsbD 15 != b then (c <<< 1) ^^^ 0x1021#16 else c <<< 1

/-- R199: initial value 0xFFFF, most significant bit first. -/
def crc16 {w : Nat} (v : BitVec w) : BitVec 16 :=
  (List.range w).foldl (fun c i => crc16Bit c (v.getLsbD (w - 1 - i))) 0xFFFF#16

/-- Bits [255:160]. -/
def hdrHigh (kind : BitVec 4) (h : Hdr) : BitVec 96 :=
  kind ++ b1 h.viaEn ++ h.rsvA ++ h.dst ++ h.src ++ h.via ++ h.lseq ++ h.lack ++ h.credPool ++
    h.credNum ++ h.hop ++ h.rsvB

def flitCrc (kind : BitVec 4) (h : Hdr) (b : BitVec 144) : BitVec 16 := crc16 (hdrHigh kind h ++ b)

/-- The 256 bits of an OSF flit. -/
def osfWord (kind : BitVec 4) (h : Hdr) (b : BitVec 144) : BitVec 256 :=
  hdrHigh kind h ++ h.crc ++ b

/-! ### Reserved bits (R201 to R204) -/

/-- Body bits with a meaning. -/
def bodyMask (kind : BitVec 4) (b : BitVec 144) : BitVec 144 :=
  match kind.toNat with
  | 0 | 2 => BitVec.allOnes 144
  | 1 => 0xFF#8 ++ 0#57 ++ 0x7FFF#15 ++ BitVec.allOnes 64
  | 3 => 0xFFFFFFFF#32 ++ 0#48 ++ BitVec.allOnes 64
  | 4 => 0x1FFFFFFFFF#37 ++ 0#43 ++ BitVec.allOnes 64
  | 5 => 0x7FFFFFFFFFFFFFF#59 ++ 0#21 ++ BitVec.allOnes 64
  | 6 => 0x3FFFFFFFFFFFF#50 ++ 0#15 ++ 0x7FFF#15 ++ 0#64
  | 7 => 0xFFFFFFFFF#36 ++ 0#44 ++ BitVec.allOnes 64
  | 9 =>
    if bodySub b = 1 then 0xFFFF#16 ++ BitVec.allOnes 64 ++ 0#64
    else 0xFFFF#16 ++ BitVec.allOnes 64 ++ 0xFFFFFFFF#32 ++ 0x1FFFFF#21 ++ 0#11
  | 15 => 0
  | _ =>
    match (bodySub b).toNat with
    | 0x01 => BitVec.allOnes 125 ++ 0#19
    | 0x02 => 0xFFFFFF#24 ++ 0#120
    | 0x03 => 0xFFFF#16 ++ 0#128
    | 0x04 => BitVec.allOnes 143 ++ 0#1
    | 0x05 => 0x3FFFFFF#26 ++ BitVec.allOnes 100 ++ 0#18
    | 0x06 => 0xFF#8 ++ BitVec.allOnes 88 ++ 0#48
    | 0x07 => 0x1FFFF#17 ++ 0#127
    | 0x08 => 0xFFFFFFF#28 ++ 0#4 ++ 0x00FF00FF00FF00FF00FF00FF00FF#112
    | 0x10 => 0x7FFFFF#23 ++ 0#121
    | 0x20 => 0xFF#8 ++ 0#8 ++ BitVec.allOnes 128
    | 0x40 => 0x1FFFFFFFFF#37 ++ 0#11 ++ 0xFFFFFFFF#32 ++ 0#64
    | 0x50 => 0xFFFFFFFF#32 ++ 0#16 ++ BitVec.allOnes 96
    | 0x60 | 0x61 | 0x62 | 0x63 => 0xFF#8 ++ 0x1FFFFFFFF#33 ++ 0#103
    | _ => BitVec.allOnes 144

/-- Every `SUB` of R204. -/
def knownSub (kind : BitVec 4) (b : BitVec 144) : Bool :=
  if kind = 8 then
    [1, 2, 3, 4, 5, 6, 7, 8, 0x10, 0x20, 0x30, 0x40, 0x50, 0x60, 0x61, 0x62, 0x63].any fun n =>
      decide ((bodySub b).toNat = n)
  else if kind = 9 then decide (bodySub b = 1 ∨ bodySub b = 2)
  else true

def knownKind (kind : BitVec 4) : Bool := decide (kind.toNat ≤ 9 ∨ kind = 15)

/-- R201, R204: a reserved kind, an unlisted `SUB`, or a nonzero reserved bit of the header or body. A `CRED_POOL` of 6 or 7, a `CRED_NUM` without a pool and a `VIA` without `VIA_EN` count as such (log 65). -/
def badFlit (kind : BitVec 4) (r : Rx) : Bool :=
  let h := r.hdr
  !knownKind kind || !knownSub kind r.body || decide (h.rsvA ≠ 0 ∨ h.rsvB ≠ 0) ||
    decide (h.viaEn = false ∧ h.via ≠ 0) || decide (6 ≤ h.credPool.toNat) ||
    decide (h.credPool = 0 ∧ h.credNum ≠ 0) || decide (r.body &&& ~~~(bodyMask kind r.body) ≠ 0)

/-! ### Ports -/

/-- States in which a port carries at least link-local flits (R212). -/
def FpState.live (x : FpState) : Bool :=
  match x with
  | .lcl | .up | .standby => true
  | .off | .down | .failed | .isolated => false

def State.fpLive (s : State) (p : FabPort) : Bool := (s.fp p).state.live

/-- Ports that carry link-local flits, in ascending order. -/
def State.livePorts (s : State) : List FabPort :=
  ((List.range 8).map fun i => (BitVec.ofNat 3 i : FabPort)).filter s.fpLive

/-- Modular order of link sequence numbers: `a` is covered by `b`. -/
def seqCovered (a b : BitVec 12) : Bool := decide ((b - a).toNat < 2048)

/-- A buffer of pool `pool` returns a credit (R205). -/
def oweCredit (p : FabPort) (pool : Nat) (s : State) : State :=
  if pool = 0 then s
  else s.modFp p fun x => { x with owed := tput 0 x.owed pool (tgetD 0 x.owed pool + 1) }

/-! ### The channel-state region (R370) -/

/-- This instance started the Hobble, whether or not its command has been answered. -/
def State.initiator (s : State) : Bool := s.obs.hobble.initiator

/-- Offset of the first channel record. -/
def State.recordBase (s : State) : Nat := if s.initiator then 64 + 16384 else 64

/-- Bytes go to the region where they fit and host memory takes them. -/
def regionWrite (off : Nat) (l : List Byte) (s : State) : State :=
  let h := s.obs.hobble
  let rq := s.slu.engineReqid
  if off + l.length ≤ h.regSize ∧ !memErr s rq (h.regBase.toNat + off) l.length then
    mmWrite rq (h.regBase.toNat + off) l s
  else s

/-- The header of the region (log 33). -/
def regionHeader (s : State) : State :=
  let h := s.obs.hobble
  regionWrite 0
    (bytesOf 2 h.init ++ [h.hseq, (b1 h.regionFull ++ b1 h.incomplete).setWidth 8] ++
      List.replicate 4 0 ++ bytesOf 8 (BitVec.ofNat 64 h.cutAt) ++ bytesOf 4 h.records ++
      List.replicate 44 0) s

/-- A bit of one of the two bitmaps of the initiator's region. -/
def regionBit (second : Bool) (n : NodeId) (s : State) : State :=
  let off := 64 + (if second then 8192 else 0) + n.toNat / 8
  let b := memByte s (s.obs.hobble.regBase.toNat + off)
  regionWrite off [setBit b (n.toNat % 8)] s

/-- The body of a Hobble flit (R369). -/
def hobbleBody (hkind : BitVec 4) (init : NodeId) (hseq : Byte) (inc : Bool) (records : Word) :
    BitVec 144 :=
  0x40#8 ++ hkind ++ init ++ hseq ++ b1 inc ++ 0#11 ++ records ++ 0#64

/-- How many instances a Hobble waits for (log 33). -/
def State.fabSize (s : State) : Nat := max 1 s.fab.census.expect.toNat

/-- R369: the initiator's reply, once every instance has reported, or at its limit. -/
def hobbleReply (final : Bool) (s : State) : State :=
  let h := s.obs.hobble
  match h.cmd.bind s.cmd with
  | some c =>
    let all := decide (s.fabSize ≤ h.reached.length)
    if all ∨ final then
      let n : Word := BitVec.ofNat 32 h.reached.length
      let st := if all ∧ h.badNodes = [] then Status.ok else Status.partialRel
      complete c st 0 [n] (s.modHob fun h => { h with cmd := none })
    else s
  | none => s

/-- A done of an instance reaches the initiator; one after the reply still enters the bitmaps. -/
def hobbleReach (n : NodeId) (inc : Bool) (s : State) : State :=
  let h := s.obs.hobble
  if h.initiator = false ∨ h.reached.any (· = n) then s
  else
    let s := regionBit false n s
    let s := if inc then regionBit true n s else s
    hobbleReply false (s.modHob fun h =>
      { h with
        reached := h.reached ++ [n], badNodes := if inc then h.badNodes ++ [n] else h.badNodes })

/-- R369: drained, and every awaited marker has come: the instance is hobbled and reports to the initiator; its own report is counted at once. -/
def hobbleCheck (s : State) : State :=
  let h := s.obs.hobble
  if h.state = 2 ∧ h.awaiting = [] then
    let s := regionHeader (raiseGlobal 11 (s.modHob fun h => { h with state := 3 }))
    if h.init = s.fab.nodeId then hobbleReach s.fab.nodeId h.incomplete s
    else fabSend 8 h.init (hobbleBody 2 h.init h.hseq h.incomplete h.records) s
  else s

/-! ### Loss of a link (R228, R229, R372) -/

/-- Forwarded flits of a lost port no longer return a credit to it. -/
def dropFwd (p : FabPort) (l : List TxFlit) : List TxFlit :=
  l.map fun f => if f.fwd = some p then { f with fwd := none } else f

def dropFwdAll (p : FabPort) (s : State) : State :=
  (List.range 8).foldl (fun s i =>
    s.modFp (BitVec.ofNat 3 i) fun x =>
      { x with txq := dropFwd p x.txq, held := dropFwd p x.held }) s

/-- Step 2 of R229: `RECONCILE` to the far end, by the alternate of its entry. -/
def sendReconcile (p : FabPort) (rxSeq : BitVec 12) (s : State) : State :=
  let far := (s.fp p).farNode
  let q := s.route far
  if q.altV && s.fpUp q.alt then
    enqueueTx q.alt
      { kind := 8, dst := far, src := s.fab.nodeId, via := none, hop := 63
        body := mgmtBody 0x10 (rxSeq ++ p ++ 0#121), fwd := none } s
  else s

/-- The port enters `DOWN`; what it still had to send is kept when it carried traffic. -/
def downPort (p : FabPort) (s : State) : State :=
  s.modFp p fun x =>
    let keep := fun (f : TxFlit) => !linkLocal f.kind f.body
    { x with
      state := .down, awaitHello := false, credits := [], opOut := [], owed := [], txq := []
      replay := [], lostAt := s.now
      lost := if x.state = .up then x.replay.filter fun c => keep c.2 else x.lost
      held := if x.state = .up then x.held ++ x.txq.filter keep else x.held
      rxHeld := x.rxHeld.map fun h => (h.1, h.2.1, false)
      everLost := true
      reconDue := if x.state = .up then some (s.now + 100000) else x.reconDue }

/-- A marker that can no longer come counts as arrived (R372). -/
def hobbleLost (p : FabPort) (s : State) : State :=
  if s.hobbling ∧ s.obs.hobble.awaiting.any (· = p) then
    let s := s.modFp p fun x => { x with marked := true }
    hobbleCheck (regionHeader (s.modHob fun h =>
      { h with incomplete := true, awaiting := h.awaiting.filter (· ≠ p) }))
  else s

/-- A live port is lost. -/
def losePort (p : FabPort) (s : State) : State :=
  if !s.fpLive p then s.modFp p fun x => { x with awaitHello := false }
  else
    let wasUp := s.fpUp p
    let rx := (s.fp p).rxSeq
    let s := dropFwdAll p (downPort p (gcount 25 s))
    let s := if wasUp then sendReconcile p rx s else s
    hobbleLost p s

/-! ### Receiving a flit (R201, R205, R209) -/

/-- A `HELLO` that the port waits for: the one flit that a port in `DOWN` takes. -/
def State.helloDue (s : State) (kind : BitVec 4) (r : Rx) : Bool :=
  let x := s.fp r.port
  decide (x.state = .down) && x.awaitHello && isSub kind r.body 1

/-- The port takes the flit. -/
def State.rxTakes (s : State) (kind : BitVec 4) (r : Rx) : Bool :=
  s.running && s.fpEnabled r.port && (s.fp r.port).linkUp &&
    (s.fpLive r.port || s.helloDue kind r)

/-- R201: a link error. `IDLE` repeats the last `LSEQ`. -/
def State.linkError (s : State) (kind : BitVec 4) (r : Rx) : Bool :=
  let want := if kind = 15 then (s.fp r.port).rxSeq else (s.fp r.port).rxSeq + 1
  r.err || decide (r.hdr.lseq ≠ want) || decide (r.hdr.crc ≠ flitCrc kind r.hdr r.body)

/-- The link fields of an accepted flit: `LSEQ`, `LACK`, credits. -/
def linkFields (kind : BitVec 4) (r : Rx) (s : State) : State :=
  let s := s.modFp r.port fun x =>
    let n := r.hdr.credPool.toNat
    { x with
      rxSeq := r.hdr.lseq, lastRx := s.now
      replay := x.replay.filter fun c => !seqCovered c.1 r.hdr.lack
      credits :=
        if n = 0 ∨ 6 ≤ n then x.credits
        else tput 0 x.credits n (tgetD 0 x.credits n + r.hdr.credNum.toNat)
      opOut := if n = 1 then x.opOut.drop r.hdr.credNum.toNat else x.opOut }
  if poolOf kind = 0 then s else gcount (11 + poolOf kind) s

/-- What a received flit meets at its port. -/
inductive RxOut where
  /-- The port takes nothing, or the flit was a link error. -/
  | gone (s : State)
  | taken (s : State)

def rxLink (kind : BitVec 4) (r : Rx) (s : State) : RxOut :=
  if !s.rxTakes kind r then .gone s
  else if s.linkError kind r then .gone (losePort r.port s)
  else .taken (linkFields kind r s)

/-- A flit that is not used: reported, and its buffer freed. -/
def discardBad (kind : BitVec 4) (r : Rx) (s : State) : State :=
  reportFab .badFlit r.port r.hdr.src (oweCredit r.port (poolOf kind) s)

/-! ### Transmission (R206, R209) -/

/-- The flit may leave now: a marker follows every flit that the drain produced, and after it only exempt flits leave (R364). -/
def txAllowed (frozen : Bool) (before after : List TxFlit) (f : TxFlit) : Bool :=
  if isMarker f.kind f.body then before.all fun g => exempt g.kind g.body
  else if exempt f.kind f.body then true
  else !frozen || after.any fun g => isMarker g.kind g.body

/-- The first flit of a pool that may leave. -/
def firstTx (frozen : Bool) (pool : Nat) : List TxFlit → List TxFlit → Option TxFlit
  | _, [] => none
  | before, f :: rest =>
    if poolOf f.kind = pool && txAllowed frozen before rest f then some f
    else firstTx frozen pool (before ++ [f]) rest

/-- Whose REQ.OP credits a flit uses: those of the strict partition that its `SPART` names (R202, R259). -/
def State.opOwner (s : State) (f : TxFlit) : Option PartId :=
  let p : PartId := f.body.extractLsb' 79 6
  if f.kind = 0 ∧ s.isStrict p then some p else none

/-- R259: how many REQ.OP credits of a port an owner has: `FAB_RES`, or what no strict partition reserves. -/
def State.opShare (s : State) (o : Option PartId) : Nat :=
  match o with
  | some p => (s.part p).fabRes.toNat
  | none => poolDepth 1 - s.reserved (·.fabRes.toNat)

/-- A flit of REQ.OP finds a credit of its owner; other pools are not split. -/
def FPort.shareLeft (x : FPort) (s : State) (f : TxFlit) : Bool :=
  decide (poolOf f.kind ≠ 1 ∨
    (x.opOut.filter fun o => decide (o = s.opOwner f)).length < s.opShare (s.opOwner f))

/-- A pool can send: `HELLO` alone needs no credit. -/
def FPort.canSend (x : FPort) (s : State) (f : TxFlit) : Bool :=
  if x.state.live then
    isSub f.kind f.body 1 || (decide (0 < tgetD 0 x.credits (poolOf f.kind)) && x.shareLeft s f)
  else decide (x.state = .down) && x.awaitHello && isSub f.kind f.body 1

/-- The next flit: TIM, REL, REQ.SNK, MGT, REQ.OP; after seven flits past a waiting MGT or REQ.OP flit, that flit. -/
def FPort.pickTx (x : FPort) (s : State) : Option TxFlit :=
  let get := fun n => (firstTx s.frozen n [] x.txq).filter (x.canSend s)
  let order := if 7 ≤ x.lowRun then [4, 1, 5, 3, 2] else [5, 3, 2, 4, 1]
  order.findSome? get

/-- An MGT or REQ.OP flit could leave. -/
def FPort.lowWaits (x : FPort) (s : State) : Bool :=
  [4, 1].any fun n => ((firstTx s.frozen n [] x.txq).filter (x.canSend s)).isSome

/-- The pool whose credits ride in the next flit, and how many. -/
def FPort.returns (x : FPort) : Nat × Nat :=
  match x.owed with
  | [] => (0, 0)
  | (n, c) :: _ => (n, min c 31)

/-- The header of a flit as it leaves a port. -/
def FPort.txHdr (x : FPort) (lseq : BitVec 12) (viaEn : Bool) (dst src via : NodeId) (hop : BitVec 6)
    (kind : BitVec 4) (body : BitVec 144) : Hdr :=
  let h : Hdr :=
    { viaEn, rsvA := 0, dst, src, via, lseq, lack := x.rxSeq
      credPool := BitVec.ofNat 3 x.returns.1, credNum := BitVec.ofNat 5 x.returns.2, hop, rsvB := 0
      crc := 0 }
  { h with crc := flitCrc kind h body }

/-- The port after the credits of a flit have gone. -/
def FPort.paid (x : FPort) : FPort :=
  { x with owed := tput 0 x.owed x.returns.1 (tgetD 0 x.owed x.returns.1 - x.returns.2) }

/-- T1 of `SYNC_REQ` and the residence of `SYNC_RSP` are those of the TX edge (R234). -/
def stampTime (now : Nat) (kind : BitVec 4) (b : BitVec 144) : BitVec 144 :=
  if kind = 9 then
    if bodySub b = 1 then (b.extractLsb' 128 16 : BitVec 16) ++ BitVec.ofNat 64 now ++ 0#64
    else
      let t2 : BitVec 64 := b.extractLsb' 64 64
      (b.extractLsb' 64 80 : BitVec 80) ++ BitVec.ofNat 32 (now - t2.toNat) ++
        (b.extractLsb' 0 32 : BitVec 32)
  else b

/-- R277: the last fragment of a request of this instance: destination and `RTAG`. -/
def State.lastFragment (s : State) (f : TxFlit) : Option (NodeId × BitVec 5) :=
  if isSub f.kind f.body 0x30 && decide (f.fwd = none ∧ f.src = s.fab.nodeId) && !f.body.getLsbD 133 &&
      decide (f.body.extractLsb' 134 2 = 3#2) then
    some (f.dst, f.body.extractLsb' 128 5)
  else none

/-- R277: the limit of 100 ms of the command that waits for a node's reply under a tag. -/
def startRemoteLimit (x : NodeId × BitVec 5) (s : State) : State :=
  s.modMsq fun q =>
    { q with cmds := q.cmds.map fun c =>
        if c.phase = .remote none ∧ c.src = .win none x.2.toNat ∧ c.field 1 16 16 = x.1 then
          { c with phase := .remote (some (s.now + 100000000)) }
        else c }

/-- One flit leaves a port. -/
def sendFlit (p : FabPort) (f : TxFlit) (s : State) : State :=
  let x := s.fp p
  let body := stampTime s.now f.kind f.body
  let h := x.txHdr x.txSeq f.via.isSome f.dst f.src (f.via.getD 0) f.hop f.kind body
  let pool := poolOf f.kind
  let low := decide (pool = 4 ∨ pool = 1)
  let s := s.setFp p
    { x.paid with
      txq := dropFirst (· = f) x.txq, txSeq := x.txSeq + 1, lastTx := s.now
      credits := if isSub f.kind f.body 1 then x.credits
                 else tput 0 x.credits pool (tgetD 0 x.credits pool - 1)
      opOut := if pool = 1 then x.opOut ++ [s.opOwner f] else x.opOut
      replay := if keptKind f.kind then x.replay ++ [(x.txSeq, f)] else x.replay
      lowRun := if low then 0 else if x.lowWaits s then x.lowRun + 1 else 0
      out := some (osfWord f.kind h body) }
  let s := gcount (16 + pool) s
  let s := match f.fwd with
    | some q => oweCredit q pool s
    | none => s
  let s := match s.lastFragment f with
    | some x => startRemoteLimit x s
    | none => s
  if f.kind = 9 ∧ bodySub f.body = 1 then
    s.modClk fun c => { c with syncOut := some (f.body.extractLsb' 128 8, BitVec.ofNat 64 s.now) }
  else s

/-- `FP_TX_READY` takes the next flit. -/
def flitTransmit (p : FabPort) (s : State) : State :=
  if !s.running ∨ !(s.fp p).linkUp then s
  else
    match (s.fp p).pickTx s with
    | some f => sendFlit p f s
    | none => s

/-- R209: an `IDLE` flit, when credits are due and nothing else can leave, or a microsecond after the last flit. -/
def idleSend (p : FabPort) (s : State) : State :=
  let x := s.fp p
  if !s.running ∨ !x.linkUp ∨ !x.state.live then s
  else if x.lastTx + 1000 ≤ s.now ∨ (x.owed ≠ [] ∧ (x.pickTx s).isNone) then
    let h := x.txHdr (x.txSeq - 1) false 0 0 0 0 15 0
    s.setFp p { x.paid with lastTx := s.now, out := some (osfWord 15 h 0) }
  else s

/-! ### LINK_UP, HELLO (R212) -/

/-- The `HELLO` of a port. -/
def State.helloBody (s : State) (p : FabPort) : BitVec 144 :=
  mgmtBody 0x01 (s.slu.otp.uid ++ p ++ b1 (s.fab.scope.getLsbD p.toNat) ++ s.fab.nodeId ++
    b1 s.fab.nodeValid ++ s.clk.incarnation ++ Config.idVersion.extractLsb' 0 24 ++ 0#19)

/-- `FP_LINK_UP` rises. -/
def linkRise (p : FabPort) (s : State) : State :=
  let x := s.fp p
  if !s.running ∨ !s.fpEnabled p ∨ x.linkUp then s
  else if x.state = .down then
    fabSendOn p 8 (s.helloBody p) (s.setFp p
      { x with
        linkUp := true, awaitHello := true, txSeq := 0, rxSeq := 0xFFF, credits := [], opOut := []
        owed := [], txq := [], replay := [] })
  else s.setFp p { x with linkUp := true }

/-- R228: `FP_LINK_UP` falls. -/
def linkFall (p : FabPort) (s : State) : State :=
  if !s.running ∨ !s.fpEnabled p ∨ !(s.fp p).linkUp then s
  else
    let s := losePort p s
    s.modFp p fun x =>
      { x with linkUp := false, state := if x.state = .isolated then .down else x.state }

/-- R228: silence for 4 µs. -/
def linkSilence (p : FabPort) (s : State) : State :=
  if s.running ∧ s.fpLive p ∧ (s.fp p).lastRx + 4000 ≤ s.now then losePort p s else s

/-- R230: the port enters `FAILED`. -/
def failPort (p : FabPort) (s : State) : State :=
  let s := s.modFp p fun x =>
    { x with state := .failed, fault := true, awaitHello := false, reconDue := none }
  raiseGlobal 4 (service 2 0x09 { SvcAt.none with port := p } s)

/-- R230: no `RECONCILE` within 100 µs. -/
def reconTimeout (p : FabPort) (s : State) : State :=
  match (s.fp p).reconDue with
  | some t => if s.running ∧ t ≤ s.now then failPort p s else s
  | none => s

/-- The fields of a `HELLO`. -/
structure HelloMsg where
  uid : DWord
  port : FabPort
  scope : Bool
  node : NodeId
  valid : Bool
  incarn : Byte
  version : BitVec 24
  deriving DecidableEq, Repr

def helloOf (b : BitVec 144) : HelloMsg where
  uid := b.extractLsb' 72 64
  port := b.extractLsb' 69 3
  scope := b.getLsbD 68
  node := b.extractLsb' 52 16
  valid := b.getLsbD 51
  incarn := b.extractLsb' 43 8
  version := b.extractLsb' 19 24

/-- The mismatch of a `HELLO`, if any: 1 `SCOPE`, 2 major version, 3 NodeID state after a link loss. -/
def State.helloMismatch (s : State) (p : FabPort) (m : HelloMsg) : Option (BitVec 2) :=
  if m.scope ≠ s.fab.scope.getLsbD p.toNat then some 1
  else if m.version.extractLsb' 16 8 ≠ Config.idVersion.extractLsb' 16 8 then some 2
  else if (s.fp p).everLost ∧ m.valid ∧ s.fab.nodeValid = false then some 3
  else none

/-- Full buffers' worth of credits (R205). -/
def fullCredits : Table Nat := (List.range 5).map fun n => (n + 1, poolDepth (n + 1))

/-- A `HELLO` is checked: `ISOLATED`; `FAILED` at a new incarnation of a far end whose traffic is held or detoured (R230); `STANDBY` after a loss; else `LOCAL`. -/
def takeHello (r : Rx) (s : State) : State :=
  let p := r.port
  let m := helloOf r.body
  let old := s.fp p
  match s.helloMismatch p m with
  | some c =>
    reportFab .portIsolated p r.hdr.src (s.modFp p fun x =>
      { x with state := .isolated, awaitHello := false, isoCause := c })
  | none =>
    let s := s.modFp p fun x =>
      { x with
        farUid := m.uid, farPort := m.port, farNode := m.node, helloNode := m.node
        farValid := m.valid, farIncarn := m.incarn, isoCause := 0 }
    if (old.reconDue.isSome ∨ old.detour) ∧ old.farIncarn ≠ m.incarn then failPort p s
    else
      s.modFp p fun x =>
        { x with
          state := if x.everLost then .standby else .lcl, awaitHello := false
          credits := fullCredits, opOut := [], lastRx := s.now, lastTx := s.now }

/-- `HELLO` on a port: taken once for each rise of the link. -/
def helloFlit (r : Rx) (s : State) : State :=
  if (s.fp r.port).awaitHello ∧ (s.fp r.port).state = .down then takeHello r s
  else oweCredit r.port 4 s

end Sys2Proof.Machine
end

