-- ==== Sys2Proof/Machine/FabOps.lean ====
section
/-! DEFINITION. What received operations, completions, releases and tree flits do at their destination: admission (R256), remote operations (R216 to R219), cancellation (R218), tree traffic (R223, R225), forwarded notices (R219), reconciliation (R229 to R231) and forwarding (R201, R208, R214). -/

namespace Sys2Proof.Machine

/-! ### OP (R202, R216, R256) -/

/-- The fields of an `OP` body. -/
structure OpMsg where
  code : Byte
  req : Req
  agent : AgentId
  spart : PartId
  txid : BitVec 15
  deriving DecidableEq, Repr

/-- R202; the object's `NODE` is this one. -/
def opOfBody (b : BitVec 144) (node : NodeId) : OpMsg where
  code := b.extractLsb' 136 8
  req :=
    { ordered := b.getLsbD 135, invHint := b.getLsbD 134, noReply := b.getLsbD 133, spare := false
      ctx := b.extractLsb' 125 8, node, index := b.extractLsb' 105 20, aux := b.extractLsb' 97 8
      payload := b.extractLsb' 0 64 }
  agent := b.extractLsb' 85 12
  spart := b.extractLsb' 79 6
  txid := b.extractLsb' 64 15

def Admit.matches (x : Admit) (src : NodeId) (spart : PartId) : Bool :=
  x.valid && decide ((src ^^^ x.node) &&& x.mask = 0) && (x.spartAny || decide (x.spart = spart))

/-- R256: the lowest-numbered valid entry that matches decides. -/
def State.admitPart (s : State) (src : NodeId) (spart : PartId) : Option PartId :=
  (s.fab.admits.find? fun e => e.2.matches src spart).map fun e => e.2.lpart

/-- A `CPL` for an operation that took no entry. -/
def cplRefuse (m : OpMsg) (src : NodeId) (st : Status) (s : State) : State :=
  fabSend 2 src (cplBody m.code st.code m.txid false (s.time64.setWidth 48) 0) s

/-- What the home does before an entry is taken: the partition, or a refusal. -/
inductive AdmitOut where
  | refused (s : State)
  | part (p : PartId) (op : Op)

/-- R60, R218: the opcode travels. -/
def Op.travels (o : Op) : Bool := !(o.noObject || decide (o = .casCont))

/-- R256, R242, R293: admission, the drain of the local partition, and the context's `REMOTE_EN`; the drain does not turn away the opcodes of R218 (log 40), and a `FREE` entry is left to R27, which answers `NO_OBJECT` (log 81). -/
def admitOp (m : OpMsg) (src : NodeId) (s : State) : AdmitOut :=
  match (opOf m.code).filter Op.travels with
  | none => .refused (cplRefuse m src .formatError s)
  | some op =>
    match s.admitPart src m.spart with
    | none =>
      .refused (cplRefuse m src .accessDenied
        (report .admitNone .fab none m.agent src (packRef s.fab.nodeId m.req.ctx m.req.index) 0 s))
    | some p =>
      if !op.fabricOnly && s.draining p then
        .refused (cplRefuse m src .evictedRetry
          (countStatus p (Status.code .evictedRetry) (count p 19 s)))
      else if (s.ctx p m.req.ctx).state ≠ .free ∧ (s.ctx p m.req.ctx).remoteEn = false then
        .refused (cplRefuse m src .accessDenied
          (countStatus p (Status.code .accessDenied) (count p 19 s)))
      else .part p op

/-- The entry of an admitted operation. -/
def fabEntry (m : OpMsg) (op : Op) (src : NodeId) (p : PartId) (expected : DWord) (pool : Pool)
    (s : State) : OpEntry where
  id := s.freeEntry
  agent := m.agent
  node := src
  part := p
  prio := reqPrio m.req
  op := op
  req := m.req
  expected := expected
  st := .queued
  pool := pool
  mgmtEn := false
  waitNo := 0
  stamp := none
  xlat := none
  txid := some m.txid
  spart := m.spart
  tag := 0
  at_ := s.now

/-- An admitted operation takes an entry, or waits at FAB for one (R75, R205). -/
def takeOpFlit (m : OpMsg) (src : NodeId) (expected : DWord) (s : State) : Option State :=
  match admitOp m src s with
  | .refused t => some t
  | .part p op =>
    match s.fabricPool p with
    | none => none
    | some pool =>
      let e := fabEntry m op src p expected pool s
      some (tryOp e.id (s.modOpr fun o => { o with ops := o.ops ++ [e] }))

/-- The flit stays in its receive buffer; `due` says that a credit falls due when it leaves. -/
def holdRx (kind : BitVec 4) (r : Rx) (due : Bool) (s : State) : State :=
  s.modFp r.port fun x => { x with rxHeld := x.rxHeld ++ [(kind, r, due)] }

/-- A flit leaves its receive buffer. -/
def freeBuf (kind : BitVec 4) (r : Rx) (due : Bool) (s : State) : State :=
  if due then oweCredit r.port (poolOf kind) s else s

/-- A flit of REQ.OP waits in the port's buffer: the next ones stay behind it. -/
def FPort.opWaits (x : FPort) : Bool := x.rxHeld.any fun h => decide (poolOf h.1 = 1)

/-- The `OP` of a `CAS` waits for its `OP_EXT` (R202). -/
def waitExt (r : Rx) (s : State) : State := s.modFab fun f => { f with exts := f.exts ++ [r] }

/-- An `OP` or `OP_EXT` for this instance at the head of its port's buffer; none while no entry is free. An `OP_EXT` whose `OP` is not waiting is dropped, its credit returned (log 66). -/
def opStep (kind : BitVec 4) (r : Rx) (s : State) : Option State :=
  let m := opOfBody r.body s.fab.nodeId
  if kind = 0 then
    if m.code = 0x40 then some (waitExt r s) else takeOpFlit m r.hdr.src 0 s
  else
    let txid : BitVec 15 := r.body.extractLsb' 64 15
    let mine := fun (x : Rx) => decide (x.hdr.src = r.hdr.src ∧ (opOfBody x.body 0).txid = txid)
    match s.fab.exts.find? mine with
    | none => some s
    | some x =>
      takeOpFlit (opOfBody x.body s.fab.nodeId) r.hdr.src (r.body.extractLsb' 0 64)
        (s.modFab fun f => { f with exts := dropFirst mine f.exts })

/-! ### CPL (R202, R216, R217, R219) -/

structure CplMsg where
  code : Byte
  status : Byte
  txid : BitVec 15
  parked : Bool
  stamp : BitVec 48
  payload : DWord
  deriving DecidableEq, Repr

def cplOf (b : BitVec 144) : CplMsg where
  code := b.extractLsb' 136 8
  status := b.extractLsb' 128 8
  txid := b.extractLsb' 113 15
  parked := b.getLsbD 112
  stamp := b.extractLsb' 64 48
  payload := b.extractLsb' 0 64

/-- A remote wait of an entry whose operation parked. -/
def rwaitOf (e : OpEntry) (stamp : Nat) : RWait :=
  let perNode := decide (e.op = .wait ∨ e.op = .arriveWait)
  { node := e.req.node, ctx := e.req.ctx, index := e.req.index, part := e.part, agent := e.agent
    perNode, op := e.op, parity := perNode && reqAux0 e.req, operand := reqOperand e.req
    hint := e.req.invHint, token := reqToken e.req
    limit := if perNode then reqLimit e.req stamp else none, stamp }

/-- A completed operation may have granted a lock; the `CPL` of a `CLAIM_ID` with `OK` does not tell a win of a lock with policy `NONE` from no change (log 41). -/
def grantsLock (op : Op) (st : Byte) : Bool :=
  decide (op = .lock ∨ op = .tryLock ∨ op = .claimId) && decide (st = 0 ∨ st = 4 ∨ st = 5)

/-- The payload as the agent sees it: `OWNER_POLICY` is cleared (R202). -/
def clearPolicy (v : DWord) : DWord := v &&& ~~~(BitVec.ofNat 64 (3 * 2 ^ 36))

/-- The agent's holdings follow a completion: a `RESET_BOUND` grant enters, an `UNLOCK` that ended the holding removes (R128, R219). -/
def cplHoldings (e : OpEntry) (m : CplMsg) (s : State) : State :=
  let k : OKey := ⟨e.part, e.req.ctx, e.req.index⟩
  if grantsLock e.op m.status then
    if resetBound (m.payload.extractLsb' 36 2) then addHolding e.agent e.req.node k s else s
  else if e.op = .unlock ∧ m.status = 0 then delHolding e.agent e.req.node k s
  else s

/-- The grant that a dropped reply would leave (R78). -/
def cplGrant (e : OpEntry) (m : CplMsg) : Option Grant :=
  let k : OKey := ⟨e.part, e.req.ctx, e.req.index⟩
  if grantsLock e.op m.status then some (.lock k (some e.req.node) (m.payload.setWidth 36))
  else if e.op = .take ∧ m.status = 0 then
    some (.take k (some e.req.node) ((reqOperand e.req).setWidth 64))
  else if e.op = .tryTake ∧ m.status = 0 then some (.take k (some e.req.node) e.req.payload)
  else if e.op = .reserve ∧ m.status = 0 then some (.reserve k (some e.req.node) m.payload)
  else none

/-- The completion of an operation that left this instance; one that parked on an object whose end has come here first is woken with `NO_OBJECT` (log 53). -/
def cplEntry (e : OpEntry) (m : CplMsg) (s : State) : State :=
  let lost := s.fab.gone.any (· = e.id)
  let s := s.modFab fun f => { f with gone := f.gone.filter (· ≠ e.id) }
  if e.st = .granted then freeOp e.id s
  else if m.parked then
    let x := rwaitOf e (rebuildTime s.now 48 m.stamp.toNat)
    let s := freeOp e.id s
    if lost then wakeOne x.local (Status.code .noObject) 0 e.req.node none (0, e.req.node, 6) s
    else s.modWmc fun w => { w with rwaits := w.rwaits ++ [x] }
  else
    let pay := if e.op = .lock ∨ e.op = .tryLock ∨ e.op = .claimId then clearPolicy m.payload
               else m.payload
    answer e m.status pay (cplGrant e m) (cplHoldings e m s)

/-- A received `CPL`: an entry of this instance, or an undo operation of R218. -/
def cplFlit (r : Rx) (s : State) : State :=
  let m := cplOf r.body
  match s.opr.ops.find? fun e =>
      decide (e.id = m.txid.toNat) && e.txid.isNone && decide (e.st = .remote ∨ e.st = .granted) with
  | some e => pump (cplEntry e m s)
  | none =>
    s.modFab fun f => { f with undo := dropFirst (fun u => decide (u.txid = m.txid)) f.undo }

/-! ### REL flits (R203, R217 to R219) -/

structure WakeMsg where
  status : Byte
  ctx : CtxId
  index : Index
  parity : Bool
  payload : DWord
  deriving DecidableEq, Repr

def wakeOfBody (b : BitVec 144) : WakeMsg where
  status := b.extractLsb' 136 8
  ctx := b.extractLsb' 128 8
  index := b.extractLsb' 108 20
  parity := b.getLsbD 107
  payload := b.extractLsb' 0 64

/-- The object of a `WAKE_NODE`, as operations of this instance name it. -/
def WakeMsg.names (m : WakeMsg) (src node : NodeId) (c : CtxId) (i : Index) : Bool :=
  decide (node = src ∧ c = m.ctx ∧ i = m.index)

/-- R45: operations whose `CPL` is still under way learn that their object is gone. -/
def noteGone (m : WakeMsg) (src : NodeId) (s : State) : State :=
  let ids := (s.opr.ops.filter fun e =>
    decide (e.st = .remote) && e.txid.isNone && m.names src e.req.node e.req.ctx e.req.index).map (·.id)
  s.modFab fun f => { f with gone := f.gone ++ ids.filter fun i => !f.gone.any (· = i) }

/-- R217: the local waiters of the object and parity are woken together; with `NO_OBJECT`, every local waiter of the object (R45, log 53). -/
def wakeNodeFlit (r : Rx) (s : State) : State :=
  let m := wakeOfBody r.body
  let gone := decide (m.status = Status.code .noObject)
  let sel := fun (x : RWait) =>
    m.names r.hdr.src x.node x.ctx x.index && (gone || (x.perNode && decide (x.parity = m.parity)))
  let ws := (s.wmc.rwaits.filter sel).map RWait.local
  let s := s.modWmc fun w => { w with rwaits := w.rwaits.filter fun x => !sel x }
  let s := if gone then noteGone m r.hdr.src s else s
  wakeLocals ws m.status m.payload r.hdr.src (0, r.hdr.src, 6) s

structure GrantMsg where
  status : Byte
  ctx : CtxId
  index : Index
  agent : AgentId
  code : Byte
  ended : Bool
  policy : BitVec 2
  payload : DWord
  deriving DecidableEq, Repr

def grantOf (b : BitVec 144) : GrantMsg where
  status := b.extractLsb' 136 8
  ctx := b.extractLsb' 128 8
  index := b.extractLsb' 108 20
  agent := b.extractLsb' 96 12
  code := b.extractLsb' 88 8
  ended := b.getLsbD 87
  policy := b.extractLsb' 85 2
  payload := b.extractLsb' 0 64

/-- What a granted remote wait leaves for R78; nothing when it ended without a grant. -/
def remoteGrant (op : Op) (m : GrantMsg) (k : OKey) (src : NodeId) (units : BitVec 24) :
    Option Grant :=
  if op = .lock ∧ (m.status = 0 ∨ m.status = 4 ∨ m.status = 5) then some (.lock k (some src) (m.payload.setWidth 36))
  else if op = .take ∧ m.status = 0 then some (.take k (some src) (units.setWidth 64))
  else if op = .reserve ∧ m.status = 0 then some (.reserve k (some src) m.payload)
  else none

/-- R219: a lock's policy lets the holder's instance list the holding. -/
def listHolding (op : Op) (m : GrantMsg) (k : OKey) (src : NodeId) (s : State) : State :=
  if op = .lock ∧ (m.status = 0 ∨ m.status = 4 ∨ m.status = 5) ∧ resetBound m.policy then
    addHolding m.agent src k s
  else s

/-- A grant wakes one waiter. -/
def grantWake (x : RWait) (m : GrantMsg) (src : NodeId) (s : State) : State :=
  let k : OKey := ⟨x.part, m.ctx, m.index⟩
  wakeOne x.local m.status m.payload src (remoteGrant x.op m k src x.operand) (0, src, 6)
    (listHolding x.op m k src s)

/-- A grant that races the cancellation of its wait is dropped and undone (R78, R218). -/
def racedGrant (q : RWait → Bool) (m : GrantMsg) (src : NodeId) (s : State) : State :=
  let raced := fun (u : Undo) => u.rwait.any q
  match (s.fab.undo.find? raced).bind (·.rwait) with
  | some x =>
    let s := s.modFab fun f => { f with undo := mapFirst raced (fun u => { u with rwait := none }) f.undo }
    match remoteGrant x.op m ⟨x.part, m.ctx, m.index⟩ src x.operand with
    | some g => undoGrant x.agent g s
    | none => s
  | none => s

/-- A received `GRANT`: to a parked waiter, to one whose `CPL` is still under way (log 42), to one that has been cancelled, or the end of a holding. -/
def grantFlit (r : Rx) (s : State) : State :=
  let m := grantOf r.body
  let src := r.hdr.src
  if m.ended then
    let mine := fun (h : Holding) =>
      decide (h.agent = m.agent ∧ h.node = src ∧ h.key.ctx = m.ctx ∧ h.key.index = m.index)
    s.modOlu fun o => { o with holdings := dropFirst mine o.holdings }
  else
    let sel := fun (x : RWait) =>
      decide (x.perNode = false ∧ x.node = src ∧ x.ctx = m.ctx ∧ x.index = m.index ∧
        x.agent = m.agent ∧ x.op.code = m.code)
    match s.wmc.rwaits.find? sel with
    | some x => pump (grantWake x m src (s.modWmc fun w => { w with rwaits := dropFirst sel w.rwaits }))
    | none =>
      match s.opr.ops.find? fun e =>
          decide (e.st = .remote ∧ e.agent = m.agent ∧ e.op.code = m.code ∧ e.req.node = src ∧
            e.req.ctx = m.ctx ∧ e.req.index = m.index) && e.txid.isNone with
      | some e => pump (grantWake (rwaitOf e e.at_) m src (setOpSt e.id .granted s))
      | none => racedGrant sel m src s

/-- A received `CANCEL_DONE`. -/
def cancelDoneFlit (r : Rx) (s : State) : State :=
  let txid : BitVec 15 := r.body.extractLsb' 64 15
  s.modFab fun f => { f with undo := dropFirst (fun u => decide (u.txid = txid)) f.undo }

/-! ### Tree flits (R223, R225) -/

/-- A tree flit enters the internal queue of its node object's bank; the census tree has no object. -/
def treeFlit (w : TreeIn) (s : State) : State :=
  if w.tree = 0xFFF then gcount 23 s else pump (s.modFab fun f => { f with inq := f.inq ++ [w] })

def combineRx (r : Rx) (s : State) : State :=
  let b := r.body
  treeFlit
    { tree := b.extractLsb' 132 12, rel := false, src := r.hdr.src, epoch := b.extractLsb' 116 16
      slot := b.extractLsb' 113 3, valid := b.getLsbD 112, status := 0
      value := b.extractLsb' 0 64 } s

def treeRelRx (r : Rx) (s : State) : State :=
  let b := r.body
  treeFlit
    { tree := b.extractLsb' 132 12, rel := true, src := r.hdr.src, epoch := b.extractLsb' 116 16
      slot := 0, valid := false, status := b.extractLsb' 108 8, value := b.extractLsb' 0 64 } s

/-! ### NOTICE_FWD (R219) -/

/-- The holder's instance enters the notice, with its own partition of the holder (R191, R192). -/
def noticeFlit (r : Rx) (s : State) : State :=
  let w0 : DWord := r.body.extractLsb' 64 64
  let w1 : DWord := r.body.extractLsb' 0 64
  let code : Byte := w0.extractLsb' 56 8
  if code = 0x2F then
    snLost (s.modSn fun q =>
      { q with lost := BitVec.ofNat 32 (min (2 ^ 32 - 1) (q.lost.toNat + (w0.setWidth 32).toNat)) })
  else
    let part := (s.bind (w0.extractLsb' 32 12)).part
    let w0' : DWord := (w0.extractLsb' 50 14 : BitVec 14) ++ part ++ (w0.extractLsb' 0 44 : BitVec 44)
    snInherit part (w1.extractLsb' 0 44, w1.extractLsb' 44 20) [w0', w1] s

/-! ### RECONCILE (R229, R231) -/

/-- The flit leaves on the far end's alternate with `VIA` set to the far end. -/
def detourTx (p : FabPort) (f : TxFlit) (s : State) : State :=
  let far := (s.fp p).farNode
  let q := s.route far
  if q.altV && s.fpUp q.alt then enqueueTx q.alt { f with via := some far } s else holdTx p f s

/-- R231: the route to a node had the port as primary. -/
def State.usesPort (s : State) (n : NodeId) (p : FabPort) : Bool :=
  (s.route n).priV && decide ((s.route n).pri = p)

/-- R231 for one tree. -/
def resendTree (p : FabPort) (id : AgentId) (t : Tree) (s : State) : State :=
  match if t.valid && decide (id ≠ 0xFFF) then s.obj t.node else none with
  | some ⟨_, .barrier b⟩ =>
    let s := if !t.root && t.sent && s.usesPort t.parent p then sendCombine id t b s else s
    (List.range 8).foldl (fun s i =>
      if t.childMask.getLsbD i && s.usesPort (tgetD 0 t.child i) p then
        fabSend 7 (tgetD 0 t.child i)
          (treeRelBody id (b.epoch - 1) (if b.lastPartial then 2 else 0) b.result) s
      else s) s
  | _ => s

def resendTrees (p : FabPort) (s : State) : State :=
  s.fab.trees.foldl (fun s t => resendTree p (BitVec.ofNat 12 t.1) t.2 s) s

/-- The port whose link a `RECONCILE` speaks of. -/
def State.reconPort (s : State) (src : NodeId) (far : FabPort) : Option FabPort :=
  ((List.range 8).map fun i => (BitVec.ofNat 3 i : FabPort)).find? fun p =>
    let x := s.fp p
    decide (x.farNode = src ∧ x.farPort = far) && (decide (x.state = .up) || x.reconDue.isSome)

/-- Step 3 of R229: replay copies past the far end's `RX_SEQ`, then the held flits, take the detour. -/
def reconcileOn (p : FabPort) (rx : BitVec 12) (s : State) : State :=
  let x := s.fp p
  let again := (x.lost.filter fun c => !seqCovered c.1 rx).map fun c => { c.2 with fwd := none }
  let s := s.setFp p { x with lost := [], held := [], detour := true, reconDue := none }
  let s := gcountN 26 again.length s
  resendTrees p ((again ++ x.held).foldl (fun s f => detourTx p f s) s)

/-- A received `RECONCILE`; an end that still saw its link up loses it. -/
def reconcileFlit (r : Rx) (s : State) : State :=
  let rx : BitVec 12 := r.body.extractLsb' 124 12
  match s.reconPort r.hdr.src (r.body.extractLsb' 121 3) with
  | none => s
  | some p => reconcileOn p rx (if s.fpUp p then losePort p s else s)

/-! ### Forwarding (R201, R208, R214) -/

/-- The flit is for this instance: its key is this node, and no detour ends here. -/
def State.forHere (s : State) (r : Rx) : Bool :=
  decide ((if r.hdr.viaEn then r.hdr.via else r.hdr.dst) = s.fab.nodeId) &&
    decide (r.hdr.dst = s.fab.nodeId)

/-- R199, R229: the `VIA` node clears `VIA_EN`. -/
def State.viaAfter (s : State) (r : Rx) : Option NodeId :=
  if r.hdr.viaEn && decide (r.hdr.via ≠ s.fab.nodeId) then some r.hdr.via else none

/-- A flit for another instance is routed onward; its buffer is freed when it leaves. -/
def forwardFlit (kind : BitVec 4) (r : Rx) (due : Bool) (s : State) : State :=
  if r.hdr.hop = 0 then
    freeBuf kind r due (gcount 24 (reportFab .hopExhausted r.port r.hdr.src s))
  else
    let f : TxFlit :=
      { kind, dst := r.hdr.dst, src := r.hdr.src, via := s.viaAfter r, hop := r.hdr.hop - 1
        body := r.body, fwd := if due then some r.port else none }
    if s.nextHop (f.via.getD f.dst) = .none then
      routeTx (some r.port) f (freeBuf kind r due s)
    else routeTx (some r.port) f (gcount 22 s)

/-! ### The REQ.OP buffer (R75, R205) -/

/-- The flit at the head of a REQ.OP buffer: performed here, or forwarded; none while no entry is free. -/
def opHead (kind : BitVec 4) (r : Rx) (due : Bool) (s : State) : Option State :=
  if s.forHere r then
    match opStep kind r s with
    | some t => some (freeBuf kind r due t)
    | none => none
  else some (forwardFlit kind r due s)

/-- A received REQ.OP flit, also one in transit: it stays behind one that waits for an entry. -/
def opFlit (kind : BitVec 4) (r : Rx) (due : Bool) (s : State) : State :=
  if (s.fp r.port).opWaits then holdRx kind r due s
  else
    match opHead kind r due s with
    | some t => t
    | none => holdRx kind r due s

/-- The first waiting REQ.OP flit of a port that no Hobble holds. -/
def FPort.headOp (x : FPort) : Option (BitVec 4 × Rx × Bool) :=
  x.rxHeld.find? fun h => decide (poolOf h.1 = 1)

/-- The waiting flits of one port pass while entries are free; `n` bounds them. -/
def feedFab (p : FabPort) : Nat → State → State
  | 0, s => s
  | n + 1, s =>
    match (s.fp p).headOp with
    | none => s
    | some h =>
      match opHead h.1 h.2.1 h.2.2 (s.modFp p fun x => { x with rxHeld := dropFirst (· = h) x.rxHeld }) with
      | some t => feedFab p n t
      | none => s

/-- R75: freed entries go to waiting agent ports and to FAB. -/
def opTableEntryGrant (s : State) : State :=
  if s.running ∧ !s.hobbling then
    let s := opTableGrant s
    (List.range 8).foldl (fun s i =>
      feedFab (BitVec.ofNat 3 i) (s.fp (BitVec.ofNat 3 i)).rxHeld.length s) s
  else s

def execOpTableEntryGrant (s : State) : Out := .next (opTableEntryGrant s)

end Sys2Proof.Machine
end

