-- ==== Sys2Proof/Machine/Discovery.lean ====
section
/-! DEFINITION. Discovery (R213) and the loading of routes (R215). The bodies of `SUB` 0x02 to 0x07 and the topology record are the model's own (log 34). -/

namespace Sys2Proof.Machine

/-! ### Bodies -/

def probeBody (session depth : Byte) : BitVec 144 := mgmtBody 0x02 (session ++ depth ++ 0#120)
def notChildBody (session : Byte) : BitVec 144 := mgmtBody 0x03 (session ++ 0#128)

/-- A report; `last` marks the end of the sender's whole report. -/
def reportBody (x : TopoRep) (last deep : Bool) : BitVec 144 :=
  mgmtBody 0x04 (x.uid ++ x.port ++ b1 x.scope ++ x.far ++ b1 last ++ b1 deep ++ b1 x.toParent ++ 0#1)

def repOf (b : BitVec 144) : TopoRep where
  uid := b.extractLsb' 72 64
  port := b.extractLsb' 69 3
  scope := b.getLsbD 68
  far := b.extractLsb' 4 64
  toParent := b.getLsbD 1

/-- A NodeID and the list of ports still to take, first port lowest. -/
def assignBody (node : NodeId) (path : List FabPort) : BitVec 144 :=
  mgmtBody 0x05 (node ++ BitVec.ofNat 6 path.length ++
    path.foldr (fun p (v : BitVec 96) => (v <<< 3) ||| p.setWidth 96) 0 ++ 0#18)

def planBody (digest : DWord) (session : Byte) (root : NodeId) : BitVec 144 :=
  mgmtBody 0x06 (digest ++ session ++ root ++ 0#48)

def doneBody (session : Byte) (down : Bool) : BitVec 144 :=
  mgmtBody 0x07 (session ++ b1 down ++ 0#127)

/-- The session in the bodies of `SUB` 0x02, 0x03 and 0x07. -/
def bodySession (b : BitVec 144) : Byte := b.extractLsb' 128 8

/-! ### Probes and reports -/

/-- A `MGMT` flit on each of some ports. -/
def sendEach (ports : List FabPort) (body : BitVec 144) (s : State) : State :=
  ports.foldl (fun s p => fabSendOn p 8 body s) s

/-- The instance's own reports, one for each port. -/
def State.ownReports (s : State) : List TopoRep :=
  s.livePorts.map fun p =>
    { uid := s.slu.otp.uid, port := p, scope := s.fab.scope.getLsbD p.toNat, far := (s.fp p).farUid
      toParent := decide (s.fab.disc.parent = some p) }

/-- The report of an instance and its children goes to its parent, the last flit marked. -/
def sendReports (p : FabPort) (deep : Bool) : List TopoRep → State → State
  | [], s => s
  | [x], s => fabSendOn p 8 (reportBody x true deep) s
  | x :: r, s => sendReports p deep r (fabSendOn p 8 (reportBody x false deep) s)

/-! ### The topology (R213 step 3) -/

/-- Elements of a list without repeats, in order of first appearance. -/
def distinct : List DWord → List DWord → List DWord
  | seen, [] => seen
  | seen, x :: r => if seen.any (· = x) then distinct seen r else distinct (seen ++ [x]) r

/-- UIDs of the instances found, the originator first. -/
def topoUids (own : DWord) (reps : List TopoRep) : List DWord := distinct [own] (reps.map (·.uid))

/-- One round of joining instances over `SCOPE` 0 links. -/
def joinRound (reps : List TopoRep) (g : List DWord) : List DWord :=
  distinct g ((reps.filter fun r => !r.scope && g.any (· = r.uid)).map (·.far))

/-- The group of an instance: `n` rounds from it. -/
def groupFrom (reps : List TopoRep) : Nat → List DWord → List DWord
  | 0, g => g
  | n + 1, g => groupFrom reps n (joinRound reps g)

/-- Groups in discovery order; `n` bounds their number. -/
def topoGroups (reps : List TopoRep) : Nat → List DWord → List (List DWord)
  | 0, _ => []
  | _ + 1, [] => []
  | n + 1, u :: r =>
    let g := groupFrom reps (r.length + 1) [u]
    g :: topoGroups reps n (r.filter fun v => !g.any (· = v))

/-- Members of a group below a UID: its rank in ascending order. -/
def rankIn (g : List DWord) (u : DWord) : Nat := (g.filter fun v => decide (v.toNat < u.toNat)).length

/-- NodeIDs by UID. -/
def topoNodes (groups : List (List DWord)) : List (DWord × NodeId) :=
  groups.zipIdx.flatMap fun e =>
    e.1.map fun u => (u, BitVec.ofNat 8 e.2 ++ BitVec.ofNat 8 (rankIn e.1 u))

/-- The discovery parent of an instance. -/
def topoParent (reps : List TopoRep) (u : DWord) : Option DWord :=
  (reps.find? fun r => decide (r.uid = u) && r.toParent).map (·.far)

/-- The lowest port of an instance that leads to another. -/
def portTo (reps : List TopoRep) (u v : DWord) : Option FabPort :=
  (reps.find? fun r => decide (r.uid = u ∧ r.far = v)).map (·.port)

/-- Ports from the originator down the discovery tree to an instance; `n` bounds the depth. -/
def topoPath (reps : List TopoRep) : Nat → DWord → List FabPort
  | 0, _ => []
  | n + 1, u =>
    match topoParent reps u with
    | none => []
    | some v =>
      match portTo reps v u with
      | none => []
      | some p => topoPath reps n v ++ [p]

/-- The topology record: the instances with their NodeIDs, then the links (log 34). -/
def topoRecord (nodes : List (DWord × NodeId)) (reps : List TopoRep) : List Byte :=
  bytesOf 4 (BitVec.ofNat 32 nodes.length) ++ bytesOf 4 (BitVec.ofNat 32 reps.length) ++
    List.replicate 8 0 ++
    (nodes.flatMap fun e => bytesOf 8 e.1 ++ bytesOf 2 e.2 ++ List.replicate 6 0) ++
    (reps.flatMap fun r =>
      bytesOf 8 r.uid ++ bytesOf 8 r.far ++ [r.port.setWidth 8, (b1 r.scope).setWidth 8] ++
        List.replicate 14 0)

/-- R213: the low 64 bits of the SHA-384 of the record. -/
def topoDigest (rec : List Byte) : DWord := (Config.sha384 rec).extractLsb' 0 64

/-! ### Distance vectors (R213 step 5) -/

/-- The entry of an instance itself. -/
def State.ownIndex (s : State) (member : Bool) : Byte :=
  if member then s.fab.nodeId.extractLsb' 0 8 else s.fab.nodeId.extractLsb' 8 8

/-- A hop through a port climbs when it leads to the discovery parent. -/
def State.climbs (s : State) (p : FabPort) : Bool := decide (s.fab.disc.parent = some p)

/-- A received entry that may be extended: a climbing hop always, a descending hop only ahead of descending ones. -/
def State.dvUsable (s : State) (e : DvEntry) : Bool :=
  e.reach && (s.climbs e.port || e.desc) && decide (e.hops ≠ 63)

/-- The better of two entries: fewer hops, then the lower port. -/
def dvBetter (a b : DvEntry) : Bool :=
  decide (a.hops.toNat < b.hops.toNat ∨ (a.hops = b.hops ∧ a.port.toNat < b.port.toNat))

def dvBest : List DvEntry → Option DvEntry
  | [] => none
  | x :: r =>
    match dvBest r with
    | none => some x
    | some y => if dvBetter y x then some y else some x

/-- Usable entries for one destination. -/
def State.dvFor (s : State) (member : Bool) (i : Byte) : List DvEntry :=
  s.fab.disc.dv.filter fun e => decide (e.member = member ∧ e.index = i) && s.dvUsable e

/-- The table entry that the vectors give. -/
def State.dvRoute (s : State) (member : Bool) (i : Byte) : Route :=
  if i = s.ownIndex member then Route.reset
  else
    match dvBest (s.dvFor member i) with
    | none => Route.reset
    | some x =>
      match dvBest ((s.dvFor member i).filter fun e => decide (e.port ≠ x.port)) with
      | none => { pri := x.port, priV := true, alt := 0, altV := false, hops := x.hops + 1 }
      | some y => { pri := x.port, priV := true, alt := y.port, altV := true, hops := x.hops + 1 }

/-- What this instance offers its neighbours: hops, reachable, descending. -/
def State.dvOffer (s : State) (member : Bool) (i : Byte) : BitVec 16 :=
  if i = s.ownIndex member then 0#8 ++ 1#1 ++ 1#1 ++ 0#6
  else
    match dvBest (s.dvFor member i) with
    | none => 0
    | some x => 0#8 ++ b1 (!s.climbs x.port) ++ 1#1 ++ (x.hops + 1)

/-- Flit `n` of a table: seven entries, four in the last. -/
def State.dvBody (s : State) (member : Bool) (n : Nat) : BitVec 144 :=
  let cnt := min 7 (256 - 7 * n)
  let es : BitVec 112 := (List.range cnt).foldl (fun v j =>
    v ||| ((s.dvOffer member (BitVec.ofNat 8 (7 * n + j))).setWidth 112 <<< (16 * j))) 0
  mgmtBody 0x08 (s.fab.disc.session ++ b1 member ++ BitVec.ofNat 8 (7 * n) ++ BitVec.ofNat 3 cnt ++
    0#4 ++ es)

/-- The whole vector: 37 flits for each table. -/
def State.dvBodies (s : State) : List (BitVec 144) :=
  (List.range 37).map (s.dvBody false) ++ (List.range 37).map (s.dvBody true)

/-- The whole vector goes out on every port. -/
def sendVector (s : State) : State :=
  let bs := s.dvBodies
  let s := s.livePorts.foldl (fun s p => bs.foldl (fun s b => fabSendOn p 8 b s) s) s
  s.modDisc fun d => { d with dvSent := s.now, dvDue := false }

/-- A vector that is due goes out, at most once in 10 µs. -/
def dvFlush (s : State) : State :=
  let d := s.fab.disc
  if d.dvDue ∧ d.dvSent + 10000 ≤ s.now then sendVector s else s

/-- The tables as the vectors give them. -/
def dvTables (s : State) : State :=
  let t := fun (member : Bool) =>
    (List.range 256).foldl (fun (m : Table Route) i =>
      tput Route.reset m i (s.dvRoute member (BitVec.ofNat 8 i))) []
  s.modFab fun f => { f with groupRt := t false, memberRt := t true }

/-- Vectors begin: tables are emptied, and the own vector goes out. -/
def startVectors (s : State) : State :=
  let s := s.modDisc fun d =>
    { d with started := true, dv := [], dvAt := s.now, converged := false, childDone := [], done := false }
  sendVector (dvTables s)

/-! ### The time parent (R234, R237) -/

/-- The `PRI` port toward a node, while it is `UP`. -/
def State.portOf (s : State) (n : NodeId) : Option FabPort :=
  let r := s.route n
  if r.priV && s.fpUp r.pri then some r.pri else none

/-- The neighbour on a port is asked; it becomes the time parent once its synced bit is known to be set (R238). -/
def takeParent (gm : NodeId) (p : FabPort) (s : State) : State :=
  s.modClk fun c =>
    { c with
      gmNode := gm, parentPort := p, hasParent := false, asking := true, silent := 0
      waited := false, syncOut := none }

/-- R234: the time parent is the neighbour on the `PRI` port of the grandmaster's entry, also when that entry changes. -/
def parentFollow (s : State) : State :=
  let c := s.clk
  if c.grandmaster ∨ !(c.hasParent || c.asking) then s
  else
    match s.portOf c.gmNode with
    | some p => if p = c.parentPort then s else takeParent c.gmNode p s
    | none => s

/-! ### Completion (R213 step 6) -/

/-- R403: the three flags, the ranges and a bisection belong to the root alone. -/
def censusRole (root : Bool) (c : Census) : Census :=
  if root then { c with root }
  else
    { c with
      root, mismatch := false, incomplete := false, bisectDone := false, bisecting := false
      ranges := [], work := [], pending := [] }

/-- R221, log 35: the census tree over the discovery tree; the slot of a child is the parent's port to it. -/
def stitchCensus (s : State) : State :=
  let d := s.fab.disc
  let child := d.children.foldl (fun (t : Table NodeId) p => tset t p.toNat (s.fp p).farNode) []
  let t : Tree :=
    { Tree.reset with
      parent := (d.parent.map fun p => (s.fp p).farNode).getD 0
      pslot := (d.parent.map fun p => (s.fp p).farPort).getD 0
      root := d.origin, valid := true, rootNode := d.rootNode, altParent := 0xFFFF
      childMask := d.children.foldl (fun (m : Byte) p => setBit m p.toNat) 0, child }
  (s.setTree 0xFFF t).modCensus (censusRole d.origin)

/-- Flits held for lost ports find their way by the new tables; those of a `FAILED` port stay. -/
def releaseHeld (s : State) : State :=
  (List.range 8).foldl (fun s i =>
    let p : FabPort := BitVec.ofNat 3 i
    let x := s.fp p
    if x.state = .failed then s
    else
      let s := s.setFp p { x with detour := false, held := [] }
      x.held.foldl (fun s f => routeTx none { f with via := none } s) s) s

/-- R212: ports named by the routes enter `UP`. -/
def portsUp (ports : List FabPort) (s : State) : State :=
  ports.foldl (fun s p =>
    s.modFp p fun x => { x with state := if x.state.live then .up else x.state }) s

/-- Completion reaches this instance: census tree, ports, detours. -/
def completeHere (s : State) : State :=
  let s := stitchCensus (s.modDisc fun d => { d with done := true })
  parentFollow (releaseHeld (portsUp s.livePorts s))

/-- The originator's command completes with its results. -/
def finishDiscover (s : State) : State :=
  let d := s.fab.disc
  match d.cmd.bind s.cmd with
  | some c =>
    ok c [BitVec.ofNat 32 d.found, BitVec.ofNat 32 d.groups, s.fab.planDigest.extractLsb' 0 32,
      s.fab.planDigest.extractLsb' 32 32] (s.modDisc fun d => { d with cmd := none })
  | none => s

/-- Converged, and every discovery child has reported: up the tree, or at the originator down it. -/
def completionCheck (s : State) : State :=
  let d := s.fab.disc
  if d.converged ∧ !d.done ∧ d.children.all (fun p => d.childDone.any (· = p)) then
    match d.parent with
    | some p => fabSendOn p 8 (doneBody d.session false) s
    | none => finishDiscover (completeHere (sendEach s.livePorts (doneBody d.session true) s))
  else s

/-! ### ROUTE_DISCOVER -/

/-- R213: the command fails. -/
def failDiscover (s : State) : State :=
  match s.fab.disc.cmd.bind s.cmd with
  | some c =>
    refuse c .rangeError c.byState (s.modDisc fun d => { d with cmd := none, active := false })
  | none => s

/-- Steps 3 to 5 at the originator. -/
def assignAll (c : Cmd) (s : State) : State :=
  let d := s.fab.disc
  let own := s.slu.otp.uid
  let reps := s.ownReports ++ d.reports
  let uids := topoUids own reps
  let groups := topoGroups reps uids.length uids
  let nodes := topoNodes groups
  let rec_ := topoRecord nodes reps
  let rq := s.cmdReqid c
  if d.tooDeep ∨ 256 < groups.length ∨ groups.any (fun g => decide (256 < g.length)) then failDiscover s
  else if (c.word 4).toNat < rec_.length then
    refuse c .rangeError (det 4 0) (s.modDisc fun d => { d with cmd := none, active := false })
  else if memErr s rq (c.addr 2) rec_.length then
    memFail c 2 ((mmRequest true rq (c.addr 2) rec_.length s).modDisc fun d => { d with cmd := none, active := false })
  else
    let s := mmWrite rq (c.addr 2) rec_ s
    let dig := topoDigest rec_
    let node := (nodes.find? fun e => decide (e.1 = own)).map (·.2)
    let s := s.modFab fun f => { f with nodeId := node.getD 0, nodeValid := true, planDigest := dig }
    let s := (nodes.filter fun e => decide (e.1 ≠ own)).foldl (fun s e =>
      match topoPath reps 33 e.1 with
      | p :: r => fabSendOn p 8 (assignBody e.2 r) s
      | [] => s) s
    let s := s.modDisc fun d =>
      { d with found := uids.length, groups := groups.length, rootNode := s.fab.nodeId }
    let s := s.modCensus fun c => { c with expect := BitVec.ofNat 17 uids.length }
    startVectors (sendEach s.livePorts (planBody dig d.session s.fab.nodeId) s)

/-- Every probe sent has been answered. -/
def probesAnswered (s : State) : State :=
  let d := s.fab.disc
  if d.waiting ≠ [] ∨ d.reported then s
  else
    let s := s.modDisc fun d => { d with reported := true }
    match d.parent with
    | some p => sendReports p d.tooDeep (s.ownReports ++ d.reports) s
    | none =>
      match d.cmd.bind s.cmd with
      | some c => assignAll c s
      | none => s

def discoverFmt (c : Cmd) : List (Nat × Nat) := c.misaligned 2

/-- R215: only while the fabric is hobbled, once a NodeID is held. -/
def State.routesFixed (s : State) : Bool := decide (s.obs.hobble.state ≠ 3)

/-- Step 1 at the originator. -/
def routeDiscover (c : Cmd) (s : State) : State :=
  if s.fab.nodeValid ∧ s.routesFixed then refuse c .rangeError c.byState s
  else
    let session := s.fab.disc.session + 1
    let s := s.modFab fun f =>
      { f with disc :=
          { Disc.reset with
            active := true, session, origin := true, waiting := s.livePorts, cmd := some c.id } }
    let s := setPhase c.id .waiting s
    probesAnswered (sendEach s.livePorts (probeBody session 0) s)

def execRouteDiscover (id : Nat) (s : State) : Out :=
  .next (startCmd 0x0301 id discoverFmt routeDiscover s)

/-! ### ROUTE_LOAD -/

def loadFmt (c : Cmd) : List (Nat × Nat) := c.misaligned 3

def routeOfWord (v : BitVec 16) : Route where
  pri := v.extractLsb' 0 3
  priV := v.getLsbD 3
  alt := v.extractLsb' 4 3
  altV := v.getLsbD 7
  hops := v.extractLsb' 8 6

/-- 256 entries of 16 bits at an address. -/
def routesAt (s : State) (a : Nat) : Table Route :=
  (List.range 256).foldl (fun (t : Table Route) i =>
    tput Route.reset t i (routeOfWord (bvOf 16 (memBytes s (a + 2 * i) 2)))) []

/-- The tables name a port. -/
def State.routedPort (s : State) (p : FabPort) : Bool :=
  (s.fab.groupRt ++ s.fab.memberRt).any fun e =>
    (e.2.priV && decide (e.2.pri = p)) || (e.2.altV && decide (e.2.alt = p))

def routeLoad (c : Cmd) (s : State) : State :=
  if s.routesFixed then refuse c .rangeError c.byState s
  else
    let a := c.addr 3
    let rq := s.cmdReqid c
    let s := mmRequest false rq a 1024 s
    if memErr s rq a 1024 then memFail c 3 s
    else
      let g := routesAt s a
      let m := routesAt s (a + 512)
      let s := s.modFab fun f =>
        { f with
          nodeId := c.field 2 0 16, nodeValid := true, groupRt := g, memberRt := m
          planDigest := c.word 6 ++ c.word 5 }
      ok c [] (parentFollow (releaseHeld (portsUp (s.livePorts.filter s.routedPort) s)))

def execRouteLoad (id : Nat) (s : State) : Out := .next (startCmd 0x0302 id loadFmt routeLoad s)

/-! ### Received discovery flits -/

/-- The first probe of a session makes its port the discovery parent; later ones are answered with `SUB` 0x03. -/
def probeFlit (r : Rx) (s : State) : State :=
  let session := bodySession r.body
  let depth : Byte := r.body.extractLsb' 120 8
  let d := s.fab.disc
  if d.active ∧ d.session = session then fabSendOn r.port 8 (notChildBody session) s
  else
    let deep := decide (32 ≤ depth.toNat)
    let others := if deep then [] else s.livePorts.filter fun p => decide (p ≠ r.port)
    let s := s.modFab fun f =>
      { f with disc :=
          { Disc.reset with
            active := true, session, parent := some r.port, depth, waiting := others
            tooDeep := deep } }
    probesAnswered (sendEach others (probeBody session (depth + 1)) s)

def probeDone (p : FabPort) (s : State) : State :=
  probesAnswered (s.modDisc fun d => { d with waiting := d.waiting.filter (· ≠ p) })

/-- `SUB` 0x03. -/
def notChildFlit (r : Rx) (s : State) : State :=
  if s.fab.disc.active ∧ bodySession r.body = s.fab.disc.session then probeDone r.port s else s

/-- `SUB` 0x04: collected; the child's last flit answers its probe. -/
def reportFlit (r : Rx) (s : State) : State :=
  let d := s.fab.disc
  if !d.active ∨ !d.waiting.any (· = r.port) then s
  else
    let s := s.modDisc fun d =>
      { d with
        reports := d.reports ++ [repOf r.body], tooDeep := d.tooDeep || r.body.getLsbD 2
        children := if d.children.any (· = r.port) then d.children else d.children ++ [r.port] }
    if r.body.getLsbD 3 then probeDone r.port s else s

/-- `SUB` 0x05: this instance's NodeID, or one step of its way. -/
def assignFlit (r : Rx) (s : State) : State :=
  let node : NodeId := r.body.extractLsb' 120 16
  let n := (r.body.extractLsb' 114 6 : BitVec 6).toNat
  let path : BitVec 96 := r.body.extractLsb' 18 96
  if n = 0 then s.modFab fun f => { f with nodeId := node, nodeValid := true }
  else
    fabSendOn (path.setWidth 3) 8
      (mgmtBody 0x05 (node ++ BitVec.ofNat 6 (n - 1) ++ (path >>> 3) ++ 0#18)) s

/-- `SUB` 0x06: the first of a session is flooded on and starts the vectors. -/
def planFlit (r : Rx) (s : State) : State :=
  let digest : DWord := r.body.extractLsb' 72 64
  let session : Byte := r.body.extractLsb' 64 8
  let d := s.fab.disc
  if !d.active ∨ d.session ≠ session ∨ d.started then s
  else
    let s := s.modFab fun f => { f with planDigest := digest }
    let s := s.modDisc fun d => { d with rootNode := r.body.extractLsb' 48 16 }
    startVectors (sendEach (s.livePorts.filter fun p => decide (p ≠ r.port)) r.body s)

/-- The entries of a `ROUTE_DV` flit. -/
def dvEntries (p : FabPort) (b : BitVec 144) : List DvEntry :=
  let first := (b.extractLsb' 119 8 : BitVec 8).toNat
  let n := (b.extractLsb' 116 3 : BitVec 3).toNat
  (List.range n).map fun j =>
    let e : BitVec 16 := b.extractLsb' (16 * j) 16
    { port := p, member := b.getLsbD 127, index := BitVec.ofNat 8 (first + j)
      hops := e.extractLsb' 0 6, reach := e.getLsbD 6, desc := e.getLsbD 7 }

/-- An entry replaces the one of its port, table and index. -/
def dvPut (e : DvEntry) (l : List DvEntry) : List DvEntry :=
  (l.filter fun x => !decide (x.port = e.port ∧ x.member = e.member ∧ x.index = e.index)) ++ [e]

/-- The neighbour's vector as held differs. -/
def dvDiffers (e : DvEntry) (l : List DvEntry) : Bool := !l.any (· = e)

/-- `SUB` 0x08: vectors of other groups' members do not concern this instance. -/
def dvFlit (r : Rx) (s : State) : State :=
  let d := s.fab.disc
  let s := s.modFp r.port fun x => { x with farNode := r.hdr.src }
  let foreign := r.body.getLsbD 127 &&
    decide ((r.hdr.src.extractLsb' 8 8 : Byte) ≠ s.fab.nodeId.extractLsb' 8 8)
  if !d.started ∨ d.done ∨ bodySession r.body ≠ d.session ∨ foreign then s
  else
    let es := (dvEntries r.port r.body).filter fun e => dvDiffers e d.dv
    if es = [] then dvFlush s
    else
      let offers := s.dvBodies
      let s := s.modDisc fun d => { d with dv := es.foldl (fun l e => dvPut e l) d.dv, dvAt := s.now }
      let s := dvTables s
      dvFlush (if s.dvBodies = offers then s else s.modDisc fun d => { d with dvDue := true })

/-- R213: no vector has changed for 200 µs. -/
def convergedAt (s : State) : State :=
  let d := s.fab.disc
  if s.running ∧ d.started ∧ !d.converged ∧ !d.dvDue ∧ d.dvAt + 200000 ≤ s.now then
    completionCheck (s.modDisc fun d => { d with converged := true })
  else s

def execDiscoveryConverged (edges : Nat) (s : State) : Out :=
  .next (convergedAt (dvFlush (elapse edges s)))

/-- `SUB` 0x07 from a child. -/
def doneUpFlit (r : Rx) (s : State) : State :=
  let d := s.fab.disc
  if !d.active ∨ bodySession r.body ≠ d.session ∨ d.childDone.any (· = r.port) then s
  else completionCheck (s.modDisc fun d => { d with childDone := d.childDone ++ [r.port] })

/-- `SUB` 0x07 down the tree: flooded on once, and the ports enter `UP`. -/
def doneDownFlit (r : Rx) (s : State) : State :=
  let d := s.fab.disc
  if !d.active ∨ bodySession r.body ≠ d.session ∨ d.done then s
  else
    completeHere (sendEach (s.livePorts.filter fun p => decide (p ≠ r.port)) r.body s)

/-- Whether a `SUB` 0x07 goes down. -/
def doneDown (b : BitVec 144) : Bool := b.getLsbD 127

end Sys2Proof.Machine
end

