-- ==== Sys2Proof/Machine/Stitch.lean ====
section
/-! DEFINITION. Re-stitching (R232). The bodies of `SUB` 0x60 to 0x63 are the model's own (log 36). -/

namespace Sys2Proof.Machine

/-- `TREE`, whether it is a reply, whether a join found no slot, the slot, and J. -/
structure StitchMsg where
  tree : AgentId
  reply : Bool
  noSlot : Bool
  slot : BitVec 3
  j : BitVec 16
  deriving DecidableEq, Repr

def stitchBody (sub : Byte) (m : StitchMsg) : BitVec 144 :=
  mgmtBody sub (m.tree ++ b1 m.reply ++ b1 m.noSlot ++ m.slot ++ m.j ++ 0#103)

def stitchOf (b : BitVec 144) : StitchMsg where
  tree := b.extractLsb' 124 12
  reply := b.getLsbD 123
  noSlot := b.getLsbD 122
  slot := b.extractLsb' 119 3
  j := b.extractLsb' 103 16

/-- The epoch of a tree's node object here. -/
def State.treeEpoch (s : State) (t : Tree) : Option (BitVec 16) :=
  match if t.valid then s.obj t.node else none with
  | some ⟨_, .barrier b⟩ => some b.epoch
  | _ => none

/-- The edge to the parent runs on a detour (R229). -/
def State.onDetour (s : State) (t : Tree) : Bool :=
  let r := s.route t.parent
  r.priV && (s.fp r.pri).detour

/-- R232: what is not done 250 µs after the loss is given up; a root counts from its hold. -/
def State.stitchOver (s : State) (t : Tree) : Bool := decide (t.stitchAt + 250000 ≤ s.now)

/-- Step 1: MSQ at a child whose edge runs on a detour, and whose descriptor names another parent, asks the root; the limit counts from the loss of the link, and past it the edge stays on its detour. -/
def stitchBegin (id : AgentId) (t : Tree) (s : State) : State :=
  let t := { t with stitchAt := (s.fp (s.route t.parent).pri).lostAt }
  if s.stitchOver t then s.setTree id { t with restitch := some (3, 0, 0) }
  else
    fabSend 8 t.rootNode (stitchBody 0x60 ⟨id, false, false, 0, 0⟩)
      (s.setTree id { t with restitch := some (1, 0, 0) })

/-- The child gives up: the done flit goes without a change, and the edge stays on its detour (log 36). -/
def stitchGiveUp (id : AgentId) (t : Tree) (j : BitVec 16) (s : State) : State :=
  fabSend 8 t.rootNode (stitchBody 0x63 ⟨id, false, false, 0, j⟩)
    (s.setTree id { t with restitch := some (3, j, 0) })

/-- MSQ's part of a re-stitching: it begins, is given up, or is over with its detour; the root's hold ends at its limit. -/
def restitchStart (id : AgentId) (s : State) : State :=
  let t := s.tree id
  if !s.acting ∨ id = 0xFFF ∨ !t.valid then s
  else if t.root then
    if t.holdStitch ∧ s.stitchOver t then pump (clearHoldStitch id s) else s
  else
    match t.restitch with
    | none =>
      if t.altParent ≠ 0xFFFF ∧ t.altParent ≠ t.parent ∧ s.onDetour t then stitchBegin id t s else s
    | some (step, j, _) =>
      if step = 3 then if s.onDetour t then s else s.setTree id { t with restitch := none }
      else if s.stitchOver t then stitchGiveUp id t j s
      else s

def execRestitchStart (tree : AgentId) (s : State) : Out := .next (restitchStart tree s)

/-- `SUB` 0x60 at the root: the release of the current epoch is held, and J goes back. -/
def stitchHoldFlit (r : Rx) (s : State) : State :=
  let m := stitchOf r.body
  let t := s.tree m.tree
  match s.treeEpoch t with
  | some e =>
    if t.root then
      fabSend 8 r.hdr.src (stitchBody 0x60 ⟨m.tree, true, false, 0, e + 1⟩)
        (s.setTree m.tree { t with holdStitch := true, stitchAt := s.now })
    else s
  | none => s

/-- Slots in use, or taken by a join that has not begun. -/
def Tree.taken (t : Tree) (i : Nat) : Bool :=
  t.childMask.getLsbD i || t.changes.any fun c =>
    match c.2 with
    | .join slot _ => decide (slot.toNat = i)
    | .leave _ | .parent _ _ => false

/-- `SUB` 0x61 at the alternate parent: the lowest free slot, from epoch J. -/
def stitchJoinFlit (r : Rx) (s : State) : State :=
  let m := stitchOf r.body
  let t := s.tree m.tree
  if !t.valid then s
  else
    match lowest (fun i => !t.taken i) 8 with
    | none => fabSend 8 r.hdr.src (stitchBody 0x61 ⟨m.tree, true, true, 0, m.j⟩) s
    | some i =>
      let slot : BitVec 3 := BitVec.ofNat 3 i
      fabSend 8 r.hdr.src (stitchBody 0x61 ⟨m.tree, true, false, slot, m.j⟩)
        (s.setTree m.tree { t with changes := t.changes ++ [(m.j, .join slot r.hdr.src)] })

/-- `SUB` 0x62 at the old parent: the child's slot is cleared from epoch J. -/
def stitchLeaveFlit (r : Rx) (s : State) : State :=
  let m := stitchOf r.body
  let t := s.tree m.tree
  match t.child.find? fun c => decide (c.2 = r.hdr.src) && t.childMask.getLsbD c.1 with
  | some c =>
    s.setTree m.tree { t with changes := t.changes ++ [(m.j, .leave (BitVec.ofNat 3 c.1))] }
  | none => s

/-- `SUB` 0x63 at the root: the hold clears, and a release that waited for it is performed. -/
def stitchDoneFlit (r : Rx) (s : State) : State :=
  let m := stitchOf r.body
  let t := s.tree m.tree
  if t.valid ∧ t.root ∧ t.holdStitch then pump (clearHoldStitch m.tree s) else s

/-- A reply at the re-stitching child: J leads to the join; a slot to the leave, the new parent from J, and the done flit; no slot to the done flit and a report. -/
def stitchReplyFlit (r : Rx) (s : State) : State :=
  let m := stitchOf r.body
  let t := s.tree m.tree
  match t.restitch with
  | none => s
  | some (step, j, _) =>
    if step = 1 ∧ bodySub r.body = 0x60 then
      fabSend 8 t.altParent (stitchBody 0x61 ⟨m.tree, false, false, 0, m.j⟩)
        (s.setTree m.tree { t with restitch := some (2, m.j, 0) })
    else if step = 2 ∧ bodySub r.body = 0x61 then
      let done := stitchBody 0x63 ⟨m.tree, false, false, 0, j⟩
      if m.noSlot then
        fabSend 8 t.rootNode done
          (report .stitchNoSlot .fab none m.tree t.altParent 0 0
            (s.setTree m.tree { t with restitch := some (3, j, 0) }))
      else
        let s := fabSend 8 t.parent (stitchBody 0x62 ⟨m.tree, false, false, 0, j⟩) s
        let s := s.setTree m.tree
          { t with
            restitch := some (3, j, 0)
            changes := t.changes ++ [(j, .parent t.altParent m.slot)] }
        fabSend 8 t.rootNode done s
    else s

/-- What a stitch flit is for. -/
def stitchFlit (r : Rx) (s : State) : State :=
  let sub := bodySub r.body
  if (stitchOf r.body).reply then stitchReplyFlit r s
  else if sub = 0x60 then stitchHoldFlit r s
  else if sub = 0x61 then stitchJoinFlit r s
  else if sub = 0x62 then stitchLeaveFlit r s
  else stitchDoneFlit r s

end Sys2Proof.Machine
end

