-- ==== Sys2Proof/Machine/TimeSync.lean ====
section
/-! DEFINITION. Time discipline (R234 to R238). Which grandmaster an instance hears, and the frequency that it tracks, are open values (log 37, log 38). -/

namespace Sys2Proof.Machine

/-! ### Bodies (R204) -/

def syncReqBody (seq : Byte) : BitVec 144 := 0x01#8 ++ seq ++ 0#128

def syncRspBody (seq : Byte) (t2 : DWord) (gm : NodeId) (depth : BitVec 4) (synced : Bool) :
    BitVec 144 :=
  0x02#8 ++ seq ++ t2 ++ 0#32 ++ gm ++ depth ++ b1 synced ++ 0#11

/-- `SEQ` of a `TIME` body. -/
def bodySeq (b : BitVec 144) : Byte := b.extractLsb' 128 8

/-- The synced bit: this instance is the grandmaster, or locked to a parent; R238 says only that it is clear without a grandmaster (log 78). -/
def State.synced (s : State) : Bool := s.clk.grandmaster || (s.clk.hasParent && s.clk.timeLocked)

/-- The grandmaster as this instance reports it. -/
def State.gmSeen (s : State) : NodeId := if s.clk.grandmaster then s.fab.nodeId else s.clk.gmNode

/-! ### Each period -/

/-- R238: no grandmaster; TIME runs at the last estimate once the instance has been locked, else at `TIME_INC`. `keep` says that a step already made counts (R236). -/
def loseGm (keep : Bool) (s : State) : State :=
  s.modClk fun c =>
    { c with
      gmNode := 0, hasParent := false, asking := false, timeLocked := false, timeDepth := 0
      goodSyncs := 0, silent := 0, waited := false, syncOut := none
      stepped := c.everLocked || (keep && c.stepped)
      estimate := if c.everLocked then c.estimate else none, slew := none }

/-- R237: this instance becomes the grandmaster; TIME does not step. It runs at its last estimate if it has ever locked, else at `TIME_INC` (log 80). -/
def becomeGm (s : State) : State :=
  s.modClk fun c =>
    { c with
      grandmaster := true, gmNode := s.fab.nodeId, hasParent := false, asking := false
      timeDepth := 0, silent := 0, waited := false, syncOut := none, stepped := true
      estimate := if c.everLocked then c.estimate else none, slew := none }

/-- The grandmaster that this instance hears and can reach through a `PRI` port; which one is open (log 37). -/
def hearGm (s : State) : Option (NodeId × FabPort) × State :=
  let (v, s) := fresh s
  let gm : NodeId := v.extractLsb' 0 16
  (if v.getLsbD 16 && s.fab.nodeValid && decide (gm ≠ s.fab.nodeId) then
      (s.portOf gm).map fun p => (gm, p)
    else none, s)

/-- R237: what a period has heard. -/
def noteHeard (h : Option (NodeId × FabPort)) (s : State) : State :=
  s.modClk fun c =>
    match h with
    | some x =>
      { c with
        heard := some x, heardFor := 0
        unheard := if x.1.toNat < s.fab.nodeId.toNat then 0 else c.unheard + 1 }
    | none => { c with heardFor := c.heardFor + 1, unheard := c.unheard + 1 }

/-- R237: a grandmaster gives way to one with a lower NodeID, its TIME kept. -/
def yieldGm (gm : NodeId) (p : FabPort) (s : State) : State :=
  takeParent gm p (s.modClk fun c => { c with grandmaster := false, stepped := true })

/-- R237: an instance that could be grandmaster follows only one with a lower NodeID, any other every one. -/
def State.hearsLower (s : State) (gm : NodeId) : Bool :=
  !s.timeMaster || decide (gm.toNat < s.fab.nodeId.toNat)

/-- R237: the heard grandmaster becomes this instance's, where its NodeID is lower than that of the one in force, or none is. -/
def heardGm (gm : NodeId) (p : FabPort) (s : State) : State :=
  let c := s.clk
  if c.grandmaster then if gm.toNat < s.fab.nodeId.toNat then yieldGm gm p s else s
  else if c.hasParent ∨ c.asking then if gm.toNat < c.gmNode.toNat then takeParent gm p s else s
  else if s.hearsLower gm then takeParent gm p s
  else s

/-- R234: a request to the time parent; a period whose request stayed unanswered counts (R237). -/
def syncRequest (s : State) : State :=
  if s.clk.grandmaster ∨ ¬(s.clk.hasParent ∨ s.clk.asking) then s
  else
    let s := s.modClk fun c =>
      { c with silent := if c.waited then c.silent + 1 else c.silent, waited := true }
    if s.fpLive s.clk.parentPort then
      let seq := s.clk.syncSeq + 1
      fabSendOn s.clk.parentPort 9 (syncReqBody seq) (s.modClk fun c => { c with syncSeq := seq })
    else s

/-- One period of 1 ms: what is heard of grandmasters, then the request. -/
def syncPeriod (s : State) : State :=
  if !s.running ∨ s.now < s.clk.syncAt + 1000000 then s
  else
    match hearGm (s.modClk fun c => { c with syncAt := s.now }) with
    | (some (gm, p), s) => syncRequest (heardGm gm p (noteHeard (some (gm, p)) s))
    | (none, s) => syncRequest (noteHeard none s)

def execSyncPeriod (edges : Nat) (s : State) : Out := .next (syncPeriod (elapse edges s))

/-- R237: the grandmaster in force cannot be reached by another parent: the new one, if one has been heard within three periods, else none. -/
def parentGone (s : State) : State :=
  match s.clk.heard with
  | some (gm, p) =>
    if s.clk.heardFor < 3 ∧ gm ≠ s.clk.gmNode ∧ s.hearsLower gm then takeParent gm p s
    else loseGm false s
  | none => loseGm false s

/-- R237: three periods without a grandmaster of lower NodeID make an instance with `TIME_MASTER` the grandmaster; three silent periods of the parent lead to a new time parent, the new grandmaster, or none. -/
def parentTimeout (s : State) : State :=
  let c := s.clk
  if !s.running ∨ c.grandmaster then s
  else if s.timeMaster ∧ 3 ≤ c.unheard then becomeGm s
  else if (c.hasParent ∨ c.asking) ∧ 3 ≤ c.silent then
    match s.portOf c.gmNode with
    | some p => if p = c.parentPort then parentGone s else takeParent c.gmNode p s
    | none => parentGone s
  else s

def execTimeParentTimeout (edges : Nat) (s : State) : Out := .next (parentTimeout (elapse edges s))

/-! ### Answers -/

/-- R234, R238: T2 is the edge of receipt; the residence is filled in as the answer leaves. -/
def syncReqFlit (r : Rx) (s : State) : State :=
  fabSendOn r.port 9
    (syncRspBody (bodySeq r.body) s.time64 s.gmSeen (s.clk.timeDepth.setWidth 4) s.synced) s

/-- R234: parent time minus own time. -/
def syncOffset (t1 t2 res t4 : Nat) : Int :=
  let delay := (((t4 : Int) - t1) - res) / 2
  ((t2 : Int) - t1) - delay

/-- R236: the one step that sets TIME. -/
def stepTime (off : Int) (s : State) : State :=
  s.modClk fun c =>
    { c with
      time := BitVec.ofInt 96 ((c.time.toNat : Int) + off * 2 ^ 32), stepped := true, slew := none }

/-- R236: the tracked frequency; how it follows from the exchanges is open (log 38). -/
def trackRate (s : State) : State :=
  let (v, s) := fresh s
  s.modClk fun c => { c with estimate := some (v.setWidth 36) }

/-- R236: an offset as a change of rate over 1 ms, in parts per million: as many as it has nanoseconds, at most 500. -/
def slewPpm (off : Int) : Int := max (-500) (min 500 off)

/-- R236: TIME removes the offset over the next 1 ms. -/
def slewTime (off : Int) (s : State) : State :=
  s.modClk fun c =>
    let r : Int := c.rate.toNat
    { c with slew := some (BitVec.ofInt 36 (r + r * slewPpm off / 1000000), s.now + 1000000) }

/-- R236: the lock follows the offsets. -/
def trackLock (off : Int) (c : Clk) : Clk :=
  let good := decide (off.natAbs ≤ 16)
  let n := if good then c.goodSyncs + 1 else 0
  let locks := decide (2 ≤ n)
  { c with
    goodSyncs := n, timeLocked := locks || (c.timeLocked && decide (off.natAbs ≤ 64))
    everLocked := c.everLocked || locks }

/-- A matching answer: a neighbour whose synced bit is clear is no time parent (R238); the instance is then without a grandmaster until it hears one (log 79). -/
def syncAnswer (r : Rx) (t1 : DWord) (s : State) : State :=
  let b := r.body
  let gm : NodeId := b.extractLsb' 16 16
  let t2 : DWord := b.extractLsb' 64 64
  let res : Word := b.extractLsb' 32 32
  let off := syncOffset t1.toNat t2.toNat res.toNat s.now
  let s := s.modClk fun c => { c with syncOut := none }
  if !b.getLsbD 11 then loseGm true s
  else
    let s := trackRate (s.modClk fun c =>
      trackLock off
        { c with
          silent := 0, waited := false, gmNode := gm, hasParent := true, asking := false
          unheard := if gm.toNat < s.fab.nodeId.toNat then 0 else c.unheard
          timeDepth := (b.extractLsb' 12 4 : BitVec 4).setWidth 8 + 1 })
    parentFollow (if s.clk.stepped then slewTime off s else stepTime off s)

/-- R234: an answer that is not the outstanding one's is discarded. -/
def syncRspFlit (r : Rx) (s : State) : State :=
  match s.clk.syncOut with
  | some (seq, t1) =>
    if (s.clk.hasParent ∨ s.clk.asking) ∧ r.port = s.clk.parentPort ∧ seq = bodySeq r.body then
      syncAnswer r t1 s
    else s
  | none => s

end Sys2Proof.Machine
end

