-- ==== Sys2Proof/Machine/RemoteCmd.lean ====
section
/-! DEFINITION. Remote commands (R276, R277). -/

namespace Sys2Proof.Machine

/-- The four words of a fragment, lowest first. -/
def fragWords (b : BitVec 144) : List Word := (List.range 4).map fun i => b.extractLsb' (32 * i) 32

/-- The fields of a fragment. -/
structure FragMsg where
  frag : Nat
  dir : Bool
  rtag : BitVec 5
  words : List Word
  deriving DecidableEq, Repr

def fragOf (b : BitVec 144) : FragMsg where
  frag := (b.extractLsb' 134 2 : BitVec 2).toNat
  dir := b.getLsbD 133
  rtag := b.extractLsb' 128 5
  words := fragWords b

/-- R277: the sender may command this instance. -/
def State.cmdAdmits (s : State) (src : NodeId) : Bool :=
  s.fab.cmdEn && decide ((src ^^^ s.fab.cmdNode) &&& s.fab.cmdMask = 0)

/-- A gathered request: refused, or accepted at SUPERVISOR privilege. -/
def remoteRequest (src : NodeId) (rtag : BitVec 5) (ws : List Word) (s : State) : State :=
  let c : Cmd :=
    { id := s.msq.nextId, src := .remote src rtag, sup := true, words := ws, phase := .queued
      at_ := s.now }
  if s.cmdAdmits src then arrive c none none s
  else sendPacket src true rtag (replyWords c (Status.code .accessDenied) 0 []) s

/-- The command of the supervisor window that waits for a reply from a node. -/
def State.awaiting (s : State) (src : NodeId) (rtag : BitVec 5) : Option Cmd :=
  s.msq.cmds.find? fun c =>
    decide ((c.field 1 16 16 : BitVec 16) = src) &&
    (match c.src with
      | .win none slot => decide (slot = rtag.toNat)
      | _ => false) &&
    (match c.phase with
      | .remote _ => true
      | _ => false)

/-- A gathered reply enters the submitting slot; a late one is discarded. -/
def remoteReply (src : NodeId) (rtag : BitVec 5) (ws : List Word) (s : State) : State :=
  match s.awaiting src rtag with
  | some c => deliver c.src ws (dropCmd c.id s)
  | none => s

/-- The words gathered so far for a source, tag and direction. -/
def State.gathered (s : State) (src : NodeId) (m : FragMsg) : List Word :=
  ((s.msq.frags.find? fun f => decide (f.1 = src ∧ f.2.1 = m.rtag ∧ f.2.2.1 = m.dir)).map
    fun f => f.2.2.2).getD []

def dropFrags (src : NodeId) (m : FragMsg) (s : State) : State :=
  s.modMsq fun q =>
    { q with frags := q.frags.filter fun f => !decide (f.1 = src ∧ f.2.1 = m.rtag ∧ f.2.2.1 = m.dir) }

/-- A fragment: in sequence it joins its packet, out of sequence the packet goes with a report; a fragment 0 that finds an older packet goes with it, and each later fragment reports again (log 83). -/
def fragFlit (r : Rx) (s : State) : State :=
  let m := fragOf r.body
  let src := r.hdr.src
  let got := s.gathered src m
  let s := dropFrags src m s
  if got.length ≠ 4 * m.frag then
    report .fragOrder .msq none (m.rtag.setWidth 12) src 0 0 s
  else
    let ws := got ++ m.words
    if m.frag ≠ 3 then
      s.modMsq fun q => { q with frags := q.frags ++ [(src, m.rtag, m.dir, ws)] }
    else if m.dir then remoteReply src m.rtag ws s
    else pump (remoteRequest src m.rtag ws s)

/-- R277: no reply within 100 ms of the last request fragment. -/
def remoteTimeout (id : Nat) (s : State) : State :=
  match s.cmd id with
  | some c =>
    match c.phase with
    | .remote (some due) => if due ≤ s.now then answerUnrun c .remoteTimeout s else s
    | _ => s
  | none => s

def execRemoteCmdTimeout (id : Nat) (edges : Nat) (s : State) : Out :=
  .next (remoteTimeout id (elapse edges s))

end Sys2Proof.Machine
end

