-- ==== Sys2Proof/Machine/Census.lean ====
section
/-! DEFINITION. The Saltern census (R311 to R314, R403). -/

namespace Sys2Proof.Machine

/-! ### Flits (R312) -/

structure CensusMsg where
  ckind : BitVec 4
  frag : Nat
  pass : BitVec 16
  cnt : Word
  data : DWord
  deriving DecidableEq, Repr

def censusOf (b : BitVec 144) : CensusMsg where
  ckind := b.extractLsb' 132 4
  frag := (b.extractLsb' 128 4 : BitVec 4).toNat
  pass := b.extractLsb' 112 16
  cnt := b.extractLsb' 64 32
  data := b.extractLsb' 0 64

def censusBody (ckind : BitVec 4) (frag : Nat) (pass : BitVec 16) (cnt : Word) (data : DWord) :
    BitVec 144 :=
  mgmtBody 0x50 (ckind ++ BitVec.ofNat 4 frag ++ pass ++ 0#16 ++ cnt ++ data)

/-! ### The census tree -/

/-- The census tree's descriptor. -/
def State.ctree (s : State) : Tree := s.tree 0xFFF

/-- NodeIDs of the children in the census tree. -/
def State.cchildren (s : State) : List NodeId :=
  ((List.range 8).filter s.ctree.childMask.getLsbD).map fun i => tgetD 0 s.ctree.child i

/-- The sender is the parent. -/
def State.fromParent (s : State) (src : NodeId) : Bool :=
  s.ctree.valid && !s.ctree.root && decide (s.ctree.parent = src)

/-- A census flit to every child. -/
def toChildren (body : BitVec 144) (s : State) : State :=
  s.cchildren.foldl (fun s n => fabSend 8 n body s) s

/-- A digest in four parts. -/
def digestPart (d : BitVec 256) (f : Nat) : DWord := d.extractLsb' (64 * f) 64

/-! ### Interrupt (R399) -/

def censusIrq (on : Bool) (s : State) : State := if on then raiseGlobal 5 s else s

/-! ### Bisection (R314) -/

/-- This instance's own answer to a query. -/
def State.ownDiffers (s : State) (ref : BitVec 256) (lo hi : NodeId) : Bool :=
  decide (lo.toNat ≤ s.fab.nodeId.toNat ∧ s.fab.nodeId.toNat ≤ hi.toNat ∧ s.nodeDigest ≠ ref)

/-- A query begins here: the own answer, and the children that are asked. -/
def startQuery (q : BitVec 16) (ref : BitVec 256) (lo hi : NodeId) (s : State) : State :=
  let own := s.ownDiffers ref lo hi
  let s := s.modCensus fun c =>
    { c with
      query := some (q, ref, lo, hi, s.now), qMissing := s.cchildren
      ansCnt := if own then 1 else 0, ansLo := if own then s.fab.nodeId else 0
      ansHi := if own then s.fab.nodeId else 0 }
  let s := (List.range 4).foldl (fun s f =>
    toChildren (censusBody 4 f q 0 (digestPart ref f)) s) s
  toChildren (censusBody 4 4 q 0 (0#32 ++ hi ++ lo)) s

/-- A range entered in ascending order of its lowest NodeID (log 39). -/
def insertRange (r : NodeId × NodeId × BitVec 17) :
    List (NodeId × NodeId × BitVec 17) → List (NodeId × NodeId × BitVec 17)
  | [] => [r]
  | x :: l => if r.1.toNat < x.1.toNat then r :: x :: l else x :: insertRange r l

/-- The entry with the greatest width among those that count more than one instance. -/
def widest : List (NodeId × NodeId × BitVec 17) → Option (NodeId × NodeId × BitVec 17)
  | [] => none
  | x :: l =>
    match widest l with
    | some y =>
      if 1 < x.2.2.toNat ∧ y.2.1.toNat - y.1.toNat ≤ x.2.1.toNat - x.1.toNat then some x else some y
    | none => if 1 < x.2.2.toNat then some x else none

/-- The root's next query. -/
def nextQuery (lo hi : NodeId) (s : State) : State :=
  let q := s.fab.census.nextQuery
  startQuery q s.fab.census.refDigest lo hi (s.modCensus fun c => { c with nextQuery := q + 1 })

/-- The result is written (R403). -/
def bisectDone (s : State) : State :=
  censusIrq s.fab.census.bisectIe (s.modCensus fun c =>
    { c with ranges := c.work, work := [], bisecting := false, bisectDone := true })

/-- The root's step once a query has been answered: the other half, the next split, or the end. -/
def bisectNext (s : State) : State :=
  let c := s.fab.census
  match c.pending with
  | (lo, hi) :: rest => nextQuery lo hi (s.modCensus fun c => { c with pending := rest })
  | [] =>
    match if c.work.length < 16 then widest c.work else none with
    | some x =>
      let mid : NodeId := BitVec.ofNat 16 ((x.1.toNat + x.2.1.toNat) / 2)
      nextQuery x.1 mid (s.modCensus fun c =>
        { c with work := dropFirst (· = x) c.work, pending := [(mid + 1, x.2.1)] })
    | none => bisectDone s

/-- A query has been answered by every child, or its time is up. -/
def endQuery (s : State) : State :=
  let c := s.fab.census
  match c.query with
  | none => s
  | some (q, _, _, _, _) =>
    let s := s.modCensus fun c => { c with query := none, qMissing := [] }
    if s.ctree.root then
      bisectNext (if c.ansCnt = 0 then s
        else s.modCensus fun x => { x with work := insertRange (c.ansLo, c.ansHi, c.ansCnt.setWidth 17) x.work })
    else fabSend 8 s.ctree.parent (censusBody 5 0 q c.ansCnt (0#32 ++ c.ansHi ++ c.ansLo)) s

/-- An instance without children answers at once; every query of a root without children ends here too (`n` bounds them). -/
def settleQuery : Nat → State → State
  | 0, s => s
  | n + 1, s =>
    if s.fab.census.query.isSome ∧ s.fab.census.qMissing = [] then settleQuery n (endQuery s) else s

/-- R314: the root narrows a mismatch. -/
def startBisect (ref : BitVec 256) (s : State) : State :=
  settleQuery 32 (nextQuery 0 0xFFFF (s.modCensus fun c =>
    { c with bisecting := true, refDigest := ref, work := [], pending := [] }))

/-! ### Passes (R313) -/

/-- An instance takes its digest and asks its children. -/
def beginPass (pass : BitVec 16) (s : State) : State :=
  let d := s.nodeDigest
  let s := s.modCensus fun c =>
    { c with
      running := some (pass, d, s.now), foldMin := d, foldMax := d, foldCnt := 1, frags := []
      missing := s.cchildren }
  toChildren (censusBody 1 0 pass 0 0) s

/-- R313 steps 4 and 5 at the root. -/
def endRootPass (pass : BitVec 16) (own : BitVec 256) (s : State) : State :=
  let c := s.fab.census
  let isMatch := decide (c.foldMin = c.foldMax)
  let whole := decide (c.foldCnt = c.expect.setWidth 32)
  let s := s.modCensus fun c =>
    { c with
      running := none, pass, isMatch, complete := whole, count := c.foldCnt.setWidth 17
      mismatch := c.mismatch || !isMatch, incomplete := c.incomplete || !whole }
  let s := gcount 37 s
  let s := if isMatch then s else gcount 38 s
  let s := censusIrq ((!isMatch && c.mismatchIe) || (!whole && c.incompleteIe)) s
  let s := toChildren (censusBody 3 0 pass c.foldCnt (0#62 ++ b1 whole ++ b1 isMatch)) s
  if isMatch ∨ c.bisecting then s else startBisect own s

/-- `FOLD` to the parent: minimum, maximum, count. -/
def sendFold (pass : BitVec 16) (s : State) : State :=
  let c := s.fab.census
  let up := fun (f : Nat) (cnt : Word) (d : DWord) (s : State) =>
    fabSend 8 s.ctree.parent (censusBody 2 f pass cnt d) s
  let s := s.modCensus fun c => { c with running := none }
  let s := (List.range 4).foldl (fun s f => up f 0 (digestPart c.foldMin f) s) s
  let s := (List.range 4).foldl (fun s f => up (4 + f) 0 (digestPart c.foldMax f) s) s
  up 8 c.foldCnt 0 s

/-- Every child has reported, or the time is up. -/
def endPass (s : State) : State :=
  match s.fab.census.running with
  | none => s
  | some (pass, own, _) => if s.ctree.root then endRootPass pass own s else sendFold pass s

def settlePass (s : State) : State :=
  if s.fab.census.running.isSome ∧ s.fab.census.missing = [] then endPass s else s

/-- The root begins a pass. -/
def startPass (s : State) : State :=
  let p := s.fab.census.nextPass
  settlePass (beginPass p (s.modCensus fun c => { c with nextPass := p + 1 }))

/-- `CENSUS_NOW` (R313): refused away from the root; the reply carries the number of the pass. -/
def censusNow (c : Cmd) (s : State) : State :=
  if !s.fab.census.root then refuse c .rangeError c.byState s
  else ok c [s.fab.census.nextPass.setWidth 32] (startPass s)

def execCensusNow (id : Nat) (s : State) : Out := .next (startCmd 0x0310 id noFmt censusNow s)

/-- R313: at a tick the root begins a pass, unless one runs, a bisection runs, or the instance is hobbled. -/
def censusTick (s : State) : State :=
  let c := s.fab.census
  if !s.running ∨ s.now < c.tickAt + c.period.toNat * 1000000 then s
  else
    let s := s.modCensus fun c => { c with tickAt := s.now }
    if c.root ∧ c.en ∧ s.acting ∧ s.anyRunning ∧ c.running = none ∧ c.bisecting = false then startPass s
    else s

def execCensusTick (edges : Nat) (s : State) : Out := .next (censusTick (elapse edges s))

/-- R313: 2 ms after `START`. -/
def foldTimeout (s : State) : State :=
  match s.fab.census.running with
  | some (_, _, t) => if s.acting ∧ t + 2000000 ≤ s.now then endPass s else s
  | none => s

def execCensusFoldTimeout (edges : Nat) (s : State) : Out := .next (foldTimeout (elapse edges s))

/-- R314: 2 ms after `QUERY`. -/
def queryTimeout (s : State) : State :=
  match s.fab.census.query with
  | some (_, _, _, _, t) =>
    if s.acting ∧ t + 2000000 ≤ s.now then settleQuery 32 (endQuery s) else s
  | none => s

def execCensusQueryTimeout (edges : Nat) (s : State) : Out := .next (queryTimeout (elapse edges s))

/-! ### Received census flits -/

/-- `START`: an instance with a running sequencer forwards it and takes its digest. -/
def startFlit (m : CensusMsg) (src : NodeId) (s : State) : State :=
  if s.fromParent src ∧ s.anyRunning then settlePass (beginPass m.pass s) else s

/-- The fragments of a child's fold, once the last has come. -/
def foldData (fs : List (NodeId × Nat × Word × DWord)) (src : NodeId) (lo : Nat) :
    Option (BitVec 256) :=
  let get := fun (i : Nat) => (fs.find? fun x => decide (x.1 = src ∧ x.2.1 = i)).map (·.2.2.2)
  match get lo, get (lo + 1), get (lo + 2), get (lo + 3) with
  | some a, some b, some c, some d => some (d ++ c ++ b ++ a)
  | _, _, _, _ => none

/-- Lesser minimum, greater maximum, summed count. -/
def foldChild (src : NodeId) (lo hi : BitVec 256) (n : Word) (s : State) : State :=
  s.modCensus fun c =>
    { c with
      foldMin := if lo.toNat < c.foldMin.toNat then lo else c.foldMin
      foldMax := if c.foldMax.toNat < hi.toNat then hi else c.foldMax
      foldCnt := c.foldCnt + n, missing := c.missing.filter (· ≠ src)
      frags := c.frags.filter fun x => decide (x.1 ≠ src) }

/-- `FOLD` of a child for the running pass; any other is discarded. -/
def foldFlit (m : CensusMsg) (src : NodeId) (s : State) : State :=
  match s.fab.census.running with
  | none => s
  | some (pass, _, _) =>
    if m.pass ≠ pass ∨ !s.fab.census.missing.any (· = src) then s
    else
      let s := s.modCensus fun c => { c with frags := c.frags ++ [(src, m.frag, m.cnt, m.data)] }
      if m.frag ≠ 8 then s
      else
        match foldData s.fab.census.frags src 0, foldData s.fab.census.frags src 4 with
        | some lo, some hi => settlePass (foldChild src lo hi m.cnt s)
        | _, _ => s

/-- `VERDICT` at an instance that is not the root (R403). -/
def verdictFlit (m : CensusMsg) (src : NodeId) (s : State) : State :=
  if s.fromParent src then
    toChildren (censusBody 3 0 m.pass m.cnt m.data) (s.modCensus fun c =>
      { c with
        pass := m.pass, isMatch := m.data.getLsbD 0, complete := m.data.getLsbD 1
        count := m.cnt.setWidth 17 })
  else s

/-- `QUERY`: gathered, then flooded on and answered. -/
def queryFlit (m : CensusMsg) (src : NodeId) (s : State) : State :=
  if !s.fromParent src ∨ !s.anyRunning then s
  else if m.frag ≠ 4 then
    s.modCensus fun c =>
      { c with qFrags := (if m.frag = 0 then [] else c.qFrags) ++ [(m.frag, m.data)] }
  else
    let fs : List (NodeId × Nat × Word × DWord) := s.fab.census.qFrags.map fun x => (0, x.1, 0, x.2)
    match foldData fs 0 0 with
    | some ref =>
      settleQuery 1 (startQuery m.pass ref (m.data.extractLsb' 0 16) (m.data.extractLsb' 16 16)
        (s.modCensus fun c => { c with qFrags := [] }))
    | none => s

/-- `ANSWER` of a child for the running query. -/
def answerFlit (m : CensusMsg) (src : NodeId) (s : State) : State :=
  match s.fab.census.query with
  | none => s
  | some (q, _, _, _, _) =>
    if m.pass ≠ q ∨ !s.fab.census.qMissing.any (· = src) then s
    else
      let lo : NodeId := m.data.extractLsb' 0 16
      let hi : NodeId := m.data.extractLsb' 16 16
      let s := s.modCensus fun c =>
        let none_ := decide (c.ansCnt = 0)
        let c := { c with qMissing := c.qMissing.filter (· ≠ src) }
        if m.cnt = 0 then c
        else
          { c with
            ansCnt := c.ansCnt + m.cnt
            ansLo := if none_ ∨ lo.toNat < c.ansLo.toNat then lo else c.ansLo
            ansHi := if none_ ∨ c.ansHi.toNat < hi.toNat then hi else c.ansHi }
      settleQuery 32 s

/-- `CKIND`s of R312. -/
def censusKnown (b : BitVec 144) : Bool :=
  let k := (censusOf b).ckind.toNat
  decide (1 ≤ k ∧ k ≤ 5)

def censusFlit (r : Rx) (s : State) : State :=
  let m := censusOf r.body
  let src := r.hdr.src
  match m.ckind.toNat with
  | 1 => startFlit m src s
  | 2 => foldFlit m src s
  | 3 => verdictFlit m src s
  | 4 => queryFlit m src s
  | 5 => answerFlit m src s
  | _ => s

end Sys2Proof.Machine
end

