-- ==== Sys2Proof/Machine/Hobble.lean ====
section
/-! DEFINITION. The fabric-wide Hobble (R363 to R372). -/

namespace Sys2Proof.Machine

/-! ### Flits that the instance processes -/

/-- What a flit does at its destination, its buffer freed. -/
def localFlit (kind : BitVec 4) (r : Rx) (s : State) : State :=
  match kind.toNat with
  | 2 => cplFlit r s
  | 3 => combineRx r s
  | 4 => wakeNodeFlit r s
  | 5 => grantFlit r s
  | 6 => cancelDoneFlit r s
  | 7 => treeRelRx r s
  | 8 =>
    match (bodySub r.body).toNat with
    | 0x10 => reconcileFlit r s
    | 0x20 => noticeFlit r s
    | 0x30 => fragFlit r s
    | 0x50 => censusFlit r s
    | 0x60 | 0x61 | 0x62 | 0x63 => stitchFlit r s
    | _ => s
  | _ => s

/-- A flit that is routed: performed here, or forwarded (R214); those of REQ.OP keep their order at the port (R205). -/
def routedFlit (kind : BitVec 4) (r : Rx) (due : Bool) (s : State) : State :=
  if kind = 0 ∨ kind = 1 then opFlit kind r due s
  else if s.forHere r then localFlit kind r (freeBuf kind r due s)
  else forwardFlit kind r due s

/-! ### Remote commands met while hobbled (R366) -/

/-- A held fragment of a request for this instance. -/
def State.heldFrag (s : State) (h : BitVec 4 × Rx × Bool) : Option (NodeId × FragMsg) :=
  if isSub h.1 h.2.1.body 0x30 && s.forHere h.2.1 && !(fragOf h.2.1.body).dir then
    some (h.2.1.hdr.src, fragOf h.2.1.body)
  else none

/-- The held fragments of one packet. -/
def State.heldPacket (s : State) (p : FabPort) (src : NodeId) (rtag : BitVec 5) :
    List (BitVec 4 × Rx × Bool) :=
  (s.fp p).rxHeld.filter fun h =>
    match s.heldFrag h with
    | some (n, m) => decide (n = src ∧ m.rtag = rtag)
    | none => false

/-- A whole held packet, in order, with a command that a hobbled instance runs. -/
def State.runnable (s : State) (p : FabPort) : Option (NodeId × BitVec 5 × List (BitVec 4 × Rx × Bool)) :=
  (s.fp p).rxHeld.findSome? fun h =>
    match s.heldFrag h with
    | some (n, m) =>
      let l := (s.heldPacket p n m.rtag).take 4
      let fs := l.map fun h => (fragOf h.2.1.body).frag
      let op : BitVec 16 := ((fragWords h.2.1.body).head?.getD 0).extractLsb' 16 16
      if fs = [0, 1, 2, 3] ∧ m.frag = 0 ∧ hobbleRuns op then some (n, m.rtag, l) else none
    | none => none

/-- The list without its `n`-th element that satisfies `q`. -/
def dropNth {α : Type} (q : α → Bool) : Nat → List α → List α
  | _, [] => []
  | n, x :: r =>
    if q x then match n with
      | 0 => r
      | m + 1 => x :: dropNth q m r
    else x :: dropNth q n r

/-- A held flit leaves its receive buffer, and the capture order with it. -/
def dropHeldRx (p : FabPort) (h : BitVec 4 × Rx × Bool) (s : State) : State :=
  let x := s.fp p
  let n := ((x.rxHeld.drop x.preCut).takeWhile (· ≠ h)).length
  (s.setFp p { x with rxHeld := dropFirst (· = h) x.rxHeld }).modHob fun b =>
    { b with captured := dropNth (· = .fabric p) n b.captured }

/-- A held packet leaves its buffers and arrives. -/
def runHeld (p : FabPort) (s : State) : State :=
  match s.runnable p with
  | none => s
  | some (src, rtag, l) =>
    let s := l.foldl (fun s h => dropHeldRx p h s) s
    let s := l.foldl (fun s h => freeBuf h.1 h.2.1 h.2.2 s) s
    remoteRequest src rtag (l.flatMap fun h => fragWords h.2.1.body) s

/-- R366: once hobbled, held remote commands that R368 permits run. -/
def runHeldAll (s : State) : State :=
  if s.obs.hobble.state = 3 then (List.range 8).foldl (fun s i => runHeld (BitVec.ofNat 3 i) s) s else s

/-! ### The cut (R363) -/

/-- R308, R368: open load sessions end, and their frame and commit commands complete with `ABORTED`; what was sent to another instance is none of theirs. -/
def endSession (p : PartId) (s : State) : State :=
  if (s.part p).state ≠ .loading then s
  else
    let mine := s.msq.cmds.filter fun c => decide ((c.opcode = 0x0211 ∨ c.opcode = 0x0212) ∧ c.part = p) && !c.phase.away
    endLoad p (mine.foldl (fun s c => complete c .aborted 0 [] s) s)

def endSessions (s : State) : State :=
  (List.range 64).foldl (fun s i => endSession (BitVec.ofNat 6 i) s) s

/-- Ports whose markers an instance sends and awaits. -/
def State.markerPorts (s : State) : List FabPort :=
  s.livePorts.filter fun p => decide ((s.fp p).state = .up ∨ (s.fp p).state = .standby)

/-- The cut edge. -/
def cutHere (init : NodeId) (hseq : Byte) (first : Option FabPort) (cmd : Option Nat)
    (base : BitVec 48) (size : Nat) (s : State) : State :=
  let s := endSessions s
  let s := (List.range 8).foldl (fun s i =>
    let p : FabPort := BitVec.ofNat 3 i
    s.modFp p fun x =>
      { x with marked := decide (first = some p), preCut := x.rxHeld.length, chan := [] }) s
  let s := s.modHob fun h =>
    { h with
      state := 1, incomplete := false, regionFull := false, init, hseq, cutAt := s.now
      cutDeadlines := s.tdu.deadlines, cutLeases := s.tdu.leases
      firstPort := first, awaiting := s.markerPorts.filter fun p => decide (first ≠ some p)
      records := 0, regBase := base, regSize := size, initiator := cmd.isSome, captured := []
      cmd, reached := [], badNodes := [] }
  regionHeader s

def hobbleFmt (c : Cmd) : List (Nat × Nat) := c.misaligned 2

/-- `HOBBLE` (R363, R368). -/
def hobbleCmd (c : Cmd) (s : State) : State :=
  let size := (c.word 4).toNat
  let len := min size (64 + 16384)
  if s.hobbling then ok c [0] s
  else if memErr s (s.cmdReqid c) (c.addr 2) len then
    memFail c 2 (mmRequest true (s.cmdReqid c) (c.addr 2) len s)
  else
    let hseq := s.obs.hobble.hseqNext
    let s := setPhase c.id .waiting (s.modHob fun h => { h with hseqNext := hseq + 1 })
    let s := cutHere s.fab.nodeId hseq none (some c.id) (BitVec.ofNat 48 (c.addr 2)) size s
    regionWrite 64 (List.replicate 16384 0) s

def execHobble (id : Nat) (s : State) : Out := .next (startCmd 0x0401 id hobbleFmt hobbleCmd s)

/-! ### The drain (R364) -/

/-- Nothing accepted before the cut can go on without held input. -/
def State.drained (s : State) : Bool :=
  s.nextDec.isNone && (s.nextHeld false).isNone && (s.nextHeld true).isNone &&
    decide (s.wmc.spillWakes = [] ∧ s.wmc.fetching = []) && !(s.obs.watches.any (·.posted))

/-- Markers on every port; then only exempt flits leave. -/
def drainEnd (s : State) : State :=
  let h := s.obs.hobble
  if h.state = 1 ∧ s.drained then
    let body := hobbleBody 1 h.init h.hseq false 0
    let s := s.markerPorts.foldl (fun s p => fabSendOn p 8 body s) s
    runHeldAll (hobbleCheck (s.modHob fun h => { h with state := 2 }))
  else s

def execHobbleDrainEnd (s : State) : Out := .next (drainEnd s)

/-! ### Channels (R365, R370) -/

/-- A channel record: the flit, TIME of receipt, the port. -/
def chanRecord (kind : BitVec 4) (r : Rx) (now : Nat) : List Byte :=
  bytesOf 32 (osfWord kind r.hdr r.body) ++ bytesOf 8 (BitVec.ofNat 64 now) ++
    [r.port.setWidth 8] ++ List.replicate 23 0

/-- A captured flit stays in its receive buffer. -/
def captureRx (kind : BitVec 4) (r : Rx) (s : State) : State :=
  noteCapture (.fabric r.port) (holdRx kind r true s)

/-- A flit received between the cut and its port's marker is recorded, or held once the region is full; one after the marker is held. -/
def channelFlit (kind : BitVec 4) (r : Rx) (s : State) : State :=
  let h := s.obs.hobble
  let off := s.recordBase + 64 * h.records.toNat
  if (s.fp r.port).marked then runHeldAll (captureRx kind r s)
  else if h.regionFull ∨ h.regSize < off + 64 ∨
      memErr s s.slu.engineReqid (h.regBase.toNat + off) 64 then
    regionHeader (captureRx kind r (s.modHob fun h => { h with regionFull := true, incomplete := true }))
  else
    let s := regionWrite off (chanRecord kind r s.now) s
    let s := s.modFp r.port fun x => { x with chan := x.chan ++ [h.records.toNat] }
    regionHeader (oweCredit r.port (poolOf kind) (s.modHob fun h => { h with records := h.records + 1 }))

/-- A marker: the first one cuts, a later one closes its port's channel (R372). -/
def markerFlit (r : Rx) (s : State) : State :=
  let h := s.obs.hobble
  if h.state = 0 then
    cutHere (r.body.extractLsb' 116 16) (r.body.extractLsb' 108 8) (some r.port) none h.base
      h.size.toNat s
  else if (s.fp r.port).marked then s
  else
    let s := s.modFp r.port fun x => { x with marked := true }
    runHeldAll (hobbleCheck (s.modHob fun h => { h with awaiting := h.awaiting.filter (· ≠ r.port) }))

/-- A done at the initiator (R369). -/
def doneFlit (r : Rx) (s : State) : State :=
  let h := s.obs.hobble
  if h.init = s.fab.nodeId ∧ (r.body.extractLsb' 108 8 : Byte) = h.hseq then
    hobbleReach r.hdr.src (r.body.getLsbD 107) s
  else s

/-- R369: 10 ms after the initiator's cut. -/
def hobbleTimeout (s : State) : State :=
  let h := s.obs.hobble
  if h.cmd.isSome ∧ h.cutAt + 10000000 ≤ s.now then hobbleReply true s else s

def execHobbleReplyTimeout (edges : Nat) (s : State) : Out := .next (hobbleTimeout (elapse edges s))

/-! ### The resume (R367, R371) -/

def later (d : Nat) (t : Option Nat) : Option Nat := t.map (· + d)

/-- R367: deadlines, lease ends and wait limits that were pending at the cut move by the length of the Hobble. -/
def extendTimes (d : Nat) (s : State) : State :=
  let h := s.obs.hobble
  let wait := fun (stamp : Nat) (limit : Option Nat) => if stamp ≤ h.cutAt then later d limit else limit
  let s := s.modTdu fun t =>
    { t with
      deadlines := t.deadlines.map fun x =>
        if h.cutDeadlines.any (· = x) then { x with due := x.due + d } else x
      leases := t.leases.map fun x =>
        if h.cutLeases.any (· = x) then { x with due := x.due + d } else x }
  let s := s.modOpr fun o =>
    let f := fun (x : Due) => { x with due := x.due + d, drain := x.drain + d }
    { o with expiring := o.expiring.map f, dueq := o.dueq.map f }
  s.modWmc fun w =>
    { w with
      waiters := w.waiters.map fun x => { x with limit := wait x.stamp x.limit }
      rwaits := w.rwaits.map fun x => { x with limit := wait x.stamp x.limit } }

/-- Flits of one port are processed in order. -/
def processAll (l : List (BitVec 4 × Rx × Bool)) (s : State) : State :=
  l.foldl (fun s h => routedFlit h.1 h.2.1 h.2.2 s) s

/-- The reply to `UNHOBBLE`. -/
def unhobbleReply (final : Bool) (s : State) : State :=
  let h := s.obs.hobble
  match h.ucmd.bind s.cmd with
  | some c =>
    let all := decide (s.fabSize ≤ h.resumed.length)
    if all ∨ final then
      complete c (if all then .ok else .partialRel) 0 [BitVec.ofNat 32 h.resumed.length]
        (s.modHob fun h => { h with ucmd := none })
    else s
  | none => s

/-- A resumed instance reaches the initiator of the resume. -/
def resumedReach (n : NodeId) (s : State) : State :=
  let h := s.obs.hobble
  if h.ucmd.isNone ∨ h.resumed.any (· = n) then s
  else unhobbleReply false (s.modHob fun h => { h with resumed := h.resumed ++ [n] })

/-- The flit that the bits of a record spell (R199). -/
def osfOf (w : BitVec 256) (p : FabPort) : BitVec 4 × Rx :=
  (w.extractLsb' 252 4,
    { port := p, err := false, body := w.extractLsb' 0 144
      hdr :=
        { viaEn := w.getLsbD 251, rsvA := w.extractLsb' 248 3, dst := w.extractLsb' 232 16
          src := w.extractLsb' 216 16, via := w.extractLsb' 200 16, lseq := w.extractLsb' 188 12
          lack := w.extractLsb' 176 12, credPool := w.extractLsb' 173 3
          credNum := w.extractLsb' 168 5, hop := w.extractLsb' 162 6, rsvB := w.extractLsb' 160 2
          crc := w.extractLsb' 144 16 } })

/-- R371 step 1: a channel record is read back from the region; none where host memory answers with an error (log 33). -/
def State.readRecord (s : State) (n : Nat) : Option (BitVec 4 × Rx × Bool) :=
  let a := s.obs.hobble.regBase.toNat + s.recordBase + 64 * n
  if memErr s s.slu.engineReqid a 64 then none
  else
    let x := osfOf (bvOf 256 (memBytes s a 32)) (bvOf 3 (memBytes s (a + 40) 1))
    some (x.1, x.2, false)

/-- The reads of the records. -/
def readRecords (l : List Nat) (s : State) : State :=
  l.foldl (fun s n =>
    mmRequest false s.slu.engineReqid (s.obs.hobble.regBase.toNat + s.recordBase + 64 * n) 64 s) s

/-- R371 step 2: what waits at the ports is released in capture order; `held` holds the captured flits of each fabric port. -/
def releaseCaptured : Table (List (BitVec 4 × Rx × Bool)) → List CapSrc → State → State
  | _, [], s => s
  | held, .agent p _ :: r, s => releaseCaptured held r (feedGo p ((s.ap p).ingress.take 1) s)
  | held, .fabric p :: r, s =>
    match tgetD [] held p.toNat with
    | [] => releaseCaptured held r s
    | h :: t => releaseCaptured (tset held p.toNat t) r (routedFlit h.1 h.2.1 h.2.2 s)
  | held, .landing :: r, s =>
    match s.lcu.ingress with
    | [] => releaseCaptured held r s
    | x :: t => releaseCaptured held r (landNotice x.1 x.2 (s.modLcu fun c => { c with ingress := t }))

/-- Flits that stood in an agent port's ingress buffer at the cut. -/
def State.apBefore (s : State) (p : PortNo) : Nat :=
  (s.ap p).ingress.length -
    (s.obs.hobble.captured.filter fun c => match c with
      | .agent q _ => decide (q = p)
      | _ => false).length

/-- What waited for an op table entry at the cut passes first, as far as entries are free. -/
def releaseEarlier (before : Table Nat) (s : State) : State :=
  let s := (List.range 16).foldl (fun s i =>
    let p : PortNo := BitVec.ofNat 4 i
    feedGo p ((s.ap p).ingress.take (tgetD 0 before i)) s) s
  (List.range 8).foldl (fun s i =>
    feedFab (BitVec.ofNat 3 i) (s.fp (BitVec.ofNat 3 i)).rxHeld.length s) s

/-- The first resume at an instance: the channel records in port order, read back from the region and ahead of every later flit of their ports; what waited at the cut; held flits, notices and buffers in capture order; TDU; then the answer. -/
def resumeHere (init : NodeId) (hseq : Byte) (s : State) : State :=
  let ports : List FabPort := (List.range 8).map fun i => BitVec.ofNat 3 i
  let nums := ports.flatMap fun p => (s.fp p).chan
  let recs := nums.filterMap s.readRecord
  let held := ports.foldl (fun (t : Table (List (BitVec 4 × Rx × Bool))) p =>
    tset t p.toNat ((s.fp p).rxHeld.drop (s.fp p).preCut)) []
  let before := (List.range 16).foldl (fun (t : Table Nat) i => tset t i (s.apBefore (BitVec.ofNat 4 i))) []
  let cap := s.obs.hobble.captured
  let s := readRecords nums s
  let s := ports.foldl (fun s p =>
    s.modFp p fun x => { x with marked := false, chan := [], rxHeld := x.rxHeld.take x.preCut, preCut := 0 }) s
  let s := extendTimes (s.now - s.obs.hobble.cutAt) s
  let s := raiseGlobal 11 (s.modHob fun h => { h with
    state := 0, awaiting := [], firstPort := none, cutDeadlines := [], cutLeases := []
    initiator := false, captured := [] })
  let s := processAll recs s
  let s := releaseEarlier before s
  let s := pump (feedAll (releaseCaptured held cap s))
  if init = s.fab.nodeId then resumedReach init s
  else fabSend 8 init (hobbleBody 4 init hseq false 0) s

/-- A resume is flooded on once. -/
def resumeFlit (r : Rx) (s : State) : State :=
  if !s.hobbling then s
  else
    let s := sendEach (s.livePorts.filter fun p => decide (p ≠ r.port)) r.body s
    resumeHere (r.body.extractLsb' 116 16) (r.body.extractLsb' 108 8) s

/-- `UNHOBBLE` (R371). -/
def unhobbleCmd (c : Cmd) (s : State) : State :=
  if s.obs.hobble.state ≠ 3 then refuse c .rangeError c.byState s
  else
    let hseq := s.obs.hobble.hseqNext
    let s := setPhase c.id .waiting (s.modHob fun h =>
      { h with hseqNext := hseq + 1, ucmd := some c.id, resumed := [], resumeAt := s.now })
    let s := sendEach s.livePorts (hobbleBody 3 s.fab.nodeId hseq false 0) s
    resumeHere s.fab.nodeId hseq s

def execUnhobble (id : Nat) (s : State) : Out := .next (startCmd 0x0402 id noFmt unhobbleCmd s)

/-- A resumed answer at the initiator of the resume. -/
def resumedFlit (r : Rx) (s : State) : State :=
  if r.body.extractLsb' 116 16 = s.fab.nodeId then resumedReach r.hdr.src s else s

/-- R371: 10 ms after the resume flood. -/
def unhobbleTimeout (s : State) : State :=
  let h := s.obs.hobble
  if h.ucmd.isSome ∧ h.resumeAt + 10000000 ≤ s.now then unhobbleReply true s else s

def execUnhobbleReplyTimeout (edges : Nat) (s : State) : Out :=
  .next (unhobbleTimeout (elapse edges s))

end Sys2Proof.Machine
end

