-- ==== Sys2Proof/Machine/Fabric.lean ====
section
/-! DEFINITION. What a received flit does (R201), and the rows of the flits and of the fabric ports. A row whose flit is of another kind changes nothing. -/

namespace Sys2Proof.Machine

/-- R201, R312, R369: not a flit that any instance uses. -/
def flitBad (kind : BitVec 4) (r : Rx) : Bool :=
  badFlit kind r ||
    (isSub kind r.body 0x40 && !decide (1 ≤ (bodyHkind r.body).toNat ∧ (bodyHkind r.body).toNat ≤ 4)) ||
    (isSub kind r.body 0x50 && !censusKnown r.body)

/-- Flits that only the far end's instance sees, their buffer freed; `HELLO` takes no credit. -/
def farFlit (kind : BitVec 4) (r : Rx) (s : State) : State :=
  if kind = 15 then s
  else if kind = 9 then if bodySub r.body = 1 then syncReqFlit r s else syncRspFlit r s
  else
    match (bodySub r.body).toNat with
    | 0x02 => probeFlit r s
    | 0x03 => notChildFlit r s
    | 0x04 => reportFlit r s
    | 0x05 => assignFlit r s
    | 0x06 => planFlit r s
    | 0x07 => if doneDown r.body then doneDownFlit r s else doneUpFlit r s
    | 0x08 => dvFlit r s
    | 0x40 => if bodyHkind r.body = 1 then markerFlit r s else resumeFlit r s
    | _ => s

/-- A done or a resumed answer, which is routed to its initiator. -/
def reportHobble (r : Rx) (s : State) : State :=
  if bodyHkind r.body = 2 then doneFlit r s else resumedFlit r s

/-- An accepted flit (R366, R201). -/
def useFlit (kind : BitVec 4) (r : Rx) (s : State) : State :=
  if flitBad kind r then discardBad kind r s
  else if s.hobbling && !exempt kind r.body then channelFlit kind r s
  else if isSub kind r.body 1 then helloFlit r s
  else if linkLocal kind r.body then farFlit kind r (oweCredit r.port (poolOf kind) s)
  else if isSub kind r.body 0x40 && s.forHere r then
    reportHobble r (oweCredit r.port (poolOf kind) s)
  else routedFlit kind r true s

/-- A flit presented with `FP_RX_VALID`. -/
def rxFlit (kind : BitVec 4) (r : Rx) (s : State) : State :=
  match rxLink kind r s with
  | .gone t => t
  | .taken t => useFlit kind r t

/-- The row of a kind of flit: `is` says which flits are its own. -/
def rxRow (kind : BitVec 4) (is : Rx → Bool) (r : Rx) (s : State) : Out :=
  .next (if is r then rxFlit kind r s else s)

/-- A `MGMT` row. -/
def mgmtRow (sub : Byte) (r : Rx) (s : State) : Out := rxRow 8 (fun r => decide (bodySub r.body = sub)) r s

/-! ### Ports -/

def execLinkUp (fp : FabPort) (s : State) : Out := .next (linkRise fp s)
def execHello (r : Rx) (s : State) : Out := mgmtRow 0x01 r s
def execLinkLoss (fp : FabPort) (s : State) : Out := .next (linkFall fp s)
def execLinkSilenceTimeout (fp : FabPort) (edges : Nat) (s : State) : Out :=
  .next (linkSilence fp (elapse edges s))
def execReconcile (r : Rx) (s : State) : Out := mgmtRow 0x10 r s
def execReconcileTimeout (fp : FabPort) (edges : Nat) (s : State) : Out :=
  .next (reconTimeout fp (elapse edges s))
def execFlitTransmit (fp : FabPort) (s : State) : Out := .next (flitTransmit fp (dvFlush s))
def execIdleSend (fp : FabPort) (edges : Nat) (s : State) : Out :=
  .next (idleSend fp (dvFlush (elapse edges s)))
def execIdleFlit (r : Rx) (s : State) : Out := rxRow 15 (fun _ => true) r s

/-- R201: a flit with a reserved `KIND`, an unlisted `SUB` or a nonzero reserved bit. -/
def execBadFlit (kind : BitVec 4) (r : Rx) (s : State) : Out := rxRow kind (flitBad kind) r s

/-- R208: a flit for another instance. -/
def execFlitForward (kind : BitVec 4) (r : Rx) (s : State) : Out :=
  rxRow kind (fun r => !flitBad kind r && !linkLocal kind r.body && !s.forHere r) r s

/-! ### Operations and their answers -/

/-- The opcode of an `OP` body. -/
def bodyOp (r : Rx) : Byte := bodySub r.body

def execRemoteOp (r : Rx) (s : State) : Out :=
  rxRow 0 (fun r => s.forHere r &&
    !decide (bodyOp r = 0x90 ∨ bodyOp r = 0x91 ∨ bodyOp r = 0x92)) r s
def execWaitCancel (r : Rx) (s : State) : Out :=
  rxRow 0 (fun r => s.forHere r && decide (bodyOp r = 0x90)) r s
def execAbandon (r : Rx) (s : State) : Out :=
  rxRow 0 (fun r => s.forHere r && decide (bodyOp r = 0x91)) r s
def execRsvCancel (r : Rx) (s : State) : Out :=
  rxRow 0 (fun r => s.forHere r && decide (bodyOp r = 0x92)) r s
def execOpExt (r : Rx) (s : State) : Out := rxRow 1 s.forHere r s
def execCpl (r : Rx) (s : State) : Out := rxRow 2 s.forHere r s
def execCombine (r : Rx) (s : State) : Out := rxRow 3 s.forHere r s
def execWakeNode (r : Rx) (s : State) : Out := rxRow 4 s.forHere r s
def execGrant (r : Rx) (s : State) : Out := rxRow 5 s.forHere r s
def execCancelDone (r : Rx) (s : State) : Out := rxRow 6 s.forHere r s
def execTreeRel (r : Rx) (s : State) : Out := rxRow 7 s.forHere r s
def execNoticeFwd (r : Rx) (s : State) : Out := mgmtRow 0x20 r s

/-! ### Discovery -/

def execDiscoveryProbe (r : Rx) (s : State) : Out := mgmtRow 0x02 r s
def execNotAChild (r : Rx) (s : State) : Out := mgmtRow 0x03 r s
def execDiscoveryReport (r : Rx) (s : State) : Out := mgmtRow 0x04 r s
def execNodeidAssign (r : Rx) (s : State) : Out := mgmtRow 0x05 r s
def execPlanDigest (r : Rx) (s : State) : Out := mgmtRow 0x06 r s
def execRouteDv (r : Rx) (s : State) : Out := mgmtRow 0x08 r s
def execDiscoveryCompletionUp (r : Rx) (s : State) : Out :=
  rxRow 8 (fun r => decide (bodySub r.body = 0x07) && !doneDown r.body) r s
def execDiscoveryComplete (r : Rx) (s : State) : Out :=
  rxRow 8 (fun r => decide (bodySub r.body = 0x07) && doneDown r.body) r s

/-! ### Re-stitching -/

/-- A stitch flit of one `SUB` that is no reply. -/
def stitchRow (sub : Byte) (r : Rx) (s : State) : Out :=
  rxRow 8 (fun r => decide (bodySub r.body = sub) && !(stitchOf r.body).reply) r s

def execStitchHoldRequest (r : Rx) (s : State) : Out := stitchRow 0x60 r s
def execStitchJoin (r : Rx) (s : State) : Out := stitchRow 0x61 r s
def execStitchLeave (r : Rx) (s : State) : Out := stitchRow 0x62 r s
def execStitchDone (r : Rx) (s : State) : Out := stitchRow 0x63 r s
def execStitchReply (r : Rx) (s : State) : Out :=
  rxRow 8 (fun r => decide (0x60 ≤ (bodySub r.body).toNat ∧ (bodySub r.body).toNat ≤ 0x63) &&
    (stitchOf r.body).reply) r s

/-! ### Time, remote commands -/

def execSyncReq (r : Rx) (s : State) : Out := rxRow 9 (fun r => decide (bodySub r.body = 1)) r s
def execSyncRsp (r : Rx) (s : State) : Out := rxRow 9 (fun r => decide (bodySub r.body = 2)) r s
def execRemoteCmdFragment (r : Rx) (s : State) : Out := mgmtRow 0x30 r s

/-! ### Census -/

/-- A census flit of one `CKIND`. -/
def censusRow (k : BitVec 4) (r : Rx) (s : State) : Out :=
  rxRow 8 (fun r => decide (bodySub r.body = 0x50 ∧ (censusOf r.body).ckind = k)) r s

def execCensusStart (r : Rx) (s : State) : Out := censusRow 1 r s
def execCensusFold (r : Rx) (s : State) : Out := censusRow 2 r s
def execCensusVerdict (r : Rx) (s : State) : Out := censusRow 3 r s
def execCensusQuery (r : Rx) (s : State) : Out := censusRow 4 r s
def execCensusAnswer (r : Rx) (s : State) : Out := censusRow 5 r s

/-! ### Hobble -/

/-- A Hobble flit of one `HKIND`. -/
def hobbleRow (k : BitVec 4) (r : Rx) (s : State) : Out :=
  rxRow 8 (fun r => decide (bodySub r.body = 0x40 ∧ bodyHkind r.body = k)) r s

def execHobbleMarker (r : Rx) (s : State) : Out := hobbleRow 1 r s
def execHobbleDone (r : Rx) (s : State) : Out := hobbleRow 2 r s
def execHobbleResume (r : Rx) (s : State) : Out := hobbleRow 3 r s
def execHobbleResumed (r : Rx) (s : State) : Out := hobbleRow 4 r s

end Sys2Proof.Machine
end

