-- ==== Sys2Proof/Machine/Dispatch.lean ====
section
/-! DEFINITION. One arm per command: its meaning. -/

namespace Sys2Proof.Machine

def exec (i : Instr) (s : State) : Host.Outcome State Fault Refusal :=
  match i with
  | .arrive p a f => Sys2Proof.Machine.execArrive p a f s
  | .arriveReduce p a f => Sys2Proof.Machine.execArriveReduce p a f s
  | .wait p a f => Sys2Proof.Machine.execWait p a f s
  | .arriveWait p a f => Sys2Proof.Machine.execArriveWait p a f s
  | .signal p a f => Sys2Proof.Machine.execSignal p a f s
  | .readMissing p a f => Sys2Proof.Machine.execReadMissing p a f s
  | .deadlineArm p a f => Sys2Proof.Machine.execDeadlineArm p a f s
  | .take p a f => Sys2Proof.Machine.execTake p a f s
  | .tryTake p a f => Sys2Proof.Machine.execTryTake p a f s
  | .give p a f => Sys2Proof.Machine.execGive p a f s
  | .lock p a f => Sys2Proof.Machine.execLock p a f s
  | .tryLock p a f => Sys2Proof.Machine.execTryLock p a f s
  | .unlock p a f => Sys2Proof.Machine.execUnlock p a f s
  | .claimId p a f => Sys2Proof.Machine.execClaimId p a f s
  | .claimRead p a f => Sys2Proof.Machine.execClaimRead p a f s
  | .cas p a f => Sys2Proof.Machine.execCas p a f s
  | .casCont p a f => Sys2Proof.Machine.execCasCont p a f s
  | .fetchAdd p a f => Sys2Proof.Machine.execFetchAdd p a f s
  | .readObj p a f => Sys2Proof.Machine.execReadObj p a f s
  | .reserve p a f => Sys2Proof.Machine.execReserve p a f s
  | .commit p a f => Sys2Proof.Machine.execCommit p a f s
  | .waitAvail p a f => Sys2Proof.Machine.execWaitAvail p a f s
  | .release p a f => Sys2Proof.Machine.execRelease p a f s
  | .landExpect p a f => Sys2Proof.Machine.execLandExpect p a f s
  | .signalAfterLanded p a f => Sys2Proof.Machine.execSignalAfterLanded p a f s
  | .fence p a f => Sys2Proof.Machine.execFence p a f s
  | .fenceComplete agent => Sys2Proof.Machine.execFenceComplete agent s
  | .setTag p a f => Sys2Proof.Machine.execSetTag p a f s
  | .sectionMark p a f => Sys2Proof.Machine.execSectionMark p a f s
  | .mgmt p a f => Sys2Proof.Machine.execMgmt p a f s
  | .requestFlitWithoutCredit p a opcode f => Sys2Proof.Machine.execRequestFlitWithoutCredit p a opcode f s
  | .opTableEntryGrant => Sys2Proof.Machine.execOpTableEntryGrant s
  | .responseCredit p => Sys2Proof.Machine.execResponseCredit p s
  | .responsePresent p => Sys2Proof.Machine.execResponsePresent p s
  | .agentResetNotification p a => Sys2Proof.Machine.execAgentResetNotification p a s
  | .agentResetProcess p a => Sys2Proof.Machine.execAgentResetProcess p a s
  | .apBindWrite agent acc => Sys2Proof.Machine.execApBindWrite agent acc s
  | .landingNotice ch data => Sys2Proof.Machine.execLandingNotice ch data s
  | .landingDecrement => Sys2Proof.Machine.execLandingDecrement s
  | .heldSignalPerform => Sys2Proof.Machine.execHeldSignalPerform s
  | .heldCommitPerform => Sys2Proof.Machine.execHeldCommitPerform s
  | .snNoticePresent => Sys2Proof.Machine.execSnNoticePresent s
  | .snAck data => Sys2Proof.Machine.execSnAck data s
  | .deadlineDue edges => Sys2Proof.Machine.execDeadlineDue edges s
  | .deadlineExpiry edges => Sys2Proof.Machine.execDeadlineExpiry edges s
  | .leaseDue edges => Sys2Proof.Machine.execLeaseDue edges s
  | .leaseExpiry edges => Sys2Proof.Machine.execLeaseExpiry edges s
  | .waitTimeout edges => Sys2Proof.Machine.execWaitTimeout edges s
  | .watchRelease => Sys2Proof.Machine.execWatchRelease s
  | .cmdSubmit w acc => Sys2Proof.Machine.execCmdSubmit w acc s
  | .replyPop w acc => Sys2Proof.Machine.execReplyPop w acc s
  | .nop id => Sys2Proof.Machine.execNop id s
  | .ctxCreate id => Sys2Proof.Machine.execCtxCreate id s
  | .ctxEvict id => Sys2Proof.Machine.execCtxEvict id s
  | .ctxEvictDrained part ctx => Sys2Proof.Machine.execCtxEvictDrained part ctx s
  | .ctxRestore id => Sys2Proof.Machine.execCtxRestore id s
  | .ctxRestoreRecordRead part ctx crcOk => Sys2Proof.Machine.execCtxRestoreRecordRead part ctx crcOk s
  | .ctxDestroy id => Sys2Proof.Machine.execCtxDestroy id s
  | .ctxQuery id => Sys2Proof.Machine.execCtxQuery id s
  | .objCreate id => Sys2Proof.Machine.execObjCreate id s
  | .objDestroy id => Sys2Proof.Machine.execObjDestroy id s
  | .objRead id => Sys2Proof.Machine.execObjRead id s
  | .objReadDesc id => Sys2Proof.Machine.execObjReadDesc id s
  | .barrierRoster id => Sys2Proof.Machine.execBarrierRoster id s
  | .lockForceRelease id => Sys2Proof.Machine.execLockForceRelease id s
  | .ringReset id => Sys2Proof.Machine.execRingReset id s
  | .ringWindowOpen id => Sys2Proof.Machine.execRingWindowOpen id s
  | .ringWindowClose id => Sys2Proof.Machine.execRingWindowClose id s
  | .partCreate id => Sys2Proof.Machine.execPartCreate id s
  | .partActivate id => Sys2Proof.Machine.execPartActivate id s
  | .partitionStartup part => Sys2Proof.Machine.execPartitionStartup part s
  | .partQuiesce id => Sys2Proof.Machine.execPartQuiesce id s
  | .partQuiesceDrained part => Sys2Proof.Machine.execPartQuiesceDrained part s
  | .partQuiesceTimeout part edges => Sys2Proof.Machine.execPartQuiesceTimeout part edges s
  | .partDestroy id => Sys2Proof.Machine.execPartDestroy id s
  | .imageBegin id => Sys2Proof.Machine.execImageBegin id s
  | .imageFrame id => Sys2Proof.Machine.execImageFrame id s
  | .imageCommit id => Sys2Proof.Machine.execImageCommit id s
  | .sectionBegin id => Sys2Proof.Machine.execSectionBegin id s
  | .kernelFence part => Sys2Proof.Machine.execKernelFence part s
  | .sectionBeginTimeout part edges => Sys2Proof.Machine.execSectionBeginTimeout part edges s
  | .sectionEnd id => Sys2Proof.Machine.execSectionEnd id s
  | .routeDiscover id => Sys2Proof.Machine.execRouteDiscover id s
  | .routeLoad id => Sys2Proof.Machine.execRouteLoad id s
  | .treeStitch id => Sys2Proof.Machine.execTreeStitch id s
  | .treeUnstitch id => Sys2Proof.Machine.execTreeUnstitch id s
  | .censusNow id => Sys2Proof.Machine.execCensusNow id s
  | .hobble id => Sys2Proof.Machine.execHobble id s
  | .unhobble id => Sys2Proof.Machine.execUnhobble id s
  | .snapshot id => Sys2Proof.Machine.execSnapshot id s
  | .watchSet id => Sys2Proof.Machine.execWatchSet id s
  | .watchClear id => Sys2Proof.Machine.execWatchClear id s
  | .traceCtl id => Sys2Proof.Machine.execTraceCtl id s
  | .awlSet id => Sys2Proof.Machine.execAwlSet id s
  | .awlClear id => Sys2Proof.Machine.execAwlClear id s
  | .awlResume id => Sys2Proof.Machine.execAwlResume id s
  | .awlHit q pc => Sys2Proof.Machine.execAwlHit q pc s
  | .fwStage id => Sys2Proof.Machine.execFwStage id s
  | .fwApply id => Sys2Proof.Machine.execFwApply id s
  | .fwApplySequencerLoad => Sys2Proof.Machine.execFwApplySequencerLoad s
  | .fwQuery id => Sys2Proof.Machine.execFwQuery id s
  | .fwBootLoad => Sys2Proof.Machine.execFwBootLoad s
  | .fwPushData acc => Sys2Proof.Machine.execFwPushData acc s
  | .fwPushPtrWrite acc => Sys2Proof.Machine.execFwPushPtrWrite acc s
  | .bankRetire id => Sys2Proof.Machine.execBankRetire id s
  | .bankMigrationSwitch => Sys2Proof.Machine.execBankMigrationSwitch s
  | .migrationComplete => Sys2Proof.Machine.execMigrationComplete s
  | .bankGate id => Sys2Proof.Machine.execBankGate id s
  | .bankGateComplete => Sys2Proof.Machine.execBankGateComplete s
  | .bankUngate id => Sys2Proof.Machine.execBankUngate id s
  | .gatedBankRepower bank => Sys2Proof.Machine.execGatedBankRepower bank s
  | .lcAdvance id => Sys2Proof.Machine.execLcAdvance id s
  | .lcFloorRaise id => Sys2Proof.Machine.execLcFloorRaise id s
  | .lcTransitionReset edges => Sys2Proof.Machine.execLcTransitionReset edges s
  | .uncorrectableError site macroNo => Sys2Proof.Machine.execUncorrectableError site macroNo s
  | .clearAdvise acc => Sys2Proof.Machine.execClearAdvise acc s
  | .errlogPop acc => Sys2Proof.Machine.execErrlogPop acc s
  | .errlogClear acc => Sys2Proof.Machine.execErrlogClear acc s
  | .traceWrite => Sys2Proof.Machine.execTraceWrite s
  | .hobbleMarker r => Sys2Proof.Machine.execHobbleMarker r s
  | .hobbleDrainEnd => Sys2Proof.Machine.execHobbleDrainEnd s
  | .hobbleDone r => Sys2Proof.Machine.execHobbleDone r s
  | .hobbleReplyTimeout edges => Sys2Proof.Machine.execHobbleReplyTimeout edges s
  | .hobbleResume r => Sys2Proof.Machine.execHobbleResume r s
  | .hobbleResumed r => Sys2Proof.Machine.execHobbleResumed r s
  | .coldReset straps => Sys2Proof.Machine.execColdReset straps s
  | .warmReset => Sys2Proof.Machine.execWarmReset s
  | .rootLockLoss => Sys2Proof.Machine.execRootLockLoss s
  | .rootLockRise => Sys2Proof.Machine.execRootLockRise s
  | .sramWipeDone failed => Sys2Proof.Machine.execSramWipeDone failed s
  | .linkUp fp => Sys2Proof.Machine.execLinkUp fp s
  | .hello r => Sys2Proof.Machine.execHello r s
  | .linkLoss fp => Sys2Proof.Machine.execLinkLoss fp s
  | .linkSilenceTimeout fp edges => Sys2Proof.Machine.execLinkSilenceTimeout fp edges s
  | .reconcile r => Sys2Proof.Machine.execReconcile r s
  | .reconcileTimeout fp edges => Sys2Proof.Machine.execReconcileTimeout fp edges s
  | .remoteOp r => Sys2Proof.Machine.execRemoteOp r s
  | .opExt r => Sys2Proof.Machine.execOpExt r s
  | .cpl r => Sys2Proof.Machine.execCpl r s
  | .combine r => Sys2Proof.Machine.execCombine r s
  | .wakeNode r => Sys2Proof.Machine.execWakeNode r s
  | .grant r => Sys2Proof.Machine.execGrant r s
  | .cancelDone r => Sys2Proof.Machine.execCancelDone r s
  | .treeRel r => Sys2Proof.Machine.execTreeRel r s
  | .waitCancel r => Sys2Proof.Machine.execWaitCancel r s
  | .abandon r => Sys2Proof.Machine.execAbandon r s
  | .rsvCancel r => Sys2Proof.Machine.execRsvCancel r s
  | .noticeFwd r => Sys2Proof.Machine.execNoticeFwd r s
  | .flitForward kind r => Sys2Proof.Machine.execFlitForward kind r s
  | .flitTransmit fp => Sys2Proof.Machine.execFlitTransmit fp s
  | .idleSend fp edges => Sys2Proof.Machine.execIdleSend fp edges s
  | .discoveryProbe r => Sys2Proof.Machine.execDiscoveryProbe r s
  | .discoveryReport r => Sys2Proof.Machine.execDiscoveryReport r s
  | .nodeidAssign r => Sys2Proof.Machine.execNodeidAssign r s
  | .planDigest r => Sys2Proof.Machine.execPlanDigest r s
  | .routeDv r => Sys2Proof.Machine.execRouteDv r s
  | .discoveryConverged edges => Sys2Proof.Machine.execDiscoveryConverged edges s
  | .discoveryComplete r => Sys2Proof.Machine.execDiscoveryComplete r s
  | .restitchStart tree => Sys2Proof.Machine.execRestitchStart tree s
  | .stitchHoldRequest r => Sys2Proof.Machine.execStitchHoldRequest r s
  | .stitchJoin r => Sys2Proof.Machine.execStitchJoin r s
  | .stitchLeave r => Sys2Proof.Machine.execStitchLeave r s
  | .stitchDone r => Sys2Proof.Machine.execStitchDone r s
  | .syncPeriod edges => Sys2Proof.Machine.execSyncPeriod edges s
  | .syncReq r => Sys2Proof.Machine.execSyncReq r s
  | .syncRsp r => Sys2Proof.Machine.execSyncRsp r s
  | .timeParentTimeout edges => Sys2Proof.Machine.execTimeParentTimeout edges s
  | .remoteCmdFragment r => Sys2Proof.Machine.execRemoteCmdFragment r s
  | .remoteCmdTimeout id edges => Sys2Proof.Machine.execRemoteCmdTimeout id edges s
  | .censusTick edges => Sys2Proof.Machine.execCensusTick edges s
  | .censusStart r => Sys2Proof.Machine.execCensusStart r s
  | .censusFold r => Sys2Proof.Machine.execCensusFold r s
  | .censusFoldTimeout edges => Sys2Proof.Machine.execCensusFoldTimeout edges s
  | .censusVerdict r => Sys2Proof.Machine.execCensusVerdict r s
  | .censusQuery r => Sys2Proof.Machine.execCensusQuery r s
  | .censusAnswer r => Sys2Proof.Machine.execCensusAnswer r s
  | .waiterSpill => Sys2Proof.Machine.execWaiterSpill s
  | .waiterReload => Sys2Proof.Machine.execWaiterReload s
  | .spilledWaiterWake => Sys2Proof.Machine.execSpilledWaiterWake s
  | .multiwordRead addr acc => Sys2Proof.Machine.execMultiwordRead addr acc s
  | .registerWrite addr acc => Sys2Proof.Machine.execRegisterWrite addr acc s
  | .tapInstruction t => Sys2Proof.Machine.execTapInstruction t s
  | .idleFlit r => Sys2Proof.Machine.execIdleFlit r s
  | .badFlit kind r => Sys2Proof.Machine.execBadFlit kind r s
  | .correctionThreshold c => Sys2Proof.Machine.execCorrectionThreshold c s
  | .distributionComplete => Sys2Proof.Machine.execDistributionComplete s
  | .spilledEntryFetch k => Sys2Proof.Machine.execSpilledEntryFetch k s
  | .censusQueryTimeout edges => Sys2Proof.Machine.execCensusQueryTimeout edges s
  | .unhobbleReplyTimeout edges => Sys2Proof.Machine.execUnhobbleReplyTimeout edges s
  | .notAChild r => Sys2Proof.Machine.execNotAChild r s
  | .discoveryCompletionUp r => Sys2Proof.Machine.execDiscoveryCompletionUp r s
  | .stitchReply r => Sys2Proof.Machine.execStitchReply r s

end Sys2Proof.Machine
end

