-- ==== Sys2Proof/Machine/Step.lean ====
section
/-! DEFINITION. One step: the command at the front of the queue, or one clock edge when none waits (log 2). -/

namespace Sys2Proof.Machine

/-- The front command runs with the queue's rest; an empty queue lets one `PORT_CLK` edge pass (log 2). -/
def step (s : State) : Host.Outcome State Fault Refusal :=
  match s.pending with
  | [] => .next (idleEdge s)
  | c :: rest => exec c { s with pending := rest }

/-- The command a table word spells goes to the front of the queue; the table gives no row bits (log 4). -/
def State.withFetchWord (s : State) (nbits w : Nat) : State :=
  match decodeTableWord nbits w with
  | none => s
  | some c => { s with pending := c :: s.pending }

end Sys2Proof.Machine
end

