-- ==== Sys2Proof/Safety.lean ====
section
/-! DEFINITION. The vocabulary of claims: the canonical form of host memory, the components of the state, and what leaves all but some of them unchanged. -/

namespace Sys2Proof.Machine

/-- Host memory is in its canonical form (log 5). -/
def Memory.wf (m : List Host.Cell) : Bool := tableWf memFill m

/-- One-time programmable memory: the identity and the first key stand, the version floor does not fall, burnt repair fuses stay burnt, and `BLANK` is left for good. -/
structure OtpStep (a b : Otp) : Prop where
  uid : b.uid = a.uid
  mfgKey : b.mfgKey = a.mfgKey
  floor : a.svnFloor ≤ b.svnFloor
  fuses : ∀ i, a.bankRepair.getLsbD i = true → b.bankRepair.getLsbD i = true
  lc : a.lc ≠ .blank → b.lc ≠ .blank

/-- The components of the state, named after the stores and registers they hold. -/
inductive Comp where
  | queue | time | clock | otp | fwStore | service | lifecycle | engine | seqs | cmds | frags
  | fwApply | wins | parts | binds | aps | ops | merges | rr | due | rows | banks | waiters | rwaits | records
  | early | spillWakes | fetching | descs | holdings | fences | deadlines | leases | arming | heldq
  | decs | lnPort | sn | dir | tack | regions | fports | trees | disc | census | routes | exts | undo
  | inq | counters | gctr | rake | trace | hobble | watches | irq | crPort | mem | mmBad | mmPort | free
  deriving DecidableEq, Repr

/-- The component has the same contents in both states. -/
def Comp.same (s t : State) : Comp → Prop
  | .queue => t.pending = s.pending
  | .time => t.clk.time = s.clk.time
  | .clock => { t.clk with time := 0 } = { s.clk with time := 0 }
  | .otp => t.slu.otp = s.slu.otp
  | .fwStore => (t.slu.staged, t.slu.booted, t.slu.fwMem, t.slu.pushWord, t.slu.pushEnd) =
      (s.slu.staged, s.slu.booted, s.slu.fwMem, s.slu.pushWord, s.slu.pushEnd)
  | .service => (t.slu.svc, t.slu.svcCause, t.slu.instSvc, t.slu.instClass, t.slu.corr, t.slu.ueLast, t.slu.storeFaults) =
      (s.slu.svc, s.slu.svcCause, s.slu.instSvc, s.slu.instClass, s.slu.corr, s.slu.ueLast, s.slu.storeFaults)
  | .lifecycle => (t.slu.lc, t.slu.dbgLatch, t.slu.lcPending) =
      (s.slu.lc, s.slu.dbgLatch, s.slu.lcPending)
  | .engine => (t.slu.engineReqid, t.slu.tap, t.slu.tapData) =
      (s.slu.engineReqid, s.slu.tap, s.slu.tapData)
  | .seqs => t.msq.seqs = s.msq.seqs
  | .cmds => (t.msq.cmds, t.msq.nextId) =
      (s.msq.cmds, s.msq.nextId)
  | .frags => t.msq.frags = s.msq.frags
  | .fwApply => t.msq.fwApply = s.msq.fwApply
  | .wins => t.wins = s.wins
  | .parts => t.parts = s.parts
  | .binds => t.binds = s.binds
  | .aps => t.aps = s.aps
  | .ops => t.opr.ops = s.opr.ops
  | .merges => (t.opr.merges, t.opr.nextWait) =
      (s.opr.merges, s.opr.nextWait)
  | .rr => t.opr.rr = s.opr.rr
  | .due => (t.opr.expiring, t.opr.dueq) =
      (s.opr.expiring, s.opr.dueq)
  | .rows => t.obk.rows = s.obk.rows
  | .banks => (t.obk.map, t.obk.gated, t.obk.fenced, t.obk.waking, t.obk.retired, t.obk.spareUsed, t.obk.spareRetired, t.obk.retire, t.obk.retireq, t.obk.gating) =
      (s.obk.map, s.obk.gated, s.obk.fenced, s.obk.waking, s.obk.retired, s.obk.spareUsed, s.obk.spareRetired, s.obk.retire, s.obk.retireq, s.obk.gating)
  | .waiters => t.wmc.waiters = s.wmc.waiters
  | .rwaits => t.wmc.rwaits = s.wmc.rwaits
  | .records => t.wmc.records = s.wmc.records
  | .early => t.wmc.early = s.wmc.early
  | .spillWakes => (t.wmc.spillWakes, t.wmc.wakeRr) =
      (s.wmc.spillWakes, s.wmc.wakeRr)
  | .fetching => t.wmc.fetching = s.wmc.fetching
  | .descs => t.trk.descs = s.trk.descs
  | .holdings => t.olu.holdings = s.olu.holdings
  | .fences => t.olu.fences = s.olu.fences
  | .deadlines => t.tdu.deadlines = s.tdu.deadlines
  | .leases => t.tdu.leases = s.tdu.leases
  | .arming => t.lcu.index = s.lcu.index
  | .heldq => (t.lcu.held, t.lcu.postRr) =
      (s.lcu.held, s.lcu.postRr)
  | .decs => t.lcu.decs = s.lcu.decs
  | .lnPort => (t.lcu.credits, t.lcu.ingress) =
      (s.lcu.credits, s.lcu.ingress)
  | .sn => t.sn = s.sn
  | .dir => t.ctm.dir = s.ctm.dir
  | .tack => t.ctm.tack = s.ctm.tack
  | .regions => (t.ctm.tackBase, t.ctm.tackSize, t.ctm.spillBase, t.ctm.spillSize) =
      (s.ctm.tackBase, s.ctm.tackSize, s.ctm.spillBase, s.ctm.spillSize)
  | .fports => t.fab.ports = s.fab.ports
  | .trees => t.fab.trees = s.fab.trees
  | .disc => t.fab.disc = s.fab.disc
  | .census => t.fab.census = s.fab.census
  | .routes => (t.fab.nodeId, t.fab.nodeValid, t.fab.planDigest, t.fab.scope, t.fab.cmdEn, t.fab.cmdNode, t.fab.cmdMask, t.fab.groupRt, t.fab.memberRt, t.fab.admits) =
      (s.fab.nodeId, s.fab.nodeValid, s.fab.planDigest, s.fab.scope, s.fab.cmdEn, s.fab.cmdNode, s.fab.cmdMask, s.fab.groupRt, s.fab.memberRt, s.fab.admits)
  | .exts => (t.fab.exts, t.fab.gone) =
      (s.fab.exts, s.fab.gone)
  | .undo => t.fab.undo = s.fab.undo
  | .inq => t.fab.inq = s.fab.inq
  | .counters => (t.obs.live, t.obs.start, t.obs.end_) =
      (s.obs.live, s.obs.start, s.obs.end_)
  | .gctr => t.obs.gctr = s.obs.gctr
  | .rake => (t.obs.rake, t.obs.rakeFirst, t.obs.rakeLast, t.obs.overflow, t.obs.sticky) =
      (s.obs.rake, s.obs.rakeFirst, s.obs.rakeLast, s.obs.overflow, s.obs.sticky)
  | .trace => t.obs.trace = s.obs.trace
  | .hobble => t.obs.hobble = s.obs.hobble
  | .watches => t.obs.watches = s.obs.watches
  | .irq => t.cr.irqStatus = s.cr.irqStatus
  | .crPort => (t.cr.irqEnable, t.cr.holds, t.cr.staged, t.cr.valid, t.cr.rdata, t.cr.err) =
      (s.cr.irqEnable, s.cr.holds, s.cr.staged, s.cr.valid, s.cr.rdata, s.cr.err)
  | .mem => t.mem = s.mem
  | .mmBad => t.mmBad = s.mmBad
  | .mmPort => t.mmOut = s.mmOut
  | .free => t.free = s.free

/-- Every component outside `l` is the same in `t` as in `s`. -/
def Frame (l : List Comp) (s t : State) : Prop := ∀ c, c ∉ l → Comp.same s t c

/-- Every slot of the banks but that of `k` holds what it held. -/
def SlotsBut (k : OKey) (s t : State) : Prop := ∀ n, n ≠ s.slot k → tget t.obk.rows n = tget s.obk.rows n

/-! ### An agent's request that can be performed at once -/

/-- The port takes a flit of the agent (R50, R51, R79), nothing waits on it, and no Hobble stops it (R363). -/
structure PortReady (p : PortNo) (a : LocalAgent) (s : State) : Prop where
  up : s.apReady p = true
  credit : 0 < (s.ap p).reqCredits
  window : ∀ r ∈ (s.ap p).arst, r.agent ≠ a
  empty : (s.ap p).ingress = []
  hobble : s.obs.hobble.state = 0

/-- The flit passes the bind stage (R55, R76) and finds an op table entry (R74) for which no other port waits (R75), and no earlier operation of its agent holds it (R66 to R69). -/
structure BindReady (p : PortNo) (a : LocalAgent) (op : Op) (f : Req) (cont : Option Req) (s : State) : Prop where
  bound : (s.bind (agentId p a)).valid = true
  passes : s.draining (s.bind (agentId p a)).part = false
  ahead : s.heldBehind p (s.bind (agentId p a)).part = false
  format : flitOk op f cont = true
  pool : (s.portPool p (s.bind (agentId p a)).part).isSome = true
  turn : s.othersWait p = false
  entry : ∀ d ∈ s.opr.ops, d.id ≠ s.freeEntry
  order : ∀ d ∈ s.opr.ops, d.agent = agentId p a → d.node = s.fab.nodeId → d.txid = none → d.st.open_ = true →
    d.st ≠ .fence ∧ f.ordered = false ∧
      (op.noObject = true ∨ d.op.noObject = true ∨ d.req.node ≠ f.node ∨ d.req.ctx ≠ f.ctx ∨ d.req.index ≠ f.index)

/-- The op table entry that the flit takes; a name that it has is translated (R27). -/
def entered (p : PortNo) (a : LocalAgent) (op : Op) (f : Req) (cont : Option Req) (s : State) : OpEntry :=
  { newEntry p op ⟨a, op.code, f, cont⟩ ((s.portPool p (s.bind (agentId p a)).part).getD .shared) s with
    xlat := if op.noObject then none else some .ok }

/-- The object is homed here, its context is resident, its partition is not starting up (R298), and neither an expiry (R99), a bank that moves (R101) or has no power (R339), nor a spilled entry (R110, R145, R253) holds the operation; no operation that the bank took in this cycle is one with it (R17). -/
structure HomeReady (e : OpEntry) (o : Obj) (s : State) : Prop where
  here : e.req.node = s.fab.nodeId
  resident : (s.ctx e.part e.req.ctx).state = .resident
  started : (s.part e.part).starting = none
  undue : s.tieHeld (opKey e) = false
  unmoved : s.moveHeld (opKey e) = false
  lit : s.slotDark (opKey e) = false
  fetched : opKey e ∉ s.wmc.fetching
  unspilled : s.needsFetch e.op (opKey e) = false
  unwoken : ∀ x ∈ s.wmc.spillWakes, x.w.key ≠ opKey e
  banks : s.bankAllowed e.part e.req.index = true
  row : rowOff e.req.index < (s.ctx e.part e.req.ctx).rowCount.toNat
  obj : s.obj (opKey e) = some o
  owner : o.hdr.part = e.part
  room : s.entryRoom e.part = true
  sole : ∀ m ∈ s.opr.merges, m.takes e s.now = false
  heldRoom : entersHeld e = true → s.heldRoom e.part = true ∧ ∀ d ∈ s.opr.ops, d.st ≠ .heldQueue

/-- A one-flit operation of a local agent on an object of this home that is performed as soon as it is presented. -/
structure OpReady (p : PortNo) (a : LocalAgent) (op : Op) (f : Req) (o : Obj) (s : State) : Prop where
  port : PortReady p a s
  first : (s.ap p).casFirst = none
  binds : BindReady p a op f none s
  home : HomeReady (entered p a op f none s) o s

/-- `x` is `s` with the operation `e` in the op table: the flit passed its port and left no trace there (R51, R351). -/
structure Entered (e : OpEntry) (n : Nat) (s x : State) : Prop where
  ops : x.opr.ops = s.opr.ops ++ [e]
  ports : ∀ q, x.ap q = s.ap q
  flits : ∀ i, x.gctr i = s.gctr i + (if i = 8 then BitVec.ofNat 64 n else 0)
  frame : Frame [.aps, .ops, .gctr] s x

/-- Each counter of partition and index listed in `cs` has gained one for each time it is listed; no other live counter has changed. -/
def Counted (cs : List (PartId × Nat)) (s u : State) : Prop :=
  ∀ q i, i < 64 → u.ctr q i = s.ctr q i + BitVec.ofNat 64 (cs.count (q, i))

/-- The operation `e` of a one-flit request is in the op table and at its object: the port is as before, the live counters in `cs` and `GCTR[0]`, `GCTR[8]` have counted, of arrivals the one that this may be has been noted (R17), and of the banks only the object's own slot, of everything else only the components in `l`, may differ. -/
structure AtObject (e : OpEntry) (cs : List (PartId × Nat)) (l : List Comp) (s u : State) : Prop where
  ops : u.opr.ops = s.opr.ops ++ [e]
  ports : ∀ q, u.ap q = s.ap q
  counted : Counted cs s u
  global : ∀ i, u.gctr i = s.gctr i + (if i = 0 ∨ i = 8 then 1 else 0)
  slots : SlotsBut (opKey e) s u
  frame : Frame ([.aps, .ops, .merges, .rows, .counters, .gctr] ++ l) s u

/-- The command performs the operation `e`: it completes with a status, a payload and a grant, and the object's word then holds `b`. -/
structure Performs (i : Instr) (e : OpEntry) (o : Obj) (st : Status) (pay : DWord) (g : Option Grant) (b : Body)
    (cs : List (PartId × Nat)) (l : List Comp) (s u : State) : Prop where
  runs : exec i s = .next (finish e st pay g u)
  word : u.obj (opKey e) = some { o with body := b }
  rest : AtObject e cs l s u

/-- The operation is refused with a status: no counter and no object has changed when it completes. -/
def Refuses (i : Instr) (e : OpEntry) (o : Obj) (st : Status) (s : State) : Prop :=
  ∃ u, Performs i e o st 0 none o.body [] [] s u

/-- The command parks the operation `e` as the waiter `w`: last in its object's queue, the object's body as before, its header saying that a waiter is parked. -/
structure Parks (i : Instr) (e : OpEntry) (o : Obj) (b : Body) (w : Waiter) (cs : List (PartId × Nat)) (l : List Comp) (s u : State) : Prop where
  runs : exec i s = .next (finishParked e u)
  queue : u.wmc.waiters = s.wmc.waiters ++ [w]
  word : ∃ h, u.obj (opKey e) = some ⟨h, b⟩ ∧ h.parked = true ∧ h.wprio = maxPrio (s.waitersOf (opKey e) ++ [w]) ∧
    h.part = o.hdr.part ∧ h.tree = o.hdr.tree ∧ h.watch = o.hdr.watch
  rest : AtObject e cs ([.waiters, .free] ++ l) s u

/-! ### A command packet that starts at once -/

/-- The packet waits in its sequencer, its turn has come (R273), no awl holds it, and neither its partition's state (R293, R294) nor a field of it (R263, R265; `fmt` gives the opcode's own rules) refuses it. -/
structure CmdReady (code : Nat) (fmt : Cmd → List (Nat × Nat)) (c : Cmd) (q : Nat) (s : State) : Prop where
  queued : s.cmd c.id = some c
  opcode : c.opcode.toNat = code
  turn : s.canStart c = true
  runner : s.runner c = some q
  awl : s.opAwl q c = none
  part : s.partRefuses c = none
  fields : ∀ r, mrowOf c.opcode = some r → firstOffence (c.reserved r ++ fmt c) = none

/-- The sequencers are as before, but for which awl the next command skips (R360) and the one command that a debug step lets pass (R387). -/
def SeqsKept (s u : State) : Prop :=
  ∀ n, { u.seq n with skip := none, dbgStep := false } = { s.seq n with skip := none, dbgStep := false }

/-- The command runs to `u`, and what waits for its effects goes on: outside the components in `l`, `u` is `s`. -/
structure Goes (i : Instr) (l : List Comp) (s u : State) : Prop where
  runs : exec i s = .next (pump u)
  seqs : SeqsKept s u
  frame : Frame (.seqs :: l) s u

/-- The command packet completes with a status, `DETAIL` and results: outside the components in `l`, `u` is `s`. -/
structure Completes (i : Instr) (c : Cmd) (st : Status) (detail : Word) (res : List Word) (l : List Comp) (s u : State) : Prop where
  runs : exec i s = .next (pump (complete c st detail res u))
  seqs : SeqsKept s u
  frame : Frame (.seqs :: l) s u

/-- The command packet is refused: nothing but its completion happens. -/
def Rejects (i : Instr) (c : Cmd) (st : Status) (detail : Word) (s : State) : Prop := ∃ u, Completes i c st detail [] [] s u

/-! ### A received flit -/

/-- The port takes the flit, no link error meets it (R201), every bit of it is in order, and no Hobble stops it (R366). -/
structure RxReady (kind : BitVec 4) (r : Rx) (s : State) : Prop where
  live : s.fpLive r.port = true
  taken : s.rxTakes kind r = true
  sound : s.linkError kind r = false
  good : flitBad kind r = false
  hobble : s.obs.hobble.state = 0

/-- The same, whether or not a Hobble runs: the port of an exempt flit (R366). -/
structure RxFar (kind : BitVec 4) (r : Rx) (s : State) : Prop where
  live : s.fpLive r.port = true
  taken : s.rxTakes kind r = true
  sound : s.linkError kind r = false
  good : flitBad kind r = false

/-- `u` is `s` after the link layer of an accepted flit: sequence number, replay copies and credits of its port, and the flit counter of its pool (R201, R205, R209, R351); `due` says that its buffer has been freed, too. -/
structure Linked (kind : BitVec 4) (r : Rx) (due : Bool) (s u : State) : Prop where
  port : u.fp r.port = { s.fp r.port with
    rxSeq := r.hdr.lseq, lastRx := s.now
    replay := (s.fp r.port).replay.filter fun c => !seqCovered c.1 r.hdr.lack
    credits :=
      if r.hdr.credPool = 0 then (s.fp r.port).credits
      else tput 0 (s.fp r.port).credits r.hdr.credPool.toNat
        (tgetD 0 (s.fp r.port).credits r.hdr.credPool.toNat + r.hdr.credNum.toNat)
    opOut := if r.hdr.credPool = 1 then (s.fp r.port).opOut.drop r.hdr.credNum.toNat else (s.fp r.port).opOut
    owed :=
      if due = true ∧ poolOf kind ≠ 0 then
        tput 0 (s.fp r.port).owed (poolOf kind) (tgetD 0 (s.fp r.port).owed (poolOf kind) + 1)
      else (s.fp r.port).owed }
  ports : ∀ p, p ≠ r.port → u.fp p = s.fp p
  flits : ∀ i, u.gctr i =
    s.gctr i + (if s.frozen = false ∧ poolOf kind ≠ 0 ∧ i = 11 + poolOf kind then 1 else 0)
  frame : Frame [.fports, .gctr] s u

/-- A received `OP` of another instance takes an op table entry `e` (R216, R256) and nothing holds it there. -/
structure FabReady (r : Rx) (op : Op) (p : PartId) (pool : Pool) (e : OpEntry) (s : State) : Prop where
  rx : RxReady 0 r s
  here : s.forHere r = true
  first : (s.fp r.port).opWaits = false
  admitted : admitOp (opOfBody r.body s.fab.nodeId) r.hdr.src s = .part p op
  pooled : s.fabricPool p = some pool
  entry : ∀ d ∈ s.opr.ops, d.id ≠ s.freeEntry
  order : ∀ d ∈ s.opr.ops, d.node ≠ r.hdr.src
  started : (s.part p).starting = none
  taken : e = { fabEntry (opOfBody r.body s.fab.nodeId) op r.hdr.src p 0 pool s with
    xlat := if op.fabricOnly = true ∧ (s.ctx p (opOfBody r.body s.fab.nodeId).req.ctx).state ≠ .resident then none
      else some .ok }
  free : s.homeHeld e = false
  room : s.entryRoom p = true

end Sys2Proof.Machine
end

