-- ==== Sys2Proof/Certificates/Slice0/Obligations.lean ====
section
/-! DEFINITION. The statements for the provers. -/

open Sys2Proof Sys2Proof.Machine

/-- R115: what a `TAKE` and a `TRY_TAKE` of a semaphore do, row by row. -/
def Obligations.SemaphoreTakes : Prop :=
  ∀ (p : PortNo) (a : LocalAgent) (f : Req) (h : ObjHdr) (v : Sem) (s : State) (e : OpEntry),
    (OpReady p a .take f ⟨h, .semaphore v⟩ s → e = entered p a .take f none s →
      s.agentWaits (opKey e) e.node e.agent = false →
      (reqOperand f = 0 ∨ v.limit.toNat < (reqOperand f).toNat →
        Refuses (.take p a f) e ⟨h, .semaphore v⟩ .rangeError s) ∧
      (reqOperand f ≠ 0 → (reqOperand f).toNat ≤ v.limit.toNat → (reqOperand f).toNat ≤ v.count.toNat →
        (∀ w ∈ s.waitersOf (opKey e), w.prio.toNat < e.prio.toNat) →
        ∃ u, Performs (.take p a f) e ⟨h, .semaphore v⟩ .ok (v.count - (reqOperand f).setWidth 64)
          (some (.take (opKey e) none ((reqOperand f).setWidth 64)))
          (.semaphore { v with count := v.count - (reqOperand f).setWidth 64 }) [(e.part, 6)] [] s u) ∧
      (reqOperand f ≠ 0 → (reqOperand f).toNat ≤ v.limit.toNat →
        v.count.toNat < (reqOperand f).toNat ∨ (∃ w ∈ s.waitersOf (opKey e), e.prio.toNat ≤ w.prio.toNat) →
        ∃ u, Parks (.take p a f) e ⟨h, .semaphore v⟩ (.semaphore v) (waiterOf e (opKey e) s) [] [] s u)) ∧
    (OpReady p a .tryTake f ⟨h, .semaphore v⟩ s → e = entered p a .tryTake f none s →
      (f.payload = 0 ∨ v.limit.toNat < f.payload.toNat →
        Refuses (.tryTake p a f) e ⟨h, .semaphore v⟩ .rangeError s) ∧
      (f.payload ≠ 0 → f.payload.toNat ≤ v.limit.toNat → f.payload.toNat ≤ v.count.toNat →
        s.waitersOf (opKey e) = [] →
        ∃ u, Performs (.tryTake p a f) e ⟨h, .semaphore v⟩ .ok (v.count - f.payload)
          (some (.take (opKey e) none f.payload))
          (.semaphore { v with count := v.count - f.payload }) [(e.part, 6)] [] s u) ∧
      (f.payload ≠ 0 → f.payload.toNat ≤ v.limit.toNat →
        v.count.toNat < f.payload.toNat ∨ s.waitersOf (opKey e) ≠ [] →
        ∃ u, Performs (.tryTake p a f) e ⟨h, .semaphore v⟩ .wouldBlock v.count none (.semaphore v) [] [] s u))

/-- R116: a `GIVE` whose units do not fit changes nothing; one that fits adds its units, and with no waiter parked the grant loop of R117 grants nothing. -/
def Obligations.SemaphoreGives : Prop :=
  ∀ (p : PortNo) (a : LocalAgent) (f : Req) (h : ObjHdr) (v : Sem) (s : State) (e : OpEntry),
    OpReady p a .give f ⟨h, .semaphore v⟩ s → e = entered p a .give f none s →
      (f.payload = 0 ∨ v.limit.toNat < v.count.toNat + f.payload.toNat →
        Refuses (.give p a f) e ⟨h, .semaphore v⟩ .rangeError s) ∧
      (f.payload ≠ 0 → v.count.toNat + f.payload.toNat ≤ v.limit.toNat → s.waitersOf (opKey e) = [] →
        ∃ u, Performs (.give p a f) e ⟨h, .semaphore v⟩ .ok (v.count + f.payload) none
          (.semaphore { v with count := v.count + f.payload }) [(e.part, 7)] [] s u)

/-- R118 and R119: `SIGNAL` sets the latch, names the first setter and wakes every waiter with `OK` and payload zero; `WAIT` completes at once on a set event, parks otherwise, and is refused with a nonzero `AUX[0]` before any other check. -/
def Obligations.Events : Prop :=
  ∀ (p : PortNo) (a : LocalAgent) (f : Req) (h : ObjHdr) (v : Event) (s : State) (e : OpEntry),
    (OpReady p a .signal f ⟨h, .event v⟩ s → e = entered p a .signal f none s →
      (v.set = true → ∃ u, Performs (.signal p a f) e ⟨h, .event v⟩ .ok 0 none (.event v) [(e.part, 5)] [] s u) ∧
      (v.set = false → ∃ u hd,
        exec (.signal p a f) s =
          .next (finish e .ok 0 none (wakeAll (s.waitersOf (opKey e)) .ok 0 (e.agent, e.node, 0) u)) ∧
        u.obj (opKey e) = some ⟨hd, .event ⟨true, e.agent, s.fab.nodeId, s.time64⟩⟩ ∧
        hd.parked = false ∧ hd.part = h.part ∧ hd.tree = h.tree ∧ hd.watch = h.watch ∧
        u.wmc.waiters = s.wmc.waiters.filter (fun w => decide (w.key ≠ opKey e)) ∧
        AtObject e [(e.part, 5)] [.waiters] s u)) ∧
    (OpReady p a .wait f ⟨h, .event v⟩ s → e = entered p a .wait f none s →
      (reqAux0 f = true → Refuses (.wait p a f) e ⟨h, .event v⟩ .formatError s) ∧
      (reqAux0 f = false → s.agentWaits (opKey e) e.node e.agent = true →
        Refuses (.wait p a f) e ⟨h, .event v⟩ .rangeError s) ∧
      (reqAux0 f = false → s.agentWaits (opKey e) e.node e.agent = false → v.set = true →
        ∃ u, Performs (.wait p a f) e ⟨h, .event v⟩ .ok 0 none (.event v) [(e.part, 2)] [] s u) ∧
      (reqAux0 f = false → s.agentWaits (opKey e) e.node e.agent = false → v.set = false →
        ∃ u, Parks (.wait p a f) e ⟨h, .event v⟩ (.event v) { waiterOf e (opKey e) s with parity := false }
          [(e.part, 2)] [] s u))

/-- R57, R121 and R122: `FETCH_ADD` adds modulo 2^64; the first flit of a `CAS` waits for its second; with it, the operation writes the new value exactly when the old one is the expected one. All reply the old value. -/
def Obligations.Cells : Prop :=
  ∀ (p : PortNo) (a : LocalAgent) (f g : Req) (h : ObjHdr) (c : Cell) (s : State) (e : OpEntry),
    (OpReady p a .fetchAdd f ⟨h, .cell c⟩ s → e = entered p a .fetchAdd f none s →
      ∃ u, Performs (.fetchAdd p a f) e ⟨h, .cell c⟩ .ok c.value none
        (.cell ⟨c.value + f.payload, agentId p a, s.fab.nodeId⟩) [(e.part, 10)] [] s u) ∧
    (PortReady p a s → (s.ap p).casFirst = none →
      ∃ t, exec (.cas p a f) s = .next t ∧
        t.ap p = { s.ap p with casFirst := some ⟨a, 0x40, f, none⟩, reqCredits := (s.ap p).reqCredits - 1 } ∧
        (∀ q, q ≠ p → t.ap q = s.ap q) ∧ Frame [.aps] s t) ∧
    (PortReady p a s → (s.ap p).casFirst = some ⟨a, 0x40, f, none⟩ → BindReady p a .cas f (some g) s →
      e = entered p a .cas f (some g) s → HomeReady e ⟨h, .cell c⟩ s →
      ∃ u, exec (.casCont p a g) s = .next (finish e .ok c.value none u) ∧
        u.obj (opKey e) = some ⟨h, .cell (if c.value = g.payload then ⟨f.payload, agentId p a, s.fab.nodeId⟩ else c)⟩ ∧
        u.opr.ops = s.opr.ops ++ [e] ∧
        u.ap p = { s.ap p with casFirst := none, reqCredits := (s.ap p).reqCredits + 1 } ∧
        (∀ q, q ≠ p → u.ap q = s.ap q) ∧ Counted [(e.part, 10)] s u ∧ SlotsBut (opKey e) s u ∧
        Frame [.aps, .ops, .rows, .counters, .gctr] s u)

/-- R40, R102 and R127: `READ_OBJ` replies its type's value, `CLAIM_READ` the claim word, and `READ_MISSING` the members recorded as missing; a kind or word that the object does not have is refused. None writes the object. -/
def Obligations.ObjectReads : Prop :=
  ∀ (p : PortNo) (a : LocalAgent) (f : Req) (o : Obj) (s : State) (e : OpEntry),
    (OpReady p a .readObj f o s → e = entered p a .readObj f none s →
      (∀ r, o.body = .ring r → (s.descOf (opKey e)).isSome = true) →
      ∃ u, Performs (.readObj p a f) e o .ok (readObjValue o.body) none o.body [(e.part, 11)] [] s u) ∧
    (∀ l, o.body = .lock l → OpReady p a .claimRead f o s → e = entered p a .claimRead f none s →
      ∃ u, Performs (.claimRead p a f) e o .ok l.claim none o.body [] [] s u) ∧
    (∀ b r, o.body = .barrier b → OpReady p a .readMissing f o s → e = entered p a .readMissing f none s →
      s.record (opKey e) = some r → f.aux.extractLsb' 6 2 = 0#2 →
      ∃ u, Performs (.readMissing p a f) e o .ok
        (r.lastMissing.extractLsb' (64 * (f.aux.extractLsb' 0 6).toNat) 64) none o.body [(e.part, 11)] [] s u) ∧
    (∀ b, o.body = .barrier b → OpReady p a .readMissing f o s → e = entered p a .readMissing f none s →
      s.record (opKey e) = none → f.aux.extractLsb' 6 2 = 0#2 →
      ∃ u, Performs (.readMissing p a f) e o .rangeError 0 none o.body [(e.part, 11)] [] s u) ∧
    (∀ g, o.body = .group g → OpReady p a .readMissing f o s → e = entered p a .readMissing f none s →
      f.aux = 0#8 →
      ∃ u, Performs (.readMissing p a f) e o .ok (g.enrolled &&& ~~~g.arrived) none o.body [(e.part, 11)] [] s u) ∧
    (∀ g, o.body = .group g → OpReady p a .readMissing f o s → e = entered p a .readMissing f none s →
      f.aux ≠ 0#8 →
      ∃ u, Performs (.readMissing p a f) e o .rangeError 0 none o.body [(e.part, 11)] [] s u)

/-- R123 and R124: a free lock is granted by `LOCK`, `TRY_LOCK` and `CLAIM_ID` (the last at priority 0): the word names the holder, `ACQ_SEQ` and the claim word follow, the fence entry of the agent goes, and the policy decides about the holdings entry (R128) and the lease (R134). -/
def Obligations.LockGrants : Prop :=
  ∀ (p : PortNo) (a : LocalAgent) (f : Req) (h : ObjHdr) (l : Lock) (s : State) (e : OpEntry) (i : Instr) (op : Op),
    (i = .lock p a f ∧ op = .lock ∨ i = .tryLock p a f ∧ op = .tryLock ∨ i = .claimId p a f ∧ op = .claimId) →
    OpReady p a op f ⟨h, .lock l⟩ s → e = entered p a op f none s → l.held = false →
    (op = .lock → s.agentWaits (opKey e) e.node e.agent = false) →
    s.olu.holdings.length < Config.holdingEntries →
    ∃ u, Performs i e ⟨h, .lock l⟩
        (if l.lastEnd = 1 then .abandoned else if l.lastEnd = 2 then .leaseExpired else .ok)
        (if op = .claimId then 0 else 0#28 ++ (l.acqSeq + 1))
        (some (.lock (opKey e) none (if op = .claimId then 0 else l.acqSeq + 1)))
        (.lock { l with
          held := true, holderNode := s.fab.nodeId, holderAgent := agentId p a
          holdPrio := if op = .claimId then 0 else e.prio, effPrio := if op = .claimId then 0 else e.prio
          acqSeq := l.acqSeq + 1, claim := 1#1 ++ 0#35 ++ s.fab.nodeId ++ agentId p a })
        [(e.part, 8)] [.fences, .holdings, .leases] s u ∧
      u.olu.fences = s.olu.fences.filter (fun x =>
        decide (¬(x.key = opKey e ∧ x.node = s.fab.nodeId ∧ x.agent = agentId p a))) ∧
      u.olu.holdings = (if l.policy.getLsbD 0 then s.olu.holdings ++ [⟨agentId p a, s.fab.nodeId, opKey e⟩] else s.olu.holdings) ∧
      u.tdu.leases = (if l.policy.getLsbD 1 then
        s.tdu.leases ++ [⟨opKey e, l.acqSeq + 1, s.now + l.leaseUs.toNat * 1000⟩] else s.tdu.leases)

/-- R124 and R126: what a held lock answers to `LOCK`, `TRY_LOCK` and `CLAIM_ID`; the holder itself is refused, another `LOCK` parks and lifts the effective priority (R129). -/
def Obligations.LockHeld : Prop :=
  ∀ (p : PortNo) (a : LocalAgent) (f : Req) (h : ObjHdr) (l : Lock) (s : State) (e : OpEntry), l.held = true →
    (OpReady p a .claimId f ⟨h, .lock l⟩ s → e = entered p a .claimId f none s →
      ∃ u, Performs (.claimId p a f) e ⟨h, .lock l⟩ .ok 0 none (.lock l) [] [] s u) ∧
    (OpReady p a .tryLock f ⟨h, .lock l⟩ s → e = entered p a .tryLock f none s →
      (l.holderNode = s.fab.nodeId ∧ l.holderAgent = agentId p a → Refuses (.tryLock p a f) e ⟨h, .lock l⟩ .rangeError s) ∧
      (¬(l.holderNode = s.fab.nodeId ∧ l.holderAgent = agentId p a) →
        ∃ u, Performs (.tryLock p a f) e ⟨h, .lock l⟩ .wouldBlock
          (1#1 ++ l.effPrio ++ 0#32 ++ l.holderNode ++ l.holderAgent) none (.lock l) [] [] s u)) ∧
    (OpReady p a .lock f ⟨h, .lock l⟩ s → e = entered p a .lock f none s →
      (s.agentWaits (opKey e) e.node e.agent = true ∨ l.holderNode = s.fab.nodeId ∧ l.holderAgent = agentId p a →
        Refuses (.lock p a f) e ⟨h, .lock l⟩ .rangeError s) ∧
      (s.agentWaits (opKey e) e.node e.agent = false → ¬(l.holderNode = s.fab.nodeId ∧ l.holderAgent = agentId p a) →
        e.prio.toNat ≤ l.effPrio.toNat →
        ∃ u, Parks (.lock p a f) e ⟨h, .lock l⟩ (.lock l) (waiterOf e (opKey e) s) [] [] s u) ∧
      (s.agentWaits (opKey e) e.node e.agent = false → ¬(l.holderNode = s.fab.nodeId ∧ l.holderAgent = agentId p a) →
        l.effPrio.toNat < e.prio.toNat →
        ∃ u, exec (.lock p a f) s =
            .next (finishParked e (sendInherit (opKey e) l false e.prio s.fab.nodeId (agentId p a) u)) ∧
          u.wmc.waiters = s.wmc.waiters ++ [waiterOf e (opKey e) s] ∧
          (∃ hd, u.obj (opKey e) = some ⟨hd, .lock { l with effPrio := e.prio }⟩ ∧ hd.parked = true) ∧
          AtObject e [] [.waiters, .free] s u))

/-- R125 and R136: `UNLOCK` by the holder, with no waiter and no inherited level, frees the lock with `LAST_END` NORMAL, and its lease and holdings entry go; any other agent is told `FENCED` once if a fence entry names it, else `RANGE_ERROR`. -/
def Obligations.Unlocks : Prop :=
  ∀ (p : PortNo) (a : LocalAgent) (f : Req) (h : ObjHdr) (l : Lock) (s : State) (e : OpEntry),
    OpReady p a .unlock f ⟨h, .lock l⟩ s → e = entered p a .unlock f none s →
      (l.held = true → l.holderNode = s.fab.nodeId → l.holderAgent = agentId p a → l.effPrio.toNat ≤ l.holdPrio.toNat →
        s.waitersOf (opKey e) = [] →
        ∃ u, Performs (.unlock p a f) e ⟨h, .lock l⟩ .ok 0 none (.lock { l with held := false, lastEnd := 0, claim := 0 })
            [(e.part, 9)] [.leases, .holdings] s u ∧
          u.tdu.leases = s.tdu.leases.filter (fun x => decide (x.key ≠ opKey e)) ∧
          u.olu.holdings = dropFirst (fun x => decide (x = ⟨agentId p a, s.fab.nodeId, opKey e⟩)) s.olu.holdings) ∧
      (¬(l.held = true ∧ l.holderNode = s.fab.nodeId ∧ l.holderAgent = agentId p a) →
        (∀ x ∈ s.olu.fences, ¬(x.key = opKey e ∧ x.node = s.fab.nodeId ∧ x.agent = agentId p a)) →
        Refuses (.unlock p a f) e ⟨h, .lock l⟩ .rangeError s) ∧
      (¬(l.held = true ∧ l.holderNode = s.fab.nodeId ∧ l.holderAgent = agentId p a) →
        (∃ x ∈ s.olu.fences, x.key = opKey e ∧ x.node = s.fab.nodeId ∧ x.agent = agentId p a) →
        ∃ u, Performs (.unlock p a f) e ⟨h, .lock l⟩ .fenced 0 none (.lock l) [] [.fences] s u ∧
          u.olu.fences = s.olu.fences.filter (fun x =>
            decide (¬(x.key = opKey e ∧ x.node = s.fab.nodeId ∧ x.agent = agentId p a))))

/-- R17, R84, R86, R89, R91, R106 and R411: an arrival of a roster member for the current epoch that does not bring the count to `TARGET`: the count, the bit of the arrival record and, for `ARRIVE_REDUCE`, the accumulator; `ARRIVE` replies the epoch and `ARRIVE_WAIT` parks. An early arrival that is accepted is kept for the next epoch in the same way: `NEXT_COUNT`, its bit of the record, the early accumulator; `ARRIVE` replies the next epoch. An arrival that merges with an earlier one of its cycle is no further bank operation, and the second of a set makes it a merged one. The model's choices in it: a count past `TARGET` on a barrier without an arrival record (log 56); arrivals of one capture TIME at one object merge, and a set's arrivals come in the order of their ports (log 60); a set counts in `GCTR[7]` once (log 17). -/
def Obligations.Arrivals : Prop :=
  (∀ (p : PortNo) (a : LocalAgent) (f : Req) (h : ObjHdr) (b c : Barrier) (s : State) (e : OpEntry) (i : Instr) (op : Op),
    (i = .arrive p a f ∧ op = .arrive ∨ i = .arriveReduce p a f ∧ op = .arriveReduce ∨
      i = .arriveWait p a f ∧ op = .arriveWait) →
    OpReady p a op f ⟨h, .barrier b⟩ s → e = entered p a op f none s →
    (op = .arriveReduce → reduceOk b f = true) →
    (∀ r, s.record (opKey e) = some r →
      r.roster.getLsbD (agentId p a).toNat = true ∧ r.cur.getLsbD (agentId p a).toNat = false) →
    reqAux0 f = b.epoch.getLsbD 0 → b.curCount + 1 ≠ b.target →
    c = { b with
      curCount := b.curCount + 1
      acc := if op = .arriveReduce then barrierFold b b.accValid b.acc f.payload else b.acc
      accValid := b.accValid || decide (op = .arriveReduce) } →
    ∃ u cs,
      (op ≠ .arriveReduce → cs = [(e.part, 0)]) ∧
      (op = .arriveReduce → cs = [(e.part, 21 + b.fmt.toNat), (e.part, 1)] ∨
        cs = [(e.part, 33), (e.part, 21 + b.fmt.toNat), (e.part, 1)]) ∧
      (op ≠ .arriveWait → Performs i e ⟨h, .barrier b⟩ .ok (b.epoch.setWidth 64) none (.barrier c) cs [.records] s u) ∧
      (op = .arriveWait → Parks i e ⟨h, .barrier b⟩ (.barrier c) { waiterOf e (opKey e) s with parity := reqAux0 f }
        cs [.records] s u) ∧
      u.record (opKey e) = (s.record (opKey e)).map fun r => { r with cur := setBit r.cur (agentId p a).toNat }) ∧
  (∀ (p : PortNo) (a : LocalAgent) (f : Req) (h : ObjHdr) (b c : Barrier) (s : State) (e : OpEntry) (i : Instr) (op : Op),
    (i = .arrive p a f ∧ op = .arrive ∨ i = .arriveReduce p a f ∧ op = .arriveReduce ∨
      i = .arriveWait p a f ∧ op = .arriveWait) →
    OpReady p a op f ⟨h, .barrier b⟩ s → e = entered p a op f none s →
    (op = .arriveReduce → reduceOk b f = true) →
    (∀ r, s.record (opKey e) = some r →
      r.roster.getLsbD (agentId p a).toNat = true ∧ r.cur.getLsbD (agentId p a).toNat = true ∧
        r.next.getLsbD (agentId p a).toNat = false) →
    reqAux0 f ≠ b.epoch.getLsbD 0 → b.nextCount.toNat + 1 < b.target.toNat →
    c = { b with nextCount := b.nextCount + 1 } →
    ∃ u cs,
      (op ≠ .arriveReduce → cs = [(e.part, 0)] ∧ u.earlyOf (opKey e) = s.earlyOf (opKey e)) ∧
      (op = .arriveReduce →
        (cs = [(e.part, 21 + b.fmt.toNat), (e.part, 1)] ∨ cs = [(e.part, 33), (e.part, 21 + b.fmt.toNat), (e.part, 1)]) ∧
        (u.earlyOf (opKey e)).map (·.acc) = some (barrierFold b (s.earlyOf (opKey e)).isSome
          (((s.earlyOf (opKey e)).map (·.acc)).getD 0) f.payload)) ∧
      (op ≠ .arriveWait →
        Performs i e ⟨h, .barrier b⟩ .ok ((b.epoch + 1).setWidth 64) none (.barrier c) cs [.records, .early] s u) ∧
      (op = .arriveWait → Parks i e ⟨h, .barrier b⟩ (.barrier c) { waiterOf e (opKey e) s with parity := reqAux0 f }
        cs [.records, .early] s u) ∧
      u.record (opKey e) = (s.record (opKey e)).map fun r => { r with next := setBit r.next (agentId p a).toNat }) ∧
  ∀ (e : OpEntry) (s : State), e.mergeable = true → s.frozen = false →
    (∀ m, s.opr.merges.find? (fun m => m.takes e s.now) = some m →
      (countBank e s).gctr 0 = s.gctr 0 ∧ (countBank e s).gctr 7 = s.gctr 7 + (if m.many then 0 else 1)) ∧
    (s.opr.merges.find? (fun m => m.takes e s.now) = none →
      (countBank e s).gctr 0 = s.gctr 0 + 1 ∧ (countBank e s).gctr 7 = s.gctr 7) ∧
    (∀ d, opKey d = opKey e → reqAux0 d.req = reqAux0 e.req → d.at_ = e.at_ →
      (agentPort e.agent).toNat < (agentPort d.agent).toNat →
      (countBank e s).opr.merges.any (fun m => m.takes d s.now) = true) ∧
    Frame [.merges, .gctr] s (countBank e s)

/-- R84, R86, R87 and R91: arrivals that change no count: a second arrival of a member in one epoch, an agent outside the roster, one early arrival too many, and an `ARRIVE_REDUCE` whose format, operation or operand does not fit are refused; a late one is told `PARTIAL_RELEASE`. -/
def Obligations.ArrivalsRefused : Prop :=
  ∀ (p : PortNo) (a : LocalAgent) (f : Req) (h : ObjHdr) (b : Barrier) (s : State) (e : OpEntry) (i : Instr) (op : Op),
    (i = .arrive p a f ∧ op = .arrive ∨ i = .arriveReduce p a f ∧ op = .arriveReduce ∨
      i = .arriveWait p a f ∧ op = .arriveWait) →
    OpReady p a op f ⟨h, .barrier b⟩ s → e = entered p a op f none s →
    (op = .arriveReduce → reduceOk b f = false → Refuses i e ⟨h, .barrier b⟩ .formatError s) ∧
    ((op = .arriveReduce → reduceOk b f = true) →
      (∀ r, s.record (opKey e) = some r → r.roster.getLsbD (agentId p a).toNat = false →
        Refuses i e ⟨h, .barrier b⟩ .rangeError s) ∧
      (∀ r, s.record (opKey e) = some r → r.roster.getLsbD (agentId p a).toNat = true →
        reqAux0 f = b.epoch.getLsbD 0 → r.cur.getLsbD (agentId p a).toNat = true →
        Refuses i e ⟨h, .barrier b⟩ .rangeError s) ∧
      (∀ r, s.record (opKey e) = some r → r.roster.getLsbD (agentId p a).toNat = true →
        reqAux0 f ≠ b.epoch.getLsbD 0 → r.cur.getLsbD (agentId p a).toNat = true →
        r.next.getLsbD (agentId p a).toNat = true → Refuses i e ⟨h, .barrier b⟩ .rangeError s) ∧
      (s.record (opKey e) = none → reqAux0 f ≠ b.epoch.getLsbD 0 → b.target.toNat ≤ b.nextCount.toNat + 1 →
        Refuses i e ⟨h, .barrier b⟩ .rangeError s) ∧
      (∀ r, s.record (opKey e) = some r → r.roster.getLsbD (agentId p a).toNat = true →
        reqAux0 f ≠ b.epoch.getLsbD 0 → r.cur.getLsbD (agentId p a).toNat = false →
        ∃ u, Performs i e ⟨h, .barrier b⟩ .partialRel
          (if op = .arriveWait then b.result else (b.epoch - 1).setWidth 64) none (.barrier b)
          [(e.part, if op = .arriveReduce then 1 else 0)] [] s u))

/-- R83, R86, R89 and R106: the arrival that brings the count to `TARGET` releases the epoch of a barrier that has no tree and no watch; the contribution of an `ARRIVE_REDUCE` is folded in before the result is stored. The word and the record begin the next epoch from what the early arrivals left, the deadline of the epoch goes, `BARRIER_RELEASE` counts, and the waiters of the epoch's parity are woken with `OK` and the result. -/
def Obligations.BarrierReleases : Prop :=
  ∀ (p : PortNo) (a : LocalAgent) (f : Req) (h : ObjHdr) (b c : Barrier) (s : State) (e : OpEntry) (i : Instr) (op : Op),
    (i = .arrive p a f ∧ op = .arrive ∨ i = .arriveReduce p a f ∧ op = .arriveReduce ∨
      i = .arriveWait p a f ∧ op = .arriveWait) →
    OpReady p a op f ⟨h, .barrier b⟩ s → e = entered p a op f none s →
    (op = .arriveReduce → reduceOk b f = true) →
    (∀ r, s.record (opKey e) = some r →
      r.roster.getLsbD (agentId p a).toNat = true ∧ r.cur.getLsbD (agentId p a).toNat = false) →
    reqAux0 f = b.epoch.getLsbD 0 → b.curCount + 1 = b.target →
    s.treeOf (opKey e) = none → s.watchOf (opKey e) = none →
    c = { b with
      curCount := b.curCount + 1
      acc := if op = .arriveReduce then barrierFold b b.accValid b.acc f.payload else b.acc
      accValid := b.accValid || decide (op = .arriveReduce) } →
    ∃ u hd cs, exec i s = .next (finish e .ok (if op = .arriveWait then resultOf c else b.epoch.setWidth 64) none
        (wakeAll ((s.waitersOf (opKey e)).filter fun w => decide (w.parity = b.epoch.getLsbD 0)) .ok (resultOf c)
          (e.agent, e.node, 0) u)) ∧
      (op ≠ .arriveReduce → cs = [(e.part, 3), (e.part, 0)]) ∧
      (op = .arriveReduce → cs = [(e.part, 3), (e.part, 21 + b.fmt.toNat), (e.part, 1)] ∨
        cs = [(e.part, 3), (e.part, 33), (e.part, 21 + b.fmt.toNat), (e.part, 1)]) ∧
      u.obj (opKey e) = some ⟨hd, .barrier { b with
        result := resultOf c, epoch := b.epoch + 1, curCount := b.nextCount, nextCount := 0
        acc := ((s.earlyOf (opKey e)).map (·.acc)).getD 0, accValid := (s.earlyOf (opKey e)).isSome
        lastPartial := false, missCount := 0, hold := false
        dlArmed := (s.deadlineOf (opKey e) (b.epoch + 1)).isSome }⟩ ∧
      u.record (opKey e) = (s.record (opKey e)).map (fun r =>
        { r with lastMissing := 0, cur := r.next, next := 0 }) ∧
      u.wmc.waiters = s.wmc.waiters.filter (fun w => decide (¬(w.key = opKey e ∧ w.parity = b.epoch.getLsbD 0))) ∧
      u.tdu.deadlines = s.tdu.deadlines.filter (fun d => decide (¬(d.key = opKey e ∧ d.epoch = b.epoch))) ∧
      AtObject e cs [.records, .early, .deadlines, .waiters] s u

/-- R86, R94 and R95: `WAIT` with the parity of the current epoch parks; with the other it completes with the last release's status and result, on a group with zero. Arrivals on a group: outside it or twice is refused; one of the first K - 1 sets its bit; the K-th releases the epoch of a group without a watch, and wakes the waiters of its parity with the arrived members; an early one waits for the next epoch; a late one counts in none. `ARRIVE` replies the epoch that it counts in; `ARRIVE_WAIT` parks, or completes with the release, or, late, with zero. -/
def Obligations.WaitsAndGroups : Prop :=
  (∀ (p : PortNo) (a : LocalAgent) (f : Req) (o : Obj) (s : State) (e : OpEntry) (par : Bool),
     OpReady p a .wait f o s → e = entered p a .wait f none s →
     ((∃ b, o.body = .barrier b ∧ par = b.epoch.getLsbD 0) ∨ ∃ g, o.body = .group g ∧ par = g.epoch.getLsbD 0) →
     (reqAux0 f = par →
       ∃ u, Parks (.wait p a f) e o o.body { waiterOf e (opKey e) s with parity := par } [(e.part, 2)] [] s u) ∧
     (∀ b, o.body = .barrier b → reqAux0 f ≠ par →
       ∃ u, Performs (.wait p a f) e o (if b.lastPartial then .partialRel else .ok) b.result none o.body [(e.part, 2)] [] s u) ∧
     (∀ g, o.body = .group g → reqAux0 f ≠ par →
       ∃ u, Performs (.wait p a f) e o .ok 0 none o.body [(e.part, 2)] [] s u)) ∧
  (∀ (p : PortNo) (a : LocalAgent) (f : Req) (h : ObjHdr) (g g' : Group) (s : State) (e : OpEntry) (n : Nat) (cur : Bool)
     (i : Instr) (op : Op) (w : Waiter),
     (i = .arrive p a f ∧ op = .arrive ∨ i = .arriveWait p a f ∧ op = .arriveWait) →
     OpReady p a op f ⟨h, .group g⟩ s → e = entered p a op f none s → n = (agentId p a).toNat % 64 →
     cur = decide (reqAux0 f = g.epoch.getLsbD 0) → g' = { g with arrived := setBit g.arrived n } →
     w = { waiterOf e (opKey e) s with parity := reqAux0 f } →
     (g.enrolled.getLsbD n = false → Refuses i e ⟨h, .group g⟩ .rangeError s) ∧
     (g.enrolled.getLsbD n = true →
       (g.arrived.getLsbD n = true → cur = true ∨ g.nextArrived.getLsbD n = true →
         Refuses i e ⟨h, .group g⟩ .rangeError s) ∧
       (g.arrived.getLsbD n = false → cur = true → popcount g'.arrived ≠ g.k.toNat →
         (op = .arrive → ∃ u, Performs i e ⟨h, .group g⟩ .ok (g.epoch.setWidth 64) none (.group g') [(e.part, 0)] [] s u) ∧
         (op = .arriveWait → ∃ u, Parks i e ⟨h, .group g⟩ (.group g') w [(e.part, 0)] [] s u)) ∧
       (g.arrived.getLsbD n = false → cur = true → popcount g'.arrived = g.k.toNat → s.watchOf (opKey e) = none →
         ∃ u hd, exec i s = .next (finish e .ok (if op = .arriveWait then g'.arrived else g.epoch.setWidth 64) none
             (wakeAll ((s.waitersOf (opKey e)).filter fun w => decide (w.parity = g.epoch.getLsbD 0)) .ok g'.arrived
               (e.agent, e.node, 0) u)) ∧
           u.obj (opKey e) = some ⟨hd, .group { g with
             epoch := g.epoch + 1, arrived := g.nextArrived, nextArrived := 0 }⟩ ∧
           u.wmc.waiters = s.wmc.waiters.filter (fun w => decide (¬(w.key = opKey e ∧ w.parity = g.epoch.getLsbD 0))) ∧
           AtObject e [(e.part, 3), (e.part, 0)] [.waiters] s u) ∧
       (g.arrived.getLsbD n = true → cur = false → g.nextArrived.getLsbD n = false →
         (op = .arrive → ∃ u, Performs i e ⟨h, .group g⟩ .ok ((g.epoch + 1).setWidth 64) none
           (.group { g with nextArrived := setBit g.nextArrived n }) [(e.part, 0)] [] s u) ∧
         (op = .arriveWait → ∃ u, Parks i e ⟨h, .group g⟩ (.group { g with nextArrived := setBit g.nextArrived n }) w
           [(e.part, 0)] [] s u)) ∧
       (g.arrived.getLsbD n = false → cur = false →
         ∃ u, Performs i e ⟨h, .group g⟩ .ok (if op = .arriveWait then 0 else (g.epoch - 1).setWidth 64) none (.group g)
           [(e.part, 0)] [] s u)))

/-- R96 and R97: `DEADLINE_ARM` replaces the deadline of the epoch that it names by parity, and sets `DL_ARMED` for the current one: it completes with `OK` on a barrier that has an arrival record and is in no tree or is its root. Without a record, on a tree node that is not the root, or with 64 deadlines at the same TIME it is refused. -/
def Obligations.DeadlineArms : Prop :=
  ∀ (p : PortNo) (a : LocalAgent) (f : Req) (h : ObjHdr) (b : Barrier) (s : State) (e : OpEntry) (ep : BitVec 16) (due : Nat),
    OpReady p a .deadlineArm f ⟨h, .barrier b⟩ s → e = entered p a .deadlineArm f none s →
    ep = (if reqAux0 f = b.epoch.getLsbD 0 then b.epoch else b.epoch + 1) →
    due = (if f.aux.getLsbD 1 then min (s.now + f.payload.toNat) (2 ^ 64 - 1) else f.payload.toNat) →
    (s.record (opKey e) = none → Refuses (.deadlineArm p a f) e ⟨h, .barrier b⟩ .rangeError s) ∧
    ((s.record (opKey e)).isSome = true → h.tree = true →
      (∀ i t, s.treeOf (opKey e) = some (i, t) → t.root = false) →
      Refuses (.deadlineArm p a f) e ⟨h, .barrier b⟩ .rangeError s) ∧
    ((s.record (opKey e)).isSome = true →
      (h.tree = false ∨ ∃ i t, s.treeOf (opKey e) = some (i, t) ∧ t.root = true) →
      (64 ≤ (s.tdu.deadlines.filter fun d => decide (d.due = due)).length →
        Refuses (.deadlineArm p a f) e ⟨h, .barrier b⟩ .rangeError s) ∧
      ((s.tdu.deadlines.filter fun d => decide (d.due = due)).length < 64 →
        ∃ u, Performs (.deadlineArm p a f) e ⟨h, .barrier b⟩ .ok 0 none
            (.barrier (if reqAux0 f = b.epoch.getLsbD 0 then { b with dlArmed := true } else b)) [] [.deadlines] s u ∧
          u.tdu.deadlines = s.tdu.deadlines.filter (fun d => decide (¬(d.key = opKey e ∧ d.epoch = ep))) ++
            [⟨opKey e, ep, due⟩]))

/-- R142, R146 to R148, R150 and R152 to R154: what the four operations of a local agent do on a token ring with no remote window, no pad and nobody waiting on it. -/
def Obligations.Rings : Prop :=
  ∀ (p : PortNo) (a : LocalAgent) (f : Req) (h : ObjHdr) (rg : Ring) (s : State) (e : OpEntry) (n : Nat) (d : Desc) (op : Op),
    OpReady p a op f ⟨h, .ring rg⟩ s → e = entered p a op f none s →
    s.descOf (opKey e) = some (n, d) → tget s.trk.descs n = some d → d.win = none → d.padValid = false →
    s.waitersOf (opKey e) = [] →
    (op = .reserve →
      (reqOperand f = 0 ∨ (reqOperand f).toNat % d.gran ≠ 0 ∨ d.size < (reqOperand f).toNat →
        Refuses (.reserve p a f) e ⟨h, .ring rg⟩ .rangeError s) ∧
      (reqOperand f ≠ 0 → (reqOperand f).toNat % d.gran = 0 → (reqOperand f).toNat ≤ d.size →
        ((reqOperand f).toNat ≤ d.free → d.span.toNat < 64 →
          ∃ u, Performs (.reserve p a f) e ⟨h, .ring rg⟩ .ok
              (0#2 ++ (d.oldest + d.span.setWidth 6) ++ reqOperand f ++ d.rsv)
              (some (.reserve (opKey e) none (0#2 ++ (d.oldest + d.span.setWidth 6) ++ reqOperand f ++ d.rsv)))
              (.ring rg) [(e.part, 12)] [.descs] s u ∧
            tget u.trk.descs n = some { d with
              rsv := d.rsv + (reqOperand f).setWidth 32, span := d.span + 1
              recs := d.recs ++ [⟨d.oldest + d.span.setWidth 6, d.rsv, reqOperand f, agentId p a, s.fab.nodeId, 0,
                false, false, false⟩] } ∧
            ∀ m, m ≠ n → tget u.trk.descs m = tget s.trk.descs m) ∧
        (d.free < (reqOperand f).toNat ∨ 64 ≤ d.span.toNat → reqAux0 f = true →
          ∃ u, Performs (.reserve p a f) e ⟨h, .ring rg⟩ .wouldBlock 0 none (.ring rg) [] [] s u) ∧
        (d.free < (reqOperand f).toNat ∨ 64 ≤ d.span.toNat → reqAux0 f = false →
          ∃ u, Parks (.reserve p a f) e ⟨h, .ring rg⟩ (.ring rg) (waiterOf e (opKey e) s) [] [] s u))) ∧
    (op = .commit →
      (d.commitRec f.payload = none → Refuses (.commit p a f) e ⟨h, .ring rg⟩ .rangeError s) ∧
      (∀ r, d.commitRec f.payload = some r → r.node = s.fab.nodeId →
        ∃ u, Performs (.commit p a f) e ⟨h, .ring rg⟩ .ok 0 none (.ring rg) [(e.part, 13)] [.descs] s u ∧
          tget u.trk.descs n = some (runCmt (markRec d r.slot fun r => { r with committed := true })) ∧
          (d.recs = [r] → r.start = d.cmt → tget u.trk.descs n =
            some { d with cmt := d.cmt + r.len.setWidth 32, recs := [], oldest := d.oldest + d.span.setWidth 6, span := 0 }) ∧
          ∀ m, m ≠ n → tget u.trk.descs m = tget s.trk.descs m)) ∧
    (op = .waitAvail → d.lenOk (d.want (reqOperand f)) = false → Refuses (.waitAvail p a f) e ⟨h, .ring rg⟩ .rangeError s) ∧
    (op = .waitAvail → d.lenOk (d.want (reqOperand f)) = true →
      (d.want (reqOperand f) ≤ (d.cmt - d.head).toNat →
        ∃ u, Performs (.waitAvail p a f) e ⟨h, .ring rg⟩ .ok (0#7 ++ BitVec.ofNat 25 (d.cmt - d.head).toNat ++ d.head) none
          (.ring rg) [(e.part, 14)] [] s u) ∧
      ((d.cmt - d.head).toNat < d.want (reqOperand f) → reqAux0 f = true →
        ∃ u, Performs (.waitAvail p a f) e ⟨h, .ring rg⟩ .wouldBlock 0 none (.ring rg) [(e.part, 14)] [] s u) ∧
      ((d.cmt - d.head).toNat < d.want (reqOperand f) → reqAux0 f = false →
        ∃ u, Parks (.waitAvail p a f) e ⟨h, .ring rg⟩ (.ring rg) (waiterOf e (opKey e) s) [(e.part, 14)] [] s u)) ∧
    (op = .release →
      (f.payload = 0 ∨ f.payload.toNat % d.gran ≠ 0 ∨ (d.cmt - d.head).toNat < f.payload.toNat →
        Refuses (.release p a f) e ⟨h, .ring rg⟩ .rangeError s) ∧
      (f.payload ≠ 0 → f.payload.toNat % d.gran = 0 → f.payload.toNat ≤ (d.cmt - d.head).toNat →
        ∃ u, Performs (.release p a f) e ⟨h, .ring rg⟩ .ok 0 none (.ring rg) [(e.part, 14)] [.descs] s u ∧
          tget u.trk.descs n = some { d with head := d.head + f.payload.setWidth 32 } ∧
          ∀ m, m ≠ n → tget u.trk.descs m = tget s.trk.descs m))

/-- R180 and R185: `LAND_EXPECT` arms the counter under its `XFER_TAG`, unless the count is zero, the counter armed or frozen, or the tag taken; `SIGNAL_AFTER_LANDED` queues an entry, posted at once when the counter is not armed, and is answered with its op table entry freed at once (R15). -/
def Obligations.Landings : Prop :=
  ∀ (p : PortNo) (a : LocalAgent) (f : Req) (h : ObjHdr) (l : Landing) (s : State) (e : OpEntry),
    (OpReady p a .landExpect f ⟨h, .landing l⟩ s → e = entered p a .landExpect f none s →
      (f.payload.setWidth 48 = (0 : BitVec 48) ∨ l.underflow = true ∨ l.armed = true ∨
          (∃ x ∈ s.lcu.index, x.part = e.part ∧ x.tag = l.xferTag) →
        Refuses (.landExpect p a f) e ⟨h, .landing l⟩ .rangeError s) ∧
      (f.payload.setWidth 48 ≠ (0 : BitVec 48) → l.underflow = false → l.armed = false →
        (∀ x ∈ s.lcu.index, ¬(x.part = e.part ∧ x.tag = l.xferTag)) →
        s.lcu.index.length < Config.armingEntries →
        ∃ u, Performs (.landExpect p a f) e ⟨h, .landing l⟩ .ok 0 none
            (.landing { l with remain := f.payload.setWidth 48, armed := true }) [(e.part, 15)] [.arming, .parts] s u ∧
          u.lcu.index = s.lcu.index ++ [⟨e.part, l.xferTag, opKey e, 0⟩] ∧
          u.part e.part = { s.part e.part with
            secCount := (s.part e.part).secCount + if l.sectn then 1 else 0 } ∧
          ∀ q, q ≠ e.part → u.part q = s.part q)) ∧
    (OpReady p a .signalAfterLanded f ⟨h, .landing l⟩ s → e = entered p a .signalAfterLanded f none s →
      (f.payload.extractLsb' 28 16 ≠ s.fab.nodeId ∨ l.underflow = true ∨ l.heldCount = 4096 →
        Refuses (.signalAfterLanded p a f) e ⟨h, .landing l⟩ .rangeError s) ∧
      (f.payload.extractLsb' 28 16 = s.fab.nodeId → l.underflow = false → l.heldCount ≠ 4096 →
        ∃ u hd, exec (.signalAfterLanded p a f) s = .next (answerFreed e 0 0 (traceOp e 0 0 u)) ∧
          u.lcu.held = s.lcu.held ++ [⟨opKey e, ⟨e.part, f.payload.extractLsb' 20 8, f.payload.extractLsb' 0 20⟩,
            e.agent, e.node, false, 0, s.accNo (opKey e), !l.armed, false⟩] ∧
          u.obj (opKey e) = some ⟨hd, .landing
            { l with heldCount := if l.armed then l.heldCount + 1 else l.heldCount }⟩ ∧ (l.armed = true → hd.held = true) ∧
          (∀ n, n ≠ s.slot (opKey e) → n ≠ s.slot ⟨e.part, f.payload.extractLsb' 20 8, f.payload.extractLsb' 0 20⟩ →
            tget u.obk.rows n = tget s.obk.rows n) ∧
          u.opr.ops = s.opr.ops ++ [e] ∧ (∀ q, u.ap q = s.ap q) ∧ Counted [(e.part, 15)] s u ∧
          Frame [.aps, .ops, .rows, .counters, .gctr, .heldq] s u))

/-- R15, R62, R71 and R72: an operation that completes here queues one `REPLY` on its agent's port with its status, operands and payload; with `NOREPLY` it says nothing, but a failure is reported and counted. The reply of an operation that another unit has taken over names no op table entry: that is free at once. -/
def Obligations.Answers : Prop :=
  ∀ (e : OpEntry) (st : Status) (pay : DWord) (u : State) (p : PortNo), e.txid = none → p = agentPort e.agent →
    (u.ap p).dropping (agentLocal e.agent) = false →
    (e.req.noReply = false →
      (finish e st pay none u).ap p = { u.ap p with
        rsp := (u.ap p).rsp ++ [{
          kind := .reply, block := 0, status := st.code, ctx := e.req.ctx, node := e.req.node, index := e.req.index
          opcode := e.op.code, payload := if st = .timedOut ∨ 8 ≤ st.code.toNat then 0 else pay
          agent := agentLocal e.agent, value := 0, inv := e.req.invHint
          token := if e.req.invHint then reqToken e.req else 0, entry := some e.id, accepted := true
          part := some e.part, grant := none, waits := [], cause := (0, 0, 0) }] } ∧
      (finish e st pay none u).opr.ops =
        mapFirst (fun x => decide (x.id = e.id)) (fun x => { x with st := .replying }) u.opr.ops ∧
      Frame [.aps, .ops, .counters, .gctr, .wins, .trace] u (finish e st pay none u)) ∧
    (e.req.noReply = true →
      (finish e st pay none u).ap p = u.ap p ∧
      (finish e st pay none u).opr.ops = dropFirst (fun x => decide (x.id = e.id)) u.opr.ops ∧
      (st.code.toNat < 8 → Frame [.ops, .counters, .gctr, .wins, .trace] u (finish e st pay none u)) ∧
      (8 ≤ st.code.toNat → Frame [.ops, .counters, .gctr, .wins, .trace, .rake, .irq] u (finish e st pay none u) ∧
        (u.frozen = false → (finish e st pay none u).gctr 41 = u.gctr 41 + 1))) ∧
    (∀ q, q ≠ p → (finish e st pay none u).ap q = u.ap q) ∧
    (e.req.noReply = false →
      (answerFreed e st.code pay u).ap p = { u.ap p with
        rsp := (u.ap p).rsp ++ [{ replyRsp e st.code pay none with entry := none }] }) ∧
    (e.req.noReply = true → (answerFreed e st.code pay u).ap p = u.ap p) ∧
    (∀ q, q ≠ p → (answerFreed e st.code pay u).ap q = u.ap q) ∧
    (answerFreed e st.code pay u).opr.ops = dropFirst (fun x => decide (x.id = e.id)) u.opr.ops ∧
    Frame [.aps, .ops] u (answerFreed e st.code pay u)

/-- R69, R352 and R353: `FENCE` enters the op table and waits; its completion answers it once it is the oldest of its agent and no reply of an earlier operation waits at the port; `SET_TAG` and `SECTION_MARK` complete at the bind stage. The model's reading in it (log 16): those two hold an op table entry until their reply leaves. -/
def Obligations.Fences : Prop :=
  ∀ (p : PortNo) (a : LocalAgent) (f : Req) (s : State),
    (PortReady p a s → (s.ap p).casFirst = none → BindReady p a .fence f none s →
      ∃ t, exec (.fence p a f) s = .next t ∧ t.opr.ops = s.opr.ops ++ [entered p a .fence f none s] ∧
        (entered p a .fence f none s).st = .fence ∧ (∀ q, t.ap q = s.ap q) ∧ Frame [.aps, .ops, .gctr] s t) ∧
    (∀ e, s.obs.hobble.state.toNat < 2 →
      s.opr.ops.find? (fun x => decide (x.agent = agentId p a) && x.txid.isNone) = some e →
      (e.st = .fence → s.replyQueued (agentId p a) = false →
        exec (.fenceComplete (agentId p a)) s = .next (pump (finish e .ok 0 none (count e.part 20 s)))) ∧
      (e.st ≠ .fence ∨ s.replyQueued (agentId p a) = true → exec (.fenceComplete (agentId p a)) s = .next s)) ∧
    (∀ e, PortReady p a s → (s.ap p).casFirst = none → BindReady p a .setTag f none s → e = entered p a .setTag f none s →
      ∃ u, exec (.setTag p a f) s = .next (finish e .ok 0 none u) ∧ u.opr.ops = s.opr.ops ++ [e] ∧
        u.bind (agentId p a) = { s.bind (agentId p a) with tag := f.payload.setWidth 32 } ∧
        (∀ b, b ≠ agentId p a → u.bind b = s.bind b) ∧ (∀ q, u.ap q = s.ap q) ∧
        Counted [(e.part, 20)] s u ∧ Frame [.aps, .ops, .counters, .gctr, .binds] s u) ∧
    (∀ e, PortReady p a s → (s.ap p).casFirst = none → BindReady p a .sectionMark f none s →
      e = entered p a .sectionMark f none s → s.obs.trace.en = false →
      ∃ u, exec (.sectionMark p a f) s = .next (finish e .ok 0 none u) ∧ u.opr.ops = s.opr.ops ++ [e] ∧
        (∀ q, u.ap q = s.ap q) ∧ Counted [(e.part, 20)] s u ∧ Frame [.aps, .ops, .counters, .gctr] s u)

/-- R51, R55, R56, R62 and R386: the fields of a request flit are those of R56; a flit without a credit is reported and dropped; a flit of an agent that is bound nowhere is reported and refused with `ACCESS_DENIED`; a flit that breaks an encoding rule is refused with `FORMAT_ERROR` and takes no op table entry. Such a reply names no context where the opcode names no object. The model's choice in it (log 13): the fields of the `NO_CREDIT` report. -/
def Obligations.BindChecks : Prop :=
  ∀ (p : PortNo) (a : LocalAgent) (code : Byte) (f : Req) (s : State) (st : Status),
    (s.apReady p = true → (s.ap p).reqCredits = 0 →
      exec (.requestFlitWithoutCredit p a code f) s = .next (report .noCredit .apa none (agentId p a) 0 0 0 s)) ∧
    (PortReady p a s → (s.ap p).casFirst = none → code ≠ 0x40 →
      (((s.bind (agentId p a)).valid = false ∧ st = .accessDenied) ∨
        ((s.bind (agentId p a)).valid = true ∧ s.draining (s.bind (agentId p a)).part = false ∧
          s.heldBehind p (s.bind (agentId p a)).part = false ∧ st = .formatError ∧
          (∀ op, opOf code = some op → flitOk op f none = false))) →
      ∃ t, exec (.requestFlitWithoutCredit p a code f) s = .next t ∧
        (t.ap p).reqCredits = (s.ap p).reqCredits ∧ (t.ap p).ingress = [] ∧
        (∃ r, (t.ap p).rsp = (s.ap p).rsp ++ [r] ∧ r.kind = .reply ∧ r.status = st.code ∧ r.opcode = code ∧
          r.ctx = (if ((opOf code).map Op.noObject).getD false then 0 else f.ctx) ∧ r.node = f.node ∧ r.index = f.index ∧ r.payload = 0 ∧ r.agent = a ∧ r.entry = none) ∧
        (∀ q, q ≠ p → t.ap q = s.ap q) ∧
        t.gctr 41 = s.gctr 41 + (if (s.bind (agentId p a)).valid then 0 else 1) ∧
        Frame [.aps, .counters, .wins, .gctr, .rake, .irq] s t) ∧
    (∀ w : BitVec 128, flitWord (flitCode w) (flitReq w) = w) ∧ flitCode (flitWord code f) = code ∧
    flitReq (flitWord code f) = f

/-- R51, R62, R64, R70 and R297: a credit returns; a response of a partition whose outputs a startup keeps closed stays; a response leaves with one credit, a reply frees its op table entry; a notice goes first, then wakes before replies, but no more than three wakes in a row past a waiting reply. -/
def Obligations.Responses : Prop :=
  ∀ (p : PortNo) (s : State), s.apReady p = true →
    (∃ t, exec (.responseCredit p) s = .next t ∧
      t.ap p = { s.ap p with
        rspCredits := if (s.ap p).rspCredits < 64 then (s.ap p).rspCredits + 1 else (s.ap p).rspCredits } ∧
      (∀ q, q ≠ p → t.ap q = s.ap q) ∧ Frame [.aps] s t) ∧
    (∀ r, s.obs.hobble.state.toNat < 2 → 0 < (s.ap p).rspCredits → pickRsp (s.openRsps p) = some r →
      ∃ t, exec (.responsePresent p) s = .next t ∧ (t.ap p).out = some r ∧
        (t.ap p).rsp = dropFirst (fun x => decide (x = r)) (s.ap p).rsp ∧
        (t.ap p).rspCredits = (s.ap p).rspCredits - 1 ∧
        (t.ap p).ingress = (s.ap p).ingress ∧ (t.ap p).reqCredits = (s.ap p).reqCredits ∧
        (∀ q, q ≠ p → t.ap q = s.ap q) ∧
        t.opr.ops = (match r.entry with
          | some n => dropFirst (fun x => decide (x.id = n)) s.opr.ops
          | none => s.opr.ops) ∧
        t.gctr 9 = s.gctr 9 + 1 ∧ Frame [.aps, .ops, .counters, .gctr, .trace] s t) ∧
    ((∀ r ∈ (s.ap p).rsp, s.rspShut p r = true) → exec (.responsePresent p) s = .next s) ∧
    ((∃ r ∈ (s.ap p).rsp, r.kind = .notice) → ∃ r, pickRsp (s.ap p) = some r ∧ r.kind = .notice) ∧
    (∀ r l, (∀ x ∈ (s.ap p).rsp, x.kind ≠ .notice) → (s.ap p).rsp = r :: l →
      (r.kind = .wake ∨ r.kind = .wakeVec → (s.ap p).wakeRun < 3 ∨ (∀ x ∈ l, x.kind ≠ .reply) →
        pickRsp (s.ap p) = some r) ∧
      (r.kind = .reply → 3 ≤ (s.ap p).wakeRun ∨ (∀ x ∈ l, x.kind = .reply) → pickRsp (s.ap p) = some r))

/-- R74 to R76: an op table entry that has become free goes to the flit at the head of the port whose turn it is: the flit leaves the ingress buffer, its credits return, and the port after it is next. -/
def Obligations.EntryGrants : Prop :=
  ∀ (p : PortNo) (f : Flit) (op : Op) (s : State), s.running = true → s.obs.hobble.state = 0 → p.toNat = s.opr.rr →
    (∀ g ∈ (s.ap p).hold, s.draining (s.bind (agentId p g.agent)).part = true) →
    (s.ap p).ingress = [f] → f.code = op.code → BindReady p f.agent op f.req f.cont s →
    ∃ t, exec .opTableEntryGrant s = .next ((List.range 8).foldl (fun x i =>
        feedFab (BitVec.ofNat 3 i) (x.fp (BitVec.ofNat 3 i)).rxHeld.length x) t) ∧
      t = (acceptOp p op f ((s.portPool p (s.bind (agentId p f.agent)).part).getD .shared)
        (popIngress p f s)).modOpr (fun o => { o with rr := (p.toNat + 1) % 16 }) ∧
      ((popIngress p f s).ap p).ingress = [] ∧
      ((popIngress p f s).ap p).reqCredits = (s.ap p).reqCredits + (if f.cont.isSome then 2 else 1)

/-- R77, R79 and R80: a notification drops what the agent still has before the bind stage, with its credits; for an agent that is bound nowhere it drops nothing; with four others in processing it is reported. Processing acknowledges a notification that has nothing to do at once, and another once nothing of its agent is left. The model's choice in it (log 13): the fields of the `RESET_WINDOW` report. -/
def Obligations.AgentResets : Prop :=
  ∀ (p : PortNo) (a : LocalAgent) (s : State), s.apReady p = true →
    (4 ≤ ((s.ap p).arst.filter (!·.unbind)).length →
      exec (.agentResetNotification p a) s = .next (report .resetWindow .apa none (agentId p a) 0 0 0 s)) ∧
    (((s.ap p).arst.filter (!·.unbind)).length < 4 → (∀ r ∈ (s.ap p).arst, r.agent ≠ a) →
      ((s.bind (agentId p a)).valid = false →
        ∃ t, exec (.agentResetNotification p a) s = .next t ∧
          t.ap p = { s.ap p with arst := (s.ap p).arst ++ [⟨a, false, true, true, []⟩] } ∧
          (∀ q, q ≠ p → t.ap q = s.ap q) ∧ Frame [.aps] s t) ∧
      ((s.bind (agentId p a)).valid = true → (∀ f ∈ (s.ap p).ingress, f.agent = a) → (s.ap p).rsp = [] →
        ∃ t, exec (.agentResetNotification p a) s = .next t ∧
          (t.ap p).ingress = [] ∧ (t.ap p).hold = (s.ap p).hold.filter (fun f => decide (f.agent ≠ a)) ∧
          (t.ap p).casFirst = (s.ap p).casFirst.filter (fun f => decide (f.agent ≠ a)) ∧
          (t.ap p).reqCredits = (s.ap p).reqCredits + (((s.ap p).ingress.map Flit.credits).sum +
            if ((s.ap p).casFirst.filter fun f => decide (f.agent = a)).isSome then 1 else 0) ∧
          (t.ap p).arst = (s.ap p).arst ++ [⟨a, false, true, false, []⟩] ∧
          (∀ q, q ≠ p → t.ap q = s.ap q) ∧
          t.obs.hobble = { s.obs.hobble with captured := s.obs.hobble.captured.filter fun c => decide (c ≠ .agent p a) } ∧
          Frame [.aps, .hobble] s t)) ∧
    (∀ idle l, (s.ap p).arst = ⟨a, false, true, idle, []⟩ :: l → (∀ x ∈ l, x.agent ≠ a) →
      (idle = true →
        ∃ t, exec (.agentResetProcess p a) s = .next t ∧ t.ap p = { s.ap p with arst := l, ack := some a } ∧
          (∀ q, q ≠ p → t.ap q = s.ap q) ∧ Frame [.aps] s t) ∧
      (idle = false → s.obs.hobble.state.toNat < 2 → s.opr.ops = [] → s.wmc.waiters = [] → s.wmc.rwaits = [] →
        (∀ x ∈ s.wmc.spillWakes, x.w.agent ≠ agentId p a) →
        (∀ x ∈ s.olu.holdings, x.agent ≠ agentId p a) → (∀ x ∈ s.fab.undo, x.agent ≠ agentId p a) → s.fab.inq = [] →
        ∃ t, exec (.agentResetProcess p a) s = .next t ∧ t.ap p = { s.ap p with arst := l, ack := some a } ∧
          (∀ q, q ≠ p → t.ap q = s.ap q) ∧ t.bind (agentId p a) = { s.bind (agentId p a) with tag := 0 } ∧
          (∀ b, b ≠ agentId p a → t.bind b = s.bind b) ∧ Frame [.aps, .binds] s t))

/-- R54 and R401: a binding entry is written as the word says, unless its agent is being unbound, it would move a bound agent to another partition, the partition is free, or agents of a strict and another partition would share a port. Clearing `VALID` starts the processing of an agent reset; binding to a draining partition tells the agent. -/
def Obligations.BindWrites : Prop :=
  ∀ (g : AgentId) (acc : CrAcc) (s : State) (b : Bind), s.running = true → s.slu.lc ≠ .retired → acc.priv = true →
    b = s.bind g →
    (b.busy = true ∨ (b.valid = true ∧ b.part ≠ acc.wdata.extractLsb' 0 6) ∨
        (acc.wdata.getLsbD 31 = true ∧
          ((s.part (acc.wdata.extractLsb' 0 6)).state = .free ∨ s.portConflict g (acc.wdata.extractLsb' 0 6) = true)) →
      ∃ t, exec (.apBindWrite g acc) s = .next t ∧ Frame [.crPort] s t) ∧
    (b.busy = false → b.valid = true → acc.wdata.getLsbD 31 = true → b.part = acc.wdata.extractLsb' 0 6 →
      (s.part b.part).state ≠ .free → s.portConflict g b.part = false →
      ∃ t, exec (.apBindWrite g acc) s = .next t ∧
        t.bind g = { b with maxPrio := acc.wdata.extractLsb' 8 3, mgmtEn := acc.wdata.getLsbD 16 } ∧
        (∀ x, x ≠ g → t.bind x = s.bind x) ∧ Frame [.binds, .crPort] s t) ∧
    (b.busy = false → b.valid = false → acc.wdata.getLsbD 31 = true →
      (s.part (acc.wdata.extractLsb' 0 6)).state ≠ .free → s.draining (acc.wdata.extractLsb' 0 6) = false →
      s.portConflict g (acc.wdata.extractLsb' 0 6) = false →
      ∃ t, exec (.apBindWrite g acc) s = .next t ∧
        t.bind g = { b with
          valid := true, part := acc.wdata.extractLsb' 0 6, maxPrio := acc.wdata.extractLsb' 8 3
          mgmtEn := acc.wdata.getLsbD 16, busy := false } ∧
        (∀ x, x ≠ g → t.bind x = s.bind x) ∧ Frame [.binds, .crPort] s t) ∧
    (b.busy = false → b.valid = false → acc.wdata.getLsbD 31 = true →
      (s.part (acc.wdata.extractLsb' 0 6)).state ≠ .free → s.draining (acc.wdata.extractLsb' 0 6) = true →
      s.portConflict g (acc.wdata.extractLsb' 0 6) = false →
      ∃ u, exec (.apBindWrite g acc) s =
          .next (pushNotice (agentPort g) (acc.wdata.extractLsb' 0 6) 1 [agentLocal g] u) ∧
        u.bind g = { b with
          valid := true, part := acc.wdata.extractLsb' 0 6, maxPrio := acc.wdata.extractLsb' 8 3
          mgmtEn := acc.wdata.getLsbD 16, busy := false } ∧
        (∀ x, x ≠ g → u.bind x = s.bind x) ∧ Frame [.binds, .crPort] s u) ∧
    (b.busy = false → b.valid = false → acc.wdata.getLsbD 31 = false →
      ∃ t, exec (.apBindWrite g acc) s = .next t ∧
        t.bind g = { b with
          part := acc.wdata.extractLsb' 0 6, maxPrio := acc.wdata.extractLsb' 8 3, mgmtEn := acc.wdata.getLsbD 16 } ∧
        (∀ x, x ≠ g → t.bind x = s.bind x) ∧ Frame [.binds, .crPort] s t) ∧
    (b.busy = false → b.valid = true → acc.wdata.getLsbD 31 = false → b.part = acc.wdata.extractLsb' 0 6 →
      ∃ u, exec (.apBindWrite g acc) s = .next (addReset (agentPort g) (agentLocal g) true u) ∧
        u.bind g = { b with
          valid := false, maxPrio := acc.wdata.extractLsb' 8 3, mgmtEn := acc.wdata.getLsbD 16, busy := true } ∧
        (∀ x, x ≠ g → u.bind x = s.bind x) ∧ Frame [.binds, .crPort] s u)

/-- R178, R179, R183 and R184: a sound notice posts its decrement and a malformed or unknown one is counted in `GCTR[36]` and posts none; the decrement lowers the counter, disarms it at zero, and freezes it when it is larger than what remains. -/
def Obligations.LandingNotices : Prop :=
  ∀ (ch : LnChan) (w : DWord) (s : State), s.running = true → s.obs.hobble.state = 0 →
    (∀ x h l, w.setWidth 32 ≠ (0 : BitVec 32) → w.extractLsb' 32 9 = (0 : BitVec 9) →
      s.armOf (w.extractLsb' 58 6) (w.extractLsb' 42 16) = some x →
      (s.ctx x.key.part x.key.ctx).state = .resident → s.obj x.key = some ⟨h, .landing l⟩ →
      l.countsWrites = w.getLsbD 41 → l.underflow = false →
      ∃ t, exec (.landingNotice ch w) s = .next t ∧
        t.lcu.decs = s.lcu.decs ++ [⟨x.key, w.setWidth 32, ch, w.extractLsb' 42 16⟩] ∧
        t.gctr 36 = s.gctr 36 + 1 ∧ Frame [.decs, .gctr] s t) ∧
    (w.setWidth 32 = (0 : BitVec 32) ∨ w.extractLsb' 32 9 ≠ (0 : BitVec 9) ∨
        s.armOf (w.extractLsb' 58 6) (w.extractLsb' 42 16) = none →
      ∃ t, exec (.landingNotice ch w) s = .next t ∧ t.gctr 36 = s.gctr 36 + 1 ∧ t.gctr 41 = s.gctr 41 + 1 ∧
        Frame [.counters, .wins, .gctr, .rake, .irq] s t) ∧
    (∀ d h l, s.nextDec = some d → s.obj d.key = some ⟨h, .landing l⟩ → l.underflow = false →
      (d.count.toNat < l.remain.toNat →
        ∃ u, exec .landingDecrement s = .next (pump u) ∧
          u.obj d.key = some ⟨h, .landing { l with remain := l.remain - BitVec.ofNat 48 d.count.toNat }⟩ ∧
          u.lcu.decs = dropFirst (fun x => decide (x = d)) s.lcu.decs ∧ Counted [(d.key.part, 16)] s u ∧
          SlotsBut d.key s u ∧ Frame [.decs, .rows, .counters, .gctr] s u) ∧
      (d.count.toNat = l.remain.toNat →
        ∃ u hd, exec .landingDecrement s = .next (pump u) ∧
          u.obj d.key = some ⟨hd, .landing { l with remain := 0, armed := false, heldCount := 0 }⟩ ∧
          u.lcu.index = s.lcu.index.filter (fun x => decide (x.key ≠ d.key)) ∧
          u.lcu.held = s.lcu.held.map (fun x => if x.land = d.key then { x with posted := true } else x) ∧
          u.part d.key.part = (if l.sectn then { s.part d.key.part with
              secCount := (s.part d.key.part).secCount - 1
              fenceLatch := (s.part d.key.part).fenceLatch || decide ((s.part d.key.part).secCount = 1) }
            else s.part d.key.part) ∧ (∀ q, q ≠ d.key.part → u.part q = s.part q) ∧
          Counted [(d.key.part, 16)] s u ∧ SlotsBut d.key s u ∧
          Frame [.decs, .rows, .counters, .gctr, .arming, .heldq, .parts] s u) ∧
      (l.remain.toNat < d.count.toNat →
        ∃ u, exec .landingDecrement s = .next (pump u) ∧
          u.obj d.key = some ⟨h, .landing { l with underflow := true }⟩ ∧ u.gctr 41 = s.gctr 41 + 1 ∧
          u.part d.key.part = (if l.sectn = true ∧ l.armed = false then { s.part d.key.part with
              secCount := (s.part d.key.part).secCount + 1 } else s.part d.key.part) ∧
          (∀ q, q ≠ d.key.part → u.part q = s.part q) ∧
          SlotsBut d.key s u ∧ Frame [.decs, .rows, .gctr, .rake, .irq, .parts] s u))

/-- R160 and R187: a posted held entry leaves the queue and signals its event, gives a unit to its semaphore, or commits its reservation; one whose target is gone or of another type is counted and reported. -/
def Obligations.HeldEntries : Prop :=
  ∀ (x : Held) (s : State), s.obs.hobble.state.toNat < 2 →
    (s.nextHeld false = some x → x.commit = false → checkKey x.target s = .ok → s.obs.trace.en = false →
      (∀ h v, s.obj x.target = some ⟨h, .event v⟩ → v.set = false →
        ∃ u hd, exec .heldSignalPerform s = .next (pump (count x.target.part 17 (count x.target.part 5
            (wakeAll (s.waitersOf x.target) .ok 0 (x.agent, x.node, 3) u)))) ∧
          u.obj x.target = some ⟨hd, .event ⟨true, x.agent, x.node, s.time64⟩⟩ ∧
          u.wmc.waiters = s.wmc.waiters.filter (fun w => decide (w.key ≠ x.target)) ∧
          u.lcu.held = dropFirst (fun y => decide (y = x)) s.lcu.held ∧
          Frame [.rows, .heldq, .waiters, .gctr] s u) ∧
      (∀ h v, s.obj x.target = some ⟨h, .semaphore v⟩ → v.count.toNat + 1 ≤ v.limit.toNat → s.waitersOf x.target = [] →
        ∃ u hd, exec .heldSignalPerform s = .next (pump u) ∧
          u.obj x.target = some ⟨hd, .semaphore { v with count := v.count + 1 }⟩ ∧
          u.lcu.held = dropFirst (fun y => decide (y = x)) s.lcu.held ∧
          Counted [(x.target.part, 17), (x.target.part, 7)] s u ∧ Frame [.rows, .heldq, .counters, .gctr] s u)) ∧
    (∀ c, s.nextHeld c = some x → x.commit = c → checkKey x.target s ≠ .ok →
      ∃ u, exec (if c then .heldCommitPerform else .heldSignalPerform) s = .next (pump u) ∧
        u.lcu.held = dropFirst (fun y => decide (y = x)) s.lcu.held ∧
        u.lcu.postRr = (s.postKey x + 1) % 65 ∧
        u.ctr x.target.part 56 = s.ctr x.target.part 56 + 1 ∧ u.gctr 41 = s.gctr 41 + 1 ∧
        Frame ((if c then [.descs] else []) ++ [.rows, .heldq, .counters, .wins, .gctr, .rake, .irq]) s u) ∧
    (∀ n d r, s.nextHeld true = some x → x.commit = true → checkKey x.target s = .ok → s.obs.trace.en = false →
      s.descOf x.target = some (n, d) → d.commitRec x.handle = some r →
      ∃ u, exec .heldCommitPerform s = .next (pump (commitRsv x.target n r (x.agent, x.node, 3)
          (count x.target.part 17 u))) ∧
        u.lcu.held = dropFirst (fun y => decide (y = x)) s.lcu.held ∧ u.trk = s.trk ∧
        Frame [.rows, .heldq, .gctr] s u)

/-- R188 to R192: one word of the notice that stands on SN moves; with its last word the notice leaves the queue, the next one is presented and `GCTR[35]` counts; an acknowledgement that nothing waits for is reported. The model's choice in it (log 13): the fields of the `ACK_UNMATCHED` report, which names the partition and has `DETAIL` 0. -/
def Obligations.SchedulerPort : Prop :=
  ∀ (n : Notice) (w : Word) (s : State), s.running = true →
    (s.obs.hobble.state.toNat < 2 → s.snNext = some n → n.moved + 1 < n.words.length →
      ∃ t, exec .snNoticePresent s = .next t ∧ t.sn.out = some ((n.words[n.moved]?).getD 0, false) ∧
        t.sn.queue = mapFirst (fun x => decide (x = n)) (fun m => { m with moved := m.moved + 1 }) s.sn.queue ∧
        Frame [.sn] s t) ∧
    (s.obs.hobble.state.toNat < 2 → s.snNext = some n → n.words.length = n.moved + 1 → s.sn.backlog = [] → s.sn.lost = 0 →
      ∃ t, exec .snNoticePresent s = .next t ∧ t.sn.out = some ((n.words[n.moved]?).getD 0, true) ∧
        (∀ q, q = dropFirst (fun x => decide (x = n)) s.sn.queue →
          t.sn.queue = if q.any (·.shown) then q
            else mapFirst (fun m => !s.snBlocked m) (fun m => { m with shown := true }) q) ∧
        t.gctr 35 = s.gctr 35 + 1 ∧ Frame [.sn, .gctr] s t) ∧
    (s.obs.hobble.state.toNat < 2 → s.snNext = none → exec .snNoticePresent s = .next s) ∧
    (s.obs.hobble.state = 0 →
      (∀ x, w.extractLsb' 24 8 = (0x30 : Byte) → w.extractLsb' 22 2 = (0 : BitVec 2) → x ∈ s.obs.watches →
        x.key.part = w.extractLsb' 16 6 → x.ack = some (w.extractLsb' 0 16) → x.posted = false →
        ∃ t, exec (.snAck w) s = .next t ∧
          t.obs.watches = mapFirst (fun y => decide (y.key.part = w.extractLsb' 16 6 ∧
            y.ack = some (w.extractLsb' 0 16) ∧ y.posted = false)) (fun y => { y with posted := true }) s.obs.watches ∧
          Frame [.watches] s t) ∧
      (∀ c, w.extractLsb' 24 8 = (0x10 : Byte) → w.extractLsb' 22 2 = (0 : BitVec 2) →
        s.msq.cmds.find? (fun c => decide (c.part = w.extractLsb' 16 6 ∧ c.phase = .fenceAck (w.extractLsb' 0 16))) = some c →
        exec (.snAck w) s = .next (pump (openSection c (w.extractLsb' 0 16) s))) ∧
      (w.extractLsb' 24 8 ≠ (0x10 : Byte) → w.extractLsb' 24 8 ≠ (0x30 : Byte) ∨ w.extractLsb' 22 2 ≠ (0 : BitVec 2) →
        exec (.snAck w) s = .next (report .ackUnmatched .obs (some (w.extractLsb' 16 6)) 0 0 0 0 s)))

/-- R97 to R100 and R134 to R136: what TIME has passed enters the expiring set with a drain of 8 ns, or the due queue behind a full one. An expiry whose drain has ended releases its barrier partially, or ends the holding of its lock with a fence entry; then its place in the expiring set is free. -/
def Obligations.Expiries : Prop :=
  (∀ (n : Nat) (s x : State) (d : Due), s.running = true → s.obs.hobble.state = 0 → x = elapse n s →
     (∀ i, (i = .deadlineDue n ∧ x.dueDeadlines = [d]) ∨ (i = .leaseDue n ∧ x.dueLeases = [d]) →
       (s.opr.expiring.length < 512 → s.opr.dueq = [] →
         ∃ t, exec i s = .next t ∧ t.opr.expiring = s.opr.expiring ++ [{ d with drain := x.now + 8 }] ∧
           t.opr.dueq = [] ∧ t.clk = x.clk ∧ Frame [.time, .clock, .trace, .gctr, .due] s t) ∧
       (512 ≤ s.opr.expiring.length ∨ s.opr.dueq ≠ [] →
         ∃ t, exec i s = .next t ∧ t.opr.expiring = s.opr.expiring ∧ t.opr.dueq = x.insertDue d s.opr.dueq ∧
           t.clk = x.clk ∧ Frame [.time, .clock, .trace, .gctr, .due] s t)) ∧
     (d ∈ x.dueDeadlines ↔ ∃ y ∈ s.tdu.deadlines, d = ⟨y.key, false, y.epoch.toNat, y.due, 0⟩ ∧ y.due < x.now ∧
       (∀ z ∈ s.opr.expiring ++ s.opr.dueq, ¬(z.key = y.key ∧ z.lease = false ∧ z.seq = y.epoch.toNat)) ∧
       ∃ h b, s.objAny y.key = some ⟨h, .barrier b⟩ ∧ b.epoch = y.epoch) ∧
     (d ∈ x.dueLeases ↔ ∃ y ∈ s.tdu.leases, d = ⟨y.key, true, y.seq.toNat, y.due, 0⟩ ∧ y.due < x.now ∧
       ∀ z ∈ s.opr.expiring ++ s.opr.dueq, ¬(z.key = y.key ∧ z.lease = true ∧ z.seq = y.seq.toNat))) ∧
  (∀ (n : Nat) (s x : State) (d : Due), s.running = true → s.obs.hobble.state = 0 → x = elapse n s →
     s.obs.trace.en = false → s.opr.dueq = [] → (s.ctx d.key.part d.key.ctx).state = .resident →
     (∀ h b, x.opr.expiring.find? (x.canExpire false) = some d → s.obj d.key = some ⟨h, .barrier b⟩ →
       b.epoch.toNat = d.seq → b.hold = false → b.curCount ≠ b.target → s.treeOf d.key = none →
       ∃ u, exec (.deadlineExpiry n) s =
           .next (pump (leaveSet d (releaseBarrier d.key b true (resultOf b) (0, 0, 1) u))) ∧
         u.obj d.key = s.obj d.key ∧
         u.tdu.deadlines = s.tdu.deadlines.filter (fun y => decide (¬(y.key = d.key ∧ y.epoch = b.epoch))) ∧
         u.clk = x.clk ∧ Frame [.time, .clock, .trace, .deadlines, .gctr] s u) ∧
     (∀ h l, x.opr.expiring.find? (x.canExpire true) = some d → s.obj d.key = some ⟨h, .lock l⟩ → l.held = true →
       l.acqSeq.toNat = d.seq → l.holderNode = s.fab.nodeId → l.effPrio.toNat ≤ l.holdPrio.toNat →
       s.waitersOf d.key = [] → (s.olu.fences.filter fun f => decide (f.key ≠ d.key)).length < 4096 →
       ∃ u, exec (.leaseExpiry n) s = .next (pump u) ∧
         u.obj d.key = some ⟨h, .lock { l with held := false, lastEnd := 2, claim := 0 }⟩ ∧
         u.olu.fences = s.olu.fences.filter (fun f => decide (f.key ≠ d.key)) ++ [⟨d.key, l.holderNode, l.holderAgent⟩] ∧
         u.olu.holdings = dropFirst (fun y => decide (y = ⟨l.holderAgent, s.fab.nodeId, d.key⟩)) s.olu.holdings ∧
         u.tdu.leases = s.tdu.leases.filter (fun y => decide (y.key ≠ d.key)) ∧
         u.opr.expiring = dropFirst (fun y => decide (y = d)) s.opr.expiring ∧ u.clk = x.clk ∧ SlotsBut d.key s u ∧
         Frame [.time, .clock, .trace, .rows, .gctr, .fences, .holdings, .leases, .due] s u) ∧
     (∀ k h b u, u.frozen = false → u.obj k = some ⟨h, .barrier b⟩ → u.treeOf k = none → u.watchOf k = none →
       ∃ v hd, releaseBarrier k b true (resultOf b) (0, 0, 1) u =
           wakeAll ((u.waitersOf k).filter fun w => decide (w.parity = b.epoch.getLsbD 0)) .partialRel (resultOf b) (0, 0, 1) v ∧
         v.obj k = some ⟨hd, .barrier { b with
           result := resultOf b, epoch := b.epoch + 1, curCount := b.nextCount, nextCount := 0
           acc := ((u.earlyOf k).map (·.acc)).getD 0, accValid := (u.earlyOf k).isSome
           lastPartial := true, missCount := b.target - b.curCount, hold := false
           dlArmed := (u.deadlineOf k (b.epoch + 1)).isSome }⟩ ∧
         v.record k = (u.record k).map (fun r => { r with lastMissing := r.roster &&& ~~~r.cur, cur := r.next, next := 0 }) ∧
         Counted [(k.part, 4)] u v ∧ Frame [.rows, .records, .early, .deadlines, .waiters, .counters] u v))

/-- R58, R114, R62, R217 and R253: a waiter leaves its queue when TIME exceeds its limit, its bank can serve it and no spilled entry holds its object, and is woken with `TIMED_OUT`; a wake of a local waiter is one `WAKE` response on its agent's port. -/
def Obligations.WaitTimeouts : Prop :=
  ∀ (n : Nat) (s x : State) (w : Waiter), s.running = true → s.obs.hobble.state = 0 → x = elapse n s →
    (s.wmc.waiters.find? x.canTimeOut = some w →
      ∃ u, exec (.waitTimeout n) s =
          .next (afterLeave w.key (decide (w.op = .reserve)) (wakeWaiter w .timedOut 0 none 0 (0, 0, 7) u)) ∧
        u.wmc.waiters = dropFirst (fun v => decide (v = w)) s.wmc.waiters ∧ u.clk = x.clk ∧
        SlotsBut w.key s u ∧ Frame [.time, .clock, .trace, .gctr, .rows, .waiters] s u) ∧
    (∀ st pay g pol c p u, w.spilled = false → w.node = u.fab.nodeId → p = agentPort w.agent →
      (u.ap p).dropping (agentLocal w.agent) = false →
      (wakeWaiter w st pay g pol c u).ap p = { u.ap p with
        rsp := (u.ap p).rsp ++ [{
          kind := .wake, block := 0, status := st.code, ctx := w.key.ctx, node := u.fab.nodeId, index := w.key.index
          opcode := w.op.code, payload := if st = .timedOut ∨ 8 ≤ st.code.toNat then 0 else pay
          agent := agentLocal w.agent, value := 0, inv := w.hint, token := if w.hint then w.token else 0
          entry := none, accepted := true, part := some w.key.part, grant := g
          waits := [(agentLocal w.agent, w.stamp)], cause := c }] } ∧
      (∀ q, q ≠ p → (wakeWaiter w st pay g pol c u).ap q = u.ap q) ∧
      Frame [.aps, .counters, .wins] u (wakeWaiter w st pay g pol c u))

/-- R378 and R381: a release that a watch held is performed once its `DUMP_ACK` or `WATCH_CLEAR` has come, nothing holds its object and no work of an earlier class of R18 is posted to its bank, and the watch ends. -/
def Obligations.WatchReleases : Prop :=
  ∀ (s : State) (w : Watch) (h : ObjHdr) (b : Barrier), s.obs.hobble.state.toNat < 2 →
    s.obs.watches.find? (fun x => x.posted && !s.heldAt 5 x.key && !s.spillHeld .arrive x.key) = some w → s.obj w.key = some ⟨h, .barrier b⟩ →
    (b.hold = true →
      ∃ u, exec .watchRelease s = .next (pump (completeBarrier w.key { b with hold := false } (0, 0, 5) u).2) ∧
        u.obj w.key = some ⟨{ h with watch := false }, .barrier b⟩ ∧
        u.obs.watches = s.obs.watches.filter (fun x => decide (x.key ≠ w.key)) ∧ SlotsBut w.key s u ∧
        Frame [.rows, .watches, .gctr] s u) ∧
    (b.hold = false →
      ∃ u, exec .watchRelease s = .next (pump u) ∧
        u.obj w.key = some ⟨{ h with watch := false }, .barrier b⟩ ∧
        u.obs.watches = s.obs.watches.filter (fun x => decide (x.key ≠ w.key)) ∧ SlotsBut w.key s u ∧
        Frame [.rows, .watches, .gctr] s u)

/-- R60, R61, R255 and R275: `MGMT` without the binding's permission is refused with `ACCESS_DENIED`, with a buffer that the memory master port cannot read with `RANGE_ERROR`; otherwise its packet, read from the buffer under the partition's requester ID, waits for the sequencer that owns the partition. -/
def Obligations.MgmtPackets : Prop :=
  ∀ (p : PortNo) (a : LocalAgent) (f : Req) (s : State) (e : OpEntry) (rq : ReqId),
    PortReady p a s → (s.ap p).casFirst = none → BindReady p a .mgmt f none s → e = entered p a .mgmt f none s →
    (s.part e.part).starting = none → rq = (s.part e.part).reqid →
    ((s.bind (agentId p a)).mgmtEn = false →
      ∃ u, exec (.mgmt p a f) s = .next (finish e .accessDenied 0 none u) ∧ u.opr.ops = s.opr.ops ++ [e] ∧
        (∀ q, u.ap q = s.ap q) ∧ Counted [(e.part, 21)] s u ∧ Frame [.aps, .ops, .counters, .gctr] s u) ∧
    ((s.bind (agentId p a)).mgmtEn = true → s.agentRoom e.part = true → memErr s rq f.payload.toNat 64 = true →
      ∃ u, exec (.mgmt p a f) s = .next (finish e .rangeError 0 none u) ∧ u.opr.ops = s.opr.ops ++ [e] ∧
        u.mmOut = some ⟨false, rq, f.payload.toNat, 64⟩ ∧
        (∀ q, u.ap q = s.ap q) ∧ Counted [(e.part, 21)] s u ∧ Frame [.aps, .ops, .counters, .gctr, .mmPort] s u) ∧
    (∀ c : Cmd, (s.bind (agentId p a)).mgmtEn = true → memErr s rq f.payload.toNat 64 = false → s.agentRoom e.part = true →
      c = ⟨s.msq.nextId, .agent e.id e.part, false, memWords s f.payload.toNat 16, .queued, s.now⟩ →
      s.retiredDenies c = false → c.privOk (some e.part) = true → s.slu.lcPending = none →
      s.freeNow c = false → (mrowOf c.opcode).isSome = true → (s.destroying c = false ∨ c.ofPart = false) →
      ∃ t, exec (.mgmt p a f) s = .next t ∧ t.msq.cmds = s.msq.cmds ++ [c] ∧ t.msq.nextId = s.msq.nextId + 1 ∧
        t.opr.ops = s.opr.ops ++ [{ e with st := .mgmt }] ∧ (∀ q, t.ap q = s.ap q) ∧
        t.mmOut = some ⟨false, rq, f.payload.toNat, 64⟩ ∧ Frame [.aps, .ops, .gctr, .cmds, .mmPort] s t)

/-- R252, R253, R260, R110 and R145: spilling starts when fewer than 1,024 entries are free, goes on until 2,048 are, and marks the entry that would be granted last; wakes of spilled waiters follow the reads of their entries, one partition after the other; a fetched accumulator or record is back on the die, unless its context has gone out. -/
def Obligations.Spills : Prop :=
  ∀ (s : State),
    (s.running = true → s.obs.hobble.state = 0 → 1024 ≤ s.waiterFree → s.strictParts = [] →
      exec .waiterSpill s = .next (pump s)) ∧
    (s.running = true → s.obs.hobble.state = 0 → s.waiterFree < 1024 → s.strictParts = [] →
      exec .waiterSpill s = .next (pump (spillLoop (s.waiterUse + 1) s))) ∧
    (∀ k w, tailOf ((s.waitersOf k).filter fun x => !x.spilled) = some w →
      (spillOne k s).wmc.waiters = mapFirst (fun x => decide (x = w)) (fun x => { x with spilled := true }) s.wmc.waiters ∧
      Frame [.waiters, .rows] s (spillOne k s)) ∧
    (∀ l w, tailOf l = some w → w ∈ l ∧ ∀ x ∈ l, w.prio.toNat ≤ x.prio.toNat) ∧
    (s.running = true → s.obs.hobble.state = 0 →
      exec .waiterReload s = .next (reloadLoop s.keyIn s.spilledCount s)) ∧
    (∀ x, s.nextSpillWake = some x → x ∈ s.wmc.spillWakes) ∧ (s.wmc.spillWakes ≠ [] → s.nextSpillWake ≠ none) ∧
    (∀ x, s.obs.hobble.state.toNat < 2 → s.nextSpillWake = some x →
      ∃ u, exec .spilledWaiterWake s = .next (pump (sendWake x.w x.status x.payload x.grant x.policy x.cause u)) ∧
        u.wmc = { s.wmc with
          spillWakes := dropFirst (fun y => decide (y = x)) s.wmc.spillWakes
          wakeRr := (s.partPlace x.w.key.part + 1) % 65 } ∧ Counted [(x.w.key.part, 60)] s u ∧
        Frame [.spillWakes, .counters, .mmPort, .free] s u) ∧
    (∀ k, s.obs.hobble.state.toNat < 2 → k ∈ s.wmc.fetching → s.keyIn k = false →
      ∃ t, exec (.spilledEntryFetch k) s = .next t ∧
        t.wmc.fetching = s.wmc.fetching.filter (fun x => decide (x ≠ k)) ∧ Frame [.fetching] s t) ∧
    (∀ k, s.obs.hobble.state.toNat < 2 → k ∈ s.wmc.fetching → s.keyIn k = true →
      ∃ u, exec (.spilledEntryFetch k) s = .next (pump u) ∧
        u.wmc.fetching = s.wmc.fetching.filter (fun x => decide (x ≠ k)) ∧
        u.wmc.early = s.wmc.early.map (fun y => if y.key = k then { y with spilled := false } else y) ∧
        (∀ n d, s.descOf k = some (n, d) →
          tget u.trk.descs n = some { d with recs := d.recs.map fun r => { r with spilled := false } }) ∧
        SlotsBut k s u ∧ Frame [.fetching, .early, .descs, .rows, .mmPort, .free] s u)

/-- R264, R267 to R269 and R346: the write of word 15 takes the lowest free slot and hands the packet to MSQ; with no slot free, or no sequencer running, it is discarded and reported; a pop frees the slot of the oldest reply. A completed packet leaves MSQ, counts in its partition, and queues 16 words in the window it came from, whose reply interrupt is set: opcode, `TAG` and status, then `DETAIL`, then the results. -/
def Obligations.CommandWindows : Prop :=
  (∀ (w : Win) (acc : CrAcc) (s : State), s.running = true → s.slu.lc ≠ .retired →
     (acc.priv = true ∨ ∃ p, w = some p ∧ (s.part p).admitsReq acc.reqid = true) →
     (∀ k c, k < 8 → (∀ i, i < k → (s.win w).slots.getLsbD i = true) → (s.win w).slots.getLsbD k = false →
       (w = none ∨ s.anyRunning = true) → (∀ i, i < 15 → (s.win w).mask.getLsbD i = true) →
       c = ⟨s.msq.nextId, .win w k, acc.priv,
         (List.range 15).map (fun i => tgetD 0 (s.win w).words i) ++ [acc.wdata], .queued, s.now⟩ →
       c.privOk none = true → s.slu.lcPending = none → (s.anyRunning = true ∨ sluRuns c.opcode = true) →
       s.freeNow c = false → c.isRemote s = false → (mrowOf c.opcode).isSome = true → (s.destroying c = false ∨ c.ofPart = false) →
       ∃ t, exec (.cmdSubmit w acc) s = .next t ∧
         t.msq = { s.msq with cmds := s.msq.cmds ++ [c], nextId := s.msq.nextId + 1 } ∧
         t.win w = { s.win w with
           words := tput 0 (s.win w).words 15 acc.wdata, mask := 0, slots := setBit (s.win w).slots k } ∧
         (∀ v, v ≠ w → t.win v = s.win v) ∧ Frame [.cmds, .wins, .crPort] s t) ∧
     ((∀ i, i < 8 → (s.win w).slots.getLsbD i = true) ∨ (w ≠ none ∧ s.anyRunning = false) →
       ∃ t, exec (.cmdSubmit w acc) s = .next t ∧ (s.frozen = false → t.gctr 41 = s.gctr 41 + 1) ∧
         t.win w = (if w = none then s.win w else { s.win w with irqStatus := setBit (s.win w).irqStatus 1 }) ∧
         (w = none → t.cr.irqStatus.getLsbD 1 = true) ∧ (∀ v, v ≠ w → t.win v = s.win v) ∧
         Frame [.wins, .crPort, .gctr, .rake, .irq] s t) ∧
     (∀ r l, (s.win w).replies = r :: l → (∀ x due, s.slu.lcPending ≠ some (x, some (w, r.1), due)) →
       ∃ t, exec (.replyPop w acc) s = .next t ∧
         t.win w = { s.win w with replies := l, slots := clearBit (s.win w).slots r.1 } ∧
         (∀ v, v ≠ w → t.win v = s.win v) ∧ Frame [.wins, .crPort] s t) ∧
     ((s.win w).replies = [] → ∃ t, exec (.replyPop w acc) s = .next t ∧ Frame [.crPort] s t)) ∧
  (∀ (c : Cmd) (w : Win) (k : Nat) (st : Status) (d : Word) (res : List Word) (s t : State),
     c.src = .win w k → s.obs.trace.en = false → res.length ≤ 14 → t = complete c st d res s →
     (t.win w).replies = (s.win w).replies ++
       [(k, [c.opcode ++ (c.field 0 8 8 : Byte) ++ st.code, d] ++ res ++ List.replicate (14 - res.length) 0)] ∧
     (∀ p, w = some p → (t.win w).irqStatus = setBit (s.win w).irqStatus 0) ∧
     (w = none → t.cr.irqStatus = setBit s.cr.irqStatus 0) ∧
     (t.win w).slots = (s.win w).slots ∧ (∀ v, v ≠ w → t.win v = s.win v) ∧
     t.msq.cmds = dropFirst (fun x => decide (x.id = c.id)) s.msq.cmds ∧
     (s.frozen = false → Counted (match c.countPart with
       | some p => [(p, 21)]
       | none => []) s t) ∧
     Frame [.cmds, .wins, .counters, .irq] s t)

/-- R279, R239, R281 and R412: `NOP` echoes its words, `CTX_QUERY` answers the directory entry, `OBJ_READ` the object word or the ring descriptor; none writes what it reads. An object that is not there is refused as R412 orders it. -/
def Obligations.ReadingCommands : Prop :=
  ∀ (c : Cmd) (q : Nat) (s : State),
    (CmdReady 0x0000 noFmt c q s → ∃ u, Completes (.nop c.id) c .ok 0 (c.words.drop 2) [] s u) ∧
    (CmdReady 0x0105 noFmt c q s →
      ∃ u, Completes (.ctxQuery c.id) c .ok 0 (toWords 12 (s.dirWord c.part c.ctx)) [] s u) ∧
    (CmdReady 0x0112 noFmt c q s → c.bit 1 0 = false →
      ((s.ctx c.part c.ctx).state = .free → Rejects (.objRead c.id) c .noObject 0 s) ∧
      ((s.ctx c.part c.ctx).state = .evicting ∨ (s.ctx c.part c.ctx).state = .evicted ∨
          (s.ctx c.part c.ctx).state = .restoring → Rejects (.objRead c.id) c .evictedRetry 0 s) ∧
      ((s.ctx c.part c.ctx).state = .resident →
        (s.ctx c.part c.ctx).rowCount.toNat ≤ rowOff c.index ∨ s.bankAllowed c.part c.index = false →
        Rejects (.objRead c.id) c .rangeError (det 3 0) s) ∧
      ((s.ctx c.part c.ctx).state = .resident → rowOff c.index < (s.ctx c.part c.ctx).rowCount.toNat →
        s.bankAllowed c.part c.index = true →
        (s.obj c.key = none → Rejects (.objRead c.id) c .noObject 0 s) ∧
        (∀ o, s.obj c.key = some o →
          ∃ u, Completes (.objRead c.id) c .ok 0 (toWords 8 o.word) [.gctr] s u ∧
            ∀ i, u.gctr i = s.gctr i + (if s.frozen = false ∧ (i = 0 ∨ i = 5) then 1 else 0)))) ∧
    (CmdReady 0x0112 noFmt c q s → c.bit 1 0 = true →
      (∀ st d, objCheck c anyType s = some (st, d) → Rejects (.objReadDesc c.id) c st d s) ∧
      (objCheck c anyType s = none →
        (s.descOf c.key = none → Rejects (.objReadDesc c.id) c .typeMismatch 0 s) ∧
        (∀ n d, s.descOf c.key = some (n, d) →
          ∃ u, Completes (.objReadDesc c.id) c .ok 0 (toWords 8 d.word) [.gctr] s u)))

/-- R241, R261, R244 and R250: `CTX_CREATE` takes the lowest free rows; `CTX_DESTROY` destroys every object of its context; `CTX_EVICT` and `CTX_RESTORE` reserve what they need and move the context to its transient state; each refuses a context in a state that does not fit. -/
def Obligations.ContextCommands : Prop :=
  ∀ (c : Cmd) (q : Nat) (s : State) (x : Ctx) (n : BitVec 15), x = s.ctx c.part c.ctx → n = c.field 3 0 15 →
    (CmdReady 0x0101 noFmt c q s →
      (n = 0 ∨ 16384 < n.toNat → Rejects (.ctxCreate c.id) c .rangeError (det 3 0) s) ∧
      (n ≠ 0 → n.toNat ≤ 16384 →
        (x.state ≠ .free ∨ Config.residentContexts ≤ s.residents ∨ s.dirFull = true ∨ s.allocRows n.toNat = none →
          Rejects (.ctxCreate c.id) c .rangeError (detState 2 0) s) ∧
        (∀ b, x.state = .free → s.residents < Config.residentContexts → s.dirFull = false → s.allocRows n.toNat = some b →
          ∃ u, Completes (.ctxCreate c.id) c .ok 0 [BitVec.ofNat 32 b] [.dir] s u ∧
            u.ctx c.part c.ctx = ⟨.resident, c.bit 2 8, false, BitVec.ofNat 14 b, n, 0, 0, 0, 0⟩ ∧
            ∀ p d, ¬(p = c.part ∧ d = c.ctx) → u.ctx p d = s.ctx p d))) ∧
    (∀ m b, s.allocRows m = some b → b + m ≤ s.allocLimit ∧ (∀ r ∈ s.rowRanges, b + m ≤ r.1 ∨ r.1 + r.2 ≤ b) ∧
      ∀ a, a + m ≤ s.allocLimit → (∀ r ∈ s.rowRanges, a + m ≤ r.1 ∨ r.1 + r.2 ≤ a) → b ≤ a) ∧
    (CmdReady 0x0104 noFmt c q s →
      (x.state = .free → Rejects (.ctxDestroy c.id) c .noObject 0 s) ∧
      (x.state = .resident ∨ x.state = .evicted → s.ctxHasTree c.part c.ctx = true →
        Rejects (.ctxDestroy c.id) c .rangeError (detState 2 0) s) ∧
      (x.state = .resident ∨ x.state = .evicted → s.ctxHasTree c.part c.ctx = false →
        ∃ u, Completes (.ctxDestroy c.id) c .ok 0 [BitVec.ofNat 32 (s.ctxObjs c.part c.ctx).length]
            [.wins, .parts, .aps, .ops, .due, .rows, .waiters, .records, .early, .spillWakes, .fetching, .descs, .holdings,
              .fences, .deadlines, .leases, .arming, .heldq, .decs, .sn, .dir, .tack, .fports, .counters, .gctr,
              .rake, .watches, .irq, .mem, .mmPort, .free] s u ∧
          u.ctx c.part c.ctx = Ctx.reset ∧ (∀ p d, ¬(p = c.part ∧ d = c.ctx) → u.ctx p d = s.ctx p d))) ∧
    (CmdReady 0x0102 noFmt c q s →
      (x.state ≠ .resident ∨ (s.ctxObjs c.part c.ctx).any (fun o => holdsIn o.2) = true →
        Rejects (.ctxEvict c.id) c .rangeError (detState 2 0) s) ∧
      (∀ b, x.state = .resident → (s.ctxObjs c.part c.ctx).any (fun o => holdsIn o.2) = false →
        ((s.part c.part).tackQuota = 0 ∨ s.tackUsed c.part + s.tackNeed c.part c.ctx ≤ (s.part c.part).tackQuota.toNat) →
        s.spillUsed + s.ctxEntries c.part c.ctx false ≤ s.spillCap →
        s.allocTack (s.tackNeed c.part c.ctx) = some b →
        ∃ u, Goes (.ctxEvict c.id) [.cmds, .dir, .tack, .heldq] s u ∧
          u.lcu.held = s.lcu.held.map (fun y =>
            if y.posted = true ∧ y.target.part = c.part ∧ y.target.ctx = c.ctx then { y with preEvict := true } else y) ∧
          (u.ctx c.part c.ctx).state = .evicting ∧ (u.ctx c.part c.ctx).rowBase = x.rowBase ∧
          (u.ctx c.part c.ctx).tackBlocks = BitVec.ofNat 16 (s.tackNeed c.part c.ctx) ∧
          u.msq.cmds = mapFirst (fun d => decide (d.id = c.id)) (fun d => { d with phase := .waiting }) s.msq.cmds ∧
          ∃ r, u.ctm.tack = s.ctm.tack ++ [r] ∧ r.part = c.part ∧ r.ctx = c.ctx ∧ r.block = b ∧
            r.blocks = s.tackNeed c.part c.ctx)) ∧
    (CmdReady 0x0103 noFmt c q s →
      (x.state ≠ .evicted ∨ Config.residentContexts ≤ s.residents →
        Rejects (.ctxRestore c.id) c .rangeError (detState 2 0) s) ∧
      (∀ b r, x.state = .evicted → s.residents < Config.residentContexts → s.tackRec c.part c.ctx = some r →
        r.rings.length ≤ s.descsFree → s.allocRows x.rowCount.toNat = some b →
        ∃ u, Goes (.ctxRestore c.id) [.cmds, .dir] s u ∧
          u.ctx c.part c.ctx = { x with state := .restoring, rowBase := BitVec.ofNat 14 b } ∧
          u.msq.cmds = mapFirst (fun d => decide (d.id = c.id)) (fun d => { d with phase := .waiting }) s.msq.cmds))

/-- R245, R249 and R250: a drained context leaves the banks with its record, objects, descriptors, arrival records and fence entries; a record that passes its checks as it stands in host memory brings the context back and its blocks are free; one that fails leaves it `EVICTED`. Before any of them, the banks whose rows it reads or writes are re-powered (R339) and nothing that goes first is posted to them (R18, R100). The model's choices in it: a restored fence entry joins as the newest (log 61); the order of the record's sections follows their stores (log 74). -/
def Obligations.Transitions : Prop :=
  ∀ (p : PartId) (c : CtxId) (s : State) (m : Cmd) (r : TackRec), s.running = true → s.obs.hobble.state = 0 →
    s.tackRec p c = some r →
    (s.waitingOn 0x0102 p c = some m → (s.ctx p c).state = .evicting → s.ctxBusy p c = false → s.rowsHeld = true →
      exec (.ctxEvictDrained p c) s = .next (wakeRows s)) ∧
    (s.waitingOn 0x0102 p c = some m → (s.ctx p c).state = .evicting → s.ctxBusy p c = false → s.rowsHeld = false →
      ∃ u, exec (.ctxEvictDrained p c) s = .next (pump (ok m
          [((s.ctx p c).tackPtr ++ 0#6 : BitVec 48).extractLsb' 0 32,
            (((s.ctx p c).tackPtr ++ 0#6 : BitVec 48).extractLsb' 32 16 : BitVec 16).setWidth 32,
            (s.ctx p c).tackBlocks.setWidth 32] u)) ∧
        u.ctx p c = { s.ctx p c with state := .evicted, evictTime := s.time64 } ∧
        (∀ k, k.part = p → k.ctx = c → u.obj k = none) ∧
        u.wmc.waiters = s.wmc.waiters.map (fun w =>
          if w.key.part = p ∧ w.key.ctx = c then { w with spilled := true } else w) ∧
        u.trk.descs = s.trk.descs.filter (fun d => !decide (d.2.key.part = p ∧ d.2.key.ctx = c)) ∧
        u.wmc.records = s.wmc.records.filter (fun x => !decide (x.key.part = p ∧ x.key.ctx = c)) ∧
        u.olu.fences = s.olu.fences.filter (fun x => !decide (x.key.part = p ∧ x.key.ctx = c)) ∧
        u.gctr 31 = s.gctr 31 + 1 ∧
        (∃ r', u.tackRec p c = some r' ∧ r'.evictTime = s.time64 ∧ r'.objs.length = (s.boundSlots p c).length ∧
          r'.records = s.wmc.records.filter (fun x => decide (x.key.part = p ∧ x.key.ctx = c)) ∧
          r'.fences = s.olu.fences.filter (fun x => decide (x.key.part = p ∧ x.key.ctx = c))) ∧
        Frame [.rows, .waiters, .records, .early, .descs, .fences, .dir, .tack, .counters, .gctr, .mem, .mmPort, .free]
          s u) ∧
    (∀ ok', s.waitingOn 0x0103 p c = some m → s.restoreHeld = true →
      exec (.ctxRestoreRecordRead p c ok') s = .next (wakeRows s)) ∧
    (∀ ok' y, s.waitingOn 0x0103 p c = some m → s.restoreHeld = false → s.tackGood r ok' = true → y = (s.tackRead r).1 →
      ∃ u, exec (.ctxRestoreRecordRead p c ok') s =
          .next (pump (ok m [(s.ctx p c).rowBase.setWidth 32, BitVec.ofNat 32 (u.ctxEntries p c true),
            BitVec.ofNat 32 y.defer.length] u)) ∧
        (u.ctx p c).state = .resident ∧ (u.ctx p c).rowBase = (s.ctx p c).rowBase ∧
        (u.ctx p c).restoreTime = s.time64 ∧ u.tackRec p c = none ∧ u.msq = s.msq ∧ u.clk = s.clk ∧
        (y.rings = [] → y.defer = [] → (∀ a ∈ s.lcu.index, a.key.part = p → a.key.ctx = c → a.deferred = 0) →
          u.wmc.records = s.wmc.records ++ y.records ∧
          u.olu.fences = (y.fences.foldl (fun v x => addFence x.key x.node x.agent v) s).olu.fences)) ∧
    (∀ ok', s.waitingOn 0x0103 p c = some m → s.restoreHeld = false → s.tackGood r ok' = false →
      ∃ u, exec (.ctxRestoreRecordRead p c ok') s = .next (pump (refuse m .formatError (detState 2 0) u)) ∧
        u.ctx p c = { s.ctx p c with state := .evicted } ∧ u.gctr 41 = s.gctr 41 + 1 ∧
        u.mmOut = some ⟨false, s.slu.engineReqid, s.tackAddr r, (s.tackRead r).2⟩ ∧
        Frame [.dir, .gctr, .rake, .irq, .mmPort] s u)

/-- R43, R45, R144 and R280: `OBJ_CREATE` binds a free slot of a resident context, a ring with the lowest free descriptor; a bound slot, a slot outside the context and a word that breaks a condition of its type are refused. `OBJ_DESTROY` unbinds the slot, with everything that names the object; a stitch-tree node is refused. -/
def Obligations.ObjectCommands : Prop :=
  ∀ (c : Cmd) (q : Nat) (s : State) (x : Ctx), x = s.ctx c.part c.ctx →
    (CmdReady 0x0110 createFmt c q s →
      (x.state = .free → Rejects (.objCreate c.id) c .noObject 0 s) ∧
      (x.state = .evicting ∨ x.state = .evicted ∨ x.state = .restoring →
        Rejects (.objCreate c.id) c .evictedRetry 0 s) ∧
      (x.state = .resident → x.rowCount.toNat ≤ rowOff c.index ∨ s.bankAllowed c.part c.index = false →
        Rejects (.objCreate c.id) c .rangeError (det 3 0) s) ∧
      (x.state = .resident → rowOff c.index < x.rowCount.toNat → s.bankAllowed c.part c.index = true →
        ((s.obj c.key).isSome = true → Rejects (.objCreate c.id) c .rangeError (detState 3 0) s) ∧
        (s.obj c.key = none → s.slotDark c.key = false →
          (∀ b w i, bodyOf (c.val256 4) = some b → (c.field 2 8 4 : BitVec 4) ≠ 5 →
            firstOffence ((bodyOffences b).map wordBit) = some (w, i) →
            Rejects (.objCreate c.id) c .formatError (det w i) s) ∧
          (∀ b, bodyOf (c.val256 4) = some b → (c.field 2 8 4 : BitVec 4) ≠ 5 → bodyOffences b = [] →
            ∃ u, Completes (.objCreate c.id) c .ok 0 [] [.rows, .gctr] s u ∧
              u.obj c.key = some ⟨newHdr c.part, initBody b⟩ ∧ SlotsBut c.key s u) ∧
          ((c.field 2 8 4 : BitVec 4) = 5 → descOffences (descOfWord (c.val256 4)) = [] →
            (s.descsFree = 0 → Rejects (.objCreate c.id) c .rangeError (detState 3 0) s) ∧
            (s.descsFree ≠ 0 →
              ∃ u, Completes (.objCreate c.id) c .ok 0 [BitVec.ofNat 32 s.freeDesc] [.rows, .descs, .gctr] s u ∧
                u.obj c.key = some ⟨newHdr c.part, .ring ⟨BitVec.ofNat 16 s.freeDesc, false⟩⟩ ∧
                u.trk.descs = tset s.trk.descs s.freeDesc { descOfWord (c.val256 4) with key := c.key } ∧
                SlotsBut c.key s u))))) ∧
    (∀ o, CmdReady 0x0111 noFmt c q s → objCheck c anyType s = none → s.obj c.key = some o →
      (o.hdr.tree = true → Rejects (.objDestroy c.id) c .rangeError (detState 3 0) s) ∧
      (o.hdr.tree = false →
        ∃ u, Completes (.objDestroy c.id) c .ok 0 []
            [.wins, .parts, .aps, .ops, .due, .rows, .waiters, .records, .early, .spillWakes, .fetching, .descs, .holdings,
              .fences, .deadlines, .leases, .arming, .heldq, .decs, .sn, .fports, .counters, .gctr, .rake,
              .watches, .irq, .free] s u ∧
          u.obj c.key = none ∧ u.wmc.waiters = s.wmc.waiters.filter (fun w => decide (w.key ≠ c.key)) ∧
          u.wmc.records = s.wmc.records.filter (fun r => decide (r.key ≠ c.key)) ∧
          u.tdu.deadlines = s.tdu.deadlines.filter (fun d => decide (d.key ≠ c.key)) ∧
          u.tdu.leases = s.tdu.leases.filter (fun d => decide (d.key ≠ c.key)) ∧
          (∀ d ∈ u.opr.expiring ++ u.opr.dueq, d.key ≠ c.key) ∧
          u.obs.watches = s.obs.watches.filter (fun w => decide (w.key ≠ c.key)) ∧
          u.olu.fences = s.olu.fences.filter (fun f => decide (f.key ≠ c.key)) ∧
          (∀ h ∈ u.lcu.held, h.target ≠ c.key) ∧ (s.heldOn c.key = [] → SlotsBut c.key s u)))

/-- R90, R137, R156, R157 and R161: `BARRIER_ROSTER` records the members of a quiet barrier whose number is `TARGET`; `LOCK_FORCE_RELEASE` ends a holding as abandoned; `RING_RESET` empties a ring; `RING_WINDOW_OPEN` and `RING_WINDOW_CLOSE` open its remote window and close it. The model's choices in it: `RING_WINDOW_OPEN` without room in the waiter store answers `RANGE_ERROR` (log 62), and so does `RING_WINDOW_CLOSE` of a ring that has no window (log 45). -/
def Obligations.TypedCommands : Prop :=
  ∀ (c : Cmd) (q : Nat) (s : State) (h : ObjHdr),
    (∀ b r, CmdReady 0x0113 rosterFmt c q s → objCheck c isBarrier s = none → s.obj c.key = some ⟨h, .barrier b⟩ →
      (memErr s (s.cmdReqid c) (c.addr 4) 512 = true →
        ∃ u, Completes (.barrierRoster c.id) c .rangeError (det 4 0) [] [.mmPort] s u ∧
          u.mmOut = some ⟨false, s.cmdReqid c, c.addr 4, 512⟩) ∧
      (memErr s (s.cmdReqid c) (c.addr 4) 512 = false → r = bvOf 4096 (memBytes s (c.addr 4) 512) →
        (quietBarrier h b = false →
          ∃ u, Completes (.barrierRoster c.id) c .rangeError (detState 3 0) [] [.mmPort] s u) ∧
        (quietBarrier h b = true → popcount r ≠ s.localMembers c.key b →
          ∃ u, Completes (.barrierRoster c.id) c .rangeError (det 4 0) [] [.mmPort] s u) ∧
        (quietBarrier h b = true → popcount r = s.localMembers c.key b →
          (∀ y, s.record c.key = some y →
            ∃ u, Completes (.barrierRoster c.id) c .ok 0 [BitVec.ofNat 32 (popcount r)] [.records, .gctr, .mmPort] s u ∧
              u.record c.key = some ⟨c.key, r, 0, 0, 0⟩ ∧ ∀ k, k ≠ c.key → u.record k = s.record k) ∧
          (s.record c.key = none → Config.arrivalRecords ≤ s.recordsHeld →
            ∃ u, Completes (.barrierRoster c.id) c .rangeError (detState 3 0) [] [.mmPort] s u) ∧
          (s.record c.key = none → s.recordsHeld < Config.arrivalRecords → s.entriesRoom c.part 128 = true →
            ∃ u, Completes (.barrierRoster c.id) c .ok 0 [BitVec.ofNat 32 (popcount r)] [.records, .gctr, .mmPort] s u ∧
              u.wmc.records = s.wmc.records ++ [⟨c.key, r, 0, 0, 0⟩])))) ∧
    (∀ l, CmdReady 0x0114 noFmt c q s → objCheck c isLock s = none → s.obj c.key = some ⟨h, .lock l⟩ →
      (l.held = false → ∃ u, Completes (.lockForceRelease c.id) c .ok 0 [] [.gctr] s u) ∧
      (l.held = true → l.holderNode = s.fab.nodeId → l.effPrio.toNat ≤ l.holdPrio.toNat → s.waitersOf c.key = [] →
        ∃ u, Completes (.lockForceRelease c.id) c .ok 0
            [1#1 ++ 0#3 ++ l.holderAgent ++ l.holderNode, l.acqSeq.extractLsb' 0 32] [.rows, .leases, .holdings, .gctr] s u ∧
          u.obj c.key = some ⟨h, .lock { l with held := false, lastEnd := 1, claim := 0 }⟩ ∧
          u.tdu.leases = s.tdu.leases.filter (fun x => decide (x.key ≠ c.key)) ∧
          u.olu.holdings = dropFirst (fun x => decide (x = ⟨l.holderAgent, s.fab.nodeId, c.key⟩)) s.olu.holdings ∧
          SlotsBut c.key s u)) ∧
    (∀ n d, CmdReady 0x0115 noFmt c q s → objCheck c isRing s = none → s.descOf c.key = some (n, d) →
      (s.hasWaiters c.key = true ∨ (∃ x ∈ s.lcu.held, x.commit = true ∧ x.target = c.key) →
        Rejects (.ringReset c.id) c .rangeError (detState 3 0) s) ∧
      (s.hasWaiters c.key = false → (∀ x ∈ s.lcu.held, ¬(x.commit = true ∧ x.target = c.key)) → d.win = none →
        ∃ u, Completes (.ringReset c.id) c .ok 0 [d.rsv] [.descs, .gctr] s u ∧
          u.trk.descs = tset s.trk.descs n { d with
            cmt := d.rsv, head := d.rsv, padValid := false, recs := [], oldest := d.oldest + d.span.setWidth 6, span := 0 })) ∧
    (∀ n d r, CmdReady 0x0116 windowFmt c q s → objCheck c isRing s = none → s.descOf c.key = some (n, d) →
      s.obj c.key = some ⟨h, .ring r⟩ →
      (d.win.isSome = true ∨ s.entryRoom c.part = false → Rejects (.ringWindowOpen c.id) c .rangeError (detState 3 0) s) ∧
      (d.win = none → s.entryRoom c.part = true →
        (c.bit 4 16 = true → (∃ j : BitVec 2, j.toNat ≤ (c.field 4 17 2 : BitVec 2).toNat ∧
            s.laneOk ⟨c.part, c.ctx, c.field 5 0 20 + j.setWidth 20⟩ = false) →
          Rejects (.ringWindowOpen c.id) c .typeMismatch 0 s) ∧
        (c.bit 4 16 = false ∨ (∀ j : BitVec 2, j.toNat ≤ (c.field 4 17 2 : BitVec 2).toNat →
            s.laneOk ⟨c.part, c.ctx, c.field 5 0 20 + j.setWidth 20⟩ = true) →
          ∃ (u : State) (e : BitVec 18), Completes (.ringWindowOpen c.id) c .ok 0 [e.setWidth 32]
              [.rows, .descs, .gctr, .free] s u ∧
            u.trk.descs = tset s.trk.descs n { d with
              win := some ⟨c.field 4 0 16, c.field 5 0 20, c.bit 4 16, c.field 4 17 2, 0, false⟩, winEntry := e } ∧
            u.obj c.key = some ⟨h, .ring { r with remoteOpen := true }⟩ ∧ SlotsBut c.key s u))) ∧
    (∀ n d r w, CmdReady 0x0117 noFmt c q s → objCheck c isRing s = none → s.descOf c.key = some (n, d) →
      s.obj c.key = some ⟨h, .ring r⟩ →
      (d.win = none → Rejects (.ringWindowClose c.id) c .rangeError (detState 3 0) s) ∧
      (d.win = some w → s.waitersOf c.key = [] → (∀ x ∈ s.lcu.held, ¬(x.commit = true ∧ x.target = c.key)) →
        ((∀ y ∈ d.recs, y.node ≠ w.node) →
          ∃ u, Completes (.ringWindowClose c.id) c .ok 0 [] [.rows, .descs, .gctr] s u ∧
            tget u.trk.descs n = some { d with win := none } ∧
            (∃ hd, u.obj c.key = some ⟨hd, .ring { r with remoteOpen := false }⟩) ∧ SlotsBut c.key s u) ∧
        ((∃ y ∈ d.recs, y.node = w.node) →
          ∃ u, Completes (.ringWindowClose c.id) c .ok 0 [] [.rows, .descs, .gctr] s u ∧
            tget u.trk.descs n = some { d with win := some { w with closing := true } } ∧
            (∃ hd, u.obj c.key = some ⟨hd, .ring r⟩) ∧ SlotsBut c.key s u)))

/-- R221, R222, R377, R378 and R381: `TREE_STITCH` makes a quiet, rostered barrier the node of a free tree number, its other form takes it back; `WATCH_SET` arms a watch on a barrier or group, `WATCH_CLEAR` ends it, or lets a held release go. The model's choices in it: `WATCH_SET` without room in the waiter store answers `RANGE_ERROR` (log 77), and so does `TREE_STITCH` of a barrier that is a node of another tree or has no room for its descriptor (log 76). -/
def Obligations.TreeAndWatchCommands : Prop :=
  ∀ (c : Cmd) (q : Nat) (s : State) (h : ObjHdr),
    (∀ b t, CmdReady 0x0303 noFmt c q s → (s.ctx c.part c.ctx).state = .resident →
      s.obj c.key = some ⟨h, .barrier b⟩ → h.part = c.part → t = (c.field 2 0 12 : AgentId) → t ≠ 0xFFF →
      (s.bankAllowed c.part c.index = false →
        Rejects (if c.bit 2 12 then .treeUnstitch c.id else .treeStitch c.id) c .rangeError (det 4 0) s) ∧
      (s.bankAllowed c.part c.index = true → c.bit 2 12 = false → s.membersOk c b = false →
        Rejects (.treeStitch c.id) c .rangeError (det 7 0) s) ∧
      (s.bankAllowed c.part c.index = true → (c.bit 2 12 = true ∨ s.membersOk c b = true) → quietBarrier h b = false →
        Rejects (if c.bit 2 12 then .treeUnstitch c.id else .treeStitch c.id) c .rangeError (detState 4 0) s) ∧
      (s.bankAllowed c.part c.index = true → quietBarrier h b = true → c.bit 2 12 = false → s.membersOk c b = true →
        ((s.tree t).valid = true ∨ h.tree = true ∨ s.entriesRoom c.part 2 = false → Rejects (.treeStitch c.id) c .rangeError (detState 4 0) s) ∧
        ((s.tree t).valid = false → h.tree = false → s.entriesRoom c.part 2 = true →
          ∃ u, Completes (.treeStitch c.id) c .ok 0 [] [.rows, .trees, .gctr] s u ∧
            u.obj c.key = some ⟨{ h with tree := true }, .barrier { b with
              epoch := c.field 7 16 16, lastPartial := false, result := 0 }⟩ ∧
            (u.tree t).valid = true ∧ (u.tree t).node = c.key ∧ (u.tree t).root = c.bit 2 13 ∧
            (u.tree t).childMask = c.field 7 0 8 ∧ (u.tree t).rootNode = c.field 6 0 16 ∧
            (u.tree t).altParent = c.field 6 16 16 ∧
            (c.bit 2 13 = false → (u.tree t).parent = c.field 5 0 16 ∧ (u.tree t).pslot = c.field 5 16 3) ∧
            (∀ n, n ≠ t → u.tree n = s.tree n) ∧ SlotsBut c.key s u)) ∧
      (s.bankAllowed c.part c.index = true → quietBarrier h b = true → c.bit 2 12 = true →
        (¬((s.tree t).valid = true ∧ (s.tree t).node = c.key) →
          Rejects (.treeUnstitch c.id) c .rangeError (detState 4 0) s) ∧
        ((s.tree t).valid = true → (s.tree t).node = c.key →
          ∃ u, Completes (.treeUnstitch c.id) c .ok 0 [] [.rows, .trees, .gctr] s u ∧
            u.obj c.key = some ⟨{ h with tree := false }, .barrier b⟩ ∧ u.tree t = Tree.reset ∧
            (∀ n, n ≠ t → u.tree n = s.tree n) ∧ SlotsBut c.key s u)) ∧
      (s.membersOk c b = true ↔
        (∀ r, s.record c.key = some r → popcount r.roster + popcount (c.field 7 0 8 : Byte) = b.target.toNat) ∧
        (s.record c.key = none → popcount (c.field 7 0 8 : Byte) ≤ b.target.toNat))) ∧
    (∀ o e, CmdReady 0x0404 noFmt c q s → objCheck c isWatchable s = none → s.obj c.key = some o →
      e = (c.field 4 0 16 : BitVec 16) →
      (epochNear o.body e = false → Rejects (.watchSet c.id) c .rangeError (det 4 0) s) ∧
      (epochNear o.body e = true → c.bit 6 0 = true → isBarrier o.body = false →
        Rejects (.watchSet c.id) c .rangeError (det 6 0) s) ∧
      (epochNear o.body e = true → (c.bit 6 0 = true → s.holdable c.key o = true) → s.watchOf c.key = none →
        (Config.watchEntries ≤ s.obs.watches.length ∨ s.entryRoom c.part = false →
          Rejects (.watchSet c.id) c .rangeError (detState 3 0) s) ∧
        (s.obs.watches.length < Config.watchEntries → s.entryRoom c.part = true →
          ∃ u, Completes (.watchSet c.id) c .ok 0 [] [.rows, .watches, .gctr] s u ∧
            u.obs.watches = s.obs.watches ++ [⟨c.key, e, c.word 5, c.bit 6 0, none, false⟩] ∧
            u.obj c.key = some { o with hdr := { o.hdr with watch := true } } ∧ SlotsBut c.key s u)) ∧
      (∀ w, epochNear o.body e = true → (c.bit 6 0 = true → s.holdable c.key o = true) → s.watchOf c.key = some w →
        w.ack = none →
        ∃ u, Completes (.watchSet c.id) c .ok 0 [] [.rows, .watches, .gctr] s u ∧
          u.obs.watches = s.obs.watches.filter (fun y => decide (y.key ≠ c.key)) ++
            [⟨c.key, e, c.word 5, c.bit 6 0, none, false⟩] ∧ SlotsBut c.key s u)) ∧
    (CmdReady 0x0405 noFmt c q s → objCheck c isWatchable s = none →
      (s.watchOf c.key = none → ∃ u, Completes (.watchClear c.id) c .ok 0 [] [] s u) ∧
      (∀ w, s.watchOf c.key = some w →
        (w.ack = none → ∃ u, Completes (.watchClear c.id) c .ok 0 [] [.rows, .watches, .gctr] s u ∧
          u.obs.watches = s.obs.watches.filter (fun y => decide (y.key ≠ c.key)) ∧ SlotsBut c.key s u) ∧
        (w.ack.isSome = true → ∃ u, Completes (.watchClear c.id) c .ok 0 [] [.watches] s u ∧
          u.obs.watches = mapFirst (fun y => decide (y.key = c.key)) (fun y => { y with posted := true }) s.obs.watches)))

/-- R259, R262, R293 and R294: `PART_CREATE` of a free partition whose reservations can be met makes it `UNLOADED`; `PART_DESTROY` waits for its agents, running commands and the banks of its objects, then leaves the partition free with nothing of it behind. The model's choices in it (log 29): that the reservations of `FAB_RES` and `MM_SLOTS` are checked at `PART_CREATE`, the `DETAIL` word of a clash of bank sets, the trace tags that stay with their agents, and the refusal of a partition with a stitch-tree node. -/
def Obligations.PartitionsComeAndGo : Prop :=
  ∀ (c : Cmd) (q : Nat) (s : State) (p : PartId) (b : Bool), p = c.part →
    (CmdReady 0x0201 s.partCreateFmt c q s → b = s.strictMode c →
      ((s.part p).state ≠ .free → Rejects (.partCreate c.id) c .rangeError (detState 0 0) s) ∧
      ((s.part p).state = .free → b = true → (∃ r ∈ s.strictParts, (s.part r).bankSet &&& c.field 3 0 16 ≠ 0) →
        Rejects (.partCreate c.id) c .rangeError (det 3 0) s) ∧
      ((s.part p).state = .free →
        (b = true → (∀ r ∈ s.strictParts, (s.part r).bankSet &&& c.field 3 0 16 = 0) ∧
          (c.word 4).toNat ≤ s.sharedCap - s.reserved (·.otRes.toNat) ∧
          (c.word 5).toNat ≤ s.waiterCap - s.reserved (·.wsRes.toNat) ∧
          (c.word 6).toNat ≤ s.heldCap - s.reserved (·.hsRes.toNat) ∧
          (c.word 7).toNat ≤ 64 - s.reserved (·.mmSlots.toNat) ∧
          (c.word 8).toNat ≤ 192 - s.reserved (·.fabRes.toNat)) →
        ∃ u, Completes (.partCreate c.id) c .ok 0 [if b then 1 else 0] [.parts] s u ∧
          u.part p = { s.part p with
            state := .unloaded, strict := b, bankSet := c.field 3 0 16, otRes := c.field 4 0 15, wsRes := c.field 5 0 18
            hsRes := c.field 6 0 13, mmSlots := c.field 7 0 7, fabRes := c.field 8 0 8, tackQuota := c.field 9 0 16 } ∧
          ∀ r, r ≠ p → u.part r = s.part r)) ∧
    (CmdReady 0x0204 noFmt c q s →
      (s.partHasTree p = true → Rejects (.partDestroy c.id) c .rangeError (detState 0 0) s) ∧
      (s.partHasTree p = false → (∃ a, (s.bind a).valid = true ∧ (s.bind a).part = p ∧
          ((s.ap (agentPort a)).arst.any fun r => decide (r.agent = agentLocal a)) = true) →
        (∀ d ∈ cmdsBefore c.id s.msq.cmds, endedBy c d = false) → (∀ n, (s.ap n).ingress = []) →
        ∃ u, exec (.partDestroy c.id) s = .next (pump u) ∧ (u.part p).state ≠ .free ∧
          u.msq.cmds = mapFirst (fun d => decide (d.id = c.id)) (fun d => { d with phase := .waiting }) s.msq.cmds ∧
          ∀ a, (s.bind a).valid = true → (s.bind a).part = p → (u.bind a).valid = false)) ∧
    (∀ x, s.cmd c.id = some c → c.phase = .waiting → c.opcode = 0x0204 → s.running = true → s.obs.hobble.state = 0 →
      x = unbindAll p s → x.destroyReady c = true →
      ∃ u n, exec (.partDestroy c.id) s = .next (pump (ok c [BitVec.ofNat 32 n] u)) ∧
        u.part p = Part.reset ∧ (∀ r, r ≠ p → (u.part r).state = (s.part r).state) ∧
        (∀ a, (x.bind a).part = p → u.bind a = { Bind.reset with tag := (x.bind a).tag }) ∧
        (∀ a, (x.bind a).part ≠ p → u.bind a = x.bind a) ∧
        (∀ d, (u.ctx p d).state = .free) ∧ (∀ h ∈ u.lcu.held, h.target.part ≠ p ∧ h.land.part ≠ p) ∧
        u.fab.admits = s.fab.admits.filter (fun e => decide (e.2.lpart ≠ p)) ∧
        (∀ i, i < 64 → u.ctr p i = 0 ∧ tgetD 0 u.obs.start (ctrKey p i) = 0 ∧ tgetD 0 u.obs.end_ (ctrKey p i) = 0) ∧
        (u.win (some p)).words = [] ∧ (u.win (some p)).replies = [] ∧ (u.win (some p)).irqStatus = 0 ∧
        u.clk = x.clk ∧ u.msq = x.msq) ∧
    (s.cmd c.id = some c → c.phase = .waiting → c.opcode = 0x0204 →
      (s.acting = false → exec (.partDestroy c.id) s = .next s) ∧
      (s.acting = true → (unbindAll p s).destroyReady c = false →
        exec (.partDestroy c.id) s =
          .next (((unbindAll p s).partSlots p).foldl (fun v k => wakeSlot k v) (unbindAll p s))))

/-- R295 to R298: `PART_ACTIVATE` opens a quiesced partition at once and brings up an unloaded or loaded one with the startup steps, which wipe its counters and section state; `PART_QUIESCE` drains, and completes when no accepted operation is left or its limit has elapsed; both are refused or answered at once in the other states. -/
def Obligations.PartitionsStartAndStop : Prop :=
  ∀ (c : Cmd) (q : Nat) (s : State) (p : PartId), p = c.part →
    (CmdReady 0x0202 noFmt c q s →
      ((s.part p).state = .quiescing ∨ (s.part p).state = .quiesced →
        ∃ u, exec (.partActivate c.id) s = .next (pump (ok c [] (resumePart p u))) ∧ SeqsKept s u ∧
          u.part p = { s.part p with state := .active } ∧ (∀ r, r ≠ p → u.part r = s.part r) ∧
          Frame [.seqs, .parts] s u) ∧
      ((s.part p).state = .unloaded ∨ (s.part p).state = .loaded →
        ∃ u, Goes (.partActivate c.id) [.cmds, .parts] s u ∧
          u.part p = { s.part p with startSeq := s.clk.startupSeq } ∧ (∀ r, r ≠ p → u.part r = s.part r) ∧
          u.msq.cmds = mapFirst (fun d => decide (d.id = c.id)) (fun d => { d with phase := .startup }) s.msq.cmds) ∧
      ((s.part p).state = .active → Rejects (.partActivate c.id) c .rangeError (detState 0 0) s)) ∧
    (s.running = true → s.obs.hobble.state = 0 → s.startupOf p = some c →
      ((s.part p).starting = none →
        (s.partBusy p = true ∨ s.otherRunning c = true → exec (.partitionStartup p) s = .next s) ∧
        (s.partBusy p = false → s.otherRunning c = false →
          ∃ u, exec (.partitionStartup p) s = .next u ∧
            u.part p = { s.part p with
              starting := some 0, sectionOpen := false, sectionNo := 0, secCount := 0, fenceSeq := 0, dumpSeq := 0 } ∧
            (∀ r, r ≠ p → u.part r = s.part r) ∧
            (∀ i, i < 64 → u.ctr p i = 0 ∧ tgetD 0 u.obs.start (ctrKey p i) = 0 ∧ tgetD 0 u.obs.end_ (ctrKey p i) = 0) ∧
            (u.win (some p)).replies = (s.win (some p)).replies ∧
            (u.win (some p)).irqStatus =
              (if (s.win (some p)).replies = [] then 0 else (s.win (some p)).irqStatus &&& 1) ∧
            (∀ n : PortNo, ∀ f ∈ (u.ap n).hold, (s.bind (agentId n f.agent)).part ≠ p) ∧ u.opr.ops = s.opr.ops ∧
            Frame [.parts, .aps, .ops, .counters, .wins] s u)) ∧
      (∀ b code, (s.part p).starting = some b → code = stepCode (s.part p).startSeq (stepsDone b) →
        ∃ v, v.part p = { s.part p with starting := some (b ||| BitVec.ofNat 3 (2 ^ (code.toNat - 1))) } ∧
          (∀ r, r ≠ p → v.part r = s.part r) ∧ Frame [.parts] s v ∧
          ∀ y, (code = 1 → y = snShow v) → (code = 2 → y = v) → (code = 3 → y = resumePart p v) → code ≠ 0 →
            (stepsDone b ≠ 2 → exec (.partitionStartup p) s = .next (pump y)) ∧
            (stepsDone b = 2 → ∃ u, exec (.partitionStartup p) s = .next (pump (ok c
                (if c.opcode = 0x0212 then digestWords (y.part p).imgDigest else []) u)) ∧
              u.part p = { y.part p with state := .active, starting := none } ∧
              (∀ r, r ≠ p → u.part r = y.part r) ∧ Frame [.parts] y u))) ∧
    (CmdReady 0x0203 noFmt c q s →
      ((s.part p).state = .unloaded ∨ (s.part p).state = .loaded ∨ (s.part p).state = .quiesced →
        ∃ u, Completes (.partQuiesce c.id) c .ok 0 [] [] s u) ∧
      ((s.part p).state = .loading →
        ∃ u, exec (.partQuiesce c.id) s = .next (pump (ok c [] (endLoad p (abortEarlier c u)))) ∧ SeqsKept s u ∧
          Frame [.seqs] s u) ∧
      ((s.part p).state = .active ∨ (s.part p).state = .quiescing →
        ∃ u, exec (.partQuiesce c.id) s = .next (pump (startWait c .waiting (abortEarlier c u))) ∧ SeqsKept s u ∧
          u.part p = { s.part p with state := .quiescing } ∧ (∀ r, r ≠ p → u.part r = s.part r) ∧
          Frame [.seqs, .parts, .aps] s u)) ∧
    (∀ u : State, (u.msq.cmds.map (·.id)).Nodup →
      (abortEarlier c u).msq.cmds =
        u.msq.cmds.filter (fun d => !(decide (d ∈ cmdsBefore c.id u.msq.cmds) && endedBy c d))) ∧
    (s.running = true → s.obs.hobble.state = 0 → s.quiesceOf p = some c →
      (s.partBusy p = false →
        ∃ u, exec (.partQuiesceDrained p) s = .next (pump (ok c [] u)) ∧
          u.part p = { s.part p with state := .quiesced } ∧ (∀ r, r ≠ p → u.part r = s.part r) ∧ Frame [.parts] s u) ∧
      (s.partBusy p = true → exec (.partQuiesceDrained p) s = .next s) ∧
      (∀ n x, x = elapse n s → (c.field 2 0 16 : BitVec 16) ≠ 0 →
        (c.at_ + (c.field 2 0 16 : BitVec 16).toNat * 1000 ≤ x.now →
          exec (.partQuiesceTimeout p n) s = .next (pump (refuse c .timedOut 0 x))) ∧
        (x.now < c.at_ + (c.field 2 0 16 : BitVec 16).toNat * 1000 → exec (.partQuiesceTimeout p n) s = .next x)))

/-- R194, R195, R190 and R348: `SECTION_BEGIN` waits for `SEC_OPEN` = 0, sends the next fence and waits for its acknowledgement, which opens the section and latches the counters; `SECTION_END` closes it and latches `CTR_END`; a limit that elapses while the command waits for `SEC_OPEN` = 0 or for the acknowledgement opens nothing. -/
def Obligations.Sections : Prop :=
  ∀ (c : Cmd) (q : Nat) (s : State) (p : PartId), p = c.part →
    (CmdReady 0x0220 noFmt c q s →
      ((s.part p).sectionOpen = true ∨ s.beginPending p = true →
        Rejects (.sectionBegin c.id) c .rangeError (detState 2 0) s) ∧
      ((s.part p).sectionOpen = false → s.beginPending p = false →
        ∃ u, Goes (.sectionBegin c.id) [.cmds, .parts] s u ∧
          u.part p = { s.part p with fenceLatch := decide ((s.part p).secCount = 0) } ∧
          (∀ r, r ≠ p → u.part r = s.part r) ∧
          u.msq.cmds = mapFirst (fun d => decide (d.id = c.id)) (fun d => { d with phase := .waiting }) s.msq.cmds)) ∧
    (((s.part p).secCount = 1 → ((secDown p s).part p).fenceLatch = true) ∧
      ((s.part p).secCount ≠ 1 → ((secDown p s).part p).fenceLatch = (s.part p).fenceLatch) ∧
      ((secUp p s).part p).fenceLatch = (s.part p).fenceLatch) ∧
    (s.running = true → s.obs.hobble.state = 0 → s.begunSection p = some c →
      (c.phase = .waiting → (s.part p).fenceLatch = false ∨ s.snRoom = false → exec (.kernelFence p) s = .next s) ∧
      (c.phase = .waiting → (s.part p).fenceLatch = true → s.sn.mgmtCount < Config.snMgmt → s.sn.backlog = [] →
        ∃ t l n, l = s.sn.queue ++ [n] ∧
          n = ⟨[0x10#8 ++ p ++ 0#2 ++ c.word 2 ++ ((s.part p).fenceSeq + 1)], 0, false, true, some p, none⟩ ∧
          exec (.kernelFence p) s = .next t ∧
          (t.part p).fenceSeq = (s.part p).fenceSeq + 1 ∧
          t.msq.cmds = mapFirst (fun d => decide (d.id = c.id))
            (fun d => { d with phase := .fenceAck ((s.part p).fenceSeq + 1) }) s.msq.cmds ∧
          t.sn.queue =
            (if s.sn.queue.any (·.shown) then l
             else mapFirst (fun m => !s.snBlocked m) (fun m => { m with shown := true }) l) ∧
          Frame [.cmds, .parts, .sn, .counters, .wins] s t) ∧
      (∀ n x, x = elapse n s → (c.field 3 0 16 : BitVec 16) ≠ 0 →
        (c.at_ + (c.field 3 0 16 : BitVec 16).toNat * 1000 ≤ x.now →
          ¬(c.phase = .waiting ∧ (s.part p).fenceLatch = true) →
          ∃ u, exec (.sectionBeginTimeout p n) s = .next (pump (refuse c .timedOut 0 u)) ∧ Frame [.sn] x u ∧
            (∀ seq, c.phase = .fenceAck seq → u.sn.timedOut = s.sn.timedOut ++ [(p, seq)])) ∧
        (x.now < c.at_ + (c.field 3 0 16 : BitVec 16).toNat * 1000 ∨
            (c.phase = .waiting ∧ (s.part p).fenceLatch = true) → exec (.sectionBeginTimeout p n) s = .next x))) ∧
    (CmdReady 0x0221 noFmt c q s →
      ((s.part p).sectionOpen = false ∨ (s.part p).sectionNo ≠ c.word 2 →
        Rejects (.sectionEnd c.id) c .rangeError (detState 2 0) s) ∧
      ((s.part p).sectionOpen = true → (s.part p).sectionNo = c.word 2 →
        ∃ u, exec (.sectionEnd c.id) s = .next (pump (latchEnd p
            (ok c [s.time64.extractLsb' 0 32, s.time64.extractLsb' 32 32] u))) ∧ SeqsKept s u ∧
          u.part p = { s.part p with sectionOpen := false } ∧ (∀ r, r ≠ p → u.part r = s.part r) ∧
          Frame [.seqs, .parts] s u)) ∧
    (∀ i, i < 64 →
      (latchEnd p s).ctr p i = s.ctr p i ∧ tgetD 0 (latchEnd p s).obs.end_ (ctrKey p i) = s.ctr p i ∧
      tgetD 0 (latchEnd p s).obs.start (ctrKey p i) = tgetD 0 s.obs.start (ctrKey p i) ∧
      (latchBegin p s).ctr p i = 0 ∧ tgetD 0 (latchBegin p s).obs.end_ (ctrKey p i) = s.ctr p i ∧
      tgetD 0 (latchBegin p s).obs.start (ctrKey p i) = tgetD 0 s.obs.end_ (ctrKey p i)) ∧
    (∀ seq : BitVec 16, ∃ u, openSection c seq s = latchBegin p (ok c
        [seq.setWidth 32, s.time64.extractLsb' 0 32, s.time64.extractLsb' 32 32] u) ∧
      u.part p = { s.part p with sectionOpen := true, sectionNo := c.word 2 } ∧ Frame [.parts] s u)

/-- R302 to R309: `IMAGE_BEGIN` opens a load session for an image whose header passes every check, with its contexts and descriptors made; `IMAGE_FRAME` takes the bytes of the next frame in order; `IMAGE_COMMIT` of a complete and authentic image leaves the partition `LOADED`, and a failure of content ends the session. -/
def Obligations.Images : Prop :=
  ∀ (c : Cmd) (q : Nat) (s : State) (p : PartId) (h : List Byte) (len : Nat), p = c.part →
    (CmdReady 0x0210 imgBeginFmt c q s → len = (c.word 4).toNat → h = memBytes s (c.addr 2) len →
      (memErr s s.slu.engineReqid (c.addr 2) len = true →
        ∃ u, Completes (.imageBegin c.id) c .rangeError (det 2 0) [] [.mmPort] s u ∧
          u.mmOut = some ⟨false, s.slu.engineReqid, c.addr 2, len⟩) ∧
      (memErr s s.slu.engineReqid (c.addr 2) len = false →
        ((s.part p).state = .loading ∨ (s.part p).state = .active ∨ (s.part p).state = .quiescing ∨ 4 ≤ s.sessions →
          ∃ u, Completes (.imageBegin c.id) c .rangeError (BitVec.ofNat 32 (2 ^ 31 + 0x0B)) [] [.mmPort] s u) ∧
        (s.loadRefused p = false →
          (imgFormOk h len = false →
            ∃ u, Completes (.imageBegin c.id) c .formatError (BitVec.ofNat 32 (2 ^ 31 + 1)) [] [.mmPort] s u) ∧
          (imgFormOk h len = true → bnat h 8 2 = 0x0C17 →
            bnat h 12 4 ≤ (Config.idVersion.setWidth 24).toNat ∧ (Config.idVersion.setWidth 24).toNat ≤ bnat h 16 4 →
            bnat h 10 2 = 0xFFFF ∨ bnat h 10 2 = s.slu.instClass.toNat →
            bnat h 22 1 % 2 = 1 ∨ (s.fab.nodeValid = true ∧ bnat h 20 2 = s.fab.nodeId.toNat) →
            (s.slu.imgKey ≠ some (Config.sha384 (bslice h 112 97)) →
              ∃ u, Completes (.imageBegin c.id) c .signatureError (BitVec.ofNat 32 (2 ^ 31 + 6)) [] [.mmPort] s u) ∧
            (s.slu.imgKey = some (Config.sha384 (bslice h 112 97)) →
              Config.ecdsaVerify (bslice h 112 97) (bslice h 224 96) (imgSigned h) = false →
              ∃ u, Completes (.imageBegin c.id) c .signatureError (BitVec.ofNat 32 (2 ^ 31 + 7)) [] [.mmPort] s u)) ∧
          (imgCheck p h len s = none →
            (∀ y, SeqsKept s y → Frame [.seqs, .mmPort] s y →
              (placeImage p (imgCtxs h) (imgFrames h) y).isSome = true) →
            ∃ u, exec (.imageBegin c.id) s = .next (pump (ok c
                [BitVec.ofNat 32 (imgFrames h).length, BitVec.ofNat 32 (bnat h 32 8)] u)) ∧
              (u.part p).state = .loading ∧ (u.part p).imgDigest = 0 ∧ ∃ l, (u.part p).load = some l ∧ l.frame = 0 ∧ l.got = 0 ∧ l.body = [] ∧
                l.frames.length = (imgFrames h).length ∧ l.header = imgSigned h ∧
                l.descs.length = ringTotal (imgFrames h))))) ∧
    (∀ l f, CmdReady 0x0211 imgFrameFmt c q s → len = (c.word 5).toNat → (s.part p).load = some l →
      l.frames[l.frame]? = some f → (c.field 2 0 16 : BitVec 16).toNat = l.frame →
      (f.2.2.2.2 < l.got + len →
        Rejects (.imageFrame c.id) c .formatError (BitVec.ofNat 32 (2 ^ 31 + 256 * (l.frame % 65536) + 0x11)) s) ∧
      (l.got + len ≤ f.2.2.2.2 → memErr s s.slu.engineReqid (c.addr 3) len = true →
        ∃ u, Completes (.imageFrame c.id) c .rangeError (det 3 0) [] [.mmPort] s u ∧
          u.mmOut = some ⟨false, s.slu.engineReqid, c.addr 3, len⟩) ∧
      (∀ m, l.got + len ≤ f.2.2.2.2 → memErr s s.slu.engineReqid (c.addr 3) len = false → s.frameDark p f = none →
        m = { l with
          got := l.got + len, body := l.body ++ memBytes s (c.addr 3) len
          rest := l.rest ++ memBytes s (c.addr 3) len } →
        (l.rest.length + len < entrySize f.1 →
          ∃ u, Completes (.imageFrame c.id) c .ok 0 [BitVec.ofNat 32 len] [.parts, .mmPort] s u ∧
            u.part p = { s.part p with load := some m }) ∧
        ((∀ y, SeqsKept s y → Frame [.seqs, .mmPort] s y →
            (loadEntries p f l.frame (m.rest.length + 1) ((l.got - l.rest.length) / entrySize f.1) m y).isSome = true) →
          ∃ u m', exec (.imageFrame c.id) s = .next (pump (ok c [BitVec.ofNat 32 len] u)) ∧
            (u.part p).load = some m' ∧ m'.got = m.got ∧ m'.body = m.body ∧ m'.frame = m.frame) ∧
        ((∀ y, SeqsKept s y → Frame [.seqs, .mmPort] s y →
            loadEntries p f l.frame (m.rest.length + 1) ((l.got - l.rest.length) / entrySize f.1) m y = none) →
          ∃ u, exec (.imageFrame c.id) s = .next (pump (refuse c .formatError
              (BitVec.ofNat 32 (2 ^ 31 + 256 * (l.frame % 65536) + 0x0D)) (endLoad p u))) ∧ SeqsKept s u ∧
            Frame [.seqs, .mmPort] s u))) ∧
    (∀ l, CmdReady 0x0212 noFmt c q s → (s.part p).load = some l →
      (∀ st d, commitCheck l s = some (st, d) →
        ∃ u, exec (.imageCommit c.id) s = .next (pump (refuse c st d (endLoad p u))) ∧ SeqsKept s u ∧ Frame [.seqs] s u) ∧
      (commitCheck l s = none → c.bit 2 0 = false →
        ∃ u, Completes (.imageCommit c.id) c .ok 0 (digestWords (Config.sha384 l.header)) [.parts, .records] s u ∧
          u.part p = { s.part p with
            state := .loaded, load := none, imgDigest := Config.sha384 l.header
            imgCensus := decide (bnat l.header 22 1 / 2 % 2 = 1) } ∧
          u.wmc.records = s.wmc.records ++ l.rosters.map (fun r => ⟨r.2.1, r.2.2, 0, 0, 0⟩)) ∧
      (commitCheck l s = none → c.bit 2 0 = true →
        ∃ u, Goes (.imageCommit c.id) [.parts, .records, .cmds] s u ∧
          (u.part p).load = none ∧ (u.part p).imgDigest = Config.sha384 l.header ∧
          (u.part p).startSeq = s.clk.startupSeq ∧
          u.msq.cmds = mapFirst (fun d => decide (d.id = c.id)) (fun d => { d with phase := .startup }) s.msq.cmds)) ∧
    (∀ u : State, ((endLoad p u).part p).state = .unloaded ∧ ((endLoad p u).part p).load = none ∧
      ((endLoad p u).part p).starting = none ∧ ((endLoad p u).part p).imgDigest = 0 ∧
      ((endLoad p u).part p).imgCensus = false ∧
      ∀ d, ((endLoad p u).ctx p d).state = .free)

/-- R284, R286 to R289: `FW_STAGE` records an image that passes every check and names the first one that fails; `FW_QUERY` answers versions, states and the staged image; the push registers take a pushed image word by word; the boot load starts all four sequencers or leaves all off. The model's choice in it: a sequencer whose firmware memory is lost stays off (log 24). -/
def Obligations.FirmwareImages : Prop :=
  ∀ (c : Cmd) (q : Nat) (s : State) (l : List Byte) (len ver : Nat), ver = (Config.idVersion.setWidth 24).toNat →
    (CmdReady 0x0501 fwStageFmt c q s → len = (c.word 4).toNat → l = memBytes s (c.addr 2) len →
      (s.msq.fwApply.isSome = true → Rejects (.fwStage c.id) c .rangeError (BitVec.ofNat 32 65536) s) ∧
      (s.msq.fwApply = none → memErr s s.slu.engineReqid (c.addr 2) len = true →
        ∃ u, Completes (.fwStage c.id) c .rangeError (det 2 0) [] [.mmPort] s u ∧
          u.mmOut = some ⟨false, s.slu.engineReqid, c.addr 2, len⟩) ∧
      (s.msq.fwApply = none → memErr s s.slu.engineReqid (c.addr 2) len = false →
        (fwFormOk l len = false → ∃ u, Completes (.fwStage c.id) c .formatError 1 [] [.mmPort] s u) ∧
        (fwFormOk l len = true → ver < bnat l 8 4 ∨ bnat l 12 4 < ver →
          ∃ u, Completes (.fwStage c.id) c .identityError 2 [] [.mmPort] s u) ∧
        (fwFormOk l len = true → bnat l 8 4 ≤ ver → ver ≤ bnat l 12 4 →
          (s.slu.fwKey ≠ some (Config.sha384 (bslice l 80 97)) →
            ∃ u, Completes (.fwStage c.id) c .signatureError 3 [] [.mmPort] s u) ∧
          (s.slu.fwKey = some (Config.sha384 (bslice l 80 97)) →
            (Config.sha384 (fwSigned l) ≠ fwDigest l →
              ∃ u, Completes (.fwStage c.id) c .digestError 4 [] [.mmPort] s u) ∧
            (Config.sha384 (fwSigned l) = fwDigest l →
              (Config.ecdsaVerify (bslice l 80 97) (bslice l 192 96) (fwSigned l) = false →
                ∃ u, Completes (.fwStage c.id) c .signatureError 5 [] [.mmPort] s u) ∧
              (Config.ecdsaVerify (bslice l 80 97) (bslice l 192 96) (fwSigned l) = true →
                (bnat l 16 4 < s.slu.otp.svnFloor →
                  ∃ u, Completes (.fwStage c.id) c .signatureError 6 [] [.mmPort] s u) ∧
                (s.slu.otp.svnFloor ≤ bnat l 16 4 →
                  ∃ u, Completes (.fwStage c.id) c .ok 0
                      ([bvOf 32 (bslice l 4 4), bvOf 32 (bslice l 16 4)] ++ digestWords (fwDigest l))
                      [.fwStore, .mmPort] s u ∧
                    u.slu.staged = some ⟨BitVec.ofNat 48 (c.addr 2), len, fwDigest l, bvOf 32 (bslice l 4 4),
                      bvOf 32 (bslice l 16 4), bvOf 32 (bslice l 24 4)⟩))))))) ∧
    (CmdReady 0x0503 noFmt c q s →
      ∃ u, Completes (.fwQuery c.id) c .ok 0
        [(s.seq 0).version, (s.seq 1).version, (s.seq 2).version, (s.seq 3).version,
          0#16 ++ (s.seq 3).code ++ (s.seq 2).code ++ (s.seq 1).code ++ (s.seq 0).code,
          (s.slu.staged.map (·.version)).getD 0, (s.slu.staged.map (·.svn)).getD 0] [] s u) ∧
    (s.cmd c.id = some c → c.opcode = 0x0000 → s.canStart c = true → s.runner c = none → c.reserved ⟨0, false, .none, 0, List.replicate 14 0xFFFFFFFF⟩ = [] →
      exec (.nop c.id) s = .next (pump (ok c (c.words.drop 2) s))) ∧
    (∀ acc : CrAcc, s.clk.boot ≠ .align → s.slu.lc ≠ .retired → acc.priv = true →
      (s.pushOpen = false → (∃ t, exec (.fwPushData acc) s = .next t ∧ Frame [.crPort] s t) ∧
        ∃ t, exec (.fwPushPtrWrite acc) s = .next t ∧ Frame [.crPort] s t) ∧
      (s.pushOpen = true →
        (∃ t, exec (.fwPushPtrWrite acc) s = .next t ∧ t.slu.pushWord = acc.wdata.extractLsb' 2 17 ∧ t.slu.pushEnd = false ∧
          t.slu.fwMem = s.slu.fwMem ∧ Frame [.crPort, .fwStore] s t) ∧
        (s.slu.pushEnd = true → ∃ t, exec (.fwPushData acc) s = .next t ∧ Frame [.crPort] s t) ∧
        (s.slu.pushEnd = false →
          ∃ t, exec (.fwPushData acc) s = .next t ∧
            tgetD 0 t.slu.fwMem s.slu.pushWord.toNat = acc.wdata ∧
            (∀ k, k ≠ s.slu.pushWord.toNat → tgetD 0 t.slu.fwMem k = tgetD 0 s.slu.fwMem k) ∧
            (s.slu.pushWord ≠ 0x1FFFF → t.slu.pushWord = s.slu.pushWord + 1 ∧ t.slu.pushEnd = false) ∧
            (s.slu.pushWord = 0x1FFFF → t.slu.pushEnd = true) ∧ Frame [.crPort, .fwStore] s t))) ∧
    (s.running = true → s.obs.hobble.state = 0 → s.bootSrc = 0 → s.slu.booted = false → s.anyRunning = false →
      (s.bootImage = some l → fwCheck l (384 + fwBodyLen l) s = none →
        ∃ u, exec .fwBootLoad s = .next (pump u) ∧ u.slu.booted = true ∧
          (∀ n, u.seq n = if s.fwLost n then s.seq n else { s.seq n with
            code := 1, awls := [], skip := none, held := [], fwVersion := bvOf 32 (bslice l 4 4)
            dbgHalt := false, dbgStep := false }) ∧
          Frame [.seqs, .fwStore, .mmPort] s u) ∧
      (s.bootImage = none ∨ (s.bootImage = some l ∧ (fwCheck l (384 + fwBodyLen l) s).isSome = true) →
        ∃ t, exec .fwBootLoad s = .next t ∧ t.slu.booted = true ∧ 2 ≤ t.slu.svc.toNat ∧ t.slu.svcCause = 0x08 ∧
          t.cr.irqStatus.getLsbD 10 = true ∧ t.gctr 41 = s.gctr 41 + 1 ∧
          Frame [.fwStore, .service, .irq, .gctr, .rake, .sn, .wins, .counters, .mmPort] s t))

/-- R290 and R291: `FW_APPLY` quiesces its first sequencer, or is refused; a sequencer whose image has the recorded digest runs again with the new version, and the next one quiesces, until the update replies; one whose image does not is rejected, and the update ends; from the cut edge of a Hobble on, the update stands still. The model's choices in it: a memory error on the read of the staged image counts as a digest that differs (log 82), and so does the loss of the sequencer's firmware memory (log 24). -/
def Obligations.FirmwareUpdates : Prop :=
  ∀ (c : Cmd) (q : Nat) (s : State),
    (CmdReady 0x0502 noFmt c q s →
      (s.applyRefused = true → Rejects (.fwApply c.id) c .rangeError (BitVec.ofNat 32 65536) s) ∧
      (s.applyRefused = false → s.stopsLast c = true → Rejects (.fwApply c.id) c .rangeError (detState 2 0) s) ∧
      (∀ n, s.slu.staged.isSome = true → s.obs.hobble.state = 0 → s.msq.fwApply = none →
        s.stopsLast c = false → n = (if c.bit 2 2 then 0 else c.field 2 0 2 : SeqNo) →
        (s.seq n).code ≠ 5 →
        ∃ u, exec (.fwApply c.id) s = .next (pump u) ∧
          u.msq.fwApply = some ⟨c.id, if c.bit 2 2 then [0, 1, 2, 3] else [n], 0, none⟩ ∧ (u.seq n).code = 2 ∧
          (∀ m, m ≠ n → (u.seq m).code = (s.seq m).code) ∧
          u.msq.cmds = mapFirst (fun d => decide (d.id = c.id)) (fun d => { d with phase := .waiting }) s.msq.cmds ∧
          Frame [.seqs, .cmds, .fwApply] s u)) ∧
    (s.obs.hobble.state ≠ 0 → exec .fwApplySequencerLoad s = .next s) ∧
    (∀ a n rest x, s.running = true → s.obs.hobble.state = 0 → s.msq.fwApply = some a → a.left = n :: rest →
      s.applyImage a = some x → (s.seq n).code = 2 →
      ∃ t, exec .fwApplySequencerLoad s = .next t ∧ t.seq n = { s.seq n with code := 3 } ∧
        (∀ m, m ≠ n → t.seq m = s.seq m) ∧ Frame [.seqs] s t) ∧
    (∀ a n rest x, s.running = true → s.obs.hobble.state = 0 → s.msq.fwApply = some a → a.left = n :: rest →
      a.pushed = none → s.slu.staged = some x → s.cmd a.cmd = some c → (s.seq n).code ≠ 2 →
      (memErr s s.slu.engineReqid x.addr.toNat x.len = true ∨ s.fwLost n = true ∨
          Config.sha384 (bslice (memBytes s x.addr.toNat x.len) 0 32 ++ (memBytes s x.addr.toNat x.len).drop 384) ≠ x.digest →
        ∃ u, exec .fwApplySequencerLoad s = .next (pump (complete c .fwRejected 0
            [a.updated.setWidth 32, (setBit (0 : BitVec 4) n.toNat).setWidth 32, x.version] u)) ∧
          (u.seq n).code = 4 ∧ (∀ m, m ≠ n → u.seq m = s.seq m) ∧ u.msq.fwApply = none ∧ u.gctr 41 = s.gctr 41 + 1 ∧
          u.cr.irqStatus.getLsbD 10 = true ∧ Frame [.seqs, .fwStore, .fwApply, .gctr, .rake, .irq, .mmPort] s u) ∧
      (memErr s s.slu.engineReqid x.addr.toNat x.len = false → s.fwLost n = false →
        Config.sha384 (bslice (memBytes s x.addr.toNat x.len) 0 32 ++ (memBytes s x.addr.toNat x.len).drop 384) = x.digest →
        (rest = [] →
          ∃ u, exec .fwApplySequencerLoad s = .next (pump (complete c .ok 0
              [(setBit a.updated n.toNat).setWidth 32, 0, x.version] u)) ∧
            u.seq n = { s.seq n with
              code := 1, awls := [], skip := none, held := [], fwVersion := x.version, dbgHalt := false, dbgStep := false } ∧
            (∀ m, m ≠ n → u.seq m = s.seq m) ∧ u.msq.fwApply = none ∧
            u.mmOut = some ⟨false, s.slu.engineReqid, x.addr.toNat, x.len⟩ ∧
            Frame [.seqs, .fwStore, .fwApply, .mmPort] s u) ∧
        (∀ m l, rest = m :: l → m ≠ n → (s.seq m).code ≠ 5 →
          ∃ t, exec .fwApplySequencerLoad s = .next t ∧
            t.seq n = { s.seq n with
              code := 1, awls := [], skip := none, held := [], fwVersion := x.version, dbgHalt := false, dbgStep := false } ∧
            (t.seq m).code = 2 ∧ t.msq.fwApply = some { a with left := rest, updated := setBit a.updated n.toNat } ∧
            Frame [.seqs, .fwStore, .fwApply, .mmPort] s t)))

/-- R358 to R361: `AWL_SET` and `AWL_CLEAR` write one awl of one sequencer; a hit halts the sequencer with what it was about to do and drains its partitions, unless no other runs: then it is counted and reported; `AWL_RESUME` lets a halted sequencer and what it held go on. The model's choices in it (log 31): `AWL_RESUME` of a sequencer that is not halted answers `RANGE_ERROR`; the command that a sequencer at a PC hit was about to take is held with it. A sequencer that `DBG_SEQ` has halted meets no awl (log 47). -/
def Obligations.Awls : Prop :=
  ∀ (c : Cmd) (q : Nat) (s : State) (n : SeqNo) (k : BitVec 3) (pc : Word),
    (CmdReady 0x0410 awlFmt c q s → n = c.field 2 0 2 → k = c.field 2 2 3 →
      ∃ u, exec (.awlSet c.id) s = .next (pump (ok c [] u)) ∧
        (u.seq n).awls = (k, c.bit 2 5, c.word 3) :: (s.seq n).awls.filter (fun a => decide (a.1 ≠ k)) ∧
        (∀ m, { u.seq m with skip := none, dbgStep := false, awls := [] } =
          { s.seq m with skip := none, dbgStep := false, awls := [] }) ∧
        (∀ m, m ≠ n → (u.seq m).awls = (s.seq m).awls) ∧ Frame [.seqs] s u) ∧
    (CmdReady 0x0411 noFmt c q s → n = c.field 2 0 2 → k = c.field 2 2 3 →
      ∃ u, exec (.awlClear c.id) s = .next (pump (ok c [] u)) ∧
        (u.seq n).awls = (s.seq n).awls.filter (fun a => decide (a.1 ≠ k)) ∧
        (∀ m, { u.seq m with skip := none, dbgStep := false, awls := [] } =
          { s.seq m with skip := none, dbgStep := false, awls := [] }) ∧
        (∀ m, m ≠ n → (u.seq m).awls = (s.seq m).awls) ∧ Frame [.seqs] s u) ∧
    (CmdReady 0x0412 noFmt c q s → n = c.field 2 0 2 →
      ((s.seq n).code ≠ 5 → Rejects (.awlResume c.id) c .rangeError (detState 2 0) s) ∧
      ((s.seq n).code = 5 →
        ∃ u, exec (.awlResume c.id) s = .next (pump (ok c []
            ((s.seq n).held.foldl (fun x p => if (x.part p).state = .active then resumePart p x else x) u))) ∧
          u.seq n = { s.seq n with code := 1, skip := some (s.seq n).awl, held := [] } ∧
          (∀ m, m ≠ n → { u.seq m with skip := none, dbgStep := false } = { s.seq m with skip := none, dbgStep := false }) ∧
          u.msq.cmds = s.msq.cmds.map (fun d => if d.phase = .halted n then { d with phase := .queued } else d) ∧
          Frame [.seqs, .cmds] s u)) ∧
    (s.seqHalted n.toNat = true → exec (.awlHit n pc) s = .next s) ∧
    (∀ a, s.running = true → s.obs.hobble.state.toNat < 2 → s.seqRunning n.toNat = true → s.seqHalted n.toNat = false →
      (s.seq n).awls.find? (fun a => !a.2.1 && decide (a.2.2 = pc)) = some a →
      ((s.seq n).skip = some a.1 →
        ∃ t, exec (.awlHit n pc) s = .next t ∧ t.seq n = { s.seq n with skip := none } ∧ Frame [.seqs] s t) ∧
      ((s.seq n).skip ≠ some a.1 → s.onlyRunning n.toNat = true →
        ∃ t, exec (.awlHit n pc) s = .next t ∧ t.gctr 41 = s.gctr 41 + 1 ∧
          t.seq n = { s.seq n with misses := if (s.seq n).misses = 0xFFFF then 0xFFFF else (s.seq n).misses + 1 } ∧
          Frame [.seqs, .gctr, .rake, .irq] s t) ∧
      ((s.seq n).skip ≠ some a.1 → s.onlyRunning n.toNat = false →
        ∃ u, exec (.awlHit n pc) s = .next (pump (raiseGlobal 9 ((s.owned n.toNat).foldl (fun x p => drainPart p x) u))) ∧
          u.seq n = { s.seq n with
            code := 5, awl := a.1, awlKind := false, pc := pc, held := s.owned n.toNat, skip := none
            part := ((s.seqCmd n).map (·.part)).getD 0, sqn := ((s.seqCmd n).map (·.field 0 8 8)).getD 0
            opcode := ((s.seqCmd n).map (·.opcode)).getD 0 } ∧ (∀ m, m ≠ n → u.seq m = s.seq m) ∧
          (s.seqCmd n = none → u.msq.cmds = s.msq.cmds) ∧
          (∀ d, s.seqCmd n = some d →
            u.msq.cmds = mapFirst (fun y => decide (y.id = d.id)) (fun y => { y with phase := .halted n }) s.msq.cmds) ∧
          Frame [.seqs, .cmds] s u)) ∧
    (s.running = true → s.obs.hobble.state.toNat < 2 → s.seqRunning n.toNat = true → s.seqHalted n.toNat = false →
      (s.seq n).awls.find? (fun a => !a.2.1 && decide (a.2.2 = pc)) = none → s.awlCmd n = some (c, k) →
      s.onlyRunning n.toNat = false →
      ∃ u ps, exec (.awlHit n pc) s = .next (pump (raiseGlobal 9 (ps.foldl (fun x p => drainPart p x) u))) ∧
        (u.seq n).code = 5 ∧ (u.seq n).awl = k ∧ (u.seq n).awlKind = true ∧ (u.seq n).opcode = c.opcode ∧
        (u.seq n).part = c.part ∧ (u.seq n).held = ps ∧ (c.ofPart = true → c.part ∈ ps) ∧ (∀ p ∈ s.owned n.toNat, p ∈ ps) ∧
        u.msq.cmds = mapFirst (fun d => decide (d.id = c.id)) (fun d => { d with phase := .halted n }) s.msq.cmds ∧
        Frame [.seqs, .cmds] s u)

/-- R338 and R339: `BANK_GATE` fences a bank that holds no bound slot and gates it once nothing is in flight there; `BANK_UNGATE` and work for a gated bank re-power it, and a bank that serves again answers the ungate commands that wait for it. -/
def Obligations.BankPower : Prop :=
  ∀ (c : Cmd) (q : Nat) (s : State) (b : Bank), b = c.field 2 0 7 →
    (CmdReady 0x0511 noFmt c q s → c.bit 2 8 = false →
      (68 ≤ b.toNat → Rejects (.bankGate c.id) c .rangeError (det 2 0) s) ∧
      (b.toNat < 68 → s.bankBound b.toNat = true ∨ s.obk.retired.getLsbD b.toNat = true ∨ s.inRetire b = true →
        Rejects (.bankGate c.id) c .rangeError (detState 2 0) s) ∧
      (b.toNat < 68 → s.bankBound b.toNat = false → s.obk.retired.getLsbD b.toNat = false → s.inRetire b = false →
        ∃ u, Goes (.bankGate c.id) [.cmds, .banks] s u ∧ u.obk.fenced = setBit s.obk.fenced b.toNat ∧
          u.obk.gating = s.obk.gating ++ [(b, c.id)] ∧ u.obk.gated = s.obk.gated ∧
          u.msq.cmds = mapFirst (fun d => decide (d.id = c.id)) (fun d => { d with phase := .waiting }) s.msq.cmds)) ∧
    (CmdReady 0x0511 noFmt c q s → c.bit 2 8 = true → 68 ≤ b.toNat → Rejects (.bankUngate c.id) c .rangeError (det 2 0) s) ∧
    (CmdReady 0x0511 noFmt c q s → c.bit 2 8 = true → b.toNat < 68 →
      (s.obk.gated.getLsbD b.toNat = false → ∃ u, Completes (.bankUngate c.id) c .ok 0 [] [] s u) ∧
      (s.obk.gated.getLsbD b.toNat = true →
        ∃ u, Goes (.bankUngate c.id) [.cmds, .banks] s u ∧ u.obk.waking = setBit s.obk.waking b.toNat ∧
          u.obk.gated = s.obk.gated)) ∧
    (∀ d, s.running = true → s.obs.hobble.state = 0 →
      s.obk.gating.find? (fun g => !s.bankBusy g.1.toNat) = some (d, c.id) → s.cmd c.id = some c →
      (s.bankBound d.toNat = true →
        ∃ u, exec .bankGateComplete s = .next (pump (refuse c .rangeError (detState 2 0) u)) ∧
          u.obk.gated = s.obk.gated ∧ u.obk.fenced = clearBit s.obk.fenced d.toNat ∧ Frame [.banks] s u) ∧
      (s.bankBound d.toNat = false →
        ∃ u, exec .bankGateComplete s = .next (pump (ok c [] u)) ∧
          u.obk.gated = setBit s.obk.gated d.toNat ∧ u.obk.fenced = clearBit s.obk.fenced d.toNat ∧
          u.obk.gating = dropFirst (fun g => decide (g = (d, c.id))) s.obk.gating ∧ Frame [.banks] s u)) ∧
    (∀ d : Bank, s.running = true → s.obs.hobble.state = 0 →
      (s.obk.waking.getLsbD d.toNat = false → exec (.gatedBankRepower d) s = .next s) ∧
      (s.obk.waking.getLsbD d.toNat = true →
        ∃ u, exec (.gatedBankRepower d) s = .next (pump ((s.msq.cmds.filter fun x =>
            decide (x.opcode = 0x0511 ∧ x.phase = .waiting ∧ x.field 2 0 7 = d) && x.bit 2 8).foldl (fun x y => ok y [] x) u)) ∧
          u.obk.gated = clearBit s.obk.gated d.toNat ∧ u.obk.waking = clearBit s.obk.waking d.toNat ∧
          u.gctr 33 = s.gctr 33 + 1 ∧ Frame [.banks, .gctr] s u))

/-- R340 to R343 and R336: `BANK_RETIRE` migrates a logical bank to the lowest free spare, or distributes it; the switch moves every row to the spare; when a retirement completes, the bank's fuse is burnt, the service state rises and the command replies. A bank whose corrections pass their threshold is retired by the engine itself. The model's choice in it (log 25): the map entry of a distributed bank keeps its `PHYS` field. -/
def Obligations.BankRetirement : Prop :=
  ∀ (c : Cmd) (q : Nat) (s : State) (b : Bank),
    (CmdReady 0x0510 noFmt c q s → b = c.field 2 0 7 →
      (68 ≤ b.toNat → Rejects (.bankRetire c.id) c .rangeError (det 2 0) s) ∧
      (b.toNat < 68 → s.obk.retire.isSome = true → ∃ u, Goes (.bankRetire c.id) [] s u) ∧
      (b.toNat < 68 → s.obk.retire = none → s.obk.retired.getLsbD b.toNat = true →
        Rejects (.bankRetire c.id) c .rangeError (detState 2 0) s) ∧
      (b.toNat < 68 → s.obk.retire = none → s.obk.retired.getLsbD b.toNat = false →
        (s.lbankAt b = none → ∃ u, Completes (.bankRetire c.id) c .ok 0 [] [.otp, .banks] s u ∧
          u.slu.otp = { s.slu.otp with bankRepair := setBit s.slu.otp.bankRepair b.toNat } ∧
          u.obk.retired = setBit s.obk.retired b.toNat) ∧
        (∀ l d, s.lbankAt b = some l → s.freeSpare = some d →
          ∃ u, Goes (.bankRetire c.id) [.cmds, .banks, .service, .irq, .sn, .wins, .counters] s u ∧
            u.obk.retire = some ⟨BitVec.ofNat 6 l, b, some d, some c.id, [], false⟩ ∧
            u.mapEntry l = { s.mapEntry l with mode := .migrating } ∧
            (∀ m, m ≠ l → u.mapEntry m = s.mapEntry m) ∧ u.obk.gated = clearBit s.obk.gated d.toNat) ∧
        (∀ l ms, s.lbankAt b = some l → s.freeSpare = none → s.distMoves = some ms →
          ∃ u, Goes (.bankRetire c.id) [.cmds, .banks] s u ∧
            u.obk.retire = some ⟨BitVec.ofNat 6 l, b, none, some c.id, ms, false⟩) ∧
        (∀ l, s.lbankAt b = some l → s.freeSpare = none → s.distMoves = none →
          ∃ u, Completes (.bankRetire c.id) c .rangeError (detState 2 0) []
              [.service, .irq, .sn, .wins, .counters] s u ∧ 2 ≤ u.slu.svc.toNat ∧ u.slu.svcCause = 0x05))) ∧
    (∀ l d m ms ho, s.running = true → s.obs.hobble.state = 0 → s.obk.retire = some ⟨l, b, some d, m, ms, ho⟩ →
      (s.mapEntry l.toNat).mode = .migrating → s.bankBusy b.toNat = true →
      ∃ t, exec .bankMigrationSwitch s = .next t ∧ t.obk.retire = some ⟨l, b, some d, m, ms, true⟩ ∧ Frame [.banks] s t) ∧
    (∀ l d m ms ho f, s.running = true → s.obs.hobble.state = 0 → s.obk.retire = some ⟨l, b, some d, m, ms, ho⟩ →
      (s.mapEntry l.toNat).mode = .migrating → s.bankBusy b.toNat = false → 64 ≤ d.toNat → d.toNat < 68 → b ≠ d →
      f = (fun o : Obj => { o with hdr := { o.hdr with wq := 0 } }) →
      ∃ u, exec .bankMigrationSwitch s = .next (pump u) ∧ u.mapEntry l.toNat = ⟨d, .direct, 0⟩ ∧
        (∀ n, n ≠ l.toNat → u.mapEntry n = s.mapEntry n) ∧ u.obk.spareUsed.getLsbD (d.toNat - 64) = true ∧
        (64 ≤ b.toNat → u.obk.spareUsed.getLsbD (b.toNat - 64) = false) ∧
        u.obk.retire = some ⟨l, b, some d, m, ms, false⟩ ∧
        (s.wmc.waiters = [] → keysRising s.obk.rows = true → ∀ r, r < 16384 → tget u.obk.rows (d.toNat * 16384 + r) =
          ((tget s.obk.rows (b.toNat * 16384 + r)).orElse fun _ => tget s.obk.rows (d.toNat * 16384 + r)) ∧
          tget u.obk.rows (b.toNat * 16384 + r) = none) ∧
        (keysRising s.obk.rows = true → ∀ r, r < 16384 → (tget u.obk.rows (d.toNat * 16384 + r)).map f =
          ((tget s.obk.rows (b.toNat * 16384 + r)).orElse fun _ => tget s.obk.rows (d.toNat * 16384 + r)).map f) ∧
        Frame [.banks, .rows, .free] s u) ∧
    (∀ l d ms ho, s.running = true → s.obs.hobble.state = 0 → s.obk.retire = some ⟨l, b, some d, some c.id, ms, ho⟩ →
      (s.mapEntry l.toNat).phys = d → s.cmd c.id = some c → s.obk.retireq = [] →
      ∃ u, exec .migrationComplete s = .next (pump (ok c [] u)) ∧ u.obk.retire = none ∧
        u.slu.otp = { s.slu.otp with bankRepair := setBit s.slu.otp.bankRepair b.toNat } ∧
        u.obk.retired = setBit s.obk.retired b.toNat ∧ u.obk.gated = setBit s.obk.gated b.toNat ∧
        1 ≤ u.slu.svc.toNat ∧ u.slu.svcCause = 0x03 ∧
        Frame [.otp, .banks, .service, .irq, .sn, .wins, .counters] s u) ∧
    (∀ l ms ho y, s.running = true → s.obs.hobble.state = 0 → s.obk.retire = some ⟨l, b, none, some c.id, ms, ho⟩ →
      y = holdMoves s → y.busyOn y.moveHeld = true ∨ y.leavingAbove y.lowerLimit = true →
      exec .distributionComplete s = .next y) ∧
    (∀ l ms ho y, s.running = true → s.obs.hobble.state = 0 → s.obk.retire = some ⟨l, b, none, some c.id, ms, ho⟩ →
      y = holdMoves s → y.busyOn y.moveHeld = false → y.leavingAbove y.lowerLimit = false → y.rowsDark = true →
      exec .distributionComplete s = .next (wakeRows y)) ∧
    (∀ l ms ho y, s.running = true → s.obs.hobble.state = 0 → s.obk.retire = some ⟨l, b, none, some c.id, ms, ho⟩ →
      y = holdMoves s → y.busyOn y.moveHeld = false → y.leavingAbove y.lowerLimit = false → y.rowsDark = false →
      s.cmd c.id = some c → s.obk.retireq = [] →
      ∃ u, exec .distributionComplete s = .next (pump (ok c [] u)) ∧ u.obk.retire = none ∧
        u.mapEntry l.toNat = { s.mapEntry l.toNat with mode := .distributed, dslot := BitVec.ofNat 6 s.distCount } ∧
        u.slu.otp = { s.slu.otp with bankRepair := setBit s.slu.otp.bankRepair b.toNat } ∧ 2 ≤ u.slu.svc.toNat ∧
        u.slu.svcCause = 0x04 ∧ Frame [.otp, .rows, .dir, .banks, .service, .irq, .sn, .wins, .counters, .free] s u) ∧
    (∀ w n t, s.running = true → t = addCorr w n s →
      (t.corrOf w).total = (s.corrOf w).total + n ∧ (∀ v, v ≠ w → t.corrOf v = s.corrOf v) ∧
      (s.frozen = false → t.gctr 27 = s.gctr 27 + BitVec.ofNat 64 n) ∧ Frame [.service, .gctr] s t ∧
      (unitThere w = false → exec (.correctionThreshold ⟨w, n⟩) s = .next s) ∧
      (unitThere w = true → 256 ≤ s.corrRate (some w) ∨ t.corrRate (some w) < 256 →
        (4096 ≤ s.corrRate none ∨ t.corrRate none < 4096 → exec (.correctionThreshold ⟨w, n⟩) s = .next t) ∧
        (s.corrRate none < 4096 → 4096 ≤ t.corrRate none →
          ∃ v, exec (.correctionThreshold ⟨w, n⟩) s = .next v ∧ 1 ≤ v.slu.svc.toNat ∧ v.slu.svcCause = 0x01 ∧
            Frame [.service, .irq, .sn, .wins, .counters] t v)) ∧
      (unitThere w = true → s.corrRate (some w) < 256 → 256 ≤ t.corrRate (some w) →
        (∀ k m, w = .store k m →
          ∃ v, exec (.correctionThreshold ⟨w, n⟩) s = .next v ∧ 1 ≤ v.slu.svc.toNat ∧ v.slu.svcCause = 0x01 ∧
            Frame [.service, .irq, .sn, .wins, .counters] t v) ∧
        (∀ r, w = .bank b → s.obk.retire = some r → r.dst ≠ some b → r.src ≠ b → s.obk.retireq.any (· = b) = false →
          ∃ v, exec (.correctionThreshold ⟨w, n⟩) s = .next v ∧ v.obk.retireq = s.obk.retireq ++ [b] ∧
            1 ≤ v.slu.svc.toNat ∧ v.slu.svcCause = 0x01 ∧
            Frame [.banks, .service, .irq, .sn, .wins, .counters] t v)))

/-- R335: an uncorrectable error in a slot's word destroys the object there, if one is bound, and is counted, reported and told to the scheduler; an error in another store has that store's effect with the same count, report and notice; where the store holds nothing it does nothing; an object whose context is out leaves the record of the context. The model's choice in it (log 13): which fields of the report carry macro, address and object. -/
def Obligations.StoreErrors : Prop :=
  ∀ (s : State) (m : Nat), s.running = true →
    (∀ k r, s.hasSlot k = true → (s.place k).1 < 68 → s.obk.retire = some r →
      r.dst ≠ some (BitVec.ofNat 7 (s.place k).1) →
      r.src = BitVec.ofNat 7 (s.place k).1 ∨ s.obk.retireq.any (· = BitVec.ofNat 7 (s.place k).1) = true →
      ∃ u, exec (.uncorrectableError (.objectWord k none) m) s = .next (pump u) ∧ u.obj k = none ∧
        (s.frozen = false → u.gctr 28 = s.gctr 28 + 1) ∧ u.slu.svcCause = 0x06 ∧ u.clk = s.clk ∧
        u.slu.otp = s.slu.otp ∧ u.msq = s.msq ∧
        (s.obj k = none → Frame [.gctr, .rake, .service, .irq, .sn, .wins, .counters] s u)) ∧
    (∀ k j, s.hasSlot k = true → (s.place k).1 < 68 → s.obk.retire = none →
      ∃ u, exec (.uncorrectableError (.objectWord k j) m) s = .next (pump u) ∧ u.obj k = none ∧
        (s.frozen = false → u.gctr 28 = s.gctr 28 + 1) ∧ u.slu.svcCause = 0x06 ∧ u.clk = s.clk) ∧
    (∀ k j, s.hasSlot k = false → exec (.uncorrectableError (.objectWord k j) m) s = .next s) ∧
    (∀ site st t, siteStore site = some st → unitThere (.store st (siteMacro site m)) = true → errEffect site s = some t →
      (∀ e ∈ t.slu.ueLast, ¬(e.1 = (st, siteMacro site m) ∧ t.now ≤ e.2 + 1000000000)) →
      ∃ u, exec (.uncorrectableError site m) s = .next (pump u) ∧ (t.frozen = false → u.gctr 28 = t.gctr 28 + 1) ∧
        u.slu.svcCause = 0x06 ∧ u.slu.storeFaults = t.slu.storeFaults ∧
        Frame [.gctr, .rake, .service, .irq, .sn, .wins, .counters] t u) ∧
    (∀ site, siteStore site ≠ none → errEffect site s = none →
      exec (.uncorrectableError site m) s = .next s) ∧
    (∀ n f, unitThere (.store .waiter m) = true → s.olu.fences[n]? = some f →
      (∀ e ∈ s.slu.ueLast, ¬(e.1 = (.waiter, m) ∧ s.now ≤ e.2 + 1000000000)) →
      ∃ u, exec (.uncorrectableError (.fenceEntry n) m) s = .next (pump u) ∧
        u.olu.fences = s.olu.fences.take n ++ s.olu.fences.drop (n + 1) ∧
        (s.frozen = false → u.gctr 28 = s.gctr 28 + 1) ∧ u.slu.svcCause = 0x06 ∧
        Frame [.fences, .gctr, .rake, .service, .irq, .sn, .wins, .counters] s u) ∧
    (∀ k o, s.obj k = none → s.objAny k = some o → loseObject k s = dropOut k (destroyObject k o s)) ∧
    ∀ k (v : State), ((dropOut k v).tackRec k.part k.ctx).all (fun x => x.objs.all fun o => decide (o.1 ≠ k.index)) = true

/-- R330 to R334: `LC_ADVANCE` is refused by the first failing check of its record, raises the security-version floor where its target is the state in force, and otherwise programs OTP as R329 says, replies, and leaves a warm reset due within 10 ms, which R334 performs. The model's choices in it (log 64): the reply's word that says whether a warm reset is pending, which reads 0 where none is, and the form of the new floor. -/
def Obligations.LifeCycle : Prop :=
  ∀ (c : Cmd) (q : Nat) (s : State) (i : Instr) (t : Lc) (r : List Byte) (raise : Bool) (h : BitVec 384)
    (pairs : List (Lc × Lc × BitVec 384)) (src : Option (Win × Nat)),
    (∀ w n, src = some (w, n) ↔ c.src = .win w n) →
    pairs = [(.blank, .provisioned, s.slu.otp.mfgKey), (.blank, .retired, s.slu.otp.mfgKey),
      (.provisioned, .debugUnlocked, s.slu.otp.dbgKey), (.provisioned, .deployed, s.slu.otp.fwKeyP),
      (.provisioned, .retired, s.slu.otp.fwKeyP), (.deployed, .retired, s.slu.otp.fwKeyD),
      (.blank, .blank, s.slu.otp.mfgKey), (.provisioned, .provisioned, s.slu.otp.fwKeyP),
      (.deployed, .deployed, s.slu.otp.fwKeyD)] →
    raise = decide (t = s.slu.lc) → i = (if raise then .lcFloorRaise c.id else .lcAdvance c.id) →
    (CmdReady 0x0520 lcFmt c q s → lcOf (c.field 2 0 3 : BitVec 3).toNat = some t →
      exec (if raise then .lcAdvance c.id else .lcFloorRaise c.id) s = .next s ∧
      (s.slu.lc = .debugUnlocked → t = .provisioned →
        (c.word 5 = 0 → ∃ u, Completes i c .ok 0 [lcWord t s.slu.otp.svnFloor] [.lifecycle, .aps, .ops] s u ∧
          u.slu.lcPending = some (t, src, s.now + 10000000) ∧ u.slu.lc = s.slu.lc ∧ u.slu.dbgLatch = s.slu.dbgLatch) ∧
        ((c.word 5).toNat ≠ 0 → (c.word 5).toNat ≠ 528 → Rejects i c .formatError 1 s)) ∧
      (¬(s.slu.lc = .debugUnlocked ∧ t = .provisioned) →
        ((c.word 5).toNat ≠ 528 → Rejects i c .formatError 1 s) ∧
        ((c.word 5).toNat = 528 → memErr s (s.cmdReqid c) (c.addr 3) 528 = true →
          ∃ u, Completes i c .rangeError (det 3 0) [] [.mmPort] s u) ∧
        ((c.word 5).toNat = 528 → memErr s (s.cmdReqid c) (c.addr 3) 528 = false → r = memBytes s (c.addr 3) 528 →
          (lcFormOk r s.slu.lc (Lc.code t).toNat = false → ∃ u, Completes i c .formatError 1 [] [.mmPort] s u) ∧
          (lcFormOk r s.slu.lc (Lc.code t).toNat = true →
            (bvOf 64 (bslice r 8 8) ≠ s.slu.otp.uid → ∃ u, Completes i c .identityError 2 [] [.mmPort] s u) ∧
            (bvOf 64 (bslice r 8 8) = s.slu.otp.uid →
              ((∀ k, (s.slu.lc, t, k) ∉ pairs) → ∃ u, Completes i c .lcDenied 3 [] [.mmPort] s u) ∧
              ((s.slu.lc, t, h) ∈ pairs → Config.sha384 (bslice r 320 97) ≠ h → ∃ u, Completes i c .signatureError 4 [] [.mmPort] s u) ∧
              ((s.slu.lc, t, h) ∈ pairs → Config.sha384 (bslice r 320 97) = h →
                (Config.ecdsaVerify (bslice r 320 97) (bslice r 432 96) (bslice r 0 320) = false →
                  ∃ u, Completes i c .signatureError 5 [] [.mmPort] s u) ∧
                (Config.ecdsaVerify (bslice r 320 97) (bslice r 432 96) (bslice r 0 320) = true →
                  (raise = true → bnat r 16 4 ≤ s.slu.otp.svnFloor → ∃ u, Completes i c .lcDenied 6 [] [.mmPort] s u) ∧
                  (otpProgrammed s.slu.lc (Lc.code t).toNat = true → s.slu.otp.progFails = true →
                    raise = false ∨ s.slu.otp.svnFloor < bnat r 16 4 →
                    ∃ u, Completes i c .lcDenied 7 [] [.mmPort] s u) ∧
                  (raise = true → s.slu.otp.svnFloor < bnat r 16 4 → s.slu.otp.progFails = false →
                    ∃ u, Completes i c .ok 0 [lcWord t (bnat r 16 4)] [.otp, .mmPort] s u ∧
                      u.slu.otp = { s.slu.otp with svnFloor := bnat r 16 4 }) ∧
                  (raise = false → t = .debugUnlocked ∨ s.slu.otp.progFails = false →
                    ∃ u, Completes i c .ok 0 [lcWord t s.slu.otp.svnFloor] [.otp, .lifecycle, .aps, .ops, .mmPort] s u ∧
                      u.slu.lcPending = some (t, src, s.now + 10000000) ∧ u.slu.lc = s.slu.lc ∧
                      u.slu.dbgLatch = s.slu.dbgLatch ∧ (t = .debugUnlocked → u.slu.otp = s.slu.otp) ∧
                      (s.slu.lc ≠ .blank → t ≠ .debugUnlocked → u.slu.otp = { s.slu.otp with lc := t }) ∧
                      (s.slu.lc = .blank → t = .provisioned →
                        u.slu.otp.lc = t ∧ u.slu.otp.fwKeyP = beVal 384 (bslice r 64 48) ∧
                        u.slu.otp.dbgKey = beVal 384 (bslice r 256 48) ∧ u.slu.otp.bootAddr = bvOf 48 (bslice r 304 8) ∧
                        u.slu.otp.instClass = bvOf 16 (bslice r 312 2) ∧ u.slu.otp.portScope = bvOf 8 (bslice r 314 1) ∧
                        u.slu.otp.uid = s.slu.otp.uid ∧ u.slu.otp.mfgKey = s.slu.otp.mfgKey))))))))) ∧
    (∀ n x, x = elapse n s →
      (∀ g w due, s.slu.lcPending = some (g, w, due) →
        (due ≤ x.now → exec (.lcTransitionReset n) s = .next (warmReset 4 (decide (g = .debugUnlocked)) x)) ∧
        (x.now < due → exec (.lcTransitionReset n) s = .next x)) ∧
      (s.slu.lcPending = none → exec (.lcTransitionReset n) s = .next x))

/-- R316 to R327, R344 and R387: a cold reset returns everything but OTP and host memory to its reset value and captures the straps; a warm reset keeps the registers of R325; the root clock starts S0, and the end of the wipe releases the engine in the order that S0 took from `STARTUP_SEQ`, with a fuse burnt for each bank that failed; in `RETIRED` nothing is burnt or released. The test access port selects what the life-cycle state makes available, and the selection runs. The model's reading in it (log 47): what `DBG_SEQ`, `DBG_REG` and `DBG_SRAM` shift, and that a selection acts at once. -/
def Obligations.Resets : Prop :=
  ∀ (s : State) (straps : BitVec 16) (b : Bank) (st : Store) (m : Nat) (x : TapScan) (ok : Bool),
    (∃ t, exec (.coldReset straps) s = .next t ∧
      Frame [.queue, .clock, .otp, .service, .lifecycle, .banks, .routes, .mem, .mmBad, .free,
        .sn, .irq, .wins, .counters] State.reset t ∧
      (t.distCount = 0 →
        Frame [.queue, .clock, .otp, .service, .lifecycle, .banks, .routes, .mem, .mmBad, .free] State.reset t) ∧
      (0 < t.distCount → t.cr.irqStatus.getLsbD 3 = true ∧ t.slu.svcCause = 0x04) ∧ t.slu.lcPending = none ∧
      t.pending = s.pending ∧ t.slu.otp = s.slu.otp ∧ t.mem = s.mem ∧ t.mmBad = s.mmBad ∧
      t.clk.straps = captureStraps straps ∧ t.clk.startupSeq = seqPreset (captureStraps straps) ∧
      t.clk.instSeq = t.clk.startupSeq ∧ t.slu.instClass = s.slu.otp.instClass ∧ t.slu.instSvc = t.slu.svc ∧ t.clk.cause = 1 ∧
      t.clk.warmCount = 0 ∧ t.clk.incarnation ≠ 0 ∧ t.clk.timeInc = 0x100000000#36 ∧ t.slu.lc = s.slu.otp.lc ∧
      t.slu.dbgLatch = false ∧ t.fab.scope = s.slu.otp.portScope ∧ t.obk.retired = s.slu.otp.bankRepair ∧
      t.slu.svc = (if 0 < t.distCount then 2 else 0) ∧
      (s.slu.otp.bankRepair = 0 → t.obk.map = [] ∧ t.obk.spareUsed = 0) ∧
      (t.clk.boot, t.clk.divAligned) = (if s.clk.rootLock then (Boot.wipe, true) else (Boot.align, false))) ∧
    exec .warmReset s = .next (warmReset 2 false s) ∧
    (∀ cause latch t, t = warmReset cause latch s → s.obk.retire = none →
      Frame [.queue, .clock, .otp, .service, .lifecycle, .banks, .routes, .mem, .mmBad, .free] State.reset t ∧
      t.pending = s.pending ∧ t.slu.otp = s.slu.otp ∧ t.mem = s.mem ∧ t.mmBad = s.mmBad ∧ t.free = s.free ∧
      t.clk.straps = s.clk.straps ∧ t.clk.startupSeq = s.clk.startupSeq ∧ t.clk.timeInc = s.clk.timeInc ∧
      t.clk.instSeq = s.clk.startupSeq ∧ t.slu.instClass = s.slu.otp.instClass ∧ t.slu.instSvc = s.slu.svc ∧
      t.clk.cause = cause ∧ t.clk.warmCount = (if s.clk.warmCount = 255 then 255 else s.clk.warmCount + 1) ∧
      t.clk.incarnation = (if s.clk.incarnation = 255 then 1 else s.clk.incarnation + 1) ∧
      t.slu.lc = (if latch then .debugUnlocked else s.slu.otp.lc) ∧ t.slu.dbgLatch = latch ∧
      t.slu.svc = s.slu.svc ∧ t.slu.svcCause = s.slu.svcCause ∧ t.slu.storeFaults = s.slu.storeFaults ∧
      t.slu.lcPending = none ∧ t.fab.scope = s.slu.otp.portScope ∧
      t.obk.map = s.obk.map ∧ t.obk.retired = s.obk.retired ∧
      t.obk.spareUsed = s.obk.spareUsed ∧ t.obk.spareRetired = s.obk.spareRetired) ∧
    (∃ t, t.clk = { s.clk with rootLock := false, divAligned := false } ∧ Frame [.clock] s t ∧
      exec .rootLockLoss s = .next (if s.clk.boot = .align then t else warmReset 8 false t)) ∧
    (s.clk.boot = .align → ∃ t, exec .rootLockRise s = .next t ∧
      t.clk = { s.clk with rootLock := true, divAligned := true, boot := .wipe } ∧ Frame [.clock] s t) ∧
    (s.clk.boot ≠ .align → exec .rootLockRise s = .next s) ∧
    (s.clk.boot ≠ .wipe → ∀ us, exec (.sramWipeDone us) s = .next s) ∧
    (s.clk.boot = .wipe → s.slu.lc = .retired → ∃ t, exec (.sramWipeDone []) s = .next t ∧
      t.clk = { s.clk with boot := .retired } ∧ Frame [.clock, .banks, .service, .irq, .sn, .wins, .counters] s t) ∧
    (s.clk.boot = .wipe → s.slu.lc = .retired → b.toNat < 68 → ∃ t, exec (.sramWipeDone [.bank b]) s = .next t ∧
      t.clk = { s.clk with boot := .retired, cause := setBit s.clk.cause 4 } ∧ t.slu.otp = s.slu.otp ∧
      t.slu.svcCause = 0x0A ∧ (newlyDistributed s t [b] = true → 2 ≤ t.slu.svc.toNat) ∧
      Frame [.clock, .banks, .service, .irq, .sn, .wins, .counters] s t) ∧
    (s.clk.boot = .wipe → s.slu.lc = .retired → unitThere (.store st m) = true →
      ∃ t, exec (.sramWipeDone [.store st m]) s = .next t ∧ t.clk.boot = .retired ∧ (st, m) ∈ t.slu.storeFaults ∧
        2 ≤ t.slu.svc.toNat ∧ t.slu.svcCause = 0x0A) ∧
    (seqOk s.clk.instSeq = true ↔ ∀ v : BitVec 2, v ≠ 0 → ∃ n, n < 3 ∧ stepCode s.clk.instSeq n = v) ∧
    (s.clk.boot = .wipe → s.slu.lc ≠ .retired → seqOk s.clk.instSeq = true →
      (∃ t, exec (.sramWipeDone []) s = .next t ∧ t.clk = { s.clk with outputs := true, boot := .run, time := 0 } ∧
        (∀ p, t.fp p = { s.fp p with state := if s.fpEnabled p then .down else (s.fp p).state }) ∧
        Frame [.time, .clock, .banks, .fports] s t) ∧
      (b.toNat < 68 → ∃ t, exec (.sramWipeDone [.bank b]) s = .next t ∧ t.clk.boot = .run ∧ t.now = 0 ∧
        t.clk.cause.getLsbD 4 = true ∧ t.slu.otp = { s.slu.otp with bankRepair := setBit s.slu.otp.bankRepair b.toNat } ∧
        t.obk.retired.getLsbD b.toNat = true ∧ ((∃ l, s.lbankAt b = some l) → 1 ≤ t.slu.svc.toNat) ∧
        t.slu.svcCause = 0x0A ∧ (newlyDistributed s t [b] = true → 2 ≤ t.slu.svc.toNat) ∧
        t.slu.storeFaults = s.slu.storeFaults) ∧
      (unitThere (.store st m) = true → ∃ t, exec (.sramWipeDone [.store st m]) s = .next t ∧ t.clk.boot = .run ∧
        t.now = 0 ∧ t.clk.cause.getLsbD 4 = true ∧ t.slu.otp = s.slu.otp ∧ (st, m) ∈ t.slu.storeFaults ∧
        2 ≤ t.slu.svc.toNat ∧ t.slu.svcCause = 0x0A)) ∧
    (ok = s.tapOk x →
      (ok = false → ∃ t, exec (.tapInstruction x) s = .next t ∧ t.slu.tap = .bypass ∧ t.slu.tapData = 0 ∧ Frame [.engine] s t) ∧
      (ok = true → ∃ v, exec (.tapInstruction x) s = .next (tapRun x v) ∧ v.slu.tap = scanInstr x ∧
        v.slu.engineReqid = s.slu.engineReqid ∧
        (isDebug (scanInstr x) = false → Frame [.engine] s v) ∧
        (isDebug (scanInstr x) = true →
          (s.frozen = false → v.gctr 41 = s.gctr 41 + 1) ∧ Frame [.engine, .gctr, .rake, .irq] s v))) ∧
    (s.tapOk .bypass = true ∧ s.tapOk .idcode = true ∧
      (s.slu.lc = .retired → x ≠ .bypass → x ≠ .idcode → s.tapOk x = false) ∧ (s.slu.lc = .blank → s.tapOk x = true) ∧
      (s.slu.lc = .debugUnlocked → s.tapOk x = decide (x ≠ .wrapper true)) ∧
      (s.slu.lc = .deployed → s.tapOk x = decide (x = .bypass ∨ x = .idcode ∨ x = .samplePreload ∨ x = .extest)) ∧
      (s.slu.lc = .provisioned → ∀ n act a w, s.tapOk (.dbgSeq n act) = s.clk.straps.getLsbD 15 ∧
        s.tapOk (.dbgReg a w) = s.clk.straps.getLsbD 15 ∧ s.tapOk .samplePreload = true ∧ s.tapOk .extest = true)) ∧
    ((tapRun .bypass s).slu.tapData = 0 ∧ (tapRun .idcode s).slu.tapData = Config.idCode.setWidth 256 ∧
      Frame [.engine] s (tapRun .bypass s) ∧ Frame [.engine] s (tapRun .idcode s) ∧
      Frame [.engine, .free] s (tapRun .samplePreload s) ∧ Frame [.engine, .free] s (tapRun .extest s) ∧
      Frame [.engine, .free] s (tapRun (.wrapper false) s) ∧
      tapRun (.wrapper true) s = (warmReset 2 false s).modSlu fun y => { y with tap := .wrapper }) ∧
    (∀ (n m : SeqNo) (t : State),
      (t = tapRun (.dbgSeq n .halt) s → t.seq n = { s.seq n with dbgHalt := true, dbgStep := false }) ∧
      (t = tapRun (.dbgSeq n .step) s → t.seq n = { s.seq n with dbgStep := (s.seq n).dbgHalt }) ∧
      (t = tapRun (.dbgSeq n .halt) s ∨ t = tapRun (.dbgSeq n .step) s →
        (m ≠ n → t.seq m = s.seq m) ∧ Frame [.engine, .seqs] s t) ∧
      (t = tapRun (.dbgSeq n .read) s → Frame [.engine] s t ∧
        t.slu.tapData = 0#128 ++ (s.seq n).word 3 ++ (s.seq n).word 2 ++ (s.seq n).word 1 ++ (s.seq n).word 0)) ∧
    (∀ (a : CrAddr) (w : Option Word) (u t : State),
      u = (match w with
        | some v => crWrite a ⟨v, true, 0⟩ s
        | none => crRead a ⟨0, true, 0⟩ s) → t = tapRun (.dbgReg a w) s →
      t.slu.tapData = (if u.cr.valid then u.cr.rdata.setWidth 256 else 0) ∧ Frame [.engine, .crPort] u t ∧
      t.cr.valid = s.cr.valid ∧ t.cr.rdata = s.cr.rdata ∧ t.cr.err = s.cr.err) ∧
    (∀ (n : BitVec 14) (v : BitVec 256) (t : State),
      (t = tapRun (.dbgSram (.bank b n) none) s → Frame [.engine] s t ∧
        t.slu.tapData = ((tget s.obk.rows (rowKey b n)).map (·.word)).getD 0) ∧
      (t = tapRun (.dbgSram (.bank b n) (some v)) s → b.toNat < 68 → Frame [.engine, .rows] s t ∧
        tget t.obk.rows (rowKey b n) = objOf v ∧ ∀ k, k ≠ rowKey b n → tget t.obk.rows k = tget s.obk.rows k)) ∧
    ∀ (n : SeqNo) (k : BitVec 17) (v : BitVec 256) (t : State),
      (t = tapRun (.dbgSram (.firmware n k) none) s → Frame [.engine] s t ∧
        t.slu.tapData = (tgetD 0 s.slu.fwMem (fwKeyOf n k.toNat)).setWidth 256) ∧
      (t = tapRun (.dbgSram (.firmware n k) (some v)) s → Frame [.engine, .fwStore] s t ∧
        tgetD 0 t.slu.fwMem (fwKeyOf n k.toNat) = v.setWidth 32 ∧
        ∀ i, i ≠ fwKeyOf n k.toNat → tgetD 0 t.slu.fwMem i = tgetD 0 s.slu.fwMem i)

/-- R353, R355, R356, R373 and R374: `TRACE_CTL` replies the records dropped and takes the enable and both masks; the writer puts the oldest staged record at `TRACE_WPTR` or counts it as dropped; `SNAPSHOT` writes the records that fit and `END`, and changes nothing else but the bank reads and the dropped records it counts. The model's choices in it: `SNAPSHOT` into a region under 32 bytes answers `RANGE_ERROR`, the records come in the order of `snapAll` (log 28), and a record larger than what is left of snapshot staging is dropped (log 24); `TRACE_CTL` with `EN` 1 and no region leaves the enable as it was (log 44). -/
def Obligations.TraceAndSnapshots : Prop :=
  ∀ (c : Cmd) (q : Nat) (s : State),
    (CmdReady 0x0406 noFmt c q s →
      ∃ u, Completes (.traceCtl c.id) c .ok 0 [s.obs.trace.dropped] [.trace] s u ∧
        u.obs.trace = { s.obs.trace with
          en := if c.bit 2 0 = true ∧ s.obs.trace.size = 0 then s.obs.trace.en else c.bit 2 0
          pmask := c.word 4 ++ c.word 3, classMask := c.field 5 0 11, dropped := 0 }) ∧
    (s.obs.trace.staging = [] → exec .traceWrite s = .next s) ∧
    (∀ r p rest off, s.running = true → s.obs.hobble.state.toNat < 2 → s.obs.trace.staging = (r, some p) :: rest →
      s.obs.trace.dropPend = 0 → off = s.obs.trace.wptr.toNat →
      (off + 32 ≤ s.obs.trace.size.toNat → memErr s s.slu.engineReqid (s.obs.trace.base.toNat + off) 32 = false →
        ∃ t, exec .traceWrite s = .next t ∧ memBytes t (s.obs.trace.base.toNat + off) 32 = bytesOf 32 r ∧
          (∀ a, ¬(s.obs.trace.base.toNat + off ≤ a ∧ a < s.obs.trace.base.toNat + off + 32) → memByte t a = memByte s a) ∧
          t.obs.trace.staging = rest ∧ t.gctr 39 = s.gctr 39 + 1 ∧ t.ctr p 63 = s.ctr p 63 + 1 ∧
          (t.obs.trace.wptr.toNat = if s.obs.trace.wrap = true ∧ s.obs.trace.size.toNat < off + 64 then 0 else off + 32) ∧
          (s.obs.trace.wrap = false → s.obs.trace.size.toNat < off + 64 → t.obs.trace.full = true) ∧
          t.mmOut = some ⟨true, s.slu.engineReqid, s.obs.trace.base.toNat + off, 32⟩ ∧
          Frame [.counters, .gctr, .trace, .irq, .mem, .mmPort] s t) ∧
      (s.obs.trace.wrap = false → s.obs.trace.size.toNat < off + 32 →
        ∃ t, exec .traceWrite s = .next t ∧ t.gctr 40 = s.gctr 40 + 1 ∧ t.ctr p 62 = s.ctr p 62 + 1 ∧
          t.obs.trace = { s.obs.trace with
            staging := rest, dropPend := s.obs.trace.dropPend + 1, dropped := s.obs.trace.dropped + 1 } ∧
          Frame [.counters, .gctr, .trace] s t)) ∧
    (2 ≤ s.obs.hobble.state.toNat → exec .traceWrite s = .next s) ∧
    (CmdReady 0x0403 snapshotFmt c q s →
      ((c.word 4).toNat < 32 → Rejects (.snapshot c.id) c .rangeError (det 4 0) s) ∧
      (∀ all rs cut b, 32 ≤ (c.word 4).toNat →
        all = s.snapAll (c.word 6 ++ c.word 5) →
        (rs, cut) = takeRecs ((c.word 4).toNat / 32 - 1) (s.snapStaged all) →
        b = rs.flatMap SnapRec.bytes ++ SnapRec.bytes (s.endRec (rs.length + 1) cut) →
        (memErr s (s.cmdReqid c) (c.addr 2) b.length = true →
          ∃ u, Completes (.snapshot c.id) c .rangeError (det 2 0) [] [.mmPort] s u) ∧
        (memErr s (s.cmdReqid c) (c.addr 2) b.length = false →
          ∃ u, Completes (.snapshot c.id) c .ok 0 [BitVec.ofNat 32 (rs.length + 1)] [.gctr, .mem, .mmPort] s u ∧
            u.mmOut = some ⟨true, s.cmdReqid c, c.addr 2, b.length⟩ ∧
            memBytes u (c.addr 2) b.length = b ∧
            (∀ a, ¬(c.addr 2 ≤ a ∧ a < c.addr 2 + b.length) → memByte u a = memByte s a) ∧
            b.length ≤ (c.word 4).toNat ∧
            (s.frozen = false → u.gctr 40 = s.gctr 40 + BitVec.ofNat 64 (all.length - (s.snapStaged all).length)) ∧
            ∀ k, k ≠ 0 → k ≠ 6 → k ≠ 40 → u.gctr k = s.gctr k))) ∧
    (s.lostEntries .snapshot = 0 → ∀ l, (∀ x ∈ l, x.2.length < Config.snapshotStaging) → s.snapStaged l = l)

/-- R8, R9, R254, R336, R385, R392 to R395: which accesses of the control register port are answered with an error; a read returns the register, and the lowest word of a register of several words holds the others for its requester; a write takes effect as its register's description says, a staged word with the write of the highest word, and a locked or illegal write not at all. `CLEAR_ADVISE`, `ERRLOG_POP` and `ERRLOG_CLEAR` complete whenever the port takes a SUPERVISOR write to their registers: `ADVISE` returns to `OK`, the oldest report goes, or the whole log with its overflow count and flag. -/
def Obligations.Registers : Prop :=
  ∀ (a : CrAddr) (acc : CrAcc) (s : State),
    (s.clk.boot = .align → ∀ i, i = .multiwordRead a acc ∨ i = .registerWrite a acc →
      ∃ t, exec i s = .next t ∧ t.cr = { s.cr with valid := false } ∧ Frame [.crPort] s t) ∧
    (∀ i, i = .multiwordRead a acc ∨ i = .registerWrite a acc → s.clk.boot ≠ .align →
      (a.toNat % 4 ≠ 0 ∨ regionOf a.toNat = .none ∨ (s.slu.lc = .retired ∧
          (i = .registerWrite a acc ∨ ¬(a.toNat < 0x4000 ∨ (0xC000 ≤ a.toNat ∧ a.toNat < 0x10000)))) →
        ∃ t, exec i s = .next t ∧ t.cr = { s.cr with valid := true, rdata := 0, err := true } ∧ Frame [.crPort] s t) ∧
      (a.toNat % 4 = 0 → regionOf a.toNat ≠ .none → s.slu.lc ≠ .retired → acc.priv = false →
        (∀ p, regionOf a.toNat = .window p → (s.part p).admitsReq acc.reqid = false) →
        ∃ t, exec i s = .next t ∧ t.cr.valid = true ∧ t.cr.rdata = 0 ∧ t.cr.err = true ∧
          (s.frozen = false → t.gctr 41 = s.gctr 41 + 1) ∧ Frame [.crPort, .gctr, .rake, .irq] s t)) ∧
    (∀ n v, s.clk.boot = .run → s.slu.lc ≠ .retired → acc.priv = true → a.toNat % 4 = 0 → regionOf a.toNat ≠ .none →
      (groupOf a.toNat = none →
        ∃ t, exec (.multiwordRead a acc) s = .next t ∧
          t.cr = { s.cr with valid := true, rdata := s.readReg a.toNat, err := false } ∧ Frame [.crPort] s t) ∧
      (groupOf a.toNat = some (a.toNat, n) →
        ∃ t, exec (.multiwordRead a acc) s = .next t ∧ t.cr.valid = true ∧ t.cr.rdata = s.readReg a.toNat ∧ t.cr.err = false ∧
          (∀ k, 1 ≤ k → k < n → (BitVec.ofNat 20 (a.toNat + 4 * k), acc.reqid, s.readReg (a.toNat + 4 * k)) ∈ t.cr.holds) ∧
          Frame [.crPort] s t) ∧
      (∀ l, groupOf a.toNat = some (l, n) → l ≠ a.toNat →
        (s.cr.holds.find? (fun h => decide (h.1 = a ∧ h.2.1 = acc.reqid)) = some (a, acc.reqid, v) →
          ∃ t, exec (.multiwordRead a acc) s = .next t ∧ t.cr.valid = true ∧ t.cr.rdata = v ∧ t.cr.err = false ∧
            t.cr.holds = s.cr.holds.filter (fun h => !decide (h.1 = a ∧ h.2.1 = acc.reqid)) ∧ Frame [.crPort] s t) ∧
        (s.cr.holds.find? (fun h => decide (h.1 = a ∧ h.2.1 = acc.reqid)) = none →
          ∃ t, exec (.multiwordRead a acc) s = .next t ∧ t.cr.valid = true ∧ t.cr.rdata = s.readReg a.toNat ∧ t.cr.err = false ∧
            t.cr.holds = s.cr.holds ∧ Frame [.crPort] s t))) ∧
    (s.clk.boot = .run → s.slu.lc ≠ .retired → acc.priv = true →
      (∃ t, exec (.registerWrite 0x00014 acc) s = .next t ∧ t.cr = { s.cr with valid := true, rdata := 0, err := false } ∧
        t.clk = { s.clk with startupSeq := (if acc.wdata.toNat % 64 ∈ [0x39, 0x36, 0x27, 0x2D, 0x1E, 0x1B] then
          acc.wdata.setWidth 6 else s.clk.startupSeq) } ∧ Frame [.crPort, .clock] s t) ∧
      (∀ i : BitVec 4, i = acc.wdata.setWidth 4 →
        ∃ t, exec (.registerWrite 0x0001C acc) s = .next t ∧
          t.clk.timeInc = (if (i = 1 ∨ i = 2) ∧ s.clk.hasParent = false then
            i ++ (tget s.cr.staged 0x18).getD (s.clk.timeInc.extractLsb' 0 32) else s.clk.timeInc) ∧
          t.clk.estimate = s.clk.estimate ∧
          tget t.cr.staged 0x18 = none ∧ Frame [.crPort, .clock] s t) ∧
      (∀ k : Nat, k ∈ [0x18, 0x200, 0x210, 0x4000, 0x4010, 0x4044, 0x8044] →
        ∃ t, exec (.registerWrite (BitVec.ofNat 20 k) acc) s = .next t ∧ tget t.cr.staged k = some acc.wdata ∧
          (∀ j, j ≠ k → tget t.cr.staged j = tget s.cr.staged j) ∧ Frame [.crPort] s t) ∧
      (∀ (p : PartId) (k : Nat), k < 15 →
        ∃ t, exec (.registerWrite (BitVec.ofNat 20 (0x40000 + 0x1000 * p.toNat + 4 * k)) acc) s = .next t ∧
          tgetD 0 (t.win (some p)).words k = acc.wdata ∧ (t.win (some p)).mask = setBit (s.win (some p)).mask k ∧
          (∀ w, w ≠ some p → t.win w = s.win w) ∧ Frame [.crPort, .wins] s t) ∧
      (∀ w : Word, w = (if (s.win none).replies = [] then acc.wdata else acc.wdata &&& 0xFFFFFFFE) →
        ∃ t, exec (.registerWrite 0x00040 acc) s = .next t ∧
          t.cr.irqStatus = s.cr.irqStatus &&& ~~~(w.setWidth 12 : BitVec 12) ∧ Frame [.crPort, .irq] s t) ∧
      (∃ t, exec (.registerWrite 0x04008 acc) s = .next t ∧
        t.obs.trace = (if s.obs.trace.en then s.obs.trace else
          { s.obs.trace with size := acc.wdata &&& 0xFFFFF000, wptr := 0 }) ∧ Frame [.crPort, .trace] s t) ∧
      (∃ t, exec (.registerWrite 0x00204 acc) s = .next t ∧
        (s.tackLocked = true → t.ctm.tackBase = s.ctm.tackBase) ∧
        (s.tackLocked = false → t.ctm.tackBase = (acc.wdata.extractLsb' 0 16 : BitVec 16) ++
          (((tget s.cr.staged 0x200).getD (s.ctm.tackBase.extractLsb' 0 32)).extractLsb' 16 16 : BitVec 16) ++ 0#16) ∧
        Frame [.crPort, .regions] s t) ∧
      (∃ t, exec (.registerWrite 0x0C010 acc) s = .next t ∧ t.slu.engineReqid = acc.wdata.setWidth 16 ∧
        t.slu.tap = s.slu.tap ∧ Frame [.crPort, .engine] s t) ∧
      (∀ p : PartId, ∃ t, exec (.registerWrite (BitVec.ofNat 20 (0xC100 + 4 * p.toNat)) acc) s = .next t ∧
        t.part p = { s.part p with
          reqid := acc.wdata.setWidth 16, reqIgnore := acc.wdata.extractLsb' 16 4, reqValid := acc.wdata.getLsbD 31 } ∧
        (∀ r, r ≠ p → t.part r = s.part r) ∧ Frame [.crPort, .parts] s t)) ∧
    (s.clk.boot ≠ .align → s.slu.lc ≠ .retired →
      (acc.priv = true →
        (∃ t, exec (.clearAdvise acc) s = .next t ∧ t.slu.svc = (if s.slu.svc = 1 then 0 else s.slu.svc) ∧
          t.slu.svcCause = s.slu.svcCause ∧ t.slu.corr = s.slu.corr ∧ t.slu.storeFaults = s.slu.storeFaults ∧
          t.cr = { s.cr with valid := true, rdata := 0, err := false } ∧ Frame [.crPort, .service] s t) ∧
        (s.running = true →
          (∃ t, exec (.errlogPop acc) s = .next t ∧ t.obs.rake = s.obs.rake.drop 1 ∧ t.obs.sticky = s.obs.sticky ∧
            t.obs.overflow = s.obs.overflow ∧ t.obs.rakeFirst = s.obs.rakeFirst ∧ t.obs.rakeLast = s.obs.rakeLast ∧
            t.cr = { s.cr with valid := true, rdata := 0, err := false } ∧ Frame [.crPort, .rake] s t) ∧
          (∃ t, exec (.errlogClear acc) s = .next t ∧ t.obs.rake = [] ∧ t.obs.rakeFirst = none ∧ t.obs.rakeLast = none ∧
            t.obs.overflow = 0 ∧ t.obs.sticky = false ∧
            t.cr = { s.cr with valid := true, rdata := 0, err := false } ∧ Frame [.crPort, .rake] s t)) ∧
        (s.running = false → ∀ i, i = .errlogPop acc ∨ i = .errlogClear acc →
          ∃ t, exec i s = .next t ∧ t.cr = { s.cr with valid := true, rdata := 0, err := false } ∧ Frame [.crPort] s t)) ∧
      (acc.priv = false → ∀ i, i = .clearAdvise acc ∨ i = .errlogPop acc ∨ i = .errlogClear acc →
        ∃ t, exec i s = .next t ∧ t.cr.valid = true ∧ t.cr.rdata = 0 ∧ t.cr.err = true ∧ Frame [.crPort, .gctr, .rake, .irq] s t))

/-- R363 to R372: `HOBBLE` and the first marker cut; when the drain has ended a marker leaves on every port in `UP` or `STANDBY`; until its marker comes a port's flits are recorded; the instance is hobbled once every marker has come, and reports to the initiator; `UNHOBBLE` and a resume end it, extend the pending times and are answered; both commands reply when every instance has answered, or 10 ms after they began. The model's choices in it (log 33): `HOBBLE` in states 1 and 2 answers `OK`; `UNHOBBLE` is taken in state 3 only; the size of the region is checked when `HOBBLE` starts; the instances counted are at least this one; what each part of the resume does to what waited at the cut. -/
def Obligations.Hobbles : Prop :=
  ∀ (c : Cmd) (q : Nat) (s : State) (r : Rx) (n : Nat) (x : State) (h : Hobble),
    x = elapse n s → h = s.obs.hobble →
    (CmdReady 0x0401 hobbleFmt c q s →
      (h.state ≠ 0 → ∃ u, Completes (.hobble c.id) c .ok 0 [0] [] s u) ∧
      (h.state = 0 → memErr s (s.cmdReqid c) (c.addr 2) (min (c.word 4).toNat (64 + 16384)) = true →
        ∃ u, Completes (.hobble c.id) c .rangeError (det 2 0) [] [.mmPort] s u) ∧
      (h.state = 0 → memErr s (s.cmdReqid c) (c.addr 2) (min (c.word 4).toNat (64 + 16384)) = false →
        (∀ p, (s.part p).state ≠ .loading) →
        ∃ u, Goes (.hobble c.id) [.cmds, .hobble, .fports, .mem, .mmPort] s u ∧
          u.obs.hobble = { h with
            state := 1, incomplete := false, regionFull := false, init := s.fab.nodeId, hseq := h.hseqNext
            hseqNext := h.hseqNext + 1, cutAt := s.now, firstPort := none, awaiting := s.markerPorts, records := 0
            cutDeadlines := s.tdu.deadlines, cutLeases := s.tdu.leases
            regBase := BitVec.ofNat 48 (c.addr 2), regSize := (c.word 4).toNat, initiator := true, captured := []
            cmd := some c.id, reached := [], badNodes := [] } ∧
          u.msq.cmds = mapFirst (fun d => decide (d.id = c.id)) (fun d => { d with phase := .waiting }) s.msq.cmds ∧
          (∀ p, u.fp p = { s.fp p with marked := false, preCut := (s.fp p).rxHeld.length, chan := [] }))) ∧
    (h.state = 1 → s.drained = true → h.awaiting ≠ [] →
      ∃ t, exec .hobbleDrainEnd s = .next t ∧ t.obs.hobble = { h with state := 2 } ∧
        (∀ p, t.fp p = { s.fp p with txq := (s.fp p).txq ++ if p ∈ s.markerPorts then
          [⟨8, (s.fp p).farNode, s.fab.nodeId, none, 63, hobbleBody 1 h.init h.hseq false 0, none⟩] else [] }) ∧
        Frame [.hobble, .fports] s t) ∧
    (h.state = 1 → s.drained = true → h.awaiting = [] → (∀ p, (s.fp p).rxHeld = []) →
      ∃ t, exec .hobbleDrainEnd s = .next t ∧ t.obs.hobble.state = 3) ∧
    (h.state ≠ 1 ∨ s.drained = false → exec .hobbleDrainEnd s = .next s) ∧
    (RxFar 8 r s → bodySub r.body = 0x40 →
      (bodyHkind r.body = 1 → ∃ u, exec (.hobbleMarker r) s = .next (markerFlit r u) ∧ Linked 8 r true s u) ∧
      (bodyHkind r.body = 2 → s.forHere r = true →
        ∃ u, exec (.hobbleDone r) s = .next (doneFlit r u) ∧ Linked 8 r true s u) ∧
      (bodyHkind r.body = 3 → ∃ u, exec (.hobbleResume r) s = .next (resumeFlit r u) ∧ Linked 8 r true s u) ∧
      (bodyHkind r.body = 4 → s.forHere r = true →
        ∃ u, exec (.hobbleResumed r) s = .next (resumedFlit r u) ∧ Linked 8 r true s u)) ∧
    (h.state = 0 → (∀ p, (s.part p).state ≠ .loading) →
      (markerFlit r s).obs.hobble.state = 1 ∧ (markerFlit r s).obs.hobble.init = r.body.extractLsb' 116 16 ∧
      (markerFlit r s).obs.hobble.hseq = r.body.extractLsb' 108 8 ∧ (markerFlit r s).obs.hobble.cutAt = s.now ∧
      (markerFlit r s).obs.hobble.initiator = false ∧
      (markerFlit r s).obs.hobble.awaiting = s.markerPorts.filter (fun p => decide (p ≠ r.port)) ∧
      (∀ p, ((markerFlit r s).fp p).marked = decide (p = r.port)) ∧ Frame [.hobble, .fports, .mem, .mmPort] s (markerFlit r s)) ∧
    (h.state = 1 ∨ h.state = 2 → (s.fp r.port).marked = false → (∃ p ∈ h.awaiting, p ≠ r.port) →
      (markerFlit r s).obs.hobble = { h with awaiting := h.awaiting.filter (· ≠ r.port) } ∧
      ((markerFlit r s).fp r.port).marked = true ∧ Frame [.hobble, .fports] s (markerFlit r s)) ∧
    (h.state = 1 ∨ h.state = 2 → RxFar 2 r s → s.forHere r = true → ∃ u, Linked 2 r false s u ∧
        ((s.fp r.port).marked = true → ∃ t, exec (.cpl r) s = .next t ∧
          (t.fp r.port).rxHeld = (s.fp r.port).rxHeld ++ [(2, r, true)] ∧
          t.obs.hobble = { h with captured := h.captured ++ [.fabric r.port] } ∧ Frame [.fports, .hobble] u t) ∧
        (∀ off, (s.fp r.port).marked = false → h.regionFull = false → off = s.recordBase + 64 * h.records.toNat →
          off + 64 ≤ h.regSize → memErr s s.slu.engineReqid (h.regBase.toNat + off) 64 = false →
          ∃ t, exec (.cpl r) s = .next t ∧ (t.fp r.port).chan = (s.fp r.port).chan ++ [h.records.toNat] ∧
            t.obs.hobble = { h with records := h.records + 1 } ∧
            memBytes t (h.regBase.toNat + off) 32 = bytesOf 32 (osfWord 2 r.hdr r.body) ∧
            Frame [.fports, .hobble, .mem, .mmPort] u t)) ∧
    (∀ id inc, inc = r.body.getLsbD 107 → h.cmd = some id → h.reached.any (· = r.hdr.src) = false → h.init = s.fab.nodeId →
      r.body.extractLsb' 108 8 = h.hseq →
      (h.reached.length + 1 < s.fabSize →
        (doneFlit r s).obs.hobble = { h with
          reached := h.reached ++ [r.hdr.src], badNodes := if inc then h.badNodes ++ [r.hdr.src] else h.badNodes } ∧
        Frame [.hobble, .mem, .mmPort] s (doneFlit r s)) ∧
      (s.fabSize ≤ h.reached.length + 1 → s.cmd id = some c →
        ∃ u, doneFlit r s = complete c (if inc = false ∧ h.badNodes = [] then .ok else .partialRel) 0
          [BitVec.ofNat 32 (h.reached.length + 1)] u ∧ u.obs.hobble.cmd = none ∧ Frame [.hobble, .mem, .mmPort] s u)) ∧
    (∀ id, h.cmd = some id → s.cmd id = some c →
      (h.cutAt + 10000000 ≤ x.now →
        ∃ u, exec (.hobbleReplyTimeout n) s = .next (complete c
            (if s.fabSize ≤ h.reached.length ∧ h.badNodes = [] then .ok else .partialRel) 0
            [BitVec.ofNat 32 h.reached.length] u) ∧ u.obs.hobble = { h with cmd := none } ∧ Frame [.hobble] x u) ∧
      (x.now < h.cutAt + 10000000 → exec (.hobbleReplyTimeout n) s = .next x)) ∧
    (CmdReady 0x0402 noFmt c q s →
      (h.state ≠ 3 → Rejects (.unhobble c.id) c .rangeError (BitVec.ofNat 32 65536) s) ∧
      (h.state = 3 →
        ∃ y, exec (.unhobble c.id) s = .next (pump (resumeHere s.fab.nodeId h.hseqNext y)) ∧ SeqsKept s y ∧
          y.obs.hobble = { h with hseqNext := h.hseqNext + 1, ucmd := some c.id, resumed := [], resumeAt := s.now } ∧
          y.msq.cmds = mapFirst (fun d => decide (d.id = c.id)) (fun d => { d with phase := .waiting }) s.msq.cmds ∧
          (∀ p, y.fp p = { s.fp p with txq := (s.fp p).txq ++ if p ∈ s.livePorts then
            [⟨8, (s.fp p).farNode, s.fab.nodeId, none, 63, hobbleBody 3 s.fab.nodeId h.hseqNext false 0, none⟩] else [] }) ∧
          Frame [.seqs, .cmds, .hobble, .fports] s y)) ∧
    (h.state = 0 → resumeFlit r s = s) ∧
    (h.state ≠ 0 →
      ∃ y, resumeFlit r s = resumeHere (r.body.extractLsb' 116 16) (r.body.extractLsb' 108 8) y ∧
        (∀ p, (y.fp p).txq = (s.fp p).txq ++ if p ∈ s.livePorts ∧ p ≠ r.port then
          [⟨8, (s.fp p).farNode, s.fab.nodeId, none, 63, r.body, none⟩] else []) ∧ Frame [.fports] s y) ∧
    ((s.recordBase = if h.initiator then 64 + 16384 else 64) ∧
      ∀ k, memErr s s.slu.engineReqid (h.regBase.toNat + s.recordBase + 64 * k) 64 = false →
        s.readRecord k = some ((osfOf (bvOf 256 (memBytes s (h.regBase.toNat + s.recordBase + 64 * k) 32))
            (bvOf 3 (memBytes s (h.regBase.toNat + s.recordBase + 64 * k + 40) 1))).1,
          (osfOf (bvOf 256 (memBytes s (h.regBase.toNat + s.recordBase + 64 * k) 32))
            (bvOf 3 (memBytes s (h.regBase.toNat + s.recordBase + 64 * k + 40) 1))).2, false)) ∧
    (∀ (k : BitVec 4) (f : Rx), osfOf (osfWord k f.hdr f.body) f.port = (k, { f with err := false })) ∧
    (∀ init hseq d ports nums recs, d = s.now - h.cutAt → ports = (List.range 8).map (fun i => BitVec.ofNat 3 i) →
      nums = ports.flatMap (fun p => (s.fp p).chan) → recs = nums.filterMap s.readRecord →
      (∀ p, (s.fp p).rxHeld = []) → h.captured = [] → s.lcu.ingress = [] → (∀ p, (s.ap p).ingress = [] ∧ (s.ap p).hold = []) →
      ∃ u, resumeHere init hseq s =
          (if init = s.fab.nodeId then resumedReach init (pump (feedAll (releaseEarlier [] (processAll recs u))))
           else fabSend 8 init (hobbleBody 4 init hseq false 0)
            (pump (feedAll (releaseEarlier [] (processAll recs u))))) ∧
        u.obs.hobble = { h with
          state := 0, awaiting := [], firstPort := none, cutDeadlines := [], cutLeases := [], initiator := false
          captured := [] } ∧
        u.cr.irqStatus = setBit s.cr.irqStatus 11 ∧ (∀ p, (u.fp p).marked = false ∧ (u.fp p).chan = []) ∧
        u.tdu.deadlines = s.tdu.deadlines.map (fun x =>
          if h.cutDeadlines.any (· = x) then { x with due := x.due + d } else x) ∧
        u.tdu.leases = s.tdu.leases.map (fun x =>
          if h.cutLeases.any (· = x) then { x with due := x.due + d } else x) ∧
        u.wmc.waiters = s.wmc.waiters.map (fun w =>
          { w with limit := if w.stamp ≤ h.cutAt then w.limit.map (· + d) else w.limit }) ∧
        Frame [.hobble, .irq, .fports, .deadlines, .leases, .due, .waiters, .rwaits, .mmPort] s u) ∧
    (∀ (t : Table (List (BitVec 4 × Rx × Bool))) (p : FabPort) (k : PortNo) (a : LocalAgent) (l : List CapSrc),
      (releaseCaptured t (.agent k a :: l) s = releaseCaptured t l (feedGo k ((s.ap k).ingress.take 1) s)) ∧
      (∀ f rest, tgetD [] t p.toNat = f :: rest → releaseCaptured t (.fabric p :: l) s =
        releaseCaptured (tset t p.toNat rest) l (routedFlit f.1 f.2.1 f.2.2 s)) ∧
      (∀ v rest, s.lcu.ingress = v :: rest → releaseCaptured t (.landing :: l) s =
        releaseCaptured t l (landNotice v.1 v.2 (s.modLcu fun c => { c with ingress := rest })))) ∧
    (∀ id, h.ucmd = some id → s.cmd id = some c →
      (r.body.extractLsb' 116 16 = s.fab.nodeId → h.resumed.any (· = r.hdr.src) = false →
        (h.resumed.length + 1 < s.fabSize →
          (resumedFlit r s).obs.hobble = { h with resumed := h.resumed ++ [r.hdr.src] } ∧
          Frame [.hobble] s (resumedFlit r s)) ∧
        (s.fabSize ≤ h.resumed.length + 1 →
          ∃ u, resumedFlit r s = complete c .ok 0 [BitVec.ofNat 32 (h.resumed.length + 1)] u ∧
            u.obs.hobble.ucmd = none ∧ Frame [.hobble] s u)) ∧
      (h.resumeAt + 10000000 ≤ x.now →
        ∃ u, exec (.unhobbleReplyTimeout n) s = .next (complete c
            (if s.fabSize ≤ h.resumed.length then .ok else .partialRel) 0 [BitVec.ofNat 32 h.resumed.length] u) ∧
          u.obs.hobble = { h with ucmd := none } ∧ Frame [.hobble] x u) ∧
      (x.now < h.resumeAt + 10000000 → exec (.unhobbleReplyTimeout n) s = .next x))

/-- R201, R205 to R214 and R228 to R231: what a fabric port does when its link rises or falls, when a `HELLO` comes, when it is silent, when a `RECONCILE` comes or stays out, when it sends a flit or an `IDLE`, and with a flit that is malformed, out of order or for another instance. The model's choices in it: `HELLO` leaves at a rise of the link only in `DOWN`, `everLost` says which state it leads to, a lost port without an alternate sends no `RECONCILE`, a flit with `HOP` 0 is discarded where it must be forwarded, what the header of an `IDLE` holds (log 43), and what `flitBad` counts as malformed (log 65); `FAB_RES` counts the credits a partition's flits hold of each port (log 29). -/
def Obligations.FabricPorts : Prop :=
  ∀ (p : FabPort) (r : Rx) (kind : BitVec 4) (n : Nat) (s x y : State), x = elapse n s → s.running = true →
    (s.fpEnabled p = true → (s.fp p).linkUp = false →
      ((s.fp p).state = .down → ∃ t, exec (.linkUp p) s = .next t ∧
        t.fp p = { s.fp p with
          linkUp := true, awaitHello := true, txSeq := 0, rxSeq := 0xFFF, credits := [], opOut := [], owed := []
          replay := [], txq := [⟨8, (s.fp p).farNode, s.fab.nodeId, none, 63, s.helloBody p, none⟩] } ∧
        (∀ q, q ≠ p → t.fp q = s.fp q) ∧ Frame [.fports] s t) ∧
      ((s.fp p).state ≠ .down → ∃ t, exec (.linkUp p) s = .next t ∧ t.fp p = { s.fp p with linkUp := true } ∧
        (∀ q, q ≠ p → t.fp q = s.fp q) ∧ Frame [.fports] s t)) ∧
    (s.fpEnabled p = false ∨ (s.fp p).linkUp = true → exec (.linkUp p) s = .next s) ∧
    (∀ m o, o = s.fp r.port → s.helloDue 8 r = true → s.rxTakes 8 r = true → s.linkError 8 r = false → flitBad 8 r = false →
      m = helloOf r.body →
      (∀ c : BitVec 2, (c = 1 ∧ m.scope ≠ s.fab.scope.getLsbD r.port.toNat) ∨
          (c = 2 ∧ m.scope = s.fab.scope.getLsbD r.port.toNat ∧
            m.version.extractLsb' 16 8 ≠ Config.idVersion.extractLsb' 16 8) ∨
          (c = 3 ∧ m.scope = s.fab.scope.getLsbD r.port.toNat ∧
            m.version.extractLsb' 16 8 = Config.idVersion.extractLsb' 16 8 ∧ o.everLost = true ∧ m.valid = true ∧
            s.fab.nodeValid = false) →
        ∃ t, exec (.hello r) s = .next t ∧ (t.fp r.port).state = .isolated ∧ (t.fp r.port).isoCause = c ∧
          (s.frozen = false → t.gctr 41 = s.gctr 41 + 1) ∧ (∀ q, q ≠ r.port → t.fp q = s.fp q) ∧
          Frame [.fports, .gctr, .rake, .irq] s t) ∧
      (m.scope = s.fab.scope.getLsbD r.port.toNat → m.version.extractLsb' 16 8 = Config.idVersion.extractLsb' 16 8 →
        ¬(o.everLost = true ∧ m.valid = true ∧ s.fab.nodeValid = false) →
        ((o.reconDue = none ∧ o.detour = false) ∨ o.farIncarn = m.incarn →
          ∃ t, exec (.hello r) s = .next t ∧ (t.fp r.port).state = (if o.everLost then .standby else .lcl) ∧
            (t.fp r.port).farUid = m.uid ∧ (t.fp r.port).farPort = m.port ∧ (t.fp r.port).farNode = m.node ∧
            (t.fp r.port).helloNode = m.node ∧ (t.fp r.port).isoCause = 0 ∧ (t.fp r.port).opOut = [] ∧
            (t.fp r.port).farValid = m.valid ∧ (t.fp r.port).farIncarn = m.incarn ∧ (t.fp r.port).credits = fullCredits ∧
            (t.fp r.port).rxSeq = r.hdr.lseq ∧ (t.fp r.port).owed = o.owed ∧
            (∀ q, q ≠ r.port → t.fp q = s.fp q) ∧ Frame [.fports, .gctr] s t) ∧
        (o.reconDue.isSome = true ∨ o.detour = true → o.farIncarn ≠ m.incarn →
          ∃ t, exec (.hello r) s = .next t ∧ (t.fp r.port).state = .failed ∧ (t.fp r.port).fault = true ∧
            2 ≤ t.slu.svc.toNat ∧ t.slu.svcCause = 0x09 ∧ (∀ q, q ≠ r.port → t.fp q = s.fp q) ∧
            Frame [.fports, .gctr, .service, .irq, .sn, .wins, .counters] s t))) ∧
    (y.fpLive p = true → y.obs.hobble.state = 0 →
      ((losePort p y).fp p).state = .down ∧ ((losePort p y).fp p).txq = [] ∧ ((losePort p y).fp p).replay = [] ∧
      ((losePort p y).fp p).lostAt = y.now ∧
      ((losePort p y).fp p).credits = [] ∧ ((losePort p y).fp p).opOut = [] ∧ ((losePort p y).fp p).owed = [] ∧ ((losePort p y).fp p).everLost = true ∧
      (losePort p y).gctr 25 = y.gctr 25 + 1 ∧ Frame [.fports, .gctr] y (losePort p y) ∧
      ((y.fp p).state = .up →
        ((losePort p y).fp p).reconDue = some (y.now + 100000) ∧
        ((losePort p y).fp p).lost = (y.fp p).replay.filter (fun c => !linkLocal c.2.kind c.2.body) ∧
        ((losePort p y).fp p).held =
          dropFwd p ((y.fp p).held ++ (y.fp p).txq.filter (fun f => !linkLocal f.kind f.body)) ∧
        ∀ g, g = y.route (y.fp p).farNode → g.altV = true → y.fpUp g.alt = true → g.alt ≠ p →
          ((losePort p y).fp g.alt).txq = dropFwd p (y.fp g.alt).txq ++
            [⟨8, (y.fp p).farNode, y.fab.nodeId, none, 63, mgmtBody 0x10 ((y.fp p).rxSeq ++ p ++ 0#121), none⟩])) ∧
    (s.fpEnabled p = true → (s.fp p).linkUp = true →
      ∃ t, exec (.linkLoss p) s = .next t ∧
        t.fp p = { (losePort p s).fp p with
          linkUp := false
          state := if ((losePort p s).fp p).state = .isolated then .down else ((losePort p s).fp p).state } ∧
        (∀ q, q ≠ p → t.fp q = (losePort p s).fp q) ∧ Frame [.fports] (losePort p s) t) ∧
    (s.fpEnabled p = false ∨ (s.fp p).linkUp = false → exec (.linkLoss p) s = .next s) ∧
    (x.fpLive p = true → (x.fp p).lastRx + 4000 ≤ x.now → exec (.linkSilenceTimeout p n) s = .next (losePort p x)) ∧
    (x.fpLive p = false ∨ x.now < (x.fp p).lastRx + 4000 → exec (.linkSilenceTimeout p n) s = .next x) ∧
    (RxReady 8 r s → bodySub r.body = 0x10 → s.forHere r = true →
      ∃ u, exec (.reconcile r) s = .next (reconcileFlit r u) ∧ Linked 8 r true s u) ∧
    (y.reconPort r.hdr.src (r.body.extractLsb' 121 3) = none → reconcileFlit r y = y) ∧
    (∀ g again, y.reconPort r.hdr.src (r.body.extractLsb' 121 3) = some p → (y.fp p).state ≠ .up → y.fab.trees = [] →
      g = y.route (y.fp p).farNode → g.altV = true → y.fpUp g.alt = true →
      again = ((y.fp p).lost.filter (fun c => !seqCovered c.1 (r.body.extractLsb' 124 12))).map
        (fun c => { c.2 with fwd := none }) →
      (reconcileFlit r y).fp p = { y.fp p with lost := [], held := [], detour := true, reconDue := none } ∧
      ((reconcileFlit r y).fp g.alt).txq =
        (y.fp g.alt).txq ++ (again ++ (y.fp p).held).map (fun f => { f with via := some (y.fp p).farNode }) ∧
      (y.frozen = false → (reconcileFlit r y).gctr 26 = y.gctr 26 + BitVec.ofNat 64 again.length) ∧
      Frame [.fports, .gctr] y (reconcileFlit r y)) ∧
    (∀ t, (s.fp p).reconDue = some t →
      (t ≤ x.now → ∃ u, exec (.reconcileTimeout p n) s = .next u ∧ (u.fp p).state = .failed ∧ (u.fp p).fault = true ∧
        (u.fp p).reconDue = none ∧ 2 ≤ u.slu.svc.toNat ∧ u.slu.svcCause = 0x09 ∧ u.cr.irqStatus.getLsbD 4 = true ∧
        (∀ q, q ≠ p → u.fp q = s.fp q) ∧ Frame [.fports, .service, .irq, .sn, .wins, .counters] x u) ∧
      (x.now < t → exec (.reconcileTimeout p n) s = .next x)) ∧
    ((s.fp p).reconDue = none → exec (.reconcileTimeout p n) s = .next x) ∧
    (y = dvFlush s → (y.fp p).linkUp = true →
      (∀ f hd, (y.fp p).pickTx y = some f → f.kind ≠ 9 → isSub f.kind f.body 1 = false → f.fwd = none →
        hd = (y.fp p).txHdr (y.fp p).txSeq f.via.isSome f.dst f.src (f.via.getD 0) f.hop f.kind f.body →
        ∃ t, exec (.flitTransmit p) s = .next t ∧ (t.fp p).out = some (osfWord f.kind hd f.body) ∧
          (t.fp p).txSeq = (y.fp p).txSeq + 1 ∧ (t.fp p).txq = dropFirst (fun g => decide (g = f)) (y.fp p).txq ∧
          tgetD 0 (t.fp p).credits (poolOf f.kind) = tgetD 0 (y.fp p).credits (poolOf f.kind) - 1 ∧
          (t.fp p).opOut = (y.fp p).opOut ++ (if poolOf f.kind = 1 then [y.opOwner f] else []) ∧
          (t.fp p).replay = (y.fp p).replay ++ (if keptKind f.kind then [((y.fp p).txSeq, f)] else []) ∧
          (y.frozen = false → t.gctr (16 + poolOf f.kind) = y.gctr (16 + poolOf f.kind) + 1) ∧
          (∀ q, q ≠ p → t.fp q = y.fp q) ∧
          t.msq.cmds = (match y.lastFragment f with
            | some d => (startRemoteLimit d y).msq.cmds
            | none => y.msq.cmds) ∧
          Frame [.fports, .gctr, .cmds] y t) ∧
      ((y.fp p).pickTx y = none → exec (.flitTransmit p) s = .next y) ∧
      (∀ f, (y.fp p).pickTx y = some f → f.kind = 0 → y.isStrict (f.body.extractLsb' 79 6) = true →
        0 < tgetD 0 (y.fp p).credits 1 ∧ ((y.fp p).opOut.filter (fun o => decide (o = some (f.body.extractLsb' 79 6)))).length <
          (y.part (f.body.extractLsb' 79 6)).fabRes.toNat)) ∧
    (y = dvFlush x → (y.fp p).linkUp = true → y.fpLive p = true →
      ((y.fp p).lastTx + 1000 ≤ y.now →
        ∃ t, exec (.idleSend p n) s = .next t ∧
          t.fp p = { (y.fp p).paid with
            lastTx := y.now
            out := some (osfWord 15 ((y.fp p).txHdr ((y.fp p).txSeq - 1) false 0 0 0 0 15 0) 0) } ∧
          (∀ q, q ≠ p → t.fp q = y.fp q) ∧ Frame [.fports] y t) ∧
      (y.now < (y.fp p).lastTx + 1000 → (y.fp p).owed = [] → exec (.idleSend p n) s = .next y)) ∧
    (RxReady 15 r s → ∃ u, exec (.idleFlit r) s = .next u ∧ Linked 15 r true s u) ∧
    (s.rxTakes 15 r = true → s.linkError 15 r = true → exec (.idleFlit r) s = .next (losePort r.port s)) ∧
    (s.fpLive r.port = true → s.rxTakes kind r = true → s.linkError kind r = false → flitBad kind r = true →
      ∃ t, exec (.badFlit kind r) s = .next t ∧ (s.frozen = false → t.gctr 41 = s.gctr 41 + 1) ∧ (t.fp r.port).rxSeq = r.hdr.lseq ∧
        (t.fp r.port).rxHeld = (s.fp r.port).rxHeld ∧
        (poolOf kind ≠ 0 →
          tgetD 0 (t.fp r.port).owed (poolOf kind) = tgetD 0 (s.fp r.port).owed (poolOf kind) + 1) ∧
        (∀ q, q ≠ r.port → t.fp q = s.fp q) ∧ Frame [.fports, .gctr, .rake, .irq] s t) ∧
    (RxReady kind r s → linkLocal kind r.body = false → s.forHere r = false →
      (poolOf kind = 1 → (s.fp r.port).opWaits = false) →
      (r.hdr.hop = 0 ∨ s.nextHop ((s.viaAfter r).getD r.hdr.dst) = .none →
        ∃ u t, Linked kind r true s u ∧ exec (.flitForward kind r) s = .next t ∧ t.gctr 24 = u.gctr 24 + 1 ∧
          t.gctr 41 = u.gctr 41 + 1 ∧ Frame [.gctr, .rake, .irq] u t) ∧
      (∀ g v, r.hdr.hop ≠ 0 → s.nextHop ((s.viaAfter r).getD r.hdr.dst) = .port g v →
        ∃ u t, Linked kind r false s u ∧ exec (.flitForward kind r) s = .next t ∧ t.gctr 22 = u.gctr 22 + 1 ∧
          (t.fp g).txq = (u.fp g).txq ++
            [⟨kind, r.hdr.dst, r.hdr.src, (s.viaAfter r).or v, r.hdr.hop - 1, r.body, some r.port⟩] ∧
          (∀ q, q ≠ g → t.fp q = u.fp q) ∧ Frame [.fports, .gctr] u t)) ∧
    (RxReady kind r s → poolOf kind = 1 → (s.fp r.port).opWaits = true →
      ∃ u t, Linked kind r false s u ∧ rxFlit kind r s = t ∧
        (t.fp r.port).rxHeld = (s.fp r.port).rxHeld ++ [(kind, r, true)] ∧ Frame [.fports] u t)

/-- R202, R203, R216 to R219, R223, R225, R256, R276 and R277: what a received `OP` or `OP_EXT` does at its home; how its `CPL`, a `WAKE_NODE`, a `GRANT`, a `CANCEL_DONE` and a `NOTICE_FWD` are used where they arrive; how tree flits and fragments of remote commands are gathered. The model's choices in it: an `OP_EXT` without its `OP` is dropped (log 66); an opcode that does not travel answers `FORMAT_ERROR` (log 40); a flit of tree 0xFFF is discarded, a `GRANT` or a `WAKE_NODE` with `NO_OBJECT` may overtake the `CPL` of its wait, and `NOTICE_FWD` enters with this instance's partition of the agent (logs 42, 53); the fields of the `FRAG_ORDER` report (log 13). -/
def Obligations.FabricOperations : Prop :=
  ∀ (r : Rx) (m : OpMsg) (s : State), m = opOfBody r.body s.fab.nodeId →
    (RxReady 0 r s → s.forHere r = true → (s.fp r.port).opWaits = false →
      m.code ≠ 0x90 → m.code ≠ 0x91 → m.code ≠ 0x92 → m.code ≠ 0x40 →
      ∃ u, Linked 0 r false s u ∧
        ((∀ op, opOf m.code = some op → op.travels = false) →
          exec (.remoteOp r) s = .next (oweCredit r.port 1
            (fabSend 2 r.hdr.src (cplBody m.code (Status.code .formatError) m.txid false (s.time64.setWidth 48) 0) u))) ∧
        (∀ op, opOf m.code = some op → op.travels = true → s.admitPart r.hdr.src m.spart = none →
          ∃ y, exec (.remoteOp r) s = .next (oweCredit r.port 1
              (fabSend 2 r.hdr.src (cplBody m.code (Status.code .accessDenied) m.txid false (s.time64.setWidth 48) 0) y)) ∧
            y.gctr 41 = u.gctr 41 + 1 ∧ Frame [.gctr, .rake, .irq] u y) ∧
        (∀ op p, opOf m.code = some op → op.travels = true → s.admitPart r.hdr.src m.spart = some p → s.draining p = false →
            (s.ctx p m.req.ctx).state ≠ .free → (s.ctx p m.req.ctx).remoteEn = false →
          ∃ y, exec (.remoteOp r) s = .next (oweCredit r.port 1
              (fabSend 2 r.hdr.src (cplBody m.code (Status.code .accessDenied) m.txid false (s.time64.setWidth 48) 0) y)) ∧
            Frame [.counters, .wins] u y) ∧
        (∀ op p, admitOp m r.hdr.src s = .part p op → s.fabricPool p = none →
          ∃ t, exec (.remoteOp r) s = .next t ∧ (t.fp r.port).rxHeld = (s.fp r.port).rxHeld ++ [(0, r, true)] ∧
            Frame [.fports] u t)) ∧
    (RxReady 0 r s → s.forHere r = true → (s.fp r.port).opWaits = false → m.code = 0x40 →
      ∃ u t, Linked 0 r true s u ∧ exec (.remoteOp r) s = .next t ∧ t.fab.exts = s.fab.exts ++ [r] ∧ Frame [.exts] u t) ∧
    (∀ p pool e h c, FabReady r .fetchAdd p pool e s → m.code = Op.code .fetchAdd → HomeReady e ⟨h, .cell c⟩ s →
      ∃ u z, Linked 0 r false s u ∧ exec (.remoteOp r) s = .next (oweCredit r.port 1 (finish e .ok c.value none z)) ∧
        z.obj (opKey e) = some ⟨h, .cell ⟨c.value + m.req.payload, m.agent, r.hdr.src⟩⟩ ∧ z.opr.ops = s.opr.ops ++ [e] ∧
        Counted [(p, 10)] u z ∧ SlotsBut (opKey e) s z ∧ Frame [.ops, .rows, .counters, .gctr] u z) ∧
    (∀ e st pay w t, e.txid = some t →
      ∃ z, finish e st pay none w = fabSend 2 e.node (cplBody e.op.code (Status.code st) t false ((w.stamp64 e).setWidth 48)
          (if st = .timedOut ∨ 8 ≤ (Status.code st).toNat then 0 else pay)) z ∧
        z.opr.ops = dropFirst (fun d => decide (d.id = e.id)) w.opr.ops ∧
        Frame [.ops, .counters, .gctr, .wins, .trace] w z) ∧
    (∀ e, s.opEntry e.id = some e → e.st = .queued → s.orderHeld e = false → e.op.noObject = false → e.txid = none →
      e.req.node ≠ s.fab.nodeId → s.fab.nodeValid = true → s.reachable e.req.node = true → s.startHeld e.part = false →
      e.xlat = none → s.frozen = false → e.op ≠ .cas → ∀ f, f = (if e.op.hasPrio then
        { e.req with aux := e.prio ++ e.req.aux.extractLsb' 0 5 } else e.req) →
      ∃ y, tryOp e.id s = fabSend 0 e.req.node (opBody e.op.code f e.agent e.spart (BitVec.ofNat 15 e.id)) y ∧
        y.opr.ops = mapFirst (fun d => decide (d.id = e.id)) (fun d => { d with st := .remote }) s.opr.ops ∧
        Counted [(e.part, 18)] s y ∧ Frame [.ops, .counters] s y) ∧
    (∀ f, RxReady 1 f s → s.forHere f = true → (s.fp f.port).opWaits = false →
      (s.fab.exts.find? (fun x => decide (x.hdr.src = f.hdr.src ∧ (opOfBody x.body 0).txid = f.body.extractLsb' 64 15)) =
          none → ∃ u, exec (.opExt f) s = .next u ∧ Linked 1 f true s u) ∧
      (∀ op p pool, s.fab.exts.find? (fun x =>
            decide (x.hdr.src = f.hdr.src ∧ (opOfBody x.body 0).txid = f.body.extractLsb' 64 15)) = some r →
          admitOp m f.hdr.src s = .part p op → s.fabricPool p = some pool →
        ∃ u y e, Linked 1 f false s u ∧ e = fabEntry m op f.hdr.src p (f.body.extractLsb' 0 64) pool s ∧
          exec (.opExt f) s = .next (oweCredit f.port 1 (tryOp e.id y)) ∧ y.opr.ops = s.opr.ops ++ [e] ∧
          y.fab.exts = dropFirst (fun x =>
            decide (x.hdr.src = f.hdr.src ∧ (opOfBody x.body 0).txid = f.body.extractLsb' 64 15)) s.fab.exts ∧
          Frame [.ops, .exts] u y)) ∧
    (∀ p pool e k, FabReady r .waitCancel p pool e s → k = opKey e → m.code = 0x90 →
      (∀ w ∈ s.wmc.waiters, ¬(w.key = k ∧ w.node = r.hdr.src ∧
        (if w.perNode then w.parity = reqAux0 m.req else w.agent = m.agent))) →
      ∃ u y, Linked 0 r false s u ∧ exec (.waitCancel r) s = .next (oweCredit r.port 1 (fabSend 6 r.hdr.src
          (cancelDoneBody m.req.ctx m.req.index m.agent (reqAux0 m.req) false m.txid)
          (freeOp e.id (count p 19 (traceOp e 0 0 y))))) ∧
        y.opr.ops = s.opr.ops ++ [e] ∧ y.wmc.waiters = s.wmc.waiters ∧ Frame [.ops, .rows] u y) ∧
    (∀ p pool e k w sel, FabReady r .waitCancel p pool e s → k = opKey e → m.code = 0x90 → w ∈ s.wmc.waiters → w.key = k →
      w.node = r.hdr.src → (if w.perNode then w.parity = reqAux0 m.req else w.agent = m.agent) →
      sel = (fun (v : Waiter) => decide (v.key = k ∧ v.node = r.hdr.src) &&
        (if v.perNode then decide (v.parity = reqAux0 m.req) else decide (v.agent = m.agent))) →
      ∃ u y, Linked 0 r false s u ∧ exec (.waitCancel r) s = .next (oweCredit r.port 1 (fabSend 6 r.hdr.src
          (cancelDoneBody m.req.ctx m.req.index m.agent (reqAux0 m.req) true m.txid) (freeOp e.id (count p 19
            (traceOp e 0 0 (if (s.ctx p m.req.ctx).state = .resident then
              afterLeaving k (s.wmc.waiters.any (fun v => sel v && decide (v.op = .reserve))) y
             else afterLeave k (s.wmc.waiters.any (fun v => sel v && decide (v.op = .reserve))) y)))))) ∧
        y.wmc.waiters = s.wmc.waiters.filter (fun v => !sel v) ∧
        SlotsBut k s y ∧ Frame [.ops, .rows, .waiters] u y) ∧
    (∀ p pool e h l, FabReady r .abandon p pool e s → m.code = 0x91 → (s.ctx p m.req.ctx).state = .resident →
      s.obj (opKey e) = some ⟨h, .lock l⟩ →
      (¬(l.held = true ∧ l.holderNode = r.hdr.src ∧ l.holderAgent = m.agent) →
        ∃ u z, Linked 0 r false s u ∧ exec (.abandon r) s = .next (oweCredit r.port 1 (finish e .ok 0 none z)) ∧
          z.opr.ops = s.opr.ops ++ [e] ∧ Frame [.ops] u z) ∧
      (l.held = true → l.holderNode = r.hdr.src → l.holderAgent = m.agent → r.hdr.src ≠ s.fab.nodeId →
        l.effPrio.toNat ≤ l.holdPrio.toNat → s.waitersOf (opKey e) = [] →
        ∃ u z, Linked 0 r false s u ∧ exec (.abandon r) s = .next (oweCredit r.port 1 (finish e .ok 0 none z)) ∧
          z.obj (opKey e) = some ⟨h, .lock { l with held := false, lastEnd := 1, claim := 0 }⟩ ∧
          z.opr.ops = s.opr.ops ++ [e] ∧ z.tdu.leases = s.tdu.leases.filter (fun x => decide (x.key ≠ opKey e)) ∧
          z.olu.holdings = s.olu.holdings ∧ SlotsBut (opKey e) s z ∧
          Frame [.ops, .rows, .leases, .fports, .gctr, .rake, .irq] u z)) ∧
    (∀ p pool e, FabReady r .rsvCancel p pool e s → m.code = 0x92 → (s.ctx p m.req.ctx).state = .resident →
      ∃ u z, Linked 0 r false s u ∧ z.opr.ops = s.opr.ops ++ [e] ∧ Frame [.ops] u z ∧
        exec (.rsvCancel r) s = .next (oweCredit r.port 1 (finish e .ok 0 none
          (cancelRsv (opKey e) m.req.payload (m.agent, r.hdr.src, 4) z))) ∧
        (s.descOf (opKey e) = none → cancelRsv (opKey e) m.req.payload (m.agent, r.hdr.src, 4) z = z)) ∧
    (∀ v, RxReady 2 r s → s.forHere r = true → v = cplOf r.body →
      ∃ u, Linked 2 r true s u ∧
        (∀ e, s.opr.ops.find? (fun e =>
            decide (e.id = v.txid.toNat) && e.txid.isNone && decide (e.st = .remote ∨ e.st = .granted)) = some e →
          (e.st = .granted ∨ v.parked = true → e.id ∉ s.fab.gone →
            ∃ t, exec (.cpl r) s = .next (pump t) ∧ t.opr.ops = dropFirst (fun d => decide (d.id = e.id)) s.opr.ops ∧
              t.wmc.rwaits = s.wmc.rwaits ++ (if e.st = .granted then [] else
                [rwaitOf e (rebuildTime s.now 48 v.stamp.toNat)]) ∧ Frame [.ops, .rwaits] u t) ∧
          (e.st = .remote → v.parked = true → e.id ∈ s.fab.gone →
            ∃ t, exec (.cpl r) s = .next (pump (wakeOne (rwaitOf e (rebuildTime s.now 48 v.stamp.toNat)).local
                (Status.code .noObject) 0 e.req.node none (0, e.req.node, 6) t)) ∧
              t.opr.ops = dropFirst (fun d => decide (d.id = e.id)) s.opr.ops ∧ t.wmc.rwaits = s.wmc.rwaits ∧
              t.fab.gone = s.fab.gone.filter (· ≠ e.id) ∧ Frame [.ops, .exts] u t) ∧
          (e.st = .remote → v.parked = false → e.id ∉ s.fab.gone → e.op ∉ [Op.lock, .tryLock, .claimId, .unlock] →
            exec (.cpl r) s = .next (pump (answer e v.status v.payload (cplGrant e v) u)))) ∧
        ((∀ e ∈ s.opr.ops, e.txid = none → e.id = v.txid.toNat → e.st ≠ .remote ∧ e.st ≠ .granted) →
          ∃ t, exec (.cpl r) s = .next t ∧
            t.fab.undo = dropFirst (fun x => decide (x.txid = v.txid)) s.fab.undo ∧ Frame [.undo] u t)) ∧
    (∀ v sel gone, RxReady 4 r s → s.forHere r = true → v = wakeOfBody r.body →
      gone = decide (v.status = Status.code .noObject) →
      sel = (fun (x : RWait) => v.names r.hdr.src x.node x.ctx x.index && (gone || (x.perNode && decide (x.parity = v.parity)))) →
      ∃ u w, Linked 4 r true s u ∧ w.wmc.rwaits = s.wmc.rwaits.filter (fun x => !sel x) ∧ Frame [.rwaits, .exts] u w ∧
        (gone = false → w.fab = u.fab) ∧
        (gone = true → ∀ e ∈ s.opr.ops, e.st = .remote → e.txid = none → e.req.node = r.hdr.src → e.req.ctx = v.ctx →
          e.req.index = v.index → e.id ∈ w.fab.gone) ∧
        exec (.wakeNode r) s = .next (wakeLocals ((s.wmc.rwaits.filter sel).map RWait.local) v.status v.payload
          r.hdr.src (0, r.hdr.src, 6) w) ∧
        (s.wmc.rwaits.filter sel = [] → exec (.wakeNode r) s = .next w)) ∧
    (∀ v, RxReady 5 r s → s.forHere r = true → v = grantOf r.body →
      ∃ u, Linked 5 r true s u ∧
        (v.ended = true → ∃ t, exec (.grant r) s = .next t ∧
          t.olu.holdings = dropFirst (fun h => decide (h.agent = v.agent ∧ h.node = r.hdr.src ∧ h.key.ctx = v.ctx ∧
            h.key.index = v.index)) s.olu.holdings ∧ Frame [.holdings] u t) ∧
        (∀ x sel, v.ended = false → sel = (fun (x : RWait) => decide (x.perNode = false ∧ x.node = r.hdr.src ∧
            x.ctx = v.ctx ∧ x.index = v.index ∧ x.agent = v.agent ∧ x.op.code = v.code)) →
          s.wmc.rwaits.find? sel = some x →
          ∃ w g, exec (.grant r) s =
              .next (pump (wakeOne x.local v.status v.payload r.hdr.src g (0, r.hdr.src, 6) w)) ∧
            w.wmc.rwaits = dropFirst sel s.wmc.rwaits ∧ (x.op ≠ .lock → Frame [.rwaits] u w) ∧
            (x.op = .take → v.status = 0 →
              g = some (.take ⟨x.part, v.ctx, v.index⟩ (some r.hdr.src) (x.operand.setWidth 64)))) ∧
        (v.ended = false → (∀ x ∈ s.wmc.rwaits, x.node ≠ r.hdr.src) → (∀ e ∈ s.opr.ops, e.req.node ≠ r.hdr.src) →
          ((∀ d ∈ s.fab.undo, ∀ x, d.rwait = some x → x.node ≠ r.hdr.src) → exec (.grant r) s = .next u) ∧
          (∀ d x raced, raced = (fun (d : Undo) => d.rwait.any (fun x => decide (x.perNode = false ∧ x.node = r.hdr.src ∧
              x.ctx = v.ctx ∧ x.index = v.index ∧ x.agent = v.agent ∧ x.op.code = v.code))) →
            s.fab.undo.find? raced = some d → d.rwait = some x → x.op = .take → v.status = 0 →
            ∃ w, exec (.grant r) s = .next (undoGrant x.agent
                (.take ⟨x.part, v.ctx, v.index⟩ (some r.hdr.src) (x.operand.setWidth 64)) w) ∧
              w.fab.undo = mapFirst raced (fun d => { d with rwait := none }) s.fab.undo ∧ Frame [.undo] u w))) ∧
    (RxReady 6 r s → s.forHere r = true →
      ∃ u t, Linked 6 r true s u ∧ exec (.cancelDone r) s = .next t ∧
        t.fab.undo = dropFirst (fun x => decide (x.txid = r.body.extractLsb' 64 15)) s.fab.undo ∧ Frame [.undo] u t) ∧
    (∀ w0 w1 : DWord, RxReady 8 r s → s.forHere r = true → bodySub r.body = 0x20 → w0 = r.body.extractLsb' 64 64 →
      w1 = r.body.extractLsb' 0 64 → w0.extractLsb' 56 8 ≠ 0x2F →
      ∃ u, Linked 8 r true s u ∧ exec (.noticeFwd r) s = .next (snInherit (s.bind (w0.extractLsb' 32 12)).part
        (w1.extractLsb' 0 44, w1.extractLsb' 44 20)
        [w0.extractLsb' 50 14 ++ (s.bind (w0.extractLsb' 32 12)).part ++ w0.extractLsb' 0 44, w1] u)) ∧
    (∀ i kind w, (kind = 3 ∧ i = .combine r ∧ w = ⟨r.body.extractLsb' 132 12, false, r.hdr.src, r.body.extractLsb' 116 16,
          r.body.extractLsb' 113 3, r.body.getLsbD 112, 0, r.body.extractLsb' 0 64⟩) ∨
        (kind = 7 ∧ i = .treeRel r ∧ w = ⟨r.body.extractLsb' 132 12, true, r.hdr.src, r.body.extractLsb' 116 16, 0, false,
          r.body.extractLsb' 108 8, r.body.extractLsb' 0 64⟩) → RxReady kind r s → s.forHere r = true →
      ∃ u t, Linked kind r true s u ∧
        (w.tree = 0xFFF → exec i s = .next t ∧ t.gctr 23 = u.gctr 23 + 1 ∧ Frame [.gctr] u t) ∧
        (w.tree ≠ 0xFFF → exec i s = .next (pump t) ∧ t.fab.inq = s.fab.inq ++ [w] ∧ Frame [.inq] u t)) ∧
    (∀ id slot src epoch valid a h b, (s.tree id).valid = true → s.obj (s.tree id).node = some ⟨h, .barrier b⟩ →
      (epoch ≠ b.epoch ∨ (s.tree id).childMask.getLsbD slot.toNat = false ∨
          tget (s.tree id).child slot.toNat ≠ some src ∨ (s.tree id).curChild.getLsbD slot.toNat = true →
        (s.frozen = false → (combineFlit id src epoch slot valid a s).gctr 23 = s.gctr 23 + 1) ∧
        Frame [.gctr] s (combineFlit id src epoch slot valid a s)) ∧
      (epoch = b.epoch → (s.tree id).childMask.getLsbD slot.toNat = true → tget (s.tree id).child slot.toNat = some src →
        (s.tree id).curChild.getLsbD slot.toNat = false → b.curCount + 1 ≠ b.target →
        (combineFlit id src epoch slot valid a s).tree id =
          { s.tree id with curChild := setBit (s.tree id).curChild slot.toNat } ∧
        (combineFlit id src epoch slot valid a s).obj (s.tree id).node = some ⟨h, .barrier { b with
          curCount := b.curCount + 1, acc := if valid then barrierCombine b a else b.acc
          accValid := b.accValid || valid }⟩ ∧
        Frame [.trees, .rows, .counters] s (combineFlit id src epoch slot valid a s)) ∧
      (epoch ≠ b.epoch → (s.tree id).root = false → ∀ st,
        (s.frozen = false → (treeRelFlit id src epoch st a s).gctr 23 = s.gctr 23 + 1) ∧
        Frame [.gctr] s (treeRelFlit id src epoch st a s)) ∧
      (epoch = b.epoch → (s.tree id).root = false → ∀ st,
        ∃ hd b', (treeRelFlit id src epoch st a s).obj (s.tree id).node = some ⟨hd, .barrier b'⟩ ∧
          b'.epoch = b.epoch + 1 ∧ b'.result = a ∧ b'.missCount = b.target - b.curCount ∧
          b'.lastPartial = decide (st = 2))) ∧
    (∀ f got, RxReady 8 r s → s.forHere r = true → bodySub r.body = 0x30 → f = fragOf r.body →
      got = s.gathered r.hdr.src f →
      ∃ u v, Linked 8 r true s u ∧
        v.msq.frags = s.msq.frags.filter (fun g => !decide (g.1 = r.hdr.src ∧ g.2.1 = f.rtag ∧ g.2.2.1 = f.dir)) ∧
        Frame [.frags] u v ∧
        (got.length ≠ 4 * f.frag → exec (.remoteCmdFragment r) s =
          .next (report .fragOrder .msq none (f.rtag.setWidth 12) r.hdr.src 0 0 v)) ∧
        (got.length = 4 * f.frag → f.frag ≠ 3 →
          ∃ t, exec (.remoteCmdFragment r) s = .next t ∧
            t.msq.frags = v.msq.frags ++ [(r.hdr.src, f.rtag, f.dir, got ++ f.words)] ∧ Frame [.frags] u t) ∧
        (got.length = 4 * f.frag → f.frag = 3 → f.dir = false →
          exec (.remoteCmdFragment r) s = .next (pump (remoteRequest r.hdr.src f.rtag (got ++ f.words) v)))) ∧
    (∀ src rtag ws c, c = ⟨s.msq.nextId, .remote src rtag, true, ws, .queued, s.now⟩ →
      (s.cmdAdmits src = true → remoteRequest src rtag ws s = arrive c none none s) ∧
      (s.cmdAdmits src = false →
        remoteRequest src rtag ws s = sendPacket src true rtag (replyWords c (Status.code .accessDenied) 0 []) s)) ∧
    (∀ n x c due, x = elapse n s → s.cmd c.id = some c →
      (c.phase = .remote (some due) →
        (due ≤ x.now → exec (.remoteCmdTimeout c.id n) s = .next (answerUnrun c .remoteTimeout x)) ∧
        (x.now < due → exec (.remoteCmdTimeout c.id n) s = .next x)) ∧
      (c.phase = .remote none → exec (.remoteCmdTimeout c.id n) s = .next x))

/-- R213, R215, R221 and R232: `ROUTE_DISCOVER` floods a probe; each instance answers, forwards and reports as R213 says, takes its NodeID and the plan digest, and builds its tables from the vectors it receives; completion goes up and then down the discovery tree. `ROUTE_LOAD` writes the tables while the fabric is hobbled. A tree edge on a detour is re-stitched by the flits of R232, and what is not done within 250 us of the loss is given up. The bodies of these flits are the model's own (log 34, log 36). -/
def Obligations.DiscoveryAndStitching : Prop :=
  ∀ (c : Cmd) (q : Nat) (r : Rx) (n : Nat) (s x y : State) (d : Disc) (nothing : Prop),
    x = elapse n s → d = s.fab.disc → nothing = (∀ p, (s.fp p).held = []) →
    (CmdReady 0x0301 discoverFmt c q s →
      (s.fab.nodeValid = true → s.obs.hobble.state ≠ 3 → Rejects (.routeDiscover c.id) c .rangeError (BitVec.ofNat 32 65536) s) ∧
      (s.fab.nodeValid = false ∨ s.obs.hobble.state = 3 → s.livePorts ≠ [] →
        ∃ u, Goes (.routeDiscover c.id) [.cmds, .disc, .fports] s u ∧
          u.fab.disc = { Disc.reset with
            active := true, session := d.session + 1, origin := true, waiting := s.livePorts, cmd := some c.id } ∧
          u.msq.cmds = mapFirst (fun z => decide (z.id = c.id)) (fun z => { z with phase := .waiting }) s.msq.cmds ∧
          ∀ p, u.fp p = { s.fp p with txq := (s.fp p).txq ++ if p ∈ s.livePorts then
            [⟨8, (s.fp p).farNode, s.fab.nodeId, none, 63, probeBody (d.session + 1) 0, none⟩] else [] })) ∧
    (∀ a, CmdReady 0x0302 loadFmt c q s → a = c.addr 3 →
      (s.obs.hobble.state ≠ 3 → Rejects (.routeLoad c.id) c .rangeError (BitVec.ofNat 32 65536) s) ∧
      (s.obs.hobble.state = 3 → memErr s (s.cmdReqid c) a 1024 = true →
        ∃ u, Completes (.routeLoad c.id) c .rangeError (det 3 0) [] [.mmPort] s u) ∧
      (s.obs.hobble.state = 3 → memErr s (s.cmdReqid c) a 1024 = false → nothing →
        ∃ u, Completes (.routeLoad c.id) c .ok 0 [] [.routes, .fports, .clock, .mmPort] s u ∧
          u.mmOut = some ⟨false, s.cmdReqid c, a, 1024⟩ ∧
          (s.clk.hasParent = false → s.clk.asking = false → u.clk = s.clk) ∧
          (∀ g, s.clk.grandmaster = false → s.clk.hasParent = true → u.portOf s.clk.gmNode = some g → g ≠ s.clk.parentPort →
            u.clk.parentPort = g ∧ u.clk.hasParent = false ∧ u.clk.asking = true) ∧
          u.fab.nodeId = c.field 2 0 16 ∧ u.fab.nodeValid = true ∧ u.fab.planDigest = c.word 6 ++ c.word 5 ∧
          (∀ i, i < 256 →
            tgetD Route.reset u.fab.groupRt i = routeOfWord (bvOf 16 (memBytes s (a + 2 * i) 2)) ∧
            tgetD Route.reset u.fab.memberRt i = routeOfWord (bvOf 16 (memBytes s (a + 512 + 2 * i) 2))) ∧
          ∀ p, u.fp p = { s.fp p with
            state := if (s.fp p).state.live = true ∧ u.routedPort p = true then .up else (s.fp p).state
            detour := if (s.fp p).state = .failed then (s.fp p).detour else false })) ∧
    (RxFar 8 r s → ∃ u, Linked 8 r true s u ∧
      (bodySub r.body = 0x02 → exec (.discoveryProbe r) s = .next (probeFlit r u)) ∧
      (bodySub r.body = 0x03 → exec (.notAChild r) s = .next (notChildFlit r u)) ∧
      (bodySub r.body = 0x04 → exec (.discoveryReport r) s = .next (reportFlit r u)) ∧
      (bodySub r.body = 0x05 → exec (.nodeidAssign r) s = .next (assignFlit r u)) ∧
      (bodySub r.body = 0x06 → exec (.planDigest r) s = .next (planFlit r u)) ∧
      (bodySub r.body = 0x07 → r.body.getLsbD 127 = false → exec (.discoveryCompletionUp r) s = .next (doneUpFlit r u)) ∧
      (bodySub r.body = 0x07 → r.body.getLsbD 127 = true → exec (.discoveryComplete r) s = .next (doneDownFlit r u)) ∧
      (bodySub r.body = 0x08 → exec (.routeDv r) s = .next (dvFlit r u))) ∧
    (∀ e depth, e = bodySession r.body → depth = r.body.extractLsb' 120 8 →
      (d.active = true → d.session = e →
        ((probeFlit r s).fp r.port).txq = (s.fp r.port).txq ++
          [⟨8, (s.fp r.port).farNode, s.fab.nodeId, none, 63, notChildBody e, none⟩] ∧
        (∀ p, p ≠ r.port → (probeFlit r s).fp p = s.fp p) ∧ Frame [.fports] s (probeFlit r s)) ∧
      (¬(d.active = true ∧ d.session = e) → depth.toNat < 32 → (∃ p ∈ s.livePorts, p ≠ r.port) →
        (probeFlit r s).fab.disc = { Disc.reset with
          active := true, session := e, parent := some r.port, depth
          waiting := s.livePorts.filter (fun p => decide (p ≠ r.port)), tooDeep := false } ∧
        (∀ p, ((probeFlit r s).fp p).txq = (s.fp p).txq ++ if p ∈ s.livePorts ∧ p ≠ r.port then
          [⟨8, (s.fp p).farNode, s.fab.nodeId, none, 63, probeBody e (depth + 1), none⟩] else []) ∧
        Frame [.disc, .fports] s (probeFlit r s)) ∧
      (¬(d.active = true ∧ d.session = e) → s.livePorts = [r.port] →
        ((probeFlit r s).fp r.port).txq = (s.fp r.port).txq ++ [⟨8, (s.fp r.port).farNode, s.fab.nodeId, none, 63,
          reportBody ⟨s.slu.otp.uid, r.port, s.fab.scope.getLsbD r.port.toNat, (s.fp r.port).farUid, true⟩ true
            (decide (32 ≤ depth.toNat)), none⟩] ∧
        (probeFlit r s).fab.disc.reported = true ∧ Frame [.disc, .fports] s (probeFlit r s)) ∧
      (d.active = true → d.session = e → (∃ p ∈ d.waiting, p ≠ r.port) →
        (notChildFlit r s).fab.disc = { d with waiting := d.waiting.filter (· ≠ r.port) } ∧
        Frame [.disc] s (notChildFlit r s)) ∧
      (¬(d.active = true ∧ d.session = e) → notChildFlit r s = s) ∧
      (¬(d.active = true ∧ d.session = e) → doneUpFlit r s = s ∧ doneDownFlit r s = s)) ∧
    (d.active = true → r.port ∈ d.waiting → r.body.getLsbD 3 = false →
      (reportFlit r s).fab.disc = { d with
        reports := d.reports ++ [repOf r.body], tooDeep := d.tooDeep || r.body.getLsbD 2
        children := if r.port ∈ d.children then d.children else d.children ++ [r.port] } ∧
      Frame [.disc] s (reportFlit r s)) ∧
    (d.active = false ∨ r.port ∉ d.waiting → reportFlit r s = s) ∧
    (r.body.extractLsb' 114 6 = 0#6 →
      (assignFlit r s).fab.nodeId = r.body.extractLsb' 120 16 ∧ (assignFlit r s).fab.nodeValid = true ∧
      (assignFlit r s).fab.groupRt = s.fab.groupRt ∧ (assignFlit r s).fab.memberRt = s.fab.memberRt ∧
      Frame [.routes] s (assignFlit r s)) ∧
    (∀ p : FabPort, p = r.body.extractLsb' 18 3 → r.body.extractLsb' 114 6 ≠ 0#6 →
      (∃ b, ((assignFlit r s).fp p).txq = (s.fp p).txq ++ [⟨8, (s.fp p).farNode, s.fab.nodeId, none, 63, b, none⟩] ∧
        bodySub b = 0x05 ∧ b.extractLsb' 120 16 = r.body.extractLsb' 120 16 ∧
        b.extractLsb' 114 6 = r.body.extractLsb' 114 6 - 1#6 ∧
        b.extractLsb' 18 93 = (r.body.extractLsb' 21 93 : BitVec 93)) ∧
      (∀ g, g ≠ p → (assignFlit r s).fp g = s.fp g) ∧ Frame [.fports] s (assignFlit r s)) ∧
    (d.active = true → d.session = r.body.extractLsb' 64 8 → d.started = false →
      (planFlit r s).fab.planDigest = r.body.extractLsb' 72 64 ∧ (planFlit r s).fab.disc.started = true ∧
      (planFlit r s).fab.disc.rootNode = r.body.extractLsb' 48 16 ∧ (planFlit r s).fab.disc.dv = [] ∧
      (planFlit r s).fab.disc.converged = false ∧ (planFlit r s).fab.nodeId = s.fab.nodeId ∧
      Frame [.routes, .disc, .fports] s (planFlit r s)) ∧
    (d.active = false ∨ d.session ≠ r.body.extractLsb' 64 8 ∨ d.started = true → planFlit r s = s) ∧
    (∀ foreign, foreign = (r.body.getLsbD 127 = true ∧
        (r.hdr.src.extractLsb' 8 8 : Byte) ≠ s.fab.nodeId.extractLsb' 8 8) →
      (d.started = false ∨ d.done = true ∨ bodySession r.body ≠ d.session ∨ foreign →
        (dvFlit r s).fp r.port = { s.fp r.port with farNode := r.hdr.src } ∧
        (∀ p, p ≠ r.port → (dvFlit r s).fp p = s.fp p) ∧ Frame [.fports] s (dvFlit r s)) ∧
      (d.started = true → d.done = false → bodySession r.body = d.session → ¬foreign →
        (∀ e ∈ dvEntries r.port r.body, e ∈ (dvFlit r s).fab.disc.dv) ∧
        ((∃ e ∈ dvEntries r.port r.body, e ∉ d.dv) →
          (dvFlit r s).fab.disc.dvAt = s.now ∧
          ∀ i, i < 256 →
            tgetD Route.reset (dvFlit r s).fab.groupRt i = (dvFlit r s).dvRoute false (BitVec.ofNat 8 i) ∧
            tgetD Route.reset (dvFlit r s).fab.memberRt i = (dvFlit r s).dvRoute true (BitVec.ofNat 8 i)) ∧
        (dvFlit r s).fab.nodeId = s.fab.nodeId ∧ Frame [.fports, .disc, .routes] s (dvFlit r s))) ∧
    (s.running = true → y = dvFlush x →
      (y.fab.disc.started = true → y.fab.disc.converged = false → y.fab.disc.dvDue = false →
        y.fab.disc.dvAt + 200000 ≤ y.now →
        ∃ z, exec (.discoveryConverged n) s = .next (completionCheck z) ∧
          z.fab.disc = { y.fab.disc with converged := true } ∧ Frame [.disc] y z) ∧
      (y.now < y.fab.disc.dvAt + 200000 → exec (.discoveryConverged n) s = .next y)) ∧
    (d.active = true → bodySession r.body = d.session → r.port ∉ d.childDone →
      ∃ z, doneUpFlit r s = completionCheck z ∧ z.fab.disc = { d with childDone := d.childDone ++ [r.port] } ∧
        Frame [.disc] s z) ∧
    (∀ p, d.converged = true → d.done = false → (∀ g ∈ d.children, g ∈ d.childDone) → d.parent = some p →
      ((completionCheck s).fp p).txq = (s.fp p).txq ++
        [⟨8, (s.fp p).farNode, s.fab.nodeId, none, 63, doneBody d.session false, none⟩] ∧
      Frame [.fports] s (completionCheck s)) ∧
    (d.converged = false ∨ d.done = true ∨ (∃ g ∈ d.children, g ∉ d.childDone) → completionCheck s = s) ∧
    (∀ p, d.active = true → bodySession r.body = d.session → d.done = false → nothing → d.parent = some p →
      (doneDownFlit r s).fab.disc.done = true ∧
      (∀ g, ((doneDownFlit r s).fp g).state = if (s.fp g).state.live then .up else (s.fp g).state) ∧
      (∀ g, ((doneDownFlit r s).fp g).txq = (s.fp g).txq ++ if g ∈ s.livePorts ∧ g ≠ r.port then
        [⟨8, (s.fp g).farNode, s.fab.nodeId, none, 63, r.body, none⟩] else []) ∧
      ((doneDownFlit r s).tree 0xFFF).valid = true ∧ ((doneDownFlit r s).tree 0xFFF).parent = (s.fp p).farNode ∧
      (doneDownFlit r s).fab.census = censusRole d.origin s.fab.census ∧
      ((doneDownFlit r s).tree 0xFFF).root = d.origin ∧ ((doneDownFlit r s).tree 0xFFF).rootNode = d.rootNode ∧
      (∀ t, t ≠ 0xFFF → (doneDownFlit r s).tree t = s.tree t) ∧
      (s.clk.hasParent = false → s.clk.asking = false → (doneDownFlit r s).clk = s.clk) ∧
      Frame [.disc, .trees, .census, .fports, .clock] s (doneDownFlit r s)) ∧
    (∀ v : Census, (censusRole true v = { v with root := true }) ∧
      (censusRole false v).root = false ∧ (censusRole false v).mismatch = false ∧ (censusRole false v).incomplete = false ∧
      (censusRole false v).bisectDone = false ∧ (censusRole false v).bisecting = false ∧ (censusRole false v).ranges = [] ∧
      (censusRole false v).pass = v.pass ∧ (censusRole false v).isMatch = v.isMatch ∧ (censusRole false v).count = v.count) ∧
    (∀ id t, t = s.tree id →
      (∀ lost, lost = (s.fp (s.route t.parent).pri).lostAt → s.running = true → s.obs.hobble.state = 0 → id ≠ 0xFFF → t.valid = true → t.root = false → t.altParent ≠ 0xFFFF →
        t.altParent ≠ t.parent → t.restitch = none → (s.route t.parent).priV = true → (s.fp (s.route t.parent).pri).detour = true →
        (s.now < lost + 250000 →
          ∃ z, exec (.restitchStart id) s = .next (fabSend 8 t.rootNode (stitchBody 0x60 ⟨id, false, false, 0, 0⟩) z) ∧
            z.tree id = { t with restitch := some (1, 0, 0), stitchAt := lost } ∧ Frame [.trees] s z) ∧
        (lost + 250000 ≤ s.now →
          ∃ z, exec (.restitchStart id) s = .next z ∧
            z.tree id = { t with restitch := some (3, 0, 0), stitchAt := lost } ∧ Frame [.trees] s z)) ∧
      (∀ i j v, s.running = true → s.obs.hobble.state = 0 → id ≠ 0xFFF → t.valid = true → t.root = false →
        t.restitch = some (i, j, v) → i ≠ 3 →
        (t.stitchAt + 250000 ≤ s.now →
          ∃ z, exec (.restitchStart id) s = .next (fabSend 8 t.rootNode (stitchBody 0x63 ⟨id, false, false, 0, j⟩) z) ∧
            z.tree id = { t with restitch := some (3, j, 0) } ∧ Frame [.trees] s z) ∧
        (s.now < t.stitchAt + 250000 → exec (.restitchStart id) s = .next s)) ∧
      (s.running = true → s.obs.hobble.state = 0 → id ≠ 0xFFF → t.valid = true → t.root = true → t.holdStitch = true →
        (t.stitchAt + 250000 ≤ s.now → exec (.restitchStart id) s = .next (pump (clearHoldStitch id s))) ∧
        (s.now < t.stitchAt + 250000 → exec (.restitchStart id) s = .next s)) ∧
      (s.running = false ∨ s.obs.hobble.state ≠ 0 ∨ id = 0xFFF ∨ t.valid = false ∨ (t.root = true ∧ t.holdStitch = false) ∨
        (t.root = false ∧ t.restitch = none ∧ (t.altParent = 0xFFFF ∨ t.altParent = t.parent)) →
        exec (.restitchStart id) s = .next s)) ∧
    (∀ m t, RxReady 8 r s → s.forHere r = true → m = stitchOf r.body → t = s.tree m.tree →
      ∃ u, Linked 8 r true s u ∧
        (∀ e, bodySub r.body = 0x60 → m.reply = false → s.treeEpoch t = some e → t.root = true →
          ∃ z, exec (.stitchHoldRequest r) s = .next (fabSend 8 r.hdr.src
              (stitchBody 0x60 ⟨m.tree, true, false, 0, e + 1⟩) z) ∧
            z.tree m.tree = { t with holdStitch := true, stitchAt := s.now } ∧ Frame [.trees] u z) ∧
        (bodySub r.body = 0x61 → m.reply = false → t.valid = true →
          (∀ i, lowest (fun i => !t.taken i) 8 = some i →
            ∃ z, exec (.stitchJoin r) s = .next (fabSend 8 r.hdr.src
                (stitchBody 0x61 ⟨m.tree, true, false, BitVec.ofNat 3 i, m.j⟩) z) ∧
              z.tree m.tree = { t with changes := t.changes ++ [(m.j, .join (BitVec.ofNat 3 i) r.hdr.src)] } ∧
              Frame [.trees] u z) ∧
          (lowest (fun i => !t.taken i) 8 = none → exec (.stitchJoin r) s = .next (fabSend 8 r.hdr.src
            (stitchBody 0x61 ⟨m.tree, true, true, 0, m.j⟩) u))) ∧
        (∀ g, bodySub r.body = 0x62 → m.reply = false →
          t.child.find? (fun g => decide (g.2 = r.hdr.src) && t.childMask.getLsbD g.1) = some g →
          ∃ z, exec (.stitchLeave r) s = .next z ∧
            z.tree m.tree = { t with changes := t.changes ++ [(m.j, .leave (BitVec.ofNat 3 g.1))] } ∧ Frame [.trees] u z) ∧
        (bodySub r.body = 0x63 → m.reply = false → t.valid = true → t.root = true → t.holdStitch = true →
          exec (.stitchDone r) s = .next (pump (clearHoldStitch m.tree u)) ∧
          (t.pend = false → (clearHoldStitch m.tree u).tree m.tree = { t with holdStitch := false } ∧
            Frame [.trees] u (clearHoldStitch m.tree u))) ∧
        (∀ j v, m.reply = true →
          (bodySub r.body = 0x60 → t.restitch = some (1, j, v) →
            ∃ z, exec (.stitchReply r) s = .next (fabSend 8 t.altParent
                (stitchBody 0x61 ⟨m.tree, false, false, 0, m.j⟩) z) ∧
              z.tree m.tree = { t with restitch := some (2, m.j, 0) } ∧ Frame [.trees] u z) ∧
          (bodySub r.body = 0x61 → t.restitch = some (2, j, v) → m.noSlot = true →
            ∃ z, exec (.stitchReply r) s = .next (fabSend 8 t.rootNode
                (stitchBody 0x63 ⟨m.tree, false, false, 0, j⟩) z) ∧
              z.tree m.tree = { t with restitch := some (3, j, 0) } ∧ z.gctr 41 = u.gctr 41 + 1 ∧
              Frame [.trees, .gctr, .rake, .irq] u z) ∧
          (bodySub r.body = 0x61 → t.restitch = some (2, j, v) → m.noSlot = false →
            ∃ z, exec (.stitchReply r) s = .next (fabSend 8 t.rootNode
                (stitchBody 0x63 ⟨m.tree, false, false, 0, j⟩) z) ∧
              z.tree m.tree = { t with restitch := some (3, j, 0), changes := t.changes ++ [(j, .parent t.altParent m.slot)] } ∧
              Frame [.trees, .fports, .gctr, .rake, .irq] u z)))

/-- R234 to R238 and R311 to R314: an instance asks its time parent once a millisecond, gives way to a grandmaster of a lower NodeID that it hears (which one it hears is open, log 37), becomes grandmaster after three periods without one of lower NodeID, takes another parent or grandmaster after three requests without an answer, answers its neighbours, and follows the offset of the answer: TIME steps once, afterwards each offset goes over the next 1 ms by a rate within 500 ppm of the tracked one, which is open (log 38). The model's choices here: the synced bit needs `TIME_LOCKED` (log 78), an answer with the bit clear takes the grandmaster away (log 79), and a new grandmaster runs at its last estimate (log 80); the census is begun at the root, folds the least and the greatest digest and the counts, ends with a verdict, and narrows a mismatch by queries. -/
def Obligations.TimeAndCensus : Prop :=
  ∀ (c : Cmd) (q : Nat) (r : Rx) (n : Nat) (s x : State) (m : CensusMsg) (k : Census),
    x = elapse n s → m = censusOf r.body → k = s.fab.census →
    (s.running = true →
      (x.now < s.clk.syncAt + 1000000 → exec (.syncPeriod n) s = .next x) ∧
      (s.clk.syncAt + 1000000 ≤ x.now →
        ∃ heard w, exec (.syncPeriod n) s = .next (syncRequest (match heard with
            | some (gm, p) => heardGm gm p (noteHeard heard w)
            | none => noteHeard heard w)) ∧
          w.clk = { x.clk with syncAt := x.now } ∧ Frame [.clock, .free] x w ∧
          ∀ gm p, heard = some (gm, p) → s.portOf gm = some p ∧ gm ≠ s.fab.nodeId)) ∧
    (∀ h, Frame [.clock] s (noteHeard h s) ∧
      (h = none → (noteHeard h s).clk = { s.clk with heardFor := s.clk.heardFor + 1, unheard := s.clk.unheard + 1 }) ∧
      ∀ gm p, h = some (gm, p) → (noteHeard h s).clk.heard = h ∧ (noteHeard h s).clk.heardFor = 0 ∧
        (gm.toNat < s.fab.nodeId.toNat → (noteHeard h s).clk.unheard = 0) ∧
        (s.fab.nodeId.toNat ≤ gm.toNat → (noteHeard h s).clk.unheard = s.clk.unheard + 1)) ∧
    (∀ z, z = { s.clk with silent := (if s.clk.waited then s.clk.silent + 1 else s.clk.silent), waited := true } →
      (s.clk.grandmaster = true ∨ (s.clk.hasParent = false ∧ s.clk.asking = false) → syncRequest s = s) ∧
      (s.clk.grandmaster = false → s.clk.hasParent = true ∨ s.clk.asking = true → s.fpLive s.clk.parentPort = true →
        (syncRequest s).clk = { z with syncSeq := s.clk.syncSeq + 1 } ∧
        ((syncRequest s).fp s.clk.parentPort).txq = (s.fp s.clk.parentPort).txq ++
          [⟨9, (s.fp s.clk.parentPort).farNode, s.fab.nodeId, none, 63, syncReqBody (s.clk.syncSeq + 1), none⟩] ∧
        Frame [.clock, .fports] s (syncRequest s)) ∧
      (s.clk.grandmaster = false → s.clk.hasParent = true ∨ s.clk.asking = true → s.fpLive s.clk.parentPort = false →
        (syncRequest s).clk = z ∧ Frame [.clock] s (syncRequest s))) ∧
    (∀ (gm : NodeId) (p : FabPort) z, z = { s.clk with
        gmNode := gm, parentPort := p, hasParent := false, asking := true, silent := 0, waited := false, syncOut := none } →
      (s.clk.grandmaster = true → gm.toNat < s.fab.nodeId.toNat →
        (heardGm gm p s).clk = { z with grandmaster := false, stepped := true } ∧ Frame [.clock] s (heardGm gm p s)) ∧
      (s.clk.grandmaster = true → s.fab.nodeId.toNat ≤ gm.toNat → heardGm gm p s = s) ∧
      (s.clk.grandmaster = false → s.clk.hasParent = true ∨ s.clk.asking = true → gm.toNat < s.clk.gmNode.toNat →
        (heardGm gm p s).clk = z ∧ Frame [.clock] s (heardGm gm p s)) ∧
      (s.clk.grandmaster = false → s.clk.hasParent = true ∨ s.clk.asking = true → s.clk.gmNode.toNat ≤ gm.toNat →
        heardGm gm p s = s) ∧
      (s.clk.grandmaster = false → s.clk.hasParent = false → s.clk.asking = false →
        (s.timeMaster = false ∨ gm.toNat < s.fab.nodeId.toNat →
          (heardGm gm p s).clk = z ∧ Frame [.clock] s (heardGm gm p s)) ∧
        (s.timeMaster = true → s.fab.nodeId.toNat ≤ gm.toNat → heardGm gm p s = s))) ∧
    (RxFar 9 r s → bodySub r.body = 1 →
      ∃ u t, Linked 9 r true s u ∧ exec (.syncReq r) s = .next t ∧
        (t.fp r.port).txq = (s.fp r.port).txq ++ [⟨9, (s.fp r.port).farNode, s.fab.nodeId, none, 63,
          syncRspBody (bodySeq r.body) s.time64 s.gmSeen (s.clk.timeDepth.setWidth 4) s.synced, none⟩] ∧
        Frame [.fports] u t) ∧
    (∀ off good gm, RxFar 9 r s → bodySub r.body = 2 →
      good = decide (off.natAbs ≤ 16) → gm = r.body.extractLsb' 16 16 →
      ∃ u t, Linked 9 r true s u ∧ exec (.syncRsp r) s = .next t ∧
        (s.clk.syncOut = none ∨ (s.clk.hasParent = false ∧ s.clk.asking = false) ∨ r.port ≠ s.clk.parentPort ∨
          (∃ e, s.clk.syncOut = some e ∧ e.1 ≠ bodySeq r.body) → t = u) ∧
        (∀ t1, s.clk.syncOut = some (bodySeq r.body, t1) → s.clk.hasParent = true ∨ s.clk.asking = true →
          r.port = s.clk.parentPort →
          (r.body.getLsbD 11 = false → t.clk.hasParent = false ∧ t.clk.asking = false ∧ t.clk.timeLocked = false ∧
            t.clk.gmNode = 0 ∧ t.clk.time = s.clk.time ∧ t.clk.timeInc = s.clk.timeInc ∧ t.clk.slew = none ∧
            t.clk.stepped = (s.clk.everLocked || s.clk.stepped) ∧
            t.clk.estimate = (if s.clk.everLocked then s.clk.estimate else none) ∧ Frame [.clock] u t) ∧
          (r.body.getLsbD 11 = true →
            off = syncOffset t1.toNat (r.body.extractLsb' 64 64).toNat (r.body.extractLsb' 32 32).toNat s.now →
            t.clk.gmNode = gm ∧
            t.clk.timeDepth = (r.body.extractLsb' 12 4 : BitVec 4).setWidth 8 + 1 ∧ t.clk.stepped = true ∧
            t.clk.goodSyncs = (if good then s.clk.goodSyncs + 1 else 0) ∧
            (t.clk.timeLocked = true ↔ (good = true ∧ 1 ≤ s.clk.goodSyncs) ∨
              (s.clk.timeLocked = true ∧ off.natAbs ≤ 64)) ∧
            ((∀ p, s.portOf gm = some p → p = s.clk.parentPort) → t.clk.hasParent = true ∧ t.clk.asking = false) ∧
            (∀ p, s.clk.grandmaster = false → s.portOf gm = some p → p ≠ s.clk.parentPort →
              t.clk.parentPort = p ∧ t.clk.hasParent = false ∧ t.clk.asking = true) ∧
            t.clk.timeInc = s.clk.timeInc ∧
            (∃ e, t.clk.estimate = some e ∧
              (s.clk.stepped = true → t.clk.time = s.clk.time ∧ t.clk.slew = some (BitVec.ofInt 36
                ((e.toNat : Int) + e.toNat * max (-500) (min 500 off) / 1000000), s.now + 1000000))) ∧
            (s.clk.stepped = false → t.clk.slew = none ∧
              t.clk.time = BitVec.ofInt 96 ((s.clk.time.toNat : Int) + off * 2 ^ 32)) ∧
            Frame [.time, .clock, .free] u t))) ∧
    (∀ t1 t2 res t4 : Nat, syncOffset t1 t2 res t4 = ((t2 : Int) - t1) - (((t4 : Int) - t1) - res) / 2) ∧
    (s.running = true → s.clk.grandmaster = true → exec (.timeParentTimeout n) s = .next x) ∧
    (s.running = true → s.clk.grandmaster = false → s.timeMaster = true → 3 ≤ s.clk.unheard →
      ∃ t, exec (.timeParentTimeout n) s = .next t ∧ Frame [.clock] x t ∧
        t.clk = { x.clk with
          grandmaster := true, gmNode := s.fab.nodeId, hasParent := false, asking := false, timeDepth := 0, silent := 0
          waited := false, syncOut := none, stepped := true, slew := none
          estimate := if s.clk.everLocked then s.clk.estimate else none }) ∧
    (s.running = true → s.clk.grandmaster = false → s.timeMaster = false ∨ s.clk.unheard < 3 → ∀ (take : NodeId → FabPort → Clk),
      (∀ gm p, take gm p = { x.clk with
        gmNode := gm, parentPort := p, hasParent := false, asking := true, silent := 0, waited := false, syncOut := none }) →
      (s.clk.silent < 3 ∨ (s.clk.hasParent = false ∧ s.clk.asking = false) → exec (.timeParentTimeout n) s = .next x) ∧
      (3 ≤ s.clk.silent → s.clk.hasParent = true ∨ s.clk.asking = true →
        (∀ p, s.portOf s.clk.gmNode = some p → p ≠ s.clk.parentPort →
          ∃ t, exec (.timeParentTimeout n) s = .next t ∧ t.clk = take s.clk.gmNode p ∧ Frame [.clock] x t) ∧
        (s.portOf s.clk.gmNode = none ∨ s.portOf s.clk.gmNode = some s.clk.parentPort →
          (∀ gm p, s.clk.heard = some (gm, p) → s.clk.heardFor < 3 → gm ≠ s.clk.gmNode →
            s.timeMaster = false ∨ gm.toNat < s.fab.nodeId.toNat →
            ∃ t, exec (.timeParentTimeout n) s = .next t ∧ t.clk = take gm p ∧ Frame [.clock] x t) ∧
          (s.clk.heard = none ∨ 3 ≤ s.clk.heardFor ∨ (∃ e, s.clk.heard = some e ∧ e.1 = s.clk.gmNode) →
            ∃ t, exec (.timeParentTimeout n) s = .next t ∧ t.clk.gmNode = 0 ∧ t.clk.hasParent = false ∧
              t.clk.asking = false ∧ t.clk.timeLocked = false ∧ t.clk.grandmaster = false ∧
              t.clk.stepped = s.clk.everLocked ∧ t.clk.time = x.clk.time ∧
              t.clk.estimate = (if s.clk.everLocked then s.clk.estimate else none) ∧ Frame [.clock] x t)))) ∧
    (s.synced = true ↔ s.clk.grandmaster = true ∨ (s.clk.hasParent = true ∧ s.clk.timeLocked = true)) ∧
    (CmdReady 0x0310 noFmt c q s →
      (k.root = false → Rejects (.censusNow c.id) c .rangeError (BitVec.ofNat 32 65536) s) ∧
      (k.root = true →
        ∃ y, exec (.censusNow c.id) s = .next (pump (ok c [k.nextPass.setWidth 32]
            (settlePass (toChildren (censusBody 1 0 k.nextPass 0 0) y)))) ∧ SeqsKept s y ∧
          y.fab.census = { k with
            nextPass := k.nextPass + 1, running := some (k.nextPass, s.nodeDigest, s.now), foldMin := s.nodeDigest
            foldMax := s.nodeDigest, foldCnt := 1, frags := [], missing := s.cchildren } ∧ Frame [.seqs, .census] s y)) ∧
    (s.running = true →
      (x.now < k.tickAt + k.period.toNat * 1000000 → exec (.censusTick n) s = .next x) ∧
      (k.tickAt + k.period.toNat * 1000000 ≤ x.now →
        (k.root = false ∨ k.en = false ∨ s.obs.hobble.state ≠ 0 ∨ s.anyRunning = false ∨ k.running ≠ none ∨ k.bisecting = true →
          ∃ t, exec (.censusTick n) s = .next t ∧ t.fab.census = { k with tickAt := x.now } ∧ Frame [.census] x t) ∧
        (k.root = true → k.en = true → s.obs.hobble.state = 0 → s.anyRunning = true → k.running = none → k.bisecting = false →
          ∃ y, exec (.censusTick n) s = .next (settlePass (toChildren (censusBody 1 0 k.nextPass 0 0) y)) ∧
            y.fab.census = { k with
              tickAt := x.now, nextPass := k.nextPass + 1, running := some (k.nextPass, s.nodeDigest, x.now)
              foldMin := s.nodeDigest, foldMax := s.nodeDigest, foldCnt := 1, frags := [], missing := s.cchildren } ∧
            Frame [.census] x y))) ∧
    (RxReady 8 r s → s.forHere r = true → bodySub r.body = 0x50 → ∃ u, Linked 8 r true s u ∧
      (m.ckind = 1 → exec (.censusStart r) s = .next (startFlit m r.hdr.src u)) ∧
      (m.ckind = 2 → exec (.censusFold r) s = .next (foldFlit m r.hdr.src u)) ∧
      (m.ckind = 3 → exec (.censusVerdict r) s = .next (verdictFlit m r.hdr.src u)) ∧
      (m.ckind = 4 → exec (.censusQuery r) s = .next (queryFlit m r.hdr.src u)) ∧
      (m.ckind = 5 → exec (.censusAnswer r) s = .next (answerFlit m r.hdr.src u))) ∧
    (∀ src, 
      (s.fromParent src = false ∨ s.anyRunning = false → startFlit m src s = s) ∧
      (s.fromParent src = true → s.anyRunning = true →
        ∃ y, startFlit m src s = settlePass (toChildren (censusBody 1 0 m.pass 0 0) y) ∧
          y.fab.census = { k with
            running := some (m.pass, s.nodeDigest, s.now), foldMin := s.nodeDigest, foldMax := s.nodeDigest
            foldCnt := 1, frags := [], missing := s.cchildren } ∧ Frame [.census] s y) ∧
      (k.running = none ∨ (∃ e, k.running = some e ∧ e.1 ≠ m.pass) ∨ src ∉ k.missing → foldFlit m src s = s) ∧
      (∀ e, k.running = some (m.pass, e) → src ∈ k.missing → m.frag ≠ 8 →
        (foldFlit m src s).fab.census = { k with frags := k.frags ++ [(src, m.frag, m.cnt, m.data)] } ∧
        Frame [.census] s (foldFlit m src s)) ∧
      (∀ e lo hi fs, k.running = some (m.pass, e) → src ∈ k.missing → m.frag = 8 →
        fs = k.frags ++ [(src, 8, m.cnt, m.data)] → foldData fs src 0 = some lo → foldData fs src 4 = some hi →
        ∃ y, foldFlit m src s = settlePass y ∧
          y.fab.census = { k with
            foldMin := if lo.toNat < k.foldMin.toNat then lo else k.foldMin
            foldMax := if k.foldMax.toNat < hi.toNat then hi else k.foldMax, foldCnt := k.foldCnt + m.cnt
            missing := k.missing.filter (· ≠ src), frags := fs.filter (fun x => decide (x.1 ≠ src)) } ∧
          Frame [.census] s y) ∧
      (s.fromParent src = false → verdictFlit m src s = s ∧ queryFlit m src s = s) ∧
      (s.fromParent src = true →
        ∃ y, verdictFlit m src s = toChildren (censusBody 3 0 m.pass m.cnt m.data) y ∧
          y.fab.census = { k with
            pass := m.pass, isMatch := m.data.getLsbD 0, complete := m.data.getLsbD 1, count := m.cnt.setWidth 17 } ∧
          Frame [.census] s y) ∧
      (s.fromParent src = true → s.anyRunning = true → m.frag ≠ 4 →
        (queryFlit m src s).fab.census =
          { k with qFrags := (if m.frag = 0 then [] else k.qFrags) ++ [(m.frag, m.data)] } ∧
        Frame [.census] s (queryFlit m src s)) ∧
      (∀ ref, s.fromParent src = true → s.anyRunning = true → m.frag = 4 →
        foldData (k.qFrags.map fun x => (0, x.1, 0, x.2)) 0 0 = some ref →
        ∃ y, queryFlit m src s = settleQuery 1 (startQuery m.pass ref (m.data.extractLsb' 0 16) (m.data.extractLsb' 16 16) y) ∧
          y.fab.census = { k with qFrags := [] } ∧ Frame [.census] s y) ∧
      (k.query = none ∨ src ∉ k.qMissing → answerFlit m src s = s) ∧
      (∀ e, k.query = some (m.pass, e) → src ∈ k.qMissing →
        ∃ y, answerFlit m src s = settleQuery 32 y ∧ Frame [.census] s y ∧
          y.fab.census.qMissing = k.qMissing.filter (· ≠ src) ∧
          (m.cnt = 0 → y.fab.census = { k with qMissing := k.qMissing.filter (· ≠ src) }) ∧
          (m.cnt ≠ 0 → y.fab.census.ansCnt = k.ansCnt + m.cnt ∧
            y.fab.census.ansLo = (if k.ansCnt = 0 ∨ (m.data.extractLsb' 0 16).toNat < k.ansLo.toNat then
              m.data.extractLsb' 0 16 else k.ansLo) ∧
            y.fab.census.ansHi = (if k.ansCnt = 0 ∨ k.ansHi.toNat < (m.data.extractLsb' 16 16).toNat then
              m.data.extractLsb' 16 16 else k.ansHi)))) ∧
    (k.missing ≠ [] ∨ k.running = none → settlePass s = s) ∧
    (k.missing = [] → settlePass s = endPass s) ∧
    (∀ pass own at_ match_ whole, k.running = some (pass, own, at_) →
      (s.running = true → s.obs.hobble.state = 0 →
        (at_ + 2000000 ≤ x.now → exec (.censusFoldTimeout n) s = .next (endPass x)) ∧
        (x.now < at_ + 2000000 → exec (.censusFoldTimeout n) s = .next x)) ∧
      (match_ = decide (k.foldMin = k.foldMax) → whole = decide (k.foldCnt = k.expect.setWidth 32) → s.ctree.root = true →
        ∃ y, endPass s = (if match_ = true ∨ k.bisecting = true then id else startBisect own)
            (toChildren (censusBody 3 0 pass k.foldCnt (0#62 ++ b1 whole ++ b1 match_)) y) ∧
          y.fab.census = { k with
            running := none, pass, isMatch := match_, complete := whole, count := k.foldCnt.setWidth 17
            mismatch := k.mismatch || !match_, incomplete := k.incomplete || !whole } ∧
          (s.frozen = false →
            y.gctr 37 = s.gctr 37 + 1 ∧ y.gctr 38 = s.gctr 38 + (if match_ then 0 else 1)) ∧
          y.cr.irqStatus = (if (match_ = false ∧ k.mismatchIe = true) ∨ (whole = false ∧ k.incompleteIe = true) then
            setBit s.cr.irqStatus 5 else s.cr.irqStatus) ∧ Frame [.census, .gctr, .irq] s y) ∧
      (s.ctree.root = false →
        ∃ y z, endPass s = fabSend 8 s.ctree.parent (censusBody 2 8 pass k.foldCnt 0) z ∧
          y.fab.census = { k with running := none } ∧ Frame [.census] s y ∧
          z = (List.range 4).foldl (fun z f => fabSend 8 s.ctree.parent (censusBody 2 (4 + f) pass 0 (digestPart k.foldMax f)) z)
            ((List.range 4).foldl (fun z f => fabSend 8 s.ctree.parent (censusBody 2 f pass 0 (digestPart k.foldMin f)) z) y))) ∧
    (∀ e, k.query = some e → s.running = true → s.obs.hobble.state = 0 →
      (e.2.2.2.2 + 2000000 ≤ x.now → exec (.censusQueryTimeout n) s = .next (settleQuery 32 (endQuery x))) ∧
      (x.now < e.2.2.2.2 + 2000000 → exec (.censusQueryTimeout n) s = .next x)) ∧
    (k.running = none → exec (.censusFoldTimeout n) s = .next x) ∧
    (k.query = none → exec (.censusQueryTimeout n) s = .next x)

/-- A step takes the command at the front of the queue and is that command's effect on the state with the queue's rest. With no command waiting, one edge of `PORT_CLK` passes (log 2, the model's choice). -/
def Obligations.StepRunsFront : Prop :=
  ∀ (c : Instr) (rest : List Instr) (s : State),
    step { s with pending := c :: rest } = exec c { s with pending := rest } ∧
    (s.pending = [] → step s = .next (idleEdge s))

/-- Every step goes on: no command ends in a fault or a refusal (log 9). It takes one command from the queue and puts none there, keeps host memory in its canonical form (log 5), and leaves the error ranges of the memory master port. -/
def Obligations.StepsGoOn : Prop :=
  ∀ s : State, ∃ t, step s = .next t ∧ t.pending = s.pending.tail ∧ t.mmBad = s.mmBad ∧
    (Memory.wf s.mem = true → Memory.wf t.mem = true)

/-- R319, R329, R333 and R344 for every step: no command changes `UID` or the manufacturer's key hash; the security-version floor never falls; a burnt repair fuse stays burnt; a life-cycle state other than `BLANK` never becomes `BLANK`; and only a cold reset samples the straps. -/
def Obligations.FusesAndStrapsStand : Prop :=
  ∀ s t : State, step s = .next t →
    OtpStep s.slu.otp t.slu.otp ∧
    ((∀ v, s.pending.head? ≠ some (.coldReset v)) → t.clk.straps = s.clk.straps) ∧
    (∀ v, s.pending.head? = some (.coldReset v) → t.clk.straps = captureStraps v)

/-- R10, R53, R239, R323, R326, R351 and R399: what is there after a cold reset. The queue is empty and host memory lists nothing (log 5). The stores are wiped, TIME is zero, every partition and context is free and no agent is bound; and the registers read as their tables' Reset column says. -/
def Obligations.ResetValues : Prop :=
  State.reset.pending = [] ∧ State.reset.mem = [] ∧ Memory.wf State.reset.mem = true ∧
    (State.reset.time64 = 0 ∧ State.reset.opr.ops = [] ∧ State.reset.wmc.waiters = [] ∧ State.reset.lcu.held = [] ∧
      (∀ k, State.reset.obj k = none) ∧ (∀ p, (State.reset.part p).state = .free) ∧
      (∀ p c, (State.reset.ctx p c).state = .free) ∧ State.reset.trk.descs = [] ∧
      (∀ p i, State.reset.ctr p i = 0)) ∧
    (∀ a : AgentId, (State.reset.bind a).word = 0 ∧ State.reset.readReg (0x10000 + 4 * a.toNat) = 0) ∧
    (∀ i : Nat, i < 64 → State.reset.readReg (0x4400 + 8 * i) = 0 ∧ State.reset.readReg (0x4404 + 8 * i) = 0) ∧
    (∀ p : PartId, ∀ o : Nat, o < 0x1000 → State.reset.readReg (0x40000 + 0x1000 * p.toNat + o) = 0) ∧
    (∀ x ∈ [(0x00000, 0x00030100#32), (0x00018, 0), (0x0001C, 1), (0x00028, 0), (0x0002C, 0), (0x00040, 0),
        (0x00044, 0x0000043C), (0x00060, 0), (0x00064, 0), (0x00068, 0), (0x0006C, 0), (0x000A0, 0), (0x00200, 0),
        (0x00204, 0), (0x00208, 0), (0x00210, 0), (0x00214, 0), (0x00218, 0), (0x04000, 0), (0x04004, 0), (0x04008, 0),
        (0x0400C, 0x07FF0000), (0x04010, 0), (0x04014, 0), (0x04018, 0), (0x04040, 0), (0x04044, 0), (0x04048, 0),
        (0x0404C, 0), (0x04080, 0x00001007), (0x04084, 0), (0x04088, 0), (0x0408C, 0), (0x04090, 0), (0x040C0, 0),
        (0x04140, 0), (0x04144, 0), (0x04160, 0), (0x04180, 0), (0x041A0, 0), (0x08000, 0), (0x08008, 0), (0x0800C, 0),
        (0x08010, 0), (0x08020, 0), (0x0803C, 0), (0x08044, 0), (0x08048, 0), (0x09000, 0), (0x09004, 0), (0x0A000, 0),
        (0x0A200, 0), (0x0C010, 0), (0x0C014, 0), (0x0C100, 0), (0x0C1FC, 0)],
      State.reset.readReg x.1 = x.2)
end

