-- ==== Sys2Proof/Laws/Flits.lean ====
section
/-! SUPPORT. The bits of a request flit, and the fields read from them, agree (R56). -/

namespace Sys2Proof.Machine

/-- Bits of the upper part of two joined words. -/
theorem extract_above {n m k w : Nat} (x : BitVec n) (y : BitVec m) (h : m ≤ k) :
    (x ++ y).extractLsb' k w = x.extractLsb' (k - m) w := by
  apply BitVec.eq_of_getLsbD_eq
  intro i hi
  have h1 : ¬ k + i < m := by omega
  have h2 : k + i - m = k - m + i := by omega
  simp only [BitVec.getLsbD_extractLsb', BitVec.getLsbD_append, h1, hi, h2, if_false]

/-- The lower part of two joined words. -/
theorem extract_below {n m : Nat} (x : BitVec n) (y : BitVec m) : (x ++ y).extractLsb' 0 m = y := by
  apply BitVec.eq_of_getLsbD_eq
  intro i hi
  simp [BitVec.getLsbD_append, hi]

theorem extract_all {n : Nat} (x : BitVec n) : x.extractLsb' 0 n = x := by
  apply BitVec.eq_of_getLsbD_eq
  intro i hi
  simp [hi]

theorem bit_above {n m k : Nat} (x : BitVec n) (y : BitVec m) (h : m ≤ k) : (x ++ y).getLsbD k = x.getLsbD (k - m) := by
  have h1 : ¬ k < m := by omega
  simp [BitVec.getLsbD_append, h1]

theorem bit_below {n : Nat} (x : BitVec n) (b : Bool) : (x ++ b1 b).getLsbD 0 = b := by
  rw [BitVec.getLsbD_append]; cases b <;> rfl

/-- A request flit reads back as what was put into it (R56). -/
@[simp] theorem flitCode_flitWord (c : Byte) (f : Req) : flitCode (flitWord c f) = c := by
  unfold flitCode flitWord
  simp (disch := omega) only [extract_above]
  exact extract_all c

@[simp] theorem flitReq_flitWord (c : Byte) (f : Req) : flitReq (flitWord c f) = f := by
  unfold flitReq flitWord
  simp (disch := omega) only [extract_above, bit_above, Nat.sub_self, Nat.reduceSub, extract_below, bit_below]

end Sys2Proof.Machine
end

