-- ==== Sys2Proof/Laws/Frame.lean ====
section
/-! SUPPORT. The frame relation composes along every way in which effects are put together. -/

namespace Sys2Proof.Machine

theorem Comp.same_refl (s : State) (c : Comp) : Comp.same s s c := by cases c <;> rfl

theorem Frame.refl (fl : List Comp) (s : State) : Frame fl s s := fun c _ => Comp.same_refl s c

theorem Comp.same_trans {r s t : State} {c : Comp} (h1 : Comp.same r s c) (h2 : Comp.same s t c) : Comp.same r t c := by
  cases c <;> exact Eq.trans h2 h1

theorem Frame.trans {fl : List Comp} {r s t : State} (h1 : Frame fl r s) (h2 : Frame fl s t) : Frame fl r t :=
  fun c hc => Comp.same_trans (h1 c hc) (h2 c hc)

/-- More components may change. -/
theorem Frame.mono {fl gl : List Comp} {r s : State} (hs : ∀ c ∈ fl, c ∈ gl) (h : Frame fl r s) : Frame gl r s :=
  fun c hc => h c fun hm => hc (hs c hm)

theorem Frame.ite {fl : List Comp} {r : State} {p : Prop} [Decidable p] {s t : State} (hs : Frame fl r s) (ht : Frame fl r t) :
    Frame fl r (if p then s else t) := by
  split <;> assumption

theorem Frame.foldl {fl : List Comp} {r : State} {α : Type} {f : State → α → State}
    (hf : ∀ s a, Frame fl r s → Frame fl r (f s a)) {l : List α} {s : State} (hs : Frame fl r s) :
    Frame fl r (l.foldl f s) := by
  induction l generalizing s with
  | nil => exact hs
  | cons a l ih => exact ih (hf s a hs)

end Sys2Proof.Machine
end

