-- ==== Sys2Proof/Laws/FrameBase.lean ====
section
/-! SUPPORT. What the effects defined in Ops, Operands, Objects, Respond leave unchanged: each lemma names every component its function may write. -/

namespace Sys2Proof.Machine

theorem State.setAp_frame {fl : List Comp} {fr : State} (s : State) (p : PortNo) (x : ApPort) (h_aps : Comp.aps ∈ fl) (hk : Frame fl fr s) : Frame fl fr (State.setAp s p x) := by
  intro c hc; refine Comp.same_trans (hk c hc) ?_; cases c <;> first | rfl | exact absurd h_aps hc

theorem State.modAp_frame {fl : List Comp} {fr : State} (s : State) (p : PortNo) (f : ApPort → ApPort) (h_aps : Comp.aps ∈ fl) (hk : Frame fl fr s) : Frame fl fr (State.modAp s p f) := by
  unfold State.modAp
  repeat' first
    | with_reducible assumption
    | (with_reducible exact Or.inl (by assumption))
    | (with_reducible exact Or.inr rfl)
    | with_reducible apply State.setAp_frame
    | dsimp only

theorem State.setBind_frame {fl : List Comp} {fr : State} (s : State) (a : AgentId) (x : Bind) (h_binds : Comp.binds ∈ fl) (hk : Frame fl fr s) : Frame fl fr (State.setBind s a x) := by
  intro c hc; refine Comp.same_trans (hk c hc) ?_; cases c <;> first | rfl | exact absurd h_binds hc

theorem State.setPart_frame {fl : List Comp} {fr : State} (s : State) (p : PartId) (x : Part) (h_parts : Comp.parts ∈ fl) (hk : Frame fl fr s) : Frame fl fr (State.setPart s p x) := by
  intro c hc; refine Comp.same_trans (hk c hc) ?_; cases c <;> first | rfl | exact absurd h_parts hc

theorem State.modPart_frame {fl : List Comp} {fr : State} (s : State) (p : PartId) (f : Part → Part) (h_parts : Comp.parts ∈ fl) (hk : Frame fl fr s) : Frame fl fr (State.modPart s p f) := by
  unfold State.modPart
  repeat' first
    | with_reducible assumption
    | (with_reducible exact Or.inl (by assumption))
    | (with_reducible exact Or.inr rfl)
    | with_reducible apply State.setPart_frame
    | dsimp only

theorem State.setWin_frame {fl : List Comp} {fr : State} (s : State) (w : Win) (x : Window) (h_wins : Comp.wins ∈ fl) (hk : Frame fl fr s) : Frame fl fr (State.setWin s w x) := by
  intro c hc; refine Comp.same_trans (hk c hc) ?_; cases c <;> first | rfl | exact absurd h_wins hc

theorem State.modWin_frame {fl : List Comp} {fr : State} (s : State) (w : Win) (f : Window → Window) (h_wins : Comp.wins ∈ fl) (hk : Frame fl fr s) : Frame fl fr (State.modWin s w f) := by
  unfold State.modWin
  repeat' first
    | with_reducible assumption
    | (with_reducible exact Or.inl (by assumption))
    | (with_reducible exact Or.inr rfl)
    | with_reducible apply State.setWin_frame
    | dsimp only

theorem State.setSeq_frame {fl : List Comp} {fr : State} (s : State) (q : SeqNo) (x : Seq) (h_seqs : Comp.seqs ∈ fl) (hk : Frame fl fr s) : Frame fl fr (State.setSeq s q x) := by
  intro c hc; refine Comp.same_trans (hk c hc) ?_; cases c <;> first | rfl | exact absurd h_seqs hc

theorem State.modSeq_frame {fl : List Comp} {fr : State} (s : State) (q : SeqNo) (f : Seq → Seq) (h_seqs : Comp.seqs ∈ fl) (hk : Frame fl fr s) : Frame fl fr (State.modSeq s q f) := by
  unfold State.modSeq
  repeat' first
    | with_reducible assumption
    | (with_reducible exact Or.inl (by assumption))
    | (with_reducible exact Or.inr rfl)
    | with_reducible apply State.setSeq_frame
    | dsimp only

theorem State.setCtx_frame {fl : List Comp} {fr : State} (s : State) (p : PartId) (c : CtxId) (x : Ctx) (h_dir : Comp.dir ∈ fl) (hk : Frame fl fr s) : Frame fl fr (State.setCtx s p c x) := by
  intro c hc; refine Comp.same_trans (hk c hc) ?_; cases c <;> first | rfl | exact absurd h_dir hc

theorem State.modCtx_frame {fl : List Comp} {fr : State} (s : State) (p : PartId) (c : CtxId) (f : Ctx → Ctx) (h_dir : Comp.dir ∈ fl) (hk : Frame fl fr s) : Frame fl fr (State.modCtx s p c f) := by
  unfold State.modCtx
  repeat' first
    | with_reducible assumption
    | (with_reducible exact Or.inl (by assumption))
    | (with_reducible exact Or.inr rfl)
    | with_reducible apply State.setCtx_frame
    | dsimp only

theorem State.setFp_frame {fl : List Comp} {fr : State} (s : State) (p : FabPort) (x : FPort) (h_fports : Comp.fports ∈ fl) (hk : Frame fl fr s) : Frame fl fr (State.setFp s p x) := by
  intro c hc; refine Comp.same_trans (hk c hc) ?_; cases c <;> first | rfl | exact absurd h_fports hc

theorem State.modFp_frame {fl : List Comp} {fr : State} (s : State) (p : FabPort) (f : FPort → FPort) (h_fports : Comp.fports ∈ fl) (hk : Frame fl fr s) : Frame fl fr (State.modFp s p f) := by
  unfold State.modFp
  repeat' first
    | with_reducible assumption
    | (with_reducible exact Or.inl (by assumption))
    | (with_reducible exact Or.inr rfl)
    | with_reducible apply State.setFp_frame
    | dsimp only

theorem State.setTree_frame {fl : List Comp} {fr : State} (s : State) (t : AgentId) (x : Tree) (h_trees : Comp.trees ∈ fl) (hk : Frame fl fr s) : Frame fl fr (State.setTree s t x) := by
  intro c hc; refine Comp.same_trans (hk c hc) ?_; cases c <;> first | rfl | exact absurd h_trees hc

theorem State.delPart_frame {fl : List Comp} {fr : State} (s : State) (p : PartId) (h_parts : Comp.parts ∈ fl) (hk : Frame fl fr s) : Frame fl fr (State.delPart s p) := by
  intro c hc; refine Comp.same_trans (hk c hc) ?_; cases c <;> first | rfl | exact absurd h_parts hc

theorem State.modOpr_frame {fl : List Comp} {fr : State} {s : State} {f : Opr → Opr}
    (h_ops : Comp.ops ∈ fl ∨ (f s.opr).ops = s.opr.ops)
    (h_merges : Comp.merges ∈ fl ∨ ((f s.opr).merges, (f s.opr).nextWait) = (s.opr.merges, s.opr.nextWait))
    (h_rr : Comp.rr ∈ fl ∨ (f s.opr).rr = s.opr.rr)
    (h_due : Comp.due ∈ fl ∨ ((f s.opr).expiring, (f s.opr).dueq) = (s.opr.expiring, s.opr.dueq))
    (hk : Frame fl fr s) : Frame fl fr (s.modOpr f) := by
  intro c hc; refine Comp.same_trans (hk c hc) ?_
  cases c
  all_goals first
    | rfl
    | exact h_ops.resolve_left hc
    | exact h_merges.resolve_left hc
    | exact h_rr.resolve_left hc
    | exact h_due.resolve_left hc

theorem State.modWmc_frame {fl : List Comp} {fr : State} {s : State} {f : Wmc → Wmc}
    (h_waiters : Comp.waiters ∈ fl ∨ (f s.wmc).waiters = s.wmc.waiters)
    (h_rwaits : Comp.rwaits ∈ fl ∨ (f s.wmc).rwaits = s.wmc.rwaits)
    (h_records : Comp.records ∈ fl ∨ (f s.wmc).records = s.wmc.records)
    (h_early : Comp.early ∈ fl ∨ (f s.wmc).early = s.wmc.early)
    (h_spillWakes : Comp.spillWakes ∈ fl ∨ ((f s.wmc).spillWakes, (f s.wmc).wakeRr) = (s.wmc.spillWakes, s.wmc.wakeRr))
    (h_fetching : Comp.fetching ∈ fl ∨ (f s.wmc).fetching = s.wmc.fetching)
    (hk : Frame fl fr s) : Frame fl fr (s.modWmc f) := by
  intro c hc; refine Comp.same_trans (hk c hc) ?_
  cases c
  all_goals first
    | rfl
    | exact h_waiters.resolve_left hc
    | exact h_rwaits.resolve_left hc
    | exact h_records.resolve_left hc
    | exact h_early.resolve_left hc
    | exact h_spillWakes.resolve_left hc
    | exact h_fetching.resolve_left hc

theorem State.modOlu_frame {fl : List Comp} {fr : State} {s : State} {f : Olu → Olu}
    (h_holdings : Comp.holdings ∈ fl ∨ (f s.olu).holdings = s.olu.holdings)
    (h_fences : Comp.fences ∈ fl ∨ (f s.olu).fences = s.olu.fences)
    (hk : Frame fl fr s) : Frame fl fr (s.modOlu f) := by
  intro c hc; refine Comp.same_trans (hk c hc) ?_
  cases c
  all_goals first
    | rfl
    | exact h_holdings.resolve_left hc
    | exact h_fences.resolve_left hc

theorem State.modTdu_frame {fl : List Comp} {fr : State} {s : State} {f : Tdu → Tdu}
    (h_deadlines : Comp.deadlines ∈ fl ∨ (f s.tdu).deadlines = s.tdu.deadlines)
    (h_leases : Comp.leases ∈ fl ∨ (f s.tdu).leases = s.tdu.leases)
    (hk : Frame fl fr s) : Frame fl fr (s.modTdu f) := by
  intro c hc; refine Comp.same_trans (hk c hc) ?_
  cases c
  all_goals first
    | rfl
    | exact h_deadlines.resolve_left hc
    | exact h_leases.resolve_left hc

theorem State.modLcu_frame {fl : List Comp} {fr : State} {s : State} {f : Lcu → Lcu}
    (h_arming : Comp.arming ∈ fl ∨ (f s.lcu).index = s.lcu.index)
    (h_heldq : Comp.heldq ∈ fl ∨ ((f s.lcu).held, (f s.lcu).postRr) = (s.lcu.held, s.lcu.postRr))
    (h_decs : Comp.decs ∈ fl ∨ (f s.lcu).decs = s.lcu.decs)
    (h_lnPort : Comp.lnPort ∈ fl ∨ ((f s.lcu).credits, (f s.lcu).ingress) = (s.lcu.credits, s.lcu.ingress))
    (hk : Frame fl fr s) : Frame fl fr (s.modLcu f) := by
  intro c hc; refine Comp.same_trans (hk c hc) ?_
  cases c
  all_goals first
    | rfl
    | exact h_arming.resolve_left hc
    | exact h_heldq.resolve_left hc
    | exact h_decs.resolve_left hc
    | exact h_lnPort.resolve_left hc

theorem State.modTrk_frame {fl : List Comp} {fr : State} {s : State} {f : Trk → Trk}
    (h_descs : Comp.descs ∈ fl ∨ (f s.trk).descs = s.trk.descs)
    (hk : Frame fl fr s) : Frame fl fr (s.modTrk f) := by
  intro c hc; refine Comp.same_trans (hk c hc) ?_
  cases c
  all_goals first
    | rfl
    | exact h_descs.resolve_left hc

theorem State.modCtm_frame {fl : List Comp} {fr : State} {s : State} {f : Ctm → Ctm}
    (h_dir : Comp.dir ∈ fl ∨ (f s.ctm).dir = s.ctm.dir)
    (h_tack : Comp.tack ∈ fl ∨ (f s.ctm).tack = s.ctm.tack)
    (h_regions : Comp.regions ∈ fl ∨ ((f s.ctm).tackBase, (f s.ctm).tackSize, (f s.ctm).spillBase, (f s.ctm).spillSize) = (s.ctm.tackBase, s.ctm.tackSize, s.ctm.spillBase, s.ctm.spillSize))
    (hk : Frame fl fr s) : Frame fl fr (s.modCtm f) := by
  intro c hc; refine Comp.same_trans (hk c hc) ?_
  cases c
  all_goals first
    | rfl
    | exact h_dir.resolve_left hc
    | exact h_tack.resolve_left hc
    | exact h_regions.resolve_left hc

theorem State.modCr_frame {fl : List Comp} {fr : State} {s : State} {f : Cr → Cr}
    (h_irq : Comp.irq ∈ fl ∨ (f s.cr).irqStatus = s.cr.irqStatus)
    (h_crPort : Comp.crPort ∈ fl ∨ ((f s.cr).irqEnable, (f s.cr).holds, (f s.cr).staged, (f s.cr).valid, (f s.cr).rdata, (f s.cr).err) = (s.cr.irqEnable, s.cr.holds, s.cr.staged, s.cr.valid, s.cr.rdata, s.cr.err))
    (hk : Frame fl fr s) : Frame fl fr (s.modCr f) := by
  intro c hc; refine Comp.same_trans (hk c hc) ?_
  cases c
  all_goals first
    | rfl
    | exact h_irq.resolve_left hc
    | exact h_crPort.resolve_left hc

theorem State.modSn_frame {fl : List Comp} {fr : State} (s : State) (f : Sn → Sn) (h_sn : Comp.sn ∈ fl) (hk : Frame fl fr s) : Frame fl fr (State.modSn s f) := by
  intro c hc; refine Comp.same_trans (hk c hc) ?_; cases c <;> first | rfl | exact absurd h_sn hc

theorem State.modObk_frame {fl : List Comp} {fr : State} {s : State} {f : Obk → Obk}
    (h_rows : Comp.rows ∈ fl ∨ (f s.obk).rows = s.obk.rows)
    (h_banks : Comp.banks ∈ fl ∨ ((f s.obk).map, (f s.obk).gated, (f s.obk).fenced, (f s.obk).waking, (f s.obk).retired, (f s.obk).spareUsed, (f s.obk).spareRetired, (f s.obk).retire, (f s.obk).retireq, (f s.obk).gating) = (s.obk.map, s.obk.gated, s.obk.fenced, s.obk.waking, s.obk.retired, s.obk.spareUsed, s.obk.spareRetired, s.obk.retire, s.obk.retireq, s.obk.gating))
    (hk : Frame fl fr s) : Frame fl fr (s.modObk f) := by
  intro c hc; refine Comp.same_trans (hk c hc) ?_
  cases c
  all_goals first
    | rfl
    | exact h_rows.resolve_left hc
    | exact h_banks.resolve_left hc

theorem State.modMsq_frame {fl : List Comp} {fr : State} {s : State} {f : Msq → Msq}
    (h_seqs : Comp.seqs ∈ fl ∨ (f s.msq).seqs = s.msq.seqs)
    (h_cmds : Comp.cmds ∈ fl ∨ ((f s.msq).cmds, (f s.msq).nextId) = (s.msq.cmds, s.msq.nextId))
    (h_frags : Comp.frags ∈ fl ∨ (f s.msq).frags = s.msq.frags)
    (h_fwApply : Comp.fwApply ∈ fl ∨ (f s.msq).fwApply = s.msq.fwApply)
    (hk : Frame fl fr s) : Frame fl fr (s.modMsq f) := by
  intro c hc; refine Comp.same_trans (hk c hc) ?_
  cases c
  all_goals first
    | rfl
    | exact h_seqs.resolve_left hc
    | exact h_cmds.resolve_left hc
    | exact h_frags.resolve_left hc
    | exact h_fwApply.resolve_left hc

theorem State.modObs_frame {fl : List Comp} {fr : State} {s : State} {f : Obs → Obs}
    (h_counters : Comp.counters ∈ fl ∨ ((f s.obs).live, (f s.obs).start, (f s.obs).end_) = (s.obs.live, s.obs.start, s.obs.end_))
    (h_gctr : Comp.gctr ∈ fl ∨ (f s.obs).gctr = s.obs.gctr)
    (h_rake : Comp.rake ∈ fl ∨ ((f s.obs).rake, (f s.obs).rakeFirst, (f s.obs).rakeLast, (f s.obs).overflow, (f s.obs).sticky) = (s.obs.rake, s.obs.rakeFirst, s.obs.rakeLast, s.obs.overflow, s.obs.sticky))
    (h_trace : Comp.trace ∈ fl ∨ (f s.obs).trace = s.obs.trace)
    (h_hobble : Comp.hobble ∈ fl ∨ (f s.obs).hobble = s.obs.hobble)
    (h_watches : Comp.watches ∈ fl ∨ (f s.obs).watches = s.obs.watches)
    (hk : Frame fl fr s) : Frame fl fr (s.modObs f) := by
  intro c hc; refine Comp.same_trans (hk c hc) ?_
  cases c
  all_goals first
    | rfl
    | exact h_counters.resolve_left hc
    | exact h_gctr.resolve_left hc
    | exact h_rake.resolve_left hc
    | exact h_trace.resolve_left hc
    | exact h_hobble.resolve_left hc
    | exact h_watches.resolve_left hc

theorem State.modFab_frame {fl : List Comp} {fr : State} {s : State} {f : Fab → Fab}
    (h_fports : Comp.fports ∈ fl ∨ (f s.fab).ports = s.fab.ports)
    (h_trees : Comp.trees ∈ fl ∨ (f s.fab).trees = s.fab.trees)
    (h_disc : Comp.disc ∈ fl ∨ (f s.fab).disc = s.fab.disc)
    (h_census : Comp.census ∈ fl ∨ (f s.fab).census = s.fab.census)
    (h_routes : Comp.routes ∈ fl ∨ ((f s.fab).nodeId, (f s.fab).nodeValid, (f s.fab).planDigest, (f s.fab).scope, (f s.fab).cmdEn, (f s.fab).cmdNode, (f s.fab).cmdMask, (f s.fab).groupRt, (f s.fab).memberRt, (f s.fab).admits) = (s.fab.nodeId, s.fab.nodeValid, s.fab.planDigest, s.fab.scope, s.fab.cmdEn, s.fab.cmdNode, s.fab.cmdMask, s.fab.groupRt, s.fab.memberRt, s.fab.admits))
    (h_exts : Comp.exts ∈ fl ∨ ((f s.fab).exts, (f s.fab).gone) = (s.fab.exts, s.fab.gone))
    (h_undo : Comp.undo ∈ fl ∨ (f s.fab).undo = s.fab.undo)
    (h_inq : Comp.inq ∈ fl ∨ (f s.fab).inq = s.fab.inq)
    (hk : Frame fl fr s) : Frame fl fr (s.modFab f) := by
  intro c hc; refine Comp.same_trans (hk c hc) ?_
  cases c
  all_goals first
    | rfl
    | exact h_fports.resolve_left hc
    | exact h_trees.resolve_left hc
    | exact h_disc.resolve_left hc
    | exact h_census.resolve_left hc
    | exact h_routes.resolve_left hc
    | exact h_exts.resolve_left hc
    | exact h_undo.resolve_left hc
    | exact h_inq.resolve_left hc

theorem State.modSlu_frame {fl : List Comp} {fr : State} {s : State} {f : Slu → Slu}
    (h_otp : Comp.otp ∈ fl ∨ (f s.slu).otp = s.slu.otp)
    (h_fwStore : Comp.fwStore ∈ fl ∨ ((f s.slu).staged, (f s.slu).booted, (f s.slu).fwMem, (f s.slu).pushWord, (f s.slu).pushEnd) = (s.slu.staged, s.slu.booted, s.slu.fwMem, s.slu.pushWord, s.slu.pushEnd))
    (h_service : Comp.service ∈ fl ∨ ((f s.slu).svc, (f s.slu).svcCause, (f s.slu).instSvc, (f s.slu).instClass, (f s.slu).corr, (f s.slu).ueLast, (f s.slu).storeFaults) = (s.slu.svc, s.slu.svcCause, s.slu.instSvc, s.slu.instClass, s.slu.corr, s.slu.ueLast, s.slu.storeFaults))
    (h_lifecycle : Comp.lifecycle ∈ fl ∨ ((f s.slu).lc, (f s.slu).dbgLatch, (f s.slu).lcPending) = (s.slu.lc, s.slu.dbgLatch, s.slu.lcPending))
    (h_engine : Comp.engine ∈ fl ∨ ((f s.slu).engineReqid, (f s.slu).tap, (f s.slu).tapData) = (s.slu.engineReqid, s.slu.tap, s.slu.tapData))
    (hk : Frame fl fr s) : Frame fl fr (s.modSlu f) := by
  intro c hc; refine Comp.same_trans (hk c hc) ?_
  cases c
  all_goals first
    | rfl
    | exact h_otp.resolve_left hc
    | exact h_fwStore.resolve_left hc
    | exact h_service.resolve_left hc
    | exact h_lifecycle.resolve_left hc
    | exact h_engine.resolve_left hc

theorem State.modClk_frame {fl : List Comp} {fr : State} {s : State} {f : Clk → Clk}
    (h_time : Comp.time ∈ fl ∨ (f s.clk).time = s.clk.time)
    (h_clock : Comp.clock ∈ fl ∨ { f s.clk with time := 0 } = { s.clk with time := 0 })
    (hk : Frame fl fr s) : Frame fl fr (s.modClk f) := by
  intro c hc; refine Comp.same_trans (hk c hc) ?_
  cases c
  all_goals first
    | rfl
    | exact h_time.resolve_left hc
    | exact h_clock.resolve_left hc

theorem State.modHob_frame {fl : List Comp} {fr : State} (s : State) (f : Hobble → Hobble) (h_hobble : Comp.hobble ∈ fl) (hk : Frame fl fr s) : Frame fl fr (State.modHob s f) := by
  intro c hc; refine Comp.same_trans (hk c hc) ?_; cases c <;> first | rfl | exact absurd h_hobble hc

theorem State.modDisc_frame {fl : List Comp} {fr : State} (s : State) (f : Disc → Disc) (h_disc : Comp.disc ∈ fl) (hk : Frame fl fr s) : Frame fl fr (State.modDisc s f) := by
  intro c hc; refine Comp.same_trans (hk c hc) ?_; cases c <;> first | rfl | exact absurd h_disc hc

theorem State.modCensus_frame {fl : List Comp} {fr : State} (s : State) (f : Census → Census) (h_census : Comp.census ∈ fl) (hk : Frame fl fr s) : Frame fl fr (State.modCensus s f) := by
  intro c hc; refine Comp.same_trans (hk c hc) ?_; cases c <;> first | rfl | exact absurd h_census hc

theorem elapse_frame {fl : List Comp} {fr : State} (edges : Nat) (s : State) (h_time : Comp.time ∈ fl) (h_clock : Comp.clock ∈ fl) (h_gctr : Comp.gctr ∈ fl) (h_trace : Comp.trace ∈ fl) (hk : Frame fl fr s) : Frame fl fr (elapse edges s) := by
  unfold elapse
  repeat' first
    | with_reducible assumption
    | (with_reducible exact Or.inl (by assumption))
    | (with_reducible exact Or.inr rfl)
    | with_reducible apply State.modObs_frame
    | with_reducible apply State.modClk_frame
    | with_reducible apply Frame.ite
    | split
    | dsimp only

theorem idleEdge_frame {fl : List Comp} {fr : State} (s : State) (h_time : Comp.time ∈ fl) (h_clock : Comp.clock ∈ fl) (h_gctr : Comp.gctr ∈ fl) (h_trace : Comp.trace ∈ fl) (hk : Frame fl fr s) : Frame fl fr (idleEdge s) := by
  unfold idleEdge
  repeat' first
    | with_reducible assumption
    | (with_reducible exact Or.inl (by assumption))
    | (with_reducible exact Or.inr rfl)
    | with_reducible apply elapse_frame
    | dsimp only

theorem fresh_frame {fl : List Comp} {fr : State} (s : State) (h_free : Comp.free ∈ fl) (hk : Frame fl fr s) : Frame fl fr (fresh s).2 := by
  intro c hc; refine Comp.same_trans (hk c hc) ?_; cases c <;> first | rfl | exact absurd h_free hc

theorem fresh_frameE {fl : List Comp} {fr : State} (s : State) {kv} {kt : State} (h_free : Comp.free ∈ fl) (hk : Frame fl fr s) (he : fresh s = (kv, kt)) : Frame fl fr kt := by
  have h := fresh_frame (fl := fl) (fr := fr) s h_free hk
  rw [he] at h; exact h

theorem memSetByte_frame {fl : List Comp} {fr : State} (s : State) (a : Nat) (v : Byte) (h_mem : Comp.mem ∈ fl) (hk : Frame fl fr s) : Frame fl fr (memSetByte s a v) := by
  intro c hc; refine Comp.same_trans (hk c hc) ?_; cases c <;> first | rfl | exact absurd h_mem hc

theorem mmRequest_frame {fl : List Comp} {fr : State} (write : Bool) (rq : ReqId) (a n : Nat) (s : State) (h_mmPort : Comp.mmPort ∈ fl) (hk : Frame fl fr s) : Frame fl fr (mmRequest write rq a n s) := by
  intro c hc; refine Comp.same_trans (hk c hc) ?_; cases c <;> first | rfl | exact absurd h_mmPort hc

theorem memWrite_frame {fl : List Comp} {fr : State} (s : State) (a : Nat) (h_mem : Comp.mem ∈ fl) (hk : Frame fl fr s) (l : List Byte) :
    Frame fl fr (memWrite s a l) := by
  induction l generalizing s a with
  | nil => exact hk
  | cons v l ih => exact ih _ _ (memSetByte_frame _ _ _ h_mem hk)

theorem memZero_frame {fl : List Comp} {fr : State} (s : State) (a n : Nat) (h_mem : Comp.mem ∈ fl) (hk : Frame fl fr s) : Frame fl fr (memZero s a n) := by
  intro c hc; refine Comp.same_trans (hk c hc) ?_; cases c <;> first | rfl | exact absurd h_mem hc

theorem memWriteWords_frame {fl : List Comp} {fr : State} (s : State) (a : Nat) (ws : List Word) (h_mem : Comp.mem ∈ fl) (hk : Frame fl fr s) : Frame fl fr (memWriteWords s a ws) := by
  unfold memWriteWords
  repeat' first
    | with_reducible assumption
    | (with_reducible exact Or.inl (by assumption))
    | (with_reducible exact Or.inr rfl)
    | with_reducible apply memWrite_frame
    | dsimp only

theorem mmWrite_frame {fl : List Comp} {fr : State} (rq : ReqId) (a : Nat) (bs : List Byte) (s : State) (h_mem : Comp.mem ∈ fl) (h_mmPort : Comp.mmPort ∈ fl) (hk : Frame fl fr s) : Frame fl fr (mmWrite rq a bs s) := by
  unfold mmWrite
  repeat' first
    | with_reducible assumption
    | (with_reducible exact Or.inl (by assumption))
    | (with_reducible exact Or.inr rfl)
    | with_reducible apply mmRequest_frame
    | with_reducible apply memWrite_frame
    | dsimp only

theorem countN_frame {fl : List Comp} {fr : State} (p : PartId) (i n : Nat) (s : State) (h_counters : Comp.counters ∈ fl) (hk : Frame fl fr s) : Frame fl fr (countN p i n s) := by
  unfold countN
  repeat' first
    | with_reducible assumption
    | (with_reducible exact Or.inl (by assumption))
    | (with_reducible exact Or.inr rfl)
    | with_reducible apply State.modObs_frame
    | with_reducible apply Frame.ite
    | split
    | dsimp only

theorem raisePart_frame {fl : List Comp} {fr : State} (p : PartId) (i : Nat) (s : State) (h_wins : Comp.wins ∈ fl) (hk : Frame fl fr s) : Frame fl fr (raisePart p i s) := by
  unfold raisePart
  repeat' first
    | with_reducible assumption
    | (with_reducible exact Or.inl (by assumption))
    | (with_reducible exact Or.inr rfl)
    | with_reducible apply State.modWin_frame
    | dsimp only

theorem count_frame {fl : List Comp} {fr : State} (p : PartId) (i : Nat) (s : State) (h_wins : Comp.wins ∈ fl) (h_counters : Comp.counters ∈ fl) (hk : Frame fl fr s) : Frame fl fr (count p i s) := by
  unfold count
  repeat' first
    | with_reducible assumption
    | (with_reducible exact Or.inl (by assumption))
    | (with_reducible exact Or.inr rfl)
    | with_reducible apply countN_frame
    | with_reducible apply raisePart_frame
    | with_reducible apply Frame.ite
    | split
    | dsimp only

theorem gcountN_frame {fl : List Comp} {fr : State} (i n : Nat) (s : State) (h_gctr : Comp.gctr ∈ fl) (hk : Frame fl fr s) : Frame fl fr (gcountN i n s) := by
  unfold gcountN
  repeat' first
    | with_reducible assumption
    | (with_reducible exact Or.inl (by assumption))
    | (with_reducible exact Or.inr rfl)
    | with_reducible apply State.modObs_frame
    | with_reducible apply Frame.ite
    | split
    | dsimp only

theorem gcount_frame {fl : List Comp} {fr : State} (i : Nat) (s : State) (h_gctr : Comp.gctr ∈ fl) (hk : Frame fl fr s) : Frame fl fr (gcount i s) := by
  unfold gcount
  repeat' first
    | with_reducible assumption
    | (with_reducible exact Or.inl (by assumption))
    | (with_reducible exact Or.inr rfl)
    | with_reducible apply gcountN_frame
    | dsimp only

theorem inner_frame {fl : List Comp} {fr : State} (cls : Nat) (s : State) (h_gctr : Comp.gctr ∈ fl) (hk : Frame fl fr s) : Frame fl fr (inner cls s) := by
  unfold inner
  repeat' first
    | with_reducible assumption
    | (with_reducible exact Or.inl (by assumption))
    | (with_reducible exact Or.inr rfl)
    | with_reducible apply gcount_frame
    | dsimp only

theorem countStatus_frame {fl : List Comp} {fr : State} (p : PartId) (code : Byte) (s : State) (h_wins : Comp.wins ∈ fl) (h_counters : Comp.counters ∈ fl) (hk : Frame fl fr s) : Frame fl fr (countStatus p code s) := by
  unfold countStatus
  repeat' first
    | with_reducible assumption
    | (with_reducible exact Or.inl (by assumption))
    | (with_reducible exact Or.inr rfl)
    | with_reducible apply count_frame
    | split
    | dsimp only

theorem raiseGlobal_frame {fl : List Comp} {fr : State} (i : Nat) (s : State) (h_irq : Comp.irq ∈ fl) (hk : Frame fl fr s) : Frame fl fr (raiseGlobal i s) := by
  unfold raiseGlobal
  repeat' first
    | with_reducible assumption
    | (with_reducible exact Or.inl (by assumption))
    | (with_reducible exact Or.inr rfl)
    | with_reducible apply State.modCr_frame
    | dsimp only

theorem rakeAdd_frame {fl : List Comp} {fr : State} (r : Rake) (s : State) (h_gctr : Comp.gctr ∈ fl) (h_rake : Comp.rake ∈ fl) (h_irq : Comp.irq ∈ fl) (hk : Frame fl fr s) : Frame fl fr (rakeAdd r s) := by
  unfold rakeAdd
  repeat' first
    | with_reducible assumption
    | (with_reducible exact Or.inl (by assumption))
    | (with_reducible exact Or.inr rfl)
    | with_reducible apply State.modObs_frame
    | with_reducible apply gcount_frame
    | with_reducible apply raiseGlobal_frame
    | with_reducible apply Frame.ite
    | split
    | dsimp only

theorem report_frame {fl : List Comp} {fr : State} (c : Report) (u : Unit') (part : Option PartId) (id : BitVec 12) (node : BitVec 16) (ref : BitVec 44) (detail : BitVec 16) (s : State) (h_gctr : Comp.gctr ∈ fl) (h_rake : Comp.rake ∈ fl) (h_irq : Comp.irq ∈ fl) (hk : Frame fl fr s) : Frame fl fr (report c u part id node ref detail s) := by
  unfold report
  repeat' first
    | with_reducible assumption
    | (with_reducible exact Or.inl (by assumption))
    | (with_reducible exact Or.inr rfl)
    | with_reducible apply rakeAdd_frame
    | dsimp only

theorem reportFab_frame {fl : List Comp} {fr : State} (c : Report) (p : FabPort) (src : NodeId) (s : State) (h_gctr : Comp.gctr ∈ fl) (h_rake : Comp.rake ∈ fl) (h_irq : Comp.irq ∈ fl) (hk : Frame fl fr s) : Frame fl fr (reportFab c p src s) := by
  unfold reportFab
  repeat' first
    | with_reducible assumption
    | (with_reducible exact Or.inl (by assumption))
    | (with_reducible exact Or.inr rfl)
    | with_reducible apply report_frame
    | dsimp only

theorem modTrace_frame {fl : List Comp} {fr : State} (f : Trace → Trace) (s : State) (h_trace : Comp.trace ∈ fl) (hk : Frame fl fr s) : Frame fl fr (modTrace f s) := by
  unfold modTrace
  repeat' first
    | with_reducible assumption
    | (with_reducible exact Or.inl (by assumption))
    | (with_reducible exact Or.inr rfl)
    | with_reducible apply State.modObs_frame
    | dsimp only

theorem traceDrop_frame {fl : List Comp} {fr : State} (part : Option PartId) (s : State) (h_wins : Comp.wins ∈ fl) (h_counters : Comp.counters ∈ fl) (h_gctr : Comp.gctr ∈ fl) (h_trace : Comp.trace ∈ fl) (hk : Frame fl fr s) : Frame fl fr (traceDrop part s) := by
  unfold traceDrop
  repeat' first
    | with_reducible assumption
    | (with_reducible exact Or.inl (by assumption))
    | (with_reducible exact Or.inr rfl)
    | with_reducible apply count_frame
    | with_reducible apply gcount_frame
    | with_reducible apply modTrace_frame
    | split
    | dsimp only

theorem traceRec_frame {fl : List Comp} {fr : State} (cls : Nat) (part : Option PartId) (rec : BitVec 256) (s : State) (h_wins : Comp.wins ∈ fl) (h_counters : Comp.counters ∈ fl) (h_gctr : Comp.gctr ∈ fl) (h_trace : Comp.trace ∈ fl) (hk : Frame fl fr s) : Frame fl fr (traceRec cls part rec s) := by
  unfold traceRec
  repeat' first
    | with_reducible assumption
    | (with_reducible exact Or.inl (by assumption))
    | (with_reducible exact Or.inr rfl)
    | with_reducible apply modTrace_frame
    | with_reducible apply traceDrop_frame
    | with_reducible apply Frame.ite
    | split
    | dsimp only

theorem State.setObj_frame {fl : List Comp} {fr : State} (s : State) (k : OKey) (o : Obj) (h_rows : Comp.rows ∈ fl) (hk : Frame fl fr s) : Frame fl fr (State.setObj s k o) := by
  unfold State.setObj
  repeat' first
    | with_reducible assumption
    | (with_reducible exact Or.inl (by assumption))
    | (with_reducible exact Or.inr rfl)
    | with_reducible apply State.modObk_frame
    | with_reducible apply Frame.ite
    | split
    | dsimp only

theorem State.delObj_frame {fl : List Comp} {fr : State} (s : State) (k : OKey) (h_rows : Comp.rows ∈ fl) (hk : Frame fl fr s) : Frame fl fr (State.delObj s k) := by
  unfold State.delObj
  repeat' first
    | with_reducible assumption
    | (with_reducible exact Or.inl (by assumption))
    | (with_reducible exact Or.inr rfl)
    | with_reducible apply State.modObk_frame
    | with_reducible apply Frame.ite
    | split
    | dsimp only

theorem State.setBody_frame {fl : List Comp} {fr : State} (s : State) (k : OKey) (b : Body) (h_rows : Comp.rows ∈ fl) (hk : Frame fl fr s) : Frame fl fr (State.setBody s k b) := by
  unfold State.setBody
  repeat' first
    | with_reducible assumption
    | (with_reducible exact Or.inl (by assumption))
    | (with_reducible exact Or.inr rfl)
    | with_reducible apply State.setObj_frame
    | split
    | dsimp only

theorem State.modHdr_frame {fl : List Comp} {fr : State} (s : State) (k : OKey) (f : ObjHdr → ObjHdr) (h_rows : Comp.rows ∈ fl) (hk : Frame fl fr s) : Frame fl fr (State.modHdr s k f) := by
  unfold State.modHdr
  repeat' first
    | with_reducible assumption
    | (with_reducible exact Or.inl (by assumption))
    | (with_reducible exact Or.inr rfl)
    | with_reducible apply State.setObj_frame
    | split
    | dsimp only

theorem syncHdr_frame {fl : List Comp} {fr : State} (k : OKey) (s : State) (h_rows : Comp.rows ∈ fl) (hk : Frame fl fr s) : Frame fl fr (syncHdr k s) := by
  unfold syncHdr
  repeat' first
    | with_reducible assumption
    | (with_reducible exact Or.inl (by assumption))
    | (with_reducible exact Or.inr rfl)
    | with_reducible apply State.modHdr_frame
    | with_reducible apply Frame.ite
    | split
    | dsimp only

theorem freshWq_frame {fl : List Comp} {fr : State} (k : OKey) (s : State) (h_rows : Comp.rows ∈ fl) (h_free : Comp.free ∈ fl) (hk : Frame fl fr s) : Frame fl fr (freshWq k s) := by
  unfold freshWq
  repeat' first
    | with_reducible assumption
    | (with_reducible exact Or.inl (by assumption))
    | (with_reducible exact Or.inr rfl)
    | with_reducible apply fresh_frame
    | (refine fresh_frameE _ (by assumption) ?_ (by with_reducible assumption))
    | with_reducible apply State.modHdr_frame
    | dsimp only

theorem park_frame {fl : List Comp} {fr : State} (w : Waiter) (s : State) (h_rows : Comp.rows ∈ fl) (h_waiters : Comp.waiters ∈ fl) (h_free : Comp.free ∈ fl) (hk : Frame fl fr s) : Frame fl fr (park w s) := by
  unfold park
  repeat' first
    | with_reducible assumption
    | (with_reducible exact Or.inl (by assumption))
    | (with_reducible exact Or.inr rfl)
    | with_reducible apply State.modWmc_frame
    | with_reducible apply syncHdr_frame
    | with_reducible apply freshWq_frame
    | with_reducible apply Frame.ite
    | split
    | dsimp only

theorem unpark_frame {fl : List Comp} {fr : State} (w : Waiter) (s : State) (h_rows : Comp.rows ∈ fl) (h_waiters : Comp.waiters ∈ fl) (hk : Frame fl fr s) : Frame fl fr (unpark w s) := by
  unfold unpark
  repeat' first
    | with_reducible assumption
    | (with_reducible exact Or.inl (by assumption))
    | (with_reducible exact Or.inr rfl)
    | with_reducible apply State.modWmc_frame
    | with_reducible apply syncHdr_frame
    | dsimp only

theorem setRecord_frame {fl : List Comp} {fr : State} (k : OKey) (f : Record → Record) (s : State) (h_records : Comp.records ∈ fl) (hk : Frame fl fr s) : Frame fl fr (setRecord k f s) := by
  unfold setRecord
  repeat' first
    | with_reducible assumption
    | (with_reducible exact Or.inl (by assumption))
    | (with_reducible exact Or.inr rfl)
    | with_reducible apply State.modWmc_frame
    | dsimp only

theorem setEarly_frame {fl : List Comp} {fr : State} (k : OKey) (v : DWord) (s : State) (h_early : Comp.early ∈ fl) (hk : Frame fl fr s) : Frame fl fr (setEarly k v s) := by
  unfold setEarly
  repeat' first
    | with_reducible assumption
    | (with_reducible exact Or.inl (by assumption))
    | (with_reducible exact Or.inr rfl)
    | with_reducible apply State.modWmc_frame
    | split
    | dsimp only

theorem dropEarly_frame {fl : List Comp} {fr : State} (k : OKey) (s : State) (h_early : Comp.early ∈ fl) (hk : Frame fl fr s) : Frame fl fr (dropEarly k s) := by
  unfold dropEarly
  repeat' first
    | with_reducible assumption
    | (with_reducible exact Or.inl (by assumption))
    | (with_reducible exact Or.inr rfl)
    | with_reducible apply State.modWmc_frame
    | dsimp only

theorem State.setDesc_frame {fl : List Comp} {fr : State} (s : State) (i : Nat) (d : Desc) (h_descs : Comp.descs ∈ fl) (hk : Frame fl fr s) : Frame fl fr (State.setDesc s i d) := by
  unfold State.setDesc
  repeat' first
    | with_reducible assumption
    | (with_reducible exact Or.inl (by assumption))
    | (with_reducible exact Or.inr rfl)
    | with_reducible apply State.modTrk_frame
    | dsimp only

theorem State.delDesc_frame {fl : List Comp} {fr : State} (s : State) (i : Nat) (h_descs : Comp.descs ∈ fl) (hk : Frame fl fr s) : Frame fl fr (State.delDesc s i) := by
  unfold State.delDesc
  repeat' first
    | with_reducible assumption
    | (with_reducible exact Or.inl (by assumption))
    | (with_reducible exact Or.inr rfl)
    | with_reducible apply State.modTrk_frame
    | dsimp only

theorem freeOp_frame {fl : List Comp} {fr : State} (id : Nat) (s : State) (h_ops : Comp.ops ∈ fl) (hk : Frame fl fr s) : Frame fl fr (freeOp id s) := by
  unfold freeOp
  repeat' first
    | with_reducible assumption
    | (with_reducible exact Or.inl (by assumption))
    | (with_reducible exact Or.inr rfl)
    | with_reducible apply State.modOpr_frame
    | dsimp only

theorem setOp_frame {fl : List Comp} {fr : State} (id : Nat) (f : OpEntry → OpEntry) (s : State) (h_ops : Comp.ops ∈ fl) (hk : Frame fl fr s) : Frame fl fr (setOp id f s) := by
  unfold setOp
  repeat' first
    | with_reducible assumption
    | (with_reducible exact Or.inl (by assumption))
    | (with_reducible exact Or.inr rfl)
    | with_reducible apply State.modOpr_frame
    | dsimp only

theorem setOpSt_frame {fl : List Comp} {fr : State} (id : Nat) (st : OpSt) (s : State) (h_ops : Comp.ops ∈ fl) (hk : Frame fl fr s) : Frame fl fr (setOpSt id st s) := by
  unfold setOpSt
  repeat' first
    | with_reducible assumption
    | (with_reducible exact Or.inl (by assumption))
    | (with_reducible exact Or.inr rfl)
    | with_reducible apply setOp_frame
    | dsimp only

theorem noteGrant_frame {fl : List Comp} {fr : State} (p : PortNo) (a : LocalAgent) (g : Option Grant) (s : State) (h_aps : Comp.aps ∈ fl) (hk : Frame fl fr s) : Frame fl fr (noteGrant p a g s) := by
  unfold noteGrant
  repeat' first
    | with_reducible assumption
    | (with_reducible exact Or.inl (by assumption))
    | (with_reducible exact Or.inr rfl)
    | with_reducible apply State.modAp_frame
    | split
    | dsimp only

theorem freeOpt_frame {fl : List Comp} {fr : State} (id : Option Nat) (s : State) (h_ops : Comp.ops ∈ fl) (hk : Frame fl fr s) : Frame fl fr (freeOpt id s) := by
  unfold freeOpt
  repeat' first
    | with_reducible assumption
    | (with_reducible exact Or.inl (by assumption))
    | (with_reducible exact Or.inr rfl)
    | with_reducible apply freeOp_frame
    | split
    | dsimp only

theorem pushRsp_frame {fl : List Comp} {fr : State} (p : PortNo) (r : Rsp) (s : State) (h_aps : Comp.aps ∈ fl) (h_ops : Comp.ops ∈ fl) (hk : Frame fl fr s) : Frame fl fr (pushRsp p r s) := by
  unfold pushRsp
  repeat' first
    | with_reducible assumption
    | (with_reducible exact Or.inl (by assumption))
    | (with_reducible exact Or.inr rfl)
    | with_reducible apply State.modAp_frame
    | with_reducible apply noteGrant_frame
    | with_reducible apply freeOpt_frame
    | with_reducible apply Frame.ite
    | (with_reducible refine Frame.foldl (fun _ _ _ => ?_) ?_)
    | split
    | dsimp only

theorem bindReply_frame {fl : List Comp} {fr : State} (p : PortNo) (a : LocalAgent) (code : Byte) (f : Req) (part : Option PartId) (st : Status) (s : State) (h_aps : Comp.aps ∈ fl) (h_ops : Comp.ops ∈ fl) (hk : Frame fl fr s) : Frame fl fr (bindReply p a code f part st s) := by
  unfold bindReply
  repeat' first
    | with_reducible assumption
    | (with_reducible exact Or.inl (by assumption))
    | (with_reducible exact Or.inr rfl)
    | with_reducible apply pushRsp_frame
    | with_reducible apply Frame.ite
    | split
    | dsimp only

theorem pushNotice_frame {fl : List Comp} {fr : State} (p : PortNo) (part : PartId) (code : Byte) (agents : List LocalAgent) (s : State) (h_aps : Comp.aps ∈ fl) (h_ops : Comp.ops ∈ fl) (hk : Frame fl fr s) : Frame fl fr (pushNotice p part code agents s) := by
  unfold pushNotice
  repeat' first
    | with_reducible assumption
    | (with_reducible exact Or.inl (by assumption))
    | (with_reducible exact Or.inr rfl)
    | with_reducible apply pushRsp_frame
    | with_reducible apply Frame.ite
    | (with_reducible refine Frame.foldl (fun _ _ _ => ?_) ?_)
    | split
    | dsimp only

theorem noticePart_frame {fl : List Comp} {fr : State} (part : PartId) (code : Byte) (s : State) (h_aps : Comp.aps ∈ fl) (h_ops : Comp.ops ∈ fl) (hk : Frame fl fr s) : Frame fl fr (noticePart part code s) := by
  unfold noticePart
  repeat' first
    | with_reducible assumption
    | (with_reducible exact Or.inl (by assumption))
    | (with_reducible exact Or.inr rfl)
    | with_reducible apply pushNotice_frame
    | with_reducible apply Frame.ite
    | (with_reducible refine Frame.foldl (fun _ _ _ => ?_) ?_)
    | split
    | dsimp only

theorem enqueueTx_frame {fl : List Comp} {fr : State} (p : FabPort) (f : TxFlit) (s : State) (h_fports : Comp.fports ∈ fl) (hk : Frame fl fr s) : Frame fl fr (enqueueTx p f s) := by
  unfold enqueueTx
  repeat' first
    | with_reducible assumption
    | (with_reducible exact Or.inl (by assumption))
    | (with_reducible exact Or.inr rfl)
    | with_reducible apply State.modFp_frame
    | dsimp only

theorem holdTx_frame {fl : List Comp} {fr : State} (p : FabPort) (f : TxFlit) (s : State) (h_fports : Comp.fports ∈ fl) (hk : Frame fl fr s) : Frame fl fr (holdTx p f s) := by
  unfold holdTx
  repeat' first
    | with_reducible assumption
    | (with_reducible exact Or.inl (by assumption))
    | (with_reducible exact Or.inr rfl)
    | with_reducible apply State.modFp_frame
    | dsimp only

theorem routeTx_frame {fl : List Comp} {fr : State} (inPort : Option FabPort) (f : TxFlit) (s : State) (h_fports : Comp.fports ∈ fl) (h_gctr : Comp.gctr ∈ fl) (h_rake : Comp.rake ∈ fl) (h_irq : Comp.irq ∈ fl) (hk : Frame fl fr s) : Frame fl fr (routeTx inPort f s) := by
  unfold routeTx
  repeat' first
    | with_reducible assumption
    | (with_reducible exact Or.inl (by assumption))
    | (with_reducible exact Or.inr rfl)
    | with_reducible apply gcount_frame
    | with_reducible apply reportFab_frame
    | with_reducible apply enqueueTx_frame
    | with_reducible apply holdTx_frame
    | split
    | dsimp only

theorem fabSend_frame {fl : List Comp} {fr : State} (kind : BitVec 4) (dst : NodeId) (body : BitVec 144) (s : State) (h_fports : Comp.fports ∈ fl) (h_gctr : Comp.gctr ∈ fl) (h_rake : Comp.rake ∈ fl) (h_irq : Comp.irq ∈ fl) (hk : Frame fl fr s) : Frame fl fr (fabSend kind dst body s) := by
  unfold fabSend
  repeat' first
    | with_reducible assumption
    | (with_reducible exact Or.inl (by assumption))
    | (with_reducible exact Or.inr rfl)
    | with_reducible apply routeTx_frame
    | dsimp only

theorem fabSendOn_frame {fl : List Comp} {fr : State} (p : FabPort) (kind : BitVec 4) (body : BitVec 144) (s : State) (h_fports : Comp.fports ∈ fl) (hk : Frame fl fr s) : Frame fl fr (fabSendOn p kind body s) := by
  unfold fabSendOn
  repeat' first
    | with_reducible assumption
    | (with_reducible exact Or.inl (by assumption))
    | (with_reducible exact Or.inr rfl)
    | with_reducible apply enqueueTx_frame
    | dsimp only

theorem countNotice_frame {fl : List Comp} {fr : State} (part : Option PartId) (s : State) (h_wins : Comp.wins ∈ fl) (h_counters : Comp.counters ∈ fl) (hk : Frame fl fr s) : Frame fl fr (countNotice part s) := by
  unfold countNotice
  repeat' first
    | with_reducible assumption
    | (with_reducible exact Or.inl (by assumption))
    | (with_reducible exact Or.inr rfl)
    | with_reducible apply count_frame
    | split
    | dsimp only

theorem snShow_frame {fl : List Comp} {fr : State} (s : State) (h_sn : Comp.sn ∈ fl) (hk : Frame fl fr s) : Frame fl fr (snShow s) := by
  unfold snShow
  repeat' first
    | with_reducible assumption
    | (with_reducible exact Or.inl (by assumption))
    | (with_reducible exact Or.inr rfl)
    | with_reducible apply State.modSn_frame
    | with_reducible apply Frame.ite
    | split
    | dsimp only

theorem snEnter_frame {fl : List Comp} {fr : State} (n : Notice) (s : State) (h_wins : Comp.wins ∈ fl) (h_sn : Comp.sn ∈ fl) (h_counters : Comp.counters ∈ fl) (hk : Frame fl fr s) : Frame fl fr (snEnter n s) := by
  unfold snEnter
  repeat' first
    | with_reducible assumption
    | (with_reducible exact Or.inl (by assumption))
    | (with_reducible exact Or.inr rfl)
    | with_reducible apply State.modSn_frame
    | with_reducible apply countNotice_frame
    | with_reducible apply snShow_frame
    | dsimp only

theorem snManage_frame {fl : List Comp} {fr : State} (part : Option PartId) (ws : List DWord) (s : State) (h_wins : Comp.wins ∈ fl) (h_sn : Comp.sn ∈ fl) (h_counters : Comp.counters ∈ fl) (hk : Frame fl fr s) : Frame fl fr (snManage part ws s) := by
  unfold snManage
  repeat' first
    | with_reducible assumption
    | (with_reducible exact Or.inl (by assumption))
    | (with_reducible exact Or.inr rfl)
    | with_reducible apply State.modSn_frame
    | with_reducible apply snEnter_frame
    | with_reducible apply Frame.ite
    | split
    | dsimp only

theorem snInherit_frame {fl : List Comp} {fr : State} (part : PartId) (key : BitVec 44 × BitVec 20) (ws : List DWord) (s : State) (h_wins : Comp.wins ∈ fl) (h_sn : Comp.sn ∈ fl) (h_counters : Comp.counters ∈ fl) (h_gctr : Comp.gctr ∈ fl) (h_rake : Comp.rake ∈ fl) (h_irq : Comp.irq ∈ fl) (hk : Frame fl fr s) : Frame fl fr (snInherit part key ws s) := by
  unfold snInherit
  repeat' first
    | with_reducible assumption
    | (with_reducible exact Or.inl (by assumption))
    | (with_reducible exact Or.inr rfl)
    | with_reducible apply State.modSn_frame
    | with_reducible apply gcount_frame
    | with_reducible apply report_frame
    | with_reducible apply snEnter_frame
    | with_reducible apply Frame.ite
    | split
    | dsimp only

theorem sendInherit_frame {fl : List Comp} {fr : State} (k : OKey) (l : Lock) (ended : Bool) (level : Prio) (wNode : NodeId) (wAgent : AgentId) (s : State) (h_wins : Comp.wins ∈ fl) (h_sn : Comp.sn ∈ fl) (h_fports : Comp.fports ∈ fl) (h_counters : Comp.counters ∈ fl) (h_gctr : Comp.gctr ∈ fl) (h_rake : Comp.rake ∈ fl) (h_irq : Comp.irq ∈ fl) (hk : Frame fl fr s) : Frame fl fr (sendInherit k l ended level wNode wAgent s) := by
  unfold sendInherit
  repeat' first
    | with_reducible assumption
    | (with_reducible exact Or.inl (by assumption))
    | (with_reducible exact Or.inr rfl)
    | with_reducible apply fabSend_frame
    | with_reducible apply snInherit_frame
    | with_reducible apply Frame.ite
    | split
    | dsimp only

theorem snService_frame {fl : List Comp} {fr : State} (w0 w1 : DWord) (s : State) (h_wins : Comp.wins ∈ fl) (h_sn : Comp.sn ∈ fl) (h_counters : Comp.counters ∈ fl) (hk : Frame fl fr s) : Frame fl fr (snService w0 w1 s) := by
  unfold snService
  repeat' first
    | with_reducible assumption
    | (with_reducible exact Or.inl (by assumption))
    | (with_reducible exact Or.inr rfl)
    | with_reducible apply snManage_frame
    | dsimp only

theorem traceOp_frame {fl : List Comp} {fr : State} (e : OpEntry) (code : Byte) (pay : DWord) (s : State) (h_wins : Comp.wins ∈ fl) (h_counters : Comp.counters ∈ fl) (h_gctr : Comp.gctr ∈ fl) (h_trace : Comp.trace ∈ fl) (hk : Frame fl fr s) : Frame fl fr (traceOp e code pay s) := by
  unfold traceOp
  repeat' first
    | with_reducible assumption
    | (with_reducible exact Or.inl (by assumption))
    | (with_reducible exact Or.inr rfl)
    | with_reducible apply traceRec_frame
    | with_reducible apply Frame.ite
    | split
    | dsimp only

theorem answer_frame {fl : List Comp} {fr : State} (e : OpEntry) (code : Byte) (pay : DWord) (g : Option Grant) (s : State) (h_wins : Comp.wins ∈ fl) (h_aps : Comp.aps ∈ fl) (h_ops : Comp.ops ∈ fl) (h_counters : Comp.counters ∈ fl) (h_gctr : Comp.gctr ∈ fl) (h_rake : Comp.rake ∈ fl) (h_irq : Comp.irq ∈ fl) (hk : Frame fl fr s) : Frame fl fr (answer e code pay g s) := by
  unfold answer
  repeat' first
    | with_reducible assumption
    | (with_reducible exact Or.inl (by assumption))
    | (with_reducible exact Or.inr rfl)
    | with_reducible apply count_frame
    | with_reducible apply report_frame
    | with_reducible apply freeOp_frame
    | with_reducible apply setOpSt_frame
    | with_reducible apply noteGrant_frame
    | with_reducible apply pushRsp_frame
    | with_reducible apply Frame.ite
    | split
    | dsimp only

theorem answerFreed_frame {fl : List Comp} {fr : State} (e : OpEntry) (code : Byte) (pay : DWord) (s : State) (h_aps : Comp.aps ∈ fl) (h_ops : Comp.ops ∈ fl) (hk : Frame fl fr s) : Frame fl fr (answerFreed e code pay s) := by
  unfold answerFreed
  repeat' first
    | with_reducible assumption
    | (with_reducible exact Or.inl (by assumption))
    | (with_reducible exact Or.inr rfl)
    | with_reducible apply freeOp_frame
    | with_reducible apply pushRsp_frame
    | with_reducible apply Frame.ite
    | split
    | dsimp only

theorem finish_frame {fl : List Comp} {fr : State} (e : OpEntry) (st : Status) (pay : DWord) (g : Option Grant) (s : State) (h_wins : Comp.wins ∈ fl) (h_aps : Comp.aps ∈ fl) (h_ops : Comp.ops ∈ fl) (h_fports : Comp.fports ∈ fl) (h_counters : Comp.counters ∈ fl) (h_gctr : Comp.gctr ∈ fl) (h_rake : Comp.rake ∈ fl) (h_trace : Comp.trace ∈ fl) (h_irq : Comp.irq ∈ fl) (hk : Frame fl fr s) : Frame fl fr (finish e st pay g s) := by
  unfold finish
  repeat' first
    | with_reducible assumption
    | (with_reducible exact Or.inl (by assumption))
    | (with_reducible exact Or.inr rfl)
    | with_reducible apply count_frame
    | with_reducible apply countStatus_frame
    | with_reducible apply freeOp_frame
    | with_reducible apply fabSend_frame
    | with_reducible apply traceOp_frame
    | with_reducible apply answer_frame
    | with_reducible apply Frame.ite
    | split
    | dsimp only

theorem finishParked_frame {fl : List Comp} {fr : State} (e : OpEntry) (s : State) (h_wins : Comp.wins ∈ fl) (h_ops : Comp.ops ∈ fl) (h_fports : Comp.fports ∈ fl) (h_counters : Comp.counters ∈ fl) (h_gctr : Comp.gctr ∈ fl) (h_rake : Comp.rake ∈ fl) (h_trace : Comp.trace ∈ fl) (h_irq : Comp.irq ∈ fl) (hk : Frame fl fr s) : Frame fl fr (finishParked e s) := by
  unfold finishParked
  repeat' first
    | with_reducible assumption
    | (with_reducible exact Or.inl (by assumption))
    | (with_reducible exact Or.inr rfl)
    | with_reducible apply count_frame
    | with_reducible apply freeOp_frame
    | with_reducible apply fabSend_frame
    | with_reducible apply traceOp_frame
    | split
    | dsimp only

theorem traceInner_frame {fl : List Comp} {fr : State} (cls : Nat) (k : OKey) (op : Byte) (agent : AgentId) (node : NodeId) (s : State) (h_wins : Comp.wins ∈ fl) (h_counters : Comp.counters ∈ fl) (h_gctr : Comp.gctr ∈ fl) (h_trace : Comp.trace ∈ fl) (hk : Frame fl fr s) : Frame fl fr (traceInner cls k op agent node s) := by
  unfold traceInner
  repeat' first
    | with_reducible assumption
    | (with_reducible exact Or.inl (by assumption))
    | (with_reducible exact Or.inr rfl)
    | with_reducible apply traceRec_frame
    | dsimp only

theorem wakeOne_frame {fl : List Comp} {fr : State} (w : Waiter) (code : Byte) (pay : DWord) (node : NodeId) (g : Option Grant) (cause : Cause) (s : State) (h_aps : Comp.aps ∈ fl) (h_ops : Comp.ops ∈ fl) (hk : Frame fl fr s) : Frame fl fr (wakeOne w code pay node g cause s) := by
  unfold wakeOne
  repeat' first
    | with_reducible assumption
    | (with_reducible exact Or.inl (by assumption))
    | (with_reducible exact Or.inr rfl)
    | with_reducible apply pushRsp_frame
    | dsimp only

theorem vecOpcode_frame {fl : List Comp} {fr : State} (w : Waiter) (ws : List Waiter) (s : State) (h_free : Comp.free ∈ fl) (hk : Frame fl fr s) : Frame fl fr (vecOpcode w ws s).2 := by
  unfold vecOpcode
  repeat' first
    | with_reducible assumption
    | (with_reducible exact Or.inl (by assumption))
    | (with_reducible exact Or.inr rfl)
    | with_reducible apply fresh_frame
    | (refine fresh_frameE _ (by assumption) ?_ (by with_reducible assumption))
    | with_reducible apply Frame.ite
    | split
    | dsimp only

theorem vecOpcode_frameE {fl : List Comp} {fr : State} (w : Waiter) (ws : List Waiter) (s : State) {kv} {kt : State} (h_free : Comp.free ∈ fl) (hk : Frame fl fr s) (he : vecOpcode w ws s = (kv, kt)) : Frame fl fr kt := by
  have h := vecOpcode_frame (fl := fl) (fr := fr) w ws s h_free hk
  rw [he] at h; exact h

theorem wakeSet_frame {fl : List Comp} {fr : State} (ws : List Waiter) (code : Byte) (pay : DWord) (node : NodeId) (cause : Cause) (s : State) (h_aps : Comp.aps ∈ fl) (h_ops : Comp.ops ∈ fl) (h_free : Comp.free ∈ fl) (hk : Frame fl fr s) : Frame fl fr (wakeSet ws code pay node cause s) := by
  unfold wakeSet
  repeat' first
    | with_reducible assumption
    | (with_reducible exact Or.inl (by assumption))
    | (with_reducible exact Or.inr rfl)
    | with_reducible apply pushRsp_frame
    | with_reducible apply wakeOne_frame
    | with_reducible apply vecOpcode_frame
    | (refine vecOpcode_frameE _ _ _ (by assumption) ?_ (by with_reducible assumption))
    | with_reducible apply Frame.ite
    | (with_reducible refine Frame.foldl (fun _ _ _ => ?_) ?_)
    | split
    | dsimp only

theorem wakeLocals_frame {fl : List Comp} {fr : State} (ws : List Waiter) (code : Byte) (pay : DWord) (node : NodeId) (cause : Cause) (s : State) (h_aps : Comp.aps ∈ fl) (h_ops : Comp.ops ∈ fl) (h_free : Comp.free ∈ fl) (hk : Frame fl fr s) : Frame fl fr (wakeLocals ws code pay node cause s) := by
  unfold wakeLocals
  repeat' first
    | with_reducible assumption
    | (with_reducible exact Or.inl (by assumption))
    | (with_reducible exact Or.inr rfl)
    | with_reducible apply wakeSet_frame
    | (with_reducible refine Frame.foldl (fun _ _ _ => ?_) ?_)
    | dsimp only

theorem sendWake_frame {fl : List Comp} {fr : State} (w : Waiter) (st : Status) (pay : DWord) (g : Option Grant) (policy : BitVec 2) (cause : Cause) (s : State) (h_aps : Comp.aps ∈ fl) (h_ops : Comp.ops ∈ fl) (h_fports : Comp.fports ∈ fl) (h_gctr : Comp.gctr ∈ fl) (h_rake : Comp.rake ∈ fl) (h_irq : Comp.irq ∈ fl) (hk : Frame fl fr s) : Frame fl fr (sendWake w st pay g policy cause s) := by
  unfold sendWake
  repeat' first
    | with_reducible assumption
    | (with_reducible exact Or.inl (by assumption))
    | (with_reducible exact Or.inr rfl)
    | with_reducible apply fabSend_frame
    | with_reducible apply wakeOne_frame
    | with_reducible apply Frame.ite
    | split
    | dsimp only

theorem passWake_frame {fl : List Comp} {fr : State} (w : Waiter) (st : Status) (pay : DWord) (g : Option Grant) (policy : BitVec 2) (cause : Cause) (s : State) (h_aps : Comp.aps ∈ fl) (h_ops : Comp.ops ∈ fl) (h_spillWakes : Comp.spillWakes ∈ fl) (h_fports : Comp.fports ∈ fl) (h_gctr : Comp.gctr ∈ fl) (h_rake : Comp.rake ∈ fl) (h_irq : Comp.irq ∈ fl) (hk : Frame fl fr s) : Frame fl fr (passWake w st pay g policy cause s) := by
  unfold passWake
  repeat' first
    | with_reducible assumption
    | (with_reducible exact Or.inl (by assumption))
    | (with_reducible exact Or.inr rfl)
    | with_reducible apply State.modWmc_frame
    | with_reducible apply sendWake_frame
    | with_reducible apply Frame.ite
    | split
    | dsimp only

theorem wakeWaiter_frame {fl : List Comp} {fr : State} (w : Waiter) (st : Status) (pay : DWord) (g : Option Grant) (policy : BitVec 2) (cause : Cause) (s : State) (h_wins : Comp.wins ∈ fl) (h_aps : Comp.aps ∈ fl) (h_ops : Comp.ops ∈ fl) (h_spillWakes : Comp.spillWakes ∈ fl) (h_fports : Comp.fports ∈ fl) (h_counters : Comp.counters ∈ fl) (h_gctr : Comp.gctr ∈ fl) (h_rake : Comp.rake ∈ fl) (h_irq : Comp.irq ∈ fl) (hk : Frame fl fr s) : Frame fl fr (wakeWaiter w st pay g policy cause s) := by
  unfold wakeWaiter
  repeat' first
    | with_reducible assumption
    | (with_reducible exact Or.inl (by assumption))
    | (with_reducible exact Or.inr rfl)
    | with_reducible apply countStatus_frame
    | with_reducible apply passWake_frame
    | dsimp only

theorem wakeAll_frame {fl : List Comp} {fr : State} (ws : List Waiter) (st : Status) (pay : DWord) (cause : Cause) (s : State) (h_wins : Comp.wins ∈ fl) (h_aps : Comp.aps ∈ fl) (h_ops : Comp.ops ∈ fl) (h_spillWakes : Comp.spillWakes ∈ fl) (h_fports : Comp.fports ∈ fl) (h_counters : Comp.counters ∈ fl) (h_gctr : Comp.gctr ∈ fl) (h_rake : Comp.rake ∈ fl) (h_irq : Comp.irq ∈ fl) (h_free : Comp.free ∈ fl) (hk : Frame fl fr s) : Frame fl fr (wakeAll ws st pay cause s) := by
  unfold wakeAll
  repeat' first
    | with_reducible assumption
    | (with_reducible exact Or.inl (by assumption))
    | (with_reducible exact Or.inr rfl)
    | with_reducible apply countStatus_frame
    | with_reducible apply wakeLocals_frame
    | with_reducible apply passWake_frame
    | with_reducible apply Frame.ite
    | (with_reducible refine Frame.foldl (fun _ _ _ => ?_) ?_)
    | split
    | dsimp only

theorem takeWaiters_frame {fl : List Comp} {fr : State} (k : OKey) (q : Waiter → Bool) (s : State) (h_rows : Comp.rows ∈ fl) (h_waiters : Comp.waiters ∈ fl) (hk : Frame fl fr s) : Frame fl fr (takeWaiters k q s).2 := by
  unfold takeWaiters
  repeat' first
    | with_reducible assumption
    | (with_reducible exact Or.inl (by assumption))
    | (with_reducible exact Or.inr rfl)
    | with_reducible apply State.modWmc_frame
    | with_reducible apply syncHdr_frame
    | dsimp only

theorem takeWaiters_frameE {fl : List Comp} {fr : State} (k : OKey) (q : Waiter → Bool) (s : State) {kv} {kt : State} (h_rows : Comp.rows ∈ fl) (h_waiters : Comp.waiters ∈ fl) (hk : Frame fl fr s) (he : takeWaiters k q s = (kv, kt)) : Frame fl fr kt := by
  have h := takeWaiters_frame (fl := fl) (fr := fr) k q s h_rows h_waiters hk
  rw [he] at h; exact h

end Sys2Proof.Machine
end

