-- ==== Sys2Proof/Laws/FrameObj.lean ====
section
/-! SUPPORT. What the effects defined in Locks, Counts, Rings, Reduce, Barriers, Tack, Defer, Posted, Landing, Packets leave unchanged: each lemma names every component its function may write. -/

namespace Sys2Proof.Machine

theorem addHolding_frame {fl : List Comp} {fr : State} (agent : AgentId) (home : NodeId) (k : OKey) (s : State) (h_holdings : Comp.holdings ∈ fl) (h_gctr : Comp.gctr ∈ fl) (h_rake : Comp.rake ∈ fl) (h_irq : Comp.irq ∈ fl) (hk : Frame fl fr s) : Frame fl fr (addHolding agent home k s) := by
  unfold addHolding
  repeat' first
    | with_reducible assumption
    | (with_reducible exact Or.inl (by assumption))
    | (with_reducible exact Or.inr rfl)
    | with_reducible apply State.modOlu_frame
    | with_reducible apply report_frame
    | with_reducible apply Frame.ite
    | split
    | dsimp only

theorem delHolding_frame {fl : List Comp} {fr : State} (agent : AgentId) (home : NodeId) (k : OKey) (s : State) (h_holdings : Comp.holdings ∈ fl) (hk : Frame fl fr s) : Frame fl fr (delHolding agent home k s) := by
  unfold delHolding
  repeat' first
    | with_reducible assumption
    | (with_reducible exact Or.inl (by assumption))
    | (with_reducible exact Or.inr rfl)
    | with_reducible apply State.modOlu_frame
    | dsimp only

theorem addFence_frame {fl : List Comp} {fr : State} (k : OKey) (node : NodeId) (agent : AgentId) (s : State) (h_fences : Comp.fences ∈ fl) (h_gctr : Comp.gctr ∈ fl) (h_rake : Comp.rake ∈ fl) (h_irq : Comp.irq ∈ fl) (hk : Frame fl fr s) : Frame fl fr (addFence k node agent s) := by
  unfold addFence
  repeat' first
    | with_reducible assumption
    | (with_reducible exact Or.inl (by assumption))
    | (with_reducible exact Or.inr rfl)
    | with_reducible apply State.modOlu_frame
    | with_reducible apply report_frame
    | with_reducible apply Frame.ite
    | split
    | dsimp only

theorem delFence_frame {fl : List Comp} {fr : State} (q : Fence → Bool) (s : State) (h_fences : Comp.fences ∈ fl) (hk : Frame fl fr s) : Frame fl fr (delFence q s) := by
  unfold delFence
  repeat' first
    | with_reducible assumption
    | (with_reducible exact Or.inl (by assumption))
    | (with_reducible exact Or.inr rfl)
    | with_reducible apply State.modOlu_frame
    | dsimp only

theorem delLease_frame {fl : List Comp} {fr : State} (k : OKey) (s : State) (h_leases : Comp.leases ∈ fl) (hk : Frame fl fr s) : Frame fl fr (delLease k s) := by
  unfold delLease
  repeat' first
    | with_reducible assumption
    | (with_reducible exact Or.inl (by assumption))
    | (with_reducible exact Or.inr rfl)
    | with_reducible apply State.modTdu_frame
    | dsimp only

theorem grantEffects_frame {fl : List Comp} {fr : State} (k : OKey) (l : Lock) (t : Nat) (s : State) (h_wins : Comp.wins ∈ fl) (h_holdings : Comp.holdings ∈ fl) (h_fences : Comp.fences ∈ fl) (h_leases : Comp.leases ∈ fl) (h_counters : Comp.counters ∈ fl) (h_gctr : Comp.gctr ∈ fl) (h_rake : Comp.rake ∈ fl) (h_irq : Comp.irq ∈ fl) (hk : Frame fl fr s) : Frame fl fr (grantEffects k l t s) := by
  unfold grantEffects
  repeat' first
    | with_reducible assumption
    | (with_reducible exact Or.inl (by assumption))
    | (with_reducible exact Or.inr rfl)
    | with_reducible apply State.modTdu_frame
    | with_reducible apply count_frame
    | with_reducible apply addHolding_frame
    | with_reducible apply delFence_frame
    | with_reducible apply Frame.ite
    | split
    | dsimp only

theorem grantLock_frame {fl : List Comp} {fr : State} (k : OKey) (l : Lock) (node : NodeId) (agent : AgentId) (prio : Prio) (t : Nat) (s : State) (h_wins : Comp.wins ∈ fl) (h_rows : Comp.rows ∈ fl) (h_holdings : Comp.holdings ∈ fl) (h_fences : Comp.fences ∈ fl) (h_leases : Comp.leases ∈ fl) (h_counters : Comp.counters ∈ fl) (h_gctr : Comp.gctr ∈ fl) (h_rake : Comp.rake ∈ fl) (h_irq : Comp.irq ∈ fl) (hk : Frame fl fr s) : Frame fl fr (grantLock k l node agent prio t s) := by
  unfold grantLock
  repeat' first
    | with_reducible assumption
    | (with_reducible exact Or.inl (by assumption))
    | (with_reducible exact Or.inr rfl)
    | with_reducible apply State.setBody_frame
    | with_reducible apply grantEffects_frame
    | dsimp only

theorem handOver_frame {fl : List Comp} {fr : State} (k : OKey) (l : Lock) (cause : Cause) (t : Nat) (s : State) (h_wins : Comp.wins ∈ fl) (h_aps : Comp.aps ∈ fl) (h_ops : Comp.ops ∈ fl) (h_rows : Comp.rows ∈ fl) (h_waiters : Comp.waiters ∈ fl) (h_spillWakes : Comp.spillWakes ∈ fl) (h_holdings : Comp.holdings ∈ fl) (h_fences : Comp.fences ∈ fl) (h_leases : Comp.leases ∈ fl) (h_fports : Comp.fports ∈ fl) (h_counters : Comp.counters ∈ fl) (h_gctr : Comp.gctr ∈ fl) (h_rake : Comp.rake ∈ fl) (h_irq : Comp.irq ∈ fl) (hk : Frame fl fr s) : Frame fl fr (handOver k l cause t s) := by
  unfold handOver
  repeat' first
    | with_reducible assumption
    | (with_reducible exact Or.inl (by assumption))
    | (with_reducible exact Or.inr rfl)
    | with_reducible apply State.setBody_frame
    | with_reducible apply unpark_frame
    | with_reducible apply wakeWaiter_frame
    | with_reducible apply grantLock_frame
    | split
    | dsimp only

theorem endHolding_frame {fl : List Comp} {fr : State} (k : OKey) (l : Lock) (lastEnd : BitVec 2) (own : Bool) (cause : Cause) (t : Nat) (s : State) (h_wins : Comp.wins ∈ fl) (h_aps : Comp.aps ∈ fl) (h_ops : Comp.ops ∈ fl) (h_rows : Comp.rows ∈ fl) (h_waiters : Comp.waiters ∈ fl) (h_spillWakes : Comp.spillWakes ∈ fl) (h_holdings : Comp.holdings ∈ fl) (h_fences : Comp.fences ∈ fl) (h_leases : Comp.leases ∈ fl) (h_sn : Comp.sn ∈ fl) (h_fports : Comp.fports ∈ fl) (h_counters : Comp.counters ∈ fl) (h_gctr : Comp.gctr ∈ fl) (h_rake : Comp.rake ∈ fl) (h_irq : Comp.irq ∈ fl) (hk : Frame fl fr s) : Frame fl fr (endHolding k l lastEnd own cause t s) := by
  unfold endHolding
  repeat' first
    | with_reducible assumption
    | (with_reducible exact Or.inl (by assumption))
    | (with_reducible exact Or.inr rfl)
    | with_reducible apply fabSend_frame
    | with_reducible apply sendInherit_frame
    | with_reducible apply delHolding_frame
    | with_reducible apply addFence_frame
    | with_reducible apply delLease_frame
    | with_reducible apply handOver_frame
    | with_reducible apply Frame.ite
    | split
    | dsimp only

theorem lowerInherit_frame {fl : List Comp} {fr : State} (k : OKey) (s : State) (h_wins : Comp.wins ∈ fl) (h_rows : Comp.rows ∈ fl) (h_sn : Comp.sn ∈ fl) (h_fports : Comp.fports ∈ fl) (h_counters : Comp.counters ∈ fl) (h_gctr : Comp.gctr ∈ fl) (h_rake : Comp.rake ∈ fl) (h_irq : Comp.irq ∈ fl) (hk : Frame fl fr s) : Frame fl fr (lowerInherit k s) := by
  unfold lowerInherit
  repeat' first
    | with_reducible assumption
    | (with_reducible exact Or.inl (by assumption))
    | (with_reducible exact Or.inr rfl)
    | with_reducible apply State.setBody_frame
    | with_reducible apply sendInherit_frame
    | with_reducible apply Frame.ite
    | split
    | dsimp only

theorem lockOp_frame {fl : List Comp} {fr : State} (e : OpEntry) (k : OKey) (l : Lock) (s : State) (h_wins : Comp.wins ∈ fl) (h_aps : Comp.aps ∈ fl) (h_ops : Comp.ops ∈ fl) (h_rows : Comp.rows ∈ fl) (h_waiters : Comp.waiters ∈ fl) (h_holdings : Comp.holdings ∈ fl) (h_fences : Comp.fences ∈ fl) (h_leases : Comp.leases ∈ fl) (h_sn : Comp.sn ∈ fl) (h_fports : Comp.fports ∈ fl) (h_counters : Comp.counters ∈ fl) (h_gctr : Comp.gctr ∈ fl) (h_rake : Comp.rake ∈ fl) (h_trace : Comp.trace ∈ fl) (h_irq : Comp.irq ∈ fl) (h_free : Comp.free ∈ fl) (hk : Frame fl fr s) : Frame fl fr (lockOp e k l s) := by
  unfold lockOp
  repeat' first
    | with_reducible assumption
    | (with_reducible exact Or.inl (by assumption))
    | (with_reducible exact Or.inr rfl)
    | with_reducible apply State.setBody_frame
    | with_reducible apply park_frame
    | with_reducible apply sendInherit_frame
    | with_reducible apply finish_frame
    | with_reducible apply finishParked_frame
    | with_reducible apply grantLock_frame
    | with_reducible apply Frame.ite
    | split
    | dsimp only

theorem tryLockOp_frame {fl : List Comp} {fr : State} (e : OpEntry) (k : OKey) (l : Lock) (s : State) (h_wins : Comp.wins ∈ fl) (h_aps : Comp.aps ∈ fl) (h_ops : Comp.ops ∈ fl) (h_rows : Comp.rows ∈ fl) (h_holdings : Comp.holdings ∈ fl) (h_fences : Comp.fences ∈ fl) (h_leases : Comp.leases ∈ fl) (h_fports : Comp.fports ∈ fl) (h_counters : Comp.counters ∈ fl) (h_gctr : Comp.gctr ∈ fl) (h_rake : Comp.rake ∈ fl) (h_trace : Comp.trace ∈ fl) (h_irq : Comp.irq ∈ fl) (hk : Frame fl fr s) : Frame fl fr (tryLockOp e k l s) := by
  unfold tryLockOp
  repeat' first
    | with_reducible assumption
    | (with_reducible exact Or.inl (by assumption))
    | (with_reducible exact Or.inr rfl)
    | with_reducible apply finish_frame
    | with_reducible apply grantLock_frame
    | with_reducible apply Frame.ite
    | split
    | dsimp only

theorem unlockOp_frame {fl : List Comp} {fr : State} (e : OpEntry) (k : OKey) (l : Lock) (s : State) (h_wins : Comp.wins ∈ fl) (h_aps : Comp.aps ∈ fl) (h_ops : Comp.ops ∈ fl) (h_rows : Comp.rows ∈ fl) (h_waiters : Comp.waiters ∈ fl) (h_spillWakes : Comp.spillWakes ∈ fl) (h_holdings : Comp.holdings ∈ fl) (h_fences : Comp.fences ∈ fl) (h_leases : Comp.leases ∈ fl) (h_sn : Comp.sn ∈ fl) (h_fports : Comp.fports ∈ fl) (h_counters : Comp.counters ∈ fl) (h_gctr : Comp.gctr ∈ fl) (h_rake : Comp.rake ∈ fl) (h_trace : Comp.trace ∈ fl) (h_irq : Comp.irq ∈ fl) (hk : Frame fl fr s) : Frame fl fr (unlockOp e k l s) := by
  unfold unlockOp
  repeat' first
    | with_reducible assumption
    | (with_reducible exact Or.inl (by assumption))
    | (with_reducible exact Or.inr rfl)
    | with_reducible apply count_frame
    | with_reducible apply finish_frame
    | with_reducible apply delFence_frame
    | with_reducible apply endHolding_frame
    | with_reducible apply Frame.ite
    | split
    | dsimp only

theorem claimIdOp_frame {fl : List Comp} {fr : State} (e : OpEntry) (k : OKey) (l : Lock) (s : State) (h_wins : Comp.wins ∈ fl) (h_aps : Comp.aps ∈ fl) (h_ops : Comp.ops ∈ fl) (h_rows : Comp.rows ∈ fl) (h_holdings : Comp.holdings ∈ fl) (h_fences : Comp.fences ∈ fl) (h_leases : Comp.leases ∈ fl) (h_fports : Comp.fports ∈ fl) (h_counters : Comp.counters ∈ fl) (h_gctr : Comp.gctr ∈ fl) (h_rake : Comp.rake ∈ fl) (h_trace : Comp.trace ∈ fl) (h_irq : Comp.irq ∈ fl) (hk : Frame fl fr s) : Frame fl fr (claimIdOp e k l s) := by
  unfold claimIdOp
  repeat' first
    | with_reducible assumption
    | (with_reducible exact Or.inl (by assumption))
    | (with_reducible exact Or.inr rfl)
    | with_reducible apply finish_frame
    | with_reducible apply grantLock_frame
    | with_reducible apply Frame.ite
    | split
    | dsimp only

theorem claimReadOp_frame {fl : List Comp} {fr : State} (e : OpEntry) (l : Lock) (s : State) (h_wins : Comp.wins ∈ fl) (h_aps : Comp.aps ∈ fl) (h_ops : Comp.ops ∈ fl) (h_fports : Comp.fports ∈ fl) (h_counters : Comp.counters ∈ fl) (h_gctr : Comp.gctr ∈ fl) (h_rake : Comp.rake ∈ fl) (h_trace : Comp.trace ∈ fl) (h_irq : Comp.irq ∈ fl) (hk : Frame fl fr s) : Frame fl fr (claimReadOp e l s) := by
  unfold claimReadOp
  repeat' first
    | with_reducible assumption
    | (with_reducible exact Or.inl (by assumption))
    | (with_reducible exact Or.inr rfl)
    | with_reducible apply finish_frame
    | dsimp only

theorem abandonLock_frame {fl : List Comp} {fr : State} (k : OKey) (node : NodeId) (agent : AgentId) (seq : BitVec 36) (t : Nat) (s : State) (h_wins : Comp.wins ∈ fl) (h_aps : Comp.aps ∈ fl) (h_ops : Comp.ops ∈ fl) (h_rows : Comp.rows ∈ fl) (h_waiters : Comp.waiters ∈ fl) (h_spillWakes : Comp.spillWakes ∈ fl) (h_holdings : Comp.holdings ∈ fl) (h_fences : Comp.fences ∈ fl) (h_leases : Comp.leases ∈ fl) (h_sn : Comp.sn ∈ fl) (h_fports : Comp.fports ∈ fl) (h_counters : Comp.counters ∈ fl) (h_gctr : Comp.gctr ∈ fl) (h_rake : Comp.rake ∈ fl) (h_irq : Comp.irq ∈ fl) (hk : Frame fl fr s) : Frame fl fr (abandonLock k node agent seq t s) := by
  unfold abandonLock
  repeat' first
    | with_reducible assumption
    | (with_reducible exact Or.inl (by assumption))
    | (with_reducible exact Or.inr rfl)
    | with_reducible apply endHolding_frame
    | with_reducible apply Frame.ite
    | split
    | dsimp only

theorem expireLease_frame {fl : List Comp} {fr : State} (k : OKey) (seq : Nat) (s : State) (h_wins : Comp.wins ∈ fl) (h_aps : Comp.aps ∈ fl) (h_ops : Comp.ops ∈ fl) (h_rows : Comp.rows ∈ fl) (h_waiters : Comp.waiters ∈ fl) (h_spillWakes : Comp.spillWakes ∈ fl) (h_holdings : Comp.holdings ∈ fl) (h_fences : Comp.fences ∈ fl) (h_leases : Comp.leases ∈ fl) (h_sn : Comp.sn ∈ fl) (h_fports : Comp.fports ∈ fl) (h_counters : Comp.counters ∈ fl) (h_gctr : Comp.gctr ∈ fl) (h_rake : Comp.rake ∈ fl) (h_trace : Comp.trace ∈ fl) (h_irq : Comp.irq ∈ fl) (hk : Frame fl fr s) : Frame fl fr (expireLease k seq s) := by
  unfold expireLease
  repeat' first
    | with_reducible assumption
    | (with_reducible exact Or.inl (by assumption))
    | (with_reducible exact Or.inr rfl)
    | with_reducible apply traceInner_frame
    | with_reducible apply endHolding_frame
    | with_reducible apply Frame.ite
    | split
    | dsimp only

theorem grantLoop_frame {fl : List Comp} {fr : State} (k : OKey) (cause : Cause) (n : Nat) (h_wins : Comp.wins ∈ fl) (h_aps : Comp.aps ∈ fl) (h_ops : Comp.ops ∈ fl) (h_rows : Comp.rows ∈ fl) (h_waiters : Comp.waiters ∈ fl) (h_spillWakes : Comp.spillWakes ∈ fl) (h_fports : Comp.fports ∈ fl) (h_counters : Comp.counters ∈ fl) (h_gctr : Comp.gctr ∈ fl) (h_rake : Comp.rake ∈ fl) (h_irq : Comp.irq ∈ fl) : ∀ (s : State), Frame fl fr s → Frame fl fr (grantLoop k cause n s) := by
  induction n with
  | zero => intro s hk; unfold grantLoop; exact hk
  | succ n ih =>
    intro s hk
    unfold grantLoop
    repeat' first
      | with_reducible assumption
      | (with_reducible exact Or.inl (by assumption))
      | (with_reducible exact Or.inr rfl)
      | with_reducible apply ih
      | with_reducible apply count_frame
      | with_reducible apply State.setBody_frame
      | with_reducible apply unpark_frame
      | with_reducible apply wakeWaiter_frame
      | with_reducible apply Frame.ite
      | split
      | dsimp only

theorem runGrants_frame {fl : List Comp} {fr : State} (k : OKey) (cause : Cause) (s : State) (h_wins : Comp.wins ∈ fl) (h_aps : Comp.aps ∈ fl) (h_ops : Comp.ops ∈ fl) (h_rows : Comp.rows ∈ fl) (h_waiters : Comp.waiters ∈ fl) (h_spillWakes : Comp.spillWakes ∈ fl) (h_fports : Comp.fports ∈ fl) (h_counters : Comp.counters ∈ fl) (h_gctr : Comp.gctr ∈ fl) (h_rake : Comp.rake ∈ fl) (h_irq : Comp.irq ∈ fl) (hk : Frame fl fr s) : Frame fl fr (runGrants k cause s) := by
  unfold runGrants
  repeat' first
    | with_reducible assumption
    | (with_reducible exact Or.inl (by assumption))
    | (with_reducible exact Or.inr rfl)
    | with_reducible apply grantLoop_frame
    | dsimp only

theorem takeOp_frame {fl : List Comp} {fr : State} (e : OpEntry) (k : OKey) (v : Sem) (s : State) (h_wins : Comp.wins ∈ fl) (h_aps : Comp.aps ∈ fl) (h_ops : Comp.ops ∈ fl) (h_rows : Comp.rows ∈ fl) (h_waiters : Comp.waiters ∈ fl) (h_fports : Comp.fports ∈ fl) (h_counters : Comp.counters ∈ fl) (h_gctr : Comp.gctr ∈ fl) (h_rake : Comp.rake ∈ fl) (h_trace : Comp.trace ∈ fl) (h_irq : Comp.irq ∈ fl) (h_free : Comp.free ∈ fl) (hk : Frame fl fr s) : Frame fl fr (takeOp e k v s) := by
  unfold takeOp
  repeat' first
    | with_reducible assumption
    | (with_reducible exact Or.inl (by assumption))
    | (with_reducible exact Or.inr rfl)
    | with_reducible apply count_frame
    | with_reducible apply State.setBody_frame
    | with_reducible apply park_frame
    | with_reducible apply finish_frame
    | with_reducible apply finishParked_frame
    | with_reducible apply Frame.ite
    | split
    | dsimp only

theorem tryTakeOp_frame {fl : List Comp} {fr : State} (e : OpEntry) (k : OKey) (v : Sem) (s : State) (h_wins : Comp.wins ∈ fl) (h_aps : Comp.aps ∈ fl) (h_ops : Comp.ops ∈ fl) (h_rows : Comp.rows ∈ fl) (h_fports : Comp.fports ∈ fl) (h_counters : Comp.counters ∈ fl) (h_gctr : Comp.gctr ∈ fl) (h_rake : Comp.rake ∈ fl) (h_trace : Comp.trace ∈ fl) (h_irq : Comp.irq ∈ fl) (hk : Frame fl fr s) : Frame fl fr (tryTakeOp e k v s) := by
  unfold tryTakeOp
  repeat' first
    | with_reducible assumption
    | (with_reducible exact Or.inl (by assumption))
    | (with_reducible exact Or.inr rfl)
    | with_reducible apply count_frame
    | with_reducible apply State.setBody_frame
    | with_reducible apply finish_frame
    | with_reducible apply Frame.ite
    | split
    | dsimp only

theorem giveUnits_frame {fl : List Comp} {fr : State} (k : OKey) (v : Sem) (c : DWord) (cause : Cause) (s : State) (h_wins : Comp.wins ∈ fl) (h_aps : Comp.aps ∈ fl) (h_ops : Comp.ops ∈ fl) (h_rows : Comp.rows ∈ fl) (h_waiters : Comp.waiters ∈ fl) (h_spillWakes : Comp.spillWakes ∈ fl) (h_fports : Comp.fports ∈ fl) (h_counters : Comp.counters ∈ fl) (h_gctr : Comp.gctr ∈ fl) (h_rake : Comp.rake ∈ fl) (h_irq : Comp.irq ∈ fl) (hk : Frame fl fr s) : Frame fl fr (giveUnits k v c cause s) := by
  unfold giveUnits
  repeat' first
    | with_reducible assumption
    | (with_reducible exact Or.inl (by assumption))
    | (with_reducible exact Or.inr rfl)
    | with_reducible apply State.setBody_frame
    | with_reducible apply runGrants_frame
    | dsimp only

theorem giveOp_frame {fl : List Comp} {fr : State} (e : OpEntry) (k : OKey) (v : Sem) (s : State) (h_wins : Comp.wins ∈ fl) (h_aps : Comp.aps ∈ fl) (h_ops : Comp.ops ∈ fl) (h_rows : Comp.rows ∈ fl) (h_waiters : Comp.waiters ∈ fl) (h_spillWakes : Comp.spillWakes ∈ fl) (h_fports : Comp.fports ∈ fl) (h_counters : Comp.counters ∈ fl) (h_gctr : Comp.gctr ∈ fl) (h_rake : Comp.rake ∈ fl) (h_trace : Comp.trace ∈ fl) (h_irq : Comp.irq ∈ fl) (hk : Frame fl fr s) : Frame fl fr (giveOp e k v s) := by
  unfold giveOp
  repeat' first
    | with_reducible assumption
    | (with_reducible exact Or.inl (by assumption))
    | (with_reducible exact Or.inr rfl)
    | with_reducible apply count_frame
    | with_reducible apply finish_frame
    | with_reducible apply giveUnits_frame
    | with_reducible apply Frame.ite
    | split
    | dsimp only

theorem setEvent_frame {fl : List Comp} {fr : State} (k : OKey) (v : Event) (agent : AgentId) (node : NodeId) (cause : Cause) (stamp : DWord) (s : State) (h_wins : Comp.wins ∈ fl) (h_aps : Comp.aps ∈ fl) (h_ops : Comp.ops ∈ fl) (h_rows : Comp.rows ∈ fl) (h_waiters : Comp.waiters ∈ fl) (h_spillWakes : Comp.spillWakes ∈ fl) (h_fports : Comp.fports ∈ fl) (h_counters : Comp.counters ∈ fl) (h_gctr : Comp.gctr ∈ fl) (h_rake : Comp.rake ∈ fl) (h_irq : Comp.irq ∈ fl) (h_free : Comp.free ∈ fl) (hk : Frame fl fr s) : Frame fl fr (setEvent k v agent node cause stamp s) := by
  unfold setEvent
  repeat' first
    | with_reducible assumption
    | (with_reducible exact Or.inl (by assumption))
    | (with_reducible exact Or.inr rfl)
    | with_reducible apply State.setBody_frame
    | with_reducible apply wakeAll_frame
    | with_reducible apply takeWaiters_frame
    | (refine takeWaiters_frameE _ _ _ (by assumption) (by assumption) ?_ (by with_reducible assumption))
    | with_reducible apply Frame.ite
    | split
    | dsimp only

theorem signalOp_frame {fl : List Comp} {fr : State} (e : OpEntry) (k : OKey) (v : Event) (s : State) (h_wins : Comp.wins ∈ fl) (h_aps : Comp.aps ∈ fl) (h_ops : Comp.ops ∈ fl) (h_rows : Comp.rows ∈ fl) (h_waiters : Comp.waiters ∈ fl) (h_spillWakes : Comp.spillWakes ∈ fl) (h_fports : Comp.fports ∈ fl) (h_counters : Comp.counters ∈ fl) (h_gctr : Comp.gctr ∈ fl) (h_rake : Comp.rake ∈ fl) (h_trace : Comp.trace ∈ fl) (h_irq : Comp.irq ∈ fl) (h_free : Comp.free ∈ fl) (hk : Frame fl fr s) : Frame fl fr (signalOp e k v s) := by
  unfold signalOp
  repeat' first
    | with_reducible assumption
    | (with_reducible exact Or.inl (by assumption))
    | (with_reducible exact Or.inr rfl)
    | with_reducible apply count_frame
    | with_reducible apply finish_frame
    | with_reducible apply setEvent_frame
    | dsimp only

theorem parkWait_frame {fl : List Comp} {fr : State} (e : OpEntry) (k : OKey) (parity : Bool) (s : State) (h_wins : Comp.wins ∈ fl) (h_ops : Comp.ops ∈ fl) (h_rows : Comp.rows ∈ fl) (h_waiters : Comp.waiters ∈ fl) (h_fports : Comp.fports ∈ fl) (h_counters : Comp.counters ∈ fl) (h_gctr : Comp.gctr ∈ fl) (h_rake : Comp.rake ∈ fl) (h_trace : Comp.trace ∈ fl) (h_irq : Comp.irq ∈ fl) (h_free : Comp.free ∈ fl) (hk : Frame fl fr s) : Frame fl fr (parkWait e k parity s) := by
  unfold parkWait
  repeat' first
    | with_reducible assumption
    | (with_reducible exact Or.inl (by assumption))
    | (with_reducible exact Or.inr rfl)
    | with_reducible apply park_frame
    | with_reducible apply finishParked_frame
    | with_reducible apply Frame.ite
    | split
    | dsimp only

theorem waitEventOp_frame {fl : List Comp} {fr : State} (e : OpEntry) (k : OKey) (v : Event) (s : State) (h_wins : Comp.wins ∈ fl) (h_aps : Comp.aps ∈ fl) (h_ops : Comp.ops ∈ fl) (h_rows : Comp.rows ∈ fl) (h_waiters : Comp.waiters ∈ fl) (h_fports : Comp.fports ∈ fl) (h_counters : Comp.counters ∈ fl) (h_gctr : Comp.gctr ∈ fl) (h_rake : Comp.rake ∈ fl) (h_trace : Comp.trace ∈ fl) (h_irq : Comp.irq ∈ fl) (h_free : Comp.free ∈ fl) (hk : Frame fl fr s) : Frame fl fr (waitEventOp e k v s) := by
  unfold waitEventOp
  repeat' first
    | with_reducible assumption
    | (with_reducible exact Or.inl (by assumption))
    | (with_reducible exact Or.inr rfl)
    | with_reducible apply count_frame
    | with_reducible apply finish_frame
    | with_reducible apply parkWait_frame
    | with_reducible apply Frame.ite
    | split
    | dsimp only

theorem casOp_frame {fl : List Comp} {fr : State} (e : OpEntry) (k : OKey) (c : Cell) (s : State) (h_wins : Comp.wins ∈ fl) (h_aps : Comp.aps ∈ fl) (h_ops : Comp.ops ∈ fl) (h_rows : Comp.rows ∈ fl) (h_fports : Comp.fports ∈ fl) (h_counters : Comp.counters ∈ fl) (h_gctr : Comp.gctr ∈ fl) (h_rake : Comp.rake ∈ fl) (h_trace : Comp.trace ∈ fl) (h_irq : Comp.irq ∈ fl) (hk : Frame fl fr s) : Frame fl fr (casOp e k c s) := by
  unfold casOp
  repeat' first
    | with_reducible assumption
    | (with_reducible exact Or.inl (by assumption))
    | (with_reducible exact Or.inr rfl)
    | with_reducible apply count_frame
    | with_reducible apply State.setBody_frame
    | with_reducible apply finish_frame
    | with_reducible apply Frame.ite
    | split
    | dsimp only

theorem fetchAddOp_frame {fl : List Comp} {fr : State} (e : OpEntry) (k : OKey) (c : Cell) (s : State) (h_wins : Comp.wins ∈ fl) (h_aps : Comp.aps ∈ fl) (h_ops : Comp.ops ∈ fl) (h_rows : Comp.rows ∈ fl) (h_fports : Comp.fports ∈ fl) (h_counters : Comp.counters ∈ fl) (h_gctr : Comp.gctr ∈ fl) (h_rake : Comp.rake ∈ fl) (h_trace : Comp.trace ∈ fl) (h_irq : Comp.irq ∈ fl) (hk : Frame fl fr s) : Frame fl fr (fetchAddOp e k c s) := by
  unfold fetchAddOp
  repeat' first
    | with_reducible assumption
    | (with_reducible exact Or.inl (by assumption))
    | (with_reducible exact Or.inr rfl)
    | with_reducible apply count_frame
    | with_reducible apply State.setBody_frame
    | with_reducible apply finish_frame
    | dsimp only

theorem afterRemoval_frame {fl : List Comp} {fr : State} (k : OKey) (s : State) (h_wins : Comp.wins ∈ fl) (h_aps : Comp.aps ∈ fl) (h_ops : Comp.ops ∈ fl) (h_rows : Comp.rows ∈ fl) (h_waiters : Comp.waiters ∈ fl) (h_spillWakes : Comp.spillWakes ∈ fl) (h_sn : Comp.sn ∈ fl) (h_fports : Comp.fports ∈ fl) (h_counters : Comp.counters ∈ fl) (h_gctr : Comp.gctr ∈ fl) (h_rake : Comp.rake ∈ fl) (h_irq : Comp.irq ∈ fl) (hk : Frame fl fr s) : Frame fl fr (afterRemoval k s) := by
  unfold afterRemoval
  repeat' first
    | with_reducible assumption
    | (with_reducible exact Or.inl (by assumption))
    | (with_reducible exact Or.inr rfl)
    | with_reducible apply lowerInherit_frame
    | with_reducible apply runGrants_frame
    | split
    | dsimp only

theorem wakeConsumers_frame {fl : List Comp} {fr : State} (k : OKey) (i : Nat) (cause : Cause) (s : State) (h_wins : Comp.wins ∈ fl) (h_aps : Comp.aps ∈ fl) (h_ops : Comp.ops ∈ fl) (h_rows : Comp.rows ∈ fl) (h_waiters : Comp.waiters ∈ fl) (h_spillWakes : Comp.spillWakes ∈ fl) (h_fports : Comp.fports ∈ fl) (h_counters : Comp.counters ∈ fl) (h_gctr : Comp.gctr ∈ fl) (h_rake : Comp.rake ∈ fl) (h_irq : Comp.irq ∈ fl) (h_free : Comp.free ∈ fl) (hk : Frame fl fr s) : Frame fl fr (wakeConsumers k i cause s) := by
  unfold wakeConsumers
  repeat' first
    | with_reducible assumption
    | (with_reducible exact Or.inl (by assumption))
    | (with_reducible exact Or.inr rfl)
    | with_reducible apply wakeAll_frame
    | with_reducible apply takeWaiters_frame
    | (refine takeWaiters_frameE _ _ _ (by assumption) (by assumption) ?_ (by with_reducible assumption))
    | split
    | dsimp only

theorem producerLoop_frame {fl : List Comp} {fr : State} (k : OKey) (i : Nat) (cause : Cause) (n : Nat) (h_wins : Comp.wins ∈ fl) (h_aps : Comp.aps ∈ fl) (h_ops : Comp.ops ∈ fl) (h_rows : Comp.rows ∈ fl) (h_waiters : Comp.waiters ∈ fl) (h_spillWakes : Comp.spillWakes ∈ fl) (h_descs : Comp.descs ∈ fl) (h_fports : Comp.fports ∈ fl) (h_counters : Comp.counters ∈ fl) (h_gctr : Comp.gctr ∈ fl) (h_rake : Comp.rake ∈ fl) (h_irq : Comp.irq ∈ fl) : ∀ (s : State), Frame fl fr s → Frame fl fr (producerLoop k i cause n s) := by
  induction n with
  | zero => intro s hk; unfold producerLoop; exact hk
  | succ n ih =>
    intro s hk
    unfold producerLoop
    repeat' first
      | with_reducible assumption
      | (with_reducible exact Or.inl (by assumption))
      | (with_reducible exact Or.inr rfl)
      | with_reducible apply ih
      | with_reducible apply count_frame
      | with_reducible apply unpark_frame
      | with_reducible apply State.setDesc_frame
      | with_reducible apply wakeWaiter_frame
      | with_reducible apply Frame.ite
      | split
      | dsimp only

theorem runProducers_frame {fl : List Comp} {fr : State} (k : OKey) (i : Nat) (cause : Cause) (s : State) (h_wins : Comp.wins ∈ fl) (h_aps : Comp.aps ∈ fl) (h_ops : Comp.ops ∈ fl) (h_rows : Comp.rows ∈ fl) (h_waiters : Comp.waiters ∈ fl) (h_spillWakes : Comp.spillWakes ∈ fl) (h_descs : Comp.descs ∈ fl) (h_fports : Comp.fports ∈ fl) (h_counters : Comp.counters ∈ fl) (h_gctr : Comp.gctr ∈ fl) (h_rake : Comp.rake ∈ fl) (h_irq : Comp.irq ∈ fl) (hk : Frame fl fr s) : Frame fl fr (runProducers k i cause s) := by
  unfold runProducers
  repeat' first
    | with_reducible assumption
    | (with_reducible exact Or.inl (by assumption))
    | (with_reducible exact Or.inr rfl)
    | with_reducible apply producerLoop_frame
    | with_reducible apply Frame.ite
    | split
    | dsimp only

theorem closeWindow_frame {fl : List Comp} {fr : State} (k : OKey) (i : Nat) (s : State) (h_rows : Comp.rows ∈ fl) (h_descs : Comp.descs ∈ fl) (hk : Frame fl fr s) : Frame fl fr (closeWindow k i s) := by
  unfold closeWindow
  repeat' first
    | with_reducible assumption
    | (with_reducible exact Or.inl (by assumption))
    | (with_reducible exact Or.inr rfl)
    | with_reducible apply State.setBody_frame
    | with_reducible apply State.setDesc_frame
    | with_reducible apply Frame.ite
    | split
    | dsimp only

theorem closeAt_frame {fl : List Comp} {fr : State} (k : OKey) (s : State) (h_rows : Comp.rows ∈ fl) (h_descs : Comp.descs ∈ fl) (hk : Frame fl fr s) : Frame fl fr (closeAt k s) := by
  unfold closeAt
  repeat' first
    | with_reducible assumption
    | (with_reducible exact Or.inl (by assumption))
    | (with_reducible exact Or.inr rfl)
    | with_reducible apply closeWindow_frame
    | split
    | dsimp only

theorem reserveOp_frame {fl : List Comp} {fr : State} (e : OpEntry) (k : OKey) (i : Nat) (d : Desc) (s : State) (h_wins : Comp.wins ∈ fl) (h_aps : Comp.aps ∈ fl) (h_ops : Comp.ops ∈ fl) (h_rows : Comp.rows ∈ fl) (h_waiters : Comp.waiters ∈ fl) (h_descs : Comp.descs ∈ fl) (h_fports : Comp.fports ∈ fl) (h_counters : Comp.counters ∈ fl) (h_gctr : Comp.gctr ∈ fl) (h_rake : Comp.rake ∈ fl) (h_trace : Comp.trace ∈ fl) (h_irq : Comp.irq ∈ fl) (h_free : Comp.free ∈ fl) (hk : Frame fl fr s) : Frame fl fr (reserveOp e k i d s) := by
  unfold reserveOp
  repeat' first
    | with_reducible assumption
    | (with_reducible exact Or.inl (by assumption))
    | (with_reducible exact Or.inr rfl)
    | with_reducible apply count_frame
    | with_reducible apply park_frame
    | with_reducible apply State.setDesc_frame
    | with_reducible apply finish_frame
    | with_reducible apply finishParked_frame
    | with_reducible apply Frame.ite
    | split
    | dsimp only

theorem commitRsv_frame {fl : List Comp} {fr : State} (k : OKey) (i : Nat) (r : Rsv) (cause : Cause) (s : State) (h_wins : Comp.wins ∈ fl) (h_aps : Comp.aps ∈ fl) (h_ops : Comp.ops ∈ fl) (h_rows : Comp.rows ∈ fl) (h_waiters : Comp.waiters ∈ fl) (h_spillWakes : Comp.spillWakes ∈ fl) (h_descs : Comp.descs ∈ fl) (h_fports : Comp.fports ∈ fl) (h_counters : Comp.counters ∈ fl) (h_gctr : Comp.gctr ∈ fl) (h_rake : Comp.rake ∈ fl) (h_irq : Comp.irq ∈ fl) (h_free : Comp.free ∈ fl) (hk : Frame fl fr s) : Frame fl fr (commitRsv k i r cause s) := by
  unfold commitRsv
  repeat' first
    | with_reducible assumption
    | (with_reducible exact Or.inl (by assumption))
    | (with_reducible exact Or.inr rfl)
    | with_reducible apply count_frame
    | with_reducible apply State.setDesc_frame
    | with_reducible apply wakeConsumers_frame
    | with_reducible apply runProducers_frame
    | with_reducible apply closeWindow_frame
    | with_reducible apply Frame.ite
    | split
    | dsimp only

theorem addHeld_frame {fl : List Comp} {fr : State} (h : Held) (s : State) (h_rows : Comp.rows ∈ fl) (h_heldq : Comp.heldq ∈ fl) (hk : Frame fl fr s) : Frame fl fr (addHeld h s) := by
  unfold addHeld
  repeat' first
    | with_reducible assumption
    | (with_reducible exact Or.inl (by assumption))
    | (with_reducible exact Or.inr rfl)
    | with_reducible apply State.modLcu_frame
    | with_reducible apply syncHdr_frame
    | dsimp only

theorem commitOp_frame {fl : List Comp} {fr : State} (e : OpEntry) (k : OKey) (i : Nat) (d : Desc) (s : State) (h_wins : Comp.wins ∈ fl) (h_aps : Comp.aps ∈ fl) (h_ops : Comp.ops ∈ fl) (h_rows : Comp.rows ∈ fl) (h_waiters : Comp.waiters ∈ fl) (h_spillWakes : Comp.spillWakes ∈ fl) (h_descs : Comp.descs ∈ fl) (h_heldq : Comp.heldq ∈ fl) (h_fports : Comp.fports ∈ fl) (h_counters : Comp.counters ∈ fl) (h_gctr : Comp.gctr ∈ fl) (h_rake : Comp.rake ∈ fl) (h_trace : Comp.trace ∈ fl) (h_irq : Comp.irq ∈ fl) (h_free : Comp.free ∈ fl) (hk : Frame fl fr s) : Frame fl fr (commitOp e k i d s) := by
  unfold commitOp
  repeat' first
    | with_reducible assumption
    | (with_reducible exact Or.inl (by assumption))
    | (with_reducible exact Or.inr rfl)
    | with_reducible apply State.setBody_frame
    | with_reducible apply finish_frame
    | with_reducible apply commitRsv_frame
    | with_reducible apply addHeld_frame
    | with_reducible apply Frame.ite
    | split
    | dsimp only

theorem waitAvailOp_frame {fl : List Comp} {fr : State} (e : OpEntry) (k : OKey) (d : Desc) (s : State) (h_wins : Comp.wins ∈ fl) (h_aps : Comp.aps ∈ fl) (h_ops : Comp.ops ∈ fl) (h_rows : Comp.rows ∈ fl) (h_waiters : Comp.waiters ∈ fl) (h_fports : Comp.fports ∈ fl) (h_counters : Comp.counters ∈ fl) (h_gctr : Comp.gctr ∈ fl) (h_rake : Comp.rake ∈ fl) (h_trace : Comp.trace ∈ fl) (h_irq : Comp.irq ∈ fl) (h_free : Comp.free ∈ fl) (hk : Frame fl fr s) : Frame fl fr (waitAvailOp e k d s) := by
  unfold waitAvailOp
  repeat' first
    | with_reducible assumption
    | (with_reducible exact Or.inl (by assumption))
    | (with_reducible exact Or.inr rfl)
    | with_reducible apply count_frame
    | with_reducible apply park_frame
    | with_reducible apply finish_frame
    | with_reducible apply finishParked_frame
    | with_reducible apply Frame.ite
    | split
    | dsimp only

theorem releaseOp_frame {fl : List Comp} {fr : State} (e : OpEntry) (k : OKey) (i : Nat) (d : Desc) (s : State) (h_wins : Comp.wins ∈ fl) (h_aps : Comp.aps ∈ fl) (h_ops : Comp.ops ∈ fl) (h_rows : Comp.rows ∈ fl) (h_waiters : Comp.waiters ∈ fl) (h_spillWakes : Comp.spillWakes ∈ fl) (h_descs : Comp.descs ∈ fl) (h_fports : Comp.fports ∈ fl) (h_counters : Comp.counters ∈ fl) (h_gctr : Comp.gctr ∈ fl) (h_rake : Comp.rake ∈ fl) (h_trace : Comp.trace ∈ fl) (h_irq : Comp.irq ∈ fl) (h_free : Comp.free ∈ fl) (hk : Frame fl fr s) : Frame fl fr (releaseOp e k i d s) := by
  unfold releaseOp
  repeat' first
    | with_reducible assumption
    | (with_reducible exact Or.inl (by assumption))
    | (with_reducible exact Or.inr rfl)
    | with_reducible apply count_frame
    | with_reducible apply State.setDesc_frame
    | with_reducible apply finish_frame
    | with_reducible apply wakeConsumers_frame
    | with_reducible apply runProducers_frame
    | with_reducible apply closeWindow_frame
    | with_reducible apply Frame.ite
    | split
    | dsimp only

theorem cancelRsv_frame {fl : List Comp} {fr : State} (k : OKey) (h : DWord) (cause : Cause) (s : State) (h_wins : Comp.wins ∈ fl) (h_aps : Comp.aps ∈ fl) (h_ops : Comp.ops ∈ fl) (h_rows : Comp.rows ∈ fl) (h_waiters : Comp.waiters ∈ fl) (h_spillWakes : Comp.spillWakes ∈ fl) (h_descs : Comp.descs ∈ fl) (h_fports : Comp.fports ∈ fl) (h_counters : Comp.counters ∈ fl) (h_gctr : Comp.gctr ∈ fl) (h_rake : Comp.rake ∈ fl) (h_irq : Comp.irq ∈ fl) (h_free : Comp.free ∈ fl) (hk : Frame fl fr s) : Frame fl fr (cancelRsv k h cause s) := by
  unfold cancelRsv
  repeat' first
    | with_reducible assumption
    | (with_reducible exact Or.inl (by assumption))
    | (with_reducible exact Or.inr rfl)
    | with_reducible apply State.setDesc_frame
    | with_reducible apply wakeConsumers_frame
    | with_reducible apply runProducers_frame
    | with_reducible apply closeWindow_frame
    | with_reducible apply Frame.ite
    | split
    | dsimp only

theorem ringAfterRemoval_frame {fl : List Comp} {fr : State} (k : OKey) (s : State) (h_wins : Comp.wins ∈ fl) (h_aps : Comp.aps ∈ fl) (h_ops : Comp.ops ∈ fl) (h_rows : Comp.rows ∈ fl) (h_waiters : Comp.waiters ∈ fl) (h_spillWakes : Comp.spillWakes ∈ fl) (h_descs : Comp.descs ∈ fl) (h_fports : Comp.fports ∈ fl) (h_counters : Comp.counters ∈ fl) (h_gctr : Comp.gctr ∈ fl) (h_rake : Comp.rake ∈ fl) (h_irq : Comp.irq ∈ fl) (hk : Frame fl fr s) : Frame fl fr (ringAfterRemoval k s) := by
  unfold ringAfterRemoval
  repeat' first
    | with_reducible assumption
    | (with_reducible exact Or.inl (by assumption))
    | (with_reducible exact Or.inr rfl)
    | with_reducible apply runProducers_frame
    | split
    | dsimp only

theorem afterLeaving_frame {fl : List Comp} {fr : State} (k : OKey) (prod : Bool) (s : State) (h_wins : Comp.wins ∈ fl) (h_aps : Comp.aps ∈ fl) (h_ops : Comp.ops ∈ fl) (h_rows : Comp.rows ∈ fl) (h_waiters : Comp.waiters ∈ fl) (h_spillWakes : Comp.spillWakes ∈ fl) (h_descs : Comp.descs ∈ fl) (h_sn : Comp.sn ∈ fl) (h_fports : Comp.fports ∈ fl) (h_counters : Comp.counters ∈ fl) (h_gctr : Comp.gctr ∈ fl) (h_rake : Comp.rake ∈ fl) (h_irq : Comp.irq ∈ fl) (hk : Frame fl fr s) : Frame fl fr (afterLeaving k prod s) := by
  unfold afterLeaving
  repeat' first
    | with_reducible assumption
    | (with_reducible exact Or.inl (by assumption))
    | (with_reducible exact Or.inr rfl)
    | with_reducible apply afterRemoval_frame
    | with_reducible apply ringAfterRemoval_frame
    | with_reducible apply Frame.ite
    | split
    | dsimp only

theorem dumpRequest_frame {fl : List Comp} {fr : State} (k : OKey) (held part' : Bool) (epoch : BitVec 16) (tag : Word) (miss cnt : BitVec 16) (value : Option DWord) (s : State) (h_wins : Comp.wins ∈ fl) (h_parts : Comp.parts ∈ fl) (h_sn : Comp.sn ∈ fl) (h_counters : Comp.counters ∈ fl) (hk : Frame fl fr s) : Frame fl fr (dumpRequest k held part' epoch tag miss cnt value s).2 := by
  unfold dumpRequest
  repeat' first
    | with_reducible assumption
    | (with_reducible exact Or.inl (by assumption))
    | (with_reducible exact Or.inr rfl)
    | with_reducible apply State.modPart_frame
    | with_reducible apply snManage_frame
    | dsimp only

theorem dumpRequest_frameE {fl : List Comp} {fr : State} (k : OKey) (held part' : Bool) (epoch : BitVec 16) (tag : Word) (miss cnt : BitVec 16) (value : Option DWord) (s : State) {kv} {kt : State} (h_wins : Comp.wins ∈ fl) (h_parts : Comp.parts ∈ fl) (h_sn : Comp.sn ∈ fl) (h_counters : Comp.counters ∈ fl) (hk : Frame fl fr s) (he : dumpRequest k held part' epoch tag miss cnt value s = (kv, kt)) : Frame fl fr kt := by
  have h := dumpRequest_frame (fl := fl) (fr := fr) k held part' epoch tag miss cnt value s h_wins h_parts h_sn h_counters hk
  rw [he] at h; exact h

theorem endWatch_frame {fl : List Comp} {fr : State} (k : OKey) (s : State) (h_rows : Comp.rows ∈ fl) (h_watches : Comp.watches ∈ fl) (hk : Frame fl fr s) : Frame fl fr (endWatch k s) := by
  unfold endWatch
  repeat' first
    | with_reducible assumption
    | (with_reducible exact Or.inl (by assumption))
    | (with_reducible exact Or.inr rfl)
    | with_reducible apply State.modObs_frame
    | with_reducible apply State.modHdr_frame
    | dsimp only

theorem sendTreeRel_frame {fl : List Comp} {fr : State} (id : AgentId) (t : Tree) (epoch : BitVec 16) (st : Byte) (v : DWord) (s : State) (h_fports : Comp.fports ∈ fl) (h_gctr : Comp.gctr ∈ fl) (h_rake : Comp.rake ∈ fl) (h_irq : Comp.irq ∈ fl) (hk : Frame fl fr s) : Frame fl fr (sendTreeRel id t epoch st v s) := by
  unfold sendTreeRel
  repeat' first
    | with_reducible assumption
    | (with_reducible exact Or.inl (by assumption))
    | (with_reducible exact Or.inr rfl)
    | with_reducible apply fabSend_frame
    | with_reducible apply Frame.ite
    | (with_reducible refine Frame.foldl (fun _ _ _ => ?_) ?_)
    | split
    | dsimp only

theorem delDeadline_frame {fl : List Comp} {fr : State} (k : OKey) (epoch : BitVec 16) (s : State) (h_deadlines : Comp.deadlines ∈ fl) (hk : Frame fl fr s) : Frame fl fr (delDeadline k epoch s) := by
  unfold delDeadline
  repeat' first
    | with_reducible assumption
    | (with_reducible exact Or.inl (by assumption))
    | (with_reducible exact Or.inr rfl)
    | with_reducible apply State.modTdu_frame
    | dsimp only

theorem releaseBarrier_frame {fl : List Comp} {fr : State} (k : OKey) (b : Barrier) (part : Bool) (res : DWord) (cause : Cause) (s : State) (h_wins : Comp.wins ∈ fl) (h_parts : Comp.parts ∈ fl) (h_aps : Comp.aps ∈ fl) (h_ops : Comp.ops ∈ fl) (h_rows : Comp.rows ∈ fl) (h_waiters : Comp.waiters ∈ fl) (h_records : Comp.records ∈ fl) (h_early : Comp.early ∈ fl) (h_spillWakes : Comp.spillWakes ∈ fl) (h_deadlines : Comp.deadlines ∈ fl) (h_sn : Comp.sn ∈ fl) (h_fports : Comp.fports ∈ fl) (h_trees : Comp.trees ∈ fl) (h_counters : Comp.counters ∈ fl) (h_gctr : Comp.gctr ∈ fl) (h_rake : Comp.rake ∈ fl) (h_watches : Comp.watches ∈ fl) (h_irq : Comp.irq ∈ fl) (h_free : Comp.free ∈ fl) (hk : Frame fl fr s) : Frame fl fr (releaseBarrier k b part res cause s) := by
  unfold releaseBarrier
  repeat' first
    | with_reducible assumption
    | (with_reducible exact Or.inl (by assumption))
    | (with_reducible exact Or.inr rfl)
    | with_reducible apply State.setTree_frame
    | with_reducible apply count_frame
    | with_reducible apply State.setBody_frame
    | with_reducible apply setRecord_frame
    | with_reducible apply dropEarly_frame
    | with_reducible apply wakeAll_frame
    | with_reducible apply takeWaiters_frame
    | (refine takeWaiters_frameE _ _ _ (by assumption) (by assumption) ?_ (by with_reducible assumption))
    | with_reducible apply dumpRequest_frame
    | (refine dumpRequest_frameE _ _ _ _ _ _ _ _ _ (by assumption) (by assumption) (by assumption) (by assumption) ?_ (by with_reducible assumption))
    | with_reducible apply endWatch_frame
    | with_reducible apply sendTreeRel_frame
    | with_reducible apply delDeadline_frame
    | with_reducible apply Frame.ite
    | split
    | dsimp only

theorem releaseGroup_frame {fl : List Comp} {fr : State} (k : OKey) (g : Group) (cause : Cause) (s : State) (h_wins : Comp.wins ∈ fl) (h_parts : Comp.parts ∈ fl) (h_aps : Comp.aps ∈ fl) (h_ops : Comp.ops ∈ fl) (h_rows : Comp.rows ∈ fl) (h_waiters : Comp.waiters ∈ fl) (h_spillWakes : Comp.spillWakes ∈ fl) (h_sn : Comp.sn ∈ fl) (h_fports : Comp.fports ∈ fl) (h_counters : Comp.counters ∈ fl) (h_gctr : Comp.gctr ∈ fl) (h_rake : Comp.rake ∈ fl) (h_watches : Comp.watches ∈ fl) (h_irq : Comp.irq ∈ fl) (h_free : Comp.free ∈ fl) (hk : Frame fl fr s) : Frame fl fr (releaseGroup k g cause s) := by
  unfold releaseGroup
  repeat' first
    | with_reducible assumption
    | (with_reducible exact Or.inl (by assumption))
    | (with_reducible exact Or.inr rfl)
    | with_reducible apply count_frame
    | with_reducible apply State.setBody_frame
    | with_reducible apply wakeAll_frame
    | with_reducible apply takeWaiters_frame
    | (refine takeWaiters_frameE _ _ _ (by assumption) (by assumption) ?_ (by with_reducible assumption))
    | with_reducible apply dumpRequest_frame
    | (refine dumpRequest_frameE _ _ _ _ _ _ _ _ _ (by assumption) (by assumption) (by assumption) (by assumption) ?_ (by with_reducible assumption))
    | with_reducible apply endWatch_frame
    | with_reducible apply Frame.ite
    | split
    | dsimp only

theorem sendCombine_frame {fl : List Comp} {fr : State} (id : AgentId) (t : Tree) (b : Barrier) (s : State) (h_fports : Comp.fports ∈ fl) (h_gctr : Comp.gctr ∈ fl) (h_rake : Comp.rake ∈ fl) (h_irq : Comp.irq ∈ fl) (hk : Frame fl fr s) : Frame fl fr (sendCombine id t b s) := by
  unfold sendCombine
  repeat' first
    | with_reducible assumption
    | (with_reducible exact Or.inl (by assumption))
    | (with_reducible exact Or.inr rfl)
    | with_reducible apply fabSend_frame
    | dsimp only

theorem completeOpen_frame {fl : List Comp} {fr : State} (k : OKey) (b : Barrier) (res : DWord) (cause : Cause) (tree : Option (AgentId × Tree)) (s : State) (h_wins : Comp.wins ∈ fl) (h_parts : Comp.parts ∈ fl) (h_aps : Comp.aps ∈ fl) (h_ops : Comp.ops ∈ fl) (h_rows : Comp.rows ∈ fl) (h_waiters : Comp.waiters ∈ fl) (h_records : Comp.records ∈ fl) (h_early : Comp.early ∈ fl) (h_spillWakes : Comp.spillWakes ∈ fl) (h_deadlines : Comp.deadlines ∈ fl) (h_sn : Comp.sn ∈ fl) (h_fports : Comp.fports ∈ fl) (h_trees : Comp.trees ∈ fl) (h_counters : Comp.counters ∈ fl) (h_gctr : Comp.gctr ∈ fl) (h_rake : Comp.rake ∈ fl) (h_watches : Comp.watches ∈ fl) (h_irq : Comp.irq ∈ fl) (h_free : Comp.free ∈ fl) (hk : Frame fl fr s) : Frame fl fr (completeOpen k b res cause tree s).2 := by
  unfold completeOpen
  repeat' first
    | with_reducible assumption
    | (with_reducible exact Or.inl (by assumption))
    | (with_reducible exact Or.inr rfl)
    | with_reducible apply State.setTree_frame
    | with_reducible apply releaseBarrier_frame
    | with_reducible apply Frame.ite
    | split
    | dsimp only

theorem completeOpen_frameE {fl : List Comp} {fr : State} (k : OKey) (b : Barrier) (res : DWord) (cause : Cause) (tree : Option (AgentId × Tree)) (s : State) {kv} {kt : State} (h_wins : Comp.wins ∈ fl) (h_parts : Comp.parts ∈ fl) (h_aps : Comp.aps ∈ fl) (h_ops : Comp.ops ∈ fl) (h_rows : Comp.rows ∈ fl) (h_waiters : Comp.waiters ∈ fl) (h_records : Comp.records ∈ fl) (h_early : Comp.early ∈ fl) (h_spillWakes : Comp.spillWakes ∈ fl) (h_deadlines : Comp.deadlines ∈ fl) (h_sn : Comp.sn ∈ fl) (h_fports : Comp.fports ∈ fl) (h_trees : Comp.trees ∈ fl) (h_counters : Comp.counters ∈ fl) (h_gctr : Comp.gctr ∈ fl) (h_rake : Comp.rake ∈ fl) (h_watches : Comp.watches ∈ fl) (h_irq : Comp.irq ∈ fl) (h_free : Comp.free ∈ fl) (hk : Frame fl fr s) (he : completeOpen k b res cause tree s = (kv, kt)) : Frame fl fr kt := by
  have h := completeOpen_frame (fl := fl) (fr := fr) k b res cause tree s h_wins h_parts h_aps h_ops h_rows h_waiters h_records h_early h_spillWakes h_deadlines h_sn h_fports h_trees h_counters h_gctr h_rake h_watches h_irq h_free hk
  rw [he] at h; exact h

theorem completeHold_frame {fl : List Comp} {fr : State} (k : OKey) (b : Barrier) (cause : Cause) (tree : Option (AgentId × Tree)) (s : State) (h_wins : Comp.wins ∈ fl) (h_parts : Comp.parts ∈ fl) (h_aps : Comp.aps ∈ fl) (h_ops : Comp.ops ∈ fl) (h_rows : Comp.rows ∈ fl) (h_waiters : Comp.waiters ∈ fl) (h_records : Comp.records ∈ fl) (h_early : Comp.early ∈ fl) (h_spillWakes : Comp.spillWakes ∈ fl) (h_deadlines : Comp.deadlines ∈ fl) (h_sn : Comp.sn ∈ fl) (h_fports : Comp.fports ∈ fl) (h_trees : Comp.trees ∈ fl) (h_counters : Comp.counters ∈ fl) (h_gctr : Comp.gctr ∈ fl) (h_rake : Comp.rake ∈ fl) (h_watches : Comp.watches ∈ fl) (h_irq : Comp.irq ∈ fl) (h_free : Comp.free ∈ fl) (hk : Frame fl fr s) : Frame fl fr (completeHold k b cause tree s).2 := by
  unfold completeHold
  repeat' first
    | with_reducible assumption
    | (with_reducible exact Or.inl (by assumption))
    | (with_reducible exact Or.inr rfl)
    | with_reducible apply State.modObs_frame
    | with_reducible apply State.setBody_frame
    | with_reducible apply dumpRequest_frame
    | (refine dumpRequest_frameE _ _ _ _ _ _ _ _ _ (by assumption) (by assumption) (by assumption) (by assumption) ?_ (by with_reducible assumption))
    | with_reducible apply completeOpen_frame
    | (refine completeOpen_frameE _ _ _ _ _ _ (by assumption) (by assumption) (by assumption) (by assumption) (by assumption) (by assumption) (by assumption) (by assumption) (by assumption) (by assumption) (by assumption) (by assumption) (by assumption) (by assumption) (by assumption) (by assumption) (by assumption) (by assumption) (by assumption) ?_ (by with_reducible assumption))
    | with_reducible apply Frame.ite
    | split
    | dsimp only

theorem completeHold_frameE {fl : List Comp} {fr : State} (k : OKey) (b : Barrier) (cause : Cause) (tree : Option (AgentId × Tree)) (s : State) {kv} {kt : State} (h_wins : Comp.wins ∈ fl) (h_parts : Comp.parts ∈ fl) (h_aps : Comp.aps ∈ fl) (h_ops : Comp.ops ∈ fl) (h_rows : Comp.rows ∈ fl) (h_waiters : Comp.waiters ∈ fl) (h_records : Comp.records ∈ fl) (h_early : Comp.early ∈ fl) (h_spillWakes : Comp.spillWakes ∈ fl) (h_deadlines : Comp.deadlines ∈ fl) (h_sn : Comp.sn ∈ fl) (h_fports : Comp.fports ∈ fl) (h_trees : Comp.trees ∈ fl) (h_counters : Comp.counters ∈ fl) (h_gctr : Comp.gctr ∈ fl) (h_rake : Comp.rake ∈ fl) (h_watches : Comp.watches ∈ fl) (h_irq : Comp.irq ∈ fl) (h_free : Comp.free ∈ fl) (hk : Frame fl fr s) (he : completeHold k b cause tree s = (kv, kt)) : Frame fl fr kt := by
  have h := completeHold_frame (fl := fl) (fr := fr) k b cause tree s h_wins h_parts h_aps h_ops h_rows h_waiters h_records h_early h_spillWakes h_deadlines h_sn h_fports h_trees h_counters h_gctr h_rake h_watches h_irq h_free hk
  rw [he] at h; exact h

theorem completeBarrier_frame {fl : List Comp} {fr : State} (k : OKey) (b : Barrier) (cause : Cause) (s : State) (h_wins : Comp.wins ∈ fl) (h_parts : Comp.parts ∈ fl) (h_aps : Comp.aps ∈ fl) (h_ops : Comp.ops ∈ fl) (h_rows : Comp.rows ∈ fl) (h_waiters : Comp.waiters ∈ fl) (h_records : Comp.records ∈ fl) (h_early : Comp.early ∈ fl) (h_spillWakes : Comp.spillWakes ∈ fl) (h_deadlines : Comp.deadlines ∈ fl) (h_sn : Comp.sn ∈ fl) (h_fports : Comp.fports ∈ fl) (h_trees : Comp.trees ∈ fl) (h_counters : Comp.counters ∈ fl) (h_gctr : Comp.gctr ∈ fl) (h_rake : Comp.rake ∈ fl) (h_watches : Comp.watches ∈ fl) (h_irq : Comp.irq ∈ fl) (h_free : Comp.free ∈ fl) (hk : Frame fl fr s) : Frame fl fr (completeBarrier k b cause s).2 := by
  unfold completeBarrier
  repeat' first
    | with_reducible assumption
    | (with_reducible exact Or.inl (by assumption))
    | (with_reducible exact Or.inr rfl)
    | with_reducible apply State.setTree_frame
    | with_reducible apply sendCombine_frame
    | with_reducible apply completeHold_frame
    | (refine completeHold_frameE _ _ _ _ _ (by assumption) (by assumption) (by assumption) (by assumption) (by assumption) (by assumption) (by assumption) (by assumption) (by assumption) (by assumption) (by assumption) (by assumption) (by assumption) (by assumption) (by assumption) (by assumption) (by assumption) (by assumption) (by assumption) ?_ (by with_reducible assumption))
    | with_reducible apply Frame.ite
    | split
    | dsimp only

theorem completeBarrier_frameE {fl : List Comp} {fr : State} (k : OKey) (b : Barrier) (cause : Cause) (s : State) {kv} {kt : State} (h_wins : Comp.wins ∈ fl) (h_parts : Comp.parts ∈ fl) (h_aps : Comp.aps ∈ fl) (h_ops : Comp.ops ∈ fl) (h_rows : Comp.rows ∈ fl) (h_waiters : Comp.waiters ∈ fl) (h_records : Comp.records ∈ fl) (h_early : Comp.early ∈ fl) (h_spillWakes : Comp.spillWakes ∈ fl) (h_deadlines : Comp.deadlines ∈ fl) (h_sn : Comp.sn ∈ fl) (h_fports : Comp.fports ∈ fl) (h_trees : Comp.trees ∈ fl) (h_counters : Comp.counters ∈ fl) (h_gctr : Comp.gctr ∈ fl) (h_rake : Comp.rake ∈ fl) (h_watches : Comp.watches ∈ fl) (h_irq : Comp.irq ∈ fl) (h_free : Comp.free ∈ fl) (hk : Frame fl fr s) (he : completeBarrier k b cause s = (kv, kt)) : Frame fl fr kt := by
  have h := completeBarrier_frame (fl := fl) (fr := fr) k b cause s h_wins h_parts h_aps h_ops h_rows h_waiters h_records h_early h_spillWakes h_deadlines h_sn h_fports h_trees h_counters h_gctr h_rake h_watches h_irq h_free hk
  rw [he] at h; exact h

theorem countArrival_frame {fl : List Comp} {fr : State} (e : OpEntry) (s : State) (h_wins : Comp.wins ∈ fl) (h_counters : Comp.counters ∈ fl) (hk : Frame fl fr s) : Frame fl fr (countArrival e s) := by
  unfold countArrival
  repeat' first
    | with_reducible assumption
    | (with_reducible exact Or.inl (by assumption))
    | (with_reducible exact Or.inr rfl)
    | with_reducible apply count_frame
    | with_reducible apply Frame.ite
    | split
    | dsimp only

theorem countFold_frame {fl : List Comp} {fr : State} (e : OpEntry) (b : Barrier) (valid : Bool) (acc : DWord) (s : State) (h_wins : Comp.wins ∈ fl) (h_counters : Comp.counters ∈ fl) (hk : Frame fl fr s) : Frame fl fr (countFold e b valid acc s) := by
  unfold countFold
  repeat' first
    | with_reducible assumption
    | (with_reducible exact Or.inl (by assumption))
    | (with_reducible exact Or.inr rfl)
    | with_reducible apply count_frame
    | with_reducible apply Frame.ite
    | split
    | dsimp only

theorem arriveCurrent_frame {fl : List Comp} {fr : State} (e : OpEntry) (k : OKey) (b : Barrier) (s : State) (h_wins : Comp.wins ∈ fl) (h_parts : Comp.parts ∈ fl) (h_aps : Comp.aps ∈ fl) (h_ops : Comp.ops ∈ fl) (h_rows : Comp.rows ∈ fl) (h_waiters : Comp.waiters ∈ fl) (h_records : Comp.records ∈ fl) (h_early : Comp.early ∈ fl) (h_spillWakes : Comp.spillWakes ∈ fl) (h_deadlines : Comp.deadlines ∈ fl) (h_sn : Comp.sn ∈ fl) (h_fports : Comp.fports ∈ fl) (h_trees : Comp.trees ∈ fl) (h_counters : Comp.counters ∈ fl) (h_gctr : Comp.gctr ∈ fl) (h_rake : Comp.rake ∈ fl) (h_trace : Comp.trace ∈ fl) (h_watches : Comp.watches ∈ fl) (h_irq : Comp.irq ∈ fl) (h_free : Comp.free ∈ fl) (hk : Frame fl fr s) : Frame fl fr (arriveCurrent e k b s) := by
  unfold arriveCurrent
  repeat' first
    | with_reducible assumption
    | (with_reducible exact Or.inl (by assumption))
    | (with_reducible exact Or.inr rfl)
    | with_reducible apply State.setBody_frame
    | with_reducible apply setRecord_frame
    | with_reducible apply finish_frame
    | with_reducible apply parkWait_frame
    | with_reducible apply completeBarrier_frame
    | (refine completeBarrier_frameE _ _ _ _ (by assumption) (by assumption) (by assumption) (by assumption) (by assumption) (by assumption) (by assumption) (by assumption) (by assumption) (by assumption) (by assumption) (by assumption) (by assumption) (by assumption) (by assumption) (by assumption) (by assumption) (by assumption) (by assumption) ?_ (by with_reducible assumption))
    | with_reducible apply countArrival_frame
    | with_reducible apply countFold_frame
    | with_reducible apply Frame.ite
    | split
    | dsimp only

theorem arriveEarly_frame {fl : List Comp} {fr : State} (e : OpEntry) (k : OKey) (b : Barrier) (s : State) (h_wins : Comp.wins ∈ fl) (h_aps : Comp.aps ∈ fl) (h_ops : Comp.ops ∈ fl) (h_rows : Comp.rows ∈ fl) (h_waiters : Comp.waiters ∈ fl) (h_records : Comp.records ∈ fl) (h_early : Comp.early ∈ fl) (h_fports : Comp.fports ∈ fl) (h_counters : Comp.counters ∈ fl) (h_gctr : Comp.gctr ∈ fl) (h_rake : Comp.rake ∈ fl) (h_trace : Comp.trace ∈ fl) (h_irq : Comp.irq ∈ fl) (h_free : Comp.free ∈ fl) (hk : Frame fl fr s) : Frame fl fr (arriveEarly e k b s) := by
  unfold arriveEarly
  repeat' first
    | with_reducible assumption
    | (with_reducible exact Or.inl (by assumption))
    | (with_reducible exact Or.inr rfl)
    | with_reducible apply State.setBody_frame
    | with_reducible apply setRecord_frame
    | with_reducible apply setEarly_frame
    | with_reducible apply finish_frame
    | with_reducible apply parkWait_frame
    | with_reducible apply countArrival_frame
    | with_reducible apply countFold_frame
    | with_reducible apply Frame.ite
    | split
    | dsimp only

theorem arriveLate_frame {fl : List Comp} {fr : State} (e : OpEntry) (b : Barrier) (s : State) (h_wins : Comp.wins ∈ fl) (h_aps : Comp.aps ∈ fl) (h_ops : Comp.ops ∈ fl) (h_fports : Comp.fports ∈ fl) (h_counters : Comp.counters ∈ fl) (h_gctr : Comp.gctr ∈ fl) (h_rake : Comp.rake ∈ fl) (h_trace : Comp.trace ∈ fl) (h_irq : Comp.irq ∈ fl) (hk : Frame fl fr s) : Frame fl fr (arriveLate e b s) := by
  unfold arriveLate
  repeat' first
    | with_reducible assumption
    | (with_reducible exact Or.inl (by assumption))
    | (with_reducible exact Or.inr rfl)
    | with_reducible apply finish_frame
    | with_reducible apply countArrival_frame
    | with_reducible apply Frame.ite
    | split
    | dsimp only

theorem arriveBarrier_frame {fl : List Comp} {fr : State} (e : OpEntry) (k : OKey) (h : ObjHdr) (b : Barrier) (s : State) (h_wins : Comp.wins ∈ fl) (h_parts : Comp.parts ∈ fl) (h_aps : Comp.aps ∈ fl) (h_ops : Comp.ops ∈ fl) (h_rows : Comp.rows ∈ fl) (h_waiters : Comp.waiters ∈ fl) (h_records : Comp.records ∈ fl) (h_early : Comp.early ∈ fl) (h_spillWakes : Comp.spillWakes ∈ fl) (h_deadlines : Comp.deadlines ∈ fl) (h_sn : Comp.sn ∈ fl) (h_fports : Comp.fports ∈ fl) (h_trees : Comp.trees ∈ fl) (h_counters : Comp.counters ∈ fl) (h_gctr : Comp.gctr ∈ fl) (h_rake : Comp.rake ∈ fl) (h_trace : Comp.trace ∈ fl) (h_watches : Comp.watches ∈ fl) (h_irq : Comp.irq ∈ fl) (h_free : Comp.free ∈ fl) (hk : Frame fl fr s) : Frame fl fr (arriveBarrier e k h b s) := by
  unfold arriveBarrier
  repeat' first
    | with_reducible assumption
    | (with_reducible exact Or.inl (by assumption))
    | (with_reducible exact Or.inr rfl)
    | with_reducible apply finish_frame
    | with_reducible apply arriveCurrent_frame
    | with_reducible apply arriveEarly_frame
    | with_reducible apply arriveLate_frame
    | with_reducible apply Frame.ite
    | split
    | dsimp only

theorem arriveGroup_frame {fl : List Comp} {fr : State} (e : OpEntry) (k : OKey) (g : Group) (s : State) (h_wins : Comp.wins ∈ fl) (h_parts : Comp.parts ∈ fl) (h_aps : Comp.aps ∈ fl) (h_ops : Comp.ops ∈ fl) (h_rows : Comp.rows ∈ fl) (h_waiters : Comp.waiters ∈ fl) (h_spillWakes : Comp.spillWakes ∈ fl) (h_sn : Comp.sn ∈ fl) (h_fports : Comp.fports ∈ fl) (h_counters : Comp.counters ∈ fl) (h_gctr : Comp.gctr ∈ fl) (h_rake : Comp.rake ∈ fl) (h_trace : Comp.trace ∈ fl) (h_watches : Comp.watches ∈ fl) (h_irq : Comp.irq ∈ fl) (h_free : Comp.free ∈ fl) (hk : Frame fl fr s) : Frame fl fr (arriveGroup e k g s) := by
  unfold arriveGroup
  repeat' first
    | with_reducible assumption
    | (with_reducible exact Or.inl (by assumption))
    | (with_reducible exact Or.inr rfl)
    | with_reducible apply State.setBody_frame
    | with_reducible apply finish_frame
    | with_reducible apply parkWait_frame
    | with_reducible apply releaseGroup_frame
    | with_reducible apply countArrival_frame
    | with_reducible apply Frame.ite
    | split
    | dsimp only

theorem waitBarrierOp_frame {fl : List Comp} {fr : State} (e : OpEntry) (k : OKey) (b : Barrier) (s : State) (h_wins : Comp.wins ∈ fl) (h_aps : Comp.aps ∈ fl) (h_ops : Comp.ops ∈ fl) (h_rows : Comp.rows ∈ fl) (h_waiters : Comp.waiters ∈ fl) (h_fports : Comp.fports ∈ fl) (h_counters : Comp.counters ∈ fl) (h_gctr : Comp.gctr ∈ fl) (h_rake : Comp.rake ∈ fl) (h_trace : Comp.trace ∈ fl) (h_irq : Comp.irq ∈ fl) (h_free : Comp.free ∈ fl) (hk : Frame fl fr s) : Frame fl fr (waitBarrierOp e k b s) := by
  unfold waitBarrierOp
  repeat' first
    | with_reducible assumption
    | (with_reducible exact Or.inl (by assumption))
    | (with_reducible exact Or.inr rfl)
    | with_reducible apply count_frame
    | with_reducible apply finish_frame
    | with_reducible apply parkWait_frame
    | with_reducible apply Frame.ite
    | split
    | dsimp only

theorem waitGroupOp_frame {fl : List Comp} {fr : State} (e : OpEntry) (k : OKey) (g : Group) (s : State) (h_wins : Comp.wins ∈ fl) (h_aps : Comp.aps ∈ fl) (h_ops : Comp.ops ∈ fl) (h_rows : Comp.rows ∈ fl) (h_waiters : Comp.waiters ∈ fl) (h_fports : Comp.fports ∈ fl) (h_counters : Comp.counters ∈ fl) (h_gctr : Comp.gctr ∈ fl) (h_rake : Comp.rake ∈ fl) (h_trace : Comp.trace ∈ fl) (h_irq : Comp.irq ∈ fl) (h_free : Comp.free ∈ fl) (hk : Frame fl fr s) : Frame fl fr (waitGroupOp e k g s) := by
  unfold waitGroupOp
  repeat' first
    | with_reducible assumption
    | (with_reducible exact Or.inl (by assumption))
    | (with_reducible exact Or.inr rfl)
    | with_reducible apply count_frame
    | with_reducible apply finish_frame
    | with_reducible apply parkWait_frame
    | with_reducible apply Frame.ite
    | split
    | dsimp only

theorem readMissingOp_frame {fl : List Comp} {fr : State} (e : OpEntry) (k : OKey) (o : Obj) (s : State) (h_wins : Comp.wins ∈ fl) (h_aps : Comp.aps ∈ fl) (h_ops : Comp.ops ∈ fl) (h_fports : Comp.fports ∈ fl) (h_counters : Comp.counters ∈ fl) (h_gctr : Comp.gctr ∈ fl) (h_rake : Comp.rake ∈ fl) (h_trace : Comp.trace ∈ fl) (h_irq : Comp.irq ∈ fl) (hk : Frame fl fr s) : Frame fl fr (readMissingOp e k o s) := by
  unfold readMissingOp
  repeat' first
    | with_reducible assumption
    | (with_reducible exact Or.inl (by assumption))
    | (with_reducible exact Or.inr rfl)
    | with_reducible apply count_frame
    | with_reducible apply finish_frame
    | with_reducible apply Frame.ite
    | split
    | dsimp only

theorem deadlineArmOp_frame {fl : List Comp} {fr : State} (e : OpEntry) (k : OKey) (h : ObjHdr) (b : Barrier) (s : State) (h_wins : Comp.wins ∈ fl) (h_aps : Comp.aps ∈ fl) (h_ops : Comp.ops ∈ fl) (h_rows : Comp.rows ∈ fl) (h_deadlines : Comp.deadlines ∈ fl) (h_fports : Comp.fports ∈ fl) (h_counters : Comp.counters ∈ fl) (h_gctr : Comp.gctr ∈ fl) (h_rake : Comp.rake ∈ fl) (h_trace : Comp.trace ∈ fl) (h_irq : Comp.irq ∈ fl) (hk : Frame fl fr s) : Frame fl fr (deadlineArmOp e k h b s) := by
  unfold deadlineArmOp
  repeat' first
    | with_reducible assumption
    | (with_reducible exact Or.inl (by assumption))
    | (with_reducible exact Or.inr rfl)
    | with_reducible apply State.modTdu_frame
    | with_reducible apply State.setBody_frame
    | with_reducible apply finish_frame
    | with_reducible apply delDeadline_frame
    | with_reducible apply Frame.ite
    | split
    | dsimp only

theorem expireDeadline_frame {fl : List Comp} {fr : State} (k : OKey) (epoch : Nat) (s : State) (h_wins : Comp.wins ∈ fl) (h_parts : Comp.parts ∈ fl) (h_aps : Comp.aps ∈ fl) (h_ops : Comp.ops ∈ fl) (h_rows : Comp.rows ∈ fl) (h_waiters : Comp.waiters ∈ fl) (h_records : Comp.records ∈ fl) (h_early : Comp.early ∈ fl) (h_spillWakes : Comp.spillWakes ∈ fl) (h_deadlines : Comp.deadlines ∈ fl) (h_sn : Comp.sn ∈ fl) (h_fports : Comp.fports ∈ fl) (h_trees : Comp.trees ∈ fl) (h_counters : Comp.counters ∈ fl) (h_gctr : Comp.gctr ∈ fl) (h_rake : Comp.rake ∈ fl) (h_trace : Comp.trace ∈ fl) (h_watches : Comp.watches ∈ fl) (h_irq : Comp.irq ∈ fl) (h_free : Comp.free ∈ fl) (hk : Frame fl fr s) : Frame fl fr (expireDeadline k epoch s) := by
  unfold expireDeadline
  repeat' first
    | with_reducible assumption
    | (with_reducible exact Or.inl (by assumption))
    | (with_reducible exact Or.inr rfl)
    | with_reducible apply State.modTdu_frame
    | with_reducible apply traceInner_frame
    | with_reducible apply delDeadline_frame
    | with_reducible apply releaseBarrier_frame
    | with_reducible apply Frame.ite
    | split
    | dsimp only

theorem combineFlit_frame {fl : List Comp} {fr : State} (id : AgentId) (src : NodeId) (epoch : BitVec 16) (slot : BitVec 3) (valid : Bool) (a : DWord) (s : State) (h_wins : Comp.wins ∈ fl) (h_parts : Comp.parts ∈ fl) (h_aps : Comp.aps ∈ fl) (h_ops : Comp.ops ∈ fl) (h_rows : Comp.rows ∈ fl) (h_waiters : Comp.waiters ∈ fl) (h_records : Comp.records ∈ fl) (h_early : Comp.early ∈ fl) (h_spillWakes : Comp.spillWakes ∈ fl) (h_deadlines : Comp.deadlines ∈ fl) (h_sn : Comp.sn ∈ fl) (h_fports : Comp.fports ∈ fl) (h_trees : Comp.trees ∈ fl) (h_counters : Comp.counters ∈ fl) (h_gctr : Comp.gctr ∈ fl) (h_rake : Comp.rake ∈ fl) (h_watches : Comp.watches ∈ fl) (h_irq : Comp.irq ∈ fl) (h_free : Comp.free ∈ fl) (hk : Frame fl fr s) : Frame fl fr (combineFlit id src epoch slot valid a s) := by
  unfold combineFlit
  repeat' first
    | with_reducible assumption
    | (with_reducible exact Or.inl (by assumption))
    | (with_reducible exact Or.inr rfl)
    | with_reducible apply State.setTree_frame
    | with_reducible apply count_frame
    | with_reducible apply gcount_frame
    | with_reducible apply State.setBody_frame
    | with_reducible apply completeBarrier_frame
    | (refine completeBarrier_frameE _ _ _ _ (by assumption) (by assumption) (by assumption) (by assumption) (by assumption) (by assumption) (by assumption) (by assumption) (by assumption) (by assumption) (by assumption) (by assumption) (by assumption) (by assumption) (by assumption) (by assumption) (by assumption) (by assumption) (by assumption) ?_ (by with_reducible assumption))
    | with_reducible apply Frame.ite
    | split
    | dsimp only

theorem treeRelFlit_frame {fl : List Comp} {fr : State} (id : AgentId) (src : NodeId) (epoch : BitVec 16) (st : Byte) (v : DWord) (s : State) (h_wins : Comp.wins ∈ fl) (h_parts : Comp.parts ∈ fl) (h_aps : Comp.aps ∈ fl) (h_ops : Comp.ops ∈ fl) (h_rows : Comp.rows ∈ fl) (h_waiters : Comp.waiters ∈ fl) (h_records : Comp.records ∈ fl) (h_early : Comp.early ∈ fl) (h_spillWakes : Comp.spillWakes ∈ fl) (h_deadlines : Comp.deadlines ∈ fl) (h_sn : Comp.sn ∈ fl) (h_fports : Comp.fports ∈ fl) (h_trees : Comp.trees ∈ fl) (h_counters : Comp.counters ∈ fl) (h_gctr : Comp.gctr ∈ fl) (h_rake : Comp.rake ∈ fl) (h_watches : Comp.watches ∈ fl) (h_irq : Comp.irq ∈ fl) (h_free : Comp.free ∈ fl) (hk : Frame fl fr s) : Frame fl fr (treeRelFlit id src epoch st v s) := by
  unfold treeRelFlit
  repeat' first
    | with_reducible assumption
    | (with_reducible exact Or.inl (by assumption))
    | (with_reducible exact Or.inr rfl)
    | with_reducible apply gcount_frame
    | with_reducible apply State.setBody_frame
    | with_reducible apply releaseBarrier_frame
    | with_reducible apply Frame.ite
    | split
    | dsimp only

theorem clearHoldStitch_frame {fl : List Comp} {fr : State} (id : AgentId) (s : State) (h_wins : Comp.wins ∈ fl) (h_parts : Comp.parts ∈ fl) (h_aps : Comp.aps ∈ fl) (h_ops : Comp.ops ∈ fl) (h_rows : Comp.rows ∈ fl) (h_waiters : Comp.waiters ∈ fl) (h_records : Comp.records ∈ fl) (h_early : Comp.early ∈ fl) (h_spillWakes : Comp.spillWakes ∈ fl) (h_deadlines : Comp.deadlines ∈ fl) (h_sn : Comp.sn ∈ fl) (h_fports : Comp.fports ∈ fl) (h_trees : Comp.trees ∈ fl) (h_counters : Comp.counters ∈ fl) (h_gctr : Comp.gctr ∈ fl) (h_rake : Comp.rake ∈ fl) (h_watches : Comp.watches ∈ fl) (h_irq : Comp.irq ∈ fl) (h_free : Comp.free ∈ fl) (hk : Frame fl fr s) : Frame fl fr (clearHoldStitch id s) := by
  unfold clearHoldStitch
  repeat' first
    | with_reducible assumption
    | (with_reducible exact Or.inl (by assumption))
    | (with_reducible exact Or.inr rfl)
    | with_reducible apply State.setTree_frame
    | with_reducible apply releaseBarrier_frame
    | split
    | dsimp only

theorem releaseWatched_frame {fl : List Comp} {fr : State} (k : OKey) (s : State) (h_wins : Comp.wins ∈ fl) (h_parts : Comp.parts ∈ fl) (h_aps : Comp.aps ∈ fl) (h_ops : Comp.ops ∈ fl) (h_rows : Comp.rows ∈ fl) (h_waiters : Comp.waiters ∈ fl) (h_records : Comp.records ∈ fl) (h_early : Comp.early ∈ fl) (h_spillWakes : Comp.spillWakes ∈ fl) (h_deadlines : Comp.deadlines ∈ fl) (h_sn : Comp.sn ∈ fl) (h_fports : Comp.fports ∈ fl) (h_trees : Comp.trees ∈ fl) (h_counters : Comp.counters ∈ fl) (h_gctr : Comp.gctr ∈ fl) (h_rake : Comp.rake ∈ fl) (h_watches : Comp.watches ∈ fl) (h_irq : Comp.irq ∈ fl) (h_free : Comp.free ∈ fl) (hk : Frame fl fr s) : Frame fl fr (releaseWatched k s) := by
  unfold releaseWatched
  repeat' first
    | with_reducible assumption
    | (with_reducible exact Or.inl (by assumption))
    | (with_reducible exact Or.inr rfl)
    | with_reducible apply endWatch_frame
    | with_reducible apply completeBarrier_frame
    | (refine completeBarrier_frameE _ _ _ _ (by assumption) (by assumption) (by assumption) (by assumption) (by assumption) (by assumption) (by assumption) (by assumption) (by assumption) (by assumption) (by assumption) (by assumption) (by assumption) (by assumption) (by assumption) (by assumption) (by assumption) (by assumption) (by assumption) ?_ (by with_reducible assumption))
    | with_reducible apply Frame.ite
    | split
    | dsimp only

theorem writeTack_frame {fl : List Comp} {fr : State} (r : TackRec) (s : State) (h_mem : Comp.mem ∈ fl) (h_mmPort : Comp.mmPort ∈ fl) (hk : Frame fl fr s) : Frame fl fr (writeTack r s) := by
  unfold writeTack
  repeat' first
    | with_reducible assumption
    | (with_reducible exact Or.inl (by assumption))
    | (with_reducible exact Or.inr rfl)
    | with_reducible apply mmWrite_frame
    | dsimp only

theorem zeroTack_frame {fl : List Comp} {fr : State} (r : TackRec) (s : State) (h_mem : Comp.mem ∈ fl) (h_mmPort : Comp.mmPort ∈ fl) (hk : Frame fl fr s) : Frame fl fr (zeroTack r s) := by
  unfold zeroTack
  repeat' first
    | with_reducible assumption
    | (with_reducible exact Or.inl (by assumption))
    | (with_reducible exact Or.inr rfl)
    | with_reducible apply mmRequest_frame
    | with_reducible apply memZero_frame
    | dsimp only

theorem modTack_frame {fl : List Comp} {fr : State} (p : PartId) (c : CtxId) (f : TackRec → TackRec) (s : State) (h_tack : Comp.tack ∈ fl) (hk : Frame fl fr s) : Frame fl fr (modTack p c f s) := by
  unfold modTack
  repeat' first
    | with_reducible assumption
    | (with_reducible exact Or.inl (by assumption))
    | (with_reducible exact Or.inr rfl)
    | with_reducible apply State.modCtm_frame
    | dsimp only

theorem deferWork_frame {fl : List Comp} {fr : State} (kind : Byte) (k : OKey) (agent : AgentId) (node : NodeId) (value time : DWord) (s : State) (h_tack : Comp.tack ∈ fl) (h_mem : Comp.mem ∈ fl) (h_mmPort : Comp.mmPort ∈ fl) (hk : Frame fl fr s) : Frame fl fr (deferWork kind k agent node value time s) := by
  unfold deferWork
  repeat' first
    | with_reducible assumption
    | (with_reducible exact Or.inl (by assumption))
    | (with_reducible exact Or.inr rfl)
    | with_reducible apply writeTack_frame
    | with_reducible apply modTack_frame
    | with_reducible apply Frame.ite
    | split
    | dsimp only

theorem afterLeave_frame {fl : List Comp} {fr : State} (k : OKey) (prod : Bool) (s : State) (h_wins : Comp.wins ∈ fl) (h_aps : Comp.aps ∈ fl) (h_ops : Comp.ops ∈ fl) (h_rows : Comp.rows ∈ fl) (h_waiters : Comp.waiters ∈ fl) (h_spillWakes : Comp.spillWakes ∈ fl) (h_descs : Comp.descs ∈ fl) (h_sn : Comp.sn ∈ fl) (h_tack : Comp.tack ∈ fl) (h_fports : Comp.fports ∈ fl) (h_counters : Comp.counters ∈ fl) (h_gctr : Comp.gctr ∈ fl) (h_rake : Comp.rake ∈ fl) (h_irq : Comp.irq ∈ fl) (h_mem : Comp.mem ∈ fl) (h_mmPort : Comp.mmPort ∈ fl) (hk : Frame fl fr s) : Frame fl fr (afterLeave k prod s) := by
  unfold afterLeave
  repeat' first
    | with_reducible assumption
    | (with_reducible exact Or.inl (by assumption))
    | (with_reducible exact Or.inr rfl)
    | with_reducible apply afterLeaving_frame
    | with_reducible apply deferWork_frame
    | with_reducible apply Frame.ite
    | split
    | dsimp only

theorem abandonAt_frame {fl : List Comp} {fr : State} (k : OKey) (node : NodeId) (agent : AgentId) (seq : BitVec 36) (s : State) (h_wins : Comp.wins ∈ fl) (h_aps : Comp.aps ∈ fl) (h_ops : Comp.ops ∈ fl) (h_rows : Comp.rows ∈ fl) (h_waiters : Comp.waiters ∈ fl) (h_spillWakes : Comp.spillWakes ∈ fl) (h_holdings : Comp.holdings ∈ fl) (h_fences : Comp.fences ∈ fl) (h_leases : Comp.leases ∈ fl) (h_sn : Comp.sn ∈ fl) (h_tack : Comp.tack ∈ fl) (h_fports : Comp.fports ∈ fl) (h_counters : Comp.counters ∈ fl) (h_gctr : Comp.gctr ∈ fl) (h_rake : Comp.rake ∈ fl) (h_irq : Comp.irq ∈ fl) (h_mem : Comp.mem ∈ fl) (h_mmPort : Comp.mmPort ∈ fl) (hk : Frame fl fr s) : Frame fl fr (abandonAt k node agent seq s) := by
  unfold abandonAt
  repeat' first
    | with_reducible assumption
    | (with_reducible exact Or.inl (by assumption))
    | (with_reducible exact Or.inr rfl)
    | with_reducible apply abandonLock_frame
    | with_reducible apply deferWork_frame
    | with_reducible apply Frame.ite
    | split
    | dsimp only

theorem cancelAt_frame {fl : List Comp} {fr : State} (k : OKey) (h : DWord) (cause : Cause) (s : State) (h_wins : Comp.wins ∈ fl) (h_aps : Comp.aps ∈ fl) (h_ops : Comp.ops ∈ fl) (h_rows : Comp.rows ∈ fl) (h_waiters : Comp.waiters ∈ fl) (h_spillWakes : Comp.spillWakes ∈ fl) (h_descs : Comp.descs ∈ fl) (h_tack : Comp.tack ∈ fl) (h_fports : Comp.fports ∈ fl) (h_counters : Comp.counters ∈ fl) (h_gctr : Comp.gctr ∈ fl) (h_rake : Comp.rake ∈ fl) (h_irq : Comp.irq ∈ fl) (h_mem : Comp.mem ∈ fl) (h_mmPort : Comp.mmPort ∈ fl) (h_free : Comp.free ∈ fl) (hk : Frame fl fr s) : Frame fl fr (cancelAt k h cause s) := by
  unfold cancelAt
  repeat' first
    | with_reducible assumption
    | (with_reducible exact Or.inl (by assumption))
    | (with_reducible exact Or.inr rfl)
    | with_reducible apply cancelRsv_frame
    | with_reducible apply deferWork_frame
    | with_reducible apply Frame.ite
    | split
    | dsimp only

theorem undoGive_frame {fl : List Comp} {fr : State} (k : OKey) (units : DWord) (s : State) (h_wins : Comp.wins ∈ fl) (h_aps : Comp.aps ∈ fl) (h_ops : Comp.ops ∈ fl) (h_rows : Comp.rows ∈ fl) (h_waiters : Comp.waiters ∈ fl) (h_spillWakes : Comp.spillWakes ∈ fl) (h_tack : Comp.tack ∈ fl) (h_fports : Comp.fports ∈ fl) (h_counters : Comp.counters ∈ fl) (h_gctr : Comp.gctr ∈ fl) (h_rake : Comp.rake ∈ fl) (h_irq : Comp.irq ∈ fl) (h_mem : Comp.mem ∈ fl) (h_mmPort : Comp.mmPort ∈ fl) (hk : Frame fl fr s) : Frame fl fr (undoGive k units s) := by
  unfold undoGive
  repeat' first
    | with_reducible assumption
    | (with_reducible exact Or.inl (by assumption))
    | (with_reducible exact Or.inr rfl)
    | with_reducible apply count_frame
    | with_reducible apply giveUnits_frame
    | with_reducible apply deferWork_frame
    | with_reducible apply Frame.ite
    | split
    | dsimp only

theorem wakeBank_frame {fl : List Comp} {fr : State} (b : Nat) (s : State) (h_banks : Comp.banks ∈ fl) (hk : Frame fl fr s) : Frame fl fr (wakeBank b s) := by
  unfold wakeBank
  repeat' first
    | with_reducible assumption
    | (with_reducible exact Or.inl (by assumption))
    | (with_reducible exact Or.inr rfl)
    | with_reducible apply State.modObk_frame
    | with_reducible apply Frame.ite
    | split
    | dsimp only

theorem wakeSlot_frame {fl : List Comp} {fr : State} (k : OKey) (s : State) (h_banks : Comp.banks ∈ fl) (hk : Frame fl fr s) : Frame fl fr (wakeSlot k s) := by
  unfold wakeSlot
  repeat' first
    | with_reducible assumption
    | (with_reducible exact Or.inl (by assumption))
    | (with_reducible exact Or.inr rfl)
    | with_reducible apply wakeBank_frame
    | with_reducible apply Frame.ite
    | split
    | dsimp only

theorem fetchFor_frame {fl : List Comp} {fr : State} (op : Op) (k : OKey) (s : State) (h_fetching : Comp.fetching ∈ fl) (hk : Frame fl fr s) : Frame fl fr (fetchFor op k s) := by
  unfold fetchFor
  repeat' first
    | with_reducible assumption
    | (with_reducible exact Or.inl (by assumption))
    | (with_reducible exact Or.inr rfl)
    | with_reducible apply State.modWmc_frame
    | with_reducible apply Frame.ite
    | split
    | dsimp only

theorem askFor_frame {fl : List Comp} {fr : State} (k : OKey) (s : State) (h_banks : Comp.banks ∈ fl) (h_fetching : Comp.fetching ∈ fl) (hk : Frame fl fr s) : Frame fl fr (askFor k s) := by
  unfold askFor
  repeat' first
    | with_reducible assumption
    | (with_reducible exact Or.inl (by assumption))
    | (with_reducible exact Or.inr rfl)
    | with_reducible apply wakeSlot_frame
    | with_reducible apply fetchFor_frame
    | dsimp only

theorem expireDeadlineAt_frame {fl : List Comp} {fr : State} (d : Due) (s : State) (h_wins : Comp.wins ∈ fl) (h_parts : Comp.parts ∈ fl) (h_aps : Comp.aps ∈ fl) (h_ops : Comp.ops ∈ fl) (h_rows : Comp.rows ∈ fl) (h_waiters : Comp.waiters ∈ fl) (h_records : Comp.records ∈ fl) (h_early : Comp.early ∈ fl) (h_spillWakes : Comp.spillWakes ∈ fl) (h_deadlines : Comp.deadlines ∈ fl) (h_sn : Comp.sn ∈ fl) (h_tack : Comp.tack ∈ fl) (h_fports : Comp.fports ∈ fl) (h_trees : Comp.trees ∈ fl) (h_counters : Comp.counters ∈ fl) (h_gctr : Comp.gctr ∈ fl) (h_rake : Comp.rake ∈ fl) (h_trace : Comp.trace ∈ fl) (h_watches : Comp.watches ∈ fl) (h_irq : Comp.irq ∈ fl) (h_mem : Comp.mem ∈ fl) (h_mmPort : Comp.mmPort ∈ fl) (h_free : Comp.free ∈ fl) (hk : Frame fl fr s) : Frame fl fr (expireDeadlineAt d s) := by
  unfold expireDeadlineAt
  repeat' first
    | with_reducible assumption
    | (with_reducible exact Or.inl (by assumption))
    | (with_reducible exact Or.inr rfl)
    | with_reducible apply State.modTdu_frame
    | with_reducible apply expireDeadline_frame
    | with_reducible apply deferWork_frame
    | with_reducible apply Frame.ite
    | split
    | dsimp only

theorem expireLeaseAt_frame {fl : List Comp} {fr : State} (d : Due) (s : State) (h_wins : Comp.wins ∈ fl) (h_aps : Comp.aps ∈ fl) (h_ops : Comp.ops ∈ fl) (h_rows : Comp.rows ∈ fl) (h_waiters : Comp.waiters ∈ fl) (h_spillWakes : Comp.spillWakes ∈ fl) (h_holdings : Comp.holdings ∈ fl) (h_fences : Comp.fences ∈ fl) (h_leases : Comp.leases ∈ fl) (h_sn : Comp.sn ∈ fl) (h_tack : Comp.tack ∈ fl) (h_fports : Comp.fports ∈ fl) (h_counters : Comp.counters ∈ fl) (h_gctr : Comp.gctr ∈ fl) (h_rake : Comp.rake ∈ fl) (h_trace : Comp.trace ∈ fl) (h_irq : Comp.irq ∈ fl) (h_mem : Comp.mem ∈ fl) (h_mmPort : Comp.mmPort ∈ fl) (hk : Frame fl fr s) : Frame fl fr (expireLeaseAt d s) := by
  unfold expireLeaseAt
  repeat' first
    | with_reducible assumption
    | (with_reducible exact Or.inl (by assumption))
    | (with_reducible exact Or.inr rfl)
    | with_reducible apply State.modTdu_frame
    | with_reducible apply expireLease_frame
    | with_reducible apply deferWork_frame
    | with_reducible apply Frame.ite
    | split
    | dsimp only

theorem secUp_frame {fl : List Comp} {fr : State} (p : PartId) (s : State) (h_parts : Comp.parts ∈ fl) (hk : Frame fl fr s) : Frame fl fr (secUp p s) := by
  unfold secUp
  repeat' first
    | with_reducible assumption
    | (with_reducible exact Or.inl (by assumption))
    | (with_reducible exact Or.inr rfl)
    | with_reducible apply State.modPart_frame
    | dsimp only

theorem secDown_frame {fl : List Comp} {fr : State} (p : PartId) (s : State) (h_parts : Comp.parts ∈ fl) (hk : Frame fl fr s) : Frame fl fr (secDown p s) := by
  unfold secDown
  repeat' first
    | with_reducible assumption
    | (with_reducible exact Or.inl (by assumption))
    | (with_reducible exact Or.inr rfl)
    | with_reducible apply State.modPart_frame
    | dsimp only

theorem landExpectOp_frame {fl : List Comp} {fr : State} (e : OpEntry) (k : OKey) (l : Landing) (s : State) (h_wins : Comp.wins ∈ fl) (h_parts : Comp.parts ∈ fl) (h_aps : Comp.aps ∈ fl) (h_ops : Comp.ops ∈ fl) (h_rows : Comp.rows ∈ fl) (h_arming : Comp.arming ∈ fl) (h_fports : Comp.fports ∈ fl) (h_counters : Comp.counters ∈ fl) (h_gctr : Comp.gctr ∈ fl) (h_rake : Comp.rake ∈ fl) (h_trace : Comp.trace ∈ fl) (h_irq : Comp.irq ∈ fl) (hk : Frame fl fr s) : Frame fl fr (landExpectOp e k l s) := by
  unfold landExpectOp
  repeat' first
    | with_reducible assumption
    | (with_reducible exact Or.inl (by assumption))
    | (with_reducible exact Or.inr rfl)
    | with_reducible apply State.modLcu_frame
    | with_reducible apply count_frame
    | with_reducible apply report_frame
    | with_reducible apply State.setBody_frame
    | with_reducible apply finish_frame
    | with_reducible apply secUp_frame
    | with_reducible apply Frame.ite
    | split
    | dsimp only

theorem handToLcu_frame {fl : List Comp} {fr : State} (e : OpEntry) (s : State) (h_wins : Comp.wins ∈ fl) (h_aps : Comp.aps ∈ fl) (h_ops : Comp.ops ∈ fl) (h_fports : Comp.fports ∈ fl) (h_counters : Comp.counters ∈ fl) (h_gctr : Comp.gctr ∈ fl) (h_rake : Comp.rake ∈ fl) (h_trace : Comp.trace ∈ fl) (h_irq : Comp.irq ∈ fl) (hk : Frame fl fr s) : Frame fl fr (handToLcu e s) := by
  unfold handToLcu
  repeat' first
    | with_reducible assumption
    | (with_reducible exact Or.inl (by assumption))
    | (with_reducible exact Or.inr rfl)
    | with_reducible apply traceOp_frame
    | with_reducible apply answerFreed_frame
    | with_reducible apply finish_frame
    | split
    | dsimp only

theorem signalAfterOp_frame {fl : List Comp} {fr : State} (e : OpEntry) (k : OKey) (l : Landing) (s : State) (h_wins : Comp.wins ∈ fl) (h_aps : Comp.aps ∈ fl) (h_ops : Comp.ops ∈ fl) (h_rows : Comp.rows ∈ fl) (h_heldq : Comp.heldq ∈ fl) (h_fports : Comp.fports ∈ fl) (h_counters : Comp.counters ∈ fl) (h_gctr : Comp.gctr ∈ fl) (h_rake : Comp.rake ∈ fl) (h_trace : Comp.trace ∈ fl) (h_irq : Comp.irq ∈ fl) (hk : Frame fl fr s) : Frame fl fr (signalAfterOp e k l s) := by
  unfold signalAfterOp
  repeat' first
    | with_reducible assumption
    | (with_reducible exact Or.inl (by assumption))
    | (with_reducible exact Or.inr rfl)
    | with_reducible apply count_frame
    | with_reducible apply State.setBody_frame
    | with_reducible apply finish_frame
    | with_reducible apply addHeld_frame
    | with_reducible apply handToLcu_frame
    | with_reducible apply Frame.ite
    | split
    | dsimp only

theorem postHeld_frame {fl : List Comp} {fr : State} (k : OKey) (s : State) (h_rows : Comp.rows ∈ fl) (h_heldq : Comp.heldq ∈ fl) (hk : Frame fl fr s) : Frame fl fr (postHeld k s) := by
  unfold postHeld
  repeat' first
    | with_reducible assumption
    | (with_reducible exact Or.inl (by assumption))
    | (with_reducible exact Or.inr rfl)
    | with_reducible apply State.modLcu_frame
    | with_reducible apply State.setBody_frame
    | with_reducible apply syncHdr_frame
    | with_reducible apply Frame.ite
    | split
    | dsimp only

theorem dropHeld_frame {fl : List Comp} {fr : State} (h : Held) (s : State) (h_rows : Comp.rows ∈ fl) (h_heldq : Comp.heldq ∈ fl) (hk : Frame fl fr s) : Frame fl fr (dropHeld h s) := by
  unfold dropHeld
  repeat' first
    | with_reducible assumption
    | (with_reducible exact Or.inl (by assumption))
    | (with_reducible exact Or.inr rfl)
    | with_reducible apply State.modLcu_frame
    | with_reducible apply syncHdr_frame
    | dsimp only

theorem heldFailed_frame {fl : List Comp} {fr : State} (h : Held) (st : Status) (s : State) (h_wins : Comp.wins ∈ fl) (h_counters : Comp.counters ∈ fl) (h_gctr : Comp.gctr ∈ fl) (h_rake : Comp.rake ∈ fl) (h_irq : Comp.irq ∈ fl) (hk : Frame fl fr s) : Frame fl fr (heldFailed h st s) := by
  unfold heldFailed
  repeat' first
    | with_reducible assumption
    | (with_reducible exact Or.inl (by assumption))
    | (with_reducible exact Or.inr rfl)
    | with_reducible apply count_frame
    | with_reducible apply countStatus_frame
    | with_reducible apply report_frame
    | with_reducible apply Frame.ite
    | split
    | dsimp only

theorem performHeldSignal_frame {fl : List Comp} {fr : State} (h : Held) (s : State) (h_wins : Comp.wins ∈ fl) (h_aps : Comp.aps ∈ fl) (h_ops : Comp.ops ∈ fl) (h_rows : Comp.rows ∈ fl) (h_waiters : Comp.waiters ∈ fl) (h_spillWakes : Comp.spillWakes ∈ fl) (h_fports : Comp.fports ∈ fl) (h_counters : Comp.counters ∈ fl) (h_gctr : Comp.gctr ∈ fl) (h_rake : Comp.rake ∈ fl) (h_trace : Comp.trace ∈ fl) (h_irq : Comp.irq ∈ fl) (h_free : Comp.free ∈ fl) (hk : Frame fl fr s) : Frame fl fr (performHeldSignal h s) := by
  unfold performHeldSignal
  repeat' first
    | with_reducible assumption
    | (with_reducible exact Or.inl (by assumption))
    | (with_reducible exact Or.inr rfl)
    | with_reducible apply count_frame
    | with_reducible apply traceInner_frame
    | with_reducible apply giveUnits_frame
    | with_reducible apply setEvent_frame
    | with_reducible apply heldFailed_frame
    | with_reducible apply Frame.ite
    | split
    | dsimp only

theorem performHeldCommit_frame {fl : List Comp} {fr : State} (h : Held) (s : State) (h_wins : Comp.wins ∈ fl) (h_aps : Comp.aps ∈ fl) (h_ops : Comp.ops ∈ fl) (h_rows : Comp.rows ∈ fl) (h_waiters : Comp.waiters ∈ fl) (h_spillWakes : Comp.spillWakes ∈ fl) (h_descs : Comp.descs ∈ fl) (h_fports : Comp.fports ∈ fl) (h_counters : Comp.counters ∈ fl) (h_gctr : Comp.gctr ∈ fl) (h_rake : Comp.rake ∈ fl) (h_trace : Comp.trace ∈ fl) (h_irq : Comp.irq ∈ fl) (h_free : Comp.free ∈ fl) (hk : Frame fl fr s) : Frame fl fr (performHeldCommit h s) := by
  unfold performHeldCommit
  repeat' first
    | with_reducible assumption
    | (with_reducible exact Or.inl (by assumption))
    | (with_reducible exact Or.inr rfl)
    | with_reducible apply count_frame
    | with_reducible apply traceInner_frame
    | with_reducible apply closeAt_frame
    | with_reducible apply commitRsv_frame
    | with_reducible apply heldFailed_frame
    | with_reducible apply Frame.ite
    | split
    | dsimp only

theorem wakeHeld_frame {fl : List Comp} {fr : State} (commit : Bool) (s : State) (h_banks : Comp.banks ∈ fl) (h_fetching : Comp.fetching ∈ fl) (hk : Frame fl fr s) : Frame fl fr (wakeHeld commit s) := by
  unfold wakeHeld
  repeat' first
    | with_reducible assumption
    | (with_reducible exact Or.inl (by assumption))
    | (with_reducible exact Or.inr rfl)
    | with_reducible apply wakeSlot_frame
    | with_reducible apply fetchFor_frame
    | with_reducible apply Frame.ite
    | (with_reducible refine Frame.foldl (fun _ _ _ => ?_) ?_)
    | split
    | dsimp only

theorem lnReport_frame {fl : List Comp} {fr : State} (c : Report) (ch : LnChan) (part : PartId) (tag : BitVec 16) (s : State) (h_wins : Comp.wins ∈ fl) (h_counters : Comp.counters ∈ fl) (h_gctr : Comp.gctr ∈ fl) (h_rake : Comp.rake ∈ fl) (h_irq : Comp.irq ∈ fl) (hk : Frame fl fr s) : Frame fl fr (lnReport c ch part tag s) := by
  unfold lnReport
  repeat' first
    | with_reducible assumption
    | (with_reducible exact Or.inl (by assumption))
    | (with_reducible exact Or.inr rfl)
    | with_reducible apply count_frame
    | with_reducible apply report_frame
    | with_reducible apply Frame.ite
    | split
    | dsimp only

theorem lnFrozen_frame {fl : List Comp} {fr : State} (k : OKey) (ch : LnChan) (tag : BitVec 16) (s : State) (h_wins : Comp.wins ∈ fl) (h_counters : Comp.counters ∈ fl) (h_gctr : Comp.gctr ∈ fl) (h_rake : Comp.rake ∈ fl) (h_irq : Comp.irq ∈ fl) (hk : Frame fl fr s) : Frame fl fr (lnFrozen k ch tag s) := by
  unfold lnFrozen
  repeat' first
    | with_reducible assumption
    | (with_reducible exact Or.inl (by assumption))
    | (with_reducible exact Or.inr rfl)
    | with_reducible apply lnReport_frame
    | dsimp only

theorem landNotice_frame {fl : List Comp} {fr : State} (ch : LnChan) (w : DWord) (s : State) (h_wins : Comp.wins ∈ fl) (h_arming : Comp.arming ∈ fl) (h_decs : Comp.decs ∈ fl) (h_counters : Comp.counters ∈ fl) (h_gctr : Comp.gctr ∈ fl) (h_rake : Comp.rake ∈ fl) (h_irq : Comp.irq ∈ fl) (hk : Frame fl fr s) : Frame fl fr (landNotice ch w s) := by
  unfold landNotice
  repeat' first
    | with_reducible assumption
    | (with_reducible exact Or.inl (by assumption))
    | (with_reducible exact Or.inr rfl)
    | with_reducible apply State.modLcu_frame
    | with_reducible apply gcount_frame
    | with_reducible apply lnReport_frame
    | with_reducible apply lnFrozen_frame
    | with_reducible apply Frame.ite
    | split
    | dsimp only

theorem delArm_frame {fl : List Comp} {fr : State} (k : OKey) (s : State) (h_arming : Comp.arming ∈ fl) (hk : Frame fl fr s) : Frame fl fr (delArm k s) := by
  unfold delArm
  repeat' first
    | with_reducible assumption
    | (with_reducible exact Or.inl (by assumption))
    | (with_reducible exact Or.inr rfl)
    | with_reducible apply State.modLcu_frame
    | dsimp only

theorem decrement_frame {fl : List Comp} {fr : State} (k : OKey) (c : Nat) (ch : LnChan) (tag : BitVec 16) (s : State) (h_wins : Comp.wins ∈ fl) (h_parts : Comp.parts ∈ fl) (h_rows : Comp.rows ∈ fl) (h_arming : Comp.arming ∈ fl) (h_heldq : Comp.heldq ∈ fl) (h_counters : Comp.counters ∈ fl) (h_gctr : Comp.gctr ∈ fl) (h_rake : Comp.rake ∈ fl) (h_irq : Comp.irq ∈ fl) (hk : Frame fl fr s) : Frame fl fr (decrement k c ch tag s) := by
  unfold decrement
  repeat' first
    | with_reducible assumption
    | (with_reducible exact Or.inl (by assumption))
    | (with_reducible exact Or.inr rfl)
    | with_reducible apply count_frame
    | with_reducible apply report_frame
    | with_reducible apply State.setBody_frame
    | with_reducible apply secUp_frame
    | with_reducible apply secDown_frame
    | with_reducible apply postHeld_frame
    | with_reducible apply lnFrozen_frame
    | with_reducible apply delArm_frame
    | with_reducible apply Frame.ite
    | split
    | dsimp only

theorem wakeDecs_frame {fl : List Comp} {fr : State} (s : State) (h_banks : Comp.banks ∈ fl) (hk : Frame fl fr s) : Frame fl fr (wakeDecs s) := by
  unfold wakeDecs
  repeat' first
    | with_reducible assumption
    | (with_reducible exact Or.inl (by assumption))
    | (with_reducible exact Or.inr rfl)
    | with_reducible apply wakeSlot_frame
    | (with_reducible refine Frame.foldl (fun _ _ _ => ?_) ?_)
    | dsimp only

theorem pushReply_frame {fl : List Comp} {fr : State} (w : Win) (slot : Nat) (ws : List Word) (s : State) (h_wins : Comp.wins ∈ fl) (h_irq : Comp.irq ∈ fl) (hk : Frame fl fr s) : Frame fl fr (pushReply w slot ws s) := by
  unfold pushReply
  repeat' first
    | with_reducible assumption
    | (with_reducible exact Or.inl (by assumption))
    | (with_reducible exact Or.inr rfl)
    | with_reducible apply State.modWin_frame
    | with_reducible apply raisePart_frame
    | with_reducible apply raiseGlobal_frame
    | split
    | dsimp only

theorem sendPacket_frame {fl : List Comp} {fr : State} (dst : NodeId) (dir : Bool) (rtag : BitVec 5) (ws : List Word) (s : State) (h_fports : Comp.fports ∈ fl) (h_gctr : Comp.gctr ∈ fl) (h_rake : Comp.rake ∈ fl) (h_irq : Comp.irq ∈ fl) (hk : Frame fl fr s) : Frame fl fr (sendPacket dst dir rtag ws s) := by
  unfold sendPacket
  repeat' first
    | with_reducible assumption
    | (with_reducible exact Or.inl (by assumption))
    | (with_reducible exact Or.inr rfl)
    | with_reducible apply fabSend_frame
    | (with_reducible refine Frame.foldl (fun _ _ _ => ?_) ?_)
    | dsimp only

theorem replyAgent_frame {fl : List Comp} {fr : State} (op : Nat) (ws : List Word) (s : State) (h_wins : Comp.wins ∈ fl) (h_aps : Comp.aps ∈ fl) (h_ops : Comp.ops ∈ fl) (h_counters : Comp.counters ∈ fl) (h_gctr : Comp.gctr ∈ fl) (h_rake : Comp.rake ∈ fl) (h_irq : Comp.irq ∈ fl) (h_mem : Comp.mem ∈ fl) (h_mmPort : Comp.mmPort ∈ fl) (hk : Frame fl fr s) : Frame fl fr (replyAgent op ws s) := by
  unfold replyAgent
  repeat' first
    | with_reducible assumption
    | (with_reducible exact Or.inl (by assumption))
    | (with_reducible exact Or.inr rfl)
    | with_reducible apply mmRequest_frame
    | with_reducible apply mmWrite_frame
    | with_reducible apply report_frame
    | with_reducible apply answer_frame
    | with_reducible apply Frame.ite
    | split
    | dsimp only

theorem deliver_frame {fl : List Comp} {fr : State} (src : CmdSrc) (ws : List Word) (s : State) (h_wins : Comp.wins ∈ fl) (h_aps : Comp.aps ∈ fl) (h_ops : Comp.ops ∈ fl) (h_fports : Comp.fports ∈ fl) (h_counters : Comp.counters ∈ fl) (h_gctr : Comp.gctr ∈ fl) (h_rake : Comp.rake ∈ fl) (h_irq : Comp.irq ∈ fl) (h_mem : Comp.mem ∈ fl) (h_mmPort : Comp.mmPort ∈ fl) (hk : Frame fl fr s) : Frame fl fr (deliver src ws s) := by
  unfold deliver
  repeat' first
    | with_reducible assumption
    | (with_reducible exact Or.inl (by assumption))
    | (with_reducible exact Or.inr rfl)
    | with_reducible apply pushReply_frame
    | with_reducible apply sendPacket_frame
    | with_reducible apply replyAgent_frame
    | split
    | dsimp only

theorem traceCmd_frame {fl : List Comp} {fr : State} (c : Cmd) (code : Byte) (detail : Word) (s : State) (h_wins : Comp.wins ∈ fl) (h_counters : Comp.counters ∈ fl) (h_gctr : Comp.gctr ∈ fl) (h_trace : Comp.trace ∈ fl) (hk : Frame fl fr s) : Frame fl fr (traceCmd c code detail s) := by
  unfold traceCmd
  repeat' first
    | with_reducible assumption
    | (with_reducible exact Or.inl (by assumption))
    | (with_reducible exact Or.inr rfl)
    | with_reducible apply traceRec_frame
    | with_reducible apply Frame.ite
    | split
    | dsimp only

theorem dropCmd_frame {fl : List Comp} {fr : State} (id : Nat) (s : State) (h_cmds : Comp.cmds ∈ fl) (hk : Frame fl fr s) : Frame fl fr (dropCmd id s) := by
  unfold dropCmd
  repeat' first
    | with_reducible assumption
    | (with_reducible exact Or.inl (by assumption))
    | (with_reducible exact Or.inr rfl)
    | with_reducible apply State.modMsq_frame
    | dsimp only

theorem countCmd_frame {fl : List Comp} {fr : State} (part : Option PartId) (s : State) (h_wins : Comp.wins ∈ fl) (h_counters : Comp.counters ∈ fl) (hk : Frame fl fr s) : Frame fl fr (countCmd part s) := by
  unfold countCmd
  repeat' first
    | with_reducible assumption
    | (with_reducible exact Or.inl (by assumption))
    | (with_reducible exact Or.inr rfl)
    | with_reducible apply count_frame
    | split
    | dsimp only

theorem completeCode_frame {fl : List Comp} {fr : State} (c : Cmd) (code : Byte) (detail : Word) (res : List Word) (s : State) (h_cmds : Comp.cmds ∈ fl) (h_wins : Comp.wins ∈ fl) (h_aps : Comp.aps ∈ fl) (h_ops : Comp.ops ∈ fl) (h_fports : Comp.fports ∈ fl) (h_counters : Comp.counters ∈ fl) (h_gctr : Comp.gctr ∈ fl) (h_rake : Comp.rake ∈ fl) (h_trace : Comp.trace ∈ fl) (h_irq : Comp.irq ∈ fl) (h_mem : Comp.mem ∈ fl) (h_mmPort : Comp.mmPort ∈ fl) (hk : Frame fl fr s) : Frame fl fr (completeCode c code detail res s) := by
  unfold completeCode
  repeat' first
    | with_reducible assumption
    | (with_reducible exact Or.inl (by assumption))
    | (with_reducible exact Or.inr rfl)
    | with_reducible apply deliver_frame
    | with_reducible apply traceCmd_frame
    | with_reducible apply dropCmd_frame
    | with_reducible apply countCmd_frame
    | dsimp only

theorem complete_frame {fl : List Comp} {fr : State} (c : Cmd) (st : Status) (detail : Word) (res : List Word) (s : State) (h_cmds : Comp.cmds ∈ fl) (h_wins : Comp.wins ∈ fl) (h_aps : Comp.aps ∈ fl) (h_ops : Comp.ops ∈ fl) (h_fports : Comp.fports ∈ fl) (h_counters : Comp.counters ∈ fl) (h_gctr : Comp.gctr ∈ fl) (h_rake : Comp.rake ∈ fl) (h_trace : Comp.trace ∈ fl) (h_irq : Comp.irq ∈ fl) (h_mem : Comp.mem ∈ fl) (h_mmPort : Comp.mmPort ∈ fl) (hk : Frame fl fr s) : Frame fl fr (complete c st detail res s) := by
  unfold complete
  repeat' first
    | with_reducible assumption
    | (with_reducible exact Or.inl (by assumption))
    | (with_reducible exact Or.inr rfl)
    | with_reducible apply completeCode_frame
    | dsimp only

theorem ok_frame {fl : List Comp} {fr : State} (c : Cmd) (res : List Word) (s : State) (h_cmds : Comp.cmds ∈ fl) (h_wins : Comp.wins ∈ fl) (h_aps : Comp.aps ∈ fl) (h_ops : Comp.ops ∈ fl) (h_fports : Comp.fports ∈ fl) (h_counters : Comp.counters ∈ fl) (h_gctr : Comp.gctr ∈ fl) (h_rake : Comp.rake ∈ fl) (h_trace : Comp.trace ∈ fl) (h_irq : Comp.irq ∈ fl) (h_mem : Comp.mem ∈ fl) (h_mmPort : Comp.mmPort ∈ fl) (hk : Frame fl fr s) : Frame fl fr (ok c res s) := by
  unfold ok
  repeat' first
    | with_reducible assumption
    | (with_reducible exact Or.inl (by assumption))
    | (with_reducible exact Or.inr rfl)
    | with_reducible apply complete_frame
    | dsimp only

theorem refuse_frame {fl : List Comp} {fr : State} (c : Cmd) (st : Status) (detail : Word) (s : State) (h_cmds : Comp.cmds ∈ fl) (h_wins : Comp.wins ∈ fl) (h_aps : Comp.aps ∈ fl) (h_ops : Comp.ops ∈ fl) (h_fports : Comp.fports ∈ fl) (h_counters : Comp.counters ∈ fl) (h_gctr : Comp.gctr ∈ fl) (h_rake : Comp.rake ∈ fl) (h_trace : Comp.trace ∈ fl) (h_irq : Comp.irq ∈ fl) (h_mem : Comp.mem ∈ fl) (h_mmPort : Comp.mmPort ∈ fl) (hk : Frame fl fr s) : Frame fl fr (refuse c st detail s) := by
  unfold refuse
  repeat' first
    | with_reducible assumption
    | (with_reducible exact Or.inl (by assumption))
    | (with_reducible exact Or.inr rfl)
    | with_reducible apply complete_frame
    | dsimp only

theorem setPhase_frame {fl : List Comp} {fr : State} (id : Nat) (p : Phase) (s : State) (h_cmds : Comp.cmds ∈ fl) (hk : Frame fl fr s) : Frame fl fr (setPhase id p s) := by
  unfold setPhase
  repeat' first
    | with_reducible assumption
    | (with_reducible exact Or.inl (by assumption))
    | (with_reducible exact Or.inr rfl)
    | with_reducible apply State.modMsq_frame
    | dsimp only

theorem answerUnrun_frame {fl : List Comp} {fr : State} (c : Cmd) (st : Status) (s : State) (h_cmds : Comp.cmds ∈ fl) (h_wins : Comp.wins ∈ fl) (h_aps : Comp.aps ∈ fl) (h_ops : Comp.ops ∈ fl) (h_fports : Comp.fports ∈ fl) (h_counters : Comp.counters ∈ fl) (h_gctr : Comp.gctr ∈ fl) (h_rake : Comp.rake ∈ fl) (h_irq : Comp.irq ∈ fl) (h_mem : Comp.mem ∈ fl) (h_mmPort : Comp.mmPort ∈ fl) (hk : Frame fl fr s) : Frame fl fr (answerUnrun c st s) := by
  unfold answerUnrun
  repeat' first
    | with_reducible assumption
    | (with_reducible exact Or.inl (by assumption))
    | (with_reducible exact Or.inr rfl)
    | with_reducible apply deliver_frame
    | with_reducible apply dropCmd_frame
    | dsimp only

theorem sendRemoteCmd_frame {fl : List Comp} {fr : State} (c : Cmd) (s : State) (h_cmds : Comp.cmds ∈ fl) (h_wins : Comp.wins ∈ fl) (h_aps : Comp.aps ∈ fl) (h_ops : Comp.ops ∈ fl) (h_fports : Comp.fports ∈ fl) (h_counters : Comp.counters ∈ fl) (h_gctr : Comp.gctr ∈ fl) (h_rake : Comp.rake ∈ fl) (h_irq : Comp.irq ∈ fl) (h_mem : Comp.mem ∈ fl) (h_mmPort : Comp.mmPort ∈ fl) (hk : Frame fl fr s) : Frame fl fr (sendRemoteCmd c s) := by
  unfold sendRemoteCmd
  repeat' first
    | with_reducible assumption
    | (with_reducible exact Or.inl (by assumption))
    | (with_reducible exact Or.inr rfl)
    | with_reducible apply sendPacket_frame
    | with_reducible apply setPhase_frame
    | with_reducible apply answerUnrun_frame
    | with_reducible apply Frame.ite
    | split
    | dsimp only

theorem arrive_frame {fl : List Comp} {fr : State} (c : Cmd) (p : Option PartId) (missing : Option Nat) (s : State) (h_cmds : Comp.cmds ∈ fl) (h_wins : Comp.wins ∈ fl) (h_aps : Comp.aps ∈ fl) (h_ops : Comp.ops ∈ fl) (h_fports : Comp.fports ∈ fl) (h_counters : Comp.counters ∈ fl) (h_gctr : Comp.gctr ∈ fl) (h_rake : Comp.rake ∈ fl) (h_trace : Comp.trace ∈ fl) (h_irq : Comp.irq ∈ fl) (h_mem : Comp.mem ∈ fl) (h_mmPort : Comp.mmPort ∈ fl) (hk : Frame fl fr s) : Frame fl fr (arrive c p missing s) := by
  unfold arrive
  repeat' first
    | with_reducible assumption
    | (with_reducible exact Or.inl (by assumption))
    | (with_reducible exact Or.inr rfl)
    | with_reducible apply State.modMsq_frame
    | with_reducible apply refuse_frame
    | with_reducible apply sendRemoteCmd_frame
    | with_reducible apply Frame.ite
    | split
    | dsimp only

end Sys2Proof.Machine
end

