-- ==== Sys2Proof/Laws/FrameAgent.lean ====
section
/-! SUPPORT. What the effects defined in Perform, AgentOps, Ports, Timers leave unchanged: each lemma names every component its function may write. -/

namespace Sys2Proof.Machine

theorem evictHit_frame {fl : List Comp} {fr : State} (p : PartId) (c : CtxId) (s : State) (h_wins : Comp.wins ∈ fl) (h_dir : Comp.dir ∈ fl) (hk : Frame fl fr s) : Frame fl fr (evictHit p c s) := by
  unfold evictHit
  repeat' first
    | with_reducible assumption
    | (with_reducible exact Or.inl (by assumption))
    | (with_reducible exact Or.inr rfl)
    | with_reducible apply State.modCtx_frame
    | with_reducible apply raisePart_frame
    | with_reducible apply Frame.ite
    | split
    | dsimp only

theorem translate_frame {fl : List Comp} {fr : State} (e : OpEntry) (s : State) (h_wins : Comp.wins ∈ fl) (h_ops : Comp.ops ∈ fl) (h_dir : Comp.dir ∈ fl) (hk : Frame fl fr s) : Frame fl fr (translate e s) := by
  unfold translate
  repeat' first
    | with_reducible assumption
    | (with_reducible exact Or.inl (by assumption))
    | (with_reducible exact Or.inr rfl)
    | with_reducible apply setOp_frame
    | with_reducible apply evictHit_frame
    | with_reducible apply Frame.ite
    | split
    | dsimp only

theorem waitCancelOp_frame {fl : List Comp} {fr : State} (e : OpEntry) (s : State) (h_wins : Comp.wins ∈ fl) (h_aps : Comp.aps ∈ fl) (h_ops : Comp.ops ∈ fl) (h_rows : Comp.rows ∈ fl) (h_waiters : Comp.waiters ∈ fl) (h_spillWakes : Comp.spillWakes ∈ fl) (h_descs : Comp.descs ∈ fl) (h_sn : Comp.sn ∈ fl) (h_tack : Comp.tack ∈ fl) (h_fports : Comp.fports ∈ fl) (h_counters : Comp.counters ∈ fl) (h_gctr : Comp.gctr ∈ fl) (h_rake : Comp.rake ∈ fl) (h_trace : Comp.trace ∈ fl) (h_irq : Comp.irq ∈ fl) (h_mem : Comp.mem ∈ fl) (h_mmPort : Comp.mmPort ∈ fl) (hk : Frame fl fr s) : Frame fl fr (waitCancelOp e s) := by
  unfold waitCancelOp
  repeat' first
    | with_reducible assumption
    | (with_reducible exact Or.inl (by assumption))
    | (with_reducible exact Or.inr rfl)
    | with_reducible apply State.modWmc_frame
    | with_reducible apply count_frame
    | with_reducible apply syncHdr_frame
    | with_reducible apply freeOp_frame
    | with_reducible apply fabSend_frame
    | with_reducible apply traceOp_frame
    | with_reducible apply afterLeaving_frame
    | with_reducible apply afterLeave_frame
    | with_reducible apply Frame.ite
    | split
    | dsimp only

theorem performBody_frame {fl : List Comp} {fr : State} (e : OpEntry) (k : OKey) (o : Obj) (s : State) (h_wins : Comp.wins ∈ fl) (h_parts : Comp.parts ∈ fl) (h_aps : Comp.aps ∈ fl) (h_ops : Comp.ops ∈ fl) (h_rows : Comp.rows ∈ fl) (h_waiters : Comp.waiters ∈ fl) (h_records : Comp.records ∈ fl) (h_early : Comp.early ∈ fl) (h_spillWakes : Comp.spillWakes ∈ fl) (h_descs : Comp.descs ∈ fl) (h_holdings : Comp.holdings ∈ fl) (h_fences : Comp.fences ∈ fl) (h_deadlines : Comp.deadlines ∈ fl) (h_leases : Comp.leases ∈ fl) (h_arming : Comp.arming ∈ fl) (h_heldq : Comp.heldq ∈ fl) (h_sn : Comp.sn ∈ fl) (h_fports : Comp.fports ∈ fl) (h_trees : Comp.trees ∈ fl) (h_counters : Comp.counters ∈ fl) (h_gctr : Comp.gctr ∈ fl) (h_rake : Comp.rake ∈ fl) (h_trace : Comp.trace ∈ fl) (h_watches : Comp.watches ∈ fl) (h_irq : Comp.irq ∈ fl) (h_free : Comp.free ∈ fl) (hk : Frame fl fr s) : Frame fl fr (performBody e k o s) := by
  unfold performBody
  repeat' first
    | with_reducible assumption
    | (with_reducible exact Or.inl (by assumption))
    | (with_reducible exact Or.inr rfl)
    | with_reducible apply count_frame
    | with_reducible apply finish_frame
    | with_reducible apply lockOp_frame
    | with_reducible apply tryLockOp_frame
    | with_reducible apply unlockOp_frame
    | with_reducible apply claimIdOp_frame
    | with_reducible apply claimReadOp_frame
    | with_reducible apply takeOp_frame
    | with_reducible apply tryTakeOp_frame
    | with_reducible apply giveOp_frame
    | with_reducible apply signalOp_frame
    | with_reducible apply waitEventOp_frame
    | with_reducible apply casOp_frame
    | with_reducible apply fetchAddOp_frame
    | with_reducible apply reserveOp_frame
    | with_reducible apply commitOp_frame
    | with_reducible apply waitAvailOp_frame
    | with_reducible apply releaseOp_frame
    | with_reducible apply arriveBarrier_frame
    | with_reducible apply arriveGroup_frame
    | with_reducible apply waitBarrierOp_frame
    | with_reducible apply waitGroupOp_frame
    | with_reducible apply readMissingOp_frame
    | with_reducible apply deadlineArmOp_frame
    | with_reducible apply landExpectOp_frame
    | with_reducible apply signalAfterOp_frame
    | with_reducible apply Frame.ite
    | split
    | dsimp only

theorem countBank_frame {fl : List Comp} {fr : State} (e : OpEntry) (s : State) (h_merges : Comp.merges ∈ fl) (h_gctr : Comp.gctr ∈ fl) (hk : Frame fl fr s) : Frame fl fr (countBank e s) := by
  unfold countBank
  repeat' first
    | with_reducible assumption
    | (with_reducible exact Or.inl (by assumption))
    | (with_reducible exact Or.inr rfl)
    | with_reducible apply State.modOpr_frame
    | with_reducible apply gcount_frame
    | with_reducible apply Frame.ite
    | split
    | dsimp only

theorem performAtBank_frame {fl : List Comp} {fr : State} (e : OpEntry) (s : State) (h_wins : Comp.wins ∈ fl) (h_parts : Comp.parts ∈ fl) (h_aps : Comp.aps ∈ fl) (h_ops : Comp.ops ∈ fl) (h_merges : Comp.merges ∈ fl) (h_rows : Comp.rows ∈ fl) (h_waiters : Comp.waiters ∈ fl) (h_records : Comp.records ∈ fl) (h_early : Comp.early ∈ fl) (h_spillWakes : Comp.spillWakes ∈ fl) (h_descs : Comp.descs ∈ fl) (h_holdings : Comp.holdings ∈ fl) (h_fences : Comp.fences ∈ fl) (h_deadlines : Comp.deadlines ∈ fl) (h_leases : Comp.leases ∈ fl) (h_arming : Comp.arming ∈ fl) (h_heldq : Comp.heldq ∈ fl) (h_sn : Comp.sn ∈ fl) (h_fports : Comp.fports ∈ fl) (h_trees : Comp.trees ∈ fl) (h_counters : Comp.counters ∈ fl) (h_gctr : Comp.gctr ∈ fl) (h_rake : Comp.rake ∈ fl) (h_trace : Comp.trace ∈ fl) (h_watches : Comp.watches ∈ fl) (h_irq : Comp.irq ∈ fl) (h_free : Comp.free ∈ fl) (hk : Frame fl fr s) : Frame fl fr (performAtBank e s) := by
  unfold performAtBank
  repeat' first
    | with_reducible assumption
    | (with_reducible exact Or.inl (by assumption))
    | (with_reducible exact Or.inr rfl)
    | with_reducible apply report_frame
    | with_reducible apply finish_frame
    | with_reducible apply performBody_frame
    | with_reducible apply countBank_frame
    | with_reducible apply Frame.ite
    | split
    | dsimp only

theorem performFabric_frame {fl : List Comp} {fr : State} (e : OpEntry) (s : State) (h_wins : Comp.wins ∈ fl) (h_aps : Comp.aps ∈ fl) (h_ops : Comp.ops ∈ fl) (h_rows : Comp.rows ∈ fl) (h_waiters : Comp.waiters ∈ fl) (h_spillWakes : Comp.spillWakes ∈ fl) (h_descs : Comp.descs ∈ fl) (h_holdings : Comp.holdings ∈ fl) (h_fences : Comp.fences ∈ fl) (h_leases : Comp.leases ∈ fl) (h_sn : Comp.sn ∈ fl) (h_tack : Comp.tack ∈ fl) (h_fports : Comp.fports ∈ fl) (h_counters : Comp.counters ∈ fl) (h_gctr : Comp.gctr ∈ fl) (h_rake : Comp.rake ∈ fl) (h_trace : Comp.trace ∈ fl) (h_irq : Comp.irq ∈ fl) (h_mem : Comp.mem ∈ fl) (h_mmPort : Comp.mmPort ∈ fl) (h_free : Comp.free ∈ fl) (hk : Frame fl fr s) : Frame fl fr (performFabric e s) := by
  unfold performFabric
  repeat' first
    | with_reducible assumption
    | (with_reducible exact Or.inl (by assumption))
    | (with_reducible exact Or.inr rfl)
    | with_reducible apply finish_frame
    | with_reducible apply abandonLock_frame
    | with_reducible apply cancelRsv_frame
    | with_reducible apply abandonAt_frame
    | with_reducible apply cancelAt_frame
    | with_reducible apply waitCancelOp_frame
    | with_reducible apply Frame.ite
    | split
    | dsimp only

theorem performHome_frame {fl : List Comp} {fr : State} (e : OpEntry) (s : State) (h_wins : Comp.wins ∈ fl) (h_parts : Comp.parts ∈ fl) (h_aps : Comp.aps ∈ fl) (h_ops : Comp.ops ∈ fl) (h_merges : Comp.merges ∈ fl) (h_rows : Comp.rows ∈ fl) (h_waiters : Comp.waiters ∈ fl) (h_records : Comp.records ∈ fl) (h_early : Comp.early ∈ fl) (h_spillWakes : Comp.spillWakes ∈ fl) (h_descs : Comp.descs ∈ fl) (h_holdings : Comp.holdings ∈ fl) (h_fences : Comp.fences ∈ fl) (h_deadlines : Comp.deadlines ∈ fl) (h_leases : Comp.leases ∈ fl) (h_arming : Comp.arming ∈ fl) (h_heldq : Comp.heldq ∈ fl) (h_sn : Comp.sn ∈ fl) (h_tack : Comp.tack ∈ fl) (h_fports : Comp.fports ∈ fl) (h_trees : Comp.trees ∈ fl) (h_counters : Comp.counters ∈ fl) (h_gctr : Comp.gctr ∈ fl) (h_rake : Comp.rake ∈ fl) (h_trace : Comp.trace ∈ fl) (h_watches : Comp.watches ∈ fl) (h_irq : Comp.irq ∈ fl) (h_mem : Comp.mem ∈ fl) (h_mmPort : Comp.mmPort ∈ fl) (h_free : Comp.free ∈ fl) (hk : Frame fl fr s) : Frame fl fr (performHome e s) := by
  unfold performHome
  repeat' first
    | with_reducible assumption
    | (with_reducible exact Or.inl (by assumption))
    | (with_reducible exact Or.inr rfl)
    | with_reducible apply performAtBank_frame
    | with_reducible apply performFabric_frame
    | with_reducible apply Frame.ite
    | split
    | dsimp only

theorem waitHeld_frame {fl : List Comp} {fr : State} (e : OpEntry) (s : State) (h_ops : Comp.ops ∈ fl) (h_merges : Comp.merges ∈ fl) (hk : Frame fl fr s) : Frame fl fr (waitHeld e s) := by
  unfold waitHeld
  repeat' first
    | with_reducible assumption
    | (with_reducible exact Or.inl (by assumption))
    | (with_reducible exact Or.inr rfl)
    | with_reducible apply State.modOpr_frame
    | with_reducible apply setOp_frame
    | with_reducible apply Frame.ite
    | split
    | dsimp only

theorem holdHome_frame {fl : List Comp} {fr : State} (e : OpEntry) (s : State) (h_ops : Comp.ops ∈ fl) (hk : Frame fl fr s) : Frame fl fr (holdHome e s) := by
  unfold holdHome
  repeat' first
    | with_reducible assumption
    | (with_reducible exact Or.inl (by assumption))
    | (with_reducible exact Or.inr rfl)
    | with_reducible apply setOp_frame
    | with_reducible apply Frame.ite
    | split
    | dsimp only

theorem tryHome_frame {fl : List Comp} {fr : State} (e : OpEntry) (s : State) (h_wins : Comp.wins ∈ fl) (h_parts : Comp.parts ∈ fl) (h_aps : Comp.aps ∈ fl) (h_ops : Comp.ops ∈ fl) (h_merges : Comp.merges ∈ fl) (h_rows : Comp.rows ∈ fl) (h_banks : Comp.banks ∈ fl) (h_waiters : Comp.waiters ∈ fl) (h_records : Comp.records ∈ fl) (h_early : Comp.early ∈ fl) (h_spillWakes : Comp.spillWakes ∈ fl) (h_fetching : Comp.fetching ∈ fl) (h_descs : Comp.descs ∈ fl) (h_holdings : Comp.holdings ∈ fl) (h_fences : Comp.fences ∈ fl) (h_deadlines : Comp.deadlines ∈ fl) (h_leases : Comp.leases ∈ fl) (h_arming : Comp.arming ∈ fl) (h_heldq : Comp.heldq ∈ fl) (h_sn : Comp.sn ∈ fl) (h_tack : Comp.tack ∈ fl) (h_fports : Comp.fports ∈ fl) (h_trees : Comp.trees ∈ fl) (h_counters : Comp.counters ∈ fl) (h_gctr : Comp.gctr ∈ fl) (h_rake : Comp.rake ∈ fl) (h_trace : Comp.trace ∈ fl) (h_watches : Comp.watches ∈ fl) (h_irq : Comp.irq ∈ fl) (h_mem : Comp.mem ∈ fl) (h_mmPort : Comp.mmPort ∈ fl) (h_free : Comp.free ∈ fl) (hk : Frame fl fr s) : Frame fl fr (tryHome e s) := by
  unfold tryHome
  repeat' first
    | with_reducible assumption
    | (with_reducible exact Or.inl (by assumption))
    | (with_reducible exact Or.inr rfl)
    | with_reducible apply report_frame
    | with_reducible apply setOpSt_frame
    | with_reducible apply finish_frame
    | with_reducible apply wakeSlot_frame
    | with_reducible apply fetchFor_frame
    | with_reducible apply performHome_frame
    | with_reducible apply waitHeld_frame
    | with_reducible apply holdHome_frame
    | with_reducible apply Frame.ite
    | split
    | dsimp only

theorem sendRemote_frame {fl : List Comp} {fr : State} (e : OpEntry) (s : State) (h_wins : Comp.wins ∈ fl) (h_aps : Comp.aps ∈ fl) (h_ops : Comp.ops ∈ fl) (h_fports : Comp.fports ∈ fl) (h_counters : Comp.counters ∈ fl) (h_gctr : Comp.gctr ∈ fl) (h_rake : Comp.rake ∈ fl) (h_trace : Comp.trace ∈ fl) (h_irq : Comp.irq ∈ fl) (hk : Frame fl fr s) : Frame fl fr (sendRemote e s) := by
  unfold sendRemote
  repeat' first
    | with_reducible assumption
    | (with_reducible exact Or.inl (by assumption))
    | (with_reducible exact Or.inr rfl)
    | with_reducible apply count_frame
    | with_reducible apply setOpSt_frame
    | with_reducible apply fabSend_frame
    | with_reducible apply finish_frame
    | with_reducible apply Frame.ite
    | split
    | dsimp only

theorem startMgmt_frame {fl : List Comp} {fr : State} (e : OpEntry) (s : State) (h_cmds : Comp.cmds ∈ fl) (h_wins : Comp.wins ∈ fl) (h_aps : Comp.aps ∈ fl) (h_ops : Comp.ops ∈ fl) (h_fports : Comp.fports ∈ fl) (h_counters : Comp.counters ∈ fl) (h_gctr : Comp.gctr ∈ fl) (h_rake : Comp.rake ∈ fl) (h_trace : Comp.trace ∈ fl) (h_irq : Comp.irq ∈ fl) (h_mem : Comp.mem ∈ fl) (h_mmPort : Comp.mmPort ∈ fl) (hk : Frame fl fr s) : Frame fl fr (startMgmt e s) := by
  unfold startMgmt
  repeat' first
    | with_reducible assumption
    | (with_reducible exact Or.inl (by assumption))
    | (with_reducible exact Or.inr rfl)
    | with_reducible apply mmRequest_frame
    | with_reducible apply setOpSt_frame
    | with_reducible apply finish_frame
    | with_reducible apply countCmd_frame
    | with_reducible apply arrive_frame
    | with_reducible apply Frame.ite
    | split
    | dsimp only

theorem passOn_frame {fl : List Comp} {fr : State} (e : OpEntry) (s : State) (h_cmds : Comp.cmds ∈ fl) (h_wins : Comp.wins ∈ fl) (h_parts : Comp.parts ∈ fl) (h_aps : Comp.aps ∈ fl) (h_ops : Comp.ops ∈ fl) (h_merges : Comp.merges ∈ fl) (h_rows : Comp.rows ∈ fl) (h_banks : Comp.banks ∈ fl) (h_waiters : Comp.waiters ∈ fl) (h_records : Comp.records ∈ fl) (h_early : Comp.early ∈ fl) (h_spillWakes : Comp.spillWakes ∈ fl) (h_fetching : Comp.fetching ∈ fl) (h_descs : Comp.descs ∈ fl) (h_holdings : Comp.holdings ∈ fl) (h_fences : Comp.fences ∈ fl) (h_deadlines : Comp.deadlines ∈ fl) (h_leases : Comp.leases ∈ fl) (h_arming : Comp.arming ∈ fl) (h_heldq : Comp.heldq ∈ fl) (h_sn : Comp.sn ∈ fl) (h_tack : Comp.tack ∈ fl) (h_fports : Comp.fports ∈ fl) (h_trees : Comp.trees ∈ fl) (h_counters : Comp.counters ∈ fl) (h_gctr : Comp.gctr ∈ fl) (h_rake : Comp.rake ∈ fl) (h_trace : Comp.trace ∈ fl) (h_watches : Comp.watches ∈ fl) (h_irq : Comp.irq ∈ fl) (h_mem : Comp.mem ∈ fl) (h_mmPort : Comp.mmPort ∈ fl) (h_free : Comp.free ∈ fl) (hk : Frame fl fr s) : Frame fl fr (passOn e s) := by
  unfold passOn
  repeat' first
    | with_reducible assumption
    | (with_reducible exact Or.inl (by assumption))
    | (with_reducible exact Or.inr rfl)
    | with_reducible apply finish_frame
    | with_reducible apply tryHome_frame
    | with_reducible apply sendRemote_frame
    | with_reducible apply startMgmt_frame
    | with_reducible apply Frame.ite
    | split
    | dsimp only

theorem tryOp_frame {fl : List Comp} {fr : State} (id : Nat) (s : State) (h_cmds : Comp.cmds ∈ fl) (h_wins : Comp.wins ∈ fl) (h_parts : Comp.parts ∈ fl) (h_aps : Comp.aps ∈ fl) (h_ops : Comp.ops ∈ fl) (h_merges : Comp.merges ∈ fl) (h_rows : Comp.rows ∈ fl) (h_banks : Comp.banks ∈ fl) (h_waiters : Comp.waiters ∈ fl) (h_records : Comp.records ∈ fl) (h_early : Comp.early ∈ fl) (h_spillWakes : Comp.spillWakes ∈ fl) (h_fetching : Comp.fetching ∈ fl) (h_descs : Comp.descs ∈ fl) (h_holdings : Comp.holdings ∈ fl) (h_fences : Comp.fences ∈ fl) (h_deadlines : Comp.deadlines ∈ fl) (h_leases : Comp.leases ∈ fl) (h_arming : Comp.arming ∈ fl) (h_heldq : Comp.heldq ∈ fl) (h_sn : Comp.sn ∈ fl) (h_dir : Comp.dir ∈ fl) (h_tack : Comp.tack ∈ fl) (h_fports : Comp.fports ∈ fl) (h_trees : Comp.trees ∈ fl) (h_counters : Comp.counters ∈ fl) (h_gctr : Comp.gctr ∈ fl) (h_rake : Comp.rake ∈ fl) (h_trace : Comp.trace ∈ fl) (h_watches : Comp.watches ∈ fl) (h_irq : Comp.irq ∈ fl) (h_mem : Comp.mem ∈ fl) (h_mmPort : Comp.mmPort ∈ fl) (h_free : Comp.free ∈ fl) (hk : Frame fl fr s) : Frame fl fr (tryOp id s) := by
  unfold tryOp
  repeat' first
    | with_reducible assumption
    | (with_reducible exact Or.inl (by assumption))
    | (with_reducible exact Or.inr rfl)
    | with_reducible apply translate_frame
    | with_reducible apply passOn_frame
    | with_reducible apply Frame.ite
    | split
    | dsimp only

theorem treeWork_frame {fl : List Comp} {fr : State} (w : TreeIn) (s : State) (h_wins : Comp.wins ∈ fl) (h_parts : Comp.parts ∈ fl) (h_aps : Comp.aps ∈ fl) (h_ops : Comp.ops ∈ fl) (h_rows : Comp.rows ∈ fl) (h_waiters : Comp.waiters ∈ fl) (h_records : Comp.records ∈ fl) (h_early : Comp.early ∈ fl) (h_spillWakes : Comp.spillWakes ∈ fl) (h_deadlines : Comp.deadlines ∈ fl) (h_sn : Comp.sn ∈ fl) (h_fports : Comp.fports ∈ fl) (h_trees : Comp.trees ∈ fl) (h_counters : Comp.counters ∈ fl) (h_gctr : Comp.gctr ∈ fl) (h_rake : Comp.rake ∈ fl) (h_watches : Comp.watches ∈ fl) (h_irq : Comp.irq ∈ fl) (h_free : Comp.free ∈ fl) (hk : Frame fl fr s) : Frame fl fr (treeWork w s) := by
  unfold treeWork
  repeat' first
    | with_reducible assumption
    | (with_reducible exact Or.inl (by assumption))
    | (with_reducible exact Or.inr rfl)
    | with_reducible apply inner_frame
    | with_reducible apply combineFlit_frame
    | with_reducible apply treeRelFlit_frame
    | with_reducible apply Frame.ite
    | split
    | dsimp only

theorem treePump_frame {fl : List Comp} {fr : State}  (l : List TreeIn) (h_wins : Comp.wins ∈ fl) (h_parts : Comp.parts ∈ fl) (h_aps : Comp.aps ∈ fl) (h_ops : Comp.ops ∈ fl) (h_rows : Comp.rows ∈ fl) (h_banks : Comp.banks ∈ fl) (h_waiters : Comp.waiters ∈ fl) (h_records : Comp.records ∈ fl) (h_early : Comp.early ∈ fl) (h_spillWakes : Comp.spillWakes ∈ fl) (h_fetching : Comp.fetching ∈ fl) (h_deadlines : Comp.deadlines ∈ fl) (h_sn : Comp.sn ∈ fl) (h_fports : Comp.fports ∈ fl) (h_trees : Comp.trees ∈ fl) (h_inq : Comp.inq ∈ fl) (h_counters : Comp.counters ∈ fl) (h_gctr : Comp.gctr ∈ fl) (h_rake : Comp.rake ∈ fl) (h_watches : Comp.watches ∈ fl) (h_irq : Comp.irq ∈ fl) (h_free : Comp.free ∈ fl) : ∀ (s : State), Frame fl fr s → Frame fl fr (treePump  l s) := by
  induction l with
  | nil => intro s hk; unfold treePump; exact hk
  | cons x l ih =>
    intro s hk
    unfold treePump
    repeat' first
      | with_reducible assumption
      | (with_reducible exact Or.inl (by assumption))
      | (with_reducible exact Or.inr rfl)
      | with_reducible apply ih
      | with_reducible apply State.modFab_frame
      | with_reducible apply askFor_frame
      | with_reducible apply treeWork_frame
      | with_reducible apply Frame.ite
      | split
      | dsimp only

theorem pump_frame {fl : List Comp} {fr : State} (s : State) (h_cmds : Comp.cmds ∈ fl) (h_wins : Comp.wins ∈ fl) (h_parts : Comp.parts ∈ fl) (h_aps : Comp.aps ∈ fl) (h_ops : Comp.ops ∈ fl) (h_merges : Comp.merges ∈ fl) (h_rows : Comp.rows ∈ fl) (h_banks : Comp.banks ∈ fl) (h_waiters : Comp.waiters ∈ fl) (h_records : Comp.records ∈ fl) (h_early : Comp.early ∈ fl) (h_spillWakes : Comp.spillWakes ∈ fl) (h_fetching : Comp.fetching ∈ fl) (h_descs : Comp.descs ∈ fl) (h_holdings : Comp.holdings ∈ fl) (h_fences : Comp.fences ∈ fl) (h_deadlines : Comp.deadlines ∈ fl) (h_leases : Comp.leases ∈ fl) (h_arming : Comp.arming ∈ fl) (h_heldq : Comp.heldq ∈ fl) (h_sn : Comp.sn ∈ fl) (h_dir : Comp.dir ∈ fl) (h_tack : Comp.tack ∈ fl) (h_fports : Comp.fports ∈ fl) (h_trees : Comp.trees ∈ fl) (h_inq : Comp.inq ∈ fl) (h_counters : Comp.counters ∈ fl) (h_gctr : Comp.gctr ∈ fl) (h_rake : Comp.rake ∈ fl) (h_trace : Comp.trace ∈ fl) (h_watches : Comp.watches ∈ fl) (h_irq : Comp.irq ∈ fl) (h_mem : Comp.mem ∈ fl) (h_mmPort : Comp.mmPort ∈ fl) (h_free : Comp.free ∈ fl) (hk : Frame fl fr s) : Frame fl fr (pump s) := by
  unfold pump
  repeat' first
    | with_reducible assumption
    | (with_reducible exact Or.inl (by assumption))
    | (with_reducible exact Or.inr rfl)
    | with_reducible apply tryOp_frame
    | with_reducible apply treePump_frame
    | (with_reducible refine Frame.foldl (fun _ _ _ => ?_) ?_)
    | dsimp only

theorem recordAtApa_frame {fl : List Comp} {fr : State} (e : OpEntry) (s : State) (h_wins : Comp.wins ∈ fl) (h_binds : Comp.binds ∈ fl) (h_counters : Comp.counters ∈ fl) (h_gctr : Comp.gctr ∈ fl) (h_trace : Comp.trace ∈ fl) (hk : Frame fl fr s) : Frame fl fr (recordAtApa e s) := by
  unfold recordAtApa
  repeat' first
    | with_reducible assumption
    | (with_reducible exact Or.inl (by assumption))
    | (with_reducible exact Or.inr rfl)
    | with_reducible apply State.setBind_frame
    | with_reducible apply traceRec_frame
    | with_reducible apply Frame.ite
    | split
    | dsimp only

theorem acceptOp_frame {fl : List Comp} {fr : State} (p : PortNo) (op : Op) (f : Flit) (pool : Pool) (s : State) (h_cmds : Comp.cmds ∈ fl) (h_wins : Comp.wins ∈ fl) (h_parts : Comp.parts ∈ fl) (h_binds : Comp.binds ∈ fl) (h_aps : Comp.aps ∈ fl) (h_ops : Comp.ops ∈ fl) (h_merges : Comp.merges ∈ fl) (h_rows : Comp.rows ∈ fl) (h_banks : Comp.banks ∈ fl) (h_waiters : Comp.waiters ∈ fl) (h_records : Comp.records ∈ fl) (h_early : Comp.early ∈ fl) (h_spillWakes : Comp.spillWakes ∈ fl) (h_fetching : Comp.fetching ∈ fl) (h_descs : Comp.descs ∈ fl) (h_holdings : Comp.holdings ∈ fl) (h_fences : Comp.fences ∈ fl) (h_deadlines : Comp.deadlines ∈ fl) (h_leases : Comp.leases ∈ fl) (h_arming : Comp.arming ∈ fl) (h_heldq : Comp.heldq ∈ fl) (h_sn : Comp.sn ∈ fl) (h_dir : Comp.dir ∈ fl) (h_tack : Comp.tack ∈ fl) (h_fports : Comp.fports ∈ fl) (h_trees : Comp.trees ∈ fl) (h_counters : Comp.counters ∈ fl) (h_gctr : Comp.gctr ∈ fl) (h_rake : Comp.rake ∈ fl) (h_trace : Comp.trace ∈ fl) (h_watches : Comp.watches ∈ fl) (h_irq : Comp.irq ∈ fl) (h_mem : Comp.mem ∈ fl) (h_mmPort : Comp.mmPort ∈ fl) (h_free : Comp.free ∈ fl) (hk : Frame fl fr s) : Frame fl fr (acceptOp p op f pool s) := by
  unfold acceptOp
  repeat' first
    | with_reducible assumption
    | (with_reducible exact Or.inl (by assumption))
    | (with_reducible exact Or.inr rfl)
    | with_reducible apply State.modOpr_frame
    | with_reducible apply count_frame
    | with_reducible apply gcountN_frame
    | with_reducible apply finish_frame
    | with_reducible apply tryOp_frame
    | with_reducible apply recordAtApa_frame
    | with_reducible apply Frame.ite
    | split
    | dsimp only

theorem bindFlit_frame {fl : List Comp} {fr : State} (p : PortNo) (f : Flit) (held turn : Bool) (s : State) {kt : State} (h_cmds : Comp.cmds ∈ fl) (h_wins : Comp.wins ∈ fl) (h_parts : Comp.parts ∈ fl) (h_binds : Comp.binds ∈ fl) (h_aps : Comp.aps ∈ fl) (h_ops : Comp.ops ∈ fl) (h_merges : Comp.merges ∈ fl) (h_rows : Comp.rows ∈ fl) (h_banks : Comp.banks ∈ fl) (h_waiters : Comp.waiters ∈ fl) (h_records : Comp.records ∈ fl) (h_early : Comp.early ∈ fl) (h_spillWakes : Comp.spillWakes ∈ fl) (h_fetching : Comp.fetching ∈ fl) (h_descs : Comp.descs ∈ fl) (h_holdings : Comp.holdings ∈ fl) (h_fences : Comp.fences ∈ fl) (h_deadlines : Comp.deadlines ∈ fl) (h_leases : Comp.leases ∈ fl) (h_arming : Comp.arming ∈ fl) (h_heldq : Comp.heldq ∈ fl) (h_sn : Comp.sn ∈ fl) (h_dir : Comp.dir ∈ fl) (h_tack : Comp.tack ∈ fl) (h_fports : Comp.fports ∈ fl) (h_trees : Comp.trees ∈ fl) (h_counters : Comp.counters ∈ fl) (h_gctr : Comp.gctr ∈ fl) (h_rake : Comp.rake ∈ fl) (h_trace : Comp.trace ∈ fl) (h_watches : Comp.watches ∈ fl) (h_irq : Comp.irq ∈ fl) (h_mem : Comp.mem ∈ fl) (h_mmPort : Comp.mmPort ∈ fl) (h_free : Comp.free ∈ fl) (hk : Frame fl fr s) (he : bindFlit p f held turn s = .pass kt) : Frame fl fr kt := by
  unfold bindFlit at he
  repeat' first
    | (cases he; done)
    | (injection he with he; subst he)
    | (injection he with he; injection he with he1 he2; subst he2)
    | (injection he with he)
    | split at he
    | dsimp only at he
    | with_reducible assumption
    | (with_reducible exact Or.inl (by assumption))
    | (with_reducible exact Or.inr rfl)
    | with_reducible apply countStatus_frame
    | with_reducible apply report_frame
    | with_reducible apply bindReply_frame
    | with_reducible apply acceptOp_frame
    | with_reducible apply Frame.ite
    | split
    | dsimp only

theorem popIngress_frame {fl : List Comp} {fr : State} (p : PortNo) (f : Flit) (s : State) (h_aps : Comp.aps ∈ fl) (hk : Frame fl fr s) : Frame fl fr (popIngress p f s) := by
  unfold popIngress
  repeat' first
    | with_reducible assumption
    | (with_reducible exact Or.inl (by assumption))
    | (with_reducible exact Or.inr rfl)
    | with_reducible apply State.modAp_frame
    | dsimp only

theorem passHead_frame {fl : List Comp} {fr : State} (p : PortNo) (f : Flit) (turn : Bool) (s : State) {kt : State} (h_cmds : Comp.cmds ∈ fl) (h_wins : Comp.wins ∈ fl) (h_parts : Comp.parts ∈ fl) (h_binds : Comp.binds ∈ fl) (h_aps : Comp.aps ∈ fl) (h_ops : Comp.ops ∈ fl) (h_merges : Comp.merges ∈ fl) (h_rows : Comp.rows ∈ fl) (h_banks : Comp.banks ∈ fl) (h_waiters : Comp.waiters ∈ fl) (h_records : Comp.records ∈ fl) (h_early : Comp.early ∈ fl) (h_spillWakes : Comp.spillWakes ∈ fl) (h_fetching : Comp.fetching ∈ fl) (h_descs : Comp.descs ∈ fl) (h_holdings : Comp.holdings ∈ fl) (h_fences : Comp.fences ∈ fl) (h_deadlines : Comp.deadlines ∈ fl) (h_leases : Comp.leases ∈ fl) (h_arming : Comp.arming ∈ fl) (h_heldq : Comp.heldq ∈ fl) (h_sn : Comp.sn ∈ fl) (h_dir : Comp.dir ∈ fl) (h_tack : Comp.tack ∈ fl) (h_fports : Comp.fports ∈ fl) (h_trees : Comp.trees ∈ fl) (h_counters : Comp.counters ∈ fl) (h_gctr : Comp.gctr ∈ fl) (h_rake : Comp.rake ∈ fl) (h_trace : Comp.trace ∈ fl) (h_watches : Comp.watches ∈ fl) (h_irq : Comp.irq ∈ fl) (h_mem : Comp.mem ∈ fl) (h_mmPort : Comp.mmPort ∈ fl) (h_free : Comp.free ∈ fl) (hk : Frame fl fr s) (he : passHead p f turn s = some kt) : Frame fl fr kt := by
  unfold passHead at he
  repeat' first
    | (cases he; done)
    | (injection he with he; subst he)
    | (injection he with he; injection he with he1 he2; subst he2)
    | (injection he with he)
    | split at he
    | dsimp only at he
    | with_reducible assumption
    | (with_reducible exact Or.inl (by assumption))
    | (with_reducible exact Or.inr rfl)
    | with_reducible apply State.modAp_frame
    | (refine bindFlit_frame _ _ _ _ _ (by assumption) (by assumption) (by assumption) (by assumption) (by assumption) (by assumption) (by assumption) (by assumption) (by assumption) (by assumption) (by assumption) (by assumption) (by assumption) (by assumption) (by assumption) (by assumption) (by assumption) (by assumption) (by assumption) (by assumption) (by assumption) (by assumption) (by assumption) (by assumption) (by assumption) (by assumption) (by assumption) (by assumption) (by assumption) (by assumption) (by assumption) (by assumption) (by assumption) (by assumption) (by assumption) ?_ (by with_reducible assumption))
    | with_reducible apply popIngress_frame
    | with_reducible apply Frame.ite
    | split
    | dsimp only

theorem feedGo_frame {fl : List Comp} {fr : State} (p : PortNo) (l : List Flit) (h_cmds : Comp.cmds ∈ fl) (h_wins : Comp.wins ∈ fl) (h_parts : Comp.parts ∈ fl) (h_binds : Comp.binds ∈ fl) (h_aps : Comp.aps ∈ fl) (h_ops : Comp.ops ∈ fl) (h_merges : Comp.merges ∈ fl) (h_rows : Comp.rows ∈ fl) (h_banks : Comp.banks ∈ fl) (h_waiters : Comp.waiters ∈ fl) (h_records : Comp.records ∈ fl) (h_early : Comp.early ∈ fl) (h_spillWakes : Comp.spillWakes ∈ fl) (h_fetching : Comp.fetching ∈ fl) (h_descs : Comp.descs ∈ fl) (h_holdings : Comp.holdings ∈ fl) (h_fences : Comp.fences ∈ fl) (h_deadlines : Comp.deadlines ∈ fl) (h_leases : Comp.leases ∈ fl) (h_arming : Comp.arming ∈ fl) (h_heldq : Comp.heldq ∈ fl) (h_sn : Comp.sn ∈ fl) (h_dir : Comp.dir ∈ fl) (h_tack : Comp.tack ∈ fl) (h_fports : Comp.fports ∈ fl) (h_trees : Comp.trees ∈ fl) (h_counters : Comp.counters ∈ fl) (h_gctr : Comp.gctr ∈ fl) (h_rake : Comp.rake ∈ fl) (h_trace : Comp.trace ∈ fl) (h_watches : Comp.watches ∈ fl) (h_irq : Comp.irq ∈ fl) (h_mem : Comp.mem ∈ fl) (h_mmPort : Comp.mmPort ∈ fl) (h_free : Comp.free ∈ fl) : ∀ (s : State), Frame fl fr s → Frame fl fr (feedGo p l s) := by
  induction l with
  | nil => intro s hk; unfold feedGo; exact hk
  | cons x l ih =>
    intro s hk
    unfold feedGo
    repeat' first
      | with_reducible assumption
      | (with_reducible exact Or.inl (by assumption))
      | (with_reducible exact Or.inr rfl)
      | with_reducible apply ih
      | (refine passHead_frame _ _ _ _ (by assumption) (by assumption) (by assumption) (by assumption) (by assumption) (by assumption) (by assumption) (by assumption) (by assumption) (by assumption) (by assumption) (by assumption) (by assumption) (by assumption) (by assumption) (by assumption) (by assumption) (by assumption) (by assumption) (by assumption) (by assumption) (by assumption) (by assumption) (by assumption) (by assumption) (by assumption) (by assumption) (by assumption) (by assumption) (by assumption) (by assumption) (by assumption) (by assumption) (by assumption) (by assumption) ?_ (by with_reducible assumption))
      | split
      | dsimp only

theorem feed_frame {fl : List Comp} {fr : State} (p : PortNo) (s : State) (h_cmds : Comp.cmds ∈ fl) (h_wins : Comp.wins ∈ fl) (h_parts : Comp.parts ∈ fl) (h_binds : Comp.binds ∈ fl) (h_aps : Comp.aps ∈ fl) (h_ops : Comp.ops ∈ fl) (h_merges : Comp.merges ∈ fl) (h_rows : Comp.rows ∈ fl) (h_banks : Comp.banks ∈ fl) (h_waiters : Comp.waiters ∈ fl) (h_records : Comp.records ∈ fl) (h_early : Comp.early ∈ fl) (h_spillWakes : Comp.spillWakes ∈ fl) (h_fetching : Comp.fetching ∈ fl) (h_descs : Comp.descs ∈ fl) (h_holdings : Comp.holdings ∈ fl) (h_fences : Comp.fences ∈ fl) (h_deadlines : Comp.deadlines ∈ fl) (h_leases : Comp.leases ∈ fl) (h_arming : Comp.arming ∈ fl) (h_heldq : Comp.heldq ∈ fl) (h_sn : Comp.sn ∈ fl) (h_dir : Comp.dir ∈ fl) (h_tack : Comp.tack ∈ fl) (h_fports : Comp.fports ∈ fl) (h_trees : Comp.trees ∈ fl) (h_counters : Comp.counters ∈ fl) (h_gctr : Comp.gctr ∈ fl) (h_rake : Comp.rake ∈ fl) (h_trace : Comp.trace ∈ fl) (h_watches : Comp.watches ∈ fl) (h_irq : Comp.irq ∈ fl) (h_mem : Comp.mem ∈ fl) (h_mmPort : Comp.mmPort ∈ fl) (h_free : Comp.free ∈ fl) (hk : Frame fl fr s) : Frame fl fr (feed p s) := by
  unfold feed
  repeat' first
    | with_reducible assumption
    | (with_reducible exact Or.inl (by assumption))
    | (with_reducible exact Or.inr rfl)
    | with_reducible apply feedGo_frame
    | with_reducible apply Frame.ite
    | split
    | dsimp only

theorem passOne_frame {fl : List Comp} {fr : State} (p : PortNo) (s : State) {kt : State} (h_cmds : Comp.cmds ∈ fl) (h_wins : Comp.wins ∈ fl) (h_parts : Comp.parts ∈ fl) (h_binds : Comp.binds ∈ fl) (h_aps : Comp.aps ∈ fl) (h_ops : Comp.ops ∈ fl) (h_merges : Comp.merges ∈ fl) (h_rows : Comp.rows ∈ fl) (h_banks : Comp.banks ∈ fl) (h_waiters : Comp.waiters ∈ fl) (h_records : Comp.records ∈ fl) (h_early : Comp.early ∈ fl) (h_spillWakes : Comp.spillWakes ∈ fl) (h_fetching : Comp.fetching ∈ fl) (h_descs : Comp.descs ∈ fl) (h_holdings : Comp.holdings ∈ fl) (h_fences : Comp.fences ∈ fl) (h_deadlines : Comp.deadlines ∈ fl) (h_leases : Comp.leases ∈ fl) (h_arming : Comp.arming ∈ fl) (h_heldq : Comp.heldq ∈ fl) (h_sn : Comp.sn ∈ fl) (h_dir : Comp.dir ∈ fl) (h_tack : Comp.tack ∈ fl) (h_fports : Comp.fports ∈ fl) (h_trees : Comp.trees ∈ fl) (h_counters : Comp.counters ∈ fl) (h_gctr : Comp.gctr ∈ fl) (h_rake : Comp.rake ∈ fl) (h_trace : Comp.trace ∈ fl) (h_watches : Comp.watches ∈ fl) (h_irq : Comp.irq ∈ fl) (h_mem : Comp.mem ∈ fl) (h_mmPort : Comp.mmPort ∈ fl) (h_free : Comp.free ∈ fl) (hk : Frame fl fr s) (he : passOne p s = some kt) : Frame fl fr kt := by
  unfold passOne at he
  repeat' first
    | (cases he; done)
    | (injection he with he; subst he)
    | (injection he with he; injection he with he1 he2; subst he2)
    | (injection he with he)
    | split at he
    | dsimp only at he
    | with_reducible assumption
    | (with_reducible exact Or.inl (by assumption))
    | (with_reducible exact Or.inr rfl)
    | with_reducible apply State.modAp_frame
    | (refine bindFlit_frame _ _ _ _ _ (by assumption) (by assumption) (by assumption) (by assumption) (by assumption) (by assumption) (by assumption) (by assumption) (by assumption) (by assumption) (by assumption) (by assumption) (by assumption) (by assumption) (by assumption) (by assumption) (by assumption) (by assumption) (by assumption) (by assumption) (by assumption) (by assumption) (by assumption) (by assumption) (by assumption) (by assumption) (by assumption) (by assumption) (by assumption) (by assumption) (by assumption) (by assumption) (by assumption) (by assumption) (by assumption) ?_ (by with_reducible assumption))
    | (refine passHead_frame _ _ _ _ (by assumption) (by assumption) (by assumption) (by assumption) (by assumption) (by assumption) (by assumption) (by assumption) (by assumption) (by assumption) (by assumption) (by assumption) (by assumption) (by assumption) (by assumption) (by assumption) (by assumption) (by assumption) (by assumption) (by assumption) (by assumption) (by assumption) (by assumption) (by assumption) (by assumption) (by assumption) (by assumption) (by assumption) (by assumption) (by assumption) (by assumption) (by assumption) (by assumption) (by assumption) (by assumption) ?_ (by with_reducible assumption))
    | split
    | dsimp only

theorem passTurn_frame {fl : List Comp} {fr : State} (i : Nat) (s : State) (h_cmds : Comp.cmds ∈ fl) (h_wins : Comp.wins ∈ fl) (h_parts : Comp.parts ∈ fl) (h_binds : Comp.binds ∈ fl) (h_aps : Comp.aps ∈ fl) (h_ops : Comp.ops ∈ fl) (h_merges : Comp.merges ∈ fl) (h_rr : Comp.rr ∈ fl) (h_rows : Comp.rows ∈ fl) (h_banks : Comp.banks ∈ fl) (h_waiters : Comp.waiters ∈ fl) (h_records : Comp.records ∈ fl) (h_early : Comp.early ∈ fl) (h_spillWakes : Comp.spillWakes ∈ fl) (h_fetching : Comp.fetching ∈ fl) (h_descs : Comp.descs ∈ fl) (h_holdings : Comp.holdings ∈ fl) (h_fences : Comp.fences ∈ fl) (h_deadlines : Comp.deadlines ∈ fl) (h_leases : Comp.leases ∈ fl) (h_arming : Comp.arming ∈ fl) (h_heldq : Comp.heldq ∈ fl) (h_sn : Comp.sn ∈ fl) (h_dir : Comp.dir ∈ fl) (h_tack : Comp.tack ∈ fl) (h_fports : Comp.fports ∈ fl) (h_trees : Comp.trees ∈ fl) (h_counters : Comp.counters ∈ fl) (h_gctr : Comp.gctr ∈ fl) (h_rake : Comp.rake ∈ fl) (h_trace : Comp.trace ∈ fl) (h_watches : Comp.watches ∈ fl) (h_irq : Comp.irq ∈ fl) (h_mem : Comp.mem ∈ fl) (h_mmPort : Comp.mmPort ∈ fl) (h_free : Comp.free ∈ fl) (hk : Frame fl fr s) : Frame fl fr (passTurn i s) := by
  unfold passTurn
  repeat' first
    | with_reducible assumption
    | (with_reducible exact Or.inl (by assumption))
    | (with_reducible exact Or.inr rfl)
    | with_reducible apply State.modOpr_frame
    | (refine passOne_frame _ _ (by assumption) (by assumption) (by assumption) (by assumption) (by assumption) (by assumption) (by assumption) (by assumption) (by assumption) (by assumption) (by assumption) (by assumption) (by assumption) (by assumption) (by assumption) (by assumption) (by assumption) (by assumption) (by assumption) (by assumption) (by assumption) (by assumption) (by assumption) (by assumption) (by assumption) (by assumption) (by assumption) (by assumption) (by assumption) (by assumption) (by assumption) (by assumption) (by assumption) (by assumption) (by assumption) ?_ (by with_reducible assumption))
    | split
    | dsimp only

theorem passRounds_frame {fl : List Comp} {fr : State}  (n : Nat) (h_cmds : Comp.cmds ∈ fl) (h_wins : Comp.wins ∈ fl) (h_parts : Comp.parts ∈ fl) (h_binds : Comp.binds ∈ fl) (h_aps : Comp.aps ∈ fl) (h_ops : Comp.ops ∈ fl) (h_merges : Comp.merges ∈ fl) (h_rr : Comp.rr ∈ fl) (h_rows : Comp.rows ∈ fl) (h_banks : Comp.banks ∈ fl) (h_waiters : Comp.waiters ∈ fl) (h_records : Comp.records ∈ fl) (h_early : Comp.early ∈ fl) (h_spillWakes : Comp.spillWakes ∈ fl) (h_fetching : Comp.fetching ∈ fl) (h_descs : Comp.descs ∈ fl) (h_holdings : Comp.holdings ∈ fl) (h_fences : Comp.fences ∈ fl) (h_deadlines : Comp.deadlines ∈ fl) (h_leases : Comp.leases ∈ fl) (h_arming : Comp.arming ∈ fl) (h_heldq : Comp.heldq ∈ fl) (h_sn : Comp.sn ∈ fl) (h_dir : Comp.dir ∈ fl) (h_tack : Comp.tack ∈ fl) (h_fports : Comp.fports ∈ fl) (h_trees : Comp.trees ∈ fl) (h_counters : Comp.counters ∈ fl) (h_gctr : Comp.gctr ∈ fl) (h_rake : Comp.rake ∈ fl) (h_trace : Comp.trace ∈ fl) (h_watches : Comp.watches ∈ fl) (h_irq : Comp.irq ∈ fl) (h_mem : Comp.mem ∈ fl) (h_mmPort : Comp.mmPort ∈ fl) (h_free : Comp.free ∈ fl) : ∀ (s : State), Frame fl fr s → Frame fl fr (passRounds  n s) := by
  induction n with
  | zero => intro s hk; unfold passRounds; exact hk
  | succ n ih =>
    intro s hk
    unfold passRounds
    repeat' first
      | with_reducible assumption
      | (with_reducible exact Or.inl (by assumption))
      | (with_reducible exact Or.inr rfl)
      | with_reducible apply ih
      | with_reducible apply passTurn_frame
      | (with_reducible refine Frame.foldl (fun _ _ _ => ?_) ?_)
      | split
      | dsimp only

theorem feedAll_frame {fl : List Comp} {fr : State} (s : State) (h_cmds : Comp.cmds ∈ fl) (h_wins : Comp.wins ∈ fl) (h_parts : Comp.parts ∈ fl) (h_binds : Comp.binds ∈ fl) (h_aps : Comp.aps ∈ fl) (h_ops : Comp.ops ∈ fl) (h_merges : Comp.merges ∈ fl) (h_rr : Comp.rr ∈ fl) (h_rows : Comp.rows ∈ fl) (h_banks : Comp.banks ∈ fl) (h_waiters : Comp.waiters ∈ fl) (h_records : Comp.records ∈ fl) (h_early : Comp.early ∈ fl) (h_spillWakes : Comp.spillWakes ∈ fl) (h_fetching : Comp.fetching ∈ fl) (h_descs : Comp.descs ∈ fl) (h_holdings : Comp.holdings ∈ fl) (h_fences : Comp.fences ∈ fl) (h_deadlines : Comp.deadlines ∈ fl) (h_leases : Comp.leases ∈ fl) (h_arming : Comp.arming ∈ fl) (h_heldq : Comp.heldq ∈ fl) (h_sn : Comp.sn ∈ fl) (h_dir : Comp.dir ∈ fl) (h_tack : Comp.tack ∈ fl) (h_fports : Comp.fports ∈ fl) (h_trees : Comp.trees ∈ fl) (h_counters : Comp.counters ∈ fl) (h_gctr : Comp.gctr ∈ fl) (h_rake : Comp.rake ∈ fl) (h_trace : Comp.trace ∈ fl) (h_watches : Comp.watches ∈ fl) (h_irq : Comp.irq ∈ fl) (h_mem : Comp.mem ∈ fl) (h_mmPort : Comp.mmPort ∈ fl) (h_free : Comp.free ∈ fl) (hk : Frame fl fr s) : Frame fl fr (feedAll s) := by
  unfold feedAll
  repeat' first
    | with_reducible assumption
    | (with_reducible exact Or.inl (by assumption))
    | (with_reducible exact Or.inr rfl)
    | with_reducible apply passRounds_frame
    | with_reducible apply Frame.ite
    | (with_reducible refine Frame.foldl (fun _ _ _ => ?_) ?_)
    | split
    | dsimp only

theorem resumePart_frame {fl : List Comp} {fr : State} (part : PartId) (s : State) (h_cmds : Comp.cmds ∈ fl) (h_wins : Comp.wins ∈ fl) (h_parts : Comp.parts ∈ fl) (h_binds : Comp.binds ∈ fl) (h_aps : Comp.aps ∈ fl) (h_ops : Comp.ops ∈ fl) (h_merges : Comp.merges ∈ fl) (h_rr : Comp.rr ∈ fl) (h_rows : Comp.rows ∈ fl) (h_banks : Comp.banks ∈ fl) (h_waiters : Comp.waiters ∈ fl) (h_records : Comp.records ∈ fl) (h_early : Comp.early ∈ fl) (h_spillWakes : Comp.spillWakes ∈ fl) (h_fetching : Comp.fetching ∈ fl) (h_descs : Comp.descs ∈ fl) (h_holdings : Comp.holdings ∈ fl) (h_fences : Comp.fences ∈ fl) (h_deadlines : Comp.deadlines ∈ fl) (h_leases : Comp.leases ∈ fl) (h_arming : Comp.arming ∈ fl) (h_heldq : Comp.heldq ∈ fl) (h_sn : Comp.sn ∈ fl) (h_dir : Comp.dir ∈ fl) (h_tack : Comp.tack ∈ fl) (h_fports : Comp.fports ∈ fl) (h_trees : Comp.trees ∈ fl) (h_counters : Comp.counters ∈ fl) (h_gctr : Comp.gctr ∈ fl) (h_rake : Comp.rake ∈ fl) (h_trace : Comp.trace ∈ fl) (h_watches : Comp.watches ∈ fl) (h_irq : Comp.irq ∈ fl) (h_mem : Comp.mem ∈ fl) (h_mmPort : Comp.mmPort ∈ fl) (h_free : Comp.free ∈ fl) (hk : Frame fl fr s) : Frame fl fr (resumePart part s) := by
  unfold resumePart
  repeat' first
    | with_reducible assumption
    | (with_reducible exact Or.inl (by assumption))
    | (with_reducible exact Or.inr rfl)
    | with_reducible apply noticePart_frame
    | with_reducible apply feedAll_frame
    | with_reducible apply Frame.ite
    | split
    | dsimp only

theorem drainPart_frame {fl : List Comp} {fr : State} (part : PartId) (s : State) (h_aps : Comp.aps ∈ fl) (h_ops : Comp.ops ∈ fl) (hk : Frame fl fr s) : Frame fl fr (drainPart part s) := by
  unfold drainPart
  repeat' first
    | with_reducible assumption
    | (with_reducible exact Or.inl (by assumption))
    | (with_reducible exact Or.inr rfl)
    | with_reducible apply noticePart_frame
    | dsimp only

theorem noteCapture_frame {fl : List Comp} {fr : State} (c : CapSrc) (s : State) (h_hobble : Comp.hobble ∈ fl) (hk : Frame fl fr s) : Frame fl fr (noteCapture c s) := by
  unfold noteCapture
  repeat' first
    | with_reducible assumption
    | (with_reducible exact Or.inl (by assumption))
    | (with_reducible exact Or.inr rfl)
    | with_reducible apply State.modHob_frame
    | with_reducible apply Frame.ite
    | split
    | dsimp only

theorem enterIngress_frame {fl : List Comp} {fr : State} (p : PortNo) (f : Flit) (s : State) (h_cmds : Comp.cmds ∈ fl) (h_wins : Comp.wins ∈ fl) (h_parts : Comp.parts ∈ fl) (h_binds : Comp.binds ∈ fl) (h_aps : Comp.aps ∈ fl) (h_ops : Comp.ops ∈ fl) (h_merges : Comp.merges ∈ fl) (h_rows : Comp.rows ∈ fl) (h_banks : Comp.banks ∈ fl) (h_waiters : Comp.waiters ∈ fl) (h_records : Comp.records ∈ fl) (h_early : Comp.early ∈ fl) (h_spillWakes : Comp.spillWakes ∈ fl) (h_fetching : Comp.fetching ∈ fl) (h_descs : Comp.descs ∈ fl) (h_holdings : Comp.holdings ∈ fl) (h_fences : Comp.fences ∈ fl) (h_deadlines : Comp.deadlines ∈ fl) (h_leases : Comp.leases ∈ fl) (h_arming : Comp.arming ∈ fl) (h_heldq : Comp.heldq ∈ fl) (h_sn : Comp.sn ∈ fl) (h_dir : Comp.dir ∈ fl) (h_tack : Comp.tack ∈ fl) (h_fports : Comp.fports ∈ fl) (h_trees : Comp.trees ∈ fl) (h_counters : Comp.counters ∈ fl) (h_gctr : Comp.gctr ∈ fl) (h_rake : Comp.rake ∈ fl) (h_trace : Comp.trace ∈ fl) (h_hobble : Comp.hobble ∈ fl) (h_watches : Comp.watches ∈ fl) (h_irq : Comp.irq ∈ fl) (h_mem : Comp.mem ∈ fl) (h_mmPort : Comp.mmPort ∈ fl) (h_free : Comp.free ∈ fl) (hk : Frame fl fr s) : Frame fl fr (enterIngress p f s) := by
  unfold enterIngress
  repeat' first
    | with_reducible assumption
    | (with_reducible exact Or.inl (by assumption))
    | (with_reducible exact Or.inr rfl)
    | with_reducible apply State.modAp_frame
    | with_reducible apply feed_frame
    | with_reducible apply noteCapture_frame
    | dsimp only

theorem captureNext_frame {fl : List Comp} {fr : State} (p : PortNo) (a : LocalAgent) (code : Byte) (f : Req) (s : State) (h_cmds : Comp.cmds ∈ fl) (h_wins : Comp.wins ∈ fl) (h_parts : Comp.parts ∈ fl) (h_binds : Comp.binds ∈ fl) (h_aps : Comp.aps ∈ fl) (h_ops : Comp.ops ∈ fl) (h_merges : Comp.merges ∈ fl) (h_rows : Comp.rows ∈ fl) (h_banks : Comp.banks ∈ fl) (h_waiters : Comp.waiters ∈ fl) (h_records : Comp.records ∈ fl) (h_early : Comp.early ∈ fl) (h_spillWakes : Comp.spillWakes ∈ fl) (h_fetching : Comp.fetching ∈ fl) (h_descs : Comp.descs ∈ fl) (h_holdings : Comp.holdings ∈ fl) (h_fences : Comp.fences ∈ fl) (h_deadlines : Comp.deadlines ∈ fl) (h_leases : Comp.leases ∈ fl) (h_arming : Comp.arming ∈ fl) (h_heldq : Comp.heldq ∈ fl) (h_sn : Comp.sn ∈ fl) (h_dir : Comp.dir ∈ fl) (h_tack : Comp.tack ∈ fl) (h_fports : Comp.fports ∈ fl) (h_trees : Comp.trees ∈ fl) (h_counters : Comp.counters ∈ fl) (h_gctr : Comp.gctr ∈ fl) (h_rake : Comp.rake ∈ fl) (h_trace : Comp.trace ∈ fl) (h_hobble : Comp.hobble ∈ fl) (h_watches : Comp.watches ∈ fl) (h_irq : Comp.irq ∈ fl) (h_mem : Comp.mem ∈ fl) (h_mmPort : Comp.mmPort ∈ fl) (h_free : Comp.free ∈ fl) (hk : Frame fl fr s) : Frame fl fr (captureNext p a code f s) := by
  unfold captureNext
  repeat' first
    | with_reducible assumption
    | (with_reducible exact Or.inl (by assumption))
    | (with_reducible exact Or.inr rfl)
    | with_reducible apply State.modAp_frame
    | with_reducible apply enterIngress_frame
    | with_reducible apply Frame.ite
    | split
    | dsimp only

theorem captureFlit_frame {fl : List Comp} {fr : State} (p : PortNo) (a : LocalAgent) (code : Byte) (f : Req) (s : State) (h_cmds : Comp.cmds ∈ fl) (h_wins : Comp.wins ∈ fl) (h_parts : Comp.parts ∈ fl) (h_binds : Comp.binds ∈ fl) (h_aps : Comp.aps ∈ fl) (h_ops : Comp.ops ∈ fl) (h_merges : Comp.merges ∈ fl) (h_rows : Comp.rows ∈ fl) (h_banks : Comp.banks ∈ fl) (h_waiters : Comp.waiters ∈ fl) (h_records : Comp.records ∈ fl) (h_early : Comp.early ∈ fl) (h_spillWakes : Comp.spillWakes ∈ fl) (h_fetching : Comp.fetching ∈ fl) (h_descs : Comp.descs ∈ fl) (h_holdings : Comp.holdings ∈ fl) (h_fences : Comp.fences ∈ fl) (h_deadlines : Comp.deadlines ∈ fl) (h_leases : Comp.leases ∈ fl) (h_arming : Comp.arming ∈ fl) (h_heldq : Comp.heldq ∈ fl) (h_sn : Comp.sn ∈ fl) (h_dir : Comp.dir ∈ fl) (h_tack : Comp.tack ∈ fl) (h_fports : Comp.fports ∈ fl) (h_trees : Comp.trees ∈ fl) (h_counters : Comp.counters ∈ fl) (h_gctr : Comp.gctr ∈ fl) (h_rake : Comp.rake ∈ fl) (h_trace : Comp.trace ∈ fl) (h_hobble : Comp.hobble ∈ fl) (h_watches : Comp.watches ∈ fl) (h_irq : Comp.irq ∈ fl) (h_mem : Comp.mem ∈ fl) (h_mmPort : Comp.mmPort ∈ fl) (h_free : Comp.free ∈ fl) (hk : Frame fl fr s) : Frame fl fr (captureFlit p a code f s) := by
  unfold captureFlit
  repeat' first
    | with_reducible assumption
    | (with_reducible exact Or.inl (by assumption))
    | (with_reducible exact Or.inr rfl)
    | with_reducible apply State.modAp_frame
    | with_reducible apply enterIngress_frame
    | with_reducible apply captureNext_frame
    | with_reducible apply Frame.ite
    | split
    | dsimp only

theorem takeFlit_frame {fl : List Comp} {fr : State} (p : PortNo) (a : LocalAgent) (w : BitVec 128) (s : State) (h_cmds : Comp.cmds ∈ fl) (h_wins : Comp.wins ∈ fl) (h_parts : Comp.parts ∈ fl) (h_binds : Comp.binds ∈ fl) (h_aps : Comp.aps ∈ fl) (h_ops : Comp.ops ∈ fl) (h_merges : Comp.merges ∈ fl) (h_rows : Comp.rows ∈ fl) (h_banks : Comp.banks ∈ fl) (h_waiters : Comp.waiters ∈ fl) (h_records : Comp.records ∈ fl) (h_early : Comp.early ∈ fl) (h_spillWakes : Comp.spillWakes ∈ fl) (h_fetching : Comp.fetching ∈ fl) (h_descs : Comp.descs ∈ fl) (h_holdings : Comp.holdings ∈ fl) (h_fences : Comp.fences ∈ fl) (h_deadlines : Comp.deadlines ∈ fl) (h_leases : Comp.leases ∈ fl) (h_arming : Comp.arming ∈ fl) (h_heldq : Comp.heldq ∈ fl) (h_sn : Comp.sn ∈ fl) (h_dir : Comp.dir ∈ fl) (h_tack : Comp.tack ∈ fl) (h_fports : Comp.fports ∈ fl) (h_trees : Comp.trees ∈ fl) (h_counters : Comp.counters ∈ fl) (h_gctr : Comp.gctr ∈ fl) (h_rake : Comp.rake ∈ fl) (h_trace : Comp.trace ∈ fl) (h_hobble : Comp.hobble ∈ fl) (h_watches : Comp.watches ∈ fl) (h_irq : Comp.irq ∈ fl) (h_mem : Comp.mem ∈ fl) (h_mmPort : Comp.mmPort ∈ fl) (h_free : Comp.free ∈ fl) (hk : Frame fl fr s) : Frame fl fr (takeFlit p a w s) := by
  unfold takeFlit
  repeat' first
    | with_reducible assumption
    | (with_reducible exact Or.inl (by assumption))
    | (with_reducible exact Or.inr rfl)
    | with_reducible apply State.modAp_frame
    | with_reducible apply report_frame
    | with_reducible apply captureFlit_frame
    | with_reducible apply Frame.ite
    | split
    | dsimp only

theorem issue_frame {fl : List Comp} {fr : State} (p : PortNo) (a : LocalAgent) (code : Byte) (f : Req) (s : State) (h_cmds : Comp.cmds ∈ fl) (h_wins : Comp.wins ∈ fl) (h_parts : Comp.parts ∈ fl) (h_binds : Comp.binds ∈ fl) (h_aps : Comp.aps ∈ fl) (h_ops : Comp.ops ∈ fl) (h_merges : Comp.merges ∈ fl) (h_rows : Comp.rows ∈ fl) (h_banks : Comp.banks ∈ fl) (h_waiters : Comp.waiters ∈ fl) (h_records : Comp.records ∈ fl) (h_early : Comp.early ∈ fl) (h_spillWakes : Comp.spillWakes ∈ fl) (h_fetching : Comp.fetching ∈ fl) (h_descs : Comp.descs ∈ fl) (h_holdings : Comp.holdings ∈ fl) (h_fences : Comp.fences ∈ fl) (h_deadlines : Comp.deadlines ∈ fl) (h_leases : Comp.leases ∈ fl) (h_arming : Comp.arming ∈ fl) (h_heldq : Comp.heldq ∈ fl) (h_sn : Comp.sn ∈ fl) (h_dir : Comp.dir ∈ fl) (h_tack : Comp.tack ∈ fl) (h_fports : Comp.fports ∈ fl) (h_trees : Comp.trees ∈ fl) (h_counters : Comp.counters ∈ fl) (h_gctr : Comp.gctr ∈ fl) (h_rake : Comp.rake ∈ fl) (h_trace : Comp.trace ∈ fl) (h_hobble : Comp.hobble ∈ fl) (h_watches : Comp.watches ∈ fl) (h_irq : Comp.irq ∈ fl) (h_mem : Comp.mem ∈ fl) (h_mmPort : Comp.mmPort ∈ fl) (h_free : Comp.free ∈ fl) (hk : Frame fl fr s) : Frame fl fr (issue p a code f s) := by
  unfold issue
  repeat' first
    | with_reducible assumption
    | (with_reducible exact Or.inl (by assumption))
    | (with_reducible exact Or.inr rfl)
    | with_reducible apply takeFlit_frame
    | dsimp only

theorem grantGo_frame {fl : List Comp} {fr : State} (s : State) (l : List Nat) (h_cmds : Comp.cmds ∈ fl) (h_wins : Comp.wins ∈ fl) (h_parts : Comp.parts ∈ fl) (h_binds : Comp.binds ∈ fl) (h_aps : Comp.aps ∈ fl) (h_ops : Comp.ops ∈ fl) (h_merges : Comp.merges ∈ fl) (h_rr : Comp.rr ∈ fl) (h_rows : Comp.rows ∈ fl) (h_banks : Comp.banks ∈ fl) (h_waiters : Comp.waiters ∈ fl) (h_records : Comp.records ∈ fl) (h_early : Comp.early ∈ fl) (h_spillWakes : Comp.spillWakes ∈ fl) (h_fetching : Comp.fetching ∈ fl) (h_descs : Comp.descs ∈ fl) (h_holdings : Comp.holdings ∈ fl) (h_fences : Comp.fences ∈ fl) (h_deadlines : Comp.deadlines ∈ fl) (h_leases : Comp.leases ∈ fl) (h_arming : Comp.arming ∈ fl) (h_heldq : Comp.heldq ∈ fl) (h_sn : Comp.sn ∈ fl) (h_dir : Comp.dir ∈ fl) (h_tack : Comp.tack ∈ fl) (h_fports : Comp.fports ∈ fl) (h_trees : Comp.trees ∈ fl) (h_counters : Comp.counters ∈ fl) (h_gctr : Comp.gctr ∈ fl) (h_rake : Comp.rake ∈ fl) (h_trace : Comp.trace ∈ fl) (h_watches : Comp.watches ∈ fl) (h_irq : Comp.irq ∈ fl) (h_mem : Comp.mem ∈ fl) (h_mmPort : Comp.mmPort ∈ fl) (h_free : Comp.free ∈ fl) (hk : Frame fl fr s) : Frame fl fr (grantGo s l) := by
  induction l with
  | nil => exact hk
  | cons i l ih =>
    unfold grantGo
    split
    · apply passTurn_frame <;> assumption
    · exact ih

theorem opTableGrant_frame {fl : List Comp} {fr : State} (s : State) (h_cmds : Comp.cmds ∈ fl) (h_wins : Comp.wins ∈ fl) (h_parts : Comp.parts ∈ fl) (h_binds : Comp.binds ∈ fl) (h_aps : Comp.aps ∈ fl) (h_ops : Comp.ops ∈ fl) (h_merges : Comp.merges ∈ fl) (h_rr : Comp.rr ∈ fl) (h_rows : Comp.rows ∈ fl) (h_banks : Comp.banks ∈ fl) (h_waiters : Comp.waiters ∈ fl) (h_records : Comp.records ∈ fl) (h_early : Comp.early ∈ fl) (h_spillWakes : Comp.spillWakes ∈ fl) (h_fetching : Comp.fetching ∈ fl) (h_descs : Comp.descs ∈ fl) (h_holdings : Comp.holdings ∈ fl) (h_fences : Comp.fences ∈ fl) (h_deadlines : Comp.deadlines ∈ fl) (h_leases : Comp.leases ∈ fl) (h_arming : Comp.arming ∈ fl) (h_heldq : Comp.heldq ∈ fl) (h_sn : Comp.sn ∈ fl) (h_dir : Comp.dir ∈ fl) (h_tack : Comp.tack ∈ fl) (h_fports : Comp.fports ∈ fl) (h_trees : Comp.trees ∈ fl) (h_counters : Comp.counters ∈ fl) (h_gctr : Comp.gctr ∈ fl) (h_rake : Comp.rake ∈ fl) (h_trace : Comp.trace ∈ fl) (h_watches : Comp.watches ∈ fl) (h_irq : Comp.irq ∈ fl) (h_mem : Comp.mem ∈ fl) (h_mmPort : Comp.mmPort ∈ fl) (h_free : Comp.free ∈ fl) (hk : Frame fl fr s) : Frame fl fr (opTableGrant s) := by
  unfold opTableGrant
  repeat' first
    | with_reducible assumption
    | (with_reducible exact Or.inl (by assumption))
    | (with_reducible exact Or.inr rfl)
    | with_reducible apply grantGo_frame
    | with_reducible apply Frame.ite
    | split
    | dsimp only

theorem responseCredit_frame {fl : List Comp} {fr : State} (p : PortNo) (s : State) (h_aps : Comp.aps ∈ fl) (hk : Frame fl fr s) : Frame fl fr (responseCredit p s) := by
  unfold responseCredit
  repeat' first
    | with_reducible assumption
    | (with_reducible exact Or.inl (by assumption))
    | (with_reducible exact Or.inr rfl)
    | with_reducible apply State.modAp_frame
    | with_reducible apply Frame.ite
    | split
    | dsimp only

theorem traceWake_frame {fl : List Comp} {fr : State} (p : PortNo) (r : Rsp) (s : State) (h_wins : Comp.wins ∈ fl) (h_counters : Comp.counters ∈ fl) (h_gctr : Comp.gctr ∈ fl) (h_trace : Comp.trace ∈ fl) (hk : Frame fl fr s) : Frame fl fr (traceWake p r s) := by
  unfold traceWake
  repeat' first
    | with_reducible assumption
    | (with_reducible exact Or.inl (by assumption))
    | (with_reducible exact Or.inr rfl)
    | with_reducible apply traceRec_frame
    | split
    | dsimp only

theorem countRsp_frame {fl : List Comp} {fr : State} (r : Rsp) (s : State) (h_wins : Comp.wins ∈ fl) (h_counters : Comp.counters ∈ fl) (h_gctr : Comp.gctr ∈ fl) (hk : Frame fl fr s) : Frame fl fr (countRsp r s) := by
  unfold countRsp
  repeat' first
    | with_reducible assumption
    | (with_reducible exact Or.inl (by assumption))
    | (with_reducible exact Or.inr rfl)
    | with_reducible apply countN_frame
    | with_reducible apply count_frame
    | with_reducible apply gcount_frame
    | with_reducible apply Frame.ite
    | (with_reducible refine Frame.foldl (fun _ _ _ => ?_) ?_)
    | split
    | dsimp only

theorem responsePresent_frame {fl : List Comp} {fr : State} (p : PortNo) (s : State) (h_wins : Comp.wins ∈ fl) (h_aps : Comp.aps ∈ fl) (h_ops : Comp.ops ∈ fl) (h_counters : Comp.counters ∈ fl) (h_gctr : Comp.gctr ∈ fl) (h_trace : Comp.trace ∈ fl) (hk : Frame fl fr s) : Frame fl fr (responsePresent p s) := by
  unfold responsePresent
  repeat' first
    | with_reducible assumption
    | (with_reducible exact Or.inl (by assumption))
    | (with_reducible exact Or.inr rfl)
    | with_reducible apply State.modAp_frame
    | with_reducible apply freeOpt_frame
    | with_reducible apply traceWake_frame
    | with_reducible apply countRsp_frame
    | with_reducible apply Frame.ite
    | split
    | dsimp only

theorem runReset_frame {fl : List Comp} {fr : State} (p : PortNo) (a : LocalAgent) (idle : Bool) (s : State) (h_aps : Comp.aps ∈ fl) (hk : Frame fl fr s) : Frame fl fr (runReset p a idle s) := by
  unfold runReset
  repeat' first
    | with_reducible assumption
    | (with_reducible exact Or.inl (by assumption))
    | (with_reducible exact Or.inr rfl)
    | with_reducible apply State.modAp_frame
    | dsimp only

theorem discardAgent_frame {fl : List Comp} {fr : State} (p : PortNo) (a : LocalAgent) (s : State) (h_cmds : Comp.cmds ∈ fl) (h_wins : Comp.wins ∈ fl) (h_parts : Comp.parts ∈ fl) (h_binds : Comp.binds ∈ fl) (h_aps : Comp.aps ∈ fl) (h_ops : Comp.ops ∈ fl) (h_merges : Comp.merges ∈ fl) (h_rows : Comp.rows ∈ fl) (h_banks : Comp.banks ∈ fl) (h_waiters : Comp.waiters ∈ fl) (h_records : Comp.records ∈ fl) (h_early : Comp.early ∈ fl) (h_spillWakes : Comp.spillWakes ∈ fl) (h_fetching : Comp.fetching ∈ fl) (h_descs : Comp.descs ∈ fl) (h_holdings : Comp.holdings ∈ fl) (h_fences : Comp.fences ∈ fl) (h_deadlines : Comp.deadlines ∈ fl) (h_leases : Comp.leases ∈ fl) (h_arming : Comp.arming ∈ fl) (h_heldq : Comp.heldq ∈ fl) (h_sn : Comp.sn ∈ fl) (h_dir : Comp.dir ∈ fl) (h_tack : Comp.tack ∈ fl) (h_fports : Comp.fports ∈ fl) (h_trees : Comp.trees ∈ fl) (h_counters : Comp.counters ∈ fl) (h_gctr : Comp.gctr ∈ fl) (h_rake : Comp.rake ∈ fl) (h_trace : Comp.trace ∈ fl) (h_hobble : Comp.hobble ∈ fl) (h_watches : Comp.watches ∈ fl) (h_irq : Comp.irq ∈ fl) (h_mem : Comp.mem ∈ fl) (h_mmPort : Comp.mmPort ∈ fl) (h_free : Comp.free ∈ fl) (hk : Frame fl fr s) : Frame fl fr (discardAgent p a s) := by
  unfold discardAgent
  repeat' first
    | with_reducible assumption
    | (with_reducible exact Or.inl (by assumption))
    | (with_reducible exact Or.inr rfl)
    | with_reducible apply State.modAp_frame
    | with_reducible apply State.modHob_frame
    | with_reducible apply pushRsp_frame
    | with_reducible apply feed_frame
    | with_reducible apply Frame.ite
    | (with_reducible refine Frame.foldl (fun _ _ _ => ?_) ?_)
    | split
    | dsimp only

theorem startReset_frame {fl : List Comp} {fr : State} (p : PortNo) (a : LocalAgent) (s : State) (h_cmds : Comp.cmds ∈ fl) (h_wins : Comp.wins ∈ fl) (h_parts : Comp.parts ∈ fl) (h_binds : Comp.binds ∈ fl) (h_aps : Comp.aps ∈ fl) (h_ops : Comp.ops ∈ fl) (h_merges : Comp.merges ∈ fl) (h_rows : Comp.rows ∈ fl) (h_banks : Comp.banks ∈ fl) (h_waiters : Comp.waiters ∈ fl) (h_records : Comp.records ∈ fl) (h_early : Comp.early ∈ fl) (h_spillWakes : Comp.spillWakes ∈ fl) (h_fetching : Comp.fetching ∈ fl) (h_descs : Comp.descs ∈ fl) (h_holdings : Comp.holdings ∈ fl) (h_fences : Comp.fences ∈ fl) (h_deadlines : Comp.deadlines ∈ fl) (h_leases : Comp.leases ∈ fl) (h_arming : Comp.arming ∈ fl) (h_heldq : Comp.heldq ∈ fl) (h_sn : Comp.sn ∈ fl) (h_dir : Comp.dir ∈ fl) (h_tack : Comp.tack ∈ fl) (h_fports : Comp.fports ∈ fl) (h_trees : Comp.trees ∈ fl) (h_counters : Comp.counters ∈ fl) (h_gctr : Comp.gctr ∈ fl) (h_rake : Comp.rake ∈ fl) (h_trace : Comp.trace ∈ fl) (h_hobble : Comp.hobble ∈ fl) (h_watches : Comp.watches ∈ fl) (h_irq : Comp.irq ∈ fl) (h_mem : Comp.mem ∈ fl) (h_mmPort : Comp.mmPort ∈ fl) (h_free : Comp.free ∈ fl) (hk : Frame fl fr s) : Frame fl fr (startReset p a s) := by
  unfold startReset
  repeat' first
    | with_reducible assumption
    | (with_reducible exact Or.inl (by assumption))
    | (with_reducible exact Or.inr rfl)
    | with_reducible apply runReset_frame
    | with_reducible apply discardAgent_frame
    | with_reducible apply Frame.ite
    | split
    | dsimp only

theorem addReset_frame {fl : List Comp} {fr : State} (p : PortNo) (a : LocalAgent) (unbind : Bool) (s : State) (h_cmds : Comp.cmds ∈ fl) (h_wins : Comp.wins ∈ fl) (h_parts : Comp.parts ∈ fl) (h_binds : Comp.binds ∈ fl) (h_aps : Comp.aps ∈ fl) (h_ops : Comp.ops ∈ fl) (h_merges : Comp.merges ∈ fl) (h_rows : Comp.rows ∈ fl) (h_banks : Comp.banks ∈ fl) (h_waiters : Comp.waiters ∈ fl) (h_records : Comp.records ∈ fl) (h_early : Comp.early ∈ fl) (h_spillWakes : Comp.spillWakes ∈ fl) (h_fetching : Comp.fetching ∈ fl) (h_descs : Comp.descs ∈ fl) (h_holdings : Comp.holdings ∈ fl) (h_fences : Comp.fences ∈ fl) (h_deadlines : Comp.deadlines ∈ fl) (h_leases : Comp.leases ∈ fl) (h_arming : Comp.arming ∈ fl) (h_heldq : Comp.heldq ∈ fl) (h_sn : Comp.sn ∈ fl) (h_dir : Comp.dir ∈ fl) (h_tack : Comp.tack ∈ fl) (h_fports : Comp.fports ∈ fl) (h_trees : Comp.trees ∈ fl) (h_counters : Comp.counters ∈ fl) (h_gctr : Comp.gctr ∈ fl) (h_rake : Comp.rake ∈ fl) (h_trace : Comp.trace ∈ fl) (h_hobble : Comp.hobble ∈ fl) (h_watches : Comp.watches ∈ fl) (h_irq : Comp.irq ∈ fl) (h_mem : Comp.mem ∈ fl) (h_mmPort : Comp.mmPort ∈ fl) (h_free : Comp.free ∈ fl) (hk : Frame fl fr s) : Frame fl fr (addReset p a unbind s) := by
  unfold addReset
  repeat' first
    | with_reducible assumption
    | (with_reducible exact Or.inl (by assumption))
    | (with_reducible exact Or.inr rfl)
    | with_reducible apply State.modAp_frame
    | with_reducible apply startReset_frame
    | with_reducible apply Frame.ite
    | split
    | dsimp only

theorem resetNotify_frame {fl : List Comp} {fr : State} (p : PortNo) (a : LocalAgent) (s : State) (h_cmds : Comp.cmds ∈ fl) (h_wins : Comp.wins ∈ fl) (h_parts : Comp.parts ∈ fl) (h_binds : Comp.binds ∈ fl) (h_aps : Comp.aps ∈ fl) (h_ops : Comp.ops ∈ fl) (h_merges : Comp.merges ∈ fl) (h_rows : Comp.rows ∈ fl) (h_banks : Comp.banks ∈ fl) (h_waiters : Comp.waiters ∈ fl) (h_records : Comp.records ∈ fl) (h_early : Comp.early ∈ fl) (h_spillWakes : Comp.spillWakes ∈ fl) (h_fetching : Comp.fetching ∈ fl) (h_descs : Comp.descs ∈ fl) (h_holdings : Comp.holdings ∈ fl) (h_fences : Comp.fences ∈ fl) (h_deadlines : Comp.deadlines ∈ fl) (h_leases : Comp.leases ∈ fl) (h_arming : Comp.arming ∈ fl) (h_heldq : Comp.heldq ∈ fl) (h_sn : Comp.sn ∈ fl) (h_dir : Comp.dir ∈ fl) (h_tack : Comp.tack ∈ fl) (h_fports : Comp.fports ∈ fl) (h_trees : Comp.trees ∈ fl) (h_counters : Comp.counters ∈ fl) (h_gctr : Comp.gctr ∈ fl) (h_rake : Comp.rake ∈ fl) (h_trace : Comp.trace ∈ fl) (h_hobble : Comp.hobble ∈ fl) (h_watches : Comp.watches ∈ fl) (h_irq : Comp.irq ∈ fl) (h_mem : Comp.mem ∈ fl) (h_mmPort : Comp.mmPort ∈ fl) (h_free : Comp.free ∈ fl) (hk : Frame fl fr s) : Frame fl fr (resetNotify p a s) := by
  unfold resetNotify
  repeat' first
    | with_reducible assumption
    | (with_reducible exact Or.inl (by assumption))
    | (with_reducible exact Or.inr rfl)
    | with_reducible apply report_frame
    | with_reducible apply addReset_frame
    | with_reducible apply Frame.ite
    | split
    | dsimp only

theorem sendUndo_frame {fl : List Comp} {fr : State} (u : AgentId) (waits : Bool) (rw : Option RWait) (part : PartId) (a : AgentId) (op : Byte) (node : NodeId) (c : CtxId) (i : Index) (aux : Byte) (pay : DWord) (s : State) (h_wins : Comp.wins ∈ fl) (h_fports : Comp.fports ∈ fl) (h_undo : Comp.undo ∈ fl) (h_counters : Comp.counters ∈ fl) (h_gctr : Comp.gctr ∈ fl) (h_rake : Comp.rake ∈ fl) (h_irq : Comp.irq ∈ fl) (hk : Frame fl fr s) : Frame fl fr (sendUndo u waits rw part a op node c i aux pay s) := by
  unfold sendUndo
  repeat' first
    | with_reducible assumption
    | (with_reducible exact Or.inl (by assumption))
    | (with_reducible exact Or.inr rfl)
    | with_reducible apply State.modFab_frame
    | with_reducible apply count_frame
    | with_reducible apply fabSend_frame
    | dsimp only

theorem removeLocalWaits_frame {fl : List Comp} {fr : State} (a : AgentId) (s : State) (h_wins : Comp.wins ∈ fl) (h_aps : Comp.aps ∈ fl) (h_ops : Comp.ops ∈ fl) (h_rows : Comp.rows ∈ fl) (h_waiters : Comp.waiters ∈ fl) (h_spillWakes : Comp.spillWakes ∈ fl) (h_descs : Comp.descs ∈ fl) (h_sn : Comp.sn ∈ fl) (h_tack : Comp.tack ∈ fl) (h_fports : Comp.fports ∈ fl) (h_counters : Comp.counters ∈ fl) (h_gctr : Comp.gctr ∈ fl) (h_rake : Comp.rake ∈ fl) (h_irq : Comp.irq ∈ fl) (h_mem : Comp.mem ∈ fl) (h_mmPort : Comp.mmPort ∈ fl) (hk : Frame fl fr s) : Frame fl fr (removeLocalWaits a s) := by
  unfold removeLocalWaits
  repeat' first
    | with_reducible assumption
    | (with_reducible exact Or.inl (by assumption))
    | (with_reducible exact Or.inr rfl)
    | with_reducible apply inner_frame
    | with_reducible apply unpark_frame
    | with_reducible apply afterLeave_frame
    | (with_reducible refine Frame.foldl (fun _ _ _ => ?_) ?_)
    | dsimp only

theorem removeRWait_frame {fl : List Comp} {fr : State} (u : AgentId) (waits : Bool) (x : RWait) (s : State) (h_wins : Comp.wins ∈ fl) (h_rwaits : Comp.rwaits ∈ fl) (h_fports : Comp.fports ∈ fl) (h_undo : Comp.undo ∈ fl) (h_counters : Comp.counters ∈ fl) (h_gctr : Comp.gctr ∈ fl) (h_rake : Comp.rake ∈ fl) (h_irq : Comp.irq ∈ fl) (hk : Frame fl fr s) : Frame fl fr (removeRWait u waits x s) := by
  unfold removeRWait
  repeat' first
    | with_reducible assumption
    | (with_reducible exact Or.inl (by assumption))
    | (with_reducible exact Or.inr rfl)
    | with_reducible apply State.modWmc_frame
    | with_reducible apply sendUndo_frame
    | with_reducible apply Frame.ite
    | split
    | dsimp only

theorem removeRemoteWaits_frame {fl : List Comp} {fr : State} (a : AgentId) (s : State) (h_wins : Comp.wins ∈ fl) (h_rwaits : Comp.rwaits ∈ fl) (h_fports : Comp.fports ∈ fl) (h_undo : Comp.undo ∈ fl) (h_counters : Comp.counters ∈ fl) (h_gctr : Comp.gctr ∈ fl) (h_rake : Comp.rake ∈ fl) (h_irq : Comp.irq ∈ fl) (hk : Frame fl fr s) : Frame fl fr (removeRemoteWaits a s) := by
  unfold removeRemoteWaits
  repeat' first
    | with_reducible assumption
    | (with_reducible exact Or.inl (by assumption))
    | (with_reducible exact Or.inr rfl)
    | with_reducible apply removeRWait_frame
    | (with_reducible refine Frame.foldl (fun _ _ _ => ?_) ?_)
    | dsimp only

theorem dropSpilledWakes_frame {fl : List Comp} {fr : State} (a : AgentId) (s : State) (h_spillWakes : Comp.spillWakes ∈ fl) (hk : Frame fl fr s) : Frame fl fr (dropSpilledWakes a s) := by
  unfold dropSpilledWakes
  repeat' first
    | with_reducible assumption
    | (with_reducible exact Or.inl (by assumption))
    | (with_reducible exact Or.inr rfl)
    | with_reducible apply State.modWmc_frame
    | dsimp only

theorem endHoldings_frame {fl : List Comp} {fr : State} (a : AgentId) (s : State) (h_wins : Comp.wins ∈ fl) (h_aps : Comp.aps ∈ fl) (h_ops : Comp.ops ∈ fl) (h_rows : Comp.rows ∈ fl) (h_waiters : Comp.waiters ∈ fl) (h_spillWakes : Comp.spillWakes ∈ fl) (h_holdings : Comp.holdings ∈ fl) (h_fences : Comp.fences ∈ fl) (h_leases : Comp.leases ∈ fl) (h_sn : Comp.sn ∈ fl) (h_tack : Comp.tack ∈ fl) (h_fports : Comp.fports ∈ fl) (h_undo : Comp.undo ∈ fl) (h_counters : Comp.counters ∈ fl) (h_gctr : Comp.gctr ∈ fl) (h_rake : Comp.rake ∈ fl) (h_irq : Comp.irq ∈ fl) (h_mem : Comp.mem ∈ fl) (h_mmPort : Comp.mmPort ∈ fl) (hk : Frame fl fr s) : Frame fl fr (endHoldings a s) := by
  unfold endHoldings
  repeat' first
    | with_reducible assumption
    | (with_reducible exact Or.inl (by assumption))
    | (with_reducible exact Or.inr rfl)
    | with_reducible apply inner_frame
    | with_reducible apply delHolding_frame
    | with_reducible apply abandonAt_frame
    | with_reducible apply sendUndo_frame
    | with_reducible apply Frame.ite
    | (with_reducible refine Frame.foldl (fun _ _ _ => ?_) ?_)
    | split
    | dsimp only

theorem undoGrant_frame {fl : List Comp} {fr : State} (a : AgentId) (g : Grant) (s : State) (h_wins : Comp.wins ∈ fl) (h_aps : Comp.aps ∈ fl) (h_ops : Comp.ops ∈ fl) (h_rows : Comp.rows ∈ fl) (h_waiters : Comp.waiters ∈ fl) (h_spillWakes : Comp.spillWakes ∈ fl) (h_descs : Comp.descs ∈ fl) (h_holdings : Comp.holdings ∈ fl) (h_fences : Comp.fences ∈ fl) (h_leases : Comp.leases ∈ fl) (h_sn : Comp.sn ∈ fl) (h_tack : Comp.tack ∈ fl) (h_fports : Comp.fports ∈ fl) (h_undo : Comp.undo ∈ fl) (h_counters : Comp.counters ∈ fl) (h_gctr : Comp.gctr ∈ fl) (h_rake : Comp.rake ∈ fl) (h_irq : Comp.irq ∈ fl) (h_mem : Comp.mem ∈ fl) (h_mmPort : Comp.mmPort ∈ fl) (h_free : Comp.free ∈ fl) (hk : Frame fl fr s) : Frame fl fr (undoGrant a g s) := by
  unfold undoGrant
  repeat' first
    | with_reducible assumption
    | (with_reducible exact Or.inl (by assumption))
    | (with_reducible exact Or.inr rfl)
    | with_reducible apply inner_frame
    | with_reducible apply abandonAt_frame
    | with_reducible apply cancelAt_frame
    | with_reducible apply undoGive_frame
    | with_reducible apply sendUndo_frame
    | split
    | dsimp only

theorem endReset_frame {fl : List Comp} {fr : State} (p : PortNo) (a : LocalAgent) (r : Arst) (s : State) (h_cmds : Comp.cmds ∈ fl) (h_wins : Comp.wins ∈ fl) (h_parts : Comp.parts ∈ fl) (h_binds : Comp.binds ∈ fl) (h_aps : Comp.aps ∈ fl) (h_ops : Comp.ops ∈ fl) (h_merges : Comp.merges ∈ fl) (h_rows : Comp.rows ∈ fl) (h_banks : Comp.banks ∈ fl) (h_waiters : Comp.waiters ∈ fl) (h_records : Comp.records ∈ fl) (h_early : Comp.early ∈ fl) (h_spillWakes : Comp.spillWakes ∈ fl) (h_fetching : Comp.fetching ∈ fl) (h_descs : Comp.descs ∈ fl) (h_holdings : Comp.holdings ∈ fl) (h_fences : Comp.fences ∈ fl) (h_deadlines : Comp.deadlines ∈ fl) (h_leases : Comp.leases ∈ fl) (h_arming : Comp.arming ∈ fl) (h_heldq : Comp.heldq ∈ fl) (h_sn : Comp.sn ∈ fl) (h_dir : Comp.dir ∈ fl) (h_tack : Comp.tack ∈ fl) (h_fports : Comp.fports ∈ fl) (h_trees : Comp.trees ∈ fl) (h_counters : Comp.counters ∈ fl) (h_gctr : Comp.gctr ∈ fl) (h_rake : Comp.rake ∈ fl) (h_trace : Comp.trace ∈ fl) (h_hobble : Comp.hobble ∈ fl) (h_watches : Comp.watches ∈ fl) (h_irq : Comp.irq ∈ fl) (h_mem : Comp.mem ∈ fl) (h_mmPort : Comp.mmPort ∈ fl) (h_free : Comp.free ∈ fl) (hk : Frame fl fr s) : Frame fl fr (endReset p a r s) := by
  unfold endReset
  repeat' first
    | with_reducible assumption
    | (with_reducible exact Or.inl (by assumption))
    | (with_reducible exact Or.inr rfl)
    | with_reducible apply State.modAp_frame
    | with_reducible apply State.setBind_frame
    | with_reducible apply pushNotice_frame
    | with_reducible apply startReset_frame
    | with_reducible apply Frame.ite
    | split
    | dsimp only

theorem resetSteps_frame {fl : List Comp} {fr : State} (p : PortNo) (a : LocalAgent) (r : Arst) (s : State) (h_cmds : Comp.cmds ∈ fl) (h_wins : Comp.wins ∈ fl) (h_parts : Comp.parts ∈ fl) (h_binds : Comp.binds ∈ fl) (h_aps : Comp.aps ∈ fl) (h_ops : Comp.ops ∈ fl) (h_merges : Comp.merges ∈ fl) (h_rows : Comp.rows ∈ fl) (h_banks : Comp.banks ∈ fl) (h_waiters : Comp.waiters ∈ fl) (h_rwaits : Comp.rwaits ∈ fl) (h_records : Comp.records ∈ fl) (h_early : Comp.early ∈ fl) (h_spillWakes : Comp.spillWakes ∈ fl) (h_fetching : Comp.fetching ∈ fl) (h_descs : Comp.descs ∈ fl) (h_holdings : Comp.holdings ∈ fl) (h_fences : Comp.fences ∈ fl) (h_deadlines : Comp.deadlines ∈ fl) (h_leases : Comp.leases ∈ fl) (h_arming : Comp.arming ∈ fl) (h_heldq : Comp.heldq ∈ fl) (h_sn : Comp.sn ∈ fl) (h_dir : Comp.dir ∈ fl) (h_tack : Comp.tack ∈ fl) (h_fports : Comp.fports ∈ fl) (h_trees : Comp.trees ∈ fl) (h_undo : Comp.undo ∈ fl) (h_inq : Comp.inq ∈ fl) (h_counters : Comp.counters ∈ fl) (h_gctr : Comp.gctr ∈ fl) (h_rake : Comp.rake ∈ fl) (h_trace : Comp.trace ∈ fl) (h_watches : Comp.watches ∈ fl) (h_irq : Comp.irq ∈ fl) (h_mem : Comp.mem ∈ fl) (h_mmPort : Comp.mmPort ∈ fl) (h_free : Comp.free ∈ fl) (hk : Frame fl fr s) : Frame fl fr (resetSteps p a r s) := by
  unfold resetSteps
  repeat' first
    | with_reducible assumption
    | (with_reducible exact Or.inl (by assumption))
    | (with_reducible exact Or.inr rfl)
    | with_reducible apply State.modAp_frame
    | with_reducible apply State.setBind_frame
    | with_reducible apply pump_frame
    | with_reducible apply removeLocalWaits_frame
    | with_reducible apply removeRemoteWaits_frame
    | with_reducible apply dropSpilledWakes_frame
    | with_reducible apply endHoldings_frame
    | with_reducible apply undoGrant_frame
    | (with_reducible refine Frame.foldl (fun _ _ _ => ?_) ?_)
    | dsimp only

theorem askReset_frame {fl : List Comp} {fr : State} (a : AgentId) (r : Arst) (s : State) (h_banks : Comp.banks ∈ fl) (h_fetching : Comp.fetching ∈ fl) (hk : Frame fl fr s) : Frame fl fr (askReset a r s) := by
  unfold askReset
  repeat' first
    | with_reducible assumption
    | (with_reducible exact Or.inl (by assumption))
    | (with_reducible exact Or.inr rfl)
    | with_reducible apply wakeSlot_frame
    | with_reducible apply fetchFor_frame
    | (with_reducible refine Frame.foldl (fun _ _ _ => ?_) ?_)
    | dsimp only

theorem resetProcess_frame {fl : List Comp} {fr : State} (p : PortNo) (a : LocalAgent) (s : State) (h_cmds : Comp.cmds ∈ fl) (h_wins : Comp.wins ∈ fl) (h_parts : Comp.parts ∈ fl) (h_binds : Comp.binds ∈ fl) (h_aps : Comp.aps ∈ fl) (h_ops : Comp.ops ∈ fl) (h_merges : Comp.merges ∈ fl) (h_rows : Comp.rows ∈ fl) (h_banks : Comp.banks ∈ fl) (h_waiters : Comp.waiters ∈ fl) (h_rwaits : Comp.rwaits ∈ fl) (h_records : Comp.records ∈ fl) (h_early : Comp.early ∈ fl) (h_spillWakes : Comp.spillWakes ∈ fl) (h_fetching : Comp.fetching ∈ fl) (h_descs : Comp.descs ∈ fl) (h_holdings : Comp.holdings ∈ fl) (h_fences : Comp.fences ∈ fl) (h_deadlines : Comp.deadlines ∈ fl) (h_leases : Comp.leases ∈ fl) (h_arming : Comp.arming ∈ fl) (h_heldq : Comp.heldq ∈ fl) (h_sn : Comp.sn ∈ fl) (h_dir : Comp.dir ∈ fl) (h_tack : Comp.tack ∈ fl) (h_fports : Comp.fports ∈ fl) (h_trees : Comp.trees ∈ fl) (h_undo : Comp.undo ∈ fl) (h_inq : Comp.inq ∈ fl) (h_counters : Comp.counters ∈ fl) (h_gctr : Comp.gctr ∈ fl) (h_rake : Comp.rake ∈ fl) (h_trace : Comp.trace ∈ fl) (h_hobble : Comp.hobble ∈ fl) (h_watches : Comp.watches ∈ fl) (h_irq : Comp.irq ∈ fl) (h_mem : Comp.mem ∈ fl) (h_mmPort : Comp.mmPort ∈ fl) (h_free : Comp.free ∈ fl) (hk : Frame fl fr s) : Frame fl fr (resetProcess p a s) := by
  unfold resetProcess
  repeat' first
    | with_reducible assumption
    | (with_reducible exact Or.inl (by assumption))
    | (with_reducible exact Or.inr rfl)
    | with_reducible apply endReset_frame
    | with_reducible apply resetSteps_frame
    | with_reducible apply askReset_frame
    | with_reducible apply Frame.ite
    | split
    | dsimp only

theorem bindWrite_frame {fl : List Comp} {fr : State} (agent : AgentId) (w : Word) (s : State) (h_cmds : Comp.cmds ∈ fl) (h_wins : Comp.wins ∈ fl) (h_parts : Comp.parts ∈ fl) (h_binds : Comp.binds ∈ fl) (h_aps : Comp.aps ∈ fl) (h_ops : Comp.ops ∈ fl) (h_merges : Comp.merges ∈ fl) (h_rows : Comp.rows ∈ fl) (h_banks : Comp.banks ∈ fl) (h_waiters : Comp.waiters ∈ fl) (h_records : Comp.records ∈ fl) (h_early : Comp.early ∈ fl) (h_spillWakes : Comp.spillWakes ∈ fl) (h_fetching : Comp.fetching ∈ fl) (h_descs : Comp.descs ∈ fl) (h_holdings : Comp.holdings ∈ fl) (h_fences : Comp.fences ∈ fl) (h_deadlines : Comp.deadlines ∈ fl) (h_leases : Comp.leases ∈ fl) (h_arming : Comp.arming ∈ fl) (h_heldq : Comp.heldq ∈ fl) (h_sn : Comp.sn ∈ fl) (h_dir : Comp.dir ∈ fl) (h_tack : Comp.tack ∈ fl) (h_fports : Comp.fports ∈ fl) (h_trees : Comp.trees ∈ fl) (h_counters : Comp.counters ∈ fl) (h_gctr : Comp.gctr ∈ fl) (h_rake : Comp.rake ∈ fl) (h_trace : Comp.trace ∈ fl) (h_hobble : Comp.hobble ∈ fl) (h_watches : Comp.watches ∈ fl) (h_irq : Comp.irq ∈ fl) (h_mem : Comp.mem ∈ fl) (h_mmPort : Comp.mmPort ∈ fl) (h_free : Comp.free ∈ fl) (hk : Frame fl fr s) : Frame fl fr (bindWrite agent w s) := by
  unfold bindWrite
  repeat' first
    | with_reducible assumption
    | (with_reducible exact Or.inl (by assumption))
    | (with_reducible exact Or.inr rfl)
    | with_reducible apply State.setBind_frame
    | with_reducible apply pushNotice_frame
    | with_reducible apply addReset_frame
    | with_reducible apply Frame.ite
    | split
    | dsimp only

theorem fenceDone_frame {fl : List Comp} {fr : State} (agent : AgentId) (s : State) (h_cmds : Comp.cmds ∈ fl) (h_wins : Comp.wins ∈ fl) (h_parts : Comp.parts ∈ fl) (h_aps : Comp.aps ∈ fl) (h_ops : Comp.ops ∈ fl) (h_merges : Comp.merges ∈ fl) (h_rows : Comp.rows ∈ fl) (h_banks : Comp.banks ∈ fl) (h_waiters : Comp.waiters ∈ fl) (h_records : Comp.records ∈ fl) (h_early : Comp.early ∈ fl) (h_spillWakes : Comp.spillWakes ∈ fl) (h_fetching : Comp.fetching ∈ fl) (h_descs : Comp.descs ∈ fl) (h_holdings : Comp.holdings ∈ fl) (h_fences : Comp.fences ∈ fl) (h_deadlines : Comp.deadlines ∈ fl) (h_leases : Comp.leases ∈ fl) (h_arming : Comp.arming ∈ fl) (h_heldq : Comp.heldq ∈ fl) (h_sn : Comp.sn ∈ fl) (h_dir : Comp.dir ∈ fl) (h_tack : Comp.tack ∈ fl) (h_fports : Comp.fports ∈ fl) (h_trees : Comp.trees ∈ fl) (h_inq : Comp.inq ∈ fl) (h_counters : Comp.counters ∈ fl) (h_gctr : Comp.gctr ∈ fl) (h_rake : Comp.rake ∈ fl) (h_trace : Comp.trace ∈ fl) (h_watches : Comp.watches ∈ fl) (h_irq : Comp.irq ∈ fl) (h_mem : Comp.mem ∈ fl) (h_mmPort : Comp.mmPort ∈ fl) (h_free : Comp.free ∈ fl) (hk : Frame fl fr s) : Frame fl fr (fenceDone agent s) := by
  unfold fenceDone
  repeat' first
    | with_reducible assumption
    | (with_reducible exact Or.inl (by assumption))
    | (with_reducible exact Or.inr rfl)
    | with_reducible apply count_frame
    | with_reducible apply finish_frame
    | with_reducible apply pump_frame
    | with_reducible apply Frame.ite
    | split
    | dsimp only

theorem enterDue_frame {fl : List Comp} {fr : State} (d : Due) (s : State) (h_due : Comp.due ∈ fl) (hk : Frame fl fr s) : Frame fl fr (enterDue d s) := by
  unfold enterDue
  repeat' first
    | with_reducible assumption
    | (with_reducible exact Or.inl (by assumption))
    | (with_reducible exact Or.inr rfl)
    | with_reducible apply State.modOpr_frame
    | with_reducible apply Frame.ite
    | split
    | dsimp only

theorem fallDue_frame {fl : List Comp} {fr : State} (l : List Due) (s : State) (h_due : Comp.due ∈ fl) (hk : Frame fl fr s) : Frame fl fr (fallDue l s) := by
  unfold fallDue
  repeat' first
    | with_reducible assumption
    | (with_reducible exact Or.inl (by assumption))
    | (with_reducible exact Or.inr rfl)
    | with_reducible apply enterDue_frame
    | (with_reducible refine Frame.foldl (fun _ _ _ => ?_) ?_)
    | dsimp only

theorem deadlineDue_frame {fl : List Comp} {fr : State} (edges : Nat) (s : State) (h_time : Comp.time ∈ fl) (h_clock : Comp.clock ∈ fl) (h_due : Comp.due ∈ fl) (h_gctr : Comp.gctr ∈ fl) (h_trace : Comp.trace ∈ fl) (hk : Frame fl fr s) : Frame fl fr (deadlineDue edges s) := by
  unfold deadlineDue
  repeat' first
    | with_reducible assumption
    | (with_reducible exact Or.inl (by assumption))
    | (with_reducible exact Or.inr rfl)
    | with_reducible apply elapse_frame
    | with_reducible apply fallDue_frame
    | with_reducible apply Frame.ite
    | split
    | dsimp only

theorem leaseDue_frame {fl : List Comp} {fr : State} (edges : Nat) (s : State) (h_time : Comp.time ∈ fl) (h_clock : Comp.clock ∈ fl) (h_due : Comp.due ∈ fl) (h_gctr : Comp.gctr ∈ fl) (h_trace : Comp.trace ∈ fl) (hk : Frame fl fr s) : Frame fl fr (leaseDue edges s) := by
  unfold leaseDue
  repeat' first
    | with_reducible assumption
    | (with_reducible exact Or.inl (by assumption))
    | (with_reducible exact Or.inr rfl)
    | with_reducible apply elapse_frame
    | with_reducible apply fallDue_frame
    | with_reducible apply Frame.ite
    | split
    | dsimp only

theorem fillSet_frame {fl : List Comp} {fr : State} (n : Nat) (s : State) (h_due : Comp.due ∈ fl) (hk : Frame fl fr s) : Frame fl fr (fillSet n s) := by
  unfold fillSet
  repeat' first
    | with_reducible assumption
    | (with_reducible exact Or.inl (by assumption))
    | (with_reducible exact Or.inr rfl)
    | with_reducible apply State.modOpr_frame
    | dsimp only

theorem leaveSet_frame {fl : List Comp} {fr : State} (d : Due) (s : State) (h_due : Comp.due ∈ fl) (hk : Frame fl fr s) : Frame fl fr (leaveSet d s) := by
  unfold leaveSet
  repeat' first
    | with_reducible assumption
    | (with_reducible exact Or.inl (by assumption))
    | (with_reducible exact Or.inr rfl)
    | with_reducible apply State.modOpr_frame
    | with_reducible apply fillSet_frame
    | dsimp only

theorem dropDue_frame {fl : List Comp} {fr : State} (k : OKey) (s : State) (h_due : Comp.due ∈ fl) (hk : Frame fl fr s) : Frame fl fr (dropDue k s) := by
  unfold dropDue
  repeat' first
    | with_reducible assumption
    | (with_reducible exact Or.inl (by assumption))
    | (with_reducible exact Or.inr rfl)
    | with_reducible apply State.modOpr_frame
    | with_reducible apply fillSet_frame
    | dsimp only

theorem expireOne_frame {fl : List Comp} {fr : State} (lease : Bool) (s : State) (h_cmds : Comp.cmds ∈ fl) (h_wins : Comp.wins ∈ fl) (h_parts : Comp.parts ∈ fl) (h_aps : Comp.aps ∈ fl) (h_ops : Comp.ops ∈ fl) (h_merges : Comp.merges ∈ fl) (h_due : Comp.due ∈ fl) (h_rows : Comp.rows ∈ fl) (h_banks : Comp.banks ∈ fl) (h_waiters : Comp.waiters ∈ fl) (h_records : Comp.records ∈ fl) (h_early : Comp.early ∈ fl) (h_spillWakes : Comp.spillWakes ∈ fl) (h_fetching : Comp.fetching ∈ fl) (h_descs : Comp.descs ∈ fl) (h_holdings : Comp.holdings ∈ fl) (h_fences : Comp.fences ∈ fl) (h_deadlines : Comp.deadlines ∈ fl) (h_leases : Comp.leases ∈ fl) (h_arming : Comp.arming ∈ fl) (h_heldq : Comp.heldq ∈ fl) (h_sn : Comp.sn ∈ fl) (h_dir : Comp.dir ∈ fl) (h_tack : Comp.tack ∈ fl) (h_fports : Comp.fports ∈ fl) (h_trees : Comp.trees ∈ fl) (h_inq : Comp.inq ∈ fl) (h_counters : Comp.counters ∈ fl) (h_gctr : Comp.gctr ∈ fl) (h_rake : Comp.rake ∈ fl) (h_trace : Comp.trace ∈ fl) (h_watches : Comp.watches ∈ fl) (h_irq : Comp.irq ∈ fl) (h_mem : Comp.mem ∈ fl) (h_mmPort : Comp.mmPort ∈ fl) (h_free : Comp.free ∈ fl) (hk : Frame fl fr s) : Frame fl fr (expireOne lease s) := by
  unfold expireOne
  repeat' first
    | with_reducible assumption
    | (with_reducible exact Or.inl (by assumption))
    | (with_reducible exact Or.inr rfl)
    | with_reducible apply inner_frame
    | with_reducible apply askFor_frame
    | with_reducible apply expireDeadlineAt_frame
    | with_reducible apply expireLeaseAt_frame
    | with_reducible apply pump_frame
    | with_reducible apply leaveSet_frame
    | with_reducible apply Frame.ite
    | split
    | dsimp only

theorem deadlineExpiry_frame {fl : List Comp} {fr : State} (edges : Nat) (s : State) (h_time : Comp.time ∈ fl) (h_clock : Comp.clock ∈ fl) (h_cmds : Comp.cmds ∈ fl) (h_wins : Comp.wins ∈ fl) (h_parts : Comp.parts ∈ fl) (h_aps : Comp.aps ∈ fl) (h_ops : Comp.ops ∈ fl) (h_merges : Comp.merges ∈ fl) (h_due : Comp.due ∈ fl) (h_rows : Comp.rows ∈ fl) (h_banks : Comp.banks ∈ fl) (h_waiters : Comp.waiters ∈ fl) (h_records : Comp.records ∈ fl) (h_early : Comp.early ∈ fl) (h_spillWakes : Comp.spillWakes ∈ fl) (h_fetching : Comp.fetching ∈ fl) (h_descs : Comp.descs ∈ fl) (h_holdings : Comp.holdings ∈ fl) (h_fences : Comp.fences ∈ fl) (h_deadlines : Comp.deadlines ∈ fl) (h_leases : Comp.leases ∈ fl) (h_arming : Comp.arming ∈ fl) (h_heldq : Comp.heldq ∈ fl) (h_sn : Comp.sn ∈ fl) (h_dir : Comp.dir ∈ fl) (h_tack : Comp.tack ∈ fl) (h_fports : Comp.fports ∈ fl) (h_trees : Comp.trees ∈ fl) (h_inq : Comp.inq ∈ fl) (h_counters : Comp.counters ∈ fl) (h_gctr : Comp.gctr ∈ fl) (h_rake : Comp.rake ∈ fl) (h_trace : Comp.trace ∈ fl) (h_watches : Comp.watches ∈ fl) (h_irq : Comp.irq ∈ fl) (h_mem : Comp.mem ∈ fl) (h_mmPort : Comp.mmPort ∈ fl) (h_free : Comp.free ∈ fl) (hk : Frame fl fr s) : Frame fl fr (deadlineExpiry edges s) := by
  unfold deadlineExpiry
  repeat' first
    | with_reducible assumption
    | (with_reducible exact Or.inl (by assumption))
    | (with_reducible exact Or.inr rfl)
    | with_reducible apply elapse_frame
    | with_reducible apply expireOne_frame
    | with_reducible apply Frame.ite
    | split
    | dsimp only

theorem leaseExpiry_frame {fl : List Comp} {fr : State} (edges : Nat) (s : State) (h_time : Comp.time ∈ fl) (h_clock : Comp.clock ∈ fl) (h_cmds : Comp.cmds ∈ fl) (h_wins : Comp.wins ∈ fl) (h_parts : Comp.parts ∈ fl) (h_aps : Comp.aps ∈ fl) (h_ops : Comp.ops ∈ fl) (h_merges : Comp.merges ∈ fl) (h_due : Comp.due ∈ fl) (h_rows : Comp.rows ∈ fl) (h_banks : Comp.banks ∈ fl) (h_waiters : Comp.waiters ∈ fl) (h_records : Comp.records ∈ fl) (h_early : Comp.early ∈ fl) (h_spillWakes : Comp.spillWakes ∈ fl) (h_fetching : Comp.fetching ∈ fl) (h_descs : Comp.descs ∈ fl) (h_holdings : Comp.holdings ∈ fl) (h_fences : Comp.fences ∈ fl) (h_deadlines : Comp.deadlines ∈ fl) (h_leases : Comp.leases ∈ fl) (h_arming : Comp.arming ∈ fl) (h_heldq : Comp.heldq ∈ fl) (h_sn : Comp.sn ∈ fl) (h_dir : Comp.dir ∈ fl) (h_tack : Comp.tack ∈ fl) (h_fports : Comp.fports ∈ fl) (h_trees : Comp.trees ∈ fl) (h_inq : Comp.inq ∈ fl) (h_counters : Comp.counters ∈ fl) (h_gctr : Comp.gctr ∈ fl) (h_rake : Comp.rake ∈ fl) (h_trace : Comp.trace ∈ fl) (h_watches : Comp.watches ∈ fl) (h_irq : Comp.irq ∈ fl) (h_mem : Comp.mem ∈ fl) (h_mmPort : Comp.mmPort ∈ fl) (h_free : Comp.free ∈ fl) (hk : Frame fl fr s) : Frame fl fr (leaseExpiry edges s) := by
  unfold leaseExpiry
  repeat' first
    | with_reducible assumption
    | (with_reducible exact Or.inl (by assumption))
    | (with_reducible exact Or.inr rfl)
    | with_reducible apply elapse_frame
    | with_reducible apply expireOne_frame
    | with_reducible apply Frame.ite
    | split
    | dsimp only

theorem timeoutWaiter_frame {fl : List Comp} {fr : State} (w : Waiter) (s : State) (h_wins : Comp.wins ∈ fl) (h_aps : Comp.aps ∈ fl) (h_ops : Comp.ops ∈ fl) (h_rows : Comp.rows ∈ fl) (h_waiters : Comp.waiters ∈ fl) (h_spillWakes : Comp.spillWakes ∈ fl) (h_descs : Comp.descs ∈ fl) (h_sn : Comp.sn ∈ fl) (h_tack : Comp.tack ∈ fl) (h_fports : Comp.fports ∈ fl) (h_counters : Comp.counters ∈ fl) (h_gctr : Comp.gctr ∈ fl) (h_rake : Comp.rake ∈ fl) (h_irq : Comp.irq ∈ fl) (h_mem : Comp.mem ∈ fl) (h_mmPort : Comp.mmPort ∈ fl) (hk : Frame fl fr s) : Frame fl fr (timeoutWaiter w s) := by
  unfold timeoutWaiter
  repeat' first
    | with_reducible assumption
    | (with_reducible exact Or.inl (by assumption))
    | (with_reducible exact Or.inr rfl)
    | with_reducible apply inner_frame
    | with_reducible apply unpark_frame
    | with_reducible apply wakeWaiter_frame
    | with_reducible apply afterLeave_frame
    | dsimp only

theorem endRWait_frame {fl : List Comp} {fr : State} (st : Status) (cause : BitVec 4) (x : RWait) (s : State) (h_wins : Comp.wins ∈ fl) (h_aps : Comp.aps ∈ fl) (h_ops : Comp.ops ∈ fl) (h_rwaits : Comp.rwaits ∈ fl) (h_fports : Comp.fports ∈ fl) (h_undo : Comp.undo ∈ fl) (h_counters : Comp.counters ∈ fl) (h_gctr : Comp.gctr ∈ fl) (h_rake : Comp.rake ∈ fl) (h_irq : Comp.irq ∈ fl) (hk : Frame fl fr s) : Frame fl fr (endRWait st cause x s) := by
  unfold endRWait
  repeat' first
    | with_reducible assumption
    | (with_reducible exact Or.inl (by assumption))
    | (with_reducible exact Or.inr rfl)
    | with_reducible apply countStatus_frame
    | with_reducible apply wakeOne_frame
    | with_reducible apply removeRWait_frame
    | dsimp only

theorem timeoutRWait_frame {fl : List Comp} {fr : State} (x : RWait) (s : State) (h_wins : Comp.wins ∈ fl) (h_aps : Comp.aps ∈ fl) (h_ops : Comp.ops ∈ fl) (h_rwaits : Comp.rwaits ∈ fl) (h_fports : Comp.fports ∈ fl) (h_undo : Comp.undo ∈ fl) (h_counters : Comp.counters ∈ fl) (h_gctr : Comp.gctr ∈ fl) (h_rake : Comp.rake ∈ fl) (h_irq : Comp.irq ∈ fl) (hk : Frame fl fr s) : Frame fl fr (timeoutRWait x s) := by
  unfold timeoutRWait
  repeat' first
    | with_reducible assumption
    | (with_reducible exact Or.inl (by assumption))
    | (with_reducible exact Or.inr rfl)
    | with_reducible apply endRWait_frame
    | dsimp only

theorem timeoutOne_frame {fl : List Comp} {fr : State} (s : State) (h_wins : Comp.wins ∈ fl) (h_aps : Comp.aps ∈ fl) (h_ops : Comp.ops ∈ fl) (h_rows : Comp.rows ∈ fl) (h_banks : Comp.banks ∈ fl) (h_waiters : Comp.waiters ∈ fl) (h_rwaits : Comp.rwaits ∈ fl) (h_spillWakes : Comp.spillWakes ∈ fl) (h_descs : Comp.descs ∈ fl) (h_sn : Comp.sn ∈ fl) (h_tack : Comp.tack ∈ fl) (h_fports : Comp.fports ∈ fl) (h_undo : Comp.undo ∈ fl) (h_counters : Comp.counters ∈ fl) (h_gctr : Comp.gctr ∈ fl) (h_rake : Comp.rake ∈ fl) (h_irq : Comp.irq ∈ fl) (h_mem : Comp.mem ∈ fl) (h_mmPort : Comp.mmPort ∈ fl) (hk : Frame fl fr s) : Frame fl fr (timeoutOne s) := by
  unfold timeoutOne
  repeat' first
    | with_reducible assumption
    | (with_reducible exact Or.inl (by assumption))
    | (with_reducible exact Or.inr rfl)
    | with_reducible apply wakeSlot_frame
    | with_reducible apply timeoutWaiter_frame
    | with_reducible apply timeoutRWait_frame
    | (with_reducible refine Frame.foldl (fun _ _ _ => ?_) ?_)
    | split
    | dsimp only

theorem waitTimeout_frame {fl : List Comp} {fr : State} (edges : Nat) (s : State) (h_time : Comp.time ∈ fl) (h_clock : Comp.clock ∈ fl) (h_wins : Comp.wins ∈ fl) (h_aps : Comp.aps ∈ fl) (h_ops : Comp.ops ∈ fl) (h_rows : Comp.rows ∈ fl) (h_banks : Comp.banks ∈ fl) (h_waiters : Comp.waiters ∈ fl) (h_rwaits : Comp.rwaits ∈ fl) (h_spillWakes : Comp.spillWakes ∈ fl) (h_descs : Comp.descs ∈ fl) (h_sn : Comp.sn ∈ fl) (h_tack : Comp.tack ∈ fl) (h_fports : Comp.fports ∈ fl) (h_undo : Comp.undo ∈ fl) (h_counters : Comp.counters ∈ fl) (h_gctr : Comp.gctr ∈ fl) (h_rake : Comp.rake ∈ fl) (h_trace : Comp.trace ∈ fl) (h_irq : Comp.irq ∈ fl) (h_mem : Comp.mem ∈ fl) (h_mmPort : Comp.mmPort ∈ fl) (hk : Frame fl fr s) : Frame fl fr (waitTimeout edges s) := by
  unfold waitTimeout
  repeat' first
    | with_reducible assumption
    | (with_reducible exact Or.inl (by assumption))
    | (with_reducible exact Or.inr rfl)
    | with_reducible apply elapse_frame
    | with_reducible apply timeoutOne_frame
    | with_reducible apply Frame.ite
    | split
    | dsimp only

theorem landingNotice_frame {fl : List Comp} {fr : State} (ch : LnChan) (w : DWord) (s : State) (h_wins : Comp.wins ∈ fl) (h_arming : Comp.arming ∈ fl) (h_decs : Comp.decs ∈ fl) (h_lnPort : Comp.lnPort ∈ fl) (h_counters : Comp.counters ∈ fl) (h_gctr : Comp.gctr ∈ fl) (h_rake : Comp.rake ∈ fl) (h_hobble : Comp.hobble ∈ fl) (h_irq : Comp.irq ∈ fl) (hk : Frame fl fr s) : Frame fl fr (landingNotice ch w s) := by
  unfold landingNotice
  repeat' first
    | with_reducible assumption
    | (with_reducible exact Or.inl (by assumption))
    | (with_reducible exact Or.inr rfl)
    | with_reducible apply State.modLcu_frame
    | with_reducible apply report_frame
    | with_reducible apply landNotice_frame
    | with_reducible apply noteCapture_frame
    | with_reducible apply Frame.ite
    | split
    | dsimp only

theorem landingDecrement_frame {fl : List Comp} {fr : State} (s : State) (h_cmds : Comp.cmds ∈ fl) (h_wins : Comp.wins ∈ fl) (h_parts : Comp.parts ∈ fl) (h_aps : Comp.aps ∈ fl) (h_ops : Comp.ops ∈ fl) (h_merges : Comp.merges ∈ fl) (h_rows : Comp.rows ∈ fl) (h_banks : Comp.banks ∈ fl) (h_waiters : Comp.waiters ∈ fl) (h_records : Comp.records ∈ fl) (h_early : Comp.early ∈ fl) (h_spillWakes : Comp.spillWakes ∈ fl) (h_fetching : Comp.fetching ∈ fl) (h_descs : Comp.descs ∈ fl) (h_holdings : Comp.holdings ∈ fl) (h_fences : Comp.fences ∈ fl) (h_deadlines : Comp.deadlines ∈ fl) (h_leases : Comp.leases ∈ fl) (h_arming : Comp.arming ∈ fl) (h_heldq : Comp.heldq ∈ fl) (h_decs : Comp.decs ∈ fl) (h_sn : Comp.sn ∈ fl) (h_dir : Comp.dir ∈ fl) (h_tack : Comp.tack ∈ fl) (h_fports : Comp.fports ∈ fl) (h_trees : Comp.trees ∈ fl) (h_inq : Comp.inq ∈ fl) (h_counters : Comp.counters ∈ fl) (h_gctr : Comp.gctr ∈ fl) (h_rake : Comp.rake ∈ fl) (h_trace : Comp.trace ∈ fl) (h_watches : Comp.watches ∈ fl) (h_irq : Comp.irq ∈ fl) (h_mem : Comp.mem ∈ fl) (h_mmPort : Comp.mmPort ∈ fl) (h_free : Comp.free ∈ fl) (hk : Frame fl fr s) : Frame fl fr (landingDecrement s) := by
  unfold landingDecrement
  repeat' first
    | with_reducible assumption
    | (with_reducible exact Or.inl (by assumption))
    | (with_reducible exact Or.inr rfl)
    | with_reducible apply State.modLcu_frame
    | with_reducible apply inner_frame
    | with_reducible apply decrement_frame
    | with_reducible apply wakeDecs_frame
    | with_reducible apply pump_frame
    | with_reducible apply Frame.ite
    | split
    | dsimp only

theorem heldPerform_frame {fl : List Comp} {fr : State} (commit : Bool) (s : State) (h_cmds : Comp.cmds ∈ fl) (h_wins : Comp.wins ∈ fl) (h_parts : Comp.parts ∈ fl) (h_aps : Comp.aps ∈ fl) (h_ops : Comp.ops ∈ fl) (h_merges : Comp.merges ∈ fl) (h_rows : Comp.rows ∈ fl) (h_banks : Comp.banks ∈ fl) (h_waiters : Comp.waiters ∈ fl) (h_records : Comp.records ∈ fl) (h_early : Comp.early ∈ fl) (h_spillWakes : Comp.spillWakes ∈ fl) (h_fetching : Comp.fetching ∈ fl) (h_descs : Comp.descs ∈ fl) (h_holdings : Comp.holdings ∈ fl) (h_fences : Comp.fences ∈ fl) (h_deadlines : Comp.deadlines ∈ fl) (h_leases : Comp.leases ∈ fl) (h_arming : Comp.arming ∈ fl) (h_heldq : Comp.heldq ∈ fl) (h_sn : Comp.sn ∈ fl) (h_dir : Comp.dir ∈ fl) (h_tack : Comp.tack ∈ fl) (h_fports : Comp.fports ∈ fl) (h_trees : Comp.trees ∈ fl) (h_inq : Comp.inq ∈ fl) (h_counters : Comp.counters ∈ fl) (h_gctr : Comp.gctr ∈ fl) (h_rake : Comp.rake ∈ fl) (h_trace : Comp.trace ∈ fl) (h_watches : Comp.watches ∈ fl) (h_irq : Comp.irq ∈ fl) (h_mem : Comp.mem ∈ fl) (h_mmPort : Comp.mmPort ∈ fl) (h_free : Comp.free ∈ fl) (hk : Frame fl fr s) : Frame fl fr (heldPerform commit s) := by
  unfold heldPerform
  repeat' first
    | with_reducible assumption
    | (with_reducible exact Or.inl (by assumption))
    | (with_reducible exact Or.inr rfl)
    | with_reducible apply State.modLcu_frame
    | with_reducible apply inner_frame
    | with_reducible apply dropHeld_frame
    | with_reducible apply performHeldSignal_frame
    | with_reducible apply performHeldCommit_frame
    | with_reducible apply wakeHeld_frame
    | with_reducible apply pump_frame
    | with_reducible apply Frame.ite
    | split
    | dsimp only

theorem snRefill_frame {fl : List Comp} {fr : State} (s : State) (h_wins : Comp.wins ∈ fl) (h_sn : Comp.sn ∈ fl) (h_counters : Comp.counters ∈ fl) (hk : Frame fl fr s) : Frame fl fr (snRefill s) := by
  unfold snRefill
  repeat' first
    | with_reducible assumption
    | (with_reducible exact Or.inl (by assumption))
    | (with_reducible exact Or.inr rfl)
    | with_reducible apply State.modSn_frame
    | with_reducible apply snEnter_frame
    | with_reducible apply Frame.ite
    | split
    | dsimp only

theorem snLost_frame {fl : List Comp} {fr : State} (s : State) (h_wins : Comp.wins ∈ fl) (h_sn : Comp.sn ∈ fl) (h_counters : Comp.counters ∈ fl) (hk : Frame fl fr s) : Frame fl fr (snLost s) := by
  unfold snLost
  repeat' first
    | with_reducible assumption
    | (with_reducible exact Or.inl (by assumption))
    | (with_reducible exact Or.inr rfl)
    | with_reducible apply State.modSn_frame
    | with_reducible apply snEnter_frame
    | with_reducible apply Frame.ite
    | split
    | dsimp only

theorem snPresent_frame {fl : List Comp} {fr : State} (s : State) (h_wins : Comp.wins ∈ fl) (h_sn : Comp.sn ∈ fl) (h_counters : Comp.counters ∈ fl) (h_gctr : Comp.gctr ∈ fl) (hk : Frame fl fr s) : Frame fl fr (snPresent s) := by
  unfold snPresent
  repeat' first
    | with_reducible assumption
    | (with_reducible exact Or.inl (by assumption))
    | (with_reducible exact Or.inr rfl)
    | with_reducible apply State.modSn_frame
    | with_reducible apply gcount_frame
    | with_reducible apply snShow_frame
    | with_reducible apply snRefill_frame
    | with_reducible apply snLost_frame
    | with_reducible apply Frame.ite
    | split
    | dsimp only

theorem watchRelease_frame {fl : List Comp} {fr : State} (s : State) (h_cmds : Comp.cmds ∈ fl) (h_wins : Comp.wins ∈ fl) (h_parts : Comp.parts ∈ fl) (h_aps : Comp.aps ∈ fl) (h_ops : Comp.ops ∈ fl) (h_merges : Comp.merges ∈ fl) (h_rows : Comp.rows ∈ fl) (h_banks : Comp.banks ∈ fl) (h_waiters : Comp.waiters ∈ fl) (h_records : Comp.records ∈ fl) (h_early : Comp.early ∈ fl) (h_spillWakes : Comp.spillWakes ∈ fl) (h_fetching : Comp.fetching ∈ fl) (h_descs : Comp.descs ∈ fl) (h_holdings : Comp.holdings ∈ fl) (h_fences : Comp.fences ∈ fl) (h_deadlines : Comp.deadlines ∈ fl) (h_leases : Comp.leases ∈ fl) (h_arming : Comp.arming ∈ fl) (h_heldq : Comp.heldq ∈ fl) (h_sn : Comp.sn ∈ fl) (h_dir : Comp.dir ∈ fl) (h_tack : Comp.tack ∈ fl) (h_fports : Comp.fports ∈ fl) (h_trees : Comp.trees ∈ fl) (h_inq : Comp.inq ∈ fl) (h_counters : Comp.counters ∈ fl) (h_gctr : Comp.gctr ∈ fl) (h_rake : Comp.rake ∈ fl) (h_trace : Comp.trace ∈ fl) (h_watches : Comp.watches ∈ fl) (h_irq : Comp.irq ∈ fl) (h_mem : Comp.mem ∈ fl) (h_mmPort : Comp.mmPort ∈ fl) (h_free : Comp.free ∈ fl) (hk : Frame fl fr s) : Frame fl fr (watchRelease s) := by
  unfold watchRelease
  repeat' first
    | with_reducible assumption
    | (with_reducible exact Or.inl (by assumption))
    | (with_reducible exact Or.inr rfl)
    | with_reducible apply inner_frame
    | with_reducible apply releaseWatched_frame
    | with_reducible apply askFor_frame
    | with_reducible apply pump_frame
    | with_reducible apply Frame.ite
    | (with_reducible refine Frame.foldl (fun _ _ _ => ?_) ?_)
    | split
    | dsimp only

end Sys2Proof.Machine
end

