-- ==== Sys2Proof/Laws/Kept.lean ====
section
/-! SUPPORT. What no effect of a command may do, as a relation between two states: the queue, the memory master port's error ranges and the straps stand, host memory keeps its canonical form, and OTP only moves forward. -/

namespace Sys2Proof.Machine

theorem tget_tdel_ne {α : Type} (t : Table α) (k j : Nat) (h : j ≠ k) : tget (tdel t k) j = tget t j := by
  induction t with
  | nil => rfl
  | cons e t ih =>
    obtain ⟨a, v⟩ := e
    simp only [tdel]
    split
    · subst_vars; simp [tget, Ne.symm h, ih]
    · simp only [tget, ih]

theorem tget_tset {α : Type} (t : Table α) (k : Nat) (v : α) : tget (tset t k v) k = some v := by
  induction t with
  | nil => simp [tset, tget]
  | cons e t ih =>
    obtain ⟨a, w⟩ := e
    simp only [tset]
    split
    · simp [tget]
    · split
      · simp [tget]
      · simp [tget, *]

theorem tget_tset_ne {α : Type} (t : Table α) (k j : Nat) (v : α) (h : j ≠ k) :
    tget (tset t k v) j = tget t j := by
  induction t with
  | nil => simp [tset, tget, Ne.symm h]
  | cons e t ih =>
    obtain ⟨a, w⟩ := e
    simp only [tset]
    split
    · simp [tget, Ne.symm h]
    · split
      · subst_vars; simp [tget, Ne.symm h]
      · simp only [tget, ih]

/-! ### Rising keys -/

/-- Every key lies above `k`. -/
def above {α : Type} (k : Nat) (t : Table α) : Bool := t.all fun e => decide (k < e.1)

theorem keysRising_cons {α : Type} (k : Nat) (v : α) (t : Table α) :
    keysRising ((k, v) :: t) = (above k t && keysRising t) := by
  induction t generalizing k v with
  | nil => simp [keysRising, above]
  | cons e t ih =>
    obtain ⟨a, w⟩ := e
    simp only [keysRising, ih, above, List.all_cons]
    rw [Bool.eq_iff_iff]
    simp only [Bool.and_eq_true, decide_eq_true_eq, List.all_eq_true]
    constructor
    · rintro ⟨h1, h2, h3⟩; exact ⟨⟨h1, fun x hx => Nat.lt_trans h1 (h2 x hx)⟩, h2, h3⟩
    · rintro ⟨⟨h1, _⟩, h2, h3⟩; exact ⟨h1, h2, h3⟩

theorem above_tdel {α : Type} (k j : Nat) (t : Table α) (h : above k t = true) : above k (tdel t j) = true := by
  induction t with
  | nil => rfl
  | cons e t ih =>
    obtain ⟨a, w⟩ := e
    simp only [above, List.all_cons, Bool.and_eq_true] at h ih ⊢
    simp only [tdel]
    split
    · exact ih h.2
    · simp only [List.all_cons, Bool.and_eq_true]; exact ⟨h.1, ih h.2⟩

theorem above_tset {α : Type} (k j : Nat) (v : α) (t : Table α) (hj : k < j) (h : above k t = true) :
    above k (tset t j v) = true := by
  induction t with
  | nil => simp [tset, above, hj]
  | cons e t ih =>
    obtain ⟨a, w⟩ := e
    simp only [above, List.all_cons, Bool.and_eq_true, decide_eq_true_eq] at h ih ⊢
    simp only [tset]
    split
    · simp only [List.all_cons, Bool.and_eq_true, decide_eq_true_eq]; exact ⟨hj, h⟩
    · split
      · simp only [List.all_cons, Bool.and_eq_true, decide_eq_true_eq]; exact ⟨hj, h.2⟩
      · simp only [List.all_cons, Bool.and_eq_true, decide_eq_true_eq]; exact ⟨h.1, ih h.2⟩

theorem above_lt {α : Type} (k j : Nat) (t : Table α) (hj : j < k) (h : above k t = true) : above j t = true := by
  simp only [above, List.all_eq_true, decide_eq_true_eq] at h ⊢
  intro x hx; exact Nat.lt_trans hj (h x hx)

theorem keysRising_tdel {α : Type} (t : Table α) (k : Nat) (h : keysRising t = true) :
    keysRising (tdel t k) = true := by
  induction t with
  | nil => rfl
  | cons e t ih =>
    obtain ⟨a, w⟩ := e
    rw [keysRising_cons, Bool.and_eq_true] at h
    simp only [tdel]
    split
    · exact ih h.2
    · rw [keysRising_cons, Bool.and_eq_true]; exact ⟨above_tdel _ _ _ h.1, ih h.2⟩

theorem keysRising_tset {α : Type} (t : Table α) (k : Nat) (v : α) (h : keysRising t = true) :
    keysRising (tset t k v) = true := by
  induction t with
  | nil => rfl
  | cons e t ih =>
    obtain ⟨a, w⟩ := e
    simp only [tset]
    split
    · rename_i hlt
      rw [keysRising_cons, Bool.and_eq_true]
      refine ⟨?_, h⟩
      rw [keysRising_cons, Bool.and_eq_true] at h
      simp only [above, List.all_cons, Bool.and_eq_true, decide_eq_true_eq]
      exact ⟨hlt, above_lt _ _ _ hlt h.1⟩
    · rename_i hnlt
      rw [keysRising_cons, Bool.and_eq_true] at h
      split
      · rename_i he; subst he
        rw [keysRising_cons, Bool.and_eq_true]; exact h
      · rename_i hne
        rw [keysRising_cons, Bool.and_eq_true]
        exact ⟨above_tset _ _ _ _ (by omega) h.1, ih h.2⟩

theorem all_tdel {α : Type} (q : Nat × α → Bool) (t : Table α) (k : Nat) (h : t.all q = true) :
    (tdel t k).all q = true := by
  induction t with
  | nil => rfl
  | cons e t ih =>
    obtain ⟨a, w⟩ := e
    simp only [List.all_cons, Bool.and_eq_true] at h
    simp only [tdel]
    split
    · exact ih h.2
    · simp only [List.all_cons, Bool.and_eq_true]; exact ⟨h.1, ih h.2⟩

theorem all_tset {α : Type} (q : Nat × α → Bool) (t : Table α) (k : Nat) (v : α) (hv : q (k, v) = true)
    (h : t.all q = true) : (tset t k v).all q = true := by
  induction t with
  | nil => simp [tset, hv]
  | cons e t ih =>
    obtain ⟨a, w⟩ := e
    have h' := h
    simp only [List.all_cons, Bool.and_eq_true] at h
    simp only [tset]
    split
    · simp only [List.all_cons, Bool.and_eq_true]; exact ⟨hv, h⟩
    · split
      · simp only [List.all_cons, Bool.and_eq_true]; exact ⟨hv, h.2⟩
      · simp only [List.all_cons, Bool.and_eq_true]; exact ⟨h.1, ih h.2⟩

/-- A write keeps the canonical form. -/
theorem tableWf_tput {α : Type} [DecidableEq α] (d : α) (t : Table α) (k : Nat) (v : α)
    (h : tableWf d t = true) : tableWf d (tput d t k v) = true := by
  simp only [tableWf, Bool.and_eq_true] at h ⊢
  simp only [tput]
  split
  · exact ⟨keysRising_tdel _ _ h.1, all_tdel _ _ _ h.2⟩
  · rename_i hv
    exact ⟨keysRising_tset _ _ _ h.1, all_tset _ _ _ _ (by simpa using hv) h.2⟩

theorem tget_tdel {α : Type} (t : Table α) (k : Nat) : tget (tdel t k) k = none := by
  induction t with
  | nil => rfl
  | cons e t ih =>
    obtain ⟨a, w⟩ := e
    simp only [tdel]
    split
    · exact ih
    · rename_i hne; simp only [tget, if_neg hne]; exact ih

theorem above_filter {α : Type} (k : Nat) (q : Nat × α → Bool) (t : Table α) (h : above k t = true) :
    above k (t.filter q) = true := by
  simp only [above, List.all_eq_true, List.mem_filter] at h ⊢
  exact fun x hx => h x hx.1

/-- Dropping entries keeps the canonical form. -/
theorem tableWf_filter {α : Type} [DecidableEq α] (d : α) (q : Nat × α → Bool) (t : Table α)
    (h : tableWf d t = true) : tableWf d (t.filter q) = true := by
  simp only [tableWf, Bool.and_eq_true] at h ⊢
  refine ⟨?_, ?_⟩
  · have hr := h.1
    clear h
    induction t with
    | nil => rfl
    | cons e t ih =>
      obtain ⟨a, w⟩ := e
      rw [keysRising_cons, Bool.and_eq_true] at hr
      rw [List.filter_cons]
      split
      · rw [keysRising_cons, Bool.and_eq_true]
        exact ⟨above_filter _ _ _ hr.1, ih hr.2⟩
      · exact ih hr.2
  · simp only [List.all_eq_true, List.mem_filter] at h ⊢
    exact fun x hx => h.2 x hx.1

/-- A read after a write. -/
theorem tgetD_tput {α : Type} [DecidableEq α] (d : α) (t : Table α) (k : Nat) (v : α) :
    tgetD d (tput d t k v) k = v := by
  simp only [tgetD, tput]
  split
  · rename_i hv; rw [tget_tdel]; simp [hv]
  · simp [tget_tset]

theorem tgetD_tput_ne {α : Type} [DecidableEq α] (d : α) (t : Table α) (k j : Nat) (v : α) (h : j ≠ k) :
    tgetD d (tput d t k v) j = tgetD d t j := by
  simp only [tgetD, tput]
  split
  · rw [tget_tdel_ne _ _ _ h]
  · rw [tget_tset_ne _ _ _ _ h]

/-! ### The relation -/

theorem OtpStep.refl (a : Otp) : OtpStep a a := ⟨rfl, rfl, Nat.le_refl _, fun _ h => h, fun h => h⟩

theorem OtpStep.trans {a b c : Otp} (h : OtpStep a b) (g : OtpStep b c) : OtpStep a c :=
  ⟨g.1.trans h.1, g.2.trans h.2, Nat.le_trans h.3 g.3, fun i x => g.4 i (h.4 i x), fun x => g.5 (h.5 x)⟩

structure Kept (r s : State) : Prop where
  pending : s.pending = r.pending
  mmBad : s.mmBad = r.mmBad
  straps : s.clk.straps = r.clk.straps
  mem : Memory.wf r.mem = true → Memory.wf s.mem = true
  otp : OtpStep r.slu.otp s.slu.otp

theorem Kept.refl (s : State) : Kept s s := ⟨rfl, rfl, rfl, id, OtpStep.refl _⟩

theorem Kept.trans {a b c : State} (h : Kept a b) (g : Kept b c) : Kept a c :=
  ⟨g.1.trans h.1, g.2.trans h.2, g.3.trans h.3, g.4 ∘ h.4, h.5.trans g.5⟩

/-- Whatever leaves these five as they are keeps the relation. -/
theorem Kept.cast {r s t : State} (h : Kept r s) (hp : t.pending = s.pending) (hb : t.mmBad = s.mmBad)
    (hs : t.clk.straps = s.clk.straps) (hm : t.mem = s.mem) (ho : t.slu.otp = s.slu.otp) :
    Kept r t :=
  ⟨hp.trans h.1, hb.trans h.2, hs.trans h.3, fun x => hm ▸ h.4 x, ho ▸ h.5⟩

/-- The relation over the parts of a state that it reads. -/
def KeptP (r : State) (p : List Instr) (b : List (Nat × Nat × Option ReqId)) (st : BitVec 17) (m : List Host.Cell) (o : Otp) : Prop :=
  p = r.pending ∧ b = r.mmBad ∧ st = r.clk.straps ∧ (Memory.wf r.mem = true → Memory.wf m = true) ∧
    OtpStep r.slu.otp o

theorem Kept.toP {r s : State} (h : Kept r s) : KeptP r s.pending s.mmBad s.clk.straps s.mem s.slu.otp :=
  ⟨h.1, h.2, h.3, h.4, h.5⟩

theorem Kept.mkP {r : State} {a1 a2 a3 a4 a5 a6 a7 a8 a9 b1 b2 b3 b4 b5 b6 b7 b8 b9 c1 c2 c3 c4 c5 c6}
    (h : KeptP r a1 c4 a2.straps c3 a3.otp) :
    Kept r (State.mk a1 a2 a3 a4 a5 a6 a7 a8 a9 b1 b2 b3 b4 b5 b6 b7 b8 b9 c1 c2 c3 c4 c5 c6) :=
  ⟨h.1, h.2.1, h.2.2.1, h.2.2.2.1, h.2.2.2.2⟩

theorem Kept.ite {r a b : State} {c : Prop} [Decidable c] (ha : Kept r a) (hb : Kept r b) :
    Kept r (if c then a else b) := by split <;> assumption

theorem Kept.foldl {α : Type} {r : State} {f : State → α → State} {l : List α} {s : State}
    (hf : ∀ s x, Kept r s → Kept r (f s x)) (h : Kept r s) : Kept r (l.foldl f s) := by
  induction l generalizing s with
  | nil => exact h
  | cons x l ih => exact ih (hf _ _ h)

theorem State.modSlu_kept {kr : State} {s : State} {f : Slu → Slu} (ho : (f s.slu).otp = s.slu.otp)
    (hk : Kept kr s) : Kept kr (s.modSlu f) := Kept.cast hk rfl rfl rfl rfl ho

theorem State.modClk_kept {kr : State} {s : State} {f : Clk → Clk}
    (ho : (f s.clk).straps = s.clk.straps) (hk : Kept kr s) : Kept kr (s.modClk f) :=
  Kept.cast hk rfl rfl ho rfl rfl

/-- TIME passing leaves the straps. -/
theorem Clk.advance_straps (n : Nat) (c : Clk) : (Clk.advance n c).straps = c.straps := by
  unfold Clk.advance
  dsimp only
  repeat' first
    | rfl
    | split

theorem fresh_kept {kr : State} (s : State) (hk : Kept kr s) : Kept kr (fresh s).2 :=
  Kept.cast hk rfl rfl rfl rfl rfl

theorem fresh_keptE {kr : State} (s : State) {kv : DWord} {kt : State} (hk : Kept kr s) (he : fresh s = (kv, kt)) :
    Kept kr kt := by
  have h := fresh_kept s hk
  rw [he] at h; exact h

theorem memSetByte_kept {kr : State} (s : State) (a : Nat) (v : Byte) (hk : Kept kr s) :
    Kept kr (memSetByte s a v) :=
  ⟨hk.1, hk.2, hk.3, fun h => tableWf_tput _ _ _ _ (hk.4 h), hk.5⟩

theorem memWrite_kept {kr : State} (vs : List Byte) :
    ∀ (s : State) (a : Nat), Kept kr s → Kept kr (memWrite s a vs) := by
  induction vs with
  | nil => intro s a h; exact h
  | cons v vs ih => intro s a h; exact ih _ _ (memSetByte_kept _ _ _ h)

end Sys2Proof.Machine
end

