-- ==== Sys2Proof/Laws/Accept.lean ====
section
/-! SUPPORT. A flit that nothing holds is accepted and performed within its command: from the port through the bind stage to its object. -/

namespace Sys2Proof.Machine

@[simp] theorem State.ap_setAp (s : State) (p : PortNo) (x : ApPort) : (s.setAp p x).ap p = x := by
  simp [State.setAp, State.ap, tgetD_tput]

theorem State.ap_setAp_ne (s : State) {p q : PortNo} (x : ApPort) (h : q ≠ p) : (s.setAp p x).ap q = s.ap q := by
  have : q.toNat ≠ p.toNat := fun e => h (BitVec.eq_of_toNat_eq e)
  simp only [State.setAp, State.ap]
  exact tgetD_tput_ne _ _ _ _ _ this

@[simp] theorem State.ap_modAp (s : State) (p : PortNo) (f : ApPort → ApPort) : (s.modAp p f).ap p = f (s.ap p) :=
  State.ap_setAp _ _ _

theorem State.ap_modAp_ne (s : State) {p q : PortNo} (f : ApPort → ApPort) (h : q ≠ p) : (s.modAp p f).ap q = s.ap q :=
  State.ap_setAp_ne _ _ h

theorem opOf_code (op : Op) : opOf op.code = some op := by cases op <;> decide

theorem earlier_append (e : OpEntry) (l : List OpEntry) (h : ∀ d ∈ l, d.id ≠ e.id) : earlier e.id (l ++ [e]) = l := by
  induction l with
  | nil => simp [earlier]
  | cons d l ih =>
    have hd := h d (by simp)
    simp only [List.cons_append, earlier, hd, if_false]
    rw [ih fun x hx => h x (by simp [hx])]

theorem earlier_sub (id : Nat) (l : List OpEntry) {d : OpEntry} (h : d ∈ earlier id l) : d ∈ l := by
  induction l with
  | nil => simp [earlier] at h
  | cons x l ih =>
    by_cases hx : x.id = id
    · simp [earlier, hx] at h
    · simp only [earlier, hx, if_false, List.mem_cons] at h
      rcases h with h | h
      · simp [h]
      · simp [ih h]

theorem find_append (e : OpEntry) (l : List OpEntry) (h : ∀ d ∈ l, d.id ≠ e.id) :
    (l ++ [e]).find? (fun d => decide (d.id = e.id)) = some e := by
  rw [List.find?_append, List.find?_eq_none.2 (by simpa using h)]
  simp

/-- What the port makes of one flit: it enters the ingress buffer and leaves it with its credit back. -/
def portThrough (p : PortNo) (g : Flit) (s : State) : State :=
  popIngress p g (s.modAp p fun x => { x with ingress := x.ingress ++ [g] })

theorem mapFirst_append (f : OpEntry → OpEntry) (e : OpEntry) (l : List OpEntry) (h : ∀ d ∈ l, d.id ≠ e.id) :
    mapFirst (fun d => decide (d.id = e.id)) f (l ++ [e]) = l ++ [f e] := by
  induction l with
  | nil => simp [mapFirst]
  | cons d l ih =>
    have hd := h d (by simp)
    simp only [List.cons_append, mapFirst, hd, decide_false, Bool.false_eq_true, if_false]
    rw [ih fun x hx => h x (by simp [hx])]

theorem feedGo_one (p : PortNo) (g : Flit) (s : State) (h : (s.ap p).ingress = [g]) (hh : s.obs.hobble.state = 0) :
    feed p s =
      match bindFlit p g false false (popIngress p g s) with
      | .pass t => t
      | .hold =>
        if (s.ap p).holdUse + g.credits ≤ Config.holdEntries then
          (popIngress p g s).modAp p fun x => { x with hold := x.hold ++ [g] }
        else s
      | .stay => s := by
  have : s.hobbling = false := by simp [State.hobbling, hh]
  unfold feed
  simp only [this, h, Bool.false_eq_true, if_false]
  unfold feedGo passHead
  cases bindFlit p g false false (popIngress p g s) with
  | pass t => simp [feedGo]
  | hold =>
    dsimp only
    by_cases hc : (s.ap p).holdUse + g.credits ≤ Config.holdEntries
    · simp only [hc, if_true, feedGo]
    · simp only [hc, if_false]
  | stay => rfl

/-- The bind stage accepts a flit that is ready for it. -/
theorem bindFlit_ready {p : PortNo} {a : LocalAgent} {op : Op} {f : Req} {cont : Option Req} {s : State}
    (h : BindReady p a op f cont s) :
    bindFlit p ⟨a, op.code, f, cont⟩ false false s =
      .pass (acceptOp p op ⟨a, op.code, f, cont⟩ ((s.portPool p (s.bind (agentId p a)).part).getD .shared) s) := by
  unfold bindFlit
  have hp := h.pool
  rw [Option.isSome_iff_exists] at hp
  obtain ⟨q, hq⟩ := hp
  simp [h.bound, h.passes, h.ahead, opOf_code, h.format, hq, h.turn, Option.filter]

/-- `s` with other ports, op table entries, notes of merged arrivals, and global counters. -/
def State.regate (s : State) (aps : Table ApPort) (ops : List OpEntry) (ms : List Merge) (g : Table DWord) : State :=
  { s with aps := aps, opr := { s.opr with ops := ops, merges := ms }, obs := { s.obs with gctr := g } }

theorem frozen_zero {s : State} (h : s.obs.hobble.state = 0) : s.frozen = false := by simp [State.frozen, h]

theorem gcountN_run {s : State} (h : s.frozen = false) (i n : Nat) : gcountN i n s = s.modObs (bumpGctr i n) := by
  simp [gcountN, h]

theorem HomeReady.regate {e : OpEntry} {o : Obj} {s : State} (h : HomeReady e o s) (A : Table ApPort) (l : List OpEntry)
    (G : Table DWord) (hl : ∀ d ∈ l, d ∈ s.opr.ops ∨ d.st ≠ .heldQueue) :
    HomeReady e o (s.regate A l s.opr.merges G) where
  here := h.here
  resident := h.resident
  started := h.started
  undue := h.undue
  unmoved := h.unmoved
  lit := h.lit
  fetched := h.fetched
  unspilled := h.unspilled
  unwoken := h.unwoken
  banks := h.banks
  row := h.row
  obj := h.obj
  owner := h.owner
  room := h.room
  sole := h.sole
  heldRoom := fun he => ⟨(h.heldRoom he).1, fun d hd => (hl d hd).elim (fun hm => (h.heldRoom he).2 d hm) id⟩

/-- What the bank notes of an arrival that joins no other (R17). -/
def State.noted (s : State) (e : OpEntry) : List Merge :=
  if e.mergeable then
    (s.opr.merges.filter fun m => decide (m.done = s.now ∧ ¬(m.key = opKey e ∧ m.parity = reqAux0 e.req))) ++
      [⟨opKey e, reqAux0 e.req, e.at_, s.now, false, agentPort e.agent⟩]
  else s.opr.merges

/-- An operation that joins no other is one bank operation. -/
theorem countBank_sole {e : OpEntry} {s : State} (h : ∀ m ∈ s.opr.merges, m.takes e s.now = false) :
    countBank e s = gcount 0 (s.modOpr fun o => { o with merges := s.noted e }) := by
  unfold countBank State.noted
  cases e.mergeable
  · rfl
  · have : s.opr.merges.find? (fun m => m.takes e s.now) = none := by
      rw [List.find?_eq_none]; intro m hm; simp [h m hm]
    simp only [this, Bool.not_true, Bool.false_eq_true, if_false, if_true]
    rfl

/-- An operation that nothing holds at its home reaches its object. -/
theorem tryHome_ready {e : OpEntry} {o : Obj} {s : State} (h : HomeReady e o s) (ha : accepts o.body e.op = true)
    (hf : e.op.fabricOnly = false) :
    tryHome e s = performBody e (opKey e) o (countBank e s) := by
  have hk : s.ctx (opKey e).part (opKey e).ctx = s.ctx e.part e.req.ctx := rfl
  have hfe : s.wmc.fetching.any (fun x => decide (x = opKey e)) = false := by
    simpa using fun x hx (he : x = opKey e) => h.fetched (he ▸ hx)
  have hsw : (s.wmc.spillWakes.any fun x => decide (x.w.key = opKey e)) = false := by
    simpa using fun x hx => h.unwoken x hx
  have hh : s.homeHeld e = false := by
    simp [State.homeHeld, State.ingressHeld, State.spillHeld, State.fetchHeld, hk, h.resident, h.undue, h.unmoved, h.lit, hfe, h.unspilled, hsw]
  have hp : performHome e s = performBody e (opKey e) o (countBank e s) := by
    unfold performHome performAtBank
    have ho : (countBank e s).obj (opKey e) = some o := by
      rw [countBank_sole h.sole]
      unfold gcount gcountN
      split
      · exact h.obj
      · exact h.obj
    have hw : (opKey e).part = e.part := rfl
    simp only [hf, ho, hw, h.owner, ne_eq, not_true_eq_false, if_false, ha, Bool.not_true, Bool.false_eq_true]
  unfold tryHome
  simp only [hh, Bool.false_eq_true, if_false, hp]
  have hov : ∀ t, s.overflows e t = false := fun t => by simp [State.overflows, h.room]
  have hho : ∀ t, s.heldOver e t = false := fun t => by
    unfold State.heldOver State.heldFull
    cases he : entersHeld e
    · simp
    · obtain ⟨h1, h2⟩ := h.heldRoom he
      have : (s.opr.ops.any fun d => s.waitsAhead d e) = false := by
        simp only [List.any_eq_false, State.waitsAhead]
        intro d hd
        simp [h2 d hd]
      simp [h1, this]
  simp [hov, hho]

/-- OPR finds nothing against the name of an operation that nothing holds at its home. -/
theorem translate_ready {e : OpEntry} {o : Obj} {s : State} (h : HomeReady e o s) (hx : e.xlat = none)
    (hn : e.op.noObject = false) (hf : e.op.fabricOnly = false) :
    translate e s = setOp e.id (fun x => { x with xlat := some .ok }) s := by
  have hk : s.ctx (opKey e).part (opKey e).ctx = s.ctx e.part e.req.ctx := rfl
  have hc : s.nameCheck (opKey e) = .ok := by
    unfold State.nameCheck
    have hb : s.bankAllowed (opKey e).part (opKey e).index = true := h.banks
    have hr : ¬ (s.ctx e.part e.req.ctx).rowCount.toNat ≤ rowOff (opKey e).index := Nat.not_le.2 h.row
    simp [hk, h.resident, hb, hr]
  unfold translate
  simp [hx, hn, hf, h.here, h.started, State.translation, hk, h.resident, hc]

/-- The entry of a flit before its name has been translated. -/
def untranslated (p : PortNo) (a : LocalAgent) (op : Op) (f : Req) (cont : Option Req) (s : State) : OpEntry :=
  { entered p a op f cont s with xlat := none }

/-- The op table's entry of a flit is the last accepted operation, and no rule of order holds it. -/
theorem orderHeld_entered {p : PortNo} {a : LocalAgent} {op : Op} {f : Req} {cont : Option Req} {s x : State}
    (h : BindReady p a op f cont s) (hhere : f.node = s.fab.nodeId) (hfab : x.fab.nodeId = s.fab.nodeId)
    (hops : x.opr.ops = s.opr.ops ++ [entered p a op f cont s]) :
    x.orderHeld (untranslated p a op f cont s) = false := by
  unfold State.orderHeld
  have hid : (untranslated p a op f cont s).id = (entered p a op f cont s).id := rfl
  rw [hops, hid, earlier_append _ _ h.entry, List.any_eq_false]
  intro d hd
  simp only [OpEntry.sameAgent, Bool.and_eq_true, decide_eq_true_eq, Bool.or_eq_true, not_and]
  rintro ⟨⟨hag, hno, htx⟩, hop⟩
  have htx : d.txid = none := by
    cases hd' : d.txid with
    | none => rfl
    | some t => rw [hd'] at htx; simp [untranslated, entered, newEntry] at htx
  obtain ⟨h1, h2, h3⟩ := h.order d hd hag hno htx hop
  have hl : x.leaves (untranslated p a op f cont s) = false := by
    have : (untranslated p a op f cont s).req.node = x.fab.nodeId := by rw [hfab]; exact hhere
    simp [State.leaves, this]
  rw [hl]
  simp only [h1, Bool.false_eq_true, OpEntry.sameObject, untranslated, entered, newEntry, h2]
  rcases h3 with h3 | h3 | h3 | h3 | h3 <;> simp [h3]

theorem othersWait_regate {p : PortNo} {s : State} (A : Table ApPort) (G : Table DWord) (ms : List Merge) (l : List OpEntry)
    (hA : ∀ q : PortNo, q ≠ p → tgetD ApPort.reset A q.toNat = s.ap q) :
    (s.regate A l ms G).othersWait p = s.othersWait p := by
  unfold State.othersWait
  rw [Bool.eq_iff_iff]
  simp only [List.any_eq_true, List.mem_range, Bool.and_eq_true, decide_eq_true_eq]
  refine exists_congr fun i => and_congr_right fun hi => and_congr_right fun hne => ?_
  have hq : (BitVec.ofNat 4 i : PortNo) ≠ p := by
    intro he
    apply hne
    rw [← he]
    simp only [BitVec.toNat_ofNat]
    omega
  have hap : (s.regate A l ms G).ap (BitVec.ofNat 4 i) = s.ap (BitVec.ofNat 4 i) := hA _ hq
  have hhb : ∀ part, (s.regate A l ms G).heldBehind (BitVec.ofNat 4 i) part = s.heldBehind (BitVec.ofNat 4 i) part := by
    intro part
    unfold State.heldBehind
    rw [hap]; rfl
  unfold State.entryWaits State.headWait
  simp only [hap, hhb]
  exact Iff.rfl

theorem BindReady.regate {p : PortNo} {a : LocalAgent} {op : Op} {f : Req} {cont : Option Req} {s : State}
    (h : BindReady p a op f cont s) (A : Table ApPort)
    (G : Table DWord) (hA : ∀ q : PortNo, q ≠ p → tgetD ApPort.reset A q.toNat = s.ap q)
    (hp : (tgetD ApPort.reset A p.toNat).hold = (s.ap p).hold) :
    BindReady p a op f cont (s.regate A s.opr.ops s.opr.merges G) where
  bound := h.bound
  passes := h.passes
  ahead := by
    have := h.ahead
    unfold State.heldBehind at this ⊢
    rw [← this]
    show (tgetD ApPort.reset A p.toNat).hold.any _ = _
    rw [hp]; rfl
  format := h.format
  pool := h.pool
  turn := (othersWait_regate A G _ _ hA).trans h.turn
  entry := h.entry
  order := h.order

/-- Objects are named by the operation. -/
def Op.plain : Op → Bool
  | .fence | .setTag | .sectionMark | .mgmt | .cas | .casCont | .waitCancel | .abandon | .rsvCancel => false
  | _ => true

/-- The ports and the op table after the flit of an accepted operation has passed. -/
theorem through_ap {p : PortNo} {g : Flit} {s : State} (h1 : (s.ap p).ingress = []) (h2 : g.credits ≤ (s.ap p).reqCredits)
    (h3 : (s.ap p).casFirst = none) (q : PortNo) :
    (portThrough p g (s.modAp p fun x => { x with casFirst := none, reqCredits := x.reqCredits - g.credits })).ap q = s.ap q := by
  unfold portThrough popIngress
  by_cases hq : q = p
  · subst hq
    simp only [State.ap_modAp]
    rw [h1, show (s.ap q).reqCredits - g.credits + g.credits = (s.ap q).reqCredits by omega, ← h3]
    simp only [List.nil_append, List.drop_succ_cons, List.drop_zero]
    rw [← h1]
  · simp only [State.ap_modAp_ne _ _ hq]

/-- The state in which an accepted operation of an object is performed, its name translated. -/
def acceptState (p : PortNo) (a : LocalAgent) (op : Op) (f : Req) (cont : Option Req) (s3 s : State) : State :=
  gcountN 8 (if cont.isSome then 2 else 1)
    (s3.modOpr fun o => { o with ops := o.ops ++ [entered p a op f cont s] })

theorem acceptState_regate {p : PortNo} {a : LocalAgent} {op : Op} {f : Req} {cont : Option Req} {s s3 : State} {A : Table ApPort}
    (hz : s.obs.hobble.state = 0) (h : s3 = s.regate A s.opr.ops s.opr.merges s.obs.gctr) :
    acceptState p a op f cont s3 s =
      s.regate A (s.opr.ops ++ [entered p a op f cont s]) s.opr.merges (acceptState p a op f cont s3 s).obs.gctr := by
  subst h
  unfold acceptState
  rw [gcountN_run (frozen_zero (by exact hz))]
  rfl

theorem Entered.of {p : PortNo} {a : LocalAgent} {op : Op} {f : Req} {cont : Option Req} {s s3 : State}
    (A : Table ApPort) (hz : s.obs.hobble.state = 0) (hs3 : s3 = s.regate A s.opr.ops s.opr.merges s.obs.gctr)
    (hap : ∀ q, s3.ap q = s.ap q) :
    Entered (entered p a op f cont s) (if cont.isSome then 2 else 1) s (acceptState p a op f cont s3 s) where
  ops := by rw [acceptState_regate hz hs3]; rfl
  ports := fun q => by
    rw [← hap q]
    unfold acceptState gcountN
    split <;> rfl
  flits := by
    subst hs3
    intro i
    unfold acceptState
    rw [gcountN_run (frozen_zero (by exact hz))]
    unfold State.modObs bumpGctr State.gctr
    by_cases h : i = 8
    · subst h; simp only [tgetD_tput, if_true]; rfl
    · simp only [h, if_false]
      rw [tgetD_tput_ne _ _ _ _ _ h]
      exact (BitVec.add_zero _).symm
  frame := by
    unfold acceptState
    apply gcountN_frame
    · simp
    · apply State.modOpr_frame <;> first
        | exact Or.inr rfl
        | exact Or.inl (by simp)
        | skip
      subst hs3
      intro c hc
      cases c <;> first | rfl | simp at hc

/-- From the bind stage to the object. -/
theorem accept_ready {p : PortNo} {a : LocalAgent} {op : Op} {f : Req} {cont : Option Req} {o : Obj} {s s3 : State}
    (A : Table ApPort) (hz : s.obs.hobble.state = 0) (hs3 : s3 = s.regate A s.opr.ops s.opr.merges s.obs.gctr)
    (hA : ∀ q : PortNo, q ≠ p → tgetD ApPort.reset A q.toNat = s.ap q)
    (hp' : (tgetD ApPort.reset A p.toNat).hold = (s.ap p).hold)
    (hb : BindReady p a op f cont s) (hh : HomeReady (entered p a op f cont s) o s)
    (ha : accepts o.body op = true) (hp : op.plain = true ∨ op = .cas) :
    bindFlit p ⟨a, op.code, f, cont⟩ false false s3 =
      .pass (performBody (entered p a op f cont s) (opKey (entered p a op f cont s)) o
        (countBank (entered p a op f cont s) (acceptState p a op f cont s3 s))) := by
  have hb3 : BindReady p a op f cont s3 := hs3 ▸ hb.regate A _ hA hp'
  rw [bindFlit_ready hb3]
  have hop : op ≠ .setTag ∧ op ≠ .sectionMark ∧ op ≠ .fence ∧ op ≠ .mgmt ∧ op.fabricOnly = false ∧ op.noObject = false := by
    rcases hp with hp | hp
    · cases op <;> simp_all [Op.plain, Op.fabricOnly, Op.noObject]
    · subst hp; simp [Op.fabricOnly, Op.noObject]
  obtain ⟨n1, n2, n3, n4, n5, n6⟩ := hop
  have he : newEntry p op ⟨a, op.code, f, cont⟩ ((s3.portPool p (s3.bind (agentId p a)).part).getD .shared) s3 =
      untranslated p a op f cont s := by subst hs3; rfl
  unfold acceptOp
  simp only [he, n1, n2, n3, or_self, if_false]
  congr 1
  let y := (s3.modOpr fun o => { o with ops := o.ops ++ [untranslated p a op f cont s] }).modObs
    (bumpGctr 8 (if cont.isSome then 2 else 1))
  have hz3 : s3.obs.hobble.state = 0 := by subst hs3; exact hz
  have hy : y = s.regate A (s.opr.ops ++ [untranslated p a op f cont s]) s.opr.merges y.obs.gctr := by
    subst hs3; rfl
  have hset : setOp (untranslated p a op f cont s).id (fun x => { x with xlat := some .ok }) y =
      acceptState p a op f cont s3 s := by
    unfold acceptState
    rw [gcountN_run (frozen_zero (by exact hz3))]
    have hm := mapFirst_append (fun x => { x with xlat := some .ok }) (untranslated p a op f cont s) s.opr.ops hb.entry
    subst hs3
    have hee : entered p a op f cont s = { untranslated p a op f cont s with xlat := some .ok } := by
      simp [entered, untranslated, n6]
    simp only [y, setOp, State.modOpr, State.modObs, State.regate]
    rw [hm, hee]
  have hx : acceptState p a op f cont s3 s = s.regate A (s.opr.ops ++ [entered p a op f cont s]) s.opr.merges
      (acceptState p a op f cont s3 s).obs.gctr := acceptState_regate hz hs3
  rw [gcountN_run (frozen_zero (by exact hz3))]
  show tryOp _ y = _
  unfold tryOp
  have hent : y.opEntry (untranslated p a op f cont s).id = some (untranslated p a op f cont s) := by
    rw [hy]; exact find_append _ _ hb.entry
  have hst : (untranslated p a op f cont s).st = .queued := by simp [untranslated, entered, newEntry, n3]
  have hry : HomeReady (untranslated p a op f cont s) o y := by
    have hu : HomeReady (untranslated p a op f cont s) o s := ⟨hh.1, hh.2, hh.3, hh.4, hh.5, hh.6, hh.7, hh.8, hh.9, hh.10, hh.11, hh.12, hh.13, hh.14, hh.15, hh.16⟩
    rw [hy]
    refine hu.regate A _ _ fun d hd => ?_
    rcases List.mem_append.1 hd with hd | hd
    · exact Or.inl hd
    · rw [List.mem_singleton.1 hd, hst]; exact Or.inr (by simp)
  have htr := translate_ready hry rfl n6 n5
  have hord : (acceptState p a op f cont s3 s).orderHeld (untranslated p a op f cont s) = false :=
    orderHeld_entered hb hh.here (by rw [hx]; rfl) (by rw [hx]; rfl)
  have hent2 : (acceptState p a op f cont s3 s).opEntry (untranslated p a op f cont s).id =
      some (entered p a op f cont s) := by
    rw [hx]; exact find_append (entered p a op f cont s) _ hb.entry
  simp only [hent, hst, htr, hset, hord, hent2, Bool.false_eq_true, if_false]
  have heop : (entered p a op f cont s).op = op := rfl
  have hnode : (entered p a op f cont s).req.node = (acceptState p a op f cont s3 s).fab.nodeId := by
    rw [hx]; exact hh.here
  have hsh : (acceptState p a op f cont s3 s).startHeld (entered p a op f cont s).part = false := by
    rw [hx]
    have : ((s.regate A (s.opr.ops ++ [entered p a op f cont s]) s.opr.merges
      (acceptState p a op f cont s3 s).obs.gctr).part (entered p a op f cont s).part).starting = none := hh.started
    simp [State.startHeld, this]
  unfold passOn
  have hxl : (entered p a op f cont s).xlat = some .ok := by simp [entered, n6]
  simp only [hxl, hsh, heop, n4, hnode, Bool.false_eq_true, if_false, ne_eq, not_true_eq_false, and_false]
  refine tryHome_ready ?_ (by rw [heop]; exact ha) (by rw [heop]; exact n5)
  rw [hx]
  refine hh.regate A _ _ ?_
  intro d hd
  rcases List.mem_append.1 hd with hd | hd
  · exact Or.inl hd
  · rw [List.mem_singleton.1 hd]
    exact Or.inr (by rw [show (entered p a op f cont s).st = .queued from hst]; simp)

/-- A request that nothing holds is performed within its command. -/
theorem issue_ready {p : PortNo} {a : LocalAgent} {op : Op} {f : Req} {o : Obj} {s : State} (h : OpReady p a op f o s)
    (ha : accepts o.body op = true) (hp : op.plain = true) :
    ∃ x, issue p a op.code f s =
        performBody (entered p a op f none s) (opKey (entered p a op f none s)) o (countBank (entered p a op f none s) x) ∧
      ∃ A O G, x = s.regate A O s.opr.merges G ∧ Entered (entered p a op f none s) 1 s x := by
  have hc : op.code ≠ 0x40 := by cases op <;> simp_all [Op.plain, Op.code]
  have hcr : (s.ap p).reqCredits ≠ 0 := by have := h.port.credit; omega
  have hw : (s.ap p).window a = false := by
    unfold ApPort.window
    simp only [List.any_eq_false, Bool.and_eq_true, decide_eq_true_eq, not_and]
    intro r hr he
    exact absurd he (h.port.window r hr)
  let g : Flit := ⟨a, op.code, f, none⟩
  let s1 := s.modAp p fun x => { x with reqCredits := x.reqCredits - 1 }
  let s2 := s1.modAp p fun x => { x with ingress := x.ingress ++ [g] }
  have hi : issue p a op.code f s = feed p s2 := by
    unfold issue takeFlit
    simp only [flitCode_flitWord, flitReq_flitWord, h.port.up, hcr, hw, Bool.not_true, Bool.false_eq_true, if_false]
    unfold captureFlit
    simp only [State.ap_modAp, h.first]
    unfold captureNext
    simp only [hc, if_false]
    unfold enterIngress noteCapture
    rw [if_neg (by simp only [State.hobbling, decide_eq_true_eq, ne_eq, Decidable.not_not]; exact h.port.hobble)]
  have h2 : (s2.ap p).ingress = [g] := by
    simp only [s2, s1, State.ap_modAp, h.port.empty, List.nil_append]
  have hap : ∀ q, (popIngress p g s2).ap q = s.ap q := by
    intro q
    have := through_ap (p := p) (g := g) (s := s) h.port.empty (by have := h.port.credit; simp [g, Flit.credits]; omega) h.first q
    rw [← this]
    simp only [portThrough, popIngress, s2, s1, g, Flit.credits]
    by_cases hq : q = p
    · subst hq; simp [h.first]
    · simp only [State.ap_modAp_ne _ _ hq]
  have hr : popIngress p g s2 = s.regate (popIngress p g s2).aps s.opr.ops s.opr.merges s.obs.gctr := rfl
  have hb := accept_ready (s := s) (s3 := popIngress p g s2) (popIngress p g s2).aps h.port.hobble hr
    (fun q _ => hap q) (congrArg ApPort.hold (hap p)) h.binds h.home ha (Or.inl hp)
  refine ⟨acceptState p a op f none (popIngress p g s2) s, ?_, (popIngress p g s2).aps,
    s.opr.ops ++ [entered p a op f none s], (acceptState p a op f none (popIngress p g s2) s).obs.gctr, ?_,
    Entered.of (popIngress p g s2).aps h.port.hobble hr hap⟩
  · rw [hi, feedGo_one p g s2 h2 h.port.hobble]
    simp only [hb, g]
  · exact acceptState_regate h.port.hobble hr

end Sys2Proof.Machine
end

