-- ==== Sys2Proof/Laws/Objects.lean ====
section
/-! SUPPORT. Object words, counters and waiters under the updates that operations make of them. -/

namespace Sys2Proof.Machine

/-! ### Readers that a frame preserves -/

theorem Frame.of {fl : List Comp} {s t : State} (h : Frame fl s t) {c : Comp} (hc : c ∉ fl) : Comp.same s t c := h c hc

theorem ctx_frame {fl : List Comp} {s t : State} (h : Frame fl s t) (hd : Comp.dir ∉ fl) (p : PartId) (c : CtxId) :
    t.ctx p c = s.ctx p c := by
  have := h .dir hd
  simp only [Comp.same] at this
  simp only [State.ctx, this]

theorem banks_frame {fl : List Comp} {s t : State} (h : Frame fl s t) (hd : Comp.banks ∉ fl) : t.obk.map = s.obk.map := by
  have := h .banks hd
  simp only [Comp.same, Prod.mk.injEq] at this
  exact this.1

theorem place_frame {fl : List Comp} {s t : State} (h : Frame fl s t) (hd : Comp.dir ∉ fl) (hb : Comp.banks ∉ fl) (k : OKey) :
    t.place k = s.place k := by
  have h1 := banks_frame h hb
  have h2 : t.mapEntry = s.mapEntry := by funext b; simp only [State.mapEntry, h1]
  have h3 : t.isDistributed = s.isDistributed := by funext b; simp only [State.isDistributed, h2]
  unfold State.place State.bankMap State.survivors State.rowLimit State.distCount
  simp only [h2, h3, ctx_frame h hd]

theorem slot_frame {fl : List Comp} {s t : State} (h : Frame fl s t) (hd : Comp.dir ∉ fl) (hb : Comp.banks ∉ fl) (k : OKey) :
    t.slot k = s.slot k := by simp only [State.slot, place_frame h hd hb]

theorem hasSlot_frame {fl : List Comp} {s t : State} (h : Frame fl s t) (hd : Comp.dir ∉ fl) (k : OKey) :
    t.hasSlot k = s.hasSlot k := by simp only [State.hasSlot, State.inBanks, ctx_frame h hd]

theorem obj_frame {fl : List Comp} {s t : State} (h : Frame fl s t) (hd : Comp.dir ∉ fl) (hb : Comp.banks ∉ fl)
    (hr : Comp.rows ∉ fl) (k : OKey) : t.obj k = s.obj k := by
  have := h .rows hr
  simp only [Comp.same] at this
  simp only [State.obj, hasSlot_frame h hd, slot_frame h hd hb, this]

/-- An object in another slot keeps its word. -/
theorem obj_slots {fl : List Comp} {k j : OKey} {s t : State} (h : Frame fl s t) (hd : Comp.dir ∉ fl) (hb : Comp.banks ∉ fl)
    (hs : SlotsBut k s t) (hj : s.slot j ≠ s.slot k) : t.obj j = s.obj j := by
  simp only [State.obj, hasSlot_frame h hd, slot_frame h hd hb, hs _ hj]

/-! ### Words -/

theorem slot_modObk (s : State) (f : Table Obj → Table Obj) (k : OKey) :
    (s.modObk fun b => { b with rows := f b.rows }).slot k = s.slot k := rfl

theorem hasSlot_of_obj {s : State} {k : OKey} {o : Obj} (h : s.obj k = some o) : s.hasSlot k = true := by
  unfold State.obj at h
  cases hs : s.hasSlot k
  · simp [hs] at h
  · rfl

theorem obj_setObj {s : State} {k : OKey} (o : Obj) (h : s.hasSlot k = true) : (s.setObj k o).obj k = some o := by
  unfold State.setObj
  rw [if_pos h]
  show (if s.hasSlot k = true then tget (tset s.obk.rows (s.slot k) o) (s.slot k) else none) = some o
  rw [if_pos h, tget_tset]

theorem obj_setBody {s : State} {k : OKey} {o : Obj} (b : Body) (h : s.obj k = some o) :
    (s.setBody k b).obj k = some { o with body := b } := by
  unfold State.setBody
  rw [h]
  exact obj_setObj _ (hasSlot_of_obj h)

theorem obj_modHdr {s : State} {k : OKey} {o : Obj} (f : ObjHdr → ObjHdr) (h : s.obj k = some o) :
    (s.modHdr k f).obj k = some { o with hdr := f o.hdr } := by
  unfold State.modHdr
  rw [h]
  exact obj_setObj _ (hasSlot_of_obj h)

/-! ### One slot -/

theorem SlotsBut.refl (k : OKey) (s : State) : SlotsBut k s s := fun _ _ => rfl

theorem SlotsBut.trans {k : OKey} {r s t : State} (h1 : SlotsBut k r s) (h2 : SlotsBut k s t) (hs : s.slot k = r.slot k) :
    SlotsBut k r t := fun n hn => (h2 n (by rw [hs]; exact hn)).trans (h1 n hn)

/-- The rows are the same. -/
theorem SlotsBut.of_rows {k : OKey} {r s t : State} (h1 : SlotsBut k r s) (h : t.obk.rows = s.obk.rows) : SlotsBut k r t :=
  fun n hn => by rw [h]; exact h1 n hn

theorem setObj_slots (k : OKey) (o : Obj) (s : State) : SlotsBut k s (s.setObj k o) := by
  intro n hn
  unfold State.setObj
  by_cases h : s.hasSlot k = true
  · rw [if_pos h]
    simp only [State.modObk]
    rw [tget_tset_ne _ _ _ _ hn]
  · rw [if_neg h]

theorem setObj_rows (k : OKey) (o : Obj) (s : State) : Frame [.rows] s (s.setObj k o) :=
  State.setObj_frame _ _ _ (by simp) (Frame.refl _ _)

theorem setBody_slots (k : OKey) (b : Body) (s : State) : SlotsBut k s (s.setBody k b) := by
  unfold State.setBody
  split
  · exact setObj_slots _ _ _
  · exact SlotsBut.refl _ _

theorem modHdr_slots (k : OKey) (f : ObjHdr → ObjHdr) (s : State) : SlotsBut k s (s.modHdr k f) := by
  unfold State.modHdr
  split
  · exact setObj_slots _ _ _
  · exact SlotsBut.refl _ _

theorem syncHdr_slots (k : OKey) (s : State) : SlotsBut k s (syncHdr k s) := modHdr_slots _ _ _

/-! ### Counters -/

theorem ctrKey_inj {p q : PartId} {i j : Nat} (hi : i < 64) (hj : j < 64) (h : ctrKey p i = ctrKey q j) : p = q ∧ i = j := by
  unfold ctrKey at h
  refine ⟨BitVec.eq_of_toNat_eq (by omega), by omega⟩

theorem countN_run {s : State} (h : s.frozen = false) (p : PartId) (i n : Nat) :
    countN p i n s = s.modObs fun o => { o with live := tput 0 o.live (ctrKey p i) (s.ctr p i + BitVec.ofNat 64 n) } := by
  simp [countN, h]

/-- A Hobble neither begins nor ends where the component stays. -/
theorem frozen_frame {fl : List Comp} {s t : State} (h : Frame fl s t) (hh : Comp.hobble ∉ fl) : t.frozen = s.frozen := by
  have := h .hobble hh
  simp only [Comp.same] at this
  simp only [State.frozen, this]

theorem ctr_countN (p : PartId) (i n : Nat) {s : State} (h : s.frozen = false) :
    (countN p i n s).ctr p i = s.ctr p i + BitVec.ofNat 64 n := by
  rw [countN_run h]
  simp only [State.ctr, State.modObs, tgetD_tput]

theorem ctr_countN_ne {p q : PartId} {i j : Nat} (n : Nat) (s : State) (hi : i < 64) (hj : j < 64) (h : ¬(q = p ∧ j = i)) :
    (countN p i n s).ctr q j = s.ctr q j := by
  unfold countN
  split
  · rfl
  · simp only [State.ctr, State.modObs]
    exact tgetD_tput_ne _ _ _ _ _ fun he => h (ctrKey_inj hj hi he)

theorem ctr_count (p q : PartId) {i j : Nat} {s : State} (hf : s.frozen = false) (hi : i < 64) (hj : j < 64) :
    (count p i s).ctr q j = s.ctr q j + BitVec.ofNat 64 (List.count (q, j) [(p, i)]) := by
  have hr : ∀ t : State, (raisePart p 3 t).ctr q j = t.ctr q j := fun _ => rfl
  have : (count p i s).ctr q j = (countN p i 1 s).ctr q j := by
    unfold count
    split
    · exact hr _
    · rfl
  rw [this]
  by_cases h : q = p ∧ j = i
  · obtain ⟨rfl, rfl⟩ := h; simp [ctr_countN _ _ _ hf]
  · rw [ctr_countN_ne _ _ hi hj h]
    have : List.count (q, j) [(p, i)] = 0 := by
      rw [List.count_eq_zero]
      simp only [List.mem_singleton, Prod.mk.injEq]
      exact h
    simp [this]

theorem Counted.refl (s : State) : Counted [] s s := fun q i _ => by simp

theorem Counted.same {cs : List (PartId × Nat)} {s t u : State} (h : Counted cs s t) (hl : u.obs.live = t.obs.live) : Counted cs s u :=
  fun q i hi => by rw [← h q i hi]; simp only [State.ctr, hl]

theorem Counted.count {cs : List (PartId × Nat)} {s t : State} (h : Counted cs s t) (hf : t.frozen = false) (p : PartId)
    {i : Nat} (hi : i < 64) : Counted ((p, i) :: cs) s (count p i t) := by
  intro q j hj
  rw [ctr_count p q hf hi hj, h q j hj, List.count_cons, List.count_cons]
  by_cases he : (p, i) = (q, j)
  · simp only [he, beq_self_eq_true, if_true, List.count_nil, Nat.zero_add]
    rw [BitVec.ofNat_add, BitVec.add_assoc]
  · have : ((p, i) == (q, j)) = false := by simpa using he
    simp [this]

theorem gctr_gcount (i j : Nat) {s : State} (hf : s.frozen = false) :
    (gcount i s).gctr j = s.gctr j + (if j = i then 1 else 0) := by
  unfold gcount
  rw [gcountN_run hf]
  by_cases h : j = i
  · subst h; simp only [State.gctr, State.modObs, bumpGctr, tgetD_tput, if_true]; rfl
  · simp only [State.gctr, State.modObs, bumpGctr, h, if_false]
    rw [tgetD_tput_ne _ _ _ _ _ h]; simp

theorem hasWaiters_isEmpty (s : State) (k : OKey) : s.hasWaiters k = !(s.waitersOf k).isEmpty := by
  unfold State.hasWaiters State.waitersOf
  induction s.wmc.waiters with
  | nil => rfl
  | cons w l ih =>
    rw [List.any_cons, List.filter_cons, ih]
    cases decide (w.key = k) <;> simp

end Sys2Proof.Machine
end

