-- ==== Sys2Proof/Laws/AtObject.lean ====
section
/-! SUPPORT. How the state of an operation at its object moves: `AtObject` under counting, word updates and further components. -/

namespace Sys2Proof.Machine

theorem AtObject.start {e : OpEntry} {s x : State} (h : Entered e 1 s x) (hz : s.obs.hobble.state = 0)
    (hm : ∀ m ∈ s.opr.merges, m.takes e s.now = false) (l : List Comp) : AtObject e [] l s (countBank e x) := by
  have hfx : x.frozen = false := (frozen_frame h.frame (by simp)).trans (frozen_zero hz)
  have hme : x.opr.merges = s.opr.merges := by
    have := h.frame .merges (by simp)
    simp only [Comp.same, Prod.mk.injEq] at this
    exact this.1
  have hno : x.now = s.now := by
    have := h.frame .time (by simp)
    simp only [Comp.same] at this
    simp only [State.now, this]
  rw [countBank_sole (by rw [hme, hno]; exact hm)]
  let y := x.modOpr fun o => { o with merges := x.noted e }
  have hy : Frame [.aps, .ops, .gctr, .merges] s y := by
    refine h.frame.mono (by simp +contextual) |>.trans ?_
    apply State.modOpr_frame <;> first
      | exact Or.inr rfl
      | exact Or.inl (by simp)
      | exact Frame.refl _ _
  have hfy : y.frozen = false := hfx
  refine ⟨?_, ?_, ?_, ?_, ?_, ?_⟩
  · show (gcount 0 y).opr.ops = _
    rw [← h.ops]
    unfold gcount gcountN
    split <;> rfl
  · intro q
    show (gcount 0 y).ap q = _
    rw [← h.ports q]
    unfold gcount gcountN
    split <;> rfl
  · intro q i _
    have := h.frame .counters (by simp)
    simp only [Comp.same, Prod.mk.injEq] at this
    simp only [List.count_nil, BitVec.add_zero]
    show (gcount 0 y).ctr q i = _
    have hc : (gcount 0 y).obs.live = y.obs.live := by
      unfold gcount gcountN
      split <;> rfl
    simp only [State.ctr, hc]
    show tgetD 0 x.obs.live _ = _
    rw [this.1]
  · intro i
    show (gcount 0 y).gctr i = _
    rw [gctr_gcount _ _ hfy]
    show x.gctr i + _ = _
    rw [h.flits]
    by_cases h8 : i = 8
    · subst h8; simp
    · by_cases h0 : i = 0 <;> simp [h8, h0]
  · intro n _
    have := h.frame .rows (by simp)
    simp only [Comp.same] at this
    show tget (gcount 0 y).obk.rows n = _
    have hr : (gcount 0 y).obk.rows = x.obk.rows := by
      unfold gcount gcountN
      split <;> rfl
    rw [hr, this]
  · refine Frame.trans (hy.mono (by simp +contextual)) ?_
    apply gcount_frame
    · simp
    · exact Frame.refl _ _

theorem Comp.same_gctr {s t : State} (h : Comp.same s t .gctr) (i : Nat) : t.gctr i = s.gctr i := by
  simp only [Comp.same] at h
  simp only [State.gctr, h]

theorem Comp.same_aps {s t : State} (h : Comp.same s t .aps) (q : PortNo) : t.ap q = s.ap q := by
  simp only [Comp.same] at h
  simp only [State.ap, h]

/-- Counters move while no Hobble has drained the engine (R367). -/
theorem AtObject.frozen {e : OpEntry} {cs : List (PartId × Nat)} {l : List Comp} {s t : State} (h : AtObject e cs l s t)
    (hl : Comp.hobble ∉ l) (hz : s.obs.hobble.state = 0) : t.frozen = false :=
  (frozen_frame h.frame (by simp [hl])).trans (frozen_zero hz)

theorem AtObject.count {e : OpEntry} {cs : List (PartId × Nat)} {l : List Comp} {s t : State} (h : AtObject e cs l s t)
    (hf : t.frozen = false) (p : PartId) {i : Nat}
    (hi : i < 46 ∨ 56 < i ∧ i < 64) : AtObject e ((p, i) :: cs) l s (count p i t) := by
  have hc : Sys2Proof.Machine.count p i t = countN p i 1 t := by
    unfold Sys2Proof.Machine.count; rw [if_neg (by omega)]
  refine ⟨?_, ?_, h.counted.count hf p (by omega), ?_, ?_, ?_⟩ <;> rw [hc, countN_run hf]
  · exact h.ops
  · exact h.ports
  · exact h.global
  · exact h.slots
  · rw [← countN_run hf]
    refine Frame.trans h.frame ?_
    apply countN_frame
    · simp
    · exact Frame.refl _ _

theorem AtObject.slot {e : OpEntry} {cs : List (PartId × Nat)} {l : List Comp} {s t : State} (h : AtObject e cs l s t)
    (hd : Comp.dir ∉ l) (hb : Comp.banks ∉ l) (k : OKey) : t.slot k = s.slot k :=
  slot_frame h.frame (by simp [hd]) (by simp [hb]) k

theorem AtObject.setBody {e : OpEntry} {cs : List (PartId × Nat)} {l : List Comp} {s t : State} (h : AtObject e cs l s t)
    (hd : Comp.dir ∉ l) (hb : Comp.banks ∉ l) (b : Body) : AtObject e cs l s (t.setBody (opKey e) b) := by
  have hf : Frame [.rows] t (t.setBody (opKey e) b) := State.setBody_frame _ _ _ (by simp) (Frame.refl _ _)
  refine ⟨?_, ?_, ?_, ?_, ?_, ?_⟩
  · rw [← h.ops]; exact hf .ops (by simp)
  · intro q; rw [← h.ports q]; exact Comp.same_aps (hf .aps (by simp)) q
  · refine h.counted.same ?_
    have := hf .counters (by simp)
    simp only [Comp.same, Prod.mk.injEq] at this
    exact this.1
  · intro i; rw [← h.global i]; exact Comp.same_gctr (hf .gctr (by simp)) i
  · exact h.slots.trans (setBody_slots _ _ _) (h.slot hd hb _)
  · exact h.frame.trans (hf.mono (by simp +contextual))

theorem AtObject.more {e : OpEntry} {cs : List (PartId × Nat)} {l m : List Comp} {s t u : State} (h : AtObject e cs l s t)
    (hf : Frame m t u) (hm : ∀ c ∈ m, c ∈ l) (ha : ∀ c ∈ ([.aps, .ops, .merges, .rows, .counters, .gctr] : List Comp), c ∉ m) :
    AtObject e cs l s u := by
  refine ⟨?_, ?_, ?_, ?_, ?_, ?_⟩
  · rw [← h.ops]; exact hf .ops (ha _ (by simp))
  · intro q; rw [← h.ports q]; exact Comp.same_aps (hf .aps (ha _ (by simp))) q
  · refine h.counted.same ?_
    have := hf .counters (ha _ (by simp))
    simp only [Comp.same, Prod.mk.injEq] at this
    exact this.1
  · intro i; rw [← h.global i]; exact Comp.same_gctr (hf .gctr (ha _ (by simp))) i
  · refine h.slots.of_rows ?_
    exact hf .rows (ha _ (by simp))
  · exact h.frame.trans (hf.mono fun c hc => by simp [hm c hc])

/-- A request that nothing holds is performed in its own command, on a state that differs from `s` in the ports' store, the op table with its notes of merged arrivals, and the global counters only. -/
theorem issue_regate {p : PortNo} {a : LocalAgent} {op : Op} {f : Req} {o : Obj} {s : State} (h : OpReady p a op f o s)
    (ha : accepts o.body op = true) (hp : op.plain = true) :
    ∃ A O M G, issue p a op.code f s =
        performBody (entered p a op f none s) (opKey (entered p a op f none s)) o (s.regate A O M G) ∧
      AtObject (entered p a op f none s) [] [] s (s.regate A O M G) ∧
      ∀ l, AtObject (entered p a op f none s) [] l s (s.regate A O M G) := by
  obtain ⟨x, hi, A, O, G, hx, he⟩ := issue_ready h ha hp
  have hs := fun l => AtObject.start he h.port.hobble h.home.sole l
  have hg : countBank (entered p a op f none s) x = s.regate A O (countBank (entered p a op f none s) x).opr.merges
      (countBank (entered p a op f none s) x).obs.gctr := by
    have hfx : x.frozen = false := (frozen_frame he.frame (by simp)).trans (frozen_zero h.port.hobble)
    have hb : countBank (entered p a op f none s) x =
        (x.modOpr fun o => { o with merges := x.noted (entered p a op f none s) }).modObs (bumpGctr 0 1) := by
      rw [countBank_sole (by subst hx; exact h.home.sole)]
      have hfy : (x.modOpr fun o => { o with merges := x.noted (entered p a op f none s) }).frozen = false := hfx
      exact gcountN_run hfy 0 1
    rw [hb]
    subst hx; rfl
  rw [hg] at hs hi
  exact ⟨A, O, _, _, hi, hs [], hs⟩

theorem regate_obj (s : State) (A : Table ApPort) (O : List OpEntry) (M : List Merge) (G : Table DWord) (k : OKey) :
    (s.regate A O M G).obj k = s.obj k := rfl

/-- An operation that completes without an effect on its object. -/
theorem performs_now {i : Instr} {e : OpEntry} {o : Obj} {st : Status} {pay : DWord} {g : Option Grant} {l : List Comp} {s : State}
    {A : Table ApPort} {O : List OpEntry} {M : List Merge} {G : Table DWord} (hh : HomeReady e o s)
    (hr : exec i s = .next (finish e st pay g (s.regate A O M G))) (h : AtObject e [] l s (s.regate A O M G)) :
    Performs i e o st pay g o.body [] l s (s.regate A O M G) :=
  ⟨hr, by rw [regate_obj]; exact hh.obj, h⟩

theorem count_obj (p : PartId) (i : Nat) (s : State) (k : OKey) : (count p i s).obj k = s.obj k :=
  obj_frame (count_frame (fl := [.wins, .counters]) p i s (by simp) (by simp) (Frame.refl _ _)) (by simp) (by simp) (by simp) k

/-- An operation that rewrites its object's word, or leaves it, and counts one counter. -/
theorem performs_body {i : Instr} {e : OpEntry} {o : Obj} {st : Status} {pay : DWord} {g : Option Grant} {s : State} {b : Body}
    {p : PartId} {n : Nat}
    {A : Table ApPort} {O : List OpEntry} {M : List Merge} {G : Table DWord} (hh : HomeReady e o s) (hn : n < 46)
    (hz : s.obs.hobble.state = 0)
    (hr : exec i s = .next (finish e st pay g (count p n ((s.regate A O M G).setBody (opKey e) b))))
    (h : AtObject e [] [] s (s.regate A O M G)) :
    Performs i e o st pay g b [(p, n)] [] s (count p n ((s.regate A O M G).setBody (opKey e) b)) :=
  ⟨hr, by rw [count_obj]; exact obj_setBody _ (by rw [regate_obj]; exact hh.obj),
    (h.setBody (by simp) (by simp) b).count ((h.setBody (by simp) (by simp) b).frozen (by simp) hz) p (Or.inl hn)⟩

/-- A request that nothing holds reaches its object within its command. -/
theorem OpReady.run {p : PortNo} {a : LocalAgent} {op : Op} {f : Req} {o : Obj} {s : State} {e : OpEntry} {i : Instr}
    (h : OpReady p a op f o s) (he : e = entered p a op f none s) (ha : accepts o.body op = true) (hp : op.plain = true)
    (hx : exec i s = .next (issue p a op.code f s)) :
    ∃ A O M G, exec i s = .next (performBody e (opKey e) o (s.regate A O M G)) ∧ (∀ l, AtObject e [] l s (s.regate A O M G)) ∧
      HomeReady e o s ∧ e.req = f ∧ e.op = op ∧ e.txid = none ∧ e.node = s.fab.nodeId := by
  subst he
  obtain ⟨A, O, M, G, hi, _, hl⟩ := issue_regate h ha hp
  exact ⟨A, O, M, G, by rw [hx, hi], hl, h.home, rfl, rfl, rfl, rfl⟩

theorem modHdr_word {s : State} {k : OKey} {o : Obj} (f : ObjHdr → ObjHdr) (h : s.obj k = some o) :
    (s.modHdr k f).obj k = some ⟨f o.hdr, o.body⟩ := obj_modHdr f h

theorem syncHdr_obj {s : State} {k : OKey} {o : Obj} (h : s.obj k = some o) :
    (syncHdr k s).obj k = some ⟨{ o.hdr with
        parked := (s.waitersOf k).any (!·.spilled), spill := s.hasSpilled k, held := s.heldNames k
        wprio := if (s.waitersOf k).isEmpty then o.hdr.wprio else maxPrio (s.waitersOf k) }, o.body⟩ := obj_modHdr _ h

theorem park_frame' (w : Waiter) (s : State) : Frame [.rows, .waiters, .free] s (park w s) :=
  park_frame _ _ (by simp) (by simp) (by simp) (Frame.refl _ _)

theorem modHdr_waiters (s : State) (k : OKey) (f : ObjHdr → ObjHdr) : (s.modHdr k f).wmc.waiters = s.wmc.waiters :=
  (State.modHdr_frame (fl := [.rows]) s k f (by simp) (Frame.refl _ _)) .waiters (by simp)

theorem freshWq_obj {s : State} {k : OKey} {o : Obj} (h : s.obj k = some o) :
    ∃ v, (freshWq k s).obj k = some ⟨{ o.hdr with wq := v }, o.body⟩ :=
  ⟨_, obj_modHdr (s := (fresh s).2) (fun h => { h with wq := (fresh s).1.setWidth 18 }) h⟩

theorem freshWq_frame' (k : OKey) (s : State) : Frame [.rows, .free] s (freshWq k s) :=
  freshWq_frame _ _ (by simp) (by simp) (Frame.refl _ _)

theorem freshWq_waiters (k : OKey) (s : State) : (freshWq k s).wmc.waiters = s.wmc.waiters :=
  (freshWq_frame' k s) .waiters (by simp)

theorem freshWq_slots (k : OKey) (s : State) : SlotsBut k s (freshWq k s) := by
  have h := modHdr_slots k (fun h => { h with wq := (fresh s).1.setWidth 18 }) (fresh s).2
  exact h

theorem park_waiters (w : Waiter) (s : State) : (park w s).wmc.waiters = s.wmc.waiters ++ [w] := by
  unfold park syncHdr
  dsimp only
  rw [modHdr_waiters]
  split
  · rw [freshWq_waiters]; rfl
  · rfl

theorem park_obj {w : Waiter} {s : State} {o : Obj} (h : s.obj w.key = some o) (hs : w.spilled = false) :
    ∃ hd, (park w s).obj w.key = some ⟨hd, o.body⟩ ∧ hd.parked = true ∧ hd.wprio = maxPrio (s.waitersOf w.key ++ [w]) ∧
      hd.part = o.hdr.part ∧ hd.tree = o.hdr.tree ∧ hd.watch = o.hdr.watch := by
  have hw : ∀ t : State, t.wmc.waiters = s.wmc.waiters ++ [w] → t.waitersOf w.key = s.waitersOf w.key ++ [w] := by
    intro t ht
    simp [State.waitersOf, ht]
  have key : ∀ t : State, ∀ hd, t.obj w.key = some ⟨hd, o.body⟩ → t.wmc.waiters = s.wmc.waiters ++ [w] →
      hd.part = o.hdr.part → hd.tree = o.hdr.tree → hd.watch = o.hdr.watch →
      ∃ hd, (syncHdr w.key t).obj w.key = some ⟨hd, o.body⟩ ∧ hd.parked = true ∧
        hd.wprio = maxPrio (s.waitersOf w.key ++ [w]) ∧
        hd.part = o.hdr.part ∧ hd.tree = o.hdr.tree ∧ hd.watch = o.hdr.watch := by
    intro t hd ht hq h1 h2 h3
    refine ⟨_, syncHdr_obj (o := ⟨hd, o.body⟩) ht, ?_, ?_, h1, h2, h3⟩
    · simp [hw t hq, hs]
    · simp [hw t hq]
  unfold park
  dsimp only
  split
  · obtain ⟨v, hv⟩ := freshWq_obj (s := s.modWmc fun m => { m with waiters := m.waiters ++ [w] }) (k := w.key) (o := o) h
    refine key _ { o.hdr with wq := v } hv ?_ rfl rfl rfl
    rw [freshWq_waiters]; rfl
  · exact key _ o.hdr h rfl rfl rfl rfl

theorem slot_modHdr (s : State) (k j : OKey) (f : ObjHdr → ObjHdr) : (s.modHdr k f).slot j = s.slot j :=
  slot_frame (State.modHdr_frame (fl := [.rows]) _ _ _ (by simp) (Frame.refl _ _)) (by simp) (by simp) _

theorem SlotsBut.hdr {k : OKey} {s t : State} (h : SlotsBut k s t) (hs : t.slot k = s.slot k) (f : ObjHdr → ObjHdr) :
    SlotsBut k s (t.modHdr k f) := h.trans (modHdr_slots _ _ _) hs

theorem SlotsBut.sync {k : OKey} {s t : State} (h : SlotsBut k s t) (hs : t.slot k = s.slot k) :
    SlotsBut k s (syncHdr k t) := h.trans (syncHdr_slots _ _) hs

theorem park_slots (w : Waiter) (s : State) : SlotsBut w.key s (park w s) := by
  have key : ∀ t : State, t.obk.rows = s.obk.rows → SlotsBut w.key s t := fun t h n _ => by rw [h]
  unfold park
  dsimp only
  split
  · have hsl : (freshWq w.key (s.modWmc fun m => { m with waiters := m.waiters ++ [w] })).slot w.key = s.slot w.key :=
      slot_frame (freshWq_frame' _ _) (by simp) (by simp) _
    refine SlotsBut.sync ?_ hsl
    exact (key (s.modWmc fun m => { m with waiters := m.waiters ++ [w] }) rfl).trans (freshWq_slots _ _) rfl
  · refine SlotsBut.sync ?_ ?_
    · exact key _ rfl
    · rfl

/-- What parking leaves, from any state at the object. -/
theorem park_at {e : OpEntry} {o o' : Obj} {w : Waiter} {s y : State} {cs : List (PartId × Nat)} (hk : w.key = opKey e)
    (hs : w.spilled = false)
    (ho : y.obj (opKey e) = some o') (hp : o'.hdr.part = o.hdr.part) (ht : o'.hdr.tree = o.hdr.tree) (hw : o'.hdr.watch = o.hdr.watch)
    (h : AtObject e cs [] s y) :
    (park w y).wmc.waiters = s.wmc.waiters ++ [w] ∧
    (∃ hd, (park w y).obj (opKey e) = some ⟨hd, o'.body⟩ ∧ hd.parked = true ∧ hd.wprio = maxPrio (s.waitersOf (opKey e) ++ [w]) ∧
      hd.part = o.hdr.part ∧ hd.tree = o.hdr.tree ∧ hd.watch = o.hdr.watch) ∧
    AtObject e cs [.waiters, .free] s (park w y) := by
  have hwt : y.wmc.waiters = s.wmc.waiters := h.frame .waiters (by simp)
  have hf := park_frame' w y
  have h' : AtObject e cs [.waiters, .free] s y :=
    ⟨h.ops, h.ports, h.counted, h.global, h.slots, h.frame.mono (by simp +contextual)⟩
  refine ⟨by rw [park_waiters, hwt], ?_, ?_⟩
  · obtain ⟨hd, h1, h2, h3, h4, h5, h6⟩ := park_obj (w := w) (s := y) (by rw [hk]; exact ho) hs
    rw [hk] at h1 h3
    refine ⟨hd, h1, h2, ?_, h4.trans hp, h5.trans ht, h6.trans hw⟩
    rw [h3]; simp only [State.waitersOf, hwt]
  · refine ⟨?_, ?_, ?_, ?_, ?_, ?_⟩
    · rw [← h'.ops]; exact hf .ops (by simp)
    · intro q; rw [← h'.ports q]; exact Comp.same_aps (hf .aps (by simp)) q
    · refine h'.counted.same ?_
      have := hf .counters (by simp)
      simp only [Comp.same, Prod.mk.injEq] at this
      exact this.1
    · intro j; rw [← h'.global j]; exact Comp.same_gctr (hf .gctr (by simp)) j
    · exact h'.slots.trans (hk ▸ park_slots _ _) (h'.slot (by simp) (by simp) _)
    · exact h'.frame.trans (hf.mono (by simp +contextual))

/-- An operation that parks, from any state at its object. -/
theorem parks_at {i : Instr} {e : OpEntry} {o o' : Obj} {w : Waiter} {s y : State} {cs : List (PartId × Nat)} (hk : w.key = opKey e)
    (hs : w.spilled = false) (hr : exec i s = .next (finishParked e (park w y)))
    (ho : y.obj (opKey e) = some o') (hp : o'.hdr.part = o.hdr.part) (ht : o'.hdr.tree = o.hdr.tree) (hw : o'.hdr.watch = o.hdr.watch)
    (h : AtObject e cs [] s y) : Parks i e o o'.body w cs [] s (park w y) :=
  have hp := park_at hk hs ho hp ht hw h
  ⟨hr, hp.1, hp.2.1, hp.2.2⟩

/-- An operation that parks and does nothing else. -/
theorem parks_now {i : Instr} {e : OpEntry} {o : Obj} {w : Waiter} {s : State}
    {A : Table ApPort} {O : List OpEntry} {M : List Merge} {G : Table DWord} (hh : HomeReady e o s) (hk : w.key = opKey e) (hs : w.spilled = false)
    (hr : exec i s = .next (finishParked e (park w (s.regate A O M G))))
    (h : ∀ l, AtObject e [] l s (s.regate A O M G)) :
    Parks i e o o.body w [] [] s (park w (s.regate A O M G)) :=
  parks_at hk hs hr (by rw [regate_obj]; exact hh.obj) rfl rfl rfl (h [])

theorem AtObject.waiters {e : OpEntry} {cs : List (PartId × Nat)} {l : List Comp} {s t : State} (h : AtObject e cs l s t)
    (hl : Comp.waiters ∉ l) : t.wmc.waiters = s.wmc.waiters := h.frame .waiters (by simp [hl])

theorem AtObject.waitersOf {e : OpEntry} {cs : List (PartId × Nat)} {l : List Comp} {s t : State} (h : AtObject e cs l s t)
    (hl : Comp.waiters ∉ l) (k : OKey) : t.waitersOf k = s.waitersOf k := by
  simp only [State.waitersOf, h.waiters hl]

theorem AtObject.widen {e : OpEntry} {cs : List (PartId × Nat)} {l m : List Comp} {s t : State} (h : AtObject e cs l s t)
    (hm : ∀ c ∈ l, c ∈ m) : AtObject e cs m s t :=
  ⟨h.ops, h.ports, h.counted, h.global, h.slots, h.frame.mono fun c hc => by
    rcases List.mem_append.1 hc with h' | h'
    · exact List.mem_append_left _ h'
    · exact List.mem_append_right _ (hm c h')⟩

/-- The queue of the object empties: header and waiter store follow. -/
theorem AtObject.empties {e : OpEntry} {cs : List (PartId × Nat)} {s t : State} {o : Obj} (h : AtObject e cs [] s t)
    (ho : t.obj (opKey e) = some o) :
    (takeWaiters (opKey e) (fun _ => true) t).1 = s.waitersOf (opKey e) ∧
    ∃ hd, (takeWaiters (opKey e) (fun _ => true) t).2.obj (opKey e) = some ⟨hd, o.body⟩ ∧ hd.parked = false ∧
      hd.part = o.hdr.part ∧ hd.tree = o.hdr.tree ∧ hd.watch = o.hdr.watch ∧
      (takeWaiters (opKey e) (fun _ => true) t).2.wmc.waiters = s.wmc.waiters.filter (fun w => decide (w.key ≠ opKey e)) ∧
      AtObject e cs [.waiters] s (takeWaiters (opKey e) (fun _ => true) t).2 := by
  have hw := h.waiters (by simp)
  unfold takeWaiters
  simp only [Bool.and_true]
  have hfil : (t.wmc.waiters.filter fun w => !decide (w.key = opKey e)) = s.wmc.waiters.filter (fun w => decide (w.key ≠ opKey e)) := by
    rw [hw]; simp only [ne_eq, decide_not]
  have he : ∀ u : State, u.wmc.waiters = (t.wmc.waiters.filter fun w => !decide (w.key = opKey e)) → u.waitersOf (opKey e) = [] := by
    intro u hu
    simp only [State.waitersOf, hu, List.filter_filter]
    rw [List.filter_eq_nil_iff]
    intro w _; cases decide (w.key = opKey e) <;> simp
  have hsy : (syncHdr (opKey e) (t.modWmc fun m => { m with waiters := m.waiters.filter fun w => !decide (w.key = opKey e) })).wmc.waiters =
      t.wmc.waiters.filter fun w => !decide (w.key = opKey e) := modHdr_waiters _ _ _
  have hu : (t.modWmc fun m => { m with waiters := m.waiters.filter fun w => !decide (w.key = opKey e) }).waitersOf (opKey e) = [] :=
    he _ rfl
  refine ⟨by rw [hw]; rfl, _, syncHdr_obj (o := o) ho, ?_, rfl, rfl, rfl, ?_, ?_⟩
  · rw [hu]; rfl
  · rw [hsy, hfil]
  · have hm : AtObject e cs [.waiters] s (t.modWmc fun m => { m with waiters := m.waiters.filter fun w => !decide (w.key = opKey e) }) :=
      (h.widen (by simp)).more (m := [.waiters])
        (State.modWmc_frame (Or.inl (by simp)) (Or.inr rfl) (Or.inr rfl) (Or.inr rfl) (Or.inr rfl) (Or.inr rfl)
          (Frame.refl _ _)) (by simp) (by simp)
    have hf : Frame [.rows] (t.modWmc fun m => { m with waiters := m.waiters.filter fun w => !decide (w.key = opKey e) })
        (syncHdr (opKey e) (t.modWmc fun m => { m with waiters := m.waiters.filter fun w => !decide (w.key = opKey e) })) :=
      syncHdr_frame _ _ (by simp) (Frame.refl _ _)
    refine ⟨?_, ?_, ?_, ?_, ?_, ?_⟩
    · rw [← hm.ops]; exact hf .ops (by simp)
    · intro q; rw [← hm.ports q]; exact Comp.same_aps (hf .aps (by simp)) q
    · refine hm.counted.same ?_
      have := hf .counters (by simp)
      simp only [Comp.same, Prod.mk.injEq] at this
      exact this.1
    · intro j; rw [← hm.global j]; exact Comp.same_gctr (hf .gctr (by simp)) j
    · exact hm.slots.trans (syncHdr_slots _ _) (hm.slot (by simp) (by simp) _)
    · exact hm.frame.trans (hf.mono (by simp +contextual))

end Sys2Proof.Machine
end

