-- ==== Sys2Proof/Laws/FrameCmd.lean ====
section
/-! SUPPORT. What the effects defined in Commands, Registers, Destroy, Contexts leave unchanged: each lemma names every component its function may write. -/

namespace Sys2Proof.Machine

theorem clearSkip_frame {fl : List Comp} {fr : State} (q : Nat) (c : Cmd) (s : State) (h_seqs : Comp.seqs ∈ fl) (hk : Frame fl fr s) : Frame fl fr (clearSkip q c s) := by
  unfold clearSkip
  repeat' first
    | with_reducible assumption
    | (with_reducible exact Or.inl (by assumption))
    | (with_reducible exact Or.inr rfl)
    | with_reducible apply State.modSeq_frame
    | with_reducible apply Frame.ite
    | split
    | dsimp only

theorem awlMiss_frame {fl : List Comp} {fr : State} (q : Nat) (s : State) (h_seqs : Comp.seqs ∈ fl) (h_gctr : Comp.gctr ∈ fl) (h_rake : Comp.rake ∈ fl) (h_irq : Comp.irq ∈ fl) (hk : Frame fl fr s) : Frame fl fr (awlMiss q s) := by
  unfold awlMiss
  repeat' first
    | with_reducible assumption
    | (with_reducible exact Or.inl (by assumption))
    | (with_reducible exact Or.inr rfl)
    | with_reducible apply State.modSeq_frame
    | with_reducible apply report_frame
    | with_reducible apply Frame.ite
    | split
    | dsimp only

theorem askBank_frame {fl : List Comp} {fr : State} (c : Cmd) (s : State) (h_banks : Comp.banks ∈ fl) (hk : Frame fl fr s) : Frame fl fr (askBank c s) := by
  unfold askBank
  repeat' first
    | with_reducible assumption
    | (with_reducible exact Or.inl (by assumption))
    | (with_reducible exact Or.inr rfl)
    | with_reducible apply wakeSlot_frame
    | with_reducible apply Frame.ite
    | (with_reducible refine Frame.foldl (fun _ _ _ => ?_) ?_)
    | split
    | dsimp only

theorem startWait_frame {fl : List Comp} {fr : State} (c : Cmd) (p : Phase) (s : State) (h_cmds : Comp.cmds ∈ fl) (hk : Frame fl fr s) : Frame fl fr (startWait c p s) := by
  unfold startWait
  repeat' first
    | with_reducible assumption
    | (with_reducible exact Or.inl (by assumption))
    | (with_reducible exact Or.inr rfl)
    | with_reducible apply setPhase_frame
    | dsimp only

theorem memFail_frame {fl : List Comp} {fr : State} (c : Cmd) (n : Nat) (s : State) (h_cmds : Comp.cmds ∈ fl) (h_wins : Comp.wins ∈ fl) (h_aps : Comp.aps ∈ fl) (h_ops : Comp.ops ∈ fl) (h_fports : Comp.fports ∈ fl) (h_counters : Comp.counters ∈ fl) (h_gctr : Comp.gctr ∈ fl) (h_rake : Comp.rake ∈ fl) (h_trace : Comp.trace ∈ fl) (h_irq : Comp.irq ∈ fl) (h_mem : Comp.mem ∈ fl) (h_mmPort : Comp.mmPort ∈ fl) (hk : Frame fl fr s) : Frame fl fr (memFail c n s) := by
  unfold memFail
  repeat' first
    | with_reducible assumption
    | (with_reducible exact Or.inl (by assumption))
    | (with_reducible exact Or.inr rfl)
    | with_reducible apply refuse_frame
    | dsimp only

theorem respond_frame {fl : List Comp} {fr : State} (v : Word) (err : Bool) (s : State) (h_crPort : Comp.crPort ∈ fl) (hk : Frame fl fr s) : Frame fl fr (respond v err s) := by
  unfold respond
  repeat' first
    | with_reducible assumption
    | (with_reducible exact Or.inl (by assumption))
    | (with_reducible exact Or.inr rfl)
    | with_reducible apply State.modCr_frame
    | dsimp only

theorem noResponse_frame {fl : List Comp} {fr : State} (s : State) (h_crPort : Comp.crPort ∈ fl) (hk : Frame fl fr s) : Frame fl fr (noResponse s) := by
  unfold noResponse
  repeat' first
    | with_reducible assumption
    | (with_reducible exact Or.inl (by assumption))
    | (with_reducible exact Or.inr rfl)
    | with_reducible apply State.modCr_frame
    | dsimp only

theorem accessFail_frame {fl : List Comp} {fr : State} (x : Access) (a : CrAddr) (acc : CrAcc) (s : State) (h_gctr : Comp.gctr ∈ fl) (h_rake : Comp.rake ∈ fl) (h_irq : Comp.irq ∈ fl) (h_crPort : Comp.crPort ∈ fl) (hk : Frame fl fr s) : Frame fl fr (accessFail x a acc s) := by
  unfold accessFail
  repeat' first
    | with_reducible assumption
    | (with_reducible exact Or.inl (by assumption))
    | (with_reducible exact Or.inr rfl)
    | with_reducible apply report_frame
    | with_reducible apply respond_frame
    | with_reducible apply Frame.ite
    | split
    | dsimp only

theorem readGood_frame {fl : List Comp} {fr : State} (a : CrAddr) (acc : CrAcc) (s : State) (h_crPort : Comp.crPort ∈ fl) (hk : Frame fl fr s) : Frame fl fr (readGood a acc s) := by
  unfold readGood
  repeat' first
    | with_reducible assumption
    | (with_reducible exact Or.inl (by assumption))
    | (with_reducible exact Or.inr rfl)
    | with_reducible apply State.modCr_frame
    | with_reducible apply respond_frame
    | with_reducible apply Frame.ite
    | (with_reducible refine Frame.foldl (fun _ _ _ => ?_) ?_)
    | split
    | dsimp only

theorem crRead_frame {fl : List Comp} {fr : State} (a : CrAddr) (acc : CrAcc) (s : State) (h_gctr : Comp.gctr ∈ fl) (h_rake : Comp.rake ∈ fl) (h_irq : Comp.irq ∈ fl) (h_crPort : Comp.crPort ∈ fl) (hk : Frame fl fr s) : Frame fl fr (crRead a acc s) := by
  unfold crRead
  repeat' first
    | with_reducible assumption
    | (with_reducible exact Or.inl (by assumption))
    | (with_reducible exact Or.inr rfl)
    | with_reducible apply noResponse_frame
    | with_reducible apply accessFail_frame
    | with_reducible apply readGood_frame
    | with_reducible apply Frame.ite
    | split
    | dsimp only

theorem stageWord_frame {fl : List Comp} {fr : State} (w : Win) (k : Nat) (v : Word) (s : State) (h_wins : Comp.wins ∈ fl) (hk : Frame fl fr s) : Frame fl fr (stageWord w k v s) := by
  unfold stageWord
  repeat' first
    | with_reducible assumption
    | (with_reducible exact Or.inl (by assumption))
    | (with_reducible exact Or.inr rfl)
    | with_reducible apply State.modWin_frame
    | dsimp only

theorem overrun_frame {fl : List Comp} {fr : State} (w : Win) (s : State) (h_wins : Comp.wins ∈ fl) (h_gctr : Comp.gctr ∈ fl) (h_rake : Comp.rake ∈ fl) (h_irq : Comp.irq ∈ fl) (hk : Frame fl fr s) : Frame fl fr (overrun w s) := by
  unfold overrun
  repeat' first
    | with_reducible assumption
    | (with_reducible exact Or.inl (by assumption))
    | (with_reducible exact Or.inr rfl)
    | with_reducible apply raisePart_frame
    | with_reducible apply raiseGlobal_frame
    | with_reducible apply report_frame
    | split
    | dsimp only

theorem submit_frame {fl : List Comp} {fr : State} (w : Win) (acc : CrAcc) (s : State) (h_cmds : Comp.cmds ∈ fl) (h_wins : Comp.wins ∈ fl) (h_aps : Comp.aps ∈ fl) (h_ops : Comp.ops ∈ fl) (h_fports : Comp.fports ∈ fl) (h_counters : Comp.counters ∈ fl) (h_gctr : Comp.gctr ∈ fl) (h_rake : Comp.rake ∈ fl) (h_trace : Comp.trace ∈ fl) (h_irq : Comp.irq ∈ fl) (h_mem : Comp.mem ∈ fl) (h_mmPort : Comp.mmPort ∈ fl) (hk : Frame fl fr s) : Frame fl fr (submit w acc s) := by
  unfold submit
  repeat' first
    | with_reducible assumption
    | (with_reducible exact Or.inl (by assumption))
    | (with_reducible exact Or.inr rfl)
    | with_reducible apply State.modWin_frame
    | with_reducible apply arrive_frame
    | with_reducible apply overrun_frame
    | with_reducible apply Frame.ite
    | split
    | dsimp only

theorem popLc_frame {fl : List Comp} {fr : State} (w : Win) (slot : Nat) (s : State) (h_lifecycle : Comp.lifecycle ∈ fl) (hk : Frame fl fr s) : Frame fl fr (popLc w slot s) := by
  unfold popLc
  repeat' first
    | with_reducible assumption
    | (with_reducible exact Or.inl (by assumption))
    | (with_reducible exact Or.inr rfl)
    | with_reducible apply State.modSlu_frame
    | with_reducible apply Frame.ite
    | split
    | dsimp only

theorem replyPop_frame {fl : List Comp} {fr : State} (w : Win) (s : State) (h_lifecycle : Comp.lifecycle ∈ fl) (h_wins : Comp.wins ∈ fl) (hk : Frame fl fr s) : Frame fl fr (replyPop w s) := by
  unfold replyPop
  repeat' first
    | with_reducible assumption
    | (with_reducible exact Or.inl (by assumption))
    | (with_reducible exact Or.inr rfl)
    | with_reducible apply State.modWin_frame
    | with_reducible apply popLc_frame
    | split
    | dsimp only

theorem clearIrq_frame {fl : List Comp} {fr : State} (p : PartId) (v : Word) (s : State) (h_wins : Comp.wins ∈ fl) (hk : Frame fl fr s) : Frame fl fr (clearIrq p v s) := by
  unfold clearIrq
  repeat' first
    | with_reducible assumption
    | (with_reducible exact Or.inl (by assumption))
    | (with_reducible exact Or.inr rfl)
    | with_reducible apply State.modWin_frame
    | with_reducible apply Frame.ite
    | split
    | dsimp only

theorem writeWin_frame {fl : List Comp} {fr : State} (p : PartId) (o : Nat) (acc : CrAcc) (s : State) (h_lifecycle : Comp.lifecycle ∈ fl) (h_cmds : Comp.cmds ∈ fl) (h_wins : Comp.wins ∈ fl) (h_aps : Comp.aps ∈ fl) (h_ops : Comp.ops ∈ fl) (h_fports : Comp.fports ∈ fl) (h_counters : Comp.counters ∈ fl) (h_gctr : Comp.gctr ∈ fl) (h_rake : Comp.rake ∈ fl) (h_trace : Comp.trace ∈ fl) (h_irq : Comp.irq ∈ fl) (h_mem : Comp.mem ∈ fl) (h_mmPort : Comp.mmPort ∈ fl) (hk : Frame fl fr s) : Frame fl fr (writeWin p o acc s) := by
  unfold writeWin
  repeat' first
    | with_reducible assumption
    | (with_reducible exact Or.inl (by assumption))
    | (with_reducible exact Or.inr rfl)
    | with_reducible apply State.modWin_frame
    | with_reducible apply stageWord_frame
    | with_reducible apply submit_frame
    | with_reducible apply replyPop_frame
    | with_reducible apply clearIrq_frame
    | with_reducible apply Frame.ite
    | split
    | dsimp only

theorem stage_frame {fl : List Comp} {fr : State} (a : Nat) (v : Word) (s : State) (h_crPort : Comp.crPort ∈ fl) (hk : Frame fl fr s) : Frame fl fr (stage a v s) := by
  unfold stage
  repeat' first
    | with_reducible assumption
    | (with_reducible exact Or.inl (by assumption))
    | (with_reducible exact Or.inr rfl)
    | with_reducible apply State.modCr_frame
    | dsimp only

theorem unstage_frame {fl : List Comp} {fr : State} (a : Nat) (s : State) (h_crPort : Comp.crPort ∈ fl) (hk : Frame fl fr s) : Frame fl fr (unstage a s).2 := by
  unfold unstage
  repeat' first
    | with_reducible assumption
    | (with_reducible exact Or.inl (by assumption))
    | (with_reducible exact Or.inr rfl)
    | with_reducible apply State.modCr_frame
    | dsimp only

theorem unstage_frameE {fl : List Comp} {fr : State} (a : Nat) (s : State) {kv} {kt : State} (h_crPort : Comp.crPort ∈ fl) (hk : Frame fl fr s) (he : unstage a s = (kv, kt)) : Frame fl fr kt := by
  have h := unstage_frame (fl := fl) (fr := fr) a s h_crPort hk
  rw [he] at h; exact h

theorem writeTimeInc_frame {fl : List Comp} {fr : State} (v : Word) (s : State) (h_clock : Comp.clock ∈ fl) (h_crPort : Comp.crPort ∈ fl) (hk : Frame fl fr s) : Frame fl fr (writeTimeInc v s) := by
  unfold writeTimeInc
  repeat' first
    | with_reducible assumption
    | (with_reducible exact Or.inl (by assumption))
    | (with_reducible exact Or.inr rfl)
    | with_reducible apply State.modClk_frame
    | with_reducible apply unstage_frame
    | (refine unstage_frameE _ _ (by assumption) ?_ (by with_reducible assumption))
    | with_reducible apply Frame.ite
    | split
    | dsimp only

theorem writePushPtr_frame {fl : List Comp} {fr : State} (v : Word) (s : State) (h_fwStore : Comp.fwStore ∈ fl) (hk : Frame fl fr s) : Frame fl fr (writePushPtr v s) := by
  unfold writePushPtr
  repeat' first
    | with_reducible assumption
    | (with_reducible exact Or.inl (by assumption))
    | (with_reducible exact Or.inr rfl)
    | with_reducible apply State.modSlu_frame
    | with_reducible apply Frame.ite
    | split
    | dsimp only

theorem writePushData_frame {fl : List Comp} {fr : State} (v : Word) (s : State) (h_fwStore : Comp.fwStore ∈ fl) (hk : Frame fl fr s) : Frame fl fr (writePushData v s) := by
  unfold writePushData
  repeat' first
    | with_reducible assumption
    | (with_reducible exact Or.inl (by assumption))
    | (with_reducible exact Or.inr rfl)
    | with_reducible apply State.modSlu_frame
    | with_reducible apply Frame.ite
    | split
    | dsimp only

theorem clearAdvise_frame {fl : List Comp} {fr : State} (s : State) (h_service : Comp.service ∈ fl) (hk : Frame fl fr s) : Frame fl fr (clearAdvise s) := by
  unfold clearAdvise
  repeat' first
    | with_reducible assumption
    | (with_reducible exact Or.inl (by assumption))
    | (with_reducible exact Or.inr rfl)
    | with_reducible apply State.modSlu_frame
    | with_reducible apply Frame.ite
    | split
    | dsimp only

theorem writeGlobal_frame {fl : List Comp} {fr : State} (a : Nat) (acc : CrAcc) (s : State) (h_clock : Comp.clock ∈ fl) (h_fwStore : Comp.fwStore ∈ fl) (h_service : Comp.service ∈ fl) (h_lifecycle : Comp.lifecycle ∈ fl) (h_cmds : Comp.cmds ∈ fl) (h_wins : Comp.wins ∈ fl) (h_aps : Comp.aps ∈ fl) (h_ops : Comp.ops ∈ fl) (h_regions : Comp.regions ∈ fl) (h_fports : Comp.fports ∈ fl) (h_counters : Comp.counters ∈ fl) (h_gctr : Comp.gctr ∈ fl) (h_rake : Comp.rake ∈ fl) (h_trace : Comp.trace ∈ fl) (h_irq : Comp.irq ∈ fl) (h_crPort : Comp.crPort ∈ fl) (h_mem : Comp.mem ∈ fl) (h_mmPort : Comp.mmPort ∈ fl) (hk : Frame fl fr s) : Frame fl fr (writeGlobal a acc s) := by
  unfold writeGlobal
  repeat' first
    | with_reducible assumption
    | (with_reducible exact Or.inl (by assumption))
    | (with_reducible exact Or.inr rfl)
    | with_reducible apply State.modCtm_frame
    | with_reducible apply State.modCr_frame
    | with_reducible apply State.modClk_frame
    | with_reducible apply stageWord_frame
    | with_reducible apply submit_frame
    | with_reducible apply replyPop_frame
    | with_reducible apply stage_frame
    | with_reducible apply unstage_frame
    | (refine unstage_frameE _ _ (by assumption) ?_ (by with_reducible assumption))
    | with_reducible apply writeTimeInc_frame
    | with_reducible apply writePushPtr_frame
    | with_reducible apply writePushData_frame
    | with_reducible apply clearAdvise_frame
    | with_reducible apply Frame.ite
    | split
    | dsimp only

theorem errlogClear_frame {fl : List Comp} {fr : State} (s : State) (h_rake : Comp.rake ∈ fl) (hk : Frame fl fr s) : Frame fl fr (errlogClear s) := by
  unfold errlogClear
  repeat' first
    | with_reducible assumption
    | (with_reducible exact Or.inl (by assumption))
    | (with_reducible exact Or.inr rfl)
    | with_reducible apply State.modObs_frame
    | dsimp only

theorem errlogPop_frame {fl : List Comp} {fr : State} (s : State) (h_rake : Comp.rake ∈ fl) (hk : Frame fl fr s) : Frame fl fr (errlogPop s) := by
  unfold errlogPop
  repeat' first
    | with_reducible assumption
    | (with_reducible exact Or.inl (by assumption))
    | (with_reducible exact Or.inr rfl)
    | with_reducible apply State.modObs_frame
    | dsimp only

theorem writeTraceCtl_frame {fl : List Comp} {fr : State} (v : Word) (s : State) (h_trace : Comp.trace ∈ fl) (hk : Frame fl fr s) : Frame fl fr (writeTraceCtl v s) := by
  unfold writeTraceCtl
  repeat' first
    | with_reducible assumption
    | (with_reducible exact Or.inl (by assumption))
    | (with_reducible exact Or.inr rfl)
    | with_reducible apply modTrace_frame
    | with_reducible apply Frame.ite
    | split
    | dsimp only

theorem writeCensusCtl_frame {fl : List Comp} {fr : State} (v : Word) (s : State) (h_census : Comp.census ∈ fl) (hk : Frame fl fr s) : Frame fl fr (writeCensusCtl v s) := by
  unfold writeCensusCtl
  repeat' first
    | with_reducible assumption
    | (with_reducible exact Or.inl (by assumption))
    | (with_reducible exact Or.inr rfl)
    | with_reducible apply State.modCensus_frame
    | with_reducible apply Frame.ite
    | split
    | dsimp only

theorem writeObs_frame {fl : List Comp} {fr : State} (a : Nat) (acc : CrAcc) (s : State) (h_census : Comp.census ∈ fl) (h_rake : Comp.rake ∈ fl) (h_trace : Comp.trace ∈ fl) (h_hobble : Comp.hobble ∈ fl) (h_crPort : Comp.crPort ∈ fl) (hk : Frame fl fr s) : Frame fl fr (writeObs a acc s) := by
  unfold writeObs
  repeat' first
    | with_reducible assumption
    | (with_reducible exact Or.inl (by assumption))
    | (with_reducible exact Or.inr rfl)
    | with_reducible apply State.modHob_frame
    | with_reducible apply State.modCensus_frame
    | with_reducible apply modTrace_frame
    | with_reducible apply stage_frame
    | with_reducible apply unstage_frame
    | (refine unstage_frameE _ _ (by assumption) ?_ (by with_reducible assumption))
    | with_reducible apply errlogClear_frame
    | with_reducible apply errlogPop_frame
    | with_reducible apply writeTraceCtl_frame
    | with_reducible apply writeCensusCtl_frame
    | with_reducible apply Frame.ite
    | split
    | dsimp only

theorem writeAdmit_frame {fl : List Comp} {fr : State} (e : Nat) (v : Word) (s : State) (h_routes : Comp.routes ∈ fl) (h_crPort : Comp.crPort ∈ fl) (hk : Frame fl fr s) : Frame fl fr (writeAdmit e v s) := by
  unfold writeAdmit
  repeat' first
    | with_reducible assumption
    | (with_reducible exact Or.inl (by assumption))
    | (with_reducible exact Or.inr rfl)
    | with_reducible apply State.modFab_frame
    | with_reducible apply unstage_frame
    | (refine unstage_frameE _ _ (by assumption) ?_ (by with_reducible assumption))
    | with_reducible apply Frame.ite
    | split
    | dsimp only

theorem writeFab_frame {fl : List Comp} {fr : State} (a : Nat) (acc : CrAcc) (s : State) (h_routes : Comp.routes ∈ fl) (h_crPort : Comp.crPort ∈ fl) (hk : Frame fl fr s) : Frame fl fr (writeFab a acc s) := by
  unfold writeFab
  repeat' first
    | with_reducible assumption
    | (with_reducible exact Or.inl (by assumption))
    | (with_reducible exact Or.inr rfl)
    | with_reducible apply State.modFab_frame
    | with_reducible apply stage_frame
    | with_reducible apply unstage_frame
    | (refine unstage_frameE _ _ (by assumption) ?_ (by with_reducible assumption))
    | with_reducible apply writeAdmit_frame
    | with_reducible apply Frame.ite
    | split
    | dsimp only

theorem writeSec_frame {fl : List Comp} {fr : State} (a : Nat) (acc : CrAcc) (s : State) (h_engine : Comp.engine ∈ fl) (h_parts : Comp.parts ∈ fl) (hk : Frame fl fr s) : Frame fl fr (writeSec a acc s) := by
  unfold writeSec
  repeat' first
    | with_reducible assumption
    | (with_reducible exact Or.inl (by assumption))
    | (with_reducible exact Or.inr rfl)
    | with_reducible apply State.modPart_frame
    | with_reducible apply State.modSlu_frame
    | with_reducible apply Frame.ite
    | split
    | dsimp only

theorem writeReg_frame {fl : List Comp} {fr : State} (a : Nat) (acc : CrAcc) (s : State) (h_clock : Comp.clock ∈ fl) (h_fwStore : Comp.fwStore ∈ fl) (h_service : Comp.service ∈ fl) (h_lifecycle : Comp.lifecycle ∈ fl) (h_engine : Comp.engine ∈ fl) (h_cmds : Comp.cmds ∈ fl) (h_wins : Comp.wins ∈ fl) (h_parts : Comp.parts ∈ fl) (h_binds : Comp.binds ∈ fl) (h_aps : Comp.aps ∈ fl) (h_ops : Comp.ops ∈ fl) (h_merges : Comp.merges ∈ fl) (h_rows : Comp.rows ∈ fl) (h_banks : Comp.banks ∈ fl) (h_waiters : Comp.waiters ∈ fl) (h_records : Comp.records ∈ fl) (h_early : Comp.early ∈ fl) (h_spillWakes : Comp.spillWakes ∈ fl) (h_fetching : Comp.fetching ∈ fl) (h_descs : Comp.descs ∈ fl) (h_holdings : Comp.holdings ∈ fl) (h_fences : Comp.fences ∈ fl) (h_deadlines : Comp.deadlines ∈ fl) (h_leases : Comp.leases ∈ fl) (h_arming : Comp.arming ∈ fl) (h_heldq : Comp.heldq ∈ fl) (h_sn : Comp.sn ∈ fl) (h_dir : Comp.dir ∈ fl) (h_tack : Comp.tack ∈ fl) (h_regions : Comp.regions ∈ fl) (h_fports : Comp.fports ∈ fl) (h_trees : Comp.trees ∈ fl) (h_census : Comp.census ∈ fl) (h_routes : Comp.routes ∈ fl) (h_counters : Comp.counters ∈ fl) (h_gctr : Comp.gctr ∈ fl) (h_rake : Comp.rake ∈ fl) (h_trace : Comp.trace ∈ fl) (h_hobble : Comp.hobble ∈ fl) (h_watches : Comp.watches ∈ fl) (h_irq : Comp.irq ∈ fl) (h_crPort : Comp.crPort ∈ fl) (h_mem : Comp.mem ∈ fl) (h_mmPort : Comp.mmPort ∈ fl) (h_free : Comp.free ∈ fl) (hk : Frame fl fr s) : Frame fl fr (writeReg a acc s) := by
  unfold writeReg
  repeat' first
    | with_reducible assumption
    | (with_reducible exact Or.inl (by assumption))
    | (with_reducible exact Or.inr rfl)
    | with_reducible apply bindWrite_frame
    | with_reducible apply writeWin_frame
    | with_reducible apply writeGlobal_frame
    | with_reducible apply writeObs_frame
    | with_reducible apply writeFab_frame
    | with_reducible apply writeSec_frame
    | with_reducible apply Frame.ite
    | split
    | dsimp only

theorem crWrite_frame {fl : List Comp} {fr : State} (a : CrAddr) (acc : CrAcc) (s : State) (h_clock : Comp.clock ∈ fl) (h_fwStore : Comp.fwStore ∈ fl) (h_service : Comp.service ∈ fl) (h_lifecycle : Comp.lifecycle ∈ fl) (h_engine : Comp.engine ∈ fl) (h_cmds : Comp.cmds ∈ fl) (h_wins : Comp.wins ∈ fl) (h_parts : Comp.parts ∈ fl) (h_binds : Comp.binds ∈ fl) (h_aps : Comp.aps ∈ fl) (h_ops : Comp.ops ∈ fl) (h_merges : Comp.merges ∈ fl) (h_rows : Comp.rows ∈ fl) (h_banks : Comp.banks ∈ fl) (h_waiters : Comp.waiters ∈ fl) (h_records : Comp.records ∈ fl) (h_early : Comp.early ∈ fl) (h_spillWakes : Comp.spillWakes ∈ fl) (h_fetching : Comp.fetching ∈ fl) (h_descs : Comp.descs ∈ fl) (h_holdings : Comp.holdings ∈ fl) (h_fences : Comp.fences ∈ fl) (h_deadlines : Comp.deadlines ∈ fl) (h_leases : Comp.leases ∈ fl) (h_arming : Comp.arming ∈ fl) (h_heldq : Comp.heldq ∈ fl) (h_sn : Comp.sn ∈ fl) (h_dir : Comp.dir ∈ fl) (h_tack : Comp.tack ∈ fl) (h_regions : Comp.regions ∈ fl) (h_fports : Comp.fports ∈ fl) (h_trees : Comp.trees ∈ fl) (h_census : Comp.census ∈ fl) (h_routes : Comp.routes ∈ fl) (h_counters : Comp.counters ∈ fl) (h_gctr : Comp.gctr ∈ fl) (h_rake : Comp.rake ∈ fl) (h_trace : Comp.trace ∈ fl) (h_hobble : Comp.hobble ∈ fl) (h_watches : Comp.watches ∈ fl) (h_irq : Comp.irq ∈ fl) (h_crPort : Comp.crPort ∈ fl) (h_mem : Comp.mem ∈ fl) (h_mmPort : Comp.mmPort ∈ fl) (h_free : Comp.free ∈ fl) (hk : Frame fl fr s) : Frame fl fr (crWrite a acc s) := by
  unfold crWrite
  repeat' first
    | with_reducible assumption
    | (with_reducible exact Or.inl (by assumption))
    | (with_reducible exact Or.inr rfl)
    | with_reducible apply respond_frame
    | with_reducible apply noResponse_frame
    | with_reducible apply accessFail_frame
    | with_reducible apply writeReg_frame
    | with_reducible apply Frame.ite
    | split
    | dsimp only

theorem lowerHeld_frame {fl : List Comp} {fr : State} (k : OKey) (s : State) (h_rows : Comp.rows ∈ fl) (hk : Frame fl fr s) : Frame fl fr (lowerHeld k s) := by
  unfold lowerHeld
  repeat' first
    | with_reducible assumption
    | (with_reducible exact Or.inl (by assumption))
    | (with_reducible exact Or.inr rfl)
    | with_reducible apply State.setBody_frame
    | split
    | dsimp only

theorem loseHeld_frame {fl : List Comp} {fr : State} (h : Held) (s : State) (h_rows : Comp.rows ∈ fl) (h_descs : Comp.descs ∈ fl) (h_heldq : Comp.heldq ∈ fl) (h_gctr : Comp.gctr ∈ fl) (h_rake : Comp.rake ∈ fl) (h_irq : Comp.irq ∈ fl) (hk : Frame fl fr s) : Frame fl fr (loseHeld h s) := by
  unfold loseHeld
  repeat' first
    | with_reducible assumption
    | (with_reducible exact Or.inl (by assumption))
    | (with_reducible exact Or.inr rfl)
    | with_reducible apply report_frame
    | with_reducible apply closeAt_frame
    | with_reducible apply dropHeld_frame
    | with_reducible apply lowerHeld_frame
    | with_reducible apply Frame.ite
    | split
    | dsimp only

theorem loseLock_frame {fl : List Comp} {fr : State} (k : OKey) (l : Lock) (s : State) (h_wins : Comp.wins ∈ fl) (h_holdings : Comp.holdings ∈ fl) (h_sn : Comp.sn ∈ fl) (h_fports : Comp.fports ∈ fl) (h_counters : Comp.counters ∈ fl) (h_gctr : Comp.gctr ∈ fl) (h_rake : Comp.rake ∈ fl) (h_irq : Comp.irq ∈ fl) (hk : Frame fl fr s) : Frame fl fr (loseLock k l s) := by
  unfold loseLock
  repeat' first
    | with_reducible assumption
    | (with_reducible exact Or.inl (by assumption))
    | (with_reducible exact Or.inr rfl)
    | with_reducible apply fabSend_frame
    | with_reducible apply sendInherit_frame
    | with_reducible apply delHolding_frame
    | with_reducible apply Frame.ite
    | split
    | dsimp only

theorem loseBody_frame {fl : List Comp} {fr : State} (k : OKey) (b : Body) (s : State) (h_wins : Comp.wins ∈ fl) (h_parts : Comp.parts ∈ fl) (h_descs : Comp.descs ∈ fl) (h_holdings : Comp.holdings ∈ fl) (h_arming : Comp.arming ∈ fl) (h_decs : Comp.decs ∈ fl) (h_sn : Comp.sn ∈ fl) (h_fports : Comp.fports ∈ fl) (h_counters : Comp.counters ∈ fl) (h_gctr : Comp.gctr ∈ fl) (h_rake : Comp.rake ∈ fl) (h_irq : Comp.irq ∈ fl) (hk : Frame fl fr s) : Frame fl fr (loseBody k b s) := by
  unfold loseBody
  repeat' first
    | with_reducible assumption
    | (with_reducible exact Or.inl (by assumption))
    | (with_reducible exact Or.inr rfl)
    | with_reducible apply State.modLcu_frame
    | with_reducible apply State.delDesc_frame
    | with_reducible apply secDown_frame
    | with_reducible apply delArm_frame
    | with_reducible apply loseLock_frame
    | with_reducible apply Frame.ite
    | split
    | dsimp only

theorem destroyObject_frame {fl : List Comp} {fr : State} (k : OKey) (o : Obj) (s : State) (h_wins : Comp.wins ∈ fl) (h_parts : Comp.parts ∈ fl) (h_aps : Comp.aps ∈ fl) (h_ops : Comp.ops ∈ fl) (h_due : Comp.due ∈ fl) (h_rows : Comp.rows ∈ fl) (h_waiters : Comp.waiters ∈ fl) (h_records : Comp.records ∈ fl) (h_early : Comp.early ∈ fl) (h_spillWakes : Comp.spillWakes ∈ fl) (h_fetching : Comp.fetching ∈ fl) (h_descs : Comp.descs ∈ fl) (h_holdings : Comp.holdings ∈ fl) (h_fences : Comp.fences ∈ fl) (h_deadlines : Comp.deadlines ∈ fl) (h_leases : Comp.leases ∈ fl) (h_arming : Comp.arming ∈ fl) (h_heldq : Comp.heldq ∈ fl) (h_decs : Comp.decs ∈ fl) (h_sn : Comp.sn ∈ fl) (h_fports : Comp.fports ∈ fl) (h_counters : Comp.counters ∈ fl) (h_gctr : Comp.gctr ∈ fl) (h_rake : Comp.rake ∈ fl) (h_watches : Comp.watches ∈ fl) (h_irq : Comp.irq ∈ fl) (h_free : Comp.free ∈ fl) (hk : Frame fl fr s) : Frame fl fr (destroyObject k o s) := by
  unfold destroyObject
  repeat' first
    | with_reducible assumption
    | (with_reducible exact Or.inl (by assumption))
    | (with_reducible exact Or.inr rfl)
    | with_reducible apply State.modWmc_frame
    | with_reducible apply State.modTdu_frame
    | with_reducible apply State.modObs_frame
    | with_reducible apply State.delObj_frame
    | with_reducible apply wakeAll_frame
    | with_reducible apply takeWaiters_frame
    | (refine takeWaiters_frameE _ _ _ (by assumption) (by assumption) ?_ (by with_reducible assumption))
    | with_reducible apply delFence_frame
    | with_reducible apply dropDue_frame
    | with_reducible apply loseHeld_frame
    | with_reducible apply loseBody_frame
    | (with_reducible refine Frame.foldl (fun _ _ _ => ?_) ?_)
    | dsimp only

theorem dropTack_frame {fl : List Comp} {fr : State} (p : PartId) (c : CtxId) (zero : Bool) (s : State) (h_tack : Comp.tack ∈ fl) (h_mem : Comp.mem ∈ fl) (h_mmPort : Comp.mmPort ∈ fl) (hk : Frame fl fr s) : Frame fl fr (dropTack p c zero s) := by
  unfold dropTack
  repeat' first
    | with_reducible assumption
    | (with_reducible exact Or.inl (by assumption))
    | (with_reducible exact Or.inr rfl)
    | with_reducible apply State.modCtm_frame
    | with_reducible apply zeroTack_frame
    | with_reducible apply Frame.ite
    | split
    | dsimp only

theorem destroyCtx_frame {fl : List Comp} {fr : State} (p : PartId) (c : CtxId) (s : State) (h_wins : Comp.wins ∈ fl) (h_parts : Comp.parts ∈ fl) (h_aps : Comp.aps ∈ fl) (h_ops : Comp.ops ∈ fl) (h_due : Comp.due ∈ fl) (h_rows : Comp.rows ∈ fl) (h_banks : Comp.banks ∈ fl) (h_waiters : Comp.waiters ∈ fl) (h_records : Comp.records ∈ fl) (h_early : Comp.early ∈ fl) (h_spillWakes : Comp.spillWakes ∈ fl) (h_fetching : Comp.fetching ∈ fl) (h_descs : Comp.descs ∈ fl) (h_holdings : Comp.holdings ∈ fl) (h_fences : Comp.fences ∈ fl) (h_deadlines : Comp.deadlines ∈ fl) (h_leases : Comp.leases ∈ fl) (h_arming : Comp.arming ∈ fl) (h_heldq : Comp.heldq ∈ fl) (h_decs : Comp.decs ∈ fl) (h_sn : Comp.sn ∈ fl) (h_dir : Comp.dir ∈ fl) (h_tack : Comp.tack ∈ fl) (h_fports : Comp.fports ∈ fl) (h_counters : Comp.counters ∈ fl) (h_gctr : Comp.gctr ∈ fl) (h_rake : Comp.rake ∈ fl) (h_watches : Comp.watches ∈ fl) (h_irq : Comp.irq ∈ fl) (h_mem : Comp.mem ∈ fl) (h_mmPort : Comp.mmPort ∈ fl) (h_free : Comp.free ∈ fl) (hk : Frame fl fr s) : Frame fl fr (destroyCtx p c s).2 := by
  unfold destroyCtx
  repeat' first
    | with_reducible assumption
    | (with_reducible exact Or.inl (by assumption))
    | (with_reducible exact Or.inr rfl)
    | with_reducible apply State.setCtx_frame
    | with_reducible apply inner_frame
    | with_reducible apply wakeSlot_frame
    | with_reducible apply loseHeld_frame
    | with_reducible apply destroyObject_frame
    | with_reducible apply dropTack_frame
    | with_reducible apply Frame.ite
    | (with_reducible refine Frame.foldl (fun _ _ _ => ?_) ?_)
    | split
    | dsimp only

theorem destroyCtx_frameE {fl : List Comp} {fr : State} (p : PartId) (c : CtxId) (s : State) {kv} {kt : State} (h_wins : Comp.wins ∈ fl) (h_parts : Comp.parts ∈ fl) (h_aps : Comp.aps ∈ fl) (h_ops : Comp.ops ∈ fl) (h_due : Comp.due ∈ fl) (h_rows : Comp.rows ∈ fl) (h_banks : Comp.banks ∈ fl) (h_waiters : Comp.waiters ∈ fl) (h_records : Comp.records ∈ fl) (h_early : Comp.early ∈ fl) (h_spillWakes : Comp.spillWakes ∈ fl) (h_fetching : Comp.fetching ∈ fl) (h_descs : Comp.descs ∈ fl) (h_holdings : Comp.holdings ∈ fl) (h_fences : Comp.fences ∈ fl) (h_deadlines : Comp.deadlines ∈ fl) (h_leases : Comp.leases ∈ fl) (h_arming : Comp.arming ∈ fl) (h_heldq : Comp.heldq ∈ fl) (h_decs : Comp.decs ∈ fl) (h_sn : Comp.sn ∈ fl) (h_dir : Comp.dir ∈ fl) (h_tack : Comp.tack ∈ fl) (h_fports : Comp.fports ∈ fl) (h_counters : Comp.counters ∈ fl) (h_gctr : Comp.gctr ∈ fl) (h_rake : Comp.rake ∈ fl) (h_watches : Comp.watches ∈ fl) (h_irq : Comp.irq ∈ fl) (h_mem : Comp.mem ∈ fl) (h_mmPort : Comp.mmPort ∈ fl) (h_free : Comp.free ∈ fl) (hk : Frame fl fr s) (he : destroyCtx p c s = (kv, kt)) : Frame fl fr kt := by
  have h := destroyCtx_frame (fl := fl) (fr := fr) p c s h_wins h_parts h_aps h_ops h_due h_rows h_banks h_waiters h_records h_early h_spillWakes h_fetching h_descs h_holdings h_fences h_deadlines h_leases h_arming h_heldq h_decs h_sn h_dir h_tack h_fports h_counters h_gctr h_rake h_watches h_irq h_mem h_mmPort h_free hk
  rw [he] at h; exact h

theorem ctxCreate_frame {fl : List Comp} {fr : State} (c : Cmd) (s : State) (h_cmds : Comp.cmds ∈ fl) (h_wins : Comp.wins ∈ fl) (h_aps : Comp.aps ∈ fl) (h_ops : Comp.ops ∈ fl) (h_dir : Comp.dir ∈ fl) (h_fports : Comp.fports ∈ fl) (h_counters : Comp.counters ∈ fl) (h_gctr : Comp.gctr ∈ fl) (h_rake : Comp.rake ∈ fl) (h_trace : Comp.trace ∈ fl) (h_irq : Comp.irq ∈ fl) (h_mem : Comp.mem ∈ fl) (h_mmPort : Comp.mmPort ∈ fl) (hk : Frame fl fr s) : Frame fl fr (ctxCreate c s) := by
  unfold ctxCreate
  repeat' first
    | with_reducible assumption
    | (with_reducible exact Or.inl (by assumption))
    | (with_reducible exact Or.inr rfl)
    | with_reducible apply State.setCtx_frame
    | with_reducible apply ok_frame
    | with_reducible apply refuse_frame
    | with_reducible apply Frame.ite
    | split
    | dsimp only

theorem ctxDestroy_frame {fl : List Comp} {fr : State} (c : Cmd) (s : State) (h_cmds : Comp.cmds ∈ fl) (h_wins : Comp.wins ∈ fl) (h_parts : Comp.parts ∈ fl) (h_aps : Comp.aps ∈ fl) (h_ops : Comp.ops ∈ fl) (h_due : Comp.due ∈ fl) (h_rows : Comp.rows ∈ fl) (h_banks : Comp.banks ∈ fl) (h_waiters : Comp.waiters ∈ fl) (h_records : Comp.records ∈ fl) (h_early : Comp.early ∈ fl) (h_spillWakes : Comp.spillWakes ∈ fl) (h_fetching : Comp.fetching ∈ fl) (h_descs : Comp.descs ∈ fl) (h_holdings : Comp.holdings ∈ fl) (h_fences : Comp.fences ∈ fl) (h_deadlines : Comp.deadlines ∈ fl) (h_leases : Comp.leases ∈ fl) (h_arming : Comp.arming ∈ fl) (h_heldq : Comp.heldq ∈ fl) (h_decs : Comp.decs ∈ fl) (h_sn : Comp.sn ∈ fl) (h_dir : Comp.dir ∈ fl) (h_tack : Comp.tack ∈ fl) (h_fports : Comp.fports ∈ fl) (h_counters : Comp.counters ∈ fl) (h_gctr : Comp.gctr ∈ fl) (h_rake : Comp.rake ∈ fl) (h_trace : Comp.trace ∈ fl) (h_watches : Comp.watches ∈ fl) (h_irq : Comp.irq ∈ fl) (h_mem : Comp.mem ∈ fl) (h_mmPort : Comp.mmPort ∈ fl) (h_free : Comp.free ∈ fl) (hk : Frame fl fr s) : Frame fl fr (ctxDestroy c s) := by
  unfold ctxDestroy
  repeat' first
    | with_reducible assumption
    | (with_reducible exact Or.inl (by assumption))
    | (with_reducible exact Or.inr rfl)
    | with_reducible apply ok_frame
    | with_reducible apply refuse_frame
    | with_reducible apply destroyCtx_frame
    | (refine destroyCtx_frameE _ _ _ (by assumption) (by assumption) (by assumption) (by assumption) (by assumption) (by assumption) (by assumption) (by assumption) (by assumption) (by assumption) (by assumption) (by assumption) (by assumption) (by assumption) (by assumption) (by assumption) (by assumption) (by assumption) (by assumption) (by assumption) (by assumption) (by assumption) (by assumption) (by assumption) (by assumption) (by assumption) (by assumption) (by assumption) (by assumption) (by assumption) (by assumption) (by assumption) ?_ (by with_reducible assumption))
    | with_reducible apply Frame.ite
    | split
    | dsimp only

theorem ctxQuery_frame {fl : List Comp} {fr : State} (c : Cmd) (s : State) (h_cmds : Comp.cmds ∈ fl) (h_wins : Comp.wins ∈ fl) (h_aps : Comp.aps ∈ fl) (h_ops : Comp.ops ∈ fl) (h_fports : Comp.fports ∈ fl) (h_counters : Comp.counters ∈ fl) (h_gctr : Comp.gctr ∈ fl) (h_rake : Comp.rake ∈ fl) (h_trace : Comp.trace ∈ fl) (h_irq : Comp.irq ∈ fl) (h_mem : Comp.mem ∈ fl) (h_mmPort : Comp.mmPort ∈ fl) (hk : Frame fl fr s) : Frame fl fr (ctxQuery c s) := by
  unfold ctxQuery
  repeat' first
    | with_reducible assumption
    | (with_reducible exact Or.inl (by assumption))
    | (with_reducible exact Or.inr rfl)
    | with_reducible apply ok_frame
    | dsimp only

theorem ctxEvict_frame {fl : List Comp} {fr : State} (c : Cmd) (s : State) (h_cmds : Comp.cmds ∈ fl) (h_wins : Comp.wins ∈ fl) (h_aps : Comp.aps ∈ fl) (h_ops : Comp.ops ∈ fl) (h_heldq : Comp.heldq ∈ fl) (h_dir : Comp.dir ∈ fl) (h_tack : Comp.tack ∈ fl) (h_fports : Comp.fports ∈ fl) (h_counters : Comp.counters ∈ fl) (h_gctr : Comp.gctr ∈ fl) (h_rake : Comp.rake ∈ fl) (h_trace : Comp.trace ∈ fl) (h_irq : Comp.irq ∈ fl) (h_mem : Comp.mem ∈ fl) (h_mmPort : Comp.mmPort ∈ fl) (hk : Frame fl fr s) : Frame fl fr (ctxEvict c s) := by
  unfold ctxEvict
  repeat' first
    | with_reducible assumption
    | (with_reducible exact Or.inl (by assumption))
    | (with_reducible exact Or.inr rfl)
    | with_reducible apply State.setCtx_frame
    | with_reducible apply State.modLcu_frame
    | with_reducible apply State.modCtm_frame
    | with_reducible apply refuse_frame
    | with_reducible apply setPhase_frame
    | with_reducible apply Frame.ite
    | split
    | dsimp only

theorem countSpill_frame {fl : List Comp} {fr : State} (p : PartId) (n : Nat) (s : State) (h_counters : Comp.counters ∈ fl) (h_gctr : Comp.gctr ∈ fl) (hk : Frame fl fr s) : Frame fl fr (countSpill p n s) := by
  unfold countSpill
  repeat' first
    | with_reducible assumption
    | (with_reducible exact Or.inl (by assumption))
    | (with_reducible exact Or.inr rfl)
    | with_reducible apply countN_frame
    | with_reducible apply gcountN_frame
    | dsimp only

theorem spillBytes_frame {fl : List Comp} {fr : State} (s : State) (h_mem : Comp.mem ∈ fl) (h_mmPort : Comp.mmPort ∈ fl) (h_free : Comp.free ∈ fl) (hk : Frame fl fr s) : Frame fl fr (spillBytes s) := by
  unfold spillBytes
  repeat' first
    | with_reducible assumption
    | (with_reducible exact Or.inl (by assumption))
    | (with_reducible exact Or.inr rfl)
    | with_reducible apply fresh_frame
    | (refine fresh_frameE _ (by assumption) ?_ (by with_reducible assumption))
    | with_reducible apply mmWrite_frame
    | dsimp only

theorem spillMany_frame {fl : List Comp} {fr : State}  (n : Nat) (h_mem : Comp.mem ∈ fl) (h_mmPort : Comp.mmPort ∈ fl) (h_free : Comp.free ∈ fl) : ∀ (s : State), Frame fl fr s → Frame fl fr (spillMany  n s) := by
  induction n with
  | zero => intro s hk; unfold spillMany; exact hk
  | succ n ih =>
    intro s hk
    unfold spillMany
    repeat' first
      | with_reducible assumption
      | (with_reducible exact Or.inl (by assumption))
      | (with_reducible exact Or.inr rfl)
      | with_reducible apply ih
      | with_reducible apply spillBytes_frame
      | split
      | dsimp only

theorem spillFetch_frame {fl : List Comp} {fr : State} (s : State) (h_mmPort : Comp.mmPort ∈ fl) (h_free : Comp.free ∈ fl) (hk : Frame fl fr s) : Frame fl fr (spillFetch s) := by
  unfold spillFetch
  repeat' first
    | with_reducible assumption
    | (with_reducible exact Or.inl (by assumption))
    | (with_reducible exact Or.inr rfl)
    | with_reducible apply fresh_frame
    | (refine fresh_frameE _ (by assumption) ?_ (by with_reducible assumption))
    | with_reducible apply mmRequest_frame
    | dsimp only

theorem evictNow_frame {fl : List Comp} {fr : State} (p : PartId) (c : CtxId) (s : State) (h_rows : Comp.rows ∈ fl) (h_waiters : Comp.waiters ∈ fl) (h_records : Comp.records ∈ fl) (h_early : Comp.early ∈ fl) (h_descs : Comp.descs ∈ fl) (h_fences : Comp.fences ∈ fl) (h_dir : Comp.dir ∈ fl) (h_tack : Comp.tack ∈ fl) (h_counters : Comp.counters ∈ fl) (h_gctr : Comp.gctr ∈ fl) (h_mem : Comp.mem ∈ fl) (h_mmPort : Comp.mmPort ∈ fl) (h_free : Comp.free ∈ fl) (hk : Frame fl fr s) : Frame fl fr (evictNow p c s) := by
  unfold evictNow
  repeat' first
    | with_reducible assumption
    | (with_reducible exact Or.inl (by assumption))
    | (with_reducible exact Or.inr rfl)
    | with_reducible apply State.modCtx_frame
    | with_reducible apply State.modWmc_frame
    | with_reducible apply State.modTrk_frame
    | with_reducible apply gcountN_frame
    | with_reducible apply gcount_frame
    | with_reducible apply State.delObj_frame
    | with_reducible apply delFence_frame
    | with_reducible apply writeTack_frame
    | with_reducible apply modTack_frame
    | with_reducible apply countSpill_frame
    | with_reducible apply spillMany_frame
    | with_reducible apply Frame.ite
    | (with_reducible refine Frame.foldl (fun _ _ _ => ?_) ?_)
    | split
    | dsimp only

theorem wakeRows_frame {fl : List Comp} {fr : State} (s : State) (h_banks : Comp.banks ∈ fl) (hk : Frame fl fr s) : Frame fl fr (wakeRows s) := by
  unfold wakeRows
  repeat' first
    | with_reducible assumption
    | (with_reducible exact Or.inl (by assumption))
    | (with_reducible exact Or.inr rfl)
    | with_reducible apply wakeBank_frame
    | (with_reducible refine Frame.foldl (fun _ _ _ => ?_) ?_)
    | dsimp only

theorem evictDrained_frame {fl : List Comp} {fr : State} (p : PartId) (c : CtxId) (s : State) (h_cmds : Comp.cmds ∈ fl) (h_wins : Comp.wins ∈ fl) (h_parts : Comp.parts ∈ fl) (h_aps : Comp.aps ∈ fl) (h_ops : Comp.ops ∈ fl) (h_merges : Comp.merges ∈ fl) (h_rows : Comp.rows ∈ fl) (h_banks : Comp.banks ∈ fl) (h_waiters : Comp.waiters ∈ fl) (h_records : Comp.records ∈ fl) (h_early : Comp.early ∈ fl) (h_spillWakes : Comp.spillWakes ∈ fl) (h_fetching : Comp.fetching ∈ fl) (h_descs : Comp.descs ∈ fl) (h_holdings : Comp.holdings ∈ fl) (h_fences : Comp.fences ∈ fl) (h_deadlines : Comp.deadlines ∈ fl) (h_leases : Comp.leases ∈ fl) (h_arming : Comp.arming ∈ fl) (h_heldq : Comp.heldq ∈ fl) (h_sn : Comp.sn ∈ fl) (h_dir : Comp.dir ∈ fl) (h_tack : Comp.tack ∈ fl) (h_fports : Comp.fports ∈ fl) (h_trees : Comp.trees ∈ fl) (h_inq : Comp.inq ∈ fl) (h_counters : Comp.counters ∈ fl) (h_gctr : Comp.gctr ∈ fl) (h_rake : Comp.rake ∈ fl) (h_trace : Comp.trace ∈ fl) (h_watches : Comp.watches ∈ fl) (h_irq : Comp.irq ∈ fl) (h_mem : Comp.mem ∈ fl) (h_mmPort : Comp.mmPort ∈ fl) (h_free : Comp.free ∈ fl) (hk : Frame fl fr s) : Frame fl fr (evictDrained p c s) := by
  unfold evictDrained
  repeat' first
    | with_reducible assumption
    | (with_reducible exact Or.inl (by assumption))
    | (with_reducible exact Or.inr rfl)
    | with_reducible apply ok_frame
    | with_reducible apply pump_frame
    | with_reducible apply evictNow_frame
    | with_reducible apply wakeRows_frame
    | with_reducible apply Frame.ite
    | split
    | dsimp only

theorem ctxRestore_frame {fl : List Comp} {fr : State} (c : Cmd) (s : State) (h_cmds : Comp.cmds ∈ fl) (h_wins : Comp.wins ∈ fl) (h_aps : Comp.aps ∈ fl) (h_ops : Comp.ops ∈ fl) (h_dir : Comp.dir ∈ fl) (h_fports : Comp.fports ∈ fl) (h_counters : Comp.counters ∈ fl) (h_gctr : Comp.gctr ∈ fl) (h_rake : Comp.rake ∈ fl) (h_trace : Comp.trace ∈ fl) (h_irq : Comp.irq ∈ fl) (h_mem : Comp.mem ∈ fl) (h_mmPort : Comp.mmPort ∈ fl) (hk : Frame fl fr s) : Frame fl fr (ctxRestore c s) := by
  unfold ctxRestore
  repeat' first
    | with_reducible assumption
    | (with_reducible exact Or.inl (by assumption))
    | (with_reducible exact Or.inr rfl)
    | with_reducible apply State.setCtx_frame
    | with_reducible apply refuse_frame
    | with_reducible apply setPhase_frame
    | with_reducible apply Frame.ite
    | split
    | dsimp only

theorem nameDesc_frame {fl : List Comp} {fr : State} (k : OKey) (i : Nat) (s : State) (h_rows : Comp.rows ∈ fl) (hk : Frame fl fr s) : Frame fl fr (nameDesc k i s) := by
  unfold nameDesc
  repeat' first
    | with_reducible assumption
    | (with_reducible exact Or.inl (by assumption))
    | (with_reducible exact Or.inr rfl)
    | with_reducible apply State.setBody_frame
    | split
    | dsimp only

theorem restoreRing_frame {fl : List Comp} {fr : State} (p : PartId) (c : CtxId) (x : Index × Desc) (s : State) (h_rows : Comp.rows ∈ fl) (h_descs : Comp.descs ∈ fl) (h_free : Comp.free ∈ fl) (hk : Frame fl fr s) : Frame fl fr (restoreRing p c x s) := by
  unfold restoreRing
  repeat' first
    | with_reducible assumption
    | (with_reducible exact Or.inl (by assumption))
    | (with_reducible exact Or.inr rfl)
    | with_reducible apply fresh_frame
    | (refine fresh_frameE _ (by assumption) ?_ (by with_reducible assumption))
    | with_reducible apply State.setDesc_frame
    | with_reducible apply nameDesc_frame
    | with_reducible apply Frame.ite
    | split
    | dsimp only

theorem reloadOne_frame {fl : List Comp} {fr : State} (q : OKey → Bool) (s : State) {kt : State} (h_rows : Comp.rows ∈ fl) (h_waiters : Comp.waiters ∈ fl) (h_early : Comp.early ∈ fl) (h_descs : Comp.descs ∈ fl) (hk : Frame fl fr s) (he : reloadOne q s = some kt) : Frame fl fr kt := by
  unfold reloadOne at he
  repeat' first
    | (cases he; done)
    | (injection he with he; subst he)
    | (injection he with he; injection he with he1 he2; subst he2)
    | (injection he with he)
    | split at he
    | dsimp only at he
    | with_reducible assumption
    | (with_reducible exact Or.inl (by assumption))
    | (with_reducible exact Or.inr rfl)
    | with_reducible apply State.modWmc_frame
    | with_reducible apply syncHdr_frame
    | with_reducible apply State.setDesc_frame
    | split
    | dsimp only

theorem reloadLoop_frame {fl : List Comp} {fr : State} (q : OKey → Bool) (n : Nat) (h_rows : Comp.rows ∈ fl) (h_waiters : Comp.waiters ∈ fl) (h_early : Comp.early ∈ fl) (h_descs : Comp.descs ∈ fl) (h_gctr : Comp.gctr ∈ fl) (h_mmPort : Comp.mmPort ∈ fl) (h_free : Comp.free ∈ fl) : ∀ (s : State), Frame fl fr s → Frame fl fr (reloadLoop q n s) := by
  induction n with
  | zero => intro s hk; unfold reloadLoop; exact hk
  | succ n ih =>
    intro s hk
    unfold reloadLoop
    repeat' first
      | with_reducible assumption
      | (with_reducible exact Or.inl (by assumption))
      | (with_reducible exact Or.inr rfl)
      | with_reducible apply ih
      | with_reducible apply gcount_frame
      | with_reducible apply spillFetch_frame
      | (refine reloadOne_frame _ _ (by assumption) (by assumption) (by assumption) (by assumption) ?_ (by with_reducible assumption))
      | with_reducible apply Frame.ite
      | split
      | dsimp only

theorem fetchIn_frame {fl : List Comp} {fr : State} (k : OKey) (s : State) (h_rows : Comp.rows ∈ fl) (h_early : Comp.early ∈ fl) (h_fetching : Comp.fetching ∈ fl) (h_descs : Comp.descs ∈ fl) (h_mmPort : Comp.mmPort ∈ fl) (h_free : Comp.free ∈ fl) (hk : Frame fl fr s) : Frame fl fr (fetchIn k s) := by
  unfold fetchIn
  repeat' first
    | with_reducible assumption
    | (with_reducible exact Or.inl (by assumption))
    | (with_reducible exact Or.inr rfl)
    | with_reducible apply State.modWmc_frame
    | with_reducible apply syncHdr_frame
    | with_reducible apply State.setDesc_frame
    | with_reducible apply spillFetch_frame
    | with_reducible apply Frame.ite
    | split
    | dsimp only

theorem fetchAs_frame {fl : List Comp} {fr : State} (op : Op) (k : OKey) (s : State) (h_rows : Comp.rows ∈ fl) (h_early : Comp.early ∈ fl) (h_fetching : Comp.fetching ∈ fl) (h_descs : Comp.descs ∈ fl) (h_mmPort : Comp.mmPort ∈ fl) (h_free : Comp.free ∈ fl) (hk : Frame fl fr s) : Frame fl fr (fetchAs op k s) := by
  unfold fetchAs
  repeat' first
    | with_reducible assumption
    | (with_reducible exact Or.inl (by assumption))
    | (with_reducible exact Or.inr rfl)
    | with_reducible apply fetchIn_frame
    | with_reducible apply Frame.ite
    | split
    | dsimp only

theorem applyDefer_frame {fl : List Comp} {fr : State} (d : Defer) (s : State) (h_wins : Comp.wins ∈ fl) (h_parts : Comp.parts ∈ fl) (h_aps : Comp.aps ∈ fl) (h_ops : Comp.ops ∈ fl) (h_rows : Comp.rows ∈ fl) (h_waiters : Comp.waiters ∈ fl) (h_records : Comp.records ∈ fl) (h_early : Comp.early ∈ fl) (h_spillWakes : Comp.spillWakes ∈ fl) (h_fetching : Comp.fetching ∈ fl) (h_descs : Comp.descs ∈ fl) (h_holdings : Comp.holdings ∈ fl) (h_fences : Comp.fences ∈ fl) (h_deadlines : Comp.deadlines ∈ fl) (h_leases : Comp.leases ∈ fl) (h_sn : Comp.sn ∈ fl) (h_tack : Comp.tack ∈ fl) (h_fports : Comp.fports ∈ fl) (h_trees : Comp.trees ∈ fl) (h_counters : Comp.counters ∈ fl) (h_gctr : Comp.gctr ∈ fl) (h_rake : Comp.rake ∈ fl) (h_trace : Comp.trace ∈ fl) (h_watches : Comp.watches ∈ fl) (h_irq : Comp.irq ∈ fl) (h_mem : Comp.mem ∈ fl) (h_mmPort : Comp.mmPort ∈ fl) (h_free : Comp.free ∈ fl) (hk : Frame fl fr s) : Frame fl fr (applyDefer d s) := by
  unfold applyDefer
  repeat' first
    | with_reducible assumption
    | (with_reducible exact Or.inl (by assumption))
    | (with_reducible exact Or.inr rfl)
    | with_reducible apply inner_frame
    | with_reducible apply abandonLock_frame
    | with_reducible apply expireLease_frame
    | with_reducible apply cancelRsv_frame
    | with_reducible apply afterLeaving_frame
    | with_reducible apply expireDeadline_frame
    | with_reducible apply undoGive_frame
    | with_reducible apply fetchAs_frame
    | split
    | dsimp only

theorem applySum_frame {fl : List Comp} {fr : State} (a : Arm) (s : State) (h_wins : Comp.wins ∈ fl) (h_parts : Comp.parts ∈ fl) (h_rows : Comp.rows ∈ fl) (h_arming : Comp.arming ∈ fl) (h_heldq : Comp.heldq ∈ fl) (h_counters : Comp.counters ∈ fl) (h_gctr : Comp.gctr ∈ fl) (h_rake : Comp.rake ∈ fl) (h_irq : Comp.irq ∈ fl) (hk : Frame fl fr s) : Frame fl fr (applySum a s) := by
  unfold applySum
  repeat' first
    | with_reducible assumption
    | (with_reducible exact Or.inl (by assumption))
    | (with_reducible exact Or.inr rfl)
    | with_reducible apply State.modLcu_frame
    | with_reducible apply inner_frame
    | with_reducible apply decrement_frame
    | dsimp only

theorem renewWq_frame {fl : List Comp} {fr : State} (k : OKey) (s : State) (h_rows : Comp.rows ∈ fl) (h_free : Comp.free ∈ fl) (hk : Frame fl fr s) : Frame fl fr (renewWq k s) := by
  unfold renewWq
  repeat' first
    | with_reducible assumption
    | (with_reducible exact Or.inl (by assumption))
    | (with_reducible exact Or.inr rfl)
    | with_reducible apply freshWq_frame
    | with_reducible apply Frame.ite
    | split
    | dsimp only

theorem postWaiting_frame {fl : List Comp} {fr : State} (p : PartId) (c : CtxId) (s : State) (h_wins : Comp.wins ∈ fl) (h_aps : Comp.aps ∈ fl) (h_ops : Comp.ops ∈ fl) (h_rows : Comp.rows ∈ fl) (h_waiters : Comp.waiters ∈ fl) (h_spillWakes : Comp.spillWakes ∈ fl) (h_descs : Comp.descs ∈ fl) (h_heldq : Comp.heldq ∈ fl) (h_fports : Comp.fports ∈ fl) (h_counters : Comp.counters ∈ fl) (h_gctr : Comp.gctr ∈ fl) (h_rake : Comp.rake ∈ fl) (h_trace : Comp.trace ∈ fl) (h_irq : Comp.irq ∈ fl) (h_free : Comp.free ∈ fl) (hk : Frame fl fr s) : Frame fl fr (postWaiting p c s) := by
  unfold postWaiting
  repeat' first
    | with_reducible assumption
    | (with_reducible exact Or.inl (by assumption))
    | (with_reducible exact Or.inr rfl)
    | with_reducible apply inner_frame
    | with_reducible apply dropHeld_frame
    | with_reducible apply performHeldSignal_frame
    | with_reducible apply performHeldCommit_frame
    | with_reducible apply Frame.ite
    | (with_reducible refine Frame.foldl (fun _ _ _ => ?_) ?_)
    | split
    | dsimp only

theorem restoreNow_frame {fl : List Comp} {fr : State} (p : PartId) (c : CtxId) (r : TackRec) (s : State) (h_wins : Comp.wins ∈ fl) (h_parts : Comp.parts ∈ fl) (h_aps : Comp.aps ∈ fl) (h_ops : Comp.ops ∈ fl) (h_rows : Comp.rows ∈ fl) (h_waiters : Comp.waiters ∈ fl) (h_records : Comp.records ∈ fl) (h_early : Comp.early ∈ fl) (h_spillWakes : Comp.spillWakes ∈ fl) (h_fetching : Comp.fetching ∈ fl) (h_descs : Comp.descs ∈ fl) (h_holdings : Comp.holdings ∈ fl) (h_fences : Comp.fences ∈ fl) (h_deadlines : Comp.deadlines ∈ fl) (h_leases : Comp.leases ∈ fl) (h_arming : Comp.arming ∈ fl) (h_heldq : Comp.heldq ∈ fl) (h_sn : Comp.sn ∈ fl) (h_dir : Comp.dir ∈ fl) (h_tack : Comp.tack ∈ fl) (h_fports : Comp.fports ∈ fl) (h_trees : Comp.trees ∈ fl) (h_counters : Comp.counters ∈ fl) (h_gctr : Comp.gctr ∈ fl) (h_rake : Comp.rake ∈ fl) (h_trace : Comp.trace ∈ fl) (h_watches : Comp.watches ∈ fl) (h_irq : Comp.irq ∈ fl) (h_mem : Comp.mem ∈ fl) (h_mmPort : Comp.mmPort ∈ fl) (h_free : Comp.free ∈ fl) (hk : Frame fl fr s) : Frame fl fr (restoreNow p c r s) := by
  unfold restoreNow
  repeat' first
    | with_reducible assumption
    | (with_reducible exact Or.inl (by assumption))
    | (with_reducible exact Or.inr rfl)
    | with_reducible apply State.modCtx_frame
    | with_reducible apply State.modWmc_frame
    | with_reducible apply State.modCtm_frame
    | with_reducible apply gcountN_frame
    | with_reducible apply State.setObj_frame
    | with_reducible apply syncHdr_frame
    | with_reducible apply addFence_frame
    | with_reducible apply restoreRing_frame
    | with_reducible apply reloadLoop_frame
    | with_reducible apply applyDefer_frame
    | with_reducible apply applySum_frame
    | with_reducible apply renewWq_frame
    | with_reducible apply postWaiting_frame
    | (with_reducible refine Frame.foldl (fun _ _ _ => ?_) ?_)
    | dsimp only

theorem restoreRead_frame {fl : List Comp} {fr : State} (p : PartId) (c : CtxId) (crcOk : Bool) (s : State) (h_cmds : Comp.cmds ∈ fl) (h_wins : Comp.wins ∈ fl) (h_parts : Comp.parts ∈ fl) (h_aps : Comp.aps ∈ fl) (h_ops : Comp.ops ∈ fl) (h_merges : Comp.merges ∈ fl) (h_rows : Comp.rows ∈ fl) (h_banks : Comp.banks ∈ fl) (h_waiters : Comp.waiters ∈ fl) (h_records : Comp.records ∈ fl) (h_early : Comp.early ∈ fl) (h_spillWakes : Comp.spillWakes ∈ fl) (h_fetching : Comp.fetching ∈ fl) (h_descs : Comp.descs ∈ fl) (h_holdings : Comp.holdings ∈ fl) (h_fences : Comp.fences ∈ fl) (h_deadlines : Comp.deadlines ∈ fl) (h_leases : Comp.leases ∈ fl) (h_arming : Comp.arming ∈ fl) (h_heldq : Comp.heldq ∈ fl) (h_sn : Comp.sn ∈ fl) (h_dir : Comp.dir ∈ fl) (h_tack : Comp.tack ∈ fl) (h_fports : Comp.fports ∈ fl) (h_trees : Comp.trees ∈ fl) (h_inq : Comp.inq ∈ fl) (h_counters : Comp.counters ∈ fl) (h_gctr : Comp.gctr ∈ fl) (h_rake : Comp.rake ∈ fl) (h_trace : Comp.trace ∈ fl) (h_watches : Comp.watches ∈ fl) (h_irq : Comp.irq ∈ fl) (h_mem : Comp.mem ∈ fl) (h_mmPort : Comp.mmPort ∈ fl) (h_free : Comp.free ∈ fl) (hk : Frame fl fr s) : Frame fl fr (restoreRead p c crcOk s) := by
  unfold restoreRead
  repeat' first
    | with_reducible assumption
    | (with_reducible exact Or.inl (by assumption))
    | (with_reducible exact Or.inr rfl)
    | with_reducible apply State.modCtx_frame
    | with_reducible apply mmRequest_frame
    | with_reducible apply gcount_frame
    | with_reducible apply report_frame
    | with_reducible apply ok_frame
    | with_reducible apply refuse_frame
    | with_reducible apply pump_frame
    | with_reducible apply wakeRows_frame
    | with_reducible apply restoreNow_frame
    | with_reducible apply Frame.ite
    | split
    | dsimp only

theorem spillOne_frame {fl : List Comp} {fr : State} (k : OKey) (s : State) (h_rows : Comp.rows ∈ fl) (h_waiters : Comp.waiters ∈ fl) (h_early : Comp.early ∈ fl) (h_descs : Comp.descs ∈ fl) (hk : Frame fl fr s) : Frame fl fr (spillOne k s) := by
  unfold spillOne
  repeat' first
    | with_reducible assumption
    | (with_reducible exact Or.inl (by assumption))
    | (with_reducible exact Or.inr rfl)
    | with_reducible apply State.modWmc_frame
    | with_reducible apply syncHdr_frame
    | with_reducible apply State.setDesc_frame
    | with_reducible apply Frame.ite
    | split
    | dsimp only

theorem spillBatch_frame {fl : List Comp} {fr : State} (k : OKey) (n : Nat) (h_rows : Comp.rows ∈ fl) (h_waiters : Comp.waiters ∈ fl) (h_early : Comp.early ∈ fl) (h_descs : Comp.descs ∈ fl) (h_counters : Comp.counters ∈ fl) (h_gctr : Comp.gctr ∈ fl) (h_mem : Comp.mem ∈ fl) (h_mmPort : Comp.mmPort ∈ fl) (h_free : Comp.free ∈ fl) : ∀ (s : State), Frame fl fr s → Frame fl fr (spillBatch k n s) := by
  induction n with
  | zero => intro s hk; unfold spillBatch; exact hk
  | succ n ih =>
    intro s hk
    unfold spillBatch
    repeat' first
      | with_reducible assumption
      | (with_reducible exact Or.inl (by assumption))
      | (with_reducible exact Or.inr rfl)
      | with_reducible apply ih
      | with_reducible apply countSpill_frame
      | with_reducible apply spillBytes_frame
      | with_reducible apply spillOne_frame
      | with_reducible apply Frame.ite
      | split
      | dsimp only

theorem spillLoop_frame {fl : List Comp} {fr : State}  (n : Nat) (h_rows : Comp.rows ∈ fl) (h_waiters : Comp.waiters ∈ fl) (h_early : Comp.early ∈ fl) (h_descs : Comp.descs ∈ fl) (h_counters : Comp.counters ∈ fl) (h_gctr : Comp.gctr ∈ fl) (h_mem : Comp.mem ∈ fl) (h_mmPort : Comp.mmPort ∈ fl) (h_free : Comp.free ∈ fl) : ∀ (s : State), Frame fl fr s → Frame fl fr (spillLoop  n s) := by
  induction n with
  | zero => intro s hk; unfold spillLoop; exact hk
  | succ n ih =>
    intro s hk
    unfold spillLoop
    repeat' first
      | with_reducible assumption
      | (with_reducible exact Or.inl (by assumption))
      | (with_reducible exact Or.inr rfl)
      | with_reducible apply ih
      | with_reducible apply spillBatch_frame
      | with_reducible apply Frame.ite
      | split
      | dsimp only

theorem spillFrom_frame {fl : List Comp} {fr : State} (q : OKey → Bool) (s : State) (h_rows : Comp.rows ∈ fl) (h_waiters : Comp.waiters ∈ fl) (h_early : Comp.early ∈ fl) (h_descs : Comp.descs ∈ fl) (h_counters : Comp.counters ∈ fl) (h_gctr : Comp.gctr ∈ fl) (h_mem : Comp.mem ∈ fl) (h_mmPort : Comp.mmPort ∈ fl) (h_free : Comp.free ∈ fl) (hk : Frame fl fr s) : Frame fl fr (spillFrom q s) := by
  unfold spillFrom
  repeat' first
    | with_reducible assumption
    | (with_reducible exact Or.inl (by assumption))
    | (with_reducible exact Or.inr rfl)
    | with_reducible apply spillBatch_frame
    | split
    | dsimp only

theorem spillStrict_frame {fl : List Comp} {fr : State} (s : State) (h_rows : Comp.rows ∈ fl) (h_waiters : Comp.waiters ∈ fl) (h_early : Comp.early ∈ fl) (h_descs : Comp.descs ∈ fl) (h_counters : Comp.counters ∈ fl) (h_gctr : Comp.gctr ∈ fl) (h_mem : Comp.mem ∈ fl) (h_mmPort : Comp.mmPort ∈ fl) (h_free : Comp.free ∈ fl) (hk : Frame fl fr s) : Frame fl fr (spillStrict s) := by
  unfold spillStrict
  repeat' first
    | with_reducible assumption
    | (with_reducible exact Or.inl (by assumption))
    | (with_reducible exact Or.inr rfl)
    | with_reducible apply spillFrom_frame
    | with_reducible apply Frame.ite
    | (with_reducible refine Frame.foldl (fun _ _ _ => ?_) ?_)
    | split
    | dsimp only

theorem waiterSpill_frame {fl : List Comp} {fr : State} (s : State) (h_cmds : Comp.cmds ∈ fl) (h_wins : Comp.wins ∈ fl) (h_parts : Comp.parts ∈ fl) (h_aps : Comp.aps ∈ fl) (h_ops : Comp.ops ∈ fl) (h_merges : Comp.merges ∈ fl) (h_rows : Comp.rows ∈ fl) (h_banks : Comp.banks ∈ fl) (h_waiters : Comp.waiters ∈ fl) (h_records : Comp.records ∈ fl) (h_early : Comp.early ∈ fl) (h_spillWakes : Comp.spillWakes ∈ fl) (h_fetching : Comp.fetching ∈ fl) (h_descs : Comp.descs ∈ fl) (h_holdings : Comp.holdings ∈ fl) (h_fences : Comp.fences ∈ fl) (h_deadlines : Comp.deadlines ∈ fl) (h_leases : Comp.leases ∈ fl) (h_arming : Comp.arming ∈ fl) (h_heldq : Comp.heldq ∈ fl) (h_sn : Comp.sn ∈ fl) (h_dir : Comp.dir ∈ fl) (h_tack : Comp.tack ∈ fl) (h_fports : Comp.fports ∈ fl) (h_trees : Comp.trees ∈ fl) (h_inq : Comp.inq ∈ fl) (h_counters : Comp.counters ∈ fl) (h_gctr : Comp.gctr ∈ fl) (h_rake : Comp.rake ∈ fl) (h_trace : Comp.trace ∈ fl) (h_watches : Comp.watches ∈ fl) (h_irq : Comp.irq ∈ fl) (h_mem : Comp.mem ∈ fl) (h_mmPort : Comp.mmPort ∈ fl) (h_free : Comp.free ∈ fl) (hk : Frame fl fr s) : Frame fl fr (waiterSpill s) := by
  unfold waiterSpill
  repeat' first
    | with_reducible assumption
    | (with_reducible exact Or.inl (by assumption))
    | (with_reducible exact Or.inr rfl)
    | with_reducible apply pump_frame
    | with_reducible apply spillLoop_frame
    | with_reducible apply spillStrict_frame
    | with_reducible apply Frame.ite
    | split
    | dsimp only

theorem waiterReload_frame {fl : List Comp} {fr : State} (s : State) (h_rows : Comp.rows ∈ fl) (h_waiters : Comp.waiters ∈ fl) (h_early : Comp.early ∈ fl) (h_descs : Comp.descs ∈ fl) (h_gctr : Comp.gctr ∈ fl) (h_mmPort : Comp.mmPort ∈ fl) (h_free : Comp.free ∈ fl) (hk : Frame fl fr s) : Frame fl fr (waiterReload s) := by
  unfold waiterReload
  repeat' first
    | with_reducible assumption
    | (with_reducible exact Or.inl (by assumption))
    | (with_reducible exact Or.inr rfl)
    | with_reducible apply reloadLoop_frame
    | with_reducible apply Frame.ite
    | split
    | dsimp only

theorem spilledWake_frame {fl : List Comp} {fr : State} (s : State) (h_cmds : Comp.cmds ∈ fl) (h_wins : Comp.wins ∈ fl) (h_parts : Comp.parts ∈ fl) (h_aps : Comp.aps ∈ fl) (h_ops : Comp.ops ∈ fl) (h_merges : Comp.merges ∈ fl) (h_rows : Comp.rows ∈ fl) (h_banks : Comp.banks ∈ fl) (h_waiters : Comp.waiters ∈ fl) (h_records : Comp.records ∈ fl) (h_early : Comp.early ∈ fl) (h_spillWakes : Comp.spillWakes ∈ fl) (h_fetching : Comp.fetching ∈ fl) (h_descs : Comp.descs ∈ fl) (h_holdings : Comp.holdings ∈ fl) (h_fences : Comp.fences ∈ fl) (h_deadlines : Comp.deadlines ∈ fl) (h_leases : Comp.leases ∈ fl) (h_arming : Comp.arming ∈ fl) (h_heldq : Comp.heldq ∈ fl) (h_sn : Comp.sn ∈ fl) (h_dir : Comp.dir ∈ fl) (h_tack : Comp.tack ∈ fl) (h_fports : Comp.fports ∈ fl) (h_trees : Comp.trees ∈ fl) (h_inq : Comp.inq ∈ fl) (h_counters : Comp.counters ∈ fl) (h_gctr : Comp.gctr ∈ fl) (h_rake : Comp.rake ∈ fl) (h_trace : Comp.trace ∈ fl) (h_watches : Comp.watches ∈ fl) (h_irq : Comp.irq ∈ fl) (h_mem : Comp.mem ∈ fl) (h_mmPort : Comp.mmPort ∈ fl) (h_free : Comp.free ∈ fl) (hk : Frame fl fr s) : Frame fl fr (spilledWake s) := by
  unfold spilledWake
  repeat' first
    | with_reducible assumption
    | (with_reducible exact Or.inl (by assumption))
    | (with_reducible exact Or.inr rfl)
    | with_reducible apply State.modWmc_frame
    | with_reducible apply count_frame
    | with_reducible apply sendWake_frame
    | with_reducible apply pump_frame
    | with_reducible apply spillFetch_frame
    | with_reducible apply Frame.ite
    | split
    | dsimp only

theorem entryFetch_frame {fl : List Comp} {fr : State} (k : OKey) (s : State) (h_cmds : Comp.cmds ∈ fl) (h_wins : Comp.wins ∈ fl) (h_parts : Comp.parts ∈ fl) (h_aps : Comp.aps ∈ fl) (h_ops : Comp.ops ∈ fl) (h_merges : Comp.merges ∈ fl) (h_rows : Comp.rows ∈ fl) (h_banks : Comp.banks ∈ fl) (h_waiters : Comp.waiters ∈ fl) (h_records : Comp.records ∈ fl) (h_early : Comp.early ∈ fl) (h_spillWakes : Comp.spillWakes ∈ fl) (h_fetching : Comp.fetching ∈ fl) (h_descs : Comp.descs ∈ fl) (h_holdings : Comp.holdings ∈ fl) (h_fences : Comp.fences ∈ fl) (h_deadlines : Comp.deadlines ∈ fl) (h_leases : Comp.leases ∈ fl) (h_arming : Comp.arming ∈ fl) (h_heldq : Comp.heldq ∈ fl) (h_sn : Comp.sn ∈ fl) (h_dir : Comp.dir ∈ fl) (h_tack : Comp.tack ∈ fl) (h_fports : Comp.fports ∈ fl) (h_trees : Comp.trees ∈ fl) (h_inq : Comp.inq ∈ fl) (h_counters : Comp.counters ∈ fl) (h_gctr : Comp.gctr ∈ fl) (h_rake : Comp.rake ∈ fl) (h_trace : Comp.trace ∈ fl) (h_watches : Comp.watches ∈ fl) (h_irq : Comp.irq ∈ fl) (h_mem : Comp.mem ∈ fl) (h_mmPort : Comp.mmPort ∈ fl) (h_free : Comp.free ∈ fl) (hk : Frame fl fr s) : Frame fl fr (entryFetch k s) := by
  unfold entryFetch
  repeat' first
    | with_reducible assumption
    | (with_reducible exact Or.inl (by assumption))
    | (with_reducible exact Or.inr rfl)
    | with_reducible apply State.modWmc_frame
    | with_reducible apply pump_frame
    | with_reducible apply fetchIn_frame
    | with_reducible apply Frame.ite
    | split
    | dsimp only

end Sys2Proof.Machine
end

