-- ==== Sys2Proof/Laws/FrameLoad.lean ====
section
/-! SUPPORT. What the effects defined in ObjCmds, Images, Partitions, Service leave unchanged: each lemma names every component its function may write. -/

namespace Sys2Proof.Machine

theorem placeObject_frame {fl : List Comp} {fr : State} (k : OKey) (b : Body) (s : State) (h_rows : Comp.rows ∈ fl) (hk : Frame fl fr s) : Frame fl fr (placeObject k b s) := by
  unfold placeObject
  repeat' first
    | with_reducible assumption
    | (with_reducible exact Or.inl (by assumption))
    | (with_reducible exact Or.inr rfl)
    | with_reducible apply State.setObj_frame
    | dsimp only

theorem placeRing_frame {fl : List Comp} {fr : State} (k : OKey) (d : Desc) (s : State) (h_rows : Comp.rows ∈ fl) (h_descs : Comp.descs ∈ fl) (hk : Frame fl fr s) : Frame fl fr (placeRing k d s).2 := by
  unfold placeRing
  repeat' first
    | with_reducible assumption
    | (with_reducible exact Or.inl (by assumption))
    | (with_reducible exact Or.inr rfl)
    | with_reducible apply State.setObj_frame
    | with_reducible apply State.setDesc_frame
    | dsimp only

theorem placeRing_frameE {fl : List Comp} {fr : State} (k : OKey) (d : Desc) (s : State) {kv} {kt : State} (h_rows : Comp.rows ∈ fl) (h_descs : Comp.descs ∈ fl) (hk : Frame fl fr s) (he : placeRing k d s = (kv, kt)) : Frame fl fr kt := by
  have h := placeRing_frame (fl := fl) (fr := fr) k d s h_rows h_descs hk
  rw [he] at h; exact h

theorem objCreate_frame {fl : List Comp} {fr : State} (c : Cmd) (s : State) (h_cmds : Comp.cmds ∈ fl) (h_wins : Comp.wins ∈ fl) (h_aps : Comp.aps ∈ fl) (h_ops : Comp.ops ∈ fl) (h_rows : Comp.rows ∈ fl) (h_banks : Comp.banks ∈ fl) (h_descs : Comp.descs ∈ fl) (h_fports : Comp.fports ∈ fl) (h_counters : Comp.counters ∈ fl) (h_gctr : Comp.gctr ∈ fl) (h_rake : Comp.rake ∈ fl) (h_trace : Comp.trace ∈ fl) (h_irq : Comp.irq ∈ fl) (h_mem : Comp.mem ∈ fl) (h_mmPort : Comp.mmPort ∈ fl) (hk : Frame fl fr s) : Frame fl fr (objCreate c s) := by
  unfold objCreate
  repeat' first
    | with_reducible assumption
    | (with_reducible exact Or.inl (by assumption))
    | (with_reducible exact Or.inr rfl)
    | with_reducible apply inner_frame
    | with_reducible apply wakeSlot_frame
    | with_reducible apply ok_frame
    | with_reducible apply refuse_frame
    | with_reducible apply placeObject_frame
    | with_reducible apply placeRing_frame
    | (refine placeRing_frameE _ _ _ (by assumption) (by assumption) ?_ (by with_reducible assumption))
    | with_reducible apply Frame.ite
    | split
    | dsimp only

theorem objDestroy_frame {fl : List Comp} {fr : State} (c : Cmd) (s : State) (h_cmds : Comp.cmds ∈ fl) (h_wins : Comp.wins ∈ fl) (h_parts : Comp.parts ∈ fl) (h_aps : Comp.aps ∈ fl) (h_ops : Comp.ops ∈ fl) (h_due : Comp.due ∈ fl) (h_rows : Comp.rows ∈ fl) (h_waiters : Comp.waiters ∈ fl) (h_records : Comp.records ∈ fl) (h_early : Comp.early ∈ fl) (h_spillWakes : Comp.spillWakes ∈ fl) (h_fetching : Comp.fetching ∈ fl) (h_descs : Comp.descs ∈ fl) (h_holdings : Comp.holdings ∈ fl) (h_fences : Comp.fences ∈ fl) (h_deadlines : Comp.deadlines ∈ fl) (h_leases : Comp.leases ∈ fl) (h_arming : Comp.arming ∈ fl) (h_heldq : Comp.heldq ∈ fl) (h_decs : Comp.decs ∈ fl) (h_sn : Comp.sn ∈ fl) (h_fports : Comp.fports ∈ fl) (h_counters : Comp.counters ∈ fl) (h_gctr : Comp.gctr ∈ fl) (h_rake : Comp.rake ∈ fl) (h_trace : Comp.trace ∈ fl) (h_watches : Comp.watches ∈ fl) (h_irq : Comp.irq ∈ fl) (h_mem : Comp.mem ∈ fl) (h_mmPort : Comp.mmPort ∈ fl) (h_free : Comp.free ∈ fl) (hk : Frame fl fr s) : Frame fl fr (objDestroy c s) := by
  unfold objDestroy
  repeat' first
    | with_reducible assumption
    | (with_reducible exact Or.inl (by assumption))
    | (with_reducible exact Or.inr rfl)
    | with_reducible apply inner_frame
    | with_reducible apply ok_frame
    | with_reducible apply refuse_frame
    | with_reducible apply destroyObject_frame
    | with_reducible apply Frame.ite
    | split
    | dsimp only

theorem objRead_frame {fl : List Comp} {fr : State} (c : Cmd) (s : State) (h_cmds : Comp.cmds ∈ fl) (h_wins : Comp.wins ∈ fl) (h_aps : Comp.aps ∈ fl) (h_ops : Comp.ops ∈ fl) (h_fports : Comp.fports ∈ fl) (h_counters : Comp.counters ∈ fl) (h_gctr : Comp.gctr ∈ fl) (h_rake : Comp.rake ∈ fl) (h_trace : Comp.trace ∈ fl) (h_irq : Comp.irq ∈ fl) (h_mem : Comp.mem ∈ fl) (h_mmPort : Comp.mmPort ∈ fl) (hk : Frame fl fr s) : Frame fl fr (objRead c s) := by
  unfold objRead
  repeat' first
    | with_reducible assumption
    | (with_reducible exact Or.inl (by assumption))
    | (with_reducible exact Or.inr rfl)
    | with_reducible apply inner_frame
    | with_reducible apply ok_frame
    | with_reducible apply refuse_frame
    | with_reducible apply Frame.ite
    | split
    | dsimp only

theorem spillShare_frame {fl : List Comp} {fr : State} (p : PartId) (n : Nat) (m : Nat) (h_rows : Comp.rows ∈ fl) (h_waiters : Comp.waiters ∈ fl) (h_early : Comp.early ∈ fl) (h_descs : Comp.descs ∈ fl) (h_counters : Comp.counters ∈ fl) (h_gctr : Comp.gctr ∈ fl) (h_mem : Comp.mem ∈ fl) (h_mmPort : Comp.mmPort ∈ fl) (h_free : Comp.free ∈ fl) : ∀ (s : State), Frame fl fr s → Frame fl fr (spillShare p n m s) := by
  induction m with
  | zero => intro s hk; unfold spillShare; exact hk
  | succ n ih =>
    intro s hk
    unfold spillShare
    repeat' first
      | with_reducible assumption
      | (with_reducible exact Or.inl (by assumption))
      | (with_reducible exact Or.inr rfl)
      | with_reducible apply ih
      | with_reducible apply spillFrom_frame
      | with_reducible apply Frame.ite
      | split
      | dsimp only

theorem roomForRecords_frame {fl : List Comp} {fr : State} (p : PartId) (n : Nat) (s : State) {kt : State} (h_rows : Comp.rows ∈ fl) (h_waiters : Comp.waiters ∈ fl) (h_early : Comp.early ∈ fl) (h_descs : Comp.descs ∈ fl) (h_counters : Comp.counters ∈ fl) (h_gctr : Comp.gctr ∈ fl) (h_mem : Comp.mem ∈ fl) (h_mmPort : Comp.mmPort ∈ fl) (h_free : Comp.free ∈ fl) (hk : Frame fl fr s) (he : roomForRecords p n s = some kt) : Frame fl fr kt := by
  unfold roomForRecords at he
  repeat' first
    | (cases he; done)
    | (injection he with he; subst he)
    | (injection he with he; injection he with he1 he2; subst he2)
    | (injection he with he)
    | split at he
    | dsimp only at he
    | with_reducible assumption
    | (with_reducible exact Or.inl (by assumption))
    | (with_reducible exact Or.inr rfl)
    | with_reducible apply spillLoop_frame
    | with_reducible apply spillShare_frame
    | with_reducible apply Frame.ite
    | split
    | dsimp only

theorem barrierRoster_frame {fl : List Comp} {fr : State} (c : Cmd) (s : State) (h_cmds : Comp.cmds ∈ fl) (h_wins : Comp.wins ∈ fl) (h_aps : Comp.aps ∈ fl) (h_ops : Comp.ops ∈ fl) (h_rows : Comp.rows ∈ fl) (h_waiters : Comp.waiters ∈ fl) (h_records : Comp.records ∈ fl) (h_early : Comp.early ∈ fl) (h_descs : Comp.descs ∈ fl) (h_fports : Comp.fports ∈ fl) (h_counters : Comp.counters ∈ fl) (h_gctr : Comp.gctr ∈ fl) (h_rake : Comp.rake ∈ fl) (h_trace : Comp.trace ∈ fl) (h_irq : Comp.irq ∈ fl) (h_mem : Comp.mem ∈ fl) (h_mmPort : Comp.mmPort ∈ fl) (h_free : Comp.free ∈ fl) (hk : Frame fl fr s) : Frame fl fr (barrierRoster c s) := by
  unfold barrierRoster
  repeat' first
    | with_reducible assumption
    | (with_reducible exact Or.inl (by assumption))
    | (with_reducible exact Or.inr rfl)
    | with_reducible apply State.modWmc_frame
    | with_reducible apply mmRequest_frame
    | with_reducible apply inner_frame
    | with_reducible apply setRecord_frame
    | with_reducible apply ok_frame
    | with_reducible apply refuse_frame
    | with_reducible apply memFail_frame
    | (refine roomForRecords_frame _ _ _ (by assumption) (by assumption) (by assumption) (by assumption) (by assumption) (by assumption) (by assumption) (by assumption) (by assumption) ?_ (by with_reducible assumption))
    | with_reducible apply Frame.ite
    | split
    | dsimp only

theorem lockForce_frame {fl : List Comp} {fr : State} (c : Cmd) (s : State) (h_cmds : Comp.cmds ∈ fl) (h_wins : Comp.wins ∈ fl) (h_aps : Comp.aps ∈ fl) (h_ops : Comp.ops ∈ fl) (h_rows : Comp.rows ∈ fl) (h_waiters : Comp.waiters ∈ fl) (h_spillWakes : Comp.spillWakes ∈ fl) (h_holdings : Comp.holdings ∈ fl) (h_fences : Comp.fences ∈ fl) (h_leases : Comp.leases ∈ fl) (h_sn : Comp.sn ∈ fl) (h_fports : Comp.fports ∈ fl) (h_counters : Comp.counters ∈ fl) (h_gctr : Comp.gctr ∈ fl) (h_rake : Comp.rake ∈ fl) (h_trace : Comp.trace ∈ fl) (h_irq : Comp.irq ∈ fl) (h_mem : Comp.mem ∈ fl) (h_mmPort : Comp.mmPort ∈ fl) (hk : Frame fl fr s) : Frame fl fr (lockForce c s) := by
  unfold lockForce
  repeat' first
    | with_reducible assumption
    | (with_reducible exact Or.inl (by assumption))
    | (with_reducible exact Or.inr rfl)
    | with_reducible apply inner_frame
    | with_reducible apply endHolding_frame
    | with_reducible apply ok_frame
    | with_reducible apply refuse_frame
    | with_reducible apply Frame.ite
    | split
    | dsimp only

theorem ringReset_frame {fl : List Comp} {fr : State} (c : Cmd) (s : State) (h_cmds : Comp.cmds ∈ fl) (h_wins : Comp.wins ∈ fl) (h_aps : Comp.aps ∈ fl) (h_ops : Comp.ops ∈ fl) (h_rows : Comp.rows ∈ fl) (h_descs : Comp.descs ∈ fl) (h_fports : Comp.fports ∈ fl) (h_counters : Comp.counters ∈ fl) (h_gctr : Comp.gctr ∈ fl) (h_rake : Comp.rake ∈ fl) (h_trace : Comp.trace ∈ fl) (h_irq : Comp.irq ∈ fl) (h_mem : Comp.mem ∈ fl) (h_mmPort : Comp.mmPort ∈ fl) (hk : Frame fl fr s) : Frame fl fr (ringReset c s) := by
  unfold ringReset
  repeat' first
    | with_reducible assumption
    | (with_reducible exact Or.inl (by assumption))
    | (with_reducible exact Or.inr rfl)
    | with_reducible apply inner_frame
    | with_reducible apply State.setDesc_frame
    | with_reducible apply closeWindow_frame
    | with_reducible apply ok_frame
    | with_reducible apply refuse_frame
    | with_reducible apply Frame.ite
    | split
    | dsimp only

theorem openWindow_frame {fl : List Comp} {fr : State} (c : Cmd) (i : Nat) (d : Desc) (r : Ring) (s : State) (h_cmds : Comp.cmds ∈ fl) (h_wins : Comp.wins ∈ fl) (h_aps : Comp.aps ∈ fl) (h_ops : Comp.ops ∈ fl) (h_rows : Comp.rows ∈ fl) (h_descs : Comp.descs ∈ fl) (h_fports : Comp.fports ∈ fl) (h_counters : Comp.counters ∈ fl) (h_gctr : Comp.gctr ∈ fl) (h_rake : Comp.rake ∈ fl) (h_trace : Comp.trace ∈ fl) (h_irq : Comp.irq ∈ fl) (h_mem : Comp.mem ∈ fl) (h_mmPort : Comp.mmPort ∈ fl) (h_free : Comp.free ∈ fl) (hk : Frame fl fr s) : Frame fl fr (openWindow c i d r s) := by
  unfold openWindow
  repeat' first
    | with_reducible assumption
    | (with_reducible exact Or.inl (by assumption))
    | (with_reducible exact Or.inr rfl)
    | with_reducible apply fresh_frame
    | (refine fresh_frameE _ (by assumption) ?_ (by with_reducible assumption))
    | with_reducible apply inner_frame
    | with_reducible apply State.setBody_frame
    | with_reducible apply State.setDesc_frame
    | with_reducible apply ok_frame
    | dsimp only

theorem windowOpen_frame {fl : List Comp} {fr : State} (c : Cmd) (s : State) (h_cmds : Comp.cmds ∈ fl) (h_wins : Comp.wins ∈ fl) (h_aps : Comp.aps ∈ fl) (h_ops : Comp.ops ∈ fl) (h_rows : Comp.rows ∈ fl) (h_descs : Comp.descs ∈ fl) (h_fports : Comp.fports ∈ fl) (h_counters : Comp.counters ∈ fl) (h_gctr : Comp.gctr ∈ fl) (h_rake : Comp.rake ∈ fl) (h_trace : Comp.trace ∈ fl) (h_irq : Comp.irq ∈ fl) (h_mem : Comp.mem ∈ fl) (h_mmPort : Comp.mmPort ∈ fl) (h_free : Comp.free ∈ fl) (hk : Frame fl fr s) : Frame fl fr (windowOpen c s) := by
  unfold windowOpen
  repeat' first
    | with_reducible assumption
    | (with_reducible exact Or.inl (by assumption))
    | (with_reducible exact Or.inr rfl)
    | with_reducible apply refuse_frame
    | with_reducible apply openWindow_frame
    | with_reducible apply Frame.ite
    | split
    | dsimp only

theorem windowClose_frame {fl : List Comp} {fr : State} (c : Cmd) (s : State) (h_cmds : Comp.cmds ∈ fl) (h_wins : Comp.wins ∈ fl) (h_aps : Comp.aps ∈ fl) (h_ops : Comp.ops ∈ fl) (h_rows : Comp.rows ∈ fl) (h_waiters : Comp.waiters ∈ fl) (h_spillWakes : Comp.spillWakes ∈ fl) (h_descs : Comp.descs ∈ fl) (h_fports : Comp.fports ∈ fl) (h_counters : Comp.counters ∈ fl) (h_gctr : Comp.gctr ∈ fl) (h_rake : Comp.rake ∈ fl) (h_trace : Comp.trace ∈ fl) (h_irq : Comp.irq ∈ fl) (h_mem : Comp.mem ∈ fl) (h_mmPort : Comp.mmPort ∈ fl) (h_free : Comp.free ∈ fl) (hk : Frame fl fr s) : Frame fl fr (windowClose c s) := by
  unfold windowClose
  repeat' first
    | with_reducible assumption
    | (with_reducible exact Or.inl (by assumption))
    | (with_reducible exact Or.inr rfl)
    | with_reducible apply inner_frame
    | with_reducible apply State.setDesc_frame
    | with_reducible apply wakeAll_frame
    | with_reducible apply takeWaiters_frame
    | (refine takeWaiters_frameE _ _ _ (by assumption) (by assumption) ?_ (by with_reducible assumption))
    | with_reducible apply closeWindow_frame
    | with_reducible apply ringAfterRemoval_frame
    | with_reducible apply ok_frame
    | with_reducible apply refuse_frame
    | with_reducible apply Frame.ite
    | split
    | dsimp only

theorem treeCmd_frame {fl : List Comp} {fr : State} (c : Cmd) (s : State) (h_cmds : Comp.cmds ∈ fl) (h_wins : Comp.wins ∈ fl) (h_aps : Comp.aps ∈ fl) (h_ops : Comp.ops ∈ fl) (h_rows : Comp.rows ∈ fl) (h_fports : Comp.fports ∈ fl) (h_trees : Comp.trees ∈ fl) (h_counters : Comp.counters ∈ fl) (h_gctr : Comp.gctr ∈ fl) (h_rake : Comp.rake ∈ fl) (h_trace : Comp.trace ∈ fl) (h_irq : Comp.irq ∈ fl) (h_mem : Comp.mem ∈ fl) (h_mmPort : Comp.mmPort ∈ fl) (hk : Frame fl fr s) : Frame fl fr (treeCmd c s) := by
  unfold treeCmd
  repeat' first
    | with_reducible assumption
    | (with_reducible exact Or.inl (by assumption))
    | (with_reducible exact Or.inr rfl)
    | with_reducible apply State.setTree_frame
    | with_reducible apply inner_frame
    | with_reducible apply State.setBody_frame
    | with_reducible apply State.modHdr_frame
    | with_reducible apply ok_frame
    | with_reducible apply refuse_frame
    | with_reducible apply Frame.ite
    | split
    | dsimp only

theorem dropWatch_frame {fl : List Comp} {fr : State} (k : OKey) (s : State) (h_wins : Comp.wins ∈ fl) (h_parts : Comp.parts ∈ fl) (h_aps : Comp.aps ∈ fl) (h_ops : Comp.ops ∈ fl) (h_rows : Comp.rows ∈ fl) (h_waiters : Comp.waiters ∈ fl) (h_records : Comp.records ∈ fl) (h_early : Comp.early ∈ fl) (h_spillWakes : Comp.spillWakes ∈ fl) (h_deadlines : Comp.deadlines ∈ fl) (h_sn : Comp.sn ∈ fl) (h_fports : Comp.fports ∈ fl) (h_trees : Comp.trees ∈ fl) (h_counters : Comp.counters ∈ fl) (h_gctr : Comp.gctr ∈ fl) (h_rake : Comp.rake ∈ fl) (h_watches : Comp.watches ∈ fl) (h_irq : Comp.irq ∈ fl) (h_free : Comp.free ∈ fl) (hk : Frame fl fr s) : Frame fl fr (dropWatch k s) := by
  unfold dropWatch
  repeat' first
    | with_reducible assumption
    | (with_reducible exact Or.inl (by assumption))
    | (with_reducible exact Or.inr rfl)
    | with_reducible apply endWatch_frame
    | with_reducible apply releaseWatched_frame
    | with_reducible apply Frame.ite
    | split
    | dsimp only

theorem watchSet_frame {fl : List Comp} {fr : State} (c : Cmd) (s : State) (h_cmds : Comp.cmds ∈ fl) (h_wins : Comp.wins ∈ fl) (h_parts : Comp.parts ∈ fl) (h_aps : Comp.aps ∈ fl) (h_ops : Comp.ops ∈ fl) (h_rows : Comp.rows ∈ fl) (h_waiters : Comp.waiters ∈ fl) (h_records : Comp.records ∈ fl) (h_early : Comp.early ∈ fl) (h_spillWakes : Comp.spillWakes ∈ fl) (h_deadlines : Comp.deadlines ∈ fl) (h_sn : Comp.sn ∈ fl) (h_fports : Comp.fports ∈ fl) (h_trees : Comp.trees ∈ fl) (h_counters : Comp.counters ∈ fl) (h_gctr : Comp.gctr ∈ fl) (h_rake : Comp.rake ∈ fl) (h_trace : Comp.trace ∈ fl) (h_watches : Comp.watches ∈ fl) (h_irq : Comp.irq ∈ fl) (h_mem : Comp.mem ∈ fl) (h_mmPort : Comp.mmPort ∈ fl) (h_free : Comp.free ∈ fl) (hk : Frame fl fr s) : Frame fl fr (watchSet c s) := by
  unfold watchSet
  repeat' first
    | with_reducible assumption
    | (with_reducible exact Or.inl (by assumption))
    | (with_reducible exact Or.inr rfl)
    | with_reducible apply State.modObs_frame
    | with_reducible apply inner_frame
    | with_reducible apply State.modHdr_frame
    | with_reducible apply ok_frame
    | with_reducible apply refuse_frame
    | with_reducible apply dropWatch_frame
    | with_reducible apply Frame.ite
    | split
    | dsimp only

theorem watchClear_frame {fl : List Comp} {fr : State} (c : Cmd) (s : State) (h_cmds : Comp.cmds ∈ fl) (h_wins : Comp.wins ∈ fl) (h_aps : Comp.aps ∈ fl) (h_ops : Comp.ops ∈ fl) (h_rows : Comp.rows ∈ fl) (h_fports : Comp.fports ∈ fl) (h_counters : Comp.counters ∈ fl) (h_gctr : Comp.gctr ∈ fl) (h_rake : Comp.rake ∈ fl) (h_trace : Comp.trace ∈ fl) (h_watches : Comp.watches ∈ fl) (h_irq : Comp.irq ∈ fl) (h_mem : Comp.mem ∈ fl) (h_mmPort : Comp.mmPort ∈ fl) (hk : Frame fl fr s) : Frame fl fr (watchClear c s) := by
  unfold watchClear
  repeat' first
    | with_reducible assumption
    | (with_reducible exact Or.inl (by assumption))
    | (with_reducible exact Or.inr rfl)
    | with_reducible apply State.modObs_frame
    | with_reducible apply inner_frame
    | with_reducible apply endWatch_frame
    | with_reducible apply ok_frame
    | with_reducible apply refuse_frame
    | with_reducible apply Frame.ite
    | split
    | dsimp only

theorem latchEnd_frame {fl : List Comp} {fr : State} (p : PartId) (s : State) (h_counters : Comp.counters ∈ fl) (hk : Frame fl fr s) : Frame fl fr (latchEnd p s) := by
  unfold latchEnd
  repeat' first
    | with_reducible assumption
    | (with_reducible exact Or.inl (by assumption))
    | (with_reducible exact Or.inr rfl)
    | with_reducible apply State.modObs_frame
    | (with_reducible refine Frame.foldl (fun _ _ _ => ?_) ?_)
    | dsimp only

theorem latchBegin_frame {fl : List Comp} {fr : State} (p : PartId) (s : State) (h_counters : Comp.counters ∈ fl) (hk : Frame fl fr s) : Frame fl fr (latchBegin p s) := by
  unfold latchBegin
  repeat' first
    | with_reducible assumption
    | (with_reducible exact Or.inl (by assumption))
    | (with_reducible exact Or.inr rfl)
    | with_reducible apply State.modObs_frame
    | with_reducible apply latchEnd_frame
    | (with_reducible refine Frame.foldl (fun _ _ _ => ?_) ?_)
    | dsimp only

theorem sectionBegin_frame {fl : List Comp} {fr : State} (c : Cmd) (s : State) (h_cmds : Comp.cmds ∈ fl) (h_wins : Comp.wins ∈ fl) (h_parts : Comp.parts ∈ fl) (h_aps : Comp.aps ∈ fl) (h_ops : Comp.ops ∈ fl) (h_fports : Comp.fports ∈ fl) (h_counters : Comp.counters ∈ fl) (h_gctr : Comp.gctr ∈ fl) (h_rake : Comp.rake ∈ fl) (h_trace : Comp.trace ∈ fl) (h_irq : Comp.irq ∈ fl) (h_mem : Comp.mem ∈ fl) (h_mmPort : Comp.mmPort ∈ fl) (hk : Frame fl fr s) : Frame fl fr (sectionBegin c s) := by
  unfold sectionBegin
  repeat' first
    | with_reducible assumption
    | (with_reducible exact Or.inl (by assumption))
    | (with_reducible exact Or.inr rfl)
    | with_reducible apply State.modPart_frame
    | with_reducible apply refuse_frame
    | with_reducible apply startWait_frame
    | with_reducible apply Frame.ite
    | split
    | dsimp only

theorem sectionEnd_frame {fl : List Comp} {fr : State} (c : Cmd) (s : State) (h_cmds : Comp.cmds ∈ fl) (h_wins : Comp.wins ∈ fl) (h_parts : Comp.parts ∈ fl) (h_aps : Comp.aps ∈ fl) (h_ops : Comp.ops ∈ fl) (h_fports : Comp.fports ∈ fl) (h_counters : Comp.counters ∈ fl) (h_gctr : Comp.gctr ∈ fl) (h_rake : Comp.rake ∈ fl) (h_trace : Comp.trace ∈ fl) (h_irq : Comp.irq ∈ fl) (h_mem : Comp.mem ∈ fl) (h_mmPort : Comp.mmPort ∈ fl) (hk : Frame fl fr s) : Frame fl fr (sectionEnd c s) := by
  unfold sectionEnd
  repeat' first
    | with_reducible assumption
    | (with_reducible exact Or.inl (by assumption))
    | (with_reducible exact Or.inr rfl)
    | with_reducible apply State.modPart_frame
    | with_reducible apply ok_frame
    | with_reducible apply refuse_frame
    | with_reducible apply latchEnd_frame
    | with_reducible apply Frame.ite
    | split
    | dsimp only

theorem kernelFence_frame {fl : List Comp} {fr : State} (p : PartId) (s : State) (h_cmds : Comp.cmds ∈ fl) (h_wins : Comp.wins ∈ fl) (h_parts : Comp.parts ∈ fl) (h_sn : Comp.sn ∈ fl) (h_counters : Comp.counters ∈ fl) (hk : Frame fl fr s) : Frame fl fr (kernelFence p s) := by
  unfold kernelFence
  repeat' first
    | with_reducible assumption
    | (with_reducible exact Or.inl (by assumption))
    | (with_reducible exact Or.inr rfl)
    | with_reducible apply State.modPart_frame
    | with_reducible apply snManage_frame
    | with_reducible apply setPhase_frame
    | with_reducible apply Frame.ite
    | split
    | dsimp only

theorem openSection_frame {fl : List Comp} {fr : State} (c : Cmd) (seq : BitVec 16) (s : State) (h_cmds : Comp.cmds ∈ fl) (h_wins : Comp.wins ∈ fl) (h_parts : Comp.parts ∈ fl) (h_aps : Comp.aps ∈ fl) (h_ops : Comp.ops ∈ fl) (h_fports : Comp.fports ∈ fl) (h_counters : Comp.counters ∈ fl) (h_gctr : Comp.gctr ∈ fl) (h_rake : Comp.rake ∈ fl) (h_trace : Comp.trace ∈ fl) (h_irq : Comp.irq ∈ fl) (h_mem : Comp.mem ∈ fl) (h_mmPort : Comp.mmPort ∈ fl) (hk : Frame fl fr s) : Frame fl fr (openSection c seq s) := by
  unfold openSection
  repeat' first
    | with_reducible assumption
    | (with_reducible exact Or.inl (by assumption))
    | (with_reducible exact Or.inr rfl)
    | with_reducible apply State.modPart_frame
    | with_reducible apply ok_frame
    | with_reducible apply latchBegin_frame
    | dsimp only

theorem sectionTimeout_frame {fl : List Comp} {fr : State} (p : PartId) (edges : Nat) (s : State) (h_time : Comp.time ∈ fl) (h_clock : Comp.clock ∈ fl) (h_cmds : Comp.cmds ∈ fl) (h_wins : Comp.wins ∈ fl) (h_parts : Comp.parts ∈ fl) (h_aps : Comp.aps ∈ fl) (h_ops : Comp.ops ∈ fl) (h_merges : Comp.merges ∈ fl) (h_rows : Comp.rows ∈ fl) (h_banks : Comp.banks ∈ fl) (h_waiters : Comp.waiters ∈ fl) (h_records : Comp.records ∈ fl) (h_early : Comp.early ∈ fl) (h_spillWakes : Comp.spillWakes ∈ fl) (h_fetching : Comp.fetching ∈ fl) (h_descs : Comp.descs ∈ fl) (h_holdings : Comp.holdings ∈ fl) (h_fences : Comp.fences ∈ fl) (h_deadlines : Comp.deadlines ∈ fl) (h_leases : Comp.leases ∈ fl) (h_arming : Comp.arming ∈ fl) (h_heldq : Comp.heldq ∈ fl) (h_sn : Comp.sn ∈ fl) (h_dir : Comp.dir ∈ fl) (h_tack : Comp.tack ∈ fl) (h_fports : Comp.fports ∈ fl) (h_trees : Comp.trees ∈ fl) (h_inq : Comp.inq ∈ fl) (h_counters : Comp.counters ∈ fl) (h_gctr : Comp.gctr ∈ fl) (h_rake : Comp.rake ∈ fl) (h_trace : Comp.trace ∈ fl) (h_watches : Comp.watches ∈ fl) (h_irq : Comp.irq ∈ fl) (h_mem : Comp.mem ∈ fl) (h_mmPort : Comp.mmPort ∈ fl) (h_free : Comp.free ∈ fl) (hk : Frame fl fr s) : Frame fl fr (sectionTimeout p edges s) := by
  unfold sectionTimeout
  repeat' first
    | with_reducible assumption
    | (with_reducible exact Or.inl (by assumption))
    | (with_reducible exact Or.inr rfl)
    | with_reducible apply State.modSn_frame
    | with_reducible apply elapse_frame
    | with_reducible apply refuse_frame
    | with_reducible apply pump_frame
    | with_reducible apply Frame.ite
    | split
    | dsimp only

theorem unmatched_frame {fl : List Comp} {fr : State} (p : PartId) (s : State) (h_gctr : Comp.gctr ∈ fl) (h_rake : Comp.rake ∈ fl) (h_irq : Comp.irq ∈ fl) (hk : Frame fl fr s) : Frame fl fr (unmatched p s) := by
  unfold unmatched
  repeat' first
    | with_reducible assumption
    | (with_reducible exact Or.inl (by assumption))
    | (with_reducible exact Or.inr rfl)
    | with_reducible apply report_frame
    | dsimp only

theorem snAck_frame {fl : List Comp} {fr : State} (d : Word) (s : State) (h_cmds : Comp.cmds ∈ fl) (h_wins : Comp.wins ∈ fl) (h_parts : Comp.parts ∈ fl) (h_aps : Comp.aps ∈ fl) (h_ops : Comp.ops ∈ fl) (h_merges : Comp.merges ∈ fl) (h_rows : Comp.rows ∈ fl) (h_banks : Comp.banks ∈ fl) (h_waiters : Comp.waiters ∈ fl) (h_records : Comp.records ∈ fl) (h_early : Comp.early ∈ fl) (h_spillWakes : Comp.spillWakes ∈ fl) (h_fetching : Comp.fetching ∈ fl) (h_descs : Comp.descs ∈ fl) (h_holdings : Comp.holdings ∈ fl) (h_fences : Comp.fences ∈ fl) (h_deadlines : Comp.deadlines ∈ fl) (h_leases : Comp.leases ∈ fl) (h_arming : Comp.arming ∈ fl) (h_heldq : Comp.heldq ∈ fl) (h_sn : Comp.sn ∈ fl) (h_dir : Comp.dir ∈ fl) (h_tack : Comp.tack ∈ fl) (h_fports : Comp.fports ∈ fl) (h_trees : Comp.trees ∈ fl) (h_inq : Comp.inq ∈ fl) (h_counters : Comp.counters ∈ fl) (h_gctr : Comp.gctr ∈ fl) (h_rake : Comp.rake ∈ fl) (h_trace : Comp.trace ∈ fl) (h_watches : Comp.watches ∈ fl) (h_irq : Comp.irq ∈ fl) (h_mem : Comp.mem ∈ fl) (h_mmPort : Comp.mmPort ∈ fl) (h_free : Comp.free ∈ fl) (hk : Frame fl fr s) : Frame fl fr (snAck d s) := by
  unfold snAck
  repeat' first
    | with_reducible assumption
    | (with_reducible exact Or.inl (by assumption))
    | (with_reducible exact Or.inr rfl)
    | with_reducible apply State.modSn_frame
    | with_reducible apply State.modObs_frame
    | with_reducible apply pump_frame
    | with_reducible apply openSection_frame
    | with_reducible apply unmatched_frame
    | with_reducible apply Frame.ite
    | split
    | dsimp only

theorem destroyCtxs_frame {fl : List Comp} {fr : State} (p : PartId) (s : State) (h_wins : Comp.wins ∈ fl) (h_parts : Comp.parts ∈ fl) (h_aps : Comp.aps ∈ fl) (h_ops : Comp.ops ∈ fl) (h_due : Comp.due ∈ fl) (h_rows : Comp.rows ∈ fl) (h_banks : Comp.banks ∈ fl) (h_waiters : Comp.waiters ∈ fl) (h_records : Comp.records ∈ fl) (h_early : Comp.early ∈ fl) (h_spillWakes : Comp.spillWakes ∈ fl) (h_fetching : Comp.fetching ∈ fl) (h_descs : Comp.descs ∈ fl) (h_holdings : Comp.holdings ∈ fl) (h_fences : Comp.fences ∈ fl) (h_deadlines : Comp.deadlines ∈ fl) (h_leases : Comp.leases ∈ fl) (h_arming : Comp.arming ∈ fl) (h_heldq : Comp.heldq ∈ fl) (h_decs : Comp.decs ∈ fl) (h_sn : Comp.sn ∈ fl) (h_dir : Comp.dir ∈ fl) (h_tack : Comp.tack ∈ fl) (h_fports : Comp.fports ∈ fl) (h_counters : Comp.counters ∈ fl) (h_gctr : Comp.gctr ∈ fl) (h_rake : Comp.rake ∈ fl) (h_watches : Comp.watches ∈ fl) (h_irq : Comp.irq ∈ fl) (h_mem : Comp.mem ∈ fl) (h_mmPort : Comp.mmPort ∈ fl) (h_free : Comp.free ∈ fl) (hk : Frame fl fr s) : Frame fl fr (destroyCtxs p s) := by
  unfold destroyCtxs
  repeat' first
    | with_reducible assumption
    | (with_reducible exact Or.inl (by assumption))
    | (with_reducible exact Or.inr rfl)
    | with_reducible apply destroyCtx_frame
    | (refine destroyCtx_frameE _ _ _ (by assumption) (by assumption) (by assumption) (by assumption) (by assumption) (by assumption) (by assumption) (by assumption) (by assumption) (by assumption) (by assumption) (by assumption) (by assumption) (by assumption) (by assumption) (by assumption) (by assumption) (by assumption) (by assumption) (by assumption) (by assumption) (by assumption) (by assumption) (by assumption) (by assumption) (by assumption) (by assumption) (by assumption) (by assumption) (by assumption) (by assumption) (by assumption) ?_ (by with_reducible assumption))
    | (with_reducible refine Frame.foldl (fun _ _ _ => ?_) ?_)
    | dsimp only

theorem createCtxs_frame {fl : List Comp} {fr : State} (p : PartId) (l : List ImgCtx) (h_dir : Comp.dir ∈ fl) : ∀ {s kt : State}, Frame fl fr s → createCtxs p l s = some kt → Frame fl fr kt := by
  induction l with
  | nil => intro s kt hk he; cases he; exact hk
  | cons x l ih =>
    intro s kt hk he
    unfold createCtxs at he
    split at he
    · cases he
    · split at he
      · cases he
      · exact ih (State.setCtx_frame _ _ _ _ (by assumption) hk) he

theorem allocDescs_frame {fl : List Comp} {fr : State} (p : PartId) (n : Nat) (h_descs : Comp.descs ∈ fl) : ∀ (s : State), Frame fl fr s → Frame fl fr (allocDescs p n s).2 := by
  induction n with
  | zero => intro s hk; exact hk
  | succ n ih => intro s hk; unfold allocDescs; exact ih _ (State.setDesc_frame _ _ _ (by assumption) hk)

theorem allocDescs_frameE {fl : List Comp} {fr : State} (p : PartId) (n : Nat) {s kt : State} {kv} (h_descs : Comp.descs ∈ fl) (hk : Frame fl fr s)
    (he : allocDescs p n s = (kv, kt)) : Frame fl fr kt := by
  have h := allocDescs_frame p n (by assumption) s hk
  rw [he] at h; exact h

theorem placeImage_frame {fl : List Comp} {fr : State} (p : PartId) (cs : List ImgCtx) (fs : List ImgFrame) (s : State) {kv} {kt : State} (h_wins : Comp.wins ∈ fl) (h_parts : Comp.parts ∈ fl) (h_aps : Comp.aps ∈ fl) (h_ops : Comp.ops ∈ fl) (h_due : Comp.due ∈ fl) (h_rows : Comp.rows ∈ fl) (h_banks : Comp.banks ∈ fl) (h_waiters : Comp.waiters ∈ fl) (h_records : Comp.records ∈ fl) (h_early : Comp.early ∈ fl) (h_spillWakes : Comp.spillWakes ∈ fl) (h_fetching : Comp.fetching ∈ fl) (h_descs : Comp.descs ∈ fl) (h_holdings : Comp.holdings ∈ fl) (h_fences : Comp.fences ∈ fl) (h_deadlines : Comp.deadlines ∈ fl) (h_leases : Comp.leases ∈ fl) (h_arming : Comp.arming ∈ fl) (h_heldq : Comp.heldq ∈ fl) (h_decs : Comp.decs ∈ fl) (h_sn : Comp.sn ∈ fl) (h_dir : Comp.dir ∈ fl) (h_tack : Comp.tack ∈ fl) (h_fports : Comp.fports ∈ fl) (h_counters : Comp.counters ∈ fl) (h_gctr : Comp.gctr ∈ fl) (h_rake : Comp.rake ∈ fl) (h_watches : Comp.watches ∈ fl) (h_irq : Comp.irq ∈ fl) (h_mem : Comp.mem ∈ fl) (h_mmPort : Comp.mmPort ∈ fl) (h_free : Comp.free ∈ fl) (hk : Frame fl fr s) (he : placeImage p cs fs s = some (kv, kt)) : Frame fl fr kt := by
  unfold placeImage at he
  repeat' first
    | (cases he; done)
    | (injection he with he; subst he)
    | (injection he with he; injection he with he1 he2; subst he2)
    | (injection he with he)
    | split at he
    | dsimp only at he
    | with_reducible assumption
    | (with_reducible exact Or.inl (by assumption))
    | (with_reducible exact Or.inr rfl)
    | (refine roomForRecords_frame _ _ _ (by assumption) (by assumption) (by assumption) (by assumption) (by assumption) (by assumption) (by assumption) (by assumption) (by assumption) ?_ (by with_reducible assumption))
    | with_reducible apply destroyCtxs_frame
    | (refine createCtxs_frame _ _ (by assumption) ?_ (by with_reducible assumption))
    | with_reducible apply allocDescs_frame
    | (refine allocDescs_frameE _ _ (by assumption) ?_ (by with_reducible assumption))
    | with_reducible apply Frame.ite
    | split
    | dsimp only

theorem imageBegin_frame {fl : List Comp} {fr : State} (c : Cmd) (s : State) (h_cmds : Comp.cmds ∈ fl) (h_wins : Comp.wins ∈ fl) (h_parts : Comp.parts ∈ fl) (h_aps : Comp.aps ∈ fl) (h_ops : Comp.ops ∈ fl) (h_due : Comp.due ∈ fl) (h_rows : Comp.rows ∈ fl) (h_banks : Comp.banks ∈ fl) (h_waiters : Comp.waiters ∈ fl) (h_records : Comp.records ∈ fl) (h_early : Comp.early ∈ fl) (h_spillWakes : Comp.spillWakes ∈ fl) (h_fetching : Comp.fetching ∈ fl) (h_descs : Comp.descs ∈ fl) (h_holdings : Comp.holdings ∈ fl) (h_fences : Comp.fences ∈ fl) (h_deadlines : Comp.deadlines ∈ fl) (h_leases : Comp.leases ∈ fl) (h_arming : Comp.arming ∈ fl) (h_heldq : Comp.heldq ∈ fl) (h_decs : Comp.decs ∈ fl) (h_sn : Comp.sn ∈ fl) (h_dir : Comp.dir ∈ fl) (h_tack : Comp.tack ∈ fl) (h_fports : Comp.fports ∈ fl) (h_counters : Comp.counters ∈ fl) (h_gctr : Comp.gctr ∈ fl) (h_rake : Comp.rake ∈ fl) (h_trace : Comp.trace ∈ fl) (h_watches : Comp.watches ∈ fl) (h_irq : Comp.irq ∈ fl) (h_mem : Comp.mem ∈ fl) (h_mmPort : Comp.mmPort ∈ fl) (h_free : Comp.free ∈ fl) (hk : Frame fl fr s) : Frame fl fr (imageBegin c s) := by
  unfold imageBegin
  repeat' first
    | with_reducible assumption
    | (with_reducible exact Or.inl (by assumption))
    | (with_reducible exact Or.inr rfl)
    | with_reducible apply State.modPart_frame
    | with_reducible apply mmRequest_frame
    | with_reducible apply ok_frame
    | with_reducible apply refuse_frame
    | with_reducible apply memFail_frame
    | (refine placeImage_frame _ _ _ _ (by assumption) (by assumption) (by assumption) (by assumption) (by assumption) (by assumption) (by assumption) (by assumption) (by assumption) (by assumption) (by assumption) (by assumption) (by assumption) (by assumption) (by assumption) (by assumption) (by assumption) (by assumption) (by assumption) (by assumption) (by assumption) (by assumption) (by assumption) (by assumption) (by assumption) (by assumption) (by assumption) (by assumption) (by assumption) (by assumption) (by assumption) (by assumption) ?_ (by with_reducible assumption))
    | with_reducible apply Frame.ite
    | split
    | dsimp only

theorem endLoad_frame {fl : List Comp} {fr : State} (p : PartId) (s : State) (h_wins : Comp.wins ∈ fl) (h_parts : Comp.parts ∈ fl) (h_aps : Comp.aps ∈ fl) (h_ops : Comp.ops ∈ fl) (h_due : Comp.due ∈ fl) (h_rows : Comp.rows ∈ fl) (h_banks : Comp.banks ∈ fl) (h_waiters : Comp.waiters ∈ fl) (h_records : Comp.records ∈ fl) (h_early : Comp.early ∈ fl) (h_spillWakes : Comp.spillWakes ∈ fl) (h_fetching : Comp.fetching ∈ fl) (h_descs : Comp.descs ∈ fl) (h_holdings : Comp.holdings ∈ fl) (h_fences : Comp.fences ∈ fl) (h_deadlines : Comp.deadlines ∈ fl) (h_leases : Comp.leases ∈ fl) (h_arming : Comp.arming ∈ fl) (h_heldq : Comp.heldq ∈ fl) (h_decs : Comp.decs ∈ fl) (h_sn : Comp.sn ∈ fl) (h_dir : Comp.dir ∈ fl) (h_tack : Comp.tack ∈ fl) (h_fports : Comp.fports ∈ fl) (h_counters : Comp.counters ∈ fl) (h_gctr : Comp.gctr ∈ fl) (h_rake : Comp.rake ∈ fl) (h_watches : Comp.watches ∈ fl) (h_irq : Comp.irq ∈ fl) (h_mem : Comp.mem ∈ fl) (h_mmPort : Comp.mmPort ∈ fl) (h_free : Comp.free ∈ fl) (hk : Frame fl fr s) : Frame fl fr (endLoad p s) := by
  unfold endLoad
  repeat' first
    | with_reducible assumption
    | (with_reducible exact Or.inl (by assumption))
    | (with_reducible exact Or.inr rfl)
    | with_reducible apply State.modPart_frame
    | with_reducible apply State.delDesc_frame
    | with_reducible apply destroyCtxs_frame
    | (with_reducible refine Frame.foldl (fun _ _ _ => ?_) ?_)
    | dsimp only

theorem failLoad_frame {fl : List Comp} {fr : State} (c : Cmd) (st : Status) (d : Word) (s : State) (h_cmds : Comp.cmds ∈ fl) (h_wins : Comp.wins ∈ fl) (h_parts : Comp.parts ∈ fl) (h_aps : Comp.aps ∈ fl) (h_ops : Comp.ops ∈ fl) (h_due : Comp.due ∈ fl) (h_rows : Comp.rows ∈ fl) (h_banks : Comp.banks ∈ fl) (h_waiters : Comp.waiters ∈ fl) (h_records : Comp.records ∈ fl) (h_early : Comp.early ∈ fl) (h_spillWakes : Comp.spillWakes ∈ fl) (h_fetching : Comp.fetching ∈ fl) (h_descs : Comp.descs ∈ fl) (h_holdings : Comp.holdings ∈ fl) (h_fences : Comp.fences ∈ fl) (h_deadlines : Comp.deadlines ∈ fl) (h_leases : Comp.leases ∈ fl) (h_arming : Comp.arming ∈ fl) (h_heldq : Comp.heldq ∈ fl) (h_decs : Comp.decs ∈ fl) (h_sn : Comp.sn ∈ fl) (h_dir : Comp.dir ∈ fl) (h_tack : Comp.tack ∈ fl) (h_fports : Comp.fports ∈ fl) (h_counters : Comp.counters ∈ fl) (h_gctr : Comp.gctr ∈ fl) (h_rake : Comp.rake ∈ fl) (h_trace : Comp.trace ∈ fl) (h_watches : Comp.watches ∈ fl) (h_irq : Comp.irq ∈ fl) (h_mem : Comp.mem ∈ fl) (h_mmPort : Comp.mmPort ∈ fl) (h_free : Comp.free ∈ fl) (hk : Frame fl fr s) : Frame fl fr (failLoad c st d s) := by
  unfold failLoad
  repeat' first
    | with_reducible assumption
    | (with_reducible exact Or.inl (by assumption))
    | (with_reducible exact Or.inr rfl)
    | with_reducible apply refuse_frame
    | with_reducible apply endLoad_frame
    | dsimp only

theorem loadObject_frame {fl : List Comp} {fr : State} (k : OKey) (v : BitVec 256) (l : Load) (s : State) {kv} {kt : State} (h_rows : Comp.rows ∈ fl) (h_descs : Comp.descs ∈ fl) (hk : Frame fl fr s) (he : loadObject k v l s = some (kv, kt)) : Frame fl fr kt := by
  unfold loadObject at he
  repeat' first
    | (cases he; done)
    | (injection he with he; subst he)
    | (injection he with he; injection he with he1 he2; subst he2)
    | (injection he with he)
    | split at he
    | dsimp only at he
    | with_reducible assumption
    | (with_reducible exact Or.inl (by assumption))
    | (with_reducible exact Or.inr rfl)
    | with_reducible apply State.setObj_frame
    | with_reducible apply State.setDesc_frame
    | with_reducible apply placeObject_frame
    | with_reducible apply Frame.ite
    | split
    | dsimp only

theorem loadDesc_frame {fl : List Comp} {fr : State} (n : Nat) (v : BitVec 256) (l : Load) (s : State) {kv} {kt : State} (h_descs : Comp.descs ∈ fl) (hk : Frame fl fr s) (he : loadDesc n v l s = some (kv, kt)) : Frame fl fr kt := by
  unfold loadDesc at he
  repeat' first
    | (cases he; done)
    | (injection he with he; subst he)
    | (injection he with he; injection he with he1 he2; subst he2)
    | (injection he with he)
    | split at he
    | dsimp only at he
    | with_reducible assumption
    | (with_reducible exact Or.inl (by assumption))
    | (with_reducible exact Or.inr rfl)
    | with_reducible apply State.setDesc_frame
    | with_reducible apply Frame.ite
    | split
    | dsimp only

theorem loadEntry_frame {fl : List Comp} {fr : State} (p : PartId) (f : Nat × CtxId × Nat × Nat × Nat) (n fno : Nat) (b : List Byte) (l : Load) (s : State) {kv} {kt : State} (h_rows : Comp.rows ∈ fl) (h_descs : Comp.descs ∈ fl) (h_gctr : Comp.gctr ∈ fl) (hk : Frame fl fr s) (he : loadEntry p f n fno b l s = some (kv, kt)) : Frame fl fr kt := by
  unfold loadEntry at he
  repeat' first
    | (cases he; done)
    | (injection he with he; subst he)
    | (injection he with he; injection he with he1 he2; subst he2)
    | (injection he with he)
    | split at he
    | dsimp only at he
    | with_reducible assumption
    | (with_reducible exact Or.inl (by assumption))
    | (with_reducible exact Or.inr rfl)
    | with_reducible apply inner_frame
    | (refine loadObject_frame _ _ _ _ (by assumption) (by assumption) ?_ (by with_reducible assumption))
    | (refine loadDesc_frame _ _ _ _ (by assumption) ?_ (by with_reducible assumption))
    | split
    | dsimp only

theorem commitImage_frame {fl : List Comp} {fr : State} (p : PartId) (l : Load) (s : State) (h_parts : Comp.parts ∈ fl) (h_records : Comp.records ∈ fl) (hk : Frame fl fr s) : Frame fl fr (commitImage p l s) := by
  unfold commitImage
  repeat' first
    | with_reducible assumption
    | (with_reducible exact Or.inl (by assumption))
    | (with_reducible exact Or.inr rfl)
    | with_reducible apply State.modPart_frame
    | with_reducible apply State.modWmc_frame
    | dsimp only

theorem beginPartStartup_frame {fl : List Comp} {fr : State} (c : Cmd) (s : State) (h_cmds : Comp.cmds ∈ fl) (h_parts : Comp.parts ∈ fl) (hk : Frame fl fr s) : Frame fl fr (beginPartStartup c s) := by
  unfold beginPartStartup
  repeat' first
    | with_reducible assumption
    | (with_reducible exact Or.inl (by assumption))
    | (with_reducible exact Or.inr rfl)
    | with_reducible apply State.modPart_frame
    | with_reducible apply startWait_frame
    | dsimp only

theorem imageCommit_frame {fl : List Comp} {fr : State} (c : Cmd) (s : State) (h_cmds : Comp.cmds ∈ fl) (h_wins : Comp.wins ∈ fl) (h_parts : Comp.parts ∈ fl) (h_aps : Comp.aps ∈ fl) (h_ops : Comp.ops ∈ fl) (h_due : Comp.due ∈ fl) (h_rows : Comp.rows ∈ fl) (h_banks : Comp.banks ∈ fl) (h_waiters : Comp.waiters ∈ fl) (h_records : Comp.records ∈ fl) (h_early : Comp.early ∈ fl) (h_spillWakes : Comp.spillWakes ∈ fl) (h_fetching : Comp.fetching ∈ fl) (h_descs : Comp.descs ∈ fl) (h_holdings : Comp.holdings ∈ fl) (h_fences : Comp.fences ∈ fl) (h_deadlines : Comp.deadlines ∈ fl) (h_leases : Comp.leases ∈ fl) (h_arming : Comp.arming ∈ fl) (h_heldq : Comp.heldq ∈ fl) (h_decs : Comp.decs ∈ fl) (h_sn : Comp.sn ∈ fl) (h_dir : Comp.dir ∈ fl) (h_tack : Comp.tack ∈ fl) (h_fports : Comp.fports ∈ fl) (h_counters : Comp.counters ∈ fl) (h_gctr : Comp.gctr ∈ fl) (h_rake : Comp.rake ∈ fl) (h_trace : Comp.trace ∈ fl) (h_watches : Comp.watches ∈ fl) (h_irq : Comp.irq ∈ fl) (h_mem : Comp.mem ∈ fl) (h_mmPort : Comp.mmPort ∈ fl) (h_free : Comp.free ∈ fl) (hk : Frame fl fr s) : Frame fl fr (imageCommit c s) := by
  unfold imageCommit
  repeat' first
    | with_reducible assumption
    | (with_reducible exact Or.inl (by assumption))
    | (with_reducible exact Or.inr rfl)
    | with_reducible apply State.modPart_frame
    | with_reducible apply ok_frame
    | with_reducible apply refuse_frame
    | with_reducible apply failLoad_frame
    | with_reducible apply commitImage_frame
    | with_reducible apply beginPartStartup_frame
    | with_reducible apply Frame.ite
    | split
    | dsimp only

theorem nopCmd_frame {fl : List Comp} {fr : State} (c : Cmd) (s : State) (h_cmds : Comp.cmds ∈ fl) (h_wins : Comp.wins ∈ fl) (h_aps : Comp.aps ∈ fl) (h_ops : Comp.ops ∈ fl) (h_fports : Comp.fports ∈ fl) (h_counters : Comp.counters ∈ fl) (h_gctr : Comp.gctr ∈ fl) (h_rake : Comp.rake ∈ fl) (h_trace : Comp.trace ∈ fl) (h_irq : Comp.irq ∈ fl) (h_mem : Comp.mem ∈ fl) (h_mmPort : Comp.mmPort ∈ fl) (hk : Frame fl fr s) : Frame fl fr (nopCmd c s) := by
  unfold nopCmd
  repeat' first
    | with_reducible assumption
    | (with_reducible exact Or.inl (by assumption))
    | (with_reducible exact Or.inr rfl)
    | with_reducible apply ok_frame
    | dsimp only

theorem partCreate_frame {fl : List Comp} {fr : State} (c : Cmd) (s : State) (h_cmds : Comp.cmds ∈ fl) (h_wins : Comp.wins ∈ fl) (h_parts : Comp.parts ∈ fl) (h_aps : Comp.aps ∈ fl) (h_ops : Comp.ops ∈ fl) (h_fports : Comp.fports ∈ fl) (h_counters : Comp.counters ∈ fl) (h_gctr : Comp.gctr ∈ fl) (h_rake : Comp.rake ∈ fl) (h_trace : Comp.trace ∈ fl) (h_irq : Comp.irq ∈ fl) (h_mem : Comp.mem ∈ fl) (h_mmPort : Comp.mmPort ∈ fl) (hk : Frame fl fr s) : Frame fl fr (partCreate c s) := by
  unfold partCreate
  repeat' first
    | with_reducible assumption
    | (with_reducible exact Or.inl (by assumption))
    | (with_reducible exact Or.inr rfl)
    | with_reducible apply State.modPart_frame
    | with_reducible apply ok_frame
    | with_reducible apply refuse_frame
    | with_reducible apply Frame.ite
    | split
    | dsimp only

theorem openPart_frame {fl : List Comp} {fr : State} (p : PartId) (s : State) (h_cmds : Comp.cmds ∈ fl) (h_wins : Comp.wins ∈ fl) (h_parts : Comp.parts ∈ fl) (h_binds : Comp.binds ∈ fl) (h_aps : Comp.aps ∈ fl) (h_ops : Comp.ops ∈ fl) (h_merges : Comp.merges ∈ fl) (h_rr : Comp.rr ∈ fl) (h_rows : Comp.rows ∈ fl) (h_banks : Comp.banks ∈ fl) (h_waiters : Comp.waiters ∈ fl) (h_records : Comp.records ∈ fl) (h_early : Comp.early ∈ fl) (h_spillWakes : Comp.spillWakes ∈ fl) (h_fetching : Comp.fetching ∈ fl) (h_descs : Comp.descs ∈ fl) (h_holdings : Comp.holdings ∈ fl) (h_fences : Comp.fences ∈ fl) (h_deadlines : Comp.deadlines ∈ fl) (h_leases : Comp.leases ∈ fl) (h_arming : Comp.arming ∈ fl) (h_heldq : Comp.heldq ∈ fl) (h_sn : Comp.sn ∈ fl) (h_dir : Comp.dir ∈ fl) (h_tack : Comp.tack ∈ fl) (h_fports : Comp.fports ∈ fl) (h_trees : Comp.trees ∈ fl) (h_counters : Comp.counters ∈ fl) (h_gctr : Comp.gctr ∈ fl) (h_rake : Comp.rake ∈ fl) (h_trace : Comp.trace ∈ fl) (h_watches : Comp.watches ∈ fl) (h_irq : Comp.irq ∈ fl) (h_mem : Comp.mem ∈ fl) (h_mmPort : Comp.mmPort ∈ fl) (h_free : Comp.free ∈ fl) (hk : Frame fl fr s) : Frame fl fr (openPart p s) := by
  unfold openPart
  repeat' first
    | with_reducible assumption
    | (with_reducible exact Or.inl (by assumption))
    | (with_reducible exact Or.inr rfl)
    | with_reducible apply State.modPart_frame
    | with_reducible apply resumePart_frame
    | dsimp only

theorem partActivate_frame {fl : List Comp} {fr : State} (c : Cmd) (s : State) (h_cmds : Comp.cmds ∈ fl) (h_wins : Comp.wins ∈ fl) (h_parts : Comp.parts ∈ fl) (h_binds : Comp.binds ∈ fl) (h_aps : Comp.aps ∈ fl) (h_ops : Comp.ops ∈ fl) (h_merges : Comp.merges ∈ fl) (h_rr : Comp.rr ∈ fl) (h_rows : Comp.rows ∈ fl) (h_banks : Comp.banks ∈ fl) (h_waiters : Comp.waiters ∈ fl) (h_records : Comp.records ∈ fl) (h_early : Comp.early ∈ fl) (h_spillWakes : Comp.spillWakes ∈ fl) (h_fetching : Comp.fetching ∈ fl) (h_descs : Comp.descs ∈ fl) (h_holdings : Comp.holdings ∈ fl) (h_fences : Comp.fences ∈ fl) (h_deadlines : Comp.deadlines ∈ fl) (h_leases : Comp.leases ∈ fl) (h_arming : Comp.arming ∈ fl) (h_heldq : Comp.heldq ∈ fl) (h_sn : Comp.sn ∈ fl) (h_dir : Comp.dir ∈ fl) (h_tack : Comp.tack ∈ fl) (h_fports : Comp.fports ∈ fl) (h_trees : Comp.trees ∈ fl) (h_counters : Comp.counters ∈ fl) (h_gctr : Comp.gctr ∈ fl) (h_rake : Comp.rake ∈ fl) (h_trace : Comp.trace ∈ fl) (h_watches : Comp.watches ∈ fl) (h_irq : Comp.irq ∈ fl) (h_mem : Comp.mem ∈ fl) (h_mmPort : Comp.mmPort ∈ fl) (h_free : Comp.free ∈ fl) (hk : Frame fl fr s) : Frame fl fr (partActivate c s) := by
  unfold partActivate
  repeat' first
    | with_reducible assumption
    | (with_reducible exact Or.inl (by assumption))
    | (with_reducible exact Or.inr rfl)
    | with_reducible apply ok_frame
    | with_reducible apply refuse_frame
    | with_reducible apply beginPartStartup_frame
    | with_reducible apply openPart_frame
    | split
    | dsimp only

theorem failHeld_frame {fl : List Comp} {fr : State} (p : PartId) (s : State) (h_aps : Comp.aps ∈ fl) (h_ops : Comp.ops ∈ fl) (hk : Frame fl fr s) : Frame fl fr (failHeld p s) := by
  unfold failHeld
  repeat' first
    | with_reducible assumption
    | (with_reducible exact Or.inl (by assumption))
    | (with_reducible exact Or.inr rfl)
    | with_reducible apply State.modAp_frame
    | with_reducible apply bindReply_frame
    | (with_reducible refine Frame.foldl (fun _ _ _ => ?_) ?_)
    | dsimp only

theorem wipeCounters_frame {fl : List Comp} {fr : State} (p : PartId) (s : State) (h_counters : Comp.counters ∈ fl) (hk : Frame fl fr s) : Frame fl fr (wipeCounters p s) := by
  unfold wipeCounters
  repeat' first
    | with_reducible assumption
    | (with_reducible exact Or.inl (by assumption))
    | (with_reducible exact Or.inr rfl)
    | with_reducible apply State.modObs_frame
    | (with_reducible refine Frame.foldl (fun _ _ _ => ?_) ?_)
    | dsimp only

theorem wipePart_frame {fl : List Comp} {fr : State} (p : PartId) (s : State) (h_wins : Comp.wins ∈ fl) (h_parts : Comp.parts ∈ fl) (h_aps : Comp.aps ∈ fl) (h_ops : Comp.ops ∈ fl) (h_counters : Comp.counters ∈ fl) (hk : Frame fl fr s) : Frame fl fr (wipePart p s) := by
  unfold wipePart
  repeat' first
    | with_reducible assumption
    | (with_reducible exact Or.inl (by assumption))
    | (with_reducible exact Or.inr rfl)
    | with_reducible apply State.modPart_frame
    | with_reducible apply State.modWin_frame
    | with_reducible apply failHeld_frame
    | with_reducible apply wipeCounters_frame
    | with_reducible apply Frame.ite
    | split
    | dsimp only

theorem startupStep_frame {fl : List Comp} {fr : State} (p : PartId) (code : BitVec 2) (s : State) (h_cmds : Comp.cmds ∈ fl) (h_wins : Comp.wins ∈ fl) (h_parts : Comp.parts ∈ fl) (h_binds : Comp.binds ∈ fl) (h_aps : Comp.aps ∈ fl) (h_ops : Comp.ops ∈ fl) (h_merges : Comp.merges ∈ fl) (h_rr : Comp.rr ∈ fl) (h_rows : Comp.rows ∈ fl) (h_banks : Comp.banks ∈ fl) (h_waiters : Comp.waiters ∈ fl) (h_records : Comp.records ∈ fl) (h_early : Comp.early ∈ fl) (h_spillWakes : Comp.spillWakes ∈ fl) (h_fetching : Comp.fetching ∈ fl) (h_descs : Comp.descs ∈ fl) (h_holdings : Comp.holdings ∈ fl) (h_fences : Comp.fences ∈ fl) (h_deadlines : Comp.deadlines ∈ fl) (h_leases : Comp.leases ∈ fl) (h_arming : Comp.arming ∈ fl) (h_heldq : Comp.heldq ∈ fl) (h_sn : Comp.sn ∈ fl) (h_dir : Comp.dir ∈ fl) (h_tack : Comp.tack ∈ fl) (h_fports : Comp.fports ∈ fl) (h_trees : Comp.trees ∈ fl) (h_counters : Comp.counters ∈ fl) (h_gctr : Comp.gctr ∈ fl) (h_rake : Comp.rake ∈ fl) (h_trace : Comp.trace ∈ fl) (h_watches : Comp.watches ∈ fl) (h_irq : Comp.irq ∈ fl) (h_mem : Comp.mem ∈ fl) (h_mmPort : Comp.mmPort ∈ fl) (h_free : Comp.free ∈ fl) (hk : Frame fl fr s) : Frame fl fr (startupStep p code s) := by
  unfold startupStep
  repeat' first
    | with_reducible assumption
    | (with_reducible exact Or.inl (by assumption))
    | (with_reducible exact Or.inr rfl)
    | with_reducible apply State.modPart_frame
    | with_reducible apply snShow_frame
    | with_reducible apply resumePart_frame
    | split
    | dsimp only

theorem endStartup_frame {fl : List Comp} {fr : State} (c : Cmd) (s : State) (h_cmds : Comp.cmds ∈ fl) (h_wins : Comp.wins ∈ fl) (h_parts : Comp.parts ∈ fl) (h_aps : Comp.aps ∈ fl) (h_ops : Comp.ops ∈ fl) (h_fports : Comp.fports ∈ fl) (h_counters : Comp.counters ∈ fl) (h_gctr : Comp.gctr ∈ fl) (h_rake : Comp.rake ∈ fl) (h_trace : Comp.trace ∈ fl) (h_irq : Comp.irq ∈ fl) (h_mem : Comp.mem ∈ fl) (h_mmPort : Comp.mmPort ∈ fl) (hk : Frame fl fr s) : Frame fl fr (endStartup c s) := by
  unfold endStartup
  repeat' first
    | with_reducible assumption
    | (with_reducible exact Or.inl (by assumption))
    | (with_reducible exact Or.inr rfl)
    | with_reducible apply State.modPart_frame
    | with_reducible apply ok_frame
    | with_reducible apply Frame.ite
    | split
    | dsimp only

theorem partitionStartup_frame {fl : List Comp} {fr : State} (p : PartId) (s : State) (h_cmds : Comp.cmds ∈ fl) (h_wins : Comp.wins ∈ fl) (h_parts : Comp.parts ∈ fl) (h_binds : Comp.binds ∈ fl) (h_aps : Comp.aps ∈ fl) (h_ops : Comp.ops ∈ fl) (h_merges : Comp.merges ∈ fl) (h_rr : Comp.rr ∈ fl) (h_rows : Comp.rows ∈ fl) (h_banks : Comp.banks ∈ fl) (h_waiters : Comp.waiters ∈ fl) (h_records : Comp.records ∈ fl) (h_early : Comp.early ∈ fl) (h_spillWakes : Comp.spillWakes ∈ fl) (h_fetching : Comp.fetching ∈ fl) (h_descs : Comp.descs ∈ fl) (h_holdings : Comp.holdings ∈ fl) (h_fences : Comp.fences ∈ fl) (h_deadlines : Comp.deadlines ∈ fl) (h_leases : Comp.leases ∈ fl) (h_arming : Comp.arming ∈ fl) (h_heldq : Comp.heldq ∈ fl) (h_sn : Comp.sn ∈ fl) (h_dir : Comp.dir ∈ fl) (h_tack : Comp.tack ∈ fl) (h_fports : Comp.fports ∈ fl) (h_trees : Comp.trees ∈ fl) (h_inq : Comp.inq ∈ fl) (h_counters : Comp.counters ∈ fl) (h_gctr : Comp.gctr ∈ fl) (h_rake : Comp.rake ∈ fl) (h_trace : Comp.trace ∈ fl) (h_watches : Comp.watches ∈ fl) (h_irq : Comp.irq ∈ fl) (h_mem : Comp.mem ∈ fl) (h_mmPort : Comp.mmPort ∈ fl) (h_free : Comp.free ∈ fl) (hk : Frame fl fr s) : Frame fl fr (partitionStartup p s) := by
  unfold partitionStartup
  repeat' first
    | with_reducible assumption
    | (with_reducible exact Or.inl (by assumption))
    | (with_reducible exact Or.inr rfl)
    | with_reducible apply State.modPart_frame
    | with_reducible apply pump_frame
    | with_reducible apply wipePart_frame
    | with_reducible apply startupStep_frame
    | with_reducible apply endStartup_frame
    | with_reducible apply Frame.ite
    | split
    | dsimp only

theorem abortEarlier_frame {fl : List Comp} {fr : State} (c : Cmd) (s : State) (h_cmds : Comp.cmds ∈ fl) (h_wins : Comp.wins ∈ fl) (h_aps : Comp.aps ∈ fl) (h_ops : Comp.ops ∈ fl) (h_fports : Comp.fports ∈ fl) (h_counters : Comp.counters ∈ fl) (h_gctr : Comp.gctr ∈ fl) (h_rake : Comp.rake ∈ fl) (h_trace : Comp.trace ∈ fl) (h_irq : Comp.irq ∈ fl) (h_mem : Comp.mem ∈ fl) (h_mmPort : Comp.mmPort ∈ fl) (hk : Frame fl fr s) : Frame fl fr (abortEarlier c s) := by
  unfold abortEarlier
  repeat' first
    | with_reducible assumption
    | (with_reducible exact Or.inl (by assumption))
    | (with_reducible exact Or.inr rfl)
    | with_reducible apply complete_frame
    | (with_reducible refine Frame.foldl (fun _ _ _ => ?_) ?_)
    | dsimp only

theorem partQuiesce_frame {fl : List Comp} {fr : State} (c : Cmd) (s : State) (h_cmds : Comp.cmds ∈ fl) (h_wins : Comp.wins ∈ fl) (h_parts : Comp.parts ∈ fl) (h_aps : Comp.aps ∈ fl) (h_ops : Comp.ops ∈ fl) (h_due : Comp.due ∈ fl) (h_rows : Comp.rows ∈ fl) (h_banks : Comp.banks ∈ fl) (h_waiters : Comp.waiters ∈ fl) (h_records : Comp.records ∈ fl) (h_early : Comp.early ∈ fl) (h_spillWakes : Comp.spillWakes ∈ fl) (h_fetching : Comp.fetching ∈ fl) (h_descs : Comp.descs ∈ fl) (h_holdings : Comp.holdings ∈ fl) (h_fences : Comp.fences ∈ fl) (h_deadlines : Comp.deadlines ∈ fl) (h_leases : Comp.leases ∈ fl) (h_arming : Comp.arming ∈ fl) (h_heldq : Comp.heldq ∈ fl) (h_decs : Comp.decs ∈ fl) (h_sn : Comp.sn ∈ fl) (h_dir : Comp.dir ∈ fl) (h_tack : Comp.tack ∈ fl) (h_fports : Comp.fports ∈ fl) (h_counters : Comp.counters ∈ fl) (h_gctr : Comp.gctr ∈ fl) (h_rake : Comp.rake ∈ fl) (h_trace : Comp.trace ∈ fl) (h_watches : Comp.watches ∈ fl) (h_irq : Comp.irq ∈ fl) (h_mem : Comp.mem ∈ fl) (h_mmPort : Comp.mmPort ∈ fl) (h_free : Comp.free ∈ fl) (hk : Frame fl fr s) : Frame fl fr (partQuiesce c s) := by
  unfold partQuiesce
  repeat' first
    | with_reducible assumption
    | (with_reducible exact Or.inl (by assumption))
    | (with_reducible exact Or.inr rfl)
    | with_reducible apply State.modPart_frame
    | with_reducible apply ok_frame
    | with_reducible apply drainPart_frame
    | with_reducible apply startWait_frame
    | with_reducible apply endLoad_frame
    | with_reducible apply abortEarlier_frame
    | split
    | dsimp only

theorem quiesceDrained_frame {fl : List Comp} {fr : State} (p : PartId) (s : State) (h_cmds : Comp.cmds ∈ fl) (h_wins : Comp.wins ∈ fl) (h_parts : Comp.parts ∈ fl) (h_aps : Comp.aps ∈ fl) (h_ops : Comp.ops ∈ fl) (h_merges : Comp.merges ∈ fl) (h_rows : Comp.rows ∈ fl) (h_banks : Comp.banks ∈ fl) (h_waiters : Comp.waiters ∈ fl) (h_records : Comp.records ∈ fl) (h_early : Comp.early ∈ fl) (h_spillWakes : Comp.spillWakes ∈ fl) (h_fetching : Comp.fetching ∈ fl) (h_descs : Comp.descs ∈ fl) (h_holdings : Comp.holdings ∈ fl) (h_fences : Comp.fences ∈ fl) (h_deadlines : Comp.deadlines ∈ fl) (h_leases : Comp.leases ∈ fl) (h_arming : Comp.arming ∈ fl) (h_heldq : Comp.heldq ∈ fl) (h_sn : Comp.sn ∈ fl) (h_dir : Comp.dir ∈ fl) (h_tack : Comp.tack ∈ fl) (h_fports : Comp.fports ∈ fl) (h_trees : Comp.trees ∈ fl) (h_inq : Comp.inq ∈ fl) (h_counters : Comp.counters ∈ fl) (h_gctr : Comp.gctr ∈ fl) (h_rake : Comp.rake ∈ fl) (h_trace : Comp.trace ∈ fl) (h_watches : Comp.watches ∈ fl) (h_irq : Comp.irq ∈ fl) (h_mem : Comp.mem ∈ fl) (h_mmPort : Comp.mmPort ∈ fl) (h_free : Comp.free ∈ fl) (hk : Frame fl fr s) : Frame fl fr (quiesceDrained p s) := by
  unfold quiesceDrained
  repeat' first
    | with_reducible assumption
    | (with_reducible exact Or.inl (by assumption))
    | (with_reducible exact Or.inr rfl)
    | with_reducible apply State.modPart_frame
    | with_reducible apply ok_frame
    | with_reducible apply pump_frame
    | with_reducible apply Frame.ite
    | split
    | dsimp only

theorem quiesceTimeout_frame {fl : List Comp} {fr : State} (p : PartId) (edges : Nat) (s : State) (h_time : Comp.time ∈ fl) (h_clock : Comp.clock ∈ fl) (h_cmds : Comp.cmds ∈ fl) (h_wins : Comp.wins ∈ fl) (h_parts : Comp.parts ∈ fl) (h_aps : Comp.aps ∈ fl) (h_ops : Comp.ops ∈ fl) (h_merges : Comp.merges ∈ fl) (h_rows : Comp.rows ∈ fl) (h_banks : Comp.banks ∈ fl) (h_waiters : Comp.waiters ∈ fl) (h_records : Comp.records ∈ fl) (h_early : Comp.early ∈ fl) (h_spillWakes : Comp.spillWakes ∈ fl) (h_fetching : Comp.fetching ∈ fl) (h_descs : Comp.descs ∈ fl) (h_holdings : Comp.holdings ∈ fl) (h_fences : Comp.fences ∈ fl) (h_deadlines : Comp.deadlines ∈ fl) (h_leases : Comp.leases ∈ fl) (h_arming : Comp.arming ∈ fl) (h_heldq : Comp.heldq ∈ fl) (h_sn : Comp.sn ∈ fl) (h_dir : Comp.dir ∈ fl) (h_tack : Comp.tack ∈ fl) (h_fports : Comp.fports ∈ fl) (h_trees : Comp.trees ∈ fl) (h_inq : Comp.inq ∈ fl) (h_counters : Comp.counters ∈ fl) (h_gctr : Comp.gctr ∈ fl) (h_rake : Comp.rake ∈ fl) (h_trace : Comp.trace ∈ fl) (h_watches : Comp.watches ∈ fl) (h_irq : Comp.irq ∈ fl) (h_mem : Comp.mem ∈ fl) (h_mmPort : Comp.mmPort ∈ fl) (h_free : Comp.free ∈ fl) (hk : Frame fl fr s) : Frame fl fr (quiesceTimeout p edges s) := by
  unfold quiesceTimeout
  repeat' first
    | with_reducible assumption
    | (with_reducible exact Or.inl (by assumption))
    | (with_reducible exact Or.inr rfl)
    | with_reducible apply elapse_frame
    | with_reducible apply refuse_frame
    | with_reducible apply pump_frame
    | with_reducible apply Frame.ite
    | split
    | dsimp only

theorem modBinds_frame {fl : List Comp} {fr : State} (p : PartId) (f : Bind → Bind) (s : State) (h_binds : Comp.binds ∈ fl) (hk : Frame fl fr s) : Frame fl fr (modBinds p f s) := by
  unfold modBinds
  repeat' first
    | with_reducible assumption
    | (with_reducible exact Or.inl (by assumption))
    | (with_reducible exact Or.inr rfl)
    | with_reducible apply State.setBind_frame
    | with_reducible apply Frame.ite
    | (with_reducible refine Frame.foldl (fun _ _ _ => ?_) ?_)
    | split
    | dsimp only

theorem unbindAll_frame {fl : List Comp} {fr : State} (p : PartId) (s : State) (h_cmds : Comp.cmds ∈ fl) (h_wins : Comp.wins ∈ fl) (h_parts : Comp.parts ∈ fl) (h_binds : Comp.binds ∈ fl) (h_aps : Comp.aps ∈ fl) (h_ops : Comp.ops ∈ fl) (h_merges : Comp.merges ∈ fl) (h_rows : Comp.rows ∈ fl) (h_banks : Comp.banks ∈ fl) (h_waiters : Comp.waiters ∈ fl) (h_records : Comp.records ∈ fl) (h_early : Comp.early ∈ fl) (h_spillWakes : Comp.spillWakes ∈ fl) (h_fetching : Comp.fetching ∈ fl) (h_descs : Comp.descs ∈ fl) (h_holdings : Comp.holdings ∈ fl) (h_fences : Comp.fences ∈ fl) (h_deadlines : Comp.deadlines ∈ fl) (h_leases : Comp.leases ∈ fl) (h_arming : Comp.arming ∈ fl) (h_heldq : Comp.heldq ∈ fl) (h_sn : Comp.sn ∈ fl) (h_dir : Comp.dir ∈ fl) (h_tack : Comp.tack ∈ fl) (h_fports : Comp.fports ∈ fl) (h_trees : Comp.trees ∈ fl) (h_counters : Comp.counters ∈ fl) (h_gctr : Comp.gctr ∈ fl) (h_rake : Comp.rake ∈ fl) (h_trace : Comp.trace ∈ fl) (h_hobble : Comp.hobble ∈ fl) (h_watches : Comp.watches ∈ fl) (h_irq : Comp.irq ∈ fl) (h_mem : Comp.mem ∈ fl) (h_mmPort : Comp.mmPort ∈ fl) (h_free : Comp.free ∈ fl) (hk : Frame fl fr s) : Frame fl fr (unbindAll p s) := by
  unfold unbindAll
  repeat' first
    | with_reducible assumption
    | (with_reducible exact Or.inl (by assumption))
    | (with_reducible exact Or.inr rfl)
    | with_reducible apply State.setBind_frame
    | with_reducible apply addReset_frame
    | with_reducible apply modBinds_frame
    | (with_reducible refine Frame.foldl (fun _ _ _ => ?_) ?_)
    | dsimp only

theorem forgetPart_frame {fl : List Comp} {fr : State} (p : PartId) (s : State) (h_binds : Comp.binds ∈ fl) (hk : Frame fl fr s) : Frame fl fr (forgetPart p s) := by
  unfold forgetPart
  repeat' first
    | with_reducible assumption
    | (with_reducible exact Or.inl (by assumption))
    | (with_reducible exact Or.inr rfl)
    | with_reducible apply modBinds_frame
    | dsimp only

theorem dropPartHeld_frame {fl : List Comp} {fr : State} (p : PartId) (s : State) (h_rows : Comp.rows ∈ fl) (h_heldq : Comp.heldq ∈ fl) (h_gctr : Comp.gctr ∈ fl) (h_rake : Comp.rake ∈ fl) (h_irq : Comp.irq ∈ fl) (hk : Frame fl fr s) : Frame fl fr (dropPartHeld p s).2 := by
  unfold dropPartHeld
  repeat' first
    | with_reducible assumption
    | (with_reducible exact Or.inl (by assumption))
    | (with_reducible exact Or.inr rfl)
    | with_reducible apply report_frame
    | with_reducible apply dropHeld_frame
    | (with_reducible refine Frame.foldl (fun _ _ _ => ?_) ?_)
    | dsimp only

theorem dropPartHeld_frameE {fl : List Comp} {fr : State} (p : PartId) (s : State) {kv} {kt : State} (h_rows : Comp.rows ∈ fl) (h_heldq : Comp.heldq ∈ fl) (h_gctr : Comp.gctr ∈ fl) (h_rake : Comp.rake ∈ fl) (h_irq : Comp.irq ∈ fl) (hk : Frame fl fr s) (he : dropPartHeld p s = (kv, kt)) : Frame fl fr kt := by
  have h := dropPartHeld_frame (fl := fl) (fr := fr) p s h_rows h_heldq h_gctr h_rake h_irq hk
  rw [he] at h; exact h

theorem wipeWindow_frame {fl : List Comp} {fr : State} (p : PartId) (s : State) (h_wins : Comp.wins ∈ fl) (hk : Frame fl fr s) : Frame fl fr (wipeWindow p s) := by
  unfold wipeWindow
  repeat' first
    | with_reducible assumption
    | (with_reducible exact Or.inl (by assumption))
    | (with_reducible exact Or.inr rfl)
    | with_reducible apply State.setWin_frame
    | with_reducible apply Frame.ite
    | (with_reducible refine Frame.foldl (fun _ _ _ => ?_) ?_)
    | split
    | dsimp only

theorem destroyPart_frame {fl : List Comp} {fr : State} (c : Cmd) (s : State) (h_cmds : Comp.cmds ∈ fl) (h_wins : Comp.wins ∈ fl) (h_parts : Comp.parts ∈ fl) (h_binds : Comp.binds ∈ fl) (h_aps : Comp.aps ∈ fl) (h_ops : Comp.ops ∈ fl) (h_due : Comp.due ∈ fl) (h_rows : Comp.rows ∈ fl) (h_banks : Comp.banks ∈ fl) (h_waiters : Comp.waiters ∈ fl) (h_records : Comp.records ∈ fl) (h_early : Comp.early ∈ fl) (h_spillWakes : Comp.spillWakes ∈ fl) (h_fetching : Comp.fetching ∈ fl) (h_descs : Comp.descs ∈ fl) (h_holdings : Comp.holdings ∈ fl) (h_fences : Comp.fences ∈ fl) (h_deadlines : Comp.deadlines ∈ fl) (h_leases : Comp.leases ∈ fl) (h_arming : Comp.arming ∈ fl) (h_heldq : Comp.heldq ∈ fl) (h_decs : Comp.decs ∈ fl) (h_sn : Comp.sn ∈ fl) (h_dir : Comp.dir ∈ fl) (h_tack : Comp.tack ∈ fl) (h_fports : Comp.fports ∈ fl) (h_routes : Comp.routes ∈ fl) (h_counters : Comp.counters ∈ fl) (h_gctr : Comp.gctr ∈ fl) (h_rake : Comp.rake ∈ fl) (h_trace : Comp.trace ∈ fl) (h_watches : Comp.watches ∈ fl) (h_irq : Comp.irq ∈ fl) (h_mem : Comp.mem ∈ fl) (h_mmPort : Comp.mmPort ∈ fl) (h_free : Comp.free ∈ fl) (hk : Frame fl fr s) : Frame fl fr (destroyPart c s) := by
  unfold destroyPart
  repeat' first
    | with_reducible assumption
    | (with_reducible exact Or.inl (by assumption))
    | (with_reducible exact Or.inr rfl)
    | with_reducible apply State.delPart_frame
    | with_reducible apply State.modFab_frame
    | with_reducible apply ok_frame
    | with_reducible apply destroyCtxs_frame
    | with_reducible apply wipeCounters_frame
    | with_reducible apply forgetPart_frame
    | with_reducible apply dropPartHeld_frame
    | (refine dropPartHeld_frameE _ _ (by assumption) (by assumption) (by assumption) (by assumption) (by assumption) ?_ (by with_reducible assumption))
    | with_reducible apply wipeWindow_frame
    | dsimp only

theorem partDestroy_frame {fl : List Comp} {fr : State} (c : Cmd) (s : State) (h_cmds : Comp.cmds ∈ fl) (h_wins : Comp.wins ∈ fl) (h_parts : Comp.parts ∈ fl) (h_binds : Comp.binds ∈ fl) (h_aps : Comp.aps ∈ fl) (h_ops : Comp.ops ∈ fl) (h_merges : Comp.merges ∈ fl) (h_due : Comp.due ∈ fl) (h_rows : Comp.rows ∈ fl) (h_banks : Comp.banks ∈ fl) (h_waiters : Comp.waiters ∈ fl) (h_records : Comp.records ∈ fl) (h_early : Comp.early ∈ fl) (h_spillWakes : Comp.spillWakes ∈ fl) (h_fetching : Comp.fetching ∈ fl) (h_descs : Comp.descs ∈ fl) (h_holdings : Comp.holdings ∈ fl) (h_fences : Comp.fences ∈ fl) (h_deadlines : Comp.deadlines ∈ fl) (h_leases : Comp.leases ∈ fl) (h_arming : Comp.arming ∈ fl) (h_heldq : Comp.heldq ∈ fl) (h_decs : Comp.decs ∈ fl) (h_sn : Comp.sn ∈ fl) (h_dir : Comp.dir ∈ fl) (h_tack : Comp.tack ∈ fl) (h_fports : Comp.fports ∈ fl) (h_trees : Comp.trees ∈ fl) (h_routes : Comp.routes ∈ fl) (h_counters : Comp.counters ∈ fl) (h_gctr : Comp.gctr ∈ fl) (h_rake : Comp.rake ∈ fl) (h_trace : Comp.trace ∈ fl) (h_hobble : Comp.hobble ∈ fl) (h_watches : Comp.watches ∈ fl) (h_irq : Comp.irq ∈ fl) (h_mem : Comp.mem ∈ fl) (h_mmPort : Comp.mmPort ∈ fl) (h_free : Comp.free ∈ fl) (hk : Frame fl fr s) : Frame fl fr (partDestroy c s) := by
  unfold partDestroy
  repeat' first
    | with_reducible assumption
    | (with_reducible exact Or.inl (by assumption))
    | (with_reducible exact Or.inr rfl)
    | with_reducible apply refuse_frame
    | with_reducible apply startWait_frame
    | with_reducible apply endLoad_frame
    | with_reducible apply abortEarlier_frame
    | with_reducible apply unbindAll_frame
    | with_reducible apply destroyPart_frame
    | with_reducible apply Frame.ite
    | split
    | dsimp only

theorem destroyOn_frame {fl : List Comp} {fr : State} (id : Nat) (s : State) (h_cmds : Comp.cmds ∈ fl) (h_wins : Comp.wins ∈ fl) (h_parts : Comp.parts ∈ fl) (h_binds : Comp.binds ∈ fl) (h_aps : Comp.aps ∈ fl) (h_ops : Comp.ops ∈ fl) (h_merges : Comp.merges ∈ fl) (h_due : Comp.due ∈ fl) (h_rows : Comp.rows ∈ fl) (h_banks : Comp.banks ∈ fl) (h_waiters : Comp.waiters ∈ fl) (h_records : Comp.records ∈ fl) (h_early : Comp.early ∈ fl) (h_spillWakes : Comp.spillWakes ∈ fl) (h_fetching : Comp.fetching ∈ fl) (h_descs : Comp.descs ∈ fl) (h_holdings : Comp.holdings ∈ fl) (h_fences : Comp.fences ∈ fl) (h_deadlines : Comp.deadlines ∈ fl) (h_leases : Comp.leases ∈ fl) (h_arming : Comp.arming ∈ fl) (h_heldq : Comp.heldq ∈ fl) (h_decs : Comp.decs ∈ fl) (h_sn : Comp.sn ∈ fl) (h_dir : Comp.dir ∈ fl) (h_tack : Comp.tack ∈ fl) (h_fports : Comp.fports ∈ fl) (h_trees : Comp.trees ∈ fl) (h_routes : Comp.routes ∈ fl) (h_inq : Comp.inq ∈ fl) (h_counters : Comp.counters ∈ fl) (h_gctr : Comp.gctr ∈ fl) (h_rake : Comp.rake ∈ fl) (h_trace : Comp.trace ∈ fl) (h_hobble : Comp.hobble ∈ fl) (h_watches : Comp.watches ∈ fl) (h_irq : Comp.irq ∈ fl) (h_mem : Comp.mem ∈ fl) (h_mmPort : Comp.mmPort ∈ fl) (h_free : Comp.free ∈ fl) (hk : Frame fl fr s) : Frame fl fr (destroyOn id s) := by
  unfold destroyOn
  repeat' first
    | with_reducible assumption
    | (with_reducible exact Or.inl (by assumption))
    | (with_reducible exact Or.inr rfl)
    | with_reducible apply wakeSlot_frame
    | with_reducible apply pump_frame
    | with_reducible apply unbindAll_frame
    | with_reducible apply destroyPart_frame
    | with_reducible apply Frame.ite
    | (with_reducible refine Frame.foldl (fun _ _ _ => ?_) ?_)
    | split
    | dsimp only

theorem service_frame {fl : List Comp} {fr : State} (lvl : BitVec 2) (cause : Byte) (x : SvcAt) (s : State) (h_service : Comp.service ∈ fl) (h_wins : Comp.wins ∈ fl) (h_sn : Comp.sn ∈ fl) (h_counters : Comp.counters ∈ fl) (h_irq : Comp.irq ∈ fl) (hk : Frame fl fr s) : Frame fl fr (service lvl cause x s) := by
  unfold service
  repeat' first
    | with_reducible assumption
    | (with_reducible exact Or.inl (by assumption))
    | (with_reducible exact Or.inr rfl)
    | with_reducible apply State.modSlu_frame
    | with_reducible apply raiseGlobal_frame
    | with_reducible apply snService_frame
    | with_reducible apply Frame.ite
    | split
    | dsimp only

end Sys2Proof.Machine
end

