-- ==== Sys2Proof/Laws/FramePlat.lean ====
section
/-! SUPPORT. What the effects defined in Firmware, Awls, Banks, Lifecycle, Observe leave unchanged: each lemma names every component its function may write. -/

namespace Sys2Proof.Machine

theorem fwStage_frame {fl : List Comp} {fr : State} (c : Cmd) (s : State) (h_fwStore : Comp.fwStore ∈ fl) (h_cmds : Comp.cmds ∈ fl) (h_wins : Comp.wins ∈ fl) (h_aps : Comp.aps ∈ fl) (h_ops : Comp.ops ∈ fl) (h_fports : Comp.fports ∈ fl) (h_counters : Comp.counters ∈ fl) (h_gctr : Comp.gctr ∈ fl) (h_rake : Comp.rake ∈ fl) (h_trace : Comp.trace ∈ fl) (h_irq : Comp.irq ∈ fl) (h_mem : Comp.mem ∈ fl) (h_mmPort : Comp.mmPort ∈ fl) (hk : Frame fl fr s) : Frame fl fr (fwStage c s) := by
  unfold fwStage
  repeat' first
    | with_reducible assumption
    | (with_reducible exact Or.inl (by assumption))
    | (with_reducible exact Or.inr rfl)
    | with_reducible apply State.modSlu_frame
    | with_reducible apply mmRequest_frame
    | with_reducible apply ok_frame
    | with_reducible apply refuse_frame
    | with_reducible apply memFail_frame
    | with_reducible apply Frame.ite
    | split
    | dsimp only

theorem fwWrite_frame {fl : List Comp} {fr : State} (q : SeqNo) (l : List Word) (h_fwStore : Comp.fwStore ∈ fl) : ∀ (w : Nat) (s : State), Frame fl fr s → Frame fl fr (fwWrite q w l s) := by
  induction l with
  | nil => intro w s hk; exact hk
  | cons v l ih =>
    intro w s hk
    unfold fwWrite
    refine ih _ _ ?_
    apply State.modSlu_frame <;> first
      | exact Or.inr rfl
      | exact Or.inl (by assumption)
      | exact hk

theorem releaseAwl_frame {fl : List Comp} {fr : State} (q : SeqNo) (s : State) (h_seqs : Comp.seqs ∈ fl) (h_cmds : Comp.cmds ∈ fl) (h_wins : Comp.wins ∈ fl) (h_parts : Comp.parts ∈ fl) (h_binds : Comp.binds ∈ fl) (h_aps : Comp.aps ∈ fl) (h_ops : Comp.ops ∈ fl) (h_merges : Comp.merges ∈ fl) (h_rr : Comp.rr ∈ fl) (h_rows : Comp.rows ∈ fl) (h_banks : Comp.banks ∈ fl) (h_waiters : Comp.waiters ∈ fl) (h_records : Comp.records ∈ fl) (h_early : Comp.early ∈ fl) (h_spillWakes : Comp.spillWakes ∈ fl) (h_fetching : Comp.fetching ∈ fl) (h_descs : Comp.descs ∈ fl) (h_holdings : Comp.holdings ∈ fl) (h_fences : Comp.fences ∈ fl) (h_deadlines : Comp.deadlines ∈ fl) (h_leases : Comp.leases ∈ fl) (h_arming : Comp.arming ∈ fl) (h_heldq : Comp.heldq ∈ fl) (h_sn : Comp.sn ∈ fl) (h_dir : Comp.dir ∈ fl) (h_tack : Comp.tack ∈ fl) (h_fports : Comp.fports ∈ fl) (h_trees : Comp.trees ∈ fl) (h_counters : Comp.counters ∈ fl) (h_gctr : Comp.gctr ∈ fl) (h_rake : Comp.rake ∈ fl) (h_trace : Comp.trace ∈ fl) (h_watches : Comp.watches ∈ fl) (h_irq : Comp.irq ∈ fl) (h_mem : Comp.mem ∈ fl) (h_mmPort : Comp.mmPort ∈ fl) (h_free : Comp.free ∈ fl) (hk : Frame fl fr s) : Frame fl fr (releaseAwl q s) := by
  unfold releaseAwl
  repeat' first
    | with_reducible assumption
    | (with_reducible exact Or.inl (by assumption))
    | (with_reducible exact Or.inr rfl)
    | with_reducible apply State.modSeq_frame
    | with_reducible apply State.modMsq_frame
    | with_reducible apply resumePart_frame
    | with_reducible apply Frame.ite
    | (with_reducible refine Frame.foldl (fun _ _ _ => ?_) ?_)
    | split
    | dsimp only

theorem quiesceSeq_frame {fl : List Comp} {fr : State} (q : SeqNo) (s : State) (h_seqs : Comp.seqs ∈ fl) (h_cmds : Comp.cmds ∈ fl) (h_wins : Comp.wins ∈ fl) (h_parts : Comp.parts ∈ fl) (h_binds : Comp.binds ∈ fl) (h_aps : Comp.aps ∈ fl) (h_ops : Comp.ops ∈ fl) (h_merges : Comp.merges ∈ fl) (h_rr : Comp.rr ∈ fl) (h_rows : Comp.rows ∈ fl) (h_banks : Comp.banks ∈ fl) (h_waiters : Comp.waiters ∈ fl) (h_records : Comp.records ∈ fl) (h_early : Comp.early ∈ fl) (h_spillWakes : Comp.spillWakes ∈ fl) (h_fetching : Comp.fetching ∈ fl) (h_descs : Comp.descs ∈ fl) (h_holdings : Comp.holdings ∈ fl) (h_fences : Comp.fences ∈ fl) (h_deadlines : Comp.deadlines ∈ fl) (h_leases : Comp.leases ∈ fl) (h_arming : Comp.arming ∈ fl) (h_heldq : Comp.heldq ∈ fl) (h_sn : Comp.sn ∈ fl) (h_dir : Comp.dir ∈ fl) (h_tack : Comp.tack ∈ fl) (h_fports : Comp.fports ∈ fl) (h_trees : Comp.trees ∈ fl) (h_counters : Comp.counters ∈ fl) (h_gctr : Comp.gctr ∈ fl) (h_rake : Comp.rake ∈ fl) (h_trace : Comp.trace ∈ fl) (h_watches : Comp.watches ∈ fl) (h_irq : Comp.irq ∈ fl) (h_mem : Comp.mem ∈ fl) (h_mmPort : Comp.mmPort ∈ fl) (h_free : Comp.free ∈ fl) (hk : Frame fl fr s) : Frame fl fr (quiesceSeq q s) := by
  unfold quiesceSeq
  repeat' first
    | with_reducible assumption
    | (with_reducible exact Or.inl (by assumption))
    | (with_reducible exact Or.inr rfl)
    | with_reducible apply State.modSeq_frame
    | with_reducible apply releaseAwl_frame
    | with_reducible apply Frame.ite
    | split
    | dsimp only

theorem beginApply_frame {fl : List Comp} {fr : State} (c : Cmd) (pushed : Option (List Byte × Staged)) (s : State) (h_seqs : Comp.seqs ∈ fl) (h_cmds : Comp.cmds ∈ fl) (h_fwApply : Comp.fwApply ∈ fl) (h_wins : Comp.wins ∈ fl) (h_parts : Comp.parts ∈ fl) (h_binds : Comp.binds ∈ fl) (h_aps : Comp.aps ∈ fl) (h_ops : Comp.ops ∈ fl) (h_merges : Comp.merges ∈ fl) (h_rr : Comp.rr ∈ fl) (h_rows : Comp.rows ∈ fl) (h_banks : Comp.banks ∈ fl) (h_waiters : Comp.waiters ∈ fl) (h_records : Comp.records ∈ fl) (h_early : Comp.early ∈ fl) (h_spillWakes : Comp.spillWakes ∈ fl) (h_fetching : Comp.fetching ∈ fl) (h_descs : Comp.descs ∈ fl) (h_holdings : Comp.holdings ∈ fl) (h_fences : Comp.fences ∈ fl) (h_deadlines : Comp.deadlines ∈ fl) (h_leases : Comp.leases ∈ fl) (h_arming : Comp.arming ∈ fl) (h_heldq : Comp.heldq ∈ fl) (h_sn : Comp.sn ∈ fl) (h_dir : Comp.dir ∈ fl) (h_tack : Comp.tack ∈ fl) (h_fports : Comp.fports ∈ fl) (h_trees : Comp.trees ∈ fl) (h_counters : Comp.counters ∈ fl) (h_gctr : Comp.gctr ∈ fl) (h_rake : Comp.rake ∈ fl) (h_trace : Comp.trace ∈ fl) (h_watches : Comp.watches ∈ fl) (h_irq : Comp.irq ∈ fl) (h_mem : Comp.mem ∈ fl) (h_mmPort : Comp.mmPort ∈ fl) (h_free : Comp.free ∈ fl) (hk : Frame fl fr s) : Frame fl fr (beginApply c pushed s) := by
  unfold beginApply
  repeat' first
    | with_reducible assumption
    | (with_reducible exact Or.inl (by assumption))
    | (with_reducible exact Or.inr rfl)
    | with_reducible apply State.modMsq_frame
    | with_reducible apply startWait_frame
    | with_reducible apply quiesceSeq_frame
    | with_reducible apply Frame.ite
    | split
    | dsimp only

theorem fwApply_frame {fl : List Comp} {fr : State} (c : Cmd) (s : State) (h_fwStore : Comp.fwStore ∈ fl) (h_seqs : Comp.seqs ∈ fl) (h_cmds : Comp.cmds ∈ fl) (h_fwApply : Comp.fwApply ∈ fl) (h_wins : Comp.wins ∈ fl) (h_parts : Comp.parts ∈ fl) (h_binds : Comp.binds ∈ fl) (h_aps : Comp.aps ∈ fl) (h_ops : Comp.ops ∈ fl) (h_merges : Comp.merges ∈ fl) (h_rr : Comp.rr ∈ fl) (h_rows : Comp.rows ∈ fl) (h_banks : Comp.banks ∈ fl) (h_waiters : Comp.waiters ∈ fl) (h_records : Comp.records ∈ fl) (h_early : Comp.early ∈ fl) (h_spillWakes : Comp.spillWakes ∈ fl) (h_fetching : Comp.fetching ∈ fl) (h_descs : Comp.descs ∈ fl) (h_holdings : Comp.holdings ∈ fl) (h_fences : Comp.fences ∈ fl) (h_deadlines : Comp.deadlines ∈ fl) (h_leases : Comp.leases ∈ fl) (h_arming : Comp.arming ∈ fl) (h_heldq : Comp.heldq ∈ fl) (h_sn : Comp.sn ∈ fl) (h_dir : Comp.dir ∈ fl) (h_tack : Comp.tack ∈ fl) (h_fports : Comp.fports ∈ fl) (h_trees : Comp.trees ∈ fl) (h_counters : Comp.counters ∈ fl) (h_gctr : Comp.gctr ∈ fl) (h_rake : Comp.rake ∈ fl) (h_trace : Comp.trace ∈ fl) (h_watches : Comp.watches ∈ fl) (h_irq : Comp.irq ∈ fl) (h_mem : Comp.mem ∈ fl) (h_mmPort : Comp.mmPort ∈ fl) (h_free : Comp.free ∈ fl) (hk : Frame fl fr s) : Frame fl fr (fwApply c s) := by
  unfold fwApply
  repeat' first
    | with_reducible assumption
    | (with_reducible exact Or.inl (by assumption))
    | (with_reducible exact Or.inr rfl)
    | with_reducible apply refuse_frame
    | with_reducible apply fwWrite_frame
    | with_reducible apply beginApply_frame
    | with_reducible apply Frame.ite
    | split
    | dsimp only

theorem startSeq_frame {fl : List Comp} {fr : State} (q : SeqNo) (version : Word) (s : State) (h_seqs : Comp.seqs ∈ fl) (hk : Frame fl fr s) : Frame fl fr (startSeq q version s) := by
  unfold startSeq
  repeat' first
    | with_reducible assumption
    | (with_reducible exact Or.inl (by assumption))
    | (with_reducible exact Or.inr rfl)
    | with_reducible apply State.modSeq_frame
    | dsimp only

theorem applyDone_frame {fl : List Comp} {fr : State} (a : FwApply) (st : Status) (rejected : BitVec 4) (ver : Word) (s : State) (h_cmds : Comp.cmds ∈ fl) (h_fwApply : Comp.fwApply ∈ fl) (h_wins : Comp.wins ∈ fl) (h_aps : Comp.aps ∈ fl) (h_ops : Comp.ops ∈ fl) (h_fports : Comp.fports ∈ fl) (h_counters : Comp.counters ∈ fl) (h_gctr : Comp.gctr ∈ fl) (h_rake : Comp.rake ∈ fl) (h_trace : Comp.trace ∈ fl) (h_irq : Comp.irq ∈ fl) (h_mem : Comp.mem ∈ fl) (h_mmPort : Comp.mmPort ∈ fl) (hk : Frame fl fr s) : Frame fl fr (applyDone a st rejected ver s) := by
  unfold applyDone
  repeat' first
    | with_reducible assumption
    | (with_reducible exact Or.inl (by assumption))
    | (with_reducible exact Or.inr rfl)
    | with_reducible apply State.modMsq_frame
    | with_reducible apply complete_frame
    | split
    | dsimp only

theorem dropSeq_frame {fl : List Comp} {fr : State} (q : SeqNo) (s : State) (h_seqs : Comp.seqs ∈ fl) (h_irq : Comp.irq ∈ fl) (hk : Frame fl fr s) : Frame fl fr (dropSeq q s) := by
  unfold dropSeq
  repeat' first
    | with_reducible assumption
    | (with_reducible exact Or.inl (by assumption))
    | (with_reducible exact Or.inr rfl)
    | with_reducible apply State.modSeq_frame
    | with_reducible apply raiseGlobal_frame
    | dsimp only

theorem rejectSeq_frame {fl : List Comp} {fr : State} (q : SeqNo) (s : State) (h_seqs : Comp.seqs ∈ fl) (h_gctr : Comp.gctr ∈ fl) (h_rake : Comp.rake ∈ fl) (h_irq : Comp.irq ∈ fl) (hk : Frame fl fr s) : Frame fl fr (rejectSeq q s) := by
  unfold rejectSeq
  repeat' first
    | with_reducible assumption
    | (with_reducible exact Or.inl (by assumption))
    | (with_reducible exact Or.inr rfl)
    | with_reducible apply report_frame
    | with_reducible apply dropSeq_frame
    | dsimp only

theorem readStaged_frame {fl : List Comp} {fr : State} (a : FwApply) (s : State) (h_mmPort : Comp.mmPort ∈ fl) (hk : Frame fl fr s) : Frame fl fr (readStaged a s) := by
  unfold readStaged
  repeat' first
    | with_reducible assumption
    | (with_reducible exact Or.inl (by assumption))
    | (with_reducible exact Or.inr rfl)
    | with_reducible apply mmRequest_frame
    | split
    | dsimp only

theorem verifyLoad_frame {fl : List Comp} {fr : State} (a : FwApply) (q : SeqNo) (rest : List SeqNo) (x : Staged) (s : State) (h_fwStore : Comp.fwStore ∈ fl) (h_seqs : Comp.seqs ∈ fl) (h_cmds : Comp.cmds ∈ fl) (h_fwApply : Comp.fwApply ∈ fl) (h_wins : Comp.wins ∈ fl) (h_parts : Comp.parts ∈ fl) (h_binds : Comp.binds ∈ fl) (h_aps : Comp.aps ∈ fl) (h_ops : Comp.ops ∈ fl) (h_merges : Comp.merges ∈ fl) (h_rr : Comp.rr ∈ fl) (h_rows : Comp.rows ∈ fl) (h_banks : Comp.banks ∈ fl) (h_waiters : Comp.waiters ∈ fl) (h_records : Comp.records ∈ fl) (h_early : Comp.early ∈ fl) (h_spillWakes : Comp.spillWakes ∈ fl) (h_fetching : Comp.fetching ∈ fl) (h_descs : Comp.descs ∈ fl) (h_holdings : Comp.holdings ∈ fl) (h_fences : Comp.fences ∈ fl) (h_deadlines : Comp.deadlines ∈ fl) (h_leases : Comp.leases ∈ fl) (h_arming : Comp.arming ∈ fl) (h_heldq : Comp.heldq ∈ fl) (h_sn : Comp.sn ∈ fl) (h_dir : Comp.dir ∈ fl) (h_tack : Comp.tack ∈ fl) (h_fports : Comp.fports ∈ fl) (h_trees : Comp.trees ∈ fl) (h_inq : Comp.inq ∈ fl) (h_counters : Comp.counters ∈ fl) (h_gctr : Comp.gctr ∈ fl) (h_rake : Comp.rake ∈ fl) (h_trace : Comp.trace ∈ fl) (h_watches : Comp.watches ∈ fl) (h_irq : Comp.irq ∈ fl) (h_mem : Comp.mem ∈ fl) (h_mmPort : Comp.mmPort ∈ fl) (h_free : Comp.free ∈ fl) (hk : Frame fl fr s) : Frame fl fr (verifyLoad a q rest x s) := by
  unfold verifyLoad
  repeat' first
    | with_reducible assumption
    | (with_reducible exact Or.inl (by assumption))
    | (with_reducible exact Or.inr rfl)
    | with_reducible apply State.modMsq_frame
    | with_reducible apply pump_frame
    | with_reducible apply fwWrite_frame
    | with_reducible apply quiesceSeq_frame
    | with_reducible apply startSeq_frame
    | with_reducible apply applyDone_frame
    | with_reducible apply rejectSeq_frame
    | with_reducible apply readStaged_frame
    | with_reducible apply Frame.ite
    | split
    | dsimp only

theorem applyLoad_frame {fl : List Comp} {fr : State} (s : State) (h_fwStore : Comp.fwStore ∈ fl) (h_seqs : Comp.seqs ∈ fl) (h_cmds : Comp.cmds ∈ fl) (h_fwApply : Comp.fwApply ∈ fl) (h_wins : Comp.wins ∈ fl) (h_parts : Comp.parts ∈ fl) (h_binds : Comp.binds ∈ fl) (h_aps : Comp.aps ∈ fl) (h_ops : Comp.ops ∈ fl) (h_merges : Comp.merges ∈ fl) (h_rr : Comp.rr ∈ fl) (h_rows : Comp.rows ∈ fl) (h_banks : Comp.banks ∈ fl) (h_waiters : Comp.waiters ∈ fl) (h_records : Comp.records ∈ fl) (h_early : Comp.early ∈ fl) (h_spillWakes : Comp.spillWakes ∈ fl) (h_fetching : Comp.fetching ∈ fl) (h_descs : Comp.descs ∈ fl) (h_holdings : Comp.holdings ∈ fl) (h_fences : Comp.fences ∈ fl) (h_deadlines : Comp.deadlines ∈ fl) (h_leases : Comp.leases ∈ fl) (h_arming : Comp.arming ∈ fl) (h_heldq : Comp.heldq ∈ fl) (h_sn : Comp.sn ∈ fl) (h_dir : Comp.dir ∈ fl) (h_tack : Comp.tack ∈ fl) (h_fports : Comp.fports ∈ fl) (h_trees : Comp.trees ∈ fl) (h_inq : Comp.inq ∈ fl) (h_counters : Comp.counters ∈ fl) (h_gctr : Comp.gctr ∈ fl) (h_rake : Comp.rake ∈ fl) (h_trace : Comp.trace ∈ fl) (h_watches : Comp.watches ∈ fl) (h_irq : Comp.irq ∈ fl) (h_mem : Comp.mem ∈ fl) (h_mmPort : Comp.mmPort ∈ fl) (h_free : Comp.free ∈ fl) (hk : Frame fl fr s) : Frame fl fr (applyLoad s) := by
  unfold applyLoad
  repeat' first
    | with_reducible assumption
    | (with_reducible exact Or.inl (by assumption))
    | (with_reducible exact Or.inr rfl)
    | with_reducible apply State.modSeq_frame
    | with_reducible apply verifyLoad_frame
    | with_reducible apply Frame.ite
    | split
    | dsimp only

theorem fwQuery_frame {fl : List Comp} {fr : State} (c : Cmd) (s : State) (h_cmds : Comp.cmds ∈ fl) (h_wins : Comp.wins ∈ fl) (h_aps : Comp.aps ∈ fl) (h_ops : Comp.ops ∈ fl) (h_fports : Comp.fports ∈ fl) (h_counters : Comp.counters ∈ fl) (h_gctr : Comp.gctr ∈ fl) (h_rake : Comp.rake ∈ fl) (h_trace : Comp.trace ∈ fl) (h_irq : Comp.irq ∈ fl) (h_mem : Comp.mem ∈ fl) (h_mmPort : Comp.mmPort ∈ fl) (hk : Frame fl fr s) : Frame fl fr (fwQuery c s) := by
  unfold fwQuery
  repeat' first
    | with_reducible assumption
    | (with_reducible exact Or.inl (by assumption))
    | (with_reducible exact Or.inr rfl)
    | with_reducible apply ok_frame
    | dsimp only

theorem bootLoad_frame {fl : List Comp} {fr : State} (s : State) (h_fwStore : Comp.fwStore ∈ fl) (h_service : Comp.service ∈ fl) (h_seqs : Comp.seqs ∈ fl) (h_cmds : Comp.cmds ∈ fl) (h_wins : Comp.wins ∈ fl) (h_parts : Comp.parts ∈ fl) (h_aps : Comp.aps ∈ fl) (h_ops : Comp.ops ∈ fl) (h_merges : Comp.merges ∈ fl) (h_rows : Comp.rows ∈ fl) (h_banks : Comp.banks ∈ fl) (h_waiters : Comp.waiters ∈ fl) (h_records : Comp.records ∈ fl) (h_early : Comp.early ∈ fl) (h_spillWakes : Comp.spillWakes ∈ fl) (h_fetching : Comp.fetching ∈ fl) (h_descs : Comp.descs ∈ fl) (h_holdings : Comp.holdings ∈ fl) (h_fences : Comp.fences ∈ fl) (h_deadlines : Comp.deadlines ∈ fl) (h_leases : Comp.leases ∈ fl) (h_arming : Comp.arming ∈ fl) (h_heldq : Comp.heldq ∈ fl) (h_sn : Comp.sn ∈ fl) (h_dir : Comp.dir ∈ fl) (h_tack : Comp.tack ∈ fl) (h_fports : Comp.fports ∈ fl) (h_trees : Comp.trees ∈ fl) (h_inq : Comp.inq ∈ fl) (h_counters : Comp.counters ∈ fl) (h_gctr : Comp.gctr ∈ fl) (h_rake : Comp.rake ∈ fl) (h_trace : Comp.trace ∈ fl) (h_watches : Comp.watches ∈ fl) (h_irq : Comp.irq ∈ fl) (h_mem : Comp.mem ∈ fl) (h_mmPort : Comp.mmPort ∈ fl) (h_free : Comp.free ∈ fl) (hk : Frame fl fr s) : Frame fl fr (bootLoad s) := by
  unfold bootLoad
  repeat' first
    | with_reducible assumption
    | (with_reducible exact Or.inl (by assumption))
    | (with_reducible exact Or.inr rfl)
    | with_reducible apply State.modSlu_frame
    | with_reducible apply mmRequest_frame
    | with_reducible apply raiseGlobal_frame
    | with_reducible apply report_frame
    | with_reducible apply pump_frame
    | with_reducible apply service_frame
    | with_reducible apply fwWrite_frame
    | with_reducible apply startSeq_frame
    | with_reducible apply Frame.ite
    | (with_reducible refine Frame.foldl (fun _ _ _ => ?_) ?_)
    | split
    | dsimp only

theorem awlSet_frame {fl : List Comp} {fr : State} (c : Cmd) (s : State) (h_seqs : Comp.seqs ∈ fl) (h_cmds : Comp.cmds ∈ fl) (h_wins : Comp.wins ∈ fl) (h_aps : Comp.aps ∈ fl) (h_ops : Comp.ops ∈ fl) (h_fports : Comp.fports ∈ fl) (h_counters : Comp.counters ∈ fl) (h_gctr : Comp.gctr ∈ fl) (h_rake : Comp.rake ∈ fl) (h_trace : Comp.trace ∈ fl) (h_irq : Comp.irq ∈ fl) (h_mem : Comp.mem ∈ fl) (h_mmPort : Comp.mmPort ∈ fl) (hk : Frame fl fr s) : Frame fl fr (awlSet c s) := by
  unfold awlSet
  repeat' first
    | with_reducible assumption
    | (with_reducible exact Or.inl (by assumption))
    | (with_reducible exact Or.inr rfl)
    | with_reducible apply State.modSeq_frame
    | with_reducible apply ok_frame
    | dsimp only

theorem awlClear_frame {fl : List Comp} {fr : State} (c : Cmd) (s : State) (h_seqs : Comp.seqs ∈ fl) (h_cmds : Comp.cmds ∈ fl) (h_wins : Comp.wins ∈ fl) (h_aps : Comp.aps ∈ fl) (h_ops : Comp.ops ∈ fl) (h_fports : Comp.fports ∈ fl) (h_counters : Comp.counters ∈ fl) (h_gctr : Comp.gctr ∈ fl) (h_rake : Comp.rake ∈ fl) (h_trace : Comp.trace ∈ fl) (h_irq : Comp.irq ∈ fl) (h_mem : Comp.mem ∈ fl) (h_mmPort : Comp.mmPort ∈ fl) (hk : Frame fl fr s) : Frame fl fr (awlClear c s) := by
  unfold awlClear
  repeat' first
    | with_reducible assumption
    | (with_reducible exact Or.inl (by assumption))
    | (with_reducible exact Or.inr rfl)
    | with_reducible apply State.modSeq_frame
    | with_reducible apply ok_frame
    | dsimp only

theorem awlResume_frame {fl : List Comp} {fr : State} (c : Cmd) (s : State) (h_seqs : Comp.seqs ∈ fl) (h_cmds : Comp.cmds ∈ fl) (h_wins : Comp.wins ∈ fl) (h_parts : Comp.parts ∈ fl) (h_binds : Comp.binds ∈ fl) (h_aps : Comp.aps ∈ fl) (h_ops : Comp.ops ∈ fl) (h_merges : Comp.merges ∈ fl) (h_rr : Comp.rr ∈ fl) (h_rows : Comp.rows ∈ fl) (h_banks : Comp.banks ∈ fl) (h_waiters : Comp.waiters ∈ fl) (h_records : Comp.records ∈ fl) (h_early : Comp.early ∈ fl) (h_spillWakes : Comp.spillWakes ∈ fl) (h_fetching : Comp.fetching ∈ fl) (h_descs : Comp.descs ∈ fl) (h_holdings : Comp.holdings ∈ fl) (h_fences : Comp.fences ∈ fl) (h_deadlines : Comp.deadlines ∈ fl) (h_leases : Comp.leases ∈ fl) (h_arming : Comp.arming ∈ fl) (h_heldq : Comp.heldq ∈ fl) (h_sn : Comp.sn ∈ fl) (h_dir : Comp.dir ∈ fl) (h_tack : Comp.tack ∈ fl) (h_fports : Comp.fports ∈ fl) (h_trees : Comp.trees ∈ fl) (h_counters : Comp.counters ∈ fl) (h_gctr : Comp.gctr ∈ fl) (h_rake : Comp.rake ∈ fl) (h_trace : Comp.trace ∈ fl) (h_watches : Comp.watches ∈ fl) (h_irq : Comp.irq ∈ fl) (h_mem : Comp.mem ∈ fl) (h_mmPort : Comp.mmPort ∈ fl) (h_free : Comp.free ∈ fl) (hk : Frame fl fr s) : Frame fl fr (awlResume c s) := by
  unfold awlResume
  repeat' first
    | with_reducible assumption
    | (with_reducible exact Or.inl (by assumption))
    | (with_reducible exact Or.inr rfl)
    | with_reducible apply State.modSeq_frame
    | with_reducible apply ok_frame
    | with_reducible apply refuse_frame
    | with_reducible apply releaseAwl_frame
    | with_reducible apply Frame.ite
    | split
    | dsimp only

theorem haltSeq_frame {fl : List Comp} {fr : State} (q : SeqNo) (n : BitVec 3) (kind : Bool) (pc : Word) (c : Option Cmd) (s : State) (h_seqs : Comp.seqs ∈ fl) (h_cmds : Comp.cmds ∈ fl) (h_wins : Comp.wins ∈ fl) (h_parts : Comp.parts ∈ fl) (h_aps : Comp.aps ∈ fl) (h_ops : Comp.ops ∈ fl) (h_merges : Comp.merges ∈ fl) (h_rows : Comp.rows ∈ fl) (h_banks : Comp.banks ∈ fl) (h_waiters : Comp.waiters ∈ fl) (h_records : Comp.records ∈ fl) (h_early : Comp.early ∈ fl) (h_spillWakes : Comp.spillWakes ∈ fl) (h_fetching : Comp.fetching ∈ fl) (h_descs : Comp.descs ∈ fl) (h_holdings : Comp.holdings ∈ fl) (h_fences : Comp.fences ∈ fl) (h_deadlines : Comp.deadlines ∈ fl) (h_leases : Comp.leases ∈ fl) (h_arming : Comp.arming ∈ fl) (h_heldq : Comp.heldq ∈ fl) (h_sn : Comp.sn ∈ fl) (h_dir : Comp.dir ∈ fl) (h_tack : Comp.tack ∈ fl) (h_fports : Comp.fports ∈ fl) (h_trees : Comp.trees ∈ fl) (h_inq : Comp.inq ∈ fl) (h_counters : Comp.counters ∈ fl) (h_gctr : Comp.gctr ∈ fl) (h_rake : Comp.rake ∈ fl) (h_trace : Comp.trace ∈ fl) (h_watches : Comp.watches ∈ fl) (h_irq : Comp.irq ∈ fl) (h_mem : Comp.mem ∈ fl) (h_mmPort : Comp.mmPort ∈ fl) (h_free : Comp.free ∈ fl) (hk : Frame fl fr s) : Frame fl fr (haltSeq q n kind pc c s) := by
  unfold haltSeq
  repeat' first
    | with_reducible assumption
    | (with_reducible exact Or.inl (by assumption))
    | (with_reducible exact Or.inr rfl)
    | with_reducible apply State.modSeq_frame
    | with_reducible apply raiseGlobal_frame
    | with_reducible apply setPhase_frame
    | with_reducible apply pump_frame
    | with_reducible apply drainPart_frame
    | with_reducible apply Frame.ite
    | (with_reducible refine Frame.foldl (fun _ _ _ => ?_) ?_)
    | split
    | dsimp only

theorem awlHit_frame {fl : List Comp} {fr : State} (q : SeqNo) (pc : Word) (s : State) (h_seqs : Comp.seqs ∈ fl) (h_cmds : Comp.cmds ∈ fl) (h_wins : Comp.wins ∈ fl) (h_parts : Comp.parts ∈ fl) (h_aps : Comp.aps ∈ fl) (h_ops : Comp.ops ∈ fl) (h_merges : Comp.merges ∈ fl) (h_rows : Comp.rows ∈ fl) (h_banks : Comp.banks ∈ fl) (h_waiters : Comp.waiters ∈ fl) (h_records : Comp.records ∈ fl) (h_early : Comp.early ∈ fl) (h_spillWakes : Comp.spillWakes ∈ fl) (h_fetching : Comp.fetching ∈ fl) (h_descs : Comp.descs ∈ fl) (h_holdings : Comp.holdings ∈ fl) (h_fences : Comp.fences ∈ fl) (h_deadlines : Comp.deadlines ∈ fl) (h_leases : Comp.leases ∈ fl) (h_arming : Comp.arming ∈ fl) (h_heldq : Comp.heldq ∈ fl) (h_sn : Comp.sn ∈ fl) (h_dir : Comp.dir ∈ fl) (h_tack : Comp.tack ∈ fl) (h_fports : Comp.fports ∈ fl) (h_trees : Comp.trees ∈ fl) (h_inq : Comp.inq ∈ fl) (h_counters : Comp.counters ∈ fl) (h_gctr : Comp.gctr ∈ fl) (h_rake : Comp.rake ∈ fl) (h_trace : Comp.trace ∈ fl) (h_watches : Comp.watches ∈ fl) (h_irq : Comp.irq ∈ fl) (h_mem : Comp.mem ∈ fl) (h_mmPort : Comp.mmPort ∈ fl) (h_free : Comp.free ∈ fl) (hk : Frame fl fr s) : Frame fl fr (awlHit q pc s) := by
  unfold awlHit
  repeat' first
    | with_reducible assumption
    | (with_reducible exact Or.inl (by assumption))
    | (with_reducible exact Or.inr rfl)
    | with_reducible apply State.modSeq_frame
    | with_reducible apply awlMiss_frame
    | with_reducible apply haltSeq_frame
    | with_reducible apply Frame.ite
    | split
    | dsimp only

theorem gateCmd_frame {fl : List Comp} {fr : State} (c : Cmd) (s : State) (h_cmds : Comp.cmds ∈ fl) (h_wins : Comp.wins ∈ fl) (h_aps : Comp.aps ∈ fl) (h_ops : Comp.ops ∈ fl) (h_banks : Comp.banks ∈ fl) (h_fports : Comp.fports ∈ fl) (h_counters : Comp.counters ∈ fl) (h_gctr : Comp.gctr ∈ fl) (h_rake : Comp.rake ∈ fl) (h_trace : Comp.trace ∈ fl) (h_irq : Comp.irq ∈ fl) (h_mem : Comp.mem ∈ fl) (h_mmPort : Comp.mmPort ∈ fl) (hk : Frame fl fr s) : Frame fl fr (gateCmd c s) := by
  unfold gateCmd
  repeat' first
    | with_reducible assumption
    | (with_reducible exact Or.inl (by assumption))
    | (with_reducible exact Or.inr rfl)
    | with_reducible apply State.modObk_frame
    | with_reducible apply wakeBank_frame
    | with_reducible apply ok_frame
    | with_reducible apply refuse_frame
    | with_reducible apply startWait_frame
    | with_reducible apply Frame.ite
    | split
    | dsimp only

theorem endCmd_frame {fl : List Comp} {fr : State} (id : Nat) (st : Status) (detail : Word) (s : State) (h_cmds : Comp.cmds ∈ fl) (h_wins : Comp.wins ∈ fl) (h_aps : Comp.aps ∈ fl) (h_ops : Comp.ops ∈ fl) (h_fports : Comp.fports ∈ fl) (h_counters : Comp.counters ∈ fl) (h_gctr : Comp.gctr ∈ fl) (h_rake : Comp.rake ∈ fl) (h_trace : Comp.trace ∈ fl) (h_irq : Comp.irq ∈ fl) (h_mem : Comp.mem ∈ fl) (h_mmPort : Comp.mmPort ∈ fl) (hk : Frame fl fr s) : Frame fl fr (endCmd id st detail s) := by
  unfold endCmd
  repeat' first
    | with_reducible assumption
    | (with_reducible exact Or.inl (by assumption))
    | (with_reducible exact Or.inr rfl)
    | with_reducible apply complete_frame
    | split
    | dsimp only

theorem gateDone_frame {fl : List Comp} {fr : State} (s : State) (h_cmds : Comp.cmds ∈ fl) (h_wins : Comp.wins ∈ fl) (h_parts : Comp.parts ∈ fl) (h_aps : Comp.aps ∈ fl) (h_ops : Comp.ops ∈ fl) (h_merges : Comp.merges ∈ fl) (h_rows : Comp.rows ∈ fl) (h_banks : Comp.banks ∈ fl) (h_waiters : Comp.waiters ∈ fl) (h_records : Comp.records ∈ fl) (h_early : Comp.early ∈ fl) (h_spillWakes : Comp.spillWakes ∈ fl) (h_fetching : Comp.fetching ∈ fl) (h_descs : Comp.descs ∈ fl) (h_holdings : Comp.holdings ∈ fl) (h_fences : Comp.fences ∈ fl) (h_deadlines : Comp.deadlines ∈ fl) (h_leases : Comp.leases ∈ fl) (h_arming : Comp.arming ∈ fl) (h_heldq : Comp.heldq ∈ fl) (h_sn : Comp.sn ∈ fl) (h_dir : Comp.dir ∈ fl) (h_tack : Comp.tack ∈ fl) (h_fports : Comp.fports ∈ fl) (h_trees : Comp.trees ∈ fl) (h_inq : Comp.inq ∈ fl) (h_counters : Comp.counters ∈ fl) (h_gctr : Comp.gctr ∈ fl) (h_rake : Comp.rake ∈ fl) (h_trace : Comp.trace ∈ fl) (h_watches : Comp.watches ∈ fl) (h_irq : Comp.irq ∈ fl) (h_mem : Comp.mem ∈ fl) (h_mmPort : Comp.mmPort ∈ fl) (h_free : Comp.free ∈ fl) (hk : Frame fl fr s) : Frame fl fr (gateDone s) := by
  unfold gateDone
  repeat' first
    | with_reducible assumption
    | (with_reducible exact Or.inl (by assumption))
    | (with_reducible exact Or.inr rfl)
    | with_reducible apply State.modObk_frame
    | with_reducible apply pump_frame
    | with_reducible apply endCmd_frame
    | with_reducible apply Frame.ite
    | split
    | dsimp only

theorem repower_frame {fl : List Comp} {fr : State} (b : Bank) (s : State) (h_cmds : Comp.cmds ∈ fl) (h_wins : Comp.wins ∈ fl) (h_parts : Comp.parts ∈ fl) (h_aps : Comp.aps ∈ fl) (h_ops : Comp.ops ∈ fl) (h_merges : Comp.merges ∈ fl) (h_rows : Comp.rows ∈ fl) (h_banks : Comp.banks ∈ fl) (h_waiters : Comp.waiters ∈ fl) (h_records : Comp.records ∈ fl) (h_early : Comp.early ∈ fl) (h_spillWakes : Comp.spillWakes ∈ fl) (h_fetching : Comp.fetching ∈ fl) (h_descs : Comp.descs ∈ fl) (h_holdings : Comp.holdings ∈ fl) (h_fences : Comp.fences ∈ fl) (h_deadlines : Comp.deadlines ∈ fl) (h_leases : Comp.leases ∈ fl) (h_arming : Comp.arming ∈ fl) (h_heldq : Comp.heldq ∈ fl) (h_sn : Comp.sn ∈ fl) (h_dir : Comp.dir ∈ fl) (h_tack : Comp.tack ∈ fl) (h_fports : Comp.fports ∈ fl) (h_trees : Comp.trees ∈ fl) (h_inq : Comp.inq ∈ fl) (h_counters : Comp.counters ∈ fl) (h_gctr : Comp.gctr ∈ fl) (h_rake : Comp.rake ∈ fl) (h_trace : Comp.trace ∈ fl) (h_watches : Comp.watches ∈ fl) (h_irq : Comp.irq ∈ fl) (h_mem : Comp.mem ∈ fl) (h_mmPort : Comp.mmPort ∈ fl) (h_free : Comp.free ∈ fl) (hk : Frame fl fr s) : Frame fl fr (repower b s) := by
  unfold repower
  repeat' first
    | with_reducible assumption
    | (with_reducible exact Or.inl (by assumption))
    | (with_reducible exact Or.inr rfl)
    | with_reducible apply State.modObk_frame
    | with_reducible apply gcount_frame
    | with_reducible apply ok_frame
    | with_reducible apply pump_frame
    | with_reducible apply Frame.ite
    | (with_reducible refine Frame.foldl (fun _ _ _ => ?_) ?_)
    | split
    | dsimp only

theorem burnBank_frame {fl : List Comp} {fr : State} (b : Bank) (s : State) (h_otp : Comp.otp ∈ fl) (h_banks : Comp.banks ∈ fl) (hk : Frame fl fr s) : Frame fl fr (burnBank b s) := by
  unfold burnBank
  repeat' first
    | with_reducible assumption
    | (with_reducible exact Or.inl (by assumption))
    | (with_reducible exact Or.inr rfl)
    | with_reducible apply State.modObk_frame
    | with_reducible apply State.modSlu_frame
    | with_reducible apply Frame.ite
    | split
    | dsimp only

theorem State.setMap_frame {fl : List Comp} {fr : State} (s : State) (l : Nat) (e : MapEntry) (h_banks : Comp.banks ∈ fl) (hk : Frame fl fr s) : Frame fl fr (State.setMap s l e) := by
  unfold State.setMap
  repeat' first
    | with_reducible assumption
    | (with_reducible exact Or.inl (by assumption))
    | (with_reducible exact Or.inr rfl)
    | with_reducible apply State.modObk_frame
    | dsimp only

theorem relocate_frame {fl : List Comp} {fr : State} (lim : Nat) (ms : List (Nat × Nat × Nat)) (s : State) (h_dir : Comp.dir ∈ fl) (hk : Frame fl fr s) : Frame fl fr (relocate lim ms s) := by
  unfold relocate
  repeat' first
    | with_reducible assumption
    | (with_reducible exact Or.inl (by assumption))
    | (with_reducible exact Or.inr rfl)
    | with_reducible apply State.modCtm_frame
    | with_reducible apply Frame.ite
    | (with_reducible refine Frame.foldl (fun _ _ _ => ?_) ?_)
    | split
    | dsimp only

theorem renewMoved_frame {fl : List Comp} {fr : State} (old : State) (s : State) (h_rows : Comp.rows ∈ fl) (h_free : Comp.free ∈ fl) (hk : Frame fl fr s) : Frame fl fr (renewMoved old s) := by
  unfold renewMoved
  repeat' first
    | with_reducible assumption
    | (with_reducible exact Or.inl (by assumption))
    | (with_reducible exact Or.inr rfl)
    | with_reducible apply renewWq_frame
    | with_reducible apply Frame.ite
    | (with_reducible refine Frame.foldl (fun _ _ _ => ?_) ?_)
    | split
    | dsimp only

theorem distribute_frame {fl : List Comp} {fr : State} (l : Nat) (ms : List (Nat × Nat × Nat)) (s : State) (h_rows : Comp.rows ∈ fl) (h_banks : Comp.banks ∈ fl) (h_dir : Comp.dir ∈ fl) (h_free : Comp.free ∈ fl) (hk : Frame fl fr s) : Frame fl fr (distribute l ms s) := by
  unfold distribute
  repeat' first
    | with_reducible assumption
    | (with_reducible exact Or.inl (by assumption))
    | (with_reducible exact Or.inr rfl)
    | with_reducible apply State.modObk_frame
    | with_reducible apply State.setObj_frame
    | with_reducible apply State.setMap_frame
    | with_reducible apply relocate_frame
    | with_reducible apply renewMoved_frame
    | (with_reducible refine Frame.foldl (fun _ _ _ => ?_) ?_)
    | dsimp only

theorem blockRetire_frame {fl : List Comp} {fr : State} (b : Bank) (l : Nat) (s : State) (h_service : Comp.service ∈ fl) (h_wins : Comp.wins ∈ fl) (h_sn : Comp.sn ∈ fl) (h_counters : Comp.counters ∈ fl) (h_irq : Comp.irq ∈ fl) (hk : Frame fl fr s) : Frame fl fr (blockRetire b l s) := by
  unfold blockRetire
  repeat' first
    | with_reducible assumption
    | (with_reducible exact Or.inl (by assumption))
    | (with_reducible exact Or.inr rfl)
    | with_reducible apply service_frame
    | dsimp only

theorem copyRows_frame {fl : List Comp} {fr : State} (b d : Bank) (s : State) (h_rows : Comp.rows ∈ fl) (hk : Frame fl fr s) : Frame fl fr (copyRows b d s) := by
  unfold copyRows
  repeat' first
    | with_reducible assumption
    | (with_reducible exact Or.inl (by assumption))
    | (with_reducible exact Or.inr rfl)
    | with_reducible apply State.modObk_frame
    | (with_reducible refine Frame.foldl (fun _ _ _ => ?_) ?_)
    | dsimp only

theorem holdMoves_frame {fl : List Comp} {fr : State} (s : State) (h_banks : Comp.banks ∈ fl) (hk : Frame fl fr s) : Frame fl fr (holdMoves s) := by
  unfold holdMoves
  repeat' first
    | with_reducible assumption
    | (with_reducible exact Or.inl (by assumption))
    | (with_reducible exact Or.inr rfl)
    | with_reducible apply State.modObk_frame
    | dsimp only

theorem migrationSwitch_frame {fl : List Comp} {fr : State} (s : State) (h_cmds : Comp.cmds ∈ fl) (h_wins : Comp.wins ∈ fl) (h_parts : Comp.parts ∈ fl) (h_aps : Comp.aps ∈ fl) (h_ops : Comp.ops ∈ fl) (h_merges : Comp.merges ∈ fl) (h_rows : Comp.rows ∈ fl) (h_banks : Comp.banks ∈ fl) (h_waiters : Comp.waiters ∈ fl) (h_records : Comp.records ∈ fl) (h_early : Comp.early ∈ fl) (h_spillWakes : Comp.spillWakes ∈ fl) (h_fetching : Comp.fetching ∈ fl) (h_descs : Comp.descs ∈ fl) (h_holdings : Comp.holdings ∈ fl) (h_fences : Comp.fences ∈ fl) (h_deadlines : Comp.deadlines ∈ fl) (h_leases : Comp.leases ∈ fl) (h_arming : Comp.arming ∈ fl) (h_heldq : Comp.heldq ∈ fl) (h_sn : Comp.sn ∈ fl) (h_dir : Comp.dir ∈ fl) (h_tack : Comp.tack ∈ fl) (h_fports : Comp.fports ∈ fl) (h_trees : Comp.trees ∈ fl) (h_inq : Comp.inq ∈ fl) (h_counters : Comp.counters ∈ fl) (h_gctr : Comp.gctr ∈ fl) (h_rake : Comp.rake ∈ fl) (h_trace : Comp.trace ∈ fl) (h_watches : Comp.watches ∈ fl) (h_irq : Comp.irq ∈ fl) (h_mem : Comp.mem ∈ fl) (h_mmPort : Comp.mmPort ∈ fl) (h_free : Comp.free ∈ fl) (hk : Frame fl fr s) : Frame fl fr (migrationSwitch s) := by
  unfold migrationSwitch
  repeat' first
    | with_reducible assumption
    | (with_reducible exact Or.inl (by assumption))
    | (with_reducible exact Or.inr rfl)
    | with_reducible apply State.modObk_frame
    | with_reducible apply pump_frame
    | with_reducible apply State.setMap_frame
    | with_reducible apply renewMoved_frame
    | with_reducible apply copyRows_frame
    | with_reducible apply holdMoves_frame
    | with_reducible apply Frame.ite
    | split
    | dsimp only

theorem addCorr_frame {fl : List Comp} {fr : State} (u : WipeUnit) (n : Nat) (s : State) (h_service : Comp.service ∈ fl) (h_gctr : Comp.gctr ∈ fl) (hk : Frame fl fr s) : Frame fl fr (addCorr u n s) := by
  unfold addCorr
  repeat' first
    | with_reducible assumption
    | (with_reducible exact Or.inl (by assumption))
    | (with_reducible exact Or.inr rfl)
    | with_reducible apply State.modSlu_frame
    | with_reducible apply gcountN_frame
    | dsimp only

theorem failOp_frame {fl : List Comp} {fr : State} (id : Nat) (s : State) (h_wins : Comp.wins ∈ fl) (h_aps : Comp.aps ∈ fl) (h_ops : Comp.ops ∈ fl) (h_fports : Comp.fports ∈ fl) (h_counters : Comp.counters ∈ fl) (h_gctr : Comp.gctr ∈ fl) (h_rake : Comp.rake ∈ fl) (h_trace : Comp.trace ∈ fl) (h_irq : Comp.irq ∈ fl) (hk : Frame fl fr s) : Frame fl fr (failOp id s) := by
  unfold failOp
  repeat' first
    | with_reducible assumption
    | (with_reducible exact Or.inl (by assumption))
    | (with_reducible exact Or.inr rfl)
    | with_reducible apply finish_frame
    | with_reducible apply Frame.ite
    | split
    | dsimp only

theorem dropOut_frame {fl : List Comp} {fr : State} (k : OKey) (s : State) (h_tack : Comp.tack ∈ fl) (h_mem : Comp.mem ∈ fl) (h_mmPort : Comp.mmPort ∈ fl) (hk : Frame fl fr s) : Frame fl fr (dropOut k s) := by
  unfold dropOut
  repeat' first
    | with_reducible assumption
    | (with_reducible exact Or.inl (by assumption))
    | (with_reducible exact Or.inr rfl)
    | with_reducible apply writeTack_frame
    | with_reducible apply modTack_frame
    | split
    | dsimp only

theorem loseObject_frame {fl : List Comp} {fr : State} (k : OKey) (s : State) (h_wins : Comp.wins ∈ fl) (h_parts : Comp.parts ∈ fl) (h_aps : Comp.aps ∈ fl) (h_ops : Comp.ops ∈ fl) (h_due : Comp.due ∈ fl) (h_rows : Comp.rows ∈ fl) (h_waiters : Comp.waiters ∈ fl) (h_records : Comp.records ∈ fl) (h_early : Comp.early ∈ fl) (h_spillWakes : Comp.spillWakes ∈ fl) (h_fetching : Comp.fetching ∈ fl) (h_descs : Comp.descs ∈ fl) (h_holdings : Comp.holdings ∈ fl) (h_fences : Comp.fences ∈ fl) (h_deadlines : Comp.deadlines ∈ fl) (h_leases : Comp.leases ∈ fl) (h_arming : Comp.arming ∈ fl) (h_heldq : Comp.heldq ∈ fl) (h_decs : Comp.decs ∈ fl) (h_sn : Comp.sn ∈ fl) (h_tack : Comp.tack ∈ fl) (h_fports : Comp.fports ∈ fl) (h_counters : Comp.counters ∈ fl) (h_gctr : Comp.gctr ∈ fl) (h_rake : Comp.rake ∈ fl) (h_watches : Comp.watches ∈ fl) (h_irq : Comp.irq ∈ fl) (h_mem : Comp.mem ∈ fl) (h_mmPort : Comp.mmPort ∈ fl) (h_free : Comp.free ∈ fl) (hk : Frame fl fr s) : Frame fl fr (loseObject k s) := by
  unfold loseObject
  repeat' first
    | with_reducible assumption
    | (with_reducible exact Or.inl (by assumption))
    | (with_reducible exact Or.inr rfl)
    | with_reducible apply inner_frame
    | with_reducible apply destroyObject_frame
    | with_reducible apply dropOut_frame
    | split
    | dsimp only

theorem storeFault_frame {fl : List Comp} {fr : State} (m : Store × Nat) (s : State) (h_service : Comp.service ∈ fl) (h_wins : Comp.wins ∈ fl) (h_rows : Comp.rows ∈ fl) (h_waiters : Comp.waiters ∈ fl) (h_early : Comp.early ∈ fl) (h_descs : Comp.descs ∈ fl) (h_sn : Comp.sn ∈ fl) (h_counters : Comp.counters ∈ fl) (h_gctr : Comp.gctr ∈ fl) (h_irq : Comp.irq ∈ fl) (h_mem : Comp.mem ∈ fl) (h_mmPort : Comp.mmPort ∈ fl) (h_free : Comp.free ∈ fl) (hk : Frame fl fr s) : Frame fl fr (storeFault m s) := by
  unfold storeFault
  repeat' first
    | with_reducible assumption
    | (with_reducible exact Or.inl (by assumption))
    | (with_reducible exact Or.inr rfl)
    | with_reducible apply State.modSlu_frame
    | with_reducible apply spillLoop_frame
    | with_reducible apply service_frame
    | with_reducible apply Frame.ite
    | split
    | dsimp only

theorem repeatError_frame {fl : List Comp} {fr : State} (m : Store × Nat) (s : State) (h_service : Comp.service ∈ fl) (h_wins : Comp.wins ∈ fl) (h_rows : Comp.rows ∈ fl) (h_waiters : Comp.waiters ∈ fl) (h_early : Comp.early ∈ fl) (h_descs : Comp.descs ∈ fl) (h_sn : Comp.sn ∈ fl) (h_counters : Comp.counters ∈ fl) (h_gctr : Comp.gctr ∈ fl) (h_irq : Comp.irq ∈ fl) (h_mem : Comp.mem ∈ fl) (h_mmPort : Comp.mmPort ∈ fl) (h_free : Comp.free ∈ fl) (hk : Frame fl fr s) : Frame fl fr (repeatError m s) := by
  unfold repeatError
  repeat' first
    | with_reducible assumption
    | (with_reducible exact Or.inl (by assumption))
    | (with_reducible exact Or.inr rfl)
    | with_reducible apply State.modSlu_frame
    | with_reducible apply storeFault_frame
    | with_reducible apply Frame.ite
    | split
    | dsimp only

theorem fuseService_frame {fl : List Comp} {fr : State} (s : State) (h_service : Comp.service ∈ fl) (h_wins : Comp.wins ∈ fl) (h_sn : Comp.sn ∈ fl) (h_counters : Comp.counters ∈ fl) (h_irq : Comp.irq ∈ fl) (hk : Frame fl fr s) : Frame fl fr (fuseService s) := by
  unfold fuseService
  repeat' first
    | with_reducible assumption
    | (with_reducible exact Or.inl (by assumption))
    | (with_reducible exact Or.inr rfl)
    | with_reducible apply service_frame
    | with_reducible apply Frame.ite
    | split
    | dsimp only

theorem beginStartup_frame {fl : List Comp} {fr : State} (s : State) (h_clock : Comp.clock ∈ fl) (hk : Frame fl fr s) : Frame fl fr (beginStartup s) := by
  unfold beginStartup
  repeat' first
    | with_reducible assumption
    | (with_reducible exact Or.inl (by assumption))
    | (with_reducible exact Or.inr rfl)
    | with_reducible apply State.modClk_frame
    | with_reducible apply Frame.ite
    | split
    | dsimp only

theorem enterS0_frame {fl : List Comp} {fr : State} (s : State) (h_time : Comp.time ∈ fl) (h_clock : Comp.clock ∈ fl) (h_service : Comp.service ∈ fl) (hk : Frame fl fr s) : Frame fl fr (enterS0 s) := by
  unfold enterS0
  repeat' first
    | with_reducible assumption
    | (with_reducible exact Or.inl (by assumption))
    | (with_reducible exact Or.inr rfl)
    | with_reducible apply State.modSlu_frame
    | with_reducible apply State.modClk_frame
    | with_reducible apply beginStartup_frame
    | dsimp only

theorem finishMigration_frame {fl : List Comp} {fr : State} (s : State) (h_otp : Comp.otp ∈ fl) (h_banks : Comp.banks ∈ fl) (hk : Frame fl fr s) : Frame fl fr (finishMigration s) := by
  unfold finishMigration
  repeat' first
    | with_reducible assumption
    | (with_reducible exact Or.inl (by assumption))
    | (with_reducible exact Or.inr rfl)
    | with_reducible apply State.modObk_frame
    | with_reducible apply burnBank_frame
    | split
    | dsimp only

theorem migrated_frame {fl : List Comp} {fr : State} (r : Option Retire) (s : State) (h_service : Comp.service ∈ fl) (h_wins : Comp.wins ∈ fl) (h_sn : Comp.sn ∈ fl) (h_counters : Comp.counters ∈ fl) (h_irq : Comp.irq ∈ fl) (hk : Frame fl fr s) : Frame fl fr (migrated r s) := by
  unfold migrated
  repeat' first
    | with_reducible assumption
    | (with_reducible exact Or.inl (by assumption))
    | (with_reducible exact Or.inr rfl)
    | with_reducible apply service_frame
    | with_reducible apply Frame.ite
    | split
    | dsimp only

theorem rootLockRise_frame {fl : List Comp} {fr : State} (s : State) (h_clock : Comp.clock ∈ fl) (hk : Frame fl fr s) : Frame fl fr (rootLockRise s) := by
  unfold rootLockRise
  repeat' first
    | with_reducible assumption
    | (with_reducible exact Or.inl (by assumption))
    | (with_reducible exact Or.inr rfl)
    | with_reducible apply State.modClk_frame
    | with_reducible apply beginStartup_frame
    | with_reducible apply Frame.ite
    | split
    | dsimp only

theorem loseBanks_frame {fl : List Comp} {fr : State} (bs : List Bank) (s : State) (h_rows : Comp.rows ∈ fl) (h_banks : Comp.banks ∈ fl) (hk : Frame fl fr s) : Frame fl fr (loseBanks bs s) := by
  unfold loseBanks
  repeat' first
    | with_reducible assumption
    | (with_reducible exact Or.inl (by assumption))
    | (with_reducible exact Or.inr rfl)
    | with_reducible apply State.modObk_frame
    | with_reducible apply Frame.ite
    | (with_reducible refine Frame.foldl (fun _ _ _ => ?_) ?_)
    | split
    | dsimp only

theorem enableWrites_frame {fl : List Comp} {fr : State} (s : State) (h_banks : Comp.banks ∈ fl) (h_fports : Comp.fports ∈ fl) (hk : Frame fl fr s) : Frame fl fr (enableWrites s) := by
  unfold enableWrites
  repeat' first
    | with_reducible assumption
    | (with_reducible exact Or.inl (by assumption))
    | (with_reducible exact Or.inr rfl)
    | with_reducible apply State.modFp_frame
    | with_reducible apply State.modObk_frame
    | with_reducible apply Frame.ite
    | (with_reducible refine Frame.foldl (fun _ _ _ => ?_) ?_)
    | split
    | dsimp only

theorem releaseStep_frame {fl : List Comp} {fr : State} (code : BitVec 2) (s : State) (h_time : Comp.time ∈ fl) (h_clock : Comp.clock ∈ fl) (h_banks : Comp.banks ∈ fl) (h_fports : Comp.fports ∈ fl) (hk : Frame fl fr s) : Frame fl fr (releaseStep code s) := by
  unfold releaseStep
  repeat' first
    | with_reducible assumption
    | (with_reducible exact Or.inl (by assumption))
    | (with_reducible exact Or.inr rfl)
    | with_reducible apply State.modClk_frame
    | with_reducible apply enableWrites_frame
    | split
    | dsimp only

theorem releaseAll_frame {fl : List Comp} {fr : State} (s : State) (h_time : Comp.time ∈ fl) (h_clock : Comp.clock ∈ fl) (h_banks : Comp.banks ∈ fl) (h_fports : Comp.fports ∈ fl) (hk : Frame fl fr s) : Frame fl fr (releaseAll s) := by
  unfold releaseAll
  repeat' first
    | with_reducible assumption
    | (with_reducible exact Or.inl (by assumption))
    | (with_reducible exact Or.inr rfl)
    | with_reducible apply releaseStep_frame
    | (with_reducible refine Frame.foldl (fun _ _ _ => ?_) ?_)
    | dsimp only

theorem wipeEvent_frame {fl : List Comp} {fr : State} (old : State) (failed : List Bank) (u : WipeUnit) (s : State) (h_service : Comp.service ∈ fl) (h_wins : Comp.wins ∈ fl) (h_sn : Comp.sn ∈ fl) (h_counters : Comp.counters ∈ fl) (h_irq : Comp.irq ∈ fl) (hk : Frame fl fr s) : Frame fl fr (wipeEvent old failed u s) := by
  unfold wipeEvent
  repeat' first
    | with_reducible assumption
    | (with_reducible exact Or.inl (by assumption))
    | (with_reducible exact Or.inr rfl)
    | with_reducible apply State.modSlu_frame
    | with_reducible apply service_frame
    | with_reducible apply Frame.ite
    | split
    | dsimp only

theorem wipeFault_frame {fl : List Comp} {fr : State} (old : State) (failed : List Bank) (u : WipeUnit) (s : State) (h_otp : Comp.otp ∈ fl) (h_service : Comp.service ∈ fl) (h_wins : Comp.wins ∈ fl) (h_banks : Comp.banks ∈ fl) (h_sn : Comp.sn ∈ fl) (h_counters : Comp.counters ∈ fl) (h_gctr : Comp.gctr ∈ fl) (h_rake : Comp.rake ∈ fl) (h_irq : Comp.irq ∈ fl) (hk : Frame fl fr s) : Frame fl fr (wipeFault old failed u s) := by
  unfold wipeFault
  repeat' first
    | with_reducible assumption
    | (with_reducible exact Or.inl (by assumption))
    | (with_reducible exact Or.inr rfl)
    | with_reducible apply report_frame
    | with_reducible apply burnBank_frame
    | with_reducible apply wipeEvent_frame
    | split
    | dsimp only

theorem wipeDone_frame {fl : List Comp} {fr : State} (failed : List WipeUnit) (s : State) (h_time : Comp.time ∈ fl) (h_clock : Comp.clock ∈ fl) (h_otp : Comp.otp ∈ fl) (h_service : Comp.service ∈ fl) (h_wins : Comp.wins ∈ fl) (h_rows : Comp.rows ∈ fl) (h_banks : Comp.banks ∈ fl) (h_sn : Comp.sn ∈ fl) (h_fports : Comp.fports ∈ fl) (h_counters : Comp.counters ∈ fl) (h_gctr : Comp.gctr ∈ fl) (h_rake : Comp.rake ∈ fl) (h_irq : Comp.irq ∈ fl) (hk : Frame fl fr s) : Frame fl fr (wipeDone failed s) := by
  unfold wipeDone
  repeat' first
    | with_reducible assumption
    | (with_reducible exact Or.inl (by assumption))
    | (with_reducible exact Or.inr rfl)
    | with_reducible apply State.modClk_frame
    | with_reducible apply loseBanks_frame
    | with_reducible apply releaseAll_frame
    | with_reducible apply wipeEvent_frame
    | with_reducible apply wipeFault_frame
    | with_reducible apply Frame.ite
    | (with_reducible refine Frame.foldl (fun _ _ _ => ?_) ?_)
    | split
    | dsimp only

theorem drainAll_frame {fl : List Comp} {fr : State} (s : State) (h_aps : Comp.aps ∈ fl) (h_ops : Comp.ops ∈ fl) (hk : Frame fl fr s) : Frame fl fr (drainAll s) := by
  unfold drainAll
  repeat' first
    | with_reducible assumption
    | (with_reducible exact Or.inl (by assumption))
    | (with_reducible exact Or.inr rfl)
    | with_reducible apply noticePart_frame
    | (with_reducible refine Frame.foldl (fun _ _ _ => ?_) ?_)
    | dsimp only

theorem acceptLc_frame {fl : List Comp} {fr : State} (c : Cmd) (r : List Byte) (t : Lc) (s : State) (h_otp : Comp.otp ∈ fl) (h_lifecycle : Comp.lifecycle ∈ fl) (h_cmds : Comp.cmds ∈ fl) (h_wins : Comp.wins ∈ fl) (h_aps : Comp.aps ∈ fl) (h_ops : Comp.ops ∈ fl) (h_fports : Comp.fports ∈ fl) (h_counters : Comp.counters ∈ fl) (h_gctr : Comp.gctr ∈ fl) (h_rake : Comp.rake ∈ fl) (h_trace : Comp.trace ∈ fl) (h_irq : Comp.irq ∈ fl) (h_mem : Comp.mem ∈ fl) (h_mmPort : Comp.mmPort ∈ fl) (hk : Frame fl fr s) : Frame fl fr (acceptLc c r t s) := by
  unfold acceptLc
  repeat' first
    | with_reducible assumption
    | (with_reducible exact Or.inl (by assumption))
    | (with_reducible exact Or.inr rfl)
    | with_reducible apply State.modSlu_frame
    | with_reducible apply ok_frame
    | with_reducible apply drainAll_frame
    | with_reducible apply Frame.ite
    | split
    | dsimp only

theorem raiseFloor_frame {fl : List Comp} {fr : State} (c : Cmd) (r : List Byte) (s : State) (h_otp : Comp.otp ∈ fl) (h_cmds : Comp.cmds ∈ fl) (h_wins : Comp.wins ∈ fl) (h_aps : Comp.aps ∈ fl) (h_ops : Comp.ops ∈ fl) (h_fports : Comp.fports ∈ fl) (h_counters : Comp.counters ∈ fl) (h_gctr : Comp.gctr ∈ fl) (h_rake : Comp.rake ∈ fl) (h_trace : Comp.trace ∈ fl) (h_irq : Comp.irq ∈ fl) (h_mem : Comp.mem ∈ fl) (h_mmPort : Comp.mmPort ∈ fl) (hk : Frame fl fr s) : Frame fl fr (raiseFloor c r s) := by
  unfold raiseFloor
  repeat' first
    | with_reducible assumption
    | (with_reducible exact Or.inl (by assumption))
    | (with_reducible exact Or.inr rfl)
    | with_reducible apply State.modSlu_frame
    | with_reducible apply ok_frame
    | dsimp only

theorem lcAdvance_frame {fl : List Comp} {fr : State} (c : Cmd) (s : State) (h_otp : Comp.otp ∈ fl) (h_lifecycle : Comp.lifecycle ∈ fl) (h_cmds : Comp.cmds ∈ fl) (h_wins : Comp.wins ∈ fl) (h_aps : Comp.aps ∈ fl) (h_ops : Comp.ops ∈ fl) (h_fports : Comp.fports ∈ fl) (h_counters : Comp.counters ∈ fl) (h_gctr : Comp.gctr ∈ fl) (h_rake : Comp.rake ∈ fl) (h_trace : Comp.trace ∈ fl) (h_irq : Comp.irq ∈ fl) (h_mem : Comp.mem ∈ fl) (h_mmPort : Comp.mmPort ∈ fl) (hk : Frame fl fr s) : Frame fl fr (lcAdvance c s) := by
  unfold lcAdvance
  repeat' first
    | with_reducible assumption
    | (with_reducible exact Or.inl (by assumption))
    | (with_reducible exact Or.inr rfl)
    | with_reducible apply mmRequest_frame
    | with_reducible apply refuse_frame
    | with_reducible apply memFail_frame
    | with_reducible apply acceptLc_frame
    | with_reducible apply raiseFloor_frame
    | with_reducible apply Frame.ite
    | split
    | dsimp only

theorem capture_frame {fl : List Comp} {fr : State} (v : BitVec 256) (s : State) (h_engine : Comp.engine ∈ fl) (hk : Frame fl fr s) : Frame fl fr (capture v s) := by
  unfold capture
  repeat' first
    | with_reducible assumption
    | (with_reducible exact Or.inl (by assumption))
    | (with_reducible exact Or.inr rfl)
    | with_reducible apply State.modSlu_frame
    | dsimp only

theorem captureOpen_frame {fl : List Comp} {fr : State} (s : State) (h_engine : Comp.engine ∈ fl) (h_free : Comp.free ∈ fl) (hk : Frame fl fr s) : Frame fl fr (captureOpen s) := by
  unfold captureOpen
  repeat' first
    | with_reducible assumption
    | (with_reducible exact Or.inl (by assumption))
    | (with_reducible exact Or.inr rfl)
    | with_reducible apply fresh_frame
    | (refine fresh_frameE _ (by assumption) ?_ (by with_reducible assumption))
    | with_reducible apply capture_frame
    | dsimp only

theorem tapSeq_frame {fl : List Comp} {fr : State} (q : SeqNo) (act : SeqAct) (s : State) (h_engine : Comp.engine ∈ fl) (h_seqs : Comp.seqs ∈ fl) (hk : Frame fl fr s) : Frame fl fr (tapSeq q act s) := by
  unfold tapSeq
  repeat' first
    | with_reducible assumption
    | (with_reducible exact Or.inl (by assumption))
    | (with_reducible exact Or.inr rfl)
    | with_reducible apply State.modSeq_frame
    | with_reducible apply capture_frame
    | split
    | dsimp only

theorem tapReg_frame {fl : List Comp} {fr : State} (a : CrAddr) (w : Option Word) (s : State) (h_clock : Comp.clock ∈ fl) (h_fwStore : Comp.fwStore ∈ fl) (h_service : Comp.service ∈ fl) (h_lifecycle : Comp.lifecycle ∈ fl) (h_engine : Comp.engine ∈ fl) (h_cmds : Comp.cmds ∈ fl) (h_wins : Comp.wins ∈ fl) (h_parts : Comp.parts ∈ fl) (h_binds : Comp.binds ∈ fl) (h_aps : Comp.aps ∈ fl) (h_ops : Comp.ops ∈ fl) (h_merges : Comp.merges ∈ fl) (h_rows : Comp.rows ∈ fl) (h_banks : Comp.banks ∈ fl) (h_waiters : Comp.waiters ∈ fl) (h_records : Comp.records ∈ fl) (h_early : Comp.early ∈ fl) (h_spillWakes : Comp.spillWakes ∈ fl) (h_fetching : Comp.fetching ∈ fl) (h_descs : Comp.descs ∈ fl) (h_holdings : Comp.holdings ∈ fl) (h_fences : Comp.fences ∈ fl) (h_deadlines : Comp.deadlines ∈ fl) (h_leases : Comp.leases ∈ fl) (h_arming : Comp.arming ∈ fl) (h_heldq : Comp.heldq ∈ fl) (h_sn : Comp.sn ∈ fl) (h_dir : Comp.dir ∈ fl) (h_tack : Comp.tack ∈ fl) (h_regions : Comp.regions ∈ fl) (h_fports : Comp.fports ∈ fl) (h_trees : Comp.trees ∈ fl) (h_census : Comp.census ∈ fl) (h_routes : Comp.routes ∈ fl) (h_counters : Comp.counters ∈ fl) (h_gctr : Comp.gctr ∈ fl) (h_rake : Comp.rake ∈ fl) (h_trace : Comp.trace ∈ fl) (h_hobble : Comp.hobble ∈ fl) (h_watches : Comp.watches ∈ fl) (h_irq : Comp.irq ∈ fl) (h_crPort : Comp.crPort ∈ fl) (h_mem : Comp.mem ∈ fl) (h_mmPort : Comp.mmPort ∈ fl) (h_free : Comp.free ∈ fl) (hk : Frame fl fr s) : Frame fl fr (tapReg a w s) := by
  unfold tapReg
  repeat' first
    | with_reducible assumption
    | (with_reducible exact Or.inl (by assumption))
    | (with_reducible exact Or.inr rfl)
    | with_reducible apply State.modCr_frame
    | with_reducible apply crRead_frame
    | with_reducible apply crWrite_frame
    | with_reducible apply capture_frame
    | with_reducible apply Frame.ite
    | split
    | dsimp only

theorem putWord_frame {fl : List Comp} {fr : State} (b : Bank) (n : BitVec 14) (v : BitVec 256) (s : State) (h_rows : Comp.rows ∈ fl) (hk : Frame fl fr s) : Frame fl fr (putWord b n v s) := by
  unfold putWord
  repeat' first
    | with_reducible assumption
    | (with_reducible exact Or.inl (by assumption))
    | (with_reducible exact Or.inr rfl)
    | with_reducible apply State.modObk_frame
    | split
    | dsimp only

theorem tapSram_frame {fl : List Comp} {fr : State} (m : SramWord) (w : Option (BitVec 256)) (s : State) (h_fwStore : Comp.fwStore ∈ fl) (h_engine : Comp.engine ∈ fl) (h_rows : Comp.rows ∈ fl) (h_free : Comp.free ∈ fl) (hk : Frame fl fr s) : Frame fl fr (tapSram m w s) := by
  unfold tapSram
  repeat' first
    | with_reducible assumption
    | (with_reducible exact Or.inl (by assumption))
    | (with_reducible exact Or.inr rfl)
    | with_reducible apply fwWrite_frame
    | with_reducible apply capture_frame
    | with_reducible apply captureOpen_frame
    | with_reducible apply putWord_frame
    | with_reducible apply Frame.ite
    | split
    | dsimp only

theorem traceCtl_frame {fl : List Comp} {fr : State} (c : Cmd) (s : State) (h_cmds : Comp.cmds ∈ fl) (h_wins : Comp.wins ∈ fl) (h_aps : Comp.aps ∈ fl) (h_ops : Comp.ops ∈ fl) (h_fports : Comp.fports ∈ fl) (h_counters : Comp.counters ∈ fl) (h_gctr : Comp.gctr ∈ fl) (h_rake : Comp.rake ∈ fl) (h_trace : Comp.trace ∈ fl) (h_irq : Comp.irq ∈ fl) (h_mem : Comp.mem ∈ fl) (h_mmPort : Comp.mmPort ∈ fl) (hk : Frame fl fr s) : Frame fl fr (traceCtl c s) := by
  unfold traceCtl
  repeat' first
    | with_reducible assumption
    | (with_reducible exact Or.inl (by assumption))
    | (with_reducible exact Or.inr rfl)
    | with_reducible apply modTrace_frame
    | with_reducible apply ok_frame
    | with_reducible apply Frame.ite
    | split
    | dsimp only

theorem traceStore_frame {fl : List Comp} {fr : State} (r : BitVec 256) (s : State) {kt : State} (h_gctr : Comp.gctr ∈ fl) (h_trace : Comp.trace ∈ fl) (h_irq : Comp.irq ∈ fl) (h_mem : Comp.mem ∈ fl) (h_mmPort : Comp.mmPort ∈ fl) (hk : Frame fl fr s) (he : traceStore r s = some kt) : Frame fl fr kt := by
  unfold traceStore at he
  repeat' first
    | (cases he; done)
    | (injection he with he; subst he)
    | (injection he with he; injection he with he1 he2; subst he2)
    | (injection he with he)
    | split at he
    | dsimp only at he
    | with_reducible assumption
    | (with_reducible exact Or.inl (by assumption))
    | (with_reducible exact Or.inr rfl)
    | with_reducible apply mmWrite_frame
    | with_reducible apply gcount_frame
    | with_reducible apply raiseGlobal_frame
    | with_reducible apply modTrace_frame
    | with_reducible apply Frame.ite
    | split
    | dsimp only

theorem flushDrop_frame {fl : List Comp} {fr : State} (s : State) {kt : State} (h_gctr : Comp.gctr ∈ fl) (h_trace : Comp.trace ∈ fl) (h_irq : Comp.irq ∈ fl) (h_mem : Comp.mem ∈ fl) (h_mmPort : Comp.mmPort ∈ fl) (hk : Frame fl fr s) (he : flushDrop s = some kt) : Frame fl fr kt := by
  unfold flushDrop at he
  repeat' first
    | (cases he; done)
    | (injection he with he; subst he)
    | (injection he with he; injection he with he1 he2; subst he2)
    | (injection he with he)
    | split at he
    | dsimp only at he
    | with_reducible assumption
    | (with_reducible exact Or.inl (by assumption))
    | (with_reducible exact Or.inr rfl)
    | with_reducible apply modTrace_frame
    | (refine traceStore_frame _ _ (by assumption) (by assumption) (by assumption) (by assumption) (by assumption) ?_ (by with_reducible assumption))
    | with_reducible apply Frame.ite
    | split
    | dsimp only

theorem traceWrite_frame {fl : List Comp} {fr : State} (s : State) (h_wins : Comp.wins ∈ fl) (h_counters : Comp.counters ∈ fl) (h_gctr : Comp.gctr ∈ fl) (h_trace : Comp.trace ∈ fl) (h_irq : Comp.irq ∈ fl) (h_mem : Comp.mem ∈ fl) (h_mmPort : Comp.mmPort ∈ fl) (hk : Frame fl fr s) : Frame fl fr (traceWrite s) := by
  unfold traceWrite
  repeat' first
    | with_reducible assumption
    | (with_reducible exact Or.inl (by assumption))
    | (with_reducible exact Or.inr rfl)
    | with_reducible apply count_frame
    | with_reducible apply modTrace_frame
    | with_reducible apply traceDrop_frame
    | (refine traceStore_frame _ _ (by assumption) (by assumption) (by assumption) (by assumption) (by assumption) ?_ (by with_reducible assumption))
    | (refine flushDrop_frame _ (by assumption) (by assumption) (by assumption) (by assumption) (by assumption) ?_ (by with_reducible assumption))
    | split
    | dsimp only

theorem snapshot_frame {fl : List Comp} {fr : State} (c : Cmd) (s : State) (h_cmds : Comp.cmds ∈ fl) (h_wins : Comp.wins ∈ fl) (h_aps : Comp.aps ∈ fl) (h_ops : Comp.ops ∈ fl) (h_fports : Comp.fports ∈ fl) (h_counters : Comp.counters ∈ fl) (h_gctr : Comp.gctr ∈ fl) (h_rake : Comp.rake ∈ fl) (h_trace : Comp.trace ∈ fl) (h_irq : Comp.irq ∈ fl) (h_mem : Comp.mem ∈ fl) (h_mmPort : Comp.mmPort ∈ fl) (hk : Frame fl fr s) : Frame fl fr (snapshot c s) := by
  unfold snapshot
  repeat' first
    | with_reducible assumption
    | (with_reducible exact Or.inl (by assumption))
    | (with_reducible exact Or.inr rfl)
    | with_reducible apply mmRequest_frame
    | with_reducible apply mmWrite_frame
    | with_reducible apply gcountN_frame
    | with_reducible apply ok_frame
    | with_reducible apply refuse_frame
    | with_reducible apply memFail_frame
    | with_reducible apply Frame.ite
    | split
    | dsimp only

end Sys2Proof.Machine
end

