-- ==== Sys2Proof/Laws/FrameFab.lean ====
section
/-! SUPPORT. What the effects defined in FabLink, FabOps, Discovery, Stitch leave unchanged: each lemma names every component its function may write. -/

namespace Sys2Proof.Machine

theorem oweCredit_frame {fl : List Comp} {fr : State} (p : FabPort) (pool : Nat) (s : State) (h_fports : Comp.fports ∈ fl) (hk : Frame fl fr s) : Frame fl fr (oweCredit p pool s) := by
  unfold oweCredit
  repeat' first
    | with_reducible assumption
    | (with_reducible exact Or.inl (by assumption))
    | (with_reducible exact Or.inr rfl)
    | with_reducible apply State.modFp_frame
    | with_reducible apply Frame.ite
    | split
    | dsimp only

theorem regionWrite_frame {fl : List Comp} {fr : State} (off : Nat) (l : List Byte) (s : State) (h_mem : Comp.mem ∈ fl) (h_mmPort : Comp.mmPort ∈ fl) (hk : Frame fl fr s) : Frame fl fr (regionWrite off l s) := by
  unfold regionWrite
  repeat' first
    | with_reducible assumption
    | (with_reducible exact Or.inl (by assumption))
    | (with_reducible exact Or.inr rfl)
    | with_reducible apply mmWrite_frame
    | with_reducible apply Frame.ite
    | split
    | dsimp only

theorem regionHeader_frame {fl : List Comp} {fr : State} (s : State) (h_mem : Comp.mem ∈ fl) (h_mmPort : Comp.mmPort ∈ fl) (hk : Frame fl fr s) : Frame fl fr (regionHeader s) := by
  unfold regionHeader
  repeat' first
    | with_reducible assumption
    | (with_reducible exact Or.inl (by assumption))
    | (with_reducible exact Or.inr rfl)
    | with_reducible apply regionWrite_frame
    | dsimp only

theorem regionBit_frame {fl : List Comp} {fr : State} (second : Bool) (n : NodeId) (s : State) (h_mem : Comp.mem ∈ fl) (h_mmPort : Comp.mmPort ∈ fl) (hk : Frame fl fr s) : Frame fl fr (regionBit second n s) := by
  unfold regionBit
  repeat' first
    | with_reducible assumption
    | (with_reducible exact Or.inl (by assumption))
    | (with_reducible exact Or.inr rfl)
    | with_reducible apply regionWrite_frame
    | with_reducible apply Frame.ite
    | split
    | dsimp only

theorem hobbleReply_frame {fl : List Comp} {fr : State} (final : Bool) (s : State) (h_cmds : Comp.cmds ∈ fl) (h_wins : Comp.wins ∈ fl) (h_aps : Comp.aps ∈ fl) (h_ops : Comp.ops ∈ fl) (h_fports : Comp.fports ∈ fl) (h_counters : Comp.counters ∈ fl) (h_gctr : Comp.gctr ∈ fl) (h_rake : Comp.rake ∈ fl) (h_trace : Comp.trace ∈ fl) (h_hobble : Comp.hobble ∈ fl) (h_irq : Comp.irq ∈ fl) (h_mem : Comp.mem ∈ fl) (h_mmPort : Comp.mmPort ∈ fl) (hk : Frame fl fr s) : Frame fl fr (hobbleReply final s) := by
  unfold hobbleReply
  repeat' first
    | with_reducible assumption
    | (with_reducible exact Or.inl (by assumption))
    | (with_reducible exact Or.inr rfl)
    | with_reducible apply State.modHob_frame
    | with_reducible apply complete_frame
    | with_reducible apply Frame.ite
    | split
    | dsimp only

theorem hobbleReach_frame {fl : List Comp} {fr : State} (n : NodeId) (inc : Bool) (s : State) (h_cmds : Comp.cmds ∈ fl) (h_wins : Comp.wins ∈ fl) (h_aps : Comp.aps ∈ fl) (h_ops : Comp.ops ∈ fl) (h_fports : Comp.fports ∈ fl) (h_counters : Comp.counters ∈ fl) (h_gctr : Comp.gctr ∈ fl) (h_rake : Comp.rake ∈ fl) (h_trace : Comp.trace ∈ fl) (h_hobble : Comp.hobble ∈ fl) (h_irq : Comp.irq ∈ fl) (h_mem : Comp.mem ∈ fl) (h_mmPort : Comp.mmPort ∈ fl) (hk : Frame fl fr s) : Frame fl fr (hobbleReach n inc s) := by
  unfold hobbleReach
  repeat' first
    | with_reducible assumption
    | (with_reducible exact Or.inl (by assumption))
    | (with_reducible exact Or.inr rfl)
    | with_reducible apply State.modHob_frame
    | with_reducible apply regionBit_frame
    | with_reducible apply hobbleReply_frame
    | with_reducible apply Frame.ite
    | split
    | dsimp only

theorem hobbleCheck_frame {fl : List Comp} {fr : State} (s : State) (h_cmds : Comp.cmds ∈ fl) (h_wins : Comp.wins ∈ fl) (h_aps : Comp.aps ∈ fl) (h_ops : Comp.ops ∈ fl) (h_fports : Comp.fports ∈ fl) (h_counters : Comp.counters ∈ fl) (h_gctr : Comp.gctr ∈ fl) (h_rake : Comp.rake ∈ fl) (h_trace : Comp.trace ∈ fl) (h_hobble : Comp.hobble ∈ fl) (h_irq : Comp.irq ∈ fl) (h_mem : Comp.mem ∈ fl) (h_mmPort : Comp.mmPort ∈ fl) (hk : Frame fl fr s) : Frame fl fr (hobbleCheck s) := by
  unfold hobbleCheck
  repeat' first
    | with_reducible assumption
    | (with_reducible exact Or.inl (by assumption))
    | (with_reducible exact Or.inr rfl)
    | with_reducible apply State.modHob_frame
    | with_reducible apply raiseGlobal_frame
    | with_reducible apply fabSend_frame
    | with_reducible apply regionHeader_frame
    | with_reducible apply hobbleReach_frame
    | with_reducible apply Frame.ite
    | split
    | dsimp only

theorem dropFwdAll_frame {fl : List Comp} {fr : State} (p : FabPort) (s : State) (h_fports : Comp.fports ∈ fl) (hk : Frame fl fr s) : Frame fl fr (dropFwdAll p s) := by
  unfold dropFwdAll
  repeat' first
    | with_reducible assumption
    | (with_reducible exact Or.inl (by assumption))
    | (with_reducible exact Or.inr rfl)
    | with_reducible apply State.modFp_frame
    | (with_reducible refine Frame.foldl (fun _ _ _ => ?_) ?_)
    | dsimp only

theorem sendReconcile_frame {fl : List Comp} {fr : State} (p : FabPort) (rxSeq : BitVec 12) (s : State) (h_fports : Comp.fports ∈ fl) (hk : Frame fl fr s) : Frame fl fr (sendReconcile p rxSeq s) := by
  unfold sendReconcile
  repeat' first
    | with_reducible assumption
    | (with_reducible exact Or.inl (by assumption))
    | (with_reducible exact Or.inr rfl)
    | with_reducible apply enqueueTx_frame
    | with_reducible apply Frame.ite
    | split
    | dsimp only

theorem downPort_frame {fl : List Comp} {fr : State} (p : FabPort) (s : State) (h_fports : Comp.fports ∈ fl) (hk : Frame fl fr s) : Frame fl fr (downPort p s) := by
  unfold downPort
  repeat' first
    | with_reducible assumption
    | (with_reducible exact Or.inl (by assumption))
    | (with_reducible exact Or.inr rfl)
    | with_reducible apply State.modFp_frame
    | with_reducible apply Frame.ite
    | split
    | dsimp only

theorem hobbleLost_frame {fl : List Comp} {fr : State} (p : FabPort) (s : State) (h_cmds : Comp.cmds ∈ fl) (h_wins : Comp.wins ∈ fl) (h_aps : Comp.aps ∈ fl) (h_ops : Comp.ops ∈ fl) (h_fports : Comp.fports ∈ fl) (h_counters : Comp.counters ∈ fl) (h_gctr : Comp.gctr ∈ fl) (h_rake : Comp.rake ∈ fl) (h_trace : Comp.trace ∈ fl) (h_hobble : Comp.hobble ∈ fl) (h_irq : Comp.irq ∈ fl) (h_mem : Comp.mem ∈ fl) (h_mmPort : Comp.mmPort ∈ fl) (hk : Frame fl fr s) : Frame fl fr (hobbleLost p s) := by
  unfold hobbleLost
  repeat' first
    | with_reducible assumption
    | (with_reducible exact Or.inl (by assumption))
    | (with_reducible exact Or.inr rfl)
    | with_reducible apply State.modFp_frame
    | with_reducible apply State.modHob_frame
    | with_reducible apply regionHeader_frame
    | with_reducible apply hobbleCheck_frame
    | with_reducible apply Frame.ite
    | split
    | dsimp only

theorem losePort_frame {fl : List Comp} {fr : State} (p : FabPort) (s : State) (h_cmds : Comp.cmds ∈ fl) (h_wins : Comp.wins ∈ fl) (h_aps : Comp.aps ∈ fl) (h_ops : Comp.ops ∈ fl) (h_fports : Comp.fports ∈ fl) (h_counters : Comp.counters ∈ fl) (h_gctr : Comp.gctr ∈ fl) (h_rake : Comp.rake ∈ fl) (h_trace : Comp.trace ∈ fl) (h_hobble : Comp.hobble ∈ fl) (h_irq : Comp.irq ∈ fl) (h_mem : Comp.mem ∈ fl) (h_mmPort : Comp.mmPort ∈ fl) (hk : Frame fl fr s) : Frame fl fr (losePort p s) := by
  unfold losePort
  repeat' first
    | with_reducible assumption
    | (with_reducible exact Or.inl (by assumption))
    | (with_reducible exact Or.inr rfl)
    | with_reducible apply State.modFp_frame
    | with_reducible apply gcount_frame
    | with_reducible apply dropFwdAll_frame
    | with_reducible apply sendReconcile_frame
    | with_reducible apply downPort_frame
    | with_reducible apply hobbleLost_frame
    | with_reducible apply Frame.ite
    | split
    | dsimp only

theorem linkFields_frame {fl : List Comp} {fr : State} (kind : BitVec 4) (r : Rx) (s : State) (h_fports : Comp.fports ∈ fl) (h_gctr : Comp.gctr ∈ fl) (hk : Frame fl fr s) : Frame fl fr (linkFields kind r s) := by
  unfold linkFields
  repeat' first
    | with_reducible assumption
    | (with_reducible exact Or.inl (by assumption))
    | (with_reducible exact Or.inr rfl)
    | with_reducible apply State.modFp_frame
    | with_reducible apply gcount_frame
    | with_reducible apply Frame.ite
    | split
    | dsimp only

theorem discardBad_frame {fl : List Comp} {fr : State} (kind : BitVec 4) (r : Rx) (s : State) (h_fports : Comp.fports ∈ fl) (h_gctr : Comp.gctr ∈ fl) (h_rake : Comp.rake ∈ fl) (h_irq : Comp.irq ∈ fl) (hk : Frame fl fr s) : Frame fl fr (discardBad kind r s) := by
  unfold discardBad
  repeat' first
    | with_reducible assumption
    | (with_reducible exact Or.inl (by assumption))
    | (with_reducible exact Or.inr rfl)
    | with_reducible apply reportFab_frame
    | with_reducible apply oweCredit_frame
    | dsimp only

theorem startRemoteLimit_frame {fl : List Comp} {fr : State} (x : NodeId × BitVec 5) (s : State) (h_cmds : Comp.cmds ∈ fl) (hk : Frame fl fr s) : Frame fl fr (startRemoteLimit x s) := by
  unfold startRemoteLimit
  repeat' first
    | with_reducible assumption
    | (with_reducible exact Or.inl (by assumption))
    | (with_reducible exact Or.inr rfl)
    | with_reducible apply State.modMsq_frame
    | with_reducible apply Frame.ite
    | split
    | dsimp only

theorem sendFlit_frame {fl : List Comp} {fr : State} (p : FabPort) (f : TxFlit) (s : State) (h_clock : Comp.clock ∈ fl) (h_cmds : Comp.cmds ∈ fl) (h_fports : Comp.fports ∈ fl) (h_gctr : Comp.gctr ∈ fl) (hk : Frame fl fr s) : Frame fl fr (sendFlit p f s) := by
  unfold sendFlit
  repeat' first
    | with_reducible assumption
    | (with_reducible exact Or.inl (by assumption))
    | (with_reducible exact Or.inr rfl)
    | with_reducible apply State.setFp_frame
    | with_reducible apply State.modClk_frame
    | with_reducible apply gcount_frame
    | with_reducible apply oweCredit_frame
    | with_reducible apply startRemoteLimit_frame
    | with_reducible apply Frame.ite
    | split
    | dsimp only

theorem flitTransmit_frame {fl : List Comp} {fr : State} (p : FabPort) (s : State) (h_clock : Comp.clock ∈ fl) (h_cmds : Comp.cmds ∈ fl) (h_fports : Comp.fports ∈ fl) (h_gctr : Comp.gctr ∈ fl) (hk : Frame fl fr s) : Frame fl fr (flitTransmit p s) := by
  unfold flitTransmit
  repeat' first
    | with_reducible assumption
    | (with_reducible exact Or.inl (by assumption))
    | (with_reducible exact Or.inr rfl)
    | with_reducible apply sendFlit_frame
    | with_reducible apply Frame.ite
    | split
    | dsimp only

theorem idleSend_frame {fl : List Comp} {fr : State} (p : FabPort) (s : State) (h_fports : Comp.fports ∈ fl) (hk : Frame fl fr s) : Frame fl fr (idleSend p s) := by
  unfold idleSend
  repeat' first
    | with_reducible assumption
    | (with_reducible exact Or.inl (by assumption))
    | (with_reducible exact Or.inr rfl)
    | with_reducible apply State.setFp_frame
    | with_reducible apply Frame.ite
    | split
    | dsimp only

theorem linkRise_frame {fl : List Comp} {fr : State} (p : FabPort) (s : State) (h_fports : Comp.fports ∈ fl) (hk : Frame fl fr s) : Frame fl fr (linkRise p s) := by
  unfold linkRise
  repeat' first
    | with_reducible assumption
    | (with_reducible exact Or.inl (by assumption))
    | (with_reducible exact Or.inr rfl)
    | with_reducible apply State.setFp_frame
    | with_reducible apply fabSendOn_frame
    | with_reducible apply Frame.ite
    | split
    | dsimp only

theorem linkFall_frame {fl : List Comp} {fr : State} (p : FabPort) (s : State) (h_cmds : Comp.cmds ∈ fl) (h_wins : Comp.wins ∈ fl) (h_aps : Comp.aps ∈ fl) (h_ops : Comp.ops ∈ fl) (h_fports : Comp.fports ∈ fl) (h_counters : Comp.counters ∈ fl) (h_gctr : Comp.gctr ∈ fl) (h_rake : Comp.rake ∈ fl) (h_trace : Comp.trace ∈ fl) (h_hobble : Comp.hobble ∈ fl) (h_irq : Comp.irq ∈ fl) (h_mem : Comp.mem ∈ fl) (h_mmPort : Comp.mmPort ∈ fl) (hk : Frame fl fr s) : Frame fl fr (linkFall p s) := by
  unfold linkFall
  repeat' first
    | with_reducible assumption
    | (with_reducible exact Or.inl (by assumption))
    | (with_reducible exact Or.inr rfl)
    | with_reducible apply State.modFp_frame
    | with_reducible apply losePort_frame
    | with_reducible apply Frame.ite
    | split
    | dsimp only

theorem linkSilence_frame {fl : List Comp} {fr : State} (p : FabPort) (s : State) (h_cmds : Comp.cmds ∈ fl) (h_wins : Comp.wins ∈ fl) (h_aps : Comp.aps ∈ fl) (h_ops : Comp.ops ∈ fl) (h_fports : Comp.fports ∈ fl) (h_counters : Comp.counters ∈ fl) (h_gctr : Comp.gctr ∈ fl) (h_rake : Comp.rake ∈ fl) (h_trace : Comp.trace ∈ fl) (h_hobble : Comp.hobble ∈ fl) (h_irq : Comp.irq ∈ fl) (h_mem : Comp.mem ∈ fl) (h_mmPort : Comp.mmPort ∈ fl) (hk : Frame fl fr s) : Frame fl fr (linkSilence p s) := by
  unfold linkSilence
  repeat' first
    | with_reducible assumption
    | (with_reducible exact Or.inl (by assumption))
    | (with_reducible exact Or.inr rfl)
    | with_reducible apply losePort_frame
    | with_reducible apply Frame.ite
    | split
    | dsimp only

theorem failPort_frame {fl : List Comp} {fr : State} (p : FabPort) (s : State) (h_service : Comp.service ∈ fl) (h_wins : Comp.wins ∈ fl) (h_sn : Comp.sn ∈ fl) (h_fports : Comp.fports ∈ fl) (h_counters : Comp.counters ∈ fl) (h_irq : Comp.irq ∈ fl) (hk : Frame fl fr s) : Frame fl fr (failPort p s) := by
  unfold failPort
  repeat' first
    | with_reducible assumption
    | (with_reducible exact Or.inl (by assumption))
    | (with_reducible exact Or.inr rfl)
    | with_reducible apply State.modFp_frame
    | with_reducible apply raiseGlobal_frame
    | with_reducible apply service_frame
    | dsimp only

theorem reconTimeout_frame {fl : List Comp} {fr : State} (p : FabPort) (s : State) (h_service : Comp.service ∈ fl) (h_wins : Comp.wins ∈ fl) (h_sn : Comp.sn ∈ fl) (h_fports : Comp.fports ∈ fl) (h_counters : Comp.counters ∈ fl) (h_irq : Comp.irq ∈ fl) (hk : Frame fl fr s) : Frame fl fr (reconTimeout p s) := by
  unfold reconTimeout
  repeat' first
    | with_reducible assumption
    | (with_reducible exact Or.inl (by assumption))
    | (with_reducible exact Or.inr rfl)
    | with_reducible apply failPort_frame
    | with_reducible apply Frame.ite
    | split
    | dsimp only

theorem takeHello_frame {fl : List Comp} {fr : State} (r : Rx) (s : State) (h_service : Comp.service ∈ fl) (h_wins : Comp.wins ∈ fl) (h_sn : Comp.sn ∈ fl) (h_fports : Comp.fports ∈ fl) (h_counters : Comp.counters ∈ fl) (h_gctr : Comp.gctr ∈ fl) (h_rake : Comp.rake ∈ fl) (h_irq : Comp.irq ∈ fl) (hk : Frame fl fr s) : Frame fl fr (takeHello r s) := by
  unfold takeHello
  repeat' first
    | with_reducible assumption
    | (with_reducible exact Or.inl (by assumption))
    | (with_reducible exact Or.inr rfl)
    | with_reducible apply State.modFp_frame
    | with_reducible apply reportFab_frame
    | with_reducible apply failPort_frame
    | with_reducible apply Frame.ite
    | split
    | dsimp only

theorem helloFlit_frame {fl : List Comp} {fr : State} (r : Rx) (s : State) (h_service : Comp.service ∈ fl) (h_wins : Comp.wins ∈ fl) (h_sn : Comp.sn ∈ fl) (h_fports : Comp.fports ∈ fl) (h_counters : Comp.counters ∈ fl) (h_gctr : Comp.gctr ∈ fl) (h_rake : Comp.rake ∈ fl) (h_irq : Comp.irq ∈ fl) (hk : Frame fl fr s) : Frame fl fr (helloFlit r s) := by
  unfold helloFlit
  repeat' first
    | with_reducible assumption
    | (with_reducible exact Or.inl (by assumption))
    | (with_reducible exact Or.inr rfl)
    | with_reducible apply oweCredit_frame
    | with_reducible apply takeHello_frame
    | with_reducible apply Frame.ite
    | split
    | dsimp only

theorem cplRefuse_frame {fl : List Comp} {fr : State} (m : OpMsg) (src : NodeId) (st : Status) (s : State) (h_fports : Comp.fports ∈ fl) (h_gctr : Comp.gctr ∈ fl) (h_rake : Comp.rake ∈ fl) (h_irq : Comp.irq ∈ fl) (hk : Frame fl fr s) : Frame fl fr (cplRefuse m src st s) := by
  unfold cplRefuse
  repeat' first
    | with_reducible assumption
    | (with_reducible exact Or.inl (by assumption))
    | (with_reducible exact Or.inr rfl)
    | with_reducible apply fabSend_frame
    | dsimp only

theorem admitOp_frame {fl : List Comp} {fr : State} (m : OpMsg) (src : NodeId) (s : State) {kt : State} (h_wins : Comp.wins ∈ fl) (h_fports : Comp.fports ∈ fl) (h_counters : Comp.counters ∈ fl) (h_gctr : Comp.gctr ∈ fl) (h_rake : Comp.rake ∈ fl) (h_irq : Comp.irq ∈ fl) (hk : Frame fl fr s)
    (he : admitOp m src s = .refused kt) : Frame fl fr kt := by
  unfold admitOp at he
  repeat' first
    | (cases he; done)
    | (injection he with he; subst he)
    | split at he
    | dsimp only at he
    | with_reducible assumption
    | with_reducible apply cplRefuse_frame
    | with_reducible apply report_frame
    | with_reducible apply countStatus_frame
    | with_reducible apply count_frame
    | split

theorem takeOpFlit_frame {fl : List Comp} {fr : State} (m : OpMsg) (src : NodeId) (expected : DWord) (s : State) {kt : State} (h_cmds : Comp.cmds ∈ fl) (h_wins : Comp.wins ∈ fl) (h_parts : Comp.parts ∈ fl) (h_aps : Comp.aps ∈ fl) (h_ops : Comp.ops ∈ fl) (h_merges : Comp.merges ∈ fl) (h_rows : Comp.rows ∈ fl) (h_banks : Comp.banks ∈ fl) (h_waiters : Comp.waiters ∈ fl) (h_records : Comp.records ∈ fl) (h_early : Comp.early ∈ fl) (h_spillWakes : Comp.spillWakes ∈ fl) (h_fetching : Comp.fetching ∈ fl) (h_descs : Comp.descs ∈ fl) (h_holdings : Comp.holdings ∈ fl) (h_fences : Comp.fences ∈ fl) (h_deadlines : Comp.deadlines ∈ fl) (h_leases : Comp.leases ∈ fl) (h_arming : Comp.arming ∈ fl) (h_heldq : Comp.heldq ∈ fl) (h_sn : Comp.sn ∈ fl) (h_dir : Comp.dir ∈ fl) (h_tack : Comp.tack ∈ fl) (h_fports : Comp.fports ∈ fl) (h_trees : Comp.trees ∈ fl) (h_counters : Comp.counters ∈ fl) (h_gctr : Comp.gctr ∈ fl) (h_rake : Comp.rake ∈ fl) (h_trace : Comp.trace ∈ fl) (h_watches : Comp.watches ∈ fl) (h_irq : Comp.irq ∈ fl) (h_mem : Comp.mem ∈ fl) (h_mmPort : Comp.mmPort ∈ fl) (h_free : Comp.free ∈ fl) (hk : Frame fl fr s) (he : takeOpFlit m src expected s = some kt) : Frame fl fr kt := by
  unfold takeOpFlit at he
  repeat' first
    | (cases he; done)
    | (injection he with he; subst he)
    | split at he
    | dsimp only at he
    | with_reducible assumption
    | with_reducible exact Or.inl (by assumption)
    | with_reducible exact Or.inr rfl
    | with_reducible apply State.modOpr_frame
    | with_reducible apply tryOp_frame
    | (rename_i he; apply admitOp_frame (he := he) <;> assumption)
    | split

theorem holdRx_frame {fl : List Comp} {fr : State} (kind : BitVec 4) (r : Rx) (due : Bool) (s : State) (h_fports : Comp.fports ∈ fl) (hk : Frame fl fr s) : Frame fl fr (holdRx kind r due s) := by
  unfold holdRx
  repeat' first
    | with_reducible assumption
    | (with_reducible exact Or.inl (by assumption))
    | (with_reducible exact Or.inr rfl)
    | with_reducible apply State.modFp_frame
    | dsimp only

theorem freeBuf_frame {fl : List Comp} {fr : State} (kind : BitVec 4) (r : Rx) (due : Bool) (s : State) (h_fports : Comp.fports ∈ fl) (hk : Frame fl fr s) : Frame fl fr (freeBuf kind r due s) := by
  unfold freeBuf
  repeat' first
    | with_reducible assumption
    | (with_reducible exact Or.inl (by assumption))
    | (with_reducible exact Or.inr rfl)
    | with_reducible apply oweCredit_frame
    | with_reducible apply Frame.ite
    | split
    | dsimp only

theorem waitExt_frame {fl : List Comp} {fr : State} (r : Rx) (s : State) (h_exts : Comp.exts ∈ fl) (hk : Frame fl fr s) : Frame fl fr (waitExt r s) := by
  unfold waitExt
  repeat' first
    | with_reducible assumption
    | (with_reducible exact Or.inl (by assumption))
    | (with_reducible exact Or.inr rfl)
    | with_reducible apply State.modFab_frame
    | dsimp only

theorem opStep_frame {fl : List Comp} {fr : State} (kind : BitVec 4) (r : Rx) (s : State) {kt : State} (h_cmds : Comp.cmds ∈ fl) (h_wins : Comp.wins ∈ fl) (h_parts : Comp.parts ∈ fl) (h_aps : Comp.aps ∈ fl) (h_ops : Comp.ops ∈ fl) (h_merges : Comp.merges ∈ fl) (h_rows : Comp.rows ∈ fl) (h_banks : Comp.banks ∈ fl) (h_waiters : Comp.waiters ∈ fl) (h_records : Comp.records ∈ fl) (h_early : Comp.early ∈ fl) (h_spillWakes : Comp.spillWakes ∈ fl) (h_fetching : Comp.fetching ∈ fl) (h_descs : Comp.descs ∈ fl) (h_holdings : Comp.holdings ∈ fl) (h_fences : Comp.fences ∈ fl) (h_deadlines : Comp.deadlines ∈ fl) (h_leases : Comp.leases ∈ fl) (h_arming : Comp.arming ∈ fl) (h_heldq : Comp.heldq ∈ fl) (h_sn : Comp.sn ∈ fl) (h_dir : Comp.dir ∈ fl) (h_tack : Comp.tack ∈ fl) (h_fports : Comp.fports ∈ fl) (h_trees : Comp.trees ∈ fl) (h_exts : Comp.exts ∈ fl) (h_counters : Comp.counters ∈ fl) (h_gctr : Comp.gctr ∈ fl) (h_rake : Comp.rake ∈ fl) (h_trace : Comp.trace ∈ fl) (h_watches : Comp.watches ∈ fl) (h_irq : Comp.irq ∈ fl) (h_mem : Comp.mem ∈ fl) (h_mmPort : Comp.mmPort ∈ fl) (h_free : Comp.free ∈ fl) (hk : Frame fl fr s) (he : opStep kind r s = some kt) : Frame fl fr kt := by
  unfold opStep at he
  repeat' first
    | (cases he; done)
    | (injection he with he; subst he)
    | (injection he with he; injection he with he1 he2; subst he2)
    | (injection he with he)
    | split at he
    | dsimp only at he
    | with_reducible assumption
    | (with_reducible exact Or.inl (by assumption))
    | (with_reducible exact Or.inr rfl)
    | with_reducible apply State.modFab_frame
    | (refine takeOpFlit_frame _ _ _ _ (by assumption) (by assumption) (by assumption) (by assumption) (by assumption) (by assumption) (by assumption) (by assumption) (by assumption) (by assumption) (by assumption) (by assumption) (by assumption) (by assumption) (by assumption) (by assumption) (by assumption) (by assumption) (by assumption) (by assumption) (by assumption) (by assumption) (by assumption) (by assumption) (by assumption) (by assumption) (by assumption) (by assumption) (by assumption) (by assumption) (by assumption) (by assumption) (by assumption) (by assumption) ?_ (by with_reducible assumption))
    | with_reducible apply waitExt_frame
    | with_reducible apply Frame.ite
    | split
    | dsimp only

theorem cplHoldings_frame {fl : List Comp} {fr : State} (e : OpEntry) (m : CplMsg) (s : State) (h_holdings : Comp.holdings ∈ fl) (h_gctr : Comp.gctr ∈ fl) (h_rake : Comp.rake ∈ fl) (h_irq : Comp.irq ∈ fl) (hk : Frame fl fr s) : Frame fl fr (cplHoldings e m s) := by
  unfold cplHoldings
  repeat' first
    | with_reducible assumption
    | (with_reducible exact Or.inl (by assumption))
    | (with_reducible exact Or.inr rfl)
    | with_reducible apply addHolding_frame
    | with_reducible apply delHolding_frame
    | with_reducible apply Frame.ite
    | split
    | dsimp only

theorem cplEntry_frame {fl : List Comp} {fr : State} (e : OpEntry) (m : CplMsg) (s : State) (h_wins : Comp.wins ∈ fl) (h_aps : Comp.aps ∈ fl) (h_ops : Comp.ops ∈ fl) (h_rwaits : Comp.rwaits ∈ fl) (h_holdings : Comp.holdings ∈ fl) (h_exts : Comp.exts ∈ fl) (h_counters : Comp.counters ∈ fl) (h_gctr : Comp.gctr ∈ fl) (h_rake : Comp.rake ∈ fl) (h_irq : Comp.irq ∈ fl) (hk : Frame fl fr s) : Frame fl fr (cplEntry e m s) := by
  unfold cplEntry
  repeat' first
    | with_reducible assumption
    | (with_reducible exact Or.inl (by assumption))
    | (with_reducible exact Or.inr rfl)
    | with_reducible apply State.modWmc_frame
    | with_reducible apply State.modFab_frame
    | with_reducible apply freeOp_frame
    | with_reducible apply answer_frame
    | with_reducible apply wakeOne_frame
    | with_reducible apply cplHoldings_frame
    | with_reducible apply Frame.ite
    | split
    | dsimp only

theorem cplFlit_frame {fl : List Comp} {fr : State} (r : Rx) (s : State) (h_cmds : Comp.cmds ∈ fl) (h_wins : Comp.wins ∈ fl) (h_parts : Comp.parts ∈ fl) (h_aps : Comp.aps ∈ fl) (h_ops : Comp.ops ∈ fl) (h_merges : Comp.merges ∈ fl) (h_rows : Comp.rows ∈ fl) (h_banks : Comp.banks ∈ fl) (h_waiters : Comp.waiters ∈ fl) (h_rwaits : Comp.rwaits ∈ fl) (h_records : Comp.records ∈ fl) (h_early : Comp.early ∈ fl) (h_spillWakes : Comp.spillWakes ∈ fl) (h_fetching : Comp.fetching ∈ fl) (h_descs : Comp.descs ∈ fl) (h_holdings : Comp.holdings ∈ fl) (h_fences : Comp.fences ∈ fl) (h_deadlines : Comp.deadlines ∈ fl) (h_leases : Comp.leases ∈ fl) (h_arming : Comp.arming ∈ fl) (h_heldq : Comp.heldq ∈ fl) (h_sn : Comp.sn ∈ fl) (h_dir : Comp.dir ∈ fl) (h_tack : Comp.tack ∈ fl) (h_fports : Comp.fports ∈ fl) (h_trees : Comp.trees ∈ fl) (h_exts : Comp.exts ∈ fl) (h_undo : Comp.undo ∈ fl) (h_inq : Comp.inq ∈ fl) (h_counters : Comp.counters ∈ fl) (h_gctr : Comp.gctr ∈ fl) (h_rake : Comp.rake ∈ fl) (h_trace : Comp.trace ∈ fl) (h_watches : Comp.watches ∈ fl) (h_irq : Comp.irq ∈ fl) (h_mem : Comp.mem ∈ fl) (h_mmPort : Comp.mmPort ∈ fl) (h_free : Comp.free ∈ fl) (hk : Frame fl fr s) : Frame fl fr (cplFlit r s) := by
  unfold cplFlit
  repeat' first
    | with_reducible assumption
    | (with_reducible exact Or.inl (by assumption))
    | (with_reducible exact Or.inr rfl)
    | with_reducible apply State.modFab_frame
    | with_reducible apply pump_frame
    | with_reducible apply cplEntry_frame
    | split
    | dsimp only

theorem noteGone_frame {fl : List Comp} {fr : State} (m : WakeMsg) (src : NodeId) (s : State) (h_exts : Comp.exts ∈ fl) (hk : Frame fl fr s) : Frame fl fr (noteGone m src s) := by
  unfold noteGone
  repeat' first
    | with_reducible assumption
    | (with_reducible exact Or.inl (by assumption))
    | (with_reducible exact Or.inr rfl)
    | with_reducible apply State.modFab_frame
    | dsimp only

theorem wakeNodeFlit_frame {fl : List Comp} {fr : State} (r : Rx) (s : State) (h_aps : Comp.aps ∈ fl) (h_ops : Comp.ops ∈ fl) (h_rwaits : Comp.rwaits ∈ fl) (h_exts : Comp.exts ∈ fl) (h_free : Comp.free ∈ fl) (hk : Frame fl fr s) : Frame fl fr (wakeNodeFlit r s) := by
  unfold wakeNodeFlit
  repeat' first
    | with_reducible assumption
    | (with_reducible exact Or.inl (by assumption))
    | (with_reducible exact Or.inr rfl)
    | with_reducible apply State.modWmc_frame
    | with_reducible apply wakeLocals_frame
    | with_reducible apply noteGone_frame
    | with_reducible apply Frame.ite
    | split
    | dsimp only

theorem listHolding_frame {fl : List Comp} {fr : State} (op : Op) (m : GrantMsg) (k : OKey) (src : NodeId) (s : State) (h_holdings : Comp.holdings ∈ fl) (h_gctr : Comp.gctr ∈ fl) (h_rake : Comp.rake ∈ fl) (h_irq : Comp.irq ∈ fl) (hk : Frame fl fr s) : Frame fl fr (listHolding op m k src s) := by
  unfold listHolding
  repeat' first
    | with_reducible assumption
    | (with_reducible exact Or.inl (by assumption))
    | (with_reducible exact Or.inr rfl)
    | with_reducible apply addHolding_frame
    | with_reducible apply Frame.ite
    | split
    | dsimp only

theorem grantWake_frame {fl : List Comp} {fr : State} (x : RWait) (m : GrantMsg) (src : NodeId) (s : State) (h_aps : Comp.aps ∈ fl) (h_ops : Comp.ops ∈ fl) (h_holdings : Comp.holdings ∈ fl) (h_gctr : Comp.gctr ∈ fl) (h_rake : Comp.rake ∈ fl) (h_irq : Comp.irq ∈ fl) (hk : Frame fl fr s) : Frame fl fr (grantWake x m src s) := by
  unfold grantWake
  repeat' first
    | with_reducible assumption
    | (with_reducible exact Or.inl (by assumption))
    | (with_reducible exact Or.inr rfl)
    | with_reducible apply wakeOne_frame
    | with_reducible apply listHolding_frame
    | dsimp only

theorem racedGrant_frame {fl : List Comp} {fr : State} (q : RWait → Bool) (m : GrantMsg) (src : NodeId) (s : State) (h_wins : Comp.wins ∈ fl) (h_aps : Comp.aps ∈ fl) (h_ops : Comp.ops ∈ fl) (h_rows : Comp.rows ∈ fl) (h_waiters : Comp.waiters ∈ fl) (h_spillWakes : Comp.spillWakes ∈ fl) (h_descs : Comp.descs ∈ fl) (h_holdings : Comp.holdings ∈ fl) (h_fences : Comp.fences ∈ fl) (h_leases : Comp.leases ∈ fl) (h_sn : Comp.sn ∈ fl) (h_tack : Comp.tack ∈ fl) (h_fports : Comp.fports ∈ fl) (h_undo : Comp.undo ∈ fl) (h_counters : Comp.counters ∈ fl) (h_gctr : Comp.gctr ∈ fl) (h_rake : Comp.rake ∈ fl) (h_irq : Comp.irq ∈ fl) (h_mem : Comp.mem ∈ fl) (h_mmPort : Comp.mmPort ∈ fl) (h_free : Comp.free ∈ fl) (hk : Frame fl fr s) : Frame fl fr (racedGrant q m src s) := by
  unfold racedGrant
  repeat' first
    | with_reducible assumption
    | (with_reducible exact Or.inl (by assumption))
    | (with_reducible exact Or.inr rfl)
    | with_reducible apply State.modFab_frame
    | with_reducible apply undoGrant_frame
    | split
    | dsimp only

theorem grantFlit_frame {fl : List Comp} {fr : State} (r : Rx) (s : State) (h_cmds : Comp.cmds ∈ fl) (h_wins : Comp.wins ∈ fl) (h_parts : Comp.parts ∈ fl) (h_aps : Comp.aps ∈ fl) (h_ops : Comp.ops ∈ fl) (h_merges : Comp.merges ∈ fl) (h_rows : Comp.rows ∈ fl) (h_banks : Comp.banks ∈ fl) (h_waiters : Comp.waiters ∈ fl) (h_rwaits : Comp.rwaits ∈ fl) (h_records : Comp.records ∈ fl) (h_early : Comp.early ∈ fl) (h_spillWakes : Comp.spillWakes ∈ fl) (h_fetching : Comp.fetching ∈ fl) (h_descs : Comp.descs ∈ fl) (h_holdings : Comp.holdings ∈ fl) (h_fences : Comp.fences ∈ fl) (h_deadlines : Comp.deadlines ∈ fl) (h_leases : Comp.leases ∈ fl) (h_arming : Comp.arming ∈ fl) (h_heldq : Comp.heldq ∈ fl) (h_sn : Comp.sn ∈ fl) (h_dir : Comp.dir ∈ fl) (h_tack : Comp.tack ∈ fl) (h_fports : Comp.fports ∈ fl) (h_trees : Comp.trees ∈ fl) (h_undo : Comp.undo ∈ fl) (h_inq : Comp.inq ∈ fl) (h_counters : Comp.counters ∈ fl) (h_gctr : Comp.gctr ∈ fl) (h_rake : Comp.rake ∈ fl) (h_trace : Comp.trace ∈ fl) (h_watches : Comp.watches ∈ fl) (h_irq : Comp.irq ∈ fl) (h_mem : Comp.mem ∈ fl) (h_mmPort : Comp.mmPort ∈ fl) (h_free : Comp.free ∈ fl) (hk : Frame fl fr s) : Frame fl fr (grantFlit r s) := by
  unfold grantFlit
  repeat' first
    | with_reducible assumption
    | (with_reducible exact Or.inl (by assumption))
    | (with_reducible exact Or.inr rfl)
    | with_reducible apply State.modWmc_frame
    | with_reducible apply State.modOlu_frame
    | with_reducible apply setOpSt_frame
    | with_reducible apply pump_frame
    | with_reducible apply grantWake_frame
    | with_reducible apply racedGrant_frame
    | with_reducible apply Frame.ite
    | split
    | dsimp only

theorem cancelDoneFlit_frame {fl : List Comp} {fr : State} (r : Rx) (s : State) (h_undo : Comp.undo ∈ fl) (hk : Frame fl fr s) : Frame fl fr (cancelDoneFlit r s) := by
  unfold cancelDoneFlit
  repeat' first
    | with_reducible assumption
    | (with_reducible exact Or.inl (by assumption))
    | (with_reducible exact Or.inr rfl)
    | with_reducible apply State.modFab_frame
    | dsimp only

theorem treeFlit_frame {fl : List Comp} {fr : State} (w : TreeIn) (s : State) (h_cmds : Comp.cmds ∈ fl) (h_wins : Comp.wins ∈ fl) (h_parts : Comp.parts ∈ fl) (h_aps : Comp.aps ∈ fl) (h_ops : Comp.ops ∈ fl) (h_merges : Comp.merges ∈ fl) (h_rows : Comp.rows ∈ fl) (h_banks : Comp.banks ∈ fl) (h_waiters : Comp.waiters ∈ fl) (h_records : Comp.records ∈ fl) (h_early : Comp.early ∈ fl) (h_spillWakes : Comp.spillWakes ∈ fl) (h_fetching : Comp.fetching ∈ fl) (h_descs : Comp.descs ∈ fl) (h_holdings : Comp.holdings ∈ fl) (h_fences : Comp.fences ∈ fl) (h_deadlines : Comp.deadlines ∈ fl) (h_leases : Comp.leases ∈ fl) (h_arming : Comp.arming ∈ fl) (h_heldq : Comp.heldq ∈ fl) (h_sn : Comp.sn ∈ fl) (h_dir : Comp.dir ∈ fl) (h_tack : Comp.tack ∈ fl) (h_fports : Comp.fports ∈ fl) (h_trees : Comp.trees ∈ fl) (h_inq : Comp.inq ∈ fl) (h_counters : Comp.counters ∈ fl) (h_gctr : Comp.gctr ∈ fl) (h_rake : Comp.rake ∈ fl) (h_trace : Comp.trace ∈ fl) (h_watches : Comp.watches ∈ fl) (h_irq : Comp.irq ∈ fl) (h_mem : Comp.mem ∈ fl) (h_mmPort : Comp.mmPort ∈ fl) (h_free : Comp.free ∈ fl) (hk : Frame fl fr s) : Frame fl fr (treeFlit w s) := by
  unfold treeFlit
  repeat' first
    | with_reducible assumption
    | (with_reducible exact Or.inl (by assumption))
    | (with_reducible exact Or.inr rfl)
    | with_reducible apply State.modFab_frame
    | with_reducible apply gcount_frame
    | with_reducible apply pump_frame
    | with_reducible apply Frame.ite
    | split
    | dsimp only

theorem combineRx_frame {fl : List Comp} {fr : State} (r : Rx) (s : State) (h_cmds : Comp.cmds ∈ fl) (h_wins : Comp.wins ∈ fl) (h_parts : Comp.parts ∈ fl) (h_aps : Comp.aps ∈ fl) (h_ops : Comp.ops ∈ fl) (h_merges : Comp.merges ∈ fl) (h_rows : Comp.rows ∈ fl) (h_banks : Comp.banks ∈ fl) (h_waiters : Comp.waiters ∈ fl) (h_records : Comp.records ∈ fl) (h_early : Comp.early ∈ fl) (h_spillWakes : Comp.spillWakes ∈ fl) (h_fetching : Comp.fetching ∈ fl) (h_descs : Comp.descs ∈ fl) (h_holdings : Comp.holdings ∈ fl) (h_fences : Comp.fences ∈ fl) (h_deadlines : Comp.deadlines ∈ fl) (h_leases : Comp.leases ∈ fl) (h_arming : Comp.arming ∈ fl) (h_heldq : Comp.heldq ∈ fl) (h_sn : Comp.sn ∈ fl) (h_dir : Comp.dir ∈ fl) (h_tack : Comp.tack ∈ fl) (h_fports : Comp.fports ∈ fl) (h_trees : Comp.trees ∈ fl) (h_inq : Comp.inq ∈ fl) (h_counters : Comp.counters ∈ fl) (h_gctr : Comp.gctr ∈ fl) (h_rake : Comp.rake ∈ fl) (h_trace : Comp.trace ∈ fl) (h_watches : Comp.watches ∈ fl) (h_irq : Comp.irq ∈ fl) (h_mem : Comp.mem ∈ fl) (h_mmPort : Comp.mmPort ∈ fl) (h_free : Comp.free ∈ fl) (hk : Frame fl fr s) : Frame fl fr (combineRx r s) := by
  unfold combineRx
  repeat' first
    | with_reducible assumption
    | (with_reducible exact Or.inl (by assumption))
    | (with_reducible exact Or.inr rfl)
    | with_reducible apply treeFlit_frame
    | dsimp only

theorem treeRelRx_frame {fl : List Comp} {fr : State} (r : Rx) (s : State) (h_cmds : Comp.cmds ∈ fl) (h_wins : Comp.wins ∈ fl) (h_parts : Comp.parts ∈ fl) (h_aps : Comp.aps ∈ fl) (h_ops : Comp.ops ∈ fl) (h_merges : Comp.merges ∈ fl) (h_rows : Comp.rows ∈ fl) (h_banks : Comp.banks ∈ fl) (h_waiters : Comp.waiters ∈ fl) (h_records : Comp.records ∈ fl) (h_early : Comp.early ∈ fl) (h_spillWakes : Comp.spillWakes ∈ fl) (h_fetching : Comp.fetching ∈ fl) (h_descs : Comp.descs ∈ fl) (h_holdings : Comp.holdings ∈ fl) (h_fences : Comp.fences ∈ fl) (h_deadlines : Comp.deadlines ∈ fl) (h_leases : Comp.leases ∈ fl) (h_arming : Comp.arming ∈ fl) (h_heldq : Comp.heldq ∈ fl) (h_sn : Comp.sn ∈ fl) (h_dir : Comp.dir ∈ fl) (h_tack : Comp.tack ∈ fl) (h_fports : Comp.fports ∈ fl) (h_trees : Comp.trees ∈ fl) (h_inq : Comp.inq ∈ fl) (h_counters : Comp.counters ∈ fl) (h_gctr : Comp.gctr ∈ fl) (h_rake : Comp.rake ∈ fl) (h_trace : Comp.trace ∈ fl) (h_watches : Comp.watches ∈ fl) (h_irq : Comp.irq ∈ fl) (h_mem : Comp.mem ∈ fl) (h_mmPort : Comp.mmPort ∈ fl) (h_free : Comp.free ∈ fl) (hk : Frame fl fr s) : Frame fl fr (treeRelRx r s) := by
  unfold treeRelRx
  repeat' first
    | with_reducible assumption
    | (with_reducible exact Or.inl (by assumption))
    | (with_reducible exact Or.inr rfl)
    | with_reducible apply treeFlit_frame
    | dsimp only

theorem noticeFlit_frame {fl : List Comp} {fr : State} (r : Rx) (s : State) (h_wins : Comp.wins ∈ fl) (h_sn : Comp.sn ∈ fl) (h_counters : Comp.counters ∈ fl) (h_gctr : Comp.gctr ∈ fl) (h_rake : Comp.rake ∈ fl) (h_irq : Comp.irq ∈ fl) (hk : Frame fl fr s) : Frame fl fr (noticeFlit r s) := by
  unfold noticeFlit
  repeat' first
    | with_reducible assumption
    | (with_reducible exact Or.inl (by assumption))
    | (with_reducible exact Or.inr rfl)
    | with_reducible apply State.modSn_frame
    | with_reducible apply snInherit_frame
    | with_reducible apply snLost_frame
    | with_reducible apply Frame.ite
    | split
    | dsimp only

theorem detourTx_frame {fl : List Comp} {fr : State} (p : FabPort) (f : TxFlit) (s : State) (h_fports : Comp.fports ∈ fl) (hk : Frame fl fr s) : Frame fl fr (detourTx p f s) := by
  unfold detourTx
  repeat' first
    | with_reducible assumption
    | (with_reducible exact Or.inl (by assumption))
    | (with_reducible exact Or.inr rfl)
    | with_reducible apply enqueueTx_frame
    | with_reducible apply holdTx_frame
    | with_reducible apply Frame.ite
    | split
    | dsimp only

theorem resendTree_frame {fl : List Comp} {fr : State} (p : FabPort) (id : AgentId) (t : Tree) (s : State) (h_fports : Comp.fports ∈ fl) (h_gctr : Comp.gctr ∈ fl) (h_rake : Comp.rake ∈ fl) (h_irq : Comp.irq ∈ fl) (hk : Frame fl fr s) : Frame fl fr (resendTree p id t s) := by
  unfold resendTree
  repeat' first
    | with_reducible assumption
    | (with_reducible exact Or.inl (by assumption))
    | (with_reducible exact Or.inr rfl)
    | with_reducible apply fabSend_frame
    | with_reducible apply sendCombine_frame
    | with_reducible apply Frame.ite
    | (with_reducible refine Frame.foldl (fun _ _ _ => ?_) ?_)
    | split
    | dsimp only

theorem resendTrees_frame {fl : List Comp} {fr : State} (p : FabPort) (s : State) (h_fports : Comp.fports ∈ fl) (h_gctr : Comp.gctr ∈ fl) (h_rake : Comp.rake ∈ fl) (h_irq : Comp.irq ∈ fl) (hk : Frame fl fr s) : Frame fl fr (resendTrees p s) := by
  unfold resendTrees
  repeat' first
    | with_reducible assumption
    | (with_reducible exact Or.inl (by assumption))
    | (with_reducible exact Or.inr rfl)
    | with_reducible apply resendTree_frame
    | (with_reducible refine Frame.foldl (fun _ _ _ => ?_) ?_)
    | dsimp only

theorem reconcileOn_frame {fl : List Comp} {fr : State} (p : FabPort) (rx : BitVec 12) (s : State) (h_fports : Comp.fports ∈ fl) (h_gctr : Comp.gctr ∈ fl) (h_rake : Comp.rake ∈ fl) (h_irq : Comp.irq ∈ fl) (hk : Frame fl fr s) : Frame fl fr (reconcileOn p rx s) := by
  unfold reconcileOn
  repeat' first
    | with_reducible assumption
    | (with_reducible exact Or.inl (by assumption))
    | (with_reducible exact Or.inr rfl)
    | with_reducible apply State.setFp_frame
    | with_reducible apply gcountN_frame
    | with_reducible apply detourTx_frame
    | with_reducible apply resendTrees_frame
    | (with_reducible refine Frame.foldl (fun _ _ _ => ?_) ?_)
    | dsimp only

theorem reconcileFlit_frame {fl : List Comp} {fr : State} (r : Rx) (s : State) (h_cmds : Comp.cmds ∈ fl) (h_wins : Comp.wins ∈ fl) (h_aps : Comp.aps ∈ fl) (h_ops : Comp.ops ∈ fl) (h_fports : Comp.fports ∈ fl) (h_counters : Comp.counters ∈ fl) (h_gctr : Comp.gctr ∈ fl) (h_rake : Comp.rake ∈ fl) (h_trace : Comp.trace ∈ fl) (h_hobble : Comp.hobble ∈ fl) (h_irq : Comp.irq ∈ fl) (h_mem : Comp.mem ∈ fl) (h_mmPort : Comp.mmPort ∈ fl) (hk : Frame fl fr s) : Frame fl fr (reconcileFlit r s) := by
  unfold reconcileFlit
  repeat' first
    | with_reducible assumption
    | (with_reducible exact Or.inl (by assumption))
    | (with_reducible exact Or.inr rfl)
    | with_reducible apply losePort_frame
    | with_reducible apply reconcileOn_frame
    | with_reducible apply Frame.ite
    | split
    | dsimp only

theorem forwardFlit_frame {fl : List Comp} {fr : State} (kind : BitVec 4) (r : Rx) (due : Bool) (s : State) (h_fports : Comp.fports ∈ fl) (h_gctr : Comp.gctr ∈ fl) (h_rake : Comp.rake ∈ fl) (h_irq : Comp.irq ∈ fl) (hk : Frame fl fr s) : Frame fl fr (forwardFlit kind r due s) := by
  unfold forwardFlit
  repeat' first
    | with_reducible assumption
    | (with_reducible exact Or.inl (by assumption))
    | (with_reducible exact Or.inr rfl)
    | with_reducible apply gcount_frame
    | with_reducible apply reportFab_frame
    | with_reducible apply routeTx_frame
    | with_reducible apply freeBuf_frame
    | with_reducible apply Frame.ite
    | split
    | dsimp only

theorem opHead_frame {fl : List Comp} {fr : State} (kind : BitVec 4) (r : Rx) (due : Bool) (s : State) {kt : State} (h_cmds : Comp.cmds ∈ fl) (h_wins : Comp.wins ∈ fl) (h_parts : Comp.parts ∈ fl) (h_aps : Comp.aps ∈ fl) (h_ops : Comp.ops ∈ fl) (h_merges : Comp.merges ∈ fl) (h_rows : Comp.rows ∈ fl) (h_banks : Comp.banks ∈ fl) (h_waiters : Comp.waiters ∈ fl) (h_records : Comp.records ∈ fl) (h_early : Comp.early ∈ fl) (h_spillWakes : Comp.spillWakes ∈ fl) (h_fetching : Comp.fetching ∈ fl) (h_descs : Comp.descs ∈ fl) (h_holdings : Comp.holdings ∈ fl) (h_fences : Comp.fences ∈ fl) (h_deadlines : Comp.deadlines ∈ fl) (h_leases : Comp.leases ∈ fl) (h_arming : Comp.arming ∈ fl) (h_heldq : Comp.heldq ∈ fl) (h_sn : Comp.sn ∈ fl) (h_dir : Comp.dir ∈ fl) (h_tack : Comp.tack ∈ fl) (h_fports : Comp.fports ∈ fl) (h_trees : Comp.trees ∈ fl) (h_exts : Comp.exts ∈ fl) (h_counters : Comp.counters ∈ fl) (h_gctr : Comp.gctr ∈ fl) (h_rake : Comp.rake ∈ fl) (h_trace : Comp.trace ∈ fl) (h_watches : Comp.watches ∈ fl) (h_irq : Comp.irq ∈ fl) (h_mem : Comp.mem ∈ fl) (h_mmPort : Comp.mmPort ∈ fl) (h_free : Comp.free ∈ fl) (hk : Frame fl fr s) (he : opHead kind r due s = some kt) : Frame fl fr kt := by
  unfold opHead at he
  repeat' first
    | (cases he; done)
    | (injection he with he; subst he)
    | (injection he with he; injection he with he1 he2; subst he2)
    | (injection he with he)
    | split at he
    | dsimp only at he
    | with_reducible assumption
    | (with_reducible exact Or.inl (by assumption))
    | (with_reducible exact Or.inr rfl)
    | with_reducible apply freeBuf_frame
    | (refine opStep_frame _ _ _ (by assumption) (by assumption) (by assumption) (by assumption) (by assumption) (by assumption) (by assumption) (by assumption) (by assumption) (by assumption) (by assumption) (by assumption) (by assumption) (by assumption) (by assumption) (by assumption) (by assumption) (by assumption) (by assumption) (by assumption) (by assumption) (by assumption) (by assumption) (by assumption) (by assumption) (by assumption) (by assumption) (by assumption) (by assumption) (by assumption) (by assumption) (by assumption) (by assumption) (by assumption) (by assumption) ?_ (by with_reducible assumption))
    | with_reducible apply forwardFlit_frame
    | with_reducible apply Frame.ite
    | split
    | dsimp only

theorem opFlit_frame {fl : List Comp} {fr : State} (kind : BitVec 4) (r : Rx) (due : Bool) (s : State) (h_cmds : Comp.cmds ∈ fl) (h_wins : Comp.wins ∈ fl) (h_parts : Comp.parts ∈ fl) (h_aps : Comp.aps ∈ fl) (h_ops : Comp.ops ∈ fl) (h_merges : Comp.merges ∈ fl) (h_rows : Comp.rows ∈ fl) (h_banks : Comp.banks ∈ fl) (h_waiters : Comp.waiters ∈ fl) (h_records : Comp.records ∈ fl) (h_early : Comp.early ∈ fl) (h_spillWakes : Comp.spillWakes ∈ fl) (h_fetching : Comp.fetching ∈ fl) (h_descs : Comp.descs ∈ fl) (h_holdings : Comp.holdings ∈ fl) (h_fences : Comp.fences ∈ fl) (h_deadlines : Comp.deadlines ∈ fl) (h_leases : Comp.leases ∈ fl) (h_arming : Comp.arming ∈ fl) (h_heldq : Comp.heldq ∈ fl) (h_sn : Comp.sn ∈ fl) (h_dir : Comp.dir ∈ fl) (h_tack : Comp.tack ∈ fl) (h_fports : Comp.fports ∈ fl) (h_trees : Comp.trees ∈ fl) (h_exts : Comp.exts ∈ fl) (h_counters : Comp.counters ∈ fl) (h_gctr : Comp.gctr ∈ fl) (h_rake : Comp.rake ∈ fl) (h_trace : Comp.trace ∈ fl) (h_watches : Comp.watches ∈ fl) (h_irq : Comp.irq ∈ fl) (h_mem : Comp.mem ∈ fl) (h_mmPort : Comp.mmPort ∈ fl) (h_free : Comp.free ∈ fl) (hk : Frame fl fr s) : Frame fl fr (opFlit kind r due s) := by
  unfold opFlit
  repeat' first
    | with_reducible assumption
    | (with_reducible exact Or.inl (by assumption))
    | (with_reducible exact Or.inr rfl)
    | with_reducible apply holdRx_frame
    | (refine opHead_frame _ _ _ _ (by assumption) (by assumption) (by assumption) (by assumption) (by assumption) (by assumption) (by assumption) (by assumption) (by assumption) (by assumption) (by assumption) (by assumption) (by assumption) (by assumption) (by assumption) (by assumption) (by assumption) (by assumption) (by assumption) (by assumption) (by assumption) (by assumption) (by assumption) (by assumption) (by assumption) (by assumption) (by assumption) (by assumption) (by assumption) (by assumption) (by assumption) (by assumption) (by assumption) (by assumption) (by assumption) ?_ (by with_reducible assumption))
    | with_reducible apply Frame.ite
    | split
    | dsimp only

theorem feedFab_frame {fl : List Comp} {fr : State} (p : FabPort) (n : Nat) (h_cmds : Comp.cmds ∈ fl) (h_wins : Comp.wins ∈ fl) (h_parts : Comp.parts ∈ fl) (h_aps : Comp.aps ∈ fl) (h_ops : Comp.ops ∈ fl) (h_merges : Comp.merges ∈ fl) (h_rows : Comp.rows ∈ fl) (h_banks : Comp.banks ∈ fl) (h_waiters : Comp.waiters ∈ fl) (h_records : Comp.records ∈ fl) (h_early : Comp.early ∈ fl) (h_spillWakes : Comp.spillWakes ∈ fl) (h_fetching : Comp.fetching ∈ fl) (h_descs : Comp.descs ∈ fl) (h_holdings : Comp.holdings ∈ fl) (h_fences : Comp.fences ∈ fl) (h_deadlines : Comp.deadlines ∈ fl) (h_leases : Comp.leases ∈ fl) (h_arming : Comp.arming ∈ fl) (h_heldq : Comp.heldq ∈ fl) (h_sn : Comp.sn ∈ fl) (h_dir : Comp.dir ∈ fl) (h_tack : Comp.tack ∈ fl) (h_fports : Comp.fports ∈ fl) (h_trees : Comp.trees ∈ fl) (h_exts : Comp.exts ∈ fl) (h_counters : Comp.counters ∈ fl) (h_gctr : Comp.gctr ∈ fl) (h_rake : Comp.rake ∈ fl) (h_trace : Comp.trace ∈ fl) (h_watches : Comp.watches ∈ fl) (h_irq : Comp.irq ∈ fl) (h_mem : Comp.mem ∈ fl) (h_mmPort : Comp.mmPort ∈ fl) (h_free : Comp.free ∈ fl) : ∀ (s : State), Frame fl fr s → Frame fl fr (feedFab p n s) := by
  induction n with
  | zero => intro s hk; unfold feedFab; exact hk
  | succ n ih =>
    intro s hk
    unfold feedFab
    repeat' first
      | with_reducible assumption
      | (with_reducible exact Or.inl (by assumption))
      | (with_reducible exact Or.inr rfl)
      | with_reducible apply ih
      | with_reducible apply State.modFp_frame
      | (refine opHead_frame _ _ _ _ (by assumption) (by assumption) (by assumption) (by assumption) (by assumption) (by assumption) (by assumption) (by assumption) (by assumption) (by assumption) (by assumption) (by assumption) (by assumption) (by assumption) (by assumption) (by assumption) (by assumption) (by assumption) (by assumption) (by assumption) (by assumption) (by assumption) (by assumption) (by assumption) (by assumption) (by assumption) (by assumption) (by assumption) (by assumption) (by assumption) (by assumption) (by assumption) (by assumption) (by assumption) (by assumption) ?_ (by with_reducible assumption))
      | split
      | dsimp only

theorem opTableEntryGrant_frame {fl : List Comp} {fr : State} (s : State) (h_cmds : Comp.cmds ∈ fl) (h_wins : Comp.wins ∈ fl) (h_parts : Comp.parts ∈ fl) (h_binds : Comp.binds ∈ fl) (h_aps : Comp.aps ∈ fl) (h_ops : Comp.ops ∈ fl) (h_merges : Comp.merges ∈ fl) (h_rr : Comp.rr ∈ fl) (h_rows : Comp.rows ∈ fl) (h_banks : Comp.banks ∈ fl) (h_waiters : Comp.waiters ∈ fl) (h_records : Comp.records ∈ fl) (h_early : Comp.early ∈ fl) (h_spillWakes : Comp.spillWakes ∈ fl) (h_fetching : Comp.fetching ∈ fl) (h_descs : Comp.descs ∈ fl) (h_holdings : Comp.holdings ∈ fl) (h_fences : Comp.fences ∈ fl) (h_deadlines : Comp.deadlines ∈ fl) (h_leases : Comp.leases ∈ fl) (h_arming : Comp.arming ∈ fl) (h_heldq : Comp.heldq ∈ fl) (h_sn : Comp.sn ∈ fl) (h_dir : Comp.dir ∈ fl) (h_tack : Comp.tack ∈ fl) (h_fports : Comp.fports ∈ fl) (h_trees : Comp.trees ∈ fl) (h_exts : Comp.exts ∈ fl) (h_counters : Comp.counters ∈ fl) (h_gctr : Comp.gctr ∈ fl) (h_rake : Comp.rake ∈ fl) (h_trace : Comp.trace ∈ fl) (h_watches : Comp.watches ∈ fl) (h_irq : Comp.irq ∈ fl) (h_mem : Comp.mem ∈ fl) (h_mmPort : Comp.mmPort ∈ fl) (h_free : Comp.free ∈ fl) (hk : Frame fl fr s) : Frame fl fr (opTableEntryGrant s) := by
  unfold opTableEntryGrant
  repeat' first
    | with_reducible assumption
    | (with_reducible exact Or.inl (by assumption))
    | (with_reducible exact Or.inr rfl)
    | with_reducible apply opTableGrant_frame
    | with_reducible apply feedFab_frame
    | with_reducible apply Frame.ite
    | (with_reducible refine Frame.foldl (fun _ _ _ => ?_) ?_)
    | split
    | dsimp only

theorem sendEach_frame {fl : List Comp} {fr : State} (ports : List FabPort) (body : BitVec 144) (s : State) (h_fports : Comp.fports ∈ fl) (hk : Frame fl fr s) : Frame fl fr (sendEach ports body s) := by
  unfold sendEach
  repeat' first
    | with_reducible assumption
    | (with_reducible exact Or.inl (by assumption))
    | (with_reducible exact Or.inr rfl)
    | with_reducible apply fabSendOn_frame
    | (with_reducible refine Frame.foldl (fun _ _ _ => ?_) ?_)
    | dsimp only

theorem sendReports_frame {fl : List Comp} {fr : State} (p : FabPort) (deep : Bool) (l : List TopoRep) (h_fports : Comp.fports ∈ fl) : ∀ (s : State), Frame fl fr s → Frame fl fr (sendReports p deep l s) := by
  induction l with
  | nil => intro s hk; exact hk
  | cons x l ih =>
    intro s hk
    cases l with
    | nil => apply fabSendOn_frame <;> assumption
    | cons y l => exact ih _ (by apply fabSendOn_frame <;> assumption)

theorem sendVector_frame {fl : List Comp} {fr : State} (s : State) (h_fports : Comp.fports ∈ fl) (h_disc : Comp.disc ∈ fl) (hk : Frame fl fr s) : Frame fl fr (sendVector s) := by
  unfold sendVector
  repeat' first
    | with_reducible assumption
    | (with_reducible exact Or.inl (by assumption))
    | (with_reducible exact Or.inr rfl)
    | with_reducible apply State.modDisc_frame
    | with_reducible apply fabSendOn_frame
    | (with_reducible refine Frame.foldl (fun _ _ _ => ?_) ?_)
    | dsimp only

theorem dvFlush_frame {fl : List Comp} {fr : State} (s : State) (h_fports : Comp.fports ∈ fl) (h_disc : Comp.disc ∈ fl) (hk : Frame fl fr s) : Frame fl fr (dvFlush s) := by
  unfold dvFlush
  repeat' first
    | with_reducible assumption
    | (with_reducible exact Or.inl (by assumption))
    | (with_reducible exact Or.inr rfl)
    | with_reducible apply sendVector_frame
    | with_reducible apply Frame.ite
    | split
    | dsimp only

theorem dvTables_frame {fl : List Comp} {fr : State} (s : State) (h_routes : Comp.routes ∈ fl) (hk : Frame fl fr s) : Frame fl fr (dvTables s) := by
  unfold dvTables
  repeat' first
    | with_reducible assumption
    | (with_reducible exact Or.inl (by assumption))
    | (with_reducible exact Or.inr rfl)
    | with_reducible apply State.modFab_frame
    | (with_reducible refine Frame.foldl (fun _ _ _ => ?_) ?_)
    | dsimp only

theorem startVectors_frame {fl : List Comp} {fr : State} (s : State) (h_fports : Comp.fports ∈ fl) (h_disc : Comp.disc ∈ fl) (h_routes : Comp.routes ∈ fl) (hk : Frame fl fr s) : Frame fl fr (startVectors s) := by
  unfold startVectors
  repeat' first
    | with_reducible assumption
    | (with_reducible exact Or.inl (by assumption))
    | (with_reducible exact Or.inr rfl)
    | with_reducible apply State.modDisc_frame
    | with_reducible apply sendVector_frame
    | with_reducible apply dvTables_frame
    | dsimp only

theorem takeParent_frame {fl : List Comp} {fr : State} (gm : NodeId) (p : FabPort) (s : State) (h_clock : Comp.clock ∈ fl) (hk : Frame fl fr s) : Frame fl fr (takeParent gm p s) := by
  unfold takeParent
  repeat' first
    | with_reducible assumption
    | (with_reducible exact Or.inl (by assumption))
    | (with_reducible exact Or.inr rfl)
    | with_reducible apply State.modClk_frame
    | dsimp only

theorem parentFollow_frame {fl : List Comp} {fr : State} (s : State) (h_clock : Comp.clock ∈ fl) (hk : Frame fl fr s) : Frame fl fr (parentFollow s) := by
  unfold parentFollow
  repeat' first
    | with_reducible assumption
    | (with_reducible exact Or.inl (by assumption))
    | (with_reducible exact Or.inr rfl)
    | with_reducible apply takeParent_frame
    | with_reducible apply Frame.ite
    | split
    | dsimp only

theorem stitchCensus_frame {fl : List Comp} {fr : State} (s : State) (h_trees : Comp.trees ∈ fl) (h_census : Comp.census ∈ fl) (hk : Frame fl fr s) : Frame fl fr (stitchCensus s) := by
  unfold stitchCensus
  repeat' first
    | with_reducible assumption
    | (with_reducible exact Or.inl (by assumption))
    | (with_reducible exact Or.inr rfl)
    | with_reducible apply State.setTree_frame
    | with_reducible apply State.modCensus_frame
    | (with_reducible refine Frame.foldl (fun _ _ _ => ?_) ?_)
    | dsimp only

theorem releaseHeld_frame {fl : List Comp} {fr : State} (s : State) (h_fports : Comp.fports ∈ fl) (h_gctr : Comp.gctr ∈ fl) (h_rake : Comp.rake ∈ fl) (h_irq : Comp.irq ∈ fl) (hk : Frame fl fr s) : Frame fl fr (releaseHeld s) := by
  unfold releaseHeld
  repeat' first
    | with_reducible assumption
    | (with_reducible exact Or.inl (by assumption))
    | (with_reducible exact Or.inr rfl)
    | with_reducible apply State.setFp_frame
    | with_reducible apply routeTx_frame
    | with_reducible apply Frame.ite
    | (with_reducible refine Frame.foldl (fun _ _ _ => ?_) ?_)
    | split
    | dsimp only

theorem portsUp_frame {fl : List Comp} {fr : State} (ports : List FabPort) (s : State) (h_fports : Comp.fports ∈ fl) (hk : Frame fl fr s) : Frame fl fr (portsUp ports s) := by
  unfold portsUp
  repeat' first
    | with_reducible assumption
    | (with_reducible exact Or.inl (by assumption))
    | (with_reducible exact Or.inr rfl)
    | with_reducible apply State.modFp_frame
    | with_reducible apply Frame.ite
    | (with_reducible refine Frame.foldl (fun _ _ _ => ?_) ?_)
    | split
    | dsimp only

theorem completeHere_frame {fl : List Comp} {fr : State} (s : State) (h_clock : Comp.clock ∈ fl) (h_fports : Comp.fports ∈ fl) (h_trees : Comp.trees ∈ fl) (h_disc : Comp.disc ∈ fl) (h_census : Comp.census ∈ fl) (h_gctr : Comp.gctr ∈ fl) (h_rake : Comp.rake ∈ fl) (h_irq : Comp.irq ∈ fl) (hk : Frame fl fr s) : Frame fl fr (completeHere s) := by
  unfold completeHere
  repeat' first
    | with_reducible assumption
    | (with_reducible exact Or.inl (by assumption))
    | (with_reducible exact Or.inr rfl)
    | with_reducible apply State.modDisc_frame
    | with_reducible apply parentFollow_frame
    | with_reducible apply stitchCensus_frame
    | with_reducible apply releaseHeld_frame
    | with_reducible apply portsUp_frame
    | dsimp only

theorem finishDiscover_frame {fl : List Comp} {fr : State} (s : State) (h_cmds : Comp.cmds ∈ fl) (h_wins : Comp.wins ∈ fl) (h_aps : Comp.aps ∈ fl) (h_ops : Comp.ops ∈ fl) (h_fports : Comp.fports ∈ fl) (h_disc : Comp.disc ∈ fl) (h_counters : Comp.counters ∈ fl) (h_gctr : Comp.gctr ∈ fl) (h_rake : Comp.rake ∈ fl) (h_trace : Comp.trace ∈ fl) (h_irq : Comp.irq ∈ fl) (h_mem : Comp.mem ∈ fl) (h_mmPort : Comp.mmPort ∈ fl) (hk : Frame fl fr s) : Frame fl fr (finishDiscover s) := by
  unfold finishDiscover
  repeat' first
    | with_reducible assumption
    | (with_reducible exact Or.inl (by assumption))
    | (with_reducible exact Or.inr rfl)
    | with_reducible apply State.modDisc_frame
    | with_reducible apply ok_frame
    | split
    | dsimp only

theorem completionCheck_frame {fl : List Comp} {fr : State} (s : State) (h_clock : Comp.clock ∈ fl) (h_cmds : Comp.cmds ∈ fl) (h_wins : Comp.wins ∈ fl) (h_aps : Comp.aps ∈ fl) (h_ops : Comp.ops ∈ fl) (h_fports : Comp.fports ∈ fl) (h_trees : Comp.trees ∈ fl) (h_disc : Comp.disc ∈ fl) (h_census : Comp.census ∈ fl) (h_counters : Comp.counters ∈ fl) (h_gctr : Comp.gctr ∈ fl) (h_rake : Comp.rake ∈ fl) (h_trace : Comp.trace ∈ fl) (h_irq : Comp.irq ∈ fl) (h_mem : Comp.mem ∈ fl) (h_mmPort : Comp.mmPort ∈ fl) (hk : Frame fl fr s) : Frame fl fr (completionCheck s) := by
  unfold completionCheck
  repeat' first
    | with_reducible assumption
    | (with_reducible exact Or.inl (by assumption))
    | (with_reducible exact Or.inr rfl)
    | with_reducible apply fabSendOn_frame
    | with_reducible apply sendEach_frame
    | with_reducible apply completeHere_frame
    | with_reducible apply finishDiscover_frame
    | with_reducible apply Frame.ite
    | split
    | dsimp only

theorem failDiscover_frame {fl : List Comp} {fr : State} (s : State) (h_cmds : Comp.cmds ∈ fl) (h_wins : Comp.wins ∈ fl) (h_aps : Comp.aps ∈ fl) (h_ops : Comp.ops ∈ fl) (h_fports : Comp.fports ∈ fl) (h_disc : Comp.disc ∈ fl) (h_counters : Comp.counters ∈ fl) (h_gctr : Comp.gctr ∈ fl) (h_rake : Comp.rake ∈ fl) (h_trace : Comp.trace ∈ fl) (h_irq : Comp.irq ∈ fl) (h_mem : Comp.mem ∈ fl) (h_mmPort : Comp.mmPort ∈ fl) (hk : Frame fl fr s) : Frame fl fr (failDiscover s) := by
  unfold failDiscover
  repeat' first
    | with_reducible assumption
    | (with_reducible exact Or.inl (by assumption))
    | (with_reducible exact Or.inr rfl)
    | with_reducible apply State.modDisc_frame
    | with_reducible apply refuse_frame
    | split
    | dsimp only

theorem assignAll_frame {fl : List Comp} {fr : State} (c : Cmd) (s : State) (h_cmds : Comp.cmds ∈ fl) (h_wins : Comp.wins ∈ fl) (h_aps : Comp.aps ∈ fl) (h_ops : Comp.ops ∈ fl) (h_fports : Comp.fports ∈ fl) (h_disc : Comp.disc ∈ fl) (h_census : Comp.census ∈ fl) (h_routes : Comp.routes ∈ fl) (h_counters : Comp.counters ∈ fl) (h_gctr : Comp.gctr ∈ fl) (h_rake : Comp.rake ∈ fl) (h_trace : Comp.trace ∈ fl) (h_irq : Comp.irq ∈ fl) (h_mem : Comp.mem ∈ fl) (h_mmPort : Comp.mmPort ∈ fl) (hk : Frame fl fr s) : Frame fl fr (assignAll c s) := by
  unfold assignAll
  repeat' first
    | with_reducible assumption
    | (with_reducible exact Or.inl (by assumption))
    | (with_reducible exact Or.inr rfl)
    | with_reducible apply State.modFab_frame
    | with_reducible apply State.modDisc_frame
    | with_reducible apply State.modCensus_frame
    | with_reducible apply mmRequest_frame
    | with_reducible apply mmWrite_frame
    | with_reducible apply fabSendOn_frame
    | with_reducible apply refuse_frame
    | with_reducible apply memFail_frame
    | with_reducible apply sendEach_frame
    | with_reducible apply startVectors_frame
    | with_reducible apply failDiscover_frame
    | with_reducible apply Frame.ite
    | (with_reducible refine Frame.foldl (fun _ _ _ => ?_) ?_)
    | split
    | dsimp only

theorem probesAnswered_frame {fl : List Comp} {fr : State} (s : State) (h_cmds : Comp.cmds ∈ fl) (h_wins : Comp.wins ∈ fl) (h_aps : Comp.aps ∈ fl) (h_ops : Comp.ops ∈ fl) (h_fports : Comp.fports ∈ fl) (h_disc : Comp.disc ∈ fl) (h_census : Comp.census ∈ fl) (h_routes : Comp.routes ∈ fl) (h_counters : Comp.counters ∈ fl) (h_gctr : Comp.gctr ∈ fl) (h_rake : Comp.rake ∈ fl) (h_trace : Comp.trace ∈ fl) (h_irq : Comp.irq ∈ fl) (h_mem : Comp.mem ∈ fl) (h_mmPort : Comp.mmPort ∈ fl) (hk : Frame fl fr s) : Frame fl fr (probesAnswered s) := by
  unfold probesAnswered
  repeat' first
    | with_reducible assumption
    | (with_reducible exact Or.inl (by assumption))
    | (with_reducible exact Or.inr rfl)
    | with_reducible apply State.modDisc_frame
    | with_reducible apply sendReports_frame
    | with_reducible apply assignAll_frame
    | with_reducible apply Frame.ite
    | split
    | dsimp only

theorem routeDiscover_frame {fl : List Comp} {fr : State} (c : Cmd) (s : State) (h_cmds : Comp.cmds ∈ fl) (h_wins : Comp.wins ∈ fl) (h_aps : Comp.aps ∈ fl) (h_ops : Comp.ops ∈ fl) (h_fports : Comp.fports ∈ fl) (h_disc : Comp.disc ∈ fl) (h_census : Comp.census ∈ fl) (h_routes : Comp.routes ∈ fl) (h_counters : Comp.counters ∈ fl) (h_gctr : Comp.gctr ∈ fl) (h_rake : Comp.rake ∈ fl) (h_trace : Comp.trace ∈ fl) (h_irq : Comp.irq ∈ fl) (h_mem : Comp.mem ∈ fl) (h_mmPort : Comp.mmPort ∈ fl) (hk : Frame fl fr s) : Frame fl fr (routeDiscover c s) := by
  unfold routeDiscover
  repeat' first
    | with_reducible assumption
    | (with_reducible exact Or.inl (by assumption))
    | (with_reducible exact Or.inr rfl)
    | with_reducible apply State.modFab_frame
    | with_reducible apply refuse_frame
    | with_reducible apply setPhase_frame
    | with_reducible apply sendEach_frame
    | with_reducible apply probesAnswered_frame
    | with_reducible apply Frame.ite
    | split
    | dsimp only

theorem routeLoad_frame {fl : List Comp} {fr : State} (c : Cmd) (s : State) (h_clock : Comp.clock ∈ fl) (h_cmds : Comp.cmds ∈ fl) (h_wins : Comp.wins ∈ fl) (h_aps : Comp.aps ∈ fl) (h_ops : Comp.ops ∈ fl) (h_fports : Comp.fports ∈ fl) (h_routes : Comp.routes ∈ fl) (h_counters : Comp.counters ∈ fl) (h_gctr : Comp.gctr ∈ fl) (h_rake : Comp.rake ∈ fl) (h_trace : Comp.trace ∈ fl) (h_irq : Comp.irq ∈ fl) (h_mem : Comp.mem ∈ fl) (h_mmPort : Comp.mmPort ∈ fl) (hk : Frame fl fr s) : Frame fl fr (routeLoad c s) := by
  unfold routeLoad
  repeat' first
    | with_reducible assumption
    | (with_reducible exact Or.inl (by assumption))
    | (with_reducible exact Or.inr rfl)
    | with_reducible apply State.modFab_frame
    | with_reducible apply mmRequest_frame
    | with_reducible apply ok_frame
    | with_reducible apply refuse_frame
    | with_reducible apply memFail_frame
    | with_reducible apply parentFollow_frame
    | with_reducible apply releaseHeld_frame
    | with_reducible apply portsUp_frame
    | with_reducible apply Frame.ite
    | split
    | dsimp only

theorem probeFlit_frame {fl : List Comp} {fr : State} (r : Rx) (s : State) (h_cmds : Comp.cmds ∈ fl) (h_wins : Comp.wins ∈ fl) (h_aps : Comp.aps ∈ fl) (h_ops : Comp.ops ∈ fl) (h_fports : Comp.fports ∈ fl) (h_disc : Comp.disc ∈ fl) (h_census : Comp.census ∈ fl) (h_routes : Comp.routes ∈ fl) (h_counters : Comp.counters ∈ fl) (h_gctr : Comp.gctr ∈ fl) (h_rake : Comp.rake ∈ fl) (h_trace : Comp.trace ∈ fl) (h_irq : Comp.irq ∈ fl) (h_mem : Comp.mem ∈ fl) (h_mmPort : Comp.mmPort ∈ fl) (hk : Frame fl fr s) : Frame fl fr (probeFlit r s) := by
  unfold probeFlit
  repeat' first
    | with_reducible assumption
    | (with_reducible exact Or.inl (by assumption))
    | (with_reducible exact Or.inr rfl)
    | with_reducible apply State.modFab_frame
    | with_reducible apply fabSendOn_frame
    | with_reducible apply sendEach_frame
    | with_reducible apply probesAnswered_frame
    | with_reducible apply Frame.ite
    | split
    | dsimp only

theorem probeDone_frame {fl : List Comp} {fr : State} (p : FabPort) (s : State) (h_cmds : Comp.cmds ∈ fl) (h_wins : Comp.wins ∈ fl) (h_aps : Comp.aps ∈ fl) (h_ops : Comp.ops ∈ fl) (h_fports : Comp.fports ∈ fl) (h_disc : Comp.disc ∈ fl) (h_census : Comp.census ∈ fl) (h_routes : Comp.routes ∈ fl) (h_counters : Comp.counters ∈ fl) (h_gctr : Comp.gctr ∈ fl) (h_rake : Comp.rake ∈ fl) (h_trace : Comp.trace ∈ fl) (h_irq : Comp.irq ∈ fl) (h_mem : Comp.mem ∈ fl) (h_mmPort : Comp.mmPort ∈ fl) (hk : Frame fl fr s) : Frame fl fr (probeDone p s) := by
  unfold probeDone
  repeat' first
    | with_reducible assumption
    | (with_reducible exact Or.inl (by assumption))
    | (with_reducible exact Or.inr rfl)
    | with_reducible apply State.modDisc_frame
    | with_reducible apply probesAnswered_frame
    | dsimp only

theorem notChildFlit_frame {fl : List Comp} {fr : State} (r : Rx) (s : State) (h_cmds : Comp.cmds ∈ fl) (h_wins : Comp.wins ∈ fl) (h_aps : Comp.aps ∈ fl) (h_ops : Comp.ops ∈ fl) (h_fports : Comp.fports ∈ fl) (h_disc : Comp.disc ∈ fl) (h_census : Comp.census ∈ fl) (h_routes : Comp.routes ∈ fl) (h_counters : Comp.counters ∈ fl) (h_gctr : Comp.gctr ∈ fl) (h_rake : Comp.rake ∈ fl) (h_trace : Comp.trace ∈ fl) (h_irq : Comp.irq ∈ fl) (h_mem : Comp.mem ∈ fl) (h_mmPort : Comp.mmPort ∈ fl) (hk : Frame fl fr s) : Frame fl fr (notChildFlit r s) := by
  unfold notChildFlit
  repeat' first
    | with_reducible assumption
    | (with_reducible exact Or.inl (by assumption))
    | (with_reducible exact Or.inr rfl)
    | with_reducible apply probeDone_frame
    | with_reducible apply Frame.ite
    | split
    | dsimp only

theorem reportFlit_frame {fl : List Comp} {fr : State} (r : Rx) (s : State) (h_cmds : Comp.cmds ∈ fl) (h_wins : Comp.wins ∈ fl) (h_aps : Comp.aps ∈ fl) (h_ops : Comp.ops ∈ fl) (h_fports : Comp.fports ∈ fl) (h_disc : Comp.disc ∈ fl) (h_census : Comp.census ∈ fl) (h_routes : Comp.routes ∈ fl) (h_counters : Comp.counters ∈ fl) (h_gctr : Comp.gctr ∈ fl) (h_rake : Comp.rake ∈ fl) (h_trace : Comp.trace ∈ fl) (h_irq : Comp.irq ∈ fl) (h_mem : Comp.mem ∈ fl) (h_mmPort : Comp.mmPort ∈ fl) (hk : Frame fl fr s) : Frame fl fr (reportFlit r s) := by
  unfold reportFlit
  repeat' first
    | with_reducible assumption
    | (with_reducible exact Or.inl (by assumption))
    | (with_reducible exact Or.inr rfl)
    | with_reducible apply State.modDisc_frame
    | with_reducible apply probeDone_frame
    | with_reducible apply Frame.ite
    | split
    | dsimp only

theorem assignFlit_frame {fl : List Comp} {fr : State} (r : Rx) (s : State) (h_fports : Comp.fports ∈ fl) (h_routes : Comp.routes ∈ fl) (hk : Frame fl fr s) : Frame fl fr (assignFlit r s) := by
  unfold assignFlit
  repeat' first
    | with_reducible assumption
    | (with_reducible exact Or.inl (by assumption))
    | (with_reducible exact Or.inr rfl)
    | with_reducible apply State.modFab_frame
    | with_reducible apply fabSendOn_frame
    | with_reducible apply Frame.ite
    | split
    | dsimp only

theorem planFlit_frame {fl : List Comp} {fr : State} (r : Rx) (s : State) (h_fports : Comp.fports ∈ fl) (h_disc : Comp.disc ∈ fl) (h_routes : Comp.routes ∈ fl) (hk : Frame fl fr s) : Frame fl fr (planFlit r s) := by
  unfold planFlit
  repeat' first
    | with_reducible assumption
    | (with_reducible exact Or.inl (by assumption))
    | (with_reducible exact Or.inr rfl)
    | with_reducible apply State.modFab_frame
    | with_reducible apply State.modDisc_frame
    | with_reducible apply sendEach_frame
    | with_reducible apply startVectors_frame
    | with_reducible apply Frame.ite
    | split
    | dsimp only

theorem dvFlit_frame {fl : List Comp} {fr : State} (r : Rx) (s : State) (h_fports : Comp.fports ∈ fl) (h_disc : Comp.disc ∈ fl) (h_routes : Comp.routes ∈ fl) (hk : Frame fl fr s) : Frame fl fr (dvFlit r s) := by
  unfold dvFlit
  repeat' first
    | with_reducible assumption
    | (with_reducible exact Or.inl (by assumption))
    | (with_reducible exact Or.inr rfl)
    | with_reducible apply State.modFp_frame
    | with_reducible apply State.modDisc_frame
    | with_reducible apply dvFlush_frame
    | with_reducible apply dvTables_frame
    | with_reducible apply Frame.ite
    | (with_reducible refine Frame.foldl (fun _ _ _ => ?_) ?_)
    | split
    | dsimp only

theorem convergedAt_frame {fl : List Comp} {fr : State} (s : State) (h_clock : Comp.clock ∈ fl) (h_cmds : Comp.cmds ∈ fl) (h_wins : Comp.wins ∈ fl) (h_aps : Comp.aps ∈ fl) (h_ops : Comp.ops ∈ fl) (h_fports : Comp.fports ∈ fl) (h_trees : Comp.trees ∈ fl) (h_disc : Comp.disc ∈ fl) (h_census : Comp.census ∈ fl) (h_counters : Comp.counters ∈ fl) (h_gctr : Comp.gctr ∈ fl) (h_rake : Comp.rake ∈ fl) (h_trace : Comp.trace ∈ fl) (h_irq : Comp.irq ∈ fl) (h_mem : Comp.mem ∈ fl) (h_mmPort : Comp.mmPort ∈ fl) (hk : Frame fl fr s) : Frame fl fr (convergedAt s) := by
  unfold convergedAt
  repeat' first
    | with_reducible assumption
    | (with_reducible exact Or.inl (by assumption))
    | (with_reducible exact Or.inr rfl)
    | with_reducible apply State.modDisc_frame
    | with_reducible apply completionCheck_frame
    | with_reducible apply Frame.ite
    | split
    | dsimp only

theorem doneUpFlit_frame {fl : List Comp} {fr : State} (r : Rx) (s : State) (h_clock : Comp.clock ∈ fl) (h_cmds : Comp.cmds ∈ fl) (h_wins : Comp.wins ∈ fl) (h_aps : Comp.aps ∈ fl) (h_ops : Comp.ops ∈ fl) (h_fports : Comp.fports ∈ fl) (h_trees : Comp.trees ∈ fl) (h_disc : Comp.disc ∈ fl) (h_census : Comp.census ∈ fl) (h_counters : Comp.counters ∈ fl) (h_gctr : Comp.gctr ∈ fl) (h_rake : Comp.rake ∈ fl) (h_trace : Comp.trace ∈ fl) (h_irq : Comp.irq ∈ fl) (h_mem : Comp.mem ∈ fl) (h_mmPort : Comp.mmPort ∈ fl) (hk : Frame fl fr s) : Frame fl fr (doneUpFlit r s) := by
  unfold doneUpFlit
  repeat' first
    | with_reducible assumption
    | (with_reducible exact Or.inl (by assumption))
    | (with_reducible exact Or.inr rfl)
    | with_reducible apply State.modDisc_frame
    | with_reducible apply completionCheck_frame
    | with_reducible apply Frame.ite
    | split
    | dsimp only

theorem doneDownFlit_frame {fl : List Comp} {fr : State} (r : Rx) (s : State) (h_clock : Comp.clock ∈ fl) (h_fports : Comp.fports ∈ fl) (h_trees : Comp.trees ∈ fl) (h_disc : Comp.disc ∈ fl) (h_census : Comp.census ∈ fl) (h_gctr : Comp.gctr ∈ fl) (h_rake : Comp.rake ∈ fl) (h_irq : Comp.irq ∈ fl) (hk : Frame fl fr s) : Frame fl fr (doneDownFlit r s) := by
  unfold doneDownFlit
  repeat' first
    | with_reducible assumption
    | (with_reducible exact Or.inl (by assumption))
    | (with_reducible exact Or.inr rfl)
    | with_reducible apply sendEach_frame
    | with_reducible apply completeHere_frame
    | with_reducible apply Frame.ite
    | split
    | dsimp only

theorem stitchBegin_frame {fl : List Comp} {fr : State} (id : AgentId) (t : Tree) (s : State) (h_fports : Comp.fports ∈ fl) (h_trees : Comp.trees ∈ fl) (h_gctr : Comp.gctr ∈ fl) (h_rake : Comp.rake ∈ fl) (h_irq : Comp.irq ∈ fl) (hk : Frame fl fr s) : Frame fl fr (stitchBegin id t s) := by
  unfold stitchBegin
  repeat' first
    | with_reducible assumption
    | (with_reducible exact Or.inl (by assumption))
    | (with_reducible exact Or.inr rfl)
    | with_reducible apply State.setTree_frame
    | with_reducible apply fabSend_frame
    | with_reducible apply Frame.ite
    | split
    | dsimp only

theorem stitchGiveUp_frame {fl : List Comp} {fr : State} (id : AgentId) (t : Tree) (j : BitVec 16) (s : State) (h_fports : Comp.fports ∈ fl) (h_trees : Comp.trees ∈ fl) (h_gctr : Comp.gctr ∈ fl) (h_rake : Comp.rake ∈ fl) (h_irq : Comp.irq ∈ fl) (hk : Frame fl fr s) : Frame fl fr (stitchGiveUp id t j s) := by
  unfold stitchGiveUp
  repeat' first
    | with_reducible assumption
    | (with_reducible exact Or.inl (by assumption))
    | (with_reducible exact Or.inr rfl)
    | with_reducible apply State.setTree_frame
    | with_reducible apply fabSend_frame
    | dsimp only

theorem restitchStart_frame {fl : List Comp} {fr : State} (id : AgentId) (s : State) (h_cmds : Comp.cmds ∈ fl) (h_wins : Comp.wins ∈ fl) (h_parts : Comp.parts ∈ fl) (h_aps : Comp.aps ∈ fl) (h_ops : Comp.ops ∈ fl) (h_merges : Comp.merges ∈ fl) (h_rows : Comp.rows ∈ fl) (h_banks : Comp.banks ∈ fl) (h_waiters : Comp.waiters ∈ fl) (h_records : Comp.records ∈ fl) (h_early : Comp.early ∈ fl) (h_spillWakes : Comp.spillWakes ∈ fl) (h_fetching : Comp.fetching ∈ fl) (h_descs : Comp.descs ∈ fl) (h_holdings : Comp.holdings ∈ fl) (h_fences : Comp.fences ∈ fl) (h_deadlines : Comp.deadlines ∈ fl) (h_leases : Comp.leases ∈ fl) (h_arming : Comp.arming ∈ fl) (h_heldq : Comp.heldq ∈ fl) (h_sn : Comp.sn ∈ fl) (h_dir : Comp.dir ∈ fl) (h_tack : Comp.tack ∈ fl) (h_fports : Comp.fports ∈ fl) (h_trees : Comp.trees ∈ fl) (h_inq : Comp.inq ∈ fl) (h_counters : Comp.counters ∈ fl) (h_gctr : Comp.gctr ∈ fl) (h_rake : Comp.rake ∈ fl) (h_trace : Comp.trace ∈ fl) (h_watches : Comp.watches ∈ fl) (h_irq : Comp.irq ∈ fl) (h_mem : Comp.mem ∈ fl) (h_mmPort : Comp.mmPort ∈ fl) (h_free : Comp.free ∈ fl) (hk : Frame fl fr s) : Frame fl fr (restitchStart id s) := by
  unfold restitchStart
  repeat' first
    | with_reducible assumption
    | (with_reducible exact Or.inl (by assumption))
    | (with_reducible exact Or.inr rfl)
    | with_reducible apply State.setTree_frame
    | with_reducible apply clearHoldStitch_frame
    | with_reducible apply pump_frame
    | with_reducible apply stitchBegin_frame
    | with_reducible apply stitchGiveUp_frame
    | with_reducible apply Frame.ite
    | split
    | dsimp only

theorem stitchHoldFlit_frame {fl : List Comp} {fr : State} (r : Rx) (s : State) (h_fports : Comp.fports ∈ fl) (h_trees : Comp.trees ∈ fl) (h_gctr : Comp.gctr ∈ fl) (h_rake : Comp.rake ∈ fl) (h_irq : Comp.irq ∈ fl) (hk : Frame fl fr s) : Frame fl fr (stitchHoldFlit r s) := by
  unfold stitchHoldFlit
  repeat' first
    | with_reducible assumption
    | (with_reducible exact Or.inl (by assumption))
    | (with_reducible exact Or.inr rfl)
    | with_reducible apply State.setTree_frame
    | with_reducible apply fabSend_frame
    | with_reducible apply Frame.ite
    | split
    | dsimp only

theorem stitchJoinFlit_frame {fl : List Comp} {fr : State} (r : Rx) (s : State) (h_fports : Comp.fports ∈ fl) (h_trees : Comp.trees ∈ fl) (h_gctr : Comp.gctr ∈ fl) (h_rake : Comp.rake ∈ fl) (h_irq : Comp.irq ∈ fl) (hk : Frame fl fr s) : Frame fl fr (stitchJoinFlit r s) := by
  unfold stitchJoinFlit
  repeat' first
    | with_reducible assumption
    | (with_reducible exact Or.inl (by assumption))
    | (with_reducible exact Or.inr rfl)
    | with_reducible apply State.setTree_frame
    | with_reducible apply fabSend_frame
    | with_reducible apply Frame.ite
    | split
    | dsimp only

theorem stitchLeaveFlit_frame {fl : List Comp} {fr : State} (r : Rx) (s : State) (h_trees : Comp.trees ∈ fl) (hk : Frame fl fr s) : Frame fl fr (stitchLeaveFlit r s) := by
  unfold stitchLeaveFlit
  repeat' first
    | with_reducible assumption
    | (with_reducible exact Or.inl (by assumption))
    | (with_reducible exact Or.inr rfl)
    | with_reducible apply State.setTree_frame
    | split
    | dsimp only

theorem stitchDoneFlit_frame {fl : List Comp} {fr : State} (r : Rx) (s : State) (h_cmds : Comp.cmds ∈ fl) (h_wins : Comp.wins ∈ fl) (h_parts : Comp.parts ∈ fl) (h_aps : Comp.aps ∈ fl) (h_ops : Comp.ops ∈ fl) (h_merges : Comp.merges ∈ fl) (h_rows : Comp.rows ∈ fl) (h_banks : Comp.banks ∈ fl) (h_waiters : Comp.waiters ∈ fl) (h_records : Comp.records ∈ fl) (h_early : Comp.early ∈ fl) (h_spillWakes : Comp.spillWakes ∈ fl) (h_fetching : Comp.fetching ∈ fl) (h_descs : Comp.descs ∈ fl) (h_holdings : Comp.holdings ∈ fl) (h_fences : Comp.fences ∈ fl) (h_deadlines : Comp.deadlines ∈ fl) (h_leases : Comp.leases ∈ fl) (h_arming : Comp.arming ∈ fl) (h_heldq : Comp.heldq ∈ fl) (h_sn : Comp.sn ∈ fl) (h_dir : Comp.dir ∈ fl) (h_tack : Comp.tack ∈ fl) (h_fports : Comp.fports ∈ fl) (h_trees : Comp.trees ∈ fl) (h_inq : Comp.inq ∈ fl) (h_counters : Comp.counters ∈ fl) (h_gctr : Comp.gctr ∈ fl) (h_rake : Comp.rake ∈ fl) (h_trace : Comp.trace ∈ fl) (h_watches : Comp.watches ∈ fl) (h_irq : Comp.irq ∈ fl) (h_mem : Comp.mem ∈ fl) (h_mmPort : Comp.mmPort ∈ fl) (h_free : Comp.free ∈ fl) (hk : Frame fl fr s) : Frame fl fr (stitchDoneFlit r s) := by
  unfold stitchDoneFlit
  repeat' first
    | with_reducible assumption
    | (with_reducible exact Or.inl (by assumption))
    | (with_reducible exact Or.inr rfl)
    | with_reducible apply clearHoldStitch_frame
    | with_reducible apply pump_frame
    | with_reducible apply Frame.ite
    | split
    | dsimp only

theorem stitchReplyFlit_frame {fl : List Comp} {fr : State} (r : Rx) (s : State) (h_fports : Comp.fports ∈ fl) (h_trees : Comp.trees ∈ fl) (h_gctr : Comp.gctr ∈ fl) (h_rake : Comp.rake ∈ fl) (h_irq : Comp.irq ∈ fl) (hk : Frame fl fr s) : Frame fl fr (stitchReplyFlit r s) := by
  unfold stitchReplyFlit
  repeat' first
    | with_reducible assumption
    | (with_reducible exact Or.inl (by assumption))
    | (with_reducible exact Or.inr rfl)
    | with_reducible apply State.setTree_frame
    | with_reducible apply report_frame
    | with_reducible apply fabSend_frame
    | with_reducible apply Frame.ite
    | split
    | dsimp only

theorem stitchFlit_frame {fl : List Comp} {fr : State} (r : Rx) (s : State) (h_cmds : Comp.cmds ∈ fl) (h_wins : Comp.wins ∈ fl) (h_parts : Comp.parts ∈ fl) (h_aps : Comp.aps ∈ fl) (h_ops : Comp.ops ∈ fl) (h_merges : Comp.merges ∈ fl) (h_rows : Comp.rows ∈ fl) (h_banks : Comp.banks ∈ fl) (h_waiters : Comp.waiters ∈ fl) (h_records : Comp.records ∈ fl) (h_early : Comp.early ∈ fl) (h_spillWakes : Comp.spillWakes ∈ fl) (h_fetching : Comp.fetching ∈ fl) (h_descs : Comp.descs ∈ fl) (h_holdings : Comp.holdings ∈ fl) (h_fences : Comp.fences ∈ fl) (h_deadlines : Comp.deadlines ∈ fl) (h_leases : Comp.leases ∈ fl) (h_arming : Comp.arming ∈ fl) (h_heldq : Comp.heldq ∈ fl) (h_sn : Comp.sn ∈ fl) (h_dir : Comp.dir ∈ fl) (h_tack : Comp.tack ∈ fl) (h_fports : Comp.fports ∈ fl) (h_trees : Comp.trees ∈ fl) (h_inq : Comp.inq ∈ fl) (h_counters : Comp.counters ∈ fl) (h_gctr : Comp.gctr ∈ fl) (h_rake : Comp.rake ∈ fl) (h_trace : Comp.trace ∈ fl) (h_watches : Comp.watches ∈ fl) (h_irq : Comp.irq ∈ fl) (h_mem : Comp.mem ∈ fl) (h_mmPort : Comp.mmPort ∈ fl) (h_free : Comp.free ∈ fl) (hk : Frame fl fr s) : Frame fl fr (stitchFlit r s) := by
  unfold stitchFlit
  repeat' first
    | with_reducible assumption
    | (with_reducible exact Or.inl (by assumption))
    | (with_reducible exact Or.inr rfl)
    | with_reducible apply stitchHoldFlit_frame
    | with_reducible apply stitchJoinFlit_frame
    | with_reducible apply stitchLeaveFlit_frame
    | with_reducible apply stitchDoneFlit_frame
    | with_reducible apply stitchReplyFlit_frame
    | with_reducible apply Frame.ite
    | split
    | dsimp only

end Sys2Proof.Machine
end

