-- ==== Sys2Proof/Laws/FrameAll.lean ====
section
/-! SUPPORT. What the effects defined in TimeSync, RemoteCmd, Census, Hobble, Fabric leave unchanged: each lemma names every component its function may write. -/

namespace Sys2Proof.Machine

theorem loseGm_frame {fl : List Comp} {fr : State} (keep : Bool) (s : State) (h_clock : Comp.clock ∈ fl) (hk : Frame fl fr s) : Frame fl fr (loseGm keep s) := by
  unfold loseGm
  repeat' first
    | with_reducible assumption
    | (with_reducible exact Or.inl (by assumption))
    | (with_reducible exact Or.inr rfl)
    | with_reducible apply State.modClk_frame
    | with_reducible apply Frame.ite
    | split
    | dsimp only

theorem becomeGm_frame {fl : List Comp} {fr : State} (s : State) (h_clock : Comp.clock ∈ fl) (hk : Frame fl fr s) : Frame fl fr (becomeGm s) := by
  unfold becomeGm
  repeat' first
    | with_reducible assumption
    | (with_reducible exact Or.inl (by assumption))
    | (with_reducible exact Or.inr rfl)
    | with_reducible apply State.modClk_frame
    | with_reducible apply Frame.ite
    | split
    | dsimp only

theorem hearGm_frame {fl : List Comp} {fr : State} (s : State) (h_free : Comp.free ∈ fl) (hk : Frame fl fr s) : Frame fl fr (hearGm s).2 := by
  unfold hearGm
  repeat' first
    | with_reducible assumption
    | (with_reducible exact Or.inl (by assumption))
    | (with_reducible exact Or.inr rfl)
    | with_reducible apply fresh_frame
    | (refine fresh_frameE _ (by assumption) ?_ (by with_reducible assumption))
    | with_reducible apply Frame.ite
    | split
    | dsimp only

theorem hearGm_frameE {fl : List Comp} {fr : State} (s : State) {kv} {kt : State} (h_free : Comp.free ∈ fl) (hk : Frame fl fr s) (he : hearGm s = (kv, kt)) : Frame fl fr kt := by
  have h := hearGm_frame (fl := fl) (fr := fr) s h_free hk
  rw [he] at h; exact h

theorem noteHeard_frame {fl : List Comp} {fr : State} (h : Option (NodeId × FabPort)) (s : State) (h_time : Comp.time ∈ fl) (h_clock : Comp.clock ∈ fl) (hk : Frame fl fr s) : Frame fl fr (noteHeard h s) := by
  unfold noteHeard
  repeat' first
    | with_reducible assumption
    | (with_reducible exact Or.inl (by assumption))
    | (with_reducible exact Or.inr rfl)
    | with_reducible apply State.modClk_frame
    | with_reducible apply Frame.ite
    | split
    | dsimp only

theorem yieldGm_frame {fl : List Comp} {fr : State} (gm : NodeId) (p : FabPort) (s : State) (h_clock : Comp.clock ∈ fl) (hk : Frame fl fr s) : Frame fl fr (yieldGm gm p s) := by
  unfold yieldGm
  repeat' first
    | with_reducible assumption
    | (with_reducible exact Or.inl (by assumption))
    | (with_reducible exact Or.inr rfl)
    | with_reducible apply State.modClk_frame
    | with_reducible apply takeParent_frame
    | dsimp only

theorem heardGm_frame {fl : List Comp} {fr : State} (gm : NodeId) (p : FabPort) (s : State) (h_clock : Comp.clock ∈ fl) (hk : Frame fl fr s) : Frame fl fr (heardGm gm p s) := by
  unfold heardGm
  repeat' first
    | with_reducible assumption
    | (with_reducible exact Or.inl (by assumption))
    | (with_reducible exact Or.inr rfl)
    | with_reducible apply takeParent_frame
    | with_reducible apply yieldGm_frame
    | with_reducible apply Frame.ite
    | split
    | dsimp only

theorem syncRequest_frame {fl : List Comp} {fr : State} (s : State) (h_clock : Comp.clock ∈ fl) (h_fports : Comp.fports ∈ fl) (hk : Frame fl fr s) : Frame fl fr (syncRequest s) := by
  unfold syncRequest
  repeat' first
    | with_reducible assumption
    | (with_reducible exact Or.inl (by assumption))
    | (with_reducible exact Or.inr rfl)
    | with_reducible apply State.modClk_frame
    | with_reducible apply fabSendOn_frame
    | with_reducible apply Frame.ite
    | split
    | dsimp only

theorem syncPeriod_frame {fl : List Comp} {fr : State} (s : State) (h_time : Comp.time ∈ fl) (h_clock : Comp.clock ∈ fl) (h_fports : Comp.fports ∈ fl) (h_free : Comp.free ∈ fl) (hk : Frame fl fr s) : Frame fl fr (syncPeriod s) := by
  unfold syncPeriod
  repeat' first
    | with_reducible assumption
    | (with_reducible exact Or.inl (by assumption))
    | (with_reducible exact Or.inr rfl)
    | with_reducible apply State.modClk_frame
    | with_reducible apply hearGm_frame
    | (refine hearGm_frameE _ (by assumption) ?_ (by with_reducible assumption))
    | with_reducible apply noteHeard_frame
    | with_reducible apply heardGm_frame
    | with_reducible apply syncRequest_frame
    | with_reducible apply Frame.ite
    | split
    | dsimp only

theorem parentGone_frame {fl : List Comp} {fr : State} (s : State) (h_clock : Comp.clock ∈ fl) (hk : Frame fl fr s) : Frame fl fr (parentGone s) := by
  unfold parentGone
  repeat' first
    | with_reducible assumption
    | (with_reducible exact Or.inl (by assumption))
    | (with_reducible exact Or.inr rfl)
    | with_reducible apply takeParent_frame
    | with_reducible apply loseGm_frame
    | with_reducible apply Frame.ite
    | split
    | dsimp only

theorem parentTimeout_frame {fl : List Comp} {fr : State} (s : State) (h_clock : Comp.clock ∈ fl) (hk : Frame fl fr s) : Frame fl fr (parentTimeout s) := by
  unfold parentTimeout
  repeat' first
    | with_reducible assumption
    | (with_reducible exact Or.inl (by assumption))
    | (with_reducible exact Or.inr rfl)
    | with_reducible apply takeParent_frame
    | with_reducible apply becomeGm_frame
    | with_reducible apply parentGone_frame
    | with_reducible apply Frame.ite
    | split
    | dsimp only

theorem syncReqFlit_frame {fl : List Comp} {fr : State} (r : Rx) (s : State) (h_fports : Comp.fports ∈ fl) (hk : Frame fl fr s) : Frame fl fr (syncReqFlit r s) := by
  unfold syncReqFlit
  repeat' first
    | with_reducible assumption
    | (with_reducible exact Or.inl (by assumption))
    | (with_reducible exact Or.inr rfl)
    | with_reducible apply fabSendOn_frame
    | dsimp only

theorem stepTime_frame {fl : List Comp} {fr : State} (off : Int) (s : State) (h_time : Comp.time ∈ fl) (h_clock : Comp.clock ∈ fl) (hk : Frame fl fr s) : Frame fl fr (stepTime off s) := by
  unfold stepTime
  repeat' first
    | with_reducible assumption
    | (with_reducible exact Or.inl (by assumption))
    | (with_reducible exact Or.inr rfl)
    | with_reducible apply State.modClk_frame
    | dsimp only

theorem trackRate_frame {fl : List Comp} {fr : State} (s : State) (h_clock : Comp.clock ∈ fl) (h_free : Comp.free ∈ fl) (hk : Frame fl fr s) : Frame fl fr (trackRate s) := by
  unfold trackRate
  repeat' first
    | with_reducible assumption
    | (with_reducible exact Or.inl (by assumption))
    | (with_reducible exact Or.inr rfl)
    | with_reducible apply State.modClk_frame
    | with_reducible apply fresh_frame
    | (refine fresh_frameE _ (by assumption) ?_ (by with_reducible assumption))
    | dsimp only

theorem slewTime_frame {fl : List Comp} {fr : State} (off : Int) (s : State) (h_clock : Comp.clock ∈ fl) (hk : Frame fl fr s) : Frame fl fr (slewTime off s) := by
  unfold slewTime
  repeat' first
    | with_reducible assumption
    | (with_reducible exact Or.inl (by assumption))
    | (with_reducible exact Or.inr rfl)
    | with_reducible apply State.modClk_frame
    | dsimp only

theorem syncAnswer_frame {fl : List Comp} {fr : State} (r : Rx) (t1 : DWord) (s : State) (h_time : Comp.time ∈ fl) (h_clock : Comp.clock ∈ fl) (h_free : Comp.free ∈ fl) (hk : Frame fl fr s) : Frame fl fr (syncAnswer r t1 s) := by
  unfold syncAnswer
  repeat' first
    | with_reducible assumption
    | (with_reducible exact Or.inl (by assumption))
    | (with_reducible exact Or.inr rfl)
    | with_reducible apply State.modClk_frame
    | with_reducible apply parentFollow_frame
    | with_reducible apply loseGm_frame
    | with_reducible apply stepTime_frame
    | with_reducible apply trackRate_frame
    | with_reducible apply slewTime_frame
    | with_reducible apply Frame.ite
    | split
    | dsimp only

theorem syncRspFlit_frame {fl : List Comp} {fr : State} (r : Rx) (s : State) (h_time : Comp.time ∈ fl) (h_clock : Comp.clock ∈ fl) (h_free : Comp.free ∈ fl) (hk : Frame fl fr s) : Frame fl fr (syncRspFlit r s) := by
  unfold syncRspFlit
  repeat' first
    | with_reducible assumption
    | (with_reducible exact Or.inl (by assumption))
    | (with_reducible exact Or.inr rfl)
    | with_reducible apply syncAnswer_frame
    | with_reducible apply Frame.ite
    | split
    | dsimp only

theorem remoteRequest_frame {fl : List Comp} {fr : State} (src : NodeId) (rtag : BitVec 5) (ws : List Word) (s : State) (h_cmds : Comp.cmds ∈ fl) (h_wins : Comp.wins ∈ fl) (h_aps : Comp.aps ∈ fl) (h_ops : Comp.ops ∈ fl) (h_fports : Comp.fports ∈ fl) (h_counters : Comp.counters ∈ fl) (h_gctr : Comp.gctr ∈ fl) (h_rake : Comp.rake ∈ fl) (h_trace : Comp.trace ∈ fl) (h_irq : Comp.irq ∈ fl) (h_mem : Comp.mem ∈ fl) (h_mmPort : Comp.mmPort ∈ fl) (hk : Frame fl fr s) : Frame fl fr (remoteRequest src rtag ws s) := by
  unfold remoteRequest
  repeat' first
    | with_reducible assumption
    | (with_reducible exact Or.inl (by assumption))
    | (with_reducible exact Or.inr rfl)
    | with_reducible apply sendPacket_frame
    | with_reducible apply arrive_frame
    | with_reducible apply Frame.ite
    | split
    | dsimp only

theorem remoteReply_frame {fl : List Comp} {fr : State} (src : NodeId) (rtag : BitVec 5) (ws : List Word) (s : State) (h_cmds : Comp.cmds ∈ fl) (h_wins : Comp.wins ∈ fl) (h_aps : Comp.aps ∈ fl) (h_ops : Comp.ops ∈ fl) (h_fports : Comp.fports ∈ fl) (h_counters : Comp.counters ∈ fl) (h_gctr : Comp.gctr ∈ fl) (h_rake : Comp.rake ∈ fl) (h_irq : Comp.irq ∈ fl) (h_mem : Comp.mem ∈ fl) (h_mmPort : Comp.mmPort ∈ fl) (hk : Frame fl fr s) : Frame fl fr (remoteReply src rtag ws s) := by
  unfold remoteReply
  repeat' first
    | with_reducible assumption
    | (with_reducible exact Or.inl (by assumption))
    | (with_reducible exact Or.inr rfl)
    | with_reducible apply deliver_frame
    | with_reducible apply dropCmd_frame
    | split
    | dsimp only

theorem dropFrags_frame {fl : List Comp} {fr : State} (src : NodeId) (m : FragMsg) (s : State) (h_frags : Comp.frags ∈ fl) (hk : Frame fl fr s) : Frame fl fr (dropFrags src m s) := by
  unfold dropFrags
  repeat' first
    | with_reducible assumption
    | (with_reducible exact Or.inl (by assumption))
    | (with_reducible exact Or.inr rfl)
    | with_reducible apply State.modMsq_frame
    | dsimp only

theorem fragFlit_frame {fl : List Comp} {fr : State} (r : Rx) (s : State) (h_cmds : Comp.cmds ∈ fl) (h_frags : Comp.frags ∈ fl) (h_wins : Comp.wins ∈ fl) (h_parts : Comp.parts ∈ fl) (h_aps : Comp.aps ∈ fl) (h_ops : Comp.ops ∈ fl) (h_merges : Comp.merges ∈ fl) (h_rows : Comp.rows ∈ fl) (h_banks : Comp.banks ∈ fl) (h_waiters : Comp.waiters ∈ fl) (h_records : Comp.records ∈ fl) (h_early : Comp.early ∈ fl) (h_spillWakes : Comp.spillWakes ∈ fl) (h_fetching : Comp.fetching ∈ fl) (h_descs : Comp.descs ∈ fl) (h_holdings : Comp.holdings ∈ fl) (h_fences : Comp.fences ∈ fl) (h_deadlines : Comp.deadlines ∈ fl) (h_leases : Comp.leases ∈ fl) (h_arming : Comp.arming ∈ fl) (h_heldq : Comp.heldq ∈ fl) (h_sn : Comp.sn ∈ fl) (h_dir : Comp.dir ∈ fl) (h_tack : Comp.tack ∈ fl) (h_fports : Comp.fports ∈ fl) (h_trees : Comp.trees ∈ fl) (h_inq : Comp.inq ∈ fl) (h_counters : Comp.counters ∈ fl) (h_gctr : Comp.gctr ∈ fl) (h_rake : Comp.rake ∈ fl) (h_trace : Comp.trace ∈ fl) (h_watches : Comp.watches ∈ fl) (h_irq : Comp.irq ∈ fl) (h_mem : Comp.mem ∈ fl) (h_mmPort : Comp.mmPort ∈ fl) (h_free : Comp.free ∈ fl) (hk : Frame fl fr s) : Frame fl fr (fragFlit r s) := by
  unfold fragFlit
  repeat' first
    | with_reducible assumption
    | (with_reducible exact Or.inl (by assumption))
    | (with_reducible exact Or.inr rfl)
    | with_reducible apply State.modMsq_frame
    | with_reducible apply report_frame
    | with_reducible apply pump_frame
    | with_reducible apply remoteRequest_frame
    | with_reducible apply remoteReply_frame
    | with_reducible apply dropFrags_frame
    | with_reducible apply Frame.ite
    | split
    | dsimp only

theorem remoteTimeout_frame {fl : List Comp} {fr : State} (id : Nat) (s : State) (h_cmds : Comp.cmds ∈ fl) (h_wins : Comp.wins ∈ fl) (h_aps : Comp.aps ∈ fl) (h_ops : Comp.ops ∈ fl) (h_fports : Comp.fports ∈ fl) (h_counters : Comp.counters ∈ fl) (h_gctr : Comp.gctr ∈ fl) (h_rake : Comp.rake ∈ fl) (h_irq : Comp.irq ∈ fl) (h_mem : Comp.mem ∈ fl) (h_mmPort : Comp.mmPort ∈ fl) (hk : Frame fl fr s) : Frame fl fr (remoteTimeout id s) := by
  unfold remoteTimeout
  repeat' first
    | with_reducible assumption
    | (with_reducible exact Or.inl (by assumption))
    | (with_reducible exact Or.inr rfl)
    | with_reducible apply answerUnrun_frame
    | with_reducible apply Frame.ite
    | split
    | dsimp only

theorem toChildren_frame {fl : List Comp} {fr : State} (body : BitVec 144) (s : State) (h_fports : Comp.fports ∈ fl) (h_gctr : Comp.gctr ∈ fl) (h_rake : Comp.rake ∈ fl) (h_irq : Comp.irq ∈ fl) (hk : Frame fl fr s) : Frame fl fr (toChildren body s) := by
  unfold toChildren
  repeat' first
    | with_reducible assumption
    | (with_reducible exact Or.inl (by assumption))
    | (with_reducible exact Or.inr rfl)
    | with_reducible apply fabSend_frame
    | (with_reducible refine Frame.foldl (fun _ _ _ => ?_) ?_)
    | dsimp only

theorem censusIrq_frame {fl : List Comp} {fr : State} (on : Bool) (s : State) (h_irq : Comp.irq ∈ fl) (hk : Frame fl fr s) : Frame fl fr (censusIrq on s) := by
  unfold censusIrq
  repeat' first
    | with_reducible assumption
    | (with_reducible exact Or.inl (by assumption))
    | (with_reducible exact Or.inr rfl)
    | with_reducible apply raiseGlobal_frame
    | with_reducible apply Frame.ite
    | split
    | dsimp only

theorem startQuery_frame {fl : List Comp} {fr : State} (q : BitVec 16) (ref : BitVec 256) (lo hi : NodeId) (s : State) (h_fports : Comp.fports ∈ fl) (h_census : Comp.census ∈ fl) (h_gctr : Comp.gctr ∈ fl) (h_rake : Comp.rake ∈ fl) (h_irq : Comp.irq ∈ fl) (hk : Frame fl fr s) : Frame fl fr (startQuery q ref lo hi s) := by
  unfold startQuery
  repeat' first
    | with_reducible assumption
    | (with_reducible exact Or.inl (by assumption))
    | (with_reducible exact Or.inr rfl)
    | with_reducible apply State.modCensus_frame
    | with_reducible apply toChildren_frame
    | with_reducible apply Frame.ite
    | (with_reducible refine Frame.foldl (fun _ _ _ => ?_) ?_)
    | split
    | dsimp only

theorem nextQuery_frame {fl : List Comp} {fr : State} (lo hi : NodeId) (s : State) (h_fports : Comp.fports ∈ fl) (h_census : Comp.census ∈ fl) (h_gctr : Comp.gctr ∈ fl) (h_rake : Comp.rake ∈ fl) (h_irq : Comp.irq ∈ fl) (hk : Frame fl fr s) : Frame fl fr (nextQuery lo hi s) := by
  unfold nextQuery
  repeat' first
    | with_reducible assumption
    | (with_reducible exact Or.inl (by assumption))
    | (with_reducible exact Or.inr rfl)
    | with_reducible apply State.modCensus_frame
    | with_reducible apply startQuery_frame
    | dsimp only

theorem bisectDone_frame {fl : List Comp} {fr : State} (s : State) (h_census : Comp.census ∈ fl) (h_irq : Comp.irq ∈ fl) (hk : Frame fl fr s) : Frame fl fr (bisectDone s) := by
  unfold bisectDone
  repeat' first
    | with_reducible assumption
    | (with_reducible exact Or.inl (by assumption))
    | (with_reducible exact Or.inr rfl)
    | with_reducible apply State.modCensus_frame
    | with_reducible apply censusIrq_frame
    | dsimp only

theorem bisectNext_frame {fl : List Comp} {fr : State} (s : State) (h_fports : Comp.fports ∈ fl) (h_census : Comp.census ∈ fl) (h_gctr : Comp.gctr ∈ fl) (h_rake : Comp.rake ∈ fl) (h_irq : Comp.irq ∈ fl) (hk : Frame fl fr s) : Frame fl fr (bisectNext s) := by
  unfold bisectNext
  repeat' first
    | with_reducible assumption
    | (with_reducible exact Or.inl (by assumption))
    | (with_reducible exact Or.inr rfl)
    | with_reducible apply State.modCensus_frame
    | with_reducible apply nextQuery_frame
    | with_reducible apply bisectDone_frame
    | with_reducible apply Frame.ite
    | split
    | dsimp only

theorem endQuery_frame {fl : List Comp} {fr : State} (s : State) (h_fports : Comp.fports ∈ fl) (h_census : Comp.census ∈ fl) (h_gctr : Comp.gctr ∈ fl) (h_rake : Comp.rake ∈ fl) (h_irq : Comp.irq ∈ fl) (hk : Frame fl fr s) : Frame fl fr (endQuery s) := by
  unfold endQuery
  repeat' first
    | with_reducible assumption
    | (with_reducible exact Or.inl (by assumption))
    | (with_reducible exact Or.inr rfl)
    | with_reducible apply State.modCensus_frame
    | with_reducible apply fabSend_frame
    | with_reducible apply bisectNext_frame
    | with_reducible apply Frame.ite
    | split
    | dsimp only

theorem settleQuery_frame {fl : List Comp} {fr : State}  (n : Nat) (h_fports : Comp.fports ∈ fl) (h_census : Comp.census ∈ fl) (h_gctr : Comp.gctr ∈ fl) (h_rake : Comp.rake ∈ fl) (h_irq : Comp.irq ∈ fl) : ∀ (s : State), Frame fl fr s → Frame fl fr (settleQuery  n s) := by
  induction n with
  | zero => intro s hk; unfold settleQuery; exact hk
  | succ n ih =>
    intro s hk
    unfold settleQuery
    repeat' first
      | with_reducible assumption
      | (with_reducible exact Or.inl (by assumption))
      | (with_reducible exact Or.inr rfl)
      | with_reducible apply ih
      | with_reducible apply endQuery_frame
      | with_reducible apply Frame.ite
      | split
      | dsimp only

theorem startBisect_frame {fl : List Comp} {fr : State} (ref : BitVec 256) (s : State) (h_fports : Comp.fports ∈ fl) (h_census : Comp.census ∈ fl) (h_gctr : Comp.gctr ∈ fl) (h_rake : Comp.rake ∈ fl) (h_irq : Comp.irq ∈ fl) (hk : Frame fl fr s) : Frame fl fr (startBisect ref s) := by
  unfold startBisect
  repeat' first
    | with_reducible assumption
    | (with_reducible exact Or.inl (by assumption))
    | (with_reducible exact Or.inr rfl)
    | with_reducible apply State.modCensus_frame
    | with_reducible apply nextQuery_frame
    | with_reducible apply settleQuery_frame
    | dsimp only

theorem beginPass_frame {fl : List Comp} {fr : State} (pass : BitVec 16) (s : State) (h_fports : Comp.fports ∈ fl) (h_census : Comp.census ∈ fl) (h_gctr : Comp.gctr ∈ fl) (h_rake : Comp.rake ∈ fl) (h_irq : Comp.irq ∈ fl) (hk : Frame fl fr s) : Frame fl fr (beginPass pass s) := by
  unfold beginPass
  repeat' first
    | with_reducible assumption
    | (with_reducible exact Or.inl (by assumption))
    | (with_reducible exact Or.inr rfl)
    | with_reducible apply State.modCensus_frame
    | with_reducible apply toChildren_frame
    | dsimp only

theorem endRootPass_frame {fl : List Comp} {fr : State} (pass : BitVec 16) (own : BitVec 256) (s : State) (h_fports : Comp.fports ∈ fl) (h_census : Comp.census ∈ fl) (h_gctr : Comp.gctr ∈ fl) (h_rake : Comp.rake ∈ fl) (h_irq : Comp.irq ∈ fl) (hk : Frame fl fr s) : Frame fl fr (endRootPass pass own s) := by
  unfold endRootPass
  repeat' first
    | with_reducible assumption
    | (with_reducible exact Or.inl (by assumption))
    | (with_reducible exact Or.inr rfl)
    | with_reducible apply State.modCensus_frame
    | with_reducible apply gcount_frame
    | with_reducible apply toChildren_frame
    | with_reducible apply censusIrq_frame
    | with_reducible apply startBisect_frame
    | with_reducible apply Frame.ite
    | split
    | dsimp only

theorem sendFold_frame {fl : List Comp} {fr : State} (pass : BitVec 16) (s : State) (h_fports : Comp.fports ∈ fl) (h_census : Comp.census ∈ fl) (h_gctr : Comp.gctr ∈ fl) (h_rake : Comp.rake ∈ fl) (h_irq : Comp.irq ∈ fl) (hk : Frame fl fr s) : Frame fl fr (sendFold pass s) := by
  unfold sendFold
  repeat' first
    | with_reducible assumption
    | (with_reducible exact Or.inl (by assumption))
    | (with_reducible exact Or.inr rfl)
    | with_reducible apply State.modCensus_frame
    | with_reducible apply fabSend_frame
    | (with_reducible refine Frame.foldl (fun _ _ _ => ?_) ?_)
    | dsimp only

theorem endPass_frame {fl : List Comp} {fr : State} (s : State) (h_fports : Comp.fports ∈ fl) (h_census : Comp.census ∈ fl) (h_gctr : Comp.gctr ∈ fl) (h_rake : Comp.rake ∈ fl) (h_irq : Comp.irq ∈ fl) (hk : Frame fl fr s) : Frame fl fr (endPass s) := by
  unfold endPass
  repeat' first
    | with_reducible assumption
    | (with_reducible exact Or.inl (by assumption))
    | (with_reducible exact Or.inr rfl)
    | with_reducible apply endRootPass_frame
    | with_reducible apply sendFold_frame
    | with_reducible apply Frame.ite
    | split
    | dsimp only

theorem settlePass_frame {fl : List Comp} {fr : State} (s : State) (h_fports : Comp.fports ∈ fl) (h_census : Comp.census ∈ fl) (h_gctr : Comp.gctr ∈ fl) (h_rake : Comp.rake ∈ fl) (h_irq : Comp.irq ∈ fl) (hk : Frame fl fr s) : Frame fl fr (settlePass s) := by
  unfold settlePass
  repeat' first
    | with_reducible assumption
    | (with_reducible exact Or.inl (by assumption))
    | (with_reducible exact Or.inr rfl)
    | with_reducible apply endPass_frame
    | with_reducible apply Frame.ite
    | split
    | dsimp only

theorem startPass_frame {fl : List Comp} {fr : State} (s : State) (h_fports : Comp.fports ∈ fl) (h_census : Comp.census ∈ fl) (h_gctr : Comp.gctr ∈ fl) (h_rake : Comp.rake ∈ fl) (h_irq : Comp.irq ∈ fl) (hk : Frame fl fr s) : Frame fl fr (startPass s) := by
  unfold startPass
  repeat' first
    | with_reducible assumption
    | (with_reducible exact Or.inl (by assumption))
    | (with_reducible exact Or.inr rfl)
    | with_reducible apply State.modCensus_frame
    | with_reducible apply beginPass_frame
    | with_reducible apply settlePass_frame
    | dsimp only

theorem censusNow_frame {fl : List Comp} {fr : State} (c : Cmd) (s : State) (h_cmds : Comp.cmds ∈ fl) (h_wins : Comp.wins ∈ fl) (h_aps : Comp.aps ∈ fl) (h_ops : Comp.ops ∈ fl) (h_fports : Comp.fports ∈ fl) (h_census : Comp.census ∈ fl) (h_counters : Comp.counters ∈ fl) (h_gctr : Comp.gctr ∈ fl) (h_rake : Comp.rake ∈ fl) (h_trace : Comp.trace ∈ fl) (h_irq : Comp.irq ∈ fl) (h_mem : Comp.mem ∈ fl) (h_mmPort : Comp.mmPort ∈ fl) (hk : Frame fl fr s) : Frame fl fr (censusNow c s) := by
  unfold censusNow
  repeat' first
    | with_reducible assumption
    | (with_reducible exact Or.inl (by assumption))
    | (with_reducible exact Or.inr rfl)
    | with_reducible apply ok_frame
    | with_reducible apply refuse_frame
    | with_reducible apply startPass_frame
    | with_reducible apply Frame.ite
    | split
    | dsimp only

theorem censusTick_frame {fl : List Comp} {fr : State} (s : State) (h_fports : Comp.fports ∈ fl) (h_census : Comp.census ∈ fl) (h_gctr : Comp.gctr ∈ fl) (h_rake : Comp.rake ∈ fl) (h_irq : Comp.irq ∈ fl) (hk : Frame fl fr s) : Frame fl fr (censusTick s) := by
  unfold censusTick
  repeat' first
    | with_reducible assumption
    | (with_reducible exact Or.inl (by assumption))
    | (with_reducible exact Or.inr rfl)
    | with_reducible apply State.modCensus_frame
    | with_reducible apply startPass_frame
    | with_reducible apply Frame.ite
    | split
    | dsimp only

theorem foldTimeout_frame {fl : List Comp} {fr : State} (s : State) (h_fports : Comp.fports ∈ fl) (h_census : Comp.census ∈ fl) (h_gctr : Comp.gctr ∈ fl) (h_rake : Comp.rake ∈ fl) (h_irq : Comp.irq ∈ fl) (hk : Frame fl fr s) : Frame fl fr (foldTimeout s) := by
  unfold foldTimeout
  repeat' first
    | with_reducible assumption
    | (with_reducible exact Or.inl (by assumption))
    | (with_reducible exact Or.inr rfl)
    | with_reducible apply endPass_frame
    | with_reducible apply Frame.ite
    | split
    | dsimp only

theorem queryTimeout_frame {fl : List Comp} {fr : State} (s : State) (h_fports : Comp.fports ∈ fl) (h_census : Comp.census ∈ fl) (h_gctr : Comp.gctr ∈ fl) (h_rake : Comp.rake ∈ fl) (h_irq : Comp.irq ∈ fl) (hk : Frame fl fr s) : Frame fl fr (queryTimeout s) := by
  unfold queryTimeout
  repeat' first
    | with_reducible assumption
    | (with_reducible exact Or.inl (by assumption))
    | (with_reducible exact Or.inr rfl)
    | with_reducible apply endQuery_frame
    | with_reducible apply settleQuery_frame
    | with_reducible apply Frame.ite
    | split
    | dsimp only

theorem startFlit_frame {fl : List Comp} {fr : State} (m : CensusMsg) (src : NodeId) (s : State) (h_fports : Comp.fports ∈ fl) (h_census : Comp.census ∈ fl) (h_gctr : Comp.gctr ∈ fl) (h_rake : Comp.rake ∈ fl) (h_irq : Comp.irq ∈ fl) (hk : Frame fl fr s) : Frame fl fr (startFlit m src s) := by
  unfold startFlit
  repeat' first
    | with_reducible assumption
    | (with_reducible exact Or.inl (by assumption))
    | (with_reducible exact Or.inr rfl)
    | with_reducible apply beginPass_frame
    | with_reducible apply settlePass_frame
    | with_reducible apply Frame.ite
    | split
    | dsimp only

theorem foldChild_frame {fl : List Comp} {fr : State} (src : NodeId) (lo hi : BitVec 256) (n : Word) (s : State) (h_census : Comp.census ∈ fl) (hk : Frame fl fr s) : Frame fl fr (foldChild src lo hi n s) := by
  unfold foldChild
  repeat' first
    | with_reducible assumption
    | (with_reducible exact Or.inl (by assumption))
    | (with_reducible exact Or.inr rfl)
    | with_reducible apply State.modCensus_frame
    | with_reducible apply Frame.ite
    | split
    | dsimp only

theorem foldFlit_frame {fl : List Comp} {fr : State} (m : CensusMsg) (src : NodeId) (s : State) (h_fports : Comp.fports ∈ fl) (h_census : Comp.census ∈ fl) (h_gctr : Comp.gctr ∈ fl) (h_rake : Comp.rake ∈ fl) (h_irq : Comp.irq ∈ fl) (hk : Frame fl fr s) : Frame fl fr (foldFlit m src s) := by
  unfold foldFlit
  repeat' first
    | with_reducible assumption
    | (with_reducible exact Or.inl (by assumption))
    | (with_reducible exact Or.inr rfl)
    | with_reducible apply State.modCensus_frame
    | with_reducible apply settlePass_frame
    | with_reducible apply foldChild_frame
    | with_reducible apply Frame.ite
    | split
    | dsimp only

theorem verdictFlit_frame {fl : List Comp} {fr : State} (m : CensusMsg) (src : NodeId) (s : State) (h_fports : Comp.fports ∈ fl) (h_census : Comp.census ∈ fl) (h_gctr : Comp.gctr ∈ fl) (h_rake : Comp.rake ∈ fl) (h_irq : Comp.irq ∈ fl) (hk : Frame fl fr s) : Frame fl fr (verdictFlit m src s) := by
  unfold verdictFlit
  repeat' first
    | with_reducible assumption
    | (with_reducible exact Or.inl (by assumption))
    | (with_reducible exact Or.inr rfl)
    | with_reducible apply State.modCensus_frame
    | with_reducible apply toChildren_frame
    | with_reducible apply Frame.ite
    | split
    | dsimp only

theorem queryFlit_frame {fl : List Comp} {fr : State} (m : CensusMsg) (src : NodeId) (s : State) (h_fports : Comp.fports ∈ fl) (h_census : Comp.census ∈ fl) (h_gctr : Comp.gctr ∈ fl) (h_rake : Comp.rake ∈ fl) (h_irq : Comp.irq ∈ fl) (hk : Frame fl fr s) : Frame fl fr (queryFlit m src s) := by
  unfold queryFlit
  repeat' first
    | with_reducible assumption
    | (with_reducible exact Or.inl (by assumption))
    | (with_reducible exact Or.inr rfl)
    | with_reducible apply State.modCensus_frame
    | with_reducible apply startQuery_frame
    | with_reducible apply settleQuery_frame
    | with_reducible apply Frame.ite
    | split
    | dsimp only

theorem answerFlit_frame {fl : List Comp} {fr : State} (m : CensusMsg) (src : NodeId) (s : State) (h_fports : Comp.fports ∈ fl) (h_census : Comp.census ∈ fl) (h_gctr : Comp.gctr ∈ fl) (h_rake : Comp.rake ∈ fl) (h_irq : Comp.irq ∈ fl) (hk : Frame fl fr s) : Frame fl fr (answerFlit m src s) := by
  unfold answerFlit
  repeat' first
    | with_reducible assumption
    | (with_reducible exact Or.inl (by assumption))
    | (with_reducible exact Or.inr rfl)
    | with_reducible apply State.modCensus_frame
    | with_reducible apply settleQuery_frame
    | with_reducible apply Frame.ite
    | split
    | dsimp only

theorem censusFlit_frame {fl : List Comp} {fr : State} (r : Rx) (s : State) (h_fports : Comp.fports ∈ fl) (h_census : Comp.census ∈ fl) (h_gctr : Comp.gctr ∈ fl) (h_rake : Comp.rake ∈ fl) (h_irq : Comp.irq ∈ fl) (hk : Frame fl fr s) : Frame fl fr (censusFlit r s) := by
  unfold censusFlit
  repeat' first
    | with_reducible assumption
    | (with_reducible exact Or.inl (by assumption))
    | (with_reducible exact Or.inr rfl)
    | with_reducible apply startFlit_frame
    | with_reducible apply foldFlit_frame
    | with_reducible apply verdictFlit_frame
    | with_reducible apply queryFlit_frame
    | with_reducible apply answerFlit_frame
    | split
    | dsimp only

theorem localFlit_frame {fl : List Comp} {fr : State} (kind : BitVec 4) (r : Rx) (s : State) (h_cmds : Comp.cmds ∈ fl) (h_frags : Comp.frags ∈ fl) (h_wins : Comp.wins ∈ fl) (h_parts : Comp.parts ∈ fl) (h_aps : Comp.aps ∈ fl) (h_ops : Comp.ops ∈ fl) (h_merges : Comp.merges ∈ fl) (h_rows : Comp.rows ∈ fl) (h_banks : Comp.banks ∈ fl) (h_waiters : Comp.waiters ∈ fl) (h_rwaits : Comp.rwaits ∈ fl) (h_records : Comp.records ∈ fl) (h_early : Comp.early ∈ fl) (h_spillWakes : Comp.spillWakes ∈ fl) (h_fetching : Comp.fetching ∈ fl) (h_descs : Comp.descs ∈ fl) (h_holdings : Comp.holdings ∈ fl) (h_fences : Comp.fences ∈ fl) (h_deadlines : Comp.deadlines ∈ fl) (h_leases : Comp.leases ∈ fl) (h_arming : Comp.arming ∈ fl) (h_heldq : Comp.heldq ∈ fl) (h_sn : Comp.sn ∈ fl) (h_dir : Comp.dir ∈ fl) (h_tack : Comp.tack ∈ fl) (h_fports : Comp.fports ∈ fl) (h_trees : Comp.trees ∈ fl) (h_census : Comp.census ∈ fl) (h_exts : Comp.exts ∈ fl) (h_undo : Comp.undo ∈ fl) (h_inq : Comp.inq ∈ fl) (h_counters : Comp.counters ∈ fl) (h_gctr : Comp.gctr ∈ fl) (h_rake : Comp.rake ∈ fl) (h_trace : Comp.trace ∈ fl) (h_hobble : Comp.hobble ∈ fl) (h_watches : Comp.watches ∈ fl) (h_irq : Comp.irq ∈ fl) (h_mem : Comp.mem ∈ fl) (h_mmPort : Comp.mmPort ∈ fl) (h_free : Comp.free ∈ fl) (hk : Frame fl fr s) : Frame fl fr (localFlit kind r s) := by
  unfold localFlit
  repeat' first
    | with_reducible assumption
    | (with_reducible exact Or.inl (by assumption))
    | (with_reducible exact Or.inr rfl)
    | with_reducible apply cplFlit_frame
    | with_reducible apply wakeNodeFlit_frame
    | with_reducible apply grantFlit_frame
    | with_reducible apply cancelDoneFlit_frame
    | with_reducible apply combineRx_frame
    | with_reducible apply treeRelRx_frame
    | with_reducible apply noticeFlit_frame
    | with_reducible apply reconcileFlit_frame
    | with_reducible apply stitchFlit_frame
    | with_reducible apply fragFlit_frame
    | with_reducible apply censusFlit_frame
    | split
    | dsimp only

theorem routedFlit_frame {fl : List Comp} {fr : State} (kind : BitVec 4) (r : Rx) (due : Bool) (s : State) (h_cmds : Comp.cmds ∈ fl) (h_frags : Comp.frags ∈ fl) (h_wins : Comp.wins ∈ fl) (h_parts : Comp.parts ∈ fl) (h_aps : Comp.aps ∈ fl) (h_ops : Comp.ops ∈ fl) (h_merges : Comp.merges ∈ fl) (h_rows : Comp.rows ∈ fl) (h_banks : Comp.banks ∈ fl) (h_waiters : Comp.waiters ∈ fl) (h_rwaits : Comp.rwaits ∈ fl) (h_records : Comp.records ∈ fl) (h_early : Comp.early ∈ fl) (h_spillWakes : Comp.spillWakes ∈ fl) (h_fetching : Comp.fetching ∈ fl) (h_descs : Comp.descs ∈ fl) (h_holdings : Comp.holdings ∈ fl) (h_fences : Comp.fences ∈ fl) (h_deadlines : Comp.deadlines ∈ fl) (h_leases : Comp.leases ∈ fl) (h_arming : Comp.arming ∈ fl) (h_heldq : Comp.heldq ∈ fl) (h_sn : Comp.sn ∈ fl) (h_dir : Comp.dir ∈ fl) (h_tack : Comp.tack ∈ fl) (h_fports : Comp.fports ∈ fl) (h_trees : Comp.trees ∈ fl) (h_census : Comp.census ∈ fl) (h_exts : Comp.exts ∈ fl) (h_undo : Comp.undo ∈ fl) (h_inq : Comp.inq ∈ fl) (h_counters : Comp.counters ∈ fl) (h_gctr : Comp.gctr ∈ fl) (h_rake : Comp.rake ∈ fl) (h_trace : Comp.trace ∈ fl) (h_hobble : Comp.hobble ∈ fl) (h_watches : Comp.watches ∈ fl) (h_irq : Comp.irq ∈ fl) (h_mem : Comp.mem ∈ fl) (h_mmPort : Comp.mmPort ∈ fl) (h_free : Comp.free ∈ fl) (hk : Frame fl fr s) : Frame fl fr (routedFlit kind r due s) := by
  unfold routedFlit
  repeat' first
    | with_reducible assumption
    | (with_reducible exact Or.inl (by assumption))
    | (with_reducible exact Or.inr rfl)
    | with_reducible apply freeBuf_frame
    | with_reducible apply forwardFlit_frame
    | with_reducible apply opFlit_frame
    | with_reducible apply localFlit_frame
    | with_reducible apply Frame.ite
    | split
    | dsimp only

theorem dropHeldRx_frame {fl : List Comp} {fr : State} (p : FabPort) (h : BitVec 4 × Rx × Bool) (s : State) (h_fports : Comp.fports ∈ fl) (h_hobble : Comp.hobble ∈ fl) (hk : Frame fl fr s) : Frame fl fr (dropHeldRx p h s) := by
  unfold dropHeldRx
  repeat' first
    | with_reducible assumption
    | (with_reducible exact Or.inl (by assumption))
    | (with_reducible exact Or.inr rfl)
    | with_reducible apply State.setFp_frame
    | with_reducible apply State.modHob_frame
    | dsimp only

theorem runHeld_frame {fl : List Comp} {fr : State} (p : FabPort) (s : State) (h_cmds : Comp.cmds ∈ fl) (h_wins : Comp.wins ∈ fl) (h_aps : Comp.aps ∈ fl) (h_ops : Comp.ops ∈ fl) (h_fports : Comp.fports ∈ fl) (h_counters : Comp.counters ∈ fl) (h_gctr : Comp.gctr ∈ fl) (h_rake : Comp.rake ∈ fl) (h_trace : Comp.trace ∈ fl) (h_hobble : Comp.hobble ∈ fl) (h_irq : Comp.irq ∈ fl) (h_mem : Comp.mem ∈ fl) (h_mmPort : Comp.mmPort ∈ fl) (hk : Frame fl fr s) : Frame fl fr (runHeld p s) := by
  unfold runHeld
  repeat' first
    | with_reducible assumption
    | (with_reducible exact Or.inl (by assumption))
    | (with_reducible exact Or.inr rfl)
    | with_reducible apply freeBuf_frame
    | with_reducible apply remoteRequest_frame
    | with_reducible apply dropHeldRx_frame
    | (with_reducible refine Frame.foldl (fun _ _ _ => ?_) ?_)
    | split
    | dsimp only

theorem runHeldAll_frame {fl : List Comp} {fr : State} (s : State) (h_cmds : Comp.cmds ∈ fl) (h_wins : Comp.wins ∈ fl) (h_aps : Comp.aps ∈ fl) (h_ops : Comp.ops ∈ fl) (h_fports : Comp.fports ∈ fl) (h_counters : Comp.counters ∈ fl) (h_gctr : Comp.gctr ∈ fl) (h_rake : Comp.rake ∈ fl) (h_trace : Comp.trace ∈ fl) (h_hobble : Comp.hobble ∈ fl) (h_irq : Comp.irq ∈ fl) (h_mem : Comp.mem ∈ fl) (h_mmPort : Comp.mmPort ∈ fl) (hk : Frame fl fr s) : Frame fl fr (runHeldAll s) := by
  unfold runHeldAll
  repeat' first
    | with_reducible assumption
    | (with_reducible exact Or.inl (by assumption))
    | (with_reducible exact Or.inr rfl)
    | with_reducible apply runHeld_frame
    | with_reducible apply Frame.ite
    | (with_reducible refine Frame.foldl (fun _ _ _ => ?_) ?_)
    | split
    | dsimp only

theorem endSession_frame {fl : List Comp} {fr : State} (p : PartId) (s : State) (h_cmds : Comp.cmds ∈ fl) (h_wins : Comp.wins ∈ fl) (h_parts : Comp.parts ∈ fl) (h_aps : Comp.aps ∈ fl) (h_ops : Comp.ops ∈ fl) (h_due : Comp.due ∈ fl) (h_rows : Comp.rows ∈ fl) (h_banks : Comp.banks ∈ fl) (h_waiters : Comp.waiters ∈ fl) (h_records : Comp.records ∈ fl) (h_early : Comp.early ∈ fl) (h_spillWakes : Comp.spillWakes ∈ fl) (h_fetching : Comp.fetching ∈ fl) (h_descs : Comp.descs ∈ fl) (h_holdings : Comp.holdings ∈ fl) (h_fences : Comp.fences ∈ fl) (h_deadlines : Comp.deadlines ∈ fl) (h_leases : Comp.leases ∈ fl) (h_arming : Comp.arming ∈ fl) (h_heldq : Comp.heldq ∈ fl) (h_decs : Comp.decs ∈ fl) (h_sn : Comp.sn ∈ fl) (h_dir : Comp.dir ∈ fl) (h_tack : Comp.tack ∈ fl) (h_fports : Comp.fports ∈ fl) (h_counters : Comp.counters ∈ fl) (h_gctr : Comp.gctr ∈ fl) (h_rake : Comp.rake ∈ fl) (h_trace : Comp.trace ∈ fl) (h_watches : Comp.watches ∈ fl) (h_irq : Comp.irq ∈ fl) (h_mem : Comp.mem ∈ fl) (h_mmPort : Comp.mmPort ∈ fl) (h_free : Comp.free ∈ fl) (hk : Frame fl fr s) : Frame fl fr (endSession p s) := by
  unfold endSession
  repeat' first
    | with_reducible assumption
    | (with_reducible exact Or.inl (by assumption))
    | (with_reducible exact Or.inr rfl)
    | with_reducible apply complete_frame
    | with_reducible apply endLoad_frame
    | with_reducible apply Frame.ite
    | (with_reducible refine Frame.foldl (fun _ _ _ => ?_) ?_)
    | split
    | dsimp only

theorem endSessions_frame {fl : List Comp} {fr : State} (s : State) (h_cmds : Comp.cmds ∈ fl) (h_wins : Comp.wins ∈ fl) (h_parts : Comp.parts ∈ fl) (h_aps : Comp.aps ∈ fl) (h_ops : Comp.ops ∈ fl) (h_due : Comp.due ∈ fl) (h_rows : Comp.rows ∈ fl) (h_banks : Comp.banks ∈ fl) (h_waiters : Comp.waiters ∈ fl) (h_records : Comp.records ∈ fl) (h_early : Comp.early ∈ fl) (h_spillWakes : Comp.spillWakes ∈ fl) (h_fetching : Comp.fetching ∈ fl) (h_descs : Comp.descs ∈ fl) (h_holdings : Comp.holdings ∈ fl) (h_fences : Comp.fences ∈ fl) (h_deadlines : Comp.deadlines ∈ fl) (h_leases : Comp.leases ∈ fl) (h_arming : Comp.arming ∈ fl) (h_heldq : Comp.heldq ∈ fl) (h_decs : Comp.decs ∈ fl) (h_sn : Comp.sn ∈ fl) (h_dir : Comp.dir ∈ fl) (h_tack : Comp.tack ∈ fl) (h_fports : Comp.fports ∈ fl) (h_counters : Comp.counters ∈ fl) (h_gctr : Comp.gctr ∈ fl) (h_rake : Comp.rake ∈ fl) (h_trace : Comp.trace ∈ fl) (h_watches : Comp.watches ∈ fl) (h_irq : Comp.irq ∈ fl) (h_mem : Comp.mem ∈ fl) (h_mmPort : Comp.mmPort ∈ fl) (h_free : Comp.free ∈ fl) (hk : Frame fl fr s) : Frame fl fr (endSessions s) := by
  unfold endSessions
  repeat' first
    | with_reducible assumption
    | (with_reducible exact Or.inl (by assumption))
    | (with_reducible exact Or.inr rfl)
    | with_reducible apply endSession_frame
    | (with_reducible refine Frame.foldl (fun _ _ _ => ?_) ?_)
    | dsimp only

theorem cutHere_frame {fl : List Comp} {fr : State} (init : NodeId) (hseq : Byte) (first : Option FabPort) (cmd : Option Nat) (base : BitVec 48) (size : Nat) (s : State) (h_cmds : Comp.cmds ∈ fl) (h_wins : Comp.wins ∈ fl) (h_parts : Comp.parts ∈ fl) (h_aps : Comp.aps ∈ fl) (h_ops : Comp.ops ∈ fl) (h_due : Comp.due ∈ fl) (h_rows : Comp.rows ∈ fl) (h_banks : Comp.banks ∈ fl) (h_waiters : Comp.waiters ∈ fl) (h_records : Comp.records ∈ fl) (h_early : Comp.early ∈ fl) (h_spillWakes : Comp.spillWakes ∈ fl) (h_fetching : Comp.fetching ∈ fl) (h_descs : Comp.descs ∈ fl) (h_holdings : Comp.holdings ∈ fl) (h_fences : Comp.fences ∈ fl) (h_deadlines : Comp.deadlines ∈ fl) (h_leases : Comp.leases ∈ fl) (h_arming : Comp.arming ∈ fl) (h_heldq : Comp.heldq ∈ fl) (h_decs : Comp.decs ∈ fl) (h_sn : Comp.sn ∈ fl) (h_dir : Comp.dir ∈ fl) (h_tack : Comp.tack ∈ fl) (h_fports : Comp.fports ∈ fl) (h_counters : Comp.counters ∈ fl) (h_gctr : Comp.gctr ∈ fl) (h_rake : Comp.rake ∈ fl) (h_trace : Comp.trace ∈ fl) (h_hobble : Comp.hobble ∈ fl) (h_watches : Comp.watches ∈ fl) (h_irq : Comp.irq ∈ fl) (h_mem : Comp.mem ∈ fl) (h_mmPort : Comp.mmPort ∈ fl) (h_free : Comp.free ∈ fl) (hk : Frame fl fr s) : Frame fl fr (cutHere init hseq first cmd base size s) := by
  unfold cutHere
  repeat' first
    | with_reducible assumption
    | (with_reducible exact Or.inl (by assumption))
    | (with_reducible exact Or.inr rfl)
    | with_reducible apply State.modFp_frame
    | with_reducible apply State.modHob_frame
    | with_reducible apply regionHeader_frame
    | with_reducible apply endSessions_frame
    | (with_reducible refine Frame.foldl (fun _ _ _ => ?_) ?_)
    | dsimp only

theorem hobbleCmd_frame {fl : List Comp} {fr : State} (c : Cmd) (s : State) (h_cmds : Comp.cmds ∈ fl) (h_wins : Comp.wins ∈ fl) (h_parts : Comp.parts ∈ fl) (h_aps : Comp.aps ∈ fl) (h_ops : Comp.ops ∈ fl) (h_due : Comp.due ∈ fl) (h_rows : Comp.rows ∈ fl) (h_banks : Comp.banks ∈ fl) (h_waiters : Comp.waiters ∈ fl) (h_records : Comp.records ∈ fl) (h_early : Comp.early ∈ fl) (h_spillWakes : Comp.spillWakes ∈ fl) (h_fetching : Comp.fetching ∈ fl) (h_descs : Comp.descs ∈ fl) (h_holdings : Comp.holdings ∈ fl) (h_fences : Comp.fences ∈ fl) (h_deadlines : Comp.deadlines ∈ fl) (h_leases : Comp.leases ∈ fl) (h_arming : Comp.arming ∈ fl) (h_heldq : Comp.heldq ∈ fl) (h_decs : Comp.decs ∈ fl) (h_sn : Comp.sn ∈ fl) (h_dir : Comp.dir ∈ fl) (h_tack : Comp.tack ∈ fl) (h_fports : Comp.fports ∈ fl) (h_counters : Comp.counters ∈ fl) (h_gctr : Comp.gctr ∈ fl) (h_rake : Comp.rake ∈ fl) (h_trace : Comp.trace ∈ fl) (h_hobble : Comp.hobble ∈ fl) (h_watches : Comp.watches ∈ fl) (h_irq : Comp.irq ∈ fl) (h_mem : Comp.mem ∈ fl) (h_mmPort : Comp.mmPort ∈ fl) (h_free : Comp.free ∈ fl) (hk : Frame fl fr s) : Frame fl fr (hobbleCmd c s) := by
  unfold hobbleCmd
  repeat' first
    | with_reducible assumption
    | (with_reducible exact Or.inl (by assumption))
    | (with_reducible exact Or.inr rfl)
    | with_reducible apply State.modHob_frame
    | with_reducible apply mmRequest_frame
    | with_reducible apply ok_frame
    | with_reducible apply setPhase_frame
    | with_reducible apply memFail_frame
    | with_reducible apply regionWrite_frame
    | with_reducible apply cutHere_frame
    | with_reducible apply Frame.ite
    | split
    | dsimp only

theorem drainEnd_frame {fl : List Comp} {fr : State} (s : State) (h_cmds : Comp.cmds ∈ fl) (h_wins : Comp.wins ∈ fl) (h_aps : Comp.aps ∈ fl) (h_ops : Comp.ops ∈ fl) (h_fports : Comp.fports ∈ fl) (h_counters : Comp.counters ∈ fl) (h_gctr : Comp.gctr ∈ fl) (h_rake : Comp.rake ∈ fl) (h_trace : Comp.trace ∈ fl) (h_hobble : Comp.hobble ∈ fl) (h_irq : Comp.irq ∈ fl) (h_mem : Comp.mem ∈ fl) (h_mmPort : Comp.mmPort ∈ fl) (hk : Frame fl fr s) : Frame fl fr (drainEnd s) := by
  unfold drainEnd
  repeat' first
    | with_reducible assumption
    | (with_reducible exact Or.inl (by assumption))
    | (with_reducible exact Or.inr rfl)
    | with_reducible apply State.modHob_frame
    | with_reducible apply fabSendOn_frame
    | with_reducible apply hobbleCheck_frame
    | with_reducible apply runHeldAll_frame
    | with_reducible apply Frame.ite
    | (with_reducible refine Frame.foldl (fun _ _ _ => ?_) ?_)
    | split
    | dsimp only

theorem captureRx_frame {fl : List Comp} {fr : State} (kind : BitVec 4) (r : Rx) (s : State) (h_fports : Comp.fports ∈ fl) (h_hobble : Comp.hobble ∈ fl) (hk : Frame fl fr s) : Frame fl fr (captureRx kind r s) := by
  unfold captureRx
  repeat' first
    | with_reducible assumption
    | (with_reducible exact Or.inl (by assumption))
    | (with_reducible exact Or.inr rfl)
    | with_reducible apply noteCapture_frame
    | with_reducible apply holdRx_frame
    | dsimp only

theorem channelFlit_frame {fl : List Comp} {fr : State} (kind : BitVec 4) (r : Rx) (s : State) (h_cmds : Comp.cmds ∈ fl) (h_wins : Comp.wins ∈ fl) (h_aps : Comp.aps ∈ fl) (h_ops : Comp.ops ∈ fl) (h_fports : Comp.fports ∈ fl) (h_counters : Comp.counters ∈ fl) (h_gctr : Comp.gctr ∈ fl) (h_rake : Comp.rake ∈ fl) (h_trace : Comp.trace ∈ fl) (h_hobble : Comp.hobble ∈ fl) (h_irq : Comp.irq ∈ fl) (h_mem : Comp.mem ∈ fl) (h_mmPort : Comp.mmPort ∈ fl) (hk : Frame fl fr s) : Frame fl fr (channelFlit kind r s) := by
  unfold channelFlit
  repeat' first
    | with_reducible assumption
    | (with_reducible exact Or.inl (by assumption))
    | (with_reducible exact Or.inr rfl)
    | with_reducible apply State.modFp_frame
    | with_reducible apply State.modHob_frame
    | with_reducible apply oweCredit_frame
    | with_reducible apply regionWrite_frame
    | with_reducible apply regionHeader_frame
    | with_reducible apply runHeldAll_frame
    | with_reducible apply captureRx_frame
    | with_reducible apply Frame.ite
    | split
    | dsimp only

theorem markerFlit_frame {fl : List Comp} {fr : State} (r : Rx) (s : State) (h_cmds : Comp.cmds ∈ fl) (h_wins : Comp.wins ∈ fl) (h_parts : Comp.parts ∈ fl) (h_aps : Comp.aps ∈ fl) (h_ops : Comp.ops ∈ fl) (h_due : Comp.due ∈ fl) (h_rows : Comp.rows ∈ fl) (h_banks : Comp.banks ∈ fl) (h_waiters : Comp.waiters ∈ fl) (h_records : Comp.records ∈ fl) (h_early : Comp.early ∈ fl) (h_spillWakes : Comp.spillWakes ∈ fl) (h_fetching : Comp.fetching ∈ fl) (h_descs : Comp.descs ∈ fl) (h_holdings : Comp.holdings ∈ fl) (h_fences : Comp.fences ∈ fl) (h_deadlines : Comp.deadlines ∈ fl) (h_leases : Comp.leases ∈ fl) (h_arming : Comp.arming ∈ fl) (h_heldq : Comp.heldq ∈ fl) (h_decs : Comp.decs ∈ fl) (h_sn : Comp.sn ∈ fl) (h_dir : Comp.dir ∈ fl) (h_tack : Comp.tack ∈ fl) (h_fports : Comp.fports ∈ fl) (h_counters : Comp.counters ∈ fl) (h_gctr : Comp.gctr ∈ fl) (h_rake : Comp.rake ∈ fl) (h_trace : Comp.trace ∈ fl) (h_hobble : Comp.hobble ∈ fl) (h_watches : Comp.watches ∈ fl) (h_irq : Comp.irq ∈ fl) (h_mem : Comp.mem ∈ fl) (h_mmPort : Comp.mmPort ∈ fl) (h_free : Comp.free ∈ fl) (hk : Frame fl fr s) : Frame fl fr (markerFlit r s) := by
  unfold markerFlit
  repeat' first
    | with_reducible assumption
    | (with_reducible exact Or.inl (by assumption))
    | (with_reducible exact Or.inr rfl)
    | with_reducible apply State.modFp_frame
    | with_reducible apply State.modHob_frame
    | with_reducible apply hobbleCheck_frame
    | with_reducible apply runHeldAll_frame
    | with_reducible apply cutHere_frame
    | with_reducible apply Frame.ite
    | split
    | dsimp only

theorem doneFlit_frame {fl : List Comp} {fr : State} (r : Rx) (s : State) (h_cmds : Comp.cmds ∈ fl) (h_wins : Comp.wins ∈ fl) (h_aps : Comp.aps ∈ fl) (h_ops : Comp.ops ∈ fl) (h_fports : Comp.fports ∈ fl) (h_counters : Comp.counters ∈ fl) (h_gctr : Comp.gctr ∈ fl) (h_rake : Comp.rake ∈ fl) (h_trace : Comp.trace ∈ fl) (h_hobble : Comp.hobble ∈ fl) (h_irq : Comp.irq ∈ fl) (h_mem : Comp.mem ∈ fl) (h_mmPort : Comp.mmPort ∈ fl) (hk : Frame fl fr s) : Frame fl fr (doneFlit r s) := by
  unfold doneFlit
  repeat' first
    | with_reducible assumption
    | (with_reducible exact Or.inl (by assumption))
    | (with_reducible exact Or.inr rfl)
    | with_reducible apply hobbleReach_frame
    | with_reducible apply Frame.ite
    | split
    | dsimp only

theorem hobbleTimeout_frame {fl : List Comp} {fr : State} (s : State) (h_cmds : Comp.cmds ∈ fl) (h_wins : Comp.wins ∈ fl) (h_aps : Comp.aps ∈ fl) (h_ops : Comp.ops ∈ fl) (h_fports : Comp.fports ∈ fl) (h_counters : Comp.counters ∈ fl) (h_gctr : Comp.gctr ∈ fl) (h_rake : Comp.rake ∈ fl) (h_trace : Comp.trace ∈ fl) (h_hobble : Comp.hobble ∈ fl) (h_irq : Comp.irq ∈ fl) (h_mem : Comp.mem ∈ fl) (h_mmPort : Comp.mmPort ∈ fl) (hk : Frame fl fr s) : Frame fl fr (hobbleTimeout s) := by
  unfold hobbleTimeout
  repeat' first
    | with_reducible assumption
    | (with_reducible exact Or.inl (by assumption))
    | (with_reducible exact Or.inr rfl)
    | with_reducible apply hobbleReply_frame
    | with_reducible apply Frame.ite
    | split
    | dsimp only

theorem extendTimes_frame {fl : List Comp} {fr : State} (d : Nat) (s : State) (h_due : Comp.due ∈ fl) (h_waiters : Comp.waiters ∈ fl) (h_rwaits : Comp.rwaits ∈ fl) (h_deadlines : Comp.deadlines ∈ fl) (h_leases : Comp.leases ∈ fl) (hk : Frame fl fr s) : Frame fl fr (extendTimes d s) := by
  unfold extendTimes
  repeat' first
    | with_reducible assumption
    | (with_reducible exact Or.inl (by assumption))
    | (with_reducible exact Or.inr rfl)
    | with_reducible apply State.modOpr_frame
    | with_reducible apply State.modWmc_frame
    | with_reducible apply State.modTdu_frame
    | with_reducible apply Frame.ite
    | split
    | dsimp only

theorem processAll_frame {fl : List Comp} {fr : State} (l : List (BitVec 4 × Rx × Bool)) (s : State) (h_cmds : Comp.cmds ∈ fl) (h_frags : Comp.frags ∈ fl) (h_wins : Comp.wins ∈ fl) (h_parts : Comp.parts ∈ fl) (h_aps : Comp.aps ∈ fl) (h_ops : Comp.ops ∈ fl) (h_merges : Comp.merges ∈ fl) (h_rows : Comp.rows ∈ fl) (h_banks : Comp.banks ∈ fl) (h_waiters : Comp.waiters ∈ fl) (h_rwaits : Comp.rwaits ∈ fl) (h_records : Comp.records ∈ fl) (h_early : Comp.early ∈ fl) (h_spillWakes : Comp.spillWakes ∈ fl) (h_fetching : Comp.fetching ∈ fl) (h_descs : Comp.descs ∈ fl) (h_holdings : Comp.holdings ∈ fl) (h_fences : Comp.fences ∈ fl) (h_deadlines : Comp.deadlines ∈ fl) (h_leases : Comp.leases ∈ fl) (h_arming : Comp.arming ∈ fl) (h_heldq : Comp.heldq ∈ fl) (h_sn : Comp.sn ∈ fl) (h_dir : Comp.dir ∈ fl) (h_tack : Comp.tack ∈ fl) (h_fports : Comp.fports ∈ fl) (h_trees : Comp.trees ∈ fl) (h_census : Comp.census ∈ fl) (h_exts : Comp.exts ∈ fl) (h_undo : Comp.undo ∈ fl) (h_inq : Comp.inq ∈ fl) (h_counters : Comp.counters ∈ fl) (h_gctr : Comp.gctr ∈ fl) (h_rake : Comp.rake ∈ fl) (h_trace : Comp.trace ∈ fl) (h_hobble : Comp.hobble ∈ fl) (h_watches : Comp.watches ∈ fl) (h_irq : Comp.irq ∈ fl) (h_mem : Comp.mem ∈ fl) (h_mmPort : Comp.mmPort ∈ fl) (h_free : Comp.free ∈ fl) (hk : Frame fl fr s) : Frame fl fr (processAll l s) := by
  unfold processAll
  repeat' first
    | with_reducible assumption
    | (with_reducible exact Or.inl (by assumption))
    | (with_reducible exact Or.inr rfl)
    | with_reducible apply routedFlit_frame
    | (with_reducible refine Frame.foldl (fun _ _ _ => ?_) ?_)
    | dsimp only

theorem unhobbleReply_frame {fl : List Comp} {fr : State} (final : Bool) (s : State) (h_cmds : Comp.cmds ∈ fl) (h_wins : Comp.wins ∈ fl) (h_aps : Comp.aps ∈ fl) (h_ops : Comp.ops ∈ fl) (h_fports : Comp.fports ∈ fl) (h_counters : Comp.counters ∈ fl) (h_gctr : Comp.gctr ∈ fl) (h_rake : Comp.rake ∈ fl) (h_trace : Comp.trace ∈ fl) (h_hobble : Comp.hobble ∈ fl) (h_irq : Comp.irq ∈ fl) (h_mem : Comp.mem ∈ fl) (h_mmPort : Comp.mmPort ∈ fl) (hk : Frame fl fr s) : Frame fl fr (unhobbleReply final s) := by
  unfold unhobbleReply
  repeat' first
    | with_reducible assumption
    | (with_reducible exact Or.inl (by assumption))
    | (with_reducible exact Or.inr rfl)
    | with_reducible apply State.modHob_frame
    | with_reducible apply complete_frame
    | with_reducible apply Frame.ite
    | split
    | dsimp only

theorem resumedReach_frame {fl : List Comp} {fr : State} (n : NodeId) (s : State) (h_cmds : Comp.cmds ∈ fl) (h_wins : Comp.wins ∈ fl) (h_aps : Comp.aps ∈ fl) (h_ops : Comp.ops ∈ fl) (h_fports : Comp.fports ∈ fl) (h_counters : Comp.counters ∈ fl) (h_gctr : Comp.gctr ∈ fl) (h_rake : Comp.rake ∈ fl) (h_trace : Comp.trace ∈ fl) (h_hobble : Comp.hobble ∈ fl) (h_irq : Comp.irq ∈ fl) (h_mem : Comp.mem ∈ fl) (h_mmPort : Comp.mmPort ∈ fl) (hk : Frame fl fr s) : Frame fl fr (resumedReach n s) := by
  unfold resumedReach
  repeat' first
    | with_reducible assumption
    | (with_reducible exact Or.inl (by assumption))
    | (with_reducible exact Or.inr rfl)
    | with_reducible apply State.modHob_frame
    | with_reducible apply unhobbleReply_frame
    | with_reducible apply Frame.ite
    | split
    | dsimp only

theorem readRecords_frame {fl : List Comp} {fr : State} (l : List Nat) (s : State) (h_mmPort : Comp.mmPort ∈ fl) (hk : Frame fl fr s) : Frame fl fr (readRecords l s) := by
  unfold readRecords
  repeat' first
    | with_reducible assumption
    | (with_reducible exact Or.inl (by assumption))
    | (with_reducible exact Or.inr rfl)
    | with_reducible apply mmRequest_frame
    | (with_reducible refine Frame.foldl (fun _ _ _ => ?_) ?_)
    | dsimp only

theorem releaseCaptured_frame {fl : List Comp} {fr : State} (l : List CapSrc) (h_cmds : Comp.cmds ∈ fl) (h_frags : Comp.frags ∈ fl) (h_wins : Comp.wins ∈ fl) (h_parts : Comp.parts ∈ fl) (h_binds : Comp.binds ∈ fl) (h_aps : Comp.aps ∈ fl) (h_ops : Comp.ops ∈ fl) (h_merges : Comp.merges ∈ fl) (h_rows : Comp.rows ∈ fl) (h_banks : Comp.banks ∈ fl) (h_waiters : Comp.waiters ∈ fl) (h_rwaits : Comp.rwaits ∈ fl) (h_records : Comp.records ∈ fl) (h_early : Comp.early ∈ fl) (h_spillWakes : Comp.spillWakes ∈ fl) (h_fetching : Comp.fetching ∈ fl) (h_descs : Comp.descs ∈ fl) (h_holdings : Comp.holdings ∈ fl) (h_fences : Comp.fences ∈ fl) (h_deadlines : Comp.deadlines ∈ fl) (h_leases : Comp.leases ∈ fl) (h_arming : Comp.arming ∈ fl) (h_heldq : Comp.heldq ∈ fl) (h_decs : Comp.decs ∈ fl) (h_lnPort : Comp.lnPort ∈ fl) (h_sn : Comp.sn ∈ fl) (h_dir : Comp.dir ∈ fl) (h_tack : Comp.tack ∈ fl) (h_fports : Comp.fports ∈ fl) (h_trees : Comp.trees ∈ fl) (h_census : Comp.census ∈ fl) (h_exts : Comp.exts ∈ fl) (h_undo : Comp.undo ∈ fl) (h_inq : Comp.inq ∈ fl) (h_counters : Comp.counters ∈ fl) (h_gctr : Comp.gctr ∈ fl) (h_rake : Comp.rake ∈ fl) (h_trace : Comp.trace ∈ fl) (h_hobble : Comp.hobble ∈ fl) (h_watches : Comp.watches ∈ fl) (h_irq : Comp.irq ∈ fl) (h_mem : Comp.mem ∈ fl) (h_mmPort : Comp.mmPort ∈ fl) (h_free : Comp.free ∈ fl) : ∀ (t : Table (List (BitVec 4 × Rx × Bool))) (s : State),
    Frame fl fr s → Frame fl fr (releaseCaptured t l s) := by
  induction l with
  | nil => intro t s hk; unfold releaseCaptured; exact hk
  | cons x l ih =>
    intro t s hk
    cases x with
    | agent p a => unfold releaseCaptured; exact ih _ _ (by apply feedGo_frame <;> assumption)
    | fabric p =>
      unfold releaseCaptured
      split
      · exact ih _ _ hk
      · exact ih _ _ (by apply routedFlit_frame <;> assumption)
    | landing =>
      unfold releaseCaptured
      split
      · exact ih _ _ hk
      · exact ih _ _ (by
          apply landNotice_frame <;> first
            | assumption
            | (apply State.modLcu_frame <;> first
                | exact Or.inr rfl
                | exact Or.inl (by assumption)
                | exact hk))

theorem releaseEarlier_frame {fl : List Comp} {fr : State} (before : Table Nat) (s : State) (h_cmds : Comp.cmds ∈ fl) (h_wins : Comp.wins ∈ fl) (h_parts : Comp.parts ∈ fl) (h_binds : Comp.binds ∈ fl) (h_aps : Comp.aps ∈ fl) (h_ops : Comp.ops ∈ fl) (h_merges : Comp.merges ∈ fl) (h_rows : Comp.rows ∈ fl) (h_banks : Comp.banks ∈ fl) (h_waiters : Comp.waiters ∈ fl) (h_records : Comp.records ∈ fl) (h_early : Comp.early ∈ fl) (h_spillWakes : Comp.spillWakes ∈ fl) (h_fetching : Comp.fetching ∈ fl) (h_descs : Comp.descs ∈ fl) (h_holdings : Comp.holdings ∈ fl) (h_fences : Comp.fences ∈ fl) (h_deadlines : Comp.deadlines ∈ fl) (h_leases : Comp.leases ∈ fl) (h_arming : Comp.arming ∈ fl) (h_heldq : Comp.heldq ∈ fl) (h_sn : Comp.sn ∈ fl) (h_dir : Comp.dir ∈ fl) (h_tack : Comp.tack ∈ fl) (h_fports : Comp.fports ∈ fl) (h_trees : Comp.trees ∈ fl) (h_exts : Comp.exts ∈ fl) (h_counters : Comp.counters ∈ fl) (h_gctr : Comp.gctr ∈ fl) (h_rake : Comp.rake ∈ fl) (h_trace : Comp.trace ∈ fl) (h_watches : Comp.watches ∈ fl) (h_irq : Comp.irq ∈ fl) (h_mem : Comp.mem ∈ fl) (h_mmPort : Comp.mmPort ∈ fl) (h_free : Comp.free ∈ fl) (hk : Frame fl fr s) : Frame fl fr (releaseEarlier before s) := by
  unfold releaseEarlier
  repeat' first
    | with_reducible assumption
    | (with_reducible exact Or.inl (by assumption))
    | (with_reducible exact Or.inr rfl)
    | with_reducible apply feedGo_frame
    | with_reducible apply feedFab_frame
    | (with_reducible refine Frame.foldl (fun _ _ _ => ?_) ?_)
    | dsimp only

theorem resumeHere_frame {fl : List Comp} {fr : State} (init : NodeId) (hseq : Byte) (s : State) (h_cmds : Comp.cmds ∈ fl) (h_frags : Comp.frags ∈ fl) (h_wins : Comp.wins ∈ fl) (h_parts : Comp.parts ∈ fl) (h_binds : Comp.binds ∈ fl) (h_aps : Comp.aps ∈ fl) (h_ops : Comp.ops ∈ fl) (h_merges : Comp.merges ∈ fl) (h_rr : Comp.rr ∈ fl) (h_due : Comp.due ∈ fl) (h_rows : Comp.rows ∈ fl) (h_banks : Comp.banks ∈ fl) (h_waiters : Comp.waiters ∈ fl) (h_rwaits : Comp.rwaits ∈ fl) (h_records : Comp.records ∈ fl) (h_early : Comp.early ∈ fl) (h_spillWakes : Comp.spillWakes ∈ fl) (h_fetching : Comp.fetching ∈ fl) (h_descs : Comp.descs ∈ fl) (h_holdings : Comp.holdings ∈ fl) (h_fences : Comp.fences ∈ fl) (h_deadlines : Comp.deadlines ∈ fl) (h_leases : Comp.leases ∈ fl) (h_arming : Comp.arming ∈ fl) (h_heldq : Comp.heldq ∈ fl) (h_decs : Comp.decs ∈ fl) (h_lnPort : Comp.lnPort ∈ fl) (h_sn : Comp.sn ∈ fl) (h_dir : Comp.dir ∈ fl) (h_tack : Comp.tack ∈ fl) (h_fports : Comp.fports ∈ fl) (h_trees : Comp.trees ∈ fl) (h_census : Comp.census ∈ fl) (h_exts : Comp.exts ∈ fl) (h_undo : Comp.undo ∈ fl) (h_inq : Comp.inq ∈ fl) (h_counters : Comp.counters ∈ fl) (h_gctr : Comp.gctr ∈ fl) (h_rake : Comp.rake ∈ fl) (h_trace : Comp.trace ∈ fl) (h_hobble : Comp.hobble ∈ fl) (h_watches : Comp.watches ∈ fl) (h_irq : Comp.irq ∈ fl) (h_mem : Comp.mem ∈ fl) (h_mmPort : Comp.mmPort ∈ fl) (h_free : Comp.free ∈ fl) (hk : Frame fl fr s) : Frame fl fr (resumeHere init hseq s) := by
  unfold resumeHere
  repeat' first
    | with_reducible assumption
    | (with_reducible exact Or.inl (by assumption))
    | (with_reducible exact Or.inr rfl)
    | with_reducible apply State.modFp_frame
    | with_reducible apply State.modHob_frame
    | with_reducible apply raiseGlobal_frame
    | with_reducible apply fabSend_frame
    | with_reducible apply pump_frame
    | with_reducible apply feedAll_frame
    | with_reducible apply extendTimes_frame
    | with_reducible apply processAll_frame
    | with_reducible apply resumedReach_frame
    | with_reducible apply readRecords_frame
    | with_reducible apply releaseCaptured_frame
    | with_reducible apply releaseEarlier_frame
    | with_reducible apply Frame.ite
    | (with_reducible refine Frame.foldl (fun _ _ _ => ?_) ?_)
    | split
    | dsimp only

theorem resumeFlit_frame {fl : List Comp} {fr : State} (r : Rx) (s : State) (h_cmds : Comp.cmds ∈ fl) (h_frags : Comp.frags ∈ fl) (h_wins : Comp.wins ∈ fl) (h_parts : Comp.parts ∈ fl) (h_binds : Comp.binds ∈ fl) (h_aps : Comp.aps ∈ fl) (h_ops : Comp.ops ∈ fl) (h_merges : Comp.merges ∈ fl) (h_rr : Comp.rr ∈ fl) (h_due : Comp.due ∈ fl) (h_rows : Comp.rows ∈ fl) (h_banks : Comp.banks ∈ fl) (h_waiters : Comp.waiters ∈ fl) (h_rwaits : Comp.rwaits ∈ fl) (h_records : Comp.records ∈ fl) (h_early : Comp.early ∈ fl) (h_spillWakes : Comp.spillWakes ∈ fl) (h_fetching : Comp.fetching ∈ fl) (h_descs : Comp.descs ∈ fl) (h_holdings : Comp.holdings ∈ fl) (h_fences : Comp.fences ∈ fl) (h_deadlines : Comp.deadlines ∈ fl) (h_leases : Comp.leases ∈ fl) (h_arming : Comp.arming ∈ fl) (h_heldq : Comp.heldq ∈ fl) (h_decs : Comp.decs ∈ fl) (h_lnPort : Comp.lnPort ∈ fl) (h_sn : Comp.sn ∈ fl) (h_dir : Comp.dir ∈ fl) (h_tack : Comp.tack ∈ fl) (h_fports : Comp.fports ∈ fl) (h_trees : Comp.trees ∈ fl) (h_census : Comp.census ∈ fl) (h_exts : Comp.exts ∈ fl) (h_undo : Comp.undo ∈ fl) (h_inq : Comp.inq ∈ fl) (h_counters : Comp.counters ∈ fl) (h_gctr : Comp.gctr ∈ fl) (h_rake : Comp.rake ∈ fl) (h_trace : Comp.trace ∈ fl) (h_hobble : Comp.hobble ∈ fl) (h_watches : Comp.watches ∈ fl) (h_irq : Comp.irq ∈ fl) (h_mem : Comp.mem ∈ fl) (h_mmPort : Comp.mmPort ∈ fl) (h_free : Comp.free ∈ fl) (hk : Frame fl fr s) : Frame fl fr (resumeFlit r s) := by
  unfold resumeFlit
  repeat' first
    | with_reducible assumption
    | (with_reducible exact Or.inl (by assumption))
    | (with_reducible exact Or.inr rfl)
    | with_reducible apply sendEach_frame
    | with_reducible apply resumeHere_frame
    | with_reducible apply Frame.ite
    | split
    | dsimp only

theorem unhobbleCmd_frame {fl : List Comp} {fr : State} (c : Cmd) (s : State) (h_cmds : Comp.cmds ∈ fl) (h_frags : Comp.frags ∈ fl) (h_wins : Comp.wins ∈ fl) (h_parts : Comp.parts ∈ fl) (h_binds : Comp.binds ∈ fl) (h_aps : Comp.aps ∈ fl) (h_ops : Comp.ops ∈ fl) (h_merges : Comp.merges ∈ fl) (h_rr : Comp.rr ∈ fl) (h_due : Comp.due ∈ fl) (h_rows : Comp.rows ∈ fl) (h_banks : Comp.banks ∈ fl) (h_waiters : Comp.waiters ∈ fl) (h_rwaits : Comp.rwaits ∈ fl) (h_records : Comp.records ∈ fl) (h_early : Comp.early ∈ fl) (h_spillWakes : Comp.spillWakes ∈ fl) (h_fetching : Comp.fetching ∈ fl) (h_descs : Comp.descs ∈ fl) (h_holdings : Comp.holdings ∈ fl) (h_fences : Comp.fences ∈ fl) (h_deadlines : Comp.deadlines ∈ fl) (h_leases : Comp.leases ∈ fl) (h_arming : Comp.arming ∈ fl) (h_heldq : Comp.heldq ∈ fl) (h_decs : Comp.decs ∈ fl) (h_lnPort : Comp.lnPort ∈ fl) (h_sn : Comp.sn ∈ fl) (h_dir : Comp.dir ∈ fl) (h_tack : Comp.tack ∈ fl) (h_fports : Comp.fports ∈ fl) (h_trees : Comp.trees ∈ fl) (h_census : Comp.census ∈ fl) (h_exts : Comp.exts ∈ fl) (h_undo : Comp.undo ∈ fl) (h_inq : Comp.inq ∈ fl) (h_counters : Comp.counters ∈ fl) (h_gctr : Comp.gctr ∈ fl) (h_rake : Comp.rake ∈ fl) (h_trace : Comp.trace ∈ fl) (h_hobble : Comp.hobble ∈ fl) (h_watches : Comp.watches ∈ fl) (h_irq : Comp.irq ∈ fl) (h_mem : Comp.mem ∈ fl) (h_mmPort : Comp.mmPort ∈ fl) (h_free : Comp.free ∈ fl) (hk : Frame fl fr s) : Frame fl fr (unhobbleCmd c s) := by
  unfold unhobbleCmd
  repeat' first
    | with_reducible assumption
    | (with_reducible exact Or.inl (by assumption))
    | (with_reducible exact Or.inr rfl)
    | with_reducible apply State.modHob_frame
    | with_reducible apply refuse_frame
    | with_reducible apply setPhase_frame
    | with_reducible apply sendEach_frame
    | with_reducible apply resumeHere_frame
    | with_reducible apply Frame.ite
    | split
    | dsimp only

theorem resumedFlit_frame {fl : List Comp} {fr : State} (r : Rx) (s : State) (h_cmds : Comp.cmds ∈ fl) (h_wins : Comp.wins ∈ fl) (h_aps : Comp.aps ∈ fl) (h_ops : Comp.ops ∈ fl) (h_fports : Comp.fports ∈ fl) (h_counters : Comp.counters ∈ fl) (h_gctr : Comp.gctr ∈ fl) (h_rake : Comp.rake ∈ fl) (h_trace : Comp.trace ∈ fl) (h_hobble : Comp.hobble ∈ fl) (h_irq : Comp.irq ∈ fl) (h_mem : Comp.mem ∈ fl) (h_mmPort : Comp.mmPort ∈ fl) (hk : Frame fl fr s) : Frame fl fr (resumedFlit r s) := by
  unfold resumedFlit
  repeat' first
    | with_reducible assumption
    | (with_reducible exact Or.inl (by assumption))
    | (with_reducible exact Or.inr rfl)
    | with_reducible apply resumedReach_frame
    | with_reducible apply Frame.ite
    | split
    | dsimp only

theorem unhobbleTimeout_frame {fl : List Comp} {fr : State} (s : State) (h_cmds : Comp.cmds ∈ fl) (h_wins : Comp.wins ∈ fl) (h_aps : Comp.aps ∈ fl) (h_ops : Comp.ops ∈ fl) (h_fports : Comp.fports ∈ fl) (h_counters : Comp.counters ∈ fl) (h_gctr : Comp.gctr ∈ fl) (h_rake : Comp.rake ∈ fl) (h_trace : Comp.trace ∈ fl) (h_hobble : Comp.hobble ∈ fl) (h_irq : Comp.irq ∈ fl) (h_mem : Comp.mem ∈ fl) (h_mmPort : Comp.mmPort ∈ fl) (hk : Frame fl fr s) : Frame fl fr (unhobbleTimeout s) := by
  unfold unhobbleTimeout
  repeat' first
    | with_reducible assumption
    | (with_reducible exact Or.inl (by assumption))
    | (with_reducible exact Or.inr rfl)
    | with_reducible apply unhobbleReply_frame
    | with_reducible apply Frame.ite
    | split
    | dsimp only

theorem farFlit_frame {fl : List Comp} {fr : State} (kind : BitVec 4) (r : Rx) (s : State) (h_time : Comp.time ∈ fl) (h_clock : Comp.clock ∈ fl) (h_cmds : Comp.cmds ∈ fl) (h_frags : Comp.frags ∈ fl) (h_wins : Comp.wins ∈ fl) (h_parts : Comp.parts ∈ fl) (h_binds : Comp.binds ∈ fl) (h_aps : Comp.aps ∈ fl) (h_ops : Comp.ops ∈ fl) (h_merges : Comp.merges ∈ fl) (h_rr : Comp.rr ∈ fl) (h_due : Comp.due ∈ fl) (h_rows : Comp.rows ∈ fl) (h_banks : Comp.banks ∈ fl) (h_waiters : Comp.waiters ∈ fl) (h_rwaits : Comp.rwaits ∈ fl) (h_records : Comp.records ∈ fl) (h_early : Comp.early ∈ fl) (h_spillWakes : Comp.spillWakes ∈ fl) (h_fetching : Comp.fetching ∈ fl) (h_descs : Comp.descs ∈ fl) (h_holdings : Comp.holdings ∈ fl) (h_fences : Comp.fences ∈ fl) (h_deadlines : Comp.deadlines ∈ fl) (h_leases : Comp.leases ∈ fl) (h_arming : Comp.arming ∈ fl) (h_heldq : Comp.heldq ∈ fl) (h_decs : Comp.decs ∈ fl) (h_lnPort : Comp.lnPort ∈ fl) (h_sn : Comp.sn ∈ fl) (h_dir : Comp.dir ∈ fl) (h_tack : Comp.tack ∈ fl) (h_fports : Comp.fports ∈ fl) (h_trees : Comp.trees ∈ fl) (h_disc : Comp.disc ∈ fl) (h_census : Comp.census ∈ fl) (h_routes : Comp.routes ∈ fl) (h_exts : Comp.exts ∈ fl) (h_undo : Comp.undo ∈ fl) (h_inq : Comp.inq ∈ fl) (h_counters : Comp.counters ∈ fl) (h_gctr : Comp.gctr ∈ fl) (h_rake : Comp.rake ∈ fl) (h_trace : Comp.trace ∈ fl) (h_hobble : Comp.hobble ∈ fl) (h_watches : Comp.watches ∈ fl) (h_irq : Comp.irq ∈ fl) (h_mem : Comp.mem ∈ fl) (h_mmPort : Comp.mmPort ∈ fl) (h_free : Comp.free ∈ fl) (hk : Frame fl fr s) : Frame fl fr (farFlit kind r s) := by
  unfold farFlit
  repeat' first
    | with_reducible assumption
    | (with_reducible exact Or.inl (by assumption))
    | (with_reducible exact Or.inr rfl)
    | with_reducible apply probeFlit_frame
    | with_reducible apply notChildFlit_frame
    | with_reducible apply reportFlit_frame
    | with_reducible apply assignFlit_frame
    | with_reducible apply planFlit_frame
    | with_reducible apply dvFlit_frame
    | with_reducible apply doneUpFlit_frame
    | with_reducible apply doneDownFlit_frame
    | with_reducible apply syncReqFlit_frame
    | with_reducible apply syncRspFlit_frame
    | with_reducible apply markerFlit_frame
    | with_reducible apply resumeFlit_frame
    | with_reducible apply Frame.ite
    | split
    | dsimp only

theorem reportHobble_frame {fl : List Comp} {fr : State} (r : Rx) (s : State) (h_cmds : Comp.cmds ∈ fl) (h_wins : Comp.wins ∈ fl) (h_aps : Comp.aps ∈ fl) (h_ops : Comp.ops ∈ fl) (h_fports : Comp.fports ∈ fl) (h_counters : Comp.counters ∈ fl) (h_gctr : Comp.gctr ∈ fl) (h_rake : Comp.rake ∈ fl) (h_trace : Comp.trace ∈ fl) (h_hobble : Comp.hobble ∈ fl) (h_irq : Comp.irq ∈ fl) (h_mem : Comp.mem ∈ fl) (h_mmPort : Comp.mmPort ∈ fl) (hk : Frame fl fr s) : Frame fl fr (reportHobble r s) := by
  unfold reportHobble
  repeat' first
    | with_reducible assumption
    | (with_reducible exact Or.inl (by assumption))
    | (with_reducible exact Or.inr rfl)
    | with_reducible apply doneFlit_frame
    | with_reducible apply resumedFlit_frame
    | with_reducible apply Frame.ite
    | split
    | dsimp only

theorem useFlit_frame {fl : List Comp} {fr : State} (kind : BitVec 4) (r : Rx) (s : State) (h_time : Comp.time ∈ fl) (h_clock : Comp.clock ∈ fl) (h_service : Comp.service ∈ fl) (h_cmds : Comp.cmds ∈ fl) (h_frags : Comp.frags ∈ fl) (h_wins : Comp.wins ∈ fl) (h_parts : Comp.parts ∈ fl) (h_binds : Comp.binds ∈ fl) (h_aps : Comp.aps ∈ fl) (h_ops : Comp.ops ∈ fl) (h_merges : Comp.merges ∈ fl) (h_rr : Comp.rr ∈ fl) (h_due : Comp.due ∈ fl) (h_rows : Comp.rows ∈ fl) (h_banks : Comp.banks ∈ fl) (h_waiters : Comp.waiters ∈ fl) (h_rwaits : Comp.rwaits ∈ fl) (h_records : Comp.records ∈ fl) (h_early : Comp.early ∈ fl) (h_spillWakes : Comp.spillWakes ∈ fl) (h_fetching : Comp.fetching ∈ fl) (h_descs : Comp.descs ∈ fl) (h_holdings : Comp.holdings ∈ fl) (h_fences : Comp.fences ∈ fl) (h_deadlines : Comp.deadlines ∈ fl) (h_leases : Comp.leases ∈ fl) (h_arming : Comp.arming ∈ fl) (h_heldq : Comp.heldq ∈ fl) (h_decs : Comp.decs ∈ fl) (h_lnPort : Comp.lnPort ∈ fl) (h_sn : Comp.sn ∈ fl) (h_dir : Comp.dir ∈ fl) (h_tack : Comp.tack ∈ fl) (h_fports : Comp.fports ∈ fl) (h_trees : Comp.trees ∈ fl) (h_disc : Comp.disc ∈ fl) (h_census : Comp.census ∈ fl) (h_routes : Comp.routes ∈ fl) (h_exts : Comp.exts ∈ fl) (h_undo : Comp.undo ∈ fl) (h_inq : Comp.inq ∈ fl) (h_counters : Comp.counters ∈ fl) (h_gctr : Comp.gctr ∈ fl) (h_rake : Comp.rake ∈ fl) (h_trace : Comp.trace ∈ fl) (h_hobble : Comp.hobble ∈ fl) (h_watches : Comp.watches ∈ fl) (h_irq : Comp.irq ∈ fl) (h_mem : Comp.mem ∈ fl) (h_mmPort : Comp.mmPort ∈ fl) (h_free : Comp.free ∈ fl) (hk : Frame fl fr s) : Frame fl fr (useFlit kind r s) := by
  unfold useFlit
  repeat' first
    | with_reducible assumption
    | (with_reducible exact Or.inl (by assumption))
    | (with_reducible exact Or.inr rfl)
    | with_reducible apply oweCredit_frame
    | with_reducible apply discardBad_frame
    | with_reducible apply helloFlit_frame
    | with_reducible apply routedFlit_frame
    | with_reducible apply channelFlit_frame
    | with_reducible apply farFlit_frame
    | with_reducible apply reportHobble_frame
    | with_reducible apply Frame.ite
    | split
    | dsimp only

end Sys2Proof.Machine
end

