-- ==== Sys2Proof/Laws/KeptBase.lean ====
section
/-! SUPPORT. Every effect defined in Ops, Operands, Objects, Respond keeps the relation of Laws/Kept. -/

namespace Sys2Proof.Machine

theorem State.setAp_kept {kr : State} (s : State) (p : PortNo) (x : ApPort) (hk : Kept kr s) : Kept kr (State.setAp s p x) :=
  Kept.cast hk rfl rfl rfl rfl rfl

theorem State.modAp_kept {kr : State} (s : State) (p : PortNo) (f : ApPort → ApPort) (hk : Kept kr s) : Kept kr (State.modAp s p f) := by
  unfold State.modAp
  repeat' first
    | with_reducible assumption
    | with_reducible apply State.setAp_kept
    | dsimp only

theorem State.setBind_kept {kr : State} (s : State) (a : AgentId) (x : Bind) (hk : Kept kr s) : Kept kr (State.setBind s a x) :=
  Kept.cast hk rfl rfl rfl rfl rfl

theorem State.setPart_kept {kr : State} (s : State) (p : PartId) (x : Part) (hk : Kept kr s) : Kept kr (State.setPart s p x) :=
  Kept.cast hk rfl rfl rfl rfl rfl

theorem State.modPart_kept {kr : State} (s : State) (p : PartId) (f : Part → Part) (hk : Kept kr s) : Kept kr (State.modPart s p f) := by
  unfold State.modPart
  repeat' first
    | with_reducible assumption
    | with_reducible apply State.setPart_kept
    | dsimp only

theorem State.setWin_kept {kr : State} (s : State) (w : Win) (x : Window) (hk : Kept kr s) : Kept kr (State.setWin s w x) :=
  Kept.cast hk rfl rfl rfl rfl rfl

theorem State.modWin_kept {kr : State} (s : State) (w : Win) (f : Window → Window) (hk : Kept kr s) : Kept kr (State.modWin s w f) := by
  unfold State.modWin
  repeat' first
    | with_reducible assumption
    | with_reducible apply State.setWin_kept
    | dsimp only

theorem State.setSeq_kept {kr : State} (s : State) (q : SeqNo) (x : Seq) (hk : Kept kr s) : Kept kr (State.setSeq s q x) :=
  Kept.cast hk rfl rfl rfl rfl rfl

theorem State.modSeq_kept {kr : State} (s : State) (q : SeqNo) (f : Seq → Seq) (hk : Kept kr s) : Kept kr (State.modSeq s q f) := by
  unfold State.modSeq
  repeat' first
    | with_reducible assumption
    | with_reducible apply State.setSeq_kept
    | dsimp only

theorem State.setCtx_kept {kr : State} (s : State) (p : PartId) (c : CtxId) (x : Ctx) (hk : Kept kr s) : Kept kr (State.setCtx s p c x) :=
  Kept.cast hk rfl rfl rfl rfl rfl

theorem State.modCtx_kept {kr : State} (s : State) (p : PartId) (c : CtxId) (f : Ctx → Ctx) (hk : Kept kr s) : Kept kr (State.modCtx s p c f) := by
  unfold State.modCtx
  repeat' first
    | with_reducible assumption
    | with_reducible apply State.setCtx_kept
    | dsimp only

theorem State.setFp_kept {kr : State} (s : State) (p : FabPort) (x : FPort) (hk : Kept kr s) : Kept kr (State.setFp s p x) :=
  Kept.cast hk rfl rfl rfl rfl rfl

theorem State.modFp_kept {kr : State} (s : State) (p : FabPort) (f : FPort → FPort) (hk : Kept kr s) : Kept kr (State.modFp s p f) := by
  unfold State.modFp
  repeat' first
    | with_reducible assumption
    | with_reducible apply State.setFp_kept
    | dsimp only

theorem State.setTree_kept {kr : State} (s : State) (t : AgentId) (x : Tree) (hk : Kept kr s) : Kept kr (State.setTree s t x) :=
  Kept.cast hk rfl rfl rfl rfl rfl

theorem State.delPart_kept {kr : State} (s : State) (p : PartId) (hk : Kept kr s) : Kept kr (State.delPart s p) :=
  Kept.cast hk rfl rfl rfl rfl rfl

theorem State.modOpr_kept {kr : State} (s : State) (f : Opr → Opr) (hk : Kept kr s) : Kept kr (State.modOpr s f) :=
  Kept.cast hk rfl rfl rfl rfl rfl

theorem State.modWmc_kept {kr : State} (s : State) (f : Wmc → Wmc) (hk : Kept kr s) : Kept kr (State.modWmc s f) :=
  Kept.cast hk rfl rfl rfl rfl rfl

theorem State.modOlu_kept {kr : State} (s : State) (f : Olu → Olu) (hk : Kept kr s) : Kept kr (State.modOlu s f) :=
  Kept.cast hk rfl rfl rfl rfl rfl

theorem State.modTdu_kept {kr : State} (s : State) (f : Tdu → Tdu) (hk : Kept kr s) : Kept kr (State.modTdu s f) :=
  Kept.cast hk rfl rfl rfl rfl rfl

theorem State.modLcu_kept {kr : State} (s : State) (f : Lcu → Lcu) (hk : Kept kr s) : Kept kr (State.modLcu s f) :=
  Kept.cast hk rfl rfl rfl rfl rfl

theorem State.modTrk_kept {kr : State} (s : State) (f : Trk → Trk) (hk : Kept kr s) : Kept kr (State.modTrk s f) :=
  Kept.cast hk rfl rfl rfl rfl rfl

theorem State.modCtm_kept {kr : State} (s : State) (f : Ctm → Ctm) (hk : Kept kr s) : Kept kr (State.modCtm s f) :=
  Kept.cast hk rfl rfl rfl rfl rfl

theorem State.modCr_kept {kr : State} (s : State) (f : Cr → Cr) (hk : Kept kr s) : Kept kr (State.modCr s f) :=
  Kept.cast hk rfl rfl rfl rfl rfl

theorem State.modSn_kept {kr : State} (s : State) (f : Sn → Sn) (hk : Kept kr s) : Kept kr (State.modSn s f) :=
  Kept.cast hk rfl rfl rfl rfl rfl

theorem State.modObk_kept {kr : State} (s : State) (f : Obk → Obk) (hk : Kept kr s) : Kept kr (State.modObk s f) :=
  Kept.cast hk rfl rfl rfl rfl rfl

theorem State.modMsq_kept {kr : State} (s : State) (f : Msq → Msq) (hk : Kept kr s) : Kept kr (State.modMsq s f) :=
  Kept.cast hk rfl rfl rfl rfl rfl

theorem State.modObs_kept {kr : State} (s : State) (f : Obs → Obs) (hk : Kept kr s) : Kept kr (State.modObs s f) :=
  Kept.cast hk rfl rfl rfl rfl rfl

theorem State.modFab_kept {kr : State} (s : State) (f : Fab → Fab) (hk : Kept kr s) : Kept kr (State.modFab s f) :=
  Kept.cast hk rfl rfl rfl rfl rfl

theorem State.modHob_kept {kr : State} (s : State) (f : Hobble → Hobble) (hk : Kept kr s) : Kept kr (State.modHob s f) :=
  Kept.cast hk rfl rfl rfl rfl rfl

theorem State.modDisc_kept {kr : State} (s : State) (f : Disc → Disc) (hk : Kept kr s) : Kept kr (State.modDisc s f) :=
  Kept.cast hk rfl rfl rfl rfl rfl

theorem State.modCensus_kept {kr : State} (s : State) (f : Census → Census) (hk : Kept kr s) : Kept kr (State.modCensus s f) :=
  Kept.cast hk rfl rfl rfl rfl rfl

theorem elapse_kept {kr : State} (edges : Nat) (s : State) (hk : Kept kr s) : Kept kr (elapse edges s) := by
  unfold elapse
  repeat' first
    | with_reducible assumption
    | with_reducible apply State.modObs_kept
    | ((with_reducible refine State.modClk_kept ?_ ?_); · rfl)
    | ((with_reducible refine State.modClk_kept ?_ ?_); · exact Clk.advance_straps _ _)
    | with_reducible apply Kept.ite
    | split
    | dsimp only

theorem idleEdge_kept {kr : State} (s : State) (hk : Kept kr s) : Kept kr (idleEdge s) := by
  unfold idleEdge
  repeat' first
    | with_reducible assumption
    | with_reducible apply elapse_kept
    | dsimp only

theorem mmRequest_kept {kr : State} (write : Bool) (rq : ReqId) (a n : Nat) (s : State) (hk : Kept kr s) : Kept kr (mmRequest write rq a n s) :=
  Kept.cast hk rfl rfl rfl rfl rfl

theorem memZero_kept {kr : State} (s : State) (a n : Nat) (hk : Kept kr s) : Kept kr (memZero s a n) :=
  ⟨hk.1, hk.2, hk.3, fun h => tableWf_filter _ _ _ (hk.4 h), hk.5⟩

theorem memWriteWords_kept {kr : State} (s : State) (a : Nat) (ws : List Word) (hk : Kept kr s) : Kept kr (memWriteWords s a ws) := by
  unfold memWriteWords
  repeat' first
    | with_reducible assumption
    | with_reducible apply memWrite_kept
    | dsimp only

theorem mmWrite_kept {kr : State} (rq : ReqId) (a : Nat) (bs : List Byte) (s : State) (hk : Kept kr s) : Kept kr (mmWrite rq a bs s) := by
  unfold mmWrite
  repeat' first
    | with_reducible assumption
    | with_reducible apply mmRequest_kept
    | with_reducible apply memWrite_kept
    | dsimp only

theorem countN_kept {kr : State} (p : PartId) (i n : Nat) (s : State) (hk : Kept kr s) : Kept kr (countN p i n s) := by
  unfold countN
  repeat' first
    | with_reducible assumption
    | with_reducible apply State.modObs_kept
    | with_reducible apply Kept.ite
    | split
    | dsimp only

theorem raisePart_kept {kr : State} (p : PartId) (i : Nat) (s : State) (hk : Kept kr s) : Kept kr (raisePart p i s) := by
  unfold raisePart
  repeat' first
    | with_reducible assumption
    | with_reducible apply State.modWin_kept
    | dsimp only

theorem count_kept {kr : State} (p : PartId) (i : Nat) (s : State) (hk : Kept kr s) : Kept kr (count p i s) := by
  unfold count
  repeat' first
    | with_reducible assumption
    | with_reducible apply countN_kept
    | with_reducible apply raisePart_kept
    | with_reducible apply Kept.ite
    | split
    | dsimp only

theorem gcountN_kept {kr : State} (i n : Nat) (s : State) (hk : Kept kr s) : Kept kr (gcountN i n s) := by
  unfold gcountN
  repeat' first
    | with_reducible assumption
    | with_reducible apply State.modObs_kept
    | with_reducible apply Kept.ite
    | split
    | dsimp only

theorem gcount_kept {kr : State} (i : Nat) (s : State) (hk : Kept kr s) : Kept kr (gcount i s) := by
  unfold gcount
  repeat' first
    | with_reducible assumption
    | with_reducible apply gcountN_kept
    | dsimp only

theorem inner_kept {kr : State} (cls : Nat) (s : State) (hk : Kept kr s) : Kept kr (inner cls s) := by
  unfold inner
  repeat' first
    | with_reducible assumption
    | with_reducible apply gcount_kept
    | dsimp only

theorem countStatus_kept {kr : State} (p : PartId) (code : Byte) (s : State) (hk : Kept kr s) : Kept kr (countStatus p code s) := by
  unfold countStatus
  repeat' first
    | with_reducible assumption
    | with_reducible apply count_kept
    | split
    | dsimp only

theorem raiseGlobal_kept {kr : State} (i : Nat) (s : State) (hk : Kept kr s) : Kept kr (raiseGlobal i s) := by
  unfold raiseGlobal
  repeat' first
    | with_reducible assumption
    | with_reducible apply State.modCr_kept
    | dsimp only

theorem rakeAdd_kept {kr : State} (r : Rake) (s : State) (hk : Kept kr s) : Kept kr (rakeAdd r s) := by
  unfold rakeAdd
  repeat' first
    | with_reducible assumption
    | with_reducible apply State.modObs_kept
    | with_reducible apply gcount_kept
    | with_reducible apply raiseGlobal_kept
    | with_reducible apply Kept.ite
    | split
    | dsimp only

theorem report_kept {kr : State} (c : Report) (u : Unit') (part : Option PartId) (id : BitVec 12) (node : BitVec 16) (ref : BitVec 44) (detail : BitVec 16) (s : State) (hk : Kept kr s) : Kept kr (report c u part id node ref detail s) := by
  unfold report
  repeat' first
    | with_reducible assumption
    | with_reducible apply rakeAdd_kept
    | dsimp only

theorem reportFab_kept {kr : State} (c : Report) (p : FabPort) (src : NodeId) (s : State) (hk : Kept kr s) : Kept kr (reportFab c p src s) := by
  unfold reportFab
  repeat' first
    | with_reducible assumption
    | with_reducible apply report_kept
    | dsimp only

theorem modTrace_kept {kr : State} (f : Trace → Trace) (s : State) (hk : Kept kr s) : Kept kr (modTrace f s) := by
  unfold modTrace
  repeat' first
    | with_reducible assumption
    | with_reducible apply State.modObs_kept
    | dsimp only

theorem traceDrop_kept {kr : State} (part : Option PartId) (s : State) (hk : Kept kr s) : Kept kr (traceDrop part s) := by
  unfold traceDrop
  repeat' first
    | with_reducible assumption
    | with_reducible apply count_kept
    | with_reducible apply gcount_kept
    | with_reducible apply modTrace_kept
    | split
    | dsimp only

theorem traceRec_kept {kr : State} (cls : Nat) (part : Option PartId) (rec : BitVec 256) (s : State) (hk : Kept kr s) : Kept kr (traceRec cls part rec s) := by
  unfold traceRec
  repeat' first
    | with_reducible assumption
    | with_reducible apply modTrace_kept
    | with_reducible apply traceDrop_kept
    | with_reducible apply Kept.ite
    | split
    | dsimp only

theorem State.setObj_kept {kr : State} (s : State) (k : OKey) (o : Obj) (hk : Kept kr s) : Kept kr (State.setObj s k o) := by
  unfold State.setObj
  repeat' first
    | with_reducible assumption
    | with_reducible apply State.modObk_kept
    | with_reducible apply Kept.ite
    | split
    | dsimp only

theorem State.delObj_kept {kr : State} (s : State) (k : OKey) (hk : Kept kr s) : Kept kr (State.delObj s k) := by
  unfold State.delObj
  repeat' first
    | with_reducible assumption
    | with_reducible apply State.modObk_kept
    | with_reducible apply Kept.ite
    | split
    | dsimp only

theorem State.setBody_kept {kr : State} (s : State) (k : OKey) (b : Body) (hk : Kept kr s) : Kept kr (State.setBody s k b) := by
  unfold State.setBody
  repeat' first
    | with_reducible assumption
    | with_reducible apply State.setObj_kept
    | split
    | dsimp only

theorem State.modHdr_kept {kr : State} (s : State) (k : OKey) (f : ObjHdr → ObjHdr) (hk : Kept kr s) : Kept kr (State.modHdr s k f) := by
  unfold State.modHdr
  repeat' first
    | with_reducible assumption
    | with_reducible apply State.setObj_kept
    | split
    | dsimp only

theorem syncHdr_kept {kr : State} (k : OKey) (s : State) (hk : Kept kr s) : Kept kr (syncHdr k s) := by
  unfold syncHdr
  repeat' first
    | with_reducible assumption
    | with_reducible apply State.modHdr_kept
    | with_reducible apply Kept.ite
    | split
    | dsimp only

theorem freshWq_kept {kr : State} (k : OKey) (s : State) (hk : Kept kr s) : Kept kr (freshWq k s) := by
  unfold freshWq
  repeat' first
    | with_reducible assumption
    | with_reducible apply fresh_kept
    | (refine fresh_keptE _ ?_ (by with_reducible assumption))
    | with_reducible apply State.modHdr_kept
    | dsimp only

theorem park_kept {kr : State} (w : Waiter) (s : State) (hk : Kept kr s) : Kept kr (park w s) := by
  unfold park
  repeat' first
    | with_reducible assumption
    | with_reducible apply State.modWmc_kept
    | with_reducible apply syncHdr_kept
    | with_reducible apply freshWq_kept
    | with_reducible apply Kept.ite
    | split
    | dsimp only

theorem unpark_kept {kr : State} (w : Waiter) (s : State) (hk : Kept kr s) : Kept kr (unpark w s) := by
  unfold unpark
  repeat' first
    | with_reducible assumption
    | with_reducible apply State.modWmc_kept
    | with_reducible apply syncHdr_kept
    | dsimp only

theorem setRecord_kept {kr : State} (k : OKey) (f : Record → Record) (s : State) (hk : Kept kr s) : Kept kr (setRecord k f s) := by
  unfold setRecord
  repeat' first
    | with_reducible assumption
    | with_reducible apply State.modWmc_kept
    | dsimp only

theorem setEarly_kept {kr : State} (k : OKey) (v : DWord) (s : State) (hk : Kept kr s) : Kept kr (setEarly k v s) := by
  unfold setEarly
  repeat' first
    | with_reducible assumption
    | with_reducible apply State.modWmc_kept
    | split
    | dsimp only

theorem dropEarly_kept {kr : State} (k : OKey) (s : State) (hk : Kept kr s) : Kept kr (dropEarly k s) := by
  unfold dropEarly
  repeat' first
    | with_reducible assumption
    | with_reducible apply State.modWmc_kept
    | dsimp only

theorem State.setDesc_kept {kr : State} (s : State) (i : Nat) (d : Desc) (hk : Kept kr s) : Kept kr (State.setDesc s i d) := by
  unfold State.setDesc
  repeat' first
    | with_reducible assumption
    | with_reducible apply State.modTrk_kept
    | dsimp only

theorem State.delDesc_kept {kr : State} (s : State) (i : Nat) (hk : Kept kr s) : Kept kr (State.delDesc s i) := by
  unfold State.delDesc
  repeat' first
    | with_reducible assumption
    | with_reducible apply State.modTrk_kept
    | dsimp only

theorem freeOp_kept {kr : State} (id : Nat) (s : State) (hk : Kept kr s) : Kept kr (freeOp id s) := by
  unfold freeOp
  repeat' first
    | with_reducible assumption
    | with_reducible apply State.modOpr_kept
    | dsimp only

theorem setOp_kept {kr : State} (id : Nat) (f : OpEntry → OpEntry) (s : State) (hk : Kept kr s) : Kept kr (setOp id f s) := by
  unfold setOp
  repeat' first
    | with_reducible assumption
    | with_reducible apply State.modOpr_kept
    | dsimp only

theorem setOpSt_kept {kr : State} (id : Nat) (st : OpSt) (s : State) (hk : Kept kr s) : Kept kr (setOpSt id st s) := by
  unfold setOpSt
  repeat' first
    | with_reducible assumption
    | with_reducible apply setOp_kept
    | dsimp only

theorem noteGrant_kept {kr : State} (p : PortNo) (a : LocalAgent) (g : Option Grant) (s : State) (hk : Kept kr s) : Kept kr (noteGrant p a g s) := by
  unfold noteGrant
  repeat' first
    | with_reducible assumption
    | with_reducible apply State.modAp_kept
    | split
    | dsimp only

theorem freeOpt_kept {kr : State} (id : Option Nat) (s : State) (hk : Kept kr s) : Kept kr (freeOpt id s) := by
  unfold freeOpt
  repeat' first
    | with_reducible assumption
    | with_reducible apply freeOp_kept
    | split
    | dsimp only

theorem pushRsp_kept {kr : State} (p : PortNo) (r : Rsp) (s : State) (hk : Kept kr s) : Kept kr (pushRsp p r s) := by
  unfold pushRsp
  repeat' first
    | with_reducible assumption
    | with_reducible apply State.modAp_kept
    | with_reducible apply noteGrant_kept
    | with_reducible apply freeOpt_kept
    | with_reducible apply Kept.ite
    | (with_reducible refine Kept.foldl (fun _ _ _ => ?_) ?_)
    | split
    | dsimp only

theorem bindReply_kept {kr : State} (p : PortNo) (a : LocalAgent) (code : Byte) (f : Req) (part : Option PartId) (st : Status) (s : State) (hk : Kept kr s) : Kept kr (bindReply p a code f part st s) := by
  unfold bindReply
  repeat' first
    | with_reducible assumption
    | with_reducible apply pushRsp_kept
    | with_reducible apply Kept.ite
    | split
    | dsimp only

theorem pushNotice_kept {kr : State} (p : PortNo) (part : PartId) (code : Byte) (agents : List LocalAgent) (s : State) (hk : Kept kr s) : Kept kr (pushNotice p part code agents s) := by
  unfold pushNotice
  repeat' first
    | with_reducible assumption
    | with_reducible apply pushRsp_kept
    | with_reducible apply Kept.ite
    | (with_reducible refine Kept.foldl (fun _ _ _ => ?_) ?_)
    | split
    | dsimp only

theorem noticePart_kept {kr : State} (part : PartId) (code : Byte) (s : State) (hk : Kept kr s) : Kept kr (noticePart part code s) := by
  unfold noticePart
  repeat' first
    | with_reducible assumption
    | with_reducible apply pushNotice_kept
    | with_reducible apply Kept.ite
    | (with_reducible refine Kept.foldl (fun _ _ _ => ?_) ?_)
    | split
    | dsimp only

theorem enqueueTx_kept {kr : State} (p : FabPort) (f : TxFlit) (s : State) (hk : Kept kr s) : Kept kr (enqueueTx p f s) := by
  unfold enqueueTx
  repeat' first
    | with_reducible assumption
    | with_reducible apply State.modFp_kept
    | dsimp only

theorem holdTx_kept {kr : State} (p : FabPort) (f : TxFlit) (s : State) (hk : Kept kr s) : Kept kr (holdTx p f s) := by
  unfold holdTx
  repeat' first
    | with_reducible assumption
    | with_reducible apply State.modFp_kept
    | dsimp only

theorem routeTx_kept {kr : State} (inPort : Option FabPort) (f : TxFlit) (s : State) (hk : Kept kr s) : Kept kr (routeTx inPort f s) := by
  unfold routeTx
  repeat' first
    | with_reducible assumption
    | with_reducible apply gcount_kept
    | with_reducible apply reportFab_kept
    | with_reducible apply enqueueTx_kept
    | with_reducible apply holdTx_kept
    | split
    | dsimp only

theorem fabSend_kept {kr : State} (kind : BitVec 4) (dst : NodeId) (body : BitVec 144) (s : State) (hk : Kept kr s) : Kept kr (fabSend kind dst body s) := by
  unfold fabSend
  repeat' first
    | with_reducible assumption
    | with_reducible apply routeTx_kept
    | dsimp only

theorem fabSendOn_kept {kr : State} (p : FabPort) (kind : BitVec 4) (body : BitVec 144) (s : State) (hk : Kept kr s) : Kept kr (fabSendOn p kind body s) := by
  unfold fabSendOn
  repeat' first
    | with_reducible assumption
    | with_reducible apply enqueueTx_kept
    | dsimp only

theorem countNotice_kept {kr : State} (part : Option PartId) (s : State) (hk : Kept kr s) : Kept kr (countNotice part s) := by
  unfold countNotice
  repeat' first
    | with_reducible assumption
    | with_reducible apply count_kept
    | split
    | dsimp only

theorem snShow_kept {kr : State} (s : State) (hk : Kept kr s) : Kept kr (snShow s) := by
  unfold snShow
  repeat' first
    | with_reducible assumption
    | with_reducible apply State.modSn_kept
    | with_reducible apply Kept.ite
    | split
    | dsimp only

theorem snEnter_kept {kr : State} (n : Notice) (s : State) (hk : Kept kr s) : Kept kr (snEnter n s) := by
  unfold snEnter
  repeat' first
    | with_reducible assumption
    | with_reducible apply State.modSn_kept
    | with_reducible apply countNotice_kept
    | with_reducible apply snShow_kept
    | dsimp only

theorem snManage_kept {kr : State} (part : Option PartId) (ws : List DWord) (s : State) (hk : Kept kr s) : Kept kr (snManage part ws s) := by
  unfold snManage
  repeat' first
    | with_reducible assumption
    | with_reducible apply State.modSn_kept
    | with_reducible apply snEnter_kept
    | with_reducible apply Kept.ite
    | split
    | dsimp only

theorem snInherit_kept {kr : State} (part : PartId) (key : BitVec 44 × BitVec 20) (ws : List DWord) (s : State) (hk : Kept kr s) : Kept kr (snInherit part key ws s) := by
  unfold snInherit
  repeat' first
    | with_reducible assumption
    | with_reducible apply State.modSn_kept
    | with_reducible apply gcount_kept
    | with_reducible apply report_kept
    | with_reducible apply snEnter_kept
    | with_reducible apply Kept.ite
    | split
    | dsimp only

theorem sendInherit_kept {kr : State} (k : OKey) (l : Lock) (ended : Bool) (level : Prio) (wNode : NodeId) (wAgent : AgentId) (s : State) (hk : Kept kr s) : Kept kr (sendInherit k l ended level wNode wAgent s) := by
  unfold sendInherit
  repeat' first
    | with_reducible assumption
    | with_reducible apply fabSend_kept
    | with_reducible apply snInherit_kept
    | with_reducible apply Kept.ite
    | split
    | dsimp only

theorem snService_kept {kr : State} (w0 w1 : DWord) (s : State) (hk : Kept kr s) : Kept kr (snService w0 w1 s) := by
  unfold snService
  repeat' first
    | with_reducible assumption
    | with_reducible apply snManage_kept
    | dsimp only

theorem traceOp_kept {kr : State} (e : OpEntry) (code : Byte) (pay : DWord) (s : State) (hk : Kept kr s) : Kept kr (traceOp e code pay s) := by
  unfold traceOp
  repeat' first
    | with_reducible assumption
    | with_reducible apply traceRec_kept
    | with_reducible apply Kept.ite
    | split
    | dsimp only

theorem answer_kept {kr : State} (e : OpEntry) (code : Byte) (pay : DWord) (g : Option Grant) (s : State) (hk : Kept kr s) : Kept kr (answer e code pay g s) := by
  unfold answer
  repeat' first
    | with_reducible assumption
    | with_reducible apply count_kept
    | with_reducible apply report_kept
    | with_reducible apply freeOp_kept
    | with_reducible apply setOpSt_kept
    | with_reducible apply noteGrant_kept
    | with_reducible apply pushRsp_kept
    | with_reducible apply Kept.ite
    | split
    | dsimp only

theorem answerFreed_kept {kr : State} (e : OpEntry) (code : Byte) (pay : DWord) (s : State) (hk : Kept kr s) : Kept kr (answerFreed e code pay s) := by
  unfold answerFreed
  repeat' first
    | with_reducible assumption
    | with_reducible apply freeOp_kept
    | with_reducible apply pushRsp_kept
    | with_reducible apply Kept.ite
    | split
    | dsimp only

theorem finish_kept {kr : State} (e : OpEntry) (st : Status) (pay : DWord) (g : Option Grant) (s : State) (hk : Kept kr s) : Kept kr (finish e st pay g s) := by
  unfold finish
  repeat' first
    | with_reducible assumption
    | with_reducible apply count_kept
    | with_reducible apply countStatus_kept
    | with_reducible apply freeOp_kept
    | with_reducible apply fabSend_kept
    | with_reducible apply traceOp_kept
    | with_reducible apply answer_kept
    | with_reducible apply Kept.ite
    | split
    | dsimp only

theorem finishParked_kept {kr : State} (e : OpEntry) (s : State) (hk : Kept kr s) : Kept kr (finishParked e s) := by
  unfold finishParked
  repeat' first
    | with_reducible assumption
    | with_reducible apply count_kept
    | with_reducible apply freeOp_kept
    | with_reducible apply fabSend_kept
    | with_reducible apply traceOp_kept
    | split
    | dsimp only

theorem traceInner_kept {kr : State} (cls : Nat) (k : OKey) (op : Byte) (agent : AgentId) (node : NodeId) (s : State) (hk : Kept kr s) : Kept kr (traceInner cls k op agent node s) := by
  unfold traceInner
  repeat' first
    | with_reducible assumption
    | with_reducible apply traceRec_kept
    | dsimp only

theorem wakeOne_kept {kr : State} (w : Waiter) (code : Byte) (pay : DWord) (node : NodeId) (g : Option Grant) (cause : Cause) (s : State) (hk : Kept kr s) : Kept kr (wakeOne w code pay node g cause s) := by
  unfold wakeOne
  repeat' first
    | with_reducible assumption
    | with_reducible apply pushRsp_kept
    | dsimp only

theorem vecOpcode_kept {kr : State} (w : Waiter) (ws : List Waiter) (s : State) (hk : Kept kr s) : Kept kr (vecOpcode w ws s).2 := by
  unfold vecOpcode
  repeat' first
    | with_reducible assumption
    | with_reducible apply fresh_kept
    | (refine fresh_keptE _ ?_ (by with_reducible assumption))
    | with_reducible apply Kept.ite
    | split
    | dsimp only

theorem vecOpcode_keptE {kr : State} (w : Waiter) (ws : List Waiter) (s : State) {kv} {kt : State} (hk : Kept kr s) (he : vecOpcode w ws s = (kv, kt)) : Kept kr kt := by
  have h := vecOpcode_kept (kr := kr) w ws s hk
  rw [he] at h; exact h

theorem wakeSet_kept {kr : State} (ws : List Waiter) (code : Byte) (pay : DWord) (node : NodeId) (cause : Cause) (s : State) (hk : Kept kr s) : Kept kr (wakeSet ws code pay node cause s) := by
  unfold wakeSet
  repeat' first
    | with_reducible assumption
    | with_reducible apply pushRsp_kept
    | with_reducible apply wakeOne_kept
    | with_reducible apply vecOpcode_kept
    | (refine vecOpcode_keptE _ _ _ ?_ (by with_reducible assumption))
    | with_reducible apply Kept.ite
    | (with_reducible refine Kept.foldl (fun _ _ _ => ?_) ?_)
    | split
    | dsimp only

theorem wakeLocals_kept {kr : State} (ws : List Waiter) (code : Byte) (pay : DWord) (node : NodeId) (cause : Cause) (s : State) (hk : Kept kr s) : Kept kr (wakeLocals ws code pay node cause s) := by
  unfold wakeLocals
  repeat' first
    | with_reducible assumption
    | with_reducible apply wakeSet_kept
    | (with_reducible refine Kept.foldl (fun _ _ _ => ?_) ?_)
    | dsimp only

theorem sendWake_kept {kr : State} (w : Waiter) (st : Status) (pay : DWord) (g : Option Grant) (policy : BitVec 2) (cause : Cause) (s : State) (hk : Kept kr s) : Kept kr (sendWake w st pay g policy cause s) := by
  unfold sendWake
  repeat' first
    | with_reducible assumption
    | with_reducible apply fabSend_kept
    | with_reducible apply wakeOne_kept
    | with_reducible apply Kept.ite
    | split
    | dsimp only

theorem passWake_kept {kr : State} (w : Waiter) (st : Status) (pay : DWord) (g : Option Grant) (policy : BitVec 2) (cause : Cause) (s : State) (hk : Kept kr s) : Kept kr (passWake w st pay g policy cause s) := by
  unfold passWake
  repeat' first
    | with_reducible assumption
    | with_reducible apply State.modWmc_kept
    | with_reducible apply sendWake_kept
    | with_reducible apply Kept.ite
    | split
    | dsimp only

theorem wakeWaiter_kept {kr : State} (w : Waiter) (st : Status) (pay : DWord) (g : Option Grant) (policy : BitVec 2) (cause : Cause) (s : State) (hk : Kept kr s) : Kept kr (wakeWaiter w st pay g policy cause s) := by
  unfold wakeWaiter
  repeat' first
    | with_reducible assumption
    | with_reducible apply countStatus_kept
    | with_reducible apply passWake_kept
    | dsimp only

theorem wakeAll_kept {kr : State} (ws : List Waiter) (st : Status) (pay : DWord) (cause : Cause) (s : State) (hk : Kept kr s) : Kept kr (wakeAll ws st pay cause s) := by
  unfold wakeAll
  repeat' first
    | with_reducible assumption
    | with_reducible apply countStatus_kept
    | with_reducible apply wakeLocals_kept
    | with_reducible apply passWake_kept
    | with_reducible apply Kept.ite
    | (with_reducible refine Kept.foldl (fun _ _ _ => ?_) ?_)
    | split
    | dsimp only

theorem takeWaiters_kept {kr : State} (k : OKey) (q : Waiter → Bool) (s : State) (hk : Kept kr s) : Kept kr (takeWaiters k q s).2 := by
  unfold takeWaiters
  repeat' first
    | with_reducible assumption
    | with_reducible apply State.modWmc_kept
    | with_reducible apply syncHdr_kept
    | dsimp only

theorem takeWaiters_keptE {kr : State} (k : OKey) (q : Waiter → Bool) (s : State) {kv} {kt : State} (hk : Kept kr s) (he : takeWaiters k q s = (kv, kt)) : Kept kr kt := by
  have h := takeWaiters_kept (kr := kr) k q s hk
  rw [he] at h; exact h

end Sys2Proof.Machine
end

