-- ==== Sys2Proof/Laws/KeptObj.lean ====
section
/-! SUPPORT. Every effect defined in Locks, Counts, Rings, Reduce, Barriers, Tack, Defer, Posted, Landing, Packets keeps the relation of Laws/Kept. -/

namespace Sys2Proof.Machine

theorem addHolding_kept {kr : State} (agent : AgentId) (home : NodeId) (k : OKey) (s : State) (hk : Kept kr s) : Kept kr (addHolding agent home k s) := by
  unfold addHolding
  repeat' first
    | with_reducible assumption
    | with_reducible apply State.modOlu_kept
    | with_reducible apply report_kept
    | with_reducible apply Kept.ite
    | split
    | dsimp only

theorem delHolding_kept {kr : State} (agent : AgentId) (home : NodeId) (k : OKey) (s : State) (hk : Kept kr s) : Kept kr (delHolding agent home k s) := by
  unfold delHolding
  repeat' first
    | with_reducible assumption
    | with_reducible apply State.modOlu_kept
    | dsimp only

theorem addFence_kept {kr : State} (k : OKey) (node : NodeId) (agent : AgentId) (s : State) (hk : Kept kr s) : Kept kr (addFence k node agent s) := by
  unfold addFence
  repeat' first
    | with_reducible assumption
    | with_reducible apply State.modOlu_kept
    | with_reducible apply report_kept
    | with_reducible apply Kept.ite
    | split
    | dsimp only

theorem delFence_kept {kr : State} (q : Fence → Bool) (s : State) (hk : Kept kr s) : Kept kr (delFence q s) := by
  unfold delFence
  repeat' first
    | with_reducible assumption
    | with_reducible apply State.modOlu_kept
    | dsimp only

theorem delLease_kept {kr : State} (k : OKey) (s : State) (hk : Kept kr s) : Kept kr (delLease k s) := by
  unfold delLease
  repeat' first
    | with_reducible assumption
    | with_reducible apply State.modTdu_kept
    | dsimp only

theorem grantEffects_kept {kr : State} (k : OKey) (l : Lock) (t : Nat) (s : State) (hk : Kept kr s) : Kept kr (grantEffects k l t s) := by
  unfold grantEffects
  repeat' first
    | with_reducible assumption
    | with_reducible apply State.modTdu_kept
    | with_reducible apply count_kept
    | with_reducible apply addHolding_kept
    | with_reducible apply delFence_kept
    | with_reducible apply Kept.ite
    | split
    | dsimp only

theorem grantLock_kept {kr : State} (k : OKey) (l : Lock) (node : NodeId) (agent : AgentId) (prio : Prio) (t : Nat) (s : State) (hk : Kept kr s) : Kept kr (grantLock k l node agent prio t s) := by
  unfold grantLock
  repeat' first
    | with_reducible assumption
    | with_reducible apply State.setBody_kept
    | with_reducible apply grantEffects_kept
    | dsimp only

theorem handOver_kept {kr : State} (k : OKey) (l : Lock) (cause : Cause) (t : Nat) (s : State) (hk : Kept kr s) : Kept kr (handOver k l cause t s) := by
  unfold handOver
  repeat' first
    | with_reducible assumption
    | with_reducible apply State.setBody_kept
    | with_reducible apply unpark_kept
    | with_reducible apply wakeWaiter_kept
    | with_reducible apply grantLock_kept
    | split
    | dsimp only

theorem endHolding_kept {kr : State} (k : OKey) (l : Lock) (lastEnd : BitVec 2) (own : Bool) (cause : Cause) (t : Nat) (s : State) (hk : Kept kr s) : Kept kr (endHolding k l lastEnd own cause t s) := by
  unfold endHolding
  repeat' first
    | with_reducible assumption
    | with_reducible apply fabSend_kept
    | with_reducible apply sendInherit_kept
    | with_reducible apply delHolding_kept
    | with_reducible apply addFence_kept
    | with_reducible apply delLease_kept
    | with_reducible apply handOver_kept
    | with_reducible apply Kept.ite
    | split
    | dsimp only

theorem lowerInherit_kept {kr : State} (k : OKey) (s : State) (hk : Kept kr s) : Kept kr (lowerInherit k s) := by
  unfold lowerInherit
  repeat' first
    | with_reducible assumption
    | with_reducible apply State.setBody_kept
    | with_reducible apply sendInherit_kept
    | with_reducible apply Kept.ite
    | split
    | dsimp only

theorem lockOp_kept {kr : State} (e : OpEntry) (k : OKey) (l : Lock) (s : State) (hk : Kept kr s) : Kept kr (lockOp e k l s) := by
  unfold lockOp
  repeat' first
    | with_reducible assumption
    | with_reducible apply State.setBody_kept
    | with_reducible apply park_kept
    | with_reducible apply sendInherit_kept
    | with_reducible apply finish_kept
    | with_reducible apply finishParked_kept
    | with_reducible apply grantLock_kept
    | with_reducible apply Kept.ite
    | split
    | dsimp only

theorem tryLockOp_kept {kr : State} (e : OpEntry) (k : OKey) (l : Lock) (s : State) (hk : Kept kr s) : Kept kr (tryLockOp e k l s) := by
  unfold tryLockOp
  repeat' first
    | with_reducible assumption
    | with_reducible apply finish_kept
    | with_reducible apply grantLock_kept
    | with_reducible apply Kept.ite
    | split
    | dsimp only

theorem unlockOp_kept {kr : State} (e : OpEntry) (k : OKey) (l : Lock) (s : State) (hk : Kept kr s) : Kept kr (unlockOp e k l s) := by
  unfold unlockOp
  repeat' first
    | with_reducible assumption
    | with_reducible apply count_kept
    | with_reducible apply finish_kept
    | with_reducible apply delFence_kept
    | with_reducible apply endHolding_kept
    | with_reducible apply Kept.ite
    | split
    | dsimp only

theorem claimIdOp_kept {kr : State} (e : OpEntry) (k : OKey) (l : Lock) (s : State) (hk : Kept kr s) : Kept kr (claimIdOp e k l s) := by
  unfold claimIdOp
  repeat' first
    | with_reducible assumption
    | with_reducible apply finish_kept
    | with_reducible apply grantLock_kept
    | with_reducible apply Kept.ite
    | split
    | dsimp only

theorem claimReadOp_kept {kr : State} (e : OpEntry) (l : Lock) (s : State) (hk : Kept kr s) : Kept kr (claimReadOp e l s) := by
  unfold claimReadOp
  repeat' first
    | with_reducible assumption
    | with_reducible apply finish_kept
    | dsimp only

theorem abandonLock_kept {kr : State} (k : OKey) (node : NodeId) (agent : AgentId) (seq : BitVec 36) (t : Nat) (s : State) (hk : Kept kr s) : Kept kr (abandonLock k node agent seq t s) := by
  unfold abandonLock
  repeat' first
    | with_reducible assumption
    | with_reducible apply endHolding_kept
    | with_reducible apply Kept.ite
    | split
    | dsimp only

theorem expireLease_kept {kr : State} (k : OKey) (seq : Nat) (s : State) (hk : Kept kr s) : Kept kr (expireLease k seq s) := by
  unfold expireLease
  repeat' first
    | with_reducible assumption
    | with_reducible apply traceInner_kept
    | with_reducible apply endHolding_kept
    | with_reducible apply Kept.ite
    | split
    | dsimp only

theorem grantLoop_kept {kr : State} (k : OKey) (cause : Cause) (n : Nat) : ∀ (s : State), Kept kr s → Kept kr (grantLoop k cause n s) := by
  induction n with
  | zero => intro s hk; unfold grantLoop; exact hk
  | succ n ih =>
    intro s hk
    unfold grantLoop
    repeat' first
      | with_reducible assumption
      | with_reducible apply ih
      | with_reducible apply count_kept
      | with_reducible apply State.setBody_kept
      | with_reducible apply unpark_kept
      | with_reducible apply wakeWaiter_kept
      | with_reducible apply Kept.ite
      | split
      | dsimp only

theorem runGrants_kept {kr : State} (k : OKey) (cause : Cause) (s : State) (hk : Kept kr s) : Kept kr (runGrants k cause s) := by
  unfold runGrants
  repeat' first
    | with_reducible assumption
    | with_reducible apply grantLoop_kept
    | dsimp only

theorem takeOp_kept {kr : State} (e : OpEntry) (k : OKey) (v : Sem) (s : State) (hk : Kept kr s) : Kept kr (takeOp e k v s) := by
  unfold takeOp
  repeat' first
    | with_reducible assumption
    | with_reducible apply count_kept
    | with_reducible apply State.setBody_kept
    | with_reducible apply park_kept
    | with_reducible apply finish_kept
    | with_reducible apply finishParked_kept
    | with_reducible apply Kept.ite
    | split
    | dsimp only

theorem tryTakeOp_kept {kr : State} (e : OpEntry) (k : OKey) (v : Sem) (s : State) (hk : Kept kr s) : Kept kr (tryTakeOp e k v s) := by
  unfold tryTakeOp
  repeat' first
    | with_reducible assumption
    | with_reducible apply count_kept
    | with_reducible apply State.setBody_kept
    | with_reducible apply finish_kept
    | with_reducible apply Kept.ite
    | split
    | dsimp only

theorem giveUnits_kept {kr : State} (k : OKey) (v : Sem) (c : DWord) (cause : Cause) (s : State) (hk : Kept kr s) : Kept kr (giveUnits k v c cause s) := by
  unfold giveUnits
  repeat' first
    | with_reducible assumption
    | with_reducible apply State.setBody_kept
    | with_reducible apply runGrants_kept
    | dsimp only

theorem giveOp_kept {kr : State} (e : OpEntry) (k : OKey) (v : Sem) (s : State) (hk : Kept kr s) : Kept kr (giveOp e k v s) := by
  unfold giveOp
  repeat' first
    | with_reducible assumption
    | with_reducible apply count_kept
    | with_reducible apply finish_kept
    | with_reducible apply giveUnits_kept
    | with_reducible apply Kept.ite
    | split
    | dsimp only

theorem setEvent_kept {kr : State} (k : OKey) (v : Event) (agent : AgentId) (node : NodeId) (cause : Cause) (stamp : DWord) (s : State) (hk : Kept kr s) : Kept kr (setEvent k v agent node cause stamp s) := by
  unfold setEvent
  repeat' first
    | with_reducible assumption
    | with_reducible apply State.setBody_kept
    | with_reducible apply wakeAll_kept
    | with_reducible apply takeWaiters_kept
    | (refine takeWaiters_keptE _ _ _ ?_ (by with_reducible assumption))
    | with_reducible apply Kept.ite
    | split
    | dsimp only

theorem signalOp_kept {kr : State} (e : OpEntry) (k : OKey) (v : Event) (s : State) (hk : Kept kr s) : Kept kr (signalOp e k v s) := by
  unfold signalOp
  repeat' first
    | with_reducible assumption
    | with_reducible apply count_kept
    | with_reducible apply finish_kept
    | with_reducible apply setEvent_kept
    | dsimp only

theorem parkWait_kept {kr : State} (e : OpEntry) (k : OKey) (parity : Bool) (s : State) (hk : Kept kr s) : Kept kr (parkWait e k parity s) := by
  unfold parkWait
  repeat' first
    | with_reducible assumption
    | with_reducible apply park_kept
    | with_reducible apply finishParked_kept
    | with_reducible apply Kept.ite
    | split
    | dsimp only

theorem waitEventOp_kept {kr : State} (e : OpEntry) (k : OKey) (v : Event) (s : State) (hk : Kept kr s) : Kept kr (waitEventOp e k v s) := by
  unfold waitEventOp
  repeat' first
    | with_reducible assumption
    | with_reducible apply count_kept
    | with_reducible apply finish_kept
    | with_reducible apply parkWait_kept
    | with_reducible apply Kept.ite
    | split
    | dsimp only

theorem casOp_kept {kr : State} (e : OpEntry) (k : OKey) (c : Cell) (s : State) (hk : Kept kr s) : Kept kr (casOp e k c s) := by
  unfold casOp
  repeat' first
    | with_reducible assumption
    | with_reducible apply count_kept
    | with_reducible apply State.setBody_kept
    | with_reducible apply finish_kept
    | with_reducible apply Kept.ite
    | split
    | dsimp only

theorem fetchAddOp_kept {kr : State} (e : OpEntry) (k : OKey) (c : Cell) (s : State) (hk : Kept kr s) : Kept kr (fetchAddOp e k c s) := by
  unfold fetchAddOp
  repeat' first
    | with_reducible assumption
    | with_reducible apply count_kept
    | with_reducible apply State.setBody_kept
    | with_reducible apply finish_kept
    | dsimp only

theorem afterRemoval_kept {kr : State} (k : OKey) (s : State) (hk : Kept kr s) : Kept kr (afterRemoval k s) := by
  unfold afterRemoval
  repeat' first
    | with_reducible assumption
    | with_reducible apply lowerInherit_kept
    | with_reducible apply runGrants_kept
    | split
    | dsimp only

theorem wakeConsumers_kept {kr : State} (k : OKey) (i : Nat) (cause : Cause) (s : State) (hk : Kept kr s) : Kept kr (wakeConsumers k i cause s) := by
  unfold wakeConsumers
  repeat' first
    | with_reducible assumption
    | with_reducible apply wakeAll_kept
    | with_reducible apply takeWaiters_kept
    | (refine takeWaiters_keptE _ _ _ ?_ (by with_reducible assumption))
    | split
    | dsimp only

theorem producerLoop_kept {kr : State} (k : OKey) (i : Nat) (cause : Cause) (n : Nat) : ∀ (s : State), Kept kr s → Kept kr (producerLoop k i cause n s) := by
  induction n with
  | zero => intro s hk; unfold producerLoop; exact hk
  | succ n ih =>
    intro s hk
    unfold producerLoop
    repeat' first
      | with_reducible assumption
      | with_reducible apply ih
      | with_reducible apply count_kept
      | with_reducible apply unpark_kept
      | with_reducible apply State.setDesc_kept
      | with_reducible apply wakeWaiter_kept
      | with_reducible apply Kept.ite
      | split
      | dsimp only

theorem runProducers_kept {kr : State} (k : OKey) (i : Nat) (cause : Cause) (s : State) (hk : Kept kr s) : Kept kr (runProducers k i cause s) := by
  unfold runProducers
  repeat' first
    | with_reducible assumption
    | with_reducible apply producerLoop_kept
    | with_reducible apply Kept.ite
    | split
    | dsimp only

theorem closeWindow_kept {kr : State} (k : OKey) (i : Nat) (s : State) (hk : Kept kr s) : Kept kr (closeWindow k i s) := by
  unfold closeWindow
  repeat' first
    | with_reducible assumption
    | with_reducible apply State.setBody_kept
    | with_reducible apply State.setDesc_kept
    | with_reducible apply Kept.ite
    | split
    | dsimp only

theorem closeAt_kept {kr : State} (k : OKey) (s : State) (hk : Kept kr s) : Kept kr (closeAt k s) := by
  unfold closeAt
  repeat' first
    | with_reducible assumption
    | with_reducible apply closeWindow_kept
    | split
    | dsimp only

theorem reserveOp_kept {kr : State} (e : OpEntry) (k : OKey) (i : Nat) (d : Desc) (s : State) (hk : Kept kr s) : Kept kr (reserveOp e k i d s) := by
  unfold reserveOp
  repeat' first
    | with_reducible assumption
    | with_reducible apply count_kept
    | with_reducible apply park_kept
    | with_reducible apply State.setDesc_kept
    | with_reducible apply finish_kept
    | with_reducible apply finishParked_kept
    | with_reducible apply Kept.ite
    | split
    | dsimp only

theorem commitRsv_kept {kr : State} (k : OKey) (i : Nat) (r : Rsv) (cause : Cause) (s : State) (hk : Kept kr s) : Kept kr (commitRsv k i r cause s) := by
  unfold commitRsv
  repeat' first
    | with_reducible assumption
    | with_reducible apply count_kept
    | with_reducible apply State.setDesc_kept
    | with_reducible apply wakeConsumers_kept
    | with_reducible apply runProducers_kept
    | with_reducible apply closeWindow_kept
    | with_reducible apply Kept.ite
    | split
    | dsimp only

theorem addHeld_kept {kr : State} (h : Held) (s : State) (hk : Kept kr s) : Kept kr (addHeld h s) := by
  unfold addHeld
  repeat' first
    | with_reducible assumption
    | with_reducible apply State.modLcu_kept
    | with_reducible apply syncHdr_kept
    | dsimp only

theorem commitOp_kept {kr : State} (e : OpEntry) (k : OKey) (i : Nat) (d : Desc) (s : State) (hk : Kept kr s) : Kept kr (commitOp e k i d s) := by
  unfold commitOp
  repeat' first
    | with_reducible assumption
    | with_reducible apply State.setBody_kept
    | with_reducible apply finish_kept
    | with_reducible apply commitRsv_kept
    | with_reducible apply addHeld_kept
    | with_reducible apply Kept.ite
    | split
    | dsimp only

theorem waitAvailOp_kept {kr : State} (e : OpEntry) (k : OKey) (d : Desc) (s : State) (hk : Kept kr s) : Kept kr (waitAvailOp e k d s) := by
  unfold waitAvailOp
  repeat' first
    | with_reducible assumption
    | with_reducible apply count_kept
    | with_reducible apply park_kept
    | with_reducible apply finish_kept
    | with_reducible apply finishParked_kept
    | with_reducible apply Kept.ite
    | split
    | dsimp only

theorem releaseOp_kept {kr : State} (e : OpEntry) (k : OKey) (i : Nat) (d : Desc) (s : State) (hk : Kept kr s) : Kept kr (releaseOp e k i d s) := by
  unfold releaseOp
  repeat' first
    | with_reducible assumption
    | with_reducible apply count_kept
    | with_reducible apply State.setDesc_kept
    | with_reducible apply finish_kept
    | with_reducible apply wakeConsumers_kept
    | with_reducible apply runProducers_kept
    | with_reducible apply closeWindow_kept
    | with_reducible apply Kept.ite
    | split
    | dsimp only

theorem cancelRsv_kept {kr : State} (k : OKey) (h : DWord) (cause : Cause) (s : State) (hk : Kept kr s) : Kept kr (cancelRsv k h cause s) := by
  unfold cancelRsv
  repeat' first
    | with_reducible assumption
    | with_reducible apply State.setDesc_kept
    | with_reducible apply wakeConsumers_kept
    | with_reducible apply runProducers_kept
    | with_reducible apply closeWindow_kept
    | with_reducible apply Kept.ite
    | split
    | dsimp only

theorem ringAfterRemoval_kept {kr : State} (k : OKey) (s : State) (hk : Kept kr s) : Kept kr (ringAfterRemoval k s) := by
  unfold ringAfterRemoval
  repeat' first
    | with_reducible assumption
    | with_reducible apply runProducers_kept
    | split
    | dsimp only

theorem afterLeaving_kept {kr : State} (k : OKey) (prod : Bool) (s : State) (hk : Kept kr s) : Kept kr (afterLeaving k prod s) := by
  unfold afterLeaving
  repeat' first
    | with_reducible assumption
    | with_reducible apply afterRemoval_kept
    | with_reducible apply ringAfterRemoval_kept
    | with_reducible apply Kept.ite
    | split
    | dsimp only

theorem dumpRequest_kept {kr : State} (k : OKey) (held part' : Bool) (epoch : BitVec 16) (tag : Word) (miss cnt : BitVec 16) (value : Option DWord) (s : State) (hk : Kept kr s) : Kept kr (dumpRequest k held part' epoch tag miss cnt value s).2 := by
  unfold dumpRequest
  repeat' first
    | with_reducible assumption
    | with_reducible apply State.modPart_kept
    | with_reducible apply snManage_kept
    | dsimp only

theorem dumpRequest_keptE {kr : State} (k : OKey) (held part' : Bool) (epoch : BitVec 16) (tag : Word) (miss cnt : BitVec 16) (value : Option DWord) (s : State) {kv} {kt : State} (hk : Kept kr s) (he : dumpRequest k held part' epoch tag miss cnt value s = (kv, kt)) : Kept kr kt := by
  have h := dumpRequest_kept (kr := kr) k held part' epoch tag miss cnt value s hk
  rw [he] at h; exact h

theorem endWatch_kept {kr : State} (k : OKey) (s : State) (hk : Kept kr s) : Kept kr (endWatch k s) := by
  unfold endWatch
  repeat' first
    | with_reducible assumption
    | with_reducible apply State.modObs_kept
    | with_reducible apply State.modHdr_kept
    | dsimp only

theorem sendTreeRel_kept {kr : State} (id : AgentId) (t : Tree) (epoch : BitVec 16) (st : Byte) (v : DWord) (s : State) (hk : Kept kr s) : Kept kr (sendTreeRel id t epoch st v s) := by
  unfold sendTreeRel
  repeat' first
    | with_reducible assumption
    | with_reducible apply fabSend_kept
    | with_reducible apply Kept.ite
    | (with_reducible refine Kept.foldl (fun _ _ _ => ?_) ?_)
    | split
    | dsimp only

theorem delDeadline_kept {kr : State} (k : OKey) (epoch : BitVec 16) (s : State) (hk : Kept kr s) : Kept kr (delDeadline k epoch s) := by
  unfold delDeadline
  repeat' first
    | with_reducible assumption
    | with_reducible apply State.modTdu_kept
    | dsimp only

theorem releaseBarrier_kept {kr : State} (k : OKey) (b : Barrier) (part : Bool) (res : DWord) (cause : Cause) (s : State) (hk : Kept kr s) : Kept kr (releaseBarrier k b part res cause s) := by
  unfold releaseBarrier
  repeat' first
    | with_reducible assumption
    | with_reducible apply State.setTree_kept
    | with_reducible apply count_kept
    | with_reducible apply State.setBody_kept
    | with_reducible apply setRecord_kept
    | with_reducible apply dropEarly_kept
    | with_reducible apply wakeAll_kept
    | with_reducible apply takeWaiters_kept
    | (refine takeWaiters_keptE _ _ _ ?_ (by with_reducible assumption))
    | with_reducible apply dumpRequest_kept
    | (refine dumpRequest_keptE _ _ _ _ _ _ _ _ _ ?_ (by with_reducible assumption))
    | with_reducible apply endWatch_kept
    | with_reducible apply sendTreeRel_kept
    | with_reducible apply delDeadline_kept
    | with_reducible apply Kept.ite
    | split
    | dsimp only

theorem releaseGroup_kept {kr : State} (k : OKey) (g : Group) (cause : Cause) (s : State) (hk : Kept kr s) : Kept kr (releaseGroup k g cause s) := by
  unfold releaseGroup
  repeat' first
    | with_reducible assumption
    | with_reducible apply count_kept
    | with_reducible apply State.setBody_kept
    | with_reducible apply wakeAll_kept
    | with_reducible apply takeWaiters_kept
    | (refine takeWaiters_keptE _ _ _ ?_ (by with_reducible assumption))
    | with_reducible apply dumpRequest_kept
    | (refine dumpRequest_keptE _ _ _ _ _ _ _ _ _ ?_ (by with_reducible assumption))
    | with_reducible apply endWatch_kept
    | with_reducible apply Kept.ite
    | split
    | dsimp only

theorem sendCombine_kept {kr : State} (id : AgentId) (t : Tree) (b : Barrier) (s : State) (hk : Kept kr s) : Kept kr (sendCombine id t b s) := by
  unfold sendCombine
  repeat' first
    | with_reducible assumption
    | with_reducible apply fabSend_kept
    | dsimp only

theorem completeOpen_kept {kr : State} (k : OKey) (b : Barrier) (res : DWord) (cause : Cause) (tree : Option (AgentId × Tree)) (s : State) (hk : Kept kr s) : Kept kr (completeOpen k b res cause tree s).2 := by
  unfold completeOpen
  repeat' first
    | with_reducible assumption
    | with_reducible apply State.setTree_kept
    | with_reducible apply releaseBarrier_kept
    | with_reducible apply Kept.ite
    | split
    | dsimp only

theorem completeOpen_keptE {kr : State} (k : OKey) (b : Barrier) (res : DWord) (cause : Cause) (tree : Option (AgentId × Tree)) (s : State) {kv} {kt : State} (hk : Kept kr s) (he : completeOpen k b res cause tree s = (kv, kt)) : Kept kr kt := by
  have h := completeOpen_kept (kr := kr) k b res cause tree s hk
  rw [he] at h; exact h

theorem completeHold_kept {kr : State} (k : OKey) (b : Barrier) (cause : Cause) (tree : Option (AgentId × Tree)) (s : State) (hk : Kept kr s) : Kept kr (completeHold k b cause tree s).2 := by
  unfold completeHold
  repeat' first
    | with_reducible assumption
    | with_reducible apply State.modObs_kept
    | with_reducible apply State.setBody_kept
    | with_reducible apply dumpRequest_kept
    | (refine dumpRequest_keptE _ _ _ _ _ _ _ _ _ ?_ (by with_reducible assumption))
    | with_reducible apply completeOpen_kept
    | (refine completeOpen_keptE _ _ _ _ _ _ ?_ (by with_reducible assumption))
    | with_reducible apply Kept.ite
    | split
    | dsimp only

theorem completeHold_keptE {kr : State} (k : OKey) (b : Barrier) (cause : Cause) (tree : Option (AgentId × Tree)) (s : State) {kv} {kt : State} (hk : Kept kr s) (he : completeHold k b cause tree s = (kv, kt)) : Kept kr kt := by
  have h := completeHold_kept (kr := kr) k b cause tree s hk
  rw [he] at h; exact h

theorem completeBarrier_kept {kr : State} (k : OKey) (b : Barrier) (cause : Cause) (s : State) (hk : Kept kr s) : Kept kr (completeBarrier k b cause s).2 := by
  unfold completeBarrier
  repeat' first
    | with_reducible assumption
    | with_reducible apply State.setTree_kept
    | with_reducible apply sendCombine_kept
    | with_reducible apply completeHold_kept
    | (refine completeHold_keptE _ _ _ _ _ ?_ (by with_reducible assumption))
    | with_reducible apply Kept.ite
    | split
    | dsimp only

theorem completeBarrier_keptE {kr : State} (k : OKey) (b : Barrier) (cause : Cause) (s : State) {kv} {kt : State} (hk : Kept kr s) (he : completeBarrier k b cause s = (kv, kt)) : Kept kr kt := by
  have h := completeBarrier_kept (kr := kr) k b cause s hk
  rw [he] at h; exact h

theorem countArrival_kept {kr : State} (e : OpEntry) (s : State) (hk : Kept kr s) : Kept kr (countArrival e s) := by
  unfold countArrival
  repeat' first
    | with_reducible assumption
    | with_reducible apply count_kept
    | with_reducible apply Kept.ite
    | split
    | dsimp only

theorem countFold_kept {kr : State} (e : OpEntry) (b : Barrier) (valid : Bool) (acc : DWord) (s : State) (hk : Kept kr s) : Kept kr (countFold e b valid acc s) := by
  unfold countFold
  repeat' first
    | with_reducible assumption
    | with_reducible apply count_kept
    | with_reducible apply Kept.ite
    | split
    | dsimp only

theorem arriveCurrent_kept {kr : State} (e : OpEntry) (k : OKey) (b : Barrier) (s : State) (hk : Kept kr s) : Kept kr (arriveCurrent e k b s) := by
  unfold arriveCurrent
  repeat' first
    | with_reducible assumption
    | with_reducible apply State.setBody_kept
    | with_reducible apply setRecord_kept
    | with_reducible apply finish_kept
    | with_reducible apply parkWait_kept
    | with_reducible apply completeBarrier_kept
    | (refine completeBarrier_keptE _ _ _ _ ?_ (by with_reducible assumption))
    | with_reducible apply countArrival_kept
    | with_reducible apply countFold_kept
    | with_reducible apply Kept.ite
    | split
    | dsimp only

theorem arriveEarly_kept {kr : State} (e : OpEntry) (k : OKey) (b : Barrier) (s : State) (hk : Kept kr s) : Kept kr (arriveEarly e k b s) := by
  unfold arriveEarly
  repeat' first
    | with_reducible assumption
    | with_reducible apply State.setBody_kept
    | with_reducible apply setRecord_kept
    | with_reducible apply setEarly_kept
    | with_reducible apply finish_kept
    | with_reducible apply parkWait_kept
    | with_reducible apply countArrival_kept
    | with_reducible apply countFold_kept
    | with_reducible apply Kept.ite
    | split
    | dsimp only

theorem arriveLate_kept {kr : State} (e : OpEntry) (b : Barrier) (s : State) (hk : Kept kr s) : Kept kr (arriveLate e b s) := by
  unfold arriveLate
  repeat' first
    | with_reducible assumption
    | with_reducible apply finish_kept
    | with_reducible apply countArrival_kept
    | with_reducible apply Kept.ite
    | split
    | dsimp only

theorem arriveBarrier_kept {kr : State} (e : OpEntry) (k : OKey) (h : ObjHdr) (b : Barrier) (s : State) (hk : Kept kr s) : Kept kr (arriveBarrier e k h b s) := by
  unfold arriveBarrier
  repeat' first
    | with_reducible assumption
    | with_reducible apply finish_kept
    | with_reducible apply arriveCurrent_kept
    | with_reducible apply arriveEarly_kept
    | with_reducible apply arriveLate_kept
    | with_reducible apply Kept.ite
    | split
    | dsimp only

theorem arriveGroup_kept {kr : State} (e : OpEntry) (k : OKey) (g : Group) (s : State) (hk : Kept kr s) : Kept kr (arriveGroup e k g s) := by
  unfold arriveGroup
  repeat' first
    | with_reducible assumption
    | with_reducible apply State.setBody_kept
    | with_reducible apply finish_kept
    | with_reducible apply parkWait_kept
    | with_reducible apply releaseGroup_kept
    | with_reducible apply countArrival_kept
    | with_reducible apply Kept.ite
    | split
    | dsimp only

theorem waitBarrierOp_kept {kr : State} (e : OpEntry) (k : OKey) (b : Barrier) (s : State) (hk : Kept kr s) : Kept kr (waitBarrierOp e k b s) := by
  unfold waitBarrierOp
  repeat' first
    | with_reducible assumption
    | with_reducible apply count_kept
    | with_reducible apply finish_kept
    | with_reducible apply parkWait_kept
    | with_reducible apply Kept.ite
    | split
    | dsimp only

theorem waitGroupOp_kept {kr : State} (e : OpEntry) (k : OKey) (g : Group) (s : State) (hk : Kept kr s) : Kept kr (waitGroupOp e k g s) := by
  unfold waitGroupOp
  repeat' first
    | with_reducible assumption
    | with_reducible apply count_kept
    | with_reducible apply finish_kept
    | with_reducible apply parkWait_kept
    | with_reducible apply Kept.ite
    | split
    | dsimp only

theorem readMissingOp_kept {kr : State} (e : OpEntry) (k : OKey) (o : Obj) (s : State) (hk : Kept kr s) : Kept kr (readMissingOp e k o s) := by
  unfold readMissingOp
  repeat' first
    | with_reducible assumption
    | with_reducible apply count_kept
    | with_reducible apply finish_kept
    | with_reducible apply Kept.ite
    | split
    | dsimp only

theorem deadlineArmOp_kept {kr : State} (e : OpEntry) (k : OKey) (h : ObjHdr) (b : Barrier) (s : State) (hk : Kept kr s) : Kept kr (deadlineArmOp e k h b s) := by
  unfold deadlineArmOp
  repeat' first
    | with_reducible assumption
    | with_reducible apply State.modTdu_kept
    | with_reducible apply State.setBody_kept
    | with_reducible apply finish_kept
    | with_reducible apply delDeadline_kept
    | with_reducible apply Kept.ite
    | split
    | dsimp only

theorem expireDeadline_kept {kr : State} (k : OKey) (epoch : Nat) (s : State) (hk : Kept kr s) : Kept kr (expireDeadline k epoch s) := by
  unfold expireDeadline
  repeat' first
    | with_reducible assumption
    | with_reducible apply State.modTdu_kept
    | with_reducible apply traceInner_kept
    | with_reducible apply delDeadline_kept
    | with_reducible apply releaseBarrier_kept
    | with_reducible apply Kept.ite
    | split
    | dsimp only

theorem combineFlit_kept {kr : State} (id : AgentId) (src : NodeId) (epoch : BitVec 16) (slot : BitVec 3) (valid : Bool) (a : DWord) (s : State) (hk : Kept kr s) : Kept kr (combineFlit id src epoch slot valid a s) := by
  unfold combineFlit
  repeat' first
    | with_reducible assumption
    | with_reducible apply State.setTree_kept
    | with_reducible apply count_kept
    | with_reducible apply gcount_kept
    | with_reducible apply State.setBody_kept
    | with_reducible apply completeBarrier_kept
    | (refine completeBarrier_keptE _ _ _ _ ?_ (by with_reducible assumption))
    | with_reducible apply Kept.ite
    | split
    | dsimp only

theorem treeRelFlit_kept {kr : State} (id : AgentId) (src : NodeId) (epoch : BitVec 16) (st : Byte) (v : DWord) (s : State) (hk : Kept kr s) : Kept kr (treeRelFlit id src epoch st v s) := by
  unfold treeRelFlit
  repeat' first
    | with_reducible assumption
    | with_reducible apply gcount_kept
    | with_reducible apply State.setBody_kept
    | with_reducible apply releaseBarrier_kept
    | with_reducible apply Kept.ite
    | split
    | dsimp only

theorem clearHoldStitch_kept {kr : State} (id : AgentId) (s : State) (hk : Kept kr s) : Kept kr (clearHoldStitch id s) := by
  unfold clearHoldStitch
  repeat' first
    | with_reducible assumption
    | with_reducible apply State.setTree_kept
    | with_reducible apply releaseBarrier_kept
    | split
    | dsimp only

theorem releaseWatched_kept {kr : State} (k : OKey) (s : State) (hk : Kept kr s) : Kept kr (releaseWatched k s) := by
  unfold releaseWatched
  repeat' first
    | with_reducible assumption
    | with_reducible apply endWatch_kept
    | with_reducible apply completeBarrier_kept
    | (refine completeBarrier_keptE _ _ _ _ ?_ (by with_reducible assumption))
    | with_reducible apply Kept.ite
    | split
    | dsimp only

theorem writeTack_kept {kr : State} (r : TackRec) (s : State) (hk : Kept kr s) : Kept kr (writeTack r s) := by
  unfold writeTack
  repeat' first
    | with_reducible assumption
    | with_reducible apply mmWrite_kept
    | dsimp only

theorem zeroTack_kept {kr : State} (r : TackRec) (s : State) (hk : Kept kr s) : Kept kr (zeroTack r s) := by
  unfold zeroTack
  repeat' first
    | with_reducible assumption
    | with_reducible apply mmRequest_kept
    | with_reducible apply memZero_kept
    | dsimp only

theorem modTack_kept {kr : State} (p : PartId) (c : CtxId) (f : TackRec → TackRec) (s : State) (hk : Kept kr s) : Kept kr (modTack p c f s) := by
  unfold modTack
  repeat' first
    | with_reducible assumption
    | with_reducible apply State.modCtm_kept
    | dsimp only

theorem deferWork_kept {kr : State} (kind : Byte) (k : OKey) (agent : AgentId) (node : NodeId) (value time : DWord) (s : State) (hk : Kept kr s) : Kept kr (deferWork kind k agent node value time s) := by
  unfold deferWork
  repeat' first
    | with_reducible assumption
    | with_reducible apply writeTack_kept
    | with_reducible apply modTack_kept
    | with_reducible apply Kept.ite
    | split
    | dsimp only

theorem afterLeave_kept {kr : State} (k : OKey) (prod : Bool) (s : State) (hk : Kept kr s) : Kept kr (afterLeave k prod s) := by
  unfold afterLeave
  repeat' first
    | with_reducible assumption
    | with_reducible apply afterLeaving_kept
    | with_reducible apply deferWork_kept
    | with_reducible apply Kept.ite
    | split
    | dsimp only

theorem abandonAt_kept {kr : State} (k : OKey) (node : NodeId) (agent : AgentId) (seq : BitVec 36) (s : State) (hk : Kept kr s) : Kept kr (abandonAt k node agent seq s) := by
  unfold abandonAt
  repeat' first
    | with_reducible assumption
    | with_reducible apply abandonLock_kept
    | with_reducible apply deferWork_kept
    | with_reducible apply Kept.ite
    | split
    | dsimp only

theorem cancelAt_kept {kr : State} (k : OKey) (h : DWord) (cause : Cause) (s : State) (hk : Kept kr s) : Kept kr (cancelAt k h cause s) := by
  unfold cancelAt
  repeat' first
    | with_reducible assumption
    | with_reducible apply cancelRsv_kept
    | with_reducible apply deferWork_kept
    | with_reducible apply Kept.ite
    | split
    | dsimp only

theorem undoGive_kept {kr : State} (k : OKey) (units : DWord) (s : State) (hk : Kept kr s) : Kept kr (undoGive k units s) := by
  unfold undoGive
  repeat' first
    | with_reducible assumption
    | with_reducible apply count_kept
    | with_reducible apply giveUnits_kept
    | with_reducible apply deferWork_kept
    | with_reducible apply Kept.ite
    | split
    | dsimp only

theorem wakeBank_kept {kr : State} (b : Nat) (s : State) (hk : Kept kr s) : Kept kr (wakeBank b s) := by
  unfold wakeBank
  repeat' first
    | with_reducible assumption
    | with_reducible apply State.modObk_kept
    | with_reducible apply Kept.ite
    | split
    | dsimp only

theorem wakeSlot_kept {kr : State} (k : OKey) (s : State) (hk : Kept kr s) : Kept kr (wakeSlot k s) := by
  unfold wakeSlot
  repeat' first
    | with_reducible assumption
    | with_reducible apply wakeBank_kept
    | with_reducible apply Kept.ite
    | split
    | dsimp only

theorem fetchFor_kept {kr : State} (op : Op) (k : OKey) (s : State) (hk : Kept kr s) : Kept kr (fetchFor op k s) := by
  unfold fetchFor
  repeat' first
    | with_reducible assumption
    | with_reducible apply State.modWmc_kept
    | with_reducible apply Kept.ite
    | split
    | dsimp only

theorem askFor_kept {kr : State} (k : OKey) (s : State) (hk : Kept kr s) : Kept kr (askFor k s) := by
  unfold askFor
  repeat' first
    | with_reducible assumption
    | with_reducible apply wakeSlot_kept
    | with_reducible apply fetchFor_kept
    | dsimp only

theorem expireDeadlineAt_kept {kr : State} (d : Due) (s : State) (hk : Kept kr s) : Kept kr (expireDeadlineAt d s) := by
  unfold expireDeadlineAt
  repeat' first
    | with_reducible assumption
    | with_reducible apply State.modTdu_kept
    | with_reducible apply expireDeadline_kept
    | with_reducible apply deferWork_kept
    | with_reducible apply Kept.ite
    | split
    | dsimp only

theorem expireLeaseAt_kept {kr : State} (d : Due) (s : State) (hk : Kept kr s) : Kept kr (expireLeaseAt d s) := by
  unfold expireLeaseAt
  repeat' first
    | with_reducible assumption
    | with_reducible apply State.modTdu_kept
    | with_reducible apply expireLease_kept
    | with_reducible apply deferWork_kept
    | with_reducible apply Kept.ite
    | split
    | dsimp only

theorem secUp_kept {kr : State} (p : PartId) (s : State) (hk : Kept kr s) : Kept kr (secUp p s) := by
  unfold secUp
  repeat' first
    | with_reducible assumption
    | with_reducible apply State.modPart_kept
    | dsimp only

theorem secDown_kept {kr : State} (p : PartId) (s : State) (hk : Kept kr s) : Kept kr (secDown p s) := by
  unfold secDown
  repeat' first
    | with_reducible assumption
    | with_reducible apply State.modPart_kept
    | dsimp only

theorem landExpectOp_kept {kr : State} (e : OpEntry) (k : OKey) (l : Landing) (s : State) (hk : Kept kr s) : Kept kr (landExpectOp e k l s) := by
  unfold landExpectOp
  repeat' first
    | with_reducible assumption
    | with_reducible apply State.modLcu_kept
    | with_reducible apply count_kept
    | with_reducible apply report_kept
    | with_reducible apply State.setBody_kept
    | with_reducible apply finish_kept
    | with_reducible apply secUp_kept
    | with_reducible apply Kept.ite
    | split
    | dsimp only

theorem handToLcu_kept {kr : State} (e : OpEntry) (s : State) (hk : Kept kr s) : Kept kr (handToLcu e s) := by
  unfold handToLcu
  repeat' first
    | with_reducible assumption
    | with_reducible apply traceOp_kept
    | with_reducible apply answerFreed_kept
    | with_reducible apply finish_kept
    | split
    | dsimp only

theorem signalAfterOp_kept {kr : State} (e : OpEntry) (k : OKey) (l : Landing) (s : State) (hk : Kept kr s) : Kept kr (signalAfterOp e k l s) := by
  unfold signalAfterOp
  repeat' first
    | with_reducible assumption
    | with_reducible apply count_kept
    | with_reducible apply State.setBody_kept
    | with_reducible apply finish_kept
    | with_reducible apply addHeld_kept
    | with_reducible apply handToLcu_kept
    | with_reducible apply Kept.ite
    | split
    | dsimp only

theorem postHeld_kept {kr : State} (k : OKey) (s : State) (hk : Kept kr s) : Kept kr (postHeld k s) := by
  unfold postHeld
  repeat' first
    | with_reducible assumption
    | with_reducible apply State.modLcu_kept
    | with_reducible apply State.setBody_kept
    | with_reducible apply syncHdr_kept
    | with_reducible apply Kept.ite
    | split
    | dsimp only

theorem dropHeld_kept {kr : State} (h : Held) (s : State) (hk : Kept kr s) : Kept kr (dropHeld h s) := by
  unfold dropHeld
  repeat' first
    | with_reducible assumption
    | with_reducible apply State.modLcu_kept
    | with_reducible apply syncHdr_kept
    | dsimp only

theorem heldFailed_kept {kr : State} (h : Held) (st : Status) (s : State) (hk : Kept kr s) : Kept kr (heldFailed h st s) := by
  unfold heldFailed
  repeat' first
    | with_reducible assumption
    | with_reducible apply count_kept
    | with_reducible apply countStatus_kept
    | with_reducible apply report_kept
    | with_reducible apply Kept.ite
    | split
    | dsimp only

theorem performHeldSignal_kept {kr : State} (h : Held) (s : State) (hk : Kept kr s) : Kept kr (performHeldSignal h s) := by
  unfold performHeldSignal
  repeat' first
    | with_reducible assumption
    | with_reducible apply count_kept
    | with_reducible apply traceInner_kept
    | with_reducible apply giveUnits_kept
    | with_reducible apply setEvent_kept
    | with_reducible apply heldFailed_kept
    | with_reducible apply Kept.ite
    | split
    | dsimp only

theorem performHeldCommit_kept {kr : State} (h : Held) (s : State) (hk : Kept kr s) : Kept kr (performHeldCommit h s) := by
  unfold performHeldCommit
  repeat' first
    | with_reducible assumption
    | with_reducible apply count_kept
    | with_reducible apply traceInner_kept
    | with_reducible apply closeAt_kept
    | with_reducible apply commitRsv_kept
    | with_reducible apply heldFailed_kept
    | with_reducible apply Kept.ite
    | split
    | dsimp only

theorem wakeHeld_kept {kr : State} (commit : Bool) (s : State) (hk : Kept kr s) : Kept kr (wakeHeld commit s) := by
  unfold wakeHeld
  repeat' first
    | with_reducible assumption
    | with_reducible apply wakeSlot_kept
    | with_reducible apply fetchFor_kept
    | with_reducible apply Kept.ite
    | (with_reducible refine Kept.foldl (fun _ _ _ => ?_) ?_)
    | split
    | dsimp only

theorem lnReport_kept {kr : State} (c : Report) (ch : LnChan) (part : PartId) (tag : BitVec 16) (s : State) (hk : Kept kr s) : Kept kr (lnReport c ch part tag s) := by
  unfold lnReport
  repeat' first
    | with_reducible assumption
    | with_reducible apply count_kept
    | with_reducible apply report_kept
    | with_reducible apply Kept.ite
    | split
    | dsimp only

theorem lnFrozen_kept {kr : State} (k : OKey) (ch : LnChan) (tag : BitVec 16) (s : State) (hk : Kept kr s) : Kept kr (lnFrozen k ch tag s) := by
  unfold lnFrozen
  repeat' first
    | with_reducible assumption
    | with_reducible apply lnReport_kept
    | dsimp only

theorem landNotice_kept {kr : State} (ch : LnChan) (w : DWord) (s : State) (hk : Kept kr s) : Kept kr (landNotice ch w s) := by
  unfold landNotice
  repeat' first
    | with_reducible assumption
    | with_reducible apply State.modLcu_kept
    | with_reducible apply gcount_kept
    | with_reducible apply lnReport_kept
    | with_reducible apply lnFrozen_kept
    | with_reducible apply Kept.ite
    | split
    | dsimp only

theorem delArm_kept {kr : State} (k : OKey) (s : State) (hk : Kept kr s) : Kept kr (delArm k s) := by
  unfold delArm
  repeat' first
    | with_reducible assumption
    | with_reducible apply State.modLcu_kept
    | dsimp only

theorem decrement_kept {kr : State} (k : OKey) (c : Nat) (ch : LnChan) (tag : BitVec 16) (s : State) (hk : Kept kr s) : Kept kr (decrement k c ch tag s) := by
  unfold decrement
  repeat' first
    | with_reducible assumption
    | with_reducible apply count_kept
    | with_reducible apply report_kept
    | with_reducible apply State.setBody_kept
    | with_reducible apply secUp_kept
    | with_reducible apply secDown_kept
    | with_reducible apply postHeld_kept
    | with_reducible apply lnFrozen_kept
    | with_reducible apply delArm_kept
    | with_reducible apply Kept.ite
    | split
    | dsimp only

theorem wakeDecs_kept {kr : State} (s : State) (hk : Kept kr s) : Kept kr (wakeDecs s) := by
  unfold wakeDecs
  repeat' first
    | with_reducible assumption
    | with_reducible apply wakeSlot_kept
    | (with_reducible refine Kept.foldl (fun _ _ _ => ?_) ?_)
    | dsimp only

theorem pushReply_kept {kr : State} (w : Win) (slot : Nat) (ws : List Word) (s : State) (hk : Kept kr s) : Kept kr (pushReply w slot ws s) := by
  unfold pushReply
  repeat' first
    | with_reducible assumption
    | with_reducible apply State.modWin_kept
    | with_reducible apply raisePart_kept
    | with_reducible apply raiseGlobal_kept
    | split
    | dsimp only

theorem sendPacket_kept {kr : State} (dst : NodeId) (dir : Bool) (rtag : BitVec 5) (ws : List Word) (s : State) (hk : Kept kr s) : Kept kr (sendPacket dst dir rtag ws s) := by
  unfold sendPacket
  repeat' first
    | with_reducible assumption
    | with_reducible apply fabSend_kept
    | (with_reducible refine Kept.foldl (fun _ _ _ => ?_) ?_)
    | dsimp only

theorem replyAgent_kept {kr : State} (op : Nat) (ws : List Word) (s : State) (hk : Kept kr s) : Kept kr (replyAgent op ws s) := by
  unfold replyAgent
  repeat' first
    | with_reducible assumption
    | with_reducible apply mmRequest_kept
    | with_reducible apply mmWrite_kept
    | with_reducible apply report_kept
    | with_reducible apply answer_kept
    | with_reducible apply Kept.ite
    | split
    | dsimp only

theorem deliver_kept {kr : State} (src : CmdSrc) (ws : List Word) (s : State) (hk : Kept kr s) : Kept kr (deliver src ws s) := by
  unfold deliver
  repeat' first
    | with_reducible assumption
    | with_reducible apply pushReply_kept
    | with_reducible apply sendPacket_kept
    | with_reducible apply replyAgent_kept
    | split
    | dsimp only

theorem traceCmd_kept {kr : State} (c : Cmd) (code : Byte) (detail : Word) (s : State) (hk : Kept kr s) : Kept kr (traceCmd c code detail s) := by
  unfold traceCmd
  repeat' first
    | with_reducible assumption
    | with_reducible apply traceRec_kept
    | with_reducible apply Kept.ite
    | split
    | dsimp only

theorem dropCmd_kept {kr : State} (id : Nat) (s : State) (hk : Kept kr s) : Kept kr (dropCmd id s) := by
  unfold dropCmd
  repeat' first
    | with_reducible assumption
    | with_reducible apply State.modMsq_kept
    | dsimp only

theorem countCmd_kept {kr : State} (part : Option PartId) (s : State) (hk : Kept kr s) : Kept kr (countCmd part s) := by
  unfold countCmd
  repeat' first
    | with_reducible assumption
    | with_reducible apply count_kept
    | split
    | dsimp only

theorem completeCode_kept {kr : State} (c : Cmd) (code : Byte) (detail : Word) (res : List Word) (s : State) (hk : Kept kr s) : Kept kr (completeCode c code detail res s) := by
  unfold completeCode
  repeat' first
    | with_reducible assumption
    | with_reducible apply deliver_kept
    | with_reducible apply traceCmd_kept
    | with_reducible apply dropCmd_kept
    | with_reducible apply countCmd_kept
    | dsimp only

theorem complete_kept {kr : State} (c : Cmd) (st : Status) (detail : Word) (res : List Word) (s : State) (hk : Kept kr s) : Kept kr (complete c st detail res s) := by
  unfold complete
  repeat' first
    | with_reducible assumption
    | with_reducible apply completeCode_kept
    | dsimp only

theorem ok_kept {kr : State} (c : Cmd) (res : List Word) (s : State) (hk : Kept kr s) : Kept kr (ok c res s) := by
  unfold ok
  repeat' first
    | with_reducible assumption
    | with_reducible apply complete_kept
    | dsimp only

theorem refuse_kept {kr : State} (c : Cmd) (st : Status) (detail : Word) (s : State) (hk : Kept kr s) : Kept kr (refuse c st detail s) := by
  unfold refuse
  repeat' first
    | with_reducible assumption
    | with_reducible apply complete_kept
    | dsimp only

theorem setPhase_kept {kr : State} (id : Nat) (p : Phase) (s : State) (hk : Kept kr s) : Kept kr (setPhase id p s) := by
  unfold setPhase
  repeat' first
    | with_reducible assumption
    | with_reducible apply State.modMsq_kept
    | dsimp only

theorem answerUnrun_kept {kr : State} (c : Cmd) (st : Status) (s : State) (hk : Kept kr s) : Kept kr (answerUnrun c st s) := by
  unfold answerUnrun
  repeat' first
    | with_reducible assumption
    | with_reducible apply deliver_kept
    | with_reducible apply dropCmd_kept
    | dsimp only

theorem sendRemoteCmd_kept {kr : State} (c : Cmd) (s : State) (hk : Kept kr s) : Kept kr (sendRemoteCmd c s) := by
  unfold sendRemoteCmd
  repeat' first
    | with_reducible assumption
    | with_reducible apply sendPacket_kept
    | with_reducible apply setPhase_kept
    | with_reducible apply answerUnrun_kept
    | with_reducible apply Kept.ite
    | split
    | dsimp only

theorem arrive_kept {kr : State} (c : Cmd) (p : Option PartId) (missing : Option Nat) (s : State) (hk : Kept kr s) : Kept kr (arrive c p missing s) := by
  unfold arrive
  repeat' first
    | with_reducible assumption
    | with_reducible apply State.modMsq_kept
    | with_reducible apply refuse_kept
    | with_reducible apply sendRemoteCmd_kept
    | with_reducible apply Kept.ite
    | split
    | dsimp only

end Sys2Proof.Machine
end

