-- ==== Sys2Proof/Laws/KeptAgent.lean ====
section
/-! SUPPORT. Every effect defined in Perform, AgentOps, Ports, Timers keeps the relation of Laws/Kept. -/

namespace Sys2Proof.Machine

theorem evictHit_kept {kr : State} (p : PartId) (c : CtxId) (s : State) (hk : Kept kr s) : Kept kr (evictHit p c s) := by
  unfold evictHit
  repeat' first
    | with_reducible assumption
    | with_reducible apply State.modCtx_kept
    | with_reducible apply raisePart_kept
    | with_reducible apply Kept.ite
    | split
    | dsimp only

theorem translate_kept {kr : State} (e : OpEntry) (s : State) (hk : Kept kr s) : Kept kr (translate e s) := by
  unfold translate
  repeat' first
    | with_reducible assumption
    | with_reducible apply setOp_kept
    | with_reducible apply evictHit_kept
    | with_reducible apply Kept.ite
    | split
    | dsimp only

theorem waitCancelOp_kept {kr : State} (e : OpEntry) (s : State) (hk : Kept kr s) : Kept kr (waitCancelOp e s) := by
  unfold waitCancelOp
  repeat' first
    | with_reducible assumption
    | with_reducible apply State.modWmc_kept
    | with_reducible apply count_kept
    | with_reducible apply syncHdr_kept
    | with_reducible apply freeOp_kept
    | with_reducible apply fabSend_kept
    | with_reducible apply traceOp_kept
    | with_reducible apply afterLeaving_kept
    | with_reducible apply afterLeave_kept
    | with_reducible apply Kept.ite
    | split
    | dsimp only

theorem performBody_kept {kr : State} (e : OpEntry) (k : OKey) (o : Obj) (s : State) (hk : Kept kr s) : Kept kr (performBody e k o s) := by
  unfold performBody
  repeat' first
    | with_reducible assumption
    | with_reducible apply count_kept
    | with_reducible apply finish_kept
    | with_reducible apply lockOp_kept
    | with_reducible apply tryLockOp_kept
    | with_reducible apply unlockOp_kept
    | with_reducible apply claimIdOp_kept
    | with_reducible apply claimReadOp_kept
    | with_reducible apply takeOp_kept
    | with_reducible apply tryTakeOp_kept
    | with_reducible apply giveOp_kept
    | with_reducible apply signalOp_kept
    | with_reducible apply waitEventOp_kept
    | with_reducible apply casOp_kept
    | with_reducible apply fetchAddOp_kept
    | with_reducible apply reserveOp_kept
    | with_reducible apply commitOp_kept
    | with_reducible apply waitAvailOp_kept
    | with_reducible apply releaseOp_kept
    | with_reducible apply arriveBarrier_kept
    | with_reducible apply arriveGroup_kept
    | with_reducible apply waitBarrierOp_kept
    | with_reducible apply waitGroupOp_kept
    | with_reducible apply readMissingOp_kept
    | with_reducible apply deadlineArmOp_kept
    | with_reducible apply landExpectOp_kept
    | with_reducible apply signalAfterOp_kept
    | with_reducible apply Kept.ite
    | split
    | dsimp only

theorem countBank_kept {kr : State} (e : OpEntry) (s : State) (hk : Kept kr s) : Kept kr (countBank e s) := by
  unfold countBank
  repeat' first
    | with_reducible assumption
    | with_reducible apply State.modOpr_kept
    | with_reducible apply gcount_kept
    | with_reducible apply Kept.ite
    | split
    | dsimp only

theorem performAtBank_kept {kr : State} (e : OpEntry) (s : State) (hk : Kept kr s) : Kept kr (performAtBank e s) := by
  unfold performAtBank
  repeat' first
    | with_reducible assumption
    | with_reducible apply report_kept
    | with_reducible apply finish_kept
    | with_reducible apply performBody_kept
    | with_reducible apply countBank_kept
    | with_reducible apply Kept.ite
    | split
    | dsimp only

theorem performFabric_kept {kr : State} (e : OpEntry) (s : State) (hk : Kept kr s) : Kept kr (performFabric e s) := by
  unfold performFabric
  repeat' first
    | with_reducible assumption
    | with_reducible apply finish_kept
    | with_reducible apply abandonLock_kept
    | with_reducible apply cancelRsv_kept
    | with_reducible apply abandonAt_kept
    | with_reducible apply cancelAt_kept
    | with_reducible apply waitCancelOp_kept
    | with_reducible apply Kept.ite
    | split
    | dsimp only

theorem performHome_kept {kr : State} (e : OpEntry) (s : State) (hk : Kept kr s) : Kept kr (performHome e s) := by
  unfold performHome
  repeat' first
    | with_reducible assumption
    | with_reducible apply performAtBank_kept
    | with_reducible apply performFabric_kept
    | with_reducible apply Kept.ite
    | split
    | dsimp only

theorem waitHeld_kept {kr : State} (e : OpEntry) (s : State) (hk : Kept kr s) : Kept kr (waitHeld e s) := by
  unfold waitHeld
  repeat' first
    | with_reducible assumption
    | with_reducible apply State.modOpr_kept
    | with_reducible apply setOp_kept
    | with_reducible apply Kept.ite
    | split
    | dsimp only

theorem holdHome_kept {kr : State} (e : OpEntry) (s : State) (hk : Kept kr s) : Kept kr (holdHome e s) := by
  unfold holdHome
  repeat' first
    | with_reducible assumption
    | with_reducible apply setOp_kept
    | with_reducible apply Kept.ite
    | split
    | dsimp only

theorem tryHome_kept {kr : State} (e : OpEntry) (s : State) (hk : Kept kr s) : Kept kr (tryHome e s) := by
  unfold tryHome
  repeat' first
    | with_reducible assumption
    | with_reducible apply report_kept
    | with_reducible apply setOpSt_kept
    | with_reducible apply finish_kept
    | with_reducible apply wakeSlot_kept
    | with_reducible apply fetchFor_kept
    | with_reducible apply performHome_kept
    | with_reducible apply waitHeld_kept
    | with_reducible apply holdHome_kept
    | with_reducible apply Kept.ite
    | split
    | dsimp only

theorem sendRemote_kept {kr : State} (e : OpEntry) (s : State) (hk : Kept kr s) : Kept kr (sendRemote e s) := by
  unfold sendRemote
  repeat' first
    | with_reducible assumption
    | with_reducible apply count_kept
    | with_reducible apply setOpSt_kept
    | with_reducible apply fabSend_kept
    | with_reducible apply finish_kept
    | with_reducible apply Kept.ite
    | split
    | dsimp only

theorem startMgmt_kept {kr : State} (e : OpEntry) (s : State) (hk : Kept kr s) : Kept kr (startMgmt e s) := by
  unfold startMgmt
  repeat' first
    | with_reducible assumption
    | with_reducible apply mmRequest_kept
    | with_reducible apply setOpSt_kept
    | with_reducible apply finish_kept
    | with_reducible apply countCmd_kept
    | with_reducible apply arrive_kept
    | with_reducible apply Kept.ite
    | split
    | dsimp only

theorem passOn_kept {kr : State} (e : OpEntry) (s : State) (hk : Kept kr s) : Kept kr (passOn e s) := by
  unfold passOn
  repeat' first
    | with_reducible assumption
    | with_reducible apply finish_kept
    | with_reducible apply tryHome_kept
    | with_reducible apply sendRemote_kept
    | with_reducible apply startMgmt_kept
    | with_reducible apply Kept.ite
    | split
    | dsimp only

theorem tryOp_kept {kr : State} (id : Nat) (s : State) (hk : Kept kr s) : Kept kr (tryOp id s) := by
  unfold tryOp
  repeat' first
    | with_reducible assumption
    | with_reducible apply translate_kept
    | with_reducible apply passOn_kept
    | with_reducible apply Kept.ite
    | split
    | dsimp only

theorem treeWork_kept {kr : State} (w : TreeIn) (s : State) (hk : Kept kr s) : Kept kr (treeWork w s) := by
  unfold treeWork
  repeat' first
    | with_reducible assumption
    | with_reducible apply inner_kept
    | with_reducible apply combineFlit_kept
    | with_reducible apply treeRelFlit_kept
    | with_reducible apply Kept.ite
    | split
    | dsimp only

theorem treePump_kept {kr : State}  (l : List TreeIn) : ∀ (s : State), Kept kr s → Kept kr (treePump  l s) := by
  induction l with
  | nil => intro s hk; unfold treePump; exact hk
  | cons x l ih =>
    intro s hk
    unfold treePump
    repeat' first
      | with_reducible assumption
      | with_reducible apply ih
      | with_reducible apply State.modFab_kept
      | with_reducible apply askFor_kept
      | with_reducible apply treeWork_kept
      | with_reducible apply Kept.ite
      | split
      | dsimp only

theorem pump_kept {kr : State} (s : State) (hk : Kept kr s) : Kept kr (pump s) := by
  unfold pump
  repeat' first
    | with_reducible assumption
    | with_reducible apply tryOp_kept
    | with_reducible apply treePump_kept
    | (with_reducible refine Kept.foldl (fun _ _ _ => ?_) ?_)
    | dsimp only

theorem recordAtApa_kept {kr : State} (e : OpEntry) (s : State) (hk : Kept kr s) : Kept kr (recordAtApa e s) := by
  unfold recordAtApa
  repeat' first
    | with_reducible assumption
    | with_reducible apply State.setBind_kept
    | with_reducible apply traceRec_kept
    | with_reducible apply Kept.ite
    | split
    | dsimp only

theorem acceptOp_kept {kr : State} (p : PortNo) (op : Op) (f : Flit) (pool : Pool) (s : State) (hk : Kept kr s) : Kept kr (acceptOp p op f pool s) := by
  unfold acceptOp
  repeat' first
    | with_reducible assumption
    | with_reducible apply State.modOpr_kept
    | with_reducible apply count_kept
    | with_reducible apply gcountN_kept
    | with_reducible apply finish_kept
    | with_reducible apply tryOp_kept
    | with_reducible apply recordAtApa_kept
    | with_reducible apply Kept.ite
    | split
    | dsimp only

theorem bindFlit_kept {kr : State} (p : PortNo) (f : Flit) (held turn : Bool) (s : State) {kt : State} (hk : Kept kr s) (he : bindFlit p f held turn s = .pass kt) : Kept kr kt := by
  unfold bindFlit at he
  repeat' first
    | (cases he; done)
    | (injection he with he; subst he)
    | (injection he with he; injection he with he1 he2; subst he2)
    | (injection he with he)
    | split at he
    | dsimp only at he
    | with_reducible assumption
    | with_reducible apply countStatus_kept
    | with_reducible apply report_kept
    | with_reducible apply bindReply_kept
    | with_reducible apply acceptOp_kept
    | with_reducible apply Kept.ite
    | split
    | dsimp only

theorem popIngress_kept {kr : State} (p : PortNo) (f : Flit) (s : State) (hk : Kept kr s) : Kept kr (popIngress p f s) := by
  unfold popIngress
  repeat' first
    | with_reducible assumption
    | with_reducible apply State.modAp_kept
    | dsimp only

theorem passHead_kept {kr : State} (p : PortNo) (f : Flit) (turn : Bool) (s : State) {kt : State} (hk : Kept kr s) (he : passHead p f turn s = some kt) : Kept kr kt := by
  unfold passHead at he
  repeat' first
    | (cases he; done)
    | (injection he with he; subst he)
    | (injection he with he; injection he with he1 he2; subst he2)
    | (injection he with he)
    | split at he
    | dsimp only at he
    | with_reducible assumption
    | with_reducible apply State.modAp_kept
    | (refine bindFlit_kept _ _ _ _ _ ?_ (by with_reducible assumption))
    | with_reducible apply popIngress_kept
    | with_reducible apply Kept.ite
    | split
    | dsimp only

theorem feedGo_kept {kr : State} (p : PortNo) (l : List Flit) : ∀ (s : State), Kept kr s → Kept kr (feedGo p l s) := by
  induction l with
  | nil => intro s hk; unfold feedGo; exact hk
  | cons x l ih =>
    intro s hk
    unfold feedGo
    repeat' first
      | with_reducible assumption
      | with_reducible apply ih
      | (refine passHead_kept _ _ _ _ ?_ (by with_reducible assumption))
      | split
      | dsimp only

theorem feed_kept {kr : State} (p : PortNo) (s : State) (hk : Kept kr s) : Kept kr (feed p s) := by
  unfold feed
  repeat' first
    | with_reducible assumption
    | with_reducible apply feedGo_kept
    | with_reducible apply Kept.ite
    | split
    | dsimp only

theorem passOne_kept {kr : State} (p : PortNo) (s : State) {kt : State} (hk : Kept kr s) (he : passOne p s = some kt) : Kept kr kt := by
  unfold passOne at he
  repeat' first
    | (cases he; done)
    | (injection he with he; subst he)
    | (injection he with he; injection he with he1 he2; subst he2)
    | (injection he with he)
    | split at he
    | dsimp only at he
    | with_reducible assumption
    | with_reducible apply State.modAp_kept
    | (refine bindFlit_kept _ _ _ _ _ ?_ (by with_reducible assumption))
    | (refine passHead_kept _ _ _ _ ?_ (by with_reducible assumption))
    | split
    | dsimp only

theorem passTurn_kept {kr : State} (i : Nat) (s : State) (hk : Kept kr s) : Kept kr (passTurn i s) := by
  unfold passTurn
  repeat' first
    | with_reducible assumption
    | with_reducible apply State.modOpr_kept
    | (refine passOne_kept _ _ ?_ (by with_reducible assumption))
    | split
    | dsimp only

theorem passRounds_kept {kr : State}  (n : Nat) : ∀ (s : State), Kept kr s → Kept kr (passRounds  n s) := by
  induction n with
  | zero => intro s hk; unfold passRounds; exact hk
  | succ n ih =>
    intro s hk
    unfold passRounds
    repeat' first
      | with_reducible assumption
      | with_reducible apply ih
      | with_reducible apply passTurn_kept
      | (with_reducible refine Kept.foldl (fun _ _ _ => ?_) ?_)
      | split
      | dsimp only

theorem feedAll_kept {kr : State} (s : State) (hk : Kept kr s) : Kept kr (feedAll s) := by
  unfold feedAll
  repeat' first
    | with_reducible assumption
    | with_reducible apply passRounds_kept
    | with_reducible apply Kept.ite
    | (with_reducible refine Kept.foldl (fun _ _ _ => ?_) ?_)
    | split
    | dsimp only

theorem resumePart_kept {kr : State} (part : PartId) (s : State) (hk : Kept kr s) : Kept kr (resumePart part s) := by
  unfold resumePart
  repeat' first
    | with_reducible assumption
    | with_reducible apply noticePart_kept
    | with_reducible apply feedAll_kept
    | with_reducible apply Kept.ite
    | split
    | dsimp only

theorem drainPart_kept {kr : State} (part : PartId) (s : State) (hk : Kept kr s) : Kept kr (drainPart part s) := by
  unfold drainPart
  repeat' first
    | with_reducible assumption
    | with_reducible apply noticePart_kept
    | dsimp only

theorem noteCapture_kept {kr : State} (c : CapSrc) (s : State) (hk : Kept kr s) : Kept kr (noteCapture c s) := by
  unfold noteCapture
  repeat' first
    | with_reducible assumption
    | with_reducible apply State.modHob_kept
    | with_reducible apply Kept.ite
    | split
    | dsimp only

theorem enterIngress_kept {kr : State} (p : PortNo) (f : Flit) (s : State) (hk : Kept kr s) : Kept kr (enterIngress p f s) := by
  unfold enterIngress
  repeat' first
    | with_reducible assumption
    | with_reducible apply State.modAp_kept
    | with_reducible apply feed_kept
    | with_reducible apply noteCapture_kept
    | dsimp only

theorem captureNext_kept {kr : State} (p : PortNo) (a : LocalAgent) (code : Byte) (f : Req) (s : State) (hk : Kept kr s) : Kept kr (captureNext p a code f s) := by
  unfold captureNext
  repeat' first
    | with_reducible assumption
    | with_reducible apply State.modAp_kept
    | with_reducible apply enterIngress_kept
    | with_reducible apply Kept.ite
    | split
    | dsimp only

theorem captureFlit_kept {kr : State} (p : PortNo) (a : LocalAgent) (code : Byte) (f : Req) (s : State) (hk : Kept kr s) : Kept kr (captureFlit p a code f s) := by
  unfold captureFlit
  repeat' first
    | with_reducible assumption
    | with_reducible apply State.modAp_kept
    | with_reducible apply enterIngress_kept
    | with_reducible apply captureNext_kept
    | with_reducible apply Kept.ite
    | split
    | dsimp only

theorem takeFlit_kept {kr : State} (p : PortNo) (a : LocalAgent) (w : BitVec 128) (s : State) (hk : Kept kr s) : Kept kr (takeFlit p a w s) := by
  unfold takeFlit
  repeat' first
    | with_reducible assumption
    | with_reducible apply State.modAp_kept
    | with_reducible apply report_kept
    | with_reducible apply captureFlit_kept
    | with_reducible apply Kept.ite
    | split
    | dsimp only

theorem issue_kept {kr : State} (p : PortNo) (a : LocalAgent) (code : Byte) (f : Req) (s : State) (hk : Kept kr s) : Kept kr (issue p a code f s) := by
  unfold issue
  repeat' first
    | with_reducible assumption
    | with_reducible apply takeFlit_kept
    | dsimp only

theorem execArrive_kept {kr : State} (p : PortNo) (a : LocalAgent) (f : Req) (s : State) {kt : State} (hk : Kept kr s) (he : execArrive p a f s = .next kt) : Kept kr kt := by
  unfold execArrive at he
  injection he with he; subst he
  repeat' first
    | with_reducible assumption
    | with_reducible apply issue_kept
    | dsimp only

theorem execArriveReduce_kept {kr : State} (p : PortNo) (a : LocalAgent) (f : Req) (s : State) {kt : State} (hk : Kept kr s) (he : execArriveReduce p a f s = .next kt) : Kept kr kt := by
  unfold execArriveReduce at he
  injection he with he; subst he
  repeat' first
    | with_reducible assumption
    | with_reducible apply issue_kept
    | dsimp only

theorem execWait_kept {kr : State} (p : PortNo) (a : LocalAgent) (f : Req) (s : State) {kt : State} (hk : Kept kr s) (he : execWait p a f s = .next kt) : Kept kr kt := by
  unfold execWait at he
  injection he with he; subst he
  repeat' first
    | with_reducible assumption
    | with_reducible apply issue_kept
    | dsimp only

theorem execArriveWait_kept {kr : State} (p : PortNo) (a : LocalAgent) (f : Req) (s : State) {kt : State} (hk : Kept kr s) (he : execArriveWait p a f s = .next kt) : Kept kr kt := by
  unfold execArriveWait at he
  injection he with he; subst he
  repeat' first
    | with_reducible assumption
    | with_reducible apply issue_kept
    | dsimp only

theorem execSignal_kept {kr : State} (p : PortNo) (a : LocalAgent) (f : Req) (s : State) {kt : State} (hk : Kept kr s) (he : execSignal p a f s = .next kt) : Kept kr kt := by
  unfold execSignal at he
  injection he with he; subst he
  repeat' first
    | with_reducible assumption
    | with_reducible apply issue_kept
    | dsimp only

theorem execReadMissing_kept {kr : State} (p : PortNo) (a : LocalAgent) (f : Req) (s : State) {kt : State} (hk : Kept kr s) (he : execReadMissing p a f s = .next kt) : Kept kr kt := by
  unfold execReadMissing at he
  injection he with he; subst he
  repeat' first
    | with_reducible assumption
    | with_reducible apply issue_kept
    | dsimp only

theorem execDeadlineArm_kept {kr : State} (p : PortNo) (a : LocalAgent) (f : Req) (s : State) {kt : State} (hk : Kept kr s) (he : execDeadlineArm p a f s = .next kt) : Kept kr kt := by
  unfold execDeadlineArm at he
  injection he with he; subst he
  repeat' first
    | with_reducible assumption
    | with_reducible apply issue_kept
    | dsimp only

theorem execTake_kept {kr : State} (p : PortNo) (a : LocalAgent) (f : Req) (s : State) {kt : State} (hk : Kept kr s) (he : execTake p a f s = .next kt) : Kept kr kt := by
  unfold execTake at he
  injection he with he; subst he
  repeat' first
    | with_reducible assumption
    | with_reducible apply issue_kept
    | dsimp only

theorem execTryTake_kept {kr : State} (p : PortNo) (a : LocalAgent) (f : Req) (s : State) {kt : State} (hk : Kept kr s) (he : execTryTake p a f s = .next kt) : Kept kr kt := by
  unfold execTryTake at he
  injection he with he; subst he
  repeat' first
    | with_reducible assumption
    | with_reducible apply issue_kept
    | dsimp only

theorem execGive_kept {kr : State} (p : PortNo) (a : LocalAgent) (f : Req) (s : State) {kt : State} (hk : Kept kr s) (he : execGive p a f s = .next kt) : Kept kr kt := by
  unfold execGive at he
  injection he with he; subst he
  repeat' first
    | with_reducible assumption
    | with_reducible apply issue_kept
    | dsimp only

theorem execLock_kept {kr : State} (p : PortNo) (a : LocalAgent) (f : Req) (s : State) {kt : State} (hk : Kept kr s) (he : execLock p a f s = .next kt) : Kept kr kt := by
  unfold execLock at he
  injection he with he; subst he
  repeat' first
    | with_reducible assumption
    | with_reducible apply issue_kept
    | dsimp only

theorem execTryLock_kept {kr : State} (p : PortNo) (a : LocalAgent) (f : Req) (s : State) {kt : State} (hk : Kept kr s) (he : execTryLock p a f s = .next kt) : Kept kr kt := by
  unfold execTryLock at he
  injection he with he; subst he
  repeat' first
    | with_reducible assumption
    | with_reducible apply issue_kept
    | dsimp only

theorem execUnlock_kept {kr : State} (p : PortNo) (a : LocalAgent) (f : Req) (s : State) {kt : State} (hk : Kept kr s) (he : execUnlock p a f s = .next kt) : Kept kr kt := by
  unfold execUnlock at he
  injection he with he; subst he
  repeat' first
    | with_reducible assumption
    | with_reducible apply issue_kept
    | dsimp only

theorem execClaimId_kept {kr : State} (p : PortNo) (a : LocalAgent) (f : Req) (s : State) {kt : State} (hk : Kept kr s) (he : execClaimId p a f s = .next kt) : Kept kr kt := by
  unfold execClaimId at he
  injection he with he; subst he
  repeat' first
    | with_reducible assumption
    | with_reducible apply issue_kept
    | dsimp only

theorem execClaimRead_kept {kr : State} (p : PortNo) (a : LocalAgent) (f : Req) (s : State) {kt : State} (hk : Kept kr s) (he : execClaimRead p a f s = .next kt) : Kept kr kt := by
  unfold execClaimRead at he
  injection he with he; subst he
  repeat' first
    | with_reducible assumption
    | with_reducible apply issue_kept
    | dsimp only

theorem execCas_kept {kr : State} (p : PortNo) (a : LocalAgent) (f : Req) (s : State) {kt : State} (hk : Kept kr s) (he : execCas p a f s = .next kt) : Kept kr kt := by
  unfold execCas at he
  injection he with he; subst he
  repeat' first
    | with_reducible assumption
    | with_reducible apply issue_kept
    | dsimp only

theorem execCasCont_kept {kr : State} (p : PortNo) (a : LocalAgent) (f : Req) (s : State) {kt : State} (hk : Kept kr s) (he : execCasCont p a f s = .next kt) : Kept kr kt := by
  unfold execCasCont at he
  injection he with he; subst he
  repeat' first
    | with_reducible assumption
    | with_reducible apply issue_kept
    | dsimp only

theorem execFetchAdd_kept {kr : State} (p : PortNo) (a : LocalAgent) (f : Req) (s : State) {kt : State} (hk : Kept kr s) (he : execFetchAdd p a f s = .next kt) : Kept kr kt := by
  unfold execFetchAdd at he
  injection he with he; subst he
  repeat' first
    | with_reducible assumption
    | with_reducible apply issue_kept
    | dsimp only

theorem execReadObj_kept {kr : State} (p : PortNo) (a : LocalAgent) (f : Req) (s : State) {kt : State} (hk : Kept kr s) (he : execReadObj p a f s = .next kt) : Kept kr kt := by
  unfold execReadObj at he
  injection he with he; subst he
  repeat' first
    | with_reducible assumption
    | with_reducible apply issue_kept
    | dsimp only

theorem execReserve_kept {kr : State} (p : PortNo) (a : LocalAgent) (f : Req) (s : State) {kt : State} (hk : Kept kr s) (he : execReserve p a f s = .next kt) : Kept kr kt := by
  unfold execReserve at he
  injection he with he; subst he
  repeat' first
    | with_reducible assumption
    | with_reducible apply issue_kept
    | dsimp only

theorem execCommit_kept {kr : State} (p : PortNo) (a : LocalAgent) (f : Req) (s : State) {kt : State} (hk : Kept kr s) (he : execCommit p a f s = .next kt) : Kept kr kt := by
  unfold execCommit at he
  injection he with he; subst he
  repeat' first
    | with_reducible assumption
    | with_reducible apply issue_kept
    | dsimp only

theorem execWaitAvail_kept {kr : State} (p : PortNo) (a : LocalAgent) (f : Req) (s : State) {kt : State} (hk : Kept kr s) (he : execWaitAvail p a f s = .next kt) : Kept kr kt := by
  unfold execWaitAvail at he
  injection he with he; subst he
  repeat' first
    | with_reducible assumption
    | with_reducible apply issue_kept
    | dsimp only

theorem execRelease_kept {kr : State} (p : PortNo) (a : LocalAgent) (f : Req) (s : State) {kt : State} (hk : Kept kr s) (he : execRelease p a f s = .next kt) : Kept kr kt := by
  unfold execRelease at he
  injection he with he; subst he
  repeat' first
    | with_reducible assumption
    | with_reducible apply issue_kept
    | dsimp only

theorem execLandExpect_kept {kr : State} (p : PortNo) (a : LocalAgent) (f : Req) (s : State) {kt : State} (hk : Kept kr s) (he : execLandExpect p a f s = .next kt) : Kept kr kt := by
  unfold execLandExpect at he
  injection he with he; subst he
  repeat' first
    | with_reducible assumption
    | with_reducible apply issue_kept
    | dsimp only

theorem execSignalAfterLanded_kept {kr : State} (p : PortNo) (a : LocalAgent) (f : Req) (s : State) {kt : State} (hk : Kept kr s) (he : execSignalAfterLanded p a f s = .next kt) : Kept kr kt := by
  unfold execSignalAfterLanded at he
  injection he with he; subst he
  repeat' first
    | with_reducible assumption
    | with_reducible apply issue_kept
    | dsimp only

theorem execFence_kept {kr : State} (p : PortNo) (a : LocalAgent) (f : Req) (s : State) {kt : State} (hk : Kept kr s) (he : execFence p a f s = .next kt) : Kept kr kt := by
  unfold execFence at he
  injection he with he; subst he
  repeat' first
    | with_reducible assumption
    | with_reducible apply issue_kept
    | dsimp only

theorem execSetTag_kept {kr : State} (p : PortNo) (a : LocalAgent) (f : Req) (s : State) {kt : State} (hk : Kept kr s) (he : execSetTag p a f s = .next kt) : Kept kr kt := by
  unfold execSetTag at he
  injection he with he; subst he
  repeat' first
    | with_reducible assumption
    | with_reducible apply issue_kept
    | dsimp only

theorem execSectionMark_kept {kr : State} (p : PortNo) (a : LocalAgent) (f : Req) (s : State) {kt : State} (hk : Kept kr s) (he : execSectionMark p a f s = .next kt) : Kept kr kt := by
  unfold execSectionMark at he
  injection he with he; subst he
  repeat' first
    | with_reducible assumption
    | with_reducible apply issue_kept
    | dsimp only

theorem execMgmt_kept {kr : State} (p : PortNo) (a : LocalAgent) (f : Req) (s : State) {kt : State} (hk : Kept kr s) (he : execMgmt p a f s = .next kt) : Kept kr kt := by
  unfold execMgmt at he
  injection he with he; subst he
  repeat' first
    | with_reducible assumption
    | with_reducible apply issue_kept
    | dsimp only

theorem execRequestFlitWithoutCredit_kept {kr : State} (p : PortNo) (a : LocalAgent) (opcode : Byte) (f : Req) (s : State) {kt : State} (hk : Kept kr s) (he : execRequestFlitWithoutCredit p a opcode f s = .next kt) : Kept kr kt := by
  unfold execRequestFlitWithoutCredit at he
  injection he with he; subst he
  repeat' first
    | with_reducible assumption
    | with_reducible apply issue_kept
    | dsimp only

theorem grantGo_kept {kr : State} (s : State) (hk : Kept kr s) (l : List Nat) : Kept kr (grantGo s l) := by
  induction l with
  | nil => exact hk
  | cons i l ih =>
    unfold grantGo
    split
    · exact passTurn_kept _ _ hk
    · exact ih

theorem opTableGrant_kept {kr : State} (s : State) (hk : Kept kr s) : Kept kr (opTableGrant s) := by
  unfold opTableGrant
  repeat' first
    | with_reducible assumption
    | with_reducible apply grantGo_kept
    | with_reducible apply Kept.ite
    | split
    | dsimp only

theorem responseCredit_kept {kr : State} (p : PortNo) (s : State) (hk : Kept kr s) : Kept kr (responseCredit p s) := by
  unfold responseCredit
  repeat' first
    | with_reducible assumption
    | with_reducible apply State.modAp_kept
    | with_reducible apply Kept.ite
    | split
    | dsimp only

theorem execResponseCredit_kept {kr : State} (p : PortNo) (s : State) {kt : State} (hk : Kept kr s) (he : execResponseCredit p s = .next kt) : Kept kr kt := by
  unfold execResponseCredit at he
  injection he with he; subst he
  repeat' first
    | with_reducible assumption
    | with_reducible apply responseCredit_kept
    | dsimp only

theorem traceWake_kept {kr : State} (p : PortNo) (r : Rsp) (s : State) (hk : Kept kr s) : Kept kr (traceWake p r s) := by
  unfold traceWake
  repeat' first
    | with_reducible assumption
    | with_reducible apply traceRec_kept
    | split
    | dsimp only

theorem countRsp_kept {kr : State} (r : Rsp) (s : State) (hk : Kept kr s) : Kept kr (countRsp r s) := by
  unfold countRsp
  repeat' first
    | with_reducible assumption
    | with_reducible apply countN_kept
    | with_reducible apply count_kept
    | with_reducible apply gcount_kept
    | with_reducible apply Kept.ite
    | (with_reducible refine Kept.foldl (fun _ _ _ => ?_) ?_)
    | split
    | dsimp only

theorem responsePresent_kept {kr : State} (p : PortNo) (s : State) (hk : Kept kr s) : Kept kr (responsePresent p s) := by
  unfold responsePresent
  repeat' first
    | with_reducible assumption
    | with_reducible apply State.modAp_kept
    | with_reducible apply freeOpt_kept
    | with_reducible apply traceWake_kept
    | with_reducible apply countRsp_kept
    | with_reducible apply Kept.ite
    | split
    | dsimp only

theorem execResponsePresent_kept {kr : State} (p : PortNo) (s : State) {kt : State} (hk : Kept kr s) (he : execResponsePresent p s = .next kt) : Kept kr kt := by
  unfold execResponsePresent at he
  injection he with he; subst he
  repeat' first
    | with_reducible assumption
    | with_reducible apply responsePresent_kept
    | dsimp only

theorem runReset_kept {kr : State} (p : PortNo) (a : LocalAgent) (idle : Bool) (s : State) (hk : Kept kr s) : Kept kr (runReset p a idle s) := by
  unfold runReset
  repeat' first
    | with_reducible assumption
    | with_reducible apply State.modAp_kept
    | dsimp only

theorem discardAgent_kept {kr : State} (p : PortNo) (a : LocalAgent) (s : State) (hk : Kept kr s) : Kept kr (discardAgent p a s) := by
  unfold discardAgent
  repeat' first
    | with_reducible assumption
    | with_reducible apply State.modAp_kept
    | with_reducible apply State.modHob_kept
    | with_reducible apply pushRsp_kept
    | with_reducible apply feed_kept
    | with_reducible apply Kept.ite
    | (with_reducible refine Kept.foldl (fun _ _ _ => ?_) ?_)
    | split
    | dsimp only

theorem startReset_kept {kr : State} (p : PortNo) (a : LocalAgent) (s : State) (hk : Kept kr s) : Kept kr (startReset p a s) := by
  unfold startReset
  repeat' first
    | with_reducible assumption
    | with_reducible apply runReset_kept
    | with_reducible apply discardAgent_kept
    | with_reducible apply Kept.ite
    | split
    | dsimp only

theorem addReset_kept {kr : State} (p : PortNo) (a : LocalAgent) (unbind : Bool) (s : State) (hk : Kept kr s) : Kept kr (addReset p a unbind s) := by
  unfold addReset
  repeat' first
    | with_reducible assumption
    | with_reducible apply State.modAp_kept
    | with_reducible apply startReset_kept
    | with_reducible apply Kept.ite
    | split
    | dsimp only

theorem resetNotify_kept {kr : State} (p : PortNo) (a : LocalAgent) (s : State) (hk : Kept kr s) : Kept kr (resetNotify p a s) := by
  unfold resetNotify
  repeat' first
    | with_reducible assumption
    | with_reducible apply report_kept
    | with_reducible apply addReset_kept
    | with_reducible apply Kept.ite
    | split
    | dsimp only

theorem execAgentResetNotification_kept {kr : State} (p : PortNo) (a : LocalAgent) (s : State) {kt : State} (hk : Kept kr s) (he : execAgentResetNotification p a s = .next kt) : Kept kr kt := by
  unfold execAgentResetNotification at he
  injection he with he; subst he
  repeat' first
    | with_reducible assumption
    | with_reducible apply resetNotify_kept
    | dsimp only

theorem sendUndo_kept {kr : State} (u : AgentId) (waits : Bool) (rw : Option RWait) (part : PartId) (a : AgentId) (op : Byte) (node : NodeId) (c : CtxId) (i : Index) (aux : Byte) (pay : DWord) (s : State) (hk : Kept kr s) : Kept kr (sendUndo u waits rw part a op node c i aux pay s) := by
  unfold sendUndo
  repeat' first
    | with_reducible assumption
    | with_reducible apply State.modFab_kept
    | with_reducible apply count_kept
    | with_reducible apply fabSend_kept
    | dsimp only

theorem removeLocalWaits_kept {kr : State} (a : AgentId) (s : State) (hk : Kept kr s) : Kept kr (removeLocalWaits a s) := by
  unfold removeLocalWaits
  repeat' first
    | with_reducible assumption
    | with_reducible apply inner_kept
    | with_reducible apply unpark_kept
    | with_reducible apply afterLeave_kept
    | (with_reducible refine Kept.foldl (fun _ _ _ => ?_) ?_)
    | dsimp only

theorem removeRWait_kept {kr : State} (u : AgentId) (waits : Bool) (x : RWait) (s : State) (hk : Kept kr s) : Kept kr (removeRWait u waits x s) := by
  unfold removeRWait
  repeat' first
    | with_reducible assumption
    | with_reducible apply State.modWmc_kept
    | with_reducible apply sendUndo_kept
    | with_reducible apply Kept.ite
    | split
    | dsimp only

theorem removeRemoteWaits_kept {kr : State} (a : AgentId) (s : State) (hk : Kept kr s) : Kept kr (removeRemoteWaits a s) := by
  unfold removeRemoteWaits
  repeat' first
    | with_reducible assumption
    | with_reducible apply removeRWait_kept
    | (with_reducible refine Kept.foldl (fun _ _ _ => ?_) ?_)
    | dsimp only

theorem dropSpilledWakes_kept {kr : State} (a : AgentId) (s : State) (hk : Kept kr s) : Kept kr (dropSpilledWakes a s) := by
  unfold dropSpilledWakes
  repeat' first
    | with_reducible assumption
    | with_reducible apply State.modWmc_kept
    | dsimp only

theorem endHoldings_kept {kr : State} (a : AgentId) (s : State) (hk : Kept kr s) : Kept kr (endHoldings a s) := by
  unfold endHoldings
  repeat' first
    | with_reducible assumption
    | with_reducible apply inner_kept
    | with_reducible apply delHolding_kept
    | with_reducible apply abandonAt_kept
    | with_reducible apply sendUndo_kept
    | with_reducible apply Kept.ite
    | (with_reducible refine Kept.foldl (fun _ _ _ => ?_) ?_)
    | split
    | dsimp only

theorem undoGrant_kept {kr : State} (a : AgentId) (g : Grant) (s : State) (hk : Kept kr s) : Kept kr (undoGrant a g s) := by
  unfold undoGrant
  repeat' first
    | with_reducible assumption
    | with_reducible apply inner_kept
    | with_reducible apply abandonAt_kept
    | with_reducible apply cancelAt_kept
    | with_reducible apply undoGive_kept
    | with_reducible apply sendUndo_kept
    | split
    | dsimp only

theorem endReset_kept {kr : State} (p : PortNo) (a : LocalAgent) (r : Arst) (s : State) (hk : Kept kr s) : Kept kr (endReset p a r s) := by
  unfold endReset
  repeat' first
    | with_reducible assumption
    | with_reducible apply State.modAp_kept
    | with_reducible apply State.setBind_kept
    | with_reducible apply pushNotice_kept
    | with_reducible apply startReset_kept
    | with_reducible apply Kept.ite
    | split
    | dsimp only

theorem resetSteps_kept {kr : State} (p : PortNo) (a : LocalAgent) (r : Arst) (s : State) (hk : Kept kr s) : Kept kr (resetSteps p a r s) := by
  unfold resetSteps
  repeat' first
    | with_reducible assumption
    | with_reducible apply State.modAp_kept
    | with_reducible apply State.setBind_kept
    | with_reducible apply pump_kept
    | with_reducible apply removeLocalWaits_kept
    | with_reducible apply removeRemoteWaits_kept
    | with_reducible apply dropSpilledWakes_kept
    | with_reducible apply endHoldings_kept
    | with_reducible apply undoGrant_kept
    | (with_reducible refine Kept.foldl (fun _ _ _ => ?_) ?_)
    | dsimp only

theorem askReset_kept {kr : State} (a : AgentId) (r : Arst) (s : State) (hk : Kept kr s) : Kept kr (askReset a r s) := by
  unfold askReset
  repeat' first
    | with_reducible assumption
    | with_reducible apply wakeSlot_kept
    | with_reducible apply fetchFor_kept
    | (with_reducible refine Kept.foldl (fun _ _ _ => ?_) ?_)
    | dsimp only

theorem resetProcess_kept {kr : State} (p : PortNo) (a : LocalAgent) (s : State) (hk : Kept kr s) : Kept kr (resetProcess p a s) := by
  unfold resetProcess
  repeat' first
    | with_reducible assumption
    | with_reducible apply endReset_kept
    | with_reducible apply resetSteps_kept
    | with_reducible apply askReset_kept
    | with_reducible apply Kept.ite
    | split
    | dsimp only

theorem execAgentResetProcess_kept {kr : State} (p : PortNo) (a : LocalAgent) (s : State) {kt : State} (hk : Kept kr s) (he : execAgentResetProcess p a s = .next kt) : Kept kr kt := by
  unfold execAgentResetProcess at he
  injection he with he; subst he
  repeat' first
    | with_reducible assumption
    | with_reducible apply resetProcess_kept
    | dsimp only

theorem bindWrite_kept {kr : State} (agent : AgentId) (w : Word) (s : State) (hk : Kept kr s) : Kept kr (bindWrite agent w s) := by
  unfold bindWrite
  repeat' first
    | with_reducible assumption
    | with_reducible apply State.setBind_kept
    | with_reducible apply pushNotice_kept
    | with_reducible apply addReset_kept
    | with_reducible apply Kept.ite
    | split
    | dsimp only

theorem fenceDone_kept {kr : State} (agent : AgentId) (s : State) (hk : Kept kr s) : Kept kr (fenceDone agent s) := by
  unfold fenceDone
  repeat' first
    | with_reducible assumption
    | with_reducible apply count_kept
    | with_reducible apply finish_kept
    | with_reducible apply pump_kept
    | with_reducible apply Kept.ite
    | split
    | dsimp only

theorem execFenceComplete_kept {kr : State} (agent : AgentId) (s : State) {kt : State} (hk : Kept kr s) (he : execFenceComplete agent s = .next kt) : Kept kr kt := by
  unfold execFenceComplete at he
  injection he with he; subst he
  repeat' first
    | with_reducible assumption
    | with_reducible apply fenceDone_kept
    | dsimp only

theorem enterDue_kept {kr : State} (d : Due) (s : State) (hk : Kept kr s) : Kept kr (enterDue d s) := by
  unfold enterDue
  repeat' first
    | with_reducible assumption
    | with_reducible apply State.modOpr_kept
    | with_reducible apply Kept.ite
    | split
    | dsimp only

theorem fallDue_kept {kr : State} (l : List Due) (s : State) (hk : Kept kr s) : Kept kr (fallDue l s) := by
  unfold fallDue
  repeat' first
    | with_reducible assumption
    | with_reducible apply enterDue_kept
    | (with_reducible refine Kept.foldl (fun _ _ _ => ?_) ?_)
    | dsimp only

theorem deadlineDue_kept {kr : State} (edges : Nat) (s : State) (hk : Kept kr s) : Kept kr (deadlineDue edges s) := by
  unfold deadlineDue
  repeat' first
    | with_reducible assumption
    | with_reducible apply elapse_kept
    | with_reducible apply fallDue_kept
    | with_reducible apply Kept.ite
    | split
    | dsimp only

theorem execDeadlineDue_kept {kr : State} (edges : Nat) (s : State) {kt : State} (hk : Kept kr s) (he : execDeadlineDue edges s = .next kt) : Kept kr kt := by
  unfold execDeadlineDue at he
  injection he with he; subst he
  repeat' first
    | with_reducible assumption
    | with_reducible apply deadlineDue_kept
    | dsimp only

theorem leaseDue_kept {kr : State} (edges : Nat) (s : State) (hk : Kept kr s) : Kept kr (leaseDue edges s) := by
  unfold leaseDue
  repeat' first
    | with_reducible assumption
    | with_reducible apply elapse_kept
    | with_reducible apply fallDue_kept
    | with_reducible apply Kept.ite
    | split
    | dsimp only

theorem execLeaseDue_kept {kr : State} (edges : Nat) (s : State) {kt : State} (hk : Kept kr s) (he : execLeaseDue edges s = .next kt) : Kept kr kt := by
  unfold execLeaseDue at he
  injection he with he; subst he
  repeat' first
    | with_reducible assumption
    | with_reducible apply leaseDue_kept
    | dsimp only

theorem fillSet_kept {kr : State} (n : Nat) (s : State) (hk : Kept kr s) : Kept kr (fillSet n s) := by
  unfold fillSet
  repeat' first
    | with_reducible assumption
    | with_reducible apply State.modOpr_kept
    | dsimp only

theorem leaveSet_kept {kr : State} (d : Due) (s : State) (hk : Kept kr s) : Kept kr (leaveSet d s) := by
  unfold leaveSet
  repeat' first
    | with_reducible assumption
    | with_reducible apply State.modOpr_kept
    | with_reducible apply fillSet_kept
    | dsimp only

theorem dropDue_kept {kr : State} (k : OKey) (s : State) (hk : Kept kr s) : Kept kr (dropDue k s) := by
  unfold dropDue
  repeat' first
    | with_reducible assumption
    | with_reducible apply State.modOpr_kept
    | with_reducible apply fillSet_kept
    | dsimp only

theorem expireOne_kept {kr : State} (lease : Bool) (s : State) (hk : Kept kr s) : Kept kr (expireOne lease s) := by
  unfold expireOne
  repeat' first
    | with_reducible assumption
    | with_reducible apply inner_kept
    | with_reducible apply askFor_kept
    | with_reducible apply expireDeadlineAt_kept
    | with_reducible apply expireLeaseAt_kept
    | with_reducible apply pump_kept
    | with_reducible apply leaveSet_kept
    | with_reducible apply Kept.ite
    | split
    | dsimp only

theorem deadlineExpiry_kept {kr : State} (edges : Nat) (s : State) (hk : Kept kr s) : Kept kr (deadlineExpiry edges s) := by
  unfold deadlineExpiry
  repeat' first
    | with_reducible assumption
    | with_reducible apply elapse_kept
    | with_reducible apply expireOne_kept
    | with_reducible apply Kept.ite
    | split
    | dsimp only

theorem execDeadlineExpiry_kept {kr : State} (edges : Nat) (s : State) {kt : State} (hk : Kept kr s) (he : execDeadlineExpiry edges s = .next kt) : Kept kr kt := by
  unfold execDeadlineExpiry at he
  injection he with he; subst he
  repeat' first
    | with_reducible assumption
    | with_reducible apply deadlineExpiry_kept
    | dsimp only

theorem leaseExpiry_kept {kr : State} (edges : Nat) (s : State) (hk : Kept kr s) : Kept kr (leaseExpiry edges s) := by
  unfold leaseExpiry
  repeat' first
    | with_reducible assumption
    | with_reducible apply elapse_kept
    | with_reducible apply expireOne_kept
    | with_reducible apply Kept.ite
    | split
    | dsimp only

theorem execLeaseExpiry_kept {kr : State} (edges : Nat) (s : State) {kt : State} (hk : Kept kr s) (he : execLeaseExpiry edges s = .next kt) : Kept kr kt := by
  unfold execLeaseExpiry at he
  injection he with he; subst he
  repeat' first
    | with_reducible assumption
    | with_reducible apply leaseExpiry_kept
    | dsimp only

theorem timeoutWaiter_kept {kr : State} (w : Waiter) (s : State) (hk : Kept kr s) : Kept kr (timeoutWaiter w s) := by
  unfold timeoutWaiter
  repeat' first
    | with_reducible assumption
    | with_reducible apply inner_kept
    | with_reducible apply unpark_kept
    | with_reducible apply wakeWaiter_kept
    | with_reducible apply afterLeave_kept
    | dsimp only

theorem endRWait_kept {kr : State} (st : Status) (cause : BitVec 4) (x : RWait) (s : State) (hk : Kept kr s) : Kept kr (endRWait st cause x s) := by
  unfold endRWait
  repeat' first
    | with_reducible assumption
    | with_reducible apply countStatus_kept
    | with_reducible apply wakeOne_kept
    | with_reducible apply removeRWait_kept
    | dsimp only

theorem timeoutRWait_kept {kr : State} (x : RWait) (s : State) (hk : Kept kr s) : Kept kr (timeoutRWait x s) := by
  unfold timeoutRWait
  repeat' first
    | with_reducible assumption
    | with_reducible apply endRWait_kept
    | dsimp only

theorem timeoutOne_kept {kr : State} (s : State) (hk : Kept kr s) : Kept kr (timeoutOne s) := by
  unfold timeoutOne
  repeat' first
    | with_reducible assumption
    | with_reducible apply wakeSlot_kept
    | with_reducible apply timeoutWaiter_kept
    | with_reducible apply timeoutRWait_kept
    | (with_reducible refine Kept.foldl (fun _ _ _ => ?_) ?_)
    | split
    | dsimp only

theorem waitTimeout_kept {kr : State} (edges : Nat) (s : State) (hk : Kept kr s) : Kept kr (waitTimeout edges s) := by
  unfold waitTimeout
  repeat' first
    | with_reducible assumption
    | with_reducible apply elapse_kept
    | with_reducible apply timeoutOne_kept
    | with_reducible apply Kept.ite
    | split
    | dsimp only

theorem execWaitTimeout_kept {kr : State} (edges : Nat) (s : State) {kt : State} (hk : Kept kr s) (he : execWaitTimeout edges s = .next kt) : Kept kr kt := by
  unfold execWaitTimeout at he
  injection he with he; subst he
  repeat' first
    | with_reducible assumption
    | with_reducible apply waitTimeout_kept
    | dsimp only

theorem landingNotice_kept {kr : State} (ch : LnChan) (w : DWord) (s : State) (hk : Kept kr s) : Kept kr (landingNotice ch w s) := by
  unfold landingNotice
  repeat' first
    | with_reducible assumption
    | with_reducible apply State.modLcu_kept
    | with_reducible apply report_kept
    | with_reducible apply landNotice_kept
    | with_reducible apply noteCapture_kept
    | with_reducible apply Kept.ite
    | split
    | dsimp only

theorem execLandingNotice_kept {kr : State} (ch : LnChan) (data : DWord) (s : State) {kt : State} (hk : Kept kr s) (he : execLandingNotice ch data s = .next kt) : Kept kr kt := by
  unfold execLandingNotice at he
  injection he with he; subst he
  repeat' first
    | with_reducible assumption
    | with_reducible apply landingNotice_kept
    | dsimp only

theorem landingDecrement_kept {kr : State} (s : State) (hk : Kept kr s) : Kept kr (landingDecrement s) := by
  unfold landingDecrement
  repeat' first
    | with_reducible assumption
    | with_reducible apply State.modLcu_kept
    | with_reducible apply inner_kept
    | with_reducible apply decrement_kept
    | with_reducible apply wakeDecs_kept
    | with_reducible apply pump_kept
    | with_reducible apply Kept.ite
    | split
    | dsimp only

theorem execLandingDecrement_kept {kr : State} (s : State) {kt : State} (hk : Kept kr s) (he : execLandingDecrement s = .next kt) : Kept kr kt := by
  unfold execLandingDecrement at he
  injection he with he; subst he
  repeat' first
    | with_reducible assumption
    | with_reducible apply landingDecrement_kept
    | dsimp only

theorem heldPerform_kept {kr : State} (commit : Bool) (s : State) (hk : Kept kr s) : Kept kr (heldPerform commit s) := by
  unfold heldPerform
  repeat' first
    | with_reducible assumption
    | with_reducible apply State.modLcu_kept
    | with_reducible apply inner_kept
    | with_reducible apply dropHeld_kept
    | with_reducible apply performHeldSignal_kept
    | with_reducible apply performHeldCommit_kept
    | with_reducible apply wakeHeld_kept
    | with_reducible apply pump_kept
    | with_reducible apply Kept.ite
    | split
    | dsimp only

theorem execHeldSignalPerform_kept {kr : State} (s : State) {kt : State} (hk : Kept kr s) (he : execHeldSignalPerform s = .next kt) : Kept kr kt := by
  unfold execHeldSignalPerform at he
  injection he with he; subst he
  repeat' first
    | with_reducible assumption
    | with_reducible apply heldPerform_kept
    | dsimp only

theorem execHeldCommitPerform_kept {kr : State} (s : State) {kt : State} (hk : Kept kr s) (he : execHeldCommitPerform s = .next kt) : Kept kr kt := by
  unfold execHeldCommitPerform at he
  injection he with he; subst he
  repeat' first
    | with_reducible assumption
    | with_reducible apply heldPerform_kept
    | dsimp only

theorem snRefill_kept {kr : State} (s : State) (hk : Kept kr s) : Kept kr (snRefill s) := by
  unfold snRefill
  repeat' first
    | with_reducible assumption
    | with_reducible apply State.modSn_kept
    | with_reducible apply snEnter_kept
    | with_reducible apply Kept.ite
    | split
    | dsimp only

theorem snLost_kept {kr : State} (s : State) (hk : Kept kr s) : Kept kr (snLost s) := by
  unfold snLost
  repeat' first
    | with_reducible assumption
    | with_reducible apply State.modSn_kept
    | with_reducible apply snEnter_kept
    | with_reducible apply Kept.ite
    | split
    | dsimp only

theorem snPresent_kept {kr : State} (s : State) (hk : Kept kr s) : Kept kr (snPresent s) := by
  unfold snPresent
  repeat' first
    | with_reducible assumption
    | with_reducible apply State.modSn_kept
    | with_reducible apply gcount_kept
    | with_reducible apply snShow_kept
    | with_reducible apply snRefill_kept
    | with_reducible apply snLost_kept
    | with_reducible apply Kept.ite
    | split
    | dsimp only

theorem execSnNoticePresent_kept {kr : State} (s : State) {kt : State} (hk : Kept kr s) (he : execSnNoticePresent s = .next kt) : Kept kr kt := by
  unfold execSnNoticePresent at he
  injection he with he; subst he
  repeat' first
    | with_reducible assumption
    | with_reducible apply snPresent_kept
    | dsimp only

theorem watchRelease_kept {kr : State} (s : State) (hk : Kept kr s) : Kept kr (watchRelease s) := by
  unfold watchRelease
  repeat' first
    | with_reducible assumption
    | with_reducible apply inner_kept
    | with_reducible apply releaseWatched_kept
    | with_reducible apply askFor_kept
    | with_reducible apply pump_kept
    | with_reducible apply Kept.ite
    | (with_reducible refine Kept.foldl (fun _ _ _ => ?_) ?_)
    | split
    | dsimp only

theorem execWatchRelease_kept {kr : State} (s : State) {kt : State} (hk : Kept kr s) (he : execWatchRelease s = .next kt) : Kept kr kt := by
  unfold execWatchRelease at he
  injection he with he; subst he
  repeat' first
    | with_reducible assumption
    | with_reducible apply watchRelease_kept
    | dsimp only

end Sys2Proof.Machine
end

