-- ==== Sys2Proof/Laws/KeptCmd.lean ====
section
/-! SUPPORT. Every effect defined in Commands, Registers, Destroy, Contexts keeps the relation of Laws/Kept. -/

namespace Sys2Proof.Machine

theorem clearSkip_kept {kr : State} (q : Nat) (c : Cmd) (s : State) (hk : Kept kr s) : Kept kr (clearSkip q c s) := by
  unfold clearSkip
  repeat' first
    | with_reducible assumption
    | with_reducible apply State.modSeq_kept
    | with_reducible apply Kept.ite
    | split
    | dsimp only

theorem awlMiss_kept {kr : State} (q : Nat) (s : State) (hk : Kept kr s) : Kept kr (awlMiss q s) := by
  unfold awlMiss
  repeat' first
    | with_reducible assumption
    | with_reducible apply State.modSeq_kept
    | with_reducible apply report_kept
    | with_reducible apply Kept.ite
    | split
    | dsimp only

theorem runCmd_kept {kr : State} (c : Cmd) (fmt : Cmd → List (Nat × Nat)) (f : Cmd → State → State)
    (hf : ∀ c s, Kept kr s → Kept kr (f c s)) (s : State) (hk : Kept kr s) : Kept kr (runCmd c fmt f s) := by
  unfold runCmd
  repeat' first
    | with_reducible assumption
    | with_reducible apply refuse_kept
    | exact hf _ _ hk
    | split

theorem askBank_kept {kr : State} (c : Cmd) (s : State) (hk : Kept kr s) : Kept kr (askBank c s) := by
  unfold askBank
  repeat' first
    | with_reducible assumption
    | with_reducible apply wakeSlot_kept
    | with_reducible apply Kept.ite
    | (with_reducible refine Kept.foldl (fun _ _ _ => ?_) ?_)
    | split
    | dsimp only

theorem startCmd_kept {kr : State} (code : Nat) (id : Nat) (fmt : Cmd → List (Nat × Nat)) (f : Cmd → State → State)
    (hf : ∀ c s, Kept kr s → Kept kr (f c s)) (s : State) (hk : Kept kr s) : Kept kr (startCmd code id fmt f s) := by
  unfold startCmd
  repeat' first
    | with_reducible assumption
    | with_reducible apply pump_kept
    | with_reducible apply runCmd_kept
    | with_reducible apply awlMiss_kept
    | with_reducible apply clearSkip_kept
    | with_reducible apply askBank_kept
    | split

theorem startWait_kept {kr : State} (c : Cmd) (p : Phase) (s : State) (hk : Kept kr s) : Kept kr (startWait c p s) := by
  unfold startWait
  repeat' first
    | with_reducible assumption
    | with_reducible apply setPhase_kept
    | dsimp only

theorem memFail_kept {kr : State} (c : Cmd) (n : Nat) (s : State) (hk : Kept kr s) : Kept kr (memFail c n s) := by
  unfold memFail
  repeat' first
    | with_reducible assumption
    | with_reducible apply refuse_kept
    | dsimp only

theorem respond_kept {kr : State} (v : Word) (err : Bool) (s : State) (hk : Kept kr s) : Kept kr (respond v err s) := by
  unfold respond
  repeat' first
    | with_reducible assumption
    | with_reducible apply State.modCr_kept
    | dsimp only

theorem noResponse_kept {kr : State} (s : State) (hk : Kept kr s) : Kept kr (noResponse s) := by
  unfold noResponse
  repeat' first
    | with_reducible assumption
    | with_reducible apply State.modCr_kept
    | dsimp only

theorem accessFail_kept {kr : State} (x : Access) (a : CrAddr) (acc : CrAcc) (s : State) (hk : Kept kr s) : Kept kr (accessFail x a acc s) := by
  unfold accessFail
  repeat' first
    | with_reducible assumption
    | with_reducible apply report_kept
    | with_reducible apply respond_kept
    | with_reducible apply Kept.ite
    | split
    | dsimp only

theorem readGood_kept {kr : State} (a : CrAddr) (acc : CrAcc) (s : State) (hk : Kept kr s) : Kept kr (readGood a acc s) := by
  unfold readGood
  repeat' first
    | with_reducible assumption
    | with_reducible apply State.modCr_kept
    | with_reducible apply respond_kept
    | with_reducible apply Kept.ite
    | (with_reducible refine Kept.foldl (fun _ _ _ => ?_) ?_)
    | split
    | dsimp only

theorem crRead_kept {kr : State} (a : CrAddr) (acc : CrAcc) (s : State) (hk : Kept kr s) : Kept kr (crRead a acc s) := by
  unfold crRead
  repeat' first
    | with_reducible assumption
    | with_reducible apply noResponse_kept
    | with_reducible apply accessFail_kept
    | with_reducible apply readGood_kept
    | with_reducible apply Kept.ite
    | split
    | dsimp only

theorem execMultiwordRead_kept {kr : State} (addr : CrAddr) (acc : CrAcc) (s : State) {kt : State} (hk : Kept kr s) (he : execMultiwordRead addr acc s = .next kt) : Kept kr kt := by
  unfold execMultiwordRead at he
  injection he with he; subst he
  repeat' first
    | with_reducible assumption
    | with_reducible apply crRead_kept
    | dsimp only

theorem stageWord_kept {kr : State} (w : Win) (k : Nat) (v : Word) (s : State) (hk : Kept kr s) : Kept kr (stageWord w k v s) := by
  unfold stageWord
  repeat' first
    | with_reducible assumption
    | with_reducible apply State.modWin_kept
    | dsimp only

theorem overrun_kept {kr : State} (w : Win) (s : State) (hk : Kept kr s) : Kept kr (overrun w s) := by
  unfold overrun
  repeat' first
    | with_reducible assumption
    | with_reducible apply raisePart_kept
    | with_reducible apply raiseGlobal_kept
    | with_reducible apply report_kept
    | split
    | dsimp only

theorem submit_kept {kr : State} (w : Win) (acc : CrAcc) (s : State) (hk : Kept kr s) : Kept kr (submit w acc s) := by
  unfold submit
  repeat' first
    | with_reducible assumption
    | with_reducible apply State.modWin_kept
    | with_reducible apply arrive_kept
    | with_reducible apply overrun_kept
    | with_reducible apply Kept.ite
    | split
    | dsimp only

theorem popLc_kept {kr : State} (w : Win) (slot : Nat) (s : State) (hk : Kept kr s) : Kept kr (popLc w slot s) := by
  unfold popLc
  repeat' first
    | with_reducible assumption
    | ((with_reducible refine State.modSlu_kept ?_ ?_); · rfl)
    | with_reducible apply Kept.ite
    | split
    | dsimp only

theorem replyPop_kept {kr : State} (w : Win) (s : State) (hk : Kept kr s) : Kept kr (replyPop w s) := by
  unfold replyPop
  repeat' first
    | with_reducible assumption
    | with_reducible apply State.modWin_kept
    | with_reducible apply popLc_kept
    | split
    | dsimp only

theorem clearIrq_kept {kr : State} (p : PartId) (v : Word) (s : State) (hk : Kept kr s) : Kept kr (clearIrq p v s) := by
  unfold clearIrq
  repeat' first
    | with_reducible assumption
    | with_reducible apply State.modWin_kept
    | with_reducible apply Kept.ite
    | split
    | dsimp only

theorem writeWin_kept {kr : State} (p : PartId) (o : Nat) (acc : CrAcc) (s : State) (hk : Kept kr s) : Kept kr (writeWin p o acc s) := by
  unfold writeWin
  repeat' first
    | with_reducible assumption
    | with_reducible apply State.modWin_kept
    | with_reducible apply stageWord_kept
    | with_reducible apply submit_kept
    | with_reducible apply replyPop_kept
    | with_reducible apply clearIrq_kept
    | with_reducible apply Kept.ite
    | split
    | dsimp only

theorem stage_kept {kr : State} (a : Nat) (v : Word) (s : State) (hk : Kept kr s) : Kept kr (stage a v s) := by
  unfold stage
  repeat' first
    | with_reducible assumption
    | with_reducible apply State.modCr_kept
    | dsimp only

theorem unstage_kept {kr : State} (a : Nat) (s : State) (hk : Kept kr s) : Kept kr (unstage a s).2 := by
  unfold unstage
  repeat' first
    | with_reducible assumption
    | with_reducible apply State.modCr_kept
    | dsimp only

theorem unstage_keptE {kr : State} (a : Nat) (s : State) {kv} {kt : State} (hk : Kept kr s) (he : unstage a s = (kv, kt)) : Kept kr kt := by
  have h := unstage_kept (kr := kr) a s hk
  rw [he] at h; exact h

theorem writeTimeInc_kept {kr : State} (v : Word) (s : State) (hk : Kept kr s) : Kept kr (writeTimeInc v s) := by
  unfold writeTimeInc
  repeat' first
    | with_reducible assumption
    | ((with_reducible refine State.modClk_kept ?_ ?_); · rfl)
    | with_reducible apply unstage_kept
    | (refine unstage_keptE _ _ ?_ (by with_reducible assumption))
    | with_reducible apply Kept.ite
    | split
    | dsimp only

theorem writePushPtr_kept {kr : State} (v : Word) (s : State) (hk : Kept kr s) : Kept kr (writePushPtr v s) := by
  unfold writePushPtr
  repeat' first
    | with_reducible assumption
    | ((with_reducible refine State.modSlu_kept ?_ ?_); · rfl)
    | with_reducible apply Kept.ite
    | split
    | dsimp only

theorem writePushData_kept {kr : State} (v : Word) (s : State) (hk : Kept kr s) : Kept kr (writePushData v s) := by
  unfold writePushData
  repeat' first
    | with_reducible assumption
    | ((with_reducible refine State.modSlu_kept ?_ ?_); · rfl)
    | with_reducible apply Kept.ite
    | split
    | dsimp only

theorem clearAdvise_kept {kr : State} (s : State) (hk : Kept kr s) : Kept kr (clearAdvise s) := by
  unfold clearAdvise
  repeat' first
    | with_reducible assumption
    | ((with_reducible refine State.modSlu_kept ?_ ?_); · rfl)
    | with_reducible apply Kept.ite
    | split
    | dsimp only

theorem writeGlobal_kept {kr : State} (a : Nat) (acc : CrAcc) (s : State) (hk : Kept kr s) : Kept kr (writeGlobal a acc s) := by
  unfold writeGlobal
  repeat' first
    | with_reducible assumption
    | with_reducible apply State.modCtm_kept
    | with_reducible apply State.modCr_kept
    | ((with_reducible refine State.modClk_kept ?_ ?_); · rfl)
    | with_reducible apply stageWord_kept
    | with_reducible apply submit_kept
    | with_reducible apply replyPop_kept
    | with_reducible apply stage_kept
    | with_reducible apply unstage_kept
    | (refine unstage_keptE _ _ ?_ (by with_reducible assumption))
    | with_reducible apply writeTimeInc_kept
    | with_reducible apply writePushPtr_kept
    | with_reducible apply writePushData_kept
    | with_reducible apply clearAdvise_kept
    | with_reducible apply Kept.ite
    | split
    | dsimp only

theorem errlogClear_kept {kr : State} (s : State) (hk : Kept kr s) : Kept kr (errlogClear s) := by
  unfold errlogClear
  repeat' first
    | with_reducible assumption
    | with_reducible apply State.modObs_kept
    | dsimp only

theorem errlogPop_kept {kr : State} (s : State) (hk : Kept kr s) : Kept kr (errlogPop s) := by
  unfold errlogPop
  repeat' first
    | with_reducible assumption
    | with_reducible apply State.modObs_kept
    | dsimp only

theorem writeTraceCtl_kept {kr : State} (v : Word) (s : State) (hk : Kept kr s) : Kept kr (writeTraceCtl v s) := by
  unfold writeTraceCtl
  repeat' first
    | with_reducible assumption
    | with_reducible apply modTrace_kept
    | with_reducible apply Kept.ite
    | split
    | dsimp only

theorem writeCensusCtl_kept {kr : State} (v : Word) (s : State) (hk : Kept kr s) : Kept kr (writeCensusCtl v s) := by
  unfold writeCensusCtl
  repeat' first
    | with_reducible assumption
    | with_reducible apply State.modCensus_kept
    | with_reducible apply Kept.ite
    | split
    | dsimp only

theorem writeObs_kept {kr : State} (a : Nat) (acc : CrAcc) (s : State) (hk : Kept kr s) : Kept kr (writeObs a acc s) := by
  unfold writeObs
  repeat' first
    | with_reducible assumption
    | with_reducible apply State.modHob_kept
    | with_reducible apply State.modCensus_kept
    | with_reducible apply modTrace_kept
    | with_reducible apply stage_kept
    | with_reducible apply unstage_kept
    | (refine unstage_keptE _ _ ?_ (by with_reducible assumption))
    | with_reducible apply errlogClear_kept
    | with_reducible apply errlogPop_kept
    | with_reducible apply writeTraceCtl_kept
    | with_reducible apply writeCensusCtl_kept
    | with_reducible apply Kept.ite
    | split
    | dsimp only

theorem writeAdmit_kept {kr : State} (e : Nat) (v : Word) (s : State) (hk : Kept kr s) : Kept kr (writeAdmit e v s) := by
  unfold writeAdmit
  repeat' first
    | with_reducible assumption
    | with_reducible apply State.modFab_kept
    | with_reducible apply unstage_kept
    | (refine unstage_keptE _ _ ?_ (by with_reducible assumption))
    | with_reducible apply Kept.ite
    | split
    | dsimp only

theorem writeFab_kept {kr : State} (a : Nat) (acc : CrAcc) (s : State) (hk : Kept kr s) : Kept kr (writeFab a acc s) := by
  unfold writeFab
  repeat' first
    | with_reducible assumption
    | with_reducible apply State.modFab_kept
    | with_reducible apply stage_kept
    | with_reducible apply unstage_kept
    | (refine unstage_keptE _ _ ?_ (by with_reducible assumption))
    | with_reducible apply writeAdmit_kept
    | with_reducible apply Kept.ite
    | split
    | dsimp only

theorem writeSec_kept {kr : State} (a : Nat) (acc : CrAcc) (s : State) (hk : Kept kr s) : Kept kr (writeSec a acc s) := by
  unfold writeSec
  repeat' first
    | with_reducible assumption
    | with_reducible apply State.modPart_kept
    | ((with_reducible refine State.modSlu_kept ?_ ?_); · rfl)
    | with_reducible apply Kept.ite
    | split
    | dsimp only

theorem writeReg_kept {kr : State} (a : Nat) (acc : CrAcc) (s : State) (hk : Kept kr s) : Kept kr (writeReg a acc s) := by
  unfold writeReg
  repeat' first
    | with_reducible assumption
    | with_reducible apply bindWrite_kept
    | with_reducible apply writeWin_kept
    | with_reducible apply writeGlobal_kept
    | with_reducible apply writeObs_kept
    | with_reducible apply writeFab_kept
    | with_reducible apply writeSec_kept
    | with_reducible apply Kept.ite
    | split
    | dsimp only

theorem crWrite_kept {kr : State} (a : CrAddr) (acc : CrAcc) (s : State) (hk : Kept kr s) : Kept kr (crWrite a acc s) := by
  unfold crWrite
  repeat' first
    | with_reducible assumption
    | with_reducible apply respond_kept
    | with_reducible apply noResponse_kept
    | with_reducible apply accessFail_kept
    | with_reducible apply writeReg_kept
    | with_reducible apply Kept.ite
    | split
    | dsimp only

theorem execRegisterWrite_kept {kr : State} (addr : CrAddr) (acc : CrAcc) (s : State) {kt : State} (hk : Kept kr s) (he : execRegisterWrite addr acc s = .next kt) : Kept kr kt := by
  unfold execRegisterWrite at he
  injection he with he; subst he
  repeat' first
    | with_reducible assumption
    | with_reducible apply crWrite_kept
    | dsimp only

theorem execApBindWrite_kept {kr : State} (agent : AgentId) (acc : CrAcc) (s : State) {kt : State} (hk : Kept kr s) (he : execApBindWrite agent acc s = .next kt) : Kept kr kt := by
  unfold execApBindWrite at he
  injection he with he; subst he
  repeat' first
    | with_reducible assumption
    | with_reducible apply crWrite_kept
    | dsimp only

theorem execCmdSubmit_kept {kr : State} (w : Win) (acc : CrAcc) (s : State) {kt : State} (hk : Kept kr s) (he : execCmdSubmit w acc s = .next kt) : Kept kr kt := by
  unfold execCmdSubmit at he
  injection he with he; subst he
  repeat' first
    | with_reducible assumption
    | with_reducible apply crWrite_kept
    | dsimp only

theorem execReplyPop_kept {kr : State} (w : Win) (acc : CrAcc) (s : State) {kt : State} (hk : Kept kr s) (he : execReplyPop w acc s = .next kt) : Kept kr kt := by
  unfold execReplyPop at he
  injection he with he; subst he
  repeat' first
    | with_reducible assumption
    | with_reducible apply crWrite_kept
    | dsimp only

theorem execClearAdvise_kept {kr : State} (acc : CrAcc) (s : State) {kt : State} (hk : Kept kr s) (he : execClearAdvise acc s = .next kt) : Kept kr kt := by
  unfold execClearAdvise at he
  injection he with he; subst he
  repeat' first
    | with_reducible assumption
    | with_reducible apply crWrite_kept
    | dsimp only

theorem execErrlogPop_kept {kr : State} (acc : CrAcc) (s : State) {kt : State} (hk : Kept kr s) (he : execErrlogPop acc s = .next kt) : Kept kr kt := by
  unfold execErrlogPop at he
  injection he with he; subst he
  repeat' first
    | with_reducible assumption
    | with_reducible apply crWrite_kept
    | dsimp only

theorem execErrlogClear_kept {kr : State} (acc : CrAcc) (s : State) {kt : State} (hk : Kept kr s) (he : execErrlogClear acc s = .next kt) : Kept kr kt := by
  unfold execErrlogClear at he
  injection he with he; subst he
  repeat' first
    | with_reducible assumption
    | with_reducible apply crWrite_kept
    | dsimp only

theorem execFwPushData_kept {kr : State} (acc : CrAcc) (s : State) {kt : State} (hk : Kept kr s) (he : execFwPushData acc s = .next kt) : Kept kr kt := by
  unfold execFwPushData at he
  injection he with he; subst he
  repeat' first
    | with_reducible assumption
    | with_reducible apply crWrite_kept
    | dsimp only

theorem execFwPushPtrWrite_kept {kr : State} (acc : CrAcc) (s : State) {kt : State} (hk : Kept kr s) (he : execFwPushPtrWrite acc s = .next kt) : Kept kr kt := by
  unfold execFwPushPtrWrite at he
  injection he with he; subst he
  repeat' first
    | with_reducible assumption
    | with_reducible apply crWrite_kept
    | dsimp only

theorem lowerHeld_kept {kr : State} (k : OKey) (s : State) (hk : Kept kr s) : Kept kr (lowerHeld k s) := by
  unfold lowerHeld
  repeat' first
    | with_reducible assumption
    | with_reducible apply State.setBody_kept
    | split
    | dsimp only

theorem loseHeld_kept {kr : State} (h : Held) (s : State) (hk : Kept kr s) : Kept kr (loseHeld h s) := by
  unfold loseHeld
  repeat' first
    | with_reducible assumption
    | with_reducible apply report_kept
    | with_reducible apply closeAt_kept
    | with_reducible apply dropHeld_kept
    | with_reducible apply lowerHeld_kept
    | with_reducible apply Kept.ite
    | split
    | dsimp only

theorem loseLock_kept {kr : State} (k : OKey) (l : Lock) (s : State) (hk : Kept kr s) : Kept kr (loseLock k l s) := by
  unfold loseLock
  repeat' first
    | with_reducible assumption
    | with_reducible apply fabSend_kept
    | with_reducible apply sendInherit_kept
    | with_reducible apply delHolding_kept
    | with_reducible apply Kept.ite
    | split
    | dsimp only

theorem loseBody_kept {kr : State} (k : OKey) (b : Body) (s : State) (hk : Kept kr s) : Kept kr (loseBody k b s) := by
  unfold loseBody
  repeat' first
    | with_reducible assumption
    | with_reducible apply State.modLcu_kept
    | with_reducible apply State.delDesc_kept
    | with_reducible apply secDown_kept
    | with_reducible apply delArm_kept
    | with_reducible apply loseLock_kept
    | with_reducible apply Kept.ite
    | split
    | dsimp only

theorem destroyObject_kept {kr : State} (k : OKey) (o : Obj) (s : State) (hk : Kept kr s) : Kept kr (destroyObject k o s) := by
  unfold destroyObject
  repeat' first
    | with_reducible assumption
    | with_reducible apply State.modWmc_kept
    | with_reducible apply State.modTdu_kept
    | with_reducible apply State.modObs_kept
    | with_reducible apply State.delObj_kept
    | with_reducible apply wakeAll_kept
    | with_reducible apply takeWaiters_kept
    | (refine takeWaiters_keptE _ _ _ ?_ (by with_reducible assumption))
    | with_reducible apply delFence_kept
    | with_reducible apply dropDue_kept
    | with_reducible apply loseHeld_kept
    | with_reducible apply loseBody_kept
    | (with_reducible refine Kept.foldl (fun _ _ _ => ?_) ?_)
    | dsimp only

theorem dropTack_kept {kr : State} (p : PartId) (c : CtxId) (zero : Bool) (s : State) (hk : Kept kr s) : Kept kr (dropTack p c zero s) := by
  unfold dropTack
  repeat' first
    | with_reducible assumption
    | with_reducible apply State.modCtm_kept
    | with_reducible apply zeroTack_kept
    | with_reducible apply Kept.ite
    | split
    | dsimp only

theorem destroyCtx_kept {kr : State} (p : PartId) (c : CtxId) (s : State) (hk : Kept kr s) : Kept kr (destroyCtx p c s).2 := by
  unfold destroyCtx
  repeat' first
    | with_reducible assumption
    | with_reducible apply State.setCtx_kept
    | with_reducible apply inner_kept
    | with_reducible apply wakeSlot_kept
    | with_reducible apply loseHeld_kept
    | with_reducible apply destroyObject_kept
    | with_reducible apply dropTack_kept
    | with_reducible apply Kept.ite
    | (with_reducible refine Kept.foldl (fun _ _ _ => ?_) ?_)
    | split
    | dsimp only

theorem destroyCtx_keptE {kr : State} (p : PartId) (c : CtxId) (s : State) {kv} {kt : State} (hk : Kept kr s) (he : destroyCtx p c s = (kv, kt)) : Kept kr kt := by
  have h := destroyCtx_kept (kr := kr) p c s hk
  rw [he] at h; exact h

theorem ctxCreate_kept {kr : State} (c : Cmd) (s : State) (hk : Kept kr s) : Kept kr (ctxCreate c s) := by
  unfold ctxCreate
  repeat' first
    | with_reducible assumption
    | with_reducible apply State.setCtx_kept
    | with_reducible apply ok_kept
    | with_reducible apply refuse_kept
    | with_reducible apply Kept.ite
    | split
    | dsimp only

theorem execCtxCreate_kept {kr : State} (id : Nat) (s : State) {kt : State} (hk : Kept kr s) (he : execCtxCreate id s = .next kt) : Kept kr kt := by
  unfold execCtxCreate at he
  injection he with he; subst he
  repeat' first
    | with_reducible assumption
    | with_reducible apply startCmd_kept
    | with_reducible apply ctxCreate_kept
    | (intro _ _ _)
    | dsimp only

theorem ctxDestroy_kept {kr : State} (c : Cmd) (s : State) (hk : Kept kr s) : Kept kr (ctxDestroy c s) := by
  unfold ctxDestroy
  repeat' first
    | with_reducible assumption
    | with_reducible apply ok_kept
    | with_reducible apply refuse_kept
    | with_reducible apply destroyCtx_kept
    | (refine destroyCtx_keptE _ _ _ ?_ (by with_reducible assumption))
    | with_reducible apply Kept.ite
    | split
    | dsimp only

theorem execCtxDestroy_kept {kr : State} (id : Nat) (s : State) {kt : State} (hk : Kept kr s) (he : execCtxDestroy id s = .next kt) : Kept kr kt := by
  unfold execCtxDestroy at he
  injection he with he; subst he
  repeat' first
    | with_reducible assumption
    | with_reducible apply startCmd_kept
    | with_reducible apply ctxDestroy_kept
    | (intro _ _ _)
    | dsimp only

theorem ctxQuery_kept {kr : State} (c : Cmd) (s : State) (hk : Kept kr s) : Kept kr (ctxQuery c s) := by
  unfold ctxQuery
  repeat' first
    | with_reducible assumption
    | with_reducible apply ok_kept
    | dsimp only

theorem execCtxQuery_kept {kr : State} (id : Nat) (s : State) {kt : State} (hk : Kept kr s) (he : execCtxQuery id s = .next kt) : Kept kr kt := by
  unfold execCtxQuery at he
  injection he with he; subst he
  repeat' first
    | with_reducible assumption
    | with_reducible apply startCmd_kept
    | with_reducible apply ctxQuery_kept
    | (intro _ _ _)
    | dsimp only

theorem ctxEvict_kept {kr : State} (c : Cmd) (s : State) (hk : Kept kr s) : Kept kr (ctxEvict c s) := by
  unfold ctxEvict
  repeat' first
    | with_reducible assumption
    | with_reducible apply State.setCtx_kept
    | with_reducible apply State.modLcu_kept
    | with_reducible apply State.modCtm_kept
    | with_reducible apply refuse_kept
    | with_reducible apply setPhase_kept
    | with_reducible apply Kept.ite
    | split
    | dsimp only

theorem execCtxEvict_kept {kr : State} (id : Nat) (s : State) {kt : State} (hk : Kept kr s) (he : execCtxEvict id s = .next kt) : Kept kr kt := by
  unfold execCtxEvict at he
  injection he with he; subst he
  repeat' first
    | with_reducible assumption
    | with_reducible apply startCmd_kept
    | with_reducible apply ctxEvict_kept
    | (intro _ _ _)
    | dsimp only

theorem countSpill_kept {kr : State} (p : PartId) (n : Nat) (s : State) (hk : Kept kr s) : Kept kr (countSpill p n s) := by
  unfold countSpill
  repeat' first
    | with_reducible assumption
    | with_reducible apply countN_kept
    | with_reducible apply gcountN_kept
    | dsimp only

theorem spillBytes_kept {kr : State} (s : State) (hk : Kept kr s) : Kept kr (spillBytes s) := by
  unfold spillBytes
  repeat' first
    | with_reducible assumption
    | with_reducible apply fresh_kept
    | (refine fresh_keptE _ ?_ (by with_reducible assumption))
    | with_reducible apply mmWrite_kept
    | dsimp only

theorem spillMany_kept {kr : State}  (n : Nat) : ∀ (s : State), Kept kr s → Kept kr (spillMany  n s) := by
  induction n with
  | zero => intro s hk; unfold spillMany; exact hk
  | succ n ih =>
    intro s hk
    unfold spillMany
    repeat' first
      | with_reducible assumption
      | with_reducible apply ih
      | with_reducible apply spillBytes_kept
      | split
      | dsimp only

theorem spillFetch_kept {kr : State} (s : State) (hk : Kept kr s) : Kept kr (spillFetch s) := by
  unfold spillFetch
  repeat' first
    | with_reducible assumption
    | with_reducible apply fresh_kept
    | (refine fresh_keptE _ ?_ (by with_reducible assumption))
    | with_reducible apply mmRequest_kept
    | dsimp only

theorem evictNow_kept {kr : State} (p : PartId) (c : CtxId) (s : State) (hk : Kept kr s) : Kept kr (evictNow p c s) := by
  unfold evictNow
  repeat' first
    | with_reducible assumption
    | with_reducible apply State.modCtx_kept
    | with_reducible apply State.modWmc_kept
    | with_reducible apply State.modTrk_kept
    | with_reducible apply gcountN_kept
    | with_reducible apply gcount_kept
    | with_reducible apply State.delObj_kept
    | with_reducible apply delFence_kept
    | with_reducible apply writeTack_kept
    | with_reducible apply modTack_kept
    | with_reducible apply countSpill_kept
    | with_reducible apply spillMany_kept
    | with_reducible apply Kept.ite
    | (with_reducible refine Kept.foldl (fun _ _ _ => ?_) ?_)
    | split
    | dsimp only

theorem wakeRows_kept {kr : State} (s : State) (hk : Kept kr s) : Kept kr (wakeRows s) := by
  unfold wakeRows
  repeat' first
    | with_reducible assumption
    | with_reducible apply wakeBank_kept
    | (with_reducible refine Kept.foldl (fun _ _ _ => ?_) ?_)
    | dsimp only

theorem evictDrained_kept {kr : State} (p : PartId) (c : CtxId) (s : State) (hk : Kept kr s) : Kept kr (evictDrained p c s) := by
  unfold evictDrained
  repeat' first
    | with_reducible assumption
    | with_reducible apply ok_kept
    | with_reducible apply pump_kept
    | with_reducible apply evictNow_kept
    | with_reducible apply wakeRows_kept
    | with_reducible apply Kept.ite
    | split
    | dsimp only

theorem execCtxEvictDrained_kept {kr : State} (part : PartId) (ctx : CtxId) (s : State) {kt : State} (hk : Kept kr s) (he : execCtxEvictDrained part ctx s = .next kt) : Kept kr kt := by
  unfold execCtxEvictDrained at he
  injection he with he; subst he
  repeat' first
    | with_reducible assumption
    | with_reducible apply evictDrained_kept
    | dsimp only

theorem ctxRestore_kept {kr : State} (c : Cmd) (s : State) (hk : Kept kr s) : Kept kr (ctxRestore c s) := by
  unfold ctxRestore
  repeat' first
    | with_reducible assumption
    | with_reducible apply State.setCtx_kept
    | with_reducible apply refuse_kept
    | with_reducible apply setPhase_kept
    | with_reducible apply Kept.ite
    | split
    | dsimp only

theorem execCtxRestore_kept {kr : State} (id : Nat) (s : State) {kt : State} (hk : Kept kr s) (he : execCtxRestore id s = .next kt) : Kept kr kt := by
  unfold execCtxRestore at he
  injection he with he; subst he
  repeat' first
    | with_reducible assumption
    | with_reducible apply startCmd_kept
    | with_reducible apply ctxRestore_kept
    | (intro _ _ _)
    | dsimp only

theorem nameDesc_kept {kr : State} (k : OKey) (i : Nat) (s : State) (hk : Kept kr s) : Kept kr (nameDesc k i s) := by
  unfold nameDesc
  repeat' first
    | with_reducible assumption
    | with_reducible apply State.setBody_kept
    | split
    | dsimp only

theorem restoreRing_kept {kr : State} (p : PartId) (c : CtxId) (x : Index × Desc) (s : State) (hk : Kept kr s) : Kept kr (restoreRing p c x s) := by
  unfold restoreRing
  repeat' first
    | with_reducible assumption
    | with_reducible apply fresh_kept
    | (refine fresh_keptE _ ?_ (by with_reducible assumption))
    | with_reducible apply State.setDesc_kept
    | with_reducible apply nameDesc_kept
    | with_reducible apply Kept.ite
    | split
    | dsimp only

theorem reloadOne_kept {kr : State} (q : OKey → Bool) (s : State) {kt : State} (hk : Kept kr s) (he : reloadOne q s = some kt) : Kept kr kt := by
  unfold reloadOne at he
  repeat' first
    | (cases he; done)
    | (injection he with he; subst he)
    | (injection he with he; injection he with he1 he2; subst he2)
    | (injection he with he)
    | split at he
    | dsimp only at he
    | with_reducible assumption
    | with_reducible apply State.modWmc_kept
    | with_reducible apply syncHdr_kept
    | with_reducible apply State.setDesc_kept
    | split
    | dsimp only

theorem reloadLoop_kept {kr : State} (q : OKey → Bool) (n : Nat) : ∀ (s : State), Kept kr s → Kept kr (reloadLoop q n s) := by
  induction n with
  | zero => intro s hk; unfold reloadLoop; exact hk
  | succ n ih =>
    intro s hk
    unfold reloadLoop
    repeat' first
      | with_reducible assumption
      | with_reducible apply ih
      | with_reducible apply gcount_kept
      | with_reducible apply spillFetch_kept
      | (refine reloadOne_kept _ _ ?_ (by with_reducible assumption))
      | with_reducible apply Kept.ite
      | split
      | dsimp only

theorem fetchIn_kept {kr : State} (k : OKey) (s : State) (hk : Kept kr s) : Kept kr (fetchIn k s) := by
  unfold fetchIn
  repeat' first
    | with_reducible assumption
    | with_reducible apply State.modWmc_kept
    | with_reducible apply syncHdr_kept
    | with_reducible apply State.setDesc_kept
    | with_reducible apply spillFetch_kept
    | with_reducible apply Kept.ite
    | split
    | dsimp only

theorem fetchAs_kept {kr : State} (op : Op) (k : OKey) (s : State) (hk : Kept kr s) : Kept kr (fetchAs op k s) := by
  unfold fetchAs
  repeat' first
    | with_reducible assumption
    | with_reducible apply fetchIn_kept
    | with_reducible apply Kept.ite
    | split
    | dsimp only

theorem applyDefer_kept {kr : State} (d : Defer) (s : State) (hk : Kept kr s) : Kept kr (applyDefer d s) := by
  unfold applyDefer
  repeat' first
    | with_reducible assumption
    | with_reducible apply inner_kept
    | with_reducible apply abandonLock_kept
    | with_reducible apply expireLease_kept
    | with_reducible apply cancelRsv_kept
    | with_reducible apply afterLeaving_kept
    | with_reducible apply expireDeadline_kept
    | with_reducible apply undoGive_kept
    | with_reducible apply fetchAs_kept
    | split
    | dsimp only

theorem applySum_kept {kr : State} (a : Arm) (s : State) (hk : Kept kr s) : Kept kr (applySum a s) := by
  unfold applySum
  repeat' first
    | with_reducible assumption
    | with_reducible apply State.modLcu_kept
    | with_reducible apply inner_kept
    | with_reducible apply decrement_kept
    | dsimp only

theorem renewWq_kept {kr : State} (k : OKey) (s : State) (hk : Kept kr s) : Kept kr (renewWq k s) := by
  unfold renewWq
  repeat' first
    | with_reducible assumption
    | with_reducible apply freshWq_kept
    | with_reducible apply Kept.ite
    | split
    | dsimp only

theorem postWaiting_kept {kr : State} (p : PartId) (c : CtxId) (s : State) (hk : Kept kr s) : Kept kr (postWaiting p c s) := by
  unfold postWaiting
  repeat' first
    | with_reducible assumption
    | with_reducible apply inner_kept
    | with_reducible apply dropHeld_kept
    | with_reducible apply performHeldSignal_kept
    | with_reducible apply performHeldCommit_kept
    | with_reducible apply Kept.ite
    | (with_reducible refine Kept.foldl (fun _ _ _ => ?_) ?_)
    | split
    | dsimp only

theorem restoreNow_kept {kr : State} (p : PartId) (c : CtxId) (r : TackRec) (s : State) (hk : Kept kr s) : Kept kr (restoreNow p c r s) := by
  unfold restoreNow
  repeat' first
    | with_reducible assumption
    | with_reducible apply State.modCtx_kept
    | with_reducible apply State.modWmc_kept
    | with_reducible apply State.modCtm_kept
    | with_reducible apply gcountN_kept
    | with_reducible apply State.setObj_kept
    | with_reducible apply syncHdr_kept
    | with_reducible apply addFence_kept
    | with_reducible apply restoreRing_kept
    | with_reducible apply reloadLoop_kept
    | with_reducible apply applyDefer_kept
    | with_reducible apply applySum_kept
    | with_reducible apply renewWq_kept
    | with_reducible apply postWaiting_kept
    | (with_reducible refine Kept.foldl (fun _ _ _ => ?_) ?_)
    | dsimp only

theorem restoreRead_kept {kr : State} (p : PartId) (c : CtxId) (crcOk : Bool) (s : State) (hk : Kept kr s) : Kept kr (restoreRead p c crcOk s) := by
  unfold restoreRead
  repeat' first
    | with_reducible assumption
    | with_reducible apply State.modCtx_kept
    | with_reducible apply mmRequest_kept
    | with_reducible apply gcount_kept
    | with_reducible apply report_kept
    | with_reducible apply ok_kept
    | with_reducible apply refuse_kept
    | with_reducible apply pump_kept
    | with_reducible apply wakeRows_kept
    | with_reducible apply restoreNow_kept
    | with_reducible apply Kept.ite
    | split
    | dsimp only

theorem execCtxRestoreRecordRead_kept {kr : State} (part : PartId) (ctx : CtxId) (crcOk : Bool) (s : State) {kt : State} (hk : Kept kr s) (he : execCtxRestoreRecordRead part ctx crcOk s = .next kt) : Kept kr kt := by
  unfold execCtxRestoreRecordRead at he
  injection he with he; subst he
  repeat' first
    | with_reducible assumption
    | with_reducible apply restoreRead_kept
    | dsimp only

theorem spillOne_kept {kr : State} (k : OKey) (s : State) (hk : Kept kr s) : Kept kr (spillOne k s) := by
  unfold spillOne
  repeat' first
    | with_reducible assumption
    | with_reducible apply State.modWmc_kept
    | with_reducible apply syncHdr_kept
    | with_reducible apply State.setDesc_kept
    | with_reducible apply Kept.ite
    | split
    | dsimp only

theorem spillBatch_kept {kr : State} (k : OKey) (n : Nat) : ∀ (s : State), Kept kr s → Kept kr (spillBatch k n s) := by
  induction n with
  | zero => intro s hk; unfold spillBatch; exact hk
  | succ n ih =>
    intro s hk
    unfold spillBatch
    repeat' first
      | with_reducible assumption
      | with_reducible apply ih
      | with_reducible apply countSpill_kept
      | with_reducible apply spillBytes_kept
      | with_reducible apply spillOne_kept
      | with_reducible apply Kept.ite
      | split
      | dsimp only

theorem spillLoop_kept {kr : State}  (n : Nat) : ∀ (s : State), Kept kr s → Kept kr (spillLoop  n s) := by
  induction n with
  | zero => intro s hk; unfold spillLoop; exact hk
  | succ n ih =>
    intro s hk
    unfold spillLoop
    repeat' first
      | with_reducible assumption
      | with_reducible apply ih
      | with_reducible apply spillBatch_kept
      | with_reducible apply Kept.ite
      | split
      | dsimp only

theorem spillFrom_kept {kr : State} (q : OKey → Bool) (s : State) (hk : Kept kr s) : Kept kr (spillFrom q s) := by
  unfold spillFrom
  repeat' first
    | with_reducible assumption
    | with_reducible apply spillBatch_kept
    | split
    | dsimp only

theorem spillStrict_kept {kr : State} (s : State) (hk : Kept kr s) : Kept kr (spillStrict s) := by
  unfold spillStrict
  repeat' first
    | with_reducible assumption
    | with_reducible apply spillFrom_kept
    | with_reducible apply Kept.ite
    | (with_reducible refine Kept.foldl (fun _ _ _ => ?_) ?_)
    | split
    | dsimp only

theorem waiterSpill_kept {kr : State} (s : State) (hk : Kept kr s) : Kept kr (waiterSpill s) := by
  unfold waiterSpill
  repeat' first
    | with_reducible assumption
    | with_reducible apply pump_kept
    | with_reducible apply spillLoop_kept
    | with_reducible apply spillStrict_kept
    | with_reducible apply Kept.ite
    | split
    | dsimp only

theorem execWaiterSpill_kept {kr : State} (s : State) {kt : State} (hk : Kept kr s) (he : execWaiterSpill s = .next kt) : Kept kr kt := by
  unfold execWaiterSpill at he
  injection he with he; subst he
  repeat' first
    | with_reducible assumption
    | with_reducible apply waiterSpill_kept
    | dsimp only

theorem waiterReload_kept {kr : State} (s : State) (hk : Kept kr s) : Kept kr (waiterReload s) := by
  unfold waiterReload
  repeat' first
    | with_reducible assumption
    | with_reducible apply reloadLoop_kept
    | with_reducible apply Kept.ite
    | split
    | dsimp only

theorem execWaiterReload_kept {kr : State} (s : State) {kt : State} (hk : Kept kr s) (he : execWaiterReload s = .next kt) : Kept kr kt := by
  unfold execWaiterReload at he
  injection he with he; subst he
  repeat' first
    | with_reducible assumption
    | with_reducible apply waiterReload_kept
    | dsimp only

theorem spilledWake_kept {kr : State} (s : State) (hk : Kept kr s) : Kept kr (spilledWake s) := by
  unfold spilledWake
  repeat' first
    | with_reducible assumption
    | with_reducible apply State.modWmc_kept
    | with_reducible apply count_kept
    | with_reducible apply sendWake_kept
    | with_reducible apply pump_kept
    | with_reducible apply spillFetch_kept
    | with_reducible apply Kept.ite
    | split
    | dsimp only

theorem execSpilledWaiterWake_kept {kr : State} (s : State) {kt : State} (hk : Kept kr s) (he : execSpilledWaiterWake s = .next kt) : Kept kr kt := by
  unfold execSpilledWaiterWake at he
  injection he with he; subst he
  repeat' first
    | with_reducible assumption
    | with_reducible apply spilledWake_kept
    | dsimp only

theorem entryFetch_kept {kr : State} (k : OKey) (s : State) (hk : Kept kr s) : Kept kr (entryFetch k s) := by
  unfold entryFetch
  repeat' first
    | with_reducible assumption
    | with_reducible apply State.modWmc_kept
    | with_reducible apply pump_kept
    | with_reducible apply fetchIn_kept
    | with_reducible apply Kept.ite
    | split
    | dsimp only

theorem execSpilledEntryFetch_kept {kr : State} (k : OKey) (s : State) {kt : State} (hk : Kept kr s) (he : execSpilledEntryFetch k s = .next kt) : Kept kr kt := by
  unfold execSpilledEntryFetch at he
  injection he with he; subst he
  repeat' first
    | with_reducible assumption
    | with_reducible apply entryFetch_kept
    | dsimp only

end Sys2Proof.Machine
end

