-- ==== Sys2Proof/Laws/KeptLoad.lean ====
section
/-! SUPPORT. Every effect defined in ObjCmds, Images, Partitions, Service keeps the relation of Laws/Kept. -/

namespace Sys2Proof.Machine

theorem placeObject_kept {kr : State} (k : OKey) (b : Body) (s : State) (hk : Kept kr s) : Kept kr (placeObject k b s) := by
  unfold placeObject
  repeat' first
    | with_reducible assumption
    | with_reducible apply State.setObj_kept
    | dsimp only

theorem placeRing_kept {kr : State} (k : OKey) (d : Desc) (s : State) (hk : Kept kr s) : Kept kr (placeRing k d s).2 := by
  unfold placeRing
  repeat' first
    | with_reducible assumption
    | with_reducible apply State.setObj_kept
    | with_reducible apply State.setDesc_kept
    | dsimp only

theorem placeRing_keptE {kr : State} (k : OKey) (d : Desc) (s : State) {kv} {kt : State} (hk : Kept kr s) (he : placeRing k d s = (kv, kt)) : Kept kr kt := by
  have h := placeRing_kept (kr := kr) k d s hk
  rw [he] at h; exact h

theorem objCreate_kept {kr : State} (c : Cmd) (s : State) (hk : Kept kr s) : Kept kr (objCreate c s) := by
  unfold objCreate
  repeat' first
    | with_reducible assumption
    | with_reducible apply inner_kept
    | with_reducible apply wakeSlot_kept
    | with_reducible apply ok_kept
    | with_reducible apply refuse_kept
    | with_reducible apply placeObject_kept
    | with_reducible apply placeRing_kept
    | (refine placeRing_keptE _ _ _ ?_ (by with_reducible assumption))
    | with_reducible apply Kept.ite
    | split
    | dsimp only

theorem execObjCreate_kept {kr : State} (id : Nat) (s : State) {kt : State} (hk : Kept kr s) (he : execObjCreate id s = .next kt) : Kept kr kt := by
  unfold execObjCreate at he
  injection he with he; subst he
  repeat' first
    | with_reducible assumption
    | with_reducible apply startCmd_kept
    | with_reducible apply objCreate_kept
    | (intro _ _ _)
    | dsimp only

theorem objDestroy_kept {kr : State} (c : Cmd) (s : State) (hk : Kept kr s) : Kept kr (objDestroy c s) := by
  unfold objDestroy
  repeat' first
    | with_reducible assumption
    | with_reducible apply inner_kept
    | with_reducible apply ok_kept
    | with_reducible apply refuse_kept
    | with_reducible apply destroyObject_kept
    | with_reducible apply Kept.ite
    | split
    | dsimp only

theorem execObjDestroy_kept {kr : State} (id : Nat) (s : State) {kt : State} (hk : Kept kr s) (he : execObjDestroy id s = .next kt) : Kept kr kt := by
  unfold execObjDestroy at he
  injection he with he; subst he
  repeat' first
    | with_reducible assumption
    | with_reducible apply startCmd_kept
    | with_reducible apply objDestroy_kept
    | (intro _ _ _)
    | dsimp only

theorem objRead_kept {kr : State} (c : Cmd) (s : State) (hk : Kept kr s) : Kept kr (objRead c s) := by
  unfold objRead
  repeat' first
    | with_reducible assumption
    | with_reducible apply inner_kept
    | with_reducible apply ok_kept
    | with_reducible apply refuse_kept
    | with_reducible apply Kept.ite
    | split
    | dsimp only

theorem execObjRead_kept {kr : State} (id : Nat) (s : State) {kt : State} (hk : Kept kr s) (he : execObjRead id s = .next kt) : Kept kr kt := by
  unfold execObjRead at he
  injection he with he; subst he
  repeat' first
    | with_reducible assumption
    | with_reducible apply startCmd_kept
    | with_reducible apply objRead_kept
    | with_reducible apply Kept.ite
    | (intro _ _ _)
    | split
    | dsimp only

theorem execObjReadDesc_kept {kr : State} (id : Nat) (s : State) {kt : State} (hk : Kept kr s) (he : execObjReadDesc id s = .next kt) : Kept kr kt := by
  unfold execObjReadDesc at he
  injection he with he; subst he
  repeat' first
    | with_reducible assumption
    | with_reducible apply startCmd_kept
    | with_reducible apply objRead_kept
    | with_reducible apply Kept.ite
    | (intro _ _ _)
    | split
    | dsimp only

theorem spillShare_kept {kr : State} (p : PartId) (n : Nat) (m : Nat) : ∀ (s : State), Kept kr s → Kept kr (spillShare p n m s) := by
  induction m with
  | zero => intro s hk; unfold spillShare; exact hk
  | succ n ih =>
    intro s hk
    unfold spillShare
    repeat' first
      | with_reducible assumption
      | with_reducible apply ih
      | with_reducible apply spillFrom_kept
      | with_reducible apply Kept.ite
      | split
      | dsimp only

theorem roomForRecords_kept {kr : State} (p : PartId) (n : Nat) (s : State) {kt : State} (hk : Kept kr s) (he : roomForRecords p n s = some kt) : Kept kr kt := by
  unfold roomForRecords at he
  repeat' first
    | (cases he; done)
    | (injection he with he; subst he)
    | (injection he with he; injection he with he1 he2; subst he2)
    | (injection he with he)
    | split at he
    | dsimp only at he
    | with_reducible assumption
    | with_reducible apply spillLoop_kept
    | with_reducible apply spillShare_kept
    | with_reducible apply Kept.ite
    | split
    | dsimp only

theorem barrierRoster_kept {kr : State} (c : Cmd) (s : State) (hk : Kept kr s) : Kept kr (barrierRoster c s) := by
  unfold barrierRoster
  repeat' first
    | with_reducible assumption
    | with_reducible apply State.modWmc_kept
    | with_reducible apply mmRequest_kept
    | with_reducible apply inner_kept
    | with_reducible apply setRecord_kept
    | with_reducible apply ok_kept
    | with_reducible apply refuse_kept
    | with_reducible apply memFail_kept
    | (refine roomForRecords_kept _ _ _ ?_ (by with_reducible assumption))
    | with_reducible apply Kept.ite
    | split
    | dsimp only

theorem execBarrierRoster_kept {kr : State} (id : Nat) (s : State) {kt : State} (hk : Kept kr s) (he : execBarrierRoster id s = .next kt) : Kept kr kt := by
  unfold execBarrierRoster at he
  injection he with he; subst he
  repeat' first
    | with_reducible assumption
    | with_reducible apply startCmd_kept
    | with_reducible apply barrierRoster_kept
    | (intro _ _ _)
    | dsimp only

theorem lockForce_kept {kr : State} (c : Cmd) (s : State) (hk : Kept kr s) : Kept kr (lockForce c s) := by
  unfold lockForce
  repeat' first
    | with_reducible assumption
    | with_reducible apply inner_kept
    | with_reducible apply endHolding_kept
    | with_reducible apply ok_kept
    | with_reducible apply refuse_kept
    | with_reducible apply Kept.ite
    | split
    | dsimp only

theorem execLockForceRelease_kept {kr : State} (id : Nat) (s : State) {kt : State} (hk : Kept kr s) (he : execLockForceRelease id s = .next kt) : Kept kr kt := by
  unfold execLockForceRelease at he
  injection he with he; subst he
  repeat' first
    | with_reducible assumption
    | with_reducible apply startCmd_kept
    | with_reducible apply lockForce_kept
    | (intro _ _ _)
    | dsimp only

theorem ringReset_kept {kr : State} (c : Cmd) (s : State) (hk : Kept kr s) : Kept kr (ringReset c s) := by
  unfold ringReset
  repeat' first
    | with_reducible assumption
    | with_reducible apply inner_kept
    | with_reducible apply State.setDesc_kept
    | with_reducible apply closeWindow_kept
    | with_reducible apply ok_kept
    | with_reducible apply refuse_kept
    | with_reducible apply Kept.ite
    | split
    | dsimp only

theorem execRingReset_kept {kr : State} (id : Nat) (s : State) {kt : State} (hk : Kept kr s) (he : execRingReset id s = .next kt) : Kept kr kt := by
  unfold execRingReset at he
  injection he with he; subst he
  repeat' first
    | with_reducible assumption
    | with_reducible apply startCmd_kept
    | with_reducible apply ringReset_kept
    | (intro _ _ _)
    | dsimp only

theorem openWindow_kept {kr : State} (c : Cmd) (i : Nat) (d : Desc) (r : Ring) (s : State) (hk : Kept kr s) : Kept kr (openWindow c i d r s) := by
  unfold openWindow
  repeat' first
    | with_reducible assumption
    | with_reducible apply fresh_kept
    | (refine fresh_keptE _ ?_ (by with_reducible assumption))
    | with_reducible apply inner_kept
    | with_reducible apply State.setBody_kept
    | with_reducible apply State.setDesc_kept
    | with_reducible apply ok_kept
    | dsimp only

theorem windowOpen_kept {kr : State} (c : Cmd) (s : State) (hk : Kept kr s) : Kept kr (windowOpen c s) := by
  unfold windowOpen
  repeat' first
    | with_reducible assumption
    | with_reducible apply refuse_kept
    | with_reducible apply openWindow_kept
    | with_reducible apply Kept.ite
    | split
    | dsimp only

theorem execRingWindowOpen_kept {kr : State} (id : Nat) (s : State) {kt : State} (hk : Kept kr s) (he : execRingWindowOpen id s = .next kt) : Kept kr kt := by
  unfold execRingWindowOpen at he
  injection he with he; subst he
  repeat' first
    | with_reducible assumption
    | with_reducible apply startCmd_kept
    | with_reducible apply windowOpen_kept
    | (intro _ _ _)
    | dsimp only

theorem windowClose_kept {kr : State} (c : Cmd) (s : State) (hk : Kept kr s) : Kept kr (windowClose c s) := by
  unfold windowClose
  repeat' first
    | with_reducible assumption
    | with_reducible apply inner_kept
    | with_reducible apply State.setDesc_kept
    | with_reducible apply wakeAll_kept
    | with_reducible apply takeWaiters_kept
    | (refine takeWaiters_keptE _ _ _ ?_ (by with_reducible assumption))
    | with_reducible apply closeWindow_kept
    | with_reducible apply ringAfterRemoval_kept
    | with_reducible apply ok_kept
    | with_reducible apply refuse_kept
    | with_reducible apply Kept.ite
    | split
    | dsimp only

theorem execRingWindowClose_kept {kr : State} (id : Nat) (s : State) {kt : State} (hk : Kept kr s) (he : execRingWindowClose id s = .next kt) : Kept kr kt := by
  unfold execRingWindowClose at he
  injection he with he; subst he
  repeat' first
    | with_reducible assumption
    | with_reducible apply startCmd_kept
    | with_reducible apply windowClose_kept
    | (intro _ _ _)
    | dsimp only

theorem treeCmd_kept {kr : State} (c : Cmd) (s : State) (hk : Kept kr s) : Kept kr (treeCmd c s) := by
  unfold treeCmd
  repeat' first
    | with_reducible assumption
    | with_reducible apply State.setTree_kept
    | with_reducible apply inner_kept
    | with_reducible apply State.setBody_kept
    | with_reducible apply State.modHdr_kept
    | with_reducible apply ok_kept
    | with_reducible apply refuse_kept
    | with_reducible apply Kept.ite
    | split
    | dsimp only

theorem execTreeStitch_kept {kr : State} (id : Nat) (s : State) {kt : State} (hk : Kept kr s) (he : execTreeStitch id s = .next kt) : Kept kr kt := by
  unfold execTreeStitch at he
  injection he with he; subst he
  repeat' first
    | with_reducible assumption
    | with_reducible apply startCmd_kept
    | with_reducible apply treeCmd_kept
    | with_reducible apply Kept.ite
    | (intro _ _ _)
    | split
    | dsimp only

theorem execTreeUnstitch_kept {kr : State} (id : Nat) (s : State) {kt : State} (hk : Kept kr s) (he : execTreeUnstitch id s = .next kt) : Kept kr kt := by
  unfold execTreeUnstitch at he
  injection he with he; subst he
  repeat' first
    | with_reducible assumption
    | with_reducible apply startCmd_kept
    | with_reducible apply treeCmd_kept
    | with_reducible apply Kept.ite
    | (intro _ _ _)
    | split
    | dsimp only

theorem dropWatch_kept {kr : State} (k : OKey) (s : State) (hk : Kept kr s) : Kept kr (dropWatch k s) := by
  unfold dropWatch
  repeat' first
    | with_reducible assumption
    | with_reducible apply endWatch_kept
    | with_reducible apply releaseWatched_kept
    | with_reducible apply Kept.ite
    | split
    | dsimp only

theorem watchSet_kept {kr : State} (c : Cmd) (s : State) (hk : Kept kr s) : Kept kr (watchSet c s) := by
  unfold watchSet
  repeat' first
    | with_reducible assumption
    | with_reducible apply State.modObs_kept
    | with_reducible apply inner_kept
    | with_reducible apply State.modHdr_kept
    | with_reducible apply ok_kept
    | with_reducible apply refuse_kept
    | with_reducible apply dropWatch_kept
    | with_reducible apply Kept.ite
    | split
    | dsimp only

theorem execWatchSet_kept {kr : State} (id : Nat) (s : State) {kt : State} (hk : Kept kr s) (he : execWatchSet id s = .next kt) : Kept kr kt := by
  unfold execWatchSet at he
  injection he with he; subst he
  repeat' first
    | with_reducible assumption
    | with_reducible apply startCmd_kept
    | with_reducible apply watchSet_kept
    | (intro _ _ _)
    | dsimp only

theorem watchClear_kept {kr : State} (c : Cmd) (s : State) (hk : Kept kr s) : Kept kr (watchClear c s) := by
  unfold watchClear
  repeat' first
    | with_reducible assumption
    | with_reducible apply State.modObs_kept
    | with_reducible apply inner_kept
    | with_reducible apply endWatch_kept
    | with_reducible apply ok_kept
    | with_reducible apply refuse_kept
    | with_reducible apply Kept.ite
    | split
    | dsimp only

theorem execWatchClear_kept {kr : State} (id : Nat) (s : State) {kt : State} (hk : Kept kr s) (he : execWatchClear id s = .next kt) : Kept kr kt := by
  unfold execWatchClear at he
  injection he with he; subst he
  repeat' first
    | with_reducible assumption
    | with_reducible apply startCmd_kept
    | with_reducible apply watchClear_kept
    | (intro _ _ _)
    | dsimp only

theorem latchEnd_kept {kr : State} (p : PartId) (s : State) (hk : Kept kr s) : Kept kr (latchEnd p s) := by
  unfold latchEnd
  repeat' first
    | with_reducible assumption
    | with_reducible apply State.modObs_kept
    | (with_reducible refine Kept.foldl (fun _ _ _ => ?_) ?_)
    | dsimp only

theorem latchBegin_kept {kr : State} (p : PartId) (s : State) (hk : Kept kr s) : Kept kr (latchBegin p s) := by
  unfold latchBegin
  repeat' first
    | with_reducible assumption
    | with_reducible apply State.modObs_kept
    | with_reducible apply latchEnd_kept
    | (with_reducible refine Kept.foldl (fun _ _ _ => ?_) ?_)
    | dsimp only

theorem sectionBegin_kept {kr : State} (c : Cmd) (s : State) (hk : Kept kr s) : Kept kr (sectionBegin c s) := by
  unfold sectionBegin
  repeat' first
    | with_reducible assumption
    | with_reducible apply State.modPart_kept
    | with_reducible apply refuse_kept
    | with_reducible apply startWait_kept
    | with_reducible apply Kept.ite
    | split
    | dsimp only

theorem execSectionBegin_kept {kr : State} (id : Nat) (s : State) {kt : State} (hk : Kept kr s) (he : execSectionBegin id s = .next kt) : Kept kr kt := by
  unfold execSectionBegin at he
  injection he with he; subst he
  repeat' first
    | with_reducible assumption
    | with_reducible apply startCmd_kept
    | with_reducible apply sectionBegin_kept
    | (intro _ _ _)
    | dsimp only

theorem sectionEnd_kept {kr : State} (c : Cmd) (s : State) (hk : Kept kr s) : Kept kr (sectionEnd c s) := by
  unfold sectionEnd
  repeat' first
    | with_reducible assumption
    | with_reducible apply State.modPart_kept
    | with_reducible apply ok_kept
    | with_reducible apply refuse_kept
    | with_reducible apply latchEnd_kept
    | with_reducible apply Kept.ite
    | split
    | dsimp only

theorem execSectionEnd_kept {kr : State} (id : Nat) (s : State) {kt : State} (hk : Kept kr s) (he : execSectionEnd id s = .next kt) : Kept kr kt := by
  unfold execSectionEnd at he
  injection he with he; subst he
  repeat' first
    | with_reducible assumption
    | with_reducible apply startCmd_kept
    | with_reducible apply sectionEnd_kept
    | (intro _ _ _)
    | dsimp only

theorem kernelFence_kept {kr : State} (p : PartId) (s : State) (hk : Kept kr s) : Kept kr (kernelFence p s) := by
  unfold kernelFence
  repeat' first
    | with_reducible assumption
    | with_reducible apply State.modPart_kept
    | with_reducible apply snManage_kept
    | with_reducible apply setPhase_kept
    | with_reducible apply Kept.ite
    | split
    | dsimp only

theorem execKernelFence_kept {kr : State} (part : PartId) (s : State) {kt : State} (hk : Kept kr s) (he : execKernelFence part s = .next kt) : Kept kr kt := by
  unfold execKernelFence at he
  injection he with he; subst he
  repeat' first
    | with_reducible assumption
    | with_reducible apply kernelFence_kept
    | dsimp only

theorem openSection_kept {kr : State} (c : Cmd) (seq : BitVec 16) (s : State) (hk : Kept kr s) : Kept kr (openSection c seq s) := by
  unfold openSection
  repeat' first
    | with_reducible assumption
    | with_reducible apply State.modPart_kept
    | with_reducible apply ok_kept
    | with_reducible apply latchBegin_kept
    | dsimp only

theorem sectionTimeout_kept {kr : State} (p : PartId) (edges : Nat) (s : State) (hk : Kept kr s) : Kept kr (sectionTimeout p edges s) := by
  unfold sectionTimeout
  repeat' first
    | with_reducible assumption
    | with_reducible apply State.modSn_kept
    | with_reducible apply elapse_kept
    | with_reducible apply refuse_kept
    | with_reducible apply pump_kept
    | with_reducible apply Kept.ite
    | split
    | dsimp only

theorem execSectionBeginTimeout_kept {kr : State} (part : PartId) (edges : Nat) (s : State) {kt : State} (hk : Kept kr s) (he : execSectionBeginTimeout part edges s = .next kt) : Kept kr kt := by
  unfold execSectionBeginTimeout at he
  injection he with he; subst he
  repeat' first
    | with_reducible assumption
    | with_reducible apply sectionTimeout_kept
    | dsimp only

theorem unmatched_kept {kr : State} (p : PartId) (s : State) (hk : Kept kr s) : Kept kr (unmatched p s) := by
  unfold unmatched
  repeat' first
    | with_reducible assumption
    | with_reducible apply report_kept
    | dsimp only

theorem snAck_kept {kr : State} (d : Word) (s : State) (hk : Kept kr s) : Kept kr (snAck d s) := by
  unfold snAck
  repeat' first
    | with_reducible assumption
    | with_reducible apply State.modSn_kept
    | with_reducible apply State.modObs_kept
    | with_reducible apply pump_kept
    | with_reducible apply openSection_kept
    | with_reducible apply unmatched_kept
    | with_reducible apply Kept.ite
    | split
    | dsimp only

theorem execSnAck_kept {kr : State} (data : Word) (s : State) {kt : State} (hk : Kept kr s) (he : execSnAck data s = .next kt) : Kept kr kt := by
  unfold execSnAck at he
  injection he with he; subst he
  repeat' first
    | with_reducible assumption
    | with_reducible apply snAck_kept
    | dsimp only

theorem destroyCtxs_kept {kr : State} (p : PartId) (s : State) (hk : Kept kr s) : Kept kr (destroyCtxs p s) := by
  unfold destroyCtxs
  repeat' first
    | with_reducible assumption
    | with_reducible apply destroyCtx_kept
    | (refine destroyCtx_keptE _ _ _ ?_ (by with_reducible assumption))
    | (with_reducible refine Kept.foldl (fun _ _ _ => ?_) ?_)
    | dsimp only

theorem createCtxs_kept {kr : State} (p : PartId) (l : List ImgCtx) : ∀ {s kt : State}, Kept kr s → createCtxs p l s = some kt → Kept kr kt := by
  induction l with
  | nil => intro s kt hk he; cases he; exact hk
  | cons x l ih =>
    intro s kt hk he
    unfold createCtxs at he
    split at he
    · cases he
    · split at he
      · cases he
      · exact ih (State.setCtx_kept _ _ _ _ hk) he

theorem allocDescs_kept {kr : State} (p : PartId) (n : Nat) : ∀ (s : State), Kept kr s → Kept kr (allocDescs p n s).2 := by
  induction n with
  | zero => intro s hk; exact hk
  | succ n ih => intro s hk; unfold allocDescs; exact ih _ (State.setDesc_kept _ _ _ hk)

theorem allocDescs_keptE {kr : State} (p : PartId) (n : Nat) {s kt : State} {kv} (hk : Kept kr s)
    (he : allocDescs p n s = (kv, kt)) : Kept kr kt := by
  have h := allocDescs_kept p n s hk
  rw [he] at h; exact h

theorem placeImage_kept {kr : State} (p : PartId) (cs : List ImgCtx) (fs : List ImgFrame) (s : State) {kv} {kt : State} (hk : Kept kr s) (he : placeImage p cs fs s = some (kv, kt)) : Kept kr kt := by
  unfold placeImage at he
  repeat' first
    | (cases he; done)
    | (injection he with he; subst he)
    | (injection he with he; injection he with he1 he2; subst he2)
    | (injection he with he)
    | split at he
    | dsimp only at he
    | with_reducible assumption
    | (refine roomForRecords_kept _ _ _ ?_ (by with_reducible assumption))
    | with_reducible apply destroyCtxs_kept
    | (refine createCtxs_kept _ _ ?_ (by with_reducible assumption))
    | with_reducible apply allocDescs_kept
    | (refine allocDescs_keptE _ _ ?_ (by with_reducible assumption))
    | with_reducible apply Kept.ite
    | split
    | dsimp only

theorem imageBegin_kept {kr : State} (c : Cmd) (s : State) (hk : Kept kr s) : Kept kr (imageBegin c s) := by
  unfold imageBegin
  repeat' first
    | with_reducible assumption
    | with_reducible apply State.modPart_kept
    | with_reducible apply mmRequest_kept
    | with_reducible apply ok_kept
    | with_reducible apply refuse_kept
    | with_reducible apply memFail_kept
    | (refine placeImage_kept _ _ _ _ ?_ (by with_reducible assumption))
    | with_reducible apply Kept.ite
    | split
    | dsimp only

theorem execImageBegin_kept {kr : State} (id : Nat) (s : State) {kt : State} (hk : Kept kr s) (he : execImageBegin id s = .next kt) : Kept kr kt := by
  unfold execImageBegin at he
  injection he with he; subst he
  repeat' first
    | with_reducible assumption
    | with_reducible apply startCmd_kept
    | with_reducible apply imageBegin_kept
    | (intro _ _ _)
    | dsimp only

theorem endLoad_kept {kr : State} (p : PartId) (s : State) (hk : Kept kr s) : Kept kr (endLoad p s) := by
  unfold endLoad
  repeat' first
    | with_reducible assumption
    | with_reducible apply State.modPart_kept
    | with_reducible apply State.delDesc_kept
    | with_reducible apply destroyCtxs_kept
    | (with_reducible refine Kept.foldl (fun _ _ _ => ?_) ?_)
    | dsimp only

theorem failLoad_kept {kr : State} (c : Cmd) (st : Status) (d : Word) (s : State) (hk : Kept kr s) : Kept kr (failLoad c st d s) := by
  unfold failLoad
  repeat' first
    | with_reducible assumption
    | with_reducible apply refuse_kept
    | with_reducible apply endLoad_kept
    | dsimp only

theorem loadObject_kept {kr : State} (k : OKey) (v : BitVec 256) (l : Load) (s : State) {kv} {kt : State} (hk : Kept kr s) (he : loadObject k v l s = some (kv, kt)) : Kept kr kt := by
  unfold loadObject at he
  repeat' first
    | (cases he; done)
    | (injection he with he; subst he)
    | (injection he with he; injection he with he1 he2; subst he2)
    | (injection he with he)
    | split at he
    | dsimp only at he
    | with_reducible assumption
    | with_reducible apply State.setObj_kept
    | with_reducible apply State.setDesc_kept
    | with_reducible apply placeObject_kept
    | with_reducible apply Kept.ite
    | split
    | dsimp only

theorem loadDesc_kept {kr : State} (n : Nat) (v : BitVec 256) (l : Load) (s : State) {kv} {kt : State} (hk : Kept kr s) (he : loadDesc n v l s = some (kv, kt)) : Kept kr kt := by
  unfold loadDesc at he
  repeat' first
    | (cases he; done)
    | (injection he with he; subst he)
    | (injection he with he; injection he with he1 he2; subst he2)
    | (injection he with he)
    | split at he
    | dsimp only at he
    | with_reducible assumption
    | with_reducible apply State.setDesc_kept
    | with_reducible apply Kept.ite
    | split
    | dsimp only

theorem loadEntry_kept {kr : State} (p : PartId) (f : Nat × CtxId × Nat × Nat × Nat) (n fno : Nat) (b : List Byte) (l : Load) (s : State) {kv} {kt : State} (hk : Kept kr s) (he : loadEntry p f n fno b l s = some (kv, kt)) : Kept kr kt := by
  unfold loadEntry at he
  repeat' first
    | (cases he; done)
    | (injection he with he; subst he)
    | (injection he with he; injection he with he1 he2; subst he2)
    | (injection he with he)
    | split at he
    | dsimp only at he
    | with_reducible assumption
    | with_reducible apply inner_kept
    | (refine loadObject_kept _ _ _ _ ?_ (by with_reducible assumption))
    | (refine loadDesc_kept _ _ _ _ ?_ (by with_reducible assumption))
    | split
    | dsimp only

theorem loadEntries_kept {kr : State} (p : PartId) (f : Nat × CtxId × Nat × Nat × Nat) (fno fuel : Nat) :
    ∀ (n : Nat) (l : Load) {s kt : State} {kv : Load}, Kept kr s → loadEntries p f fno fuel n l s = some (kv, kt) → Kept kr kt := by
  induction fuel with
  | zero => intro n l s kt kv hk he; cases he; exact hk
  | succ m ih =>
    intro n l s kt kv hk he
    unfold loadEntries at he
    dsimp only at he
    split at he
    · cases he; exact hk
    · split at he
      · cases he
      · exact ih _ _ (loadEntry_kept _ _ _ _ _ _ _ hk (by assumption)) he

theorem imageFrame_kept {kr : State} (c : Cmd) (s : State) (hk : Kept kr s) : Kept kr (imageFrame c s) := by
  unfold imageFrame
  repeat' first
    | with_reducible assumption
    | with_reducible apply State.modPart_kept
    | with_reducible apply mmRequest_kept
    | with_reducible apply wakeSlot_kept
    | with_reducible apply ok_kept
    | with_reducible apply refuse_kept
    | with_reducible apply memFail_kept
    | with_reducible apply failLoad_kept
    | (refine loadEntries_kept _ _ _ _ _ _ ?_ (by with_reducible assumption))
    | with_reducible apply Kept.ite
    | split
    | dsimp only

theorem execImageFrame_kept {kr : State} (id : Nat) (s : State) {kt : State} (hk : Kept kr s) (he : execImageFrame id s = .next kt) : Kept kr kt := by
  unfold execImageFrame at he
  injection he with he; subst he
  repeat' first
    | with_reducible assumption
    | with_reducible apply startCmd_kept
    | with_reducible apply imageFrame_kept
    | (intro _ _ _)
    | dsimp only

theorem commitImage_kept {kr : State} (p : PartId) (l : Load) (s : State) (hk : Kept kr s) : Kept kr (commitImage p l s) := by
  unfold commitImage
  repeat' first
    | with_reducible assumption
    | with_reducible apply State.modPart_kept
    | with_reducible apply State.modWmc_kept
    | dsimp only

theorem beginPartStartup_kept {kr : State} (c : Cmd) (s : State) (hk : Kept kr s) : Kept kr (beginPartStartup c s) := by
  unfold beginPartStartup
  repeat' first
    | with_reducible assumption
    | with_reducible apply State.modPart_kept
    | with_reducible apply startWait_kept
    | dsimp only

theorem imageCommit_kept {kr : State} (c : Cmd) (s : State) (hk : Kept kr s) : Kept kr (imageCommit c s) := by
  unfold imageCommit
  repeat' first
    | with_reducible assumption
    | with_reducible apply State.modPart_kept
    | with_reducible apply ok_kept
    | with_reducible apply refuse_kept
    | with_reducible apply failLoad_kept
    | with_reducible apply commitImage_kept
    | with_reducible apply beginPartStartup_kept
    | with_reducible apply Kept.ite
    | split
    | dsimp only

theorem execImageCommit_kept {kr : State} (id : Nat) (s : State) {kt : State} (hk : Kept kr s) (he : execImageCommit id s = .next kt) : Kept kr kt := by
  unfold execImageCommit at he
  injection he with he; subst he
  repeat' first
    | with_reducible assumption
    | with_reducible apply startCmd_kept
    | with_reducible apply imageCommit_kept
    | (intro _ _ _)
    | dsimp only

theorem nopCmd_kept {kr : State} (c : Cmd) (s : State) (hk : Kept kr s) : Kept kr (nopCmd c s) := by
  unfold nopCmd
  repeat' first
    | with_reducible assumption
    | with_reducible apply ok_kept
    | dsimp only

theorem execNop_kept {kr : State} (id : Nat) (s : State) {kt : State} (hk : Kept kr s) (he : execNop id s = .next kt) : Kept kr kt := by
  unfold execNop at he
  injection he with he; subst he
  repeat' first
    | with_reducible assumption
    | with_reducible apply startCmd_kept
    | with_reducible apply nopCmd_kept
    | (intro _ _ _)
    | dsimp only

theorem partCreate_kept {kr : State} (c : Cmd) (s : State) (hk : Kept kr s) : Kept kr (partCreate c s) := by
  unfold partCreate
  repeat' first
    | with_reducible assumption
    | with_reducible apply State.modPart_kept
    | with_reducible apply ok_kept
    | with_reducible apply refuse_kept
    | with_reducible apply Kept.ite
    | split
    | dsimp only

theorem execPartCreate_kept {kr : State} (id : Nat) (s : State) {kt : State} (hk : Kept kr s) (he : execPartCreate id s = .next kt) : Kept kr kt := by
  unfold execPartCreate at he
  injection he with he; subst he
  repeat' first
    | with_reducible assumption
    | with_reducible apply startCmd_kept
    | with_reducible apply partCreate_kept
    | (intro _ _ _)
    | dsimp only

theorem openPart_kept {kr : State} (p : PartId) (s : State) (hk : Kept kr s) : Kept kr (openPart p s) := by
  unfold openPart
  repeat' first
    | with_reducible assumption
    | with_reducible apply State.modPart_kept
    | with_reducible apply resumePart_kept
    | dsimp only

theorem partActivate_kept {kr : State} (c : Cmd) (s : State) (hk : Kept kr s) : Kept kr (partActivate c s) := by
  unfold partActivate
  repeat' first
    | with_reducible assumption
    | with_reducible apply ok_kept
    | with_reducible apply refuse_kept
    | with_reducible apply beginPartStartup_kept
    | with_reducible apply openPart_kept
    | split
    | dsimp only

theorem execPartActivate_kept {kr : State} (id : Nat) (s : State) {kt : State} (hk : Kept kr s) (he : execPartActivate id s = .next kt) : Kept kr kt := by
  unfold execPartActivate at he
  injection he with he; subst he
  repeat' first
    | with_reducible assumption
    | with_reducible apply startCmd_kept
    | with_reducible apply partActivate_kept
    | (intro _ _ _)
    | dsimp only

theorem failHeld_kept {kr : State} (p : PartId) (s : State) (hk : Kept kr s) : Kept kr (failHeld p s) := by
  unfold failHeld
  repeat' first
    | with_reducible assumption
    | with_reducible apply State.modAp_kept
    | with_reducible apply bindReply_kept
    | (with_reducible refine Kept.foldl (fun _ _ _ => ?_) ?_)
    | dsimp only

theorem wipeCounters_kept {kr : State} (p : PartId) (s : State) (hk : Kept kr s) : Kept kr (wipeCounters p s) := by
  unfold wipeCounters
  repeat' first
    | with_reducible assumption
    | with_reducible apply State.modObs_kept
    | (with_reducible refine Kept.foldl (fun _ _ _ => ?_) ?_)
    | dsimp only

theorem wipePart_kept {kr : State} (p : PartId) (s : State) (hk : Kept kr s) : Kept kr (wipePart p s) := by
  unfold wipePart
  repeat' first
    | with_reducible assumption
    | with_reducible apply State.modPart_kept
    | with_reducible apply State.modWin_kept
    | with_reducible apply failHeld_kept
    | with_reducible apply wipeCounters_kept
    | with_reducible apply Kept.ite
    | split
    | dsimp only

theorem startupStep_kept {kr : State} (p : PartId) (code : BitVec 2) (s : State) (hk : Kept kr s) : Kept kr (startupStep p code s) := by
  unfold startupStep
  repeat' first
    | with_reducible assumption
    | with_reducible apply State.modPart_kept
    | with_reducible apply snShow_kept
    | with_reducible apply resumePart_kept
    | split
    | dsimp only

theorem endStartup_kept {kr : State} (c : Cmd) (s : State) (hk : Kept kr s) : Kept kr (endStartup c s) := by
  unfold endStartup
  repeat' first
    | with_reducible assumption
    | with_reducible apply State.modPart_kept
    | with_reducible apply ok_kept
    | with_reducible apply Kept.ite
    | split
    | dsimp only

theorem partitionStartup_kept {kr : State} (p : PartId) (s : State) (hk : Kept kr s) : Kept kr (partitionStartup p s) := by
  unfold partitionStartup
  repeat' first
    | with_reducible assumption
    | with_reducible apply State.modPart_kept
    | with_reducible apply pump_kept
    | with_reducible apply wipePart_kept
    | with_reducible apply startupStep_kept
    | with_reducible apply endStartup_kept
    | with_reducible apply Kept.ite
    | split
    | dsimp only

theorem execPartitionStartup_kept {kr : State} (part : PartId) (s : State) {kt : State} (hk : Kept kr s) (he : execPartitionStartup part s = .next kt) : Kept kr kt := by
  unfold execPartitionStartup at he
  injection he with he; subst he
  repeat' first
    | with_reducible assumption
    | with_reducible apply partitionStartup_kept
    | dsimp only

theorem abortEarlier_kept {kr : State} (c : Cmd) (s : State) (hk : Kept kr s) : Kept kr (abortEarlier c s) := by
  unfold abortEarlier
  repeat' first
    | with_reducible assumption
    | with_reducible apply complete_kept
    | (with_reducible refine Kept.foldl (fun _ _ _ => ?_) ?_)
    | dsimp only

theorem partQuiesce_kept {kr : State} (c : Cmd) (s : State) (hk : Kept kr s) : Kept kr (partQuiesce c s) := by
  unfold partQuiesce
  repeat' first
    | with_reducible assumption
    | with_reducible apply State.modPart_kept
    | with_reducible apply ok_kept
    | with_reducible apply drainPart_kept
    | with_reducible apply startWait_kept
    | with_reducible apply endLoad_kept
    | with_reducible apply abortEarlier_kept
    | split
    | dsimp only

theorem execPartQuiesce_kept {kr : State} (id : Nat) (s : State) {kt : State} (hk : Kept kr s) (he : execPartQuiesce id s = .next kt) : Kept kr kt := by
  unfold execPartQuiesce at he
  injection he with he; subst he
  repeat' first
    | with_reducible assumption
    | with_reducible apply startCmd_kept
    | with_reducible apply partQuiesce_kept
    | (intro _ _ _)
    | dsimp only

theorem quiesceDrained_kept {kr : State} (p : PartId) (s : State) (hk : Kept kr s) : Kept kr (quiesceDrained p s) := by
  unfold quiesceDrained
  repeat' first
    | with_reducible assumption
    | with_reducible apply State.modPart_kept
    | with_reducible apply ok_kept
    | with_reducible apply pump_kept
    | with_reducible apply Kept.ite
    | split
    | dsimp only

theorem execPartQuiesceDrained_kept {kr : State} (part : PartId) (s : State) {kt : State} (hk : Kept kr s) (he : execPartQuiesceDrained part s = .next kt) : Kept kr kt := by
  unfold execPartQuiesceDrained at he
  injection he with he; subst he
  repeat' first
    | with_reducible assumption
    | with_reducible apply quiesceDrained_kept
    | dsimp only

theorem quiesceTimeout_kept {kr : State} (p : PartId) (edges : Nat) (s : State) (hk : Kept kr s) : Kept kr (quiesceTimeout p edges s) := by
  unfold quiesceTimeout
  repeat' first
    | with_reducible assumption
    | with_reducible apply elapse_kept
    | with_reducible apply refuse_kept
    | with_reducible apply pump_kept
    | with_reducible apply Kept.ite
    | split
    | dsimp only

theorem execPartQuiesceTimeout_kept {kr : State} (part : PartId) (edges : Nat) (s : State) {kt : State} (hk : Kept kr s) (he : execPartQuiesceTimeout part edges s = .next kt) : Kept kr kt := by
  unfold execPartQuiesceTimeout at he
  injection he with he; subst he
  repeat' first
    | with_reducible assumption
    | with_reducible apply quiesceTimeout_kept
    | dsimp only

theorem modBinds_kept {kr : State} (p : PartId) (f : Bind → Bind) (s : State) (hk : Kept kr s) : Kept kr (modBinds p f s) := by
  unfold modBinds
  repeat' first
    | with_reducible assumption
    | with_reducible apply State.setBind_kept
    | with_reducible apply Kept.ite
    | (with_reducible refine Kept.foldl (fun _ _ _ => ?_) ?_)
    | split
    | dsimp only

theorem unbindAll_kept {kr : State} (p : PartId) (s : State) (hk : Kept kr s) : Kept kr (unbindAll p s) := by
  unfold unbindAll
  repeat' first
    | with_reducible assumption
    | with_reducible apply State.setBind_kept
    | with_reducible apply addReset_kept
    | with_reducible apply modBinds_kept
    | (with_reducible refine Kept.foldl (fun _ _ _ => ?_) ?_)
    | dsimp only

theorem forgetPart_kept {kr : State} (p : PartId) (s : State) (hk : Kept kr s) : Kept kr (forgetPart p s) := by
  unfold forgetPart
  repeat' first
    | with_reducible assumption
    | with_reducible apply modBinds_kept
    | dsimp only

theorem dropPartHeld_kept {kr : State} (p : PartId) (s : State) (hk : Kept kr s) : Kept kr (dropPartHeld p s).2 := by
  unfold dropPartHeld
  repeat' first
    | with_reducible assumption
    | with_reducible apply report_kept
    | with_reducible apply dropHeld_kept
    | (with_reducible refine Kept.foldl (fun _ _ _ => ?_) ?_)
    | dsimp only

theorem dropPartHeld_keptE {kr : State} (p : PartId) (s : State) {kv} {kt : State} (hk : Kept kr s) (he : dropPartHeld p s = (kv, kt)) : Kept kr kt := by
  have h := dropPartHeld_kept (kr := kr) p s hk
  rw [he] at h; exact h

theorem wipeWindow_kept {kr : State} (p : PartId) (s : State) (hk : Kept kr s) : Kept kr (wipeWindow p s) := by
  unfold wipeWindow
  repeat' first
    | with_reducible assumption
    | with_reducible apply State.setWin_kept
    | with_reducible apply Kept.ite
    | (with_reducible refine Kept.foldl (fun _ _ _ => ?_) ?_)
    | split
    | dsimp only

theorem destroyPart_kept {kr : State} (c : Cmd) (s : State) (hk : Kept kr s) : Kept kr (destroyPart c s) := by
  unfold destroyPart
  repeat' first
    | with_reducible assumption
    | with_reducible apply State.delPart_kept
    | with_reducible apply State.modFab_kept
    | with_reducible apply ok_kept
    | with_reducible apply destroyCtxs_kept
    | with_reducible apply wipeCounters_kept
    | with_reducible apply forgetPart_kept
    | with_reducible apply dropPartHeld_kept
    | (refine dropPartHeld_keptE _ _ ?_ (by with_reducible assumption))
    | with_reducible apply wipeWindow_kept
    | dsimp only

theorem partDestroy_kept {kr : State} (c : Cmd) (s : State) (hk : Kept kr s) : Kept kr (partDestroy c s) := by
  unfold partDestroy
  repeat' first
    | with_reducible assumption
    | with_reducible apply refuse_kept
    | with_reducible apply startWait_kept
    | with_reducible apply endLoad_kept
    | with_reducible apply abortEarlier_kept
    | with_reducible apply unbindAll_kept
    | with_reducible apply destroyPart_kept
    | with_reducible apply Kept.ite
    | split
    | dsimp only

theorem destroyOn_kept {kr : State} (id : Nat) (s : State) (hk : Kept kr s) : Kept kr (destroyOn id s) := by
  unfold destroyOn
  repeat' first
    | with_reducible assumption
    | with_reducible apply wakeSlot_kept
    | with_reducible apply pump_kept
    | with_reducible apply unbindAll_kept
    | with_reducible apply destroyPart_kept
    | with_reducible apply Kept.ite
    | (with_reducible refine Kept.foldl (fun _ _ _ => ?_) ?_)
    | split
    | dsimp only

theorem execPartDestroy_kept {kr : State} (id : Nat) (s : State) {kt : State} (hk : Kept kr s) (he : execPartDestroy id s = .next kt) : Kept kr kt := by
  unfold execPartDestroy at he
  injection he with he; subst he
  repeat' first
    | with_reducible assumption
    | with_reducible apply startCmd_kept
    | with_reducible apply partDestroy_kept
    | with_reducible apply destroyOn_kept
    | with_reducible apply Kept.ite
    | (intro _ _ _)
    | split
    | dsimp only

theorem service_kept {kr : State} (lvl : BitVec 2) (cause : Byte) (x : SvcAt) (s : State) (hk : Kept kr s) : Kept kr (service lvl cause x s) := by
  unfold service
  repeat' first
    | with_reducible assumption
    | ((with_reducible refine State.modSlu_kept ?_ ?_); · rfl)
    | with_reducible apply raiseGlobal_kept
    | with_reducible apply snService_kept
    | with_reducible apply Kept.ite
    | split
    | dsimp only

end Sys2Proof.Machine
end

