-- ==== Sys2Proof/Laws/KeptPlat.lean ====
section
/-! SUPPORT. Every effect defined in Firmware, Awls, Banks, Lifecycle, Observe keeps the relation of Laws/Kept. -/

namespace Sys2Proof.Machine

theorem fwStage_kept {kr : State} (c : Cmd) (s : State) (hk : Kept kr s) : Kept kr (fwStage c s) := by
  unfold fwStage
  repeat' first
    | with_reducible assumption
    | ((with_reducible refine State.modSlu_kept ?_ ?_); · rfl)
    | with_reducible apply mmRequest_kept
    | with_reducible apply ok_kept
    | with_reducible apply refuse_kept
    | with_reducible apply memFail_kept
    | with_reducible apply Kept.ite
    | split
    | dsimp only

theorem execFwStage_kept {kr : State} (id : Nat) (s : State) {kt : State} (hk : Kept kr s) (he : execFwStage id s = .next kt) : Kept kr kt := by
  unfold execFwStage at he
  injection he with he; subst he
  repeat' first
    | with_reducible assumption
    | with_reducible apply startCmd_kept
    | with_reducible apply fwStage_kept
    | (intro _ _ _)
    | dsimp only

theorem fwWrite_kept {kr : State} (q : SeqNo) (l : List Word) : ∀ (w : Nat) (s : State), Kept kr s → Kept kr (fwWrite q w l s) := by
  induction l with
  | nil => intro w s hk; unfold fwWrite; exact hk
  | cons v l ih => intro w s hk; unfold fwWrite; exact ih _ _ (State.modSlu_kept rfl hk)

theorem releaseAwl_kept {kr : State} (q : SeqNo) (s : State) (hk : Kept kr s) : Kept kr (releaseAwl q s) := by
  unfold releaseAwl
  repeat' first
    | with_reducible assumption
    | with_reducible apply State.modSeq_kept
    | with_reducible apply State.modMsq_kept
    | with_reducible apply resumePart_kept
    | with_reducible apply Kept.ite
    | (with_reducible refine Kept.foldl (fun _ _ _ => ?_) ?_)
    | split
    | dsimp only

theorem quiesceSeq_kept {kr : State} (q : SeqNo) (s : State) (hk : Kept kr s) : Kept kr (quiesceSeq q s) := by
  unfold quiesceSeq
  repeat' first
    | with_reducible assumption
    | with_reducible apply State.modSeq_kept
    | with_reducible apply releaseAwl_kept
    | with_reducible apply Kept.ite
    | split
    | dsimp only

theorem beginApply_kept {kr : State} (c : Cmd) (pushed : Option (List Byte × Staged)) (s : State) (hk : Kept kr s) : Kept kr (beginApply c pushed s) := by
  unfold beginApply
  repeat' first
    | with_reducible assumption
    | with_reducible apply State.modMsq_kept
    | with_reducible apply startWait_kept
    | with_reducible apply quiesceSeq_kept
    | with_reducible apply Kept.ite
    | split
    | dsimp only

theorem fwApply_kept {kr : State} (c : Cmd) (s : State) (hk : Kept kr s) : Kept kr (fwApply c s) := by
  unfold fwApply
  repeat' first
    | with_reducible assumption
    | with_reducible apply refuse_kept
    | with_reducible apply fwWrite_kept
    | with_reducible apply beginApply_kept
    | with_reducible apply Kept.ite
    | split
    | dsimp only

theorem execFwApply_kept {kr : State} (id : Nat) (s : State) {kt : State} (hk : Kept kr s) (he : execFwApply id s = .next kt) : Kept kr kt := by
  unfold execFwApply at he
  injection he with he; subst he
  repeat' first
    | with_reducible assumption
    | with_reducible apply startCmd_kept
    | with_reducible apply fwApply_kept
    | (intro _ _ _)
    | dsimp only

theorem startSeq_kept {kr : State} (q : SeqNo) (version : Word) (s : State) (hk : Kept kr s) : Kept kr (startSeq q version s) := by
  unfold startSeq
  repeat' first
    | with_reducible assumption
    | with_reducible apply State.modSeq_kept
    | dsimp only

theorem applyDone_kept {kr : State} (a : FwApply) (st : Status) (rejected : BitVec 4) (ver : Word) (s : State) (hk : Kept kr s) : Kept kr (applyDone a st rejected ver s) := by
  unfold applyDone
  repeat' first
    | with_reducible assumption
    | with_reducible apply State.modMsq_kept
    | with_reducible apply complete_kept
    | split
    | dsimp only

theorem dropSeq_kept {kr : State} (q : SeqNo) (s : State) (hk : Kept kr s) : Kept kr (dropSeq q s) := by
  unfold dropSeq
  repeat' first
    | with_reducible assumption
    | with_reducible apply State.modSeq_kept
    | with_reducible apply raiseGlobal_kept
    | dsimp only

theorem rejectSeq_kept {kr : State} (q : SeqNo) (s : State) (hk : Kept kr s) : Kept kr (rejectSeq q s) := by
  unfold rejectSeq
  repeat' first
    | with_reducible assumption
    | with_reducible apply report_kept
    | with_reducible apply dropSeq_kept
    | dsimp only

theorem readStaged_kept {kr : State} (a : FwApply) (s : State) (hk : Kept kr s) : Kept kr (readStaged a s) := by
  unfold readStaged
  repeat' first
    | with_reducible assumption
    | with_reducible apply mmRequest_kept
    | split
    | dsimp only

theorem verifyLoad_kept {kr : State} (a : FwApply) (q : SeqNo) (rest : List SeqNo) (x : Staged) (s : State) (hk : Kept kr s) : Kept kr (verifyLoad a q rest x s) := by
  unfold verifyLoad
  repeat' first
    | with_reducible assumption
    | with_reducible apply State.modMsq_kept
    | with_reducible apply pump_kept
    | with_reducible apply fwWrite_kept
    | with_reducible apply quiesceSeq_kept
    | with_reducible apply startSeq_kept
    | with_reducible apply applyDone_kept
    | with_reducible apply rejectSeq_kept
    | with_reducible apply readStaged_kept
    | with_reducible apply Kept.ite
    | split
    | dsimp only

theorem applyLoad_kept {kr : State} (s : State) (hk : Kept kr s) : Kept kr (applyLoad s) := by
  unfold applyLoad
  repeat' first
    | with_reducible assumption
    | with_reducible apply State.modSeq_kept
    | with_reducible apply verifyLoad_kept
    | with_reducible apply Kept.ite
    | split
    | dsimp only

theorem execFwApplySequencerLoad_kept {kr : State} (s : State) {kt : State} (hk : Kept kr s) (he : execFwApplySequencerLoad s = .next kt) : Kept kr kt := by
  unfold execFwApplySequencerLoad at he
  injection he with he; subst he
  repeat' first
    | with_reducible assumption
    | with_reducible apply applyLoad_kept
    | with_reducible apply Kept.ite
    | split
    | dsimp only

theorem fwQuery_kept {kr : State} (c : Cmd) (s : State) (hk : Kept kr s) : Kept kr (fwQuery c s) := by
  unfold fwQuery
  repeat' first
    | with_reducible assumption
    | with_reducible apply ok_kept
    | dsimp only

theorem execFwQuery_kept {kr : State} (id : Nat) (s : State) {kt : State} (hk : Kept kr s) (he : execFwQuery id s = .next kt) : Kept kr kt := by
  unfold execFwQuery at he
  injection he with he; subst he
  repeat' first
    | with_reducible assumption
    | with_reducible apply startCmd_kept
    | with_reducible apply fwQuery_kept
    | (intro _ _ _)
    | dsimp only

theorem bootLoad_kept {kr : State} (s : State) (hk : Kept kr s) : Kept kr (bootLoad s) := by
  unfold bootLoad
  repeat' first
    | with_reducible assumption
    | ((with_reducible refine State.modSlu_kept ?_ ?_); · rfl)
    | with_reducible apply mmRequest_kept
    | with_reducible apply raiseGlobal_kept
    | with_reducible apply report_kept
    | with_reducible apply pump_kept
    | with_reducible apply service_kept
    | with_reducible apply fwWrite_kept
    | with_reducible apply startSeq_kept
    | with_reducible apply Kept.ite
    | (with_reducible refine Kept.foldl (fun _ _ _ => ?_) ?_)
    | split
    | dsimp only

theorem execFwBootLoad_kept {kr : State} (s : State) {kt : State} (hk : Kept kr s) (he : execFwBootLoad s = .next kt) : Kept kr kt := by
  unfold execFwBootLoad at he
  injection he with he; subst he
  repeat' first
    | with_reducible assumption
    | with_reducible apply bootLoad_kept
    | dsimp only

theorem awlSet_kept {kr : State} (c : Cmd) (s : State) (hk : Kept kr s) : Kept kr (awlSet c s) := by
  unfold awlSet
  repeat' first
    | with_reducible assumption
    | with_reducible apply State.modSeq_kept
    | with_reducible apply ok_kept
    | dsimp only

theorem execAwlSet_kept {kr : State} (id : Nat) (s : State) {kt : State} (hk : Kept kr s) (he : execAwlSet id s = .next kt) : Kept kr kt := by
  unfold execAwlSet at he
  injection he with he; subst he
  repeat' first
    | with_reducible assumption
    | with_reducible apply startCmd_kept
    | with_reducible apply awlSet_kept
    | (intro _ _ _)
    | dsimp only

theorem awlClear_kept {kr : State} (c : Cmd) (s : State) (hk : Kept kr s) : Kept kr (awlClear c s) := by
  unfold awlClear
  repeat' first
    | with_reducible assumption
    | with_reducible apply State.modSeq_kept
    | with_reducible apply ok_kept
    | dsimp only

theorem execAwlClear_kept {kr : State} (id : Nat) (s : State) {kt : State} (hk : Kept kr s) (he : execAwlClear id s = .next kt) : Kept kr kt := by
  unfold execAwlClear at he
  injection he with he; subst he
  repeat' first
    | with_reducible assumption
    | with_reducible apply startCmd_kept
    | with_reducible apply awlClear_kept
    | (intro _ _ _)
    | dsimp only

theorem awlResume_kept {kr : State} (c : Cmd) (s : State) (hk : Kept kr s) : Kept kr (awlResume c s) := by
  unfold awlResume
  repeat' first
    | with_reducible assumption
    | with_reducible apply State.modSeq_kept
    | with_reducible apply ok_kept
    | with_reducible apply refuse_kept
    | with_reducible apply releaseAwl_kept
    | with_reducible apply Kept.ite
    | split
    | dsimp only

theorem execAwlResume_kept {kr : State} (id : Nat) (s : State) {kt : State} (hk : Kept kr s) (he : execAwlResume id s = .next kt) : Kept kr kt := by
  unfold execAwlResume at he
  injection he with he; subst he
  repeat' first
    | with_reducible assumption
    | with_reducible apply startCmd_kept
    | with_reducible apply awlResume_kept
    | (intro _ _ _)
    | dsimp only

theorem haltSeq_kept {kr : State} (q : SeqNo) (n : BitVec 3) (kind : Bool) (pc : Word) (c : Option Cmd) (s : State) (hk : Kept kr s) : Kept kr (haltSeq q n kind pc c s) := by
  unfold haltSeq
  repeat' first
    | with_reducible assumption
    | with_reducible apply State.modSeq_kept
    | with_reducible apply raiseGlobal_kept
    | with_reducible apply setPhase_kept
    | with_reducible apply pump_kept
    | with_reducible apply drainPart_kept
    | with_reducible apply Kept.ite
    | (with_reducible refine Kept.foldl (fun _ _ _ => ?_) ?_)
    | split
    | dsimp only

theorem awlHit_kept {kr : State} (q : SeqNo) (pc : Word) (s : State) (hk : Kept kr s) : Kept kr (awlHit q pc s) := by
  unfold awlHit
  repeat' first
    | with_reducible assumption
    | with_reducible apply State.modSeq_kept
    | with_reducible apply awlMiss_kept
    | with_reducible apply haltSeq_kept
    | with_reducible apply Kept.ite
    | split
    | dsimp only

theorem execAwlHit_kept {kr : State} (q : SeqNo) (pc : Word) (s : State) {kt : State} (hk : Kept kr s) (he : execAwlHit q pc s = .next kt) : Kept kr kt := by
  unfold execAwlHit at he
  injection he with he; subst he
  repeat' first
    | with_reducible assumption
    | with_reducible apply awlHit_kept
    | dsimp only

theorem gateCmd_kept {kr : State} (c : Cmd) (s : State) (hk : Kept kr s) : Kept kr (gateCmd c s) := by
  unfold gateCmd
  repeat' first
    | with_reducible assumption
    | with_reducible apply State.modObk_kept
    | with_reducible apply wakeBank_kept
    | with_reducible apply ok_kept
    | with_reducible apply refuse_kept
    | with_reducible apply startWait_kept
    | with_reducible apply Kept.ite
    | split
    | dsimp only

theorem execBankGate_kept {kr : State} (id : Nat) (s : State) {kt : State} (hk : Kept kr s) (he : execBankGate id s = .next kt) : Kept kr kt := by
  unfold execBankGate at he
  injection he with he; subst he
  repeat' first
    | with_reducible assumption
    | with_reducible apply startCmd_kept
    | with_reducible apply gateCmd_kept
    | with_reducible apply Kept.ite
    | (intro _ _ _)
    | split
    | dsimp only

theorem execBankUngate_kept {kr : State} (id : Nat) (s : State) {kt : State} (hk : Kept kr s) (he : execBankUngate id s = .next kt) : Kept kr kt := by
  unfold execBankUngate at he
  injection he with he; subst he
  repeat' first
    | with_reducible assumption
    | with_reducible apply startCmd_kept
    | with_reducible apply gateCmd_kept
    | with_reducible apply Kept.ite
    | (intro _ _ _)
    | split
    | dsimp only

theorem endCmd_kept {kr : State} (id : Nat) (st : Status) (detail : Word) (s : State) (hk : Kept kr s) : Kept kr (endCmd id st detail s) := by
  unfold endCmd
  repeat' first
    | with_reducible assumption
    | with_reducible apply complete_kept
    | split
    | dsimp only

theorem gateDone_kept {kr : State} (s : State) (hk : Kept kr s) : Kept kr (gateDone s) := by
  unfold gateDone
  repeat' first
    | with_reducible assumption
    | with_reducible apply State.modObk_kept
    | with_reducible apply pump_kept
    | with_reducible apply endCmd_kept
    | with_reducible apply Kept.ite
    | split
    | dsimp only

theorem execBankGateComplete_kept {kr : State} (s : State) {kt : State} (hk : Kept kr s) (he : execBankGateComplete s = .next kt) : Kept kr kt := by
  unfold execBankGateComplete at he
  injection he with he; subst he
  repeat' first
    | with_reducible assumption
    | with_reducible apply gateDone_kept
    | with_reducible apply Kept.ite
    | split
    | dsimp only

theorem repower_kept {kr : State} (b : Bank) (s : State) (hk : Kept kr s) : Kept kr (repower b s) := by
  unfold repower
  repeat' first
    | with_reducible assumption
    | with_reducible apply State.modObk_kept
    | with_reducible apply gcount_kept
    | with_reducible apply ok_kept
    | with_reducible apply pump_kept
    | with_reducible apply Kept.ite
    | (with_reducible refine Kept.foldl (fun _ _ _ => ?_) ?_)
    | split
    | dsimp only

theorem execGatedBankRepower_kept {kr : State} (bank : Bank) (s : State) {kt : State} (hk : Kept kr s) (he : execGatedBankRepower bank s = .next kt) : Kept kr kt := by
  unfold execGatedBankRepower at he
  injection he with he; subst he
  repeat' first
    | with_reducible assumption
    | with_reducible apply repower_kept
    | dsimp only

theorem setBit_mono {w : Nat} (v : BitVec w) (i j : Nat) (h : v.getLsbD j = true) : (setBit v i).getLsbD j = true := by
  simp [setBit, h]

/-- OTP moves forward when `f` moves it forward. -/
theorem State.modSlu_otp_kept {kr s : State} {f : Slu → Slu} (ho : OtpStep s.slu.otp (f s.slu).otp) (hk : Kept kr s) :
    Kept kr (s.modSlu f) := ⟨hk.1, hk.2, hk.3, hk.4, hk.5.trans ho⟩

theorem burnBank_kept {kr : State} (b : Bank) (s : State) (hk : Kept kr s) : Kept kr (burnBank b s) := by
  unfold burnBank
  dsimp only
  with_reducible apply State.modObk_kept
  refine State.modSlu_otp_kept ?_ hk
  exact ⟨rfl, rfl, Nat.le_refl _, fun _ h => setBit_mono _ _ _ h, fun h => h⟩

theorem State.setMap_kept {kr : State} (s : State) (l : Nat) (e : MapEntry) (hk : Kept kr s) : Kept kr (State.setMap s l e) := by
  unfold State.setMap
  repeat' first
    | with_reducible assumption
    | with_reducible apply State.modObk_kept
    | dsimp only

theorem relocate_kept {kr : State} (lim : Nat) (ms : List (Nat × Nat × Nat)) (s : State) (hk : Kept kr s) : Kept kr (relocate lim ms s) := by
  unfold relocate
  repeat' first
    | with_reducible assumption
    | with_reducible apply State.modCtm_kept
    | with_reducible apply Kept.ite
    | (with_reducible refine Kept.foldl (fun _ _ _ => ?_) ?_)
    | split
    | dsimp only

theorem renewMoved_kept {kr : State} (old : State) (s : State) (hk : Kept kr s) : Kept kr (renewMoved old s) := by
  unfold renewMoved
  repeat' first
    | with_reducible assumption
    | with_reducible apply renewWq_kept
    | with_reducible apply Kept.ite
    | (with_reducible refine Kept.foldl (fun _ _ _ => ?_) ?_)
    | split
    | dsimp only

theorem distribute_kept {kr : State} (l : Nat) (ms : List (Nat × Nat × Nat)) (s : State) (hk : Kept kr s) : Kept kr (distribute l ms s) := by
  unfold distribute
  repeat' first
    | with_reducible assumption
    | with_reducible apply State.modObk_kept
    | with_reducible apply State.setObj_kept
    | with_reducible apply State.setMap_kept
    | with_reducible apply relocate_kept
    | with_reducible apply renewMoved_kept
    | (with_reducible refine Kept.foldl (fun _ _ _ => ?_) ?_)
    | dsimp only

theorem blockRetire_kept {kr : State} (b : Bank) (l : Nat) (s : State) (hk : Kept kr s) : Kept kr (blockRetire b l s) := by
  unfold blockRetire
  repeat' first
    | with_reducible assumption
    | with_reducible apply service_kept
    | dsimp only

/-- The state, if any, that a retirement's beginning answers. -/
def RetireStart.state : RetireStart → Option State
  | .started t | .done t | .blocked t => some t
  | .retired | .busy => none

theorem beginRetire_kept {kr : State} (b : Bank) (cmd : Option Nat) (s : State) (hk : Kept kr s) {t : State}
    (ht : (beginRetire b cmd s).state = some t) : Kept kr t := by
  unfold beginRetire at ht
  repeat' first
    | (cases ht; done)
    | (injection ht with ht; subst ht)
    | split at ht
    | dsimp only at ht
    | with_reducible assumption
    | with_reducible apply service_kept
    | with_reducible apply State.setMap_kept
    | with_reducible apply State.modObk_kept
    | with_reducible apply blockRetire_kept
    | with_reducible apply burnBank_kept

theorem bankRetire_kept {kr : State} (c : Cmd) (s : State) (hk : Kept kr s) : Kept kr (bankRetire c s) := by
  unfold bankRetire
  have h := @beginRetire_kept kr c.bank (some c.id) s hk
  split
  · exact refuse_kept _ _ _ _ hk
  · split <;> rename_i he <;> rw [he] at h
    · exact startWait_kept _ _ _ (h rfl)
    · exact ok_kept _ _ _ (h rfl)
    · exact refuse_kept _ _ _ _ (h rfl)
    · exact refuse_kept _ _ _ _ hk
    · exact hk

theorem execBankRetire_kept {kr : State} (id : Nat) (s : State) {kt : State} (hk : Kept kr s) (he : execBankRetire id s = .next kt) : Kept kr kt := by
  unfold execBankRetire at he
  injection he with he; subst he
  repeat' first
    | with_reducible assumption
    | with_reducible apply startCmd_kept
    | with_reducible apply bankRetire_kept
    | (intro _ _ _)
    | dsimp only

theorem nextRetire_kept {kr : State} (n : Nat) : ∀ (s : State), Kept kr s → Kept kr (nextRetire n s) := by
  induction n with
  | zero => intro s hk; exact hk
  | succ n ih =>
    intro s hk
    unfold nextRetire
    split
    · exact hk
    · rename_i b r _
      have hm : Kept kr (s.modObk fun o => { o with retireq := r }) := State.modObk_kept _ _ hk
      have h := @beginRetire_kept kr b none _ hm
      dsimp only
      split <;> rename_i he <;> rw [he] at h
      · exact h rfl
      · exact ih _ (h rfl)
      · exact ih _ (h rfl)
      · exact ih _ hm
      · exact hk

theorem failTarget_kept {kr : State} (r : Retire) (d : Bank) (s : State) (hk : Kept kr s) : Kept kr (failTarget r d s) := by
  unfold failTarget
  repeat' first
    | with_reducible assumption
    | with_reducible apply State.modObk_kept
    | with_reducible apply endCmd_kept
    | with_reducible apply burnBank_kept
    | with_reducible apply State.setMap_kept
    | with_reducible apply blockRetire_kept
    | with_reducible apply nextRetire_kept
    | split
    | dsimp only

theorem selfRetire_kept {kr : State} (b : Bank) (s : State) (hk : Kept kr s) : Kept kr (selfRetire b s) := by
  unfold selfRetire
  repeat' first
    | with_reducible assumption
    | with_reducible apply State.modObk_kept
    | with_reducible apply nextRetire_kept
    | with_reducible apply failTarget_kept
    | with_reducible apply Kept.ite
    | split
    | dsimp only

theorem copyRows_kept {kr : State} (b d : Bank) (s : State) (hk : Kept kr s) : Kept kr (copyRows b d s) := by
  unfold copyRows
  repeat' first
    | with_reducible assumption
    | with_reducible apply State.modObk_kept
    | (with_reducible refine Kept.foldl (fun _ _ _ => ?_) ?_)
    | dsimp only

theorem holdMoves_kept {kr : State} (s : State) (hk : Kept kr s) : Kept kr (holdMoves s) := by
  unfold holdMoves
  repeat' first
    | with_reducible assumption
    | with_reducible apply State.modObk_kept
    | dsimp only

theorem migrationSwitch_kept {kr : State} (s : State) (hk : Kept kr s) : Kept kr (migrationSwitch s) := by
  unfold migrationSwitch
  repeat' first
    | with_reducible assumption
    | with_reducible apply State.modObk_kept
    | with_reducible apply pump_kept
    | with_reducible apply State.setMap_kept
    | with_reducible apply renewMoved_kept
    | with_reducible apply copyRows_kept
    | with_reducible apply holdMoves_kept
    | with_reducible apply Kept.ite
    | split
    | dsimp only

theorem execBankMigrationSwitch_kept {kr : State} (s : State) {kt : State} (hk : Kept kr s) (he : execBankMigrationSwitch s = .next kt) : Kept kr kt := by
  unfold execBankMigrationSwitch at he
  injection he with he; subst he
  repeat' first
    | with_reducible assumption
    | with_reducible apply migrationSwitch_kept
    | with_reducible apply Kept.ite
    | split
    | dsimp only

theorem endRetire_kept {kr : State} (r : Retire) (st : Status) (detail : Word) (s : State) (hk : Kept kr s) : Kept kr (endRetire r st detail s) := by
  unfold endRetire
  repeat' first
    | with_reducible assumption
    | with_reducible apply State.modObk_kept
    | with_reducible apply pump_kept
    | with_reducible apply endCmd_kept
    | with_reducible apply nextRetire_kept
    | split
    | dsimp only

theorem migrationComplete_kept {kr : State} (s : State) (hk : Kept kr s) : Kept kr (migrationComplete s) := by
  unfold migrationComplete
  repeat' first
    | with_reducible assumption
    | with_reducible apply State.modObk_kept
    | with_reducible apply service_kept
    | with_reducible apply burnBank_kept
    | with_reducible apply endRetire_kept
    | with_reducible apply Kept.ite
    | split
    | dsimp only

theorem execMigrationComplete_kept {kr : State} (s : State) {kt : State} (hk : Kept kr s) (he : execMigrationComplete s = .next kt) : Kept kr kt := by
  unfold execMigrationComplete at he
  injection he with he; subst he
  repeat' first
    | with_reducible assumption
    | with_reducible apply migrationComplete_kept
    | with_reducible apply Kept.ite
    | split
    | dsimp only

theorem distributionComplete_kept {kr : State} (s : State) (hk : Kept kr s) : Kept kr (distributionComplete s) := by
  unfold distributionComplete
  repeat' first
    | with_reducible assumption
    | with_reducible apply wakeRows_kept
    | with_reducible apply service_kept
    | with_reducible apply burnBank_kept
    | with_reducible apply distribute_kept
    | with_reducible apply holdMoves_kept
    | with_reducible apply endRetire_kept
    | with_reducible apply Kept.ite
    | split
    | dsimp only

theorem execDistributionComplete_kept {kr : State} (s : State) {kt : State} (hk : Kept kr s) (he : execDistributionComplete s = .next kt) : Kept kr kt := by
  unfold execDistributionComplete at he
  injection he with he; subst he
  repeat' first
    | with_reducible assumption
    | with_reducible apply distributionComplete_kept
    | with_reducible apply Kept.ite
    | split
    | dsimp only

theorem addCorr_kept {kr : State} (u : WipeUnit) (n : Nat) (s : State) (hk : Kept kr s) : Kept kr (addCorr u n s) := by
  unfold addCorr
  repeat' first
    | with_reducible assumption
    | ((with_reducible refine State.modSlu_kept ?_ ?_); · rfl)
    | with_reducible apply gcountN_kept
    | dsimp only

theorem correctionThreshold_kept {kr : State} (u : WipeUnit) (n : Nat) (s : State) (hk : Kept kr s) : Kept kr (correctionThreshold u n s) := by
  unfold correctionThreshold
  repeat' first
    | with_reducible assumption
    | with_reducible apply service_kept
    | with_reducible apply selfRetire_kept
    | with_reducible apply addCorr_kept
    | with_reducible apply Kept.ite
    | split
    | dsimp only

theorem execCorrectionThreshold_kept {kr : State} (c : Corrections) (s : State) {kt : State} (hk : Kept kr s) (he : execCorrectionThreshold c s = .next kt) : Kept kr kt := by
  unfold execCorrectionThreshold at he
  injection he with he; subst he
  repeat' first
    | with_reducible assumption
    | with_reducible apply correctionThreshold_kept
    | with_reducible apply Kept.ite
    | split
    | dsimp only

theorem failOp_kept {kr : State} (id : Nat) (s : State) (hk : Kept kr s) : Kept kr (failOp id s) := by
  unfold failOp
  repeat' first
    | with_reducible assumption
    | with_reducible apply finish_kept
    | with_reducible apply Kept.ite
    | split
    | dsimp only

theorem dropOut_kept {kr : State} (k : OKey) (s : State) (hk : Kept kr s) : Kept kr (dropOut k s) := by
  unfold dropOut
  repeat' first
    | with_reducible assumption
    | with_reducible apply writeTack_kept
    | with_reducible apply modTack_kept
    | split
    | dsimp only

theorem loseObject_kept {kr : State} (k : OKey) (s : State) (hk : Kept kr s) : Kept kr (loseObject k s) := by
  unfold loseObject
  repeat' first
    | with_reducible assumption
    | with_reducible apply inner_kept
    | with_reducible apply destroyObject_kept
    | with_reducible apply dropOut_kept
    | split
    | dsimp only

theorem errEffect_kept {kr : State} (site : ErrSite) (s : State) {kt : State} (hk : Kept kr s) (he : errEffect site s = some kt) : Kept kr kt := by
  unfold errEffect at he
  repeat' first
    | (cases he; done)
    | (injection he with he; subst he)
    | (injection he with he; injection he with he1 he2; subst he2)
    | (injection he with he)
    | split at he
    | dsimp only at he
    | with_reducible assumption
    | with_reducible apply State.modOlu_kept
    | with_reducible apply State.modObs_kept
    | with_reducible apply gcount_kept
    | with_reducible apply traceDrop_kept
    | with_reducible apply unpark_kept
    | with_reducible apply wakeWaiter_kept
    | with_reducible apply closeAt_kept
    | with_reducible apply afterLeave_kept
    | with_reducible apply dropHeld_kept
    | with_reducible apply endRWait_kept
    | with_reducible apply lowerHeld_kept
    | with_reducible apply destroyCtx_kept
    | (refine destroyCtx_keptE _ _ _ ?_ (by with_reducible assumption))
    | with_reducible apply dropSeq_kept
    | with_reducible apply selfRetire_kept
    | with_reducible apply failOp_kept
    | with_reducible apply loseObject_kept
    | with_reducible apply Kept.ite
    | split
    | dsimp only

theorem storeFault_kept {kr : State} (m : Store × Nat) (s : State) (hk : Kept kr s) : Kept kr (storeFault m s) := by
  unfold storeFault
  repeat' first
    | with_reducible assumption
    | ((with_reducible refine State.modSlu_kept ?_ ?_); · rfl)
    | with_reducible apply spillLoop_kept
    | with_reducible apply service_kept
    | with_reducible apply Kept.ite
    | split
    | dsimp only

theorem repeatError_kept {kr : State} (m : Store × Nat) (s : State) (hk : Kept kr s) : Kept kr (repeatError m s) := by
  unfold repeatError
  repeat' first
    | with_reducible assumption
    | ((with_reducible refine State.modSlu_kept ?_ ?_); · rfl)
    | with_reducible apply storeFault_kept
    | with_reducible apply Kept.ite
    | split
    | dsimp only

theorem uncorrectable_kept {kr : State} (site : ErrSite) (m : Nat) (s : State) (hk : Kept kr s) : Kept kr (uncorrectable site m s) := by
  unfold uncorrectable
  repeat' first
    | with_reducible assumption
    | with_reducible apply gcount_kept
    | with_reducible apply report_kept
    | with_reducible apply pump_kept
    | with_reducible apply service_kept
    | (refine errEffect_kept _ _ ?_ (by with_reducible assumption))
    | with_reducible apply repeatError_kept
    | split
    | dsimp only

theorem execUncorrectableError_kept {kr : State} (site : ErrSite) (macroNo : Nat) (s : State) {kt : State} (hk : Kept kr s) (he : execUncorrectableError site macroNo s = .next kt) : Kept kr kt := by
  unfold execUncorrectableError at he
  injection he with he; subst he
  repeat' first
    | with_reducible assumption
    | with_reducible apply uncorrectable_kept
    | with_reducible apply Kept.ite
    | split
    | dsimp only

theorem fuseService_kept {kr : State} (s : State) (hk : Kept kr s) : Kept kr (fuseService s) := by
  unfold fuseService
  repeat' first
    | with_reducible assumption
    | with_reducible apply service_kept
    | with_reducible apply Kept.ite
    | split
    | dsimp only

/-- A reset leaves what no reset touches; the straps are those it is given. -/
theorem afterReset_kept {kr : State} (s : State) (v : BitVec 17) {f : Clk → Clk} (hf : ∀ c, (f c).straps = v)
    (hk : Kept kr s) : Kept { kr with clk := { kr.clk with straps := v } } ((afterReset s).modClk f) :=
  ⟨hk.1, hk.2, hf _, hk.4, hk.5⟩

theorem beginStartup_kept {kr : State} (s : State) (hk : Kept kr s) : Kept kr (beginStartup s) := by
  unfold beginStartup
  repeat' first
    | with_reducible assumption
    | ((with_reducible refine State.modClk_kept ?_ ?_); · rfl)
    | with_reducible apply Kept.ite
    | split
    | dsimp only

theorem enterS0_kept {kr : State} (s : State) (hk : Kept kr s) : Kept kr (enterS0 s) := by
  unfold enterS0
  repeat' first
    | with_reducible assumption
    | ((with_reducible refine State.modSlu_kept ?_ ?_); · rfl)
    | ((with_reducible refine State.modClk_kept ?_ ?_); · rfl)
    | with_reducible apply beginStartup_kept
    | dsimp only

theorem coldReset_kept {kr : State} (straps : BitVec 16) (s : State) (hk : Kept kr s) :
    Kept { kr with clk := { kr.clk with straps := captureStraps straps } } (coldReset straps s) := by
  unfold coldReset
  dsimp only
  with_reducible apply enterS0_kept
  have h := State.modObk_kept (kr := { kr with clk := { kr.clk with straps := captureStraps straps } }) _
    (mapOfFuses (fresh s).2.slu.otp.bankRepair)
    (afterReset_kept (kr := kr) (fresh s).2 (captureStraps straps)
      (f := fun c =>
        { c with
          straps := captureStraps straps, startupSeq := seqPreset (captureStraps straps), cause := 1
          incarnation := if ((fresh s).1.setWidth 8 : Byte) = 0 then 1 else (fresh s).1.setWidth 8 })
      (fun _ => rfl) (fresh_kept s hk))
  with_reducible apply fuseService_kept
  exact h

theorem execColdReset_kept {kr : State} (straps : BitVec 16) (s : State) {kt : State} (hk : Kept kr s)
    (he : execColdReset straps s = .next kt) :
    Kept { kr with clk := { kr.clk with straps := captureStraps straps } } kt := by
  unfold execColdReset at he
  injection he with he; subst he
  exact coldReset_kept straps s hk

theorem finishMigration_kept {kr : State} (s : State) (hk : Kept kr s) : Kept kr (finishMigration s) := by
  unfold finishMigration
  repeat' first
    | with_reducible assumption
    | with_reducible apply State.modObk_kept
    | with_reducible apply burnBank_kept
    | split
    | dsimp only

theorem migrated_kept {kr : State} (r : Option Retire) (s : State) (hk : Kept kr s) : Kept kr (migrated r s) := by
  unfold migrated
  repeat' first
    | with_reducible assumption
    | with_reducible apply service_kept
    | with_reducible apply Kept.ite
    | split
    | dsimp only

theorem warmReset_kept {kr : State} (cause : BitVec 5) (latch : Bool) (s : State) (hk : Kept kr s) :
    Kept kr (warmReset cause latch s) := by
  unfold warmReset
  dsimp only
  have hm := finishMigration_kept s hk
  with_reducible apply enterS0_kept
  with_reducible apply migrated_kept
  with_reducible refine State.modSlu_kept (by rfl) ?_
  with_reducible apply State.modObk_kept
  have h := afterReset_kept (kr := kr) (finishMigration s) (finishMigration s).clk.straps
    (f := fun c =>
      { c with
        straps := (finishMigration s).clk.straps, startupSeq := (finishMigration s).clk.startupSeq
        timeInc := (finishMigration s).clk.timeInc, cause
        warmCount := if (finishMigration s).clk.warmCount = 255 then 255 else (finishMigration s).clk.warmCount + 1
        incarnation := if (finishMigration s).clk.incarnation = 255 then 1 else (finishMigration s).clk.incarnation + 1 })
    (fun _ => rfl) hm
  exact ⟨h.1, h.2, h.3.trans hm.3, h.4, h.5⟩

theorem execWarmReset_kept {kr : State} (s : State) {kt : State} (hk : Kept kr s) (he : execWarmReset s = .next kt) : Kept kr kt := by
  unfold execWarmReset at he
  injection he with he; subst he
  repeat' first
    | with_reducible assumption
    | with_reducible apply warmReset_kept
    | dsimp only

theorem rootLockLoss_kept {kr : State} (s : State) (hk : Kept kr s) : Kept kr (rootLockLoss s) := by
  unfold rootLockLoss
  repeat' first
    | with_reducible assumption
    | ((with_reducible refine State.modClk_kept ?_ ?_); · rfl)
    | with_reducible apply warmReset_kept
    | with_reducible apply Kept.ite
    | split
    | dsimp only

theorem execRootLockLoss_kept {kr : State} (s : State) {kt : State} (hk : Kept kr s) (he : execRootLockLoss s = .next kt) : Kept kr kt := by
  unfold execRootLockLoss at he
  injection he with he; subst he
  repeat' first
    | with_reducible assumption
    | with_reducible apply rootLockLoss_kept
    | dsimp only

theorem rootLockRise_kept {kr : State} (s : State) (hk : Kept kr s) : Kept kr (rootLockRise s) := by
  unfold rootLockRise
  repeat' first
    | with_reducible assumption
    | ((with_reducible refine State.modClk_kept ?_ ?_); · rfl)
    | with_reducible apply beginStartup_kept
    | with_reducible apply Kept.ite
    | split
    | dsimp only

theorem execRootLockRise_kept {kr : State} (s : State) {kt : State} (hk : Kept kr s) (he : execRootLockRise s = .next kt) : Kept kr kt := by
  unfold execRootLockRise at he
  injection he with he; subst he
  repeat' first
    | with_reducible assumption
    | with_reducible apply rootLockRise_kept
    | dsimp only

theorem loseBanks_kept {kr : State} (bs : List Bank) (s : State) (hk : Kept kr s) : Kept kr (loseBanks bs s) := by
  unfold loseBanks
  repeat' first
    | with_reducible assumption
    | with_reducible apply State.modObk_kept
    | with_reducible apply Kept.ite
    | (with_reducible refine Kept.foldl (fun _ _ _ => ?_) ?_)
    | split
    | dsimp only

theorem enableWrites_kept {kr : State} (s : State) (hk : Kept kr s) : Kept kr (enableWrites s) := by
  unfold enableWrites
  repeat' first
    | with_reducible assumption
    | with_reducible apply State.modFp_kept
    | with_reducible apply State.modObk_kept
    | with_reducible apply Kept.ite
    | (with_reducible refine Kept.foldl (fun _ _ _ => ?_) ?_)
    | split
    | dsimp only

theorem releaseStep_kept {kr : State} (code : BitVec 2) (s : State) (hk : Kept kr s) : Kept kr (releaseStep code s) := by
  unfold releaseStep
  repeat' first
    | with_reducible assumption
    | ((with_reducible refine State.modClk_kept ?_ ?_); · rfl)
    | with_reducible apply enableWrites_kept
    | split
    | dsimp only

theorem releaseAll_kept {kr : State} (s : State) (hk : Kept kr s) : Kept kr (releaseAll s) := by
  unfold releaseAll
  repeat' first
    | with_reducible assumption
    | with_reducible apply releaseStep_kept
    | (with_reducible refine Kept.foldl (fun _ _ _ => ?_) ?_)
    | dsimp only

theorem wipeEvent_kept {kr : State} (old : State) (failed : List Bank) (u : WipeUnit) (s : State) (hk : Kept kr s) : Kept kr (wipeEvent old failed u s) := by
  unfold wipeEvent
  repeat' first
    | with_reducible assumption
    | ((with_reducible refine State.modSlu_kept ?_ ?_); · rfl)
    | with_reducible apply service_kept
    | with_reducible apply Kept.ite
    | split
    | dsimp only

theorem wipeFault_kept {kr : State} (old : State) (failed : List Bank) (u : WipeUnit) (s : State) (hk : Kept kr s) : Kept kr (wipeFault old failed u s) := by
  unfold wipeFault
  repeat' first
    | with_reducible assumption
    | with_reducible apply report_kept
    | with_reducible apply burnBank_kept
    | with_reducible apply wipeEvent_kept
    | split
    | dsimp only

theorem wipeDone_kept {kr : State} (failed : List WipeUnit) (s : State) (hk : Kept kr s) : Kept kr (wipeDone failed s) := by
  unfold wipeDone
  repeat' first
    | with_reducible assumption
    | ((with_reducible refine State.modClk_kept ?_ ?_); · rfl)
    | with_reducible apply loseBanks_kept
    | with_reducible apply releaseAll_kept
    | with_reducible apply wipeEvent_kept
    | with_reducible apply wipeFault_kept
    | with_reducible apply Kept.ite
    | (with_reducible refine Kept.foldl (fun _ _ _ => ?_) ?_)
    | split
    | dsimp only

theorem execSramWipeDone_kept {kr : State} (failed : List WipeUnit) (s : State) {kt : State} (hk : Kept kr s) (he : execSramWipeDone failed s = .next kt) : Kept kr kt := by
  unfold execSramWipeDone at he
  injection he with he; subst he
  repeat' first
    | with_reducible assumption
    | with_reducible apply wipeDone_kept
    | dsimp only

theorem drainAll_kept {kr : State} (s : State) (hk : Kept kr s) : Kept kr (drainAll s) := by
  unfold drainAll
  repeat' first
    | with_reducible assumption
    | with_reducible apply noticePart_kept
    | (with_reducible refine Kept.foldl (fun _ _ _ => ?_) ?_)
    | dsimp only

theorem acceptLc_kept {kr : State} (c : Cmd) (r : List Byte) (t : Lc) (s : State) (ht : t ≠ .blank)
    (hk : Kept kr s) : Kept kr (acceptLc c r t s) := by
  unfold acceptLc
  dsimp only
  with_reducible apply ok_kept
  with_reducible apply drainAll_kept
  refine State.modSlu_otp_kept ?_ hk
  dsimp only
  have hp : OtpStep s.slu.otp (programOtp r s.slu.otp) := ⟨rfl, rfl, Nat.le_refl _, fun _ h => h, fun h => h⟩
  split <;> split
  · exact hp
  · exact OtpStep.refl _
  · exact ⟨hp.1, hp.2, hp.3, hp.4, fun _ => ht⟩
  · exact ⟨rfl, rfl, Nat.le_refl _, fun _ h => h, fun _ => ht⟩

theorem raiseFloor_kept {kr : State} (c : Cmd) (r : List Byte) (s : State) (hr : s.slu.otp.svnFloor ≤ bnat r 16 4)
    (hk : Kept kr s) : Kept kr (raiseFloor c r s) :=
  ok_kept _ _ _ (State.modSlu_otp_kept ⟨rfl, rfl, hr, fun _ h => h, fun h => h⟩ hk)

theorem lcOf_code {n : Nat} {t : Lc} (h : lcOf n = some t) : n = (Lc.code t).toNat := by
  unfold lcOf at h
  split at h <;> cases h <;> rfl

/-- A record that passes every check names a permitted pair; one that raises the floor names a higher floor. -/
theorem lcCheck_none {r : List Byte} {len target : Nat} {s : State} {t : Lc} (h : lcCheck r len target s = none)
    (ht : lcOf target = some t) :
    s.slu.lcKey t ≠ none ∧ (t = s.slu.lc → s.slu.otp.svnFloor ≤ bnat r 16 4) := by
  have hc := lcOf_code ht
  unfold lcCheck at h
  simp only [ht, Option.bind_some] at h
  split at h
  · rename_i hp
    refine ⟨by simp [hp], fun he => ?_⟩
    subst he
    exfalso
    revert hp
    unfold Slu.lcKey
    cases s.slu.lc <;> simp
  · split at h
    · cases h
    · split at h
      · cases h
      · split at h
        · rename_i hp
          refine ⟨by simp [hp], fun he => ?_⟩
          subst he
          split at h
          · cases h
          · split at h
            · cases h
            · split at h
              · cases h
              · rename_i hn
                simp only [hc, decide_true, Bool.true_and, decide_eq_true_eq] at hn
                omega
        · cases h

theorem lcAdvance_kept {kr : State} (c : Cmd) (s : State) (hk : Kept kr s) : Kept kr (lcAdvance c s) := by
  unfold lcAdvance
  have hk2 : Kept kr (if (c.word 5).toNat = 528 then
      mmRequest false (s.cmdReqid c) (c.addr 3) (c.word 5).toNat s else s) :=
    Kept.ite (mmRequest_kept _ _ _ _ _ hk) hk
  dsimp only
  generalize (if (c.word 5).toNat = 528 then
      mmRequest false (s.cmdReqid c) (c.addr 3) (c.word 5).toNat s else s) = t at hk2 ⊢
  split
  · exact memFail_kept _ _ _ hk2
  · split
    · exact refuse_kept _ _ _ _ hk2
    · rename_i hn ht
      have h := lcCheck_none hn ht
      split
      · rename_i he
        exact raiseFloor_kept _ _ _ (h.2 he) hk2
      · rename_i hne
        refine acceptLc_kept _ _ _ _ ?_ hk2
        intro hb
        subst hb
        apply h.1
        revert hne
        unfold Slu.lcKey
        cases t.slu.lc <;> simp
    · exact hk2

theorem execLcAdvance_kept {kr : State} (id : Nat) (s : State) {kt : State} (hk : Kept kr s) (he : execLcAdvance id s = .next kt) : Kept kr kt := by
  unfold execLcAdvance at he
  injection he with he; subst he
  repeat' first
    | with_reducible assumption
    | with_reducible apply startCmd_kept
    | with_reducible apply lcAdvance_kept
    | with_reducible apply Kept.ite
    | (intro _ _ _)
    | split
    | dsimp only

theorem execLcFloorRaise_kept {kr : State} (id : Nat) (s : State) {kt : State} (hk : Kept kr s) (he : execLcFloorRaise id s = .next kt) : Kept kr kt := by
  unfold execLcFloorRaise at he
  injection he with he; subst he
  repeat' first
    | with_reducible assumption
    | with_reducible apply startCmd_kept
    | with_reducible apply lcAdvance_kept
    | with_reducible apply Kept.ite
    | (intro _ _ _)
    | split
    | dsimp only

theorem lcReset_kept {kr : State} (edges : Nat) (s : State) (hk : Kept kr s) : Kept kr (lcReset edges s) := by
  unfold lcReset
  repeat' first
    | with_reducible assumption
    | with_reducible apply elapse_kept
    | with_reducible apply warmReset_kept
    | with_reducible apply Kept.ite
    | split
    | dsimp only

theorem execLcTransitionReset_kept {kr : State} (edges : Nat) (s : State) {kt : State} (hk : Kept kr s) (he : execLcTransitionReset edges s = .next kt) : Kept kr kt := by
  unfold execLcTransitionReset at he
  injection he with he; subst he
  repeat' first
    | with_reducible assumption
    | with_reducible apply lcReset_kept
    | dsimp only

theorem capture_kept {kr : State} (v : BitVec 256) (s : State) (hk : Kept kr s) : Kept kr (capture v s) := by
  unfold capture
  repeat' first
    | with_reducible assumption
    | ((with_reducible refine State.modSlu_kept ?_ ?_); · rfl)
    | dsimp only

theorem captureOpen_kept {kr : State} (s : State) (hk : Kept kr s) : Kept kr (captureOpen s) := by
  unfold captureOpen
  repeat' first
    | with_reducible assumption
    | with_reducible apply fresh_kept
    | (refine fresh_keptE _ ?_ (by with_reducible assumption))
    | with_reducible apply capture_kept
    | dsimp only

theorem tapSeq_kept {kr : State} (q : SeqNo) (act : SeqAct) (s : State) (hk : Kept kr s) : Kept kr (tapSeq q act s) := by
  unfold tapSeq
  repeat' first
    | with_reducible assumption
    | with_reducible apply State.modSeq_kept
    | with_reducible apply capture_kept
    | split
    | dsimp only

theorem tapReg_kept {kr : State} (a : CrAddr) (w : Option Word) (s : State) (hk : Kept kr s) : Kept kr (tapReg a w s) := by
  unfold tapReg
  repeat' first
    | with_reducible assumption
    | with_reducible apply State.modCr_kept
    | with_reducible apply crRead_kept
    | with_reducible apply crWrite_kept
    | with_reducible apply capture_kept
    | with_reducible apply Kept.ite
    | split
    | dsimp only

theorem putWord_kept {kr : State} (b : Bank) (n : BitVec 14) (v : BitVec 256) (s : State) (hk : Kept kr s) : Kept kr (putWord b n v s) := by
  unfold putWord
  repeat' first
    | with_reducible assumption
    | with_reducible apply State.modObk_kept
    | split
    | dsimp only

theorem tapSram_kept {kr : State} (m : SramWord) (w : Option (BitVec 256)) (s : State) (hk : Kept kr s) : Kept kr (tapSram m w s) := by
  unfold tapSram
  repeat' first
    | with_reducible assumption
    | with_reducible apply fwWrite_kept
    | with_reducible apply capture_kept
    | with_reducible apply captureOpen_kept
    | with_reducible apply putWord_kept
    | with_reducible apply Kept.ite
    | split
    | dsimp only

theorem tapRun_kept {kr : State} (t : TapScan) (s : State) (hk : Kept kr s) : Kept kr (tapRun t s) := by
  unfold tapRun
  repeat' first
    | with_reducible assumption
    | ((with_reducible refine State.modSlu_kept ?_ ?_); · rfl)
    | with_reducible apply warmReset_kept
    | with_reducible apply capture_kept
    | with_reducible apply captureOpen_kept
    | with_reducible apply tapSeq_kept
    | with_reducible apply tapReg_kept
    | with_reducible apply tapSram_kept
    | split
    | dsimp only

theorem tapSelect_kept {kr : State} (t : TapScan) (s : State) (hk : Kept kr s) : Kept kr (tapSelect t s) := by
  unfold tapSelect
  repeat' first
    | with_reducible assumption
    | ((with_reducible refine State.modSlu_kept ?_ ?_); · rfl)
    | with_reducible apply report_kept
    | with_reducible apply tapRun_kept
    | with_reducible apply Kept.ite
    | split
    | dsimp only

theorem execTapInstruction_kept {kr : State} (t : TapScan) (s : State) {kt : State} (hk : Kept kr s) (he : execTapInstruction t s = .next kt) : Kept kr kt := by
  unfold execTapInstruction at he
  injection he with he; subst he
  repeat' first
    | with_reducible assumption
    | with_reducible apply tapSelect_kept
    | dsimp only

theorem traceCtl_kept {kr : State} (c : Cmd) (s : State) (hk : Kept kr s) : Kept kr (traceCtl c s) := by
  unfold traceCtl
  repeat' first
    | with_reducible assumption
    | with_reducible apply modTrace_kept
    | with_reducible apply ok_kept
    | with_reducible apply Kept.ite
    | split
    | dsimp only

theorem execTraceCtl_kept {kr : State} (id : Nat) (s : State) {kt : State} (hk : Kept kr s) (he : execTraceCtl id s = .next kt) : Kept kr kt := by
  unfold execTraceCtl at he
  injection he with he; subst he
  repeat' first
    | with_reducible assumption
    | with_reducible apply startCmd_kept
    | with_reducible apply traceCtl_kept
    | (intro _ _ _)
    | dsimp only

theorem traceStore_kept {kr : State} (r : BitVec 256) (s : State) {kt : State} (hk : Kept kr s) (he : traceStore r s = some kt) : Kept kr kt := by
  unfold traceStore at he
  repeat' first
    | (cases he; done)
    | (injection he with he; subst he)
    | (injection he with he; injection he with he1 he2; subst he2)
    | (injection he with he)
    | split at he
    | dsimp only at he
    | with_reducible assumption
    | with_reducible apply mmWrite_kept
    | with_reducible apply gcount_kept
    | with_reducible apply raiseGlobal_kept
    | with_reducible apply modTrace_kept
    | with_reducible apply Kept.ite
    | split
    | dsimp only

theorem flushDrop_kept {kr : State} (s : State) {kt : State} (hk : Kept kr s) (he : flushDrop s = some kt) : Kept kr kt := by
  unfold flushDrop at he
  repeat' first
    | (cases he; done)
    | (injection he with he; subst he)
    | (injection he with he; injection he with he1 he2; subst he2)
    | (injection he with he)
    | split at he
    | dsimp only at he
    | with_reducible assumption
    | with_reducible apply modTrace_kept
    | (refine traceStore_kept _ _ ?_ (by with_reducible assumption))
    | with_reducible apply Kept.ite
    | split
    | dsimp only

theorem traceWrite_kept {kr : State} (s : State) (hk : Kept kr s) : Kept kr (traceWrite s) := by
  unfold traceWrite
  repeat' first
    | with_reducible assumption
    | with_reducible apply count_kept
    | with_reducible apply modTrace_kept
    | with_reducible apply traceDrop_kept
    | (refine traceStore_kept _ _ ?_ (by with_reducible assumption))
    | (refine flushDrop_kept _ ?_ (by with_reducible assumption))
    | split
    | dsimp only

theorem execTraceWrite_kept {kr : State} (s : State) {kt : State} (hk : Kept kr s) (he : execTraceWrite s = .next kt) : Kept kr kt := by
  unfold execTraceWrite at he
  injection he with he; subst he
  repeat' first
    | with_reducible assumption
    | with_reducible apply traceWrite_kept
    | with_reducible apply Kept.ite
    | split
    | dsimp only

theorem snapshot_kept {kr : State} (c : Cmd) (s : State) (hk : Kept kr s) : Kept kr (snapshot c s) := by
  unfold snapshot
  repeat' first
    | with_reducible assumption
    | with_reducible apply mmRequest_kept
    | with_reducible apply mmWrite_kept
    | with_reducible apply gcountN_kept
    | with_reducible apply ok_kept
    | with_reducible apply refuse_kept
    | with_reducible apply memFail_kept
    | with_reducible apply Kept.ite
    | split
    | dsimp only

theorem execSnapshot_kept {kr : State} (id : Nat) (s : State) {kt : State} (hk : Kept kr s) (he : execSnapshot id s = .next kt) : Kept kr kt := by
  unfold execSnapshot at he
  injection he with he; subst he
  repeat' first
    | with_reducible assumption
    | with_reducible apply startCmd_kept
    | with_reducible apply snapshot_kept
    | (intro _ _ _)
    | dsimp only

end Sys2Proof.Machine
end

