-- ==== Sys2Proof/Laws/KeptFab.lean ====
section
/-! SUPPORT. Every effect defined in FabLink, FabOps, Discovery, Stitch keeps the relation of Laws/Kept. -/

namespace Sys2Proof.Machine

theorem oweCredit_kept {kr : State} (p : FabPort) (pool : Nat) (s : State) (hk : Kept kr s) : Kept kr (oweCredit p pool s) := by
  unfold oweCredit
  repeat' first
    | with_reducible assumption
    | with_reducible apply State.modFp_kept
    | with_reducible apply Kept.ite
    | split
    | dsimp only

theorem regionWrite_kept {kr : State} (off : Nat) (l : List Byte) (s : State) (hk : Kept kr s) : Kept kr (regionWrite off l s) := by
  unfold regionWrite
  repeat' first
    | with_reducible assumption
    | with_reducible apply mmWrite_kept
    | with_reducible apply Kept.ite
    | split
    | dsimp only

theorem regionHeader_kept {kr : State} (s : State) (hk : Kept kr s) : Kept kr (regionHeader s) := by
  unfold regionHeader
  repeat' first
    | with_reducible assumption
    | with_reducible apply regionWrite_kept
    | dsimp only

theorem regionBit_kept {kr : State} (second : Bool) (n : NodeId) (s : State) (hk : Kept kr s) : Kept kr (regionBit second n s) := by
  unfold regionBit
  repeat' first
    | with_reducible assumption
    | with_reducible apply regionWrite_kept
    | with_reducible apply Kept.ite
    | split
    | dsimp only

theorem hobbleReply_kept {kr : State} (final : Bool) (s : State) (hk : Kept kr s) : Kept kr (hobbleReply final s) := by
  unfold hobbleReply
  repeat' first
    | with_reducible assumption
    | with_reducible apply State.modHob_kept
    | with_reducible apply complete_kept
    | with_reducible apply Kept.ite
    | split
    | dsimp only

theorem hobbleReach_kept {kr : State} (n : NodeId) (inc : Bool) (s : State) (hk : Kept kr s) : Kept kr (hobbleReach n inc s) := by
  unfold hobbleReach
  repeat' first
    | with_reducible assumption
    | with_reducible apply State.modHob_kept
    | with_reducible apply regionBit_kept
    | with_reducible apply hobbleReply_kept
    | with_reducible apply Kept.ite
    | split
    | dsimp only

theorem hobbleCheck_kept {kr : State} (s : State) (hk : Kept kr s) : Kept kr (hobbleCheck s) := by
  unfold hobbleCheck
  repeat' first
    | with_reducible assumption
    | with_reducible apply State.modHob_kept
    | with_reducible apply raiseGlobal_kept
    | with_reducible apply fabSend_kept
    | with_reducible apply regionHeader_kept
    | with_reducible apply hobbleReach_kept
    | with_reducible apply Kept.ite
    | split
    | dsimp only

theorem dropFwdAll_kept {kr : State} (p : FabPort) (s : State) (hk : Kept kr s) : Kept kr (dropFwdAll p s) := by
  unfold dropFwdAll
  repeat' first
    | with_reducible assumption
    | with_reducible apply State.modFp_kept
    | (with_reducible refine Kept.foldl (fun _ _ _ => ?_) ?_)
    | dsimp only

theorem sendReconcile_kept {kr : State} (p : FabPort) (rxSeq : BitVec 12) (s : State) (hk : Kept kr s) : Kept kr (sendReconcile p rxSeq s) := by
  unfold sendReconcile
  repeat' first
    | with_reducible assumption
    | with_reducible apply enqueueTx_kept
    | with_reducible apply Kept.ite
    | split
    | dsimp only

theorem downPort_kept {kr : State} (p : FabPort) (s : State) (hk : Kept kr s) : Kept kr (downPort p s) := by
  unfold downPort
  repeat' first
    | with_reducible assumption
    | with_reducible apply State.modFp_kept
    | with_reducible apply Kept.ite
    | split
    | dsimp only

theorem hobbleLost_kept {kr : State} (p : FabPort) (s : State) (hk : Kept kr s) : Kept kr (hobbleLost p s) := by
  unfold hobbleLost
  repeat' first
    | with_reducible assumption
    | with_reducible apply State.modFp_kept
    | with_reducible apply State.modHob_kept
    | with_reducible apply regionHeader_kept
    | with_reducible apply hobbleCheck_kept
    | with_reducible apply Kept.ite
    | split
    | dsimp only

theorem losePort_kept {kr : State} (p : FabPort) (s : State) (hk : Kept kr s) : Kept kr (losePort p s) := by
  unfold losePort
  repeat' first
    | with_reducible assumption
    | with_reducible apply State.modFp_kept
    | with_reducible apply gcount_kept
    | with_reducible apply dropFwdAll_kept
    | with_reducible apply sendReconcile_kept
    | with_reducible apply downPort_kept
    | with_reducible apply hobbleLost_kept
    | with_reducible apply Kept.ite
    | split
    | dsimp only

theorem linkFields_kept {kr : State} (kind : BitVec 4) (r : Rx) (s : State) (hk : Kept kr s) : Kept kr (linkFields kind r s) := by
  unfold linkFields
  repeat' first
    | with_reducible assumption
    | with_reducible apply State.modFp_kept
    | with_reducible apply gcount_kept
    | with_reducible apply Kept.ite
    | split
    | dsimp only

theorem discardBad_kept {kr : State} (kind : BitVec 4) (r : Rx) (s : State) (hk : Kept kr s) : Kept kr (discardBad kind r s) := by
  unfold discardBad
  repeat' first
    | with_reducible assumption
    | with_reducible apply reportFab_kept
    | with_reducible apply oweCredit_kept
    | dsimp only

theorem startRemoteLimit_kept {kr : State} (x : NodeId × BitVec 5) (s : State) (hk : Kept kr s) : Kept kr (startRemoteLimit x s) := by
  unfold startRemoteLimit
  repeat' first
    | with_reducible assumption
    | with_reducible apply State.modMsq_kept
    | with_reducible apply Kept.ite
    | split
    | dsimp only

theorem sendFlit_kept {kr : State} (p : FabPort) (f : TxFlit) (s : State) (hk : Kept kr s) : Kept kr (sendFlit p f s) := by
  unfold sendFlit
  repeat' first
    | with_reducible assumption
    | with_reducible apply State.setFp_kept
    | ((with_reducible refine State.modClk_kept ?_ ?_); · rfl)
    | with_reducible apply gcount_kept
    | with_reducible apply oweCredit_kept
    | with_reducible apply startRemoteLimit_kept
    | with_reducible apply Kept.ite
    | split
    | dsimp only

theorem flitTransmit_kept {kr : State} (p : FabPort) (s : State) (hk : Kept kr s) : Kept kr (flitTransmit p s) := by
  unfold flitTransmit
  repeat' first
    | with_reducible assumption
    | with_reducible apply sendFlit_kept
    | with_reducible apply Kept.ite
    | split
    | dsimp only

theorem idleSend_kept {kr : State} (p : FabPort) (s : State) (hk : Kept kr s) : Kept kr (idleSend p s) := by
  unfold idleSend
  repeat' first
    | with_reducible assumption
    | with_reducible apply State.setFp_kept
    | with_reducible apply Kept.ite
    | split
    | dsimp only

theorem linkRise_kept {kr : State} (p : FabPort) (s : State) (hk : Kept kr s) : Kept kr (linkRise p s) := by
  unfold linkRise
  repeat' first
    | with_reducible assumption
    | with_reducible apply State.setFp_kept
    | with_reducible apply fabSendOn_kept
    | with_reducible apply Kept.ite
    | split
    | dsimp only

theorem linkFall_kept {kr : State} (p : FabPort) (s : State) (hk : Kept kr s) : Kept kr (linkFall p s) := by
  unfold linkFall
  repeat' first
    | with_reducible assumption
    | with_reducible apply State.modFp_kept
    | with_reducible apply losePort_kept
    | with_reducible apply Kept.ite
    | split
    | dsimp only

theorem linkSilence_kept {kr : State} (p : FabPort) (s : State) (hk : Kept kr s) : Kept kr (linkSilence p s) := by
  unfold linkSilence
  repeat' first
    | with_reducible assumption
    | with_reducible apply losePort_kept
    | with_reducible apply Kept.ite
    | split
    | dsimp only

theorem failPort_kept {kr : State} (p : FabPort) (s : State) (hk : Kept kr s) : Kept kr (failPort p s) := by
  unfold failPort
  repeat' first
    | with_reducible assumption
    | with_reducible apply State.modFp_kept
    | with_reducible apply raiseGlobal_kept
    | with_reducible apply service_kept
    | dsimp only

theorem reconTimeout_kept {kr : State} (p : FabPort) (s : State) (hk : Kept kr s) : Kept kr (reconTimeout p s) := by
  unfold reconTimeout
  repeat' first
    | with_reducible assumption
    | with_reducible apply failPort_kept
    | with_reducible apply Kept.ite
    | split
    | dsimp only

theorem takeHello_kept {kr : State} (r : Rx) (s : State) (hk : Kept kr s) : Kept kr (takeHello r s) := by
  unfold takeHello
  repeat' first
    | with_reducible assumption
    | with_reducible apply State.modFp_kept
    | with_reducible apply reportFab_kept
    | with_reducible apply failPort_kept
    | with_reducible apply Kept.ite
    | split
    | dsimp only

theorem helloFlit_kept {kr : State} (r : Rx) (s : State) (hk : Kept kr s) : Kept kr (helloFlit r s) := by
  unfold helloFlit
  repeat' first
    | with_reducible assumption
    | with_reducible apply oweCredit_kept
    | with_reducible apply takeHello_kept
    | with_reducible apply Kept.ite
    | split
    | dsimp only

theorem cplRefuse_kept {kr : State} (m : OpMsg) (src : NodeId) (st : Status) (s : State) (hk : Kept kr s) : Kept kr (cplRefuse m src st s) := by
  unfold cplRefuse
  repeat' first
    | with_reducible assumption
    | with_reducible apply fabSend_kept
    | dsimp only

theorem admitOp_kept {kr : State} (m : OpMsg) (src : NodeId) (s : State) {kt : State} (hk : Kept kr s)
    (he : admitOp m src s = .refused kt) : Kept kr kt := by
  unfold admitOp at he
  repeat' first
    | (cases he; done)
    | (injection he with he; subst he)
    | split at he
    | dsimp only at he
    | with_reducible assumption
    | with_reducible apply cplRefuse_kept
    | with_reducible apply report_kept
    | with_reducible apply countStatus_kept
    | with_reducible apply count_kept
    | split

theorem takeOpFlit_kept {kr : State} (m : OpMsg) (src : NodeId) (expected : DWord) (s : State) {kt : State} (hk : Kept kr s) (he : takeOpFlit m src expected s = some kt) : Kept kr kt := by
  unfold takeOpFlit at he
  repeat' first
    | (cases he; done)
    | (injection he with he; subst he)
    | split at he
    | dsimp only at he
    | with_reducible assumption
    | with_reducible apply State.modOpr_kept
    | with_reducible apply tryOp_kept
    | (refine admitOp_kept _ _ _ ?_ (by with_reducible assumption))
    | split

theorem holdRx_kept {kr : State} (kind : BitVec 4) (r : Rx) (due : Bool) (s : State) (hk : Kept kr s) : Kept kr (holdRx kind r due s) := by
  unfold holdRx
  repeat' first
    | with_reducible assumption
    | with_reducible apply State.modFp_kept
    | dsimp only

theorem freeBuf_kept {kr : State} (kind : BitVec 4) (r : Rx) (due : Bool) (s : State) (hk : Kept kr s) : Kept kr (freeBuf kind r due s) := by
  unfold freeBuf
  repeat' first
    | with_reducible assumption
    | with_reducible apply oweCredit_kept
    | with_reducible apply Kept.ite
    | split
    | dsimp only

theorem waitExt_kept {kr : State} (r : Rx) (s : State) (hk : Kept kr s) : Kept kr (waitExt r s) := by
  unfold waitExt
  repeat' first
    | with_reducible assumption
    | with_reducible apply State.modFab_kept
    | dsimp only

theorem opStep_kept {kr : State} (kind : BitVec 4) (r : Rx) (s : State) {kt : State} (hk : Kept kr s) (he : opStep kind r s = some kt) : Kept kr kt := by
  unfold opStep at he
  repeat' first
    | (cases he; done)
    | (injection he with he; subst he)
    | (injection he with he; injection he with he1 he2; subst he2)
    | (injection he with he)
    | split at he
    | dsimp only at he
    | with_reducible assumption
    | with_reducible apply State.modFab_kept
    | (refine takeOpFlit_kept _ _ _ _ ?_ (by with_reducible assumption))
    | with_reducible apply waitExt_kept
    | with_reducible apply Kept.ite
    | split
    | dsimp only

theorem cplHoldings_kept {kr : State} (e : OpEntry) (m : CplMsg) (s : State) (hk : Kept kr s) : Kept kr (cplHoldings e m s) := by
  unfold cplHoldings
  repeat' first
    | with_reducible assumption
    | with_reducible apply addHolding_kept
    | with_reducible apply delHolding_kept
    | with_reducible apply Kept.ite
    | split
    | dsimp only

theorem cplEntry_kept {kr : State} (e : OpEntry) (m : CplMsg) (s : State) (hk : Kept kr s) : Kept kr (cplEntry e m s) := by
  unfold cplEntry
  repeat' first
    | with_reducible assumption
    | with_reducible apply State.modWmc_kept
    | with_reducible apply State.modFab_kept
    | with_reducible apply freeOp_kept
    | with_reducible apply answer_kept
    | with_reducible apply wakeOne_kept
    | with_reducible apply cplHoldings_kept
    | with_reducible apply Kept.ite
    | split
    | dsimp only

theorem cplFlit_kept {kr : State} (r : Rx) (s : State) (hk : Kept kr s) : Kept kr (cplFlit r s) := by
  unfold cplFlit
  repeat' first
    | with_reducible assumption
    | with_reducible apply State.modFab_kept
    | with_reducible apply pump_kept
    | with_reducible apply cplEntry_kept
    | split
    | dsimp only

theorem noteGone_kept {kr : State} (m : WakeMsg) (src : NodeId) (s : State) (hk : Kept kr s) : Kept kr (noteGone m src s) := by
  unfold noteGone
  repeat' first
    | with_reducible assumption
    | with_reducible apply State.modFab_kept
    | dsimp only

theorem wakeNodeFlit_kept {kr : State} (r : Rx) (s : State) (hk : Kept kr s) : Kept kr (wakeNodeFlit r s) := by
  unfold wakeNodeFlit
  repeat' first
    | with_reducible assumption
    | with_reducible apply State.modWmc_kept
    | with_reducible apply wakeLocals_kept
    | with_reducible apply noteGone_kept
    | with_reducible apply Kept.ite
    | split
    | dsimp only

theorem listHolding_kept {kr : State} (op : Op) (m : GrantMsg) (k : OKey) (src : NodeId) (s : State) (hk : Kept kr s) : Kept kr (listHolding op m k src s) := by
  unfold listHolding
  repeat' first
    | with_reducible assumption
    | with_reducible apply addHolding_kept
    | with_reducible apply Kept.ite
    | split
    | dsimp only

theorem grantWake_kept {kr : State} (x : RWait) (m : GrantMsg) (src : NodeId) (s : State) (hk : Kept kr s) : Kept kr (grantWake x m src s) := by
  unfold grantWake
  repeat' first
    | with_reducible assumption
    | with_reducible apply wakeOne_kept
    | with_reducible apply listHolding_kept
    | dsimp only

theorem racedGrant_kept {kr : State} (q : RWait → Bool) (m : GrantMsg) (src : NodeId) (s : State) (hk : Kept kr s) : Kept kr (racedGrant q m src s) := by
  unfold racedGrant
  repeat' first
    | with_reducible assumption
    | with_reducible apply State.modFab_kept
    | with_reducible apply undoGrant_kept
    | split
    | dsimp only

theorem grantFlit_kept {kr : State} (r : Rx) (s : State) (hk : Kept kr s) : Kept kr (grantFlit r s) := by
  unfold grantFlit
  repeat' first
    | with_reducible assumption
    | with_reducible apply State.modWmc_kept
    | with_reducible apply State.modOlu_kept
    | with_reducible apply setOpSt_kept
    | with_reducible apply pump_kept
    | with_reducible apply grantWake_kept
    | with_reducible apply racedGrant_kept
    | with_reducible apply Kept.ite
    | split
    | dsimp only

theorem cancelDoneFlit_kept {kr : State} (r : Rx) (s : State) (hk : Kept kr s) : Kept kr (cancelDoneFlit r s) := by
  unfold cancelDoneFlit
  repeat' first
    | with_reducible assumption
    | with_reducible apply State.modFab_kept
    | dsimp only

theorem treeFlit_kept {kr : State} (w : TreeIn) (s : State) (hk : Kept kr s) : Kept kr (treeFlit w s) := by
  unfold treeFlit
  repeat' first
    | with_reducible assumption
    | with_reducible apply State.modFab_kept
    | with_reducible apply gcount_kept
    | with_reducible apply pump_kept
    | with_reducible apply Kept.ite
    | split
    | dsimp only

theorem combineRx_kept {kr : State} (r : Rx) (s : State) (hk : Kept kr s) : Kept kr (combineRx r s) := by
  unfold combineRx
  repeat' first
    | with_reducible assumption
    | with_reducible apply treeFlit_kept
    | dsimp only

theorem treeRelRx_kept {kr : State} (r : Rx) (s : State) (hk : Kept kr s) : Kept kr (treeRelRx r s) := by
  unfold treeRelRx
  repeat' first
    | with_reducible assumption
    | with_reducible apply treeFlit_kept
    | dsimp only

theorem noticeFlit_kept {kr : State} (r : Rx) (s : State) (hk : Kept kr s) : Kept kr (noticeFlit r s) := by
  unfold noticeFlit
  repeat' first
    | with_reducible assumption
    | with_reducible apply State.modSn_kept
    | with_reducible apply snInherit_kept
    | with_reducible apply snLost_kept
    | with_reducible apply Kept.ite
    | split
    | dsimp only

theorem detourTx_kept {kr : State} (p : FabPort) (f : TxFlit) (s : State) (hk : Kept kr s) : Kept kr (detourTx p f s) := by
  unfold detourTx
  repeat' first
    | with_reducible assumption
    | with_reducible apply enqueueTx_kept
    | with_reducible apply holdTx_kept
    | with_reducible apply Kept.ite
    | split
    | dsimp only

theorem resendTree_kept {kr : State} (p : FabPort) (id : AgentId) (t : Tree) (s : State) (hk : Kept kr s) : Kept kr (resendTree p id t s) := by
  unfold resendTree
  repeat' first
    | with_reducible assumption
    | with_reducible apply fabSend_kept
    | with_reducible apply sendCombine_kept
    | with_reducible apply Kept.ite
    | (with_reducible refine Kept.foldl (fun _ _ _ => ?_) ?_)
    | split
    | dsimp only

theorem resendTrees_kept {kr : State} (p : FabPort) (s : State) (hk : Kept kr s) : Kept kr (resendTrees p s) := by
  unfold resendTrees
  repeat' first
    | with_reducible assumption
    | with_reducible apply resendTree_kept
    | (with_reducible refine Kept.foldl (fun _ _ _ => ?_) ?_)
    | dsimp only

theorem reconcileOn_kept {kr : State} (p : FabPort) (rx : BitVec 12) (s : State) (hk : Kept kr s) : Kept kr (reconcileOn p rx s) := by
  unfold reconcileOn
  repeat' first
    | with_reducible assumption
    | with_reducible apply State.setFp_kept
    | with_reducible apply gcountN_kept
    | with_reducible apply detourTx_kept
    | with_reducible apply resendTrees_kept
    | (with_reducible refine Kept.foldl (fun _ _ _ => ?_) ?_)
    | dsimp only

theorem reconcileFlit_kept {kr : State} (r : Rx) (s : State) (hk : Kept kr s) : Kept kr (reconcileFlit r s) := by
  unfold reconcileFlit
  repeat' first
    | with_reducible assumption
    | with_reducible apply losePort_kept
    | with_reducible apply reconcileOn_kept
    | with_reducible apply Kept.ite
    | split
    | dsimp only

theorem forwardFlit_kept {kr : State} (kind : BitVec 4) (r : Rx) (due : Bool) (s : State) (hk : Kept kr s) : Kept kr (forwardFlit kind r due s) := by
  unfold forwardFlit
  repeat' first
    | with_reducible assumption
    | with_reducible apply gcount_kept
    | with_reducible apply reportFab_kept
    | with_reducible apply routeTx_kept
    | with_reducible apply freeBuf_kept
    | with_reducible apply Kept.ite
    | split
    | dsimp only

theorem opHead_kept {kr : State} (kind : BitVec 4) (r : Rx) (due : Bool) (s : State) {kt : State} (hk : Kept kr s) (he : opHead kind r due s = some kt) : Kept kr kt := by
  unfold opHead at he
  repeat' first
    | (cases he; done)
    | (injection he with he; subst he)
    | (injection he with he; injection he with he1 he2; subst he2)
    | (injection he with he)
    | split at he
    | dsimp only at he
    | with_reducible assumption
    | with_reducible apply freeBuf_kept
    | (refine opStep_kept _ _ _ ?_ (by with_reducible assumption))
    | with_reducible apply forwardFlit_kept
    | with_reducible apply Kept.ite
    | split
    | dsimp only

theorem opFlit_kept {kr : State} (kind : BitVec 4) (r : Rx) (due : Bool) (s : State) (hk : Kept kr s) : Kept kr (opFlit kind r due s) := by
  unfold opFlit
  repeat' first
    | with_reducible assumption
    | with_reducible apply holdRx_kept
    | (refine opHead_kept _ _ _ _ ?_ (by with_reducible assumption))
    | with_reducible apply Kept.ite
    | split
    | dsimp only

theorem feedFab_kept {kr : State} (p : FabPort) (n : Nat) : ∀ (s : State), Kept kr s → Kept kr (feedFab p n s) := by
  induction n with
  | zero => intro s hk; unfold feedFab; exact hk
  | succ n ih =>
    intro s hk
    unfold feedFab
    repeat' first
      | with_reducible assumption
      | with_reducible apply ih
      | with_reducible apply State.modFp_kept
      | (refine opHead_kept _ _ _ _ ?_ (by with_reducible assumption))
      | split
      | dsimp only

theorem opTableEntryGrant_kept {kr : State} (s : State) (hk : Kept kr s) : Kept kr (opTableEntryGrant s) := by
  unfold opTableEntryGrant
  repeat' first
    | with_reducible assumption
    | with_reducible apply opTableGrant_kept
    | with_reducible apply feedFab_kept
    | with_reducible apply Kept.ite
    | (with_reducible refine Kept.foldl (fun _ _ _ => ?_) ?_)
    | split
    | dsimp only

theorem execOpTableEntryGrant_kept {kr : State} (s : State) {kt : State} (hk : Kept kr s) (he : execOpTableEntryGrant s = .next kt) : Kept kr kt := by
  unfold execOpTableEntryGrant at he
  injection he with he; subst he
  repeat' first
    | with_reducible assumption
    | with_reducible apply opTableEntryGrant_kept
    | dsimp only

theorem sendEach_kept {kr : State} (ports : List FabPort) (body : BitVec 144) (s : State) (hk : Kept kr s) : Kept kr (sendEach ports body s) := by
  unfold sendEach
  repeat' first
    | with_reducible assumption
    | with_reducible apply fabSendOn_kept
    | (with_reducible refine Kept.foldl (fun _ _ _ => ?_) ?_)
    | dsimp only

theorem sendReports_kept {kr : State} (p : FabPort) (deep : Bool) (l : List TopoRep) : ∀ (s : State), Kept kr s → Kept kr (sendReports p deep l s) := by
  induction l with
  | nil => intro s hk; exact hk
  | cons x l ih =>
    intro s hk
    cases l with
    | nil => exact fabSendOn_kept _ _ _ _ hk
    | cons y l => exact ih _ (fabSendOn_kept _ _ _ _ hk)

theorem sendVector_kept {kr : State} (s : State) (hk : Kept kr s) : Kept kr (sendVector s) := by
  unfold sendVector
  repeat' first
    | with_reducible assumption
    | with_reducible apply State.modDisc_kept
    | with_reducible apply fabSendOn_kept
    | (with_reducible refine Kept.foldl (fun _ _ _ => ?_) ?_)
    | dsimp only

theorem dvFlush_kept {kr : State} (s : State) (hk : Kept kr s) : Kept kr (dvFlush s) := by
  unfold dvFlush
  repeat' first
    | with_reducible assumption
    | with_reducible apply sendVector_kept
    | with_reducible apply Kept.ite
    | split
    | dsimp only

theorem dvTables_kept {kr : State} (s : State) (hk : Kept kr s) : Kept kr (dvTables s) := by
  unfold dvTables
  repeat' first
    | with_reducible assumption
    | with_reducible apply State.modFab_kept
    | (with_reducible refine Kept.foldl (fun _ _ _ => ?_) ?_)
    | dsimp only

theorem startVectors_kept {kr : State} (s : State) (hk : Kept kr s) : Kept kr (startVectors s) := by
  unfold startVectors
  repeat' first
    | with_reducible assumption
    | with_reducible apply State.modDisc_kept
    | with_reducible apply sendVector_kept
    | with_reducible apply dvTables_kept
    | dsimp only

theorem takeParent_kept {kr : State} (gm : NodeId) (p : FabPort) (s : State) (hk : Kept kr s) : Kept kr (takeParent gm p s) := by
  unfold takeParent
  repeat' first
    | with_reducible assumption
    | ((with_reducible refine State.modClk_kept ?_ ?_); · rfl)
    | dsimp only

theorem parentFollow_kept {kr : State} (s : State) (hk : Kept kr s) : Kept kr (parentFollow s) := by
  unfold parentFollow
  repeat' first
    | with_reducible assumption
    | with_reducible apply takeParent_kept
    | with_reducible apply Kept.ite
    | split
    | dsimp only

theorem stitchCensus_kept {kr : State} (s : State) (hk : Kept kr s) : Kept kr (stitchCensus s) := by
  unfold stitchCensus
  repeat' first
    | with_reducible assumption
    | with_reducible apply State.setTree_kept
    | with_reducible apply State.modCensus_kept
    | (with_reducible refine Kept.foldl (fun _ _ _ => ?_) ?_)
    | dsimp only

theorem releaseHeld_kept {kr : State} (s : State) (hk : Kept kr s) : Kept kr (releaseHeld s) := by
  unfold releaseHeld
  repeat' first
    | with_reducible assumption
    | with_reducible apply State.setFp_kept
    | with_reducible apply routeTx_kept
    | with_reducible apply Kept.ite
    | (with_reducible refine Kept.foldl (fun _ _ _ => ?_) ?_)
    | split
    | dsimp only

theorem portsUp_kept {kr : State} (ports : List FabPort) (s : State) (hk : Kept kr s) : Kept kr (portsUp ports s) := by
  unfold portsUp
  repeat' first
    | with_reducible assumption
    | with_reducible apply State.modFp_kept
    | with_reducible apply Kept.ite
    | (with_reducible refine Kept.foldl (fun _ _ _ => ?_) ?_)
    | split
    | dsimp only

theorem completeHere_kept {kr : State} (s : State) (hk : Kept kr s) : Kept kr (completeHere s) := by
  unfold completeHere
  repeat' first
    | with_reducible assumption
    | with_reducible apply State.modDisc_kept
    | with_reducible apply parentFollow_kept
    | with_reducible apply stitchCensus_kept
    | with_reducible apply releaseHeld_kept
    | with_reducible apply portsUp_kept
    | dsimp only

theorem finishDiscover_kept {kr : State} (s : State) (hk : Kept kr s) : Kept kr (finishDiscover s) := by
  unfold finishDiscover
  repeat' first
    | with_reducible assumption
    | with_reducible apply State.modDisc_kept
    | with_reducible apply ok_kept
    | split
    | dsimp only

theorem completionCheck_kept {kr : State} (s : State) (hk : Kept kr s) : Kept kr (completionCheck s) := by
  unfold completionCheck
  repeat' first
    | with_reducible assumption
    | with_reducible apply fabSendOn_kept
    | with_reducible apply sendEach_kept
    | with_reducible apply completeHere_kept
    | with_reducible apply finishDiscover_kept
    | with_reducible apply Kept.ite
    | split
    | dsimp only

theorem failDiscover_kept {kr : State} (s : State) (hk : Kept kr s) : Kept kr (failDiscover s) := by
  unfold failDiscover
  repeat' first
    | with_reducible assumption
    | with_reducible apply State.modDisc_kept
    | with_reducible apply refuse_kept
    | split
    | dsimp only

theorem assignAll_kept {kr : State} (c : Cmd) (s : State) (hk : Kept kr s) : Kept kr (assignAll c s) := by
  unfold assignAll
  repeat' first
    | with_reducible assumption
    | with_reducible apply State.modFab_kept
    | with_reducible apply State.modDisc_kept
    | with_reducible apply State.modCensus_kept
    | with_reducible apply mmRequest_kept
    | with_reducible apply mmWrite_kept
    | with_reducible apply fabSendOn_kept
    | with_reducible apply refuse_kept
    | with_reducible apply memFail_kept
    | with_reducible apply sendEach_kept
    | with_reducible apply startVectors_kept
    | with_reducible apply failDiscover_kept
    | with_reducible apply Kept.ite
    | (with_reducible refine Kept.foldl (fun _ _ _ => ?_) ?_)
    | split
    | dsimp only

theorem probesAnswered_kept {kr : State} (s : State) (hk : Kept kr s) : Kept kr (probesAnswered s) := by
  unfold probesAnswered
  repeat' first
    | with_reducible assumption
    | with_reducible apply State.modDisc_kept
    | with_reducible apply sendReports_kept
    | with_reducible apply assignAll_kept
    | with_reducible apply Kept.ite
    | split
    | dsimp only

theorem routeDiscover_kept {kr : State} (c : Cmd) (s : State) (hk : Kept kr s) : Kept kr (routeDiscover c s) := by
  unfold routeDiscover
  repeat' first
    | with_reducible assumption
    | with_reducible apply State.modFab_kept
    | with_reducible apply refuse_kept
    | with_reducible apply setPhase_kept
    | with_reducible apply sendEach_kept
    | with_reducible apply probesAnswered_kept
    | with_reducible apply Kept.ite
    | split
    | dsimp only

theorem execRouteDiscover_kept {kr : State} (id : Nat) (s : State) {kt : State} (hk : Kept kr s) (he : execRouteDiscover id s = .next kt) : Kept kr kt := by
  unfold execRouteDiscover at he
  injection he with he; subst he
  repeat' first
    | with_reducible assumption
    | with_reducible apply startCmd_kept
    | with_reducible apply routeDiscover_kept
    | (intro _ _ _)
    | dsimp only

theorem routeLoad_kept {kr : State} (c : Cmd) (s : State) (hk : Kept kr s) : Kept kr (routeLoad c s) := by
  unfold routeLoad
  repeat' first
    | with_reducible assumption
    | with_reducible apply State.modFab_kept
    | with_reducible apply mmRequest_kept
    | with_reducible apply ok_kept
    | with_reducible apply refuse_kept
    | with_reducible apply memFail_kept
    | with_reducible apply parentFollow_kept
    | with_reducible apply releaseHeld_kept
    | with_reducible apply portsUp_kept
    | with_reducible apply Kept.ite
    | split
    | dsimp only

theorem execRouteLoad_kept {kr : State} (id : Nat) (s : State) {kt : State} (hk : Kept kr s) (he : execRouteLoad id s = .next kt) : Kept kr kt := by
  unfold execRouteLoad at he
  injection he with he; subst he
  repeat' first
    | with_reducible assumption
    | with_reducible apply startCmd_kept
    | with_reducible apply routeLoad_kept
    | (intro _ _ _)
    | dsimp only

theorem probeFlit_kept {kr : State} (r : Rx) (s : State) (hk : Kept kr s) : Kept kr (probeFlit r s) := by
  unfold probeFlit
  repeat' first
    | with_reducible assumption
    | with_reducible apply State.modFab_kept
    | with_reducible apply fabSendOn_kept
    | with_reducible apply sendEach_kept
    | with_reducible apply probesAnswered_kept
    | with_reducible apply Kept.ite
    | split
    | dsimp only

theorem probeDone_kept {kr : State} (p : FabPort) (s : State) (hk : Kept kr s) : Kept kr (probeDone p s) := by
  unfold probeDone
  repeat' first
    | with_reducible assumption
    | with_reducible apply State.modDisc_kept
    | with_reducible apply probesAnswered_kept
    | dsimp only

theorem notChildFlit_kept {kr : State} (r : Rx) (s : State) (hk : Kept kr s) : Kept kr (notChildFlit r s) := by
  unfold notChildFlit
  repeat' first
    | with_reducible assumption
    | with_reducible apply probeDone_kept
    | with_reducible apply Kept.ite
    | split
    | dsimp only

theorem reportFlit_kept {kr : State} (r : Rx) (s : State) (hk : Kept kr s) : Kept kr (reportFlit r s) := by
  unfold reportFlit
  repeat' first
    | with_reducible assumption
    | with_reducible apply State.modDisc_kept
    | with_reducible apply probeDone_kept
    | with_reducible apply Kept.ite
    | split
    | dsimp only

theorem assignFlit_kept {kr : State} (r : Rx) (s : State) (hk : Kept kr s) : Kept kr (assignFlit r s) := by
  unfold assignFlit
  repeat' first
    | with_reducible assumption
    | with_reducible apply State.modFab_kept
    | with_reducible apply fabSendOn_kept
    | with_reducible apply Kept.ite
    | split
    | dsimp only

theorem planFlit_kept {kr : State} (r : Rx) (s : State) (hk : Kept kr s) : Kept kr (planFlit r s) := by
  unfold planFlit
  repeat' first
    | with_reducible assumption
    | with_reducible apply State.modFab_kept
    | with_reducible apply State.modDisc_kept
    | with_reducible apply sendEach_kept
    | with_reducible apply startVectors_kept
    | with_reducible apply Kept.ite
    | split
    | dsimp only

theorem dvFlit_kept {kr : State} (r : Rx) (s : State) (hk : Kept kr s) : Kept kr (dvFlit r s) := by
  unfold dvFlit
  repeat' first
    | with_reducible assumption
    | with_reducible apply State.modFp_kept
    | with_reducible apply State.modDisc_kept
    | with_reducible apply dvFlush_kept
    | with_reducible apply dvTables_kept
    | with_reducible apply Kept.ite
    | (with_reducible refine Kept.foldl (fun _ _ _ => ?_) ?_)
    | split
    | dsimp only

theorem convergedAt_kept {kr : State} (s : State) (hk : Kept kr s) : Kept kr (convergedAt s) := by
  unfold convergedAt
  repeat' first
    | with_reducible assumption
    | with_reducible apply State.modDisc_kept
    | with_reducible apply completionCheck_kept
    | with_reducible apply Kept.ite
    | split
    | dsimp only

theorem execDiscoveryConverged_kept {kr : State} (edges : Nat) (s : State) {kt : State} (hk : Kept kr s) (he : execDiscoveryConverged edges s = .next kt) : Kept kr kt := by
  unfold execDiscoveryConverged at he
  injection he with he; subst he
  repeat' first
    | with_reducible assumption
    | with_reducible apply elapse_kept
    | with_reducible apply dvFlush_kept
    | with_reducible apply convergedAt_kept
    | dsimp only

theorem doneUpFlit_kept {kr : State} (r : Rx) (s : State) (hk : Kept kr s) : Kept kr (doneUpFlit r s) := by
  unfold doneUpFlit
  repeat' first
    | with_reducible assumption
    | with_reducible apply State.modDisc_kept
    | with_reducible apply completionCheck_kept
    | with_reducible apply Kept.ite
    | split
    | dsimp only

theorem doneDownFlit_kept {kr : State} (r : Rx) (s : State) (hk : Kept kr s) : Kept kr (doneDownFlit r s) := by
  unfold doneDownFlit
  repeat' first
    | with_reducible assumption
    | with_reducible apply sendEach_kept
    | with_reducible apply completeHere_kept
    | with_reducible apply Kept.ite
    | split
    | dsimp only

theorem stitchBegin_kept {kr : State} (id : AgentId) (t : Tree) (s : State) (hk : Kept kr s) : Kept kr (stitchBegin id t s) := by
  unfold stitchBegin
  repeat' first
    | with_reducible assumption
    | with_reducible apply State.setTree_kept
    | with_reducible apply fabSend_kept
    | with_reducible apply Kept.ite
    | split
    | dsimp only

theorem stitchGiveUp_kept {kr : State} (id : AgentId) (t : Tree) (j : BitVec 16) (s : State) (hk : Kept kr s) : Kept kr (stitchGiveUp id t j s) := by
  unfold stitchGiveUp
  repeat' first
    | with_reducible assumption
    | with_reducible apply State.setTree_kept
    | with_reducible apply fabSend_kept
    | dsimp only

theorem restitchStart_kept {kr : State} (id : AgentId) (s : State) (hk : Kept kr s) : Kept kr (restitchStart id s) := by
  unfold restitchStart
  repeat' first
    | with_reducible assumption
    | with_reducible apply State.setTree_kept
    | with_reducible apply clearHoldStitch_kept
    | with_reducible apply pump_kept
    | with_reducible apply stitchBegin_kept
    | with_reducible apply stitchGiveUp_kept
    | with_reducible apply Kept.ite
    | split
    | dsimp only

theorem execRestitchStart_kept {kr : State} (tree : AgentId) (s : State) {kt : State} (hk : Kept kr s) (he : execRestitchStart tree s = .next kt) : Kept kr kt := by
  unfold execRestitchStart at he
  injection he with he; subst he
  repeat' first
    | with_reducible assumption
    | with_reducible apply restitchStart_kept
    | dsimp only

theorem stitchHoldFlit_kept {kr : State} (r : Rx) (s : State) (hk : Kept kr s) : Kept kr (stitchHoldFlit r s) := by
  unfold stitchHoldFlit
  repeat' first
    | with_reducible assumption
    | with_reducible apply State.setTree_kept
    | with_reducible apply fabSend_kept
    | with_reducible apply Kept.ite
    | split
    | dsimp only

theorem stitchJoinFlit_kept {kr : State} (r : Rx) (s : State) (hk : Kept kr s) : Kept kr (stitchJoinFlit r s) := by
  unfold stitchJoinFlit
  repeat' first
    | with_reducible assumption
    | with_reducible apply State.setTree_kept
    | with_reducible apply fabSend_kept
    | with_reducible apply Kept.ite
    | split
    | dsimp only

theorem stitchLeaveFlit_kept {kr : State} (r : Rx) (s : State) (hk : Kept kr s) : Kept kr (stitchLeaveFlit r s) := by
  unfold stitchLeaveFlit
  repeat' first
    | with_reducible assumption
    | with_reducible apply State.setTree_kept
    | split
    | dsimp only

theorem stitchDoneFlit_kept {kr : State} (r : Rx) (s : State) (hk : Kept kr s) : Kept kr (stitchDoneFlit r s) := by
  unfold stitchDoneFlit
  repeat' first
    | with_reducible assumption
    | with_reducible apply clearHoldStitch_kept
    | with_reducible apply pump_kept
    | with_reducible apply Kept.ite
    | split
    | dsimp only

theorem stitchReplyFlit_kept {kr : State} (r : Rx) (s : State) (hk : Kept kr s) : Kept kr (stitchReplyFlit r s) := by
  unfold stitchReplyFlit
  repeat' first
    | with_reducible assumption
    | with_reducible apply State.setTree_kept
    | with_reducible apply report_kept
    | with_reducible apply fabSend_kept
    | with_reducible apply Kept.ite
    | split
    | dsimp only

theorem stitchFlit_kept {kr : State} (r : Rx) (s : State) (hk : Kept kr s) : Kept kr (stitchFlit r s) := by
  unfold stitchFlit
  repeat' first
    | with_reducible assumption
    | with_reducible apply stitchHoldFlit_kept
    | with_reducible apply stitchJoinFlit_kept
    | with_reducible apply stitchLeaveFlit_kept
    | with_reducible apply stitchDoneFlit_kept
    | with_reducible apply stitchReplyFlit_kept
    | with_reducible apply Kept.ite
    | split
    | dsimp only

end Sys2Proof.Machine
end

