-- ==== Sys2Proof/Laws/KeptAll.lean ====
section
/-! SUPPORT. Every effect defined in TimeSync, RemoteCmd, Census, Hobble, Fabric keeps the relation of Laws/Kept. -/

namespace Sys2Proof.Machine

theorem loseGm_kept {kr : State} (keep : Bool) (s : State) (hk : Kept kr s) : Kept kr (loseGm keep s) := by
  unfold loseGm
  repeat' first
    | with_reducible assumption
    | ((with_reducible refine State.modClk_kept ?_ ?_); · rfl)
    | with_reducible apply Kept.ite
    | split
    | dsimp only

theorem becomeGm_kept {kr : State} (s : State) (hk : Kept kr s) : Kept kr (becomeGm s) := by
  unfold becomeGm
  repeat' first
    | with_reducible assumption
    | ((with_reducible refine State.modClk_kept ?_ ?_); · rfl)
    | with_reducible apply Kept.ite
    | split
    | dsimp only

theorem hearGm_kept {kr : State} (s : State) (hk : Kept kr s) : Kept kr (hearGm s).2 := by
  unfold hearGm
  repeat' first
    | with_reducible assumption
    | with_reducible apply fresh_kept
    | (refine fresh_keptE _ ?_ (by with_reducible assumption))
    | with_reducible apply Kept.ite
    | split
    | dsimp only

theorem hearGm_keptE {kr : State} (s : State) {kv} {kt : State} (hk : Kept kr s) (he : hearGm s = (kv, kt)) : Kept kr kt := by
  have h := hearGm_kept (kr := kr) s hk
  rw [he] at h; exact h

theorem noteHeard_kept {kr : State} (h : Option (NodeId × FabPort)) (s : State) (hk : Kept kr s) : Kept kr (noteHeard h s) := by
  unfold noteHeard
  repeat' first
    | with_reducible assumption
    | ((with_reducible refine State.modClk_kept ?_ ?_); · rfl)
    | with_reducible apply Kept.ite
    | split
    | dsimp only

theorem yieldGm_kept {kr : State} (gm : NodeId) (p : FabPort) (s : State) (hk : Kept kr s) : Kept kr (yieldGm gm p s) := by
  unfold yieldGm
  repeat' first
    | with_reducible assumption
    | ((with_reducible refine State.modClk_kept ?_ ?_); · rfl)
    | with_reducible apply takeParent_kept
    | dsimp only

theorem heardGm_kept {kr : State} (gm : NodeId) (p : FabPort) (s : State) (hk : Kept kr s) : Kept kr (heardGm gm p s) := by
  unfold heardGm
  repeat' first
    | with_reducible assumption
    | with_reducible apply takeParent_kept
    | with_reducible apply yieldGm_kept
    | with_reducible apply Kept.ite
    | split
    | dsimp only

theorem syncRequest_kept {kr : State} (s : State) (hk : Kept kr s) : Kept kr (syncRequest s) := by
  unfold syncRequest
  repeat' first
    | with_reducible assumption
    | ((with_reducible refine State.modClk_kept ?_ ?_); · rfl)
    | with_reducible apply fabSendOn_kept
    | with_reducible apply Kept.ite
    | split
    | dsimp only

theorem syncPeriod_kept {kr : State} (s : State) (hk : Kept kr s) : Kept kr (syncPeriod s) := by
  unfold syncPeriod
  repeat' first
    | with_reducible assumption
    | ((with_reducible refine State.modClk_kept ?_ ?_); · rfl)
    | with_reducible apply hearGm_kept
    | (refine hearGm_keptE _ ?_ (by with_reducible assumption))
    | with_reducible apply noteHeard_kept
    | with_reducible apply heardGm_kept
    | with_reducible apply syncRequest_kept
    | with_reducible apply Kept.ite
    | split
    | dsimp only

theorem execSyncPeriod_kept {kr : State} (edges : Nat) (s : State) {kt : State} (hk : Kept kr s) (he : execSyncPeriod edges s = .next kt) : Kept kr kt := by
  unfold execSyncPeriod at he
  injection he with he; subst he
  repeat' first
    | with_reducible assumption
    | with_reducible apply elapse_kept
    | with_reducible apply syncPeriod_kept
    | dsimp only

theorem parentGone_kept {kr : State} (s : State) (hk : Kept kr s) : Kept kr (parentGone s) := by
  unfold parentGone
  repeat' first
    | with_reducible assumption
    | with_reducible apply takeParent_kept
    | with_reducible apply loseGm_kept
    | with_reducible apply Kept.ite
    | split
    | dsimp only

theorem parentTimeout_kept {kr : State} (s : State) (hk : Kept kr s) : Kept kr (parentTimeout s) := by
  unfold parentTimeout
  repeat' first
    | with_reducible assumption
    | with_reducible apply takeParent_kept
    | with_reducible apply becomeGm_kept
    | with_reducible apply parentGone_kept
    | with_reducible apply Kept.ite
    | split
    | dsimp only

theorem execTimeParentTimeout_kept {kr : State} (edges : Nat) (s : State) {kt : State} (hk : Kept kr s) (he : execTimeParentTimeout edges s = .next kt) : Kept kr kt := by
  unfold execTimeParentTimeout at he
  injection he with he; subst he
  repeat' first
    | with_reducible assumption
    | with_reducible apply elapse_kept
    | with_reducible apply parentTimeout_kept
    | dsimp only

theorem syncReqFlit_kept {kr : State} (r : Rx) (s : State) (hk : Kept kr s) : Kept kr (syncReqFlit r s) := by
  unfold syncReqFlit
  repeat' first
    | with_reducible assumption
    | with_reducible apply fabSendOn_kept
    | dsimp only

theorem stepTime_kept {kr : State} (off : Int) (s : State) (hk : Kept kr s) : Kept kr (stepTime off s) := by
  unfold stepTime
  repeat' first
    | with_reducible assumption
    | ((with_reducible refine State.modClk_kept ?_ ?_); · rfl)
    | dsimp only

theorem trackRate_kept {kr : State} (s : State) (hk : Kept kr s) : Kept kr (trackRate s) := by
  unfold trackRate
  repeat' first
    | with_reducible assumption
    | ((with_reducible refine State.modClk_kept ?_ ?_); · rfl)
    | with_reducible apply fresh_kept
    | (refine fresh_keptE _ ?_ (by with_reducible assumption))
    | dsimp only

theorem slewTime_kept {kr : State} (off : Int) (s : State) (hk : Kept kr s) : Kept kr (slewTime off s) := by
  unfold slewTime
  repeat' first
    | with_reducible assumption
    | ((with_reducible refine State.modClk_kept ?_ ?_); · rfl)
    | dsimp only

theorem syncAnswer_kept {kr : State} (r : Rx) (t1 : DWord) (s : State) (hk : Kept kr s) : Kept kr (syncAnswer r t1 s) := by
  unfold syncAnswer
  repeat' first
    | with_reducible assumption
    | ((with_reducible refine State.modClk_kept ?_ ?_); · rfl)
    | with_reducible apply parentFollow_kept
    | with_reducible apply loseGm_kept
    | with_reducible apply stepTime_kept
    | with_reducible apply trackRate_kept
    | with_reducible apply slewTime_kept
    | with_reducible apply Kept.ite
    | split
    | dsimp only

theorem syncRspFlit_kept {kr : State} (r : Rx) (s : State) (hk : Kept kr s) : Kept kr (syncRspFlit r s) := by
  unfold syncRspFlit
  repeat' first
    | with_reducible assumption
    | with_reducible apply syncAnswer_kept
    | with_reducible apply Kept.ite
    | split
    | dsimp only

theorem remoteRequest_kept {kr : State} (src : NodeId) (rtag : BitVec 5) (ws : List Word) (s : State) (hk : Kept kr s) : Kept kr (remoteRequest src rtag ws s) := by
  unfold remoteRequest
  repeat' first
    | with_reducible assumption
    | with_reducible apply sendPacket_kept
    | with_reducible apply arrive_kept
    | with_reducible apply Kept.ite
    | split
    | dsimp only

theorem remoteReply_kept {kr : State} (src : NodeId) (rtag : BitVec 5) (ws : List Word) (s : State) (hk : Kept kr s) : Kept kr (remoteReply src rtag ws s) := by
  unfold remoteReply
  repeat' first
    | with_reducible assumption
    | with_reducible apply deliver_kept
    | with_reducible apply dropCmd_kept
    | split
    | dsimp only

theorem dropFrags_kept {kr : State} (src : NodeId) (m : FragMsg) (s : State) (hk : Kept kr s) : Kept kr (dropFrags src m s) := by
  unfold dropFrags
  repeat' first
    | with_reducible assumption
    | with_reducible apply State.modMsq_kept
    | dsimp only

theorem fragFlit_kept {kr : State} (r : Rx) (s : State) (hk : Kept kr s) : Kept kr (fragFlit r s) := by
  unfold fragFlit
  repeat' first
    | with_reducible assumption
    | with_reducible apply State.modMsq_kept
    | with_reducible apply report_kept
    | with_reducible apply pump_kept
    | with_reducible apply remoteRequest_kept
    | with_reducible apply remoteReply_kept
    | with_reducible apply dropFrags_kept
    | with_reducible apply Kept.ite
    | split
    | dsimp only

theorem remoteTimeout_kept {kr : State} (id : Nat) (s : State) (hk : Kept kr s) : Kept kr (remoteTimeout id s) := by
  unfold remoteTimeout
  repeat' first
    | with_reducible assumption
    | with_reducible apply answerUnrun_kept
    | with_reducible apply Kept.ite
    | split
    | dsimp only

theorem execRemoteCmdTimeout_kept {kr : State} (id : Nat) (edges : Nat) (s : State) {kt : State} (hk : Kept kr s) (he : execRemoteCmdTimeout id edges s = .next kt) : Kept kr kt := by
  unfold execRemoteCmdTimeout at he
  injection he with he; subst he
  repeat' first
    | with_reducible assumption
    | with_reducible apply elapse_kept
    | with_reducible apply remoteTimeout_kept
    | dsimp only

theorem toChildren_kept {kr : State} (body : BitVec 144) (s : State) (hk : Kept kr s) : Kept kr (toChildren body s) := by
  unfold toChildren
  repeat' first
    | with_reducible assumption
    | with_reducible apply fabSend_kept
    | (with_reducible refine Kept.foldl (fun _ _ _ => ?_) ?_)
    | dsimp only

theorem censusIrq_kept {kr : State} (on : Bool) (s : State) (hk : Kept kr s) : Kept kr (censusIrq on s) := by
  unfold censusIrq
  repeat' first
    | with_reducible assumption
    | with_reducible apply raiseGlobal_kept
    | with_reducible apply Kept.ite
    | split
    | dsimp only

theorem startQuery_kept {kr : State} (q : BitVec 16) (ref : BitVec 256) (lo hi : NodeId) (s : State) (hk : Kept kr s) : Kept kr (startQuery q ref lo hi s) := by
  unfold startQuery
  repeat' first
    | with_reducible assumption
    | with_reducible apply State.modCensus_kept
    | with_reducible apply toChildren_kept
    | with_reducible apply Kept.ite
    | (with_reducible refine Kept.foldl (fun _ _ _ => ?_) ?_)
    | split
    | dsimp only

theorem nextQuery_kept {kr : State} (lo hi : NodeId) (s : State) (hk : Kept kr s) : Kept kr (nextQuery lo hi s) := by
  unfold nextQuery
  repeat' first
    | with_reducible assumption
    | with_reducible apply State.modCensus_kept
    | with_reducible apply startQuery_kept
    | dsimp only

theorem bisectDone_kept {kr : State} (s : State) (hk : Kept kr s) : Kept kr (bisectDone s) := by
  unfold bisectDone
  repeat' first
    | with_reducible assumption
    | with_reducible apply State.modCensus_kept
    | with_reducible apply censusIrq_kept
    | dsimp only

theorem bisectNext_kept {kr : State} (s : State) (hk : Kept kr s) : Kept kr (bisectNext s) := by
  unfold bisectNext
  repeat' first
    | with_reducible assumption
    | with_reducible apply State.modCensus_kept
    | with_reducible apply nextQuery_kept
    | with_reducible apply bisectDone_kept
    | with_reducible apply Kept.ite
    | split
    | dsimp only

theorem endQuery_kept {kr : State} (s : State) (hk : Kept kr s) : Kept kr (endQuery s) := by
  unfold endQuery
  repeat' first
    | with_reducible assumption
    | with_reducible apply State.modCensus_kept
    | with_reducible apply fabSend_kept
    | with_reducible apply bisectNext_kept
    | with_reducible apply Kept.ite
    | split
    | dsimp only

theorem settleQuery_kept {kr : State}  (n : Nat) : ∀ (s : State), Kept kr s → Kept kr (settleQuery  n s) := by
  induction n with
  | zero => intro s hk; unfold settleQuery; exact hk
  | succ n ih =>
    intro s hk
    unfold settleQuery
    repeat' first
      | with_reducible assumption
      | with_reducible apply ih
      | with_reducible apply endQuery_kept
      | with_reducible apply Kept.ite
      | split
      | dsimp only

theorem startBisect_kept {kr : State} (ref : BitVec 256) (s : State) (hk : Kept kr s) : Kept kr (startBisect ref s) := by
  unfold startBisect
  repeat' first
    | with_reducible assumption
    | with_reducible apply State.modCensus_kept
    | with_reducible apply nextQuery_kept
    | with_reducible apply settleQuery_kept
    | dsimp only

theorem beginPass_kept {kr : State} (pass : BitVec 16) (s : State) (hk : Kept kr s) : Kept kr (beginPass pass s) := by
  unfold beginPass
  repeat' first
    | with_reducible assumption
    | with_reducible apply State.modCensus_kept
    | with_reducible apply toChildren_kept
    | dsimp only

theorem endRootPass_kept {kr : State} (pass : BitVec 16) (own : BitVec 256) (s : State) (hk : Kept kr s) : Kept kr (endRootPass pass own s) := by
  unfold endRootPass
  repeat' first
    | with_reducible assumption
    | with_reducible apply State.modCensus_kept
    | with_reducible apply gcount_kept
    | with_reducible apply toChildren_kept
    | with_reducible apply censusIrq_kept
    | with_reducible apply startBisect_kept
    | with_reducible apply Kept.ite
    | split
    | dsimp only

theorem sendFold_kept {kr : State} (pass : BitVec 16) (s : State) (hk : Kept kr s) : Kept kr (sendFold pass s) := by
  unfold sendFold
  repeat' first
    | with_reducible assumption
    | with_reducible apply State.modCensus_kept
    | with_reducible apply fabSend_kept
    | (with_reducible refine Kept.foldl (fun _ _ _ => ?_) ?_)
    | dsimp only

theorem endPass_kept {kr : State} (s : State) (hk : Kept kr s) : Kept kr (endPass s) := by
  unfold endPass
  repeat' first
    | with_reducible assumption
    | with_reducible apply endRootPass_kept
    | with_reducible apply sendFold_kept
    | with_reducible apply Kept.ite
    | split
    | dsimp only

theorem settlePass_kept {kr : State} (s : State) (hk : Kept kr s) : Kept kr (settlePass s) := by
  unfold settlePass
  repeat' first
    | with_reducible assumption
    | with_reducible apply endPass_kept
    | with_reducible apply Kept.ite
    | split
    | dsimp only

theorem startPass_kept {kr : State} (s : State) (hk : Kept kr s) : Kept kr (startPass s) := by
  unfold startPass
  repeat' first
    | with_reducible assumption
    | with_reducible apply State.modCensus_kept
    | with_reducible apply beginPass_kept
    | with_reducible apply settlePass_kept
    | dsimp only

theorem censusNow_kept {kr : State} (c : Cmd) (s : State) (hk : Kept kr s) : Kept kr (censusNow c s) := by
  unfold censusNow
  repeat' first
    | with_reducible assumption
    | with_reducible apply ok_kept
    | with_reducible apply refuse_kept
    | with_reducible apply startPass_kept
    | with_reducible apply Kept.ite
    | split
    | dsimp only

theorem execCensusNow_kept {kr : State} (id : Nat) (s : State) {kt : State} (hk : Kept kr s) (he : execCensusNow id s = .next kt) : Kept kr kt := by
  unfold execCensusNow at he
  injection he with he; subst he
  repeat' first
    | with_reducible assumption
    | with_reducible apply startCmd_kept
    | with_reducible apply censusNow_kept
    | (intro _ _ _)
    | dsimp only

theorem censusTick_kept {kr : State} (s : State) (hk : Kept kr s) : Kept kr (censusTick s) := by
  unfold censusTick
  repeat' first
    | with_reducible assumption
    | with_reducible apply State.modCensus_kept
    | with_reducible apply startPass_kept
    | with_reducible apply Kept.ite
    | split
    | dsimp only

theorem execCensusTick_kept {kr : State} (edges : Nat) (s : State) {kt : State} (hk : Kept kr s) (he : execCensusTick edges s = .next kt) : Kept kr kt := by
  unfold execCensusTick at he
  injection he with he; subst he
  repeat' first
    | with_reducible assumption
    | with_reducible apply elapse_kept
    | with_reducible apply censusTick_kept
    | dsimp only

theorem foldTimeout_kept {kr : State} (s : State) (hk : Kept kr s) : Kept kr (foldTimeout s) := by
  unfold foldTimeout
  repeat' first
    | with_reducible assumption
    | with_reducible apply endPass_kept
    | with_reducible apply Kept.ite
    | split
    | dsimp only

theorem execCensusFoldTimeout_kept {kr : State} (edges : Nat) (s : State) {kt : State} (hk : Kept kr s) (he : execCensusFoldTimeout edges s = .next kt) : Kept kr kt := by
  unfold execCensusFoldTimeout at he
  injection he with he; subst he
  repeat' first
    | with_reducible assumption
    | with_reducible apply elapse_kept
    | with_reducible apply foldTimeout_kept
    | dsimp only

theorem queryTimeout_kept {kr : State} (s : State) (hk : Kept kr s) : Kept kr (queryTimeout s) := by
  unfold queryTimeout
  repeat' first
    | with_reducible assumption
    | with_reducible apply endQuery_kept
    | with_reducible apply settleQuery_kept
    | with_reducible apply Kept.ite
    | split
    | dsimp only

theorem execCensusQueryTimeout_kept {kr : State} (edges : Nat) (s : State) {kt : State} (hk : Kept kr s) (he : execCensusQueryTimeout edges s = .next kt) : Kept kr kt := by
  unfold execCensusQueryTimeout at he
  injection he with he; subst he
  repeat' first
    | with_reducible assumption
    | with_reducible apply elapse_kept
    | with_reducible apply queryTimeout_kept
    | dsimp only

theorem startFlit_kept {kr : State} (m : CensusMsg) (src : NodeId) (s : State) (hk : Kept kr s) : Kept kr (startFlit m src s) := by
  unfold startFlit
  repeat' first
    | with_reducible assumption
    | with_reducible apply beginPass_kept
    | with_reducible apply settlePass_kept
    | with_reducible apply Kept.ite
    | split
    | dsimp only

theorem foldChild_kept {kr : State} (src : NodeId) (lo hi : BitVec 256) (n : Word) (s : State) (hk : Kept kr s) : Kept kr (foldChild src lo hi n s) := by
  unfold foldChild
  repeat' first
    | with_reducible assumption
    | with_reducible apply State.modCensus_kept
    | with_reducible apply Kept.ite
    | split
    | dsimp only

theorem foldFlit_kept {kr : State} (m : CensusMsg) (src : NodeId) (s : State) (hk : Kept kr s) : Kept kr (foldFlit m src s) := by
  unfold foldFlit
  repeat' first
    | with_reducible assumption
    | with_reducible apply State.modCensus_kept
    | with_reducible apply settlePass_kept
    | with_reducible apply foldChild_kept
    | with_reducible apply Kept.ite
    | split
    | dsimp only

theorem verdictFlit_kept {kr : State} (m : CensusMsg) (src : NodeId) (s : State) (hk : Kept kr s) : Kept kr (verdictFlit m src s) := by
  unfold verdictFlit
  repeat' first
    | with_reducible assumption
    | with_reducible apply State.modCensus_kept
    | with_reducible apply toChildren_kept
    | with_reducible apply Kept.ite
    | split
    | dsimp only

theorem queryFlit_kept {kr : State} (m : CensusMsg) (src : NodeId) (s : State) (hk : Kept kr s) : Kept kr (queryFlit m src s) := by
  unfold queryFlit
  repeat' first
    | with_reducible assumption
    | with_reducible apply State.modCensus_kept
    | with_reducible apply startQuery_kept
    | with_reducible apply settleQuery_kept
    | with_reducible apply Kept.ite
    | split
    | dsimp only

theorem answerFlit_kept {kr : State} (m : CensusMsg) (src : NodeId) (s : State) (hk : Kept kr s) : Kept kr (answerFlit m src s) := by
  unfold answerFlit
  repeat' first
    | with_reducible assumption
    | with_reducible apply State.modCensus_kept
    | with_reducible apply settleQuery_kept
    | with_reducible apply Kept.ite
    | split
    | dsimp only

theorem censusFlit_kept {kr : State} (r : Rx) (s : State) (hk : Kept kr s) : Kept kr (censusFlit r s) := by
  unfold censusFlit
  repeat' first
    | with_reducible assumption
    | with_reducible apply startFlit_kept
    | with_reducible apply foldFlit_kept
    | with_reducible apply verdictFlit_kept
    | with_reducible apply queryFlit_kept
    | with_reducible apply answerFlit_kept
    | split
    | dsimp only

theorem localFlit_kept {kr : State} (kind : BitVec 4) (r : Rx) (s : State) (hk : Kept kr s) : Kept kr (localFlit kind r s) := by
  unfold localFlit
  repeat' first
    | with_reducible assumption
    | with_reducible apply cplFlit_kept
    | with_reducible apply wakeNodeFlit_kept
    | with_reducible apply grantFlit_kept
    | with_reducible apply cancelDoneFlit_kept
    | with_reducible apply combineRx_kept
    | with_reducible apply treeRelRx_kept
    | with_reducible apply noticeFlit_kept
    | with_reducible apply reconcileFlit_kept
    | with_reducible apply stitchFlit_kept
    | with_reducible apply fragFlit_kept
    | with_reducible apply censusFlit_kept
    | split
    | dsimp only

theorem routedFlit_kept {kr : State} (kind : BitVec 4) (r : Rx) (due : Bool) (s : State) (hk : Kept kr s) : Kept kr (routedFlit kind r due s) := by
  unfold routedFlit
  repeat' first
    | with_reducible assumption
    | with_reducible apply freeBuf_kept
    | with_reducible apply forwardFlit_kept
    | with_reducible apply opFlit_kept
    | with_reducible apply localFlit_kept
    | with_reducible apply Kept.ite
    | split
    | dsimp only

theorem dropHeldRx_kept {kr : State} (p : FabPort) (h : BitVec 4 × Rx × Bool) (s : State) (hk : Kept kr s) : Kept kr (dropHeldRx p h s) := by
  unfold dropHeldRx
  repeat' first
    | with_reducible assumption
    | with_reducible apply State.setFp_kept
    | with_reducible apply State.modHob_kept
    | dsimp only

theorem runHeld_kept {kr : State} (p : FabPort) (s : State) (hk : Kept kr s) : Kept kr (runHeld p s) := by
  unfold runHeld
  repeat' first
    | with_reducible assumption
    | with_reducible apply freeBuf_kept
    | with_reducible apply remoteRequest_kept
    | with_reducible apply dropHeldRx_kept
    | (with_reducible refine Kept.foldl (fun _ _ _ => ?_) ?_)
    | split
    | dsimp only

theorem runHeldAll_kept {kr : State} (s : State) (hk : Kept kr s) : Kept kr (runHeldAll s) := by
  unfold runHeldAll
  repeat' first
    | with_reducible assumption
    | with_reducible apply runHeld_kept
    | with_reducible apply Kept.ite
    | (with_reducible refine Kept.foldl (fun _ _ _ => ?_) ?_)
    | split
    | dsimp only

theorem endSession_kept {kr : State} (p : PartId) (s : State) (hk : Kept kr s) : Kept kr (endSession p s) := by
  unfold endSession
  repeat' first
    | with_reducible assumption
    | with_reducible apply complete_kept
    | with_reducible apply endLoad_kept
    | with_reducible apply Kept.ite
    | (with_reducible refine Kept.foldl (fun _ _ _ => ?_) ?_)
    | split
    | dsimp only

theorem endSessions_kept {kr : State} (s : State) (hk : Kept kr s) : Kept kr (endSessions s) := by
  unfold endSessions
  repeat' first
    | with_reducible assumption
    | with_reducible apply endSession_kept
    | (with_reducible refine Kept.foldl (fun _ _ _ => ?_) ?_)
    | dsimp only

theorem cutHere_kept {kr : State} (init : NodeId) (hseq : Byte) (first : Option FabPort) (cmd : Option Nat) (base : BitVec 48) (size : Nat) (s : State) (hk : Kept kr s) : Kept kr (cutHere init hseq first cmd base size s) := by
  unfold cutHere
  repeat' first
    | with_reducible assumption
    | with_reducible apply State.modFp_kept
    | with_reducible apply State.modHob_kept
    | with_reducible apply regionHeader_kept
    | with_reducible apply endSessions_kept
    | (with_reducible refine Kept.foldl (fun _ _ _ => ?_) ?_)
    | dsimp only

theorem hobbleCmd_kept {kr : State} (c : Cmd) (s : State) (hk : Kept kr s) : Kept kr (hobbleCmd c s) := by
  unfold hobbleCmd
  repeat' first
    | with_reducible assumption
    | with_reducible apply State.modHob_kept
    | with_reducible apply mmRequest_kept
    | with_reducible apply ok_kept
    | with_reducible apply setPhase_kept
    | with_reducible apply memFail_kept
    | with_reducible apply regionWrite_kept
    | with_reducible apply cutHere_kept
    | with_reducible apply Kept.ite
    | split
    | dsimp only

theorem execHobble_kept {kr : State} (id : Nat) (s : State) {kt : State} (hk : Kept kr s) (he : execHobble id s = .next kt) : Kept kr kt := by
  unfold execHobble at he
  injection he with he; subst he
  repeat' first
    | with_reducible assumption
    | with_reducible apply startCmd_kept
    | with_reducible apply hobbleCmd_kept
    | (intro _ _ _)
    | dsimp only

theorem drainEnd_kept {kr : State} (s : State) (hk : Kept kr s) : Kept kr (drainEnd s) := by
  unfold drainEnd
  repeat' first
    | with_reducible assumption
    | with_reducible apply State.modHob_kept
    | with_reducible apply fabSendOn_kept
    | with_reducible apply hobbleCheck_kept
    | with_reducible apply runHeldAll_kept
    | with_reducible apply Kept.ite
    | (with_reducible refine Kept.foldl (fun _ _ _ => ?_) ?_)
    | split
    | dsimp only

theorem execHobbleDrainEnd_kept {kr : State} (s : State) {kt : State} (hk : Kept kr s) (he : execHobbleDrainEnd s = .next kt) : Kept kr kt := by
  unfold execHobbleDrainEnd at he
  injection he with he; subst he
  repeat' first
    | with_reducible assumption
    | with_reducible apply drainEnd_kept
    | dsimp only

theorem captureRx_kept {kr : State} (kind : BitVec 4) (r : Rx) (s : State) (hk : Kept kr s) : Kept kr (captureRx kind r s) := by
  unfold captureRx
  repeat' first
    | with_reducible assumption
    | with_reducible apply noteCapture_kept
    | with_reducible apply holdRx_kept
    | dsimp only

theorem channelFlit_kept {kr : State} (kind : BitVec 4) (r : Rx) (s : State) (hk : Kept kr s) : Kept kr (channelFlit kind r s) := by
  unfold channelFlit
  repeat' first
    | with_reducible assumption
    | with_reducible apply State.modFp_kept
    | with_reducible apply State.modHob_kept
    | with_reducible apply oweCredit_kept
    | with_reducible apply regionWrite_kept
    | with_reducible apply regionHeader_kept
    | with_reducible apply runHeldAll_kept
    | with_reducible apply captureRx_kept
    | with_reducible apply Kept.ite
    | split
    | dsimp only

theorem markerFlit_kept {kr : State} (r : Rx) (s : State) (hk : Kept kr s) : Kept kr (markerFlit r s) := by
  unfold markerFlit
  repeat' first
    | with_reducible assumption
    | with_reducible apply State.modFp_kept
    | with_reducible apply State.modHob_kept
    | with_reducible apply hobbleCheck_kept
    | with_reducible apply runHeldAll_kept
    | with_reducible apply cutHere_kept
    | with_reducible apply Kept.ite
    | split
    | dsimp only

theorem doneFlit_kept {kr : State} (r : Rx) (s : State) (hk : Kept kr s) : Kept kr (doneFlit r s) := by
  unfold doneFlit
  repeat' first
    | with_reducible assumption
    | with_reducible apply hobbleReach_kept
    | with_reducible apply Kept.ite
    | split
    | dsimp only

theorem hobbleTimeout_kept {kr : State} (s : State) (hk : Kept kr s) : Kept kr (hobbleTimeout s) := by
  unfold hobbleTimeout
  repeat' first
    | with_reducible assumption
    | with_reducible apply hobbleReply_kept
    | with_reducible apply Kept.ite
    | split
    | dsimp only

theorem execHobbleReplyTimeout_kept {kr : State} (edges : Nat) (s : State) {kt : State} (hk : Kept kr s) (he : execHobbleReplyTimeout edges s = .next kt) : Kept kr kt := by
  unfold execHobbleReplyTimeout at he
  injection he with he; subst he
  repeat' first
    | with_reducible assumption
    | with_reducible apply elapse_kept
    | with_reducible apply hobbleTimeout_kept
    | dsimp only

theorem extendTimes_kept {kr : State} (d : Nat) (s : State) (hk : Kept kr s) : Kept kr (extendTimes d s) := by
  unfold extendTimes
  repeat' first
    | with_reducible assumption
    | with_reducible apply State.modOpr_kept
    | with_reducible apply State.modWmc_kept
    | with_reducible apply State.modTdu_kept
    | with_reducible apply Kept.ite
    | split
    | dsimp only

theorem processAll_kept {kr : State} (l : List (BitVec 4 × Rx × Bool)) (s : State) (hk : Kept kr s) : Kept kr (processAll l s) := by
  unfold processAll
  repeat' first
    | with_reducible assumption
    | with_reducible apply routedFlit_kept
    | (with_reducible refine Kept.foldl (fun _ _ _ => ?_) ?_)
    | dsimp only

theorem unhobbleReply_kept {kr : State} (final : Bool) (s : State) (hk : Kept kr s) : Kept kr (unhobbleReply final s) := by
  unfold unhobbleReply
  repeat' first
    | with_reducible assumption
    | with_reducible apply State.modHob_kept
    | with_reducible apply complete_kept
    | with_reducible apply Kept.ite
    | split
    | dsimp only

theorem resumedReach_kept {kr : State} (n : NodeId) (s : State) (hk : Kept kr s) : Kept kr (resumedReach n s) := by
  unfold resumedReach
  repeat' first
    | with_reducible assumption
    | with_reducible apply State.modHob_kept
    | with_reducible apply unhobbleReply_kept
    | with_reducible apply Kept.ite
    | split
    | dsimp only

theorem readRecords_kept {kr : State} (l : List Nat) (s : State) (hk : Kept kr s) : Kept kr (readRecords l s) := by
  unfold readRecords
  repeat' first
    | with_reducible assumption
    | with_reducible apply mmRequest_kept
    | (with_reducible refine Kept.foldl (fun _ _ _ => ?_) ?_)
    | dsimp only

theorem releaseCaptured_kept {kr : State} (l : List CapSrc) : ∀ (t : Table (List (BitVec 4 × Rx × Bool))) (s : State),
    Kept kr s → Kept kr (releaseCaptured t l s) := by
  induction l with
  | nil => intro t s hk; unfold releaseCaptured; exact hk
  | cons x l ih =>
    intro t s hk
    cases x with
    | agent p a => unfold releaseCaptured; exact ih _ _ (feedGo_kept _ _ _ hk)
    | fabric p =>
      unfold releaseCaptured
      split
      · exact ih _ _ hk
      · exact ih _ _ (routedFlit_kept _ _ _ _ hk)
    | landing =>
      unfold releaseCaptured
      split
      · exact ih _ _ hk
      · exact ih _ _ (landNotice_kept _ _ _ (State.modLcu_kept _ _ hk))

theorem releaseEarlier_kept {kr : State} (before : Table Nat) (s : State) (hk : Kept kr s) : Kept kr (releaseEarlier before s) := by
  unfold releaseEarlier
  repeat' first
    | with_reducible assumption
    | with_reducible apply feedGo_kept
    | with_reducible apply feedFab_kept
    | (with_reducible refine Kept.foldl (fun _ _ _ => ?_) ?_)
    | dsimp only

theorem resumeHere_kept {kr : State} (init : NodeId) (hseq : Byte) (s : State) (hk : Kept kr s) : Kept kr (resumeHere init hseq s) := by
  unfold resumeHere
  repeat' first
    | with_reducible assumption
    | with_reducible apply State.modFp_kept
    | with_reducible apply State.modHob_kept
    | with_reducible apply raiseGlobal_kept
    | with_reducible apply fabSend_kept
    | with_reducible apply pump_kept
    | with_reducible apply feedAll_kept
    | with_reducible apply extendTimes_kept
    | with_reducible apply processAll_kept
    | with_reducible apply resumedReach_kept
    | with_reducible apply readRecords_kept
    | with_reducible apply releaseCaptured_kept
    | with_reducible apply releaseEarlier_kept
    | with_reducible apply Kept.ite
    | (with_reducible refine Kept.foldl (fun _ _ _ => ?_) ?_)
    | split
    | dsimp only

theorem resumeFlit_kept {kr : State} (r : Rx) (s : State) (hk : Kept kr s) : Kept kr (resumeFlit r s) := by
  unfold resumeFlit
  repeat' first
    | with_reducible assumption
    | with_reducible apply sendEach_kept
    | with_reducible apply resumeHere_kept
    | with_reducible apply Kept.ite
    | split
    | dsimp only

theorem unhobbleCmd_kept {kr : State} (c : Cmd) (s : State) (hk : Kept kr s) : Kept kr (unhobbleCmd c s) := by
  unfold unhobbleCmd
  repeat' first
    | with_reducible assumption
    | with_reducible apply State.modHob_kept
    | with_reducible apply refuse_kept
    | with_reducible apply setPhase_kept
    | with_reducible apply sendEach_kept
    | with_reducible apply resumeHere_kept
    | with_reducible apply Kept.ite
    | split
    | dsimp only

theorem execUnhobble_kept {kr : State} (id : Nat) (s : State) {kt : State} (hk : Kept kr s) (he : execUnhobble id s = .next kt) : Kept kr kt := by
  unfold execUnhobble at he
  injection he with he; subst he
  repeat' first
    | with_reducible assumption
    | with_reducible apply startCmd_kept
    | with_reducible apply unhobbleCmd_kept
    | (intro _ _ _)
    | dsimp only

theorem resumedFlit_kept {kr : State} (r : Rx) (s : State) (hk : Kept kr s) : Kept kr (resumedFlit r s) := by
  unfold resumedFlit
  repeat' first
    | with_reducible assumption
    | with_reducible apply resumedReach_kept
    | with_reducible apply Kept.ite
    | split
    | dsimp only

theorem unhobbleTimeout_kept {kr : State} (s : State) (hk : Kept kr s) : Kept kr (unhobbleTimeout s) := by
  unfold unhobbleTimeout
  repeat' first
    | with_reducible assumption
    | with_reducible apply unhobbleReply_kept
    | with_reducible apply Kept.ite
    | split
    | dsimp only

theorem execUnhobbleReplyTimeout_kept {kr : State} (edges : Nat) (s : State) {kt : State} (hk : Kept kr s) (he : execUnhobbleReplyTimeout edges s = .next kt) : Kept kr kt := by
  unfold execUnhobbleReplyTimeout at he
  injection he with he; subst he
  repeat' first
    | with_reducible assumption
    | with_reducible apply elapse_kept
    | with_reducible apply unhobbleTimeout_kept
    | dsimp only

theorem farFlit_kept {kr : State} (kind : BitVec 4) (r : Rx) (s : State) (hk : Kept kr s) : Kept kr (farFlit kind r s) := by
  unfold farFlit
  repeat' first
    | with_reducible assumption
    | with_reducible apply probeFlit_kept
    | with_reducible apply notChildFlit_kept
    | with_reducible apply reportFlit_kept
    | with_reducible apply assignFlit_kept
    | with_reducible apply planFlit_kept
    | with_reducible apply dvFlit_kept
    | with_reducible apply doneUpFlit_kept
    | with_reducible apply doneDownFlit_kept
    | with_reducible apply syncReqFlit_kept
    | with_reducible apply syncRspFlit_kept
    | with_reducible apply markerFlit_kept
    | with_reducible apply resumeFlit_kept
    | with_reducible apply Kept.ite
    | split
    | dsimp only

theorem reportHobble_kept {kr : State} (r : Rx) (s : State) (hk : Kept kr s) : Kept kr (reportHobble r s) := by
  unfold reportHobble
  repeat' first
    | with_reducible assumption
    | with_reducible apply doneFlit_kept
    | with_reducible apply resumedFlit_kept
    | with_reducible apply Kept.ite
    | split
    | dsimp only

theorem useFlit_kept {kr : State} (kind : BitVec 4) (r : Rx) (s : State) (hk : Kept kr s) : Kept kr (useFlit kind r s) := by
  unfold useFlit
  repeat' first
    | with_reducible assumption
    | with_reducible apply oweCredit_kept
    | with_reducible apply discardBad_kept
    | with_reducible apply helloFlit_kept
    | with_reducible apply routedFlit_kept
    | with_reducible apply channelFlit_kept
    | with_reducible apply farFlit_kept
    | with_reducible apply reportHobble_kept
    | with_reducible apply Kept.ite
    | split
    | dsimp only

theorem rxLink_gone_kept {kr : State} (kind : BitVec 4) (r : Rx) (s : State) {kt : State} (hk : Kept kr s)
    (he : rxLink kind r s = .gone kt) : Kept kr kt := by
  unfold rxLink at he
  split at he
  · injection he with he; subst he; exact hk
  · split at he
    · injection he with he; subst he; exact losePort_kept _ _ hk
    · cases he

theorem rxLink_taken_kept {kr : State} (kind : BitVec 4) (r : Rx) (s : State) {kt : State} (hk : Kept kr s)
    (he : rxLink kind r s = .taken kt) : Kept kr kt := by
  unfold rxLink at he
  split at he
  · cases he
  · split at he
    · cases he
    · injection he with he; subst he; exact linkFields_kept _ _ _ hk

theorem rxFlit_kept {kr : State} (kind : BitVec 4) (r : Rx) (s : State) (hk : Kept kr s) : Kept kr (rxFlit kind r s) := by
  unfold rxFlit
  split
  · exact rxLink_gone_kept _ _ _ hk (by with_reducible assumption)
  · exact useFlit_kept _ _ _ (rxLink_taken_kept _ _ _ hk (by with_reducible assumption))

theorem rxRow_kept {kr : State} (kind : BitVec 4) (is : Rx → Bool) (r : Rx) (s : State) {kt : State} (hk : Kept kr s) (he : rxRow kind is r s = .next kt) : Kept kr kt := by
  unfold rxRow at he
  injection he with he; subst he
  repeat' first
    | with_reducible assumption
    | with_reducible apply rxFlit_kept
    | with_reducible apply Kept.ite
    | split
    | dsimp only

theorem mgmtRow_kept {kr : State} (sub : Byte) (r : Rx) (s : State) {kt : State} (hk : Kept kr s) (he : mgmtRow sub r s = .next kt) : Kept kr kt :=
  rxRow_kept _ _ _ _ hk he

theorem execLinkUp_kept {kr : State} (fp : FabPort) (s : State) {kt : State} (hk : Kept kr s) (he : execLinkUp fp s = .next kt) : Kept kr kt := by
  unfold execLinkUp at he
  injection he with he; subst he
  repeat' first
    | with_reducible assumption
    | with_reducible apply linkRise_kept
    | dsimp only

theorem execHello_kept {kr : State} (r : Rx) (s : State) {kt : State} (hk : Kept kr s) (he : execHello r s = .next kt) : Kept kr kt :=
  mgmtRow_kept _ _ _ hk he

theorem execLinkLoss_kept {kr : State} (fp : FabPort) (s : State) {kt : State} (hk : Kept kr s) (he : execLinkLoss fp s = .next kt) : Kept kr kt := by
  unfold execLinkLoss at he
  injection he with he; subst he
  repeat' first
    | with_reducible assumption
    | with_reducible apply linkFall_kept
    | dsimp only

theorem execLinkSilenceTimeout_kept {kr : State} (fp : FabPort) (edges : Nat) (s : State) {kt : State} (hk : Kept kr s) (he : execLinkSilenceTimeout fp edges s = .next kt) : Kept kr kt := by
  unfold execLinkSilenceTimeout at he
  injection he with he; subst he
  repeat' first
    | with_reducible assumption
    | with_reducible apply elapse_kept
    | with_reducible apply linkSilence_kept
    | dsimp only

theorem execReconcile_kept {kr : State} (r : Rx) (s : State) {kt : State} (hk : Kept kr s) (he : execReconcile r s = .next kt) : Kept kr kt :=
  mgmtRow_kept _ _ _ hk he

theorem execReconcileTimeout_kept {kr : State} (fp : FabPort) (edges : Nat) (s : State) {kt : State} (hk : Kept kr s) (he : execReconcileTimeout fp edges s = .next kt) : Kept kr kt := by
  unfold execReconcileTimeout at he
  injection he with he; subst he
  repeat' first
    | with_reducible assumption
    | with_reducible apply elapse_kept
    | with_reducible apply reconTimeout_kept
    | dsimp only

theorem execFlitTransmit_kept {kr : State} (fp : FabPort) (s : State) {kt : State} (hk : Kept kr s) (he : execFlitTransmit fp s = .next kt) : Kept kr kt := by
  unfold execFlitTransmit at he
  injection he with he; subst he
  repeat' first
    | with_reducible assumption
    | with_reducible apply flitTransmit_kept
    | with_reducible apply dvFlush_kept
    | dsimp only

theorem execIdleSend_kept {kr : State} (fp : FabPort) (edges : Nat) (s : State) {kt : State} (hk : Kept kr s) (he : execIdleSend fp edges s = .next kt) : Kept kr kt := by
  unfold execIdleSend at he
  injection he with he; subst he
  repeat' first
    | with_reducible assumption
    | with_reducible apply elapse_kept
    | with_reducible apply idleSend_kept
    | with_reducible apply dvFlush_kept
    | dsimp only

theorem execIdleFlit_kept {kr : State} (r : Rx) (s : State) {kt : State} (hk : Kept kr s) (he : execIdleFlit r s = .next kt) : Kept kr kt :=
  rxRow_kept _ _ _ _ hk he

theorem execBadFlit_kept {kr : State} (kind : BitVec 4) (r : Rx) (s : State) {kt : State} (hk : Kept kr s) (he : execBadFlit kind r s = .next kt) : Kept kr kt :=
  rxRow_kept _ _ _ _ hk he

theorem execFlitForward_kept {kr : State} (kind : BitVec 4) (r : Rx) (s : State) {kt : State} (hk : Kept kr s) (he : execFlitForward kind r s = .next kt) : Kept kr kt :=
  rxRow_kept _ _ _ _ hk he

theorem execRemoteOp_kept {kr : State} (r : Rx) (s : State) {kt : State} (hk : Kept kr s) (he : execRemoteOp r s = .next kt) : Kept kr kt :=
  rxRow_kept _ _ _ _ hk he

theorem execWaitCancel_kept {kr : State} (r : Rx) (s : State) {kt : State} (hk : Kept kr s) (he : execWaitCancel r s = .next kt) : Kept kr kt :=
  rxRow_kept _ _ _ _ hk he

theorem execAbandon_kept {kr : State} (r : Rx) (s : State) {kt : State} (hk : Kept kr s) (he : execAbandon r s = .next kt) : Kept kr kt :=
  rxRow_kept _ _ _ _ hk he

theorem execRsvCancel_kept {kr : State} (r : Rx) (s : State) {kt : State} (hk : Kept kr s) (he : execRsvCancel r s = .next kt) : Kept kr kt :=
  rxRow_kept _ _ _ _ hk he

theorem execOpExt_kept {kr : State} (r : Rx) (s : State) {kt : State} (hk : Kept kr s) (he : execOpExt r s = .next kt) : Kept kr kt :=
  rxRow_kept _ _ _ _ hk he

theorem execCpl_kept {kr : State} (r : Rx) (s : State) {kt : State} (hk : Kept kr s) (he : execCpl r s = .next kt) : Kept kr kt :=
  rxRow_kept _ _ _ _ hk he

theorem execCombine_kept {kr : State} (r : Rx) (s : State) {kt : State} (hk : Kept kr s) (he : execCombine r s = .next kt) : Kept kr kt :=
  rxRow_kept _ _ _ _ hk he

theorem execWakeNode_kept {kr : State} (r : Rx) (s : State) {kt : State} (hk : Kept kr s) (he : execWakeNode r s = .next kt) : Kept kr kt :=
  rxRow_kept _ _ _ _ hk he

theorem execGrant_kept {kr : State} (r : Rx) (s : State) {kt : State} (hk : Kept kr s) (he : execGrant r s = .next kt) : Kept kr kt :=
  rxRow_kept _ _ _ _ hk he

theorem execCancelDone_kept {kr : State} (r : Rx) (s : State) {kt : State} (hk : Kept kr s) (he : execCancelDone r s = .next kt) : Kept kr kt :=
  rxRow_kept _ _ _ _ hk he

theorem execTreeRel_kept {kr : State} (r : Rx) (s : State) {kt : State} (hk : Kept kr s) (he : execTreeRel r s = .next kt) : Kept kr kt :=
  rxRow_kept _ _ _ _ hk he

theorem execNoticeFwd_kept {kr : State} (r : Rx) (s : State) {kt : State} (hk : Kept kr s) (he : execNoticeFwd r s = .next kt) : Kept kr kt :=
  mgmtRow_kept _ _ _ hk he

theorem execDiscoveryProbe_kept {kr : State} (r : Rx) (s : State) {kt : State} (hk : Kept kr s) (he : execDiscoveryProbe r s = .next kt) : Kept kr kt :=
  mgmtRow_kept _ _ _ hk he

theorem execNotAChild_kept {kr : State} (r : Rx) (s : State) {kt : State} (hk : Kept kr s) (he : execNotAChild r s = .next kt) : Kept kr kt :=
  mgmtRow_kept _ _ _ hk he

theorem execDiscoveryReport_kept {kr : State} (r : Rx) (s : State) {kt : State} (hk : Kept kr s) (he : execDiscoveryReport r s = .next kt) : Kept kr kt :=
  mgmtRow_kept _ _ _ hk he

theorem execNodeidAssign_kept {kr : State} (r : Rx) (s : State) {kt : State} (hk : Kept kr s) (he : execNodeidAssign r s = .next kt) : Kept kr kt :=
  mgmtRow_kept _ _ _ hk he

theorem execPlanDigest_kept {kr : State} (r : Rx) (s : State) {kt : State} (hk : Kept kr s) (he : execPlanDigest r s = .next kt) : Kept kr kt :=
  mgmtRow_kept _ _ _ hk he

theorem execRouteDv_kept {kr : State} (r : Rx) (s : State) {kt : State} (hk : Kept kr s) (he : execRouteDv r s = .next kt) : Kept kr kt :=
  mgmtRow_kept _ _ _ hk he

theorem execDiscoveryCompletionUp_kept {kr : State} (r : Rx) (s : State) {kt : State} (hk : Kept kr s) (he : execDiscoveryCompletionUp r s = .next kt) : Kept kr kt :=
  rxRow_kept _ _ _ _ hk he

theorem execDiscoveryComplete_kept {kr : State} (r : Rx) (s : State) {kt : State} (hk : Kept kr s) (he : execDiscoveryComplete r s = .next kt) : Kept kr kt :=
  rxRow_kept _ _ _ _ hk he

theorem stitchRow_kept {kr : State} (sub : Byte) (r : Rx) (s : State) {kt : State} (hk : Kept kr s) (he : stitchRow sub r s = .next kt) : Kept kr kt :=
  rxRow_kept _ _ _ _ hk he

theorem execStitchHoldRequest_kept {kr : State} (r : Rx) (s : State) {kt : State} (hk : Kept kr s) (he : execStitchHoldRequest r s = .next kt) : Kept kr kt :=
  stitchRow_kept _ _ _ hk he

theorem execStitchJoin_kept {kr : State} (r : Rx) (s : State) {kt : State} (hk : Kept kr s) (he : execStitchJoin r s = .next kt) : Kept kr kt :=
  stitchRow_kept _ _ _ hk he

theorem execStitchLeave_kept {kr : State} (r : Rx) (s : State) {kt : State} (hk : Kept kr s) (he : execStitchLeave r s = .next kt) : Kept kr kt :=
  stitchRow_kept _ _ _ hk he

theorem execStitchDone_kept {kr : State} (r : Rx) (s : State) {kt : State} (hk : Kept kr s) (he : execStitchDone r s = .next kt) : Kept kr kt :=
  stitchRow_kept _ _ _ hk he

theorem execStitchReply_kept {kr : State} (r : Rx) (s : State) {kt : State} (hk : Kept kr s) (he : execStitchReply r s = .next kt) : Kept kr kt :=
  rxRow_kept _ _ _ _ hk he

theorem execSyncReq_kept {kr : State} (r : Rx) (s : State) {kt : State} (hk : Kept kr s) (he : execSyncReq r s = .next kt) : Kept kr kt :=
  rxRow_kept _ _ _ _ hk he

theorem execSyncRsp_kept {kr : State} (r : Rx) (s : State) {kt : State} (hk : Kept kr s) (he : execSyncRsp r s = .next kt) : Kept kr kt :=
  rxRow_kept _ _ _ _ hk he

theorem execRemoteCmdFragment_kept {kr : State} (r : Rx) (s : State) {kt : State} (hk : Kept kr s) (he : execRemoteCmdFragment r s = .next kt) : Kept kr kt :=
  mgmtRow_kept _ _ _ hk he

theorem censusRow_kept {kr : State} (k : BitVec 4) (r : Rx) (s : State) {kt : State} (hk : Kept kr s) (he : censusRow k r s = .next kt) : Kept kr kt :=
  rxRow_kept _ _ _ _ hk he

theorem execCensusStart_kept {kr : State} (r : Rx) (s : State) {kt : State} (hk : Kept kr s) (he : execCensusStart r s = .next kt) : Kept kr kt :=
  censusRow_kept _ _ _ hk he

theorem execCensusFold_kept {kr : State} (r : Rx) (s : State) {kt : State} (hk : Kept kr s) (he : execCensusFold r s = .next kt) : Kept kr kt :=
  censusRow_kept _ _ _ hk he

theorem execCensusVerdict_kept {kr : State} (r : Rx) (s : State) {kt : State} (hk : Kept kr s) (he : execCensusVerdict r s = .next kt) : Kept kr kt :=
  censusRow_kept _ _ _ hk he

theorem execCensusQuery_kept {kr : State} (r : Rx) (s : State) {kt : State} (hk : Kept kr s) (he : execCensusQuery r s = .next kt) : Kept kr kt :=
  censusRow_kept _ _ _ hk he

theorem execCensusAnswer_kept {kr : State} (r : Rx) (s : State) {kt : State} (hk : Kept kr s) (he : execCensusAnswer r s = .next kt) : Kept kr kt :=
  censusRow_kept _ _ _ hk he

theorem hobbleRow_kept {kr : State} (k : BitVec 4) (r : Rx) (s : State) {kt : State} (hk : Kept kr s) (he : hobbleRow k r s = .next kt) : Kept kr kt :=
  rxRow_kept _ _ _ _ hk he

theorem execHobbleMarker_kept {kr : State} (r : Rx) (s : State) {kt : State} (hk : Kept kr s) (he : execHobbleMarker r s = .next kt) : Kept kr kt :=
  hobbleRow_kept _ _ _ hk he

theorem execHobbleDone_kept {kr : State} (r : Rx) (s : State) {kt : State} (hk : Kept kr s) (he : execHobbleDone r s = .next kt) : Kept kr kt :=
  hobbleRow_kept _ _ _ hk he

theorem execHobbleResume_kept {kr : State} (r : Rx) (s : State) {kt : State} (hk : Kept kr s) (he : execHobbleResume r s = .next kt) : Kept kr kt :=
  hobbleRow_kept _ _ _ hk he

theorem execHobbleResumed_kept {kr : State} (r : Rx) (s : State) {kt : State} (hk : Kept kr s) (he : execHobbleResumed r s = .next kt) : Kept kr kt :=
  hobbleRow_kept _ _ _ hk he

end Sys2Proof.Machine
end

