-- ==== Sys2Proof/Laws/PerInstr.lean ====
section
/-! SUPPORT. Per row: no word spells the command, since the table gives no row bits (log 4). -/

namespace Sys2Proof.Laws.Row

/-- No word of any width spells the command. -/
def Statement (i : Instr) : Prop := ∀ nbits w, decodeTableWord nbits w ≠ some i

theorem of_none (i : Instr) : Statement i := fun _ _ h => nomatch h

theorem arrive (p : PortNo) (a : LocalAgent) (f : Req) : Statement (.arrive p a f) := of_none _
theorem arriveReduce (p : PortNo) (a : LocalAgent) (f : Req) : Statement (.arriveReduce p a f) := of_none _
theorem wait (p : PortNo) (a : LocalAgent) (f : Req) : Statement (.wait p a f) := of_none _
theorem arriveWait (p : PortNo) (a : LocalAgent) (f : Req) : Statement (.arriveWait p a f) := of_none _
theorem signal (p : PortNo) (a : LocalAgent) (f : Req) : Statement (.signal p a f) := of_none _
theorem readMissing (p : PortNo) (a : LocalAgent) (f : Req) : Statement (.readMissing p a f) := of_none _
theorem deadlineArm (p : PortNo) (a : LocalAgent) (f : Req) : Statement (.deadlineArm p a f) := of_none _
theorem take (p : PortNo) (a : LocalAgent) (f : Req) : Statement (.take p a f) := of_none _
theorem tryTake (p : PortNo) (a : LocalAgent) (f : Req) : Statement (.tryTake p a f) := of_none _
theorem give (p : PortNo) (a : LocalAgent) (f : Req) : Statement (.give p a f) := of_none _
theorem lock (p : PortNo) (a : LocalAgent) (f : Req) : Statement (.lock p a f) := of_none _
theorem tryLock (p : PortNo) (a : LocalAgent) (f : Req) : Statement (.tryLock p a f) := of_none _
theorem unlock (p : PortNo) (a : LocalAgent) (f : Req) : Statement (.unlock p a f) := of_none _
theorem claimId (p : PortNo) (a : LocalAgent) (f : Req) : Statement (.claimId p a f) := of_none _
theorem claimRead (p : PortNo) (a : LocalAgent) (f : Req) : Statement (.claimRead p a f) := of_none _
theorem cas (p : PortNo) (a : LocalAgent) (f : Req) : Statement (.cas p a f) := of_none _
theorem casCont (p : PortNo) (a : LocalAgent) (f : Req) : Statement (.casCont p a f) := of_none _
theorem fetchAdd (p : PortNo) (a : LocalAgent) (f : Req) : Statement (.fetchAdd p a f) := of_none _
theorem readObj (p : PortNo) (a : LocalAgent) (f : Req) : Statement (.readObj p a f) := of_none _
theorem reserve (p : PortNo) (a : LocalAgent) (f : Req) : Statement (.reserve p a f) := of_none _
theorem commit (p : PortNo) (a : LocalAgent) (f : Req) : Statement (.commit p a f) := of_none _
theorem waitAvail (p : PortNo) (a : LocalAgent) (f : Req) : Statement (.waitAvail p a f) := of_none _
theorem release (p : PortNo) (a : LocalAgent) (f : Req) : Statement (.release p a f) := of_none _
theorem landExpect (p : PortNo) (a : LocalAgent) (f : Req) : Statement (.landExpect p a f) := of_none _
theorem signalAfterLanded (p : PortNo) (a : LocalAgent) (f : Req) : Statement (.signalAfterLanded p a f) := of_none _
theorem fence (p : PortNo) (a : LocalAgent) (f : Req) : Statement (.fence p a f) := of_none _
theorem fenceComplete (agent : AgentId) : Statement (.fenceComplete agent) := of_none _
theorem setTag (p : PortNo) (a : LocalAgent) (f : Req) : Statement (.setTag p a f) := of_none _
theorem sectionMark (p : PortNo) (a : LocalAgent) (f : Req) : Statement (.sectionMark p a f) := of_none _
theorem mgmt (p : PortNo) (a : LocalAgent) (f : Req) : Statement (.mgmt p a f) := of_none _
theorem requestFlitWithoutCredit (p : PortNo) (a : LocalAgent) (opcode : Byte) (f : Req) : Statement (.requestFlitWithoutCredit p a opcode f) := of_none _
theorem opTableEntryGrant : Statement (.opTableEntryGrant) := of_none _
theorem responseCredit (p : PortNo) : Statement (.responseCredit p) := of_none _
theorem responsePresent (p : PortNo) : Statement (.responsePresent p) := of_none _
theorem agentResetNotification (p : PortNo) (a : LocalAgent) : Statement (.agentResetNotification p a) := of_none _
theorem agentResetProcess (p : PortNo) (a : LocalAgent) : Statement (.agentResetProcess p a) := of_none _
theorem apBindWrite (agent : AgentId) (acc : CrAcc) : Statement (.apBindWrite agent acc) := of_none _
theorem landingNotice (ch : LnChan) (data : DWord) : Statement (.landingNotice ch data) := of_none _
theorem landingDecrement : Statement (.landingDecrement) := of_none _
theorem heldSignalPerform : Statement (.heldSignalPerform) := of_none _
theorem heldCommitPerform : Statement (.heldCommitPerform) := of_none _
theorem snNoticePresent : Statement (.snNoticePresent) := of_none _
theorem snAck (data : Word) : Statement (.snAck data) := of_none _
theorem deadlineDue (edges : Nat) : Statement (.deadlineDue edges) := of_none _
theorem deadlineExpiry (edges : Nat) : Statement (.deadlineExpiry edges) := of_none _
theorem leaseDue (edges : Nat) : Statement (.leaseDue edges) := of_none _
theorem leaseExpiry (edges : Nat) : Statement (.leaseExpiry edges) := of_none _
theorem waitTimeout (edges : Nat) : Statement (.waitTimeout edges) := of_none _
theorem watchRelease : Statement (.watchRelease) := of_none _
theorem cmdSubmit (w : Win) (acc : CrAcc) : Statement (.cmdSubmit w acc) := of_none _
theorem replyPop (w : Win) (acc : CrAcc) : Statement (.replyPop w acc) := of_none _
theorem nop (id : Nat) : Statement (.nop id) := of_none _
theorem ctxCreate (id : Nat) : Statement (.ctxCreate id) := of_none _
theorem ctxEvict (id : Nat) : Statement (.ctxEvict id) := of_none _
theorem ctxEvictDrained (part : PartId) (ctx : CtxId) : Statement (.ctxEvictDrained part ctx) := of_none _
theorem ctxRestore (id : Nat) : Statement (.ctxRestore id) := of_none _
theorem ctxRestoreRecordRead (part : PartId) (ctx : CtxId) (crcOk : Bool) : Statement (.ctxRestoreRecordRead part ctx crcOk) := of_none _
theorem ctxDestroy (id : Nat) : Statement (.ctxDestroy id) := of_none _
theorem ctxQuery (id : Nat) : Statement (.ctxQuery id) := of_none _
theorem objCreate (id : Nat) : Statement (.objCreate id) := of_none _
theorem objDestroy (id : Nat) : Statement (.objDestroy id) := of_none _
theorem objRead (id : Nat) : Statement (.objRead id) := of_none _
theorem objReadDesc (id : Nat) : Statement (.objReadDesc id) := of_none _
theorem barrierRoster (id : Nat) : Statement (.barrierRoster id) := of_none _
theorem lockForceRelease (id : Nat) : Statement (.lockForceRelease id) := of_none _
theorem ringReset (id : Nat) : Statement (.ringReset id) := of_none _
theorem ringWindowOpen (id : Nat) : Statement (.ringWindowOpen id) := of_none _
theorem ringWindowClose (id : Nat) : Statement (.ringWindowClose id) := of_none _
theorem partCreate (id : Nat) : Statement (.partCreate id) := of_none _
theorem partActivate (id : Nat) : Statement (.partActivate id) := of_none _
theorem partitionStartup (part : PartId) : Statement (.partitionStartup part) := of_none _
theorem partQuiesce (id : Nat) : Statement (.partQuiesce id) := of_none _
theorem partQuiesceDrained (part : PartId) : Statement (.partQuiesceDrained part) := of_none _
theorem partQuiesceTimeout (part : PartId) (edges : Nat) : Statement (.partQuiesceTimeout part edges) := of_none _
theorem partDestroy (id : Nat) : Statement (.partDestroy id) := of_none _
theorem imageBegin (id : Nat) : Statement (.imageBegin id) := of_none _
theorem imageFrame (id : Nat) : Statement (.imageFrame id) := of_none _
theorem imageCommit (id : Nat) : Statement (.imageCommit id) := of_none _
theorem sectionBegin (id : Nat) : Statement (.sectionBegin id) := of_none _
theorem kernelFence (part : PartId) : Statement (.kernelFence part) := of_none _
theorem sectionBeginTimeout (part : PartId) (edges : Nat) : Statement (.sectionBeginTimeout part edges) := of_none _
theorem sectionEnd (id : Nat) : Statement (.sectionEnd id) := of_none _
theorem routeDiscover (id : Nat) : Statement (.routeDiscover id) := of_none _
theorem routeLoad (id : Nat) : Statement (.routeLoad id) := of_none _
theorem treeStitch (id : Nat) : Statement (.treeStitch id) := of_none _
theorem treeUnstitch (id : Nat) : Statement (.treeUnstitch id) := of_none _
theorem censusNow (id : Nat) : Statement (.censusNow id) := of_none _
theorem hobble (id : Nat) : Statement (.hobble id) := of_none _
theorem unhobble (id : Nat) : Statement (.unhobble id) := of_none _
theorem snapshot (id : Nat) : Statement (.snapshot id) := of_none _
theorem watchSet (id : Nat) : Statement (.watchSet id) := of_none _
theorem watchClear (id : Nat) : Statement (.watchClear id) := of_none _
theorem traceCtl (id : Nat) : Statement (.traceCtl id) := of_none _
theorem awlSet (id : Nat) : Statement (.awlSet id) := of_none _
theorem awlClear (id : Nat) : Statement (.awlClear id) := of_none _
theorem awlResume (id : Nat) : Statement (.awlResume id) := of_none _
theorem awlHit (q : SeqNo) (pc : Word) : Statement (.awlHit q pc) := of_none _
theorem fwStage (id : Nat) : Statement (.fwStage id) := of_none _
theorem fwApply (id : Nat) : Statement (.fwApply id) := of_none _
theorem fwApplySequencerLoad : Statement (.fwApplySequencerLoad) := of_none _
theorem fwQuery (id : Nat) : Statement (.fwQuery id) := of_none _
theorem fwBootLoad : Statement (.fwBootLoad) := of_none _
theorem fwPushData (acc : CrAcc) : Statement (.fwPushData acc) := of_none _
theorem fwPushPtrWrite (acc : CrAcc) : Statement (.fwPushPtrWrite acc) := of_none _
theorem bankRetire (id : Nat) : Statement (.bankRetire id) := of_none _
theorem bankMigrationSwitch : Statement (.bankMigrationSwitch) := of_none _
theorem migrationComplete : Statement (.migrationComplete) := of_none _
theorem bankGate (id : Nat) : Statement (.bankGate id) := of_none _
theorem bankGateComplete : Statement (.bankGateComplete) := of_none _
theorem bankUngate (id : Nat) : Statement (.bankUngate id) := of_none _
theorem gatedBankRepower (bank : Bank) : Statement (.gatedBankRepower bank) := of_none _
theorem lcAdvance (id : Nat) : Statement (.lcAdvance id) := of_none _
theorem lcFloorRaise (id : Nat) : Statement (.lcFloorRaise id) := of_none _
theorem lcTransitionReset (edges : Nat) : Statement (.lcTransitionReset edges) := of_none _
theorem uncorrectableError (site : ErrSite) (macroNo : Nat) : Statement (.uncorrectableError site macroNo) := of_none _
theorem clearAdvise (acc : CrAcc) : Statement (.clearAdvise acc) := of_none _
theorem errlogPop (acc : CrAcc) : Statement (.errlogPop acc) := of_none _
theorem errlogClear (acc : CrAcc) : Statement (.errlogClear acc) := of_none _
theorem traceWrite : Statement (.traceWrite) := of_none _
theorem hobbleMarker (r : Rx) : Statement (.hobbleMarker r) := of_none _
theorem hobbleDrainEnd : Statement (.hobbleDrainEnd) := of_none _
theorem hobbleDone (r : Rx) : Statement (.hobbleDone r) := of_none _
theorem hobbleReplyTimeout (edges : Nat) : Statement (.hobbleReplyTimeout edges) := of_none _
theorem hobbleResume (r : Rx) : Statement (.hobbleResume r) := of_none _
theorem hobbleResumed (r : Rx) : Statement (.hobbleResumed r) := of_none _
theorem coldReset (straps : BitVec 16) : Statement (.coldReset straps) := of_none _
theorem warmReset : Statement (.warmReset) := of_none _
theorem rootLockLoss : Statement (.rootLockLoss) := of_none _
theorem rootLockRise : Statement (.rootLockRise) := of_none _
theorem sramWipeDone (failed : List WipeUnit) : Statement (.sramWipeDone failed) := of_none _
theorem linkUp (fp : FabPort) : Statement (.linkUp fp) := of_none _
theorem hello (r : Rx) : Statement (.hello r) := of_none _
theorem linkLoss (fp : FabPort) : Statement (.linkLoss fp) := of_none _
theorem linkSilenceTimeout (fp : FabPort) (edges : Nat) : Statement (.linkSilenceTimeout fp edges) := of_none _
theorem reconcile (r : Rx) : Statement (.reconcile r) := of_none _
theorem reconcileTimeout (fp : FabPort) (edges : Nat) : Statement (.reconcileTimeout fp edges) := of_none _
theorem remoteOp (r : Rx) : Statement (.remoteOp r) := of_none _
theorem opExt (r : Rx) : Statement (.opExt r) := of_none _
theorem cpl (r : Rx) : Statement (.cpl r) := of_none _
theorem combine (r : Rx) : Statement (.combine r) := of_none _
theorem wakeNode (r : Rx) : Statement (.wakeNode r) := of_none _
theorem grant (r : Rx) : Statement (.grant r) := of_none _
theorem cancelDone (r : Rx) : Statement (.cancelDone r) := of_none _
theorem treeRel (r : Rx) : Statement (.treeRel r) := of_none _
theorem waitCancel (r : Rx) : Statement (.waitCancel r) := of_none _
theorem abandon (r : Rx) : Statement (.abandon r) := of_none _
theorem rsvCancel (r : Rx) : Statement (.rsvCancel r) := of_none _
theorem noticeFwd (r : Rx) : Statement (.noticeFwd r) := of_none _
theorem flitForward (kind : BitVec 4) (r : Rx) : Statement (.flitForward kind r) := of_none _
theorem flitTransmit (fp : FabPort) : Statement (.flitTransmit fp) := of_none _
theorem idleSend (fp : FabPort) (edges : Nat) : Statement (.idleSend fp edges) := of_none _
theorem discoveryProbe (r : Rx) : Statement (.discoveryProbe r) := of_none _
theorem discoveryReport (r : Rx) : Statement (.discoveryReport r) := of_none _
theorem nodeidAssign (r : Rx) : Statement (.nodeidAssign r) := of_none _
theorem planDigest (r : Rx) : Statement (.planDigest r) := of_none _
theorem routeDv (r : Rx) : Statement (.routeDv r) := of_none _
theorem discoveryConverged (edges : Nat) : Statement (.discoveryConverged edges) := of_none _
theorem discoveryComplete (r : Rx) : Statement (.discoveryComplete r) := of_none _
theorem restitchStart (tree : AgentId) : Statement (.restitchStart tree) := of_none _
theorem stitchHoldRequest (r : Rx) : Statement (.stitchHoldRequest r) := of_none _
theorem stitchJoin (r : Rx) : Statement (.stitchJoin r) := of_none _
theorem stitchLeave (r : Rx) : Statement (.stitchLeave r) := of_none _
theorem stitchDone (r : Rx) : Statement (.stitchDone r) := of_none _
theorem syncPeriod (edges : Nat) : Statement (.syncPeriod edges) := of_none _
theorem syncReq (r : Rx) : Statement (.syncReq r) := of_none _
theorem syncRsp (r : Rx) : Statement (.syncRsp r) := of_none _
theorem timeParentTimeout (edges : Nat) : Statement (.timeParentTimeout edges) := of_none _
theorem remoteCmdFragment (r : Rx) : Statement (.remoteCmdFragment r) := of_none _
theorem remoteCmdTimeout (id : Nat) (edges : Nat) : Statement (.remoteCmdTimeout id edges) := of_none _
theorem censusTick (edges : Nat) : Statement (.censusTick edges) := of_none _
theorem censusStart (r : Rx) : Statement (.censusStart r) := of_none _
theorem censusFold (r : Rx) : Statement (.censusFold r) := of_none _
theorem censusFoldTimeout (edges : Nat) : Statement (.censusFoldTimeout edges) := of_none _
theorem censusVerdict (r : Rx) : Statement (.censusVerdict r) := of_none _
theorem censusQuery (r : Rx) : Statement (.censusQuery r) := of_none _
theorem censusAnswer (r : Rx) : Statement (.censusAnswer r) := of_none _
theorem waiterSpill : Statement (.waiterSpill) := of_none _
theorem waiterReload : Statement (.waiterReload) := of_none _
theorem spilledWaiterWake : Statement (.spilledWaiterWake) := of_none _
theorem multiwordRead (addr : CrAddr) (acc : CrAcc) : Statement (.multiwordRead addr acc) := of_none _
theorem registerWrite (addr : CrAddr) (acc : CrAcc) : Statement (.registerWrite addr acc) := of_none _
theorem tapInstruction (t : TapScan) : Statement (.tapInstruction t) := of_none _
theorem idleFlit (r : Rx) : Statement (.idleFlit r) := of_none _
theorem badFlit (kind : BitVec 4) (r : Rx) : Statement (.badFlit kind r) := of_none _
theorem correctionThreshold (c : Corrections) : Statement (.correctionThreshold c) := of_none _
theorem distributionComplete : Statement (.distributionComplete) := of_none _
theorem spilledEntryFetch (k : OKey) : Statement (.spilledEntryFetch k) := of_none _
theorem censusQueryTimeout (edges : Nat) : Statement (.censusQueryTimeout edges) := of_none _
theorem unhobbleReplyTimeout (edges : Nat) : Statement (.unhobbleReplyTimeout edges) := of_none _
theorem notAChild (r : Rx) : Statement (.notAChild r) := of_none _
theorem discoveryCompletionUp (r : Rx) : Statement (.discoveryCompletionUp r) := of_none _
theorem stitchReply (r : Rx) : Statement (.stitchReply r) := of_none _

end Sys2Proof.Laws.Row
end

