-- ==== Sys2Proof/Laws/State.lean ====
section
/-! SUPPORT. What each update of the state does to each field of it. -/

namespace Sys2Proof.Machine

@[simp] theorem State.setAp_pending (s : State) (p : PortNo) (x : ApPort) : (s.setAp p x).pending = s.pending := rfl
@[simp] theorem State.setAp_clk (s : State) (p : PortNo) (x : ApPort) : (s.setAp p x).clk = s.clk := rfl
@[simp] theorem State.setAp_slu (s : State) (p : PortNo) (x : ApPort) : (s.setAp p x).slu = s.slu := rfl
@[simp] theorem State.setAp_msq (s : State) (p : PortNo) (x : ApPort) : (s.setAp p x).msq = s.msq := rfl
@[simp] theorem State.setAp_wins (s : State) (p : PortNo) (x : ApPort) : (s.setAp p x).wins = s.wins := rfl
@[simp] theorem State.setAp_parts (s : State) (p : PortNo) (x : ApPort) : (s.setAp p x).parts = s.parts := rfl
@[simp] theorem State.setAp_binds (s : State) (p : PortNo) (x : ApPort) : (s.setAp p x).binds = s.binds := rfl
@[simp] theorem State.setAp_aps (s : State) (p : PortNo) (x : ApPort) : (s.setAp p x).aps = tput ApPort.reset s.aps p.toNat x := rfl
@[simp] theorem State.setAp_opr (s : State) (p : PortNo) (x : ApPort) : (s.setAp p x).opr = s.opr := rfl
@[simp] theorem State.setAp_obk (s : State) (p : PortNo) (x : ApPort) : (s.setAp p x).obk = s.obk := rfl
@[simp] theorem State.setAp_wmc (s : State) (p : PortNo) (x : ApPort) : (s.setAp p x).wmc = s.wmc := rfl
@[simp] theorem State.setAp_trk (s : State) (p : PortNo) (x : ApPort) : (s.setAp p x).trk = s.trk := rfl
@[simp] theorem State.setAp_olu (s : State) (p : PortNo) (x : ApPort) : (s.setAp p x).olu = s.olu := rfl
@[simp] theorem State.setAp_tdu (s : State) (p : PortNo) (x : ApPort) : (s.setAp p x).tdu = s.tdu := rfl
@[simp] theorem State.setAp_lcu (s : State) (p : PortNo) (x : ApPort) : (s.setAp p x).lcu = s.lcu := rfl
@[simp] theorem State.setAp_sn (s : State) (p : PortNo) (x : ApPort) : (s.setAp p x).sn = s.sn := rfl
@[simp] theorem State.setAp_ctm (s : State) (p : PortNo) (x : ApPort) : (s.setAp p x).ctm = s.ctm := rfl
@[simp] theorem State.setAp_fab (s : State) (p : PortNo) (x : ApPort) : (s.setAp p x).fab = s.fab := rfl
@[simp] theorem State.setAp_obs (s : State) (p : PortNo) (x : ApPort) : (s.setAp p x).obs = s.obs := rfl
@[simp] theorem State.setAp_cr (s : State) (p : PortNo) (x : ApPort) : (s.setAp p x).cr = s.cr := rfl
@[simp] theorem State.setAp_mem (s : State) (p : PortNo) (x : ApPort) : (s.setAp p x).mem = s.mem := rfl
@[simp] theorem State.setAp_mmBad (s : State) (p : PortNo) (x : ApPort) : (s.setAp p x).mmBad = s.mmBad := rfl
@[simp] theorem State.setAp_mmOut (s : State) (p : PortNo) (x : ApPort) : (s.setAp p x).mmOut = s.mmOut := rfl
@[simp] theorem State.setAp_free (s : State) (p : PortNo) (x : ApPort) : (s.setAp p x).free = s.free := rfl

@[simp] theorem State.setBind_pending (s : State) (a : AgentId) (x : Bind) : (s.setBind a x).pending = s.pending := rfl
@[simp] theorem State.setBind_clk (s : State) (a : AgentId) (x : Bind) : (s.setBind a x).clk = s.clk := rfl
@[simp] theorem State.setBind_slu (s : State) (a : AgentId) (x : Bind) : (s.setBind a x).slu = s.slu := rfl
@[simp] theorem State.setBind_msq (s : State) (a : AgentId) (x : Bind) : (s.setBind a x).msq = s.msq := rfl
@[simp] theorem State.setBind_wins (s : State) (a : AgentId) (x : Bind) : (s.setBind a x).wins = s.wins := rfl
@[simp] theorem State.setBind_parts (s : State) (a : AgentId) (x : Bind) : (s.setBind a x).parts = s.parts := rfl
@[simp] theorem State.setBind_binds (s : State) (a : AgentId) (x : Bind) : (s.setBind a x).binds = tput Bind.reset s.binds a.toNat x := rfl
@[simp] theorem State.setBind_aps (s : State) (a : AgentId) (x : Bind) : (s.setBind a x).aps = s.aps := rfl
@[simp] theorem State.setBind_opr (s : State) (a : AgentId) (x : Bind) : (s.setBind a x).opr = s.opr := rfl
@[simp] theorem State.setBind_obk (s : State) (a : AgentId) (x : Bind) : (s.setBind a x).obk = s.obk := rfl
@[simp] theorem State.setBind_wmc (s : State) (a : AgentId) (x : Bind) : (s.setBind a x).wmc = s.wmc := rfl
@[simp] theorem State.setBind_trk (s : State) (a : AgentId) (x : Bind) : (s.setBind a x).trk = s.trk := rfl
@[simp] theorem State.setBind_olu (s : State) (a : AgentId) (x : Bind) : (s.setBind a x).olu = s.olu := rfl
@[simp] theorem State.setBind_tdu (s : State) (a : AgentId) (x : Bind) : (s.setBind a x).tdu = s.tdu := rfl
@[simp] theorem State.setBind_lcu (s : State) (a : AgentId) (x : Bind) : (s.setBind a x).lcu = s.lcu := rfl
@[simp] theorem State.setBind_sn (s : State) (a : AgentId) (x : Bind) : (s.setBind a x).sn = s.sn := rfl
@[simp] theorem State.setBind_ctm (s : State) (a : AgentId) (x : Bind) : (s.setBind a x).ctm = s.ctm := rfl
@[simp] theorem State.setBind_fab (s : State) (a : AgentId) (x : Bind) : (s.setBind a x).fab = s.fab := rfl
@[simp] theorem State.setBind_obs (s : State) (a : AgentId) (x : Bind) : (s.setBind a x).obs = s.obs := rfl
@[simp] theorem State.setBind_cr (s : State) (a : AgentId) (x : Bind) : (s.setBind a x).cr = s.cr := rfl
@[simp] theorem State.setBind_mem (s : State) (a : AgentId) (x : Bind) : (s.setBind a x).mem = s.mem := rfl
@[simp] theorem State.setBind_mmBad (s : State) (a : AgentId) (x : Bind) : (s.setBind a x).mmBad = s.mmBad := rfl
@[simp] theorem State.setBind_mmOut (s : State) (a : AgentId) (x : Bind) : (s.setBind a x).mmOut = s.mmOut := rfl
@[simp] theorem State.setBind_free (s : State) (a : AgentId) (x : Bind) : (s.setBind a x).free = s.free := rfl

@[simp] theorem State.setPart_pending (s : State) (p : PartId) (x : Part) : (s.setPart p x).pending = s.pending := rfl
@[simp] theorem State.setPart_clk (s : State) (p : PartId) (x : Part) : (s.setPart p x).clk = s.clk := rfl
@[simp] theorem State.setPart_slu (s : State) (p : PartId) (x : Part) : (s.setPart p x).slu = s.slu := rfl
@[simp] theorem State.setPart_msq (s : State) (p : PartId) (x : Part) : (s.setPart p x).msq = s.msq := rfl
@[simp] theorem State.setPart_wins (s : State) (p : PartId) (x : Part) : (s.setPart p x).wins = s.wins := rfl
@[simp] theorem State.setPart_parts (s : State) (p : PartId) (x : Part) : (s.setPart p x).parts = tput Part.reset s.parts p.toNat x := rfl
@[simp] theorem State.setPart_binds (s : State) (p : PartId) (x : Part) : (s.setPart p x).binds = s.binds := rfl
@[simp] theorem State.setPart_aps (s : State) (p : PartId) (x : Part) : (s.setPart p x).aps = s.aps := rfl
@[simp] theorem State.setPart_opr (s : State) (p : PartId) (x : Part) : (s.setPart p x).opr = s.opr := rfl
@[simp] theorem State.setPart_obk (s : State) (p : PartId) (x : Part) : (s.setPart p x).obk = s.obk := rfl
@[simp] theorem State.setPart_wmc (s : State) (p : PartId) (x : Part) : (s.setPart p x).wmc = s.wmc := rfl
@[simp] theorem State.setPart_trk (s : State) (p : PartId) (x : Part) : (s.setPart p x).trk = s.trk := rfl
@[simp] theorem State.setPart_olu (s : State) (p : PartId) (x : Part) : (s.setPart p x).olu = s.olu := rfl
@[simp] theorem State.setPart_tdu (s : State) (p : PartId) (x : Part) : (s.setPart p x).tdu = s.tdu := rfl
@[simp] theorem State.setPart_lcu (s : State) (p : PartId) (x : Part) : (s.setPart p x).lcu = s.lcu := rfl
@[simp] theorem State.setPart_sn (s : State) (p : PartId) (x : Part) : (s.setPart p x).sn = s.sn := rfl
@[simp] theorem State.setPart_ctm (s : State) (p : PartId) (x : Part) : (s.setPart p x).ctm = s.ctm := rfl
@[simp] theorem State.setPart_fab (s : State) (p : PartId) (x : Part) : (s.setPart p x).fab = s.fab := rfl
@[simp] theorem State.setPart_obs (s : State) (p : PartId) (x : Part) : (s.setPart p x).obs = s.obs := rfl
@[simp] theorem State.setPart_cr (s : State) (p : PartId) (x : Part) : (s.setPart p x).cr = s.cr := rfl
@[simp] theorem State.setPart_mem (s : State) (p : PartId) (x : Part) : (s.setPart p x).mem = s.mem := rfl
@[simp] theorem State.setPart_mmBad (s : State) (p : PartId) (x : Part) : (s.setPart p x).mmBad = s.mmBad := rfl
@[simp] theorem State.setPart_mmOut (s : State) (p : PartId) (x : Part) : (s.setPart p x).mmOut = s.mmOut := rfl
@[simp] theorem State.setPart_free (s : State) (p : PartId) (x : Part) : (s.setPart p x).free = s.free := rfl

@[simp] theorem State.delPart_pending (s : State) (p : PartId) : (s.delPart p).pending = s.pending := rfl
@[simp] theorem State.delPart_clk (s : State) (p : PartId) : (s.delPart p).clk = s.clk := rfl
@[simp] theorem State.delPart_slu (s : State) (p : PartId) : (s.delPart p).slu = s.slu := rfl
@[simp] theorem State.delPart_msq (s : State) (p : PartId) : (s.delPart p).msq = s.msq := rfl
@[simp] theorem State.delPart_wins (s : State) (p : PartId) : (s.delPart p).wins = s.wins := rfl
@[simp] theorem State.delPart_parts (s : State) (p : PartId) : (s.delPart p).parts = tdel s.parts p.toNat := rfl
@[simp] theorem State.delPart_binds (s : State) (p : PartId) : (s.delPart p).binds = s.binds := rfl
@[simp] theorem State.delPart_aps (s : State) (p : PartId) : (s.delPart p).aps = s.aps := rfl
@[simp] theorem State.delPart_opr (s : State) (p : PartId) : (s.delPart p).opr = s.opr := rfl
@[simp] theorem State.delPart_obk (s : State) (p : PartId) : (s.delPart p).obk = s.obk := rfl
@[simp] theorem State.delPart_wmc (s : State) (p : PartId) : (s.delPart p).wmc = s.wmc := rfl
@[simp] theorem State.delPart_trk (s : State) (p : PartId) : (s.delPart p).trk = s.trk := rfl
@[simp] theorem State.delPart_olu (s : State) (p : PartId) : (s.delPart p).olu = s.olu := rfl
@[simp] theorem State.delPart_tdu (s : State) (p : PartId) : (s.delPart p).tdu = s.tdu := rfl
@[simp] theorem State.delPart_lcu (s : State) (p : PartId) : (s.delPart p).lcu = s.lcu := rfl
@[simp] theorem State.delPart_sn (s : State) (p : PartId) : (s.delPart p).sn = s.sn := rfl
@[simp] theorem State.delPart_ctm (s : State) (p : PartId) : (s.delPart p).ctm = s.ctm := rfl
@[simp] theorem State.delPart_fab (s : State) (p : PartId) : (s.delPart p).fab = s.fab := rfl
@[simp] theorem State.delPart_obs (s : State) (p : PartId) : (s.delPart p).obs = s.obs := rfl
@[simp] theorem State.delPart_cr (s : State) (p : PartId) : (s.delPart p).cr = s.cr := rfl
@[simp] theorem State.delPart_mem (s : State) (p : PartId) : (s.delPart p).mem = s.mem := rfl
@[simp] theorem State.delPart_mmBad (s : State) (p : PartId) : (s.delPart p).mmBad = s.mmBad := rfl
@[simp] theorem State.delPart_mmOut (s : State) (p : PartId) : (s.delPart p).mmOut = s.mmOut := rfl
@[simp] theorem State.delPart_free (s : State) (p : PartId) : (s.delPart p).free = s.free := rfl

@[simp] theorem State.setWin_pending (s : State) (w : Win) (x : Window) : (s.setWin w x).pending = s.pending := rfl
@[simp] theorem State.setWin_clk (s : State) (w : Win) (x : Window) : (s.setWin w x).clk = s.clk := rfl
@[simp] theorem State.setWin_slu (s : State) (w : Win) (x : Window) : (s.setWin w x).slu = s.slu := rfl
@[simp] theorem State.setWin_msq (s : State) (w : Win) (x : Window) : (s.setWin w x).msq = s.msq := rfl
@[simp] theorem State.setWin_wins (s : State) (w : Win) (x : Window) : (s.setWin w x).wins = tput Window.reset s.wins (winKey w) x := rfl
@[simp] theorem State.setWin_parts (s : State) (w : Win) (x : Window) : (s.setWin w x).parts = s.parts := rfl
@[simp] theorem State.setWin_binds (s : State) (w : Win) (x : Window) : (s.setWin w x).binds = s.binds := rfl
@[simp] theorem State.setWin_aps (s : State) (w : Win) (x : Window) : (s.setWin w x).aps = s.aps := rfl
@[simp] theorem State.setWin_opr (s : State) (w : Win) (x : Window) : (s.setWin w x).opr = s.opr := rfl
@[simp] theorem State.setWin_obk (s : State) (w : Win) (x : Window) : (s.setWin w x).obk = s.obk := rfl
@[simp] theorem State.setWin_wmc (s : State) (w : Win) (x : Window) : (s.setWin w x).wmc = s.wmc := rfl
@[simp] theorem State.setWin_trk (s : State) (w : Win) (x : Window) : (s.setWin w x).trk = s.trk := rfl
@[simp] theorem State.setWin_olu (s : State) (w : Win) (x : Window) : (s.setWin w x).olu = s.olu := rfl
@[simp] theorem State.setWin_tdu (s : State) (w : Win) (x : Window) : (s.setWin w x).tdu = s.tdu := rfl
@[simp] theorem State.setWin_lcu (s : State) (w : Win) (x : Window) : (s.setWin w x).lcu = s.lcu := rfl
@[simp] theorem State.setWin_sn (s : State) (w : Win) (x : Window) : (s.setWin w x).sn = s.sn := rfl
@[simp] theorem State.setWin_ctm (s : State) (w : Win) (x : Window) : (s.setWin w x).ctm = s.ctm := rfl
@[simp] theorem State.setWin_fab (s : State) (w : Win) (x : Window) : (s.setWin w x).fab = s.fab := rfl
@[simp] theorem State.setWin_obs (s : State) (w : Win) (x : Window) : (s.setWin w x).obs = s.obs := rfl
@[simp] theorem State.setWin_cr (s : State) (w : Win) (x : Window) : (s.setWin w x).cr = s.cr := rfl
@[simp] theorem State.setWin_mem (s : State) (w : Win) (x : Window) : (s.setWin w x).mem = s.mem := rfl
@[simp] theorem State.setWin_mmBad (s : State) (w : Win) (x : Window) : (s.setWin w x).mmBad = s.mmBad := rfl
@[simp] theorem State.setWin_mmOut (s : State) (w : Win) (x : Window) : (s.setWin w x).mmOut = s.mmOut := rfl
@[simp] theorem State.setWin_free (s : State) (w : Win) (x : Window) : (s.setWin w x).free = s.free := rfl

@[simp] theorem State.setSeq_pending (s : State) (q : SeqNo) (x : Seq) : (s.setSeq q x).pending = s.pending := rfl
@[simp] theorem State.setSeq_clk (s : State) (q : SeqNo) (x : Seq) : (s.setSeq q x).clk = s.clk := rfl
@[simp] theorem State.setSeq_slu (s : State) (q : SeqNo) (x : Seq) : (s.setSeq q x).slu = s.slu := rfl
@[simp] theorem State.setSeq_msq (s : State) (q : SeqNo) (x : Seq) : (s.setSeq q x).msq = { s.msq with seqs := tput Seq.reset s.msq.seqs q.toNat x } := rfl
@[simp] theorem State.setSeq_wins (s : State) (q : SeqNo) (x : Seq) : (s.setSeq q x).wins = s.wins := rfl
@[simp] theorem State.setSeq_parts (s : State) (q : SeqNo) (x : Seq) : (s.setSeq q x).parts = s.parts := rfl
@[simp] theorem State.setSeq_binds (s : State) (q : SeqNo) (x : Seq) : (s.setSeq q x).binds = s.binds := rfl
@[simp] theorem State.setSeq_aps (s : State) (q : SeqNo) (x : Seq) : (s.setSeq q x).aps = s.aps := rfl
@[simp] theorem State.setSeq_opr (s : State) (q : SeqNo) (x : Seq) : (s.setSeq q x).opr = s.opr := rfl
@[simp] theorem State.setSeq_obk (s : State) (q : SeqNo) (x : Seq) : (s.setSeq q x).obk = s.obk := rfl
@[simp] theorem State.setSeq_wmc (s : State) (q : SeqNo) (x : Seq) : (s.setSeq q x).wmc = s.wmc := rfl
@[simp] theorem State.setSeq_trk (s : State) (q : SeqNo) (x : Seq) : (s.setSeq q x).trk = s.trk := rfl
@[simp] theorem State.setSeq_olu (s : State) (q : SeqNo) (x : Seq) : (s.setSeq q x).olu = s.olu := rfl
@[simp] theorem State.setSeq_tdu (s : State) (q : SeqNo) (x : Seq) : (s.setSeq q x).tdu = s.tdu := rfl
@[simp] theorem State.setSeq_lcu (s : State) (q : SeqNo) (x : Seq) : (s.setSeq q x).lcu = s.lcu := rfl
@[simp] theorem State.setSeq_sn (s : State) (q : SeqNo) (x : Seq) : (s.setSeq q x).sn = s.sn := rfl
@[simp] theorem State.setSeq_ctm (s : State) (q : SeqNo) (x : Seq) : (s.setSeq q x).ctm = s.ctm := rfl
@[simp] theorem State.setSeq_fab (s : State) (q : SeqNo) (x : Seq) : (s.setSeq q x).fab = s.fab := rfl
@[simp] theorem State.setSeq_obs (s : State) (q : SeqNo) (x : Seq) : (s.setSeq q x).obs = s.obs := rfl
@[simp] theorem State.setSeq_cr (s : State) (q : SeqNo) (x : Seq) : (s.setSeq q x).cr = s.cr := rfl
@[simp] theorem State.setSeq_mem (s : State) (q : SeqNo) (x : Seq) : (s.setSeq q x).mem = s.mem := rfl
@[simp] theorem State.setSeq_mmBad (s : State) (q : SeqNo) (x : Seq) : (s.setSeq q x).mmBad = s.mmBad := rfl
@[simp] theorem State.setSeq_mmOut (s : State) (q : SeqNo) (x : Seq) : (s.setSeq q x).mmOut = s.mmOut := rfl
@[simp] theorem State.setSeq_free (s : State) (q : SeqNo) (x : Seq) : (s.setSeq q x).free = s.free := rfl

@[simp] theorem State.setCtx_pending (s : State) (p : PartId) (c : CtxId) (x : Ctx) : (s.setCtx p c x).pending = s.pending := rfl
@[simp] theorem State.setCtx_clk (s : State) (p : PartId) (c : CtxId) (x : Ctx) : (s.setCtx p c x).clk = s.clk := rfl
@[simp] theorem State.setCtx_slu (s : State) (p : PartId) (c : CtxId) (x : Ctx) : (s.setCtx p c x).slu = s.slu := rfl
@[simp] theorem State.setCtx_msq (s : State) (p : PartId) (c : CtxId) (x : Ctx) : (s.setCtx p c x).msq = s.msq := rfl
@[simp] theorem State.setCtx_wins (s : State) (p : PartId) (c : CtxId) (x : Ctx) : (s.setCtx p c x).wins = s.wins := rfl
@[simp] theorem State.setCtx_parts (s : State) (p : PartId) (c : CtxId) (x : Ctx) : (s.setCtx p c x).parts = s.parts := rfl
@[simp] theorem State.setCtx_binds (s : State) (p : PartId) (c : CtxId) (x : Ctx) : (s.setCtx p c x).binds = s.binds := rfl
@[simp] theorem State.setCtx_aps (s : State) (p : PartId) (c : CtxId) (x : Ctx) : (s.setCtx p c x).aps = s.aps := rfl
@[simp] theorem State.setCtx_opr (s : State) (p : PartId) (c : CtxId) (x : Ctx) : (s.setCtx p c x).opr = s.opr := rfl
@[simp] theorem State.setCtx_obk (s : State) (p : PartId) (c : CtxId) (x : Ctx) : (s.setCtx p c x).obk = s.obk := rfl
@[simp] theorem State.setCtx_wmc (s : State) (p : PartId) (c : CtxId) (x : Ctx) : (s.setCtx p c x).wmc = s.wmc := rfl
@[simp] theorem State.setCtx_trk (s : State) (p : PartId) (c : CtxId) (x : Ctx) : (s.setCtx p c x).trk = s.trk := rfl
@[simp] theorem State.setCtx_olu (s : State) (p : PartId) (c : CtxId) (x : Ctx) : (s.setCtx p c x).olu = s.olu := rfl
@[simp] theorem State.setCtx_tdu (s : State) (p : PartId) (c : CtxId) (x : Ctx) : (s.setCtx p c x).tdu = s.tdu := rfl
@[simp] theorem State.setCtx_lcu (s : State) (p : PartId) (c : CtxId) (x : Ctx) : (s.setCtx p c x).lcu = s.lcu := rfl
@[simp] theorem State.setCtx_sn (s : State) (p : PartId) (c : CtxId) (x : Ctx) : (s.setCtx p c x).sn = s.sn := rfl
@[simp] theorem State.setCtx_ctm (s : State) (p : PartId) (c : CtxId) (x : Ctx) : (s.setCtx p c x).ctm = { s.ctm with dir := tput Ctx.reset s.ctm.dir (ctxKey p c) x } := rfl
@[simp] theorem State.setCtx_fab (s : State) (p : PartId) (c : CtxId) (x : Ctx) : (s.setCtx p c x).fab = s.fab := rfl
@[simp] theorem State.setCtx_obs (s : State) (p : PartId) (c : CtxId) (x : Ctx) : (s.setCtx p c x).obs = s.obs := rfl
@[simp] theorem State.setCtx_cr (s : State) (p : PartId) (c : CtxId) (x : Ctx) : (s.setCtx p c x).cr = s.cr := rfl
@[simp] theorem State.setCtx_mem (s : State) (p : PartId) (c : CtxId) (x : Ctx) : (s.setCtx p c x).mem = s.mem := rfl
@[simp] theorem State.setCtx_mmBad (s : State) (p : PartId) (c : CtxId) (x : Ctx) : (s.setCtx p c x).mmBad = s.mmBad := rfl
@[simp] theorem State.setCtx_mmOut (s : State) (p : PartId) (c : CtxId) (x : Ctx) : (s.setCtx p c x).mmOut = s.mmOut := rfl
@[simp] theorem State.setCtx_free (s : State) (p : PartId) (c : CtxId) (x : Ctx) : (s.setCtx p c x).free = s.free := rfl

@[simp] theorem State.setFp_pending (s : State) (p : FabPort) (x : FPort) : (s.setFp p x).pending = s.pending := rfl
@[simp] theorem State.setFp_clk (s : State) (p : FabPort) (x : FPort) : (s.setFp p x).clk = s.clk := rfl
@[simp] theorem State.setFp_slu (s : State) (p : FabPort) (x : FPort) : (s.setFp p x).slu = s.slu := rfl
@[simp] theorem State.setFp_msq (s : State) (p : FabPort) (x : FPort) : (s.setFp p x).msq = s.msq := rfl
@[simp] theorem State.setFp_wins (s : State) (p : FabPort) (x : FPort) : (s.setFp p x).wins = s.wins := rfl
@[simp] theorem State.setFp_parts (s : State) (p : FabPort) (x : FPort) : (s.setFp p x).parts = s.parts := rfl
@[simp] theorem State.setFp_binds (s : State) (p : FabPort) (x : FPort) : (s.setFp p x).binds = s.binds := rfl
@[simp] theorem State.setFp_aps (s : State) (p : FabPort) (x : FPort) : (s.setFp p x).aps = s.aps := rfl
@[simp] theorem State.setFp_opr (s : State) (p : FabPort) (x : FPort) : (s.setFp p x).opr = s.opr := rfl
@[simp] theorem State.setFp_obk (s : State) (p : FabPort) (x : FPort) : (s.setFp p x).obk = s.obk := rfl
@[simp] theorem State.setFp_wmc (s : State) (p : FabPort) (x : FPort) : (s.setFp p x).wmc = s.wmc := rfl
@[simp] theorem State.setFp_trk (s : State) (p : FabPort) (x : FPort) : (s.setFp p x).trk = s.trk := rfl
@[simp] theorem State.setFp_olu (s : State) (p : FabPort) (x : FPort) : (s.setFp p x).olu = s.olu := rfl
@[simp] theorem State.setFp_tdu (s : State) (p : FabPort) (x : FPort) : (s.setFp p x).tdu = s.tdu := rfl
@[simp] theorem State.setFp_lcu (s : State) (p : FabPort) (x : FPort) : (s.setFp p x).lcu = s.lcu := rfl
@[simp] theorem State.setFp_sn (s : State) (p : FabPort) (x : FPort) : (s.setFp p x).sn = s.sn := rfl
@[simp] theorem State.setFp_ctm (s : State) (p : FabPort) (x : FPort) : (s.setFp p x).ctm = s.ctm := rfl
@[simp] theorem State.setFp_fab (s : State) (p : FabPort) (x : FPort) : (s.setFp p x).fab = { s.fab with ports := tput FPort.reset s.fab.ports p.toNat x } := rfl
@[simp] theorem State.setFp_obs (s : State) (p : FabPort) (x : FPort) : (s.setFp p x).obs = s.obs := rfl
@[simp] theorem State.setFp_cr (s : State) (p : FabPort) (x : FPort) : (s.setFp p x).cr = s.cr := rfl
@[simp] theorem State.setFp_mem (s : State) (p : FabPort) (x : FPort) : (s.setFp p x).mem = s.mem := rfl
@[simp] theorem State.setFp_mmBad (s : State) (p : FabPort) (x : FPort) : (s.setFp p x).mmBad = s.mmBad := rfl
@[simp] theorem State.setFp_mmOut (s : State) (p : FabPort) (x : FPort) : (s.setFp p x).mmOut = s.mmOut := rfl
@[simp] theorem State.setFp_free (s : State) (p : FabPort) (x : FPort) : (s.setFp p x).free = s.free := rfl

@[simp] theorem State.setTree_pending (s : State) (t : AgentId) (x : Tree) : (s.setTree t x).pending = s.pending := rfl
@[simp] theorem State.setTree_clk (s : State) (t : AgentId) (x : Tree) : (s.setTree t x).clk = s.clk := rfl
@[simp] theorem State.setTree_slu (s : State) (t : AgentId) (x : Tree) : (s.setTree t x).slu = s.slu := rfl
@[simp] theorem State.setTree_msq (s : State) (t : AgentId) (x : Tree) : (s.setTree t x).msq = s.msq := rfl
@[simp] theorem State.setTree_wins (s : State) (t : AgentId) (x : Tree) : (s.setTree t x).wins = s.wins := rfl
@[simp] theorem State.setTree_parts (s : State) (t : AgentId) (x : Tree) : (s.setTree t x).parts = s.parts := rfl
@[simp] theorem State.setTree_binds (s : State) (t : AgentId) (x : Tree) : (s.setTree t x).binds = s.binds := rfl
@[simp] theorem State.setTree_aps (s : State) (t : AgentId) (x : Tree) : (s.setTree t x).aps = s.aps := rfl
@[simp] theorem State.setTree_opr (s : State) (t : AgentId) (x : Tree) : (s.setTree t x).opr = s.opr := rfl
@[simp] theorem State.setTree_obk (s : State) (t : AgentId) (x : Tree) : (s.setTree t x).obk = s.obk := rfl
@[simp] theorem State.setTree_wmc (s : State) (t : AgentId) (x : Tree) : (s.setTree t x).wmc = s.wmc := rfl
@[simp] theorem State.setTree_trk (s : State) (t : AgentId) (x : Tree) : (s.setTree t x).trk = s.trk := rfl
@[simp] theorem State.setTree_olu (s : State) (t : AgentId) (x : Tree) : (s.setTree t x).olu = s.olu := rfl
@[simp] theorem State.setTree_tdu (s : State) (t : AgentId) (x : Tree) : (s.setTree t x).tdu = s.tdu := rfl
@[simp] theorem State.setTree_lcu (s : State) (t : AgentId) (x : Tree) : (s.setTree t x).lcu = s.lcu := rfl
@[simp] theorem State.setTree_sn (s : State) (t : AgentId) (x : Tree) : (s.setTree t x).sn = s.sn := rfl
@[simp] theorem State.setTree_ctm (s : State) (t : AgentId) (x : Tree) : (s.setTree t x).ctm = s.ctm := rfl
@[simp] theorem State.setTree_fab (s : State) (t : AgentId) (x : Tree) : (s.setTree t x).fab = { s.fab with trees := tput Tree.reset s.fab.trees t.toNat x } := rfl
@[simp] theorem State.setTree_obs (s : State) (t : AgentId) (x : Tree) : (s.setTree t x).obs = s.obs := rfl
@[simp] theorem State.setTree_cr (s : State) (t : AgentId) (x : Tree) : (s.setTree t x).cr = s.cr := rfl
@[simp] theorem State.setTree_mem (s : State) (t : AgentId) (x : Tree) : (s.setTree t x).mem = s.mem := rfl
@[simp] theorem State.setTree_mmBad (s : State) (t : AgentId) (x : Tree) : (s.setTree t x).mmBad = s.mmBad := rfl
@[simp] theorem State.setTree_mmOut (s : State) (t : AgentId) (x : Tree) : (s.setTree t x).mmOut = s.mmOut := rfl
@[simp] theorem State.setTree_free (s : State) (t : AgentId) (x : Tree) : (s.setTree t x).free = s.free := rfl

@[simp] theorem State.modOpr_pending (s : State) (f : Opr → Opr) : (s.modOpr f).pending = s.pending := rfl
@[simp] theorem State.modOpr_clk (s : State) (f : Opr → Opr) : (s.modOpr f).clk = s.clk := rfl
@[simp] theorem State.modOpr_slu (s : State) (f : Opr → Opr) : (s.modOpr f).slu = s.slu := rfl
@[simp] theorem State.modOpr_msq (s : State) (f : Opr → Opr) : (s.modOpr f).msq = s.msq := rfl
@[simp] theorem State.modOpr_wins (s : State) (f : Opr → Opr) : (s.modOpr f).wins = s.wins := rfl
@[simp] theorem State.modOpr_parts (s : State) (f : Opr → Opr) : (s.modOpr f).parts = s.parts := rfl
@[simp] theorem State.modOpr_binds (s : State) (f : Opr → Opr) : (s.modOpr f).binds = s.binds := rfl
@[simp] theorem State.modOpr_aps (s : State) (f : Opr → Opr) : (s.modOpr f).aps = s.aps := rfl
@[simp] theorem State.modOpr_opr (s : State) (f : Opr → Opr) : (s.modOpr f).opr = f s.opr := rfl
@[simp] theorem State.modOpr_obk (s : State) (f : Opr → Opr) : (s.modOpr f).obk = s.obk := rfl
@[simp] theorem State.modOpr_wmc (s : State) (f : Opr → Opr) : (s.modOpr f).wmc = s.wmc := rfl
@[simp] theorem State.modOpr_trk (s : State) (f : Opr → Opr) : (s.modOpr f).trk = s.trk := rfl
@[simp] theorem State.modOpr_olu (s : State) (f : Opr → Opr) : (s.modOpr f).olu = s.olu := rfl
@[simp] theorem State.modOpr_tdu (s : State) (f : Opr → Opr) : (s.modOpr f).tdu = s.tdu := rfl
@[simp] theorem State.modOpr_lcu (s : State) (f : Opr → Opr) : (s.modOpr f).lcu = s.lcu := rfl
@[simp] theorem State.modOpr_sn (s : State) (f : Opr → Opr) : (s.modOpr f).sn = s.sn := rfl
@[simp] theorem State.modOpr_ctm (s : State) (f : Opr → Opr) : (s.modOpr f).ctm = s.ctm := rfl
@[simp] theorem State.modOpr_fab (s : State) (f : Opr → Opr) : (s.modOpr f).fab = s.fab := rfl
@[simp] theorem State.modOpr_obs (s : State) (f : Opr → Opr) : (s.modOpr f).obs = s.obs := rfl
@[simp] theorem State.modOpr_cr (s : State) (f : Opr → Opr) : (s.modOpr f).cr = s.cr := rfl
@[simp] theorem State.modOpr_mem (s : State) (f : Opr → Opr) : (s.modOpr f).mem = s.mem := rfl
@[simp] theorem State.modOpr_mmBad (s : State) (f : Opr → Opr) : (s.modOpr f).mmBad = s.mmBad := rfl
@[simp] theorem State.modOpr_mmOut (s : State) (f : Opr → Opr) : (s.modOpr f).mmOut = s.mmOut := rfl
@[simp] theorem State.modOpr_free (s : State) (f : Opr → Opr) : (s.modOpr f).free = s.free := rfl

@[simp] theorem State.modWmc_pending (s : State) (f : Wmc → Wmc) : (s.modWmc f).pending = s.pending := rfl
@[simp] theorem State.modWmc_clk (s : State) (f : Wmc → Wmc) : (s.modWmc f).clk = s.clk := rfl
@[simp] theorem State.modWmc_slu (s : State) (f : Wmc → Wmc) : (s.modWmc f).slu = s.slu := rfl
@[simp] theorem State.modWmc_msq (s : State) (f : Wmc → Wmc) : (s.modWmc f).msq = s.msq := rfl
@[simp] theorem State.modWmc_wins (s : State) (f : Wmc → Wmc) : (s.modWmc f).wins = s.wins := rfl
@[simp] theorem State.modWmc_parts (s : State) (f : Wmc → Wmc) : (s.modWmc f).parts = s.parts := rfl
@[simp] theorem State.modWmc_binds (s : State) (f : Wmc → Wmc) : (s.modWmc f).binds = s.binds := rfl
@[simp] theorem State.modWmc_aps (s : State) (f : Wmc → Wmc) : (s.modWmc f).aps = s.aps := rfl
@[simp] theorem State.modWmc_opr (s : State) (f : Wmc → Wmc) : (s.modWmc f).opr = s.opr := rfl
@[simp] theorem State.modWmc_obk (s : State) (f : Wmc → Wmc) : (s.modWmc f).obk = s.obk := rfl
@[simp] theorem State.modWmc_wmc (s : State) (f : Wmc → Wmc) : (s.modWmc f).wmc = f s.wmc := rfl
@[simp] theorem State.modWmc_trk (s : State) (f : Wmc → Wmc) : (s.modWmc f).trk = s.trk := rfl
@[simp] theorem State.modWmc_olu (s : State) (f : Wmc → Wmc) : (s.modWmc f).olu = s.olu := rfl
@[simp] theorem State.modWmc_tdu (s : State) (f : Wmc → Wmc) : (s.modWmc f).tdu = s.tdu := rfl
@[simp] theorem State.modWmc_lcu (s : State) (f : Wmc → Wmc) : (s.modWmc f).lcu = s.lcu := rfl
@[simp] theorem State.modWmc_sn (s : State) (f : Wmc → Wmc) : (s.modWmc f).sn = s.sn := rfl
@[simp] theorem State.modWmc_ctm (s : State) (f : Wmc → Wmc) : (s.modWmc f).ctm = s.ctm := rfl
@[simp] theorem State.modWmc_fab (s : State) (f : Wmc → Wmc) : (s.modWmc f).fab = s.fab := rfl
@[simp] theorem State.modWmc_obs (s : State) (f : Wmc → Wmc) : (s.modWmc f).obs = s.obs := rfl
@[simp] theorem State.modWmc_cr (s : State) (f : Wmc → Wmc) : (s.modWmc f).cr = s.cr := rfl
@[simp] theorem State.modWmc_mem (s : State) (f : Wmc → Wmc) : (s.modWmc f).mem = s.mem := rfl
@[simp] theorem State.modWmc_mmBad (s : State) (f : Wmc → Wmc) : (s.modWmc f).mmBad = s.mmBad := rfl
@[simp] theorem State.modWmc_mmOut (s : State) (f : Wmc → Wmc) : (s.modWmc f).mmOut = s.mmOut := rfl
@[simp] theorem State.modWmc_free (s : State) (f : Wmc → Wmc) : (s.modWmc f).free = s.free := rfl

@[simp] theorem State.modOlu_pending (s : State) (f : Olu → Olu) : (s.modOlu f).pending = s.pending := rfl
@[simp] theorem State.modOlu_clk (s : State) (f : Olu → Olu) : (s.modOlu f).clk = s.clk := rfl
@[simp] theorem State.modOlu_slu (s : State) (f : Olu → Olu) : (s.modOlu f).slu = s.slu := rfl
@[simp] theorem State.modOlu_msq (s : State) (f : Olu → Olu) : (s.modOlu f).msq = s.msq := rfl
@[simp] theorem State.modOlu_wins (s : State) (f : Olu → Olu) : (s.modOlu f).wins = s.wins := rfl
@[simp] theorem State.modOlu_parts (s : State) (f : Olu → Olu) : (s.modOlu f).parts = s.parts := rfl
@[simp] theorem State.modOlu_binds (s : State) (f : Olu → Olu) : (s.modOlu f).binds = s.binds := rfl
@[simp] theorem State.modOlu_aps (s : State) (f : Olu → Olu) : (s.modOlu f).aps = s.aps := rfl
@[simp] theorem State.modOlu_opr (s : State) (f : Olu → Olu) : (s.modOlu f).opr = s.opr := rfl
@[simp] theorem State.modOlu_obk (s : State) (f : Olu → Olu) : (s.modOlu f).obk = s.obk := rfl
@[simp] theorem State.modOlu_wmc (s : State) (f : Olu → Olu) : (s.modOlu f).wmc = s.wmc := rfl
@[simp] theorem State.modOlu_trk (s : State) (f : Olu → Olu) : (s.modOlu f).trk = s.trk := rfl
@[simp] theorem State.modOlu_olu (s : State) (f : Olu → Olu) : (s.modOlu f).olu = f s.olu := rfl
@[simp] theorem State.modOlu_tdu (s : State) (f : Olu → Olu) : (s.modOlu f).tdu = s.tdu := rfl
@[simp] theorem State.modOlu_lcu (s : State) (f : Olu → Olu) : (s.modOlu f).lcu = s.lcu := rfl
@[simp] theorem State.modOlu_sn (s : State) (f : Olu → Olu) : (s.modOlu f).sn = s.sn := rfl
@[simp] theorem State.modOlu_ctm (s : State) (f : Olu → Olu) : (s.modOlu f).ctm = s.ctm := rfl
@[simp] theorem State.modOlu_fab (s : State) (f : Olu → Olu) : (s.modOlu f).fab = s.fab := rfl
@[simp] theorem State.modOlu_obs (s : State) (f : Olu → Olu) : (s.modOlu f).obs = s.obs := rfl
@[simp] theorem State.modOlu_cr (s : State) (f : Olu → Olu) : (s.modOlu f).cr = s.cr := rfl
@[simp] theorem State.modOlu_mem (s : State) (f : Olu → Olu) : (s.modOlu f).mem = s.mem := rfl
@[simp] theorem State.modOlu_mmBad (s : State) (f : Olu → Olu) : (s.modOlu f).mmBad = s.mmBad := rfl
@[simp] theorem State.modOlu_mmOut (s : State) (f : Olu → Olu) : (s.modOlu f).mmOut = s.mmOut := rfl
@[simp] theorem State.modOlu_free (s : State) (f : Olu → Olu) : (s.modOlu f).free = s.free := rfl

@[simp] theorem State.modTdu_pending (s : State) (f : Tdu → Tdu) : (s.modTdu f).pending = s.pending := rfl
@[simp] theorem State.modTdu_clk (s : State) (f : Tdu → Tdu) : (s.modTdu f).clk = s.clk := rfl
@[simp] theorem State.modTdu_slu (s : State) (f : Tdu → Tdu) : (s.modTdu f).slu = s.slu := rfl
@[simp] theorem State.modTdu_msq (s : State) (f : Tdu → Tdu) : (s.modTdu f).msq = s.msq := rfl
@[simp] theorem State.modTdu_wins (s : State) (f : Tdu → Tdu) : (s.modTdu f).wins = s.wins := rfl
@[simp] theorem State.modTdu_parts (s : State) (f : Tdu → Tdu) : (s.modTdu f).parts = s.parts := rfl
@[simp] theorem State.modTdu_binds (s : State) (f : Tdu → Tdu) : (s.modTdu f).binds = s.binds := rfl
@[simp] theorem State.modTdu_aps (s : State) (f : Tdu → Tdu) : (s.modTdu f).aps = s.aps := rfl
@[simp] theorem State.modTdu_opr (s : State) (f : Tdu → Tdu) : (s.modTdu f).opr = s.opr := rfl
@[simp] theorem State.modTdu_obk (s : State) (f : Tdu → Tdu) : (s.modTdu f).obk = s.obk := rfl
@[simp] theorem State.modTdu_wmc (s : State) (f : Tdu → Tdu) : (s.modTdu f).wmc = s.wmc := rfl
@[simp] theorem State.modTdu_trk (s : State) (f : Tdu → Tdu) : (s.modTdu f).trk = s.trk := rfl
@[simp] theorem State.modTdu_olu (s : State) (f : Tdu → Tdu) : (s.modTdu f).olu = s.olu := rfl
@[simp] theorem State.modTdu_tdu (s : State) (f : Tdu → Tdu) : (s.modTdu f).tdu = f s.tdu := rfl
@[simp] theorem State.modTdu_lcu (s : State) (f : Tdu → Tdu) : (s.modTdu f).lcu = s.lcu := rfl
@[simp] theorem State.modTdu_sn (s : State) (f : Tdu → Tdu) : (s.modTdu f).sn = s.sn := rfl
@[simp] theorem State.modTdu_ctm (s : State) (f : Tdu → Tdu) : (s.modTdu f).ctm = s.ctm := rfl
@[simp] theorem State.modTdu_fab (s : State) (f : Tdu → Tdu) : (s.modTdu f).fab = s.fab := rfl
@[simp] theorem State.modTdu_obs (s : State) (f : Tdu → Tdu) : (s.modTdu f).obs = s.obs := rfl
@[simp] theorem State.modTdu_cr (s : State) (f : Tdu → Tdu) : (s.modTdu f).cr = s.cr := rfl
@[simp] theorem State.modTdu_mem (s : State) (f : Tdu → Tdu) : (s.modTdu f).mem = s.mem := rfl
@[simp] theorem State.modTdu_mmBad (s : State) (f : Tdu → Tdu) : (s.modTdu f).mmBad = s.mmBad := rfl
@[simp] theorem State.modTdu_mmOut (s : State) (f : Tdu → Tdu) : (s.modTdu f).mmOut = s.mmOut := rfl
@[simp] theorem State.modTdu_free (s : State) (f : Tdu → Tdu) : (s.modTdu f).free = s.free := rfl

@[simp] theorem State.modLcu_pending (s : State) (f : Lcu → Lcu) : (s.modLcu f).pending = s.pending := rfl
@[simp] theorem State.modLcu_clk (s : State) (f : Lcu → Lcu) : (s.modLcu f).clk = s.clk := rfl
@[simp] theorem State.modLcu_slu (s : State) (f : Lcu → Lcu) : (s.modLcu f).slu = s.slu := rfl
@[simp] theorem State.modLcu_msq (s : State) (f : Lcu → Lcu) : (s.modLcu f).msq = s.msq := rfl
@[simp] theorem State.modLcu_wins (s : State) (f : Lcu → Lcu) : (s.modLcu f).wins = s.wins := rfl
@[simp] theorem State.modLcu_parts (s : State) (f : Lcu → Lcu) : (s.modLcu f).parts = s.parts := rfl
@[simp] theorem State.modLcu_binds (s : State) (f : Lcu → Lcu) : (s.modLcu f).binds = s.binds := rfl
@[simp] theorem State.modLcu_aps (s : State) (f : Lcu → Lcu) : (s.modLcu f).aps = s.aps := rfl
@[simp] theorem State.modLcu_opr (s : State) (f : Lcu → Lcu) : (s.modLcu f).opr = s.opr := rfl
@[simp] theorem State.modLcu_obk (s : State) (f : Lcu → Lcu) : (s.modLcu f).obk = s.obk := rfl
@[simp] theorem State.modLcu_wmc (s : State) (f : Lcu → Lcu) : (s.modLcu f).wmc = s.wmc := rfl
@[simp] theorem State.modLcu_trk (s : State) (f : Lcu → Lcu) : (s.modLcu f).trk = s.trk := rfl
@[simp] theorem State.modLcu_olu (s : State) (f : Lcu → Lcu) : (s.modLcu f).olu = s.olu := rfl
@[simp] theorem State.modLcu_tdu (s : State) (f : Lcu → Lcu) : (s.modLcu f).tdu = s.tdu := rfl
@[simp] theorem State.modLcu_lcu (s : State) (f : Lcu → Lcu) : (s.modLcu f).lcu = f s.lcu := rfl
@[simp] theorem State.modLcu_sn (s : State) (f : Lcu → Lcu) : (s.modLcu f).sn = s.sn := rfl
@[simp] theorem State.modLcu_ctm (s : State) (f : Lcu → Lcu) : (s.modLcu f).ctm = s.ctm := rfl
@[simp] theorem State.modLcu_fab (s : State) (f : Lcu → Lcu) : (s.modLcu f).fab = s.fab := rfl
@[simp] theorem State.modLcu_obs (s : State) (f : Lcu → Lcu) : (s.modLcu f).obs = s.obs := rfl
@[simp] theorem State.modLcu_cr (s : State) (f : Lcu → Lcu) : (s.modLcu f).cr = s.cr := rfl
@[simp] theorem State.modLcu_mem (s : State) (f : Lcu → Lcu) : (s.modLcu f).mem = s.mem := rfl
@[simp] theorem State.modLcu_mmBad (s : State) (f : Lcu → Lcu) : (s.modLcu f).mmBad = s.mmBad := rfl
@[simp] theorem State.modLcu_mmOut (s : State) (f : Lcu → Lcu) : (s.modLcu f).mmOut = s.mmOut := rfl
@[simp] theorem State.modLcu_free (s : State) (f : Lcu → Lcu) : (s.modLcu f).free = s.free := rfl

@[simp] theorem State.modTrk_pending (s : State) (f : Trk → Trk) : (s.modTrk f).pending = s.pending := rfl
@[simp] theorem State.modTrk_clk (s : State) (f : Trk → Trk) : (s.modTrk f).clk = s.clk := rfl
@[simp] theorem State.modTrk_slu (s : State) (f : Trk → Trk) : (s.modTrk f).slu = s.slu := rfl
@[simp] theorem State.modTrk_msq (s : State) (f : Trk → Trk) : (s.modTrk f).msq = s.msq := rfl
@[simp] theorem State.modTrk_wins (s : State) (f : Trk → Trk) : (s.modTrk f).wins = s.wins := rfl
@[simp] theorem State.modTrk_parts (s : State) (f : Trk → Trk) : (s.modTrk f).parts = s.parts := rfl
@[simp] theorem State.modTrk_binds (s : State) (f : Trk → Trk) : (s.modTrk f).binds = s.binds := rfl
@[simp] theorem State.modTrk_aps (s : State) (f : Trk → Trk) : (s.modTrk f).aps = s.aps := rfl
@[simp] theorem State.modTrk_opr (s : State) (f : Trk → Trk) : (s.modTrk f).opr = s.opr := rfl
@[simp] theorem State.modTrk_obk (s : State) (f : Trk → Trk) : (s.modTrk f).obk = s.obk := rfl
@[simp] theorem State.modTrk_wmc (s : State) (f : Trk → Trk) : (s.modTrk f).wmc = s.wmc := rfl
@[simp] theorem State.modTrk_trk (s : State) (f : Trk → Trk) : (s.modTrk f).trk = f s.trk := rfl
@[simp] theorem State.modTrk_olu (s : State) (f : Trk → Trk) : (s.modTrk f).olu = s.olu := rfl
@[simp] theorem State.modTrk_tdu (s : State) (f : Trk → Trk) : (s.modTrk f).tdu = s.tdu := rfl
@[simp] theorem State.modTrk_lcu (s : State) (f : Trk → Trk) : (s.modTrk f).lcu = s.lcu := rfl
@[simp] theorem State.modTrk_sn (s : State) (f : Trk → Trk) : (s.modTrk f).sn = s.sn := rfl
@[simp] theorem State.modTrk_ctm (s : State) (f : Trk → Trk) : (s.modTrk f).ctm = s.ctm := rfl
@[simp] theorem State.modTrk_fab (s : State) (f : Trk → Trk) : (s.modTrk f).fab = s.fab := rfl
@[simp] theorem State.modTrk_obs (s : State) (f : Trk → Trk) : (s.modTrk f).obs = s.obs := rfl
@[simp] theorem State.modTrk_cr (s : State) (f : Trk → Trk) : (s.modTrk f).cr = s.cr := rfl
@[simp] theorem State.modTrk_mem (s : State) (f : Trk → Trk) : (s.modTrk f).mem = s.mem := rfl
@[simp] theorem State.modTrk_mmBad (s : State) (f : Trk → Trk) : (s.modTrk f).mmBad = s.mmBad := rfl
@[simp] theorem State.modTrk_mmOut (s : State) (f : Trk → Trk) : (s.modTrk f).mmOut = s.mmOut := rfl
@[simp] theorem State.modTrk_free (s : State) (f : Trk → Trk) : (s.modTrk f).free = s.free := rfl

@[simp] theorem State.modCtm_pending (s : State) (f : Ctm → Ctm) : (s.modCtm f).pending = s.pending := rfl
@[simp] theorem State.modCtm_clk (s : State) (f : Ctm → Ctm) : (s.modCtm f).clk = s.clk := rfl
@[simp] theorem State.modCtm_slu (s : State) (f : Ctm → Ctm) : (s.modCtm f).slu = s.slu := rfl
@[simp] theorem State.modCtm_msq (s : State) (f : Ctm → Ctm) : (s.modCtm f).msq = s.msq := rfl
@[simp] theorem State.modCtm_wins (s : State) (f : Ctm → Ctm) : (s.modCtm f).wins = s.wins := rfl
@[simp] theorem State.modCtm_parts (s : State) (f : Ctm → Ctm) : (s.modCtm f).parts = s.parts := rfl
@[simp] theorem State.modCtm_binds (s : State) (f : Ctm → Ctm) : (s.modCtm f).binds = s.binds := rfl
@[simp] theorem State.modCtm_aps (s : State) (f : Ctm → Ctm) : (s.modCtm f).aps = s.aps := rfl
@[simp] theorem State.modCtm_opr (s : State) (f : Ctm → Ctm) : (s.modCtm f).opr = s.opr := rfl
@[simp] theorem State.modCtm_obk (s : State) (f : Ctm → Ctm) : (s.modCtm f).obk = s.obk := rfl
@[simp] theorem State.modCtm_wmc (s : State) (f : Ctm → Ctm) : (s.modCtm f).wmc = s.wmc := rfl
@[simp] theorem State.modCtm_trk (s : State) (f : Ctm → Ctm) : (s.modCtm f).trk = s.trk := rfl
@[simp] theorem State.modCtm_olu (s : State) (f : Ctm → Ctm) : (s.modCtm f).olu = s.olu := rfl
@[simp] theorem State.modCtm_tdu (s : State) (f : Ctm → Ctm) : (s.modCtm f).tdu = s.tdu := rfl
@[simp] theorem State.modCtm_lcu (s : State) (f : Ctm → Ctm) : (s.modCtm f).lcu = s.lcu := rfl
@[simp] theorem State.modCtm_sn (s : State) (f : Ctm → Ctm) : (s.modCtm f).sn = s.sn := rfl
@[simp] theorem State.modCtm_ctm (s : State) (f : Ctm → Ctm) : (s.modCtm f).ctm = f s.ctm := rfl
@[simp] theorem State.modCtm_fab (s : State) (f : Ctm → Ctm) : (s.modCtm f).fab = s.fab := rfl
@[simp] theorem State.modCtm_obs (s : State) (f : Ctm → Ctm) : (s.modCtm f).obs = s.obs := rfl
@[simp] theorem State.modCtm_cr (s : State) (f : Ctm → Ctm) : (s.modCtm f).cr = s.cr := rfl
@[simp] theorem State.modCtm_mem (s : State) (f : Ctm → Ctm) : (s.modCtm f).mem = s.mem := rfl
@[simp] theorem State.modCtm_mmBad (s : State) (f : Ctm → Ctm) : (s.modCtm f).mmBad = s.mmBad := rfl
@[simp] theorem State.modCtm_mmOut (s : State) (f : Ctm → Ctm) : (s.modCtm f).mmOut = s.mmOut := rfl
@[simp] theorem State.modCtm_free (s : State) (f : Ctm → Ctm) : (s.modCtm f).free = s.free := rfl

@[simp] theorem State.modCr_pending (s : State) (f : Cr → Cr) : (s.modCr f).pending = s.pending := rfl
@[simp] theorem State.modCr_clk (s : State) (f : Cr → Cr) : (s.modCr f).clk = s.clk := rfl
@[simp] theorem State.modCr_slu (s : State) (f : Cr → Cr) : (s.modCr f).slu = s.slu := rfl
@[simp] theorem State.modCr_msq (s : State) (f : Cr → Cr) : (s.modCr f).msq = s.msq := rfl
@[simp] theorem State.modCr_wins (s : State) (f : Cr → Cr) : (s.modCr f).wins = s.wins := rfl
@[simp] theorem State.modCr_parts (s : State) (f : Cr → Cr) : (s.modCr f).parts = s.parts := rfl
@[simp] theorem State.modCr_binds (s : State) (f : Cr → Cr) : (s.modCr f).binds = s.binds := rfl
@[simp] theorem State.modCr_aps (s : State) (f : Cr → Cr) : (s.modCr f).aps = s.aps := rfl
@[simp] theorem State.modCr_opr (s : State) (f : Cr → Cr) : (s.modCr f).opr = s.opr := rfl
@[simp] theorem State.modCr_obk (s : State) (f : Cr → Cr) : (s.modCr f).obk = s.obk := rfl
@[simp] theorem State.modCr_wmc (s : State) (f : Cr → Cr) : (s.modCr f).wmc = s.wmc := rfl
@[simp] theorem State.modCr_trk (s : State) (f : Cr → Cr) : (s.modCr f).trk = s.trk := rfl
@[simp] theorem State.modCr_olu (s : State) (f : Cr → Cr) : (s.modCr f).olu = s.olu := rfl
@[simp] theorem State.modCr_tdu (s : State) (f : Cr → Cr) : (s.modCr f).tdu = s.tdu := rfl
@[simp] theorem State.modCr_lcu (s : State) (f : Cr → Cr) : (s.modCr f).lcu = s.lcu := rfl
@[simp] theorem State.modCr_sn (s : State) (f : Cr → Cr) : (s.modCr f).sn = s.sn := rfl
@[simp] theorem State.modCr_ctm (s : State) (f : Cr → Cr) : (s.modCr f).ctm = s.ctm := rfl
@[simp] theorem State.modCr_fab (s : State) (f : Cr → Cr) : (s.modCr f).fab = s.fab := rfl
@[simp] theorem State.modCr_obs (s : State) (f : Cr → Cr) : (s.modCr f).obs = s.obs := rfl
@[simp] theorem State.modCr_cr (s : State) (f : Cr → Cr) : (s.modCr f).cr = f s.cr := rfl
@[simp] theorem State.modCr_mem (s : State) (f : Cr → Cr) : (s.modCr f).mem = s.mem := rfl
@[simp] theorem State.modCr_mmBad (s : State) (f : Cr → Cr) : (s.modCr f).mmBad = s.mmBad := rfl
@[simp] theorem State.modCr_mmOut (s : State) (f : Cr → Cr) : (s.modCr f).mmOut = s.mmOut := rfl
@[simp] theorem State.modCr_free (s : State) (f : Cr → Cr) : (s.modCr f).free = s.free := rfl

@[simp] theorem State.modSn_pending (s : State) (f : Sn → Sn) : (s.modSn f).pending = s.pending := rfl
@[simp] theorem State.modSn_clk (s : State) (f : Sn → Sn) : (s.modSn f).clk = s.clk := rfl
@[simp] theorem State.modSn_slu (s : State) (f : Sn → Sn) : (s.modSn f).slu = s.slu := rfl
@[simp] theorem State.modSn_msq (s : State) (f : Sn → Sn) : (s.modSn f).msq = s.msq := rfl
@[simp] theorem State.modSn_wins (s : State) (f : Sn → Sn) : (s.modSn f).wins = s.wins := rfl
@[simp] theorem State.modSn_parts (s : State) (f : Sn → Sn) : (s.modSn f).parts = s.parts := rfl
@[simp] theorem State.modSn_binds (s : State) (f : Sn → Sn) : (s.modSn f).binds = s.binds := rfl
@[simp] theorem State.modSn_aps (s : State) (f : Sn → Sn) : (s.modSn f).aps = s.aps := rfl
@[simp] theorem State.modSn_opr (s : State) (f : Sn → Sn) : (s.modSn f).opr = s.opr := rfl
@[simp] theorem State.modSn_obk (s : State) (f : Sn → Sn) : (s.modSn f).obk = s.obk := rfl
@[simp] theorem State.modSn_wmc (s : State) (f : Sn → Sn) : (s.modSn f).wmc = s.wmc := rfl
@[simp] theorem State.modSn_trk (s : State) (f : Sn → Sn) : (s.modSn f).trk = s.trk := rfl
@[simp] theorem State.modSn_olu (s : State) (f : Sn → Sn) : (s.modSn f).olu = s.olu := rfl
@[simp] theorem State.modSn_tdu (s : State) (f : Sn → Sn) : (s.modSn f).tdu = s.tdu := rfl
@[simp] theorem State.modSn_lcu (s : State) (f : Sn → Sn) : (s.modSn f).lcu = s.lcu := rfl
@[simp] theorem State.modSn_sn (s : State) (f : Sn → Sn) : (s.modSn f).sn = f s.sn := rfl
@[simp] theorem State.modSn_ctm (s : State) (f : Sn → Sn) : (s.modSn f).ctm = s.ctm := rfl
@[simp] theorem State.modSn_fab (s : State) (f : Sn → Sn) : (s.modSn f).fab = s.fab := rfl
@[simp] theorem State.modSn_obs (s : State) (f : Sn → Sn) : (s.modSn f).obs = s.obs := rfl
@[simp] theorem State.modSn_cr (s : State) (f : Sn → Sn) : (s.modSn f).cr = s.cr := rfl
@[simp] theorem State.modSn_mem (s : State) (f : Sn → Sn) : (s.modSn f).mem = s.mem := rfl
@[simp] theorem State.modSn_mmBad (s : State) (f : Sn → Sn) : (s.modSn f).mmBad = s.mmBad := rfl
@[simp] theorem State.modSn_mmOut (s : State) (f : Sn → Sn) : (s.modSn f).mmOut = s.mmOut := rfl
@[simp] theorem State.modSn_free (s : State) (f : Sn → Sn) : (s.modSn f).free = s.free := rfl

@[simp] theorem State.modObk_pending (s : State) (f : Obk → Obk) : (s.modObk f).pending = s.pending := rfl
@[simp] theorem State.modObk_clk (s : State) (f : Obk → Obk) : (s.modObk f).clk = s.clk := rfl
@[simp] theorem State.modObk_slu (s : State) (f : Obk → Obk) : (s.modObk f).slu = s.slu := rfl
@[simp] theorem State.modObk_msq (s : State) (f : Obk → Obk) : (s.modObk f).msq = s.msq := rfl
@[simp] theorem State.modObk_wins (s : State) (f : Obk → Obk) : (s.modObk f).wins = s.wins := rfl
@[simp] theorem State.modObk_parts (s : State) (f : Obk → Obk) : (s.modObk f).parts = s.parts := rfl
@[simp] theorem State.modObk_binds (s : State) (f : Obk → Obk) : (s.modObk f).binds = s.binds := rfl
@[simp] theorem State.modObk_aps (s : State) (f : Obk → Obk) : (s.modObk f).aps = s.aps := rfl
@[simp] theorem State.modObk_opr (s : State) (f : Obk → Obk) : (s.modObk f).opr = s.opr := rfl
@[simp] theorem State.modObk_obk (s : State) (f : Obk → Obk) : (s.modObk f).obk = f s.obk := rfl
@[simp] theorem State.modObk_wmc (s : State) (f : Obk → Obk) : (s.modObk f).wmc = s.wmc := rfl
@[simp] theorem State.modObk_trk (s : State) (f : Obk → Obk) : (s.modObk f).trk = s.trk := rfl
@[simp] theorem State.modObk_olu (s : State) (f : Obk → Obk) : (s.modObk f).olu = s.olu := rfl
@[simp] theorem State.modObk_tdu (s : State) (f : Obk → Obk) : (s.modObk f).tdu = s.tdu := rfl
@[simp] theorem State.modObk_lcu (s : State) (f : Obk → Obk) : (s.modObk f).lcu = s.lcu := rfl
@[simp] theorem State.modObk_sn (s : State) (f : Obk → Obk) : (s.modObk f).sn = s.sn := rfl
@[simp] theorem State.modObk_ctm (s : State) (f : Obk → Obk) : (s.modObk f).ctm = s.ctm := rfl
@[simp] theorem State.modObk_fab (s : State) (f : Obk → Obk) : (s.modObk f).fab = s.fab := rfl
@[simp] theorem State.modObk_obs (s : State) (f : Obk → Obk) : (s.modObk f).obs = s.obs := rfl
@[simp] theorem State.modObk_cr (s : State) (f : Obk → Obk) : (s.modObk f).cr = s.cr := rfl
@[simp] theorem State.modObk_mem (s : State) (f : Obk → Obk) : (s.modObk f).mem = s.mem := rfl
@[simp] theorem State.modObk_mmBad (s : State) (f : Obk → Obk) : (s.modObk f).mmBad = s.mmBad := rfl
@[simp] theorem State.modObk_mmOut (s : State) (f : Obk → Obk) : (s.modObk f).mmOut = s.mmOut := rfl
@[simp] theorem State.modObk_free (s : State) (f : Obk → Obk) : (s.modObk f).free = s.free := rfl

@[simp] theorem State.modMsq_pending (s : State) (f : Msq → Msq) : (s.modMsq f).pending = s.pending := rfl
@[simp] theorem State.modMsq_clk (s : State) (f : Msq → Msq) : (s.modMsq f).clk = s.clk := rfl
@[simp] theorem State.modMsq_slu (s : State) (f : Msq → Msq) : (s.modMsq f).slu = s.slu := rfl
@[simp] theorem State.modMsq_msq (s : State) (f : Msq → Msq) : (s.modMsq f).msq = f s.msq := rfl
@[simp] theorem State.modMsq_wins (s : State) (f : Msq → Msq) : (s.modMsq f).wins = s.wins := rfl
@[simp] theorem State.modMsq_parts (s : State) (f : Msq → Msq) : (s.modMsq f).parts = s.parts := rfl
@[simp] theorem State.modMsq_binds (s : State) (f : Msq → Msq) : (s.modMsq f).binds = s.binds := rfl
@[simp] theorem State.modMsq_aps (s : State) (f : Msq → Msq) : (s.modMsq f).aps = s.aps := rfl
@[simp] theorem State.modMsq_opr (s : State) (f : Msq → Msq) : (s.modMsq f).opr = s.opr := rfl
@[simp] theorem State.modMsq_obk (s : State) (f : Msq → Msq) : (s.modMsq f).obk = s.obk := rfl
@[simp] theorem State.modMsq_wmc (s : State) (f : Msq → Msq) : (s.modMsq f).wmc = s.wmc := rfl
@[simp] theorem State.modMsq_trk (s : State) (f : Msq → Msq) : (s.modMsq f).trk = s.trk := rfl
@[simp] theorem State.modMsq_olu (s : State) (f : Msq → Msq) : (s.modMsq f).olu = s.olu := rfl
@[simp] theorem State.modMsq_tdu (s : State) (f : Msq → Msq) : (s.modMsq f).tdu = s.tdu := rfl
@[simp] theorem State.modMsq_lcu (s : State) (f : Msq → Msq) : (s.modMsq f).lcu = s.lcu := rfl
@[simp] theorem State.modMsq_sn (s : State) (f : Msq → Msq) : (s.modMsq f).sn = s.sn := rfl
@[simp] theorem State.modMsq_ctm (s : State) (f : Msq → Msq) : (s.modMsq f).ctm = s.ctm := rfl
@[simp] theorem State.modMsq_fab (s : State) (f : Msq → Msq) : (s.modMsq f).fab = s.fab := rfl
@[simp] theorem State.modMsq_obs (s : State) (f : Msq → Msq) : (s.modMsq f).obs = s.obs := rfl
@[simp] theorem State.modMsq_cr (s : State) (f : Msq → Msq) : (s.modMsq f).cr = s.cr := rfl
@[simp] theorem State.modMsq_mem (s : State) (f : Msq → Msq) : (s.modMsq f).mem = s.mem := rfl
@[simp] theorem State.modMsq_mmBad (s : State) (f : Msq → Msq) : (s.modMsq f).mmBad = s.mmBad := rfl
@[simp] theorem State.modMsq_mmOut (s : State) (f : Msq → Msq) : (s.modMsq f).mmOut = s.mmOut := rfl
@[simp] theorem State.modMsq_free (s : State) (f : Msq → Msq) : (s.modMsq f).free = s.free := rfl

@[simp] theorem State.modObs_pending (s : State) (f : Obs → Obs) : (s.modObs f).pending = s.pending := rfl
@[simp] theorem State.modObs_clk (s : State) (f : Obs → Obs) : (s.modObs f).clk = s.clk := rfl
@[simp] theorem State.modObs_slu (s : State) (f : Obs → Obs) : (s.modObs f).slu = s.slu := rfl
@[simp] theorem State.modObs_msq (s : State) (f : Obs → Obs) : (s.modObs f).msq = s.msq := rfl
@[simp] theorem State.modObs_wins (s : State) (f : Obs → Obs) : (s.modObs f).wins = s.wins := rfl
@[simp] theorem State.modObs_parts (s : State) (f : Obs → Obs) : (s.modObs f).parts = s.parts := rfl
@[simp] theorem State.modObs_binds (s : State) (f : Obs → Obs) : (s.modObs f).binds = s.binds := rfl
@[simp] theorem State.modObs_aps (s : State) (f : Obs → Obs) : (s.modObs f).aps = s.aps := rfl
@[simp] theorem State.modObs_opr (s : State) (f : Obs → Obs) : (s.modObs f).opr = s.opr := rfl
@[simp] theorem State.modObs_obk (s : State) (f : Obs → Obs) : (s.modObs f).obk = s.obk := rfl
@[simp] theorem State.modObs_wmc (s : State) (f : Obs → Obs) : (s.modObs f).wmc = s.wmc := rfl
@[simp] theorem State.modObs_trk (s : State) (f : Obs → Obs) : (s.modObs f).trk = s.trk := rfl
@[simp] theorem State.modObs_olu (s : State) (f : Obs → Obs) : (s.modObs f).olu = s.olu := rfl
@[simp] theorem State.modObs_tdu (s : State) (f : Obs → Obs) : (s.modObs f).tdu = s.tdu := rfl
@[simp] theorem State.modObs_lcu (s : State) (f : Obs → Obs) : (s.modObs f).lcu = s.lcu := rfl
@[simp] theorem State.modObs_sn (s : State) (f : Obs → Obs) : (s.modObs f).sn = s.sn := rfl
@[simp] theorem State.modObs_ctm (s : State) (f : Obs → Obs) : (s.modObs f).ctm = s.ctm := rfl
@[simp] theorem State.modObs_fab (s : State) (f : Obs → Obs) : (s.modObs f).fab = s.fab := rfl
@[simp] theorem State.modObs_obs (s : State) (f : Obs → Obs) : (s.modObs f).obs = f s.obs := rfl
@[simp] theorem State.modObs_cr (s : State) (f : Obs → Obs) : (s.modObs f).cr = s.cr := rfl
@[simp] theorem State.modObs_mem (s : State) (f : Obs → Obs) : (s.modObs f).mem = s.mem := rfl
@[simp] theorem State.modObs_mmBad (s : State) (f : Obs → Obs) : (s.modObs f).mmBad = s.mmBad := rfl
@[simp] theorem State.modObs_mmOut (s : State) (f : Obs → Obs) : (s.modObs f).mmOut = s.mmOut := rfl
@[simp] theorem State.modObs_free (s : State) (f : Obs → Obs) : (s.modObs f).free = s.free := rfl

@[simp] theorem State.modFab_pending (s : State) (f : Fab → Fab) : (s.modFab f).pending = s.pending := rfl
@[simp] theorem State.modFab_clk (s : State) (f : Fab → Fab) : (s.modFab f).clk = s.clk := rfl
@[simp] theorem State.modFab_slu (s : State) (f : Fab → Fab) : (s.modFab f).slu = s.slu := rfl
@[simp] theorem State.modFab_msq (s : State) (f : Fab → Fab) : (s.modFab f).msq = s.msq := rfl
@[simp] theorem State.modFab_wins (s : State) (f : Fab → Fab) : (s.modFab f).wins = s.wins := rfl
@[simp] theorem State.modFab_parts (s : State) (f : Fab → Fab) : (s.modFab f).parts = s.parts := rfl
@[simp] theorem State.modFab_binds (s : State) (f : Fab → Fab) : (s.modFab f).binds = s.binds := rfl
@[simp] theorem State.modFab_aps (s : State) (f : Fab → Fab) : (s.modFab f).aps = s.aps := rfl
@[simp] theorem State.modFab_opr (s : State) (f : Fab → Fab) : (s.modFab f).opr = s.opr := rfl
@[simp] theorem State.modFab_obk (s : State) (f : Fab → Fab) : (s.modFab f).obk = s.obk := rfl
@[simp] theorem State.modFab_wmc (s : State) (f : Fab → Fab) : (s.modFab f).wmc = s.wmc := rfl
@[simp] theorem State.modFab_trk (s : State) (f : Fab → Fab) : (s.modFab f).trk = s.trk := rfl
@[simp] theorem State.modFab_olu (s : State) (f : Fab → Fab) : (s.modFab f).olu = s.olu := rfl
@[simp] theorem State.modFab_tdu (s : State) (f : Fab → Fab) : (s.modFab f).tdu = s.tdu := rfl
@[simp] theorem State.modFab_lcu (s : State) (f : Fab → Fab) : (s.modFab f).lcu = s.lcu := rfl
@[simp] theorem State.modFab_sn (s : State) (f : Fab → Fab) : (s.modFab f).sn = s.sn := rfl
@[simp] theorem State.modFab_ctm (s : State) (f : Fab → Fab) : (s.modFab f).ctm = s.ctm := rfl
@[simp] theorem State.modFab_fab (s : State) (f : Fab → Fab) : (s.modFab f).fab = f s.fab := rfl
@[simp] theorem State.modFab_obs (s : State) (f : Fab → Fab) : (s.modFab f).obs = s.obs := rfl
@[simp] theorem State.modFab_cr (s : State) (f : Fab → Fab) : (s.modFab f).cr = s.cr := rfl
@[simp] theorem State.modFab_mem (s : State) (f : Fab → Fab) : (s.modFab f).mem = s.mem := rfl
@[simp] theorem State.modFab_mmBad (s : State) (f : Fab → Fab) : (s.modFab f).mmBad = s.mmBad := rfl
@[simp] theorem State.modFab_mmOut (s : State) (f : Fab → Fab) : (s.modFab f).mmOut = s.mmOut := rfl
@[simp] theorem State.modFab_free (s : State) (f : Fab → Fab) : (s.modFab f).free = s.free := rfl

@[simp] theorem State.modSlu_pending (s : State) (f : Slu → Slu) : (s.modSlu f).pending = s.pending := rfl
@[simp] theorem State.modSlu_clk (s : State) (f : Slu → Slu) : (s.modSlu f).clk = s.clk := rfl
@[simp] theorem State.modSlu_slu (s : State) (f : Slu → Slu) : (s.modSlu f).slu = f s.slu := rfl
@[simp] theorem State.modSlu_msq (s : State) (f : Slu → Slu) : (s.modSlu f).msq = s.msq := rfl
@[simp] theorem State.modSlu_wins (s : State) (f : Slu → Slu) : (s.modSlu f).wins = s.wins := rfl
@[simp] theorem State.modSlu_parts (s : State) (f : Slu → Slu) : (s.modSlu f).parts = s.parts := rfl
@[simp] theorem State.modSlu_binds (s : State) (f : Slu → Slu) : (s.modSlu f).binds = s.binds := rfl
@[simp] theorem State.modSlu_aps (s : State) (f : Slu → Slu) : (s.modSlu f).aps = s.aps := rfl
@[simp] theorem State.modSlu_opr (s : State) (f : Slu → Slu) : (s.modSlu f).opr = s.opr := rfl
@[simp] theorem State.modSlu_obk (s : State) (f : Slu → Slu) : (s.modSlu f).obk = s.obk := rfl
@[simp] theorem State.modSlu_wmc (s : State) (f : Slu → Slu) : (s.modSlu f).wmc = s.wmc := rfl
@[simp] theorem State.modSlu_trk (s : State) (f : Slu → Slu) : (s.modSlu f).trk = s.trk := rfl
@[simp] theorem State.modSlu_olu (s : State) (f : Slu → Slu) : (s.modSlu f).olu = s.olu := rfl
@[simp] theorem State.modSlu_tdu (s : State) (f : Slu → Slu) : (s.modSlu f).tdu = s.tdu := rfl
@[simp] theorem State.modSlu_lcu (s : State) (f : Slu → Slu) : (s.modSlu f).lcu = s.lcu := rfl
@[simp] theorem State.modSlu_sn (s : State) (f : Slu → Slu) : (s.modSlu f).sn = s.sn := rfl
@[simp] theorem State.modSlu_ctm (s : State) (f : Slu → Slu) : (s.modSlu f).ctm = s.ctm := rfl
@[simp] theorem State.modSlu_fab (s : State) (f : Slu → Slu) : (s.modSlu f).fab = s.fab := rfl
@[simp] theorem State.modSlu_obs (s : State) (f : Slu → Slu) : (s.modSlu f).obs = s.obs := rfl
@[simp] theorem State.modSlu_cr (s : State) (f : Slu → Slu) : (s.modSlu f).cr = s.cr := rfl
@[simp] theorem State.modSlu_mem (s : State) (f : Slu → Slu) : (s.modSlu f).mem = s.mem := rfl
@[simp] theorem State.modSlu_mmBad (s : State) (f : Slu → Slu) : (s.modSlu f).mmBad = s.mmBad := rfl
@[simp] theorem State.modSlu_mmOut (s : State) (f : Slu → Slu) : (s.modSlu f).mmOut = s.mmOut := rfl
@[simp] theorem State.modSlu_free (s : State) (f : Slu → Slu) : (s.modSlu f).free = s.free := rfl

@[simp] theorem State.modClk_pending (s : State) (f : Clk → Clk) : (s.modClk f).pending = s.pending := rfl
@[simp] theorem State.modClk_clk (s : State) (f : Clk → Clk) : (s.modClk f).clk = f s.clk := rfl
@[simp] theorem State.modClk_slu (s : State) (f : Clk → Clk) : (s.modClk f).slu = s.slu := rfl
@[simp] theorem State.modClk_msq (s : State) (f : Clk → Clk) : (s.modClk f).msq = s.msq := rfl
@[simp] theorem State.modClk_wins (s : State) (f : Clk → Clk) : (s.modClk f).wins = s.wins := rfl
@[simp] theorem State.modClk_parts (s : State) (f : Clk → Clk) : (s.modClk f).parts = s.parts := rfl
@[simp] theorem State.modClk_binds (s : State) (f : Clk → Clk) : (s.modClk f).binds = s.binds := rfl
@[simp] theorem State.modClk_aps (s : State) (f : Clk → Clk) : (s.modClk f).aps = s.aps := rfl
@[simp] theorem State.modClk_opr (s : State) (f : Clk → Clk) : (s.modClk f).opr = s.opr := rfl
@[simp] theorem State.modClk_obk (s : State) (f : Clk → Clk) : (s.modClk f).obk = s.obk := rfl
@[simp] theorem State.modClk_wmc (s : State) (f : Clk → Clk) : (s.modClk f).wmc = s.wmc := rfl
@[simp] theorem State.modClk_trk (s : State) (f : Clk → Clk) : (s.modClk f).trk = s.trk := rfl
@[simp] theorem State.modClk_olu (s : State) (f : Clk → Clk) : (s.modClk f).olu = s.olu := rfl
@[simp] theorem State.modClk_tdu (s : State) (f : Clk → Clk) : (s.modClk f).tdu = s.tdu := rfl
@[simp] theorem State.modClk_lcu (s : State) (f : Clk → Clk) : (s.modClk f).lcu = s.lcu := rfl
@[simp] theorem State.modClk_sn (s : State) (f : Clk → Clk) : (s.modClk f).sn = s.sn := rfl
@[simp] theorem State.modClk_ctm (s : State) (f : Clk → Clk) : (s.modClk f).ctm = s.ctm := rfl
@[simp] theorem State.modClk_fab (s : State) (f : Clk → Clk) : (s.modClk f).fab = s.fab := rfl
@[simp] theorem State.modClk_obs (s : State) (f : Clk → Clk) : (s.modClk f).obs = s.obs := rfl
@[simp] theorem State.modClk_cr (s : State) (f : Clk → Clk) : (s.modClk f).cr = s.cr := rfl
@[simp] theorem State.modClk_mem (s : State) (f : Clk → Clk) : (s.modClk f).mem = s.mem := rfl
@[simp] theorem State.modClk_mmBad (s : State) (f : Clk → Clk) : (s.modClk f).mmBad = s.mmBad := rfl
@[simp] theorem State.modClk_mmOut (s : State) (f : Clk → Clk) : (s.modClk f).mmOut = s.mmOut := rfl
@[simp] theorem State.modClk_free (s : State) (f : Clk → Clk) : (s.modClk f).free = s.free := rfl

@[simp] theorem State.modHob_pending (s : State) (f : Hobble → Hobble) : (s.modHob f).pending = s.pending := rfl
@[simp] theorem State.modHob_clk (s : State) (f : Hobble → Hobble) : (s.modHob f).clk = s.clk := rfl
@[simp] theorem State.modHob_slu (s : State) (f : Hobble → Hobble) : (s.modHob f).slu = s.slu := rfl
@[simp] theorem State.modHob_msq (s : State) (f : Hobble → Hobble) : (s.modHob f).msq = s.msq := rfl
@[simp] theorem State.modHob_wins (s : State) (f : Hobble → Hobble) : (s.modHob f).wins = s.wins := rfl
@[simp] theorem State.modHob_parts (s : State) (f : Hobble → Hobble) : (s.modHob f).parts = s.parts := rfl
@[simp] theorem State.modHob_binds (s : State) (f : Hobble → Hobble) : (s.modHob f).binds = s.binds := rfl
@[simp] theorem State.modHob_aps (s : State) (f : Hobble → Hobble) : (s.modHob f).aps = s.aps := rfl
@[simp] theorem State.modHob_opr (s : State) (f : Hobble → Hobble) : (s.modHob f).opr = s.opr := rfl
@[simp] theorem State.modHob_obk (s : State) (f : Hobble → Hobble) : (s.modHob f).obk = s.obk := rfl
@[simp] theorem State.modHob_wmc (s : State) (f : Hobble → Hobble) : (s.modHob f).wmc = s.wmc := rfl
@[simp] theorem State.modHob_trk (s : State) (f : Hobble → Hobble) : (s.modHob f).trk = s.trk := rfl
@[simp] theorem State.modHob_olu (s : State) (f : Hobble → Hobble) : (s.modHob f).olu = s.olu := rfl
@[simp] theorem State.modHob_tdu (s : State) (f : Hobble → Hobble) : (s.modHob f).tdu = s.tdu := rfl
@[simp] theorem State.modHob_lcu (s : State) (f : Hobble → Hobble) : (s.modHob f).lcu = s.lcu := rfl
@[simp] theorem State.modHob_sn (s : State) (f : Hobble → Hobble) : (s.modHob f).sn = s.sn := rfl
@[simp] theorem State.modHob_ctm (s : State) (f : Hobble → Hobble) : (s.modHob f).ctm = s.ctm := rfl
@[simp] theorem State.modHob_fab (s : State) (f : Hobble → Hobble) : (s.modHob f).fab = s.fab := rfl
@[simp] theorem State.modHob_obs (s : State) (f : Hobble → Hobble) : (s.modHob f).obs = { s.obs with hobble := f s.obs.hobble } := rfl
@[simp] theorem State.modHob_cr (s : State) (f : Hobble → Hobble) : (s.modHob f).cr = s.cr := rfl
@[simp] theorem State.modHob_mem (s : State) (f : Hobble → Hobble) : (s.modHob f).mem = s.mem := rfl
@[simp] theorem State.modHob_mmBad (s : State) (f : Hobble → Hobble) : (s.modHob f).mmBad = s.mmBad := rfl
@[simp] theorem State.modHob_mmOut (s : State) (f : Hobble → Hobble) : (s.modHob f).mmOut = s.mmOut := rfl
@[simp] theorem State.modHob_free (s : State) (f : Hobble → Hobble) : (s.modHob f).free = s.free := rfl

@[simp] theorem State.modDisc_pending (s : State) (f : Disc → Disc) : (s.modDisc f).pending = s.pending := rfl
@[simp] theorem State.modDisc_clk (s : State) (f : Disc → Disc) : (s.modDisc f).clk = s.clk := rfl
@[simp] theorem State.modDisc_slu (s : State) (f : Disc → Disc) : (s.modDisc f).slu = s.slu := rfl
@[simp] theorem State.modDisc_msq (s : State) (f : Disc → Disc) : (s.modDisc f).msq = s.msq := rfl
@[simp] theorem State.modDisc_wins (s : State) (f : Disc → Disc) : (s.modDisc f).wins = s.wins := rfl
@[simp] theorem State.modDisc_parts (s : State) (f : Disc → Disc) : (s.modDisc f).parts = s.parts := rfl
@[simp] theorem State.modDisc_binds (s : State) (f : Disc → Disc) : (s.modDisc f).binds = s.binds := rfl
@[simp] theorem State.modDisc_aps (s : State) (f : Disc → Disc) : (s.modDisc f).aps = s.aps := rfl
@[simp] theorem State.modDisc_opr (s : State) (f : Disc → Disc) : (s.modDisc f).opr = s.opr := rfl
@[simp] theorem State.modDisc_obk (s : State) (f : Disc → Disc) : (s.modDisc f).obk = s.obk := rfl
@[simp] theorem State.modDisc_wmc (s : State) (f : Disc → Disc) : (s.modDisc f).wmc = s.wmc := rfl
@[simp] theorem State.modDisc_trk (s : State) (f : Disc → Disc) : (s.modDisc f).trk = s.trk := rfl
@[simp] theorem State.modDisc_olu (s : State) (f : Disc → Disc) : (s.modDisc f).olu = s.olu := rfl
@[simp] theorem State.modDisc_tdu (s : State) (f : Disc → Disc) : (s.modDisc f).tdu = s.tdu := rfl
@[simp] theorem State.modDisc_lcu (s : State) (f : Disc → Disc) : (s.modDisc f).lcu = s.lcu := rfl
@[simp] theorem State.modDisc_sn (s : State) (f : Disc → Disc) : (s.modDisc f).sn = s.sn := rfl
@[simp] theorem State.modDisc_ctm (s : State) (f : Disc → Disc) : (s.modDisc f).ctm = s.ctm := rfl
@[simp] theorem State.modDisc_fab (s : State) (f : Disc → Disc) : (s.modDisc f).fab = { s.fab with disc := f s.fab.disc } := rfl
@[simp] theorem State.modDisc_obs (s : State) (f : Disc → Disc) : (s.modDisc f).obs = s.obs := rfl
@[simp] theorem State.modDisc_cr (s : State) (f : Disc → Disc) : (s.modDisc f).cr = s.cr := rfl
@[simp] theorem State.modDisc_mem (s : State) (f : Disc → Disc) : (s.modDisc f).mem = s.mem := rfl
@[simp] theorem State.modDisc_mmBad (s : State) (f : Disc → Disc) : (s.modDisc f).mmBad = s.mmBad := rfl
@[simp] theorem State.modDisc_mmOut (s : State) (f : Disc → Disc) : (s.modDisc f).mmOut = s.mmOut := rfl
@[simp] theorem State.modDisc_free (s : State) (f : Disc → Disc) : (s.modDisc f).free = s.free := rfl

@[simp] theorem State.modCensus_pending (s : State) (f : Census → Census) : (s.modCensus f).pending = s.pending := rfl
@[simp] theorem State.modCensus_clk (s : State) (f : Census → Census) : (s.modCensus f).clk = s.clk := rfl
@[simp] theorem State.modCensus_slu (s : State) (f : Census → Census) : (s.modCensus f).slu = s.slu := rfl
@[simp] theorem State.modCensus_msq (s : State) (f : Census → Census) : (s.modCensus f).msq = s.msq := rfl
@[simp] theorem State.modCensus_wins (s : State) (f : Census → Census) : (s.modCensus f).wins = s.wins := rfl
@[simp] theorem State.modCensus_parts (s : State) (f : Census → Census) : (s.modCensus f).parts = s.parts := rfl
@[simp] theorem State.modCensus_binds (s : State) (f : Census → Census) : (s.modCensus f).binds = s.binds := rfl
@[simp] theorem State.modCensus_aps (s : State) (f : Census → Census) : (s.modCensus f).aps = s.aps := rfl
@[simp] theorem State.modCensus_opr (s : State) (f : Census → Census) : (s.modCensus f).opr = s.opr := rfl
@[simp] theorem State.modCensus_obk (s : State) (f : Census → Census) : (s.modCensus f).obk = s.obk := rfl
@[simp] theorem State.modCensus_wmc (s : State) (f : Census → Census) : (s.modCensus f).wmc = s.wmc := rfl
@[simp] theorem State.modCensus_trk (s : State) (f : Census → Census) : (s.modCensus f).trk = s.trk := rfl
@[simp] theorem State.modCensus_olu (s : State) (f : Census → Census) : (s.modCensus f).olu = s.olu := rfl
@[simp] theorem State.modCensus_tdu (s : State) (f : Census → Census) : (s.modCensus f).tdu = s.tdu := rfl
@[simp] theorem State.modCensus_lcu (s : State) (f : Census → Census) : (s.modCensus f).lcu = s.lcu := rfl
@[simp] theorem State.modCensus_sn (s : State) (f : Census → Census) : (s.modCensus f).sn = s.sn := rfl
@[simp] theorem State.modCensus_ctm (s : State) (f : Census → Census) : (s.modCensus f).ctm = s.ctm := rfl
@[simp] theorem State.modCensus_fab (s : State) (f : Census → Census) : (s.modCensus f).fab = { s.fab with census := f s.fab.census } := rfl
@[simp] theorem State.modCensus_obs (s : State) (f : Census → Census) : (s.modCensus f).obs = s.obs := rfl
@[simp] theorem State.modCensus_cr (s : State) (f : Census → Census) : (s.modCensus f).cr = s.cr := rfl
@[simp] theorem State.modCensus_mem (s : State) (f : Census → Census) : (s.modCensus f).mem = s.mem := rfl
@[simp] theorem State.modCensus_mmBad (s : State) (f : Census → Census) : (s.modCensus f).mmBad = s.mmBad := rfl
@[simp] theorem State.modCensus_mmOut (s : State) (f : Census → Census) : (s.modCensus f).mmOut = s.mmOut := rfl
@[simp] theorem State.modCensus_free (s : State) (f : Census → Census) : (s.modCensus f).free = s.free := rfl

end Sys2Proof.Machine
end

