-- ==== Sys2Proof/WellFormed.lean ====
section
/-! DEFINITION. The commands whose operands name something the engine has: physical banks 0 to 67 (R19), and the flit kinds of R200. -/

namespace Sys2Proof

/-- Banks are numbered 0 to 67 (R19). -/
def bankOk (b : Bank) : Bool := b.toNat < 68

/-- The physical macros. -/
def wipeUnitOk : WipeUnit → Bool
  | .bank b => bankOk b
  | .store _ _ => true

/-- Operands in range; every other operand of every command ranges over its whole type. -/
def Instr.wellFormed : Instr → Bool
  | .gatedBankRepower b => bankOk b
  | .correctionThreshold c => wipeUnitOk c.unit
  | .sramWipeDone us => us.all wipeUnitOk
  | _ => true

end Sys2Proof
end

