-- ==== Sys2Proof/Tests/Slice0.lean ====
section
/-! SUPPORT. Tests on fixed values: the checks of WellFormed, worked examples of the spec, and for every statement a state and operands that meet its hypotheses. -/

namespace Sys2Proof.Tests

open Sys2Proof Sys2Proof.Machine

-- One theorem after the other: each check of a closed fact takes a deep stack.
set_option Elab.async false

/-! ### Small states -/

/-- An engine that runs: NodeID 0x0103, 16 agent ports, two fabric ports, four sequencers, partition 5 active with AP5.0x21 bound to it and context 0x2A resident, TIME 5,000 ns. -/
def st0 : State :=
  { State.reset with
    clk := { Clk.reset with
      boot := .run, rootLock := true, divAligned := true, straps := 0xBC, time := BitVec.ofNat 96 (5000 * 2 ^ 32) }
    msq := { Msq.reset with seqs := (List.range 4).map fun n => (n, { Seq.reset with code := 1 }) }
    parts := [(5, { Part.reset with state := .active })]
    binds := [(0x521, { Bind.reset with valid := true, part := 5, maxPrio := 4, mgmtEn := true })]
    ctm := { Ctm.reset with dir := [(5 * 256 + 0x2A, { Ctx.reset with state := .resident, rowCount := 16384 })] }
    fab := { Fab.reset with nodeId := 0x0103, nodeValid := true } }

def key : OKey := ⟨5, 0x2A, 0x00A47⟩

/-- A request on the object of `key`. -/
def rq (aux : Byte) (pay : DWord) : Req := ⟨false, false, false, false, 0x2A, 0x0103, 0x00A47, aux, pay⟩

/-- A request without an object. -/
def rq0 (pay : DWord) : Req := ⟨false, false, false, false, 0, 0, 0, 0, pay⟩

/-- `st0` with an object at `key`. -/
def withObj (b : Body) : State := st0.setObj key ⟨newHdr 5, b⟩

/-- `PortReady` without an earlier `CAS` flit, `BindReady`, `HomeReady` and `OpReady`, as Booleans. -/
def portReadyB (p : PortNo) (a : LocalAgent) (s : State) : Bool :=
  decide (s.apReady p = true ∧ 0 < (s.ap p).reqCredits ∧ (∀ r ∈ (s.ap p).arst, r.agent ≠ a) ∧
    (s.ap p).ingress = [] ∧ s.obs.hobble.state = 0)

theorem portReadyOf {p a s} (h : portReadyB p a s = true) : PortReady p a s := by
  obtain ⟨h1, h2, h3, h4, h5⟩ := of_decide_eq_true h
  exact ⟨h1, h2, h3, h4, h5⟩

def bindReadyB (p : PortNo) (a : LocalAgent) (op : Op) (f : Req) (cont : Option Req) (s : State) : Bool :=
  decide ((s.bind (agentId p a)).valid = true ∧ s.draining (s.bind (agentId p a)).part = false ∧
    s.heldBehind p (s.bind (agentId p a)).part = false ∧ flitOk op f cont = true ∧
    (s.portPool p (s.bind (agentId p a)).part).isSome = true ∧ s.othersWait p = false ∧ s.opr.ops = [])

theorem bindReadyOf {p a op f c s} (h : bindReadyB p a op f c s = true) : BindReady p a op f c s := by
  obtain ⟨b1, b2, b3, b4, b5, bt, b6⟩ := of_decide_eq_true h
  exact ⟨b1, b2, b3, b4, b5, bt, by simp [b6], by simp [b6]⟩

def homeReadyB (e : OpEntry) (o : Obj) (s : State) : Bool :=
  decide (e.req.node = s.fab.nodeId ∧ (s.ctx e.part e.req.ctx).state = .resident ∧ (s.part e.part).starting = none ∧
      s.tieHeld (opKey e) = false ∧ s.moveHeld (opKey e) = false ∧ s.slotDark (opKey e) = false) &&
  decide (opKey e ∉ s.wmc.fetching ∧ s.needsFetch e.op (opKey e) = false ∧
      (∀ x ∈ s.wmc.spillWakes, x.w.key ≠ opKey e) ∧ s.bankAllowed e.part e.req.index = true) &&
  decide (rowOff e.req.index < (s.ctx e.part e.req.ctx).rowCount.toNat ∧ s.obj (opKey e) = some o ∧ o.hdr.part = e.part ∧
      s.entryRoom e.part = true ∧ (∀ m ∈ s.opr.merges, m.takes e s.now = false) ∧
      (entersHeld e = true → s.heldRoom e.part = true ∧ s.opr.ops = []))

theorem homeReadyOf {e o s} (h : homeReadyB e o s = true) : HomeReady e o s := by
  simp only [homeReadyB, Bool.and_eq_true, decide_eq_true_eq] at h
  obtain ⟨⟨⟨a1, a2, a3, a4, a5, a6⟩, b1, b2, b3, b4⟩, c1, c2, c3, c4, c5, c6⟩ := h
  exact ⟨a1, a2, a3, a4, a5, a6, b1, b2, b3, b4, c1, c2, c3, c4, c5, fun h => ⟨(c6 h).1, by simp [(c6 h).2]⟩⟩

def opReadyB (p : PortNo) (a : LocalAgent) (op : Op) (f : Req) (o : Obj) (s : State) : Bool :=
  portReadyB p a s && decide ((s.ap p).casFirst = none) && bindReadyB p a op f none s &&
    homeReadyB (entered p a op f none s) o s

theorem opReadyOf {p a op f o s} (h : opReadyB p a op f o s = true) : OpReady p a op f o s := by
  simp only [opReadyB, Bool.and_eq_true, decide_eq_true_eq] at h
  exact ⟨portReadyOf h.1.1.1, h.1.1.2, bindReadyOf h.1.2, homeReadyOf h.2⟩

/-- `OpReady` of the operation of AP5.0x21 on an object with this body. -/
def ready (op : Op) (f : Req) (b : Body) (s : State) : Bool := opReadyB 5 0x21 op f ⟨newHdr 5, b⟩ s

/-- The entry that the operation takes. -/
def ent (op : Op) (f : Req) (s : State) : OpEntry := entered 5 0x21 op f none s

/-- The state that a command leaves. -/
def after (c : Instr) (s : State) : State := match exec c s with
  | .next t => t
  | _ => s

/-- The last response queued on AP5. -/
def lastRsp (s : State) : Option (Byte × DWord) := ((s.ap 5).rsp.getLast?).map fun r => (r.status, r.payload)

/-! ### WellFormed -/

theorem test_wf_bank : (Instr.gatedBankRepower 67).wellFormed = true ∧ (Instr.gatedBankRepower 68).wellFormed = false := by
  decide

theorem test_wf_threshold : (Instr.correctionThreshold ⟨.bank 67, 1⟩).wellFormed = true ∧
    (Instr.correctionThreshold ⟨.bank 68, 1⟩).wellFormed = false ∧
    (Instr.correctionThreshold ⟨.store .waiter 3, 1⟩).wellFormed = true := by
  decide

theorem test_wf_wipe : (Instr.sramWipeDone [.bank 67, .store .waiter 3]).wellFormed = true ∧
    (Instr.sramWipeDone [.store .waiter 3, .bank 68]).wellFormed = false := by
  decide

/-! ### Semaphores, events, cells -/

def sem (c l : DWord) : Body := .semaphore ⟨c, l⟩

/-- R115: a `TAKE` of the whole limit is granted, one above it refused, one above the count parks. -/
theorem wit_SemaphoreTakes :
    ready .take (rq 0 9) (sem 9 9) (withObj (sem 9 9)) = true ∧
    ready .take (rq 0 10) (sem 9 9) (withObj (sem 9 9)) = true ∧
    ready .take (rq 0 9) (sem 8 9) (withObj (sem 8 9)) = true ∧
    ready .tryTake (rq 0 9) (sem 8 9) (withObj (sem 8 9)) = true ∧
    (withObj (sem 8 9)).agentWaits key 0x0103 0x521 = false ∧ (withObj (sem 8 9)).waitersOf key = [] ∧
    opKey (ent .take (rq 0 9) (withObj (sem 8 9))) = key := by decide +kernel

theorem test_take : lastRsp (after (.take 5 0x21 (rq 0 9)) (withObj (sem 9 9))) = some (0, 0) ∧
    lastRsp (after (.take 5 0x21 (rq 0 10)) (withObj (sem 9 9))) = some (0x0C, 0) ∧
    (after (.take 5 0x21 (rq 0 9)) (withObj (sem 8 9))).wmc.waiters.length = 1 := by decide +kernel

theorem test_tryTake : lastRsp (after (.tryTake 5 0x21 (rq 0 9)) (withObj (sem 8 9))) = some (0x01, 8) := by decide +kernel

/-- R116: a `GIVE` up to the limit fits, one above it does not. -/
theorem wit_SemaphoreGives :
    ready .give (rq 0 1) (sem 8 9) (withObj (sem 8 9)) = true ∧ ready .give (rq 0 2) (sem 8 9) (withObj (sem 8 9)) = true := by
  decide +kernel

theorem test_give : lastRsp (after (.give 5 0x21 (rq 0 1)) (withObj (sem 8 9))) = some (0, 9) ∧
    lastRsp (after (.give 5 0x21 (rq 0 2)) (withObj (sem 8 9))) = some (0x0C, 0) := by decide +kernel

def evt (b : Bool) : Body := .event ⟨b, 0, 0, 0⟩

theorem wit_Events :
    ready .signal (rq 0 0) (evt true) (withObj (evt true)) = true ∧
    ready .signal (rq 0 0) (evt false) (withObj (evt false)) = true ∧
    ready .wait (rq 0 0) (evt true) (withObj (evt true)) = true ∧
    ready .wait (rq 0 0) (evt false) (withObj (evt false)) = true ∧
    ready .wait (rq 1 0) (evt false) (withObj (evt false)) = true := by decide +kernel

/-- R118: the latch is set at the time of the signal, by its agent. -/
theorem test_signal : (after (.signal 5 0x21 (rq 0 0)) (withObj (evt false))).obj key =
    some ⟨newHdr 5, .event ⟨true, 0x521, 0x0103, 5000⟩⟩ := by decide +kernel

theorem test_wait : lastRsp (after (.wait 5 0x21 (rq 0 0)) (withObj (evt true))) = some (0, 0) ∧
    lastRsp (after (.wait 5 0x21 (rq 1 0)) (withObj (evt true))) = some (0x0B, 0) := by decide +kernel

def cell (v : DWord) : Body := .cell ⟨v, 0, 0⟩

/-- `st0` with a cell, the first flit of a `CAS` taken. -/
def casState (v : DWord) : State := (withObj (cell v)).modAp 5 fun p =>
  { p with casFirst := some ⟨0x21, 0x40, rq 0 7, none⟩, reqCredits := 63 }

theorem wit_Cells :
    ready .fetchAdd (rq 0 2) (cell (BitVec.allOnes 64)) (withObj (cell (BitVec.allOnes 64))) = true ∧
    ((casState 3).ap 5).casFirst = some ⟨0x21, 0x40, rq 0 7, none⟩ ∧ portReadyB 5 0x21 (casState 3) = true ∧
    bindReadyB 5 0x21 .cas (rq 0 7) (some (rq0 3)) (casState 3) = true ∧
    homeReadyB (entered 5 0x21 .cas (rq 0 7) (some (rq0 3)) (casState 3)) ⟨newHdr 5, cell 3⟩ (casState 3) = true := by
  decide +kernel

/-- R122: the sum wraps, and the old value is answered. -/
theorem test_fetchAdd : lastRsp (after (.fetchAdd 5 0x21 (rq 0 2)) (withObj (cell (BitVec.allOnes 64)))) =
      some (0, BitVec.allOnes 64) ∧
    ((after (.fetchAdd 5 0x21 (rq 0 2)) (withObj (cell (BitVec.allOnes 64)))).obj key).map (·.body) =
      some (.cell ⟨1, 0x521, 0x0103⟩) := by decide +kernel

/-- R57, R121: the expected value comes with the second flit. -/
theorem test_casCont :
    ((after (.casCont 5 0x21 (rq0 3)) (casState 3)).obj key).map (·.body) = some (.cell ⟨7, 0x521, 0x0103⟩) ∧
    ((after (.casCont 5 0x21 (rq0 4)) (casState 3)).obj key).map (·.body) = some (cell 3) := by decide +kernel

theorem test_cas : ((after (.cas 5 0x21 (rq 0 7)) (withObj (cell 3))).ap 5).reqCredits = 63 := by decide +kernel


/-! ### Reads -/

def bar (tgt cur : BitVec 16) (ep : BitVec 16) : Barrier := ⟨tgt, cur, 0, ep, 0, 0, false, false, false, false, false, 0, 0, 0⟩

def lck (held : Bool) (ag : AgentId) : Lock := ⟨held, 0, 0, 0, 2, 0x0103, ag, 0, 0x40, 0⟩

/-- R40: the value of a lock's read is its holder's. -/
def withRec (b : Barrier) (r : Record) : State := (withObj (.barrier b)).modWmc fun w => { w with records := [r] }

def grp (arr next : DWord) : Group := ⟨2, 3, 0, next, arr, 0x700000000⟩

theorem wit_ObjectReads :
    ready .readObj (rq 0 0) (cell 3) (withObj (cell 3)) = true ∧
    ready .claimRead (rq 0 0) (.lock (lck true 7)) (withObj (.lock (lck true 7))) = true ∧
    ready .readMissing (rq 0x3F 0) (.barrier (bar 2 0 0)) (withRec (bar 2 0 0) ⟨key, 3, 0, 0, 1⟩) = true ∧
    (withRec (bar 2 0 0) ⟨key, 3, 0, 0, 1⟩).record key = some ⟨key, 3, 0, 0, 1⟩ ∧
    ready .readMissing (rq 0 0) (.barrier (bar 2 0 0)) (withObj (.barrier (bar 2 0 0))) = true ∧
    ready .readMissing (rq 0 0) (.group (grp 0 0)) (withObj (.group (grp 0 0))) = true ∧
    ready .readMissing (rq 1 0) (.group (grp 0 0)) (withObj (.group (grp 0 0))) = true := by decide +kernel

theorem test_readObj : lastRsp (after (.readObj 5 0x21 (rq 0 0)) (withObj (cell 3))) = some (0, 3) := by decide +kernel

theorem test_readMissing : lastRsp (after (.readMissing 5 0x21 (rq 0 0)) (withObj (.group (grp 0x100000000 0)))) =
    some (0, 0x600000000) := by decide +kernel

/-! ### Locks -/

theorem wit_LockGrants :
    ready .lock (rq 0x40 0) (.lock (lck false 0)) (withObj (.lock (lck false 0))) = true ∧
    ready .tryLock (rq 0 0) (.lock (lck false 0)) (withObj (.lock (lck false 0))) = true ∧
    ready .claimId (rq 0 0) (.lock (lck false 0)) (withObj (.lock (lck false 0))) = true ∧
    (withObj (.lock (lck false 0))).agentWaits key 0x0103 0x521 = false := by decide +kernel

theorem wit_LockHeld :
    ready .claimId (rq 0 0) (.lock (lck true 7)) (withObj (.lock (lck true 7))) = true ∧
    ready .tryLock (rq 0 0) (.lock (lck true 7)) (withObj (.lock (lck true 7))) = true ∧
    ready .tryLock (rq 0 0) (.lock (lck true 0x521)) (withObj (.lock (lck true 0x521))) = true ∧
    ready .lock (rq 0x40 0) (.lock (lck true 7)) (withObj (.lock (lck true 7))) = true ∧
    (ent .lock (rq 0x40 0) (withObj (.lock (lck true 7)))).prio = 2 ∧
    ready .lock (rq 0x80 0) (.lock (lck true 7)) (withObj (.lock (lck true 7))) = true ∧
    (ent .lock (rq 0x80 0) (withObj (.lock (lck true 7)))).prio = 4 := by decide +kernel

/-- R126: the claim word names the holder. -/
theorem test_claimId : ((after (.claimId 5 0x21 (rq 0 0)) (withObj (.lock (lck false 0)))).obj key).map (·.body) =
    some (.lock ⟨true, 0, 0, 0, 0, 0x0103, 0x521, 0, 0x41, 0x8000000000103521⟩) := by decide +kernel

/-- `st0` with a lock and a fence entry that names AP5.0x21. -/
def fenced : State := (withObj (.lock (lck true 7))).modOlu fun o => { o with fences := [⟨key, 0x0103, 0x521⟩] }

def mine : Lock := { lck true 0x521 with effPrio := 0 }

theorem wit_Unlocks :
    ready .unlock (rq 0 0) (.lock mine) (withObj (.lock mine)) = true ∧ (withObj (.lock mine)).waitersOf key = [] ∧
    ready .unlock (rq 0 0) (.lock (lck true 7)) (withObj (.lock (lck true 7))) = true ∧
    ready .unlock (rq 0 0) (.lock (lck true 7)) fenced = true := by decide +kernel

/-- R136: told once. -/
theorem test_unlock : lastRsp (after (.unlock 5 0x21 (rq 0 0)) fenced) = some (0x0D, 0) ∧
    lastRsp (after (.unlock 5 0x21 (rq 0 0)) (after (.unlock 5 0x21 (rq 0 0)) fenced)) = some (0x0C, 0) := by decide +kernel

/-! ### Barriers -/

def member : BitVec 4096 := BitVec.ofNat 4096 (2 ^ 0x521)

/-- A roster of AP5.0x21 and AP0.0x00; `cur` and `next` have arrived. -/
def recd (cur next : BitVec 4096) : Record := ⟨key, member ||| 1, cur, next, 0⟩

def summing : Barrier := { bar 2 0 0 with fmt := 2, rop := 0, redEn := true }

theorem wit_Arrivals :
    ready .arrive (rq 0 0) (.barrier (bar 2 0 0)) (withRec (bar 2 0 0) (recd 0 0)) = true ∧
    ready .arriveWait (rq 0 0) (.barrier (bar 2 0 0)) (withRec (bar 2 0 0) (recd 0 0)) = true ∧
    ready .arriveReduce (rq (2 * 16) 5) (.barrier summing) (withRec summing (recd 0 0)) = true ∧
    reduceOk summing (rq (2 * 16) 5) = true ∧
    (withRec (bar 2 0 0) (recd 0 0)).record key = some (recd 0 0) ∧ (recd 0 0).roster.getLsbD 0x521 = true := by
  decide +kernel

/-- Early arrivals: those of a member that has arrived in the current epoch. -/
theorem wit_Arrivals_early :
    ready .arrive (rq 1 0) (.barrier (bar 2 1 0)) (withRec (bar 2 1 0) (recd member 0)) = true ∧
    ready .arriveWait (rq 1 0) (.barrier (bar 2 1 0)) (withRec (bar 2 1 0) (recd member 0)) = true ∧
    ready .arriveReduce (rq (2 * 16 + 1) 5) (.barrier summing) (withRec summing (recd member 0)) = true ∧
    reduceOk summing (rq (2 * 16 + 1) 5) = true ∧ (recd member 0).cur.getLsbD 0x521 = true := by decide +kernel

/-- R91: an early arrival is kept for the next epoch. -/
theorem test_arrive_early :
    ((after (.arriveReduce 5 0x21 (rq (2 * 16 + 1) 5)) (withRec summing (recd member 0))).obj key).map (·.body) =
      some (.barrier { summing with nextCount := 1 }) ∧
    lastRsp (after (.arriveReduce 5 0x21 (rq (2 * 16 + 1) 5)) (withRec summing (recd member 0))) = some (0, 1) := by
  decide +kernel

theorem wit_ArrivalsRefused :
    ready .arriveReduce (rq 0 5) (.barrier (bar 2 0 0)) (withObj (.barrier (bar 2 0 0))) = true ∧
    reduceOk (bar 2 0 0) (rq 0 5) = false ∧
    ready .arrive (rq 0 0) (.barrier (bar 2 0 0)) (withRec (bar 2 0 0) ⟨key, 1, 0, 0, 0⟩) = true ∧
    ready .arrive (rq 0 0) (.barrier (bar 2 1 0)) (withRec (bar 2 1 0) (recd member 0)) = true ∧
    ready .arrive (rq 1 0) (.barrier (bar 2 1 0)) (withRec (bar 2 1 0) (recd member member)) = true ∧
    ready .arrive (rq 1 0) (.barrier { bar 2 0 0 with nextCount := 1 }) (withObj (.barrier { bar 2 0 0 with nextCount := 1 })) = true ∧
    ready .arrive (rq 1 0) (.barrier (bar 2 0 0)) (withRec (bar 2 0 0) (recd 0 0)) = true := by decide +kernel

/-- Seven from the first of two members. -/
def partSum : Barrier := { summing with curCount := 1, acc := 7, accValid := true }

theorem wit_BarrierReleases :
    ready .arrive (rq 0 0) (.barrier (bar 2 1 0)) (withRec (bar 2 1 0) (recd 1 0)) = true ∧
    ready .arriveWait (rq 0 0) (.barrier (bar 2 1 0)) (withRec (bar 2 1 0) (recd 1 0)) = true ∧
    ready .arriveReduce (rq (2 * 16) 5) (.barrier partSum) (withRec partSum (recd 1 0)) = true ∧
    reduceOk partSum (rq (2 * 16) 5) = true ∧
    (withRec (bar 2 1 0) (recd 1 0)).treeOf key = none ∧ (withRec (bar 2 1 0) (recd 1 0)).watchOf key = none := by
  decide +kernel

/-- R106: the last contribution is in the result. -/
theorem test_arriveReduce_last :
    ((after (.arriveReduce 5 0x21 (rq (2 * 16) 5)) (withRec partSum (recd 1 0))).obj key).map (·.body) =
      some (.barrier { partSum with epoch := 1, curCount := 0, acc := 0, accValid := false, result := 12 }) := by decide +kernel

/-- R83: the last arrival begins the next epoch. -/
theorem test_arrive : ((after (.arrive 5 0x21 (rq 0 0)) (withRec (bar 2 1 0) (recd 1 0))).obj key).map (·.body) =
    some (.barrier { bar 2 0 1 with dlArmed := false }) := by decide +kernel

/-- R84: a second arrival in one epoch is refused. -/
theorem test_arrive_twice : lastRsp (after (.arrive 5 0x21 (rq 0 0)) (withRec (bar 3 1 0) (recd member 0))) =
    some (0x0C, 0) := by decide +kernel

theorem wit_WaitsAndGroups :
    ready .wait (rq 0 0) (.barrier (bar 2 0 0)) (withObj (.barrier (bar 2 0 0))) = true ∧
    ready .wait (rq 1 0) (.barrier (bar 2 0 0)) (withObj (.barrier (bar 2 0 0))) = true ∧
    ready .wait (rq 1 0) (.group (grp 0 0)) (withObj (.group (grp 0 0))) = true ∧
    (agentId 5 0x21).toNat % 64 = 33 ∧ (grp 0 0).enrolled.getLsbD 33 = true ∧
    ready .arrive (rq 0 0) (.group { grp 0 0 with enrolled := 1 }) (withObj (.group { grp 0 0 with enrolled := 1 })) = true ∧
    ready .arrive (rq 0 0) (.group (grp 0x200000000 0)) (withObj (.group (grp 0x200000000 0))) = true ∧
    ready .arrive (rq 0 0) (.group (grp 0 0)) (withObj (.group (grp 0 0))) = true ∧
    ready .arriveWait (rq 0 0) (.group (grp 0 0)) (withObj (.group (grp 0 0))) = true ∧
    ready .arriveWait (rq 1 0) (.group (grp 0 0)) (withObj (.group (grp 0 0))) = true ∧
    ready .arrive (rq 0 0) (.group (grp 0x100000000 0)) (withObj (.group (grp 0x100000000 0))) = true ∧
    ready .arriveWait (rq 0 0) (.group (grp 0x100000000 0)) (withObj (.group (grp 0x100000000 0))) = true ∧
    popcount (0x300000000 : DWord) = 2 ∧ (withObj (.group (grp 0x100000000 0))).watchOf key = none ∧
    ready .arrive (rq 1 0) (.group (grp 0x200000000 0)) (withObj (.group (grp 0x200000000 0))) = true ∧
    ready .arrive (rq 1 0) (.group (grp 0 0)) (withObj (.group (grp 0 0))) = true := by decide +kernel

/-- R95: the second of two begins the next epoch, and waits for nothing more. -/
theorem test_arriveWait_group : lastRsp (after (.arriveWait 5 0x21 (rq 0 0)) (withObj (.group (grp 0x100000000 0)))) =
      some (0, 0x300000000) ∧
    ((after (.arriveWait 5 0x21 (rq 0 0)) (withObj (.group (grp 0x100000000 0)))).obj key).map (·.body) =
      some (.group { grp 0 0 with epoch := 1 }) := by decide +kernel

/-- 64 deadlines of another barrier at one TIME. -/
def many (n : Nat) : State := (withRec (bar 2 0 0) (recd 0 0)).modTdu fun t =>
  { t with deadlines := (List.range n).map fun i => ⟨{ key with index := 0 }, BitVec.ofNat 16 i, 9000⟩ }

theorem wit_DeadlineArms :
    ready .deadlineArm (rq 0 9000) (.barrier (bar 2 0 0)) (withObj (.barrier (bar 2 0 0))) = true ∧
    ready .deadlineArm (rq 2 4000) (.barrier (bar 2 0 0)) (many 64) = true ∧
    ready .deadlineArm (rq 2 4000) (.barrier (bar 2 0 0)) (many 63) = true ∧ (many 64).now + 4000 = 9000 := by
  decide +kernel

/-- R97: 64 deadlines at one TIME are the most. -/
theorem test_deadlineArm : lastRsp (after (.deadlineArm 5 0x21 (rq 2 4000)) (many 64)) = some (0x0C, 0) ∧
    lastRsp (after (.deadlineArm 5 0x21 (rq 2 4000)) (many 63)) = some (0, 0) := by decide +kernel

/-- An agent of AP5 and one of AP6, and a barrier of three members. -/
def pair : State := (withObj (.barrier (bar 3 0 0))).setBind 0x621 { Bind.reset with valid := true, part := 5 }

theorem wit_Arrivals_merged :
    (ent .arrive (rq 0 0) pair).mergeable = true ∧ pair.frozen = false ∧ pair.opr.merges = [] ∧
    (after (.arrive 5 0x21 (rq 0 0)) pair).opr.merges.any (fun m => m.takes (entered 6 0x21 .arrive (rq 0 0) none pair) 5000) = true := by
  decide +kernel

/-- R17: two arrivals of one cycle are one bank operation, each with its own reply; a set comes in the order of the AgentIDs (R85). -/
theorem test_arrivals_merge :
    (after (.arrive 6 0x21 (rq 0 0)) (after (.arrive 5 0x21 (rq 0 0)) pair)).gctr 0 = 1 ∧
    (after (.arrive 6 0x21 (rq 0 0)) (after (.arrive 5 0x21 (rq 0 0)) pair)).gctr 7 = 1 ∧
    ((after (.arrive 6 0x21 (rq 0 0)) (after (.arrive 5 0x21 (rq 0 0)) pair)).ap 6).rsp.length = 1 ∧
    (after (.arrive 5 0x21 (rq 0 0)) (after (.arrive 6 0x21 (rq 0 0)) pair)).gctr 0 = 2 := by decide +kernel

/-! ### Rings and landing counters -/

/-- A ring of 4 KiB with grain 64: `rsv`, `cmt` and `head` as given. -/
def dsc (rsv cmt head : Word) (recs : List Rsv) : Desc :=
  ⟨key, 0x1000, 12, 0, false, head, cmt, rsv, 0, 0, 0, 0, 3, BitVec.ofNat 7 recs.length, recs, none⟩

def rsv0 : Rsv := ⟨3, 64, 64, 0x521, 0x0103, 0, false, false, false⟩

def rng : Body := .ring ⟨9, false⟩

def ringState (d : Desc) : State := (withObj rng).modTrk fun t => { t with descs := [(9, d)] }

theorem wit_Rings :
    ready .reserve (rq 0 64) rng (ringState (dsc 0 0 0 [])) = true ∧
    ready .reserve (rq 1 64) rng (ringState (dsc 4096 4096 0 [])) = true ∧
    ready .reserve (rq 0 64) rng (ringState (dsc 4096 4096 0 [])) = true ∧
    ready .commit (rq 0 ((0#2 ++ 3#6 ++ 64#24 ++ 64#32 : DWord))) rng (ringState (dsc 128 64 0 [rsv0])) = true ∧
    (dsc 128 64 0 [rsv0]).commitRec (0#2 ++ 3#6 ++ 64#24 ++ 64#32) = some rsv0 ∧
    ready .waitAvail (rq 0 64) rng (ringState (dsc 64 64 0 [])) = true ∧
    ready .waitAvail (rq 1 64) rng (ringState (dsc 0 0 0 [])) = true ∧
    (dsc 0 0 0 []).lenOk ((dsc 0 0 0 []).want 64) = true ∧
    ready .release (rq 0 64) rng (ringState (dsc 64 64 0 [])) = true ∧
    (ringState (dsc 0 0 0 [])).descOf key = some (9, dsc 0 0 0 []) ∧
    (ringState (dsc 0 0 0 [])).waitersOf key = [] := by decide +kernel

/-- R147: the whole ring can be reserved, one grain more not. -/
theorem test_reserve : lastRsp (after (.reserve 5 0x21 (rq 0 4096)) (ringState (dsc 0 0 0 []))) = some (0, 0x0300100000000000) ∧
    lastRsp (after (.reserve 5 0x21 (rq 0 4160)) (ringState (dsc 0 0 0 []))) = some (0x0C, 0) := by decide +kernel

theorem test_release : lastRsp (after (.release 5 0x21 (rq 0 64)) (ringState (dsc 64 64 0 []))) = some (0, 0) ∧
    lastRsp (after (.release 5 0x21 (rq 0 128)) (ringState (dsc 64 64 0 []))) = some (0x0C, 0) := by decide +kernel

def lnd (armed : Bool) (n : BitVec 48) : Landing := ⟨0x5A, false, armed, true, false, n, 0⟩

/-- `st0` with a landing counter whose tag is in the arming index. -/
def armedState (n : BitVec 48) : State :=
  ((withObj (.landing (lnd true n))).modPart 5 fun p => { p with secCount := 1 }).modLcu fun l =>
    { l with index := [⟨5, 0x5A, key, 0⟩] }

theorem wit_Landings :
    ready .landExpect (rq 0 1) (.landing (lnd false 0)) (withObj (.landing (lnd false 0))) = true ∧
    ready .landExpect (rq 0 0) (.landing (lnd false 0)) (withObj (.landing (lnd false 0))) = true ∧
    ready .landExpect (rq 0 1) (.landing (lnd true 1)) (armedState 1) = true ∧
    ready .signalAfterLanded (rq 0 0x01032A00001) (.landing (lnd true 1)) (armedState 1) = true ∧
    ready .signalAfterLanded (rq 0 0x01042A00001) (.landing (lnd true 1)) (armedState 1) = true := by decide +kernel

/-- R180: the section's count of armed counters follows. -/
theorem test_landExpect : ((after (.landExpect 5 0x21 (rq 0 0xC000)) (withObj (.landing (lnd false 0)))).part 5).secCount = 1 ∧
    ((after (.landExpect 5 0x21 (rq 0 0xC000)) (withObj (.landing (lnd false 0)))).obj key).map (·.body) =
      some (.landing (lnd true 0xC000)) := by decide +kernel

theorem test_signalAfterLanded :
    (after (.signalAfterLanded 5 0x21 (rq 0 0x01032A00001)) (armedState 1)).lcu.held.map (fun h => (h.target, h.posted)) =
      [(⟨5, 0x2A, 1⟩, false)] := by decide +kernel

/-! ### Agent ports -/

theorem wit_Answers :
    (ent .give (rq 0 1) (withObj (sem 8 9))).txid = none ∧ agentPort (ent .give (rq 0 1) (withObj (sem 8 9))).agent = 5 ∧
    ((withObj (sem 8 9)).ap 5).dropping 0x21 = false := by decide +kernel

def rsp0 (k : RKind) (n : Option Nat) : Rsp := ⟨k, 0, 0, 0, 0, 0, 0, 0, 0x21, 0, false, 0, n, some 5, true, none, [], (0, 0, 0)⟩

def fenceState : State := st0.modOpr fun o => { o with ops := [ent .fence (rq0 0) st0] }

/-- A reply of an earlier operation waits at the port. -/
def owing : State := fenceState.modAp 5 fun p => { p with rsp := [rsp0 .reply none] }

theorem wit_Fences :
    portReadyB 5 0x21 st0 = true ∧ bindReadyB 5 0x21 .fence (rq0 0) none st0 = true ∧
    bindReadyB 5 0x21 .setTag (rq0 0x00020003) none st0 = true ∧ bindReadyB 5 0x21 .sectionMark (rq0 5) none st0 = true ∧
    fenceState.opr.ops.find? (fun x => decide (x.agent = agentId 5 0x21) && x.txid.isNone) = some (ent .fence (rq0 0) st0) ∧
    (ent .fence (rq0 0) st0).st = .fence ∧ fenceState.replyQueued 0x521 = false ∧ owing.replyQueued 0x521 = true := by
  decide +kernel

/-- R69: not before the reply has left. -/
theorem test_fenceComplete : lastRsp (after (.fenceComplete 0x521) fenceState) = some (0, 0) ∧
    (after (.fenceComplete 0x521) owing).opr.ops.length = 1 := by decide +kernel

theorem test_setTag : ((after (.setTag 5 0x21 (rq0 0x00020003)) st0).bind 0x521).tag = 0x00020003 := by decide +kernel

def noCredit : State := st0.modAp 5 fun p => { p with reqCredits := 0 }

theorem wit_BindChecks :
    noCredit.apReady 5 = true ∧ (noCredit.ap 5).reqCredits = 0 ∧ portReadyB 5 0x22 st0 = true ∧
    (st0.bind (agentId 5 0x22)).valid = false ∧ (st0.bind (agentId 5 0x21)).valid = true ∧
    st0.draining 5 = false ∧ st0.heldBehind 5 5 = false ∧ flitOk .give { rq 0 1 with spare := true } none = false ∧
    opOf 0x22 = some .give ∧ opOf 0xEE = none := by decide +kernel

/-- R55: an agent bound nowhere. -/
theorem test_unbound : lastRsp (after (.give 5 0x22 (rq 0 1)) st0) = some (0x0A, 0) ∧
    (after (.give 5 0x22 (rq 0 1)) st0).gctr 41 = 1 := by decide +kernel

def rspState (run : Nat) (l : List Rsp) : State := st0.modAp 5 fun p => { p with rsp := l, wakeRun := run }

theorem wit_Responses :
    st0.apReady 5 = true ∧ pickRsp ((rspState 0 [rsp0 .reply (some 3)]).openRsps 5) = some (rsp0 .reply (some 3)) ∧
    (((rspState 0 [rsp0 .reply (some 3)]).modPart 5 fun x => { x with state := .loaded, starting := some 0 }).rspShut 5
      (rsp0 .reply (some 3))) = true ∧
    pickRsp ((rspState 0 [rsp0 .wake none, rsp0 .notice none]).ap 5) = some (rsp0 .notice none) ∧
    pickRsp ((rspState 2 [rsp0 .wake none, rsp0 .reply none]).ap 5) = some (rsp0 .wake none) ∧
    pickRsp ((rspState 3 [rsp0 .wake none, { rsp0 .reply none with agent := 0x22 }]).ap 5) = some { rsp0 .reply none with agent := 0x22 } := by decide +kernel

def waitingFlit : State := (st0.modOpr fun o => { o with rr := 5 }).modAp 5 fun p =>
  { p with ingress := [⟨0x21, 0x70, rq0 0, none⟩] }

theorem wit_EntryGrants :
    waitingFlit.running = true ∧ waitingFlit.obs.hobble.state = 0 ∧ (5 : PortNo).toNat = waitingFlit.opr.rr ∧
    (waitingFlit.ap 5).ingress = [⟨0x21, 0x70, rq0 0, none⟩] ∧ (waitingFlit.ap 5).hold = [] ∧ Op.code .fence = 0x70 ∧
    bindReadyB 5 0x21 .fence (rq0 0) none waitingFlit = true := by decide +kernel

def resets (l : List Arst) : State := st0.modAp 5 fun p => { p with arst := l }

def arst (a : LocalAgent) : Arst := ⟨a, false, true, false, []⟩

theorem wit_AgentResets :
    4 ≤ (((resets [arst 1, arst 2, arst 3, arst 4]).ap 5).arst.filter (!·.unbind)).length ∧
    (((resets [arst 1, arst 2, arst 3]).ap 5).arst.filter (!·.unbind)).length < 4 ∧
    ((resets [arst 0x21]).ap 5).arst = [arst 0x21] ∧ ((resets [arst 0x21]).bind (agentId 5 0x21)).valid = true ∧
    ((resets [arst 0x22]).bind (agentId 5 0x22)).valid = false ∧ (resets [arst 0x21]).opr.ops = [] := by decide +kernel

theorem test_agentReset :
    ((after (.agentResetProcess 5 0x21) (resets [arst 0x21])).ap 5).ack = some 0x21 := by decide +kernel

/-- The worked example of the register map: AP5.0x21, partition 5, `MAX_PRIO` 4 and `MGMT_EN`. -/
def bindWord : CrAcc := ⟨0x80010405, true, 0⟩

def unboundState : State := { st0 with binds := [] }

theorem wit_BindWrites :
    st0.running = true ∧ st0.slu.lc ≠ .retired ∧ (unboundState.bind 0x521).valid = false ∧ (unboundState.bind 0x521).busy = false ∧
    (unboundState.part 5).state ≠ .free ∧ unboundState.draining 5 = false ∧ unboundState.portConflict 0x521 5 = false ∧
    (st0.bind 0x521).part = (0x80010405#32).extractLsb' 0 6 ∧ st0.portConflict 0x521 5 = false ∧
    (st0.bind 0x521).part ≠ (0x80010404#32).extractLsb' 0 6 := by decide +kernel

theorem test_apBindWrite : (after (.apBindWrite 0x521 bindWord) unboundState).bind 0x521 = ⟨true, 5, 4, true, false, 0⟩ ∧
    ((after (.apBindWrite 0x521 bindWord) unboundState).bind 0x521).word = 0x80010405 := by decide +kernel

/-! ### Landing notices, held entries, the scheduler -/

/-- The `LN_DATA` example: partition 5, XFER_TAG 0x0023, 4,096 bytes. -/
theorem test_ln_fields : (0x14028C0000001000#64).extractLsb' 58 6 = 5#6 ∧
    (0x14028C0000001000#64).extractLsb' 0 32 = 4096#32 ∧ (0x14028C0000001000#64).extractLsb' 32 9 = 0#9 := by decide

def notice (n : Word) : DWord := 5#6 ++ 0x5A#16 ++ 0#10 ++ n

def decState (n : BitVec 48) (d : BitVec 32) : State := (armedState n).modLcu fun l => { l with decs := [⟨key, d, 0, 0x5A⟩] }

theorem wit_LandingNotices :
    (armedState 8).armOf ((notice 8).extractLsb' 58 6) ((notice 8).extractLsb' 42 16) = some ⟨5, 0x5A, key, 0⟩ ∧
    (notice 8).extractLsb' 32 9 = 0#9 ∧ (notice 8).setWidth 32 = 8#32 ∧
    ((armedState 8).ctx 5 0x2A).state = .resident ∧ (armedState 8).obj key = some ⟨newHdr 5, .landing (lnd true 8)⟩ ∧
    st0.armOf ((notice 8).extractLsb' 58 6) ((notice 8).extractLsb' 42 16) = none ∧
    (decState 8 7).nextDec = some ⟨key, 7, 0, 0x5A⟩ ∧ (decState 8 8).nextDec = some ⟨key, 8, 0, 0x5A⟩ ∧
    (decState 8 9).nextDec = some ⟨key, 9, 0, 0x5A⟩ := by decide +kernel

/-- R179, R184: at zero the counter disarms, above what remains it freezes. -/
theorem test_landingDecrement :
    ((after .landingDecrement (decState 8 8)).obj key).map (·.body) = some (.landing (lnd false 0)) ∧
    ((after .landingDecrement (decState 8 9)).obj key).map (·.body) = some (.landing { lnd true 8 with underflow := true }) := by
  decide +kernel

theorem test_landingNotice : (after (.landingNotice 0 (notice 8)) (armedState 8)).lcu.decs = [⟨key, 8, 0, 0x5A⟩] ∧
    (after (.landingNotice 0 (notice 8)) st0).gctr 36 = 1 := by decide +kernel

def heldAt (b : Body) (c : Bool) (v : DWord) : State := (withObj b).modLcu fun l =>
  { l with held := [⟨⟨5, 0x2A, 1⟩, key, 0x521, 0x0103, c, v, 0, true, false⟩] }

def handle : DWord := 0#2 ++ 3#6 ++ 64#24 ++ 64#32

theorem wit_HeldEntries :
    (heldAt (evt false) false 0).nextHeld false = some ⟨⟨5, 0x2A, 1⟩, key, 0x521, 0x0103, false, 0, 0, true, false⟩ ∧
    checkKey key (heldAt (evt false) false 0) = .ok ∧ (heldAt (sem 8 9) false 0).waitersOf key = [] ∧
    (heldAt (sem 8 9) false 0).nextHeld false = some ⟨⟨5, 0x2A, 1⟩, key, 0x521, 0x0103, false, 0, 0, true, false⟩ ∧
    checkKey ⟨5, 0x2A, 9⟩ st0 ≠ .ok ∧ checkKey key (heldAt rng true handle) = .ok ∧
    (heldAt rng true handle).nextHeld true = some ⟨⟨5, 0x2A, 1⟩, key, 0x521, 0x0103, true, handle, 0, true, false⟩ ∧
    ((ringState (dsc 128 64 0 [rsv0])).descOf key).map (fun d => d.2.commitRec handle) = some (some rsv0) := by decide +kernel

theorem test_heldSignal : ((after .heldSignalPerform (heldAt (sem 8 9) false 0)).obj key).map (·.body) = some (sem 9 9) := by
  decide +kernel

/-- The `DUMP_REQUEST` example of the spec, as a notice of three words. -/
def dump : Notice := ⟨[0x300E000600000011, 0x0000000401100305, 0x00002C0100000060], 0, true, true, some 0x0E, none⟩

def snState (n : Notice) : State := st0.modSn fun x => { x with queue := [n] }

def watch0 (hold : Bool) (ack : Option (BitVec 16)) (posted : Bool) : Watch := ⟨key, 0, 0, hold, ack, posted⟩

def watchState (b : Barrier) (w : Watch) : State :=
  (st0.setObj key ⟨{ newHdr 5 with watch := true }, .barrier b⟩).modObs fun o => { o with watches := [w] }

theorem wit_SchedulerPort :
    (snState dump).snNext = some dump ∧ (snState { dump with moved := 2 }).snNext = some { dump with moved := 2 } ∧
    st0.snNext = none ∧ (0x30050011#32).extractLsb' 24 8 = 0x30#8 ∧ (0x30050011#32).extractLsb' 16 6 = 5#6 ∧
    (watchState (bar 2 2 0) (watch0 true (some 0x11) false)).obs.watches = [watch0 true (some 0x11) false] := by decide +kernel

theorem test_snNotice : (after .snNoticePresent (snState { dump with moved := 2 })).sn.out = some (0x00002C0100000060, true) ∧
    (after .snNoticePresent (snState { dump with moved := 2 })).gctr 35 = 1 := by decide +kernel

theorem wit_WatchReleases :
    (watchState { bar 2 2 0 with hold := true } (watch0 true (some 0x11) true)).obs.watches.find? (fun x => x.posted &&
        !(watchState { bar 2 2 0 with hold := true } (watch0 true (some 0x11) true)).heldAt 5 x.key &&
        !(watchState { bar 2 2 0 with hold := true } (watch0 true (some 0x11) true)).spillHeld .arrive x.key) =
      some (watch0 true (some 0x11) true) ∧
    (watchState (bar 2 2 0) (watch0 true none true)).obs.watches.find? (fun x => x.posted &&
        !(watchState (bar 2 2 0) (watch0 true none true)).heldAt 5 x.key &&
        !(watchState (bar 2 2 0) (watch0 true none true)).spillHeld .arrive x.key) = some (watch0 true none true) ∧
    ((watchState (bar 2 2 0) (watch0 true none true)).obj key).isSome = true := by decide +kernel

/-- R378: the release held by a watch begins the next epoch. -/
theorem test_watchRelease :
    ((after .watchRelease (watchState { bar 2 2 0 with hold := true } (watch0 true (some 0x11) true))).obj key).map (·.body) =
      some (.barrier (bar 2 0 1)) := by decide +kernel

/-! ### Expiries, timeouts, spills -/

def dueAt (t : Nat) : State := (withRec (bar 2 1 0) (recd 1 0)).modTdu fun x => { x with deadlines := [⟨key, 0, t⟩] }

def leaseAt (t : Nat) : State := (withObj (.lock { lck true 0x521 with policy := 2, effPrio := 0 })).modTdu fun x =>
  { x with leases := [⟨key, 0x40, t⟩] }

def drained (b : State) (d : Due) : State := b.modOpr fun o => { o with expiring := [d] }

theorem wit_Expiries :
    (elapse 1 (dueAt 5000)).dueDeadlines = [⟨key, false, 0, 5000, 0⟩] ∧ (elapse 1 (leaseAt 5000)).dueLeases = [⟨key, true, 0x40, 5000, 0⟩] ∧
    (elapse 1 (drained (dueAt 5000) ⟨key, false, 0, 5000, 5001⟩)).opr.expiring.find?
        ((elapse 1 (drained (dueAt 5000) ⟨key, false, 0, 5000, 5001⟩)).canExpire false) =
      some ⟨key, false, 0, 5000, 5001⟩ ∧
    (elapse 1 (drained (leaseAt 5000) ⟨key, true, 0x40, 5000, 5001⟩)).opr.expiring.find?
        ((elapse 1 (drained (leaseAt 5000) ⟨key, true, 0x40, 5000, 5001⟩)).canExpire true) =
      some ⟨key, true, 0x40, 5000, 5001⟩ := by decide +kernel

/-- R97, R98: TIME must exceed the deadline; the release is partial and counts who is missing. -/
theorem test_deadline : (elapse 1 (dueAt 5001)).dueDeadlines = [] ∧
    ((after (.deadlineExpiry 1) (drained (dueAt 5000) ⟨key, false, 0, 5000, 5001⟩)).obj key).map (·.body) =
      some (.barrier { bar 2 0 1 with lastPartial := true, missCount := 1 }) := by decide +kernel

theorem test_lease : (after (.leaseExpiry 1) (drained (leaseAt 5000) ⟨key, true, 0x40, 5000, 5001⟩)).olu.fences =
    [⟨key, 0x0103, 0x521⟩] := by decide +kernel

def parkedW (lim : Option Nat) (sp : Bool) : Waiter := ⟨key, 0x0103, 0x521, false, .take, false, 2, 1, false, 0, lim, 4000, sp, false⟩

def parked (w : Waiter) : State := (st0.setObj key ⟨{ newHdr 5 with parked := true, wprio := 2 }, sem 0 9⟩).modWmc fun m =>
  { m with waiters := [w] }

theorem wit_WaitTimeouts :
    (parked (parkedW (some 5000) false)).wmc.waiters.find? (elapse 1 (parked (parkedW (some 5000) false))).canTimeOut =
      some (parkedW (some 5000) false) ∧ ((parked (parkedW (some 5000) false)).ap 5).dropping 0x21 = false := by decide +kernel

/-- R58: the limit must be exceeded. -/
theorem test_waitTimeout : lastRsp (after (.waitTimeout 1) (parked (parkedW (some 5000) false))) = some (0x03, 0) ∧
    lastRsp (after (.waitTimeout 1) (parked (parkedW (some 5001) false))) = none := by decide +kernel

theorem wit_MgmtPackets :
    portReadyB 5 0x21 st0 = true ∧ bindReadyB 5 0x21 .mgmt (rq0 0x1000) none st0 = true ∧ memErr st0 0 0x1000 64 = false ∧ (st0.part 5).reqid = 0 ∧ (st0.part 5).starting = none ∧
    st0.agentRoom 5 = true ∧ (st0.bind 0x521).mgmtEn = true ∧
    memErr { st0 with mmBad := [(0x1000, 64, some 0)] } 0 0x1000 64 = true ∧ memErr { st0 with mmBad := [(0x1000, 64, some 7)] } 0 0x1000 64 = false ∧
    bindReadyB 5 0x21 .mgmt (rq0 0x1000) none { st0 with binds := [(0x521, { Bind.reset with valid := true, part := 5 })] } = true := by
  decide +kernel

/-- A spilled waiter, its wake and the fetch of its object's entries pending. -/
def woken : State := (parked (parkedW none true)).modWmc fun m =>
  { m with fetching := [key], spillWakes := [⟨parkedW none true, .ok, 0, none, 0, (0, 0, 7)⟩] }

theorem wit_Spills :
    1024 ≤ st0.waiterFree ∧ st0.strictParts = [] ∧
    (st0.modSlu fun x => { x with storeFaults := (List.range 16).map fun n => (.waiter, n) }).waiterFree < 1024 ∧ tailOf [parkedW none false] = some (parkedW none false) ∧
    woken.wmc.fetching = [key] ∧ woken.nextSpillWake = some ⟨parkedW none true, .ok, 0, none, 0, (0, 0, 7)⟩ ∧
    woken.keyIn key = true ∧ (woken.modCtm fun c => { c with dir := [] }).keyIn key = false := by
  decide +kernel

/-! ### Command packets -/

/-- A packet of the supervisor window: opcode, partition and words 2 on. -/
def pk (op : BitVec 16) (p : PartId) (ws : List Word) : Cmd :=
  ⟨7, .win none 0, true, (op ++ 0x21#8 ++ 0#2 ++ p) :: 0 :: (ws ++ List.replicate (14 - ws.length) 0), .queued, 5000⟩

/-- `s` with this one packet waiting. -/
def cs (c : Cmd) (s : State) : State := s.modMsq fun m => { m with cmds := [c], nextId := 8 }

def cmdReadyB (code : Nat) (fmt : Cmd → List (Nat × Nat)) (c : Cmd) (q : Nat) (s : State) : Bool :=
  decide (s.cmd c.id = some c ∧ c.opcode.toNat = code ∧ s.canStart c = true ∧ s.runner c = some q ∧
    s.opAwl q c = none ∧ s.partRefuses c = none) &&
  (match mrowOf c.opcode with
    | some r => decide (firstOffence (c.reserved r ++ fmt c) = none)
    | none => true)

theorem cmdReadyOf {code fmt c q s} (h : cmdReadyB code fmt c q s = true) : CmdReady code fmt c q s := by
  simp only [cmdReadyB, Bool.and_eq_true, decide_eq_true_eq] at h
  obtain ⟨⟨h1, h2, h3, h4, h5, h6⟩, h7⟩ := h
  refine ⟨h1, h2, h3, h4, h5, h6, fun r hr => ?_⟩
  rw [hr] at h7; exact of_decide_eq_true h7

/-- The packet is ready in `s`, on the sequencer that runs it. -/
def cmdOk (fmt : Cmd → List (Nat × Nat)) (c : Cmd) (s : State) : Bool :=
  match (cs c s).runner c with
  | some q => cmdReadyB c.opcode.toNat fmt c q (cs c s)
  | none => false

/-- Words 0 and 1 on of the reply to the packet in the supervisor window: status and the rest. -/
def replyOf (i : Instr) (c : Cmd) (s : State) : Option (List Word) :=
  ((after i (cs c s)).win none).replies.head?.map (·.2)

theorem wit_ReadingCommands :
    cmdOk noFmt (pk 0x0000 0 [1, 2]) st0 = true ∧ cmdOk noFmt (pk 0x0105 5 [0x2A]) st0 = true ∧
    cmdOk noFmt (pk 0x0112 5 [0x2A, 0x00A47]) (withObj (cell 3)) = true ∧
    cmdOk noFmt (pk 0x0112 5 [0x2A, 0xFFFFF]) st0 = true ∧
    ((ringState (dsc 0 0 0 [])).descOf key).isSome = true ∧
    objCheck (pk 0x0112 5 [0x10000002A, 0x00A47]) anyType (ringState (dsc 0 0 0 [])) = none := by decide +kernel

theorem test_nop : (replyOf (.nop 7) (pk 0x0000 0 [1, 2]) st0).map (·.take 4) = some [0x00002100, 0, 1, 2] := by decide +kernel

theorem test_objRead : (replyOf (.objRead 7) (pk 0x0112 5 [0x2A, 0x00A48]) st0).map (·.take 2) = some [0x01122108, 0] := by
  decide +kernel

/-- A second context that is evicted, with its record. -/
def tack0 : TackRec := ⟨5, 0x2B, false, 1, 4000, 1, 0x0103, 0, 1, [], [], [], [], []⟩

/-- `st0` with a context of one row beside. -/
def small : State := st0.setCtx 5 0x2D { Ctx.reset with state := .resident, rowCount := 1 }

def evicted (st : CState) : State := (small.setCtx 5 0x2B { Ctx.reset with state := st, rowCount := 1, tackBlocks := 1 }).modCtm fun c =>
  { c with tack := [tack0], tackBase := 0x10000, tackSize := 4 }

theorem wit_ContextCommands :
    cmdOk noFmt (pk 0x0101 5 [0x2C, 0]) st0 = true ∧ cmdOk noFmt (pk 0x0101 5 [0x2C, 16384]) { st0 with ctm := Ctm.reset } = true ∧
    ({ st0 with ctm := Ctm.reset } : State).allocRows 16384 = some 0 ∧ st0.allocRows 1 = none ∧
    cmdOk noFmt (pk 0x0104 5 [0x2D]) small = true ∧ small.ctxHasTree 5 0x2D = false ∧
    cmdOk noFmt (pk 0x0102 5 [0x2D]) (evicted .evicted) = true ∧ ((evicted .evicted).ctxObjs 5 0x2D).any (fun o => holdsIn o.2) = false ∧
    ((evicted .evicted).allocTack ((evicted .evicted).tackNeed 5 0x2D)).isSome = true ∧
    (evicted .evicted).spillUsed + (evicted .evicted).ctxEntries 5 0x2D false ≤ (evicted .evicted).spillCap ∧
    cmdOk noFmt (pk 0x0103 5 [0x2B]) (evicted .evicted) = true ∧ ((evicted .evicted).tackRec 5 0x2B) = some tack0 := by
  decide +kernel

theorem test_ctxCreate : (replyOf (.ctxCreate 7) (pk 0x0101 5 [0x2C, 16384]) { st0 with ctm := Ctm.reset }).map (·.take 3) =
      some [0x01012100, 0, 0] ∧
    (replyOf (.ctxCreate 7) (pk 0x0101 5 [0x2C, 16385]) { st0 with ctm := Ctm.reset }).map (·.take 2) =
      some [0x0101210C, 3] := by decide +kernel

def evictCmd : Cmd := { pk 0x0102 5 [0x2B] with phase := .waiting }
def restoreCmd : Cmd := { pk 0x0103 5 [0x2B] with phase := .waiting }

/-- The drained context while every bank is gated. -/
def evictDark : State := (cs evictCmd (evicted .evicting)).modObk fun b => { b with gated := 0 - 1 }

theorem wit_Transitions :
    (cs evictCmd (evicted .evicting)).waitingOn 0x0102 5 0x2B = some evictCmd ∧ (cs evictCmd (evicted .evicting)).ctxBusy 5 0x2B = false ∧
    (cs evictCmd (evicted .evicting)).rowsHeld = false ∧
    (evictDark.waitingOn 0x0102 5 0x2B = some evictCmd ∧ evictDark.ctxBusy 5 0x2B = false ∧ evictDark.rowsHeld = true) ∧
    (cs restoreCmd (evicted .restoring)).waitingOn 0x0103 5 0x2B = some restoreCmd ∧
    (cs restoreCmd (evicted .restoring)).tackRec 5 0x2B = some tack0 := by decide +kernel

/-- R245: the context is `EVICTED` when it has drained. -/
theorem test_ctxEvictDrained :
    ((after (.ctxEvictDrained 5 0x2B) (cs evictCmd (evicted .evicting))).ctx 5 0x2B).state = .evicted := by decide +kernel

/-- The object word of a semaphore: count, limit and type in words 4 to 11. -/
def semWords : List Word := toWords 8 (Obj.word ⟨newHdr 0, sem 8 9⟩)

theorem wit_ObjectCommands :
    cmdOk createFmt (pk 0x0110 5 ([0x22A, 0x00A47] ++ semWords)) st0 = true ∧
    cmdOk createFmt (pk 0x0110 5 ([0x22A, 0x00A47] ++ semWords)) (withObj (cell 3)) = true ∧
    bodyOf ((pk 0x0110 5 ([0x22A, 0x00A47] ++ semWords)).val256 4) = some (sem 8 9) ∧ bodyOffences (sem 8 9) = [] ∧
    bodyOffences (sem 8 7) ≠ [] ∧ st0.slotDark key = false ∧
    cmdOk createFmt (pk 0x0110 5 ([0x52A, 0x00A47] ++ toWords 8 (Desc.word { dsc 0 0 0 [] with oldest := 0 }))) st0 = true ∧
    cmdOk noFmt (pk 0x0111 5 [0x2A, 0x00A47]) (withObj (cell 3)) = true ∧
    objCheck (pk 0x0111 5 [0x2A, 0x00A47]) anyType (withObj (cell 3)) = none := by decide +kernel

theorem test_objCreate : ((after (.objCreate 7) (cs (pk 0x0110 5 ([0x22A, 0x00A47] ++ semWords)) st0)).obj key) =
    some ⟨newHdr 5, sem 8 9⟩ := by decide +kernel

theorem test_objDestroy : (after (.objDestroy 7) (cs (pk 0x0111 5 [0x2A, 0x00A47]) (withObj (cell 3)))).obj key = none := by
  decide +kernel

/-- The evicted context, its record written, on its way back. -/
def returning : State := cs restoreCmd ((after (.ctxEvictDrained 5 0x2B) (cs evictCmd (evicted .evicting))).modCtx 5 0x2B
  fun x => { x with state := .restoring })

theorem wit_Transitions_restore :
    returning.waitingOn 0x0103 5 0x2B = some restoreCmd ∧ returning.restoreHeld = false ∧
    (returning.modObk fun b => { b with gated := 0 - 1 }).restoreHeld = true := by decide +kernel

/-- A record of no rows in host memory: its header alone, laid out by hand from R247 with its CRC-32C. -/
def headed : State := { returning with mem := [(0x10000, 0x31), (0x10001, 0x4B), (0x10002, 0x58), (0x10003, 0x54), (0x10004, 0x05), (0x10005, 0x2B), (0x10018, 0xA0), (0x10019, 0x0F), (0x10020, 0x01), (0x1003C, 0x88), (0x1003D, 0x96), (0x1003E, 0xD5), (0x1003F, 0xBA)] }

theorem wit_Transitions_record :
    headed.waitingOn 0x0103 5 0x2B = some restoreCmd ∧ headed.restoreHeld = false ∧
    ((headed.tackRec 5 0x2B).map fun r => (headed.tackGood r true, headed.tackGood r false)) = some (true, false) ∧
    ((headed.tackRec 5 0x2B).map fun r => (headed.tackRead r).1.rings.length + (headed.tackRead r).1.defer.length) = some 0 ∧
    (headed.modClk fun c => { c with incarnation := 77 }).tackGood tack0 true = false := by decide +kernel

/-- R250: the context is resident again; R249: a record that fails a check leaves it evicted. -/
theorem test_ctxRestoreRecordRead :
    ((after (.ctxRestoreRecordRead 5 0x2B true) headed).ctx 5 0x2B).state = .resident ∧
    ((after (.ctxRestoreRecordRead 5 0x2B false) headed).ctx 5 0x2B).state = .evicted := by decide +kernel

def quietB : Barrier := bar 1 0 0

/-- Host memory in which the roster at 0x1000 names AP5.0x21 alone. -/
def rosterState : State := memSetByte (withObj (.barrier quietB)) (0x1000 + 0x521 / 8) 2

def winDesc : Desc := { dsc 64 64 0 [] with win := some ⟨0x0107, 9, false, 0, 0, false⟩ }

theorem wit_TypedCommands :
    cmdOk rosterFmt (pk 0x0113 5 [0x2A, 0x00A47, 0x1000]) rosterState = true ∧
    objCheck (pk 0x0113 5 [0x2A, 0x00A47, 0x1000]) isBarrier rosterState = none ∧
    quietBarrier (newHdr 5) quietB = true ∧ popcount (bvOf 4096 (memBytes rosterState 0x1000 512)) = 1 ∧
    rosterState.localMembers key quietB = 1 ∧ rosterState.entriesRoom 5 128 = true ∧
    cmdOk noFmt (pk 0x0114 5 [0x2A, 0x00A47]) (withObj (.lock mine)) = true ∧
    objCheck (pk 0x0114 5 [0x2A, 0x00A47]) isLock (withObj (.lock mine)) = none := by decide +kernel

theorem wit_TypedCommands_rings :
    cmdOk noFmt (pk 0x0115 5 [0x2A, 0x00A47]) (ringState (dsc 64 64 0 [])) = true ∧
    objCheck (pk 0x0115 5 [0x2A, 0x00A47]) isRing (ringState (dsc 64 64 0 [])) = none ∧
    cmdOk windowFmt (pk 0x0116 5 [0x2A, 0x00A47, 0x0107, 9]) (ringState (dsc 64 64 0 [])) = true ∧
    cmdOk windowFmt (pk 0x0116 5 [0x2A, 0x00A47, 0x10107, 9]) (ringState (dsc 64 64 0 [])) = true ∧
    (ringState (dsc 64 64 0 [])).laneOk ⟨5, 0x2A, 9⟩ = false ∧
    cmdOk noFmt (pk 0x0117 5 [0x2A, 0x00A47]) (ringState winDesc) = true ∧
    (ringState winDesc).descOf key = some (9, winDesc) ∧ (ringState winDesc).entryRoom 5 = true ∧
    ((ringState winDesc).modSlu fun x => { x with storeFaults := (List.range 16).map fun n => (.waiter, n) }).entryRoom 5 = false := by decide +kernel

theorem test_lockForceRelease :
    (replyOf (.lockForceRelease 7) (pk 0x0114 5 [0x2A, 0x00A47]) (withObj (.lock mine))).map (·.take 4) =
      some [0x01142100, 0, 0x85210103, 0x40] := by decide +kernel

theorem test_ringReset : ((after (.ringReset 7) (cs (pk 0x0115 5 [0x2A, 0x00A47]) (ringState (dsc 128 64 0 [rsv0])))).descOf key).map
    (fun d => (d.2.head, d.2.cmt, d.2.rsv, d.2.oldest, d.2.span)) = some (128, 128, 128, 4, 0) := by decide +kernel

def stitchPk (w : Word) : Cmd := pk 0x0303 5 [w, 0x2A, 0x00A47, 0x0107, 0x01070107, 0x00090001]

def stitched : State := after (.treeStitch 7) (cs (stitchPk 4) (withObj (.barrier quietB)))

theorem wit_TreeAndWatchCommands :
    cmdOk noFmt (stitchPk 4) (withObj (.barrier quietB)) = true ∧ ((withObj (.barrier quietB)).tree 4).valid = false ∧
    (stitchPk 4).key = key ∧ popcount ((stitchPk 4).field 7 0 8 : Byte) ≤ quietB.target.toNat ∧
    (withObj (.barrier quietB)).membersOk (stitchPk 4) quietB = true ∧ (withObj (.barrier quietB)).bankAllowed 5 key.index = true ∧
    (withObj (.barrier quietB)).entriesRoom 5 2 = true ∧
    (withRec quietB (recd 0 0)).membersOk (stitchPk 4) quietB = false ∧ cmdOk noFmt (stitchPk 4) (withRec quietB (recd 0 0)) = true ∧
    cmdOk noFmt (stitchPk 0x1004) stitched = true ∧ (stitched.tree 4).node = key ∧
    cmdOk noFmt (pk 0x0404 5 [0x2A, 0x00A47, 0, 0x60, 1]) (withObj (.barrier quietB)) = true ∧
    objCheck (pk 0x0404 5 [0x2A, 0x00A47, 0, 0x60, 1]) isWatchable (withObj (.barrier quietB)) = none ∧
    epochNear (.barrier quietB) 0 = true ∧ (withObj (.barrier quietB)).holdable key ⟨newHdr 5, .barrier quietB⟩ = true ∧
    cmdOk noFmt (pk 0x0405 5 [0x2A, 0x00A47]) (watchState quietB (watch0 true (some 1) false)) = true := by decide +kernel

/-- R221: the epoch of the node becomes the tree's. -/
theorem test_treeStitch : (stitched.tree 4).valid = true ∧ (stitched.tree 4).parent = 0x0107 ∧
    (stitched.obj key).map (·.body) = some (.barrier { quietB with epoch := 9 }) := by decide +kernel

/-- R222: with the children, the roster's members are not `TARGET`. -/
theorem test_treeStitch_members : (replyOf (.treeStitch 7) (stitchPk 4) (withRec quietB (recd 0 0))).map (·.take 2) =
    some [0x0303210C, 7] := by decide +kernel

theorem test_watchClear :
    (after (.watchClear 7) (cs (pk 0x0405 5 [0x2A, 0x00A47]) (watchState quietB (watch0 true (some 1) false)))).obs.watches =
      [watch0 true (some 1) true] := by decide +kernel

/-! ### Partitions, sections, images -/

def create : Cmd := pk 0x0201 6 [0, 0, 0, 0, 0, 0, 0, 4]

def destroying : Cmd := { pk 0x0204 5 [] with phase := .waiting }

/-- `st0` with one context of one row. -/
def tiny : State := st0.modCtm fun c =>
  { c with dir := [(5 * 256 + 0x2D, { Ctx.reset with state := .resident, rowCount := 1 })] }

/-- `tiny` with a reset of its agent under way. -/
def busyTiny : State := tiny.modAp (agentPort 0x521) fun x => { x with arst := [⟨agentLocal 0x521, false, true, false, []⟩] }

/-- `st0` without a bound agent. -/
def lone : State := { small with binds := [], ctm := Ctm.reset }

theorem wit_PartitionsComeAndGo :
    cmdOk (State.partCreateFmt (cs create st0)) create st0 = true ∧ (st0.part 6).state = .free ∧ st0.strictParts = [] ∧
    cmdOk noFmt (pk 0x0204 5 []) tiny = true ∧ tiny.partHasTree 5 = false ∧
    (busyTiny.bind 0x521).valid = true ∧ (busyTiny.bind 0x521).part = 5 ∧
    ((busyTiny.ap (agentPort 0x521)).arst.any fun r => decide (r.agent = agentLocal 0x521)) = true ∧
    cmdOk noFmt (pk 0x0204 5 []) busyTiny = true ∧ busyTiny.partHasTree 5 = false ∧
    (∀ n : PortNo, (busyTiny.ap n).ingress = []) ∧
    (cs destroying lone).cmd 7 = some destroying ∧ (cs destroying lone).destroyReady destroying = true ∧
    (cs destroying tiny).destroyReady destroying = false ∧ (cs destroying tiny).acting = true := by decide +kernel

theorem test_partCreate : (after (.partCreate 7) (cs create st0)).part 6 =
    { Part.reset with state := .unloaded, tackQuota := 4 } := by decide +kernel

theorem test_partDestroy : (after (.partDestroy 7) (cs destroying lone)).part 5 = Part.reset := by decide +kernel

def pstate (p : PState) : State := st0.modPart 5 fun x => { x with state := p, secCount := 3, fenceSeq := 9 }

def starting : Cmd := { pk 0x0202 5 [] with phase := .startup }
def quiescing : Cmd := { pk 0x0203 5 [2] with phase := .waiting }

theorem wit_PartitionsStartAndStop :
    cmdOk noFmt (pk 0x0202 5 []) (pstate .quiesced) = true ∧ cmdOk noFmt (pk 0x0202 5 []) (pstate .unloaded) = true ∧
    cmdOk noFmt (pk 0x0202 5 []) st0 = true ∧ (cs starting (pstate .loaded)).startupOf 5 = some starting ∧
    (pstate .loaded).partBusy 5 = false ∧ (cs starting (pstate .loaded)).otherRunning starting = false ∧
    cmdOk noFmt (pk 0x0203 5 [2]) (pstate .quiesced) = true ∧ cmdOk noFmt (pk 0x0203 5 [2]) st0 = true ∧
    (cs quiescing (pstate .quiescing)).quiesceOf 5 = some quiescing ∧
    ((cs quiescing (pstate .quiescing)).msq.cmds.map (·.id)).Nodup := by decide +kernel

/-- The startup of partition 5 after the steps of `b`, in the order S4, S2, S3. -/
def stepped (b : Option (BitVec 3)) : State :=
  (cs starting (pstate .loaded)).modPart 5 fun x => { x with starting := b, startSeq := 0x27 }

theorem wit_PartitionsStartAndStop_steps :
    (stepped none).startupOf 5 = some starting ∧ (stepped none).partBusy 5 = false ∧
    (stepped none).otherRunning starting = false ∧ ((stepped none).part 5).starting = none ∧
    (stepped (some 0)).startupOf 5 = some starting ∧ stepCode 0x27 (stepsDone 0) = 3 ∧
    stepCode 0x27 (stepsDone 4) = 1 ∧ stepsDone 4 ≠ 2 ∧ stepCode 0x27 (stepsDone 5) = 2 ∧ stepsDone 5 = 2 := by
  decide +kernel

/-- R297: S1 wipes the section state. -/
theorem test_partitionStartup : (after (.partitionStartup 5) (stepped none)).part 5 =
    { Part.reset with state := .loaded, starting := some 0, startSeq := 0x27 } := by decide +kernel

/-- R297: the last step ends the startup, and the partition is active. -/
theorem test_partitionStartup_ends :
    ((after (.partitionStartup 5) (stepped (some 4))).part 5).starting = some 5 ∧
    ((after (.partitionStartup 5) (stepped (some 5))).part 5).starting = none ∧
    ((after (.partitionStartup 5) (stepped (some 5))).part 5).state = .active := by decide +kernel

/-- R298: 2 us after its start the command gives up. -/
theorem test_quiesceTimeout :
    (replyOf (.partQuiesceTimeout 5 2000) quiescing (pstate .quiescing)).map (·.take 1) = some [0x02032103] ∧
    replyOf (.partQuiesceTimeout 5 1999) quiescing (pstate .quiescing) = none := by decide +kernel

def begun (ph : Phase) : Cmd := { pk 0x0220 5 [0x11, 2] with phase := ph }

def section1 : State := st0.modPart 5 fun x => { x with sectionOpen := true, sectionNo := 0x11 }

/-- R194: the edge with `SEC_OPEN` = 0 is latched. -/
def edge0 : State := st0.modPart 5 fun x => { x with fenceLatch := true }

theorem wit_Sections :
    cmdOk noFmt (pk 0x0220 5 [0x11, 2]) st0 = true ∧ cmdOk noFmt (pk 0x0220 5 [0x11, 2]) section1 = true ∧
    st0.beginPending 5 = false ∧ (cs (begun .waiting) edge0).begunSection 5 = some (begun .waiting) ∧
    (cs (begun (.halted 1)) st0).begunSection 5 = none ∧ (cs (begun (.remote none)) st0).beginPending 5 = false ∧
    ((cs (begun .waiting) edge0).part 5).fenceLatch = true ∧ (st0.part 5).fenceLatch = false ∧ st0.sn.backlog = [] ∧
    st0.sn.mgmtCount < Config.snMgmt ∧ (cs (begun (.fenceAck 1)) st0).begunSection 5 = some (begun (.fenceAck 1)) ∧
    cmdOk noFmt (pk 0x0221 5 [0x11]) section1 = true ∧ cmdOk noFmt (pk 0x0221 5 [0x12]) section1 = true := by decide +kernel

/-- R195: the first fence carries 1; R348: its acknowledgement opens the section. -/
theorem test_kernelFence : ((after (.kernelFence 5) (cs (begun .waiting) edge0)).part 5).fenceSeq = 1 ∧
    ((after (.snAck 0x10050001) (cs (begun (.fenceAck 1)) st0)).part 5).sectionOpen = true := by decide +kernel

theorem test_sectionEnd : (replyOf (.sectionEnd 7) (pk 0x0221 5 [0x11]) section1).map (·.take 4) =
    some [0x02212100, 0, 5000, 0] := by decide +kernel

/-- `tiny`, its partition unloaded. -/
def bare : State := tiny.modPart 5 fun x => { x with state := .unloaded }

def imgSession : Load := ⟨List.replicate 320 0, [], [(1, 0x2D, 0, 1, 32)], [], 0, 0, [], [], [], []⟩

def loadingState (l : Load) : State := tiny.modPart 5 fun x => { x with state := .loading, load := some l }

theorem wit_Images :
    cmdOk imgBeginFmt (pk 0x0210 5 [0x1000, 0, 0]) bare = true ∧
    cmdOk imgBeginFmt (pk 0x0210 5 [0x1000, 0, 0]) tiny = true ∧ bare.loadRefused 5 = false ∧
    imgFormOk (memBytes st0 0x1000 0) 0 = false ∧
    cmdOk imgFrameFmt (pk 0x0211 5 [0, 0x1000, 0, 16]) (loadingState imgSession) = true ∧
    (loadingState imgSession).frameDark 5 (1, 0x2D, 0, 1, 32) = none ∧ 16 < entrySize 1 ∧
    cmdOk noFmt (pk 0x0212 5 []) (loadingState imgSession) = true ∧
    (commitCheck imgSession (loadingState imgSession)).isSome = true := by decide +kernel

theorem test_imageBegin : (replyOf (.imageBegin 7) (pk 0x0210 5 [0x1000, 0, 0]) bare).map (·.take 2) =
    some [0x0210210B, 0x80000001] := by decide +kernel

theorem test_imageFrame : ((after (.imageFrame 7) (cs (pk 0x0211 5 [0, 0x1000, 0, 16]) (loadingState imgSession))).part 5).load.map
    (fun l => (l.got, l.rest.length)) = some (16, 16) := by decide +kernel

/-! ### Firmware, awls -/

def acc (w : Word) : CrAcc := ⟨w, true, 0⟩

/-- `st0` with no sequencer running and the straps of a pushed image. -/
def pushState : State := { st0 with clk := { st0.clk with straps := 0xBD }, msq := Msq.reset }

/-- No sequencer runs, and the boot image cannot be read. -/
def off : State := { st0 with msq := Msq.reset, mmBad := [(0, 384, none)] }

theorem wit_FirmwareImages :
    cmdOk fwStageFmt (pk 0x0501 0 [0x1000, 0, 0]) st0 = true ∧ fwFormOk (memBytes st0 0x1000 0) 0 = false ∧
    st0.msq.fwApply = none ∧ cmdOk noFmt (pk 0x0503 0 []) st0 = true ∧ pushState.pushOpen = true ∧ st0.pushOpen = false ∧
    pushState.slu.pushEnd = false ∧ off.bootSrc = 0 ∧ off.slu.booted = false ∧ off.anyRunning = false ∧
    off.bootImage = none := by decide +kernel

/-- R288: the words land one after the other. -/
theorem test_fwPushData : (after (.fwPushData (acc 6)) (after (.fwPushData (acc 5)) pushState)).slu.fwMem = [(0, 5), (1, 6)] := by
  decide +kernel

theorem test_fwBootLoad : (after .fwBootLoad off).slu.svcCause = 0x08 ∧ (after .fwBootLoad off).slu.svc = 2 := by decide +kernel

/-- R284: a sequencer whose firmware memory is lost stays off. -/
theorem wit_FirmwareImages_lost : (st0.modSlu fun x => { x with storeFaults := [(.firmware, 2)] }).fwLost 2 = true ∧
    st0.fwLost 2 = false := by decide +kernel

def staged0 : Staged := ⟨0x1000, 0, 0, 0x00020001, 0, 0⟩

/-- A staged image that the memory master port cannot read any more, and an update of sequencer 1 under way. -/
def updating : State :=
  { (cs { pk 0x0502 0 [1] with phase := .waiting } st0).modSlu (fun x => { x with staged := some { staged0 with len := 512 } }) with
    mmBad := [(0x1000, 64, none)] }

def updating1 : State := updating.modMsq fun m => { m with fwApply := some ⟨7, [1], 0, none⟩ }

/-- `st0` with a staged image; the same with sequencer 1 alone. -/
def stagedSt : State := st0.modSlu fun x => { x with staged := some staged0 }

def lastSeq : State := stagedSt.modMsq fun m => { m with seqs := [(1, { Seq.reset with code := 1 })] }

theorem wit_FirmwareUpdates :
    cmdOk noFmt (pk 0x0502 0 [1]) stagedSt = true ∧
    cmdOk noFmt (pk 0x0502 0 [1]) st0 = true ∧ (cs (pk 0x0502 0 [1]) st0).applyRefused = true ∧
    (cs (pk 0x0502 0 [1]) stagedSt).applyRefused = false ∧ (cs (pk 0x0502 0 [1]) stagedSt).stopsLast (pk 0x0502 0 [1]) = false ∧
    cmdOk noFmt (pk 0x0502 0 [1]) lastSeq = true ∧ lastSeq.applyRefused = false ∧ lastSeq.stopsLast (pk 0x0502 0 [1]) = true ∧
    updating1.fwLost 1 = false ∧
    (∀ m, m < 4 → st0.onlyRunning m = false) ∧ updating1.msq.fwApply = some ⟨7, [1], 0, none⟩ ∧
    memErr updating1 updating1.slu.engineReqid 0x1000 512 = true ∧ (updating1.seq 1).code = 1 ∧
    ((updating1.modSeq 1 fun x => { x with code := 2 }).applyImage ⟨7, [1], 0, none⟩).isSome = true ∧ (updating1.cmd 7).isSome = true := by decide +kernel

/-- R291: an update that would stop the last sequencer is refused. -/
theorem test_fwApply_last : (replyOf (.fwApply 7) (pk 0x0502 0 [1]) lastSeq).map (·.take 1) = some [0x0502210C] := by decide +kernel

theorem test_fwApplySequencerLoad : (after .fwApplySequencerLoad updating1).seq 1 = { Seq.reset with code := 4 } := by decide +kernel

def awlState (l : List (BitVec 3 × Bool × Word)) : State := st0.modSeq 1 fun x => { x with awls := l }

/-- `AWL_HALT` of sequencer 1. -/
def halted : State := st0.modSeq 1 fun x => { x with code := 5, awl := 2, held := [5] }

def alone : State := ((awlState [(2, false, 0x40)]).modSeq 0 fun x => { x with code := 0 }).modSeq 2 fun x => { x with code := 0 }

theorem wit_Awls :
    cmdOk awlFmt (pk 0x0410 0 [0x09, 0x40]) st0 = true ∧ cmdOk noFmt (pk 0x0411 0 [0x09]) st0 = true ∧
    cmdOk noFmt (pk 0x0412 0 [1]) st0 = true ∧ cmdOk noFmt (pk 0x0412 0 [1]) halted = true ∧
    (awlState [(2, false, 0x40)]).seqRunning 1 = true ∧ (awlState [(2, false, 0x40)]).seqHalted 1 = false ∧
    (st0.modSeq 1 fun x => { x with dbgHalt := true }).seqHalted 1 = true ∧
    ((awlState [(2, false, 0x40)]).seq 1).awls.find? (fun a => !a.2.1 && decide (a.2.2 = 0x40)) = some (2, false, 0x40) ∧
    (alone.modSeq 3 fun x => { x with code := 0 }).onlyRunning 1 = true ∧ (awlState [(2, false, 0x40)]).onlyRunning 1 = false ∧
    (cs (pk 0x0000 1 []) (awlState [(2, true, 0)])).awlCmd 1 = some (pk 0x0000 1 [], 2) := by decide +kernel

theorem test_awlSet : ((after (.awlSet 7) (cs (pk 0x0410 0 [0x09, 0x40]) st0)).seq 1).awls = [(2, false, 0x40)] := by decide +kernel

/-- R359: the partitions that sequencer 1 owns drain. -/
theorem test_awlHit : ((after (.awlHit 1 0x40) (awlState [(2, false, 0x40)])).seq 1).code = 5 ∧
    ((after (.awlHit 1 0x40) (awlState [(2, false, 0x40)])).seq 1).held.any (· = 5) = true := by decide +kernel

/-! ### Banks and errors -/

def gatePk (w : Word) : Cmd := pk 0x0511 0 [w]

def gating : State := (cs { gatePk 3 with phase := .waiting } tiny).modObk fun o => { o with fenced := 8, gating := [(3, 7)] }

def dark : State := tiny.modObk fun o => { o with gated := 8, waking := 8 }

theorem wit_BankPower :
    cmdOk noFmt (gatePk 3) tiny = true ∧ tiny.bankBound 3 = false ∧ tiny.obk.retired.getLsbD 3 = false ∧ tiny.inRetire 3 = false ∧
    cmdOk noFmt (gatePk 67) tiny = true ∧ cmdOk noFmt (gatePk 68) tiny = true ∧ cmdOk noFmt (gatePk 0x144) tiny = true ∧
    cmdOk noFmt (gatePk 0x103) dark = true ∧ cmdOk noFmt (gatePk 0x103) tiny = true ∧
    gating.obk.gating.find? (fun g => !gating.bankBusy g.1.toNat) = some (3, 7) := by decide +kernel

theorem test_bankGate : (after .bankGateComplete gating).obk.gated.getLsbD 3 = true ∧
    (after .bankGateComplete gating).obk.fenced = 0 := by decide +kernel

theorem test_gatedBankRepower : (after (.gatedBankRepower 3) dark).obk.gated = 0 ∧ (after (.gatedBankRepower 3) dark).gctr 33 = 1 := by
  decide +kernel

/-- Logical bank 7 moves from bank 7 to bank 64; or it is there already. -/
def moving (done : Bool) : State := (cs { pk 0x0510 0 [7] with phase := .waiting } (withObj (cell 3))).modObk fun o =>
  { o with retire := some ⟨7, 7, some 64, some 7, [], false⟩, map := [(7, ⟨if done then 64 else 7, if done then .direct else .migrating, 0⟩)] }

theorem wit_BankRetirement :
    cmdOk noFmt (pk 0x0510 0 [67]) st0 = true ∧ cmdOk noFmt (pk 0x0510 0 [68]) st0 = true ∧ st0.lbankAt 67 = none ∧
    st0.lbankAt 7 = some 7 ∧ st0.freeSpare = some 64 ∧ (moving false).bankBusy 7 = false ∧
    ((moving false).mapEntry 7).mode = .migrating ∧ ((moving true).mapEntry 7).phys = 64 ∧ (moving true).obk.retireq = [] := by
  decide +kernel

/-- Bank 7 with 255 corrections, and the engine with 4,095, within the last second. -/
def corrected : State := (moving false).modSlu fun x =>
  { x with corr := [⟨.bank 7, 255, [(5000, 255)]⟩, ⟨.store .trace 0, 3840, [(5000, 3840)]⟩] }

theorem wit_BankRetirement_corrections :
    corrected.corrRate (some (.bank 7)) = 255 ∧ (addCorr (.bank 7) 1 corrected).corrRate (some (.bank 7)) = 256 ∧
    corrected.corrRate none = 4095 ∧ (addCorr (.bank 7) 1 corrected).corrRate none = 4096 ∧
    corrected.corrRate (some (.store .held 1)) = 0 ∧ (addCorr (.store .held 1) 256 corrected).corrRate (some (.store .held 1)) = 256 ∧
    (addCorr (.store .trace 0) 1 corrected).corrRate (some (.store .trace 0)) = 3841 ∧
    unitThere (.bank 67) = true ∧ unitThere (.bank 68) = false ∧ unitThere (.store .waiter 15) = true := by decide +kernel

/-- R351: each correction is counted; R336: the threshold raises `ADVISE`, cause 0x01. -/
theorem test_correctionThreshold :
    (after (.correctionThreshold ⟨.bank 3, 2⟩) tiny).gctr 27 = 2 ∧ (after (.correctionThreshold ⟨.bank 3, 2⟩) tiny).slu.svc = 0 ∧
    (after (.correctionThreshold ⟨.store .held 1, 256⟩) tiny).slu.svc = 1 ∧
    (after (.correctionThreshold ⟨.store .held 1, 256⟩) tiny).slu.svcCause = 1 := by decide +kernel

/-- A distribution of bank 7 with nothing to move. -/
def spreading : State := (cs { pk 0x0510 0 [7] with phase := .waiting } tiny).modObk fun o =>
  { o with retire := some ⟨7, 7, none, some 7, [], false⟩, spareRetired := 15 }

theorem wit_BankRetirement_distribution :
    (holdMoves spreading).busyOn (holdMoves spreading).moveHeld = false ∧
    (holdMoves spreading).leavingAbove (holdMoves spreading).lowerLimit = false ∧ spreading.obk.retireq = [] ∧
    (holdMoves spreading).rowsDark = false ∧ (spreading.cmd 7).isSome = true ∧
    (holdMoves (spreading.modObk fun o => { o with gated := 2 })).rowsDark = true ∧ (spreading.modObk fun o => { o with retire := none }).distMoves = some [] := by
  decide +kernel

/-- R343: the bank takes the next `DSLOT`. -/
theorem test_distributionComplete : ((after .distributionComplete spreading).mapEntry 7).mode = .distributed ∧
    ((after .distributionComplete spreading).mapEntry 7).dslot = 0 ∧
    (after .distributionComplete spreading).slu.svcCause = 0x04 := by decide +kernel

/-- R341: the rows are in the spare after the switch. -/
theorem test_bankMigrationSwitch : (after .bankMigrationSwitch (moving false)).obj key = some ⟨newHdr 5, cell 3⟩ ∧
    tget (after .bankMigrationSwitch (moving false)).obk.rows (7 * 16384 + 41) = none := by decide +kernel

theorem test_migrationComplete : (after .migrationComplete (moving true)).slu.otp.bankRepair = 0x80 ∧
    (after .migrationComplete (moving true)).slu.svcCause = 0x03 := by decide +kernel

/-- An evicted context whose record holds a cell. -/
def evictedObj : State := (evicted .evicted).modCtm fun c => { c with tack := [{ tack0 with objs := [(7, ⟨newHdr 5, cell 3⟩)] }] }

theorem wit_StoreErrors :
    (moving false).obj key = some ⟨newHdr 5, cell 3⟩ ∧ (BitVec.ofNat 7 ((moving false).place key).1 : Bank) = 7 ∧ st0.obj key = none ∧
    fenced.olu.fences[0]? = some ⟨key, 0x0103, 0x521⟩ ∧ fenced.slu.ueLast = [] ∧ siteStore (.fenceEntry 0) = some .waiter ∧
    unitThere (.store .waiter 2) = true ∧ (errEffect (.fenceEntry 0) fenced).isSome = true ∧
    (withObj (cell 3)).hasSlot key = true ∧ ((withObj (cell 3)).place key).1 < 68 ∧ (withObj (cell 3)).obk.retire = none ∧
    (moving false).hasSlot key = true ∧ (moving false).obk.retire.map (·.src) = some 7 ∧
    siteStore (.firmware 2) = some .firmware ∧ unitThere (.store .firmware (siteMacro (.firmware 2) 0)) = true ∧
    evictedObj.obj ⟨5, 0x2B, 7⟩ = none ∧ (evictedObj.objAny ⟨5, 0x2B, 7⟩).isSome = true ∧
    tiny.hasSlot key = false ∧ (errEffect (.fenceEntry 1) fenced).isNone = true := by decide +kernel

theorem test_uncorrectableError : (after (.uncorrectableError (.objectWord key none) 7) (moving false)).obj key = none ∧
    (after (.uncorrectableError (.objectWord key none) 7) (moving false)).gctr 28 = 1 := by decide +kernel

theorem test_clearAdvise : (after (.clearAdvise (acc 1)) (st0.modSlu fun x => { x with svc := 1 })).slu.svc = 0 ∧
    (after (.clearAdvise (acc 1)) (st0.modSlu fun x => { x with svc := 2 })).slu.svc = 2 := by decide +kernel

/-! ### Life-cycle, resets, trace -/

def debugState : State := st0.modSlu fun x => { x with lc := .debugUnlocked, dbgLatch := true }

def pendingLc : State := st0.modSlu fun x => { x with lcPending := some (.debugUnlocked, some (none, 3), 5001) }

theorem wit_LifeCycle :
    cmdOk lcFmt (pk 0x0520 0 [1, 0x1000, 0, 528]) st0 = true ∧ cmdOk lcFmt (pk 0x0520 0 [1, 0, 0, 0]) debugState = true ∧
    lcOf (((pk 0x0520 0 [1, 0x1000, 0, 528]).field 2 0 3 : BitVec 3)).toNat = some .provisioned ∧ memErr st0 (st0.cmdReqid (pk 0x0520 0 [1, 0x1000, 0, 528])) 0x1000 528 = false ∧
    lcOf 2 = some .debugUnlocked ∧ pendingLc.slu.lcPending = some (.debugUnlocked, some (none, 3), 5001) ∧ (elapse 1 pendingLc).now = 5001 := by
  decide +kernel

/-- R332: a record of another length fails the first check. -/
theorem test_lcAdvance : (replyOf (.lcAdvance 7) (pk 0x0520 0 [1, 0x1000, 0, 4]) st0).map (·.take 2) = some [0x0520210B, 1] := by
  decide +kernel

theorem test_lcTransitionReset : (after (.lcTransitionReset 1) pendingLc).slu.lc = .debugUnlocked ∧
    (after (.lcTransitionReset 1) pendingLc).clk.warmCount = 1 ∧ (after (.lcTransitionReset 0) pendingLc) = pendingLc := by decide +kernel

def wiping : State := { State.reset with clk := { Clk.reset with boot := .wipe, rootLock := true, straps := 0x40 } }

theorem wit_Resets :
    State.reset.clk.boot = .align ∧ wiping.clk.boot = .wipe ∧ wiping.slu.lc ≠ .retired ∧ st0.clk.boot ≠ .align ∧
    st0.obk.retire = none ∧ seqOk wiping.clk.instSeq = true ∧ seqOk 0 = false ∧
    (wiping.modSlu fun x => { x with lc := .retired }).slu.lc = .retired ∧ unitThere (.store .waiter 15) = true := by decide +kernel

/-- R319: an invalid strap field takes its substitute. -/
theorem test_coldReset : (after (.coldReset 0x0003) st0).clk.straps.extractLsb' 0 2 = 2#2 ∧
    (after (.coldReset 0x0003) st0).clk.straps.getLsbD 16 = true ∧ (after (.coldReset 0x1000) st0).clk.startupSeq = 0x36 := by
  decide +kernel

theorem test_warmReset : (after .warmReset st0).clk.straps = 0xBC ∧ (after .warmReset st0).clk.incarnation = 2 ∧
    (after .warmReset st0).binds = [] := by decide +kernel

theorem test_sramWipeDone : (after (.sramWipeDone []) wiping).clk.boot = .run ∧ ((after (.sramWipeDone []) wiping).fp 0).state = .down ∧
    ((after (.sramWipeDone []) wiping).fp 1).state = .off ∧
    (after (.sramWipeDone [.bank 3]) wiping).slu.otp.bankRepair = 8 := by decide +kernel

/-- R327: a macro of another store that fails the wipe leaves service; `SVC_REPLACE`. -/
theorem test_sramWipeDone_store :
    (after (.sramWipeDone [.store .held 1]) wiping).slu.storeFaults = [(.held, 1)] ∧
    (after (.sramWipeDone [.store .held 1]) wiping).slu.svc = 2 ∧
    (after (.sramWipeDone [.store .held 1]) wiping).cr.irqStatus.getLsbD 3 = true := by decide +kernel

/-- R344: in `RETIRED` no fuse is burnt; R327: a store that fails leaves service there too. -/
theorem test_sramWipeDone_retired :
    (after (.sramWipeDone [.bank 3]) (wiping.modSlu fun x => { x with lc := .retired })).slu.otp.bankRepair = 0 ∧
    (after (.sramWipeDone [.store .held 1]) (wiping.modSlu fun x => { x with lc := .retired })).slu.storeFaults = [(.held, 1)] := by
  decide +kernel

theorem wit_Resets_tap :
    (st0.modSlu fun x => { x with lc := .retired }).tapOk .extest = false ∧ st0.tapOk (.dbgSeq 1 .halt) = true ∧
    isDebug (scanInstr (.dbgReg 0 none)) = true ∧ isDebug (scanInstr .extest) = false ∧
    debugState.tapOk (.wrapper true) = false ∧ debugState.tapOk (.wrapper false) = true ∧
    (st0.modSlu fun x => { x with lc := .provisioned }).tapOk (.dbgReg 0 none) = false := by decide +kernel

/-- R387: what is not available selects `BYPASS`; `DBG_SEQ` stops a sequencer, `DBG_REG` reads `ID_VERSION`, `DBG_SRAM` a row. -/
theorem test_tap : (after (.tapInstruction (.dbgSeq 1 .halt)) st0).seqHalted 1 = true ∧
    (after (.tapInstruction (.dbgReg 0 none)) st0).slu.tapData = 0x00030100 ∧
    (after (.tapInstruction (.dbgSram (.bank 7 41) none)) (withObj (cell 3))).slu.tapData = Obj.word ⟨newHdr 5, cell 3⟩ ∧
    (after (.tapInstruction .extest) (st0.modSlu fun x => { x with lc := .retired })).slu.tap = .bypass := by decide +kernel

/-- R388: `IDCODE` shifts out its 32 bits. -/
theorem test_tap_idcode : (after (.tapInstruction .idcode) st0).slu.tapData = 0x30C179CB := by decide +kernel

/-- R388: the parts of `IDCODE`: version 3, bit 0 one. -/
theorem test_idcode : Config.idCode.extractLsb' 28 4 = 3#4 ∧ Config.idCode.getLsbD 0 = true := by decide

def traced (n : Nat) (ptr : Word) : State := modTrace (fun t =>
  { t with en := true, size := 4096, base := 0x2000, wptr := ptr, staging := List.replicate n (7#256, some 5) }) st0

theorem wit_TraceAndSnapshots :
    cmdOk noFmt (pk 0x0406 0 [1, 0x20, 0, 0x7FF]) st0 = true ∧ (traced 1 4064).obs.trace.staging = [(7#256, some 5)] ∧
    memErr (traced 1 4064) (traced 1 4064).slu.engineReqid (0x2000 + 4064) 32 = false ∧ cmdOk snapshotFmt (pk 0x0403 0 [0x3000, 0, 31, 0x20, 0]) tiny = true ∧
    cmdOk snapshotFmt (pk 0x0403 0 [0x3000, 0, 32, 0x20, 0]) tiny = true ∧ tiny.lostEntries .snapshot = 0 := by decide +kernel

/-- R355: the last record of the region fills it. -/
theorem test_traceWrite : (after .traceWrite (traced 1 4064)).obs.trace.full = true ∧
    (after .traceWrite (traced 1 4064)).mem = [(0x2000 + 4064, 7)] ∧
    (after .traceWrite (traced 1 4096)).obs.trace.dropped = 1 := by decide +kernel

theorem test_traceCtl : (after (.traceCtl 7) (cs (pk 0x0406 0 [1, 0x20, 0, 0x7FE]) st0)).obs.trace.classMask = 0x7FE := by decide +kernel

/-! ### The control register port -/

theorem wit_CommandWindows :
    st0.running = true ∧ st0.slu.lc ≠ .retired ∧ st0.anyRunning = true ∧ (st0.win (some 5)).slots.getLsbD 0 = false ∧
    ((pk 0 0 []).privOk none = true ∧ (pk 0 0 []).isRemote st0 = false ∧ (mrowOf 0).isSome = true) ∧
    st0.destroying (pk 0x0000 5 []) = false ∧ st0.freeNow (pk 0x0000 5 []) = false ∧ ((st0.modWin (some 5) fun w => { w with mask := 0x7FFF }).win (some 5)).mask = 0x7FFF ∧
    ((st0.modWin (some 5) fun w => { w with replies := [(3, [])], slots := 8 }).win (some 5)).replies = [(3, [])] ∧
    (pk 0 0 []).src = .win none 0 := by decide +kernel

/-- R267: the sixteenth word submits. -/
def staged15 : State := st0.modWin (some 5) fun w => { w with mask := 0x7FFF, words := [(0, 0x00000505)] }

theorem test_cmdSubmit : (after (.cmdSubmit (some 5) (acc 9)) staged15).msq.cmds.map (fun c => (c.src, c.word 0, c.word 15)) =
      [(.win (some 5) 0, 0x00000505, 9)] ∧
    ((after (.cmdSubmit (some 5) (acc 9)) staged15).win (some 5)).slots = 1 := by decide +kernel

theorem test_replyPop : ((after (.replyPop (some 5) (acc 0x80000000))
    (st0.modWin (some 5) fun w => { w with replies := [(3, [])], slots := 8 })).win (some 5)).slots = 0 := by decide +kernel

theorem wit_Registers :
    State.reset.clk.boot = .align ∧ st0.clk.boot = .run ∧ regionOf 0x20000 = .none ∧ regionOf 0x45000 = .window 5 ∧
    regionOf 0x3FFFC = .none ∧ regionOf 0x40000 = .window 0 ∧ regionOf 0x7FFFC = .window 63 ∧ groupOf 0x00000 = none ∧
    groupOf 0x45440 = some (0x45440, 2) ∧ groupOf 0x45444 = some (0x45440, 2) ∧ (st0.part 5).admitsReq 0x0A52 = false := by
  decide +kernel

theorem wit_Registers_log :
    st0.running = true ∧ State.reset.running = false ∧ st0.frozen = false ∧ (acc 1).priv = true := by decide +kernel

/-- Two reports in the log, one lost. -/
def logged : State := (report .uncorrectable .slu none 0 0 0 0 (report .fwRejected .slu none 0 0 0 0 st0)).modObs fun o =>
  { o with overflow := 1, sticky := true }

/-- `ERRLOG_POP`, `ERRLOG_CLEAR`: the oldest report goes; the whole log with its count and flag. -/
theorem test_errlog : (after (.errlogPop (acc 1)) logged).obs.rake = logged.obs.rake.drop 1 ∧
    (after (.errlogPop (acc 1)) logged).obs.overflow = 1 ∧ (after (.errlogClear (acc 1)) logged).obs.rake = [] ∧
    (after (.errlogClear (acc 1)) logged).obs.overflow = 0 ∧ (after (.errlogClear (acc 1)) logged).obs.sticky = false ∧
    (after (.errlogPop ⟨1, false, 0⟩) logged).cr.err = true ∧ (after (.errlogPop ⟨1, false, 0⟩) logged).cr.valid = true ∧
    (after (.multiwordRead 0 (acc 0)) State.reset).cr.valid = false := by decide +kernel

/-- The worked example of R408: partition 5's counter 8 holds 0x2_0000_01F4, and requester 0x0A52 reads both halves. -/
def countState : State := (st0.modObs fun o => { o with live := [(ctrKey 5 8, 0x2000001F4)] }).modPart 5 fun p =>
  { p with reqid := 0x0A50, reqIgnore := 2, reqValid := true }

theorem test_multiwordRead :
    (after (.multiwordRead 0x45440 ⟨0, false, 0x0A52⟩) countState).cr.rdata = 0x1F4 ∧
    (after (.multiwordRead 0x45444 ⟨0, false, 0x0A52⟩) (after (.multiwordRead 0x45440 ⟨0, false, 0x0A52⟩) countState)).cr.rdata = 2 ∧
    (after (.multiwordRead 0x45440 ⟨0, false, 0x0B00⟩) countState).cr.err = true := by decide +kernel

/-- The worked example of `PART_REQID[5]`. -/
theorem test_registerWrite : (after (.registerWrite 0x0C114 (acc 0x80020A50)) st0).part 5 =
    { Part.reset with state := .active, reqid := 0x0A50, reqIgnore := 2, reqValid := true } := by decide +kernel

/-! ### The fabric -/

/-- `st0` with port 0 in `UP` to instance 0x0107, port 1 `DOWN`. -/
def linked : State := st0.modFab fun f =>
  { f with
    ports := [(0, { FPort.reset with
      state := .up, linkUp := true, farNode := 0x0107, farValid := true, credits := fullCredits })]
    groupRt := [(1, ⟨0, true, 0, false, 1⟩)], memberRt := [(7, ⟨0, true, 0, false, 1⟩)] }

/-- A flit from 0x0107 with its CRC, to `dst`. -/
def rx (kind : BitVec 4) (dst : NodeId) (hop : BitVec 6) (lseq : BitVec 12) (b : BitVec 144) : Rx :=
  let h : Hdr := ⟨false, 0, dst, 0x0107, 0, lseq, 0xFFF, 0, 0, hop, 0, 0⟩
  ⟨0, { h with crc := flitCrc kind h b }, b, false⟩

def mg (b : BitVec 144) : Rx := rx 8 0x0103 63 0 b

def rxFarB (kind : BitVec 4) (r : Rx) (s : State) : Bool :=
  decide (s.fpLive r.port = true ∧ s.rxTakes kind r = true ∧ s.linkError kind r = false ∧ flitBad kind r = false)

theorem rxFarOf {k r s} (h : rxFarB k r s = true) : RxFar k r s := by
  obtain ⟨h1, h2, h3, h4⟩ := of_decide_eq_true h
  exact ⟨h1, h2, h3, h4⟩

theorem rxReadyOf {k r s} (h : rxFarB k r s = true) (h0 : s.obs.hobble.state = 0) : RxReady k r s := by
  obtain ⟨h1, h2, h3, h4⟩ := of_decide_eq_true h
  exact ⟨h1, h2, h3, h4, h0⟩

def fabReadyB (r : Rx) (op : Op) (p : PartId) (pool : Pool) (e : OpEntry) (s : State) : Bool :=
  rxFarB 0 r s && decide (s.obs.hobble.state = 0 ∧ s.forHere r = true ∧ (s.fp r.port).opWaits = false) &&
    decide (s.fabricPool p = some pool ∧ s.opr.ops = [] ∧ (s.part p).starting = none) &&
    (match admitOp (opOfBody r.body s.fab.nodeId) r.hdr.src s with
      | .part p' op' => decide (p' = p ∧ op' = op)
      | _ => false) &&
    decide (e = { fabEntry (opOfBody r.body s.fab.nodeId) op r.hdr.src p 0 pool s with
      xlat := if op.fabricOnly = true ∧ (s.ctx p (opOfBody r.body s.fab.nodeId).req.ctx).state ≠ .resident then none
        else some .ok } ∧ s.homeHeld e = false ∧ s.entryRoom p = true)

theorem fabReadyOf {r op p pool e s} (h : fabReadyB r op p pool e s = true) : FabReady r op p pool e s := by
  simp only [fabReadyB, Bool.and_eq_true, decide_eq_true_eq] at h
  obtain ⟨⟨⟨⟨h1, h2, h3, h4⟩, h6, h7, h7'⟩, h5⟩, h8, h9, h10⟩ := h
  refine ⟨rxReadyOf h1 h2, h3, h4, ?_, h6, by simp [h7], by simp [h7], h7', h8, h9, h10⟩
  split at h5
  · rename_i h; rw [h]; simp_all
  · cases h5

def hob (n : BitVec 2) (f : Hobble → Hobble) (s : State) : State := s.modObs fun o =>
  { o with hobble := f { o.hobble with state := n } }

def hobPk : Cmd := pk 0x0401 0 [0x3000, 0, 0x1000]

/-- The cut has come, region of 4 KiB at 0x3000; port 0's marker is awaited. -/
def cut (n : BitVec 2) : State := hob n (fun h => { h with awaiting := [0, 1], regBase := 0x3000, regSize := 0x1000 }) linked

/-- The initiator awaits the other instance. -/
def initiator (reached : List NodeId) : State := (hob 3 (fun h => { h with
  init := 0x0103, initiator := true, reached, resumed := reached, cmd := some 7, ucmd := some 7, cutAt := 5000, resumeAt := 5000 }) linked).modFab
  fun f => { f with census := { f.census with expect := 2 } }

theorem wit_Hobbles :
    cmdOk hobbleFmt hobPk linked = true ∧ cmdOk hobbleFmt hobPk (hob 3 id linked) = true ∧ memErr linked (linked.cmdReqid hobPk) 0x3000 0x1000 = false ∧
    memErr { linked with mmBad := [(0x3000, 16, none)] } (linked.cmdReqid hobPk) 0x3000 0x1000 = true ∧
    (cut 1).drained = true ∧ (hob 1 id linked).drained = true ∧
    rxFarB 8 (mg (hobbleBody 1 0x0107 4 false 0)) linked = true ∧ rxFarB 8 (mg (hobbleBody 2 0x0103 0 false 0)) (initiator []) = true ∧
    rxFarB 8 (mg (hobbleBody 3 0x0107 5 false 0)) (hob 3 id linked) = true ∧
    rxFarB 8 (mg (hobbleBody 4 0x0103 0 false 0)) (initiator []) = true ∧
    (linked.part 5).load = none ∧ ((cut 2).fp 0).marked = false ∧
    rxFarB 2 (rx 2 0x0103 63 0 (cplBody 0x60 0 1 false 0 0)) (cut 2) = true ∧
    (cut 2).forHere (rx 2 0x0103 63 0 (cplBody 0x60 0 1 false 0 0)) = true ∧ memErr (cut 2) (cut 2).slu.engineReqid 0x3040 64 = false ∧
    (initiator [0x0103]).fabSize = 2 ∧ ((cs hobPk (initiator [0x0103])).cmd 7) = some hobPk ∧
    cmdOk noFmt (pk 0x0402 0 []) (hob 3 id linked) = true ∧ cmdOk noFmt (pk 0x0402 0 []) linked = true := by decide +kernel

/-- R363: the first marker cuts here; port 1 is down. -/
theorem test_hobbleMarker : (after (.hobbleMarker (mg (hobbleBody 1 0x0107 4 false 0))) linked).obs.hobble.state = 1 ∧
    (after (.hobbleMarker (mg (hobbleBody 1 0x0107 4 false 0))) linked).obs.hobble.cutAt = 5000 := by decide +kernel

/-- The last instance's report ends the command. -/
theorem test_hobbleDone : (replyOf (.hobbleDone (mg (hobbleBody 2 0x0103 0 false 0))) { hobPk with phase := .waiting }
    (initiator [0x0103])).map (·.take 3) = some [0x04012100, 0, 2] := by decide +kernel

/-- Hobbled, with one flit of port 0 recorded in the region. -/
def recorded : State :=
  hob 3 (fun h => { h with regBase := 0x3000, regSize := 0x1000 })
    (after (.cpl (rx 2 0x0103 63 0 (cplBody 0x60 0 1 false 0 0))) (cut 2))

/-- R371: the record is read back from the region as it came. -/
theorem test_readRecord : recorded.readRecord 0 = some (2, rx 2 0x0103 63 0 (cplBody 0x60 0 1 false 0 0), false) ∧
    memErr recorded recorded.slu.engineReqid (0x3000 + recorded.recordBase) 64 = false ∧
    ((recorded.fp 0).chan, (recorded.fp 0).rxHeld, recorded.obs.hobble.captured) = ([0], [], []) := by decide +kernel

def helloRx (m : HelloMsg) : Rx := mg (mgmtBody 0x01
  (m.uid ++ m.port ++ b1 m.scope ++ m.node ++ b1 m.valid ++ m.incarn ++ m.version ++ 0#19))

def far0 (v : BitVec 24) (sc : Bool) : HelloMsg := ⟨0x77, 3, sc, 0x0107, true, 1, v⟩

/-- The link of port 0 is up and `HELLO` is awaited. -/
def awaiting (lost : Bool) (f : Fab → Fab) : State := st0.modFab fun x => f { x with
  ports := [(0, { FPort.reset with state := .down, linkUp := true, awaitHello := true, everLost := lost, farIncarn := 1 })] }

def helloB (r : Rx) (s : State) : Bool :=
  s.helloDue 8 r && s.rxTakes 8 r && !s.linkError 8 r && !flitBad 8 r

/-- Ports 0 and 1 are up to two instances; the route to 0x0107 has the other port as its alternate, and a flit to it waits for a response that was lost. -/
def two : State := linked.modFab fun f => { f with
  ports := f.ports ++ [(1, { FPort.reset with state := .up, linkUp := true, farNode := 0x0108, farValid := true, credits := fullCredits })]
  memberRt := [(7, ⟨0, true, 1, true, 1⟩)] }

def lostPort : State := (two.setFp 0 { two.fp 0 with state := .down, reconDue := some 5001, everLost := true })

def queued : State := two.setFp 0 { two.fp 0 with txq := [⟨0, 0x0107, 0x0103, none, 63, 0, none⟩] }

def recon : Rx := mg (mgmtBody 0x10 (0xFFF#12 ++ 0#3 ++ 0#121))

theorem wit_FabricPorts :
    (st0.fpEnabled 0 = true ∧ (st0.fp 0).linkUp = false ∧ ((st0.setFp 0 { FPort.reset with state := .down }).fp 0).state = .down) ∧ st0.fpEnabled 7 = false ∧
    helloB (helloRx (far0 (Config.idVersion.extractLsb' 0 24) false)) (awaiting false id) = true ∧
    helloB (helloRx (far0 0 true)) (awaiting false id) = true ∧ helloB (helloRx (far0 0x020000 false)) (awaiting false id) = true ∧
    helloB (helloRx (far0 (Config.idVersion.extractLsb' 0 24) false)) (awaiting true fun f => { f with nodeValid := false }) = true ∧
    two.fpLive 0 = true ∧ two.obs.hobble.state = 0 ∧ (two.route (two.fp 0).farNode) = ⟨0, true, 1, true, 1⟩ ∧ two.fpUp 1 = true ∧
    (two.fp 0).lastRx + 4000 ≤ two.now ∧ rxFarB 8 recon two = true ∧ two.forHere recon = true ∧
    lostPort.reconPort 0x0107 0 = some 0 ∧ (lostPort.fp 0).state ≠ .up ∧ lostPort.fab.trees = [] ∧
    lostPort.reconPort 0x0109 0 = none ∧
    (queued.fp 0).pickTx queued = some ⟨0, 0x0107, 0x0103, none, 63, 0, none⟩ ∧ (two.fp 0).pickTx two = none ∧
    (two.fp 0).lastTx + 1000 ≤ two.now ∧
    rxFarB 15 (rx 15 0 0 0xFFF 0) two = true ∧ two.linkError 15 (rx 15 0 0 0 0) = true ∧
    (two.linkError 8 (mg (mgmtBody 0x09 0)) = false ∧ flitBad 8 (mg (mgmtBody 0x09 0)) = true) ∧
    rxFarB 0 (rx 0 0x0108 0 0 0) two = true ∧ two.forHere (rx 0 0x0108 0 0 0) = false ∧
    rxFarB 0 (rx 0 0x0107 1 0 0) two = true ∧ two.nextHop 0x0107 = .port 0 none := by decide +kernel

theorem test_hello : ((after (.hello (helloRx (far0 (Config.idVersion.extractLsb' 0 24) false))) (awaiting false id)).fp 0).state = .lcl ∧
    ((after (.hello (helloRx (far0 (Config.idVersion.extractLsb' 0 24) true))) (awaiting false id)).fp 0).isoCause = 1 := by
  decide +kernel

/-- A flit of an operation of partition 5, which is strict with one credit of each port, waits on port 0; `out` holds what is used. -/
def strictTx (out : List (Option PartId)) : State :=
  let s : State := { two with parts := [(5, { Part.reset with state := .active, strict := true, bankSet := 1, fabRes := 1 })] }
  s.setFp 0 { s.fp 0 with
    opOut := out, txq := [⟨0, 0x0107, 0x0103, none, 63, opBody (Op.code .fetchAdd) { rq 0 2 with node := 0x0107 } 0x521 5 9, none⟩] }

/-- R259: a strict partition sends while one of its own credits is left. -/
theorem test_strictCredits :
    ((strictTx []).isStrict 5 = true ∧ ((strictTx []).fp 0).pickTx (strictTx []) = ((strictTx []).fp 0).txq.head?) ∧
    ((strictTx [none]).fp 0).pickTx (strictTx [none]) = ((strictTx [none]).fp 0).txq.head? ∧
    ((strictTx [some 5]).fp 0).pickTx (strictTx [some 5]) = none := by decide +kernel

/-- R209: the sequence number advances and a copy stays. -/
theorem test_flitTransmit : ((after (.flitTransmit 0) queued).fp 0).txSeq = 1 ∧
    ((after (.flitTransmit 0) queued).fp 0).replay.map (·.1) = [0] := by decide +kernel

def addOp : BitVec 144 := opBody (Op.code .fetchAdd) (rq 0 2) 0x521 5 9

def fcell : State := ((linked.setObj key ⟨newHdr 5, cell 3⟩).setCtx 5 0x2A { linked.ctx 5 0x2A with remoteEn := true }).modFab fun f =>
  { f with admits := [(0, ⟨true, 0x0107, 0xFFFF, 5, true, 5⟩)] }

def addEnt : OpEntry := { fabEntry (opOfBody addOp 0x0103) .fetchAdd 0x0107 5 0
  ((fcell.fabricPool 5).getD .shared) fcell with xlat := some .ok }

def cancelOp (code : Byte) : BitVec 144 := opBody code (rq 0 0) 0x521 5 9

def fabOk (b : BitVec 144) (op : Op) (s : State) : Bool :=
  match s.fabricPool 5 with
  | some pool => fabReadyB (rx 0 0x0103 63 0 b) op 5 pool { fabEntry (opOfBody b s.fab.nodeId) op 0x0107 5 0 pool s with
      xlat := if op.fabricOnly = true ∧ (s.ctx 5 (opOfBody b s.fab.nodeId).req.ctx).state ≠ .resident then none
        else some .ok } s
  | none => false

def fsem : State := ((linked.setObj key ⟨newHdr 5, sem 0 9⟩).setCtx 5 0x2A { linked.ctx 5 0x2A with remoteEn := true }).modFab fun f => { f with admits := fcell.fab.admits }
def flock (l : Lock) : State := ((linked.setObj key ⟨newHdr 5, .lock l⟩).setCtx 5 0x2A { linked.ctx 5 0x2A with remoteEn := true }).modFab fun f => { f with admits := fcell.fab.admits }

/-- An operation of AP5.0x21 on an object at 0x0107 that has gone there. -/
def away (op : Op) (f : Req) (st : OpSt) : State := linked.modOpr fun o =>
  { o with ops := [{ ent op f linked with req := { f with node := 0x0107 }, st }] }

def awayId : BitVec 15 := BitVec.ofNat 15 (ent .take (rq 0 1) linked).id

def rwait0 : RWait := { rwaitOf (ent .take { rq 0 1 with node := 0x0107 } linked) 5000 with perNode := false }

def treeState : State := (linked.setObj key ⟨newHdr 5, .barrier (bar 3 0 9)⟩).modFab fun f =>
  { f with trees := [(0x2C7, { Tree.reset with valid := true, node := key, childMask := 0x20, child := [(5, 0x0107)] })] }

theorem wit_FabricOperations :
    rxFarB 0 (rx 0 0x0103 63 0 addOp) fcell = true ∧ fcell.forHere (rx 0 0x0103 63 0 addOp) = true ∧ fabOk addOp .fetchAdd fcell = true ∧
    homeReadyB addEnt ⟨newHdr 5, cell 3⟩ fcell = true ∧ opKey addEnt = key ∧
    rxFarB 0 (rx 0 0x0103 63 0 (opBody 0xEE (rq 0 2) 0x521 5 9)) fcell = true ∧ opOf 0xEE = none ∧
    linked.admitPart 0x0107 5 = none ∧
    rxFarB 0 (rx 0 0x0103 63 0 (opBody 0x40 (rq 0 2) 0x521 5 9)) fcell = true ∧
    rxFarB 1 (rx 1 0x0103 63 0 (opExtBody 9 3)) fcell = true ∧ addEnt.txid = some 9 ∧
    fabOk (cancelOp 0x90) .waitCancel fsem = true ∧ fsem.wmc.waiters = [] ∧
    fabOk (cancelOp 0x91) .abandon (flock { lck true 0x521 with holderNode := 0x0107, effPrio := 0 }) = true ∧
    fabOk (cancelOp 0x92) .rsvCancel fcell = true ∧ (fcell.ctx 5 0x2A).state = .resident ∧
    rxFarB 2 (rx 2 0x0103 63 0 (cplBody 0x10 0 awayId false 0 0)) (away .take (rq 0 1) .remote) = true ∧
    rxFarB 4 (rx 4 0x0103 63 0 (wakeNodeBody 0 0x2A 0x00A47 false 0)) linked = true ∧
    rxFarB 5 (rx 5 0x0103 63 0 (grantBody 0 0x2A 0x00A47 0x521 rwait0.op.code false 0 0)) linked = true ∧
    rxFarB 6 (rx 6 0x0103 63 0 (cancelDoneBody 0x2A 0x00A47 0x521 false true 9)) linked = true ∧
    rxFarB 8 (mg (mgmtBody 0x20 (0#8 ++ 0x2084521001035210#64 ++ 0x0004001032A00A47#64))) linked = true ∧
    rxFarB 3 (rx 3 0x0103 63 0 (combineBody 0x2C7 9 5 true 0x40600000)) treeState = true ∧
    rxFarB 7 (rx 7 0x0103 63 0 (0x2C7#12 ++ 9#16 ++ 0#8 ++ 0#44 ++ 0#64)) treeState = true ∧
    (treeState.tree 0x2C7).valid = true ∧ treeState.obj (treeState.tree 0x2C7).node = some ⟨newHdr 5, .barrier (bar 3 0 9)⟩ ∧
    (treeState.tree 0x2C7).childMask.getLsbD 5 = true ∧
    rxFarB 8 (mg (mgmtBody 0x30 0)) linked = true := by decide +kernel

/-- A wait of AP5.0x21 at 0x0107 is parked on a semaphore here; and a cancelled `TAKE` whose `GRANT` is on its way. -/
def farWaiter : Waiter := { parkedW none false with node := 0x0107 }

def cancelling : State := (fsem.setObj key ⟨{ newHdr 5 with parked := true, wprio := 2 }, sem 0 9⟩).modWmc fun m =>
  { m with waiters := [farWaiter] }

def racing : State := linked.modFab fun f => { f with undo := [⟨0x521, 9, false, some rwait0⟩] }

def grantRx : Rx := rx 5 0x0103 63 0 (grantBody 0 0x2A 0x00A47 0x521 rwait0.op.code false 0 0)

theorem wit_FabricOperations_waits :
    fabOk (cancelOp 0x90) .waitCancel cancelling = true ∧ farWaiter ∈ cancelling.wmc.waiters ∧
    rxFarB 5 grantRx racing = true ∧ racing.forHere grantRx = true ∧ rwait0.perNode = false ∧ rwait0.op = .take ∧
    (grantOf grantRx.body).status = 0 ∧ (grantOf grantRx.body).ended = false ∧
    ((linked.modWmc fun m => { m with rwaits := [rwait0] }).wmc.rwaits.find? fun x =>
      decide (x.perNode = false ∧ x.node = 0x0107 ∧ x.ctx = 0x2A ∧ x.index = 0x00A47 ∧ x.agent = 0x521 ∧
        x.op.code = (grantOf grantRx.body).code)) = some rwait0 ∧
    (away .take (rq 0 1) .queued).reachable 0x0107 = true ∧ (away .take (rq 0 1) .queued).startHeld 5 = false ∧
    (away .take (rq 0 1) .queued).frozen = false ∧
    (away .take (rq 0 1) .queued).orderHeld { ent .take (rq 0 1) linked with req := { rq 0 1 with node := 0x0107 } } = false := by
  decide +kernel

/-- R45: `NO_OBJECT` from 0x0107. -/
def goneRx : Rx := rx 4 0x0103 63 0 (wakeNodeBody (Status.code .noObject) 0x2A 0x00A47 false 0)

/-- The `TAKE` of AP5.0x21 whose object went before its `CPL` came. -/
def goneAway : State := (away .take (rq 0 1) .remote).modFab fun f => { f with gone := [(ent .take (rq 0 1) linked).id] }

theorem wit_FabricOperations_gone :
    rxFarB 4 goneRx (away .take (rq 0 1) .remote) = true ∧ (wakeOfBody goneRx.body).status = Status.code .noObject ∧
    (after (.wakeNode goneRx) (away .take (rq 0 1) .remote)).fab.gone = [(ent .take (rq 0 1) linked).id] ∧
    rxFarB 2 (rx 2 0x0103 63 0 (cplBody 0x10 0 awayId true 0 0)) goneAway = true ∧
    (cplOf (cplBody 0x10 0 awayId true 0 0)).parked = true ∧
    goneAway.opr.ops.map (fun e => (e.id, e.st)) = [(awayId.toNat, .remote)] ∧ awayId.toNat ∈ goneAway.fab.gone := by
  decide +kernel

/-- R45: every local waiter of the object is woken, one whose `CPL` is under way when that comes. -/
theorem test_goneObject :
    (after (.wakeNode goneRx) (linked.modWmc fun m => { m with rwaits := [rwait0] })).wmc.rwaits = [] ∧
    lastRsp (after (.wakeNode goneRx) (linked.modWmc fun m => { m with rwaits := [rwait0] })) = some (Status.code .noObject, 0) ∧
    (lastRsp (after (.cpl (rx 2 0x0103 63 0 (cplBody 0x10 0 awayId true 0 0))) goneAway)).map (·.1) = some (Status.code .noObject) := by
  decide +kernel

/-- R217: the cancelled waiter goes, and `CANCEL_DONE` says that it was found. -/
theorem test_waitCancel : (after (.waitCancel (rx 0 0x0103 63 0 (cancelOp 0x90))) cancelling).wmc.waiters = [] ∧
    ((after (.waitCancel (rx 0 0x0103 63 0 (cancelOp 0x90))) cancelling).fp 0).txq.map (fun f => (f.kind, f.body)) =
      [(6, cancelDoneBody 0x2A 0x00A47 0x521 false true 9)] := by decide +kernel

/-- R78 and R218: a grant that races its cancellation is undone by a `GIVE` of the units. -/
theorem test_racedGrant : ((after (.grant grantRx) racing).fp 0).txq.map (fun f => (f.kind, f.dst, f.body.extractLsb' 136 8)) =
    [(0, 0x0107, Op.code .give)] ∧ ((after (.grant grantRx) racing).fab.undo.map (·.rwait)).head? = some none := by
  decide +kernel

/-- R216: the operation of another instance is answered by a `CPL` with the old value. -/
theorem test_remoteOp : ((after (.remoteOp (rx 0 0x0103 63 0 addOp)) fcell).obj key).map (·.body) = some (.cell ⟨5, 0x521, 0x0107⟩) ∧
    ((after (.remoteOp (rx 0 0x0103 63 0 addOp)) fcell).fp 0).txq.map (fun f => (f.kind, f.dst, f.body.extractLsb' 0 64)) =
      [(2, 0x0107, 3#64)] := by decide +kernel

theorem test_combine : ((after (.combine (rx 3 0x0103 63 0 (combineBody 0x2C7 9 5 true 0))) treeState).tree 0x2C7).curChild = 0x20 := by
  decide +kernel

def discovering : State := linked.modFab fun f => { f with
  disc := { Disc.reset with active := true, session := 3, waiting := [0, 1] } }

def started : State := linked.modFab fun f => { f with
  disc := { Disc.reset with active := true, session := 3, started := true, parent := some 0, converged := true } }

def treed (f : Tree → Tree) : State := treeState.modFab fun x =>
  { x with trees := x.trees.map fun t => (t.1, f { t.2 with parent := 0x0107, altParent := 0x0108, rootNode := 0x0107 }) }

def stitch (sub : Byte) (m : StitchMsg) : Rx := mg (stitchBody sub m)

theorem wit_DiscoveryAndStitching :
    cmdOk discoverFmt (pk 0x0301 0 [0x3000, 0, 0]) linked = true ∧
    cmdOk discoverFmt (pk 0x0301 0 [0x3000, 0, 0]) (hob 3 id linked) = true ∧ linked.livePorts = [0] ∧
    cmdOk loadFmt (pk 0x0302 0 [0x0103, 0x3000, 0]) (hob 3 id linked) = true ∧
    memErr (hob 3 id linked) (hob 3 id linked).slu.engineReqid 0x3000 1024 = false ∧
    rxFarB 8 (mg (probeBody 3 0)) linked = true ∧ rxFarB 8 (mg (notChildBody 3)) linked = true ∧
    rxFarB 8 (mg (reportBody ⟨1, 0, false, 2, true⟩ false false)) linked = true ∧
    rxFarB 8 (mg (assignBody 0x0109 [])) linked = true ∧ rxFarB 8 (mg (mgmtBody 0x06 0)) linked = true ∧
    rxFarB 8 (mg (doneBody 3 false)) linked = true ∧ rxFarB 8 (mg (doneBody 3 true)) linked = true ∧
    rxFarB 8 (mg (mgmtBody 0x08 0)) linked = true ∧
    (discovering.fab.disc.active = true ∧ bodySession (probeBody 3 0) = discovering.fab.disc.session) ∧
    (∃ p ∈ two.livePorts, p ≠ (0 : FabPort)) ∧
    (started.fab.disc.converged = true ∧ started.fab.disc.done = false ∧ started.fab.disc.children = []) ∧
    (linked.fp 0).held = [] ∧
    rxFarB 8 (stitch 0x60 ⟨0x2C7, false, false, 0, 0⟩) treeState = true ∧
    (treed fun t => { t with root := true }).treeEpoch ((treed fun t => { t with root := true }).tree 0x2C7) = some 9 ∧
    rxFarB 8 (stitch 0x61 ⟨0x2C7, false, false, 0, 12⟩) treeState = true ∧
    lowest (fun i => !(treeState.tree 0x2C7).taken i) 8 = some 0 ∧
    rxFarB 8 (stitch 0x62 ⟨0x2C7, false, false, 0, 12⟩) treeState = true ∧
    rxFarB 8 (stitch 0x63 ⟨0x2C7, false, false, 0, 12⟩) treeState = true ∧
    rxFarB 8 (stitch 0x61 ⟨0x2C7, true, true, 0, 12⟩) (treed fun t => { t with restitch := some (2, 12, 0) }) = true := by
  decide +kernel

/-- A tree node here whose parent 0x0107 is behind a detour; step `j` of its re-stitching has begun at TIME 0. -/
def detoured (j : Option (Nat × BitVec 16 × BitVec 3)) (now : Nat) : State :=
  let s := (treed fun t => { t with restitch := j, rootNode := 0x0108 }).modFab fun f => { f with ports := f.ports.map fun q =>
    (q.1, { q.2 with detour := true }) }
  s.modClk fun c => { c with time := BitVec.ofNat 96 (now * 2 ^ 32) }

theorem wit_DiscoveryAndStitching_detours :
    ((detoured none 9).tree 0x2C7).altParent = 0x0108 ∧ ((detoured none 9).route 0x0107).priV = true ∧
    ((detoured none 9).fp ((detoured none 9).route 0x0107).pri).detour = true ∧
    ((detoured (some (1, 0, 0)) 250000).tree 0x2C7).stitchAt + 250000 ≤ (detoured (some (1, 0, 0)) 250000).now ∧
    (detoured (some (1, 0, 0)) 9).now < ((detoured (some (1, 0, 0)) 9).tree 0x2C7).stitchAt + 250000 ∧
    ((treed fun t => { t with root := true, holdStitch := true }).tree 0x2C7).holdStitch = true ∧
    (stitchOf (stitch 0x61 ⟨0x2C7, true, false, 3, 12⟩).body).noSlot = false ∧
    ((detoured none 250000).fp ((detoured none 250000).route 0x0107).pri).lostAt + 250000 ≤ (detoured none 250000).now := by
  decide +kernel

/-- R232: what has not come within 250 us is given up. -/
theorem test_restitchGivesUp :
    ((after (.restitchStart 0x2C7) (detoured none 9)).tree 0x2C7).restitch = some (1, 0, 0) ∧
    ((after (.restitchStart 0x2C7) (detoured none 250000)).tree 0x2C7).restitch = some (3, 0, 0) ∧
    ((after (.restitchStart 0x2C7) (detoured (some (1, 0, 0)) 250000)).tree 0x2C7).restitch = some (3, 0, 0) ∧
    (after (.restitchStart 0x2C7) (detoured (some (1, 0, 0)) 249999)) = detoured (some (1, 0, 0)) 249999 := by decide +kernel

theorem test_stitchHoldRequest : ((after (.stitchHoldRequest (stitch 0x60 ⟨0x2C7, false, false, 0, 0⟩))
    (treed fun t => { t with root := true })).tree 0x2C7).holdStitch = true := by decide +kernel

theorem test_nodeidAssign : (after (.nodeidAssign (mg (assignBody 0x0109 []))) linked).fab.nodeId = 0x0109 := by decide +kernel

/-- `linked`, whose time parent is on port 0; its first request has gone out at TIME 4,000. -/
def timed : State := { linked with clk := { linked.clk with
  hasParent := true, parentPort := 0, gmNode := 0x0107, syncSeq := 1, syncOut := some (1, 4000) } }

/-- The root of a census over two instances, a pass under way. -/
def census (f : Census → Census) : State := linked.modFab fun x => { x with
  trees := [(0xFFF, { Tree.reset with valid := true, root := true, childMask := 1, child := [(0, 0x0107)] })]
  census := f { x.census with root := true, expect := 2 } }

def folding : State := census fun k => { k with running := some (4, 0x33, 5000), missing := [0x0107], foldMin := 0x33, foldMax := 0x33, foldCnt := 1 }

def below : State := linked.modFab fun x => { x with
  trees := [(0xFFF, { Tree.reset with valid := true, parent := 0x0107 })] }

theorem wit_TimeAndCensus :
    (elapse 0 timed).now < 1000000 ∧ timed.fpLive timed.clk.parentPort = true ∧ timed.clk.grandmaster = false ∧
    rxFarB 9 (rx 9 0x0103 63 0 (syncReqBody 1)) linked = true ∧
    rxFarB 9 (rx 9 0x0103 63 0 (syncRspBody 1 4500 0x0107 0 true)) timed = true ∧
    timed.clk.syncOut = some (bodySeq (syncRspBody 1 4500 0x0107 0 true), 4000) ∧
    cmdOk noFmt (pk 0x0310 0 []) (census id) = true ∧ cmdOk noFmt (pk 0x0310 0 []) linked = true ∧
    rxFarB 8 (mg (censusBody 1 0 4 0 0)) below = true ∧ below.forHere (mg (censusBody 1 0 4 0 0)) = true ∧
    rxFarB 8 (mg (censusBody 2 8 4 1 0)) folding = true ∧ rxFarB 8 (mg (censusBody 3 0 4 2 1)) below = true ∧
    rxFarB 8 (mg (censusBody 4 4 4 0 0)) below = true ∧ rxFarB 8 (mg (censusBody 5 0 4 0 0)) below = true ∧
    below.fromParent 0x0107 = true ∧ below.anyRunning = true ∧ folding.fromParent 0x0107 = false ∧
    folding.fab.census.running = some (4, 0x33, 5000) ∧ folding.ctree.root = true ∧ below.ctree.root = false ∧
    (0x0107 : NodeId) ∈ folding.fab.census.missing := by decide +kernel

/-- An instance that may become grandmaster and has heard nothing for three periods. -/
def silent3 (master : Bool) : State := { linked with clk := { linked.clk with
  silent := 3, unheard := 3, straps := if master then 0x8BC else 0xBC } }

theorem wit_TimeAndCensus_parents :
    (silent3 true).timeMaster = true ∧ (silent3 false).timeMaster = false ∧ (silent3 true).clk.grandmaster = false ∧
    linked.portOf 0x0107 = some 0 ∧ linked.portOf 0x0109 = none ∧ timed.portOf timed.clk.gmNode = some timed.clk.parentPort ∧
    (two.modClk fun c => { c with hasParent := true, parentPort := 1, gmNode := 0x0107, silent := 3 }).portOf 0x0107 = some 0 ∧
    timed.clk.stepped = false ∧ (timed.modClk fun c => { c with stepped := true }).clk.stepped = true := by decide +kernel

/-- A parent on port 1 that has been silent for three periods, its grandmaster 0x0107 now behind port 0; and one without another way. -/
def silentParent (gm : NodeId) (heard : Option (NodeId × FabPort)) : State := two.modClk fun c =>
  { c with hasParent := true, parentPort := 1, gmNode := gm, silent := 3, heard }

/-- R237: another port toward the same grandmaster, else one heard within three periods, else none. -/
theorem test_newParents :
    ((after (.timeParentTimeout 0) (silentParent 0x0107 none)).clk.parentPort,
      (after (.timeParentTimeout 0) (silentParent 0x0107 none)).clk.asking) = (0, true) ∧
    ((silentParent 0x0209 none).portOf 0x0209 = none ∧ (silentParent 0x0209 none).timeMaster = false) ∧
    (after (.timeParentTimeout 0) (silentParent 0x0209 (some (0x0107, 0)))).clk.gmNode = 0x0107 ∧
    (after (.timeParentTimeout 0) (silentParent 0x0209 none)).clk.gmNode = 0 ∧
    (after (.timeParentTimeout 0) (silentParent 0x0209 none)).clk.asking = false := by decide +kernel

/-- R237: a period without a grandmaster of lower NodeID counts. -/
theorem test_noteHeard : (noteHeard (some (0x0102, 0)) (silent3 true)).clk.unheard = 0 ∧
    (noteHeard (some (0x0107, 0)) (silent3 true)).clk.unheard = 4 ∧ (noteHeard none (silent3 true)).clk.heardFor = 1 := by
  decide +kernel

/-- R403: an instance that is no root keeps no ranges or flags. -/
theorem test_censusRole : (censusRole false { Census.reset with root := true, mismatch := true, pass := 4 }).mismatch = false ∧
    (censusRole false { Census.reset with root := true, mismatch := true, pass := 4 }).pass = 4 := by decide

/-- R237: after three silent periods an instance with `TIME_MASTER` is grandmaster; it gives way to a lower NodeID. -/
theorem test_grandmasters :
    (after (.timeParentTimeout 0) (silent3 true)).clk.grandmaster = true ∧
    (heardGm 0x0002 0 (after (.timeParentTimeout 0) (silent3 true))).clk.grandmaster = false ∧
    (heardGm 0x0107 0 (after (.timeParentTimeout 0) (silent3 true))).clk.grandmaster = true := by decide +kernel

/-- R235: the answer carries its times, and the first answer steps TIME. -/
theorem test_syncRsp : (after (.syncRsp (rx 9 0x0103 63 0 (syncRspBody 1 4500 0x0107 0 true))) timed).clk.stepped = true ∧
    (after (.syncRsp (rx 9 0x0103 63 0 (syncRspBody 1 4500 0x0107 0 true))) timed).clk.timeDepth = 1 := by decide +kernel

/-! ### Words of the spec's examples -/

/-- The request flits of the examples of spec 03 and 07. -/
theorem test_requestFlits :
    flitWord (Op.code .landExpect) ⟨false, false, false, false, 0x2A, 0x0103, 0x01206, 0, 0xC000⟩ =
      0x6002A01030120600000000000000C000 ∧
    flitWord (Op.code .signalAfterLanded) ⟨false, false, true, false, 0x2A, 0x0103, 0x01206, 0, 0x01032A01207⟩ =
      0x6122A010301206000000001032A01207 ∧
    flitWord (Op.code .lock) ⟨true, true, false, false, 0x2A, 0x0103, 0x00A47, 0xA0, 0x0001C400C8000000⟩ =
      0x30C2A010300A47A00001C400C8000000 := by decide

/-- The example of spec 08: the leaf's `COMBINE`. -/
theorem test_combineBody : combineBody 0x2C7 0x0013 5 true 0x40600000 = 0x2C70013B0000000000000000000040600000 := by
  decide

/-- The example of spec 05: the inherit notice. -/
theorem test_inheritWords : inheritWords false 4 1 5 0x210 0x0103 0x521 0x40 0x01032A00A47 =
    [0x2084521001035210, 0x0004001032A00A47] := by decide

/-! ### The step -/

theorem wit_StepRunsFront : step { st0 with pending := [.clearAdvise (acc 1)] } = exec (.clearAdvise (acc 1)) st0 ∧
    step st0 = .next (idleEdge st0) := ⟨rfl, rfl⟩

/-- A command in front of an empty queue after reset runs in the next step. -/
theorem test_step : (match step { State.reset with pending := [.coldReset 0x0003, .rootLockRise] } with
    | .next t => (t.pending, t.clk.straps.extractLsb' 0 2)
    | _ => ([], 0)) = ([.rootLockRise], 2#2) := by decide +kernel

end Sys2Proof.Tests
end

section
/-! Binding entries of the agents (R54, R401): the access to `AP_BIND[a]`, the entry it leaves, and obligation O22. -/

namespace Sys2Proof.Machine

/-! ### One binding entry -/

@[simp] theorem State.bind_setBind_same (s : State) (g : AgentId) (x : Bind) : (s.setBind g x).bind g = x :=
  tgetD_tput _ _ _ _

@[simp] theorem State.bind_setBind_of_ne (s : State) {g y : AgentId} (x : Bind) (h : y ≠ g) :
    (s.setBind g x).bind y = s.bind y :=
  tgetD_tput_ne _ _ _ _ _ fun hn => h (BitVec.eq_of_toNat_eq hn)

/-! ### The answer of the control register port -/

@[simp] theorem bind_respond (v : Word) (e : Bool) (s : State) (g : AgentId) : (respond v e s).bind g = s.bind g := rfl

@[simp] theorem running_respond (v : Word) (e : Bool) (s : State) : (respond v e s).running = s.running := rfl

/-- A write of one binding entry, with the port's answer to it, changes nothing else. -/
theorem setBind_respond_effect {s : State} {g : AgentId} {x y : Bind} (h : x = y) :
    ((respond 0 false s).setBind g x).bind g = y ∧
      (∀ a, a ≠ g → ((respond 0 false s).setBind g x).bind a = s.bind a) ∧
      Frame [.binds, .crPort] s ((respond 0 false s).setBind g x) :=
  ⟨(State.bind_setBind_same ..).trans h, fun a ha => State.bind_setBind_of_ne _ x ha,
    State.setBind_frame _ _ _ (by simp) (respond_frame _ _ _ (by simp) (.refl _ s))⟩

/-! ### The access -/

theorem apBind_toNat (g : AgentId) : (BitVec.ofNat 20 (0x10000 + 4 * g.toNat)).toNat = 0x10000 + 4 * g.toNat := by
  have hg : g.toNat < 4096 := g.isLt
  rw [BitVec.toNat_ofNat]
  omega

theorem regionOf_apBind (g : AgentId) : regionOf (0x10000 + 4 * g.toNat) = .sup := by
  have hg : g.toNat < 4096 := g.isLt
  have low : ¬ 0x10000 + 4 * g.toNat < 0x4000 := by omega
  have sec : ¬ (0xC000 ≤ 0x10000 + 4 * g.toNat ∧ 0x10000 + 4 * g.toNat < 0x10000) := by omega
  have sup : 0x10000 + 4 * g.toNat < 0x14000 := by omega
  simp only [regionOf, low, sec, sup, ↓reduceIte]

/-- R397: a supervisor's access to the binding table is taken. -/
theorem access_apBind {g : AgentId} {acc : CrAcc} {s : State} (hlc : s.slu.lc ≠ .retired) (hp : acc.priv = true) :
    s.access true (BitVec.ofNat 20 (0x10000 + 4 * g.toNat)) acc = .good := by
  have aligned : (0x10000 + 4 * g.toNat) % 4 = 0 := by omega
  rw [State.access, apBind_toNat, regionOf_apBind]
  simp [aligned, hlc, hp]

theorem writeReg_apBind (g : AgentId) (acc : CrAcc) (s : State) :
    writeReg (0x10000 + 4 * g.toNat) acc s = bindWrite g acc.wdata s := by
  have hg : g.toNat < 4096 := g.isLt
  have glob : ¬ 0x10000 + 4 * g.toNat < 0x4000 := by omega
  have obs : ¬ 0x10000 + 4 * g.toNat < 0x8000 := by omega
  have fab : ¬ 0x10000 + 4 * g.toNat < 0xC000 := by omega
  have sec : ¬ 0x10000 + 4 * g.toNat < 0x10000 := by omega
  have sup : 0x10000 + 4 * g.toNat < 0x14000 := by omega
  have entry : BitVec.ofNat 12 ((0x10000 + 4 * g.toNat - 0x10000) / 4) = g := by
    have index : (0x10000 + 4 * g.toNat - 0x10000) / 4 = g.toNat := by omega
    rw [index, BitVec.ofNat_toNat, BitVec.setWidth_eq]
  simp only [writeReg, glob, obs, fab, sec, sup, entry, ↓reduceIte]

theorem State.crReady_of_running {s : State} (h : s.running = true) : s.crReady = true := by
  have run : s.clk.boot = .run := by simpa [State.running] using h
  simp [State.crReady, run]

/-- On a running engine a supervisor's write to `AP_BIND[g]` is answered and reaches the entry (R392, R401). -/
theorem exec_apBindWrite {g : AgentId} {acc : CrAcc} {s : State} (hr : s.running = true) (hlc : s.slu.lc ≠ .retired)
    (hp : acc.priv = true) :
    exec (.apBindWrite g acc) s = .next (bindWrite g acc.wdata (respond 0 false s)) := by
  change execApBindWrite g acc s = _
  simp only [execApBindWrite, crWrite, State.crReady_of_running hr, access_apBind hlc hp, running_respond, hr, apBind_toNat,
    writeReg_apBind, Bool.not_true, Bool.false_eq_true, true_or, ↓reduceIte]

/-! ### The entry after the write -/

/-- The word leaves `VALID` at 1 for a partition that the agent cannot be bound to (R401). -/
def bindsBadly (g : AgentId) (w : Word) (s : State) : Prop :=
  w.getLsbD 31 = true ∧
    ((s.part (w.extractLsb' 0 6)).state = .free ∨ s.portConflict g (w.extractLsb' 0 6) = true)

/-- The cases in which a write to a binding entry is ignored as a whole (R401). -/
def bindIgnored (g : AgentId) (w : Word) (s : State) : Prop :=
  (s.bind g).busy = true ∨ ((s.bind g).valid = true ∧ (s.bind g).part ≠ w.extractLsb' 0 6) ∨ bindsBadly g w s

/-- Every field takes its written value, and `BUSY` is set where `VALID` is cleared (R401). -/
def Bind.written (w : Word) (b : Bind) : Bind :=
  { b with
    valid := w.getLsbD 31, part := w.extractLsb' 0 6, maxPrio := w.extractLsb' 8 3, mgmtEn := w.getLsbD 16
    busy := b.valid && !w.getLsbD 31 }

section
variable {g : AgentId} {w : Word} {s : State}

theorem bindsBadly_iff : bindsBadly g w s ↔
    (w.getLsbD 31 && (decide ((s.part (w.extractLsb' 0 6)).state = .free) ||
      s.portConflict g (w.extractLsb' 0 6))) = true := by
  simp [bindsBadly]

theorem not_bindIgnored (idle : (s.bind g).busy = false)
    (stays : (s.bind g).valid = true → (s.bind g).part = w.extractLsb' 0 6)
    (sound : w.getLsbD 31 = true →
      (s.part (w.extractLsb' 0 6)).state ≠ .free ∧ s.portConflict g (w.extractLsb' 0 6) = false) :
    ¬ bindIgnored g w s := by
  rintro (busy | ⟨bound, moved⟩ | ⟨binds, free | shared⟩)
  · exact Bool.eq_false_iff.mp idle busy
  · exact moved (stays bound)
  · exact (sound binds).1 free
  · exact Bool.eq_false_iff.mp (sound binds).2 shared

theorem bindWrite_of_ignored (h : bindIgnored g w s) : bindWrite g w s = s := by
  unfold bindWrite
  rcases h with busy | moved | bad
  · exact if_pos busy
  · simp only [if_pos moved, ite_self]
  · simp only [bindsBadly_iff.mp bad, ↓reduceIte, ite_self]

/-- What follows a write that is not ignored turns on `VALID` before it and in the word (R54, R64). -/
theorem bindWrite_of_not_ignored (h : ¬ bindIgnored g w s) :
    bindWrite g w s =
      let t := s.setBind g ((s.bind g).written w)
      if (s.bind g).valid && !w.getLsbD 31 then addReset (agentPort g) (agentLocal g) true t
      else if !(s.bind g).valid && w.getLsbD 31 && s.draining (w.extractLsb' 0 6) then
        pushNotice (agentPort g) (w.extractLsb' 0 6) 1 [agentLocal g] t
      else t := by
  obtain ⟨busy, moved, bad⟩ := not_or.mp h |>.imp_right not_or.mp
  unfold bindWrite
  exact (if_neg busy).trans ((if_neg moved).trans (if_neg fun h => bad (bindsBadly_iff.mpr h)))

/-- Clearing `VALID` starts the processing of an agent reset (R54). -/
theorem bindWrite_unbinds (h : ¬ bindIgnored g w s) (hv : (s.bind g).valid = true) (hw : w.getLsbD 31 = false) :
    bindWrite g w s = addReset (agentPort g) (agentLocal g) true (s.setBind g ((s.bind g).written w)) := by
  rw [bindWrite_of_not_ignored h, hv, hw]
  rfl

/-- An agent that becomes bound to a draining partition is told so (R64). -/
theorem bindWrite_binds_draining (h : ¬ bindIgnored g w s) (hv : (s.bind g).valid = false) (hw : w.getLsbD 31 = true)
    (hd : s.draining (w.extractLsb' 0 6) = true) :
    bindWrite g w s = pushNotice (agentPort g) (w.extractLsb' 0 6) 1 [agentLocal g]
      (s.setBind g ((s.bind g).written w)) := by
  rw [bindWrite_of_not_ignored h, hv, hw, hd]
  rfl

/-- Every other write changes the entry alone. -/
theorem bindWrite_updates (h : ¬ bindIgnored g w s) (hv : (s.bind g).valid = true → w.getLsbD 31 = true)
    (hd : (s.bind g).valid = false → w.getLsbD 31 = true → s.draining (w.extractLsb' 0 6) = false) :
    bindWrite g w s = s.setBind g ((s.bind g).written w) := by
  rw [bindWrite_of_not_ignored h]
  cases old : (s.bind g).valid with
  | true => rw [hv old]; rfl
  | false =>
    cases new : w.getLsbD 31 with
    | true => rw [hd old new]; rfl
    | false => rfl

end

/-! ### The obligation -/

/-- Settles O22: a write that is not ignored leaves `Bind.written` in the entry
(`bindWrite_of_not_ignored`); the clauses are its cases. -/
theorem bindWrites : Obligations.BindWrites := by
  unfold Obligations.BindWrites
  rintro g acc s b run live priv rfl
  rw [exec_apBindWrite run live priv]
  refine ⟨fun ignored => ?_, fun idle bound valid same used apart => ?_, fun idle unbound valid used open_ apart => ?_,
    fun idle unbound valid used draining apart => ?_, fun idle unbound clear => ?_, fun idle bound clear same => ?_⟩
  · exact ⟨_, by rw [bindWrite_of_ignored (s := respond 0 false s) ignored],
      respond_frame _ _ _ (by simp) (.refl _ s)⟩
  · have taken : ¬ bindIgnored g acc.wdata (respond 0 false s) :=
      not_bindIgnored idle (fun _ => same) fun _ => same ▸ ⟨used, apart⟩
    exact ⟨_, by rw [bindWrite_updates taken (fun _ => valid) (by simp [bound])],
      setBind_respond_effect (by
        simp only [Bind.written, bind_respond, idle, bound, valid, same, Bool.not_true, Bool.and_false])⟩
  · have taken : ¬ bindIgnored g acc.wdata (respond 0 false s) :=
      not_bindIgnored idle (by simp [unbound]) fun _ => ⟨used, apart⟩
    exact ⟨_, by rw [bindWrite_updates taken (fun _ => valid) fun _ _ => open_],
      setBind_respond_effect (by simp only [Bind.written, bind_respond, unbound, valid, Bool.false_and])⟩
  · have taken : ¬ bindIgnored g acc.wdata (respond 0 false s) :=
      not_bindIgnored idle (by simp [unbound]) fun _ => ⟨used, apart⟩
    exact ⟨_, by rw [bindWrite_binds_draining taken unbound valid draining],
      setBind_respond_effect (by simp only [Bind.written, bind_respond, unbound, valid, Bool.false_and])⟩
  · have taken : ¬ bindIgnored g acc.wdata (respond 0 false s) :=
      not_bindIgnored idle (by simp [unbound]) (absurd · (Bool.eq_false_iff.mp clear))
    exact ⟨_, by rw [bindWrite_updates taken (by simp [unbound])
        fun _ set => absurd set (Bool.eq_false_iff.mp clear)],
      setBind_respond_effect (by simp only [Bind.written, bind_respond, unbound, idle, clear, Bool.false_and])⟩
  · have taken : ¬ bindIgnored g acc.wdata (respond 0 false s) :=
      not_bindIgnored idle (fun _ => same) (absurd · (Bool.eq_false_iff.mp clear))
    exact ⟨_, by rw [bindWrite_unbinds taken bound clear],
      setBind_respond_effect (by
        simp only [Bind.written, bind_respond, bound, same, clear, Bool.not_false, Bool.and_true])⟩

end Sys2Proof.Machine
end

section
/-! Semaphores (R115), events (R118, R119) and cells (R57, R121, R122): the cases of each operation, the pair of flits of a `CAS`, and obligations O1, O3 and O4. -/

namespace Sys2Proof.Machine

/-! ### Counting at an object -/

/-- A counter that is no error counter touches no interrupt (R346). -/
theorem count_frame_counters (p : PartId) {i : Nat} (hi : i < 46) (s : State) : Frame [.counters] s (count p i s) := by
  have plain : ¬(46 ≤ i ∧ i ≤ 56) := by omega
  rw [count, if_neg plain]
  exact countN_frame p i 1 s (by simp) (.refl _ s)

/-- One counter more, at an object that no Hobble freezes. -/
theorem AtObject.count_one {e : OpEntry} {s x : State} (h : AtObject e [] [] s x) (hz : s.obs.hobble.state = 0)
    (p : PartId) {i : Nat} (hi : i < 46) : AtObject e [(p, i)] [] s (Machine.count p i x) :=
  h.count (h.frozen (by simp) hz) p (.inl hi)

/-- An operation that counts one counter and leaves its object. -/
theorem performs_count {i : Instr} {e : OpEntry} {o : Obj} {st : Status} {pay : DWord} {g : Option Grant} {s x : State}
    {p : PartId} {n : Nat} (hr : exec i s = .next (finish e st pay g (count p n x))) (ho : x.obj (opKey e) = some o)
    (h : AtObject e [] [] s x) (hz : s.obs.hobble.state = 0) (hn : n < 46) :
    Performs i e o st pay g o.body [(p, n)] [] s (count p n x) :=
  ⟨hr, (count_obj ..).trans ho, h.count_one hz p hn⟩

/-! ### Semaphores -/

section
variable {e : OpEntry} {k : OKey} {v : Sem} {s : State}

theorem takeOp_out_of_range (alone : s.agentWaits k e.node e.agent = false)
    (bad : reqOperand e.req = 0 ∨ v.limit.toNat < (reqOperand e.req).toNat) :
    takeOp e k v s = finish e .rangeError 0 none s := by
  simp only [takeOp, alone, bad, Bool.false_eq_true, ↓reduceIte]

theorem takeOp_granted (alone : s.agentWaits k e.node e.agent = false) (units : reqOperand e.req ≠ 0)
    (fits : (reqOperand e.req).toNat ≤ v.limit.toNat) (there : (reqOperand e.req).toNat ≤ v.count.toNat)
    (first : ∀ w ∈ s.waitersOf k, w.prio.toNat < e.prio.toNat) :
    takeOp e k v s = finish e .ok (v.count - (reqOperand e.req).setWidth 64)
      (some (.take k none ((reqOperand e.req).setWidth 64)))
      (count k.part 6 (s.setBody k (.semaphore { v with count := v.count - (reqOperand e.req).setWidth 64 }))) := by
  have ahead : (s.waitersOf k).all (fun w => decide (w.prio.toNat < e.prio.toNat)) = true := by
    simpa only [List.all_eq_true, decide_eq_true_eq] using first
  simp only [takeOp, alone, units, Nat.not_lt.2 fits, or_self, there, ahead, Bool.false_eq_true, and_self, ↓reduceIte]

theorem takeOp_parked (alone : s.agentWaits k e.node e.agent = false) (units : reqOperand e.req ≠ 0)
    (fits : (reqOperand e.req).toNat ≤ v.limit.toNat)
    (waits : v.count.toNat < (reqOperand e.req).toNat ∨ ∃ w ∈ s.waitersOf k, e.prio.toNat ≤ w.prio.toNat) :
    takeOp e k v s = finishParked e (park (waiterOf e k s) s) := by
  have blocked : ¬((reqOperand e.req).toNat ≤ v.count.toNat ∧
      (s.waitersOf k).all (fun w => decide (w.prio.toNat < e.prio.toNat)) = true) := by
    rintro ⟨there, ahead⟩
    simp only [List.all_eq_true, decide_eq_true_eq] at ahead
    rcases waits with short | ⟨w, queued, before⟩
    · omega
    · have := ahead w queued
      omega
  simp only [takeOp, alone, units, Nat.not_lt.2 fits, or_self, blocked, Bool.false_eq_true, ↓reduceIte]

theorem tryTakeOp_out_of_range (bad : e.req.payload = 0 ∨ v.limit.toNat < e.req.payload.toNat) :
    tryTakeOp e k v s = finish e .rangeError 0 none s := by
  simp only [tryTakeOp, bad, ↓reduceIte]

theorem tryTakeOp_granted (units : e.req.payload ≠ 0) (fits : e.req.payload.toNat ≤ v.limit.toNat)
    (there : e.req.payload.toNat ≤ v.count.toNat) (free : s.waitersOf k = []) :
    tryTakeOp e k v s = finish e .ok (v.count - e.req.payload) (some (.take k none e.req.payload))
      (count k.part 6 (s.setBody k (.semaphore { v with count := v.count - e.req.payload }))) := by
  simp only [tryTakeOp, units, Nat.not_lt.2 fits, or_self, there, hasWaiters_isEmpty, free, List.isEmpty_nil,
    Bool.not_true, Bool.not_false, and_self, ↓reduceIte]

theorem tryTakeOp_would_block (units : e.req.payload ≠ 0) (fits : e.req.payload.toNat ≤ v.limit.toNat)
    (waits : v.count.toNat < e.req.payload.toNat ∨ s.waitersOf k ≠ []) :
    tryTakeOp e k v s = finish e .wouldBlock v.count none s := by
  have blocked : ¬(e.req.payload.toNat ≤ v.count.toNat ∧ (!s.hasWaiters k) = true) := by
    rw [hasWaiters_isEmpty, Bool.not_not, List.isEmpty_iff]
    rintro ⟨there, free⟩
    rcases waits with short | queued
    · omega
    · exact queued free
  simp only [tryTakeOp, units, Nat.not_lt.2 fits, or_self, blocked, ↓reduceIte]

/-! A semaphore's operations are dispatched by opcode (R40). -/

theorem performBody_take (h : ObjHdr) (op : e.op = .take) : performBody e k ⟨h, .semaphore v⟩ s = takeOp e k v s := by
  simp only [performBody, op]

theorem performBody_tryTake (h : ObjHdr) (op : e.op = .tryTake) :
    performBody e k ⟨h, .semaphore v⟩ s = tryTakeOp e k v s := by
  simp only [performBody, op]

end

/-- Settles O1: the operation meets `takeOp` or `tryTakeOp` at its object, and each row of R115 is one case of these. -/
theorem semaphoreTakes : Obligations.SemaphoreTakes := by
  unfold Obligations.SemaphoreTakes
  intro p a f h v s e
  refine ⟨fun ready he alone => ?_, fun ready he => ?_⟩
  · obtain ⟨A, O, M, G, runs, atObject, home, req, op, -, -⟩ := ready.run he rfl rfl (i := .take p a f) rfl
    rw [performBody_take h op] at runs
    refine ⟨fun bad => ⟨_, performs_now home ?_ (atObject [])⟩,
      fun units fits there first => ⟨_, performs_body home (by omega) ready.port.hobble ?_ (atObject [])⟩,
      fun units fits waits => ⟨_, parks_now home rfl rfl ?_ atObject⟩⟩ <;> subst req
    · rw [runs, takeOp_out_of_range (s := s.regate A O M G) alone bad]
    · rw [runs, takeOp_granted (s := s.regate A O M G) alone units fits there first]; rfl
    · rw [runs, takeOp_parked (s := s.regate A O M G) alone units fits waits]; rfl
  · obtain ⟨A, O, M, G, runs, atObject, home, req, op, -, -⟩ := ready.run he rfl rfl (i := .tryTake p a f) rfl
    rw [performBody_tryTake h op] at runs
    refine ⟨fun bad => ⟨_, performs_now home ?_ (atObject [])⟩,
      fun units fits there free => ⟨_, performs_body home (by omega) ready.port.hobble ?_ (atObject [])⟩,
      fun units fits waits => ⟨_, performs_now home ?_ (atObject [])⟩⟩ <;> subst req
    · rw [runs, tryTakeOp_out_of_range (s := s.regate A O M G) bad]
    · rw [runs, tryTakeOp_granted (s := s.regate A O M G) units fits there free]; rfl
    · rw [runs, tryTakeOp_would_block (s := s.regate A O M G) units fits waits]

/-! ### Events -/

section
variable {e : OpEntry} {k : OKey} {v : Event} {s : State}

theorem signalOp_of_set (set : v.set = true) : signalOp e k v s = finish e .ok 0 none (count k.part 5 s) := by
  simp only [signalOp, setEvent, set, ↓reduceIte]

/-- The event's word after a `SIGNAL` that sets it, before its waiters leave (R118). -/
def signalled (e : OpEntry) (k : OKey) (s : State) : State :=
  (count k.part 5 s).setBody k (.event ⟨true, e.agent, e.node, s.stamp64 e⟩)

theorem signalOp_of_clear (clear : v.set = false) :
    signalOp e k v s = finish e .ok 0 none (wakeAll (takeWaiters k (fun _ => true) (signalled e k s)).1 .ok 0
      (e.agent, e.node, 0) (takeWaiters k (fun _ => true) (signalled e k s)).2) := by
  simp only [signalOp, setEvent, clear, Bool.false_eq_true, ↓reduceIte, signalled]

theorem waitEventOp_malformed (noWait : reqAux0 e.req = true) :
    waitEventOp e k v s = finish e .formatError 0 none s := by
  simp only [waitEventOp, noWait, ↓reduceIte]

theorem waitEventOp_again (aux : reqAux0 e.req = false) (here : e.txid = none)
    (again : s.agentWaits k e.node e.agent = true) : waitEventOp e k v s = finish e .rangeError 0 none s := by
  simp only [waitEventOp, aux, here, again, Option.isNone_none, Bool.false_eq_true, and_self, ↓reduceIte]

theorem waitEventOp_of_set (aux : reqAux0 e.req = false) (alone : s.agentWaits k e.node e.agent = false)
    (set : v.set = true) : waitEventOp e k v s = finish e .ok 0 none (count k.part 2 s) := by
  simp only [waitEventOp, aux, alone, set, Bool.false_eq_true, and_false, ↓reduceIte]

theorem waitEventOp_of_clear (aux : reqAux0 e.req = false) (here : e.txid = none)
    (alone : s.agentWaits k e.node e.agent = false) (clear : v.set = false) :
    waitEventOp e k v s =
      finishParked e (park { waiterOf e k (count k.part 2 s) with parity := false } (count k.part 2 s)) := by
  simp only [waitEventOp, parkWait, aux, here, alone, clear, Option.isSome_none, Bool.false_eq_true, and_false, ↓reduceIte]

/-! An event's operations are dispatched by opcode (R40). -/

theorem performBody_signal (h : ObjHdr) (op : e.op = .signal) : performBody e k ⟨h, .event v⟩ s = signalOp e k v s := by
  simp only [performBody, op]

theorem performBody_wait (h : ObjHdr) (op : e.op = .wait) : performBody e k ⟨h, .event v⟩ s = waitEventOp e k v s := by
  simp only [performBody, op]

end

/-- A waiter's entry reads the time and the node, which counting leaves (R58, R111). -/
theorem waiterOf_count (e : OpEntry) (k : OKey) (p : PartId) {i : Nat} (hi : i < 46) (s : State) :
    waiterOf e k (count p i s) = waiterOf e k s := by
  have frame := count_frame_counters p hi s
  have time : (count p i s).clk.time = s.clk.time := frame.of (c := .time) (by simp)
  have node : (count p i s).fab.nodeId = s.fab.nodeId := congrArg (·.1) (frame.of (c := .routes) (by simp))
  simp only [waiterOf, State.stampOf, State.now, time, node]

/-- What a `SIGNAL` that sets its event leaves before it wakes: the latch, the setter, and an empty queue (R118). -/
theorem signalled_empties {e : OpEntry} {o : Obj} {s x : State} (h : AtObject e [] [] s x)
    (ho : x.obj (opKey e) = some o) (hz : s.obs.hobble.state = 0) :
    (takeWaiters (opKey e) (fun _ => true) (signalled e (opKey e) x)).1 = s.waitersOf (opKey e) ∧
    ∃ hd, (takeWaiters (opKey e) (fun _ => true) (signalled e (opKey e) x)).2.obj (opKey e) =
        some ⟨hd, .event ⟨true, e.agent, e.node, x.stamp64 e⟩⟩ ∧
      hd.parked = false ∧ hd.part = o.hdr.part ∧ hd.tree = o.hdr.tree ∧ hd.watch = o.hdr.watch ∧
      (takeWaiters (opKey e) (fun _ => true) (signalled e (opKey e) x)).2.wmc.waiters =
        s.wmc.waiters.filter (fun w => decide (w.key ≠ opKey e)) ∧
      AtObject e [(e.part, 5)] [.waiters] s (takeWaiters (opKey e) (fun _ => true) (signalled e (opKey e) x)).2 := by
  have word : (signalled e (opKey e) x).obj (opKey e) =
      some { o with body := .event ⟨true, e.agent, e.node, x.stamp64 e⟩ } :=
    obj_setBody _ ((count_obj ..).trans ho)
  have counted : AtObject e [(e.part, 5)] [] s (signalled e (opKey e) x) :=
    (h.count_one hz e.part (by omega)).setBody (by simp) (by simp) _
  exact counted.empties word

/-- Settles O3: a `SIGNAL` of a clear event writes the word of `signalled` and empties the queue; the other clauses
are the remaining cases of `signalOp` and `waitEventOp`. -/
theorem events : Obligations.Events := by
  unfold Obligations.Events
  intro p a f h v s e
  refine ⟨fun ready he => ?_, fun ready he => ?_⟩
  · obtain ⟨A, O, M, G, runs, atObject, home, -, op, -, setter⟩ := ready.run he rfl rfl (i := .signal p a f) rfl
    rw [performBody_signal h op] at runs
    have word : (s.regate A O M G).obj (opKey e) = some ⟨h, .event v⟩ := home.obj
    refine ⟨fun set => ⟨_, performs_count ?_ word (atObject []) ready.port.hobble (by omega)⟩, fun clear => ?_⟩
    · rw [runs, signalOp_of_set set]; rfl
    · obtain ⟨woken, hd, latch, unparked, part, tree, watch, queue, rest⟩ :=
        signalled_empties (atObject []) word ready.port.hobble
      have stamp : (s.regate A O M G).stamp64 e = s.time64 := he ▸ rfl
      rw [stamp, setter] at latch
      exact ⟨_, hd, by rw [runs, signalOp_of_clear clear, woken], latch, unparked, part, tree, watch, queue, rest⟩
  · obtain ⟨A, O, M, G, runs, atObject, home, req, op, here, -⟩ := ready.run he rfl rfl (i := .wait p a f) rfl
    rw [performBody_wait h op] at runs
    have word : (s.regate A O M G).obj (opKey e) = some ⟨h, .event v⟩ := home.obj
    refine ⟨fun noWait => ⟨_, performs_now home ?_ (atObject [])⟩,
      fun aux again => ⟨_, performs_now home ?_ (atObject [])⟩,
      fun aux alone set => ⟨_, performs_count ?_ word (atObject []) ready.port.hobble (by omega)⟩,
      fun aux alone clear => ⟨_, parks_at (o' := ⟨h, .event v⟩) rfl rfl ?_ ((count_obj ..).trans word) rfl rfl rfl
        ((atObject []).count_one ready.port.hobble e.part (i := 2) (by omega))⟩⟩ <;> subst req
    · rw [runs, waitEventOp_malformed noWait]
    · rw [runs, waitEventOp_again (s := s.regate A O M G) aux here again]
    · rw [runs, waitEventOp_of_set (s := s.regate A O M G) aux alone set]; rfl
    · rw [runs, waitEventOp_of_clear (s := s.regate A O M G) aux here alone clear,
        waiterOf_count _ _ _ (by omega)]; rfl

/-! ### Cells -/

/-- What a `CAS` makes of the word of its cell: nothing when the expected value is not there (R121). -/
def casWrite (e : OpEntry) (k : OKey) (c : Cell) (s : State) : State :=
  if c.value = e.expected then
    s.setBody k (.cell { value := e.req.payload, lastAgent := e.agent, lastNode := e.node })
  else s

section
variable (e : OpEntry) (k : OKey) (c : Cell) (s : State)

theorem casOp_eq : casOp e k c s = finish e .ok c.value none (casWrite e k c (count k.part 10 s)) := by
  rw [casOp, casWrite]
  split <;> rfl

theorem performBody_cas (h : ObjHdr) (op : e.op = .cas) : performBody e k ⟨h, .cell c⟩ s = casOp e k c s := by
  simp only [performBody, op]

theorem performBody_fetchAdd (h : ObjHdr) (op : e.op = .fetchAdd) :
    performBody e k ⟨h, .cell c⟩ s = fetchAddOp e k c s := by
  simp only [performBody, op]

theorem casWrite_obj {h : ObjHdr} (ho : s.obj k = some ⟨h, .cell c⟩) :
    (casWrite e k c s).obj k =
      some ⟨h, .cell (if c.value = e.expected then ⟨e.req.payload, e.agent, e.node⟩ else c)⟩ := by
  unfold casWrite
  split
  · exact obj_setBody _ ho
  · exact ho

theorem casWrite_frame : Frame [.rows] s (casWrite e k c s) :=
  .ite (State.setBody_frame _ _ _ (by simp) (.refl _ s)) (.refl _ s)

theorem casWrite_slots : SlotsBut k s (casWrite e k c s) := by
  unfold casWrite
  split
  · exact setBody_slots _ _ _
  · exact .refl _ _

end

/-! ### The two flits of a `CAS` -/

/-- A port that is ready takes the flit and spends a credit (R50, R51). -/
theorem issue_of_portReady {p : PortNo} {a : LocalAgent} {s : State} (h : PortReady p a s) (code : Byte) (f : Req) :
    issue p a code f s = captureFlit p a code f (s.modAp p fun x => { x with reqCredits := x.reqCredits - 1 }) := by
  have credit : (s.ap p).reqCredits ≠ 0 := by have := h.credit; omega
  have accepting : (s.ap p).window a = false := by
    simp only [ApPort.window, List.any_eq_false, Bool.and_eq_true, decide_eq_true_eq, not_and]
    exact fun r mem same => absurd same (h.window r mem)
  simp only [issue, takeFlit, flitCode_flitWord, flitReq_flitWord, h.up, credit, accepting, Bool.not_true, Bool.false_eq_true,
    ↓reduceIte]

/-- The first flit of a `CAS` waits in the port for its second (R57). -/
theorem exec_cas_first {p : PortNo} {a : LocalAgent} {f : Req} {s : State} (h : PortReady p a s)
    (unpaired : (s.ap p).casFirst = none) :
    exec (.cas p a f) s = .next ((s.modAp p fun x => { x with reqCredits := x.reqCredits - 1 }).modAp p
      fun x => { x with casFirst := some ⟨a, 0x40, f, none⟩ }) := by
  change Host.Outcome.next (issue p a 0x40 f s) = _
  simp only [issue_of_portReady h, captureFlit, State.ap_modAp, unpaired, captureNext, ↓reduceIte]

/-- The port as the pair of a `CAS` stands alone in its ingress buffer, both credits spent (R51, R57). -/
def pairCaptured (p : PortNo) (pair : Flit) (s : State) : State :=
  ((s.modAp p fun x => { x with reqCredits := x.reqCredits - 1 }).modAp p fun x => { x with casFirst := none }).modAp p
    fun x => { x with ingress := x.ingress ++ [pair] }

/-- While no Hobble runs, a flit that enters a port is not noted apart (R363). -/
theorem enterIngress_run (p : PortNo) (f : Flit) {s : State} (hz : s.obs.hobble.state = 0) :
    enterIngress p f s = feed p (s.modAp p fun x => { x with ingress := x.ingress ++ [f] }) := by
  have running : ¬(s.modAp p fun x => { x with ingress := x.ingress ++ [f] }).hobbling = true :=
    fun hobbles => of_decide_eq_true hobbles hz
  rw [enterIngress, noteCapture, if_neg running]

/-- The second flit of a `CAS` completes the pair, and what can pass passes (R57). -/
theorem issue_casCont {p : PortNo} {a : LocalAgent} {f g : Req} {s : State} (h : PortReady p a s)
    (first : (s.ap p).casFirst = some ⟨a, 0x40, f, none⟩) :
    issue p a 0xFF g s = feed p (pairCaptured p ⟨a, 0x40, f, some g⟩ s) := by
  simp only [issue_of_portReady h, captureFlit, State.ap_modAp, first, and_self, ↓reduceIte]
  exact enterIngress_run p _ h.hobble

/-- The pair has left the port again, both credits back (R51, R57). -/
def pairPassed (p : PortNo) (pair : Flit) (s : State) : State := popIngress p pair (pairCaptured p pair s)

theorem pairPassed_ap {p : PortNo} {a : LocalAgent} {f g : Req} {s : State} (h : PortReady p a s) :
    (pairPassed p ⟨a, 0x40, f, some g⟩ s).ap p =
      { s.ap p with casFirst := none, reqCredits := (s.ap p).reqCredits + 1 } := by
  have credits : (s.ap p).reqCredits - 1 + 2 = (s.ap p).reqCredits + 1 := by have := h.credit; omega
  simp only [pairPassed, popIngress, pairCaptured, State.ap_modAp, Flit.credits, Option.isSome_some, ↓reduceIte, credits,
    h.empty, List.nil_append, List.drop_succ_cons, List.drop_zero]

theorem pairPassed_ap_of_ne {p q : PortNo} (pair : Flit) (s : State) (hq : q ≠ p) :
    (pairPassed p pair s).ap q = s.ap q := by
  simp only [pairPassed, popIngress, pairCaptured, State.ap_modAp_ne _ _ hq]

theorem State.modAp_of_regate {s t : State} {A : Table ApPort} {O : List OpEntry} {M : List Merge} {G : Table DWord}
    (h : t = s.regate A O M G) (p : PortNo) (f : ApPort → ApPort) :
    t.modAp p f = s.regate (tput ApPort.reset A p.toNat (f (t.ap p))) O M G := by
  subst h
  rfl

theorem regate_ap (s t : State) (O : List OpEntry) (M : List Merge) (G : Table DWord) (p : PortNo) :
    (s.regate t.aps O M G).ap p = t.ap p := rfl

/-- Only the ports' store has changed. -/
theorem pairPassed_regate (p : PortNo) (pair : Flit) (s : State) :
    ∃ A, pairPassed p pair s = s.regate A s.opr.ops s.opr.merges s.obs.gctr := by
  have start : s = s.regate s.aps s.opr.ops s.opr.merges s.obs.gctr := rfl
  rw [pairPassed, popIngress, pairCaptured]
  exact ⟨_, State.modAp_of_regate (State.modAp_of_regate (State.modAp_of_regate (State.modAp_of_regate start p _) p _) p _) p _⟩

/-- An operation that is no arrival reaches its object in a state that differs from `s` in ports, op table and global counters only. -/
theorem countBank_acceptState {p : PortNo} {a : LocalAgent} {op : Op} {f : Req} {cont : Option Req} {s t : State} {A : Table ApPort}
    (apart : (entered p a op f cont s).mergeable = false) (hz : s.obs.hobble.state = 0)
    (ht : t = s.regate A s.opr.ops s.opr.merges s.obs.gctr) :
    ∃ G, countBank (entered p a op f cont s) (acceptState p a op f cont t s) =
      s.regate A (s.opr.ops ++ [entered p a op f cont s]) s.opr.merges G := by
  rw [acceptState_regate hz ht]
  generalize (acceptState p a op f cont t s).obs.gctr = G
  have running : (s.regate A (s.opr.ops ++ [entered p a op f cont s]) s.opr.merges G).frozen = false := frozen_zero hz
  refine ⟨tput 0 G 0 (tgetD 0 G 0 + BitVec.ofNat 64 1), ?_⟩
  rw [countBank, apart, gcount, gcountN_run running]
  rfl

/-- The bind stage passes the pair of a `CAS` that is ready for it on to its cell (R55, R57). -/
theorem bindFlit_pair {p : PortNo} {a : LocalAgent} {f g : Req} {o : Obj} {s : State}
    (port : PortReady p a s) (binds : BindReady p a .cas f (some g) s)
    (home : HomeReady (entered p a .cas f (some g) s) o s) (isCell : accepts o.body .cas = true) :
    ∃ G, bindFlit p ⟨a, 0x40, f, some g⟩ false false (pairPassed p ⟨a, 0x40, f, some g⟩ s) =
      .pass (performBody (entered p a .cas f (some g) s) (opKey (entered p a .cas f (some g) s)) o
        (s.regate (pairPassed p ⟨a, 0x40, f, some g⟩ s).aps (s.opr.ops ++ [entered p a .cas f (some g) s]) s.opr.merges G)) := by
  have own : ((pairPassed p ⟨a, 0x40, f, some g⟩ s).ap p).hold = (s.ap p).hold := by
    rw [pairPassed_ap port]
  have others : ∀ q, q ≠ p → (pairPassed p ⟨a, 0x40, f, some g⟩ s).ap q = s.ap q := fun _ hq => pairPassed_ap_of_ne _ s hq
  obtain ⟨A, regated⟩ := pairPassed_regate p ⟨a, 0x40, f, some g⟩ s
  rw [regated] at own others ⊢
  obtain ⟨G, reached⟩ := countBank_acceptState (p := p) (a := a) (op := .cas) (f := f) (cont := some g) rfl port.hobble
    (rfl : s.regate A s.opr.ops s.opr.merges s.obs.gctr = _)
  have accepted := accept_ready A port.hobble rfl others own binds home isCell (.inr rfl)
  exact ⟨G, accepted.trans (by rw [reached]; rfl)⟩

/-- A `CAS` whose second flit comes is performed within that command, on a state that differs from `s` in its port, in its entry in the op table and in global counters only. -/
theorem exec_casCont {p : PortNo} {a : LocalAgent} {f g : Req} {h : ObjHdr} {c : Cell} {s : State} {e : OpEntry}
    (port : PortReady p a s) (first : (s.ap p).casFirst = some ⟨a, 0x40, f, none⟩) (binds : BindReady p a .cas f (some g) s)
    (he : e = entered p a .cas f (some g) s) (home : HomeReady e ⟨h, .cell c⟩ s) :
    ∃ G, exec (.casCont p a g) s = .next (casOp e (opKey e) c
      (s.regate (pairPassed p ⟨a, 0x40, f, some g⟩ s).aps (s.opr.ops ++ [e]) s.opr.merges G)) := by
  subst he
  have alone : ((pairCaptured p ⟨a, 0x40, f, some g⟩ s).ap p).ingress = [⟨a, 0x40, f, some g⟩] := by
    simp only [pairCaptured, State.ap_modAp, port.empty, List.nil_append]
  obtain ⟨G, accepted⟩ := bindFlit_pair port binds home rfl
  have fed := feedGo_one p _ _ alone port.hobble
  rw [← pairPassed, accepted] at fed
  refine ⟨G, ?_⟩
  change Host.Outcome.next (issue p a 0xFF g s) = _
  rw [issue_casCont port first, fed, performBody_cas _ _ _ _ h rfl]

theorem regate_frame (s : State) (A : Table ApPort) (O : List OpEntry) (G : Table DWord) :
    Frame [.aps, .ops, .gctr] s (s.regate A O s.opr.merges G) := by
  intro c hc
  cases c
  case aps | ops | gctr => simp at hc
  all_goals rfl

/-- What a `CAS` leaves as it completes: the word, one count, and the rest of the banks as before. -/
theorem casWrite_effect {e : OpEntry} {c : Cell} {h : ObjHdr} {s x : State} (hx : Frame [.aps, .ops, .gctr] s x)
    (ho : x.obj (opKey e) = some ⟨h, .cell c⟩) (hz : s.obs.hobble.state = 0) :
    (casWrite e (opKey e) c (count e.part 10 x)).obj (opKey e) =
        some ⟨h, .cell (if c.value = e.expected then ⟨e.req.payload, e.agent, e.node⟩ else c)⟩ ∧
      Frame [.rows, .counters] x (casWrite e (opKey e) c (count e.part 10 x)) ∧
      Counted [(e.part, 10)] s (casWrite e (opKey e) c (count e.part 10 x)) ∧
      SlotsBut (opKey e) s (casWrite e (opKey e) c (count e.part 10 x)) := by
  have counting := count_frame_counters e.part (i := 10) (by omega) x
  have writing := casWrite_frame e (opKey e) c (count e.part 10 x)
  have running : x.frozen = false := (frozen_frame hx (by simp)).trans (frozen_zero hz)
  have start : x.obs.live = s.obs.live := congrArg (·.1) (hx.of (c := .counters) (by simp))
  have live := congrArg (·.1) (writing.of (c := .counters) (by simp))
  have reached : Frame [.aps, .ops, .gctr, .counters] s (count e.part 10 x) :=
    (hx.mono (by simp)).trans (counting.mono (by simp))
  have rows : (count e.part 10 x).obk.rows = s.obk.rows := reached.of (c := .rows) (by simp)
  exact ⟨casWrite_obj _ _ _ _ ((count_obj ..).trans ho),
    (counting.mono (by simp)).trans (writing.mono (by simp)),
    (((Counted.refl s).same start).count running e.part (by omega)).same live,
    ((SlotsBut.refl _ s).of_rows rows).trans (casWrite_slots _ _ _ _) (slot_frame reached (by simp) (by simp) _)⟩

/-- Settles O4: `fetchAddOp` and the first flit are single cases; the second flit brings the pair to `casOp`, whose
effect is `casWrite_effect`. -/
theorem cells : Obligations.Cells := by
  unfold Obligations.Cells
  intro p a f g h c s e
  refine ⟨fun ready he => ?_, fun port unpaired => ?_, fun port first binds he home => ?_⟩
  · obtain ⟨A, O, M, G, runs, atObject, home, -, op, -, -⟩ := ready.run he rfl rfl (i := .fetchAdd p a f) rfl
    rw [performBody_fetchAdd _ _ _ _ h op] at runs
    have word : (s.regate A O M G).obj (opKey e) = some ⟨h, .cell c⟩ := home.obj
    refine ⟨_, ?_, obj_setBody _ ((count_obj ..).trans word),
      ((atObject []).count_one ready.port.hobble e.part (i := 10) (by omega)).setBody (by simp) (by simp) _⟩
    rw [runs]
    subst he
    rfl
  · refine ⟨_, exec_cas_first port unpaired, ?_, fun q hq => ?_, ?_⟩
    · simp only [State.ap_modAp]
    · simp only [State.ap_modAp_ne _ _ hq]
    · exact State.modAp_frame _ _ _ (by simp) (State.modAp_frame _ _ _ (by simp) (.refl _ s))
  · obtain ⟨G, runs⟩ := exec_casCont port first binds he home
    have passed := regate_frame s (pairPassed p ⟨a, 0x40, f, some g⟩ s).aps (s.opr.ops ++ [e]) G
    obtain ⟨word, frame, counted, slots⟩ := casWrite_effect passed ((regate_obj ..).trans home.obj) port.hobble
    have aps := frame.of (c := .aps) (by simp)
    refine ⟨_, by rw [runs, casOp_eq]; rfl, ?_, frame.of (c := .ops) (by simp),
      by rw [Comp.same_aps aps p, regate_ap, pairPassed_ap port],
      fun q hq => by rw [Comp.same_aps aps q, regate_ap, pairPassed_ap_of_ne _ s hq], counted, slots,
      (passed.mono (by simp)).trans (frame.mono (by simp))⟩
    subst he
    exact word

end Sys2Proof.Machine
end
